-- ==== Sys2Proof/Word.lean ====
section
/-! DEFINITION. The words of the complex (00_scope.md, Notation): 64-bit words, bytes, 128-byte lines,
32-bit syllables, register numbers, and sparse tables. -/

namespace Sys2Proof

/-- A 64-bit word: register contents, addresses, stamps, register ledgers. -/
abbrev Word := BitVec 64

/-- One byte. -/
abbrev Byte := BitVec 8

/-- One 128 B cache line, byte `j` in bits `[8j+7:8j]` (R178, R271). -/
abbrev Line := BitVec 1024

/-- A 32-bit syllable (R91). -/
abbrev Syl := BitVec 32

/-- A g register number, g0 to g63 (R53). -/
abbrev Reg := BitVec 6

/-- A sparse table: key and value pairs with strictly rising keys and no entry equal to the table's
default. The operations that keep this form are in `Machine/Table.lean`. -/
abbrev Table (α : Type) := List (Nat × α)

/-- Bits `[hi:lo]` of a word, as a number. -/
def Word.field (w : Word) (hi lo : Nat) : Nat := (w.toNat / 2 ^ lo) % 2 ^ (hi + 1 - lo)

/-- Bit `i` of a word. -/
def Word.bit (w : Word) (i : Nat) : Bool := w.getLsbD i

/-- A word whose bits `[..:lo]` hold `v`; fields are put together by addition of disjoint parts. -/
def Word.put (v lo : Nat) : Word := BitVec.ofNat 64 (2 ^ lo * v)

/-- A truth value as bit `i` of a word. -/
def Word.flag (b : Bool) (i : Nat) : Word := if b then BitVec.ofNat 64 (2 ^ i) else 0

end Sys2Proof
end

