-- ==== Sys2Proof/Syntax.lean ====
section
/-! DEFINITION. The commands of the block: one constructor of `Instr` for each row of the table of operations
and events, with the operands that the row's rule gives it. -/

namespace Sys2Proof

/-- The six function units of a core, in the order of R58 and R94. -/
inductive FUnit where
  | i0 | i1 | m0 | m1 | x | f
  deriving DecidableEq, Repr

/-- Where a syllable stands: its physical core, its unit, and whether its stop bit ends the bundle (R50, R91). -/
structure Slot where
  core : Nat
  unit : FUnit
  last : Bool
  deriving DecidableEq, Repr

/-- The four ways to form an offset (R64, R107, R110). -/
inductive AddrForm where
  | disp (d : BitVec 6)
  | postInc
  | preDec
  | index (b : Reg) (k : BitVec 3)
  deriving DecidableEq, Repr

/-- The operands of a load, a store or a prefetch (R107, R110): data register field, segment register, base. -/
structure MemOp where
  sl : Slot
  r : Reg
  s : BitVec 4
  a : Reg
  form : AddrForm
  deriving DecidableEq, Repr

/-- The floating-point formats of the fmt field (R123); value 3 is undefined. -/
inductive Fmt where
  | b32 | b64 | b128
  deriving DecidableEq, Repr

/-- Why a fetch fails (R97): a byte beyond the segment, or the answer of the home. -/
inductive FetchCause where
  | beyond
  | refused (reason : Nat)
  | uncorrectable
  deriving DecidableEq, Repr

/-- Who makes an I/O-space access: zone, world, the writing core and its vcid, the stamp (R9, R448, R583). -/
structure IoReq where
  zone : Nat
  world : Bool
  core : Option Nat
  vcid : Nat
  stamp : Word
  deriving DecidableEq, Repr

/-- An I/O-space access with its address and width (R9, R15). -/
structure IoAccess where
  req : IoReq
  addr : Word
  size : Nat
  deriving DecidableEq, Repr

/-- A coherence agent: a quadrant of a module (R214). -/
structure Agent where
  dev : Nat
  quad : Nat
  deriving DecidableEq, Repr

/-- The MOESI states of a line (R216), in the coding order of R271. -/
inductive Moesi where
  | i | s | e | o | m
  deriving DecidableEq, Repr

/-- What the link ECC says of a channel read (R243): nothing, an error that the device corrected, or an uncorrectable one,
after which the controller has read once more. -/
inductive LinkFinding where
  | clean | corrected | repeated
  deriving DecidableEq, Repr

/-- What fires in a core: the row of R152's table (9 and 10: row 5 with two bad bits, in a clean or a dirty line) and the
number of the line or of the checkpoint word it lies in. -/
structure Detection where
  row : Nat
  place : Nat
  deriving DecidableEq, Repr

/-- What a read of a memory channel meets (R243, R245). `flips` names the symbols that differ from what was stored, each
with the value of the differing bits: 0 to 127 the bytes of the line, 128 to 131 its check bytes. `dir` says that the
home's read of the line's directory entry is uncorrectable (R222). -/
structure ReadFinding where
  link : LinkFinding
  flips : List (Nat × Nat)
  dir : Bool
  deriving DecidableEq, Repr

/-- A read without any error. -/
def ReadFinding.clean : ReadFinding := ⟨.clean, [], false⟩

/-- A coherence request as it reaches the home (R217, R271): the sending agent, the stamp, the address, the zone,
the world bit, whether it is a prefetch fill (R187), the starving flag, the credit of a Resend and the bit rs. -/
structure CohReq where
  agent : Agent
  stamp : Word
  addr : Word
  zone : Nat
  world : Bool
  prefetch : Bool
  starve : Bool
  rs : Bool
  deriving DecidableEq, Repr

/-- The kinds of request of R217. -/
inductive ReqKind where
  | rdShared | rdOwn | upgrade | rdOnce
  | wrLine (data : Line) | wrPart (mask : BitVec 128) (data : Line)
  | cleanLine | invLine | cleanInvLine
  deriving DecidableEq, Repr

/-- A snoop as it reaches a quadrant of this module (R217). -/
structure Snoop where
  quad : Nat
  home : Nat
  stamp : Word
  addr : Word
  zone : Nat
  req : Agent
  nf : Bool
  deriving DecidableEq, Repr

/-- A data response as it reaches the requesting quadrant (R271). -/
structure DataMsg where
  quad : Nat
  home : Nat
  stamp : Word
  addr : Word
  zone : Nat
  state : Moesi
  dirty : Bool
  poison : Bool
  bonded : Bool
  rs : Bool
  data : Line
  deriving DecidableEq, Repr

/-- A snoop response as it reaches the home (R217, R225). -/
structure SnpRespMsg where
  agent : Agent
  stamp : Word
  addr : Word
  before : Moesi
  after : Moesi
  fwd : Bool
  miss : Bool
  wbp : Bool
  rs : Bool
  poison : Bool
  data : Option Line
  zone : Nat
  deriving DecidableEq, Repr

/-- A write-back as it reaches the home (R224). -/
structure WrBackMsg where
  agent : Agent
  stamp : Word
  addr : Word
  zone : Nat
  poison : Bool
  rs : Bool
  data : Line
  deriving DecidableEq, Repr

/-- The messages that flits carry (R217, R283, R314, R355). -/
inductive FlitOp where
  | rdShared | rdOwn | upgrade | rdOnce | wrLine | wrPart | cleanLine | invLine | cleanInvLine | resendReq
  | snpFwdS | snpFwdO | snpInv | snpClean | snpBack | snpDrop
  | data | fwdData | snpResp | wrBack | evictClean | wbAck | cmp | cmpAck | retry | resend | err | treeNack
  | jmw | jmack | jrel | jrelack | jdrop | jhand | adwr | adrd | addata | aderr | adst
  | hello | origin | delay | sync | heartbeat | prepare | ack | nack | abort | linkdown | lost | sweep
  | takeover | takeoverAck | mbx | report | join
  deriving DecidableEq, Repr

/-- A flit with its header (R270) and its route word (R298). `dst` and `src` are device IDs; `teid` is the
endpoint on the destination module; `inPort` is the port on which it came to this module; `words` are the payload words; `line` is a carried line. -/
structure Flit where
  op : FlitOp
  dst : Nat
  src : Nat
  teid : Nat
  zone : Nat
  stamp : Word
  par : Bool
  poison : Bool
  nf : Bool
  qmask : Nat
  more : Nat
  starve : Bool
  /-- the credit field holds a credit; without it, the field of Data and FwdData holds the granted state (R270, R271) -/
  crv : Bool
  credit : Nat
  rs : Bool
  orph : Bool
  det : Nat
  ddir : Bool
  dl : Bool
  hops : Nat
  tdst : Nat
  inPort : Option Nat
  words : List Word
  line : Option Line
  /-- the source's tree endpoint (R268, R270) -/
  steid : Nat
  /-- the router that the flit has reached, a cluster's 0 to 15, a quadrant's 16 to 19 or the root 20, and the network cycle
  of its arrival there (R267, R279); none where it has not yet left the router that it entered the tree at -/
  hop : Option (Nat × Nat)
  deriving DecidableEq, Repr

/-- A Hezhaul data frame (R297): its sequence number, its acknowledgement, its credit returns
(virtual channel and count), the packets whose last flit it holds, whether a burst goes on in the next frame, the sender
it names where its ID is assigned, the sending port, whether its CRC holds, and the codewords corrected and not correctable that it overlaps (R296, R299, R301). -/
structure Frame where
  seq : Nat
  ack : Nat
  idle : Bool
  credits : List (Nat × Nat)
  flits : List Flit
  cont : Bool
  sender : Option Nat
  port : Nat
  good : Bool
  corr : Nat
  uncorr : Nat
  deriving DecidableEq, Repr

/-- An init frame as it arrives on a port (R297, R302). -/
structure InitFrame where
  p : Nat
  frame : Frame
  deriving DecidableEq, Repr

/-- What the link checks of the tree find on a flit (R274): a quadrant's link recovered it by `n` replays, or failed
after 8 of them; a parity error of the payload, or of the header in a quadrant's router or at the root. -/
inductive LinkCheck where
  | good | replayed (quad n : Nat) | failed (quad : Nat) | payload | header (quad : Option Nat)
  deriving DecidableEq, Repr

/-- A HELLO as it arrives (R311, R314). -/
structure HelloMsg where
  serial : Word
  kind : Bool
  masterEn : Bool
  noMirror : Bool
  port : Nat
  sizes : List Nat
  devId : Option Nat
  recordCrc : Nat
  deriving DecidableEq, Repr

/-- The six items of a configuration image (R507). Lists are sparse tables over the item's index. -/
structure CfgImage where
  vintage : Nat
  topo : Word
  linksDown : List (Nat × Nat)
  partners : Table Nat
  zonTb : Word
  zonCtl : Word
  slots : Table Nat
  reaction : Table Word
  curves : Table Word
  keyMap : Table Word
  deriving DecidableEq, Repr

/-- The straps as the pins stand (R550). -/
structure Straps where
  masterEn : Bool
  noMirror : Bool
  epA : Bool
  epB : Bool
  bootSel : Nat
  deriving DecidableEq, Repr

/-- The readings of one core at a sextant watch (R169): its four replicas' slacks in ps and its two ring oscillators in
kHz. -/
structure CoreReading where
  core : Nat
  slacks : List Nat
  oscs : List Nat
  deriving DecidableEq, Repr

/-- The worst slack of a core's four replicas in ps, 0 to 254 (R169, R177). -/
def CoreReading.slack (x : CoreReading) : Nat := x.slacks.foldl min 254

/-- What the eye monitor of a lane reads: ports 0 to 11 Hezhaul, 12 and 13 the PCIe controllers; the eye's height in mV and
its width in 1/64 UI (R169). -/
structure LaneReading where
  port : Nat
  lane : Nat
  height : Nat
  width : Nat
  deriving DecidableEq, Repr

/-- What a watch reads (R169). -/
structure Readings where
  cores : List CoreReading
  lanes : List LaneReading
  deriving DecidableEq, Repr

/-- What the background walker meets (R191): (core or slice, L3?, kind of error, zone, address). -/
inductive WalkError where
  | corrected | cleanRefetch | dirtyPoison | tagRepair | tagsLost
  deriving DecidableEq, Repr

/-- One finding of the background walker (R192). -/
structure WalkFinding where
  l3 : Bool
  unit : Nat
  err : WalkError
  way : Nat
  line : Nat
  deriving DecidableEq, Repr

/-- A mailbox of Relrax (R480). -/
inductive Mbx where
  | host
  | ring (zone : Nat)
  | bonded
  | master (stamp : Word)
  deriving DecidableEq, Repr

/-- The payload of an MBX flit (R490). -/
structure MbxMsg where
  origin : Nat
  kind : Nat
  zone : Nat
  result : Bool
  stamp : Word
  words : List Word
  deriving DecidableEq, Repr

/-- Data that a read returns: the bytes, and how it went (R246, R80). -/
inductive ReadResult where
  | ok (data : List Byte)
  | poisoned
  | refused (reason : Nat)
  deriving DecidableEq, Repr

/-- A journal record (R353), without its CRC. -/
structure JRec where
  phase : Nat
  cp : Nat
  sub : Nat
  count : Nat
  stamp : Word
  zone : Nat
  kind : Nat
  cmdSent : Bool
  unmirrored : Bool
  error : Nat
  seq : Nat
  mover : Nat
  firstCcw : Word
  curCcw : Word
  param : Word
  acceptedAt : Nat
  deadline : Nat
  bytes : Nat
  residual : Nat
  devStatus : Nat
  outBytes : Nat
  cstamp : Word
  slot : Nat
  entry : List Word
  deriving DecidableEq, Repr

/-- An adapter status record (R346). -/
structure StatusRec where
  stamp : Word
  seq : Nat
  status : Nat
  residual : Nat
  deriving DecidableEq, Repr

/-- A report to the fault collector (R513 to R515). -/
structure Report where
  source : Nat
  cls : Nat
  reason : Nat
  stamp : Word
  addr : Word
  detail : Word
  zone : Nat
  quad : Option Nat
  bonded : Bool
  deriving DecidableEq, Repr

/-- An inbound PCIe memory request (R576). -/
structure PcieReq where
  ctl : Nat
  rid : Nat
  bus : Nat
  write : Option (List Byte)
  len : Nat
  deriving DecidableEq, Repr

/-- A JTAG request (R473, R570). -/
inductive JtagReq where
  | debug (core : Nat) (invasive : Bool)
  | flash
  | boundary
  deriving DecidableEq, Repr

/-- A start-up step as the flash, the rails or the fabric report it (R556). -/
inductive BootCopy where
  | none | a | b
  deriving DecidableEq, Repr

/-- What discovery found: the modules strapped MASTER_EN that answered (R29), and the positions from which no module took
part (R311). -/
structure Found where
  eligible : List Nat
  absent : List Nat
  deriving DecidableEq, Repr

/-- The commands of the block: one constructor per row of the table of operations and events.
`sl` is where a syllable stands; `f` is the suffix .f; `d`, `a`, `b` are register fields; `core`, `p`, `c`, `n` and so
on number the unit that the event concerns; `q` is the requester of a register write. -/
inductive Instr where
  -- registers, meridian, vintage (R7, R21 to R49)
  | registerWrite (a : IoAccess) (v : Word)
  | merPpsInEdge
  | ppsTimeout
  | sync (port : Nat) (mer : Word) (vintage masterId : Nat)
  | heartbeatInterval
  | heartbeat (port vintage digest16 dev role : Nat)
  | masterMissing
  | takeoverRequestTimer
  | takeover (candidate vintage : Nat)
  | takeoverAck (dev vintage : Nat)
  | takeoverTimeout
  | prepare (vintage : Nat) (digest : Word) (act : Nat) (catchup : Bool) (image : CfgImage)
  | ack (dev vintage : Nat)
  | nack (dev vintage : Nat)
  | abortDeadline
  | abort (vintage : Nat)
  | vintageActivation
  | managementResend
  | report (kind dev : Nat)
  | stampWatermark
  | linkDelayRemeasure
  | delay (port : Nat) (answer : Bool) (t1 t2 t3 : Nat)
  -- integer syllables (R98 to R106)
  | add (sl : Slot) (f : Bool) (d a b : Reg)
  | adc (sl : Slot) (f : Bool) (d a b : Reg)
  | sub (sl : Slot) (f : Bool) (d a b : Reg)
  | sbc (sl : Slot) (f : Bool) (d a b : Reg)
  | and (sl : Slot) (f : Bool) (d a b : Reg)
  | or (sl : Slot) (f : Bool) (d a b : Reg)
  | xor (sl : Slot) (f : Bool) (d a b : Reg)
  | andn (sl : Slot) (f : Bool) (d a b : Reg)
  | min (sl : Slot) (f : Bool) (d a b : Reg)
  | max (sl : Slot) (f : Bool) (d a b : Reg)
  | minu (sl : Slot) (f : Bool) (d a b : Reg)
  | maxu (sl : Slot) (f : Bool) (d a b : Reg)
  | neg (sl : Slot) (f : Bool) (d a : Reg)
  | abs (sl : Slot) (f : Bool) (d a : Reg)
  | shl (sl : Slot) (f w : Bool) (d a b : Reg)
  | shr (sl : Slot) (f w : Bool) (d a b : Reg)
  | sar (sl : Slot) (f w : Bool) (d a b : Reg)
  | sal (sl : Slot) (f w : Bool) (d a b : Reg)
  | rol (sl : Slot) (f w : Bool) (d a b : Reg)
  | ror (sl : Slot) (f w : Bool) (d a b : Reg)
  | mul (sl : Slot) (f : Bool) (d a b : Reg)
  | mulhu (sl : Slot) (f : Bool) (d a b : Reg)
  | mulhs (sl : Slot) (f : Bool) (d a b : Reg)
  | divu (sl : Slot) (f : Bool) (d a b : Reg)
  | divs (sl : Slot) (f : Bool) (d a b : Reg)
  | remu (sl : Slot) (f : Bool) (d a b : Reg)
  | rems (sl : Slot) (f : Bool) (d a b : Reg)
  | sel (sl : Slot) (c : BitVec 4) (d a b : Reg)
  | sxtb (sl : Slot) (d a : Reg)
  | sxth (sl : Slot) (d a : Reg)
  | sxtw (sl : Slot) (d a : Reg)
  | zxtb (sl : Slot) (d a : Reg)
  | zxth (sl : Slot) (d a : Reg)
  | zxtw (sl : Slot) (d a : Reg)
  | clz (sl : Slot) (d a : Reg)
  | ctz (sl : Slot) (d a : Reg)
  | popc (sl : Slot) (d a : Reg)
  | bswap (sl : Slot) (d a : Reg)
  | addi (sl : Slot) (f : Bool) (d a : Reg) (imm : BitVec 10)
  | subi (sl : Slot) (f : Bool) (d a : Reg) (imm : BitVec 10)
  | andi (sl : Slot) (d a : Reg) (imm : BitVec 10)
  | ori (sl : Slot) (d a : Reg) (imm : BitVec 10)
  | xori (sl : Slot) (d a : Reg) (imm : BitVec 10)
  | shi (sl : Slot) (f : Bool) (d a : Reg) (imm : BitVec 10)
  | ins (sl : Slot) (d : Reg) (h : BitVec 2) (imm : BitVec 16)
  | ldiz (sl : Slot) (d : Reg) (h : BitVec 2) (imm : BitVec 16)
  | ldio (sl : Slot) (d : Reg) (h : BitVec 2) (imm : BitVec 16)
  -- memory syllables (R107 to R115)
  | ldb (m : MemOp)
  | ldh (m : MemOp)
  | ldw (m : MemOp)
  | ldd (m : MemOp)
  | ldbs (m : MemOp)
  | ldhs (m : MemOp)
  | ldws (m : MemOp)
  | lda (m : MemOp)
  | stb (m : MemOp)
  | sth (m : MemOp)
  | stw (m : MemOp)
  | std (m : MemOp)
  | sta (m : MemOp)
  | ldp (m : MemOp)
  | stp (m : MemOp)
  | pf (m : MemOp)
  | ldrsv (sl : Slot) (wide : Bool) (r : Reg) (s : BitVec 4) (a : Reg)
  | stcnd (sl : Slot) (wide : Bool) (r : Reg) (s : BitVec 4) (a : Reg)
  | fenceSl (sl : Slot)
  | fenceIo (sl : Slot)
  | fenceFull (sl : Slot)
  | ldseg (sl : Slot) (s : BitVec 4) (a : Reg)
  | cmaintByAddress (sl : Slot) (x : BitVec 2) (s : BitVec 4) (a : Reg)
  | cmaintByZone (sl : Slot) (x : BitVec 2) (a : Reg)
  | cmaintGlobal (sl : Slot) (x : BitVec 2)
  | cmaintComplete (core : Nat)
  -- branch and control syllables (R116 to R121)
  | b (sl : Slot) (disp : BitVec 22)
  | bcc (sl : Slot) (c : BitVec 4) (disp : BitVec 18)
  | br (sl : Slot) (a : Reg)
  | call (sl : Slot) (disp : BitVec 22)
  | callr (sl : Slot) (a : Reg)
  | callm (sl : Slot) (m : Reg) (disp : BitVec 16)
  | callmr (sl : Slot) (m a : Reg)
  | ret (sl : Slot)
  | retm (sl : Slot)
  | far (sl : Slot) (a b : Reg)
  | svc (sl : Slot) (imm : BitVec 16)
  | eret (sl : Slot)
  | rep (sl : Slot) (body : List Syl)
  | repIteration (core : Nat)
  | mtpcnt (sl : Slot) (a : Reg)
  | mtpcnti (sl : Slot) (imm : BitVec 16)
  | mfpcnt (sl : Slot) (d : Reg)
  | mfpsw (sl : Slot) (d : Reg)
  | mtpsw (sl : Slot) (a : Reg)
  | mffcsr (sl : Slot) (d : Reg)
  | mtfcsr (sl : Slot) (a : Reg)
  | mfctl (sl : Slot) (d : Reg) (num : BitVec 8)
  | mtctl (sl : Slot) (a : Reg) (num : BitVec 8)
  | mfsp (sl : Slot) (d : Reg) (rsp : Bool)
  | mtsp (sl : Slot) (a : Reg) (rsp : Bool)
  | adjsp (sl : Slot) (imm : BitVec 16)
  | savectx (sl : Slot)
  | restctx (sl : Slot)
  | wait (sl : Slot)
  | waitWake (core : Nat)
  | brk (sl : Slot) (imm : BitVec 16)
  | bcall (sl : Slot) (imm : BitVec 16)
  | bret (sl : Slot)
  | bwdr (sl : Slot) (a : Reg)
  -- floating point, decimal, accumulators (R122 to R130)
  | fadd (sl : Slot) (fmt : Fmt) (d a b : Reg)
  | fsub (sl : Slot) (fmt : Fmt) (d a b : Reg)
  | fmul (sl : Slot) (fmt : Fmt) (d a b : Reg)
  | fdiv (sl : Slot) (fmt : Fmt) (d a b : Reg)
  | fsqrt (sl : Slot) (fmt : Fmt) (d a : Reg)
  | fmin (sl : Slot) (fmt : Fmt) (d a b : Reg)
  | fmax (sl : Slot) (fmt : Fmt) (d a b : Reg)
  | fcmp (sl : Slot) (fmt : Fmt) (a b : Reg)
  | fma (sl : Slot) (fmt : Fmt) (d a b : Reg)
  | fms (sl : Slot) (fmt : Fmt) (d a b : Reg)
  | fnma (sl : Slot) (fmt : Fmt) (d a b : Reg)
  | fcvt (sl : Slot) (kind : BitVec 4) (sf df : BitVec 2) (d a : Reg)
  | dadd (sl : Slot) (d a b : Reg)
  | dsub (sl : Slot) (d a b : Reg)
  | dcmp (sl : Slot) (a b : Reg)
  | dtoi (sl : Slot) (d a : Reg)
  | itod (sl : Slot) (d a : Reg)
  | accclr (sl : Slot) (acc : BitVec 2)
  | accrd (sl : Slot) (acc : BitVec 2) (g : Reg)
  | accwr (sl : Slot) (acc : BitVec 2) (g : Reg)
  | accrnd (sl : Slot) (acc : BitVec 2) (g : Reg)
  | macm (sl : Slot) (var : BitVec 2) (acc : BitVec 2) (ga : Reg) (sa : BitVec 4) (gb : Reg) (sb : BitVec 4)
  -- core events (R83 to R89, R152 to R177, R182 to R192, R208, R213)
  | externalInterrupt (core : Nat)
  | doorbell (core : Nat)
  | storeDrain (core : Nat)
  | bundleRetry (core : Nat) (detector : Detection)
  | progressMonitorExpiry (core : Nat)
  | reliefStart (core reason : Nat)
  | reliefFlushDone (core : Nat)
  | sparePowered (cluster : Nat)
  | reliefImageArrived (cluster : Nat) (crcOk : Bool)
  | reliefResume (cluster : Nat)
  | sextantWatch (r : Readings)
  | nearCacheFill (core line : Nat)
  | nearCtlDisable (q : IoReq) (core : Nat) (v : Word)
  | nearCtlEnable (q : IoReq) (core : Nat) (v : Word)
  | nearCtlPf (q : IoReq) (core : Nat) (v : Word)
  | nearCleaningDone (core : Nat)
  | l2L3Walk (findings : List WalkFinding)
  | reservationDeferralTimeout (core : Nat)
  | wcBufferTimeout (core line : Nat)
  -- coherence (R214 to R232)
  | rdshared (r : CohReq) (e : ReadFinding)
  | rdown (r : CohReq) (e : ReadFinding)
  | upgrade (r : CohReq) (e : ReadFinding)
  | rdonce (r : CohReq) (e : ReadFinding)
  | wrline (r : CohReq) (data : Line) (verify : Nat)
  | wrpart (r : CohReq) (mask : BitVec 128) (data : Line) (e : ReadFinding)
  | cleanline (r : CohReq)
  | invline (r : CohReq)
  | cleaninvline (r : CohReq)
  | resendRequest (r : CohReq) (kind : ReqKind) (credit : Nat) (e : ReadFinding)
  | snpfwds (m : Snoop)
  | snpfwdo (m : Snoop)
  | snpinv (m : Snoop)
  | snpclean (m : Snoop)
  | snpback (m : Snoop)
  | snpdrop (m : Snoop)
  | data (m : DataMsg)
  | fwddata (m : DataMsg)
  | snpresp (m : SnpRespMsg)
  | wrback (m : WrBackMsg) (verify : Nat)
  | evictclean (agent : Agent) (stamp addr : Word) (rs : Bool)
  | wback (quad : Nat) (addr : Word)
  | cmp (quad : Nat) (stamp addr : Word)
  | cmpack (agent : Agent) (stamp addr : Word)
  | retry (stamp : Word) (credit : Option Nat)
  | resend (stamp : Word)
  | err (stamp : Word) (reason : Nat)
  | creditReclaim (credit : Nat)
  | snoopWarn (line : Nat)
  | lostWalkDone
  -- memory and cellar (R233 to R266)
  | mr4Poll (status : List (Nat × Nat))
  | memoryRetrain (c : Nat)
  | memoryRetrainDone (c rd wr : Nat)
  | patrolPassStart
  | scrubLine (c : Nat) (e : ReadFinding)
  | cellaringCompressed (page : Nat) (verifyOk : Bool)
  | decantExpanded (page : Nat) (readOk : Bool)
  -- tree network (R267 to R291)
  | slotEpoch
  | qosPeriod
  | treeNack (f : Flit)
  | treeNackResend (stamp : Word)
  | flitRoute (f : Flit) (chk : LinkCheck)
  | domainDrained (d : Nat)
  | domainFlushed (d : Nat)
  | domainPowered (d : Nat)
  | trnOldDrained
  | routeStagingTimeout
  -- Hezhaul fabric (R292 to R332)
  | portTrained (p width : Nat)
  | portTrainingTimeout (p : Nat)
  | portSignalLost (p : Nat)
  | frameReceive (p : Nat) (fr : Frame)
  | nakFrame (p : Nat) (fr : Frame)
  | initFrame (m : InitFrame)
  | nakRepeat (p : Nat)
  | ackStall (p : Nat)
  | recoveryDone (p width : Nat)
  | recoveryTimeout (p : Nat)
  | portHeartbeatLoss (p : Nat)
  | receiveHistoryExpiry (p : Nat)
  | laneRetrainDone (p : Nat)
  | hzPctlEnClear (q : IoReq) (p : Nat) (v : Word)
  | hzPctlEnSet (q : IoReq) (p : Nat) (v : Word)
  | hzPctlReach (q : IoReq) (p : Nat) (v : Word)
  | hello (p : Nat) (m : HelloMsg)
  | origin (p : Nat) (serial : Word) (masterEn : Bool)
  | originQuiet
  | linkdown (reporter port neighbour : Nat) (mer : Nat)
  | lostWaitExpiry (dev : Nat)
  | lost (port dev mer : Nat) (stamp : Word)
  | join (port dev : Nat) (stamp : Word)
  | noPortUp
  | sweep (port mer : Nat) (stamp : Word)
  | sweepAgentResend
  | mbx (m : MbxMsg)
  | mbxForwardResend
  | mbxTargetTimeout (stamp : Word)
  -- channel subsystem (R333 to R370)
  | ccwFetched (sub : Nat) (words : List Word) (res : ReadResult)
  | adst (ctl sub : Nat) (r : StatusRec)
  | adwr (ctl : Nat) (bus : Nat) (data : List Byte)
  | adrd (ctl : Nat) (bus len ch : Nat)
  | addata (ch beat : Nat) (data : List Byte)
  | aderr (ch kind : Nat)
  | journalWriteDone (sub : Nat)
  | jmw (port : Nat) (r : JRec)
  | jmack (sub count : Nat)
  | jrel (port sub : Nat) (stamp : Word)
  | jrelack (sub : Nat) (stamp : Word)
  | jdrop (port dev : Nat)
  | jhand (dev : Nat) (r : JRec)
  | operationDeadline (sub : Nat)
  | haltStatusTimeout (sub : Nat)
  | channelProcessorFault (cp : Nat)
  | microwordRunaway (sub : Nat)
  | queueHeadReread (queue : Word)
  | completionPosted (sub : Nat)
  | ucodeLoadTimeout
  -- data movers (R371 to R392)
  | chnTailWrite (q : IoReq) (n : Nat) (v : Word)
  | descriptorFetched (n : Nat) (words : List Word) (res : ReadResult)
  | moverReadData (n beat : Nat) (res : ReadResult)
  | moverWriteConfirm (n beat : Nat)
  | writeBackVisible (n : Nat)
  | moverBusError (n beat : Nat) (write : Bool) (code detail : Nat)
  | chnStatHaltedClear (q : IoReq) (n : Nat)
  | chnCtlPause (q : IoReq) (n : Nat) (v : Word)
  | chnZoneHold (q : IoReq) (n : Nat) (v : Word)
  | chnZoneEn (q : IoReq) (n : Nat) (v : Word)
  | channelPaused (n : Nat)
  | movCtlDisable (q : IoReq) (e : Nat) (v : Word)
  -- compression and cipher engines (R393 to R434)
  | compressionJobAssign
  | compressionBeat (n : Nat) (verifyOk cipherOk : Bool)
  | anchorRebuildDone (n : Nat) (recordOk anchorOk : Bool)
  | cmpChcfgDiscard (q : IoReq) (n : Nat) (v : Word)
  | cmpCtlEngOff (q : IoReq) (v : Word)
  | cipherPipelineAssign
  | cipherYield (e : Nat)
  | cipKcmtLoad (q : IoReq) (v : Word)
  | cipKcmtScrub (q : IoReq) (v : Word)
  | keyCommitDone
  | cipCtlOff (q : IoReq) (v : Word)
  -- zones (R435 to R461)
  | ringHeadReread (zone : Nat)
  | zwSend (q : IoReq) (zone : Nat) (v : Word)
  | zoneResetStepDone (zone step : Nat)
  -- bonded world (R462 to R479)
  | bndOwnWrite (q : IoReq) (v : Word)
  | dbgEnWrite (q : IoReq) (core : Nat) (v : Word)
  | jtagRequest (r : JtagReq)
  | bondedWatchdogExpiry (straps : Straps)
  -- mailboxes and commands (R480 to R512)
  | mbxDbRing (m : Mbx) (q : IoReq) (v : Word)
  | mbzDbRing (q : IoReq) (zone : Nat) (v : Word)
  | mbzRingWrite (q : IoReq) (zone : Nat) (v : Word)
  | relraxCommandDone (m : Mbx)
  | identity (m : Mbx)
  | inventory (m : Mbx)
  | system (m : Mbx)
  | regRead (m : Mbx)
  | regWrite (m : Mbx)
  | zoneCreate (m : Mbx)
  | zoneActivate (m : Mbx)
  | zoneStop (m : Mbx)
  | zoneDestroy (m : Mbx)
  | zoneReset (m : Mbx)
  | zoneStatus (m : Mbx)
  | vcoreBind (m : Mbx)
  | vcoreUnbind (m : Mbx)
  | vcoreStart (m : Mbx)
  | vcoreStop (m : Mbx)
  | imageRead (m : Mbx)
  | imageRelease (m : Mbx)
  | pageAssign (m : Mbx)
  | pageRelease (m : Mbx)
  | pageMap (m : Mbx)
  | pagePin (m : Mbx)
  | cellar (m : Mbx)
  | poolAdd (m : Mbx)
  | poolRemove (m : Mbx)
  | listMove (m : Mbx)
  | listMark (m : Mbx)
  | listRead (m : Mbx)
  | memRetrain (m : Mbx)
  | portStatus (m : Mbx)
  | portSet (m : Mbx)
  | portRetrain (m : Mbx)
  | lostRead (m : Mbx)
  | start (m : Mbx)
  | halt (m : Mbx)
  | refresh (m : Mbx)
  | orphanRead (m : Mbx)
  | subStatus (m : Mbx)
  | history (m : Mbx)
  | faultAck (m : Mbx)
  | logRead (m : Mbx)
  | errRelease (m : Mbx)
  | logNote (m : Mbx)
  | coreRead (m : Mbx)
  | retireClear (m : Mbx)
  | coreRelieve (m : Mbx)
  | merSource (m : Mbx)
  | vintageChange (m : Mbx)
  | configRead (m : Mbx)
  | configExport (m : Mbx)
  | keyLoad (m : Mbx)
  | keyScrub (m : Mbx)
  | granuleTag (m : Mbx)
  | granuleUntag (m : Mbx)
  | ucodeLoad (m : Mbx)
  | ucodeKey (m : Mbx)
  | flashUpdate (m : Mbx)
  | domainOff (m : Mbx)
  | domainOn (m : Mbx)
  | domainCancel (m : Mbx)
  | powerDown (m : Mbx)
  | moduleReset (m : Mbx) (straps : Straps)
  -- faults and logbook (R513 to R545)
  | faultReport (r : Report)
  | isolationSalvageDone (quad : Nat)
  | isolationSalvageTimeout (quad : Nat)
  | escalationTimerExpiry (stamp : Word)
  | quietPeriodExpiry (cls : Nat)
  | errLMinimumEnd
  | fltAckWrite (q : IoReq) (v : Word)
  | fltCtlRelease (q : IoReq) (v : Word)
  | spWatchdogExpiry
  | spLockstepMismatch
  | spRestartDone
  | logEntryWritten
  -- power, reset, start-up, pins (R546 to R580)
  | standbyPowerOn (straps : Straps)
  | pwrOkAssert
  | pwrOkDeassert
  | thermtrip
  | resetLPulse (lowNs : Nat) (straps : Straps)
  | perstInput (ctl : Nat)
  | perstRelease
  | pcieLinkDown (ctl : Nat)
  | pcieInboundRequest (r : PcieReq)
  | relraxBooted (copy : BootCopy)
  | mainRailsGood
  | memoryTrainingDone (retried : Nat) (failed : Bool)
  | discoveryDone (found : Found)
  | meridianLock
  | startupStepTimeout
  | coreRelease (signatureOk : Bool)
  | illegalBundle (core : Nat) (words : List Syl)
  | fetchFault (core : Nat) (cause : FetchCause) (off : Word)
  | standbyPowerLoss
  | merRefLoss
  | merRefReturn
  | pcieLinkUp (ctl speed width : Nat)
  | perstInputRelease (ctl : Nat)
  | frameTransmit (p : Nat)
  | moverBeatIssue (n : Nat)
  | zoneResetStepBudget (zone : Nat)
  | merPpsOutEdge
  deriving DecidableEq, Repr

end Sys2Proof
end

