-- ==== Sys2Proof/Decode.lean ====
section
/-! DEFINITION. Commands that words spell: the table of operations gives no row any bits. -/

namespace Sys2Proof

/-- The command that a word spells. No row of the table gives bits, so no word spells a command. -/
def decodeTableWord (_nbits _w : Nat) : Option Instr := none

end Sys2Proof
end

