-- ==== Sys2Proof/Machine/Crc.lean ====
section
/-! DEFINITION. Byte order and the two checks CRC-32C and CRC-64 (R507, R582). -/

namespace Sys2Proof

/-- The little-endian bytes of a number, `n` of them. -/
def leBytes : Nat → Nat → List Byte
  | 0, _ => []
  | n + 1, v => BitVec.ofNat 8 v :: leBytes n (v / 256)

/-- The number whose little-endian bytes these are. -/
def ofLeBytes : List Byte → Nat
  | [] => 0
  | b :: t => b.toNat + 256 * ofLeBytes t

/-- The bytes of words stored little-endian in ascending address order (R582). -/
def wordsBytes : List Word → List Byte
  | [] => []
  | w :: t => leBytes 8 w.toNat ++ wordsBytes t

/-- The words that bytes hold, eight bytes each; a last partial word is filled with zeros. `n` bounds the count. -/
def bytesWords : Nat → List Byte → List Word
  | 0, _ => []
  | n + 1, bs => BitVec.ofNat 64 (ofLeBytes (bs.take 8)) :: bytesWords n (bs.drop 8)

/-- One reflected step of CRC-32C. -/
def crc32cBit (c : Nat) : Nat := if c % 2 = 1 then (c / 2) ^^^ 0x82F63B78 else c / 2

/-- One byte of CRC-32C. -/
def crc32cByte (c : Nat) (b : Byte) : Nat := Nat.repeat crc32cBit 8 (c ^^^ b.toNat)

/-- CRC-32C over bytes (R582). -/
def crc32c (bs : List Byte) : Nat := (bs.foldl crc32cByte 0xFFFFFFFF) ^^^ 0xFFFFFFFF

/-- One step of CRC-64. -/
def crc64Bit (c : Nat) : Nat :=
  if c / 2 ^ 63 % 2 = 1 then ((c * 2) % 2 ^ 64) ^^^ 0x42F0E1EBA9EA3693 else (c * 2) % 2 ^ 64

/-- One byte of CRC-64. -/
def crc64Byte (c : Nat) (b : Byte) : Nat := Nat.repeat crc64Bit 8 (c ^^^ (b.toNat * 2 ^ 56))

/-- CRC-64 with the ECMA-182 polynomial, initial value 0, neither reflected nor inverted (R507). -/
def crc64 (bs : List Byte) : Nat := bs.foldl crc64Byte 0

end Sys2Proof
end

