-- ==== Sys2Proof/Machine/Aes.lean ====
section
/-! DEFINITION. AES, XTS, CTR and GCM as the pipelines compute them (R416, R418, R422, R423). -/

namespace Sys2Proof

/-- Multiply by x in GF(2^8) with the AES polynomial. -/
def xtime (b : Byte) : Byte := (b <<< 1) ^^^ (if b.getLsbD 7 then 0x1B else 0)

/-- The product of two bytes in that field. -/
def gmul8 (a b : Byte) : Byte :=
  ((List.range 8).foldl (fun (acc : Byte × Byte) i =>
    (if b.getLsbD i then acc.1 ^^^ acc.2 else acc.1, xtime acc.2)) (0, a)).1

/-- The 254th power: the inverse, 0 for 0. -/
def ginv8 (a : Byte) : Byte :=
  let a2 := gmul8 a a
  let a3 := gmul8 a2 a
  let a6 := gmul8 a3 a3
  let a12 := gmul8 a6 a6
  let a15 := gmul8 a12 a3
  let a30 := gmul8 a15 a15
  let a60 := gmul8 a30 a30
  let a120 := gmul8 a60 a60
  let a126 := gmul8 a120 a6
  let a127 := gmul8 a126 a
  gmul8 a127 a127

/-- The S-box. -/
def sbox (a : Byte) : Byte :=
  let b := ginv8 a
  b ^^^ b.rotateLeft 1 ^^^ b.rotateLeft 2 ^^^ b.rotateLeft 3 ^^^ b.rotateLeft 4 ^^^ 0x63

/-- The inverse S-box. -/
def sboxInv (a : Byte) : Byte :=
  ginv8 (a.rotateLeft 1 ^^^ a.rotateLeft 3 ^^^ a.rotateLeft 6 ^^^ 0x05)

def xorBytes (a b : List Byte) : List Byte := List.zipWith (· ^^^ ·) a b

/-- The words of the expanded key from word `i` on, newest first in `ws`; `nk` is 4 or 8. -/
def keyWords (nk : Nat) : Nat → Nat → Byte → List (List Byte) → List (List Byte)
  | 0, _, _, ws => ws
  | n + 1, i, rc, ws =>
    let prev := ws.headD []
    let back := ws.getD (nk - 1) []
    let t := if i % nk = 0 then
        let r := (prev.drop 1 ++ prev.take 1).map sbox
        xorBytes r [rc, 0, 0, 0]
      else if nk = 8 ∧ i % 8 = 4 then prev.map sbox
      else prev
    keyWords nk n (i + 1) (if i % nk = 0 then xtime rc else rc) (xorBytes back t :: ws)

/-- Consecutive pieces of `k` bytes. -/
def chunks (k : Nat) : Nat → List Byte → List (List Byte)
  | 0, _ => []
  | n + 1, bs => bs.take k :: chunks k n (bs.drop k)

/-- The round keys, 16 bytes each: 11 for a 16-byte key, 15 for a 32-byte key. -/
def roundKeys (key : List Byte) : List (List Byte) :=
  let nk := key.length / 4
  let total := 4 * (nk + 7)
  let ws := (keyWords nk (total - nk) nk 1 (chunks 4 nk key).reverse).reverse
  chunks 16 (nk + 7) ws.flatten

/-- The state's byte `r + 4c` after rows are rotated by `k·r` columns. -/
def shiftRows (k : Nat) (st : List Byte) : List Byte :=
  (List.range 16).map (fun i => st.getD ((i % 4 + 4 * ((i / 4 + k * (i % 4)) % 4))) 0)

/-- Each column times the circulant matrix of these coefficients. -/
def mixColumns (m : List Byte) (st : List Byte) : List Byte :=
  (List.range 16).map (fun i =>
    (List.range 4).foldl (fun acc j => acc ^^^ gmul8 (m.getD ((j + 4 - i % 4) % 4) 0) (st.getD (i / 4 * 4 + j) 0)) 0)

/-- Encrypt one 16-byte block. -/
def aesEnc (rks : List (List Byte)) (b : List Byte) : List Byte :=
  let mid := (rks.drop 1).dropLast
  let st := mid.foldl (fun st rk => xorBytes (mixColumns [2, 3, 1, 1] (shiftRows 1 (st.map sbox))) rk)
    (xorBytes b (rks.headD []))
  xorBytes (shiftRows 1 (st.map sbox)) (rks.getLastD [])

/-- Decrypt one 16-byte block. -/
def aesDec (rks : List (List Byte)) (b : List Byte) : List Byte :=
  let mid := ((rks.drop 1).dropLast).reverse
  let st := (shiftRows 3 (xorBytes b (rks.getLastD []))).map sboxInv
  let st := mid.foldl (fun st rk => (shiftRows 3 (mixColumns [14, 11, 13, 9] (xorBytes st rk))).map sboxInv) st
  xorBytes st (rks.headD [])

/-! ## XTS (IEEE 1619) -/

/-- The next tweak: times alpha in GF(2^128), little-endian. -/
def xtsNext (t : Nat) : Nat := if t / 2 ^ 127 % 2 = 1 then (t * 2 % 2 ^ 128) ^^^ 0x87 else t * 2

/-- The tweak of block `k` of data unit `j`. -/
def xtsTweak (key2 : List (List Byte)) (base : Nat) (j k : Nat) : Nat :=
  Nat.repeat xtsNext k (ofLeBytes (aesEnc key2 (leBytes 16 ((base + j) % 2 ^ 128))))

/-- One block under a tweak. -/
def xtsBlock (enc : Bool) (key1 : List (List Byte)) (t : Nat) (b : List Byte) : List Byte :=
  let tb := leBytes 16 t
  xorBytes ((if enc then aesEnc key1 else aesDec key1) (xorBytes b tb)) tb

/-- The last full block and the partial block after it, with ciphertext stealing. `t0` and `t1` are their tweaks. -/
def xtsSteal (enc : Bool) (key1 : List (List Byte)) (t0 t1 : Nat) (bs : List Byte) : List Byte :=
  let a := bs.take 16
  let r := bs.drop 16
  let cc := xtsBlock enc key1 (if enc then t0 else t1) a
  let last := xtsBlock enc key1 (if enc then t1 else t0) (r ++ cc.drop r.length)
  last ++ cc.take r.length

/-! ## CTR and GCM (SP 800-38D) -/

/-- Big-endian bytes of a number. -/
def beBytes (n v : Nat) : List Byte := (leBytes n v).reverse
def ofBeBytes (bs : List Byte) : Nat := ofLeBytes bs.reverse

/-- The counter block: salt, word 5, block counter, each most significant byte first (R422). -/
def ctrBlock (salt : Nat) (iv : Word) (c : Nat) : List Byte :=
  beBytes 4 salt ++ beBytes 8 iv.toNat ++ beBytes 4 (c % 2 ^ 32)

/-- One step of multiplication in GHASH's field: halve, and fold the bit that falls out. -/
def ghHalf (v : Nat) : Nat := if v % 2 = 1 then (v / 2) ^^^ (0xE1 * 2 ^ 120) else v / 2

/-- The product in GHASH's field; bit 127 of the number is the first bit. -/
def ghMul (x y : Nat) : Nat :=
  ((List.range 128).foldl (fun (acc : Nat × Nat) i =>
    (if x.testBit (127 - i) then acc.1 ^^^ acc.2 else acc.1, ghHalf acc.2)) (0, y)).1

/-- GHASH goes on by one block, filled with zeros. -/
def ghStep (h y : Nat) (b : List Byte) : Nat :=
  ghMul (y ^^^ ofBeBytes (b ++ List.replicate (16 - b.length) 0)) h

end Sys2Proof
end

