-- ==== Sys2Proof/Machine/State.lean ====
section
/-! DEFINITION. The state of the block: every register, queue, table and mode that the spec gives one module, as
plain data, and the state after reset. Sparse tables list only what differs from their default. -/

namespace Sys2Proof.Machine

/-- A step stops with one of these. -/
inductive Fault where
  /-- Raised by RESET_L_PULSE for a low time from 1 µs up to, not including, 10 µs, whose outcome the spec calls
  not specified and for which it gives no effect (R568). Safe: nothing is claimed of what follows. -/
  | resetPulseUnspecified
  deriving DecidableEq, Repr

/-- A command without a meaning. -/
inductive Refusal where
  /-- Raised by the dispatcher for a row that has no meaning yet. Safe: nothing is claimed of it. -/
  | notModelled (mnemonic : String)
  deriving DecidableEq, Repr

/-! ## Cores (03, 04, 06, 07, 17) -/

/-- A segment register: the loaded descriptor and the selector it came from (R53, R59, R60). -/
structure SegReg where
  base : Word
  limit : Word
  attr : BitVec 16
  sel : BitVec 16
  deriving DecidableEq, Repr

/-- The null descriptor (R470). -/
def SegReg.null : SegReg := ⟨0, 0, 0, 0⟩

/-- The architectural registers of a core (R53). `g` holds g1 to g63, `ctl` the control registers by number (R57). -/
structure CoreRegs where
  g : Table Word
  acc : Table (BitVec 128)
  seg : Table SegReg
  pc : Word
  dsp : Word
  rsp : Word
  pcount : Word
  psw : Word
  fcsr : Word
  ctl : Table Word
  deriving DecidableEq, Repr

/-- psw at reset: priv = 1, all else 0 (R54). -/
def CoreRegs.reset : CoreRegs := ⟨[], [], [], 0, 0, 0, 0, 0x80000000000#64, 0, []⟩

/-- The scope of a cache maintenance operation (R193). -/
inductive MaintForm where
  | address | zone (z : Nat) | whole
  deriving DecidableEq, Repr

/-- A CMAINT: scope, action (0 clean, 1 invalidate, 2 both), and the world it was issued in (R193, R196). -/
structure Maint where
  form : MaintForm
  act : Nat
  world : Bool
  deriving DecidableEq, Repr

/-- An entry of the store buffer: a store, or a CMAINT (R165, R194). `typ` is the segment type of R60. -/
structure BufEntry where
  addr : Word
  size : Nat
  data : BitVec 128
  typ : Nat
  zone : Nat
  world : Bool
  bnd : Bool
  stamp : Word
  maint : Option Maint
  /-- the first and the last byte of the segment of the access (R187) -/
  room : Nat × Nat
  deriving DecidableEq, Repr

/-- A write-combining buffer: its line, the bytes written, and their mask (R207, R208). -/
structure WcBuf where
  line : Nat
  mask : BitVec 128
  data : Line
  zone : Nat
  world : Bool
  deriving DecidableEq, Repr

/-- A near-cache entry (R178, R183). -/
structure NearEntry where
  valid : Bool
  line : Nat
  dirty : Bool
  bonded : Bool
  deriving DecidableEq, Repr

/-- A stream-table entry (R186). -/
structure StreamEnt where
  off : Word
  unit : FUnit
  last : Nat
  stride : Int
  conf : Nat
  pfline : Option Nat
  deriving DecidableEq, Repr

/-- The near cache of a core and its controls (R183 to R190, R198, R199). `streams` is in order of last use. -/
structure Near where
  enabled : Bool
  pf : Nat
  cleaning : Bool
  enablePending : Bool
  entries : Table NearEntry
  plru : Nat
  streams : List StreamEnt
  fills : List Nat
  blocked : Option Nat
  frozen : Option (Nat × Nat × Nat)
  /-- lines whose fill was asked for through a bonded segment (R180) -/
  bndFills : List Nat
  /-- the line whose demand fill ended while the cache is being cleaned: loads that waited for it get its data (R189) -/
  served : Option Nat
  deriving DecidableEq, Repr

/-- An exception that a syllable raises (R79, R82): unit number of R58, code, detail, segment, address. -/
structure Exc where
  unit : Nat
  code : Nat
  detail : Nat
  seg : Nat
  addr : Word
  deriving DecidableEq, Repr

/-- A destination of R95. -/
inductive Dest where
  | g (n : Nat) | acc (n : Nat) | flags | zOnly | vSet | dzFull | dzSet | fcsrFull | fcsrSet | dsp | seg (n : Nat)
  deriving DecidableEq, Repr

/-- What legality needs to know of a syllable of the bundle (R94, R95), and whether it is LDRSV or STCND (R213). -/
structure SylInfo where
  unit : FUnit
  dests : List Dest
  macm : Bool
  rep : Bool
  rsv : Bool
  deriving DecidableEq, Repr

/-- How a read or a write of memory that is made outside the caches ends (R80, R585). -/
inductive EngRes where
  | ok (data : List Byte)
  | poisoned
  | err (reason : Nat)
  deriving DecidableEq, Repr

/-- A read that a bundle makes outside the caches: its unit, address, size and stamp, whether through a strict-device
segment, and how it ended; none while it is under way (R153, R207). -/
structure OwnRead where
  unit : FUnit
  addr : Word
  size : Nat
  stamp : Word
  strict : Bool
  res : Option EngRes
  deriving DecidableEq, Repr

/-- An effect of a bundle outside the registers, in program order. A `redo` is a syllable whose access is made, or made
again, when the bundle is whole: through a strict-device or write-combining segment, or behind such a read or a STCND of
its bundle (R153, R206, R207, R209); `own` are the bundle's older stores, `strict` says that it reads a strict device. -/
inductive Late where
  | store (e : BufEntry)
  | redo (i : Instr) (own : List BufEntry) (strict : Bool)
  | cond (addr data : Word) (size zone : Nat) (world bnd after : Bool) (room : Nat × Nat)
  deriving DecidableEq, Repr

/-- What a syllable does when its bundle completes, beyond registers and memory. -/
inductive Act where
  | wait
  | bwdr (w : Word)
  | scrubNear
  | fence (kind : Nat)
  | loseRsv
  | rwbWrite (num : Nat)
  | repeatBody (body : List Syl)
  deriving DecidableEq, Repr

/-- A bundle that is being executed: results so far, accesses so far, and what decides its end (R51, R81, R96).
The registers as they stood before the bundle remain in `Core.regs`. `rsv` is the reservation that LDRSV
sets: its first byte, its size, and the addressed line. `seen` lists the near-cache lookups that have trained the stream
table. `held` is the syllable that waits, with its stop bit. `got` holds what the bundle has read outside the caches,
so that no such access is made twice (R153, R207). `kept` is a line whose fill maintenance has met, with its poison: the
loads that waited for the fill get its data (R195). `phase` is 0 while syllables arrive, 1 when the bundle is whole, 2 while its accesses of
`late` are made in order. -/
structure OpenBundle where
  work : CoreRegs
  late : List Late
  target : Option Word
  trap : Option Exc
  faults : List Exc
  syls : List SylInfo
  acts : List Act
  rsv : Option (Nat × Nat × Nat)
  seen : List Nat
  held : Option (SylInfo × Bool)
  got : List OwnRead
  kept : Option (Nat × Line × Bool)
  phase : Nat
  deriving DecidableEq, Repr

/-- The lane of a core in a constrained sequence (R213): the line whose snoop answers are deferred, bundles left, and
the snoops waiting with their kind. -/
structure Deferral where
  line : Nat
  bundles : Nat
  snoops : List (Nat × Snoop)
  deriving DecidableEq, Repr

/-- One physical core. -/
structure Core where
  /-- powered and released or releasable (R159, R556) -/
  power : Bool
  /-- a vcore is dispatched and fetching (R441, R159) -/
  run : Bool
  regs : CoreRegs
  bundle : Option OpenBundle
  /-- the syllable words of the bundle being repeated (R120), for its length -/
  rep : List Syl
  buf : List BufEntry
  /-- CMAINTs that have left the store buffer and are incomplete (R194) -/
  maint : List BufEntry
  rsv : Option (Nat × Nat)
  defer : Option Deferral
  wc : List WcBuf
  /-- stamps of write-combining stores that have been sent and whose acknowledgement has not come (R205) -/
  wcOut : List Word
  /-- stamps of strict-device stores that have been sent and whose acknowledgement has not come (R209) -/
  devOut : List Word
  /-- the exception whose handler's segment is being read, and the offset that it reports (R62, R83) -/
  entering : Option (Exc × Word)
  near : Near
  l1i : List Nat
  l2 : List Nat
  l2WaysOff : Nat
  fence : Nat
  irq : Bool
  waiting : Bool
  /-- the first iteration of a repeat has not completed yet: no interrupt before it (R121) -/
  repFirst : Bool
  /-- retries of the current bundle, and the detector row of R152 that asked for the last one (R154, R514) -/
  retries : Nat
  detector : Nat
  /-- the words of the checkpoint file corrected in this watch (R158) -/
  ckptWords : List Nat
  -- CACHE_ERR (R200)
  nearCor : Nat
  nearPoison : Nat
  l2Cor : Nat
  l2Poison : Nat
  -- DBG_EN (R477)
  dbgBi : Bool
  dbgBn : Bool
  dbgOi : Bool
  dbgOn : Bool
  -- SXT_CORE (R177); `sxtFor` is 31 for none
  slack : Nat
  sxtRetries : Nat
  sxtFor : Nat
  sxtState : Nat
  req : Int
  voff : Int
  /-- baseline slack fused at test (R170) -/
  baseline : Nat
  deriving DecidableEq, Repr

/-- The near cache after reset: enabled, stride prefetch, empty (R188, R198). -/
def Near.reset : Near := ⟨true, 2, false, false, [], 0, [], [], none, none, [], none⟩

/-- A core after module reset; slot 16 of a cluster is an idle spare (R54, R177, R198, R477). Its fused baseline slack is
0 (R170; log entry 169). -/
def Core.reset (n : Nat) : Core where
  power := false
  run := false
  regs := CoreRegs.reset
  bundle := none
  rep := []
  buf := []
  maint := []
  rsv := none
  defer := none
  wc := []
  wcOut := []
  devOut := []
  entering := none
  near := Near.reset
  l1i := []
  l2 := []
  l2WaysOff := 0
  fence := 0
  irq := false
  waiting := false
  repFirst := false
  retries := 0
  detector := 0
  ckptWords := []
  nearCor := 0
  nearPoison := 0
  l2Cor := 0
  l2Poison := 0
  dbgBi := false
  dbgBn := false
  dbgOi := false
  dbgOn := false
  slack := 0xFF
  sxtRetries := 0
  sxtFor := 0x1F
  sxtState := if n % 17 = 16 then 1 else 0
  req := 0
  voff := 0
  baseline := 0

/-- A relief state image in the service region (R164): header, registers and store-buffer section. -/
structure StateImage where
  zone : Nat
  vcid : Nat
  stamp : Word
  mer : Nat
  reason : Nat
  doorbell : Bool
  sbValid : Bool
  world : Bool
  valid : Bool
  regs : CoreRegs
  buf : List BufEntry
  rep : List Syl
  deriving DecidableEq, Repr

/-- A relief that is running in a cluster (R159). `step` is the last step done; `moves` counts image moves (R162). -/
structure Relief where
  core : Nat
  spare : Nat
  t0 : Nat
  step : Nat
  reason : Nat
  moves : Nat
  powered : Bool
  mbx : Option Mbx
  deriving DecidableEq, Repr

/-- Relief and sextant registers (R174 to R176). -/
structure Sextant where
  c1Limit : Nat
  guard : Nat
  watchEn : Bool
  watches : Nat
  replans : Nat
  spareBad : Nat
  last : Nat
  /-- boundary number of the last watch served or skipped (R169) -/
  watchIdx : Nat
  rlfFrom : Nat
  rlfTo : Nat
  rlfReason : Nat
  rlfResult : Nat
  rlfDone : Bool
  rlfTime : Nat
  reliefs : Table Relief
  /-- relief requests not yet started: core and reason (R158) -/
  requests : List (Nat × Nat)
  /-- T0 of a core's relief request (R159) -/
  reqAt : Table Nat
  /-- what the last watch read (R169) -/
  reads : Readings
  /-- per lane (16 × port + lane): baseline eye height plus 1, 0 for none; and its plan, the urgency (R170, R173) -/
  laneBase : Table Nat
  lanePlan : Table Nat
  /-- lanes that retrain at the next slot-table epoch (R172, R295) -/
  laneDue : List Nat
  /-- PCIe links, 4 to a controller, that have recovered with equalisation in this watch (R172) -/
  pcieRt : List Nat
  images : List (Nat × StateImage)
  /-- index of corrected walk errors in this watch, per unit and way (R192) -/
  wayErrs : Table Nat
  l3WaysOff : Table Nat
  deriving DecidableEq, Repr

/-! ## Caches and coherence (07, 08) -/

/-- A line in a quadrant of this module (R180, R214, R216). -/
structure AgentLine where
  st : Moesi
  data : Line
  zone : Nat
  bonded : Bool
  poison : Bool
  deriving DecidableEq, Repr

/-- The absent line. -/
def AgentLine.absent : AgentLine := ⟨.i, 0, 0, false, false⟩

/-- A request that a quadrant of this module has outstanding (R217, R223): `bnd` when made through a bonded segment
(R180), `exc` what a refusal of a load raises (R80). -/
structure AgentReq where
  quad : Nat
  core : Nat
  kind : ReqKind
  req : CohReq
  forStore : Bool
  plain : Nat
  credit : Option Nat
  /-- when it was sent, or last answered with RETRY -/
  sentAt : Nat
  bnd : Bool
  exc : Option Exc
  deriving DecidableEq, Repr

/-- A line in an agent's write-back buffer (R225). -/
structure WbBuf where
  quad : Nat
  line : Nat
  st : Moesi
  data : Line
  zone : Nat
  poison : Bool
  stamp : Word
  sentAt : Nat
  deriving DecidableEq, Repr

/-- A directory entry (R220): dstate 1 shared, 2 owned, 3 owned-shared; the owner; the recorded sharers; the coarse
groups when the entry is coarse. -/
structure DirEntry where
  dstate : Nat
  owner : Agent
  sharers : List Agent
  coarse : Option (List Nat)
  deriving DecidableEq, Repr

/-- The free entry. -/
def DirEntry.free : DirEntry := ⟨0, ⟨0, 0⟩, [], none⟩

/-- What the home does once its snoops are answered: it grants the request; it frees the victim of a back-invalidation and
goes on with the request that needed the entry; or it frees the line whose copies it has called in, and goes on with
the request that met it, if one did (R221, R222, R226, R256). -/
inductive TxnGoal where
  | request (kind : ReqKind) (r : CohReq)
  | backInv (kind : ReqKind) (r : CohReq)
  | settle (next : Option (ReqKind × CohReq))
  deriving DecidableEq, Repr

/-- A transaction in progress on a line at the home (R221, R223 to R225). -/
structure Txn where
  line : Nat
  goal : TxnGoal
  /-- agents with a snoop outstanding, with the snoop's kind and the time it was sent -/
  waiting : List (Agent × FlitOp)
  sentAt : Nat
  warned : Bool
  /-- data received from a holder: line and dirty -/
  data : Option Line
  dataPoison : Bool
  /-- the zone ID that came with the data (R222) -/
  dataZone : Nat
  forwarded : Bool
  /-- a miss from the recorded owner that waits for its write-back (R225) -/
  missFrom : List Agent
  /-- write-backs absorbed while a snoop is outstanding (R224): agent, data, poison -/
  absorbed : List (Agent × Option Line × Bool)
  /-- grant sent, waiting for CmpAck -/
  granted : Option Moesi
  finding : ReadFinding
  /-- the no-forward bit of its forwarding snoop, and whether the data that was forwarded was clean (R321) -/
  nf : Bool
  fwdClean : Bool
  /-- the directory had an owner for the line when the request was taken (R221) -/
  owned : Bool
  deriving DecidableEq, Repr

/-- A reserved credit recorded against a line (R223): who holds it, and when RESEND was sent. -/
structure Credit where
  line : Nat
  agent : Agent
  stamp : Word
  seq : Nat
  resentAt : Option Nat
  deriving DecidableEq, Repr

/-- The home agent (R219 to R232). -/
structure Home where
  dir : List (Nat × DirEntry)
  txns : List Txn
  credits : List (Nat × Credit)
  creditSeq : Nat
  lost : List Nat
  lostQueue : List Nat
  walking : Option Nat
  backInv : Nat
  plainRetry : Nat
  snoopWarn : Nat
  deriving DecidableEq, Repr

/-! ## Memory and cellar (09, 17) -/

/-- A translation entry (R238): st 0 mapped, 1 cellared, 2 in transit, 3 unassigned. -/
structure PageEnt where
  st : Nat
  zone : Nat
  pin : Bool
  dir : Bool
  loc : Nat
  deriving DecidableEq, Repr

/-- The entry that start-up writes for page p (R239). -/
def PageEnt.start (p : Nat) : PageEnt := ⟨0, 0, false, false, p⟩

/-- A zone's free list of frames, head first (R255). -/
structure FreeList where
  frames : List Nat
  lowSent : Bool
  lowMark : Nat
  deriving DecidableEq, Repr

/-- A cellared page (R254): descriptor granule, granules, length, CRC, zone, meridian, the compressed bytes, and the
key under which they were written. -/
structure CellImage where
  desc : Nat
  grans : List Nat
  len : Nat
  crc : Nat
  zone : Nat
  mer : Nat
  bytes : List Byte
  key : Nat
  bad : Bool
  deriving DecidableEq, Repr

/-- A range of the cellar pool (R253). -/
structure PoolRange where
  first : Nat
  units : Nat
  blocks : List Nat
  deriving DecidableEq, Repr

/-- A demand request held for a decant (R258). -/
structure HeldReq where
  kind : ReqKind
  req : CohReq
  deriving DecidableEq, Repr

/-- A request that waits at the home: for a free place on the lost list (R226), for memory credit (R450), or for the end
of a channel's retraining (R244). -/
structure WaitingReq where
  kind : ReqKind
  req : CohReq
  credit : Option Nat
  finding : ReadFinding
  verify : Nat
  deriving DecidableEq, Repr

/-- A decant (R258): phase 0 waits for the budget, 1 for an engine, 2 on an engine, 3 is already mapped. -/
structure Decant where
  page : Nat
  phase : Nat
  frame : Nat
  engine : Nat
  held : List HeldReq
  deriving DecidableEq, Repr

/-- A page being cellared (R256, R257): the command it belongs to and its place in that command's list. Phase 0 not taken
yet, 1 waits for snoop answers and an engine, 2 on an engine; 8 and 9 touched in phase 1 and in phase 2. -/
structure Cellaring where
  page : Nat
  mbx : Mbx
  idx : Nat
  phase : Nat
  deriving DecidableEq, Repr

/-- A memory channel (R264, R244). -/
structure Chan where
  rd : Nat
  wr : Nat
  interval : Nat
  state : Nat
  online : Bool
  dueAt : Nat
  refresh : Nat
  scrubPos : Nat
  /-- the margin of the first training, against which later ones are compared (R170) -/
  base : Nat
  deriving DecidableEq, Repr

/-- A channel after reset: interval 2^40 mt, active (R264). -/
def Chan.reset : Chan := ⟨0, 0, 0x28, 0, false, 0, 0, 0, 0⟩

/-- Memory, home translation and the cellar (R233 to R266), and the bonded granule tags (R463). -/
structure Memory where
  /-- bytes of usable memory by frame offset; unlisted bytes read 0 (R554) -/
  bytes : List Host.Cell
  /-- the key under which a line was last written, by frame line; 0, the key of slot 0, where unlisted (R250) -/
  keys : Table Nat
  /-- lines that hold the poison marker (R247) -/
  poison : Table Bool
  pages : Table PageEnt
  lists : Table FreeList
  cellared : List (Nat × CellImage)
  pool : List (Nat × PoolRange)
  usedGran : Table Bool
  granStart : Nat
  decants : List Decant
  waiting : List WaitingReq
  cellarings : List Cellaring
  tags : Table Nat
  chans : Table Chan
  eccCe : Nat
  eccUe : Nat
  eccLink : Nat
  scrubPasses : Nat
  scrubHeld : Bool
  scrubRunning : Bool
  scrubIdx : Nat
  maxGran : Nat
  zeroEn : Bool
  celEn : Bool
  decantCnt : Nat
  exhausted : Nat
  decFail : Nat
  deriving DecidableEq, Repr

/-! ## Tree network and fabric (10, 11) -/

/-- A power domain (R289): held requests, tree NACKs, state 0 OFF, 1 ONLINE, 2 DRAINING, 3 FLUSHING, 4 POWERING. -/
structure Domain where
  held : List Flit
  nacks : Nat
  state : Nat
  t0 : Nat
  /-- isolated by an L4 reaction (R521): the stamp of its record -/
  isolated : Option Word
  mbx : Option Mbx
  deriving DecidableEq, Repr

/-- A deficit round robin over zones (R279, R303): the zone whose turn it is, and what each zone may still send. -/
structure Drr where
  turn : Option Nat
  deficits : Table Nat
  deriving DecidableEq, Repr

/-- Before the first round. -/
def Drr.start (_ : Nat) : Drr := ⟨none, []⟩

/-- The tree network (R267 to R291). -/
structure Tree where
  doms : Table Domain
  old : Bool
  crc : Nat
  parity : Nat
  stale : Nat
  rt0 : Table Nat
  rt1 : Table Nat
  /-- the table of this parity holds staged entries that are not active (R287) -/
  stagedPar : Option Bool
  stagedAt : Nat
  epochIdx : Nat
  /-- flits in the tree, each at the router that it names, oldest first (R267, R279) -/
  net : List Flit
  /-- flits refused by a tree NACK, with the network time they are sent again (R283) -/
  refused : List (Flit × Nat)
  /-- the best-effort round of each root output port (R279) -/
  rounds : Table Drr
  /-- when an output port of a router that has sent is free again: a link carries one flit in a network cycle (R267, R276) -/
  freeAt : List (Nat × Nat)
  /-- quadrants whose die-to-die link has failed (R274) -/
  failed : List Nat
  deriving DecidableEq, Repr

/-- A Hezhaul port (R292 to R303, R317, R329 to R331). States: 0 DISABLED, 1 TRAINING, 2 UP, 3 RECOVERING, 4 DOWN,
5 FENCED, 6 UNUSED. -/
structure Port where
  en : Bool
  reach : Nat
  nbrId : Option Nat
  nbrPort : Option Nat
  nbrNoMirror : Bool
  nbrDivergent : Bool
  dateline : Bool
  width : Nat
  rtLane : Option Nat
  /-- the width before a lane began to retrain (R295) -/
  rtWidth : Nat
  state : Nat
  crc : Nat
  replay : Nat
  recover : Nat
  orphans : Nat
  corr : Nat
  uncorr : Nat
  delay : Nat
  t1 : Nat
  txSeq : Nat
  ackSeen : Nat
  rxSeq : Nat
  nakWait : Bool
  nakAt : Nat
  buf : List Frame
  ackAt : Nat
  /-- how often the frames of the replay buffer have been replayed, by sequence number (R300) -/
  replays : Table Nat
  resendFrom : List Frame
  credits : Table Nat
  owed : Table Nat
  tx : List Flit
  deficits : Table Nat
  /-- the zone whose turn it is in the fabric arbitration (R303) -/
  turn : Option Nat
  /-- the packet being sent, and how many of its flits have gone (R301) -/
  sending : Option (Flit × Nat)
  history : List (List (Word × FlitOp × Nat))
  /-- receive histories frozen within the last 2^26 mt, each with the time it was frozen (R317) -/
  frozen : List (List (Word × FlitOp × Nat) × Nat)
  hbAt : Nat
  since : Nat
  inited : Bool
  deriving DecidableEq, Repr

/-- A port after reset (R329, R330). -/
def Port.reset : Port where
  en := true
  reach := 0
  nbrId := none
  nbrPort := none
  nbrNoMirror := false
  nbrDivergent := false
  dateline := false
  width := 0
  rtLane := none
  rtWidth := 0
  state := 0
  crc := 0
  replay := 0
  recover := 0
  orphans := 0
  corr := 0
  uncorr := 0
  delay := 0
  t1 := 0
  txSeq := 0
  ackSeen := 0
  rxSeq := 0
  nakWait := false
  nakAt := 0
  buf := []
  ackAt := 0
  replays := []
  resendFrom := []
  credits := []
  owed := []
  tx := []
  deficits := []
  turn := none
  sending := none
  history := []
  frozen := []
  hbAt := 0
  since := 0
  inited := false

/-- A management message that the master repeats until it is acknowledged (R314). -/
structure MgmtAwait where
  op : FlitOp
  dev : Nat
  words : List Word
  stamp : Word
  sentAt : Nat
  deriving DecidableEq, Repr

/-- The fabric side of the module (R304 to R328). -/
structure Fabric where
  ports : Table Port
  mesh : Bool
  sizes : List Nat
  coords : List Nat
  coordKnown : Bool
  bestSerial : Word
  bestMaster : Bool
  bestAt : Nat
  isOrigin : Bool
  discovered : Bool
  partner : Option Nat
  unmirrored : Bool
  isolated : Bool
  /-- the running sweep: its meridian, and the snoops and grants re-sent (R321, R322) -/
  sweepAt : Option (Nat × Nat × Nat)
  discards : Nat
  orphFwd : Nat
  orphDup : Nat
  lostMap : Table Bool
  lostWait : Nat
  /-- links reported DOWN: reporter, port, neighbour, meridian (R318) -/
  downs : List (Nat × Nat × Nat × Nat)
  /-- the meridian at which each device was last heard (master, R318) -/
  heard : Table Nat
  seen : List (Word × Nat)
  await : List MgmtAwait
  lastUp : Nat
  remeasureIdx : Nat
  deriving DecidableEq, Repr

/-! ## Meridian and vintage (02) -/

/-- The meridian keeper (R21 to R32, R41, R569). `ext` is the extended count, 32 fraction bits below bit 0; `slew` is
the correction still to be made, in the same units. -/
structure Meridian where
  ext : Nat
  rate : Nat
  slew : Int
  src : Nat
  setVal : Option Nat
  ppsLast : Option Nat
  ppsIgnored : Nat
  refPresent : Bool
  holdover : Bool
  refLost : Bool
  masterId : Option Nat
  standbyId : Option Nat
  role : Nat
  err : Int
  fault : Bool
  locked : Bool
  goodSyncs : Nat
  hbSeen : Nat
  missing : Option Nat
  takeover : Option (Nat × List Nat)
  hbIdx : Nat
  ppsOut : Option Nat
  ppsOutIdx : Nat
  wmIdx : Nat
  /-- devices strapped MASTER_EN, as discovery found them (R29, R31) -/
  masters : List Nat
  /-- the master that this module took over from (R31) -/
  former : Option Nat
  deriving DecidableEq, Repr

/-- A staged change (R36). -/
structure StagedCfg where
  image : CfgImage
  vintage : Nat
  digest : Word
  act : Nat
  catchup : Bool
  deriving DecidableEq, Repr

/-- A change that this module runs as master (R36, R506). -/
structure Prep where
  vintage : Nat
  digest : Word
  act : Nat
  acks : List Nat
  nacks : List Nat
  aborted : Bool
  mbx : Option Mbx
  deriving DecidableEq, Repr

/-- Vintage, digest and configuration (R33 to R43). `cfg` is the active configuration. -/
structure Vintage where
  vintage : Nat
  digest : Word
  cfg : CfgImage
  staged : Option StagedCfg
  /-- the vintage whose activation this module has not staged (R36 step 5) -/
  missed : Option (Nat × Nat)
  divergent : Bool
  agreed : Bool
  prep : Option Prep
  inventory : List Nat
  activatedAt : Nat
  /-- a catch-up is active and the next heartbeat that matches clears divergent (R39) -/
  caughtUp : Bool
  deriving DecidableEq, Repr

/-- RWV fields staged by register write (R7, R506). -/
structure Staged where
  c1Limit : Option Nat
  guard : Option Nat
  snoopWarn : Option Nat
  lostWait : Option Nat
  maxGran : Option Nat
  deriving DecidableEq, Repr

/-! ## Channel subsystem (12) -/

/-- A channel processor (R369): its faults, and its state 0 running, 1 faulted, 2 offline. -/
structure Cp where
  faults : Nat
  state : Nat
  deriving DecidableEq, Repr

/-- What a channel operation waits for (R354, R347, R339). -/
inductive OpWait where
  | journal (next : Nat) (localDone : Bool) (partner : Bool)
  | mover
  | ccw
  | status
  | slot
  | writeEntry
  | jrelack
  | nothing
  deriving DecidableEq, Repr

/-- A channel operation (R337 to R348, R353). States: 1 PENDING, 2 ACTIVE, 3 HALTING, 4 ENDING. -/
structure ChOp where
  jr : JRec
  state : Nat
  wait : OpWait
  mover : Option Nat
  acceptSeq : Nat
  mbx : Option Mbx
  /-- the command in work: pieces of its data chain (address, length, data dropped), code, link flags of its first and of
  its last CCW, transform, destination of a COPY, total, and where the next CCW lies -/
  pieces : List (Nat × Nat × Bool)
  opcode : Nat
  flags : Nat
  lflags : Nat
  xform : Nat
  dest : Word
  total : Nat
  nextCcw : Word
  jumped : Bool
  piece : Nat
  /-- since when a halt or deadline is carried out, and which: 1 halt, 2 deadline (R339, R359) -/
  haltAt : Option Nat
  haltKind : Nat
  /-- the partner has acknowledged the ENDED write (R357) -/
  ackedEnd : Bool
  /-- customer microcode: next word, context registers, words since the last wait, and its mover transfer: 0 none,
  1 under way (R363, R364) -/
  upc : Option Nat
  uregs : Table Word
  usteps : Nat
  umov : Nat
  deriving DecidableEq, Repr

/-- A completion queue as the posting unit holds it (R350, R351, R362). -/
structure PostQueue where
  base : Word
  ctl : Word
  m : Nat
  next : Nat
  tail : Nat
  head : Nat
  written : List Nat
  waiting : List Nat
  deriving DecidableEq, Repr

/-- A completion entry held for a lost queue (R358). -/
structure HeldEntry where
  dev : Nat
  zone : Nat
  words : List Word
  deriving DecidableEq, Repr

/-- The channel subsystem (R333 to R370). -/
structure Channels where
  nsub : Nat
  mch : Nat
  en : Bool
  sctb : Word
  swin : Table Word
  posted : Nat
  dup : Nat
  stale : Nat
  partnerPosts : Nat
  held : List HeldEntry
  custImage : Nat
  custCodes : Nat
  cps : Table Cp
  subCache : List (Nat × List Word)
  vcCache : List (Nat × List Word)
  ops : List (Nat × ChOp)
  opSeq : Nat
  queues : List (Nat × PostQueue)
  mirrors : List (Nat × JRec)
  lastPosted : Table Word
  store : Table Nat
  /-- a microcode load that waits: command, since, words, codes and version (R365) -/
  load : Option (Mbx × Nat × List (Nat × Nat) × Nat × Nat)
  deriving DecidableEq, Repr

/-! ## Data movers, compression, cipher (13, 14, 15) -/

/-- A beat between its read and its confirmed write (R378): source and destination addresses, length, whether the data
has returned, its data, whether the write is issued. -/
structure Beat where
  id : Nat
  src : Nat
  dst : Nat
  len : Nat
  data : Option (List Byte)
  issued : Bool
  deriving DecidableEq, Repr

/-- A stream of dictionary coding that a channel holds open (R402 to R410). `dict` lists the entries from code 259 up:
the code of the string before the last byte and that byte, or nothing for a burned number. -/
structure LzStream where
  kind : Nat
  state : Nat
  n : Nat
  p : Option Nat
  wbits : Nat
  i : Nat
  outBytes : Nat
  pend : List Bool
  group : Nat
  expanding : Option (Nat × Nat)
  remain : Option Nat
  dict : List (Option (Nat × Byte))
  codes : Nat
  /-- stream bytes in memory, address and length, from stream byte `extBase` on (R408) -/
  extents : List (Nat × Nat)
  extBase : Nat
  /-- stream bit of the first code after the last CLEAR, and the stream byte at which the dictionary became full -/
  anchorBit : Nat
  fullAt : Option Nat
  inBits : List Bool
  updates : Nat
  deriving DecidableEq, Repr

/-- A key slot (R418). -/
structure KeySlot where
  loaded : Bool
  aes256 : Bool
  key1 : BitVec 256
  key2 : BitVec 256
  salt : Nat
  gen : Nat
  deriving DecidableEq, Repr

/-- The empty slot. -/
def KeySlot.empty : KeySlot := ⟨false, false, 0, 0, 0, 0⟩

/-- The state of a cipher job (R426): slot, mode, unit exponent, generation, base, unit or counter, held bytes, and
the running GHASH value, and the key schedule that the job's pipeline holds (R420). -/
structure CipherCtx where
  slot : Nat
  mode : Nat
  u : Nat
  gen : Nat
  base : Word
  unit : Nat
  off : Nat
  held : List Byte
  ghash : BitVec 128
  len : Nat
  key : KeySlot
  deriving DecidableEq, Repr

/-- A descriptor as fetched (R375). -/
structure Desc where
  op : Nat
  bar : Bool
  int : Bool
  cipher : Nat
  comp : Nat
  limit : Nat
  count : Nat
  src : Word
  dst : Word
  prof : Word
  iv : Word
  word0 : Word
  deriving DecidableEq, Repr

/-- A mover channel (R371 to R392) with its compression settings (R415). -/
structure Chn where
  base : Word
  m : Nat
  en : Bool
  errInt : Bool
  zone : Nat
  vector : Nat
  vcid : Nat
  hold : Bool
  hi : Nat
  lo : Nat
  pause : Bool
  tail : Nat
  head : Nat
  late : Bool
  halted : Bool
  ownWait : Bool
  paused : Bool
  reading : Bool
  desc : Option Desc
  count : Nat
  confirmed : Nat
  outBytes : Nat
  errAddr : Word
  errCode : Nat
  errDir : Bool
  errDetail : Nat
  errX : Nat
  tailBad : Nat
  errIndex : Nat
  beats : List Beat
  nextBeat : Nat
  dstPos : Nat
  failed : Option (Nat × Nat × Word × Bool)
  xcode : Nat
  /-- a write-back waiting to become visible: status, code, stamp, ring index, kind of interrupt (R379) -/
  wb : Option (Nat × Nat × Word × Nat × Nat)
  /-- descriptors written back with bar = 0 whose writes are unconfirmed: ring index and beats (R381) -/
  open' : List (Nat × List Nat)
  dead : Bool
  admitted : Bool
  thr : Nat
  sync : Bool
  clear : Bool
  olim : Nat
  crec : Word
  crecValid : Bool
  stream : Option LzStream
  cipher : Option CipherCtx
  pipe : Option Nat
  eng : Option Nat
  /-- the tag of a GCM decrypt has been requested (R423) -/
  tagRead : Bool
  /-- the zero-length read behind the descriptor's last PCIe write has been issued (R380) -/
  flushed : Bool
  /-- the descriptor's transform has ended (R403, R405) -/
  ended : Bool
  /-- for a channel operation, the memory side of the transfer: address, length, and whether the data is dropped; and
  whether that side is the destination (R342) -/
  pieces : List (Nat × Nat × Bool)
  scatterDst : Bool
  /-- the compression settings and the record's address that the descriptor in progress uses (R415) -/
  run : Nat × Bool × Bool × Word
  deriving DecidableEq, Repr

/-- A mover channel after reset (R391, R392, R415). -/
def Chn.reset : Chn where
  base := 0
  m := 4
  en := false
  errInt := false
  zone := 0
  vector := 0
  vcid := 0
  hold := false
  hi := 48
  lo := 16
  pause := false
  tail := 0
  head := 0
  late := false
  halted := false
  ownWait := false
  paused := false
  reading := true
  desc := none
  count := 0
  confirmed := 0
  outBytes := 0
  errAddr := 0
  errCode := 0
  errDir := false
  errDetail := 0
  errX := 0
  tailBad := 0
  errIndex := 0
  beats := []
  nextBeat := 0
  dstPos := 0
  failed := none
  xcode := 0
  wb := none
  open' := []
  dead := false
  admitted := false
  thr := 24
  sync := false
  clear := true
  olim := 0
  crec := 0
  crecValid := false
  stream := none
  cipher := none
  pipe := none
  eng := none
  tagRead := false
  flushed := false
  ended := false
  pieces := []
  scatterDst := false
  run := (24, false, true, 0)

/-- The mover engines and channels (R390 to R392). `order` lists channels waiting for admission, oldest first. -/
structure Movers where
  disable : Nat
  beats : Table Nat
  chns : Table Chn
  order : List Nat
  deriving DecidableEq, Repr

/-- A compression job (R399): a channel's, a cellaring's or a decant's. -/
inductive CmpJob where
  | chn (n : Nat) | cellaring (page : Nat) | decant (page : Nat)
  deriving DecidableEq, Repr

/-- A compression engine (R414). `job` codes: 0 idle, 1 compress, 2 decompress, 3 cellaring, 4 decant, 5 rebuild. -/
structure CmpEng where
  vfail : Nat
  derr : Nat
  watchFail : Nat
  job : Nat
  run : Option CmpJob
  deriving DecidableEq, Repr

/-- The compression engines (R398 to R415). -/
structure Compression where
  ioThr : Nat
  ioSync : Bool
  ioClear : Bool
  engOff : Nat
  oos : Nat
  engs : Table CmpEng
  queue : List CmpJob
  deriving DecidableEq, Repr

/-- A streaming pipeline (R431): since when its job holds it. -/
structure Pipe where
  faults : Nat
  watchFail : Nat
  channel : Nat
  job : Nat
  since : Nat
  yielding : Bool
  deriving DecidableEq, Repr

/-- An inline pipeline (R431). -/
structure InlPipe where
  c0 : Nat
  c2 : Nat
  watch : Nat
  deriving DecidableEq, Repr

/-- The cipher engines and the key slots (R416 to R434). -/
structure Cipher where
  slots : Table KeySlot
  kld : Table Word
  kstSlot : Nat
  kstResult : Nat
  kstBusy : Bool
  kstMbx : Option Mbx
  inlLimit : Nat
  off : Nat
  oos : Nat
  pipes : Table Pipe
  inls : Table InlPipe
  queue : List Nat
  deriving DecidableEq, Repr

/-! ## Zones and bonded world (16, 17) -/

/-- An interrupt ring entry on its way to a ring (R443). -/
structure RingEntry where
  zone : Nat
  vcid : Nat
  kind : Nat
  vector : Nat
  stamp : Word
  detail : Word
  deriving DecidableEq, Repr

/-- The window of posted stamps of one source for one zone (R447): the highest, and those marked. -/
structure StampWin where
  high : Option Nat
  marks : List Nat
  floor : Option Nat
  deriving DecidableEq, Repr

/-- A running zone reset (R454). -/
structure ZoneRst where
  stamp : Word
  step : Nat
  t0 : Nat
  stepAt : Nat
  partial' : Bool
  waiters : List Mbx
  kind : Nat
  rzone : Nat
  deriving DecidableEq, Repr

/-- A zone on this module (R435 to R457). States: 0 FREE, 1 ACTIVE, 2 RESETTING, 3 STOPPED. -/
structure Zone where
  state : Nat
  entry : Option (List Word)
  credit : Nat
  spent : Nat
  wins : Table StampWin
  held : List RingEntry
  resets : Nat
  rst : Option ZoneRst
  deriving DecidableEq, Repr

/-- A zone after reset: zone 0 is always ACTIVE, the others FREE (R438). -/
def Zone.reset (z : Nat) : Zone := ⟨if z = 0 then 1 else 0, none, 0, 0, [], [], 0, none⟩

/-- A vcore (R441): states 0 UNBOUND, 1 STOPPED, 2 RUNNING, 3 HELD, 4 LOST. -/
structure Vcore where
  core : Nat
  state : Nat
  db : Bool
  deriving DecidableEq, Repr

/-- The zone controller (R458 to R461). Vcores are keyed by zone × 4,096 + vcid. -/
structure Zones where
  zones : Table Zone
  vcores : Table Vcore
  lostDb : Nat
  unposted : Nat
  dup : Nat
  stale : Nat
  overflow : Nat
  disabled : Nat
  rstStamp : Word
  rstTime : Nat
  qosIdx : Nat
  deriving DecidableEq, Repr

/-- The bonded world's registers (R475 to R479) and the bevb of the bonded start image (R467, R500). -/
structure Bonded where
  cip : Nat
  cmp : Nat
  mov : Nat
  quad : Nat
  clus : Nat
  wdgCore : Nat
  wdgE : Nat
  wdgLock : Bool
  wdgArmed : Bool
  wdgExp : Nat
  wdgStamp : Word
  bevb : Word
  deriving DecidableEq, Repr

/-! ## Relrax, faults, logbook (18, 19) -/

/-- The outcome of a command: error code, and result words from r1. -/
structure CmdResult where
  error : Nat
  words : List Word
  deriving DecidableEq, Repr

/-- A command that a mailbox has accepted (R491): its words, the zone it acts for, its place in the order of acceptance,
whether its row has run, its outcome when decided, and progress of a long command. -/
structure Accepted where
  words : List Word
  zone : Nat
  order : Nat
  started : Bool
  outcome : Option CmdResult
  progress : Nat
  results : List Word
  deriving DecidableEq, Repr

/-- A register mailbox, or the mailbox state of a ring (R484, R487). -/
structure Mailbox where
  cmd : List Word
  acc : Option Accepted
  accSeq : Nat
  cmpSeq : Nat
  ignored : Nat
  error : Bool
  done : Bool
  res : List Word
  deriving DecidableEq, Repr

/-- A mailbox after reset. -/
def Mailbox.reset : Mailbox := ⟨[], none, 0, 0, 0, false, false, []⟩

/-- A zone ring (R487 to R489). -/
structure Ring where
  base : Word
  en : Bool
  m : Nat
  head : Nat
  fault : Bool
  box : Mailbox
  deriving DecidableEq, Repr

/-- A ring after reset: m = 2, out of service (R487). -/
def Ring.reset : Ring := ⟨0, false, 2, 0, false, Mailbox.reset⟩

/-- A command forwarded to another module (R490). -/
structure Forward where
  stamp : Word
  target : Nat
  mbx : Mbx
  words : List Word
  kind : Nat
  zone : Nat
  since : Nat
  sentAt : Nat
  deriving DecidableEq, Repr

/-- A command served for another module (R490): its origin, source kind, state and, once done, its result. -/
structure Served where
  stamp : Word
  origin : Nat
  kind : Nat
  box : Mailbox
  deriving DecidableEq, Repr

/-- What the flash holds (R551, R510, R163). -/
structure Flash where
  okA : Bool
  okB : Bool
  verA : Nat
  verB : Nat
  image0 : CfgImage
  mesh : Bool
  sizes : List Nat
  bonded : Option (List Word)
  loader : Option (List Word)
  custKey : Option (List Word)
  maxVer : Table Nat
  retired : Table Bool
  /-- links enabled in root-port mode, by bit; bifurcation and SRIS of each controller (R550, R555, R574) -/
  pcieEn : Nat
  pcieBif : Nat × Nat
  pcieSris : Bool × Bool
  deriving DecidableEq, Repr

/-- Relrax and its mailboxes (R480 to R512, R530). -/
structure Relrax where
  host : Mailbox
  bonded : Mailbox
  rings : Table Ring
  forwards : List Forward
  served : List Served
  running : Bool
  copy : Nat
  version : Nat
  wdogAt : Nat
  flash : Flash
  deferredL3 : List Nat
  /-- commands accepted so far: the place of the next one in the order of acceptance (R494) -/
  order : Nat
  deriving DecidableEq, Repr

/-- A fault record (R515), with the expiry of its escalation timer (R519). -/
structure FRec where
  stamp : Word
  srcStamp : Word
  mer : Nat
  source : Nat
  cls : Nat
  level : Nat
  tlevel : Nat
  esc : Bool
  acked : Bool
  unsync : Bool
  bonded : Bool
  noTarget : Bool
  zone : Nat
  quad : Option Nat
  reason : Nat
  count : Nat
  addr : Word
  detail : Word
  last : Nat
  timer : Option Nat
  deriving DecidableEq, Repr

/-- The fault collector (R513 to R531, R540 to R545). -/
structure Faults where
  hist : List FRec
  unack : List FRec
  active : List Nat
  lastAt : Table Nat
  rcv : Table Nat
  errHold : Bool
  errLow : Bool
  errMin : Option Nat
  errRelease : Bool
  checkstop : Bool
  c0 : Table Nat
  deriving DecidableEq, Repr

/-- A logbook entry (R534). -/
structure LogEntry where
  type : Nat
  hw : Bool
  unsync : Bool
  aux0 : Nat
  mer : Nat
  stamp : Word
  payload : List Word
  aux7 : Nat
  deriving DecidableEq, Repr

/-- A logbook segment (R533). -/
structure LogSeg where
  state : Nat
  seqNo : Nat
  first : Nat
  last : Nat
  dev : Option Nat
  entries : List LogEntry
  deriving DecidableEq, Repr

/-- The logbook (R532 to R537). -/
structure Logbook where
  segs : Table LogSeg
  cur : Nat
  writing : Option LogEntry
  first : List LogEntry
  queue : List LogEntry
  held : List LogEntry
  deriving DecidableEq, Repr

/-! ## Power, reset, PCIe (20, 21) -/

/-- A PCIe controller (R555, R574, R576). `win` is keyed by window × 4 + register (0 IWB, 1 IWT, 2 IWZ). -/
structure Pcie where
  up : Bool
  speed : Nat
  width : Nat
  replay : Nat
  ecrc : Nat
  perst : Bool
  win : Table Word
  cfgSpace : Table (BitVec 32)
  /-- posted writes sent to the link, oldest first: bus address and data -/
  posted : List (Nat × List Byte)
  /-- reads outstanding on the link: bus address, length, mover channel -/
  reads : List (Nat × Nat × Nat)
  deriving DecidableEq, Repr

/-- A controller after reset: link down, PERST low (R555, R574). -/
def Pcie.reset : Pcie := ⟨false, 0, 0, 0, 0, true, [], [], [], []⟩

/-- Supplies, straps and start-up (R546 to R560). `step` is the last start-up step done, 0 to 10; `failed` stops it. -/
structure Power where
  standby : Bool
  pwrOk : Bool
  rails : Bool
  selfRefresh : Bool
  thermTrip : Bool
  straps : Straps
  cause : Nat
  step : Nat
  failed : Bool
  stepAt : Nat
  railsAt : Nat
  bootRom : Bool
  downPending : Bool
  deriving DecidableEq, Repr

/-- The ordering code: memory of 2 TiB or 1 TiB, fuse variant -B, and the module serial number (R1, R498). -/
structure Part where
  oneTib : Bool
  fuseB : Bool
  serial : Word
  deriving DecidableEq, Repr

/-- The whole block. -/
structure State where
  part : Part
  power : Power
  devId : Nat
  devValid : Bool
  quadOnline : Nat
  spareInUse : Nat
  mer : Meridian
  vin : Vintage
  staged : Staged
  /-- the counter of each source's next stamp, by source key, and the values recorded at the last watermark
  (R44 to R47); unlisted counters stand at 2^32 -/
  counters : Table Nat
  marks : Table Nat
  cores : Table Core
  sxt : Sextant
  lines : Table AgentLine
  /-- what each L3 slice holds, by cluster (R178, R179) -/
  l3 : Table (List Nat)
  reqs : List AgentReq
  wbs : List WbBuf
  home : Home
  mem : Memory
  tree : Tree
  fab : Fabric
  chs : Channels
  mov : Movers
  cmp : Compression
  cip : Cipher
  zon : Zones
  bnd : Bonded
  rlx : Relrax
  flt : Faults
  log : Logbook
  pcie : Table Pcie
  /-- counter that the model advances at each value the spec leaves open (the model's own field) -/
  fresh : Nat
  /-- commands waiting, first in, first out -/
  pending : List Instr
  deriving DecidableEq, Repr

/-! ## Reset -/

/-- The configuration with every item at its At reset value (R290, R434, R458, R518). -/
def CfgImage.zero : CfgImage := ⟨0, 0, [], [], 0, 0, [], [], [], []⟩

/-- The meridian keeper after reset (R40, R41). The nominal rate is 2.56 mt per hub cycle (R21). -/
def Meridian.reset : Meridian where
  ext := 0
  rate := 10995116277
  slew := 0
  src := 0
  setVal := none
  ppsLast := none
  ppsIgnored := 0
  refPresent := true
  holdover := false
  refLost := false
  masterId := none
  standbyId := none
  role := 3
  err := 0
  fault := false
  locked := false
  goodSyncs := 0
  hbSeen := 0
  missing := none
  takeover := none
  hbIdx := 0
  ppsOut := none
  ppsOutIdx := 0
  wmIdx := 0
  masters := []
  former := none

def Vintage.reset : Vintage := ⟨0, 0, CfgImage.zero, none, none, false, false, none, [], 0, false⟩

def Sextant.reset : Sextant where
  c1Limit := 0x0400
  guard := 2
  watchEn := true
  watches := 0
  replans := 0
  spareBad := 0
  last := 0
  watchIdx := 0
  rlfFrom := 0
  rlfTo := 0
  rlfReason := 0
  rlfResult := 0
  rlfDone := false
  rlfTime := 0
  reliefs := []
  requests := []
  reqAt := []
  reads := ⟨[], []⟩
  laneBase := []
  lanePlan := []
  laneDue := []
  pcieRt := []
  images := []
  wayErrs := []
  l3WaysOff := []

def Home.reset : Home := ⟨[], [], [], 0, [], [], none, 0, 0, 0x1000⟩

def Memory.reset : Memory where
  bytes := []
  keys := []
  poison := []
  pages := []
  lists := []
  cellared := []
  pool := []
  usedGran := []
  granStart := 0
  decants := []
  waiting := []
  cellarings := []
  tags := []
  chans := []
  eccCe := 0
  eccUe := 0
  eccLink := 0
  scrubPasses := 0
  scrubHeld := false
  scrubRunning := false
  scrubIdx := 0
  maxGran := 24
  zeroEn := true
  celEn := true
  decantCnt := 0
  exhausted := 0
  decFail := 0

/-- A power domain after reset: OFF (R289). -/
def Domain.reset : Domain := ⟨[], 0, 0, 0, none, none⟩

def Tree.reset : Tree := ⟨[], false, 0, 0, 0, [], [], none, 0, 0, [], [], [], [], []⟩

def Fabric.reset : Fabric where
  ports := []
  mesh := false
  sizes := []
  coords := []
  coordKnown := false
  bestSerial := 0
  bestMaster := false
  bestAt := 0
  isOrigin := false
  discovered := false
  partner := none
  unmirrored := false
  isolated := false
  sweepAt := none
  discards := 0
  orphFwd := 0
  orphDup := 0
  lostMap := []
  lostWait := 0x100
  downs := []
  heard := []
  seen := []
  await := []
  lastUp := 0
  remeasureIdx := 0

def Channels.reset : Channels where
  nsub := 0
  mch := 0x200
  en := false
  sctb := 0
  swin := []
  posted := 0
  dup := 0
  stale := 0
  partnerPosts := 0
  held := []
  custImage := 0
  custCodes := 0
  cps := []
  subCache := []
  vcCache := []
  ops := []
  opSeq := 0
  queues := []
  mirrors := []
  lastPosted := []
  store := []
  load := none

def Movers.reset : Movers := ⟨0, [], [], []⟩
def Compression.reset : Compression := ⟨24, false, true, 0, 0, [], []⟩
def Cipher.reset : Cipher := ⟨[], [], 0, 0, false, none, 4, 0, 0, [], [], []⟩
def Zones.reset : Zones := ⟨[], [], 0, 0, 0, 0, 0, 0, 0, 0, 0⟩
def Bonded.reset : Bonded := ⟨0, 0, 0, 0, 0, 0, 0, false, false, 0, 0, 0⟩

/-- Flash content that no rule of the spec gives: two good Relrax copies, one module, no images. -/
def Flash.reset : Flash :=
  ⟨true, true, 1, 1, CfgImage.zero, false, [1, 1, 1, 1, 1, 1], none, none, none, [], [], 3, (0, 0), (false, false)⟩

def Relrax.reset : Relrax := ⟨Mailbox.reset, Mailbox.reset, [], [], [], false, 0, 0, 0, Flash.reset, [], 0⟩
def Faults.reset : Faults := ⟨[], [], [], [], [], true, false, none, false, false, []⟩
def Logbook.reset : Logbook := ⟨[], 0, none, [], [], []⟩

/-- Straps that nothing drives read low (R567). -/
def Straps.low : Straps := ⟨false, false, false, false, 0⟩

/-- After 3V3_STBY has risen: standby power, no main power, start-up before step 1 (R552, R556). -/
def Power.reset : Power := ⟨true, false, false, false, false, Straps.low, 1, 0, false, 0, 0, false, false⟩

/-- The block right after reset: every register at its At reset value. -/
def State.reset : State where
  part := ⟨false, false, 0⟩
  power := Power.reset
  devId := 0xFFFF
  devValid := false
  quadOnline := 0
  spareInUse := 0
  mer := Meridian.reset
  vin := Vintage.reset
  staged := ⟨none, none, none, none, none⟩
  counters := []
  marks := []
  cores := []
  sxt := Sextant.reset
  lines := []
  l3 := []
  reqs := []
  wbs := []
  home := Home.reset
  mem := Memory.reset
  tree := Tree.reset
  fab := Fabric.reset
  chs := Channels.reset
  mov := Movers.reset
  cmp := Compression.reset
  cip := Cipher.reset
  zon := Zones.reset
  bnd := Bonded.reset
  rlx := Relrax.reset
  flt := Faults.reset
  log := Logbook.reset
  pcie := []
  fresh := 0
  pending := []

end Sys2Proof.Machine
end

