-- ==== Sys2Proof/Machine/Lzw.lean ====
section
/-! DEFINITION. Terulay dictionary coding: codes, dictionary, compressor and decompressor (R393 to R397, R403 to
R405). -/

namespace Sys2Proof.Machine

/-- The width of a code while `n` is the next number (R396). -/
def codeWidth (n : Nat) : Nat := min 16 (Nat.log2 n + 1)

/-- The bits of a code, lowest first (R393). -/
def codeBits (w v : Nat) : List Bool := (List.range w).map v.testBit

/-- The number whose bits these are, lowest first. -/
def bitsNat : List Bool → Nat
  | [] => 0
  | b :: t => b.toNat + 2 * bitsNat t

/-- The bits of bytes, in stream order. -/
def bytesBits (bs : List Byte) : List Bool := bs.flatMap (fun b => codeBits 8 b.toNat)

/-- The whole bytes that bits complete, and the bits left. -/
def packBits : Nat → List Bool → List Byte × List Bool
  | 0, bs => ([], bs)
  | k + 1, bs =>
    if bs.length < 8 then ([], bs)
    else
      let r := packBits k (bs.drop 8)
      (BitVec.ofNat 8 (bitsNat (bs.take 8)) :: r.1, r.2)

/-- The string of a code: a literal, or a dictionary entry followed back to its first byte. -/
def codeString (dict : List (Option (Nat × Byte))) : Nat → Nat → Option (List Byte)
  | 0, _ => none
  | k + 1, x =>
    if x < 256 then some [BitVec.ofNat 8 x]
    else if x < 259 then none
    else match dict[x - 259]? with
      | some (some (q, c)) => (codeString dict k q).map (· ++ [c])
      | _ => none

/-- The code of string `p` followed by `c`, where the dictionary holds it. -/
def findEntry (dict : List (Option (Nat × Byte))) (p : Nat) (c : Byte) : Option Nat :=
  (dict.findIdx? (· == some (p, c))).map (· + 259)

/-! ## Encoding (R396) -/

/-- Emit one code: its bits join those not yet written, and wbits counts them. -/
def lzEmit (st : LzStream) (x : Nat) : LzStream :=
  let w := codeWidth st.n
  { st with pend := st.pend ++ codeBits w x, wbits := st.wbits + w, codes := st.codes + 1 }

/-- Bits of the stream so far: emitted by a compressor, taken by a decompressor. -/
def lzPos (st : LzStream) : Nat := if st.kind = 2 then st.wbits else 8 * st.outBytes + st.pend.length

/-- Assign the next number: to a string, or to nothing where it is burned. The anchor ends where the dictionary becomes
full (R408). -/
def lzAssign (st : LzStream) (e : Option (Nat × Byte)) : LzStream :=
  if st.n < 65536 then
    { st with
      dict := st.dict ++ [e], n := st.n + 1
      fullAt := if st.n = 65535 then some ((lzPos st + 7) / 8) else st.fullAt }
  else st

/-- Zero bits up to the next byte boundary. All bits before `pend` fill whole bytes. -/
def lzPad (st : LzStream) : LzStream :=
  { st with pend := st.pend ++ List.replicate ((8 - st.pend.length % 8) % 8) false }

/-- stop(k): k = 1 CLEAR, 2 FLUSH, 3 END (R396, R407). -/
def lzStop (st : LzStream) (k : Nat) : LzStream :=
  let st := match st.p with
    | none => st
    | some p => lzAssign (lzEmit st p) none
  let st := lzEmit st (if k = 1 then 256 else if k = 2 then 258 else 257)
  let st := if k = 1 then { st with n := 259, dict := [], codes := 0, anchorBit := lzPos st, fullAt := none } else lzPad st
  { st with p := none, group := 0 }

/-- The group that a 4 KiB boundary calls for: 0 none, 1 CLEAR, 2 FLUSH (R396). -/
def lzBoundary (clear sync : Bool) (thr : Nat) (st : LzStream) : Nat :=
  if clear && st.n == 65536 && decide (524288 < thr * st.wbits) then 1 else if sync then 2 else 0

/-- Take one input byte, after any boundary action. -/
def lzByte (st : LzStream) (c : Byte) : LzStream :=
  let st := match st.p with
    | none => { st with p := some c.toNat }
    | some p =>
      match findEntry st.dict p c with
      | some x => { st with p := some x }
      | none => { lzAssign (lzEmit st p) (some (p, c)) with p := some c.toNat }
  { st with i := st.i + 1 }

/-- Whether the bits not yet written fit in a destination of `room` bytes (R403, R404). -/
def lzFits (st : LzStream) (room : Nat) : Bool := decide (st.pend.length ≤ 8 * room)

/-- Run the compressor over input bytes with `room` destination bytes left. Answers the state, the bytes not consumed,
and whether the destination is full. A boundary group that does not fit is recorded as pending (R403). -/
def lzCompress (clear sync : Bool) (thr : Nat) : List Byte → Nat → LzStream → LzStream × List Byte × Bool
  | [], _, st => (st, [], false)
  | c :: t, room, st =>
    let g := if st.group ≠ 0 then st.group
      else if st.i > 0 ∧ st.i % 4096 = 0 then lzBoundary clear sync thr st else 0
    let st1 := if g = 0 then st else lzStop st g
    let st1 := if st.i > 0 ∧ st.i % 4096 = 0 then { st1 with wbits := 0 } else st1
    if g ≠ 0 ∧ ¬ lzFits st1 room then ({ st with group := g }, c :: t, true)
    else
      let st2 := lzByte st1 c
      if lzFits st2 room then lzCompress clear sync thr t room st2 else (st1, c :: t, true)

/-- stop(END) where it fits; otherwise it is pending (R403). -/
def lzEnd (room : Nat) (st : LzStream) : LzStream × Bool :=
  let st1 := lzStop st 3
  if lzFits st1 room then (st1, true) else ({ st with group := 3 }, false)

/-- Move the whole bytes out of the bits not yet written (R404). -/
def lzDrain (st : LzStream) : LzStream × List Byte :=
  let r := packBits st.pend.length st.pend
  ({ st with pend := r.2, outBytes := st.outBytes + r.1.length }, r.1)

/-- A fresh stream: kind 1 compress, 2 decompress. -/
def lzFresh (kind : Nat) : LzStream :=
  ⟨kind, 1, 259, none, 0, 0, 0, [], 0, none, none, [], 0, [], 0, 0, none, [], 0⟩

/-! ## Decoding (R397, R405) -/

/-- How a run of the decompressor stops. -/
inductive DecEnd where
  | input | ended | error | full
  deriving DecidableEq, Repr

/-- Output bytes go out while room lasts; the rest of a string waits as an expansion in progress. -/
def decPut (x off : Nat) (str : List Byte) (room : Nat) (st : LzStream) : LzStream × List Byte × Bool :=
  if str.length ≤ room then ({ st with expanding := none }, str, true)
  else ({ st with expanding := some (x, off + room) }, str.take room, false)

/-- Run the decompressor on the bits at hand with `room` output bytes left; `fuel` bounds the codes taken. In a
decompressing stream `wbits` counts the bits taken, whose place in a byte END and FLUSH need. -/
def lzDecompress : Nat → Nat → LzStream → LzStream × List Byte × DecEnd
  | 0, _, st => (st, [], .input)
  | fuel + 1, room, st =>
    match st.expanding with
    | some (x, off) =>
      match codeString st.dict 65536 x with
      | none => (st, [], .error)
      | some str =>
        let r := decPut x off (str.drop off) room st
        if r.2.2 then
          let q := lzDecompress fuel (room - r.2.1.length) r.1
          (q.1, r.2.1 ++ q.2.1, q.2.2)
        else (r.1, r.2.1, .full)
    | none =>
      let pend := if st.p.isSome ∧ st.n < 65536 then 1 else 0
      let w := codeWidth (st.n + pend)
      if st.inBits.length < w then (st, [], .input)
      else
        let x := bitsNat (st.inBits.take w)
        let st1 := { st with inBits := st.inBits.drop w, wbits := st.wbits + w, codes := st.codes + 1 }
        if x = 256 then
          lzDecompress fuel room
            { st1 with n := 259, dict := [], p := none, codes := 0, anchorBit := lzPos st1, fullAt := none }
        else if x = 257 ∨ x = 258 then
          let skip := (8 - st1.wbits % 8) % 8
          let st2 := if pend = 1 then lzAssign st1 none else st1
          if (st1.inBits.take skip).any id then (st2, [], .error)
          else
            let st3 := { st2 with p := none, inBits := st1.inBits.drop skip, wbits := st1.wbits + skip }
            if x = 257 then (st3, [], .ended) else lzDecompress fuel room st3
        else
          let known := if x < st.n then codeString st.dict 65536 x else none
          let str := match known with
            | some str => some str
            | none => if x = st.n ∧ pend = 1 then
                (st.p.bind (codeString st.dict 65536)).map (fun q => q ++ q.take 1) else none
          match str with
          | none => (st, [], .error)
          | some str =>
            let st2 := if pend = 1 then
                lzAssign st1 (match st.p, str with | some q, c :: _ => some (q, c) | _, _ => none) else st1
            let r := decPut x 0 str room { st2 with p := some x }
            if r.2.2 then
              let q := lzDecompress fuel (room - str.length) r.1
              (q.1, str ++ q.2.1, q.2.2)
            else (r.1, r.2.1, .full)

/-- Compress one page as the cellar does (R401): a fresh dictionary, no boundary action, END at the end. Nothing where
more than `limit` bytes come out. -/
def lzPage (limit : Nat) (page : List Byte) : Option (List Byte) :=
  let r := lzCompress false false 0 page limit (lzFresh 1)
  if r.2.2 then none
  else
    let e := lzEnd limit r.1
    if e.2 then some (lzDrain e.1).2 else none

/-- Expand a cellared page's image (R401): exactly 4,096 bytes, or nothing. -/
def lzExpandPage (image : List Byte) : Option (List Byte) :=
  let r := lzDecompress 40000 4096 { lzFresh 2 with inBits := bytesBits image }
  match r.2.2 with
  | .ended => if r.2.1.length = 4096 then some r.2.1 else none
  | _ => none

end Sys2Proof.Machine
end

