-- ==== Sys2Proof/Config.lean ====
section
/-! DEFINITION. Values that the spec leaves open. None has a body, so nothing can be proved of a particular value:
what is proved holds for all. `State.fresh` selects a new one at each use. -/

namespace Sys2Proof

/-- An open byte (R251 and the other places that notes/assumptions name). -/
opaque Config.freeByte : Nat → Byte

/-- An open word. -/
opaque Config.freeWord : Nat → Word

/-- An open line. -/
opaque Config.freeLine : Nat → Line

/-- An open natural number. -/
opaque Config.freeNat : Nat → Nat

/-- An open choice. -/
opaque Config.freeBool : Nat → Bool

/-- An open 128-bit value. -/
opaque Config.freeWide : Nat → BitVec 128

/-- The key of slot 0, which the service processor draws from its own random generator (R418): bit 0 says AES-256, then
256 bits of key1 and 256 bits of key2. -/
opaque Config.slotZeroKey : Nat

/-- The numbers of the coherence messages, in the order in which R217 names them: it gives none (R270). -/
opaque Config.coherenceOp : Nat → Nat

/-- The syndrome that the line code gives to a set of symbol errors (R245, R247): the spec names the code, not its
generator. -/
opaque Config.eccSyndrome : List (Nat × Nat) → BitVec 32

/-- How the decoder ends on errors beyond those that R245 decides: 0 not detected, 1 taken for another line's error and
miscorrected, else detected (R245, R246). -/
opaque Config.eccBeyond : List (Nat × Nat) → Nat

/-- The line that such a read delivers as good data, from what stood there (R246). -/
opaque Config.eccLine : List (Nat × Nat) → Line → Line

/-- Whether a signed image's words carry a good signature under the named key (R510). -/
opaque Config.signatureGood : List Word → List Word → Bool

/-- A word of PCIe configuration space at reset, and the bits of it that a write changes, by controller, port and
word (R575). -/
opaque Config.pcieReset : Nat → BitVec 32
opaque Config.pcieWritable : Nat → BitVec 32

end Sys2Proof
end

