-- ==== Sys2Proof/Machine/Table.lean ====
section
/-! DEFINITION. Sparse tables in one canonical form: keys strictly rising, no entry equal to the default of its key.
Association lists keep the first condition only. -/

namespace Sys2Proof

/-- The value at a key; the default where the key is not listed. -/
def Table.get {α : Type} (d : Nat → α) : Table α → Nat → α
  | [], k => d k
  | (j, v) :: t, k => if j = k then v else Table.get d t k

/-- The list without the key, wherever it stands. -/
def Assoc.del {α : Type} : List (Nat × α) → Nat → List (Nat × α)
  | [], _ => []
  | (j, v) :: t, k => if j = k then Assoc.del t k else (j, v) :: Assoc.del t k

/-- The list with the key bound to the value, in key order. -/
def Assoc.put {α : Type} : List (Nat × α) → Nat → α → List (Nat × α)
  | [], k, v => [(k, v)]
  | (j, w) :: t, k, v =>
    if k < j then (k, v) :: (j, w) :: t
    else if k = j then (k, v) :: t
    else (j, w) :: Assoc.put t k v

/-- The value bound to a key, if any. -/
def Assoc.get {α : Type} : List (Nat × α) → Nat → Option α
  | [], _ => none
  | (j, v) :: t, k => if j = k then some v else Assoc.get t k

/-- The table with the key's value replaced; a default value removes the entry. -/
def Table.set {α : Type} [DecidableEq α] (d : Nat → α) (t : Table α) (k : Nat) (v : α) : Table α :=
  if v = d k then Assoc.del t k else Assoc.put t k v

/-- The table after `f` has been applied to one key's value. -/
def Table.upd {α : Type} [DecidableEq α] (d : Nat → α) (t : Table α) (k : Nat) (f : α → α) : Table α :=
  Table.set d t k (f (Table.get d t k))

/-- The keys rise strictly, each above `lo`. -/
def Table.rising {α : Type} : Option Nat → List (Nat × α) → Bool
  | _, [] => true
  | lo, (k, _) :: t => (match lo with | none => true | some l => decide (l < k)) && Table.rising (some k) t

/-- The canonical form. -/
def Table.wf {α : Type} [DecidableEq α] (d : Nat → α) (t : Table α) : Bool :=
  Table.rising none t && t.all (fun e => decide (e.2 ≠ d e.1))

/-- The first list element that satisfies `p`, replaced by `f` of it. -/
def List.updFirst {α : Type} (p : α → Bool) (f : α → α) : List α → List α
  | [] => []
  | a :: t => if p a then f a :: t else a :: List.updFirst p f t

/-- The list without its first element that satisfies `p`. -/
def List.delFirst {α : Type} (p : α → Bool) : List α → List α
  | [] => []
  | a :: t => if p a then t else a :: List.delFirst p t

end Sys2Proof

namespace Sys2Proof

/-- The table with `f` applied to every listed value; values that become the default leave the list. -/
def Table.mapListed {α : Type} [DecidableEq α] (d : Nat → α) (f : Nat → α → α) : Table α → Table α
  | [] => []
  | (k, v) :: t =>
    let u := Assoc.del (Table.mapListed d f t) k
    if f k v = d k then u else (k, f k v) :: u

end Sys2Proof
end

