-- ==== Sys2Proof/Machine/Ops.lean ====
section
/-! DEFINITION. Shared operations: the meridian as read, free values, the geometry of the module, sequence stamps,
access to units of the state by number, and the logbook's writer. -/

namespace Sys2Proof.Machine

/-- What a command answers. -/
abbrev Out := Host.Outcome State Fault Refusal

/-- The value of a register's field at zero for every key. -/
def zeroOf (_ : Nat) : Nat := 0

/-- The word 0 for every key. -/
def zeroWord (_ : Nat) : Word := 0

/-- The byte that an unlisted address of memory reads as (R554). -/
def memDefault (_ : Nat) : Byte := 0

/-- The visible meridian: the integer part of the extended count (R21). -/
def now (s : State) : Nat := s.mer.ext / 2 ^ 32 % 2 ^ 64

/-- Move on to the next value that the spec leaves open. -/
def nextFree (s : State) : State := { s with fresh := s.fresh + 1 }

/-- A count that saturates at the largest value of its width. -/
def satAdd (width c n : Nat) : Nat := min (c + n) (2 ^ width - 1)

/-! ## Geometry (R13, R14) -/

def coreQuad (n : Nat) : Nat := n / 68
def coreCluster (n : Nat) : Nat := n / 17
def coreSlot (n : Nat) : Nat := n % 17
def spareOf (k : Nat) : Nat := 17 * k + 16
def clusterCores (k : Nat) : List Nat := (List.range 17).map (17 * k + ·)
def quadCores (q : Nat) : List Nat := (List.range 68).map (68 * q + ·)
def allCores : List Nat := List.range 272

/-! ## Units of the state by number -/

def getCore (s : State) (n : Nat) : Core := Table.get Core.reset s.cores n
def setCore (s : State) (n : Nat) (c : Core) : State := { s with cores := Table.set Core.reset s.cores n c }
def updCore (s : State) (n : Nat) (f : Core → Core) : State := setCore s n (f (getCore s n))
def updCores (s : State) (ns : List Nat) (f : Nat → Core → Core) : State :=
  ns.foldl (fun s n => updCore s n (f n)) s

def domOf (_ : Nat) : Domain := Domain.reset
def getDom (s : State) (d : Nat) : Domain := Table.get domOf s.tree.doms d
def updDom (s : State) (d : Nat) (f : Domain → Domain) : State :=
  { s with tree := { s.tree with doms := Table.upd domOf s.tree.doms d f } }

def portOf (_ : Nat) : Port := Port.reset
def getPort (s : State) (p : Nat) : Port := Table.get portOf s.fab.ports p
def updPort (s : State) (p : Nat) (f : Port → Port) : State :=
  { s with fab := { s.fab with ports := Table.upd portOf s.fab.ports p f } }

def chnOf (_ : Nat) : Chn := Chn.reset
def getChn (s : State) (n : Nat) : Chn := Table.get chnOf s.mov.chns n
def updChn (s : State) (n : Nat) (f : Chn → Chn) : State :=
  { s with mov := { s.mov with chns := Table.upd chnOf s.mov.chns n f } }

def getZone (s : State) (z : Nat) : Zone := Table.get Zone.reset s.zon.zones z
def updZone (s : State) (z : Nat) (f : Zone → Zone) : State :=
  { s with zon := { s.zon with zones := Table.upd Zone.reset s.zon.zones z f } }

/-- The unbound vcore: core number 0 is meaningless while the state is 0 (R441). -/
def vcoreOf (_ : Nat) : Vcore := ⟨0, 0, false⟩
def vcoreKey (zone vcid : Nat) : Nat := zone * 4096 + vcid % 4096
def getVcore (s : State) (zone vcid : Nat) : Vcore := Table.get vcoreOf s.zon.vcores (vcoreKey zone vcid)
def updVcore (s : State) (zone vcid : Nat) (f : Vcore → Vcore) : State :=
  { s with zon := { s.zon with vcores := Table.upd vcoreOf s.zon.vcores (vcoreKey zone vcid) f } }

/-- The vcore that a physical core carries, as zone and vcid (R441). -/
def vcoreOn (s : State) (n : Nat) : Option (Nat × Nat) :=
  match s.zon.vcores.find? (fun e => e.2.core == n && e.2.state != 0) with
  | some e => some (e.1 / 4096, e.1 % 4096)
  | none => none

def slotOf (_ : Nat) : KeySlot := KeySlot.empty
def getSlot (s : State) (n : Nat) : KeySlot := Table.get slotOf s.cip.slots n

def pcieOf (_ : Nat) : Pcie := Pcie.reset
def getPcie (s : State) (c : Nat) : Pcie := Table.get pcieOf s.pcie c
def updPcie (s : State) (c : Nat) (f : Pcie → Pcie) : State := { s with pcie := Table.upd pcieOf s.pcie c f }

/-! ## Registers of a core (R53) -/

def noSeg (_ : Nat) : SegReg := SegReg.null
def zeroWide (_ : Nat) : BitVec 128 := 0

/-- Register gi; g0 reads 0 (R51). -/
def CoreRegs.getG (r : CoreRegs) (i : Nat) : Word := if i = 0 then 0 else Table.get zeroWord r.g i

/-- Write gi; a write to g0 is discarded (R51). -/
def CoreRegs.setG (r : CoreRegs) (i : Nat) (w : Word) : CoreRegs :=
  if i = 0 then r else { r with g := Table.set zeroWord r.g i w }

def CoreRegs.getAcc (r : CoreRegs) (i : Nat) : BitVec 128 := Table.get zeroWide r.acc i
def CoreRegs.setAcc (r : CoreRegs) (i : Nat) (w : BitVec 128) : CoreRegs :=
  { r with acc := Table.set zeroWide r.acc i w }
def CoreRegs.getSeg (r : CoreRegs) (i : Nat) : SegReg := Table.get noSeg r.seg i
def CoreRegs.setSeg (r : CoreRegs) (i : Nat) (d : SegReg) : CoreRegs := { r with seg := Table.set noSeg r.seg i d }
def CoreRegs.getCtl (r : CoreRegs) (i : Nat) : Word := Table.get zeroWord r.ctl i
def CoreRegs.setCtl (r : CoreRegs) (i : Nat) (w : Word) : CoreRegs := { r with ctl := Table.set zeroWord r.ctl i w }

/-- The bits `[hi:lo]` of a word replaced by `v`. -/
def setField (w : Word) (hi lo v : Nat) : Word :=
  w - BitVec.ofNat 64 (2 ^ lo * w.field hi lo) + BitVec.ofNat 64 (2 ^ lo * (v % 2 ^ (hi + 1 - lo)))

/-- Bit `i` of a word replaced. -/
def setBit (w : Word) (i : Nat) (b : Bool) : Word := setField w i i b.toNat

def CoreRegs.zone (r : CoreRegs) : Nat := r.psw.field 63 52
def CoreRegs.w (r : CoreRegs) : Bool := r.psw.bit 44
def CoreRegs.priv (r : CoreRegs) : Bool := r.psw.bit 43

/-! ## Sequence stamps (R44 to R47) -/

/-- The counter's width of a source: 36 bits for a core, 40 for any other (R46). -/
def counterWidth (key : Nat) : Nat := if key < 4096 then 40 else 36

/-- Where a counter starts while the logbook records nothing of it: recorded value 0 plus 2^32 (R47). -/
def counterStart (_ : Nat) : Nat := 2 ^ 32

/-- The counter that the source's next stamp carries. -/
def counterOf (s : State) (key : Nat) : Nat := Table.get counterStart s.counters key

/-- Advance a source's counter by one, modulo its width (R46). -/
def bumpCounter (s : State) (key : Nat) : State :=
  { s with counters := Table.upd counterStart s.counters key (fun c => (c + 1) % 2 ^ counterWidth key) }

/-- The highest counter that a source has issued (R47). -/
def highestIssued (s : State) (key : Nat) : Nat :=
  (counterOf s key + 2 ^ counterWidth key - 1) % 2 ^ counterWidth key

/-- A stamp of a unit of this module (R44, R45). -/
def mkStamp (s : State) (unit counter : Nat) : Word :=
  BitVec.ofNat 64 (2 ^ 48 * (s.devId % 65536) + 2 ^ 40 * unit + counter)

/-- Issue the next stamp of a unit that is not a core. -/
def issueStamp (s : State) (unit : Nat) : Word × State :=
  (mkStamp s unit (counterOf s unit), bumpCounter s unit)

/-- The counter's key of a core. -/
def coreKey (n : Nat) : Nat := 4096 + n

/-- Issue the next stamp of a core: unit code its slot, cluster index in [39:36] (R14, R44). -/
def issueCoreStamp (s : State) (n : Nat) : Word × State :=
  (mkStamp s (coreSlot n) (2 ^ 36 * coreCluster n + counterOf s (coreKey n)), bumpCounter s (coreKey n))

/-- The device, unit and counter of a stamp. -/
def stampDev (w : Word) : Nat := w.field 63 48
def stampUnit (w : Word) : Nat := w.field 47 40
def stampCounter (w : Word) : Nat := if stampUnit w ≤ 0x10 then w.field 35 0 else w.field 39 0
def stampWidth (w : Word) : Nat := if stampUnit w ≤ 0x10 then 36 else 40

/-- Which source a stamp comes from: device, unit, and the cluster of a core. -/
def stampSource (w : Word) : Nat :=
  if stampUnit w ≤ 0x10 then w.field 63 36 else w.field 63 40 * 16

/-- Counter `a` is later than counter `b` of the same source (R46). -/
def counterLater (width a b : Nat) : Bool :=
  let d := (a + 2 ^ width - b % 2 ^ width) % 2 ^ width
  decide (1 ≤ d ∧ d < 2 ^ (width - 1))

/-! ## Logbook (R532 to R537) -/

def segOf (_ : Nat) : LogSeg := ⟨0, 0, 0, 0, none, []⟩

/-- Start the writer on the next entry: the checkstop entries first, then the queue; entries that Relrax holds move up
as places free (R532). -/
def logPump (s : State) : State :=
  let l := s.log
  match l.writing with
  | some _ => s
  | none =>
    match l.first with
    | e :: t => { s with log := { l with writing := some e, first := t } }
    | [] =>
      match l.queue with
      | [] => s
      | e :: t =>
        match l.held with
        | [] => { s with log := { l with writing := some e, queue := t } }
        | h :: hs => { s with log := { l with writing := some e, queue := t ++ [h], held := hs } }

/-- A logbook entry as Relrax makes it: type, auxiliary field of word 0, stamp, words 3 to 6 and the upper half of
word 7; the meridian is the local count, flagged while a meridian fault is set (R28, R534). -/
def mkEntry (s : State) (type aux0 : Nat) (stamp : Word) (p : List Word) (aux7 : Nat) : LogEntry :=
  ⟨type, false, s.mer.fault, aux0, now s, stamp, p, aux7⟩

/-- Pass an entry to the writer's queue of 64, or hold it in order (R532). -/
def logPut (s : State) (e : LogEntry) : State :=
  let l := s.log
  logPump (if l.queue.length < 64 ∧ l.held = [] then { s with log := { l with queue := l.queue ++ [e] } }
           else { s with log := { l with held := l.held ++ [e] } })

/-- Make an entry and pass it to the writer. -/
def logAdd (s : State) (type : Nat) (stamp : Word) (p : List Word) : State := logPut s (mkEntry s type 0 stamp p 0)

/-- The words of an entry as it is stored (R534). -/
def LogEntry.words (e : LogEntry) : List Word :=
  let w0 := BitVec.ofNat 64 (e.type * 2 ^ 48 + e.hw.toNat * 2 ^ 33 + e.unsync.toNat * 2 ^ 32 + e.aux0)
  let p := (e.payload ++ [0, 0, 0, 0]).take 4
  let body := [w0, BitVec.ofNat 64 e.mer, e.stamp] ++ p
  let c := crc32c (wordsBytes body ++ leBytes 4 e.aux7)
  body ++ [BitVec.ofNat 64 (e.aux7 * 2 ^ 32 + c)]

end Sys2Proof.Machine
end

