-- ==== Sys2Proof/Machine/Mem.lean ====
section
/-! DEFINITION. Memory behind the home: frames, keys, poison, translation, the home's checks, the cellar's pool and
free lists, cached copies, and the accesses that the module's own engines make, each as one action. -/

namespace Sys2Proof.Machine

/-- How a shared operation reaches the fault collector (`fault`) and posts a cellar-low notice for a zone (`low`, R255);
the collector itself passes its own bounded form. -/
structure Reporter where
  fault : Report → State → State
  low : Nat → State → State

/-! ## Addresses (R233, R234) -/

def addrDev (a : Word) : Nat := a.field 56 41
def addrOff (a : Word) : Nat := a.field 40 0
def globalLine (a : Word) : Nat := a.field 56 7
def mkAddr (dev off : Nat) : Word := BitVec.ofNat 64 (2 ^ 41 * (dev % 65536) + off % 2 ^ 41)

/-- Bytes of usable memory (R234). -/
def usableBytes (s : State) : Nat := if s.part.oneTib then 960 * 2 ^ 30 else 1952 * 2 ^ 30
def usablePages (s : State) : Nat := usableBytes s / 4096

/-- The home quadrant of a line: bits [8:7] of the local offset (R215). -/
def homeQuad (off : Nat) : Nat := off / 128 % 4

/-- The memory channel of a frame offset (R241). -/
def chanOf (f : Nat) : Nat :=
  (f / 2 ^ 7 % 64) ^^^ (f / 2 ^ 13 % 64) ^^^ (f / 2 ^ 19 % 64) ^^^ (f / 2 ^ 25 % 64) ^^^ (f / 2 ^ 31 % 64)

def chanDefault (_ : Nat) : Chan := Chan.reset
def getChan (s : State) (c : Nat) : Chan := Table.get chanDefault s.mem.chans c
def updChan (s : State) (c : Nat) (f : Chan → Chan) : State :=
  { s with mem := { s.mem with chans := Table.upd chanDefault s.mem.chans c f } }

/-! ## Keys (R250, R251, R421) -/

/-- The key-slot map entry at reset: owner s, memory 1 (R434). -/
def keyMapDefault (z : Nat) : Word := BitVec.ofNat 64 (z * 2 ^ 16 + 1)
def keyMapOf (s : State) (z : Nat) : Word := Table.get keyMapDefault s.vin.cfg.keyMap z

/-- The zone's slot holds a key and the map enables it for memory (R251). -/
def keyReady (s : State) (z : Nat) : Bool := (getSlot s z).loaded && (keyMapOf s z).bit 0

/-- The key that a zone's memory is written under, as a number: the key material of its slot; 0 for slot 0, which keeps one
key (R250, R418). -/
def keyTag (s : State) (z : Nat) : Nat :=
  let k := getSlot s z
  if z = 0 then 0 else 1 + k.aes256.toNat + 2 * (k.key1.toNat + 2 ^ 256 * k.key2.toNat)

/-! ## Frames -/

def lineOf (bs : List Byte) : Line := BitVec.ofNat 1024 (ofLeBytes bs)
def lineBytes (l : Line) : List Byte := leBytes 128 l.toNat
def frameBytes (m : Memory) (fl : Nat) : List Byte :=
  (List.range 128).map (fun j => Table.get memDefault m.bytes (fl * 128 + j))

/-- Bytes written at consecutive addresses. -/
def putBytes (m : List Host.Cell) (a : Nat) : List Byte → List Host.Cell
  | [] => m
  | b :: t => putBytes (Table.set memDefault m a b) (a + 1) t

/-- The key that a number of `keyTag` stands for: its bytes of key1 and key2. Slot 0's is open, as the service processor
draws it (R418). -/
def tagKeys (t : Nat) : List Byte × List Byte :=
  let k := if t = 0 then Config.slotZeroKey else t - 1
  let n := if k % 2 = 1 then 32 else 16
  (leBytes n (k / 2 % 2 ^ 256), leBytes n (k / 2 ^ 257 % 2 ^ 256))

/-- The tweak of a frame line: its index and the home's device ID (R250). -/
def lineTweak (dev fl : Nat) : Nat := fl % 2 ^ 34 + dev % 65536 * 2 ^ 34

/-- A line through a channel's XTS pipeline under a key: eight blocks of one data unit (R250). -/
def xtsLine (enc : Bool) (dev fl key : Nat) (l : Line) : Line :=
  let k := tagKeys key
  let k1 := roundKeys k.1
  let k2 := roundKeys k.2
  let block := fun (j : Nat) =>
    xtsBlock enc k1 (xtsTweak k2 (lineTweak dev fl) 0 j) (((lineBytes l).drop (16 * j)).take 16)
  lineOf ((List.range 8).flatMap block)

/-- A frame line as read under a key. The model holds a line as it was before the pipeline, with its key; read under
another key, it is what that key makes of the ciphertext (R250, R251). -/
def readFrame (s : State) (fl key : Nat) : Line :=
  let l := lineOf (frameBytes s.mem fl)
  let t := Table.get zeroOf s.mem.keys fl
  if t = key then l else xtsLine false s.devId fl key (xtsLine true s.devId fl t l)

def noFlag (_ : Nat) : Bool := false
def framePoison (s : State) (fl : Nat) : Bool := Table.get noFlag s.mem.poison fl

/-- Write a frame line under a key; a whole-line write clears the poison marker (R247). -/
def writeFrame (s : State) (fl key : Nat) (l : Line) : State :=
  { s with mem := { s.mem with
      bytes := putBytes s.mem.bytes (fl * 128) (lineBytes l)
      keys := Table.set zeroOf s.mem.keys fl key
      poison := Table.set noFlag s.mem.poison fl false } }

/-- Write the poison marker: a line of zero bytes (R247). -/
def poisonFrame (s : State) (fl : Nat) : State :=
  let s := writeFrame s fl 0 0
  { s with mem := { s.mem with poison := Table.set noFlag s.mem.poison fl true } }

/-- Write a line that comes with a zone: under the zone's key, or the poison marker where the slot is empty (R420). -/
def writeZoneLine (s : State) (fl zone : Nat) (poison : Bool) (l : Line) : State :=
  if poison ∨ keyReady s zone = false then poisonFrame s fl else writeFrame s fl (keyTag s zone) l

/-- The lines of a frame, in order. -/
def frameLines (frame : Nat) : List Nat := (List.range 32).map (frame * 32 + ·)

/-- Fill a frame with zeros under a zone's key (R440). -/
def zeroFrame (s : State) (frame zone : Nat) : State :=
  (frameLines frame).foldl (fun s fl => writeZoneLine s fl zone false 0) s

/-! ## Translation (R237 to R239) -/

def getPage (s : State) (p : Nat) : PageEnt := Table.get PageEnt.start s.mem.pages p
def setPage (s : State) (p : Nat) (e : PageEnt) : State :=
  { s with mem := { s.mem with pages := Table.set PageEnt.start s.mem.pages p e } }

/-- The word of a translation entry (R238). -/
def PageEnt.word (e : PageEnt) : Word :=
  BitVec.ofNat 64 (e.st * 2 ^ 62 + e.zone * 2 ^ 50 + e.pin.toNat * 2 ^ 49 + e.dir.toNat * 2 ^ 48 + e.loc)

/-- The zone that a granule is tagged for, plus one; 0 untagged (R463, R465). -/
def granTag (s : State) (g : Nat) : Nat := Table.get zeroOf s.mem.tags g
def pageTagged (s : State) (p : Nat) : Bool := granTag s (p / 512) != 0

/-- Where the home's checks leave a request (R239): the frame line, a page in the cellar or in transit, or a refusal
with its reason; `key` says that R251 made it. -/
inductive HomeCheck where
  | line (fl : Nat)
  | cellared
  | transit (dir : Bool)
  | refused (reason : Nat) (key : Bool)
  deriving DecidableEq, Repr

/-- The home's checks in the order of R239: unassigned page, owner, bonded tag, key slot, cellar state (R235, R439,
R463, R251). -/
def homeCheck (s : State) (off zone : Nat) (world : Bool) : HomeCheck :=
  if usableBytes s ≤ off then .refused 2 false
  else
    let p := off / 4096
    let e := getPage s p
    if e.st = 3 then .refused 2 false
    else if e.zone ≠ zone ∨ (zone ≠ 0 ∧ (getZone s zone).state = 0) then .refused 2 false
    else if pageTagged s p ∧ world = false then .refused 6 false
    else if keyReady s zone = false then .refused 2 true
    else if e.st = 1 then .cellared
    else if e.st = 2 then .transit e.dir
    else .line (e.loc * 32 + off / 128 % 32)

/-- A report with no optional part. -/
def mkReport (source cls reason : Nat) (stamp addr detail : Word) (zone : Nat) : Report :=
  ⟨source, cls, reason, stamp, addr, detail, zone, none, false⟩

/-- The record of a refusal that R251 makes: class C0 from source 0x05 with reason 2 and the zone. -/
def keyRefusal (stamp addr : Word) (zone : Nat) : Report := mkReport 0x05 0 2 stamp addr 0 zone

/-! ## Free lists and the pool (R253 to R255) -/

def listOf (_ : Nat) : FreeList := ⟨[], false, 0⟩
def getList (s : State) (z : Nat) : FreeList := Table.get listOf s.mem.lists z
def updList (s : State) (z : Nat) (f : FreeList → FreeList) : State :=
  { s with mem := { s.mem with lists := Table.upd listOf s.mem.lists z f } }

/-- The link word of a free frame: its first 8 bytes, written under key slot 0, name the next frame (R250, R255). -/
def linkFrame (s : State) (frame next : Nat) : State :=
  let old := lineBytes (readFrame s (frame * 32) 0)
  writeFrame s (frame * 32) 0 (lineOf (leBytes 8 (next % 2 ^ 29) ++ old.drop 8))

/-- Push a frame; a count above the low mark clears low_sent (R255). The last frame's link is 0 (log entry 181). -/
def pushFrame (s : State) (z frame : Nat) : State :=
  updList (linkFrame s frame ((getList s z).frames.headD 0)) z (fun l =>
    let fs := frame :: l.frames
    { l with frames := fs, lowSent := l.lowSent && decide (fs.length ≤ l.lowMark) })

/-- Pop the head frame. Answers whether the low-water notice is due; low_sent is then set (R255). -/
def popFrame (s : State) (z : Nat) : Option (Nat × Bool × State) :=
  let l := getList s z
  match l.frames with
  | [] => none
  | f :: t =>
    let due := decide (t.length ≤ l.lowMark) && !l.lowSent
    some (f, due, updList s z (fun l => { l with frames := t, lowSent := l.lowSent || due }))

/-- The frame offset of a cellar granule: 128 × (i mod 16,384) in the part that holds block i div 16,384 (R253). -/
def granOffset (m : Memory) (i : Nat) : Option Nat :=
  (m.pool.findSome? (fun e => (e.2.blocks.findIdx? (· == i / 16384)).map (fun k => e.2.first + k))).map
    (fun part => part * 2 ^ 21 + 128 * (i % 16384))

/-- The blocks that pool ranges hold, ascending. -/
def poolBlocks (m : Memory) : List Nat := (m.pool.flatMap (fun e => e.2.blocks)).mergeSort (· ≤ ·)
def totalGran (m : Memory) : Nat := 16384 * (poolBlocks m).length
def granUsed (m : Memory) (i : Nat) : Bool := Table.get noFlag m.usedGran i
def freeGran (m : Memory) : Nat := totalGran m - m.usedGran.length

/-- Up to `k` free granules of a block from granule `i` on, looking at `fuel` granules. -/
def freeInBlock (m : Memory) : Nat → Nat → Nat → List Nat
  | 0, _, _ => []
  | fuel + 1, i, k =>
    if k = 0 then []
    else if granUsed m i then freeInBlock m fuel (i + 1) k
    else i :: freeInBlock m fuel (i + 1) (k - 1)

/-- `k` free granules, first free from a rotating start (R253): blocks from the start's block on, then the others. -/
def findGrans (m : Memory) (k : Nat) : Option (List Nat) :=
  let bs := poolBlocks m
  let b0 := m.granStart / 16384
  let tail := bs.filter (fun b => decide (b0 < b))
  let head := bs.filter (fun b => decide (b < b0))
  let first := if b0 ∈ bs then freeInBlock m (16384 - m.granStart % 16384) m.granStart k else []
  let take := fun (acc : List Nat) (b : Nat) => acc ++ freeInBlock m 16384 (b * 16384) (k - acc.length)
  let got := head.foldl take (tail.foldl take first)
  let got := if b0 ∈ bs then got ++ freeInBlock m (m.granStart % 16384) (b0 * 16384) (k - got.length) else got
  if got.length = k then some got else none

/-- Mark granules used or free. -/
def markGrans (s : State) (gs : List Nat) (u : Bool) : State :=
  { s with mem := { s.mem with usedGran := gs.foldl (fun t g => Table.set noFlag t g u) s.mem.usedGran } }

/-- Drop a cellared page's image and free its granules (R258, R440). -/
def freeImage (s : State) (page : Nat) : State :=
  match Assoc.get s.mem.cellared page with
  | none => s
  | some im =>
    let s := markGrans s (im.desc :: im.grans) false
    { s with mem := { s.mem with cellared := Assoc.del s.mem.cellared page } }

/-! ## Cached copies (R179, R211, R212, R214) -/

def lineKey (q gl : Nat) : Nat := 2 ^ 50 * q + gl
def absentLine (_ : Nat) : AgentLine := AgentLine.absent
def getLine (s : State) (q gl : Nat) : AgentLine := Table.get absentLine s.lines (lineKey q gl)
def setLine (s : State) (q gl : Nat) (l : AgentLine) : State :=
  { s with lines := Table.set absentLine s.lines (lineKey q gl) (if l.st = .i then AgentLine.absent else l) }

/-- A reservation covers a line (R211): it is held as its first byte and its size. -/
def rsvCovers (r : Option (Nat × Nat)) (gl : Nat) : Bool :=
  match r with
  | none => false
  | some (b, n) => decide (b < gl * 128 + 128 ∧ gl * 128 < b + n)

def noEntry (_ : Nat) : NearEntry := ⟨false, 0, false, false⟩

/-- A core without any copy of the line: its near cache, L1I and L2, and any reservation that covers it, of an
open bundle's LDRSV too (R179, R212). -/
def dropCopies (gl : Nat) (c : Core) : Core :=
  { c with
    near := { c.near with
      entries := Table.mapListed noEntry
        (fun _ e => if e.valid ∧ e.line = gl then noEntry 0 else e) c.near.entries }
    l1i := c.l1i.filter (· != gl)
    l2 := c.l2.filter (· != gl)
    rsv := if rsvCovers c.rsv gl then none else c.rsv
    bundle := c.bundle.map (fun b => if rsvCovers (b.rsv.map (fun g => (g.1, g.2.1))) gl then { b with rsv := none } else b) }

def noLines (_ : Nat) : List Nat := []

/-- What an L3 slice holds (R178). -/
def getSlice (s : State) (k : Nat) : List Nat := Table.get noLines s.l3 k

/-- Every core of a quadrant but `keep` without copies of a line, and every slice but that of its cluster (R179). -/
def dropQuadCopies (s : State) (q gl : Nat) (keep : Option Nat) : State :=
  let drop := fun (n : Nat) (c : Core) => if coreQuad n = q ∧ some n ≠ keep then dropCopies gl c else c
  let slice := fun (k : Nat) (ls : List Nat) =>
    if k / 4 = q ∧ some k ≠ keep.map coreCluster then ls.filter (· != gl) else ls
  { s with cores := Table.mapListed Core.reset drop s.cores, l3 := Table.mapListed noLines slice s.l3 }

/-- The near-cache entries of a line that has been written back are clean (R199). -/
def cleanNear (gl : Nat) (nr : Near) : Near :=
  let clean := fun (_ : Nat) (e : NearEntry) => if e.valid ∧ e.line = gl then { e with dirty := false } else e
  { nr with entries := Table.mapListed noEntry clean nr.entries }

/-- Those of every core of a quadrant. -/
def cleanNears (s : State) (q gl : Nat) : State :=
  let cores := Table.mapListed Core.reset
    (fun n c => if coreQuad n = q then { c with near := cleanNear gl c.near } else c) s.cores
  { s with cores := cores }

/-- The line leaves a quadrant altogether. -/
def dropLine (s : State) (q gl : Nat) : State := dropQuadCopies (setLine s q gl AgentLine.absent) q gl none

/-! ## Flits -/

/-- The class of a message (R217, R270): 0 request, 1 snoop, 2 response, 3 channel I/O, 4 management. -/
def flitCls : FlitOp → Nat
  | .rdShared | .rdOwn | .upgrade | .rdOnce | .wrLine | .wrPart | .cleanLine | .invLine | .cleanInvLine
  | .resendReq => 0
  | .snpFwdS | .snpFwdO | .snpInv | .snpClean | .snpBack | .snpDrop => 1
  | .data | .fwdData | .snpResp | .wrBack | .evictClean | .wbAck | .cmp | .cmpAck | .retry | .resend | .err
  | .treeNack => 2
  | .jmw | .jmack | .jrel | .jrelack | .jdrop | .jhand | .adwr | .adrd | .addata | .aderr | .adst => 3
  | .hello | .origin | .delay | .sync | .heartbeat | .prepare | .ack | .nack | .abort | .linkdown | .lost | .sweep
  | .takeover | .takeoverAck | .mbx | .report | .join => 4

/-- The endpoint that sends a message unless its sender says otherwise: the home agent for the coherence classes, the
channel subsystem for channel I/O and management (R268). -/
def srcTeid (op : FlitOp) : Nat := if flitCls op ≤ 2 then 0x120 else 0x121

/-- The endpoint of a quadrant, that of its first L3 slice, and the home agent's as quadrant 4 (R268; log entry 188). -/
def quadTeid (q : Nat) : Nat := 0x110 + 4 * q

/-- The quadrant mask that names one quadrant; none for the hub (R217, R270). -/
def quadBit (q : Nat) : Nat := 2 ^ q % 16

/-- A flit that an agent of this module injects: its parity is bit 0 of the active vintage (R286). -/
def mkFlit (s : State) (op : FlitOp) (dst teid zone : Nat) (stamp : Word) (words : List Word) : Flit :=
  ⟨op, dst, s.devId, teid, zone, stamp, s.vin.vintage % 2 == 1, false, false, 0, 0, false, false, 0, false, false, 0,
   false, false, 0, 0, none, words, none, srcTeid op, none⟩

def sendFlit (s : State) (f : Flit) : State := { s with tree := { s.tree with net := s.tree.net ++ [f] } }

def send (s : State) (op : FlitOp) (dst teid zone : Nat) (stamp : Word) (words : List Word) : State :=
  sendFlit s (mkFlit s op dst teid zone stamp words)

/-- The operation of a request's flit (R217). -/
def reqOp : ReqKind → FlitOp
  | .rdShared => .rdShared
  | .rdOwn => .rdOwn
  | .upgrade => .upgrade
  | .rdOnce => .rdOnce
  | .wrLine _ => .wrLine
  | .wrPart _ _ => .wrPart
  | .cleanLine => .cleanLine
  | .invLine => .invLine
  | .cleanInvLine => .cleanInvLine

/-- The flit of a request: a core's carries the core's endpoint, an engine's that of its agent (R268, R271). -/
def reqFlit (s : State) (k : ReqKind) (r : CohReq) (core : Nat) : Flit :=
  let f := mkFlit s (reqOp k) (addrDev r.addr) 0x120 r.zone r.stamp [r.addr, Word.flag r.world 63]
  let f := { f with
    starve := r.starve, qmask := quadBit r.agent.quad, steid := if core < 272 then core else quadTeid r.agent.quad }
  match k with
  | .wrLine d => { f with more := 1, line := some d }
  | .wrPart m d =>
    let ws := f.words ++ [BitVec.ofNat 64 m.toNat, BitVec.ofNat 64 (m.toNat / 2 ^ 64)]
    { f with more := 1, line := some d, words := ws }
  | _ => f

def findReq (s : State) (stamp : Word) : Option AgentReq := s.reqs.find? (fun r => r.req.stamp == stamp)

/-- A snoop to one agent: a remote one by device and quadrant mask, a local one by its quadrant's endpoint. -/
def sendSnoop (s : State) (op : FlitOp) (a : Agent) (nf : Bool) (zone : Nat) (stamp addr : Word) : State :=
  sendFlit s { mkFlit s op a.dev (0x110 + 4 * a.quad) zone stamp [addr] with nf := nf, qmask := 2 ^ a.quad }

/-! ## Holders known to the home (R219, R220) -/

def quads : List Nat := [0, 1, 2, 3]

/-- The devices of a coarse group that the active inventory names and that are not lost (R221). -/
def groupDevs (s : State) (g : Nat) : List Nat :=
  s.vin.inventory.filter (fun d => d / 256 == g && !(s.home.lost.contains d) && d != s.devId)

/-- Every agent outside the home quadrant that the directory records for a line, with lost devices left out (R226). -/
def recordedHolders (s : State) (lineIdx : Nat) : List Agent :=
  match Assoc.get s.home.dir lineIdx with
  | none => []
  | some e =>
    let pts : List Agent := match e.coarse with
      | none => e.sharers
      | some gs => e.sharers.filter (fun a => a.dev == s.devId) ++
          gs.flatMap (fun g => (groupDevs s g).flatMap (fun d => quads.map (fun q => Agent.mk d q)))
    let own : List Agent := if e.dstate = 2 ∨ e.dstate = 3 then [e.owner] else []
    (own ++ pts.filter (fun (a : Agent) => !(own.contains a))).filter (fun (a : Agent) => !(s.home.lost.contains a.dev))

/-- What the probe of the home quadrant shows: its copy, or one that its write-back buffer still holds (R215, R225). -/
def homeProbe (s : State) (hq gl : Nat) : Moesi :=
  match (getLine s hq gl).st with
  | .i =>
    match s.wbs.find? (fun w => w.quad == hq && w.line == gl) with
    | some w => w.st
    | none => .i
  | st => st

/-- Every agent that may hold a line homed here: the recorded ones, and the home quadrant where the probe hits. -/
def lineHolders (s : State) (off : Nat) : List Agent :=
  let hq := homeQuad off
  let gl := globalLine (mkAddr s.devId off)
  let home := if homeProbe s hq gl = .i then [] else [Agent.mk s.devId hq]
  home ++ (recordedHolders s (off / 128)).filter (fun a => a != Agent.mk s.devId hq)

def setDir (s : State) (lineIdx : Nat) (e : DirEntry) : State :=
  { s with home := { s.home with dir := if e.dstate = 0 then Assoc.del s.home.dir lineIdx
                                        else Assoc.put s.home.dir lineIdx e } }

/-- A line is busy: a transaction runs on it, or a request for it waits for a back-invalidation (R222, R223). -/
def busy (s : State) (li : Nat) : Bool :=
  s.home.txns.any (fun t => t.line == li ||
    (match t.goal with | .backInv _ r => addrOff r.addr / 128 == li | _ => false))

/-! ## Engine accesses -/

/-- An agent outside this module is recorded for a line: as owner, or, for `any`, in any way. -/
def heldAway (s : State) (li : Nat) (any : Bool) : Bool :=
  match Assoc.get s.home.dir li with
  | none => false
  | some e => (e.dstate != 1 && e.owner.dev != s.devId) ||
      (any && (e.coarse.isSome || e.sharers.any (fun a => a.dev != s.devId)))

/-- The channel of a frame line is being retrained (R244). -/
def retraining (s : State) (fl : Nat) : Bool := (getChan s (chanOf (fl * 128))).state == 1

/-- An engine's access to a line of this module's memory may be one action: no transaction runs on the line, no credit is
recorded against it, no loss stalls new requests, its channel is not being retrained, no write-back of it is under way, no
core defers its snoops, and what must be called in lies in this module (R203, R213, R215, R223, R225, R226, R244). -/
def lineQuiet (s : State) (off : Nat) (write : Bool) : Bool :=
  let li := off / 128
  let gl := globalLine (mkAddr s.devId off)
  !(busy s li) && !(s.home.credits.any (fun c => c.2.line == li)) && s.home.lostQueue.isEmpty &&
    !(retraining s ((getPage s (off / 4096)).loc * 32 + li % 32)) && !(s.wbs.any (fun w => w.line == gl)) && !(heldAway s li write) &&
    !(s.cores.any (fun c => match c.2.defer with | some d => d.line == gl | none => false))

/-- Take every copy of a line out of the caches for an engine's write; dirty data goes to memory where `keep`. A remote
owner's data is open (log entry 183). -/
def takeLine (s : State) (off fl : Nat) (keep : Bool) : State :=
  let gl := globalLine (mkAddr s.devId off)
  let addr := mkAddr s.devId (off / 128 * 128)
  let s := (lineHolders s off).foldl (fun (s : State) (a : Agent) =>
    if a.dev = s.devId then
      let l := getLine s a.quad gl
      let s := if keep ∧ (l.st = .m ∨ l.st = .o) then writeZoneLine s fl l.zone l.poison l.data else s
      dropLine s a.quad gl
    else
      let owner : Bool := match Assoc.get s.home.dir (off / 128) with
        | some e => decide (e.dstate ≠ 1 ∧ e.owner = a)
        | none => false
      let s := if keep && owner then
          nextFree (writeFrame s fl (Table.get zeroOf s.mem.keys fl) (Config.freeLine s.fresh)) else s
      let (st, s) := issueStamp s 0x60
      sendSnoop s (if keep then .snpBack else .snpDrop) a true 0 st addr) s
  setDir s (off / 128) DirEntry.free

/-- Make memory current for an engine's read: a dirty holder writes back and keeps a clean copy (RdOnce of R221). -/
def cleanLineAt (s : State) (off fl : Nat) : State :=
  let gl := globalLine (mkAddr s.devId off)
  (lineHolders s off).foldl (fun (s : State) (a : Agent) =>
    let l := getLine s a.quad gl
    if a.dev = s.devId ∧ (l.st = .m ∨ l.st = .o) then
      setLine (cleanNears (writeZoneLine s fl l.zone l.poison l.data) a.quad gl) a.quad gl
        { l with st := if l.st = .m then .e else .s }
    else s) s

/-- The stamp of a message that an engine's access needs: the access's own, or the next of the same source where the access
has none (Relrax's then) or has used it for another line (R44, R45; log entry 184). -/
def messageStamp (s : State) (stamp : Word) : Word × State :=
  if stamp ≠ 0 ∧ (findReq s stamp).isNone then (stamp, s)
  else if stamp = 0 then issueStamp s 0x60
  else if stampUnit stamp ≤ 0x10 then issueCoreStamp s (17 * stamp.field 39 36 + stampUnit stamp)
  else issueStamp s (stampUnit stamp)

/-- An agent of this module sends a request to a home and keeps it until its answer: the engines, at the hub, as
quadrant 4, for core 272, which is none; or a core's quadrant (R217, R268). Answers its stamp. -/
def postReq (s : State) (quad core : Nat) (k : ReqKind) (addr : Word) (zone : Nat) (world forStore : Bool)
    (stamp : Word) : Word × State :=
  let (st, s) := messageStamp s stamp
  let r : CohReq := ⟨⟨s.devId, quad⟩, st, BitVec.ofNat 64 (addr.toNat / 128 * 128), zone, world, false, false, false⟩
  let s := { s with reqs := s.reqs ++ [⟨quad, core, k, r, forStore, 0, none, now s, false, none⟩] }
  (st, sendFlit s (reqFlit s k r core))

/-- Write a page's 32 lines under a zone's key. -/
def writePage (s : State) (frame zone : Nat) (page : List Byte) : State :=
  (List.range 32).foldl (fun s j =>
    writeFrame s (frame * 32 + j) (keyTag s zone) (lineOf ((page.drop (128 * j)).take 128))) s

/-- The frame lines that hold a cellared page: its descriptor's, then its granules' (R253, R254). -/
def imageLines (s : State) (im : CellImage) : List Nat :=
  (im.desc :: im.grans).filterMap (fun g => (granOffset s.mem g).map (· / 128))

/-- What expanding a cellared page gives: the page where no line of the image is poisoned, it was written under the zone's
present key and meets its CRC (R258, R259). -/
def expandImage (s : State) (im : CellImage) : Option (List Byte) :=
  if im.bad ∨ im.key ≠ keyTag s im.zone ∨ (imageLines s im).any (framePoison s) then none
  else if im.len = 0 then some (List.replicate 4096 0)
  else match lzExpandPage im.bytes with
    | none => none
    | some p => if crc32c p = im.crc then some p else none

/-- Steps 3 to 5 of a decant into a frame: the page's content, or the poison marker in every line, the mapping, and
the granules freed. Answers whether it failed (R258, R259). -/
def decantInto (s : State) (page frame : Nat) : Bool × State :=
  let e := getPage s page
  let done := fun (s : State) => setPage (freeImage s page) page ⟨0, e.zone, e.pin, false, frame⟩
  match (Assoc.get s.mem.cellared page).bind (expandImage s) with
  | some p =>
    let s := done (writePage s frame e.zone p)
    (false, { s with mem := { s.mem with decantCnt := satAdd 32 s.mem.decantCnt 1 } })
  | none =>
    let s := done ((frameLines frame).foldl poisonFrame s)
    (true, { s with mem := { s.mem with decFail := satAdd 16 s.mem.decFail 1 } })

/-- Cancel the cellaring of a page in transit: TOUCHED, with the same frame (R257). A job that waits leaves the queue; the
command's row reads phases 8 and 9 as that result. -/
def touchPage (s : State) (page : Nat) : State :=
  let e := getPage s page
  let s := setPage s page { e with st := 0, dir := false }
  let touch := fun (c : Cellaring) =>
    if c.page = page ∧ c.phase = 1 then { c with phase := 8 }
    else if c.page = page ∧ c.phase = 2 then { c with phase := 9 } else c
  { s with
    mem := { s.mem with cellarings := s.mem.cellarings.map touch }
    cmp := { s.cmp with queue := s.cmp.queue.filter (· != .cellaring page) } }

/-- The frame line of an engine's access. A page in the cellar is decanted first, as one action charged to the zone's
decant budget; an empty list refuses with reason 4 (R258 to R260; log entry 182). -/
def engineLine (rep : Reporter) (s : State) (off zone : Nat) (world : Bool) (stamp : Word) : Except Nat Nat × State :=
  match homeCheck s off zone world with
  | .line fl => (.ok fl, s)
  | .refused r key => (.error r, if key then rep.fault (keyRefusal stamp (mkAddr s.devId off) zone) s else s)
  | .transit false =>
    let s := touchPage s (off / 4096)
    (.ok ((getPage s (off / 4096)).loc * 32 + off / 128 % 32), s)
  | _ =>
    let p := off / 4096
    let finish := fun (s : State) (f : Nat) =>
      let r := decantInto s p f
      let s := if r.1 then rep.fault (mkReport 0x07 2 0 stamp 0 (BitVec.ofNat 64 p) zone) r.2 else r.2
      let done := fun (d : Decant) => if d.page = p then { d with phase := 3 } else d
      (Except.ok (f * 32 + off / 128 % 32), { s with mem := { s.mem with decants := s.mem.decants.map done } })
    match s.mem.decants.find? (fun d => d.page == p && (d.phase == 1 || d.phase == 2)) with
    | some d => finish s d.frame
    | none =>
      let s := updZone s zone (fun z => { z with spent := z.spent + 1 })
      match popFrame s zone with
      | none =>
        let s := { s with mem := { s.mem with exhausted := satAdd 16 s.mem.exhausted 1 } }
        (.error 4, rep.fault (mkReport 0x07 0 4 stamp 0 (BitVec.ofNat 64 p) zone) s)
      | some (f, due, s) => finish (if due then rep.low zone s else s) f

/-- The answer that a remote home gives to an engine's access: an open outcome and open bytes. -/
def remoteAnswer (s : State) (n : Nat) : EngRes :=
  match Config.freeNat s.fresh with
  | 0 => .ok ((List.range n).map (fun j => Config.freeByte (s.fresh * 4096 + j)))
  | 1 => .poisoned
  | k + 2 => .err (k % 6 + 1)

/-- Whether an address names a module that is known not to answer: 5 lost, 3 none holds the device (R227, R309). -/
def deviceGone (s : State) (dev : Nat) : Option Nat :=
  if Table.get noFlag s.fab.lostMap dev then some 5
  else if s.vin.agreed ∧ ¬ s.vin.inventory.contains dev then some 3
  else none

/-- A read that goes by message: the request, and an open answer. -/
def askHome (s : State) (addr : Word) (n zone : Nat) (world : Bool) (stamp : Word) : EngRes × State :=
  (remoteAnswer s n, nextFree (postReq s 4 272 .rdOnce addr zone world false stamp).2)

/-- Read bytes of one line outside the caches: at once where the line is this module's and quiet, or where no home answers;
none where the read must go by message (R203, R221). -/
def readNow (rep : Reporter) (s : State) (addr : Word) (n zone : Nat) (world : Bool) (stamp : Word) :
    Option EngRes × State :=
  if addr.field 63 57 ≠ 0 then (some (.err 3), s)
  else if addrDev addr = s.devId then
    let off := addrOff addr
    match engineLine rep s off zone world stamp with
    | (.error r, s) => (some (.err r), s)
    | (.ok fl, s) =>
      if lineQuiet s off false = false then (none, s)
      else
        let s := cleanLineAt s off fl
        if framePoison s fl then (some .poisoned, s)
        else (some (.ok ((lineBytes (readFrame s fl (keyTag s zone))).drop (off % 128) |>.take n)), s)
  else ((deviceGone s (addrDev addr)).map .err, s)

/-- Read bytes of one line for an engine of this module; the answer to a message is open (R203, R221). -/
def readOne (rep : Reporter) (s : State) (addr : Word) (n zone : Nat) (world : Bool) (stamp : Word) :
    EngRes × State :=
  match readNow rep s addr n zone world stamp with
  | (some r, s) => (r, s)
  | (none, s) => askHome s addr n zone world stamp

/-- The bytes `n` from position `o` on, as the mask of WrPart (R271). -/
def maskAt (o n : Nat) : BitVec 128 := BitVec.ofNat 128 ((2 ^ n - 1) * 2 ^ o)

/-- The request that writes the bytes of a line which a mask selects: WrLine for all of them (R217). -/
def writeKind (mask : BitVec 128) (l : Line) : ReqKind :=
  if mask = BitVec.allOnes 128 then .wrLine l else .wrPart mask l

/-- Write bytes of one line for an engine of this module: at once where the line is quiet, else by message (R203, R221).
How a write to another module ends is open. -/
def writeOne (rep : Reporter) (s : State) (addr : Word) (bs : List Byte) (zone : Nat) (world : Bool) (stamp : Word) :
    EngRes × State :=
  let mask := maskAt (addr.toNat % 128) bs.length
  let l := lineOf (List.replicate (addr.toNat % 128) 0 ++ bs)
  let post := fun (s : State) => (postReq s 4 272 (writeKind mask l) addr zone world false stamp).2
  if addr.field 63 57 ≠ 0 then (.err 3, s)
  else if addrDev addr = s.devId then
    let off := addrOff addr
    match engineLine rep s off zone world stamp with
    | (.error r, s) => (.err r, s)
    | (.ok fl, s) =>
      if lineQuiet s off true = false then (.ok [], post s)
      else
        let whole := decide (bs.length = 128)
        let s := takeLine s off fl (!whole)
        let old := lineBytes (readFrame s fl (keyTag s zone))
        let new := old.take (off % 128) ++ bs ++ old.drop (off % 128 + bs.length)
        if framePoison s fl ∧ ¬ whole then (.ok [], s)
        else (.ok [], writeFrame s fl (keyTag s zone) (lineOf new))
  else
    match deviceGone s (addrDev addr) with
    | some r => (.err r, s)
    | none =>
      (match Config.freeNat s.fresh with | 0 => EngRes.ok [] | k + 1 => .err (k % 6 + 1), nextFree (post s))

/-- The bytes of a line that a mask selects are written by core `n`'s quadrant, as WrPart does: at once where the line is
this module's and quiet, else by message, whose stamp the core keeps until the target answers; `strict` says that a
strict-device store writes (R205, R208, R209, R221). -/
def writeMask (rep : Reporter) (s : State) (n : Nat) (strict : Bool) (addr : Word) (mask : BitVec 128) (l : Line) (zone : Nat)
    (world : Bool) (stamp : Word) : EngRes × State :=
  let post := fun (s : State) =>
    let (st, s) := postReq s (coreQuad n) n (writeKind mask l) addr zone world true stamp
    updCore s n (fun c => if strict then { c with devOut := c.devOut ++ [st] } else { c with wcOut := c.wcOut ++ [st] })
  if addr.field 63 57 ≠ 0 then (.err 3, s)
  else if addrDev addr = s.devId then
    let off := addrOff addr
    match engineLine rep s off zone world stamp with
    | (.error r, s) => (.err r, s)
    | (.ok fl, s) =>
      if lineQuiet s off true = false then (.ok [], post s)
      else
        let s := takeLine s off fl true
        let old := lineBytes (readFrame s fl (keyTag s zone))
        let pick := fun j => if mask.getLsbD j then (lineBytes l).getD j 0 else old.getD j 0
        if framePoison s fl ∧ mask ≠ BitVec.allOnes 128 then (.ok [], s)
        else (.ok [], writeFrame s fl (keyTag s zone) (lineOf ((List.range 128).map pick)))
  else
    match deviceGone s (addrDev addr) with
    | some r => (.err r, s)
    | none => (.ok [], post s)

/-- Read bytes for an engine, line by line; the first failure ends it. `fuel` bounds the lines. -/
def engRead (rep : Reporter) : Nat → State → Word → Nat → Nat → Bool → Word → EngRes × State
  | 0, s, _, _, _, _, _ => (.ok [], s)
  | fuel + 1, s, addr, n, zone, world, stamp =>
    if n = 0 then (.ok [], s)
    else
      let k := min n (128 - addr.toNat % 128)
      match readOne rep s addr k zone world stamp with
      | (.ok bs, s) =>
        match engRead rep fuel s (addr + BitVec.ofNat 64 k) (n - k) zone world stamp with
        | (.ok t, s) => (.ok (bs ++ t), s)
        | r => r
      | r => r

/-- Write bytes for an engine, line by line; the first failure ends it. -/
def engWrite (rep : Reporter) : Nat → State → Word → List Byte → Nat → Bool → Word → EngRes × State
  | 0, s, _, _, _, _, _ => (.ok [], s)
  | fuel + 1, s, addr, bs, zone, world, stamp =>
    if bs.length = 0 then (.ok [], s)
    else
      let k := min bs.length (128 - addr.toNat % 128)
      match writeOne rep s addr (bs.take k) zone world stamp with
      | (.ok _, s) => engWrite rep fuel s (addr + BitVec.ofNat 64 k) (bs.drop k) zone world stamp
      | r => r

/-- Read words for an engine: the words, or the reason; 0 for poisoned data. -/
def engWords (rep : Reporter) (s : State) (addr : Word) (n zone : Nat) (world : Bool) :
    Except Nat (List Word) × State :=
  match engRead rep (n + 2) s addr (8 * n) zone world 0 with
  | (.ok bs, s) => (.ok (bytesWords n bs), s)
  | (.poisoned, s) => (.error 0, s)
  | (.err r, s) => (.error r, s)

/-- Write words for an engine; the reason where the home refuses. -/
def engPutWords (rep : Reporter) (s : State) (addr : Word) (ws : List Word) (zone : Nat) (stamp : Word) :
    Option Nat × State :=
  match engWrite rep (ws.length + 2) s addr (wordsBytes ws) zone false stamp with
  | (.ok _, s) => (none, s)
  | (.poisoned, s) => (some 0, s)
  | (.err r, s) => (some r, s)

end Sys2Proof.Machine
end

