-- ==== Sys2Proof/Machine/Post.lean ====
section
/-! DEFINITION. Interrupt entries: the zone table, stamp windows, vector maps, rings, doorbells (R435 to R448), and the
request of a zone reset (R454). -/

namespace Sys2Proof.Machine

/-- The address of a zone's table entry (R435). -/
def zoneEntryAddr (s : State) (z : Nat) : Word :=
  BitVec.ofNat 64 (2 ^ 20 * (s.vin.cfg.zonTb.toNat / 2 ^ 20)) + BitVec.ofNat 64 (256 * z)

/-- A zone's table entry: the cached copy, or a copy read with zone 0 and kept (R335, R435). -/
def zoneEntry (rep : Reporter) (s : State) (z : Nat) : Option (List Word) × State :=
  match (getZone s z).entry with
  | some e => (some e, s)
  | none =>
    match engWords rep s (zoneEntryAddr s z) 32 0 false with
    | (.ok ws, s) => (some ws, updZone s z (fun x => { x with entry := some ws }))
    | (.error _, s) => (none, s)

def wordAt (ws : List Word) (i : Nat) : Word := ws.getD i 0

/-- Err for a request, with the reason of R80. -/
def answerErr (s : State) (f : Flit) (reason : Nat) : State :=
  sendFlit s { mkFlit s .err f.src f.steid f.zone f.stamp [wordAt f.words 0, BitVec.ofNat 64 reason] with qmask := f.qmask }

def entryEvt (ws : List Word) : Nat := (wordAt ws 0).field 47 36
def entryNvc (ws : List Word) : Nat := (wordAt ws 0).field 35 24
def entryGran1K (ws : List Word) : Bool := (wordAt ws 0).bit 61

/-- The first word of the active QoS block: block gen mod 2 (R437). -/
def entryQos (s : State) (ws : List Word) : Word := wordAt ws (8 + 2 * (s.vin.cfg.zonCtl.field 63 32 % 2))

def noWin (_ : Nat) : StampWin := ⟨none, [], none⟩

/-- What the stamp check of R447 finds. -/
inductive StampCheck where
  | fresh | dup | below | floored
  deriving DecidableEq, Repr

def checkStamp (w : StampWin) (width c : Nat) : StampCheck :=
  if w.marks.contains c then .dup
  else if (match w.high with
      | some h => counterLater width h c && decide (4096 < (h + 2 ^ width - c) % 2 ^ width)
      | none => false) then .below
  else if (match w.floor with | some f => !(counterLater width c f) | none => false) then .floored
  else .fresh

/-- Mark a stamp in its window of 4,096 values below the highest (R447). -/
def markStamp (w : StampWin) (width c : Nat) : StampWin :=
  let h := match w.high with | some h => if counterLater width c h then c else h | none => c
  { w with high := some h, marks := (c :: w.marks).filter (fun m => decide ((h + 2 ^ width - m) % 2 ^ width ≤ 4096)) }

/-- A doorbell to a vcore: one pending doorbell, on its way, held for dispatch or for resumption; lost where no core
can take it (R448). The row DOORBELL delivers it to a running core. -/
def ringDoorbell (s : State) (zone vcid : Nat) : State :=
  let v := getVcore s zone vcid
  if v.state = 0 ∨ v.state = 4 then { s with zon := { s.zon with lostDb := satAdd 16 s.zon.lostDb 1 } }
  else updVcore s zone vcid (fun v => { v with db := true })

/-- A class C0 record from source 0x0F with the vcid (R446). -/
def postFault (e : RingEntry) : Report := mkReport 0x0F 0 0 e.stamp 0 (BitVec.ofNat 64 e.vcid) e.zone

/-- An entry that cannot be posted: counted, recorded, and its doorbell rung where the vcore is bound (R446). -/
def unposted (rep : Reporter) (s : State) (e : RingEntry) : State :=
  let s := { s with zon := { s.zon with unposted := satAdd 16 s.zon.unposted 1 } }
  let s := rep.fault (postFault e) s
  if (getVcore s e.zone e.vcid).state = 0 then s else ringDoorbell s e.zone e.vcid

/-- The zone controller's copy of a vcore table entry: ring base word, tail and overflow count; and the entry's
address (R442). -/
def vcoreEntry (rep : Reporter) (s : State) (ze : List Word) (zone vcid : Nat) :
    Option (List Word) × Word × State :=
  let a := BitVec.ofNat 64 ((wordAt ze 1).toNat / 128 * 128) + BitVec.ofNat 64 (128 * vcid)
  match Assoc.get s.chs.vcCache (vcoreKey zone vcid) with
  | some ws => (some ws, a, s)
  | none =>
    match engWords rep s a 3 zone false with
    | (.ok ws, s) =>
      (some ws, a, { s with chs := { s.chs with vcCache := Assoc.put s.chs.vcCache (vcoreKey zone vcid) ws } })
    | (.error _, s) => (none, a, s)

/-- Words 0 to 3 of a ring entry (R443). -/
def RingEntry.words (e : RingEntry) (idx mer : Nat) : List Word :=
  [e.stamp, BitVec.ofNat 64 (e.kind * 2 ^ 56 + e.vector % 2048 * 2 ^ 32 + idx % 2 ^ 32), e.detail, BitVec.ofNat 64 mer]

/-- The ring stage of posting (R444, R446): the entry, then the tail, then the doorbell; held while the ring is full,
and behind an entry already held for the same vcore; discarded with an overflow count beyond 64. -/
def postRing (rep : Reporter) (s : State) (e : RingEntry) (retry : Bool) : State :=
  match zoneEntry rep s e.zone with
  | (none, s) => unposted rep s e
  | (some ze, s) =>
    match vcoreEntry rep s ze e.zone e.vcid with
    | (none, _, s) => unposted rep s e
    | (some ve, a, s) =>
      let m := (wordAt ve 0).field 4 0
      if m < 4 ∨ 16 < m then unposted rep s e
      else
        match engWords rep s (a + 0x40) 1 e.zone false with
        | (.error _, s) => unposted rep s e
        | (.ok hw, s) =>
          let tail := (wordAt ve 1).field 31 0
          let head := (wordAt hw 0).field 31 0
          let used := (tail + 2 ^ 32 - head) % 2 ^ 32
          let blocked := !retry && (getZone s e.zone).held.any (fun h => h.vcid == e.vcid)
          if 2 ^ m ≤ used ∨ blocked then
            if (getZone s e.zone).held.length < 64 then
              updZone s e.zone (fun z => { z with held := z.held ++ [e] })
            else
              let ov := (wordAt ve 2).field 31 0 + 1
              let s := (engPutWords rep s (a + 0x10) [BitVec.ofNat 64 (ov % 2 ^ 32)] e.zone e.stamp).2
              let ve := [wordAt ve 0, wordAt ve 1, BitVec.ofNat 64 (ov % 2 ^ 32)]
              let s := { s with
                chs := { s.chs with vcCache := Assoc.put s.chs.vcCache (vcoreKey e.zone e.vcid) ve }
                zon := { s.zon with overflow := satAdd 16 s.zon.overflow 1 } }
              rep.fault (postFault e) s
          else
            let ring := BitVec.ofNat 64 ((wordAt ve 0).toNat / 2 ^ (m + 5) * 2 ^ (m + 5))
            let slot := ring + BitVec.ofNat 64 (32 * (tail % 2 ^ m))
            match engPutWords rep s slot (e.words tail (now s)) e.zone e.stamp with
            | (some _, s) => unposted rep s e
            | (none, s) =>
              let t := BitVec.ofNat 64 ((tail + 1) % 2 ^ 32)
              let s := (engPutWords rep s (a + 8) [t] e.zone e.stamp).2
              let ve := [wordAt ve 0, t, wordAt ve 2]
              let s := { s with chs := { s.chs with vcCache := Assoc.put s.chs.vcCache (vcoreKey e.zone e.vcid) ve } }
              ringDoorbell s e.zone e.vcid

/-- Whether an entry's vector is enabled: kinds 4, 5, 6 and 8 name none (R443, R445). Nothing where the map cannot be
read. -/
def vectorEnabled (rep : Reporter) (s : State) (e : RingEntry) : Option Bool × State :=
  if e.kind = 1 ∨ e.kind = 2 ∨ e.kind = 3 ∨ e.kind = 7 then
    match zoneEntry rep s e.zone with
    | (none, s) => (none, s)
    | (some ze, s) =>
      let a := BitVec.ofNat 64 ((wordAt ze 2).toNat / 256 * 256) + BitVec.ofNat 64 (e.vector / 64 * 8)
      match engWords rep s a 1 e.zone false with
      | (.ok ws, s) => (some ((wordAt ws 0).bit (e.vector % 64)), s)
      | (.error _, s) => (none, s)
  else (some true, s)

/-- Post one entry: the stamp check and its mark, the vector enable map, the ring (R444 to R447). -/
def postEntry (rep : Reporter) (s : State) (e : RingEntry) : State :=
  let u := stampUnit e.stamp
  let width := stampWidth e.stamp
  let c := stampCounter e.stamp
  let w := Table.get noWin (getZone s e.zone).wins u
  match checkStamp w width c with
  | .dup => { s with zon := { s.zon with dup := satAdd 16 s.zon.dup 1 } }
  | .below => rep.fault (postFault e) { s with zon := { s.zon with stale := satAdd 16 s.zon.stale 1 } }
  | .floored => { s with zon := { s.zon with stale := satAdd 16 s.zon.stale 1 } }
  | .fresh =>
    let s := updZone s e.zone (fun z => { z with wins := Table.set noWin z.wins u (markStamp w width c) })
    match vectorEnabled rep s e with
    | (none, s) => unposted rep s e
    | (some false, s) => { s with zon := { s.zon with disabled := satAdd 16 s.zon.disabled 1 } }
    | (some true, s) => postRing rep s e false

/-- Post a zone event (kinds 4, 5, 6, 8) to a zone's event vcore (R436, R443). -/
def postEvent (rep : Reporter) (s : State) (zone kind : Nat) (stamp detail : Word) : State :=
  match zoneEntry rep s zone with
  | (none, s) => unposted rep s ⟨zone, 0, kind, 0, stamp, detail⟩
  | (some ze, s) => postEntry rep s ⟨zone, entryEvt ze, kind, 0, stamp, detail⟩

/-- The cellar-low notice of a zone's list: one stamp of the zone controller, one entry to the zone and one to zone 0
(R255). -/
def postLow (rep : Reporter) (z : Nat) (s : State) : State :=
  let (st, s) := issueStamp s 0x62
  let d := BitVec.ofNat 64 (z * 2 ^ 32 + s.devId % 65536)
  let s := postEvent rep s z 5 st d
  if z = 0 then s else postEvent rep s 0 5 st d

/-! ## Zone reset requests (R454, R456) -/

/-- The payload by which a coordinator orders a step of a zone's reset, over the master mailbox's transport: origin and
source kind 3, the reset stamp, and a command ZONE_RESET of the zone with the step; the model's layout (log entry 65). -/
def stepWords (s : State) (z step : Nat) (stamp : Word) : List Word :=
  [BitVec.ofNat 64 (s.devId * 2 ^ 48 + 3 * 2 ^ 46 + z * 2 ^ 32), stamp, BitVec.ofNat 64 (0x0205 * 2 ^ 48),
   BitVec.ofNat 64 z, BitVec.ofNat 64 step]

/-- Start, or join, a reset of a zone. Answers the reset stamp, or nothing where Relrax refuses: zone 0, a FREE zone or
a STOPPED one. `kind` is the requester's source kind of R535 and `rzone` its ring's zone. -/
def requestReset (s : State) (z : Nat) (waiter : Option Mbx) (kind rzone : Nat) : Option Word × State :=
  if z = 0 ∨ 4095 < z then (none, s)
  else
    let zn := getZone s z
    match zn.rst with
    | some r =>
      (some r.stamp, updZone s z (fun x => { x with rst := some { r with waiters := r.waiters ++ waiter.toList } }))
    | none =>
      if zn.state ≠ 1 then (none, s)
      else
        let (st, s) := issueStamp s 0x62
        let r : ZoneRst := ⟨st, 1, now s, now s, false, waiter.toList, kind, rzone⟩
        let s := updZone s z (fun x => { x with state := 2, rst := some r })
        (some st, (s.vin.inventory.filter (fun d => d != s.devId && !(Table.get noFlag s.fab.lostMap d))).foldl
          (fun s d => send s .mbx d 0x121 z st (stepWords s z 1 st)) s)

end Sys2Proof.Machine
end

