-- ==== Sys2Proof/Machine/Lost.lean ====
section
/-! DEFINITION. Stores that reach a quadrant's caches, state images, and the loss of a core (R164 to R168). -/

namespace Sys2Proof.Machine

/-- Bytes written into a line at an offset. -/
def lineSet (l : Line) (o : Nat) (bs : List Byte) : Line :=
  let old := lineBytes l
  lineOf (old.take o ++ bs ++ old.drop (o + bs.length))

/-- The bytes of a store buffer entry. -/
def BufEntry.bytes (e : BufEntry) : List Byte := leBytes e.size e.data.toNat

/-- Perform a store of a core on a line that its quadrant holds in M or E: the line becomes M and no other core of the
quadrant keeps a copy, nor any L1I (R179, R182, R218). -/
def storeOwned (s : State) (n : Nat) (addr : Word) (bs : List Byte) (bnd : Bool) : State :=
  let q := coreQuad n
  let gl := globalLine addr
  let l := getLine s q gl
  let s := dropQuadCopies s q gl (some n)
  let s := updCore s n (fun c => { c with l1i := c.l1i.filter (· != gl) })
  setLine s q gl { l with st := .m, data := lineSet l.data (addr.toNat % 128) bs, bonded := l.bonded || bnd }

/-- Whether a quadrant may write a line without a message (R216). -/
def ownsLine (s : State) (q gl : Nat) : Bool :=
  match (getLine s q gl).st with
  | .m | .e => true
  | _ => false

/-- Whether an access may use what its quadrant holds of a line (R464). -/
def usable (s : State) (q gl : Nat) (world : Bool) : Bool :=
  let l := getLine s q gl
  l.st != .i && (!l.bonded || world)

/-- Drain what can be drained of a store buffer without a message: from the oldest on, stores to normal memory whose
line the quadrant may write and they may use (R88, R167, R464). -/
def drainOwned (n : Nat) : List BufEntry → State → List BufEntry × State
  | [], s => ([], s)
  | e :: t, s =>
    let gl := globalLine e.addr
    if e.maint.isNone ∧ e.typ = 0 ∧ ownsLine s (coreQuad n) gl ∧ usable s (coreQuad n) gl e.world then
      drainOwned n t (storeOwned s n e.addr e.bytes e.bnd)
    else (e :: t, s)

/-- The store-buffer section of an image holds 32 stores: of more, the oldest are performed at their homes first; a CMAINT is
no store and has no entry (R89, R165, R167; log entries 44 and 208). -/
def imageStores (rep : Reporter) (es : List BufEntry) (s : State) : List BufEntry × State :=
  let es := es.filter (fun e => e.maint.isNone)
  let k := es.length - 32
  (es.drop k, (es.take k).foldl (fun s e =>
    match engWrite rep 2 s e.addr e.bytes e.zone e.world e.stamp with
    | (.err r, s) => rep.fault { mkReport 0x05 2 r 0 e.addr 0 e.zone with bonded := e.world } s
    | (_, s) => s) s)

/-- A core's caches after their dirty lines have been written down and all lines invalidated; the quadrant keeps the
data (R159 step 4). -/
def flushCore (c : Core) : Core :=
  { c with near := { c.near with entries := [], streams := [], fills := [], blocked := none, plru := 0 }, l1i := [], l2 := [] }

/-- The state image of a core (R164); a doorbell that the core has not taken is pending too (R167). -/
def mkImage (s : State) (n reason : Nat) (stamp : Word) (t0 : Nat) (buf : List BufEntry) (ok : Bool) : StateImage :=
  let c := getCore s n
  let zv := match vcoreOn s n with | some zv => zv | none => (c.regs.zone, (c.regs.getCtl 0x0A).field 11 0)
  ⟨zv.1, zv.2, stamp, t0, reason, (getVcore s zv.1 zv.2).db || c.irq, buf != [], c.regs.w, ok, c.regs, buf, c.rep⟩

def putImage (s : State) (n : Nat) (im : StateImage) : State :=
  { s with sxt := { s.sxt with images := Assoc.put s.sxt.images n im } }

/-- Words of RLF_STAT (R176): busy from the request of a relief, its T0, to its end (R159). -/
def rlfStat (s : State) : Word :=
  BitVec.ofNat 64 (s.sxt.rlfFrom * 2 ^ 32 + s.sxt.rlfTo * 2 ^ 16 + s.sxt.rlfReason * 2 ^ 8 + s.sxt.rlfResult * 4 +
    s.sxt.rlfDone.toNat * 2 + (if s.sxt.reliefs = [] ∧ s.sxt.requests = [] then 0 else 1))

/-- The T0 of a core's relief: that of the relief which runs, or of its request, or now (R159, R176). -/
def reliefT0 (s : State) (n : Nat) : Nat :=
  match s.sxt.reliefs.find? (fun r => r.2.core == n) with
  | some r => r.2.t0
  | none => if s.sxt.requests.any (fun r => r.1 == n) then Table.get zeroOf s.sxt.reqAt n else now s

/-- The spare of a cluster no longer runs in place of another core (R20, R177). -/
def spareGone (s : State) (n : Nat) : State :=
  if n % 17 = 16 then { s with spareInUse := s.spareInUse ^^^ (s.spareInUse &&& 2 ^ (n / 17)) } else s

/-- A core is lost (R167): it stops, its buffer drains as far as it can, its caches are flushed, its image is kept with
the valid flag telling whether the checkpoint was readable, its vcore is LOST with its doorbells held, and a class C3 fault
and a core-lost entry carry the zone. A relief that fails keeps the image of its step 3 (R162). -/
def loseCore (rep : Reporter) (s : State) (n reason : Nat) (ok : Bool) : State :=
  let st := mkStamp s 0x61 (counterOf s 0x61)
  let c := getCore s n
  let t0 := reliefT0 s n
  let (left, s) := drainOwned n c.buf s
  let (left, s) := imageStores rep left s
  let relieved := s.sxt.reliefs.any (fun r => r.2.core == n)
  let im := match Assoc.get s.sxt.images n with
    | some im => if relieved && ok then { im with stamp := if im.stamp = 0 then st else im.stamp } else mkImage s n reason st t0 left ok
    | none => mkImage s n reason st t0 left ok
  let s := spareGone (putImage s n im) n
  let s := updCore s n (fun c => { flushCore c with
    run := false, bundle := none, buf := [], rsv := none, waiting := false, entering := none, irq := false, sxtState := 4, sxtFor := 0x1F })
  let s := { s with sxt := { s.sxt with
    rlfFrom := n, rlfTo := n, rlfReason := reason, rlfResult := if ok then 2 else 3, rlfDone := true
    rlfTime := (now s + 2 ^ 64 - t0) % 2 ^ 64
    reliefs := s.sxt.reliefs.filter (fun r => r.2.core != n)
    requests := s.sxt.requests.filter (fun r => r.1 != n)
    reqAt := Table.set zeroOf s.sxt.reqAt n 0 } }
  let bound := vcoreOn s n
  let s := match bound with
    | some (z, v) => updVcore s z v (fun x => { x with state := 4, db := x.db || c.irq })
    | none => s
  let s := rep.fault { mkReport 0x13 3 reason 0 0 (BitVec.ofNat 64 (n + reason * 256)) im.zone with
      quad := some (coreQuad n), bonded := im.world } s
  let s := logAdd s 0x0010 st [rlfStat s, BitVec.ofNat 64 s.sxt.rlfTime, BitVec.ofNat 64 t0,
    BitVec.ofNat 64 (im.zone + im.vcid * 2 ^ 12)]
  match bound with
  | some (z, v) => postEvent rep s z 4 st (BitVec.ofNat 64 (s.devId % 65536 * 2 ^ 48 + n * 2 ^ 32 + v))
  | none => s

end Sys2Proof.Machine
end

