-- ==== Sys2Proof/Machine/Fault.lean ====
section
/-! DEFINITION. The fault collector: records, coalescing, levels, reactions (R513 to R530). -/

namespace Sys2Proof.Machine

/-- The reaction table that vintage 0 uses (R518): quiet periods of 10,000 ms, and one row per class. -/
def reactionDefault (i : Nat) : Word :=
  if i < 6 then 10000
  else if i < 8 then 0
  else
    match (i - 8) % 6 with
    | 1 => 0x10
    | 2 => 0x10000032
    | 3 => 0x43
    | 4 => 0x54
    | 5 => 0x55
    | _ => 0

def reactionWord (s : State) (i : Nat) : Word := Table.get reactionDefault s.vin.cfg.reaction i
def reactionEntry (s : State) (source cls : Nat) : Word := reactionWord s (8 + 6 * source + cls)

/-- The level from the table; C4 is taken at L4 or above and C5 at L5 (R517). -/
def tableLevel (s : State) (source cls : Nat) : Nat :=
  let l := min 5 ((reactionEntry s source cls).field 2 0)
  if cls = 4 then max 4 l else if cls = 5 then 5 else l

/-- The cap; one below the level is taken as the level (R517). -/
def tableCap (s : State) (source cls : Nat) : Nat :=
  max (tableLevel s source cls) (min 5 ((reactionEntry s source cls).field 6 4))

/-- The escalation timer in mt (R517). -/
def tableTimer (s : State) (source cls : Nat) : Nat := (reactionEntry s source cls).field 31 16 * 2 ^ 20

/-- The quiet period of a class in mt; 0 ms is taken as 1 (R517). -/
def quietPeriod (s : State) (cls : Nat) : Nat := max 1 ((reactionWord s cls).field 31 0) * 4096000

/-- Whether a record names the target that a level needs (R520). -/
def hasTarget (zone : Nat) (quad : Option Nat) (l : Nat) : Bool :=
  if l = 3 then decide (1 ≤ zone ∧ zone ≤ 4095) else if l = 4 then quad.isSome else true

/-- The level applied once targets are considered: the highest lower level whose target is named (R520). -/
def targetLevel (zone : Nat) (quad : Option Nat) : Nat → Nat
  | 0 => 0
  | l + 1 => if hasTarget zone quad (l + 1) then l + 1 else targetLevel zone quad l

/-- Record word 3 (R515). -/
def FRec.word3 (r : FRec) : Word :=
  BitVec.ofNat 64 (r.source % 256 * 2 ^ 56 + r.cls % 8 * 2 ^ 53 + r.level % 8 * 2 ^ 50 + r.tlevel % 8 * 2 ^ 47 +
    r.esc.toNat * 2 ^ 46 + r.acked.toNat * 2 ^ 45 + r.unsync.toNat * 2 ^ 44 + r.bonded.toNat * 2 ^ 43 +
    r.noTarget.toNat * 2 ^ 42 + r.zone % 4096 * 2 ^ 28 + (match r.quad with | some q => q % 16 | none => 15) * 2 ^ 24 +
    r.reason % 256 * 2 ^ 16 + r.count % 65536)

/-- The eight words of a record; an open-world reader sees words 4 and 5 of a bonded one as 0 (R515). -/
def FRec.words (r : FRec) (world : Bool) : List Word :=
  let hide := r.bonded && !world
  [r.stamp, r.srcStamp, BitVec.ofNat 64 r.mer, r.word3, if hide then 0 else r.addr, if hide then 0 else r.detail,
   BitVec.ofNat 64 r.last, 0]

/-- The logbook entry of a record (R535): words 1 and 2 of the entry are record words 2 and 0. -/
def FRec.entry (r : FRec) (hw : Bool) : LogEntry :=
  ⟨0x0001, hw, r.unsync, 0, r.mer, r.stamp, [r.srcStamp, r.word3, r.addr, r.detail], 0⟩

/-- FLT_STAT (R541). -/
def fltStat (s : State) : Word :=
  let f := s.flt
  BitVec.ofNat 64 ((f.active.foldl (fun a c => a ||| 2 ^ c) 0) * 2 ^ 48 + min 255 f.unack.length * 2 ^ 40 +
    f.checkstop.toNat * 4 + f.errLow.toNat * 2 + (if f.unack = [] then 0 else 1))

/-- Whether a history record takes a class C0 report (R516). -/
def coalesces (s : State) (r : Report) (x : FRec) : Bool :=
  decide (r.cls = 0 ∧ x.cls = 0 ∧ x.source = r.source ∧ x.reason = r.reason ∧ x.zone = r.zone ∧ x.detail = r.detail ∧
    x.count < 0xFFFF ∧ (now s + 2 ^ 64 - x.mer) % 2 ^ 64 ≤ 2 ^ 22)

/-- Coalesce a report into its record where it stands (R516). -/
def bumpRec (s : State) (x : FRec) : FRec := { x with count := x.count + 1, last := now s }

def zeroClass (_ : Nat) : Nat := 0

/-- The record of a report with its level: the table's, raised under R524, then fitted to its targets (R520). -/
def mkRecord (s : State) (r : Report) (stamp : Word) : FRec :=
  let tl := tableLevel s r.source r.cls
  let top := (s.flt.unack.filter (fun x => x.cls == r.cls)).foldl (fun a x => max a x.level) 0
  let up := min (top + 1) (tableCap s r.source r.cls)
  let esc := decide (1 ≤ r.cls ∧ 1 ≤ tl ∧ 1 ≤ top ∧ tl < up)
  let want := if esc then up else tl
  let l := targetLevel r.zone r.quad want
  let t := tableTimer s r.source r.cls
  ⟨stamp, r.stamp, now s, r.source, r.cls, l, tl, esc, decide (l = 0), s.mer.fault, r.bonded, decide (l ≠ want), r.zone,
   r.quad, r.reason, 1, r.addr, r.detail, now s, if 2 ≤ l ∧ t ≠ 0 then some ((now s + t) % 2 ^ 64) else none⟩

/-- Take a report into the history and the logbook without reacting. Answers the record made, if one was: none at
checkstop (R527) and none where a class C0 report joins an earlier record (R516). -/
def recordOnly (s : State) (r : Report) : Option FRec × State :=
  if s.flt.checkstop then (none, s)
  else if s.flt.hist.any (coalesces s r) then
    let h := List.updFirst (coalesces s r) (bumpRec s) s.flt.hist
    let u := s.flt.unack.map (fun x => if coalesces s r x then bumpRec s x else x)
    (none, { s with flt := { s.flt with hist := h, unack := u } })
  else
    let (st, s) := issueStamp s 0x61
    let x := mkRecord s r st
    let f := s.flt
    let s := { s with flt := { f with
      hist := (x :: f.hist).take 32
      unack := if 1 ≤ x.level then f.unack ++ [x] else f.unack
      active := if 1 ≤ x.level ∧ ¬ f.active.contains x.cls then f.active ++ [x.cls] else f.active
      lastAt := if 1 ≤ x.level then Table.set zeroClass f.lastAt x.cls (now s) else f.lastAt
      c0 := if x.cls = 0 then Table.upd zeroClass f.c0 x.source (fun c => satAdd 8 c 1) else f.c0 } }
    (some x, if 1 ≤ x.cls ∨ 1 ≤ x.level then logPut s (x.entry false) else s)

/-- ERR_L low for at least 2 µs (R528). -/
def driveErr (s : State) : State :=
  { s with flt := { s.flt with errLow := true, errMin := some ((now s + 8192) % 2 ^ 64), errRelease := false } }

/-- Isolate a quadrant (R521 steps 1 and 2): FLUSHING, requests held for it answered with reason 1, its reliefs
abandoned, its cores stopped and their vcores LOST. Nothing further where it is OFF or isolated (R527). -/
def isolate (rep : Reporter) (s : State) (q : Nat) (stamp : Word) : State :=
  let d := getDom s (16 + q)
  if d.state = 0 ∨ d.isolated.isSome then s
  else
    let s := updDom s (16 + q) (fun d => { d with state := 3, t0 := now s, isolated := some stamp, held := [] })
    let s := d.held.foldl (fun s f => answerErr s f 1) s
    let s := { s with
      sxt := { s.sxt with reliefs := s.sxt.reliefs.filter (fun r => decide (r.1 / 4 ≠ q)) } }
    (quadCores q).foldl (fun s n =>
      match vcoreOn s n with
      | some (z, v) => if (getVcore s z v).state = 4 then s else loseCore rep s n 1 true
      | none => if (getCore s n).run then
          updCore s n (fun c => { c with run := false, bundle := none, rsv := none }) else s) s

/-- Checkstop (R522). -/
def checkstop (s : State) (x : FRec) : State :=
  let s := { s with flt := { s.flt with checkstop := true, errLow := true, errMin := none } }
  let s := { s with
    cores := Table.mapListed Core.reset (fun _ c => { c with run := false, bundle := none, buf := [], wc := [] }) s.cores
    pcie := Table.mapListed pcieOf (fun _ p => { p with up := false }) s.pcie
    power := { s.power with selfRefresh := true } }
  let e := LogEntry.mk 0x0041 true s.mer.fault 0 (now s) x.stamp [x.stamp, fltStat s] 0
  logPump { s with log := { s.log with first := s.log.first ++ e :: s.flt.hist.map (fun r => r.entry true) } }

/-- The reaction of a record's level; each level also performs the lower ones, and checkstop wins over the reactions
L3 and L4 (R519, R527, R529). The zone controller posts only while the main domain is powered (R12). -/
def react (rep : Reporter) (s : State) (x : FRec) (l : Nat) : State :=
  let s := if 1 ≤ l ∧ s.power.rails then
      let s := postEvent rep s 0 8 x.stamp x.word3
      if 1 ≤ x.zone ∧ x.zone ≤ 4095 then postEvent rep s x.zone 8 x.stamp x.word3 else s
    else s
  let s := if 2 ≤ l then driveErr s else s
  if l = 5 then checkstop s x
  else
    let s := if 3 ≤ l ∧ 1 ≤ x.zone ∧ x.zone ≤ 4095 then
        (if s.rlx.running then (requestReset s x.zone none 3 0).2
         else { s with rlx := { s.rlx with deferredL3 := s.rlx.deferredL3 ++ [x.zone] } })
      else s
    match x.quad with
    | some q => if l = 4 then isolate rep s q x.stamp else s
    | none => s

/-- The reporter whose reactions' own reports nest at most `n` deep. -/
def reporter : Nat → Reporter
  | 0 => ⟨fun r s => (recordOnly s r).2, fun _ s => s⟩
  | n + 1 =>
    let rp := reporter n
    ⟨fun r s => match recordOnly s r with
      | (none, s) => s
      | (some x, s) => react rp s x x.level,
     fun z s => postLow rp z s⟩

/-- How every command reports and posts. -/
def rep : Reporter := reporter 8

/-- Report a fault to the collector: record, history, logbook, reaction. -/
def fault (s : State) (r : Report) : State := rep.fault r s

/-- Report with source, class, reason, source stamp, address, detail and zone. -/
def faultAt (s : State) (source cls reason : Nat) (stamp addr detail : Word) (zone : Nat) : State :=
  fault s (mkReport source cls reason stamp addr detail zone)

end Sys2Proof.Machine
end

