-- ==== Sys2Proof/Machine/HomeOps.lean ====
section
/-! DEFINITION. The home agent: transactions, grants, the directory, credits, write-backs (R219 to R228, R246, R252,
R258). -/

namespace Sys2Proof.Machine

/-- The hub serves requests: main power is up, memory is trained, and there is no checkstop (R12, R522, R556). -/
def hubUp (s : State) : Bool := s.power.pwrOk && s.power.rails && decide (4 ≤ s.power.step) && !s.flt.checkstop

/-! ## Reads and writes of memory by the home (R246, R252) -/

/-- The symbols in which the poison marker differs from the code word of its line: the four inverted check bytes (R247). -/
def markerErrors : List (Nat × Nat) := [(128, 255), (129, 255), (130, 255), (131, 255)]

/-- The symbols in which a read differs from the code word of the line that was stored: what the read met, over the marker
where the line holds it. -/
def symbolErrors (poison : Bool) (flips : List (Nat × Nat)) : List (Nat × Nat) :=
  flips.foldl (fun t x => Table.upd zeroOf t x.1 (fun v => v ^^^ x.2)) (if poison then markerErrors else [])

/-- How the decoder ends (R245 to R247): no error, a correction, the marker's syndrome, a detected error; beyond what R245
decides, an error that it does not see, or takes for another one. -/
inductive EccEnd where
  | good | corrected | marker | detected | unseen | wrong
  deriving DecidableEq, Repr

/-- The decoder on a set of symbol errors. Symbols 2k and 2k + 1 are those of one beat. Four check bytes make the code's
distance 5, so that an error of up to four symbols never looks like no error (R245; log entry 185). -/
def eccEnd (errs : List (Nat × Nat)) : EccEnd :=
  if errs = [] then .good
  else if Config.eccSyndrome errs = Config.eccSyndrome markerErrors then .marker
  else if errs.all (fun x => x.1 / 2 == (errs.headD (0, 0)).1 / 2) then .corrected
  else if errs.length ≤ 2 then .detected
  else match Config.eccBeyond errs with
    | 0 => if errs.length ≤ 4 then .detected else .unseen
    | 1 => .wrong
    | _ => .detected

/-- One read of a memory channel: how the decoder ends, and what the read leaves in the counts, in the records and in
memory (R243, R246, R248, R514). -/
def channelRead (s : State) (fl zone : Nat) (stamp : Word) (scrub : Bool) (e : ReadFinding) : EccEnd × State :=
  let ch := chanOf (fl * 128) + scrub.toNat * 64
  let a := BitVec.ofNat 64 (fl * 128)
  let errs := symbolErrors (framePoison s fl) e.flips
  let d := BitVec.ofNat 64 (ch + (Config.eccSyndrome errs).toNat * 2 ^ 32)
  let linked := fun (s : State) => { s with mem := { s.mem with eccLink := satAdd 16 s.mem.eccLink 1 } }
  let s := match e.link with
    | .clean => s
    | .corrected => faultAt (linked s) 0x06 0 0 stamp a (BitVec.ofNat 64 ch) 0
    | .repeated => linked s
  let count := fun (s : State) => { s with mem := { s.mem with eccCe := satAdd 32 s.mem.eccCe 1 } }
  match eccEnd errs with
  | .corrected => (.corrected, faultAt (count s) 0x06 0 0 stamp a d 0)
  | .wrong =>
    let bad := Config.eccLine errs (lineOf (frameBytes s.mem fl))
    (.wrong, faultAt (count (writeFrame s fl (Table.get zeroOf s.mem.keys fl) bad)) 0x06 0 0 stamp a d 0)
  | .detected =>
    let s := poisonFrame { s with mem := { s.mem with eccUe := satAdd 16 s.mem.eccUe 1 } } fl
    (.detected, faultAt s 0x06 2 0 stamp a d zone)
  | x => (x, s)

/-- A channel read of a frame line under a zone's key: the line, whether it is poisoned, and the state after (R246). -/
def homeRead (s : State) (fl zone : Nat) (stamp : Word) (e : ReadFinding) : Line × Bool × State :=
  let l := readFrame s fl (keyTag s zone)
  let (x, t) := channelRead s fl zone stamp false e
  match x with
  | .good | .corrected => (l, false, t)
  | .marker | .detected => (0, true, t)
  | .unseen | .wrong => (Config.eccLine (symbolErrors (framePoison s fl) e.flips) l, false, t)

/-- Count an inverse-check event of an inline pipeline: the first mismatch is class C0, a second one poisons the line
with class C2, and reaching the limit within one watch is class C5 (R252, R428). -/
def inlineVerify (s : State) (fl zone : Nat) (verify : Nat) : Bool × State :=
  let ch := chanOf (fl * 128)
  let noInl := fun (_ : Nat) => (⟨0, 0, 0⟩ : InlPipe)
  let upd := fun (s : State) (f : InlPipe → InlPipe) =>
    { s with cip := { s.cip with inls := Table.upd noInl s.cip.inls ch f } }
  let a := BitVec.ofNat 64 (fl * 128)
  let d := BitVec.ofNat 64 ch
  if verify = 0 then (true, s)
  else if verify = 1 then
    (true, faultAt (upd s (fun p => { p with c0 := satAdd 32 p.c0 1 })) 0x0E 0 0 0 a d zone)
  else
    let s := upd s (fun p => { p with c2 := satAdd 16 p.c2 1, watch := p.watch + 1 })
    let s := faultAt s 0x0E 2 0 0 a d zone
    (false, if s.cip.inlLimit ≤ (Table.get noInl s.cip.inls ch).watch then faultAt s 0x0E 5 0 0 a d zone else s)

/-- Write a line that carries a zone to its frame, as the inline pipeline does: poison stays poison, an empty slot
poisons the line with class C2 (R420), a failed inverse check poisons it (R252). -/
def homeWrite (s : State) (fl zone : Nat) (poison : Bool) (l : Line) (verify : Nat) : State :=
  if poison then poisonFrame s fl
  else if keyReady s zone = false then
    faultAt (poisonFrame s fl) 0x05 2 0 0 (BitVec.ofNat 64 (fl * 128)) 0 zone
  else
    let r := inlineVerify s fl zone verify
    if r.1 then writeFrame r.2 fl (keyTag s zone) l else poisonFrame r.2 fl

/-- The frame line where a cached line of this module's memory belongs: its page mapped, or being cellared. -/
def frameOf (s : State) (off : Nat) : Option Nat :=
  let e := getPage s (off / 4096)
  if off < usableBytes s ∧ (e.st = 0 ∨ (e.st = 2 ∧ e.dir = false)) then some (e.loc * 32 + off / 128 % 32) else none

/-! ## Responses -/

def respond (s : State) (op : FlitOp) (a : Agent) (zone : Nat) (stamp addr : Word) (words : List Word) : State :=
  sendFlit s { mkFlit s op a.dev (0x110 + 4 * a.quad) zone stamp (addr :: words) with qmask := quadBit a.quad }

def sendErr (s : State) (r : CohReq) (reason : Nat) : State :=
  respond s .err r.agent r.zone r.stamp r.addr [BitVec.ofNat 64 reason]

def moesiNum : Moesi → Nat
  | .i => 0 | .s => 1 | .e => 2 | .o => 3 | .m => 4

/-- Data to the requester with the granted state (R271). -/
def sendData (s : State) (r : CohReq) (st : Moesi) (l : Line) (poison : Bool) : State :=
  sendFlit s { mkFlit s .data r.agent.dev (0x110 + 4 * r.agent.quad) r.zone r.stamp [] with
    line := some l, poison := poison, qmask := quadBit r.agent.quad, credit := moesiNum st }

/-! ## Credits (R223) -/

/-- The lowest free credit, the model's choice among several (log entry 173); 56 to 63 only for the starving flag. -/
def freeCredit (s : State) (starve : Bool) : Option Nat :=
  ((List.range 64).filter (fun c => (Assoc.get s.home.credits c).isNone && (starve || decide (c < 56)))).head?

/-- RETRY: with a credit recorded against the line where one is free, plain otherwise (R223). -/
def sendRetry (s : State) (r : CohReq) : State :=
  let li := addrOff r.addr / 128
  match freeCredit s r.starve with
  | some c =>
    let cr : Credit := ⟨li, r.agent, r.stamp, s.home.creditSeq, none⟩
    let s := { s with home := { s.home with
      credits := Assoc.put s.home.credits c cr, creditSeq := s.home.creditSeq + 1 } }
    sendFlit s { mkFlit s .retry r.agent.dev (0x110 + 4 * r.agent.quad) r.zone r.stamp [r.addr] with crv := true, credit := c }
  | none =>
    respond { s with home := { s.home with plainRetry := satAdd 32 s.home.plainRetry 1 } }
      .retry r.agent r.zone r.stamp r.addr []

/-- The oldest credit recorded against a line. -/
def oldestCredit (s : State) (li : Nat) : Option (Nat × Credit) :=
  (s.home.credits.filter (fun c => c.2.line == li)).foldl (fun best c =>
    match best with
    | none => some c
    | some b => if c.2.seq < b.2.seq then some c else some b) none

/-- The transaction on a line is over. -/
def dropTxn (s : State) (li : Nat) : State :=
  { s with home := { s.home with txns := s.home.txns.filter (fun t => t.line != li) } }

/-- The line becomes free: RESEND for the oldest credit recorded against it (R223). -/
def freeLine (s : State) (li : Nat) : State :=
  let s := dropTxn s li
  match oldestCredit s li with
  | none => s
  | some (c, cr) =>
    let s := { s with home := { s.home with credits := Assoc.put s.home.credits c { cr with resentAt := some (now s) } } }
    respond s .resend cr.agent 0 cr.stamp (mkAddr s.devId (li * 128)) []

/-! ## The directory -/

/-- The bucket of a line (R219). -/
def bucketOf (li : Nat) : Nat := crc32c (leBytes 8 li) % 2 ^ 25

def isHomeQuad (s : State) (a : Agent) (li : Nat) : Bool := a == Agent.mk s.devId (li % 4)

/-- Remote devices that an entry points at. -/
def pointedDevs (s : State) (e : DirEntry) : List Nat :=
  (e.sharers.filterMap (fun a => if a.dev = s.devId then none else some a.dev)).eraseDups

/-- Record a sharer; a fifth remote device makes the entry coarse (R220, R221). -/
def addSharer (s : State) (e : DirEntry) (a : Agent) : DirEntry :=
  if e.sharers.contains a then e
  else
    match e.coarse with
    | some gs => if a.dev = s.devId then { e with sharers := e.sharers ++ [a] }
        else { e with coarse := some (if gs.contains (a.dev / 256) then gs else gs ++ [a.dev / 256]) }
    | none =>
      let devs := pointedDevs s e
      if a.dev = s.devId ∨ devs.contains a.dev ∨ devs.length < 4 then { e with sharers := e.sharers ++ [a] }
      else { e with
        sharers := e.sharers.filter (fun b => b.dev == s.devId)
        coarse := some (((devs ++ [a.dev]).map (· / 256)).eraseDups) }

/-- Forget one agent of a line; an entry that names nobody is free. -/
def forgetAgent (s : State) (li : Nat) (a : Agent) : State :=
  match Assoc.get s.home.dir li with
  | none => s
  | some e =>
    let sh := e.sharers.filter (· != a)
    let e := if e.owner = a ∧ e.dstate ≠ 1 then { e with dstate := 1, sharers := sh } else { e with sharers := sh }
    setDir s li (if e.dstate = 1 ∧ e.sharers = [] ∧ e.coarse = none then DirEntry.free else e)

/-- Record what an agent holds after a grant. The home quadrant is never recorded (R215). -/
def recordGrant (s : State) (li : Nat) (a : Agent) (st : Moesi) : State :=
  if isHomeQuad s a li then
    match st with
    | .e | .m => setDir s li DirEntry.free
    | _ => s
  else
    match st with
    | .e | .m => setDir s li ⟨2, a, [], none⟩
    | .s =>
      match Assoc.get s.home.dir li with
      | none => setDir s li ⟨1, ⟨0, 0⟩, [a], none⟩
      | some e => if e.dstate = 2 then setDir s li (addSharer s { e with dstate := 3 } a)
          else setDir s li (addSharer s e a)
    | _ => s

/-- What a snooped agent is recorded as after its answer (R218). -/
def recordAfter (s : State) (li : Nat) (a : Agent) (st : Moesi) : State :=
  match st with
  | .i => forgetAgent s li a
  | .s =>
    match Assoc.get s.home.dir li with
    | some e => if e.owner = a ∧ e.dstate ≠ 1 then setDir s li (addSharer s { e with dstate := 1, owner := ⟨0, 0⟩ } a)
        else s
    | none => s
  | .o =>
    match Assoc.get s.home.dir li with
    | some e => if e.owner = a ∧ e.dstate = 2 then setDir s li { e with dstate := 3 } else s
    | none => s
  | _ => s

/-- The victim of a full bucket: never one with a transaction in progress; shared first, then the fewest holders, then
the lowest position (R222). Positions follow the line index (log entry 31). -/
def victimOf (s : State) (li : Nat) : Option Nat :=
  let es := s.home.dir.filter (fun e => bucketOf e.1 == bucketOf li && !(busy s e.1))
  let score := fun (e : Nat × DirEntry) => (if e.2.dstate = 1 then 0 else 2 ^ 32) + (recordedHolders s e.1).length
  (es.foldl (fun (best : Option (Nat × DirEntry)) e =>
    match best with
    | none => some e
    | some b => if score e < score b then some e else some b) none).map (·.1)

/-- A new entry is needed and all eight of the bucket are valid (R222). -/
def bucketFull (s : State) (li : Nat) (a : Agent) : Bool :=
  (Assoc.get s.home.dir li).isNone && !(isHomeQuad s a li) &&
    decide (8 ≤ (s.home.dir.filter (fun e => bucketOf e.1 == bucketOf li)).length)

/-! ## Transactions (R221) -/

/-- The requests that leave a copy behind and so may need an entry. -/
def keepsCopy : ReqKind → Bool
  | .rdShared | .rdOwn | .upgrade => true
  | _ => false

/-- The owner as the home sees it: the recorded one, or the home quadrant where the probe shows it in E, M or O. -/
def ownerOf (s : State) (li : Nat) : Option Agent :=
  let hq := li % 4
  match homeProbe s hq (globalLine (mkAddr s.devId (li * 128))) with
  | .e | .m | .o => some ⟨s.devId, hq⟩
  | _ =>
    match Assoc.get s.home.dir li with
    | some e => if e.dstate = 1 ∨ s.home.lost.contains e.owner.dev then none else some e.owner
    | none => none

/-- Whether an Upgrade comes from an agent that holds the line as the home knows it. -/
def listedFor (s : State) (li : Nat) (a : Agent) : Bool := (lineHolders s (li * 128)).contains a

/-- An Upgrade from an agent that the home does not list, or on an owned line, is a RdOwn (R221). -/
def effectiveKind (s : State) (li : Nat) (k : ReqKind) (a : Agent) : ReqKind :=
  match k with
  | .upgrade =>
    let owned := match Assoc.get s.home.dir li with
      | some e => decide (e.dstate = 2)
      | none => false
    if listedFor s li a ∧ owned = false then .upgrade else .rdOwn
  | k => k

/-- The directory has a line in owned-shared (R220). -/
def ownedShared (s : State) (li : Nat) : Bool :=
  match Assoc.get s.home.dir li with
  | some e => e.dstate == 3
  | none => false

/-- The directory has an owner for a line (R220). -/
def dirOwned (s : State) (li : Nat) : Bool :=
  match Assoc.get s.home.dir li with
  | some e => e.dstate != 1
  | none => false

/-- The snoops a request needs, with their nf bit (R221). A write leaves no copy, so the writer's own quadrant is snooped
as well. -/
def snoopsFor (s : State) (li : Nat) (k : ReqKind) (a : Agent) : List (Agent × FlitOp × Bool) :=
  let all := lineHolders s (li * 128)
  let others := all.filter (· != a)
  let owner := (ownerOf s li).filter (· != a)
  match k with
  | .rdShared => owner.toList.map (fun o => (o, .snpFwdS, false))
  | .rdOwn =>
    match owner with
    | some o =>
      if others = [o] ∧ !(isHomeQuad s o li) ∧ !(ownedShared s li) then [(o, .snpFwdO, false)]
      else others.map (fun b => (b, if b = o ∧ !(isHomeQuad s o li) then .snpFwdO else .snpInv, true))
    | none => others.map (fun b => (b, .snpInv, true))
  | .upgrade => others.map (fun b => (b, .snpInv, true))
  | .rdOnce => owner.toList.map (fun o => (o, .snpClean, true))
  | .wrLine _ => all.map (fun b => (b, .snpDrop, true))
  | .wrPart _ _ => all.map (fun b => (b, .snpInv, true))
  | .cleanLine => all.map (fun b => (b, .snpClean, true))
  | .invLine => all.map (fun b => (b, .snpDrop, true))
  | .cleanInvLine => all.map (fun b => (b, .snpBack, true))

/-- Merge the bytes that a mask selects. -/
def mergeMask (mask : BitVec 128) (new old : Line) : Line :=
  lineOf ((List.range 128).map (fun j =>
    if mask.getLsbD j then (lineBytes new).getD j 0 else (lineBytes old).getD j 0))

/-- Charge one memory credit of a zone (R450). -/
def chargeCredit (s : State) (zone : Nat) : State := updZone s zone (fun z => { z with credit := z.credit - 1 })

/-- Complete a request whose snoops are all answered (R221). `t.data` is dirty data that reached the home. -/
def grant (s : State) (t : Txn) (k : ReqKind) (r : CohReq) (verify : Nat) : State :=
  let li := t.line
  match frameOf s (li * 128) with
  | none => freeLine (sendErr s r 2) li
  | some fl =>
    let s := chargeCredit s r.zone
    let toMem := fun (s : State) =>
      match t.data with
      | some l => homeWrite s fl t.dataZone t.dataPoison l verify
      | none => s
    let hold := fun (s : State) (st : Moesi) =>
      { s with home := { s.home with txns := s.home.txns.map (fun x => if x.line = li then { t with granted := some st, sentAt := now s } else x) } }
    match k with
    | .rdShared =>
      if t.forwarded then hold (recordGrant (if t.absorbed = [] then s else toMem s) li r.agent .s) .s
      else
        let s := toMem s
        let (l, p, s) := homeRead s fl r.zone r.stamp t.finding
        let st := if (Assoc.get s.home.dir li).isNone ∧ (lineHolders s (li * 128)).filter (· != r.agent) = [] then .e else .s
        hold (sendData (recordGrant s li r.agent st) r st l p) st
    | .rdOwn =>
      if t.forwarded then hold (recordGrant s li r.agent .m) .m
      else
        match t.owned, t.data with
        | true, some l => hold (sendData (recordGrant s li r.agent .m) r .m l t.dataPoison) .m
        | _, _ =>
          let s := toMem s
          let (l, p, s) := homeRead s fl r.zone r.stamp t.finding
          hold (sendData (recordGrant s li r.agent .e) r .e l p) .e
    | .upgrade => freeLine (respond (recordGrant s li r.agent .m) .cmp r.agent r.zone r.stamp r.addr []) li
    | .rdOnce =>
      let s := toMem s
      let (l, p, s) := homeRead s fl r.zone r.stamp t.finding
      hold (sendData s r .i l p) .i
    | .wrLine d =>
      let s := homeWrite (setDir s li DirEntry.free) fl r.zone false d verify
      freeLine (respond s .cmp r.agent r.zone r.stamp r.addr []) li
    | .wrPart mask d =>
      let s := toMem s
      let (l, p, s) := homeRead s fl r.zone r.stamp t.finding
      let s := if p then s else homeWrite (setDir s li DirEntry.free) fl r.zone false (mergeMask mask d l) verify
      freeLine (respond s .cmp r.agent r.zone r.stamp r.addr []) li
    | .cleanLine | .invLine | .cleanInvLine => freeLine (respond (toMem s) .cmp r.agent r.zone r.stamp r.addr []) li

/-- Take a request for a line that is not busy: its snoops go out, or it is granted at once. -/
def beginTxn (s : State) (k0 : ReqKind) (r : CohReq) (e : ReadFinding) (verify : Nat) : State :=
  let li := addrOff r.addr / 128
  let k := effectiveKind s li k0 r.agent
  let sn := snoopsFor s li k r.agent
  let t : Txn := ⟨li, .request k r, sn.map (fun x => (x.1, x.2.1)), now s, false, none, false, r.zone, false, [], [], none, e,
    match sn with | [x] => x.2.2 | _ => true, false, dirOwned s li⟩
  let s := { s with home := { s.home with txns := s.home.txns ++ [t] } }
  let s := sn.foldl (fun s x => sendSnoop s x.2.1 x.1 x.2.2 r.zone r.stamp r.addr) s
  if sn = [] then grant s t k r verify else s

/-- The owner that the directory records for a line is lost (R226). -/
def ownerLost (s : State) (li : Nat) : Bool :=
  match Assoc.get s.home.dir li with
  | some e => e.dstate != 1 && s.home.lost.contains e.owner.dev
  | none => false

/-- Lost devices leave a line's entry: a lost owner has held dirty data, so memory takes the poison marker; the sharers
that are still there stay recorded (R226). -/
def dropLost (s : State) (li : Nat) : State :=
  match Assoc.get s.home.dir li with
  | none => s
  | some e =>
    let dead : Bool := e.dstate != 1 && s.home.lost.contains e.owner.dev
    let s := match dead, frameOf s (li * 128) with
      | true, some fl => poisonFrame s fl
      | _, _ => s
    let sh := e.sharers.filter (fun a => !(s.home.lost.contains a.dev))
    let e : DirEntry := if dead then { e with dstate := 1, owner := ⟨0, 0⟩, sharers := sh } else { e with sharers := sh }
    setDir s li (if e.dstate = 1 ∧ sh = [] ∧ e.coarse = none then DirEntry.free else e)

/-- A transaction of the home's own that calls copies of a line in (R221, R222, R226, R256). -/
def startSettle (s : State) (v : Nat) (goal : TxnGoal) (op : FlitOp) (hs : List Agent) (zone : Nat) (stamp : Word)
    (e : ReadFinding) : State :=
  let t : Txn := ⟨v, goal, hs.map (fun a => (a, op)), now s, false, none, false, zone, false, [], [], none, e, true,
    false, dirOwned s v⟩
  let s := { s with home := { s.home with txns := s.home.txns ++ [t] } }
  hs.foldl (fun s a => sendSnoop s op a true zone stamp (mkAddr s.devId (v * 128))) s

/-- Every quadrant of every module of the inventory that is not lost (R222). -/
def everyAgent (s : State) : List Agent :=
  (((s.devId :: s.vin.inventory).eraseDups).filter (fun d => !(s.home.lost.contains d))).flatMap
    (fun d => quads.map (fun q => Agent.mk d q))

/-- A request that may have its line: the entry it needs is made free first (R222). -/
def openEntry (s : State) (k : ReqKind) (r : CohReq) (e : ReadFinding) (verify : Nat) : State :=
  let li := addrOff r.addr / 128
  if keepsCopy k ∧ bucketFull s li r.agent then
    match victimOf s li with
    | none => sendRetry s r
    | some v =>
      let s := dropLost s v
      let hs := lineHolders s (v * 128)
      if hs = [] then
        beginTxn (setDir { s with home := { s.home with backInv := satAdd 32 s.home.backInv 1 } } v DirEntry.free) k r e verify
      else startSettle s v (.backInv k r) .snpBack hs r.zone r.stamp e
  else beginTxn s k r e verify

/-- A request that may have its line, after the directory has been read: an uncorrectable entry calls every quadrant's copy
in, and a lost owner's sharers are invalidated, before it goes on (R222, R226). -/
def openTxn (s : State) (k : ReqKind) (r : CohReq) (e : ReadFinding) (verify : Nat) : State :=
  let li := addrOff r.addr / 128
  if e.dir then
    let s := faultAt s 0x05 2 0 r.stamp (mkAddr s.devId (li * 128)) 0 0
    startSettle s li (.settle (some (k, r))) .snpBack (everyAgent s) r.zone r.stamp { e with dir := false }
  else
    let lost := ownerLost s li
    let s := dropLost s li
    let hs := lineHolders s (li * 128)
    if lost ∧ hs ≠ [] then startSettle s li (.settle (some (k, r))) .snpInv hs r.zone r.stamp e
    else openEntry s k r e verify

/-- Take a request, or back-invalidate for it, or RETRY it (R222, R223). -/
def admitRequest (s : State) (k : ReqKind) (r : CohReq) (credit : Option Nat) (e : ReadFinding) (verify : Nat) : State :=
  let li := addrOff r.addr / 128
  let reserved := s.home.credits.any (fun c => c.2.line == li && some c.1 != credit)
  if busy s li then
    match credit with
    | some c =>
      let s := { s with home := { s.home with credits := match Assoc.get s.home.credits c with
        | some cr => Assoc.put s.home.credits c { cr with resentAt := none }
        | none => s.home.credits } }
      sendFlit s { mkFlit s .retry r.agent.dev (0x110 + 4 * r.agent.quad) r.zone r.stamp [r.addr] with crv := true, credit := c }
    | none => sendRetry s r
  else if credit.isNone ∧ reserved then sendRetry s r
  else
    let s := match credit with
      | some c => { s with home := { s.home with credits := Assoc.del s.home.credits c } }
      | none => s
    openTxn s k r e verify

/-! ## Decants (R258, R259) -/

def isMaint : ReqKind → Bool
  | .cleanLine | .invLine | .cleanInvLine => true
  | _ => false

def heldCount (s : State) : Nat := s.mem.decants.foldl (fun a d => a + d.held.length) 0

/-- The lines that a request waits for with a credit but no RESEND, outside the pages in decant: those that found 256
requests held (R258). -/
def creditLines (s : State) : List Nat :=
  ((s.home.credits.filter (fun c => c.2.resentAt.isNone && !(s.mem.decants.any (fun d => d.page == c.2.line / 32)))).map
    (·.2.line)).eraseDups

/-- A line that is not busy goes to the oldest credit recorded against it (R223). -/
def offerLine (s : State) (li : Nat) : State := if busy s li then s else freeLine s li

/-- At the end of a decant the requests that had received RETRY may be sent again, on every line that is free: those of its
page, and those that found too many held (R223, R258). -/
def resendPage (s : State) (page : Nat) : State :=
  let s := (List.range 32).foldl (fun s j => offerLine s (page * 32 + j)) s
  (creditLines s).foldl (fun s li => offerLine s li) s

/-- A zone's decants per period: 0 unlimited; none counted while the zone is being reset from its step 2 on (R437,
R451). -/
def decantBudget (s : State) (zone : Nat) : Option Nat × State :=
  match zoneEntry rep s zone with
  | (some ze, s) =>
    let d := (entryQos s ze).field 31 16
    let resetting := match (getZone s zone).rst with | some r => decide (2 ≤ r.step) | none => false
    (if d == 0 || resetting then none else some d, s)
  | (none, s) => (none, s)

/-- Steps 1 and 2 of a decant: the budget is charged or waited for, then a frame is popped; an empty list ends it with
reason 4 (R258, R259). -/
def decantPop (s : State) (d : Decant) : State :=
  let e := getPage s d.page
  let put := fun (s : State) (d : Decant) =>
    { s with mem := { s.mem with decants := s.mem.decants.map (fun x => if x.page = d.page then d else x) } }
  match decantBudget s e.zone with
  | (some b, s) =>
    if b ≤ (getZone s e.zone).spent then put s { d with phase := 0 }
    else popStep (updZone s e.zone (fun z => { z with spent := z.spent + 1 })) e.zone put
  | (none, s) => popStep (updZone s e.zone (fun z => { z with spent := z.spent + 1 })) e.zone put
where
  popStep (s : State) (zone : Nat) (put : State → Decant → State) : State :=
    match popFrame s zone with
    | some (f, due, s) =>
      let s := put (if due then rep.low zone s else s) { d with phase := 1, frame := f }
      let isDecant := fun (j : CmpJob) => match j with | .decant _ => true | _ => false
      { s with cmp := { s.cmp with
          queue := s.cmp.queue.filter isDecant ++ [.decant d.page] ++ s.cmp.queue.filter (fun j => !(isDecant j)) } }
    | none =>
      let s := d.held.foldl (fun s h => sendErr s h.req 4) s
      let s := { s with mem := { s.mem with
        exhausted := satAdd 16 s.mem.exhausted 1, decants := s.mem.decants.filter (fun x => x.page != d.page) } }
      let s := resendPage (setPage s d.page { getPage s d.page with st := 1, dir := false }) d.page
      faultAt s 0x07 0 4 0 0 (BitVec.ofNat 64 d.page) zone

/-- A request to a page in the cellar starts a decant, or is held with the one that runs; beyond 256 held requests it
receives RETRY (R258). -/
def holdForDecant (s : State) (k : ReqKind) (r : CohReq) : State :=
  let p := addrOff r.addr / 4096
  if 256 ≤ heldCount s then sendRetry s r
  else
    match s.mem.decants.find? (fun d => d.page == p) with
    | some _ =>
      let add := fun (x : Decant) => if x.page = p then { x with held := x.held ++ [⟨k, r⟩] } else x
      { s with mem := { s.mem with decants := s.mem.decants.map add } }
    | none =>
      let d : Decant := ⟨p, 0, 0, 0, [⟨k, r⟩]⟩
      let s := setPage s p { getPage s p with st := 2, dir := true }
      decantPop { s with mem := { s.mem with decants := s.mem.decants ++ [d] } } d

/-! ## Arrival of a request -/

/-- CMAINT by address that completes without effect (R196, R197). -/
def maintVoid (s : State) (r : CohReq) : State := respond s .cmp r.agent r.zone r.stamp r.addr []

/-- A zone with mcap = 1 and no memory credit left is not served until the next period (R450). -/
def creditHeld (s : State) (zone : Nat) : Bool :=
  match (getZone s zone).entry with
  | some ws => (entryQos s ws).bit 15 && (getZone s zone).credit == 0
  | none => false

/-- The request that a transaction serves, or that waits for it. -/
def TxnGoal.served : TxnGoal → Option (ReqKind × CohReq)
  | .request k r | .backInv k r => some (k, r)
  | .settle next => next

/-- A transaction, a held or waiting request or a credit of this home has the stamp: a request that a sweep sends again is
then discarded (R321). -/
def stampKnown (s : State) (stamp : Word) : Bool :=
  s.home.txns.any (fun t => match t.goal.served with | some (_, r) => r.stamp == stamp | none => false) ||
    s.mem.waiting.any (fun w => w.req.stamp == stamp) ||
    s.mem.decants.any (fun d => d.held.any (fun h => h.req.stamp == stamp)) ||
    s.home.credits.any (fun c => c.2.stamp == stamp)

/-- A request for a frame line waits at the home: its zone has no memory credit left (R450), or the line's channel is being
retrained (R244). -/
def mustWait (s : State) (fl zone : Nat) : Bool :=
  creditHeld s zone || (getChan s (chanOf (fl * 128))).state == 1

/-- A request joins those that wait, in order of arrival. -/
def holdWaiting (s : State) (w : WaitingReq) : State := { s with mem := { s.mem with waiting := s.mem.waiting ++ [w] } }

/-- The home's checks of a request. A prefetch never reaches a bonded granule, whatever its world (R187, R239). -/
def requestCheck (s : State) (r : CohReq) : HomeCheck :=
  homeCheck s (addrOff r.addr) r.zone (r.world && !r.prefetch)

/-- A request reaches the home: the checks of R239 in order, then the line (R187, R196, R197, R223, R226, R244, R257,
R258, R260). -/
def takeRequest (s : State) (k : ReqKind) (r : CohReq) (credit : Option Nat) (e : ReadFinding) (verify : Nat) : State :=
  let wait := fun (s : State) => holdWaiting s ⟨k, r, credit, e, verify⟩
  let serve := fun (s : State) (fl : Nat) => if mustWait s fl r.zone then wait s else admitRequest s k r credit e verify
  if hubUp s = false ∨ r.addr.bit 63 ∨ addrDev r.addr ≠ s.devId then s
  else if Table.get noFlag s.fab.lostMap r.agent.dev ∨ (r.rs && stampKnown s r.stamp) then s
  else if s.home.lostQueue ≠ [] then wait s
  else
    match requestCheck s r with
    | .refused reason key =>
      if isMaint k ∧ reason = 6 then maintVoid (faultAt s 0x05 0 6 r.stamp r.addr 0 r.zone) r
      else sendErr (if key ∧ r.prefetch = false then fault s (keyRefusal r.stamp r.addr r.zone) else s) r reason
    | .cellared => if isMaint k then maintVoid s r else if r.prefetch then sendErr s r 4 else holdForDecant s k r
    | .transit true => if isMaint k then maintVoid s r else if r.prefetch then sendErr s r 4 else holdForDecant s k r
    | .transit false =>
      let p := addrOff r.addr / 4096
      if r.prefetch then sendErr s r 4 else serve (touchPage s p) ((getPage s p).loc * 32 + addrOff r.addr / 128 % 32)
    | .line fl => serve s fl

/-- What held requests back is over: they are taken again in their order; one that must still wait joins the end anew. -/
def resumeWaiting (s : State) : State :=
  s.mem.waiting.foldl (fun s w => takeRequest s w.kind w.req w.credit w.finding w.verify)
    { s with mem := { s.mem with waiting := [] } }

/-! ## Answers -/

/-- Dirty data that came in goes to the line's frame (R222 step 3). -/
def putBack (s : State) (t : Txn) : State :=
  match t.data, frameOf s (t.line * 128) with
  | some l, some fl => homeWrite s fl t.dataZone t.dataPoison l 0
  | _, _ => s

/-- A request that has waited for the home's own transaction goes on without a new admission (R222 step 4); where its page
may no longer be reached in the caches, as a new one. A line that it leaves free goes to the oldest credit. -/
def goOn (s : State) (k : ReqKind) (r : CohReq) (e : ReadFinding) : State :=
  let li := addrOff r.addr / 128
  let s := if Table.get noFlag s.fab.lostMap r.agent.dev then s
    else match requestCheck s r with
      | .line fl => if mustWait s fl r.zone then holdWaiting s ⟨k, r, none, e, 0⟩ else openTxn s k r e 0
      | _ => takeRequest s k { r with rs := false } none e 0
  if busy s li then s else freeLine s li

/-- A transaction whose last answer is in: the request is granted; or the line that was called in is free, and the request
that waited for it goes on (R221, R222, R226, R256). -/
def finishTxn (s : State) (t : Txn) : State :=
  if t.waiting ≠ [] ∨ t.missFrom ≠ [] ∨ t.granted.isSome then s
  else
    match t.goal with
    | .request k r => grant s t k r 0
    | .backInv k r =>
      let s := putBack s t
      let s := { s with home := { s.home with backInv := satAdd 32 s.home.backInv 1 } }
      goOn (freeLine (setDir s t.line DirEntry.free) t.line) k r t.finding
    | .settle (some (k, r)) => goOn (dropTxn (setDir (putBack s t) t.line DirEntry.free) t.line) k r t.finding
    | .settle none => freeLine (setDir (putBack s t) t.line DirEntry.free) t.line

def putTxn (s : State) (t : Txn) : State :=
  { s with home := { s.home with txns := s.home.txns.map (fun x => if x.line = t.line then t else x) } }

def findTxn (s : State) (li : Nat) : Option Txn := s.home.txns.find? (fun t => t.line == li)

/-- A write-back or notice from an agent is used as that agent's answer, or as the event that its answer awaits (R224,
R225). -/
def absorbAnswer (t : Txn) (a : Agent) (zone : Nat) (data : Option Line) (poison : Bool) : Txn :=
  { t with
    missFrom := t.missFrom.filter (· != a)
    waiting := if t.missFrom.contains a then t.waiting.filter (fun w => w.1 != a) else t.waiting
    data := match data with | some l => some l | none => t.data
    dataPoison := t.dataPoison || (data.isSome && poison)
    dataZone := if data.isSome then zone else t.dataZone
    absorbed := t.absorbed ++ [(a, data, poison)] }

/-- A write-back that a sweep sends again counts only where the directory records the sender as owner and none from it
is recorded (R321). -/
def evictionStands (s : State) (li : Nat) (a : Agent) : Bool :=
  (match Assoc.get s.home.dir li with | some e => e.dstate != 1 && e.owner == a | none => false) &&
    (match findTxn s li with | some t => !(t.absorbed.any (fun x => x.1 == a)) | none => true)

/-- A write-back or an eviction notice at the home, in the three cases of R224. -/
def takeEviction (s : State) (a : Agent) (stamp addr : Word) (zone : Nat) (poison : Bool) (data : Option Line)
    (verify : Nat) : State :=
  let li := addrOff addr / 128
  let ack := fun (s : State) => respond s .wbAck a zone stamp addr []
  let toMem := fun (s : State) =>
    match data, frameOf s (li * 128) with
    | some l, some fl => homeWrite s fl zone poison l verify
    | _, _ => s
  match findTxn s li with
  | none => ack (forgetAgent (toMem s) li a)
  | some t =>
    if t.missFrom.contains a ∨ t.waiting.any (fun w => w.1 == a) then
      let t := absorbAnswer t a zone data poison
      finishTxn (ack (putTxn (forgetAgent s li a) t)) t
    else ack (forgetAgent (toMem s) li a)

end Sys2Proof.Machine
end

