-- ==== Sys2Proof/Machine/AgentOps.lean ====
section
/-! DEFINITION. The caching agents: requests, the state table, evictions, installs, the near cache's replacement
(R178 to R187, R214 to R218, R223, R225). -/

namespace Sys2Proof.Machine

/-! ## Requests of a quadrant -/

/-- Why a request never leaves the module: bits [62:57] of the address (R233), no module with that device ID (R309), a
lost home (R227). -/
def reqRefused (s : State) (addr : Word) : Option Nat :=
  if addr.field 62 57 ≠ 0 then some 3
  else if addrDev addr = s.devId then none
  else deviceGone s (addrDev addr)

/-- A core's quadrant sends a request and waits for its answer. -/
def sendReq (s : State) (core : Nat) (k : ReqKind) (addr : Word) (zone : Nat) (world prefetch forStore bnd : Bool)
    (exc : Option Exc) : State :=
  let (st, s) := issueCoreStamp s core
  let q := coreQuad core
  let r : CohReq := ⟨⟨s.devId, q⟩, st, BitVec.ofNat 64 (addr.toNat / 128 * 128), zone, world, prefetch, false, false⟩
  let s := { s with reqs := s.reqs ++ [⟨q, core, k, r, forStore, 0, none, now s, bnd, exc⟩] }
  sendFlit s (reqFlit s k r core)

/-- Whether the quadrant already waits for a line. -/
def reqPending (s : State) (q gl : Nat) : Bool := s.reqs.any (fun r => r.quad == q && globalLine r.req.addr == gl)

def delReq (s : State) (stamp : Word) : State := { s with reqs := s.reqs.filter (fun r => r.req.stamp != stamp) }

/-! ## Evictions (R218, R225) -/

/-- A line leaves a quadrant: M and O by WrBack, E by EvictClean, both kept in the write-back buffer until WbAck; S
silently. -/
def evictLine (s : State) (q gl : Nat) : State :=
  let l := getLine s q gl
  let addr := BitVec.ofNat 64 (gl * 128)
  let s := dropLine s q gl
  match l.st with
  | .i | .s => s
  | st =>
    let (sp, s) := issueCoreStamp s (68 * q)
    let s := { s with wbs := s.wbs ++ [⟨q, gl, st, l.data, l.zone, l.poison, sp, now s⟩] }
    let f := mkFlit s (if st = .e then .evictClean else .wrBack) (addrDev addr) 0x120 l.zone sp [addr]
    sendFlit s { f with qmask := 2 ^ q, steid := quadTeid q, poison := l.poison, line := if st = .e then none else some l.data,
                        more := if st = .e then 0 else 1 }

/-! ## L3 slices and L2 (R178, R179, R192) -/

/-- A line leaves an L3 slice, and first every core of its cluster. -/
def leaveSlice (s : State) (k gl : Nat) : State :=
  let drop := fun (n : Nat) (c : Core) => if coreCluster n = k then dropCopies gl c else c
  { s with
    cores := Table.mapListed Core.reset drop s.cores, l3 := Table.upd noLines s.l3 k (fun ls => ls.filter (· != gl)) }

/-- Whether a slice of a quadrant holds a line. -/
def inSlices (s : State) (q gl : Nat) : Bool := (List.range 4).any (fun j => (getSlice s (4 * q + j)).contains gl)

/-- A line leaves an L3 slice; it leaves the quadrant where no other slice of it holds the line. -/
def sliceEvict (s : State) (k gl : Nat) : State :=
  let s := leaveSlice s k gl
  if inSlices s (k / 4) gl then s else evictLine s (k / 4) gl

/-- The ways of an L3 slice that are in use. -/
def sliceWays (s : State) (k : Nat) : Nat := 16 - Table.get zeroOf s.sxt.l3WaysOff k

/-- A line enters a cluster's L3 slice: 16 ways less those retired, 8,192 sets; which line of a full set leaves is open. -/
def sliceAdd (s : State) (k gl : Nat) : State :=
  let ls := getSlice s k
  let put := fun (s : State) => { s with l3 := Table.upd noLines s.l3 k (fun ls => ls ++ [gl]) }
  if ls.contains gl then s
  else
    let set := ls.filter (fun x => x % 8192 == gl % 8192)
    if set.length < sliceWays s k then put s
    else
      match set[Config.freeNat s.fresh % set.length]? with
      | some x => put (sliceEvict (nextFree s) k x)
      | none => s

/-- A line enters a core's L2, and with it the slice of the core's cluster: 8 ways less those retired, 512 sets; the line
that leaves is open, and leaves the near cache and the L1I with it, its reservation lost (R178, R179, R192, R212). -/
def l2Add (s : State) (n gl : Nat) : State :=
  let s := sliceAdd s (coreCluster n) gl
  let c := getCore s n
  if c.l2.contains gl then s
  else
    let set := c.l2.filter (fun x => x % 512 == gl % 512)
    if set.length < 8 - c.l2WaysOff then updCore s n (fun c => { c with l2 := c.l2 ++ [gl] })
    else
      match set[Config.freeNat s.fresh % set.length]? with
      | some x => updCore (nextFree s) n (fun c => let c := dropCopies x c; { c with l2 := c.l2 ++ [gl] })
      | none => s

/-! ## The near cache (R183) -/

def getEntry (nr : Near) (i : Nat) : NearEntry := Table.get noEntry nr.entries i

/-- The entry that holds a line. -/
def nearIndex (nr : Near) (gl : Nat) : Option Nat :=
  (List.range 64).find? (fun i => (getEntry nr i).valid && (getEntry nr i).line == gl)

/-- A near cache that no longer waits for a line (R184). -/
def endWait (nr : Near) (gl : Nat) : Near :=
  { nr with
    fills := nr.fills.filter (· != gl), bndFills := nr.bndFills.filter (· != gl)
    blocked := if nr.blocked = some gl then none else nr.blocked }

/-- Follow the tree bits from the root: node k has children 2k and 2k + 1; a bit 0 designates the lower half. -/
def plruWalk (tree : Nat) : Nat → Nat → Nat
  | 0, node => node - 64
  | d + 1, node => plruWalk tree d (2 * node + (if tree.testBit (node - 1) then 1 else 0))

def plruVictim (tree : Nat) : Nat := plruWalk tree 6 1

/-- Set the six bits on an entry's path to point away from it (R183). -/
def plruTouch (tree i : Nat) : Nat :=
  (List.range 6).foldl (fun t d =>
    let node := (64 + i) / 2 ^ (d + 1)
    let right := (64 + i) / 2 ^ d % 2 == 1
    let b := 2 ^ (node - 1)
    if right then (if t.testBit (node - 1) then t - b else t) else (if t.testBit (node - 1) then t else t + b)) tree

/-- A fill uses the lowest invalid entry, else the one the tree designates. -/
def fillSlot (nr : Near) : Nat :=
  match (List.range 64).find? (fun i => !(getEntry nr i).valid) with
  | some i => i
  | none => plruVictim nr.plru

/-- Write a line into the near cache (R183). The fill of a line that maintenance has met does not move the tree (R195). -/
def nearInstall (nr : Near) (gl : Nat) (bonded met : Bool) : Near :=
  let touch := fun (nr : Near) (i : Nat) => if met then nr else { nr with plru := plruTouch nr.plru i }
  match nearIndex nr gl with
  | some i => touch nr i
  | none =>
    let i := fillSlot nr
    touch { nr with entries := Table.set noEntry nr.entries i ⟨true, gl, false, bonded⟩ } i

/-! ## Data arrives (R217, R218) -/

/-- A line enters its quadrant: the agent's state and the requesting core's L2 (R178, R217). -/
def installLine (s : State) (r : AgentReq) (m : DataMsg) : State :=
  let gl := globalLine r.req.addr
  let s := setLine s r.quad gl ⟨m.state, m.data, r.req.zone, m.bonded || r.bnd, m.poison⟩
  let s := l2Add s r.core gl
  updCore s r.core (fun c =>
    if c.near.enabled ∨ c.near.cleaning ∨ c.near.blocked ≠ some gl then c else { c with near := { c.near with blocked := none } })

/-! ## Maintenance that meets a fill (R195) -/

/-- A core without the fill that it waits for: the bundle whose load waits keeps the data, and the fill does not move the
tree. -/
def meetFillOf (gl : Nat) (l : AgentLine) (c : Core) : Core :=
  let waits := c.near.blocked == some gl
  if waits || c.near.fills.contains gl then
    { c with
      near := endWait c.near gl
      bundle := c.bundle.map (fun b => if waits && b.held.isSome then { b with kept := some (gl, l.data, l.poison) } else b) }
  else c

/-- Whether a core of a quadrant waits for the fill of a line that the quadrant holds. -/
def fillMet (s : State) (q gl : Nat) : Bool :=
  (getLine s q gl).st != .i && s.cores.any (fun e => coreQuad e.1 == q &&
    (e.2.near.blocked == some gl || e.2.near.fills.contains gl))

/-- The fills of a line in progress in a quadrant complete at once. -/
def meetFills (s : State) (q gl : Nat) : State :=
  let l := getLine s q gl
  { s with cores := Table.mapListed Core.reset (fun n c => if coreQuad n = q then meetFillOf gl l c else c) s.cores }

/-- The answer to a read that core `n` makes outside the caches reaches its bundle (R207). -/
def landRead (s : State) (n : Nat) (stamp : Word) (res : OwnRead → EngRes) : State :=
  let land := fun (g : OwnRead) => if g.stamp = stamp ∧ g.res = none then { g with res := some (res g) } else g
  if 272 ≤ n then s
  else updCore s n (fun c => { c with bundle := c.bundle.map (fun b => { b with got := b.got.map land }) })

/-- What data brings to such a read. -/
def readLanded (m : DataMsg) (g : OwnRead) : EngRes :=
  if m.poison then .poisoned else .ok ((lineBytes m.data).drop (g.addr.toNat % 128) |>.take g.size)

/-- Data answers a request: the line is installed, but for a RdOnce, which keeps no copy; CmpAck goes to the home. Without
a request that waits for it, data changes nothing. -/
def installData (s : State) (m : DataMsg) : State :=
  match findReq s m.stamp with
  | none => if m.rs then
      sendFlit s { mkFlit s .cmpAck m.home 0x120 m.zone m.stamp [m.addr] with qmask := quadBit m.quad, steid := quadTeid m.quad, rs := true } else s
  | some r =>
    let s := delReq s m.stamp
    let s := if r.kind = .rdOnce then landRead s r.core m.stamp (readLanded m) else installLine s r m
    let f := mkFlit s .cmpAck (addrDev r.req.addr) 0x120 r.req.zone m.stamp [r.req.addr]
    sendFlit s { f with qmask := quadBit r.quad, steid := quadTeid r.quad }

/-! ## Snoops (R218, R225) -/

/-- What an agent does on a snoop in a state: the state after, whether its data goes out, whether it may go to the
requester. -/
def snoopTable (op : FlitOp) (st : Moesi) : Moesi × Bool × Bool :=
  match op, st with
  | .snpFwdS, .m => (.o, true, true)
  | .snpFwdS, .o => (.o, true, true)
  | .snpFwdS, .e => (.s, true, true)
  | .snpFwdO, .m => (.i, true, true)
  | .snpFwdO, .o => (.i, true, true)
  | .snpFwdO, .e => (.i, true, true)
  | .snpFwdO, .s => (.i, false, false)
  | .snpInv, .m => (.i, true, false)
  | .snpInv, .o => (.i, true, false)
  | .snpBack, .m => (.i, true, false)
  | .snpBack, .o => (.i, true, false)
  | .snpInv, _ => (.i, false, false)
  | .snpBack, _ => (.i, false, false)
  | .snpClean, .m => (.e, true, false)
  | .snpClean, .o => (.s, true, false)
  | .snpDrop, _ => (.i, false, false)
  | _, st => (st, false, false)

/-- SnpResp (R271). -/
def sendSnpResp (s : State) (m : Snoop) (before after : Moesi) (fwd miss wbp poison : Bool) (data : Option Line) :
    State :=
  let w2 := BitVec.ofNat 64 (moesiNum before + moesiNum after * 8 + fwd.toNat * 64 + miss.toNat * 128 + wbp.toNat * 256)
  sendFlit s { mkFlit s .snpResp m.home 0x120 m.zone m.stamp [m.addr, 0, w2] with
    qmask := 2 ^ m.quad, steid := quadTeid m.quad, poison := poison, line := data, more := if data.isSome then 1 else 0 }

/-- FwdData to the requester: granted S, or M or E by the dirty flag (R218, R221, R271). -/
def sendFwd (s : State) (m : Snoop) (op : FlitOp) (dirty poison : Bool) (l : Line) : State :=
  let st := if op = .snpFwdS then Moesi.s else if dirty then .m else .e
  sendFlit s { mkFlit s .fwdData m.req.dev (0x110 + 4 * m.req.quad) m.zone m.stamp [] with
    qmask := quadBit m.req.quad, steid := quadTeid m.quad, poison := poison, line := some l, credit := moesiNum st + dirty.toNat * 8 }

/-- Answer a snoop from a copy in a state. -/
def answerFrom (s : State) (op : FlitOp) (m : Snoop) (st : Moesi) (l : Line) (poison wbp : Bool) : State :=
  let (after, out, toReq) := snoopTable op st
  let dirty := decide (st = .m ∨ st = .o)
  if out && toReq && !m.nf then sendSnpResp (sendFwd s m op dirty poison l) m st after true false wbp false none
  else sendSnpResp s m st after false false wbp (out && poison) (if out then some l else none)

/-- The snoops that maintenance sends (R221). -/
def isCall : FlitOp → Bool
  | .snpClean | .snpDrop | .snpBack => true
  | _ => false

/-- A snoop at a quadrant (R218); from the write-back buffer where that holds the line (R225); a miss where neither does
or the quadrant is off (R282). One that maintenance sends and that meets a fill completes it first, and the line is left
invalid (R195). -/
def snoopNow (s : State) (op : FlitOp) (m : Snoop) : State :=
  let gl := globalLine m.addr
  let met := isCall op && fillMet s m.quad gl
  let s := if met then meetFills s m.quad gl else s
  let l := getLine s m.quad gl
  if (getDom s (16 + m.quad)).state = 0 then sendSnpResp s m .i .i false true false false none
  else if l.st = .i then
    match s.wbs.find? (fun w => w.quad == m.quad && w.line == gl) with
    | some w => answerFrom s op m w.st w.data w.poison true
    | none => sendSnpResp s m .i .i false true false false none
  else
    let after := (snoopTable op l.st).1
    let s := answerFrom s op m l.st l.data l.poison false
    let s := if op = .snpClean then cleanNears s m.quad gl else s
    if after = .i then dropLine s m.quad gl
    else
      let s := setLine s m.quad gl { l with st := after }
      if met then evictLine s m.quad gl else s

/-- A code for a deferred snoop's message. -/
def snoopCode : FlitOp → Nat
  | .snpFwdS => 0 | .snpFwdO => 1 | .snpInv => 2 | .snpClean => 3 | .snpBack => 4 | _ => 5

def snoopOfCode : Nat → FlitOp
  | 0 => .snpFwdS | 1 => .snpFwdO | 2 => .snpInv | 3 => .snpClean | 4 => .snpBack | _ => .snpDrop

/-- A snoop is answered, or put off by a core in a constrained sequence on its line (R213). -/
def deferSnoop (s : State) (op : FlitOp) (m : Snoop) : State :=
  let gl := globalLine m.addr
  match s.cores.find? (fun e => coreQuad e.1 == m.quad &&
      (match e.2.defer with | some d => d.line == gl | none => false)) with
  | some (n, _) => updCore s n (fun c => { c with
      defer := c.defer.map (fun d => { d with snoops := d.snoops ++ [(snoopCode op, m)] }) })
  | none => snoopNow s op m

/-- A snoop arrives (R213, R218). -/
def takeSnoop (s : State) (op : FlitOp) (m : Snoop) : State :=
  if ¬ (s.power.pwrOk ∧ s.power.rails ∧ s.flt.checkstop = false) then s else deferSnoop s op m

/-- The end of a deferral: its snoops are answered in order, unless another core of the quadrant puts them off (R213). -/
def endDeferral (s : State) (n : Nat) : State :=
  match (getCore s n).defer with
  | none => s
  | some d =>
    d.snoops.foldl (fun s x => deferSnoop s (snoopOfCode x.1) x.2) (updCore s n (fun c => { c with defer := none }))

end Sys2Proof.Machine
end

