-- ==== Sys2Proof/Machine/LoadOps.lean ====
section
/-! DEFINITION. How a core's loads reach memory through its near cache, prefetch, and descriptors read as such loads
(R59 to R62, R66, R183 to R187, R202, R207). -/

namespace Sys2Proof.Machine

/-- Bytes of the store buffer laid over what memory holds: a load sees its core's own earlier stores (R62, R202).
A bonded store is not forwarded to an open access (R464). -/
def forward (buf : List BufEntry) (world : Bool) (addr : Nat) (bs : List Byte) : List Byte :=
  buf.foldl (fun bs e =>
    if e.maint.isSome ∨ e.typ ≠ 0 ∨ (e.world && !world) = true then bs
    else bs.zipIdx.map (fun x =>
      let a := addr + x.2
      let b := e.addr.toNat
      if b ≤ a ∧ a < b + e.size then (e.bytes).getD (a - b) x.1 else x.1)) bs

/-- Bytes that a line of a quadrant holds. -/
def lineSlice (l : AgentLine) (a n : Nat) : List Byte := ((lineBytes l.data).drop (a % 128)).take n

/-! ## Descriptors (R59 to R61) -/

/-- A failed check: exception code and detail. -/
structure SegFail where
  code : Nat
  detail : Nat
  deriving DecidableEq, Repr

/-- The descriptor that three words of a segment table entry hold (R59). -/
def descOf (ws : List Word) (sel : Nat) : SegReg :=
  ⟨wordAt ws 0, BitVec.ofNat 64 ((wordAt ws 1).field 56 0), BitVec.ofNat 16 ((wordAt ws 2).field 15 0), BitVec.ofNat 16 sel⟩

def SegReg.bit (d : SegReg) (i : Nat) : Bool := d.attr.getLsbD i
def SegReg.typ (d : SegReg) : Nat := d.attr.toNat / 32 % 4

/-- Checks 2 to 8 of R61 in order: `own` applies checks 3 and 4 with this privilege and world where given, `tgt` is the
target register, `viaLdseg` that LDSEG makes the load. -/
def checkDesc (d : SegReg) (priv : Option Bool) (world : Option Bool) (tgt : Nat) (viaLdseg : Bool) : Option SegFail :=
  let hi := d.base.toNat + d.limit.toNat
  if !(d.bit 15) || d.attr.toNat / 2 ^ 10 % 32 != 0 || d.attr.toNat % 4 != 0 then some ⟨0x05, 2⟩
  else if priv = some false ∧ d.bit 9 = false then some ⟨0x11, 0⟩
  else if world = some false ∧ d.bit 8 = true then some ⟨0x13, 1⟩
  else if d.bit 7 ≠ (tgt == 15) then some ⟨0x05, 3⟩
  else if tgt = 13 ∧ (viaLdseg || !(d.bit 4)) = true then some ⟨0x05, 4⟩
  else if 2 ^ 64 ≤ hi ∨ d.base.bit 63 ≠ (hi / 2 ^ 63 % 2 == 1) then some ⟨0x05, 5⟩
  else if d.typ = 3 ∨ (d.base.bit 63 ∧ (d.typ ≠ 2 ∨ d.bit 4)) ∨ (d.typ = 1 ∧ d.base.bit 63) then some ⟨0x05, 6⟩
  else none

/-- The global address of a selector's entry: stb + 32 × i (R59). -/
def descAddr (r : CoreRegs) (sel : Nat) : Word := r.getCtl 0 + BitVec.ofNat 64 (32 * sel)

/-! ## Prefetch and the stream table (R185 to R187) -/

/-- The prefetch mode in effect (R185, R199). -/
def pfMode (c : Core) : Nat :=
  if c.near.enabled = false then 0 else if c.near.pf = 2 ∧ c.regs.psw.bit 40 then 1 else c.near.pf

/-- The first and the last byte address of a segment. -/
def segRoom (d : SegReg) : Nat × Nat := (d.base.toNat, d.base.toNat + d.limit.toNat)

/-- Start a prefetch fill of a line for an access through a segment of normal memory with these bounds, unless R187 drops
it. -/
def prefetchLine (s : State) (n : Nat) (room : Nat × Nat) (bnd world : Bool) (zone gl : Nat) : State :=
  let c := getCore s n
  let a := BitVec.ofNat 64 (gl * 128)
  let inside := decide (room.1 ≤ gl * 128 + 127 ∧ gl * 128 ≤ room.2)
  let fill := fun (s : State) => updCore s n (fun c => { c with near := { c.near with
    fills := c.near.fills ++ [gl], bndFills := if bnd then c.near.bndFills ++ [gl] else c.near.bndFills } })
  if inside = false ∨ (bnd && !world) ∨ 4 ≤ c.near.fills.length ∨ c.near.fills.contains gl ∨
      (nearIndex c.near gl).isSome ∨ 2 ^ 50 ≤ gl then s
  else
    let q := coreQuad n
    if usable s q gl world then fill s
    else if (reqRefused s a).isSome then s
    else
      let s := fill s
      if reqPending s q gl then s
      else sendReq s n .rdShared a zone world true false bnd none

/-- Start a prefetch fill of a line for a load or PF through a segment (R187). -/
def prefetchFor (s : State) (n : Nat) (d : SegReg) (gl : Nat) : State :=
  let r := (getCore s n).regs
  if d.typ ≠ 0 then s else prefetchLine s n (segRoom d) (d.bit 8) r.w r.zone gl

/-- The stream table's entry after an access, and the line it asks for (R186). -/
def trainEntry (e : StreamEnt) (a : Nat) : StreamEnt × Option Nat :=
  let st : Int := (a : Int) - e.last
  let e1 : StreamEnt :=
    if st = e.stride ∧ st ≠ 0 then { e with conf := Nat.min (e.conf + 1) 3 }
    else if st ≠ 0 ∧ st.natAbs ≤ 2 ^ 20 then { e with stride := st, conf := 1 }
    else { e with stride := 0, conf := 0 }
  let e2 := { e1 with last := a }
  if e2.conf = 3 then
    let step : Int := if 128 ≤ e2.stride.natAbs then e2.stride else if e2.stride < 0 then -128 else 128
    let t : Int := ((a : Int) + 2 * step) / 128
    if 0 ≤ t ∧ some t.toNat ≠ e2.pfline then (e2, some t.toNat) else (e2, none)
  else (e2, none)

/-- Train the stream table on a near-cache lookup of a load; mode 2 alone issues the fill (R185, R186). The list is in order of last use, oldest first. -/
def trainStream (s : State) (n : Nat) (d : SegReg) (unit : FUnit) (a : Nat) : State :=
  let c := getCore s n
  let key := fun (e : StreamEnt) => e.off == c.regs.pc && e.unit == unit
  match c.near.streams.find? key with
  | none =>
    let keep := if c.near.streams.length < 8 then c.near.streams else c.near.streams.drop 1
    updCore s n (fun c => { c with near := { c.near with streams := keep ++ [⟨c.regs.pc, unit, a, 0, 0, none⟩] } })
  | some e =>
    let (e1, t) := trainEntry e a
    let present := fun (gl : Nat) => (nearIndex c.near gl).isSome || c.near.fills.contains gl
    let put := fun (s : State) (e : StreamEnt) =>
      updCore s n (fun c => { c with near := { c.near with streams := List.delFirst key c.near.streams ++ [e] } })
    match t with
    | none => put s e1
    | some gl => if present gl ∨ pfMode c ≠ 2 then put s e1 else prefetchFor (put s { e1 with pfline := some gl }) n d gl

/-! ## Loads (R66, R183, R184, R202) -/

/-- How an access of a syllable goes. -/
inductive LoadRes where
  | ok (bs : List Byte)
  | held
  | exc (code detail : Nat)
  deriving DecidableEq, Repr

/-- The rest of an access after its first bytes. -/
def LoadRes.after (bs : List Byte) : LoadRes → LoadRes
  | .ok t => .ok (bs ++ t)
  | r => r

/-- Whether every byte of an access comes from the core's own buffered stores (R184, R202). -/
def allForwarded (es : List BufEntry) (world : Bool) (a k : Nat) : Bool :=
  (List.range k).all (fun j => es.any (fun e =>
    e.maint.isNone && e.typ == 0 && (!e.world || world) && decide (e.addr.toNat ≤ a + j ∧ a + j < e.addr.toNat + e.size)))

/-- Bytes of a line as the core's load sees them: the quadrant's line under the core's own stores. -/
def lineLoad (s : State) (n gl : Nat) (es : List BufEntry) (world : Bool) (a k : Nat) : LoadRes :=
  let l := getLine s (coreQuad n) gl
  if l.poison then .exc 0x20 0 else .ok (forward es world a (lineSlice l a k))

/-- The near cache waits for a line that an access through a segment of this world asks for (R180, R184). -/
def blockNear (s : State) (n gl : Nat) (bnd : Bool) : State :=
  updCore s n (fun c => { c with near := { c.near with
    blocked := some gl, bndFills := if bnd then c.near.bndFills ++ [gl] else c.near.bndFills } })

/-- A demand miss blocks the near cache until its line is there (R184); a prefetch of the line in flight is waited for;
mode 1 fetches the next line as well (R185). -/
def demandMiss (s : State) (n : Nat) (d : SegReg) (gl : Nat) (kind : ReqKind) (forStore : Bool) (e : Option Exc) : State :=
  let c := getCore s n
  let q := coreQuad n
  let inFlight := c.near.fills.contains gl
  let s := blockNear s n gl (d.bit 8)
  let s := if inFlight ∨ reqPending s q gl ∨ (kind = .rdShared ∧ usable s q gl c.regs.w) then s
    else sendReq s n kind (BitVec.ofNat 64 (gl * 128)) c.regs.zone c.regs.w false forStore (d.bit 8) e
  if pfMode c = 1 then prefetchFor s n d (gl + 1) else s

/-- A load has the data that it waited for when the near cache began to be cleaned (R189). -/
def endServed (gl : Nat) (c : Core) : Core :=
  if c.near.served = some gl then { c with near := { c.near with served := none } } else c

/-- The line, kept for the open bundle, whose fill maintenance has met (R195). -/
def keptLine (c : Core) (gl : Nat) : Option (Line × Bool) :=
  match c.bundle with
  | none => none
  | some b =>
    match b.kept with
    | some (k, l, p) => if k = gl then some (l, p) else none
    | none => none

/-- A load's access to one line through a normal segment. `train` says that the lookup trains the stream table; `e` is the
access error that a refusal raises. -/
def loadLine (s : State) (n : Nat) (d : SegReg) (unit : FUnit) (es : List BufEntry) (train : Bool) (a : Word) (k : Nat)
    (e : Option Exc) : LoadRes × State :=
  let c := getCore s n
  let w := c.regs.w
  let gl := globalLine a
  let q := coreQuad n
  if allForwarded es w a.toNat k then (.ok (forward es w a.toNat (List.replicate k 0)), s)
  else
  match keptLine c gl with
  | some (l, p) => (if p then .exc 0x20 0 else .ok (forward es w a.toNat (((lineBytes l).drop (a.toNat % 128)).take k)), s)
  | none =>
  if c.near.blocked.isSome then (.held, s)
  else if a.field 63 57 ≠ 0 then (.exc 0x21 3, s)
  else
    match (if usable s q gl w then none else reqRefused s a) with
    | some r => (.exc 0x21 r, s)
    | none =>
      if c.near.enabled then
        let s := if train ∧ c.regs.psw.bit 40 = false then trainStream s n d unit a.toNat else s
        match nearIndex c.near gl with
        | some i =>
          if usable s q gl w then
            (lineLoad s n gl es w a.toNat k,
              updCore s n (fun c => { c with near := { c.near with plru := plruTouch c.near.plru i } }))
          else (.held, demandMiss s n d gl .rdShared false e)
        | none => (.held, demandMiss s n d gl .rdShared false e)
      else if usable s q gl w then (lineLoad s n gl es w a.toNat k, updCore (l2Add s n gl) n (endServed gl))
      else (.held, demandMiss s n d gl .rdShared false e)

/-- A load of any length through a segment, line by line, that trains no stream: a descriptor or a stack entry (R62, R63,
R186; log entry 216). -/
def loadRun : Nat → State → Nat → SegReg → List BufEntry → Word → Nat → Option Exc → LoadRes × State
  | 0, s, _, _, _, _, _, _ => (.ok [], s)
  | fuel + 1, s, n, d, es, a, k, e =>
    if k = 0 then (.ok [], s)
    else
      let j := Nat.min k (128 - a.toNat % 128)
      match loadLine s n d .x es false a j e with
      | (.ok bs, s) =>
        let x := loadRun fuel s n d es (a + BitVec.ofNat 64 j) (k - j) e
        (x.1.after bs, x.2)
      | r => r

/-- The segment table as a segment of normal memory: stl entries of 32 bytes at stb (R59). -/
def tableSeg (r : CoreRegs) : SegReg := ⟨r.getCtl 0, BitVec.ofNat 64 (32 * (r.getCtl 1).field 16 0 - 1), 0, 0⟩

/-- How loading a descriptor goes. -/
inductive DescRes where
  | ok (d : SegReg)
  | held
  | fail (f : SegFail)
  deriving DecidableEq, Repr

/-- Load a descriptor: check 1, the entry by an ordinary 32-byte load over the stores `es`, the other checks. A refused read
is code 0x21 with its reason, poisoned data code 0x20 (R61, R62, R80). -/
def readDesc (s : State) (n : Nat) (es : List BufEntry) (sel : Nat) (priv world : Option Bool) (tgt : Nat) (viaLdseg : Bool)
    (e : Option Exc) : DescRes × State :=
  let r := (getCore s n).regs
  if (r.getCtl 1).field 16 0 ≤ sel then (.fail ⟨0x05, 1⟩, s)
  else
    match loadRun 3 s n (tableSeg r) es (descAddr r sel) 32 e with
    | (.held, s) => (.held, s)
    | (.exc c t, s) => (.fail ⟨c, t⟩, s)
    | (.ok bs, s) =>
      let d := descOf (bytesWords 4 bs) sel
      match checkDesc d priv world tgt viaLdseg with
      | some f => (.fail f, s)
      | none => (.ok d, s)

/-! ## Ownership for stores (R183, R184, R199) -/

/-- The ownership that a store needs: none where the quadrant may write the line; else Upgrade from S or O, RdOwn from
I. -/
def ownKind (s : State) (n gl : Nat) (w : Bool) : Option ReqKind :=
  let q := coreQuad n
  if usable s q gl w = false then some .rdOwn
  else if ownsLine s q gl then none
  else some .upgrade

/-- Ask for ownership of a line and wait: the near cache is blocked meanwhile (R184). Where the line is not there, it is a
demand miss, and mode 1 fetches the next line as well (R185). -/
def askOwn (s : State) (n gl : Nat) (kind : ReqKind) (zone : Nat) (world bnd forStore : Bool) (e : Option Exc)
    (room : Nat × Nat) : State :=
  let s := blockNear s n gl bnd
  let s := if reqPending s (coreQuad n) gl then s
    else sendReq s n kind (BitVec.ofNat 64 (gl * 128)) zone world false forStore bnd e
  if pfMode (getCore s n) = 1 ∧ kind = .rdOwn then prefetchLine s n room bnd world zone (gl + 1) else s

/-- The near-cache entry of a line that a store has written is dirty and recently used (R183). -/
def dirtyNear (nr : Near) (gl : Nat) : Near :=
  match nearIndex nr gl with
  | none => nr
  | some i => { nr with
      entries := Table.upd noEntry nr.entries i (fun e => { e with dirty := true }), plru := plruTouch nr.plru i }

/-- The store of a STCND: into the line, which is in the core's L2, and its near-cache entry (R179, R183, R199). -/
def storeCond (s : State) (n : Nat) (a : Word) (bs : List Byte) (bnd : Bool) : State :=
  let gl := globalLine a
  updCore (l2Add (storeOwned s n a bs bnd) n gl) n (fun c => { c with near := dirtyNear c.near gl })

end Sys2Proof.Machine
end

