-- ==== Sys2Proof/Machine/CoreOps.lean ====
section
/-! DEFINITION. Reads of memory in one action for a fetch and for the start of a vcore, exception entry, and the stop of a
vcore on a double exception (R61, R79 to R86, R500). -/

namespace Sys2Proof.Machine

/-! ## Reading memory at once -/

/-- Read bytes of one line at once: from the quadrant where it holds the line (not a bonded line for an open access,
R464), else at the home, under a stamp of Relrax where none is given. -/
def peekOne (s : State) (n : Nat) (addr : Word) (k : Nat) (stamp : Word) : EngRes × State :=
  let c := getCore s n
  let l := getLine s (coreQuad n) (globalLine addr)
  if addr.field 63 57 ≠ 0 then (.err 3, s)
  else if l.st ≠ .i ∧ (l.bonded && !c.regs.w) = false then
    if l.poison then (.poisoned, s) else (.ok (lineSlice l addr.toNat k), s)
  else
    match reqRefused s addr with
    | some r => (.err r, s)
    | none => readOne rep s addr k c.regs.zone c.regs.w stamp

/-- Read bytes at once, line by line, with forwarding from the store buffer. -/
def peekBytes : Nat → State → Nat → Word → Nat → Word → EngRes × State
  | 0, s, _, _, _, _ => (.ok [], s)
  | fuel + 1, s, n, addr, k, stamp =>
    if k = 0 then (.ok [], s)
    else
      let j := min k (128 - addr.toNat % 128)
      match peekOne s n addr j stamp with
      | (.ok bs, s) =>
        match peekBytes fuel s n (addr + BitVec.ofNat 64 j) (k - j) stamp with
        | (.ok t, s) =>
          let c := getCore s n
          (.ok (forward c.buf c.regs.w addr.toNat bs ++ t), s)
        | r => r
      | r => r

/-- Load a descriptor for the start of a vcore at once: check 1, the 32-byte read, the other checks. A refused read is code 0x21 with its reason,
poisoned data code 0x20. -/
def loadDesc (s : State) (n sel : Nat) (priv world : Option Bool) (tgt : Nat) (viaLdseg : Bool) :
    Except SegFail SegReg × State :=
  let r := (getCore s n).regs
  if (r.getCtl 1).field 16 0 ≤ sel then (.error ⟨0x05, 1⟩, s)
  else
    match peekBytes 3 s n (descAddr r sel) 32 0 with
    | (.ok bs, s) =>
      let d := descOf (bytesWords 4 bs) sel
      match checkDesc d priv world tgt viaLdseg with
      | some f => (.error f, s)
      | none => (.ok d, s)
    | (.poisoned, s) => (.error ⟨0x20, 0⟩, s)
    | (.err k, s) => (.error ⟨0x21, k⟩, s)

/-! ## Exceptions (R79 to R86) -/

/-- The priority number of a code (R79). -/
def excPriority (code : Nat) : Nat :=
  match code with
  | 0x01 => 1 | 0x02 => 2 | 0x12 => 3 | 0x10 => 4 | 0x11 => 5 | 0x13 => 6 | 0x05 => 7 | 0x06 => 8
  | 0x04 => 9 | 0x08 => 9 | 0x20 => 10 | 0x21 => 10 | 0x07 => 11 | 0x14 => 12 | 0x18 => 13 | _ => 99

/-- The exception that a bundle reports: the lowest priority number, then the lowest unit; within one syllable the one
its rule orders first, which stands first in the list (R82). -/
def pickExc (l : List Exc) : Option Exc :=
  l.foldl (fun best e =>
    match best with
    | none => some e
    | some b =>
      if excPriority e.code < excPriority b.code ∨ (excPriority e.code = excPriority b.code ∧ e.unit < b.unit) then some e
      else some b) none

/-- The word of ecause (R58). -/
def causeWord (e : Exc) : Word :=
  BitVec.ofNat 64 (e.detail % 65536 * 2 ^ 16 + e.seg % 16 * 2 ^ 12 + e.unit % 8 * 2 ^ 8 + e.code % 256)

/-- The number of the first control register of the set in use: evb, or bevb with psw.w = 1 (R57, R83). -/
def excBase (r : CoreRegs) : Nat := if r.w then 0x10 else 0x02

/-- A store of a completed bundle that the home refuses is discarded with a class C2 fault (R586); one whose home is
lost with class C3 (R227). -/
def refusedStore (s : State) (addr : Word) (zone reason : Nat) (world : Bool) : State :=
  fault s { mkReport 0x05 (if reason = 5 then 3 else 2) reason 0 addr 0 zone with bonded := world }

/-- A write-combining buffer of core `n` leaves for its target under a stamp of the core: its written bytes and no others
(R44, R208). -/
def sendWc (n : Nat) (s : State) (b : WcBuf) : State :=
  let a := BitVec.ofNat 64 (b.line * 128)
  let (st, s) := issueCoreStamp s n
  match writeMask rep s n false a b.mask b.data b.zone b.world st with
  | (.err r, s) => refusedStore s a b.zone r b.world
  | (_, s) => s

/-- All write-combining buffers of a core leave, oldest first (R208). -/
def leaveWc (s : State) (n : Nat) : State :=
  let c := getCore s n
  c.wc.foldl (sendWc n) (updCore s n (fun c => { c with wc := [] }))

/-- A double exception (R85): the vcore stops, its state is kept as an image with reason 4, and a class C3 fault names
the zone. -/
def doubleException (s : State) (n : Nat) : State :=
  let c := getCore s n
  let st := mkStamp s 0x61 (counterOf s 0x61)
  let im := mkImage s n 4 st (now s) [] true
  let s := putImage s n im
  let s := updCore s n (fun c => { c with run := false, bundle := none, rsv := none, waiting := false, entering := none })
  let s := match vcoreOn s n with
    | some (z, v) => updVcore s z v (fun x => { x with state := 1 })
    | none => s
  fault s { mkReport 0x13 3 4 0 0 (BitVec.ofNat 64 (n + 4 * 256)) im.zone with
    quad := some (coreQuad n), bonded := c.regs.w }

/-- The registers at the handler: `d` is its code segment, `pc` the offset reported (R83). -/
def handlerRegs (r : CoreRegs) (d : SegReg) (e : Exc) (pc : Word) : CoreRegs :=
  let b := excBase r
  let evb := r.getCtl b
  let r1 := r.setCtl (b + 1) pc
  let r1 := r1.setCtl (b + 2) r.psw
  let r1 := r1.setCtl (b + 3) (BitVec.ofNat 64 (r.getSeg 13).sel.toNat)
  let r1 := r1.setCtl (b + 4) (causeWord e)
  let r1 := r1.setCtl (b + 5) e.addr
  let psw := setBit (setBit (setBit (setBit r.psw 43 true) 42 false) 41 true) 45 false
  { r1.setSeg 13 d with psw := psw, pc := BitVec.ofNat 64 (evb.field 47 0 + e.code * 64) }

/-- The part of an entry that reads the descriptor of the handler's code segment: an ordinary load, for whose line the entry
waits; the core executes nothing meanwhile. A failure is a double exception, whose image holds the registers as they stood
before the entry (R62, R83, R85; log entries 165 and 217). -/
def loadHandler (s : State) (n : Nat) (e : Exc) (pc : Word) : State :=
  let c := getCore s n
  let r := c.regs
  let wait := fun (s : State) => updCore s n (fun c => { c with entering := some (e, pc) })
  if c.near.cleaning then wait s
  else
    match readDesc s n c.buf (((r.getCtl (excBase r))).field 63 48) none (some r.w) 13 false none with
    | (.held, s) => wait s
    | (.fail _, s) => doubleException s n
    | (.ok d, s) => updCore s n (fun c => { c with regs := handlerRegs c.regs d e pc, entering := none })

/-- Entry to an exception (R83): `pc` is the bundle reported. -/
def enterException (s : State) (n : Nat) (e : Exc) (pc : Word) : State :=
  let s := leaveWc (endDeferral s n) n
  let s := updCore s n (fun c => { c with bundle := none, rsv := none, waiting := false })
  if (getCore s n).regs.psw.bit 41 ∧ e.code ≠ 0x30 then doubleException s n else loadHandler s n e pc

/-- An entry that waits tries again: its line may have come. -/
def wakeEntry (s : State) (n : Nat) : State :=
  match (getCore s n).entering with
  | none => s
  | some (e, pc) => loadHandler s n e pc

/-- An external interrupt may be taken: psw.ie = 1 and psw.ex = 0 (R86). -/
def mayInterrupt (r : CoreRegs) : Bool := r.psw.bit 42 && !(r.psw.bit 41)

end Sys2Proof.Machine
end

