-- ==== Sys2Proof/Machine/Agent.lean ====
section
/-! DEFINITION. The caching agents' rows: snoops, data, completions, retries, refusals, near-cache fills, the L2 and L3
walk (R183, R184, R191, R192, R217, R218, R223, R225, R585, R586). -/

namespace Sys2Proof.Machine

/-- SnpFwdS at a quadrant (R218). -/
def execSnpfwds (m : Snoop) (s : State) : Out := .next (takeSnoop s .snpFwdS m)

/-- SnpFwdO at a quadrant (R218). -/
def execSnpfwdo (m : Snoop) (s : State) : Out := .next (takeSnoop s .snpFwdO m)

/-- SnpInv at a quadrant (R218). -/
def execSnpinv (m : Snoop) (s : State) : Out := .next (takeSnoop s .snpInv m)

/-- SnpClean at a quadrant (R218). -/
def execSnpclean (m : Snoop) (s : State) : Out := .next (takeSnoop s .snpClean m)

/-- SnpBack at a quadrant (R218, R222). -/
def execSnpback (m : Snoop) (s : State) : Out := .next (takeSnoop s .snpBack m)

/-- SnpDrop at a quadrant (R218). -/
def execSnpdrop (m : Snoop) (s : State) : Out := .next (takeSnoop s .snpDrop m)

/-- Data comes to a request's core; an exception entry that waits for it goes on (R62, R83). -/
def takeData (s : State) (m : DataMsg) : State :=
  match findReq s m.stamp with
  | none => installData s m
  | some r => wakeEntry (installData s m) r.core

/-- Data from the home (R217, R271). -/
def execData (m : DataMsg) (s : State) : Out := .next (takeData s m)

/-- Data from the owner: an S copy is clean toward this agent; ownership comes as M or E by the dirty flag (R218,
R221). -/
def execFwddata (m : DataMsg) (s : State) : Out :=
  .next (takeData s { m with state := if m.state = .s then .s else if m.dirty then .m else .e })

/-- WbAck frees the write-back buffer (R225). -/
def execWback (quad : Nat) (addr : Word) (s : State) : Out :=
  .next { s with wbs := List.delFirst (fun w => w.quad == quad && w.line == globalLine addr) s.wbs }

/-- A CMAINT by address of a core is complete; one that met a fill of its line leaves the line invalid (R194, R195). -/
def endMaint (s : State) (core : Nat) (addr : Word) : State :=
  let mine := fun (e : BufEntry) => globalLine e.addr == globalLine addr &&
    (match e.maint with | some m => m.form == .address | none => false)
  let met := (getCore s core).maint.any (fun e => mine e && (match e.maint with | some m => m.act == 3 | none => false))
  let s := updCore s core (fun c => { c with maint := List.delFirst mine c.maint })
  if met then evictLine s (coreQuad core) (globalLine addr) else s

/-- The target has answered a write-combining or strict-device store of a core (R205, R209). -/
def endWc (s : State) (core : Nat) (stamp : Word) : State :=
  updCore s core (fun c => { c with wcOut := c.wcOut.filter (· != stamp), devOut := c.devOut.filter (· != stamp) })

/-- While the near cache is being cleaned: the line that a load of the core has waited for, so that it gets its data
(R189). -/
def servedLine (c : Core) (gl : Nat) : Option Nat :=
  let waits : Bool := match c.bundle with | some b => b.held.isSome | none => false
  if c.near.cleaning ∧ c.near.blocked = some gl ∧ (waits ∨ c.entering.isSome) then some gl else c.near.served

/-- Cmp: an Upgrade grants M, a maintenance request or a write is complete (R194, R217). -/
def execCmp (quad : Nat) (stamp addr : Word) (s : State) : Out :=
  .next (match findReq s stamp with
    | none => sendFlit s { mkFlit s .cmpAck (addrDev addr) 0x120 0 stamp [addr] with qmask := quadBit quad, steid := quadTeid quad }
    | some r =>
      if r.quad ≠ quad then s
      else
        let s := delReq s stamp
        match r.kind with
        | .upgrade =>
          let l := getLine s quad (globalLine addr)
          let s := if l.st = .i then s else setLine s quad (globalLine addr) { l with st := .m }
          wakeEntry (updCore s r.core (fun c => { c with near :=
            { c.near with blocked := none, served := servedLine c (globalLine addr) } })) r.core
        | .cleanLine | .invLine | .cleanInvLine => if r.forStore then endMaint s r.core addr else s
        | .wrLine _ | .wrPart _ _ => if r.forStore then endWc s r.core stamp else s
        | _ => s)

/-- A request is sent again: as it was, with the starving flag after 8 plain RETRYs (R223). -/
def repeatReq (s : State) (r : AgentReq) : State := sendFlit s (reqFlit s r.kind r.req r.core)

/-- RETRY at the requester: a credit is kept until RESEND; without one the request goes out again (R223). -/
def execRetry (stamp : Word) (credit : Option Nat) (s : State) : Out :=
  .next (match findReq s stamp with
    | none => s
    | some r =>
      match credit with
      | some c =>
        { s with reqs := s.reqs.map (fun x => if x.req.stamp = stamp then { x with credit := some c, sentAt := now s } else x) }
      | none =>
        let n := r.plain + 1
        let r := { r with plain := n, sentAt := now s, req := { r.req with starve := r.req.starve || decide (8 ≤ n) } }
        repeatReq { s with reqs := s.reqs.map (fun x => if x.req.stamp = stamp then r else x) } r)

/-- RESEND at the requester: the credited request is sent with its credit number (R217, R223). -/
def execResend (stamp : Word) (s : State) : Out :=
  .next (match findReq s stamp with
    | none => s
    | some r =>
      match r.credit with
      | none => s
      | some c => sendFlit s { reqFlit s r.kind r.req r.core with op := .resendReq, crv := true, credit := c })

/-- A CMAINT by address on the line waits at the head of the store buffer (R195). -/
def maintMet (c : Core) (line : Nat) : Bool :=
  match c.buf with
  | e :: _ => globalLine e.addr == line && (match e.maint with | some m => m.form == .address | none => false)
  | [] => false

/-- A fill completes: the line stands in the near cache, with the bonded bit of the segment that asked for it, and a
demand miss on it no longer blocks (R180, R183, R184, R189, R195). Where the line has left the quadrant meanwhile, the
access that waited asks again. -/
def execNearCacheFill (core line : Nat) (s : State) : Out :=
  let c := getCore s core
  let l := getLine s (coreQuad core) line
  .next (if c.near.blocked ≠ some line ∧ ¬ c.near.fills.contains line then s
    else if l.st = .i then
      if reqPending s (coreQuad core) line then s
      else wakeEntry (updCore s core (fun c => { c with near := endWait c.near line })) core
    else
      let s := updCore (l2Add s core line) core (fun c =>
        let bnd := l.bonded || c.near.bndFills.contains line
        let nr := if c.near.enabled then nearInstall c.near line bnd (maintMet c line) else c.near
        { c with near := { endWait nr line with served := servedLine c line } })
      wakeEntry s core)

/-- A deferral ends 256 core cycles after its LDRSV at the latest (R213). -/
def execReservationDeferralTimeout (core : Nat) (s : State) : Out := .next (endDeferral s core)

/-! ## The background walker (R191, R192) -/

/-- What the walker does with one finding (R191). -/
def walkOne (s : State) (f : WalkFinding) : State :=
  let q := if f.l3 then f.unit / 4 else coreQuad f.unit
  let src := if f.l3 then 0x03 else 0x02
  let det := BitVec.ofNat 64 (if f.l3 then f.unit else f.unit + 3 * 2 ^ 16)
  let l := getLine s q f.line
  let addr := BitVec.ofNat 64 (f.line * 128)
  let count := fun (s : State) (n : Nat) =>
    if f.l3 then s else updCore s f.unit (fun c => { c with l2Cor := satAdd 16 c.l2Cor n })
  match f.err with
  | .corrected => faultAt (count s 1) src 0 0 0 addr det l.zone
  | .cleanRefetch =>
    let s := if f.l3 then leaveSlice s f.unit f.line else updCore s f.unit (dropCopies f.line)
    let s := if f.l3 ∧ inSlices s q f.line = false then dropLine s q f.line else s
    faultAt (count s 1) src 0 0 0 addr det l.zone
  | .dirtyPoison =>
    let s := if l.st = .i then s else setLine s q f.line { l with poison := true }
    let s := if f.l3 then s else updCore s f.unit (fun c => { c with l2Poison := satAdd 12 c.l2Poison 1 })
    faultAt s src 2 0 0 addr det l.zone
  | .tagRepair => faultAt (count s 1) src 0 0 0 addr det l.zone
  | .tagsLost => fault s { mkReport src 4 0 0 addr det l.zone with quad := some q }

/-- The key of a way of an L2 or of an L3 slice with the index of a line, for the counts of one watch (R192). -/
def wayKey (f : WalkFinding) : Nat :=
  (((if f.l3 then 1 else 0) * 512 + f.unit) * 16 + f.way % 16) * 8192 + f.line % (if f.l3 then 8192 else 512)

/-- The lines that a retired way held, of a cache's lines `ls` with `m` sets of `cap` ways: `own` from its set; from every
other one which line, or none while the set has room, is open (R192). -/
def wayLines (ls : List Nat) (m cap own fresh : Nat) : List Nat :=
  ((ls.map (· % m)).eraseDups).filterMap (fun i =>
    let set := ls.filter (fun x => x % m == i)
    if set.contains own then some own
    else set[Config.freeNat (fresh + i) % (if cap ≤ set.length then set.length else set.length + 1)]?)

/-- A way leaves service: its lines are cleaned and invalidated first. An L2's data goes to its L3 slice, an L3 slice's to
the homes (R179, R192). -/
def clearWay (s : State) (f : WalkFinding) (off : Nat) : State :=
  if f.l3 then
    let out := wayLines (getSlice s f.unit) 8192 (sliceWays s f.unit) f.line s.fresh
    let s := out.foldl (fun s gl => sliceEvict s f.unit gl) { s with fresh := s.fresh + 8192 }
    { s with sxt := { s.sxt with l3WaysOff := Table.upd zeroOf s.sxt.l3WaysOff f.unit (· + 1) } }
  else
    let out := wayLines (getCore s f.unit).l2 512 (8 - off) f.line s.fresh
    updCore { s with fresh := s.fresh + 512 } f.unit (fun c =>
      let c := out.foldl (fun c gl => dropCopies gl c) c
      { c with l2WaysOff := c.l2WaysOff + 1 })

/-- A way that reports corrected errors at one index three times within one watch is retired: at most 2 of an L2 and 4
of an L3 slice; a further one is a class C2 fault (R192). The logbook names the unit's low 8 bits; the detail holds the
way, bit 4 for an L3 slice, and the unit's high bits (log entry 187). -/
def retireWay (s : State) (f : WalkFinding) : State :=
  let off := if f.l3 then Table.get zeroOf s.sxt.l3WaysOff f.unit else (getCore s f.unit).l2WaysOff
  let det := BitVec.ofNat 64 (if f.l3 then f.unit else f.unit + 3 * 2 ^ 16)
  if (if f.l3 then 4 else 2) ≤ off then faultAt s (if f.l3 then 0x03 else 0x02) 2 0 0 0 det 0
  else
    let more := f.way % 16 + f.l3.toNat * 16 + f.unit / 256 * 32
    logAdd (clearWay s f off) 0x0014 0 [BitVec.ofNat 64 (3 + f.unit % 256 * 2 ^ 8 + more * 2 ^ 16)]

/-- The walk of every L2 and L3 set, once every 2^36 mt, with what it found (R192). -/
def execL2L3Walk (findings : List WalkFinding) (s : State) : Out :=
  .next (if ¬ hubUp s then s
    else findings.foldl (fun s f =>
      let s := walkOne s f
      if f.err = .corrected then
        let k := wayKey f
        let s := { s with sxt := { s.sxt with wayErrs := Table.upd zeroOf s.sxt.wayErrs k (· + 1) } }
        if Table.get zeroOf s.sxt.wayErrs k = 3 then retireWay s f else s
      else s) s)

end Sys2Proof.Machine
end

