-- ==== Sys2Proof/Machine/IoOps.lean ====
section
/-! DEFINITION. Register writes that are not performed, and their records (R7, R9, R18, R514, R583). -/

namespace Sys2Proof.Machine

/-- A register of the main domain answers while PWR_OK is asserted (R12): `t` is the state after the access. -/
def mainReg (s t : State) : State := if s.power.pwrOk then t else s

/-- A register write that its owning rule discards: class C0 from source 0x11 with the I/O offset (R514). -/
def discard (s : State) (q : IoReq) (off : Nat) : State :=
  faultAt s 0x11 0 0 q.stamp 0 (BitVec.ofNat 64 off) q.zone

/-- An open-world write to an RWB field (R583). -/
def rwbIgnored (s : State) (q : IoReq) (off : Nat) : State :=
  faultAt s 0x14 0 0 q.stamp (BitVec.ofNat 64 off) 3 q.zone

/-- An open-world attempt to gate an owned block: that bit alone is ignored, with a class C0 record and a logbook entry
(R474, R514, R535). -/
def gateIgnored (s : State) (q : IoReq) (off : Nat) : State :=
  let w := BitVec.ofNat 64 off
  logAdd (faultAt s 0x14 0 0 q.stamp w 1 q.zone) 0x0043 q.stamp [w, q.stamp]

/-- Of the bits that a write newly sets, those that an open-world write may not set, since their blocks are owned
(R474). -/
def ownedBits (q : IoReq) (owned old new : Nat) : Nat := if q.world then 0 else new &&& owned &&& (new ^^^ old)

/-- The value a gating field takes: owned bits are ignored, and the attempt recorded (R474). -/
def gateField (s : State) (q : IoReq) (off owned old new : Nat) : Nat × State :=
  let b := ownedBits q owned old new
  (new ^^^ b, if b = 0 then s else gateIgnored s q off)

end Sys2Proof.Machine
end

