-- ==== Sys2Proof/Machine/FabOps.lean ====
section
/-! DEFINITION. Topology, routing tables, ports, the lost map, and management messages of the fabric (R285, R292,
R304 to R309, R313 to R324). -/

namespace Sys2Proof.Machine

/-! ## Topology (R304 to R307) -/

/-- Modules of a system. -/
def moduleCount (mesh : Bool) (sizes : List Nat) : Nat :=
  if mesh then sizes.getD 0 1 else sizes.foldl (· * ·) 1

/-- The coordinates of a device in mixed radix (R305). -/
def coordsOf : List Nat → Nat → List Nat
  | [], _ => []
  | k :: t, e => e % max 1 k :: coordsOf t (e / max 1 k)

/-- The device at given coordinates (R305). -/
def idOf : List Nat → List Nat → Nat
  | k :: ks, c :: cs => c + k * idOf ks cs
  | _, _ => 0

/-- The device and port at the other end of port `p` of device `i`, where the topology has such a link (R292, R305). -/
def linkEnd (mesh : Bool) (sizes : List Nat) (i p : Nat) : Option (Nat × Nat) :=
  if mesh then
    let n := sizes.getD 0 1
    if p + 1 < n then some ((i + p + 1) % n, n - p - 2) else none
  else
    let d := p / 2
    let k := sizes.getD d 1
    if k ≤ 1 then none
    else
      let c := coordsOf sizes i
      let x := c.getD d 0
      let y := if p % 2 = 0 then (x + 1) % k else (x + k - 1) % k
      some (idOf sizes (c.set d y), if p % 2 = 0 then p + 1 else p - 1)

/-- The list shows the link at port `p` of device `i` as not UP; a link is listed from the lower device's end (R507). -/
def linkListed (mesh : Bool) (sizes : List Nat) (down : List (Nat × Nat)) (i p : Nat) : Bool :=
  match linkEnd mesh sizes i p with
  | none => true
  | some (j, q) => if j < i then down.contains (j, q) else down.contains (i, p)

/-- The path from device `i` along a port's direction crosses a listed link within `n` hops. -/
def pathListed (mesh : Bool) (sizes : List Nat) (down : List (Nat × Nat)) (p : Nat) : Nat → Nat → Bool
  | 0, _ => false
  | n + 1, i =>
    if linkListed mesh sizes down i p then true
    else match linkEnd mesh sizes i p with
      | none => true
      | some (j, _) => pathListed mesh sizes down p n j

/-- The routing entry of device `own` for device `e`: a port, or 12 for this module (R285, R306). -/
def routePort (mesh : Bool) (sizes : List Nat) (down : List (Nat × Nat)) (own e : Nat) : Option Nat :=
  if e = own then some 12
  else if moduleCount mesh sizes ≤ e then none
  else if mesh then
    let n := sizes.getD 0 1
    let p := (e + n - own - 1) % n
    if linkListed mesh sizes down own p then none else some p
  else
    let c := coordsOf sizes own
    let t := coordsOf sizes e
    match (List.range 6).find? (fun d => decide (c.getD d 0 ≠ t.getD d 0)) with
    | none => none
    | some d =>
      let k := sizes.getD d 1
      let fwd := (t.getD d 0 + k - c.getD d 0) % k
      let plus := pathListed mesh sizes down (2 * d) fwd own
      let minus := pathListed mesh sizes down (2 * d + 1) (k - fwd) own
      if fwd ≤ k / 2 then (if !plus then some (2 * d) else if !minus then some (2 * d + 1) else none)
      else (if !minus then some (2 * d + 1) else if !plus then some (2 * d) else none)

/-- A whole routing table: one byte per device, valid in bit 7 (R285). -/
def routeTable (mesh : Bool) (sizes : List Nat) (down : List (Nat × Nat)) (own : Nat) : Table Nat :=
  (List.range (moduleCount mesh sizes)).filterMap (fun e =>
    (routePort mesh sizes down own e).map (fun p => (e, 0x80 + p)))

/-- Device `a` reaches device `e` by the tables that these links give. -/
def canRoute (mesh : Bool) (sizes : List Nat) (down : List (Nat × Nat)) (e : Nat) : Nat → Nat → Bool
  | 0, _ => false
  | n + 1, a =>
    match routePort mesh sizes down a e with
    | none => false
    | some p =>
      if p = 12 then true
      else match linkEnd mesh sizes a p with
        | none => false
        | some (b, _) => canRoute mesh sizes down e n b

/-- The dateline link of port `p` of device `i` (R307). -/
def isDateline (mesh : Bool) (sizes : List Nat) (i p : Nat) : Bool :=
  let d := p / 2
  let k := sizes.getD d 1
  let x := (coordsOf sizes i).getD d 0
  if mesh ∨ k ≤ 1 then false
  else if p % 2 = 0 then x == k - 1 else x == 0

/-- The topology of a configuration image: kind and sizes from item 1's first word, laid out as HZ_CFG (R507). -/
def topoMesh (w : Word) : Bool := w.bit 63
def topoSizes (w : Word) : List Nat :=
  if w.bit 63 then [w.field 39 36 + 1]
  else (List.range 6).map (fun d => w.field (39 + 4 * d) (36 + 4 * d) + 1)

/-- The topology word of kind and sizes, bits [63:36] of HZ_CFG. -/
def topoWord (mesh : Bool) (sizes : List Nat) : Word :=
  BitVec.ofNat 64 (mesh.toNat * 2 ^ 63 +
    (sizes.zipIdx.foldl (fun a x => a + (x.1 - 1) % 16 * 2 ^ (36 + 4 * x.2)) 0))

/-! ## The active tables (R285, R286) -/

def rtTable (s : State) (par : Bool) : Table Nat := if par then s.tree.rt1 else s.tree.rt0
def setRt (s : State) (par : Bool) (t : Table Nat) : State :=
  { s with tree := if par then { s.tree with rt1 := t } else { s.tree with rt0 := t } }
def activePar (s : State) : Bool := s.vin.vintage % 2 == 1

/-- The port that a table names for a device. -/
def rtPort (s : State) (par : Bool) (dev : Nat) : Option Nat :=
  let b := Table.get zeroOf (rtTable s par) dev
  if 128 ≤ b then some (b % 16) else none

/-! ## Ports (R315, R323, R330) -/

def ports : List Nat := List.range 12
def portUp (s : State) (p : Nat) : Bool := (getPort s p).state == 2
def upPorts (s : State) : List Nat := ports.filter (portUp s)
def lostDev (s : State) (d : Nat) : Bool := Table.get noFlag s.fab.lostMap d

/-- The mirror partner that a module takes: the neighbour on its lowest UP port that qualifies (R323, R324). -/
def pickPartner (s : State) : Option Nat :=
  if s.power.straps.noMirror then none
  else (upPorts s).findSome? (fun p =>
    let x := getPort s p
    match x.nbrId with
    | some d => if x.nbrNoMirror ∨ x.nbrDivergent ∨ lostDev s d ∨ d = s.devId then none else some d
    | none => none)

/-- Take a partner, or none: without one the module is unmirrored, a class C2 fault (R324). A part of one module with no
cabled port has no neighbour that qualifies. -/
def setPartner (s : State) (p : Option Nat) : State :=
  let s1 := { s with fab := { s.fab with partner := p, unmirrored := p.isNone } }
  if p.isNone ∧ s.fab.unmirrored = false then faultAt s1 0x08 2 0 0 0 0 0 else s1

/-- A stamp of a Hezhaul port (R45). -/
def portStamp (s : State) (p : Nat) : Word × State := issueStamp s (0x50 + p)

/-! ## Management messages (R314) -/

/-- Send on one port: a link-scope message, which the port transmits before other classes (R303). -/
def sendLink (s : State) (p : Nat) (op : FlitOp) (stamp : Word) (words : List Word) : State :=
  let f := mkFlit s op ((getPort s p).nbrId.getD 0) (0x130 + p) 0 stamp words
  updPort s p (fun x => { x with tx := x.tx ++ [f] })

/-- Send a message on every UP port but one; forwarded once, remembered by stamp for 2^26 mt (R49, R314). -/
def flood (s : State) (except : Option Nat) (op : FlitOp) (stamp : Word) (words : List Word) : State :=
  (upPorts s).foldl (fun s p => if some p = except then s else sendLink s p op stamp words) s

/-- A flooded message seen within the last 2^26 mt (R314). -/
def seenStamp (s : State) (stamp : Word) : Bool :=
  s.fab.seen.any (fun e => e.1 == stamp && decide ((now s + 2 ^ 64 - e.2) % 2 ^ 64 ≤ 2 ^ 26))

def noteStamp (s : State) (stamp : Word) : State :=
  { s with fab := { s.fab with
      seen := (stamp, now s) :: s.fab.seen.filter (fun e => decide ((now s + 2 ^ 64 - e.2) % 2 ^ 64 ≤ 2 ^ 26)) } }

/-- A routed management message to another module's hub. -/
def sendMgmt (s : State) (op : FlitOp) (dev : Nat) (words : List Word) : State :=
  let (st, s) := issueStamp s 0x60
  send s op dev 0x121 0 st words

def isMaster (s : State) : Bool := s.mer.role == 2

/-- The other modules of the active inventory that are not lost. -/
def otherDevs (s : State) : List Nat := s.vin.inventory.filter (fun d => d != s.devId && !(lostDev s d))

/-- A strict majority of the inventory, this module included in the list. -/
def majority (s : State) (l : List Nat) : Bool := decide (s.vin.inventory.length < 2 * l.length)

/-- A logbook entry of type 0x0032: 1 port DOWN, 2 LOST, 3 JOIN (R535). -/
def logLink (s : State) (kind dev port : Nat) (stamp : Word) : State :=
  logAdd s 0x0032 stamp [BitVec.ofNat 64 kind, BitVec.ofNat 64 (dev % 65536 + port % 16 * 2 ^ 16), 0, 0]

end Sys2Proof.Machine
end

