-- ==== Sys2Proof/Machine/VinOps.lean ====
section
/-! DEFINITION. The configuration image, its digest and checks, staging and activation of a vintage, the roles of
master and standby, and the start-up entries (R29 to R39, R278, R287, R421, R453, R507, R560). -/

namespace Sys2Proof.Machine

/-! ## The configuration image (R507) -/

def curveDefault (_ : Nat) : Word := 0xFFFFFFFFFFFFFFFF
def selfPartner (d : Nat) : Nat := d

/-- The slotted ports in image order (R269, R507). -/
def slotPorts : List Nat := List.range 20 ++ (List.range 20).map (32 + ·)

/-- The key of a slot table's entry. -/
def slotKey (p i : Nat) : Nat := p * 256 + i
def slotEntry (c : CfgImage) (p i : Nat) : Nat := Table.get zeroOf c.slots (slotKey p i)

/-- Four halfwords in a word. -/
def packHalves : List Nat → List Word
  | a :: b :: c :: d :: t => BitVec.ofNat 64 (a + b * 2 ^ 16 + c * 2 ^ 32 + d * 2 ^ 48) :: packHalves t
  | _ => []

def unpackHalves (ws : List Word) : List Nat :=
  ws.flatMap (fun w => [w.field 15 0, w.field 31 16, w.field 47 32, w.field 63 48])

/-- The body of each item (R507). -/
def itemBody (c : CfgImage) : Nat → List Word
  | 1 => [BitVec.ofNat 64 (2 ^ 36 * (c.topo.toNat / 2 ^ 36)), BitVec.ofNat 64 c.linksDown.length] ++
      c.linksDown.map (fun l => BitVec.ofNat 64 (l.1 * 2 ^ 16 + l.2 * 2 ^ 12)) ++
      packHalves ((List.range 65536).map (Table.get selfPartner c.partners))
  | 2 => [c.zonTb, c.zonCtl]
  | 3 => packHalves (slotPorts.flatMap (fun p => (List.range 256).map (slotEntry c p)))
  | 4 => (List.range 200).map (Table.get reactionDefault c.reaction)
  | 5 => (List.range 48).map (Table.get curveDefault c.curves)
  | 6 => (List.range 4096).map (Table.get keyMapDefault c.keyMap)
  | _ => []

/-- One section: its two header words and its body. -/
def itemWords (c : CfgImage) (i : Nat) : List Word :=
  let b := itemBody c i
  BitVec.ofNat 64 (i * 2 ^ 56 + 8 * b.length) :: 0 :: b

def sectionWords (c : CfgImage) : List Word := [1, 2, 3, 4, 5, 6].flatMap (itemWords c)

/-- The digest of a configuration (R33, R507). -/
def digestOf (c : CfgImage) : Word := BitVec.ofNat 64 (crc64 (wordsBytes (sectionWords c)))

/-- The whole image with its header. -/
def imageWords (c : CfgImage) (vintage : Nat) : List Word :=
  let b := sectionWords c
  [BitVec.ofNat 64 ((64 + 8 * b.length) * 2 ^ 32 + 6 * 2 ^ 16 + 1), BitVec.ofNat 64 vintage, 0, 0, 0, 0, 0, 0] ++ b

/-- A table over indices from a list of values. -/
def tableOf {α : Type} [DecidableEq α] (d : Nat → α) (vs : List (Nat × α)) : Table α :=
  vs.foldl (fun t e => Table.set d t e.1 e.2) []

/-- The section of item `i` at the head of these words: its body and the rest (R507). -/
def takeItem (i : Nat) (ws : List Word) : Option (List Word × List Word) :=
  match ws with
  | h :: z :: t =>
    let n := h.field 31 0
    if h.field 63 56 = i ∧ h.field 55 32 = 0 ∧ z = 0 ∧ n % 8 = 0 ∧ n / 8 ≤ t.length then
      some (t.take (n / 8), t.drop (n / 8))
    else none
  | _ => none

/-- Read an image's sections; a malformed item is answered by its number (R506, R507). -/
def parseSections (vintage : Nat) (ws : List Word) : Except Nat CfgImage :=
  match takeItem 1 ws with
  | none => .error 1
  | some (b1, ws) =>
    let l := (wordAt b1 1).field 31 0
    if b1.length ≠ 2 + l + 16384 then .error 1
    else
      let links := ((b1.drop 2).take l).map (fun w => (w.field 31 16, w.field 15 12))
      let parts := unpackHalves (b1.drop (2 + l))
      match takeItem 2 ws with
      | none => .error 2
      | some (b2, ws) =>
        if b2.length ≠ 2 then .error 2
        else match takeItem 3 ws with
          | none => .error 3
          | some (b3, ws) =>
            if b3.length ≠ 2560 then .error 3
            else match takeItem 4 ws with
              | none => .error 4
              | some (b4, ws) =>
                if b4.length ≠ 200 then .error 4
                else match takeItem 5 ws with
                  | none => .error 5
                  | some (b5, ws) =>
                    if b5.length ≠ 48 then .error 5
                    else match takeItem 6 ws with
                      | none => .error 6
                      | some (b6, ws) =>
                        if b6.length ≠ 4096 ∨ ws ≠ [] then .error 6
                        else
                          let keys := slotPorts.flatMap (fun p => (List.range 256).map (slotKey p))
                          let num := fun (b : List Word) => b.zipIdx.map (fun x => (x.2, x.1))
                          .ok ⟨vintage, wordAt b1 0, links,
                            tableOf selfPartner (parts.zipIdx.map (fun x => (x.2, x.1))),
                            wordAt b2 0, wordAt b2 1, tableOf zeroOf (keys.zip (unpackHalves b3)),
                            tableOf reactionDefault (num b4), tableOf curveDefault (num b5),
                            tableOf keyMapDefault (num b6)⟩

/-! ## The checks of a staged image (R278, R421, R453) -/

/-- The limits of one slot table (R278). -/
def slotTableOk (c : CfgImage) (p : Nat) : Bool :=
  let es := (List.range 256).map (slotEntry c p)
  let sys := fun k => (es.filter (fun e => e / 2 ^ 13 == 2 && e % 4096 == k)).length
  decide (8 ≤ sys 0 ∧ 2 ≤ sys 1 ∧ (es.filter (fun e => e / 2 ^ 13 == 1)).length ≤ 192)

/-- The rules of the key-slot map (R421). -/
def keyMapOk (c : CfgImage) : Bool :=
  c.keyMap.all (fun e => !(e.2.bit 0) || e.2.field 27 16 == e.1) &&
    (let e0 := Table.get keyMapDefault c.keyMap 0; e0.bit 0 && e0.field 27 16 == 0)

/-- Zones that are not FREE (R438). -/
def liveZones (s : State) : List Nat :=
  0 :: ((s.zon.zones.filter (fun e => e.2.state != 0 && e.1 != 0)).map (·.1))

/-- The first word of a zone's QoS block as a zone with no entry written has it: tw = fw = 1, nothing reserved (R453). -/
def qosOf (ws : List Word) (gen : Nat) : Word :=
  let w := wordAt ws (8 + 2 * (gen % 2))
  if w = 0 then 0x0101000000000000 else w

/-- The entries of the zones that are not FREE as a staging reads them, held copies fetched again (R437). -/
def refetch (s : State) : List (Option (List Word)) × State :=
  (liveZones s).foldl (fun (acc : List (Option (List Word)) × State) z =>
    let s := updZone acc.2 z (fun x => { x with entry := none })
    let (e, s) := zoneEntry rep s z
    (acc.1 ++ [e], s)) ([], s)

/-- The memory-credit sum and the weights of a generation (R450, R453). -/
def qosOk (es : List (Option (List Word))) (gen : Nat) : Bool :=
  let qs := es.map (fun e => qosOf (e.getD []) gen)
  decide (qs.foldl (fun a q => a + q.field 47 32) 0 ≤ 27648) &&
    qs.all (fun q => q.field 63 56 != 0 && q.field 55 48 != 0)

/-- What an image breaks: the item and the rule's number (R506). -/
def imageFault (s : State) (c : CfgImage) : Option (Nat × Nat) × State :=
  if slotPorts.any (fun p => !(slotTableOk c p)) then (some (3, 1), s)
  else
    let (es, s) := refetch s
    if !(qosOk es (c.zonCtl.field 63 32)) then (some (2, 2), s)
    else if !(keyMapOk c) then (some (6, 3), s)
    else (none, s)

/-! ## Staging (R36, R37, R39, R287) -/

/-- Send ACK or NACK of a PREPARE to the master; the master counts its own (R36). -/
def answerPrepare (s : State) (ok : Bool) (vintage : Nat) (digest : Word) (act : Nat) : State :=
  if isMaster s then
    let mark := fun (p : Prep) => if p.vintage ≠ vintage then p
      else if ok then { p with acks := p.acks ++ [s.devId] } else { p with nacks := p.nacks ++ [s.devId] }
    { s with vin := { s.vin with prep := s.vin.prep.map mark } }
  else sendMgmt s (if ok then .ack else .nack) (s.mer.masterId.getD 0)
    [BitVec.ofNat 64 vintage, digest, BitVec.ofNat 64 act, 0]

/-- The routing table that an image gives this module. -/
def imageRoutes (s : State) (c : CfgImage) : Table Nat :=
  routeTable (topoMesh c.topo) (topoSizes c.topo) c.linksDown s.devId

/-- Write the staged entries into the table of the other parity, and answer ACK (R36 step 2, R287 step 1). -/
def finishStaging (s : State) (st : StagedCfg) : State :=
  let par := st.vintage % 2 == 1
  let s := if par = activePar s then s else setRt s par (imageRoutes s st.image)
  let s := { s with tree := { s.tree with stagedPar := some par } }
  answerPrepare s true st.vintage st.digest st.act

/-- A PREPARE that is refused: NACK; an ordinary one leaves the module to diverge at its activation meridian (R36). -/
def refusePrepare (s : State) (vintage : Nat) (digest : Word) (act : Nat) (catchup : Bool) : State :=
  let s := if catchup then s else { s with vin := { s.vin with missed := some (vintage, act) } }
  answerPrepare s false vintage digest act

/-- Stage an image that its PREPARE's checks have passed; while the previous table is in use the staging waits (R287). -/
def stage (s : State) (st : StagedCfg) : State :=
  let s := { s with
    vin := { s.vin with staged := some st, missed := none }
    tree := { s.tree with stagedPar := none, stagedAt := now s } }
  if s.tree.old then s else finishStaging s st

/-- Time that a meridian lies ahead, taken as 0 when it has passed. -/
def aheadOf (s : State) (a : Nat) : Nat :=
  let d := (a + 2 ^ 64 - now s) % 2 ^ 64
  if d < 2 ^ 63 then d else 0

/-- The master sends a catch-up to a module that it treats as divergent, which the module then shows (R38, R39, R42). -/
def noteCatchup (s : State) (vintage : Nat) (digest : Word) (catchup : Bool) : State :=
  if catchup ∧ (vintage ≠ s.vin.vintage ∨ digest ≠ s.vin.digest) then { s with vin := { s.vin with divergent := true } } else s

/-- A PREPARE at this module (R37, R39, R278, R421, R453, R557). -/
def takePrepare (s : State) (vintage : Nat) (digest : Word) (act : Nat) (catchup : Bool) (c : CfgImage) : State :=
  let st : StagedCfg := ⟨c, vintage, digest, act, catchup⟩
  let good := digestOf c == digest
  let s := noteCatchup s vintage digest catchup
  if catchup then
    if aheadOf s act < 2 ^ 22 ∨ good = false then refusePrepare s vintage digest act true else stage s st
  else if s.vin.agreed = false then
    if vintage = 0 ∧ digestOf s.rlx.flash.image0 = digest then stage s { st with image := s.rlx.flash.image0 }
    else refusePrepare s vintage digest act false
  else if vintage ≠ (s.vin.vintage + 1) % 2 ^ 32 ∨ aheadOf s act < 2 ^ 26 ∨ good = false then
    refusePrepare s vintage digest act false
  else
    match imageFault s c with
    | (some _, s) => refusePrepare s vintage digest act false
    | (none, s) => stage s st

/-- PREPARE to one module; the items travel with it (R314). -/
def sendPrepare (s : State) (dev : Nat) (vintage : Nat) (digest : Word) (act : Nat) (catchup : Bool) : State :=
  let ws := [BitVec.ofNat 64 vintage, digest, BitVec.ofNat 64 act, Word.flag catchup 0]
  let (sp, s) := issueStamp s 0x60
  let s := send s .prepare dev 0x121 0 sp ws
  { s with fab := { s.fab with await := s.fab.await ++ [⟨.prepare, dev, ws, sp, now s⟩] } }

/-- The master starts a two-phase change: PREPARE to every other module, and its own staging (R36). -/
def startChange (s : State) (c : CfgImage) (vintage act : Nat) (mbx : Option Mbx) : State :=
  let d := digestOf c
  let s := { s with vin := { s.vin with prep := some ⟨vintage, d, act, [], [], false, mbx⟩ } }
  let s := (otherDevs s).foldl (fun s dev => sendPrepare s dev vintage d act false) s
  takePrepare s vintage d act false c

/-- Catch-up of one divergent module, an activation meridian 2^24 mt ahead (R39: at least 2^22). -/
def sendCatchup (s : State) (dev : Nat) : State :=
  sendPrepare s dev s.vin.vintage s.vin.digest ((now s + 2 ^ 24) % 2 ^ 64) true

/-! ## Activation (R36 steps 4 and 5, R287 step 2) -/

/-- Flits of the previous parity in the module, what is left of a burst that a port is sending among them (R288). -/
def oldFlits (s : State) : Nat :=
  let n := fun (l : List Flit) => (l.filter (fun f => f.par != activePar s)).foldl (fun a f => a + f.more + 1) 0
  let rest := fun (x : Option (Flit × Nat)) => match x with
    | some (f, k) => if f.par != activePar s then f.more + 1 - k else 0
    | none => 0
  n s.tree.net + n (s.tree.refused.map (·.1)) +
    s.fab.ports.foldl (fun a p => a + n p.2.tx + rest p.2.sending) 0 + s.tree.doms.foldl (fun a d => a + n d.2.held) 0

/-- Make the staged RWV fields active (R7, R506). -/
def activateStaged (s : State) : State :=
  let g := s.staged
  { s with
    staged := ⟨none, none, none, none, none⟩
    sxt := { s.sxt with c1Limit := g.c1Limit.getD s.sxt.c1Limit, guard := g.guard.getD s.sxt.guard }
    home := { s.home with snoopWarn := g.snoopWarn.getD s.home.snoopWarn }
    fab := { s.fab with lostWait := g.lostWait.getD s.fab.lostWait }
    mem := { s.mem with maxGran := g.maxGran.getD s.mem.maxGran } }

/-- The entry of type 0x0020 (R535). -/
def logVintage (s : State) : State :=
  let (st, s) := issueStamp s 0x60
  logAdd s 0x0020 st [BitVec.ofNat 64 s.vin.vintage, s.vin.digest, BitVec.ofNat 64 s.vin.activatedAt,
    Word.flag s.vin.divergent 0]

/-- The staged items become active and the vintage moves (R34, R36 step 4). -/
def activateVintage (s : State) (st : StagedCfg) : State :=
  let par := st.vintage % 2 == 1
  let same := par == activePar s
  let s := if same then setRt s par (imageRoutes s st.image) else s
  let s := activateStaged s
  let s := { s with
    vin := { s.vin with
      vintage := st.vintage, digest := st.digest, cfg := st.image, staged := none, agreed := true
      activatedAt := st.act, caughtUp := st.catchup && s.vin.divergent }
    tree := { s.tree with stagedPar := none, old := !same } }
  logVintage s

/-- An unstaged module stays on its vintage and becomes divergent, with a class C2 fault (R36 step 5). -/
def becomeDivergent (s : State) : State :=
  let s := { s with vin := { s.vin with divergent := true, missed := none } }
  faultAt (logVintage s) 0x10 2 0 0 0 3 0

/-- The mirror partner that the active configuration names (R323). -/
def namedPartner (s : State) : Option Nat :=
  let p := Table.get selfPartner s.vin.cfg.partners s.devId
  if p = s.devId ∨ lostDev s p then none else some p

/-! ## The meridian keeper (R21 to R27) -/

/-- The nominal rate: 2.56 mt per hub cycle, in units of 2^-32 mt. -/
def nominalRate : Nat := 10995116277

/-- The largest correction per hub cycle: 100 ppm of the nominal rate (R22). -/
def maxSlew : Int := 1099511

/-- One hub cycle of the keeper (R21, R22). -/
def tick (s : State) : State :=
  let m := s.mer
  let a := max (-maxSlew) (min maxSlew m.slew)
  let e := (Int.toNat ((m.ext : Int) + m.rate + a)) % 2 ^ 96
  { s with mer := { m with ext := e, slew := m.slew - a } }

/-- A value within half the circle of 2^64, as a signed difference. -/
def signedDiff (a b : Nat) : Int :=
  let d : Nat := (a + 2 ^ 64 - b % 2 ^ 64) % 2 ^ 64
  if d < 2 ^ 63 then (d : Int) else (d : Int) - 2 ^ 64

/-- Correct the keeper by `d` mt: before lock a forward correction is loaded at once, any other is slewed (R22). -/
def correct (s : State) (d : Int) : State :=
  if s.mer.locked = false ∧ 0 ≤ d then
    { s with mer := { s.mer with ext := (s.mer.ext + d.toNat * 2 ^ 32) % 2 ^ 96, slew := 0 } }
  else { s with mer := { s.mer with slew := d * 2 ^ 32 } }

/-- The entry of type 0x0021 (R535). -/
def logMeridian (s : State) (kind : Nat) : State :=
  let (st, s) := issueStamp s 0x60
  logAdd s 0x0021 st [BitVec.ofNat 64 kind, BitVec.ofInt 64 (s.mer.err * 1000 / 4096),
    BitVec.ofNat 64 (s.mer.masterId.getD 0xFFFF), 0]

/-- Take an estimated error in mt: the fault of R27 set above 100 ns, cleared within 20 ns. -/
def takeError (s : State) (e : Int) : State :=
  let s := { s with mer := { s.mer with
    err := e, goodSyncs := if e.natAbs * 100 ≤ 8192 then s.mer.goodSyncs + 1 else 0 } }
  if 4096 < e.natAbs * 10 ∧ s.mer.fault = false then
    let s := { s with mer := { s.mer with fault := true, ppsOut := none } }
    faultAt (logMeridian s 2) 0x10 2 0 0 0 1 0
  else if e.natAbs * 100 ≤ 8192 ∧ s.mer.fault then
    logMeridian { s with mer := { s.mer with fault := false } } 3
  else s

/-- SYNC on one port: this module's meridian, the vintage and the master's device ID (R313, R314). -/
def sendSync (s : State) (except : Option Nat) : State :=
  (upPorts s).foldl (fun s p => if some p = except then s else
    sendLink s p .sync 0 [BitVec.ofNat 64 (now s),
      BitVec.ofNat 64 (s.vin.vintage * 2 ^ 32 + s.mer.masterId.getD 0)]) s

/-- HEARTBEAT words of this module (R35, R314). -/
def heartbeatWords (s : State) : List Word :=
  [BitVec.ofNat 64 (s.vin.vintage * 2 ^ 32 + s.vin.digest.toNat % 65536 * 2 ^ 16 + s.devId), BitVec.ofNat 64 s.mer.role]

/-- No master: every keeper runs on, with a class C2 fault. A standby does not ask again, since it then knows of no master
that it could count as missing (R32; log entry 204). -/
def loseMaster (s : State) : State :=
  let s := { s with mer := { s.mer with masterId := none, takeover := none, missing := none } }
  faultAt s 0x10 2 0 0 0 4 0

/-- The eligible device next after a master, reachable (R29, R31). -/
def nextStandby (s : State) (m : Nat) : Option Nat :=
  (s.mer.masters.filter (fun d => decide (m < d) && !(lostDev s d))).foldl (fun (b : Option Nat) d =>
    match b with | some x => some (min x d) | none => some d) none

/-- This module becomes master on a majority: no step, its own error 0 from now on, which ends a meridian fault, the active
vintage kept, a new standby named (R27, R31). -/
def becomeMaster (s : State) : State :=
  let s := takeError { s with mer := { s.mer with
    role := 2, masterId := some s.devId, takeover := none, missing := none, former := s.mer.masterId } } 0
  logMeridian { s with mer := { s.mer with standbyId := nextStandby s s.devId } } 5

/-! ## Start-up entries (R556, R560) -/

/-- An entry of type 0x0040: step, result (0 done, 1 after retry, 2 failed, 3 waiting) and duration in ms. -/
def startEntry (s : State) (st result : Nat) (ws : List Word) : State :=
  let ms := min 65535 ((now s + 2 ^ 64 - s.power.stepAt) % 2 ^ 64 / 4096000)
  let e := mkEntry s 0x0040 (st + result * 2 ^ 8 + ms * 2 ^ 16) 0 ws 0
  let e := { e with unsync := e.unsync || decide (st < 7) }
  logPut s e

/-- A step ends well. -/
def endStep (s : State) (st result : Nat) (ws : List Word) : State :=
  let s := startEntry s st result ws
  { s with power := { s.power with step := st, stepAt := now s } }

/-- A step fails, and start-up stops there (R556). -/
def failStep (s : State) (st : Nat) (ws : List Word) : State :=
  let s := startEntry s st 2 ws
  { s with power := { s.power with failed := true, stepAt := now s } }

/-! ## Registers of this chapter as read (R41 to R43) -/

def errNs (s : State) : Int := max (-32767) (min 32767 (Int.tdiv (s.mer.err * 1000) 4096))

/-- MER_STAT. The field src is this module's own: no message tells a module which source its master has (R41; log entry
205). -/
def merStat (s : State) : Word :=
  let m := s.mer
  BitVec.ofNat 64 (m.masterId.getD 0xFFFF * 2 ^ 48 + m.standbyId.getD 0xFFFF * 2 ^ 32 +
    (BitVec.ofInt 16 (errNs s)).toNat * 2 ^ 16 + m.masterId.isSome.toNat * 2 ^ 9 + m.standbyId.isSome.toNat * 2 ^ 8 +
    m.refLost.toNat * 2 ^ 7 + m.src % 4 * 2 ^ 5 + m.role % 4 * 2 ^ 3 + m.fault.toNat * 4 + m.locked.toNat * 2)

/-- A change is staged and acknowledged: its table is written (R36, R42). -/
def stagedNow (s : State) : Option StagedCfg := if s.tree.stagedPar.isSome then s.vin.staged else none

def vinStat (s : State) : Word :=
  BitVec.ofNat 64 (s.vin.vintage % 2 ^ 32 * 2 ^ 32 + (stagedNow s).isSome.toNat * 4 + s.vin.divergent.toNat * 2 +
    s.vin.agreed.toNat)

/-- Words 3 to 6 of the entries of steps 6 to 8 (R560). -/
def merWords (s : State) : List Word := [merStat s, vinStat s, s.vin.digest, 0]

def vinAct (s : State) : Word := match stagedNow s with | some st => BitVec.ofNat 64 st.act | none => 0

end Sys2Proof.Machine
end

