-- ==== Sys2Proof/Machine/RelraxOps.lean ====
section
/-! DEFINITION. Mailboxes: acceptance, availability, authority, object order, results, rings, forwarding (R480 to R497,
R512). -/

namespace Sys2Proof.Machine

/-! ## Mailboxes by name -/

def ringOf (_ : Nat) : Ring := Ring.reset
def getRing (s : State) (z : Nat) : Ring := Table.get ringOf s.rlx.rings z
def updRing (s : State) (z : Nat) (f : Ring → Ring) : State :=
  { s with rlx := { s.rlx with rings := Table.upd ringOf s.rlx.rings z f } }

def getBox (s : State) : Mbx → Mailbox
  | .host => s.rlx.host
  | .bonded => s.rlx.bonded
  | .ring z => (getRing s z).box
  | .master st => match s.rlx.served.find? (fun x => x.stamp == st) with
    | some x => x.box
    | none => Mailbox.reset

def updBox (s : State) (m : Mbx) (f : Mailbox → Mailbox) : State :=
  match m with
  | .host => { s with rlx := { s.rlx with host := f s.rlx.host } }
  | .bonded => { s with rlx := { s.rlx with bonded := f s.rlx.bonded } }
  | .ring z => updRing s z (fun r => { r with box := f r.box })
  | .master st => { s with rlx := { s.rlx with
      served := s.rlx.served.map (fun x => if x.stamp = st then { x with box := f x.box } else x) } }

/-- Source kind: 0 H, 1 Z, 2 B, 3 Relrax (R490). -/
def boxKind (s : State) : Mbx → Nat
  | .host => 0
  | .ring _ => 1
  | .bonded => 2
  | .master st => match s.rlx.served.find? (fun x => x.stamp == st) with
    | some x => x.kind
    | none => 0

/-- System authority: the host mailbox or the ring of zone 0 (R480). -/
def systemSource (kind zone : Nat) : Bool := kind == 0 || (kind == 1 && zone == 0) || kind == 3

/-! ## Words of a command and of a result (R481, R482) -/

def cmdCode (ws : List Word) : Nat := (wordAt ws 0).field 63 48
def cmdSeq (ws : List Word) : Nat := (wordAt ws 0).field 47 32
def cmdCrc (ws : List Word) : Bool := (wordAt ws 0).bit 31
def cmdTgt (ws : List Word) : Option Nat :=
  if (wordAt ws 0).bit 16 then some ((wordAt ws 0).field 15 0) else none

/-- Parameter `i`, 1 to 6. -/
def cmdP (ws : List Word) (i : Nat) : Word := wordAt ws i

/-- A result header: state 1 BUSY, 2 DONE, 3 ERROR. -/
def resHeader (ws : List Word) (error : Nat) (stale : Bool) (st : Nat) : Word :=
  BitVec.ofNat 64 (cmdCode ws * 2 ^ 48 + cmdSeq ws * 2 ^ 32 + error % 65536 * 2 ^ 16 + stale.toNat * 8 + st)

/-- The 32 words of a completed result. -/
def resWords (ws : List Word) (r : CmdResult) : List Word :=
  let body := resHeader ws r.error false (if r.error = 0 then 2 else 3) ::
    (List.range 30).map (fun i => wordAt r.words i)
  body ++ [if cmdCrc ws then BitVec.ofNat 64 (crc32c (wordsBytes body)) else 0]

/-- Success with result words from r1. -/
def okRes (ws : List Word) : CmdResult := ⟨0, ws⟩

/-- An error, with every result word 0 (R482). -/
def errRes (e : Nat) : CmdResult := ⟨e, []⟩

/-! ## The commands: who may send them (R495, R498 to R511) -/

/-- The From column: 1 S, 2 Z, 4 B, 8 H; nothing for an undefined code. -/
def cmdFrom (code : Nat) : Option Nat :=
  match code with
  | 0x0101 => some 7
  | 0x0102 | 0x0104 | 0x0105 => some 1
  | 0x0103 => some 3
  | 0x0201 | 0x0202 | 0x0203 | 0x0204 | 0x0207 | 0x0208 => some 1
  | 0x0205 | 0x0206 | 0x0209 | 0x020A | 0x020C => some 3
  | 0x020B => some 7
  | 0x0301 | 0x0302 | 0x0303 | 0x0306 | 0x0307 | 0x0308 | 0x0309 | 0x030B => some 1
  | 0x0304 | 0x0305 | 0x030A => some 3
  | 0x0401 | 0x0402 | 0x0403 | 0x0404 => some 1
  | 0x0501 | 0x0502 | 0x0503 | 0x0504 | 0x0505 => some 3
  | 0x0601 | 0x0602 | 0x0603 | 0x0604 => some 1
  | 0x0605 => some 3
  | 0x0701 | 0x0702 | 0x0703 => some 1
  | 0x0801 | 0x0802 | 0x0804 => some 1
  | 0x0803 => some 3
  | 0x0901 | 0x0902 | 0x0903 | 0x0904 => some 4
  | 0x0A01 | 0x0A02 | 0x0A03 => some 1
  | 0x0B01 | 0x0B02 | 0x0B03 | 0x0B04 => some 1
  | 0x0B05 => some 8
  | _ => none

/-- The source is listed for the command. -/
def mayIssue (code kind zone : Nat) : Bool :=
  match cmdFrom code with
  | none => false
  | some f => (f % 2 == 1 && systemSource kind zone) || (f / 2 % 2 == 1 && kind == 1) || (f / 4 % 2 == 1 && kind == 2) ||
      (f / 8 % 2 == 1 && kind == 0)

/-- Commands executed while PWR_OK is deasserted (R496). -/
def standbyCmd (code : Nat) : Bool := code == 0x0101 || code == 0x0601 || code == 0x0603 || code == 0x0604

/-- Commands executed before agreement (R496). -/
def earlyCmd (code : Nat) : Bool := code / 256 == 1 || code / 256 == 6 || code == 0x0801

/-- Errors that stand in the way of any command, in the order in which the model checks them (log entry 40): CRC_FAIL,
NOT_READY of the boot ROM, BAD_CODE, BAD_PARAM of word 0, NO_MAIN_POWER, the target, NOT_READY before agreement,
ZONE_RESETTING, NOT_AUTHORISED. -/
def commonError (s : State) (kind zone : Nat) (ws : List Word) : Option Nat :=
  let code := cmdCode ws
  let w0 := wordAt ws 0
  let elsewhere : Bool := match cmdTgt ws with | some d => decide (d ≠ s.devId) | none => false
  if cmdCrc ws ∧ (wordAt ws 7).field 31 0 ≠ crc32c ((wordsBytes ws).take 60) then some 0x0005
  else if s.rlx.running = false ∧ ¬ (code = 0x0101 ∨ code = 0x0601 ∨ code = 0x0603) then some 0x000A
  else if cmdFrom code = none then some 0x0001
  else if w0.field 30 17 ≠ 0 ∨ (w0.bit 16 = false ∧ w0.field 15 0 ≠ 0) then some 0x0002
  else if (s.power.pwrOk && s.power.rails) = false ∧ standbyCmd code = false then some 0x0004
  else if w0.bit 16 ∧ s.fab.discovered = false then some 0x000A
  else if elsewhere ∧ ¬ s.vin.inventory.contains (w0.field 15 0) then some 0x0006
  else if elsewhere ∧ lostDev s (w0.field 15 0) then some 0x0008
  else if s.vin.agreed = false ∧ earlyCmd code = false then some 0x000A
  else if kind = 1 ∧ zone ≠ 0 ∧ (getZone s zone).state = 2 then some 0x000E
  else if mayIssue code kind zone = false ∧ elsewhere = false then some 0x0003
  else none

/-! ## Acceptance (R491, R493) -/

/-- The command has been forwarded: it waits for its result (R490). -/
def forwardCmd (s : State) (m : Mbx) (kind zone : Nat) (ws : List Word) (d : Nat) : State :=
  let (st, s) := issueStamp s 0x60
  let w := BitVec.ofNat 64 (s.devId * 2 ^ 48 + kind % 4 * 2 ^ 46 + zone % 4096 * 2 ^ 32)
  let s := { s with rlx := { s.rlx with forwards := s.rlx.forwards ++ [⟨st, d, m, ws, kind, zone, now s, now s⟩] } }
  send s .mbx d 0x121 zone st ([w, st] ++ ws)

/-- Accept a command: busy set, done cleared, the header of R491; a failed common check decides the outcome. -/
def acceptCmd (s : State) (m : Mbx) (kind zone : Nat) (ws : List Word) : State :=
  let bad := commonError s kind zone ws
  let a : Accepted := ⟨ws, zone, s.rlx.order, false, bad.map errRes, 0, []⟩
  let s := updBox s m (fun b => { b with
    acc := some a, accSeq := cmdSeq ws, done := false
    res := resHeader ws 0 true 1 :: (b.res.drop 1 ++ List.replicate 32 0).take 31 })
  let s := { s with rlx := { s.rlx with order := s.rlx.order + 1 } }
  match bad, cmdTgt ws with
  | none, some d => if d = s.devId then s
      else forwardCmd (updBox s m (fun b => { b with acc := b.acc.map (fun a => { a with started := true }) })) m kind zone ws d
  | _, _ => s

def bumpIgnored (s : State) (m : Mbx) : State := updBox s m (fun b => { b with ignored := satAdd 16 b.ignored 1 })

/-- A doorbell's command at a register mailbox or a served one: ignored while busy (R493), absorbed when it repeats the
last completed one (R491), else accepted. -/
def ringBox (s : State) (m : Mbx) (kind zone : Nat) (ws : List Word) : State :=
  let b := getBox s m
  if b.acc.isSome then bumpIgnored s m
  else if b.done ∧ cmdSeq ws = b.cmpSeq then
    updBox (bumpIgnored s m) m (fun b => { b with accSeq := cmdSeq ws })
  else acceptCmd s m kind zone ws

/-! ## Zone rings (R488, R489) -/

/-- Stop a ring: fault, and a class C0 record with the zone (R489). -/
def stopRing (s : State) (z : Nat) : State :=
  faultAt (updRing s z (fun r => { r with fault := true })) 0x12 0 0 0 0 4 z

def ringSlot (r : Ring) : Word := r.base + BitVec.ofNat 64 (0x200 + 0x200 * (r.head % 2 ^ r.m))

/-- Write a result of a ring: words 1 to 31, word 0, then head (R489 step 3). -/
def putRingResult (s : State) (z : Nat) (ws : List Word) : State :=
  let r := getRing s z
  let a := ringSlot r
  match engPutWords rep s (a + 0x108) (ws.drop 1) z 0 with
  | (some _, s) => stopRing s z
  | (none, s) =>
    match engPutWords rep s (a + 0x100) (ws.take 1) z 0 with
    | (some _, s) => stopRing s z
    | (none, s) =>
      let h := (r.head + 1) % 2 ^ 32
      let s := updRing s z (fun r => { r with head := h })
      match engWrite rep 3 s (r.base + 0x40) (leBytes 4 h) z false 0 with
      | (.ok _, s) => s
      | (_, s) => stopRing s z

/-- Serve a ring: read the tail, take the slot at head, accept its command; a repeated command completes at once and the
next slot follows (R489). `n` bounds how many repeats follow one another. -/
def serveRing : Nat → State → Nat → State
  | 0, s, _ => s
  | n + 1, s, z =>
    let r := getRing s z
    if r.box.acc.isSome ∨ r.en = false ∨ r.fault ∨ s.rlx.running = false ∨ (s.power.pwrOk && s.power.rails) = false then s
    else
      match engWords rep s r.base 1 z false with
      | (.error _, s) => stopRing s z
      | (.ok t, s) =>
        let tail := (wordAt t 0).field 31 0
        let used := (tail + 2 ^ 32 - r.head) % 2 ^ 32
        if 2 ^ r.m < used then stopRing s z
        else if used = 0 then s
        else
          match engWords rep s (ringSlot r) 8 z false with
          | (.error _, s) => stopRing s z
          | (.ok ws, s) =>
            if r.box.done ∧ cmdSeq ws = r.box.cmpSeq then
              let s := updBox (bumpIgnored s (.ring z)) (.ring z) (fun b => { b with accSeq := cmdSeq ws })
              serveRing n (putRingResult s z r.box.res) z
            else
              match engPutWords rep s (ringSlot r + 0x100) [resHeader ws 0 true 1] z 0 with
              | (some _, s) => stopRing s z
              | (none, s) => acceptCmd s (.ring z) 1 z ws

/-- A doorbell on a ring (R489, R493); one that meets a reset of its zone is counted (R456). -/
def ringZone (s : State) (z : Nat) : State :=
  let s := if (getZone s z).state = 2 then bumpIgnored s (.ring z) else s
  if (getRing s z).box.acc.isSome then bumpIgnored s (.ring z) else serveRing 1025 s z

/-! ## Outcomes -/

/-- Decide the outcome of the command in progress. -/
def setOutcome (s : State) (m : Mbx) (r : CmdResult) : State :=
  updBox s m (fun b => { b with acc := b.acc.map (fun a => if a.outcome.isSome then a else { a with outcome := some r }) })

/-- The same for a command that may have a waiter. -/
def setOutcomeOpt (s : State) (m : Option Mbx) (r : CmdResult) : State :=
  match m with
  | some m => setOutcome s m r
  | none => s

/-- Every mailbox that holds a command in progress, with it. -/
def inProgress (s : State) : List (Mbx × Accepted) :=
  let one := fun (m : Mbx) => ((getBox s m).acc.map (fun a => (m, a))).toList
  one .host ++ one .bonded ++ s.rlx.rings.flatMap (fun r => one (.ring r.1)) ++
    s.rlx.served.flatMap (fun x => one (.master x.stamp))

/-- The objects that a command acts on (R494), as numbers: a kind in the high part, the object below. -/
def cmdObjects (ws : List Word) : List Nat :=
  let p1 := cmdP ws 1
  let ob := fun (k v : Nat) => k * 2 ^ 40 + v
  let z := p1.field 11 0
  let pages := fun (a n : Nat) => (List.range (min n 512)).map (fun i => ob 3 (a + i))
  match cmdCode ws with
  | 0x0201 | 0x0202 | 0x0203 | 0x0204 | 0x0206 => [ob 1 z]
  | 0x0207 | 0x0208 | 0x0209 | 0x020A => [ob 2 (z * 4096 + p1.field 23 12)]
  | 0x0301 | 0x0302 | 0x0303 => pages p1.toNat (cmdP ws 2).toNat
  | 0x0304 => pages p1.toNat 1
  | 0x0401 | 0x0402 | 0x0403 => [ob 4 (p1.field 3 0)]
  | 0x0501 | 0x0502 | 0x0505 => [ob 5 (p1.field 15 0)]
  | 0x0802 => [ob 6 0]
  | 0x0901 | 0x0902 => [ob 7 (p1.field 11 0)]
  | 0x0903 | 0x0904 => [ob 8 (p1.field 19 0)]
  | 0x0A01 => [ob 9 0]
  | 0x0B01 | 0x0B02 => [ob 10 (p1.field 4 0)]
  | _ => []

/-- A command accepted earlier, not decided yet, acts on one of this one's objects (R494). -/
def heldBack (s : State) (a : Accepted) : Bool :=
  (inProgress s).any (fun x => x.2.outcome.isNone && decide (x.2.order < a.order) &&
    (cmdObjects x.2.words).any (cmdObjects a.words).contains)

/-- The command that a row executes: accepted in this mailbox with this code, for this module, not started, its outcome
open, and no earlier command on its object undecided. -/
def readyCmd (s : State) (m : Mbx) (code : Nat) : Option Accepted :=
  match (getBox s m).acc with
  | none => none
  | some a =>
    if cmdCode a.words = code ∧ a.started = false ∧ a.outcome.isNone ∧ heldBack s a = false then some a else none

/-- Mark the command started. -/
def startCmd (s : State) (m : Mbx) : State :=
  updBox s m (fun b => { b with acc := b.acc.map (fun a => { a with started := true }) })

/-- Execute a command's row: what the command does, and its outcome unless it goes on. A row whose command is not there
changes nothing. -/
def runCmd (s : State) (m : Mbx) (code : Nat) (f : Accepted → State → Option CmdResult × State) : State :=
  match readyCmd s m code with
  | none => s
  | some a =>
    match f a (startCmd s m) with
    | (some r, s) => setOutcome s m r
    | (none, s) => s

/-- Complete: the result is written, cmp_seq and error set, busy cleared, done set (R491); a ring goes on with its next
slot (R489), a served command's result returns to its origin (R490). -/
def completeCmd (s : State) (m : Mbx) : State :=
  match (getBox s m).acc with
  | none => s
  | some a =>
    match a.outcome with
    | none => s
    | some r =>
      let ws := resWords a.words r
      let s := updBox s m (fun b => { b with
        acc := none, cmpSeq := cmdSeq a.words, error := decide (r.error ≠ 0), done := true, res := ws })
      match m with
      | .ring z => serveRing 1025 (putRingResult s z ws) z
      | .master st =>
        match s.rlx.served.find? (fun x => x.stamp == st) with
        | none => s
        | some x =>
          let f := mkFlit s .mbx x.origin 0x121 0 st ([BitVec.ofNat 64 (x.origin * 2 ^ 48 + 2 ^ 31), st] ++ ws)
          sendFlit s { f with more := 2 }
      | _ => s

/-- The issuer of a command: its zone, and whether it carries system authority. -/
def issuerSystem (s : State) (m : Mbx) (a : Accepted) : Bool := systemSource (boxKind s m) a.zone

/-- A zone other than 0 may name its own objects only (R495). -/
def notOwner (s : State) (m : Mbx) (a : Accepted) (z : Nat) : Bool :=
  !(issuerSystem s m a) && a.zone != 0 && a.zone != z

end Sys2Proof.Machine
end

