-- ==== Sys2Proof/Machine/CellarOps.lean ====
section
/-! DEFINITION. Cellaring of pages, the compression engines' queue, and the release of held requests (R253 to R260,
R398 to R401). -/

namespace Sys2Proof.Machine

/-! ## Engines (R398 to R400, R414) -/

def engOf (_ : Nat) : CmpEng := ⟨0, 0, 0, 0, none⟩
def getEng (s : State) (e : Nat) : CmpEng := Table.get engOf s.cmp.engs e
def updEng (s : State) (e : Nat) (f : CmpEng → CmpEng) : State :=
  { s with cmp := { s.cmp with engs := Table.upd engOf s.cmp.engs e f } }

/-- An engine is in service: neither taken out by CMP_CTL.eng_off nor after a second VERIFY_FAIL (R400, R413). -/
def engInService (s : State) (e : Nat) : Bool := !(s.cmp.engOff.testBit e) && !(s.cmp.oos.testBit e)

/-- The lowest-numbered idle engine in service (R399). -/
def idleEngine (s : State) : Option Nat :=
  (List.range 8).find? (fun e => engInService s e && (getEng s e).run.isNone)

/-- The engine that runs a job. -/
def engineOf (s : State) (j : CmpJob) : Option Nat := (List.range 8).find? (fun e => (getEng s e).run == some j)

/-- An engine that runs a job is idle again. -/
def freeEngine (s : State) (j : CmpJob) : State :=
  match engineOf s j with
  | some e => updEng s e (fun x => { x with job := 0, run := none })
  | none => s

/-- A job leaves its engine, or the queue. -/
def endJob (s : State) (j : CmpJob) : State :=
  freeEngine { s with cmp := { s.cmp with queue := s.cmp.queue.filter (· != j) } } j

/-- VERIFY_FAIL on an engine: class C2 from the compression block; a second one within one watch takes the engine out of
service, with a logbook entry (R400). -/
def verifyFail (s : State) (e zone : Nat) : State :=
  let s := updEng s e (fun x => { x with vfail := satAdd 16 x.vfail 1, watchFail := x.watchFail + 1 })
  let s := faultAt s 0x0C 2 0 0 0 (BitVec.ofNat 64 (e + 1 * 2 ^ 8)) zone
  if 2 ≤ (getEng s e).watchFail ∧ s.cmp.oos.testBit e = false then
    let (st, s) := issueStamp s 0x60
    logAdd { s with cmp := { s.cmp with oos := s.cmp.oos ||| 2 ^ e } } 0x0014 st [BitVec.ofNat 64 (4 + e * 2 ^ 8), 0, 0, 0]
  else s

/-! ## Cellaring (R256) -/

/-- Record page `idx`'s result code in the command's list. -/
def cellarResult (s : State) (m : Mbx) (idx code : Nat) : State :=
  updBox s m (fun b => { b with acc := b.acc.map (fun a =>
    { a with results := a.results.set idx (BitVec.ofNat 64 code), progress := a.progress + 1 }) })

/-- The result words: code i in halfword i mod 4 of r(1 + i div 4) (R501). -/
def packCodes (codes : List Word) : List Word :=
  packHalves (codes.map (·.toNat) ++ List.replicate ((4 - codes.length % 4) % 4) 0)

/-- A page leaves the cellaring that named it, with its result; one that queued nothing, or was touched, leaves what another
cellaring of the page has queued. -/
def endCellaring (s : State) (c : Cellaring) (code : Nat) : State :=
  let s := if c.phase = 0 ∨ c.phase = 8 then s else if c.phase = 9 then freeEngine s (.cellaring c.page) else endJob s (.cellaring c.page)
  let s := { s with mem := { s.mem with cellarings := s.mem.cellarings.filter (fun x => !(x.mbx == c.mbx && x.idx == c.idx)) } }
  cellarResult s c.mbx c.idx code

/-- A page back to mapped with its frame. -/
def unTransit (s : State) (page : Nat) : State := setPage s page { getPage s page with st := 0, dir := false }

/-- A page may be cellared (R256 step 1). -/
def cellarable (s : State) (page : Nat) : Bool :=
  let e := getPage s page
  s.mem.celEn && e.st == 0 && !e.pin && !(pageTagged s page) && keyReady s e.zone

/-- The page's content and whether a line of it is poisoned, read with the zone's key. -/
def pageContent (s : State) (page : Nat) : List Byte × Bool :=
  let e := getPage s page
  let fls := frameLines e.loc
  (fls.flatMap (fun fl => lineBytes (readFrame s fl (keyTag s e.zone))), fls.any (framePoison s))

/-- The 16 words of a page's descriptor granule (R254). -/
def descWords (im : CellImage) (page : Nat) : List Word :=
  let g := fun (i : Nat) => BitVec.ofNat 64 (im.grans.getD (2 * i) 0 + im.grans.getD (2 * i + 1) 0 * 2 ^ 32)
  [BitVec.ofNat 64 (im.len * 2 ^ 48 + im.grans.length * 2 ^ 43 + im.crc), BitVec.ofNat 64 (im.zone * 2 ^ 52 + page),
    BitVec.ofNat 64 im.mer, 0] ++ (List.range 12).map g

/-- The descriptor and the granules of an image, the last one filled up with zeros, in the lines of the pool (R253, R254;
log entry 186). -/
def writeImage (s : State) (im : CellImage) (page : Nat) : State :=
  let line := fun (j : Nat) =>
    if j = 0 then lineOf (wordsBytes (descWords im page)) else lineOf ((im.bytes.drop (128 * (j - 1))).take 128)
  (((imageLines s im).zip (List.range 25)).foldl (fun s x => writeFrame s x.1 im.key (line x.2)) s)

/-- Steps 5 and 6: granules and descriptor allocated and written, the mapping moved, the frame freed (R256). The first
granule found is the descriptor, and the next search starts after the last one (R253; log entries 174 and 175). -/
def storeImage (s : State) (c : Cellaring) (page : List Byte) (image : List Byte) : State :=
  let e := getPage s c.page
  let n := (image.length + 127) / 128
  match findGrans s.mem (n + 1) with
  | none => endCellaring (unTransit s c.page) c 0x0304
  | some gs =>
    let d := gs.headD 0
    let im : CellImage := ⟨d, gs.drop 1, image.length, crc32c page, e.zone, now s, image, keyTag s e.zone, false⟩
    let s := writeImage (markGrans s gs true) im c.page
    let start := (gs.getLastD 0 + 1) % 2 ^ 31
    let s := { s with mem := { s.mem with cellared := Assoc.put s.mem.cellared c.page im, granStart := start } }
    let s := setPage s c.page ⟨1, e.zone, e.pin, false, d⟩
    endCellaring (pushFrame s e.zone e.loc) c 0x0300

/-- Step 2 for one line of a page: copies in this module leave at once where the line is quiet; elsewhere the home's own
transaction calls them in. A line with a transaction, or with a write-back under way, has to wait (R256). -/
def backLine (s : State) (off fl : Nat) : State :=
  if busy s (off / 128) then s
  else
    let s := dropLost s (off / 128)
    if lineQuiet s off true then takeLine s off fl true
    else
      let hs := lineHolders s off
      if hs = [] then s
      else
        let (st, s) := issueStamp s 0x60
        startSettle s (off / 128) (.settle none) .snpBack hs 0 st .clean

def backPage (s : State) (page loc : Nat) : State :=
  (List.range 32).foldl (fun s j => backLine s (page * 4096 + 128 * j) (loc * 32 + j)) s

/-- No cache holds a line of the page and nothing is under way on one: memory holds them all (R256 step 2). -/
def pageReady (s : State) (page : Nat) : Bool :=
  (List.range 32).all (fun j =>
    let off := page * 4096 + 128 * j
    !(busy s (off / 128)) && (lineHolders s off).isEmpty &&
      !(s.wbs.any (fun w => w.line == globalLine (mkAddr s.devId off))))

/-- Steps 1 and 2, and the whole of an all-zero page (R256, R401): the page waits for an engine, or has its result. -/
def takeCellaring (s : State) (c : Cellaring) : State :=
  let a := match (getBox s c.mbx).acc with | some a => some a | none => none
  let denied := match a with | some a => notOwner s c.mbx a (getPage s c.page).zone | none => false
  if usablePages s ≤ c.page then endCellaring s c 0x0002
  else if denied then endCellaring s c 0x000F
  else if cellarable s c.page = false then endCellaring s c 0x0301
  else
    let e := getPage s c.page
    let s := setPage s c.page { e with st := 2, dir := false }
    let s := backPage s c.page e.loc
    let (bytes, bad) := pageContent s c.page
    if pageReady s c.page ∧ s.mem.zeroEn ∧ bad = false ∧ bytes.all (· == 0) then storeImage s c bytes []
    else
      let mark := fun (x : Cellaring) => if x.mbx = c.mbx ∧ x.idx = c.idx then { x with phase := 1 } else x
      { s with
        mem := { s.mem with cellarings := s.mem.cellarings.map mark }
        cmp := { s.cmp with queue := s.cmp.queue ++ [.cellaring c.page] } }

/-- Go on with a command's pages until one waits for an engine; the command ends with its last page (R256, R501). -/
def runCellar : Nat → State → Mbx → State
  | 0, s, _ => s
  | n + 1, s, m =>
    match s.mem.cellarings.filter (fun c => c.mbx == m) with
    | [] =>
      match (getBox s m).acc with
      | some a => setOutcome s m (okRes (packCodes a.results))
      | none => s
    | c :: _ => if c.phase = 0 then runCellar n (takeCellaring s c) m else s

/-! ## Decants: releasing requests (R258 step 5) -/

/-- Every held request goes on as an ordinary request. -/
def releaseHeld (s : State) (d : Decant) : State :=
  let s := { s with mem := { s.mem with decants := s.mem.decants.filter (fun x => x.page != d.page) } }
  resendPage (d.held.foldl (fun s h => takeRequest s h.kind h.req none .clean 0) s) d.page

/-- The zone whose page a frame holds; zone 0 where none does. -/
def frameZone (s : State) (frame : Nat) : Nat :=
  match s.mem.pages.find? (fun e => e.2.st == 0 && e.2.loc == frame) with
  | some e => e.2.zone
  | none => 0

/-! ## Channels (R241, R244, R248, R264) -/

/-- Lines of each channel that a patrol pass reads: usable memory, the directory and the service region (R234, R248). -/
def scrubLines (s : State) : Nat := (usableBytes s + 32 * 2 ^ 30) / 2 ^ 13

/-- The frame offset of position `i` of channel `c`: the inverse of the hash of R241. -/
def scrubOffset (c i : Nat) : Nat :=
  i * 2 ^ 13 + (c ^^^ (i % 64) ^^^ (i / 2 ^ 6 % 64) ^^^ (i / 2 ^ 12 % 64) ^^^ (i / 2 ^ 18 % 64)) * 2 ^ 7

end Sys2Proof.Machine
end

