-- ==== Sys2Proof/Machine/CipherOps.lean ====
section
/-! DEFINITION. The streaming pipelines' transforms and the key slots' commits (R417 to R429). -/

namespace Sys2Proof.Machine

/-- Key bytes of a slot, key byte 0 in the lowest bits (R432). -/
def keyBytes (k : KeySlot) (w : BitVec 256) : List Byte := leBytes (if k.aes256 then 32 else 16) w.toNat

/-- Fields of a transform profile (R333, R375 word 4). -/
def profMode (w : Word) : Nat := w.field 47 46
def profUnit (w : Word) : Nat := w.field 45 40

/-- The key slot field is 16 bits wide; a slot above 4,095 does not exist. -/
def profSlotOf (w : Word) : Nat := w.field 63 48

/-- Whether a streaming job of a zone may use a slot (R421), and that it holds a key: the engine code of R424. -/
def keyCheck (s : State) (slot zone : Nat) : Option Nat :=
  let e := keyMapOf s slot
  if 4096 ≤ slot ∨ (getSlot s slot).loaded = false then some 0x13
  else if e.bit 1 = false ∨ e.field 27 16 ≠ zone then some 0x14
  else none

/-- The checks of R424 that fail before any access: XTS lengths and units, GCM and CTR limits. `combined` says that a
compression goes with it, whose stream has no known length. -/
def cipherLengthBad (prof : Word) (count : Nat) (combined inPlace : Bool) : Bool :=
  let u := profUnit prof
  match profMode prof with
  | 0 =>
    let last := if count % 2 ^ u = 0 then 2 ^ u else count % 2 ^ u
    decide (u < 4 ∨ 24 < u) || (!combined && (decide (count < 16) || decide (last < 16)))
  | 1 => decide (u ≠ 0) || decide (2 ^ 36 - 32 < count) || combined || inPlace
  | 2 => decide (u ≠ 0) || decide (2 ^ 36 < count)
  | _ => true

/-- A fresh cipher state: the profile captured at the start (R426). -/
def cipherFresh (s : State) (prof iv : Word) : CipherCtx :=
  ⟨profSlotOf prof, profMode prof, profUnit prof, (getSlot s (profSlotOf prof)).gen, iv, 0, 0, [], 0, 0,
   getSlot s (profSlotOf prof)⟩

/-- Run XTS over the held bytes: whole blocks, and the stolen pair at the end of a message of known length. -/
def xtsRun (enc : Bool) (k1 k2 : List (List Byte)) (total : Option Nat) : Nat → CipherCtx → List Byte × CipherCtx
  | 0, c => ([], c)
  | fuel + 1, c =>
    let len := match total with | some t => min (2 ^ c.u) (t - c.unit * 2 ^ c.u) | none => 2 ^ c.u
    let rem := len - c.off
    let base := c.base.toNat
    let tw := fun k => xtsTweak k2 base c.unit k
    let go := fun (n : Nat) (out : List Byte) =>
      let c' := if c.off + n = len then { c with unit := c.unit + 1, off := 0, held := c.held.drop n }
        else { c with off := c.off + n, held := c.held.drop n }
      let r := xtsRun enc k1 k2 total fuel c'
      (out ++ r.1, r.2)
    if 16 < rem ∧ rem < 32 then
      if rem ≤ c.held.length then go rem (xtsSteal enc k1 (tw (c.off / 16)) (tw (c.off / 16 + 1)) (c.held.take rem))
      else ([], c)
    else if 16 ≤ rem ∧ 16 ≤ c.held.length then go 16 (xtsBlock enc k1 (tw (c.off / 16)) (c.held.take 16))
    else ([], c)

/-- Run CTR over bytes; the counter of block `unit` starts at `first`. -/
def ctrRun (k1 : List (List Byte)) (salt first : Nat) : Nat → CipherCtx → List Byte → List Byte × CipherCtx
  | 0, c, _ => ([], c)
  | fuel + 1, c, bs =>
    if bs = [] then ([], c)
    else
      let n := min bs.length (16 - c.off)
      let ks := (aesEnc k1 (ctrBlock salt c.base (first + c.unit))).drop c.off
      let c' := if c.off + n = 16 then { c with unit := c.unit + 1, off := 0 } else { c with off := c.off + n }
      let r := ctrRun k1 salt first fuel c' (bs.drop n)
      (xorBytes (bs.take n) ks ++ r.1, r.2)

/-- GHASH over the ciphertext blocks that the held bytes complete. -/
def ghRun (h : Nat) : Nat → CipherCtx → CipherCtx
  | 0, c => c
  | fuel + 1, c =>
    if c.held.length < 16 then c
    else ghRun h fuel { c with
      ghash := BitVec.ofNat 128 (ghStep h c.ghash.toNat (c.held.take 16)), held := c.held.drop 16 }

/-- Take bytes through a pipeline: the bytes that come out and the state after (R422). -/
def cipherTake (enc : Bool) (total : Option Nat) (c : CipherCtx) (bs : List Byte) : List Byte × CipherCtx :=
  let k := c.key
  let k1 := roundKeys (keyBytes k k.key1)
  if c.mode = 0 then
    let k2 := roundKeys (keyBytes k k.key2)
    let held := c.held ++ bs
    let r := xtsRun enc k1 k2 total (held.length + 2) { c with held := held }
    (r.1, { r.2 with len := c.len + bs.length })
  else
    let r := ctrRun k1 k.salt (if c.mode = 1 then 2 else 0) (bs.length + 1) c bs
    let c' := { r.2 with len := c.len + bs.length }
    if c.mode = 1 then
      let h := ofBeBytes (aesEnc k1 (List.replicate 16 0))
      let x := { c' with held := c.held ++ (if enc then r.1 else bs) }
      (r.1, ghRun h (x.held.length + 1) x)
    else (r.1, c')

/-- The GCM tag (R423; SP 800-38D). -/
def gcmTag (c : CipherCtx) : List Byte :=
  let k := c.key
  let k1 := roundKeys (keyBytes k k.key1)
  let h := ofBeBytes (aesEnc k1 (List.replicate 16 0))
  let y := if c.held = [] then c.ghash.toNat else ghStep h c.ghash.toNat c.held
  let y := ghMul (y ^^^ (8 * c.len)) h
  xorBytes (beBytes 16 y) (aesEnc k1 (ctrBlock k.salt c.base 1))

/-! ## Commits (R419, R420) -/

/-- What a load commit is refused with, in the order SYSTEM, IN_USE, WEAK (R419). -/
def loadRefused (s : State) (slot : Nat) (aes256 : Bool) (key1 key2 : BitVec 256) : Option Nat :=
  let k : KeySlot := ⟨true, aes256, key1, key2, 0, 0⟩
  if slot = 0 then some 3
  else if (getSlot s slot).loaded ∧ (keyMapOf s slot).bit 0 then some 1
  else if keyBytes k key1 = keyBytes k key2 then some 2
  else none

def setSlot (s : State) (n : Nat) (k : KeySlot) : State :=
  { s with cip := { s.cip with slots := Table.set slotOf s.cip.slots n k } }

/-- Load a slot (R419). -/
def loadSlot (s : State) (slot : Nat) (aes256 : Bool) (key1 key2 : BitVec 256) (salt : Nat) : State :=
  setSlot s slot ⟨true, aes256, key1, key2, salt, ((getSlot s slot).gen + 1) % 65536⟩

/-- Empty a slot (R419). -/
def scrubSlot (s : State) (slot : Nat) : State :=
  setSlot s slot ⟨false, false, 0, 0, 0, ((getSlot s slot).gen + 1) % 65536⟩

/-- The end of a commit's start: CIP_KLD zeroed, the result shown, busy until no pipeline holds the previous schedule. -/
def noteCommit (s : State) (slot result : Nat) (mbx : Option Mbx) : State :=
  { s with cip := { s.cip with
      kld := [], kstSlot := slot, kstResult := result, kstBusy := decide (result = 0), kstMbx := if result = 0 then mbx else none } }

/-- Commit a load. -/
def commitLoad (s : State) (slot : Nat) (aes256 : Bool) (key1 key2 : BitVec 256) (salt : Nat) (mbx : Option Mbx) : State :=
  match loadRefused s slot aes256 key1 key2 with
  | some r => noteCommit s slot r none
  | none => noteCommit (loadSlot s slot aes256 key1 key2 salt) slot 0 mbx

/-- Commit a scrub. -/
def commitScrub (s : State) (slot : Nat) (mbx : Option Mbx) : State :=
  if slot = 0 then noteCommit s slot 3 none else noteCommit (scrubSlot s slot) slot 0 mbx

/-! ## Pipelines (R417, R427) -/

def pipeOf (_ : Nat) : Pipe := ⟨0, 0, 0, 0, 0, false⟩
def getPipe (s : State) (e : Nat) : Pipe := Table.get pipeOf s.cip.pipes e
def updPipe (s : State) (e : Nat) (f : Pipe → Pipe) : State :=
  { s with cip := { s.cip with pipes := Table.upd pipeOf s.cip.pipes e f } }

def pipeInService (s : State) (e : Nat) : Bool := !(s.cip.off.testBit e) && !(s.cip.oos.testBit e)

/-- The lowest-numbered pipeline that is idle and in service (R417). -/
def idlePipe (s : State) : Option Nat := (List.range 8).find? (fun e => pipeInService s e && (getPipe s e).job == 0)

/-- No pipeline is in service (R427). -/
def noPipeline (s : State) : Bool := (List.range 8).all (fun e => !(pipeInService s e))

/-- A channel gives its pipeline, or its place in the queue, back. -/
def freePipe (s : State) (n : Nat) : State :=
  let s := { s with cip := { s.cip with queue := s.cip.queue.filter (· != n) } }
  match (getChn s n).pipe with
  | some e => updChn (updPipe s e (fun p => { p with job := 0, channel := 0, yielding := false })) n
      (fun c => { c with pipe := none })
  | none => s

/-- CIPHER_FAULT on a pipeline: class C2 with pipeline, channel and zone; a second event within one watch takes it out of
service, with a logbook entry (R427). -/
def cipherFault (s : State) (e n zone : Nat) : State :=
  let s := updPipe s e (fun p => { p with faults := satAdd 16 p.faults 1, watchFail := p.watchFail + 1 })
  let s := faultAt s 0x0D 2 0 0 0 (BitVec.ofNat 64 (e + n * 2 ^ 16)) zone
  if 2 ≤ (getPipe s e).watchFail ∧ s.cip.oos.testBit e = false then
    let (st, s) := issueStamp s 0x60
    logAdd { s with cip := { s.cip with oos := s.cip.oos ||| 2 ^ e } } 0x0014 st [BitVec.ofNat 64 (5 + e * 2 ^ 8), 0, 0, 0]
  else s

end Sys2Proof.Machine
end

