-- ==== Sys2Proof/Machine/MoverOps.lean ====
section
/-! DEFINITION. Mover channels: descriptors, beats, transforms, write-back, stops (R371 to R389, R402 to R411, R417 to
R427). -/

namespace Sys2Proof.Machine

/-! ## Channels (R366, R371, R372) -/

/-- Mover channels that serve channel operations (R366). -/
def chnMch (s : State) : Nat := if s.chs.mch = 0 ∨ 1024 < s.chs.mch then 1024 else s.chs.mch

/-- A channel below CHS_CTL.mch is driven by the channel processors (R372). -/
def opChannel (s : State) (n : Nat) : Bool := decide (n < chnMch s)

def chnStopping (c : Chn) : Bool := c.pause || c.hold
def chnActive (c : Chn) : Bool := c.desc.isSome || c.wb.isSome || (c.en && c.head != c.tail)

/-- Channels that an engine carries (R371). -/
def carried (s : State) (e : Nat) : Nat := (s.mov.chns.filter (fun x => x.1 % 16 == e && x.2.admitted)).length

/-- Admit a channel to its engine, or let it wait in order (R371). -/
def admitChn (s : State) (n : Nat) : State :=
  if (getChn s n).admitted then s
  else if carried s (n % 16) < 64 then updChn s n (fun c => { c with admitted := true })
  else if s.mov.order.contains n then s
  else { s with mov := { s.mov with order := s.mov.order ++ [n] } }

/-- A channel that is no longer active leaves its engine, and the oldest waiting one of that engine is admitted. -/
def retireChn (s : State) (n : Nat) : State :=
  if chnActive (getChn s n) then s
  else
    let s := updChn s n (fun c => { c with admitted := false })
    match s.mov.order.find? (fun k => k % 16 == n % 16) with
    | some k => admitChn { s with mov := { s.mov with order := s.mov.order.filter (· != k) } } k
    | none => s

/-! ## Descriptors (R375, R377, R389, R424) -/

/-- The descriptor that eight words hold. -/
def descOfWords (ws : List Word) : Desc :=
  let w0 := wordAt ws 0
  ⟨w0.field 59 56, w0.bit 55, w0.bit 54, w0.field 53 52, w0.field 51 50, (wordAt ws 1).field 63 32,
   (wordAt ws 1).field 31 0, wordAt ws 2, wordAt ws 3, wordAt ws 4, wordAt ws 5, w0⟩

/-- Bytes of destination that a transforming descriptor may fill (R389). -/
def dstExtent (d : Desc) : Nat := if d.comp ≠ 0 ∧ d.limit ≠ 0 then d.limit else d.count

def gcmTail (d : Desc) (op : Nat) : Nat := if d.cipher = op ∧ profMode d.prof = 1 then 16 else 0
def transforms (d : Desc) : Bool := d.cipher != 0 || d.comp != 0

/-- Source and destination ranges of a memory-to-memory descriptor meet, tags included (R388, R389, R423). -/
def rangesMeet (d : Desc) : Bool :=
  let a := d.src.toNat
  let b := d.dst.toNat
  let n := d.count + gcmTail d 2
  let m := dstExtent d + gcmTail d 1
  d.op == 0 && decide (a < b + m ∧ b < a + n)

/-- The exact in-place operation that R389 excepts. -/
def inPlace (d : Desc) : Bool :=
  d.src == d.dst && d.comp == 0 && d.cipher != 0 && (profMode d.prof == 0 || profMode d.prof == 2)

/-- A PCIe controller in root-port mode (R574: its endpoint strap low). -/
def rootPort (s : State) (ctl : Nat) : Bool := !(if ctl = 0 then s.power.straps.epA else s.power.straps.epB)

/-- The stream that a channel has open, by direction: 1 compress, 2 decompress. -/
def streamKind (c : Chn) : Nat := match c.stream with | some st => st.kind | none => 0

/-- The first check of R377 that a descriptor fails, as its code. -/
def descFault (s : State) (n : Nat) (d : Desc) : Option Nat :=
  let c := getChn s n
  let w0 := d.word0
  let memBad := fun (a : Word) => a.bit 63
  let pcieBad := fun (a : Word) => !(rootPort s (a.field 63 63))
  let addrBad := match d.op with
    | 0 => memBad d.src || memBad d.dst
    | 1 => memBad d.src || pcieBad d.dst
    | 2 => pcieBad d.src || memBad d.dst
    | _ => false
  let invalid := decide (3 < d.op) || d.cipher == 3 || d.comp == 3 || w0.field 62 60 != 0 || w0.field 49 44 != 0 ||
    w0.field 23 0 != 0 || addrBad || (d.op == 3 && (d.count != 0 || transforms d)) ||
    (d.comp == 1 && d.cipher == 2) || (d.comp == 2 && d.cipher == 1) ||
    (d.comp != 0 && !(opChannel s n) && !c.crecValid) || (d.comp != 0 && c.stream.isSome && streamKind c != d.comp)
  let open' := d.comp != 0 && c.stream.isSome
  if invalid then some 0x0520
  else if d.op = 3 ∨ d.count = 0 then none
  else if d.cipher ≠ 0 ∧ open' = false ∧ cipherLengthBad d.prof d.count (d.comp != 0) (d.src == d.dst) then some 0x0521
  else if transforms d && rangesMeet d && !(inPlace d) then some 0x0522
  else none

/-! ## Addresses of a transfer -/

/-- The piece that holds a position: address, bytes left in the piece, and whether its data is dropped. -/
def pieceAt : List (Nat × Nat × Bool) → Nat → Nat × Nat × Bool
  | [], _ => (0, 2 ^ 32, true)
  | (a, n, dr) :: t, pos => if pos < n then (a + pos, n - pos, dr) else pieceAt t (pos - n)

def srcAt (c : Chn) (d : Desc) (pos : Nat) : Nat × Nat :=
  if c.pieces ≠ [] ∧ c.scatterDst = false then let r := pieceAt c.pieces pos; (r.1, r.2.1)
  else (d.src.toNat + pos, 2 ^ 32)

def dstAt (c : Chn) (d : Desc) (pos : Nat) : Nat × Nat × Bool :=
  if c.pieces ≠ [] ∧ c.scatterDst then pieceAt c.pieces pos else (d.dst.toNat + pos, 2 ^ 32, false)

/-- The destination of a beat whose data is dropped (R342). -/
def noDst : Nat := 2 ^ 64

/-- An overlapping move to a higher address is copied from the top (R388). -/
def descending (d : Desc) : Bool := !(transforms d) && rangesMeet d && decide (d.src.toNat < d.dst.toNat)

/-- Bytes of the transform's input already taken or under way, counted from the stream's first byte, or from the
descriptor's where no stream is open (R378, R396). -/
def inputOff (c : Chn) (d : Desc) : Nat :=
  match (if d.comp = 0 then none else c.stream) with
  | some st =>
    let base := if st.kind = 2 then (st.wbits + st.inBits.length) / 8 else st.i
    base + (c.beats.filter (fun b => !b.issued)).foldl (fun a b => a + b.len) 0
  | none => d.count - c.count

/-- The input stands at a 4 KiB boundary. -/
def atBoundary (c : Chn) (d : Desc) : Bool := inputOff c d % 4096 == 0

/-- The next beat: source, destination, length (R378, R388). -/
def formBeat (c : Chn) (d : Desc) : Nat × Nat × Nat :=
  let pos := d.count - c.count
  if transforms d then
    let s := srcAt c d pos
    (s.1, 0, min (4096 - inputOff c d % 4096) (min c.count (min s.2 (128 - s.1 % 128))))
  else if descending d then
    let top := d.dst.toNat + c.count
    let lo := max d.dst.toNat ((top - 1) / 128 * 128)
    (d.src.toNat + (lo - d.dst.toNat), lo, top - lo)
  else
    let s := srcAt c d pos
    let t := dstAt c d pos
    let n := min c.count (min s.2 (min t.2.1 (if t.2.2 then 128 else 128 - t.1 % 128)))
    (s.1, if t.2.2 then noDst else t.1, n)

/-! ## Admission of reads (R378, R385, R417) -/

/-- The hysteresis of R378. -/
def paceChn (c : Chn) : Chn :=
  let fill := c.beats.length
  if c.reading ∧ c.hi ≤ fill then { c with reading := false }
  else if c.reading = false ∧ fill ≤ c.lo then { c with reading := true }
  else c

/-- A stopping channel issues no read; a transforming one goes on to its next 4 KiB input boundary (R385). -/
def mayRead (c : Chn) (d : Desc) : Bool :=
  c.admitted && c.en && c.reading && !c.halted && !c.dead && c.failed.isNone && c.wb.isNone && !c.ended &&
    decide (c.beats.length < 64) &&
    (!(chnStopping c) || (transforms d && decide (c.eng.isSome ∨ c.pipe.isSome) && !(atBoundary c d))) &&
    (d.comp == 0 || c.eng.isSome) && (d.cipher == 0 || c.pipe.isSome)

/-! ## Continuation records (R407, R408) -/

/-- The address ranges of the anchor: the stream bytes from the last CLEAR, or the start, to where the dictionary became
full, or to the stop. -/
def anchorExtents (st : LzStream) : List (Nat × Nat) :=
  let lo := st.anchorBit / 8
  (st.extents.foldl (fun (acc : List (Nat × Nat) × Nat) (e : Nat × Nat) =>
    let a := acc.2
    let b := acc.2 + e.2
    let x := max a lo
    let y := match st.fullAt with | some f => min b f | none => b
    (if x < y then acc.1 ++ [(e.1 + (x - a), y - x)] else acc.1, b)) ([], st.extBase)).1

/-- Stream bytes at an address join the extents. -/
def addExtent (st : LzStream) (a n : Nat) : LzStream :=
  if n = 0 then st
  else match st.extents.getLast? with
    | some (b, m) => if b + m = a then { st with extents := st.extents.dropLast ++ [(b, m + n)] }
        else { st with extents := st.extents ++ [(a, n)] }
    | none => { st with extents := [(a, n)] }

/-- Bytes at memory extents, as an engine reads them. -/
def readExtents (s : State) (zone : Nat) (es : List (Nat × Nat)) : List Byte × State :=
  es.foldl (fun (acc : List Byte × State) e =>
    match engRead rep (e.2 / 128 + 2) acc.2 (BitVec.ofNat 64 e.1) e.2 zone false 0 with
    | (.ok bs, s) => (acc.1 ++ bs, s)
    | (_, s) => (acc.1, s)) ([], s)

/-- Words 0 to 63 of a continuation record; words 48 to 57 are its cipher state (R407, R426). -/
def recordWords (st : LzStream) (ci : Option CipherCtx) (n state : Nat) (stamp : Word) (anchor : List Byte) : List Word :=
  let pend := if st.kind = 2 then st.inBits.take 7 else st.pend.take 7
  let ex := anchorExtents st
  let num := BitVec.ofNat 64
  let p := match st.p with | some p => 2 ^ 63 + p * 2 ^ 32 | none => 0
  let ec := match st.expanding with | some (x, o) => 2 ^ 63 + x * 2 ^ 32 + o % 65536 * 2 ^ 16 | none => 0
  let cw := match ci with
    | some c => [num (c.slot * 2 ^ 52 + c.mode * 2 ^ 50 + c.u * 2 ^ 44 + c.gen * 2 ^ 28 + 1), c.base, num c.unit,
        num (c.off * 2 ^ 32 + c.held.length)] ++ (bytesWords 4 c.held ++ [0, 0, 0, 0]).take 4 ++
        (let b := if c.mode = 0 then 2 ^ c.u else 16
         [num (st.anchorBit / 8 / b), num (st.anchorBit / 8 % b * 2 ^ 32)])
    | none => List.replicate 8 0
  let body := [num (st.kind * 2 ^ 56 + state * 2 ^ 48 + n * 2 ^ 32 + st.updates % 2 ^ 32), stamp,
    num (st.n * 2 ^ 32 + (if st.group = 0 then 0 else 2 ^ 29) + pend.length * 2 ^ 26 + st.group * 2 ^ 24 + bitsNat pend),
    num (p + st.wbits % 2 ^ 32), num st.i, num st.outBytes, num ec,
    (match st.remain with | some r => num r | none => 0xFFFFFFFFFFFFFFFF),
    num (min 16 ex.length * 2 ^ 48 + st.anchorBit % 8 * 2 ^ 32 + crc32c anchor), num st.codes, 0, 0, 0, 0, 0, 0] ++
    ((ex.flatMap (fun (e : Nat × Nat) => [num e.1, num e.2])) ++ List.replicate 32 0).take 32 ++ (cw ++ List.replicate 15 0).take 15
  body ++ [num (crc32c (wordsBytes body))]

/-- Write a stopped stream's record: at CMP_CREC with the zone's key; the record of a channel operation lies in the
journal area (R407). -/
def putRecord (s : State) (n state : Nat) (stamp : Word) : State :=
  let c := getChn s n
  match c.stream with
  | none => s
  | some st =>
    let st := { st with state := state, updates := st.updates + 1 }
    let (anchor, s) := readExtents s c.zone (anchorExtents st)
    let s := updChn s n (fun c => { c with stream := some st })
    if opChannel s n then s
    else (engPutWords rep s c.run.2.2.2 (recordWords st c.cipher n state stamp anchor) c.zone stamp).2

/-! ## Failures and write-back (R379 to R384) -/

/-- The mover's engine and pipeline are given back. -/
def dropEngines (s : State) (n : Nat) : State :=
  let s := endJob (freePipe s n) (.chn n)
  updChn s n (fun c => { c with eng := none })

/-- Latch a failure (R383). -/
def latch (c : Chn) (code detail : Nat) (addr : Word) (write : Bool) (xcode idx : Nat) : Chn :=
  { c with errCode := code, errDetail := detail, errAddr := addr, errDir := write, errX := xcode, errIndex := idx }

def lineDown (a : Nat) : Word := BitVec.ofNat 64 (a / 128 * 128)

/-- The destination of a beat whose data is no longer wanted when it returns. -/
def deadDst : Nat := 2 ^ 65

/-- A failure at beat `k`: that beat and those after it that are not yet issued are not written; reads under way are
waited for (R383). The first failure is kept. -/
def failChn (s : State) (n k code detail : Nat) (addr : Word) (write : Bool) (xcode : Nat) : State :=
  updChn s n (fun c =>
    { c with
      failed := if c.failed.isSome then c.failed else some (code, detail, addr, write)
      xcode := if c.failed.isSome then c.xcode else xcode
      beats := (c.beats.filter (fun b => b.issued || b.data.isNone || decide (b.id < k))).map (fun b =>
        if b.issued = false ∧ k ≤ b.id then { b with dst := deadDst } else b) })

/-- Input that is no longer wanted: what has returned is dropped, what is under way is dropped when it returns. -/
def dropInput (c : Chn) : Chn :=
  { c with beats := (c.beats.filter (fun b => b.issued || b.data.isNone)).map (fun b =>
      if b.issued then b else { b with dst := deadDst }) }

/-- Where slot `i` of a ring lies (R374). -/
def ringAddr (c : Chn) (i : Nat) : Word := c.base + BitVec.ofNat 64 (64 * (i % 2 ^ c.m))

/-- Words 6 and 1 as written back (R375). -/
def word6 (c : Chn) : Word := BitVec.ofNat 64 (c.outBytes % 2 ^ 32 * 2 ^ 32 + c.confirmed % 2 ^ 32)
def word1 (c : Chn) (d : Desc) : Word := BitVec.ofNat 64 (d.limit * 2 ^ 32 + c.count)

/-- Word 0 as written back: own = 0, status and code (R375, R379). -/
def word0 (d : Desc) (status code : Nat) : Word :=
  BitVec.ofNat 64 (d.word0.toNat % 2 ^ 63 - d.word0.field 43 24 * 2 ^ 24 + status * 2 ^ 40 + code * 2 ^ 24)

/-- Write a descriptor back: words 1, 6 and 7, then word 0; an ERR halts the channel and latches the failure (R379,
R383). -/
def writeBack (s : State) (n status code : Nat) : State :=
  let c := getChn s n
  match c.desc with
  | none => s
  | some d =>
    let (st, s) := issueStamp s (0x40 + n % 16)
    let s := dropEngines s n
    let a := ringAddr c c.head
    let s := if opChannel s n then s
      else
        let s := (engPutWords rep s (a + 8) [word1 c d] c.zone st).2
        let s := (engPutWords rep s (a + 48) [word6 c, st] c.zone st).2
        (engPutWords rep s a [word0 d status code] c.zone st).2
    let kind := if status = 2 ∧ c.errInt ∧ d.int = false then 3 else if d.int then 2 else 0
    updChn s n (fun c =>
      let c := { c with wb := some (status, code, st, c.head, kind) }
      match status, c.failed with
      | 2, some (fc, fd, fa, fw) => { latch c fc fd fa fw c.xcode c.head with halted := true }
      | _, _ => c)

/-- The beats of earlier descriptors that were written back with bar = 0 (R381). -/
def openIds (c : Chn) : List Nat := c.open'.flatMap (·.2)
def ownBeats (c : Chn) : List Beat := c.beats.filter (fun b => !(openIds c).contains b.id)

/-- Everything the descriptor has to do is done, but for confirmations. -/
def descDone (c : Chn) (d : Desc) : Bool :=
  (ownBeats c).all (·.issued) &&
    (if d.comp ≠ 0 then c.ended else if gcmTail d 2 = 16 then c.ended else c.count == 0)

/-- The destination of a zero-length read, which brings no data. -/
def flushDst : Nat := 2 ^ 66

/-- Bytes that the descriptor sends to its destination. -/
def dstBytes (c : Chn) (d : Desc) : Nat := if transforms d then c.dstPos else d.count

/-- The barrier waits for a zero-length read to the last byte written to a PCIe bus (R380). -/
def needsFlush (c : Chn) (d : Desc) : Bool := d.op == 1 && !c.flushed && dstBytes c d != 0

/-- Issue that read. -/
def flushRead (s : State) (n : Nat) (d : Desc) : State :=
  let c := getChn s n
  let a := d.dst.toNat + dstBytes c d - 1
  let s := updChn s n (fun c => { c with
    flushed := true, beats := c.beats ++ [⟨c.nextBeat, a, flushDst, 0, none, false⟩], nextBeat := c.nextBeat + 1 })
  sendFlit s (mkFlit s .adrd s.devId (0x140 + a / 2 ^ 63) c.zone 0 [BitVec.ofNat 64 (a % 2 ^ 63), 0])

/-- A bus error on a transforming descriptor empties its stream, and the record says so (R411). -/
def endStream (s : State) (n : Nat) (d : Desc) (code : Nat) : State :=
  if d.comp = 0 ∨ code = 0x051B then s
  else updChn (putRecord s n 0 0) n (fun c => { c with stream := none, cipher := none })

/-- Write back as soon as R380 and R383 allow. -/
def tryWriteBack (s : State) (n : Nat) : State :=
  let c := getChn s n
  match c.desc with
  | none => s
  | some d =>
    if c.wb.isSome then s
    else match c.failed with
      | some (code, _, _, _) => if c.beats = [] then writeBack (endStream s n d code) n 2 code else s
      | none =>
        if descDone c d = false then s
        else if d.bar then
          if c.beats ≠ [] then s else if needsFlush c d then flushRead s n d else writeBack s n 1 0
        else
          let ids := (ownBeats c).map (·.id)
          let s := if ids = [] then s else updChn s n (fun c => { c with open' := c.open' ++ [(c.head, ids)] })
          writeBack s n 1 0

/-! ## Reads and writes of a beat -/

/-- An address of this module's memory. -/
def localMem (s : State) (a : Nat) : Bool := a < 2 ^ 63 && addrDev (BitVec.ofNat 64 a) == s.devId

/-- Whether a descriptor's source or destination is a PCIe bus. -/
def srcPcie (d : Desc) : Bool := d.op == 2
def dstPcie (d : Desc) : Bool := d.op == 1

/-- The answer to a read: this module's memory answers itself, other sources by the row's operand. -/
def readAnswer (s : State) (pcie : Bool) (a n zone : Nat) (res : ReadResult) : EngRes × State :=
  if pcie = false ∧ localMem s a then engRead rep 4 s (BitVec.ofNat 64 a) n zone false 0
  else match res with
    | .ok bs => (.ok ((bs ++ List.replicate n 0).take n), s)
    | .poisoned => (.poisoned, s)
    | .refused r => (.err r, s)

/-- The code of a failed read (R383). -/
def readCode (r : EngRes) : Nat × Nat :=
  match r with
  | .poisoned => (0x051A, 0)
  | .err 4 => (0x030B, 4)
  | .err k => (0x000B, k)
  | .ok _ => (0, 0)

/-- The write of a beat leaves: a posted write to PCIe, a write request to a remote home. Writes to this module's memory
take effect with their confirmation. -/
def emitWrite (s : State) (n : Nat) (d : Desc) (a : Nat) (bs : List Byte) : State :=
  let c := getChn s n
  if a = noDst ∨ bs = [] then s
  else if dstPcie d then
    sendFlit s (mkFlit s .adwr s.devId (0x140 + a / 2 ^ 63) c.zone 0
      (BitVec.ofNat 64 (a % 2 ^ 63) :: bytesWords (bs.length / 8 + 1) bs))
  else if localMem s a then s
  else
    let ad := BitVec.ofNat 64 a
    let f := mkFlit s (if bs.length = 128 then .wrLine else .wrPart) (addrDev ad) 0x120 c.zone 0 [ad]
    sendFlit s { f with line := some (lineOf (List.replicate (a % 128) 0 ++ bs)), more := 1 }

/-- Bytes to a linear destination position, split at piece ends; answers the first refusal. -/
def storeAt (s : State) (zone : Nat) (stamp : Word) : Nat → Chn → Desc → Nat → List Byte → EngRes × State
  | 0, _, _, _, _ => (.ok [], s)
  | fuel + 1, c, d, pos, bs =>
    if bs = [] then (.ok [], s)
    else
      let t := dstAt c d pos
      let k := min bs.length t.2.1
      if t.2.2 ∨ ¬ localMem s t.1 then storeAt s zone stamp fuel c d (pos + k) (bs.drop k)
      else match engWrite rep (k / 128 + 2) s (BitVec.ofNat 64 t.1) (bs.take k) zone false stamp with
        | (.ok _, s) => storeAt s zone stamp fuel c d (pos + k) (bs.drop k)
        | r => r

/-- The write of bytes to a linear destination position leaves, split at piece ends. -/
def emitAt (n : Nat) (d : Desc) : Nat → State → Nat → List Byte → State
  | 0, s, _, _ => s
  | fuel + 1, s, pos, bs =>
    if bs = [] then s
    else
      let t := dstAt (getChn s n) d pos
      let k := min bs.length (min t.2.1 (128 - t.1 % 128))
      emitAt n d fuel (emitWrite s n d (if t.2.2 then noDst else t.1) (bs.take k)) (pos + k) (bs.drop k)

/-- A beat of a plain copy issues its write; the data of a dropped piece goes nowhere (R342). -/
def issuePlain (s : State) (n : Nat) (d : Desc) (b : Beat) (bs : List Byte) : State :=
  let s := emitWrite s n d b.dst bs
  updChn s n (fun c =>
    if b.dst = noDst then { c with beats := c.beats.filter (fun x => x.id != b.id) }
    else { c with beats := c.beats.map (fun x => if x.id = b.id then { x with issued := true } else x) })

/-- Transform output goes to the next destination position, which stands in the beat until it is confirmed. -/
def issueOut (s : State) (n : Nat) (d : Desc) (b : Beat) (out : List Byte) : State :=
  let pos := (getChn s n).dstPos
  let s := emitAt n d (out.length + 1) s pos out
  updChn s n (fun c =>
    let c := { c with dstPos := pos + out.length, outBytes := c.outBytes + out.length }
    if out = [] then { c with beats := c.beats.filter (fun x => x.id != b.id) }
    else { c with beats := c.beats.map (fun x =>
      if x.id = b.id then { x with data := some out, dst := pos, issued := true } else x) })

/-- A beat of a cipher-only descriptor passes through its pipeline; the tag follows the last byte (R422, R423). -/
def cipherBeat (s : State) (n : Nat) (d : Desc) (b : Beat) (bs : List Byte) : State :=
  let c := getChn s n
  match c.cipher with
  | none => s
  | some x =>
    if gcmTail d 2 = 16 ∧ d.count ≤ x.len then
      let s := updChn s n (fun c => { c with beats := c.beats.filter (fun y => y.id != b.id), ended := true })
      if gcmTag x = bs then s else failChn s n 0 0x051B 0 0 false 0x12
    else
      let (out, y) := cipherTake (d.cipher == 1) (some d.count) x bs
      let tag := if gcmTail d 1 = 16 ∧ y.len = d.count then gcmTag y else []
      let s := updChn s n (fun c => { c with cipher := some y })
      issueOut s n d b (out ++ tag)

/-- Issue the writes whose turn has come, in beat order (R378). -/
def advanceChn : Nat → State → Nat → State
  | 0, s, _ => s
  | fuel + 1, s, n =>
    let c := getChn s n
    match c.desc, c.beats.find? (fun b => !b.issued) with
    | some d, some b =>
      match b.data with
      | some bs =>
        if d.comp ≠ 0 then s
        else if d.cipher ≠ 0 then advanceChn fuel (cipherBeat s n d b bs) n
        else advanceChn fuel (issuePlain s n d b bs) n
      | none => s
    | _, _ => s

/-! ## Starting a descriptor -/

/-- The engine code that stops a cipher job at its start: no pipeline in service, the slot empty or forbidden, or changed
since the stream was stopped (R420, R424, R427). -/
def cipherStart (s : State) (n : Nat) (d : Desc) : Option Nat :=
  let c := getChn s n
  match (if d.comp ≠ 0 ∧ c.stream.isSome then c.cipher else none) with
  | some x => if (getSlot s x.slot).gen ≠ x.gen then some 0x15 else if noPipeline s then some 0x16 else none
  | none =>
    match keyCheck s (profSlotOf d.prof) c.zone with
    | some e => some e
    | none => if noPipeline s then some 0x16 else none

/-- The END of the channel's stream is still to be written; a descriptor without input performs it (R403, R406; log
entry 203). -/
def endPending (c : Chn) (d : Desc) : Bool :=
  d.comp == 1 && (match c.stream with | some st => st.group == 3 | none => false)

/-- A beat without bytes stands for the input of such a descriptor. -/
def feedEnd (s : State) (n : Nat) (d : Desc) : State :=
  updChn s n (fun c => { c with
    beats := c.beats ++ [⟨c.nextBeat, d.src.toNat, 0, 0, some [], false⟩], nextBeat := c.nextBeat + 1 })

/-- The stream and the cipher state of a descriptor stand ready, and its engines are asked for (R402, R417). -/
def askEngines (s : State) (n : Nat) (d : Desc) : State :=
  let c := getChn s n
  let fresh := d.comp = 0 ∨ c.stream.isNone
  let st := if d.comp = 0 then c.stream
    else match c.stream with
      | some st => some st
      | none => some { lzFresh d.comp with remain := if d.comp = 2 ∧ c.olim ≠ 0 then some c.olim else none }
  let ci := if d.cipher ≠ 0 ∧ fresh then some (cipherFresh s d.prof d.iv) else c.cipher
  let s := updChn s n (fun c => { c with stream := st, cipher := ci })
  let s := if d.count = 0 then feedEnd s n d else s
  let s := if d.comp ≠ 0 then { s with cmp := { s.cmp with queue := s.cmp.queue ++ [.chn n] } } else s
  if d.cipher ≠ 0 then { s with cip := { s.cip with queue := s.cip.queue ++ [n] } } else s

/-- A descriptor that has nothing to do: a NOP, or one without input (R377). -/
def idleDesc (c : Chn) (d : Desc) : Bool := d.op == 3 || (d.count == 0 && !(endPending c d))

/-- Take a checked descriptor into work: engines are asked for, or it is complete at once (R377, R402, R417). -/
def beginDesc (s : State) (n : Nat) (d : Desc) : State :=
  let s := updChn s n (fun c => { c with
    desc := some d, count := d.count, confirmed := 0, outBytes := 0, dstPos := 0, failed := none, xcode := 0,
    ended := false, tagRead := false, flushed := false, ownWait := false
    run := if opChannel s n then (s.cmp.ioThr, s.cmp.ioSync, s.cmp.ioClear, 0) else (c.thr, c.sync, c.clear, c.crec) })
  match descFault s n d with
  | some code => writeBack s n 3 code
  | none =>
    if idleDesc (getChn s n) d then tryWriteBack (updChn s n (fun c => { c with ended := true })) n
    else match (if d.cipher = 0 then none else cipherStart s n d) with
      | some x => tryWriteBack (failChn s n 0 0x051B 0 d.src false x) n
      | none => askEngines s n d

/-! ## Compression on a channel (R396 to R411) -/

/-- End the descriptor's stream part: the stream is empty. -/
def closeStream (s : State) (n : Nat) : State :=
  updChn s n (fun c => { c with stream := none, cipher := none, ended := true })

/-- The engine stops with a code; the stream becomes empty (R400, R405, R409 to R411). -/
def streamFail (s : State) (n xcode : Nat) : State :=
  let s := failChn s n 0 0x051B 0 0 false xcode
  updChn s n (fun c => { c with stream := none, cipher := none })

/-- The destination is full: the stream stays open, `left` input bytes are not consumed, and the record is written
(R403, R405). -/
def streamFull (s : State) (n left : Nat) : State :=
  let s := failChn s n 0 0x051B 0 0 false 0x04
  let s := updChn s n (fun c => { c with count := left })
  putRecord s n 1 0

/-- Input bytes of the descriptor that stand in beats not yet consumed after the first, and those not issued. -/
def inputLeft (c : Chn) (b : Beat) : Nat :=
  c.count + ((c.beats.filter (fun x => !x.issued && x.id != b.id)).foldl (fun a x => a + x.len) 0)

/-- The padding of an encrypted stream after END (R425). -/
def streamPad (ci : Option CipherCtx) (total : Nat) : Nat :=
  match ci with
  | some c => if c.mode = 0 then (16 - total % 16) % 16 else 0
  | none => 0

/-- The output of a compressor passes the pipeline where one is named. -/
def encryptOut (s : State) (n : Nat) (out : List Byte) : List Byte × State :=
  match (getChn s n).cipher with
  | none => (out, s)
  | some x =>
    let (o, y) := cipherTake true none x out
    (o, updChn s n (fun c => { c with cipher := some y }))

/-- One beat of a compressor (R396, R403). -/
def compressBeat (s : State) (n : Nat) (d : Desc) (b : Beat) (bs : List Byte) (st : LzStream) : State :=
  let c := getChn s n
  let room := dstExtent d - c.dstPos
  let r := lzCompress c.run.2.2.1 c.run.2.1 c.run.1 bs room st
  let left := inputLeft c b
  let last := decide (left = 0) && !r.2.2
  let e := if last then lzEnd room r.1 else (r.1, false)
  let (st2, bytes) := lzDrain e.1
  let pad := if e.2 then streamPad c.cipher st2.outBytes else 0
  let a := (dstAt c d c.dstPos).1
  let (out, s) := encryptOut s n (bytes ++ List.replicate pad 0)
  let st3 := addExtent st2 a out.length
  let s := updChn s n (fun c => { c with stream := some st3 })
  let s := issueOut s n d b out
  if r.2.2 then streamFull s n (left + r.2.1.length)
  else if last then (if e.2 then closeStream s n else streamFull s n 0)
  else s

/-- One beat of a decompressor (R397, R405). -/
def decompressBeat (s : State) (n : Nat) (d : Desc) (b : Beat) (bs : List Byte) (st : LzStream) : State :=
  let c := getChn s n
  let left := inputLeft c b
  let (plain, ci) := match c.cipher with
    | some x => let r := cipherTake false none x bs; (r.1, some r.2)
    | none => (bs, none)
  let s := updChn s n (fun c => { c with cipher := ci })
  let ext := dstExtent d - c.dstPos
  let room := match st.remain with | some r => min ext r | none => ext
  let st1 := addExtent { st with inBits := st.inBits ++ bytesBits plain } b.src b.len
  let r := lzDecompress (st1.inBits.length + 2) room st1
  let out := r.2.1
  let rest := r.1.inBits.length / 8
  let st2 := { r.1 with
    outBytes := r.1.outBytes + out.length, i := r.1.wbits / 8
    remain := r.1.remain.map (· - out.length) }
  let s := updChn s n (fun c => { c with stream := some st2 })
  let s := issueOut s n d b out
  match r.2.2 with
  | .ended =>
    let rest := rest - min rest (streamPad c.cipher (st2.wbits / 8))
    let s := updChn s n (fun c => { dropInput c with count := left + rest })
    closeStream s n
  | .error => streamFail (match c.eng with
      | some e => updEng s e (fun x => { x with derr := satAdd 16 x.derr 1 })
      | none => s) n 0x03
  | .full =>
    if st.remain = some room then streamFail s n 0x02
    else
      let s := updChn s n (fun c => { c with
        stream := c.stream.map (fun st => { st with inBits := st.inBits.take (st.inBits.length % 8) }) })
      streamFull s n (left + rest)
  | .input =>
    if left ≠ 0 then s
    else if (match ci with | some x => x.held != [] | none => false) then streamFail s n 0x11
    else
      let s := updChn s n (fun c => { c with ended := true })
      putRecord s n 1 0

/-- A job leaves its engine and rejoins the queue behind every waiting job, its record saved (R399, R407). -/
def yieldJob (s : State) (n : Nat) : State :=
  let s := putRecord s n 2 0
  let had := (getChn s n).pipe.isSome
  let s := dropEngines s n
  let s := { s with cmp := { s.cmp with queue := s.cmp.queue ++ [.chn n] } }
  if had then { s with cip := { s.cip with queue := s.cip.queue ++ [n] } } else s

/-! ## Stopping (R385) -/

/-- The channel has drained: nothing read or written is under way, and a transforming descriptor stands at a 4 KiB input
boundary. -/
def drained (c : Chn) : Bool :=
  c.beats == [] && c.wb.isNone && c.failed.isNone &&
    (match c.desc with
     | some d => !(transforms d) || (c.eng.isNone && c.pipe.isNone) || atBoundary c d
     | none => true)

/-- Nothing stops the channel any more: it goes on from where it stopped (R385). -/
def resumeChn (s : State) (n : Nat) : State :=
  let c := getChn s n
  if chnStopping c then s
  else
    let s := updChn s n (fun c => { c with paused := false })
    match c.desc with
    | some d =>
      let s := if d.comp ≠ 0 ∧ c.eng.isNone ∧ ¬ s.cmp.queue.contains (.chn n) then
          { s with cmp := { s.cmp with queue := s.cmp.queue ++ [.chn n] } } else s
      if d.cipher ≠ 0 ∧ c.pipe.isNone ∧ ¬ s.cip.queue.contains n then
        { s with cip := { s.cip with queue := s.cip.queue ++ [n] } } else s
    | none => s

/-- A channel put back to its state after CHN_ZONE.en goes from 0 to 1 (R386, R391, R406). -/
def freshChn (c : Chn) : Chn :=
  { Chn.reset with
    base := c.base, m := c.m, en := true, errInt := c.errInt, zone := c.zone, vector := c.vector, vcid := c.vcid,
    hold := c.hold, hi := c.hi, lo := c.lo, pause := c.pause, thr := c.thr, sync := c.sync, clear := c.clear,
    olim := c.olim, crec := c.crec, crecValid := c.crecValid, errAddr := c.errAddr, errCode := c.errCode,
    errDir := c.errDir, errDetail := c.errDetail, errX := c.errX, tailBad := c.tailBad, errIndex := c.errIndex }

end Sys2Proof.Machine
end

