-- ==== Sys2Proof/Machine/Mover.lean ====
section
/-! DEFINITION. The rows of the data movers, the compression engines and the cipher engines (R371 to R434), but for
those that carry a channel operation on. -/

namespace Sys2Proof.Machine

/-! ## Offsets of the registers -/

def offRing (n : Nat) : Nat := 0x708000 + n * 0x20
def offZone (n : Nat) : Nat := 0x708008 + n * 0x20
def offUser (n r : Nat) : Nat := 0x740000 + n * 0x100 + r

/-! ## Register writes -/

/-- CHN_TAIL[n] (R374): too far ahead is discarded and counted. -/
def writeTail (s : State) (q : IoReq) (n : Nat) (v : Word) : State :=
  if opChannel s n then discard s q (offUser n 8)
  else
    let c := getChn s n
    let t := v.field 31 0
    if 2 ^ c.m < (t + 2 ^ 32 - c.head) % 2 ^ 32 then
      discard (updChn s n (fun c => { c with tailBad := satAdd 4 c.tailBad 1 })) q (offUser n 8)
    else
      let s := updChn s n (fun c => { c with tail := t, ownWait := false })
      if c.en ∧ c.head ≠ t then admitChn s n else s

def execChnTailWrite (q : IoReq) (n : Nat) (v : Word) (s : State) : Out :=
  .next (mainReg s (if 1024 ≤ n then s else writeTail s q n v))

/-- A write of 1 to CHN_STAT.halted (R384); a channel whose engine was disabled ignores it (R386). -/
def clearHalted (s : State) (q : IoReq) (n : Nat) : State :=
  if opChannel s n then discard s q (offUser n 0x18)
  else if (getChn s n).dead then discard s q (offUser n 0x18)
  else updChn s n (fun c => { c with halted := false })

def execChnStatHaltedClear (q : IoReq) (n : Nat) (s : State) : Out :=
  .next (mainReg s (if 1024 ≤ n then s else clearHalted s q n))

/-- A channel that stops while it waits for ownership is paused at once (R387); one that nothing stops goes on. -/
def afterStop (s : State) (n : Nat) : State :=
  let c := getChn s n
  if chnStopping c then (if c.ownWait then updChn s n (fun c => { c with paused := true }) else s) else resumeChn s n

/-- CHN_CTL[n].pause (R385). -/
def writePause (s : State) (q : IoReq) (n : Nat) (v : Word) : State :=
  if opChannel s n then discard s q (offUser n 0)
  else afterStop (updChn s n (fun c => { c with pause := v.bit 0 })) n

def execChnCtlPause (q : IoReq) (n : Nat) (v : Word) (s : State) : Out :=
  .next (mainReg s (if 1024 ≤ n then s else writePause s q n v))

/-- CHN_ZONE as read (R391). -/
def chnZoneWord (c : Chn) : Word :=
  BitVec.ofNat 64 (c.en.toNat * 2 ^ 63 + c.errInt.toNat * 2 ^ 62 + c.zone * 2 ^ 50 + c.vector * 2 ^ 39 +
    c.vcid * 2 ^ 27 + c.hold.toNat * 2 ^ 26)

/-- The fields of CHN_ZONE taken from a written word. -/
def setChnZone (c : Chn) (v : Word) : Chn :=
  { c with
    en := v.bit 63, errInt := v.bit 62, zone := v.field 61 50, vector := v.field 49 39, vcid := v.field 38 27
    hold := v.bit 26 }

/-- Channels outside those of channel operations that are in service for a zone, but for `n` (R452). -/
def zoneChns (s : State) (z n : Nat) : Nat :=
  (s.mov.chns.filter (fun x => decide (chnMch s ≤ x.1 ∧ x.1 ≠ n) && x.2.en && x.2.zone == z)).length

/-- CHN_ZONE[n] (R386, R387, R391, R452): while in service, only hold may change, or the channel, paused or halted, be
taken out of service. -/
def writeChnZone (s : State) (q : IoReq) (n : Nat) (v : Word) : State :=
  let c := getChn s n
  if opChannel s n then discard s q (offZone n)
  else if c.en then
    if setBit (chnZoneWord c) 26 (v.bit 26) = BitVec.ofNat 64 (2 ^ 26 * (v.toNat / 2 ^ 26)) then
      afterStop (updChn s n (fun c => { c with hold := v.bit 26 })) n
    else if v.bit 63 = false ∧ (c.paused ∨ c.halted) then
      let s := dropEngines s n
      let s := { s with mov := { s.mov with order := s.mov.order.filter (· != n) } }
      updChn s n (fun c => { setChnZone c v with admitted := false })
    else discard s q (offZone n)
  else
    let z := v.field 61 50
    let (e, s) := zoneEntry rep s z
    let movq := match e with | some ws => (wordAt ws 4).field 52 42 | none => 0
    if zoneChns s z n < movq then
      updChn s n (fun c => if v.bit 63 then freshChn (setChnZone c v) else setChnZone c v)
    else discard s q (offZone n)

def execChnZoneHold (q : IoReq) (n : Nat) (v : Word) (s : State) : Out :=
  .next (mainReg s (if 1024 ≤ n then s else writeChnZone s q n v))

def execChnZoneEn (q : IoReq) (n : Nat) (v : Word) (s : State) : Out :=
  .next (mainReg s (if 1024 ≤ n then s else writeChnZone s q n v))

/-- CMP_CHCFG[n] (R406, R411, R415). -/
def writeChcfg (s : State) (q : IoReq) (n : Nat) (v : Word) : State :=
  if opChannel s n then discard s q (0x810000 + n * 0x20)
  else
  let s := updChn s n (fun c => { c with thr := v.field 15 8, sync := v.bit 2, clear := v.bit 1 })
  if v.bit 63 = false then s
  else if (getChn s n).desc.isSome then discard s q (0x810000 + n * 0x20)
  else updChn s n (fun c => { c with stream := none, cipher := none })

def execCmpChcfgDiscard (q : IoReq) (n : Nat) (v : Word) (s : State) : Out :=
  .next (mainReg s (if 1024 ≤ n then s else writeChcfg s q n v))

/-- CMP_CTL (R411, R413, R474). -/
def writeCmpCtl (s : State) (q : IoReq) (v : Word) : State :=
  if v.field 7 0 = 0xFF then discard s q 0x800000
  else
    let (off, s) := gateField s q 0x800000 s.bnd.cmp s.cmp.engOff (v.field 7 0)
    { s with cmp := { s.cmp with
      ioThr := v.field 39 32, ioSync := v.bit 9, ioClear := v.bit 8, engOff := off } }

def execCmpCtlEngOff (q : IoReq) (v : Word) (s : State) : Out :=
  .next (mainReg s (writeCmpCtl s q v))

/-- CIP_CTL (R430, R474). -/
def writeCipCtl (s : State) (q : IoReq) (v : Word) : State :=
  if v.field 7 0 = 0xFF then discard s q 0x900000
  else
    let (off, s) := gateField s q 0x900000 s.bnd.cip s.cip.off (v.field 7 0)
    { s with cip := { s.cip with inlLimit := v.field 39 32, off := off } }

def execCipCtlOff (q : IoReq) (v : Word) (s : State) : Out :=
  .next (mainReg s (writeCipCtl s q v))

/-- The 256 bits of CIP_KLD words `i` to `i + 3`. -/
def kldKey (s : State) (i : Nat) : BitVec 256 :=
  BitVec.ofNat 256 ((List.range 4).foldl (fun a k => a + (Table.get zeroWord s.cip.kld (i + k)).toNat * 2 ^ (64 * k)) 0)

/-- CIP_KCMT (R419, R432, R583). -/
def writeKcmt (s : State) (q : IoReq) (v : Word) : State :=
  if q.world = false then rwbIgnored s q 0x900140
  else if s.cip.kstBusy then discard s q 0x900140
  else
    match v.field 1 0 with
    | 1 => commitLoad s (v.field 27 16) (v.bit 4) (kldKey s 0) (kldKey s 4) (v.field 63 32) none
    | 2 => commitScrub s (v.field 27 16) none
    | _ => s

def execCipKcmtLoad (q : IoReq) (v : Word) (s : State) : Out :=
  .next (mainReg s (if v.field 1 0 = 1 then writeKcmt s q v else s))
def execCipKcmtScrub (q : IoReq) (v : Word) (s : State) : Out :=
  .next (mainReg s (if v.field 1 0 = 2 then writeKcmt s q v else s))

/-! ## Descriptors and beats -/

/-- A halt posts its interrupt where CHN_ZONE.err_int asks for it (R384, R443). -/
def postHalt (s : State) (n : Nat) : State :=
  let c := getChn s n
  if c.errInt then
    let (st, s) := issueStamp s (0x40 + n % 16)
    postEntry rep s ⟨c.zone, c.vcid, 3, c.vector, st, BitVec.ofNat 64 (n * 2 ^ 32 + c.errIndex)⟩
  else s

/-- The descriptor at head arrives (R376, R377): a failed fetch halts the channel, own = 0 stops it there. -/
def execDescriptorFetched (n : Nat) (words : List Word) (res : ReadResult) (s : State) : Out :=
  let c := getChn s n
  .next (if 1024 ≤ n ∨ opChannel s n ∨ c.en = false ∨ c.admitted = false ∨ c.desc.isSome ∨ c.wb.isSome ∨ c.halted ∨
      chnStopping c ∨ c.ownWait ∨ c.head = c.tail ∨ s.mov.disable.testBit (n % 16) then s
    else
      let a := ringAddr c c.head
      let ops := match res with | .ok _ => ReadResult.ok (wordsBytes words) | r => r
      match readAnswer s false a.toNat 64 c.zone ops with
      | (.ok bs, s) =>
        let ws := bytesWords 8 bs
        if (wordAt ws 0).bit 63 then beginDesc s n (descOfWords ws)
        else updChn s n (fun c => { c with ownWait := true })
      | (r, s) =>
        let (code, det) := readCode r
        postHalt (updChn s n (fun c => { latch c code det (lineDown a.toNat) false 0 c.head with halted := true })) n)

/-- Where the reads of a beat begin: one for each line that its source touches (R373, R378). -/
def readLines (a n : Nat) : List Nat := a :: (if 128 < a % 128 + n then [a / 128 * 128 + 128] else [])

/-- The reads of one beat are issued and count falls (R378, R382). At a boundary, a job whose slot has changed ends, and
one whose pipeline must be given up waits (R417, R420). After the last byte, a GCM decrypt reads its tag (R423). -/
def issueRead (s : State) (n : Nat) : State :=
  let c := getChn s n
  match c.desc with
  | none => s
  | some d =>
    if mayRead c d = false ∨ s.mov.disable.testBit (n % 16) then s
    else
      let stale : Bool := match c.cipher with | some x => decide (d.cipher ≠ 0 ∧ (getSlot s x.slot).gen ≠ x.gen) | none => false
      let give : Bool := match c.pipe with | some e => (getPipe s e).yielding | none => false
      if stale ∧ atBoundary c d ∧ c.beats.all (·.issued) then tryWriteBack (failChn s n 0 0x051B 0 0 false 0x15) n
      else if (stale ∨ give) ∧ atBoundary c d then s
      else
        let tag := decide (c.count = 0)
        if tag ∧ (gcmTail d 2 = 0 ∨ c.tagRead) then s
        else
          let b := if tag then ((srcAt c d d.count).1, 0, 16) else formBeat c d
          let s := updChn s n (fun c => paceChn { c with
            beats := c.beats ++ [⟨c.nextBeat, b.1, b.2.1, b.2.2, none, false⟩], nextBeat := c.nextBeat + 1
            count := if tag then 0 else c.count - b.2.2, tagRead := tag })
          if srcPcie d then
            sendFlit s (mkFlit s .adrd s.devId (0x140 + b.1 / 2 ^ 63) c.zone 0
              [BitVec.ofNat 64 (b.1 % 2 ^ 63), BitVec.ofNat 64 b.2.2])
          else if localMem s b.1 then s
          else (readLines b.1 b.2.2).foldl (fun s a =>
            sendFlit s (mkFlit s .rdOnce (addrDev (BitVec.ofNat 64 a)) 0x120 c.zone 0 [BitVec.ofNat 64 a])) s

def execMoverBeatIssue (n : Nat) (s : State) : Out := .next (if 1024 ≤ n then s else issueRead s n)

/-- Read data of a beat returns (R378, R383): its write is issued in order, or the channel fails. -/
def readReturns (s : State) (n beat : Nat) (res : ReadResult) : State :=
  let c := getChn s n
  match c.desc, c.beats.find? (fun b => b.id == beat && b.data.isNone && !b.issued) with
    | some d, some b =>
      if b.dst = deadDst then
        tryWriteBack (updChn s n (fun c => { c with beats := c.beats.filter (fun x => x.id != beat) })) n
      else match readAnswer s (srcPcie d || b.dst == flushDst) b.src b.len c.zone res with
        | (.ok bs, s) =>
          if b.dst = flushDst then tryWriteBack (updChn s n (fun c => { c with beats := c.beats.filter (fun x => x.id != beat) })) n
          else
          let s := updChn s n (fun c => { c with
            beats := c.beats.map (fun x => if x.id = beat then { x with data := some bs } else x) })
          tryWriteBack (advanceChn 65 s n) n
        | (r, s) =>
          let (code, det) := readCode r
          let s := updChn s n (fun c => { c with beats := c.beats.filter (fun x => x.id != beat) })
          tryWriteBack (failChn s n beat code det (lineDown b.src) false 0) n
    | _, _ => s

def execMoverReadData (n beat : Nat) (res : ReadResult) (s : State) : Out := .next (readReturns s n beat res)

/-- The failure of a write whose descriptor has been written back (R381). -/
def lateFail (s : State) (n beat code det : Nat) (addr : Word) : State :=
  let c := getChn s n
  let idx := match c.open'.find? (fun o => o.2.contains beat) with | some o => o.1 | none => c.head
  let s := updChn s n (fun c => { latch c code det addr true 0 idx with
    late := true, halted := true
    open' := (c.open'.map (fun o => (o.1, o.2.filter (· != beat)))).filter (fun o => o.2 != []) })
  postHalt s n

/-- Forget a beat whose write has been answered. -/
def dropBeat (c : Chn) (beat : Nat) : Chn :=
  paceChn { c with
    beats := c.beats.filter (fun x => x.id != beat)
    open' := (c.open'.map (fun o => (o.1, o.2.filter (· != beat)))).filter (fun o => o.2 != []) }

/-- The write of a beat fails (R381, R383). -/
def writeFails (s : State) (n beat code det : Nat) (addr : Word) : State :=
  let c := getChn s n
  if (openIds c).contains beat then
    let s := lateFail s n beat code det addr
    tryWriteBack (updChn s n (fun c => dropBeat c beat)) n
  else tryWriteBack (failChn (updChn s n (fun c => dropBeat c beat)) n beat code det addr true 0) n

/-- Bytes of a destination range that are stored, not dropped (R342). -/
def keptLen (c : Chn) (d : Desc) : Nat → Nat → Nat → Nat
  | 0, _, n => n
  | fuel + 1, pos, n =>
    if n = 0 then 0
    else
      let t := dstAt c d pos
      let k := min n t.2.1
      (if t.2.2 then 0 else k) + keptLen c d fuel (pos + k) (n - k)

/-- The bytes of a confirmed beat take effect in this module's memory. -/
def landBeat (s : State) (n : Nat) (d : Desc) (b : Beat) : EngRes × State :=
  let c := getChn s n
  let bs := b.data.getD []
  if dstPcie d then (.ok [], s)
  else if transforms d then storeAt s c.zone 0 (bs.length + 1) c d b.dst bs
  else if localMem s b.dst then engWrite rep 3 s (BitVec.ofNat 64 b.dst) bs c.zone false 0
  else (.ok [], s)

/-- A beat write is confirmed: bytes confirmed advances, and the write-back that waited for it goes (R379, R380). A
write that the home refuses is a failure (R383). -/
def execMoverWriteConfirm (n beat : Nat) (s : State) : Out :=
  let c := getChn s n
  .next (match c.beats.find? (fun b => b.id == beat && b.issued) with
    | none => s
    | some b =>
      let d := match c.desc with | some d => d | none => descOfWords []
      match landBeat s n d b with
      | (.ok _, s) =>
        let len := if transforms d then keptLen c d 257 b.dst (b.data.getD []).length else (b.data.getD []).length
        let own := !((openIds c).contains beat)
        let s := updChn s n (fun c => { dropBeat c beat with confirmed := if own then c.confirmed + len else c.confirmed })
        let s := { s with mov := { s.mov with beats := Table.upd zeroOf s.mov.beats (n % 16) (fun x => satAdd 32 x 1) } }
        tryWriteBack s n
      | (r, s) => let (code, det) := readCode r; writeFails s n beat code det (lineDown b.dst))

/-- A read or write of a mover fails on its link, its bus or its pipeline (R383, R427). -/
def busError (s : State) (n beat : Nat) (write : Bool) (code detail : Nat) : State :=
  let c := getChn s n
  match c.beats.find? (fun b => b.id == beat && b.issued == write) with
    | none => s
    | some b =>
      if code = 0x051B then
        let s := match detail, c.pipe with
          | 0x10, some e => cipherFault s e n c.zone
          | _, _ => s
        let s := updChn s n (fun c => { c with beats := c.beats.filter (fun x => x.id != beat) })
        tryWriteBack (failChn s n beat code 0 (lineDown b.src) false (detail % 256)) n
      else if write then writeFails s n beat code detail (lineDown b.dst)
      else
        let s := updChn s n (fun c => { c with beats := c.beats.filter (fun x => x.id != beat) })
        tryWriteBack (failChn s n beat code detail (lineDown b.src) false 0) n

def execMoverBusError (n beat : Nat) (write : Bool) (code detail : Nat) (s : State) : Out :=
  .next (busError s n beat write code detail)

/-- The channel's engine rebuilds its dictionary, which nothing interrupts (R408, R411). -/
def rebuilding (s : State) (c : Chn) : Bool := match c.eng with | some e => (getEng s e).job == 5 | none => false

/-- A stopping channel's drain ends (R385); a transform's state is saved and its engines are given back (R399, R407). -/
def pauseDone (s : State) (n : Nat) : State :=
  let c := getChn s n
  if 1024 ≤ n ∨ chnStopping c = false ∨ c.paused ∨ drained c = false ∨ rebuilding s c = true then s
  else
    let s := match c.desc with
      | some d =>
        if d.comp ≠ 0 ∧ c.eng.isSome then dropEngines (putRecord s n 2 0) n
        else if d.cipher ≠ 0 then freePipe s n else s
      | none => s
    updChn s n (fun c => { c with paused := true })

/-! ## Compression and cipher jobs -/

/-- The unissued beat whose turn it is, with its data. -/
def turnBeat (c : Chn) : Option (Beat × List Byte) :=
  match c.beats.find? (fun b => !b.issued) with
  | some b => match b.data with
    | some bs => if b.dst = deadDst then none else some (b, bs)
    | none => none
  | none => none

/-- A decant waits and no engine is idle: a job that is not a decant yields at its boundary (R399). -/
def decantWaits (s : State) : Bool :=
  (s.cmp.queue.any (fun j => match j with | .decant _ => true | _ => false)) && (idleEngine s).isNone

/-- An engine consumes one beat (R396 to R405); its verifier, or the pipeline of a combined transform, may find a
mismatch (R400, R427). -/
def execCompressionBeat (n : Nat) (verifyOk cipherOk : Bool) (s : State) : Out :=
  let c := getChn s n
  .next (match c.desc, c.eng, c.stream, turnBeat c with
    | some d, some e, some st, some (b, bs) =>
      if d.comp = 0 ∨ c.failed.isSome ∨ c.wb.isSome ∨ (getEng s e).job = 5 ∨ (d.cipher ≠ 0 ∧ c.pipe.isNone) then s
      else if verifyOk = false ∧ d.comp = 1 then tryWriteBack (streamFail (verifyFail s e c.zone) n 0x01) n
      else if cipherOk = false ∧ d.cipher ≠ 0 then
        tryWriteBack (streamFail (cipherFault s (c.pipe.getD 0) n c.zone) n 0x10) n
      else
        let s := if st.kind = 1 then compressBeat s n d b bs st else decompressBeat s n d b bs st
        let c := getChn s n
        let s := if decantWaits s ∧ c.failed.isNone ∧ c.ended = false ∧ atBoundary c d ∧ c.beats.all (·.issued) then
            yieldJob s n else s
        tryWriteBack s n
    | _, _, _, _ => s)

/-- The continuation record as it stands in memory is intact (R407, R409). -/
def recordIntact (s : State) (n : Nat) : Bool × State :=
  let c := getChn s n
  if opChannel s n then (true, s)
  else match engWords rep s c.run.2.2.2 64 c.zone false with
    | (.ok ws, s) => (decide (crc32c (wordsBytes (ws.take 63)) = (wordAt ws 63).field 31 0), s)
    | (.error _, s) => (false, s)

/-- The anchor in memory meets the CRC of its record. -/
def anchorIntact (s : State) (n : Nat) (st : LzStream) : Bool × State :=
  let c := getChn s n
  if opChannel s n then (true, s)
  else
    let (bs, s) := readExtents s c.zone (anchorExtents st)
    match engWords rep s (c.run.2.2.2 + 64) 1 c.zone false with
    | (.ok ws, s) => (decide (crc32c bs = (wordAt ws 0).field 31 0), s)
    | (.error _, s) => (false, s)

/-- The dictionary is rebuilt and its CRCs checked (R408 to R410): the job goes on, or its stream ends. -/
def execAnchorRebuildDone (n : Nat) (recordOk anchorOk : Bool) (s : State) : Out :=
  let c := getChn s n
  .next (match c.desc, c.eng, c.stream with
    | some d, some e, some st =>
      if (getEng s e).job ≠ 5 then s
      else
        let s := updEng s e (fun x => { x with job := st.kind })
        let (r, s) := recordIntact s n
        if r = false ∨ recordOk = false then tryWriteBack (streamFail s n 0x07) n
        else
          let (a, s) := anchorIntact s n st
          if a = false ∨ anchorOk = false then tryWriteBack (streamFail s n 0x06) n
          else
            let next := if st.kind = 1 then (dstAt c d 0).1 else (srcAt c d (d.count - c.count)).1
            let joins := match st.extents.getLast? with | some x => decide (x.1 + x.2 = next) | none => false
            if 16 ≤ (anchorExtents st).length ∧ st.fullAt.isNone ∧ joins = false then
              (if st.kind = 1 then updChn s n (fun c => { c with stream := some { lzStop st 1 with group := st.group } })
               else tryWriteBack (streamFail s n 0x05) n)
            else s
    | _, _, _ => s)

/-- The first waiting cipher job takes the lowest idle pipeline in service (R417). -/
def execCipherPipelineAssign (s : State) : Out :=
  .next (match s.cip.queue, idlePipe s with
    | n :: t, some e =>
      let mode := match (getChn s n).cipher with | some x => x.mode | none => 0
      let s := { s with cip := { s.cip with queue := t } }
      let s := updPipe s e (fun p => { p with job := mode + 1, channel := n, since := now s, yielding := false })
      updChn s n (fun c => { c with pipe := some e })
    | _, _ => s)

/-- A job that has held its pipeline for 2^14 mt while another waits gives it up at its next boundary, and joins the
queue behind every waiting job; a combined transform gives up both (R417). -/
def execCipherYield (e : Nat) (s : State) : Out :=
  let p := getPipe s e
  .next (if p.job = 0 ∨ s.cip.queue = [] ∨ (now s + 2 ^ 64 - p.since) % 2 ^ 64 < 2 ^ 14 then s
    else
      let c := getChn s p.channel
      match c.desc with
      | none => s
      | some d =>
        if atBoundary c d ∧ c.beats.all (·.issued) ∧ c.failed.isNone ∧ c.ended = false ∧ rebuilding s c = false then
          if d.comp ≠ 0 then yieldJob s p.channel
          else
            let s := freePipe s p.channel
            { s with cip := { s.cip with queue := s.cip.queue ++ [p.channel] } }
        else updPipe s e (fun p => { p with yielding := true }))

/-- No pipeline holds a key schedule of the slot's previous generation any longer (R420). -/
def keySettled (s : State) (slot : Nat) : Bool :=
  (List.range 8).all (fun e =>
    let p := getPipe s e
    if p.job = 0 then true
    else match (getChn s p.channel).cipher with
      | some x => x.slot != slot || x.gen == (getSlot s slot).gen
      | none => true)

def execKeyCommitDone (s : State) : Out :=
  .next (if s.cip.kstBusy = false ∨ keySettled s s.cip.kstSlot = false then s
    else
      let m := s.cip.kstMbx
      let s := { s with cip := { s.cip with kstBusy := false, kstMbx := none } }
      setOutcomeOpt s m (okRes [BitVec.ofNat 64 (getSlot s s.cip.kstSlot).gen]))

end Sys2Proof.Machine
end

