-- ==== Sys2Proof/Machine/ChannelOps.lean ====
section
/-! DEFINITION. Channel operations: subchannel entries, acceptance, the journal, the decision of an end, completion
queues and posting, channel programs and adapters (R333 to R365). -/

namespace Sys2Proof.Machine

/-! ## Subchannel entries (R333 to R335) -/

def eZone (e : List Word) : Nat := (wordAt e 0).field 61 50
def eKind (e : List Word) : Nat := (wordAt e 0).field 49 48
def eInt (e : List Word) : Bool := (wordAt e 0).bit 47
def eVector (e : List Word) : Nat := (wordAt e 0).field 46 36
def eVcid (e : List Word) : Nat := (wordAt e 0).field 35 24
def eTimeout (e : List Word) : Nat := (wordAt e 0).field 15 0
def eCtl (e : List Word) : Nat := (wordAt e 1).field 63 63
def eWindow (e : List Word) : Nat := (wordAt e 3).toNat / 4096 * 4096
def eWinSize (e : List Word) : Nat := 2 ^ (wordAt e 3).field 5 0
def eQueue (e : List Word) : Nat := (wordAt e 4).toNat
def eQm (e : List Word) : Nat := (wordAt e 6).field 4 0

/-- An entry is valid and its fields are in range (R333, R334). -/
def entryOk (e : List Word) : Bool :=
  (wordAt e 0).bit 63 && decide (eKind e ≤ 1) &&
    ((eKind e == 1 && wordAt e 1 == 0) || (eKind e == 0 && (wordAt e 2).field 5 0 == 0 && (wordAt e 3).field 11 6 == 0 &&
      decide (12 ≤ (wordAt e 3).field 5 0 ∧ (wordAt e 3).field 5 0 ≤ 32))) &&
    decide (4 ≤ eQm e ∧ eQm e ≤ 16) && decide (eQueue e % 2 ^ (eQm e + 6) = 0) && (wordAt e 5).field 7 0 == 0

/-- A subchannel's entry: the cached copy, or one read with zone 0 and kept; 512 are cached (R333, R335). -/
def subEntry (s : State) (n : Nat) : Option (List Word) × State :=
  match Assoc.get s.chs.subCache n with
  | some e => (some e, s)
  | none =>
    match engWords rep s (s.chs.sctb + BitVec.ofNat 64 (128 * n)) 16 0 false with
    | (.ok e, s) =>
      let c := if 512 ≤ s.chs.subCache.length then s.chs.subCache.drop 1 else s.chs.subCache
      (some e, { s with chs := { s.chs with subCache := Assoc.put c n e } })
    | (.error _, s) => (none, s)

def nsubOf (s : State) : Nat := if s.chs.nsub = 0 then 65536 else s.chs.nsub

/-! ## Operations -/

def getOp (s : State) (n : Nat) : Option ChOp := Assoc.get s.chs.ops n
def putOp (s : State) (n : Nat) (o : ChOp) : State := { s with chs := { s.chs with ops := Assoc.put s.chs.ops n o } }
def delOp (s : State) (n : Nat) : State := { s with chs := { s.chs with ops := Assoc.del s.chs.ops n } }
def updOp (s : State) (n : Nat) (f : ChOp → ChOp) : State :=
  match getOp s n with
  | some o => putOp s n (f o)
  | none => s

def cpOf (_ : Nat) : Cp := ⟨0, 0⟩
def getCp (s : State) (n : Nat) : Cp := Table.get cpOf s.chs.cps n
def updCp (s : State) (n : Nat) (f : Cp → Cp) : State :=
  { s with chs := { s.chs with cps := Table.upd cpOf s.chs.cps n f } }

/-- Operations that a processor carries (R369). -/
def cpLoad (s : State) (n : Nat) : Nat := (s.chs.ops.filter (fun o => o.2.jr.cp == n)).length

/-- The processor that takes an operation: running, fewer than 48 operations, the fewest, lowest number first (R337). -/
def pickCp (s : State) : Option Nat :=
  (List.range 32).foldl (fun (b : Option Nat) n =>
    if (getCp s n).state ≠ 0 ∨ 48 ≤ cpLoad s n then b
    else match b with
      | some m => if cpLoad s n < cpLoad s m then some n else b
      | none => some n) none

/-! ## The journal (R352 to R357) -/

/-- The 32 words of a record (R353). -/
def jrWords (r : JRec) : List Word :=
  let num := BitVec.ofNat 64
  let body := [num (r.phase * 2 ^ 56 + r.cp * 2 ^ 48 + r.sub * 2 ^ 32 + r.count % 2 ^ 32), r.stamp,
    num (r.zone * 2 ^ 52 + r.kind * 2 ^ 50 + r.cmdSent.toNat * 2 ^ 49 + r.unmirrored.toNat * 2 ^ 48 +
      r.error % 65536 * 2 ^ 32 + r.seq % 65536 * 2 ^ 16 + r.mover % 65536), r.firstCcw, r.curCcw, r.param,
    num r.acceptedAt, num r.deadline, num r.bytes, num (r.residual % 2 ^ 32 * 2 ^ 32 + r.devStatus % 65536),
    num r.outBytes, r.cstamp, num (r.slot % 2 ^ 32)] ++ (r.entry ++ List.replicate 16 0).take 16 ++ [0, 0]
  body ++ [num (crc32c (wordsBytes body))]

/-- A message of the channel-I/O class to another module's channel subsystem (R355). -/
def sendChs (s : State) (op : FlitOp) (dev : Nat) (zone : Nat) (stamp : Word) (ws : List Word) : State :=
  send s op dev 0x121 zone stamp ws

/-- Write a record: the update count rises, the local copies are under way, and the partner, where there is one, gets its
copy. `await` says that the partner's answer is awaited; `next` is what follows (R354, R357). -/
def writeJournal (s : State) (n : Nat) (await : Bool) (next : Nat) : State :=
  match getOp s n with
  | none => s
  | some o =>
    let unm := o.jr.unmirrored || s.fab.partner.isNone
    let jr := { o.jr with count := (o.jr.count + 1) % 2 ^ 32, unmirrored := unm }
    let s := putOp s n { o with jr := jr, wait := .journal next false (await && !unm) }
    match s.fab.partner with
    | some p => if unm then s else sendChs s .jmw p jr.zone jr.stamp (jrWords jr)
    | none => s

/-! ## Mover channels of operations (R338, R366, R372) -/

/-- A channel that its operation gives back; the registers that software writes keep their values. -/
def idleChn (c : Chn) : Chn := { freshChn c with en := false, pause := false, hold := false }

/-- Writes under way take effect, and their bytes count. -/
def landAll (s : State) (n : Nat) : State :=
  let c := getChn s n
  match c.desc with
  | none => s
  | some d => (c.beats.filter (·.issued)).foldl (fun s b =>
      match landBeat s n d b with
      | (.ok _, s) => updChn s n (fun c => { dropBeat c b.id with
          confirmed := c.confirmed + keptLen c d 257 b.dst (b.data.getD []).length })
      | (_, s) => updChn s n (fun c => dropBeat c b.id)) s

/-- The operation ends its use of a mover channel: its bytes are added, the channel is free. -/
def releaseMover (s : State) (n : Nat) : State :=
  match getOp s n with
  | none => s
  | some o =>
    match o.mover with
    | none => s
    | some k =>
      let s := dropEngines (landAll s k) k
      let c := getChn s k
      let s := { s with mov := { s.mov with order := s.mov.order.filter (· != k) } }
      let s := updChn s k idleChn
      putOp s n { o with
        mover := none
        jr := { o.jr with
          bytes := o.jr.bytes + (if c.desc.isSome then c.confirmed else 0)
          outBytes := o.jr.outBytes + (if c.desc.isSome then c.outBytes else 0) } }

/-! ## Completion queues and entries (R349 to R351, R362) -/

/-- The eight words of a completion entry (R349). -/
def complWords (dev : Nat) (r : JRec) (orphan partial' unm : Bool) : List Word :=
  let num := BitVec.ofNat 64
  [r.stamp, r.cstamp,
   num (r.kind * 2 ^ 62 + orphan.toNat * 2 ^ 61 + unm.toNat * 2 ^ 60 + partial'.toNat * 2 ^ 59 +
     r.error % 65536 * 2 ^ 32 + r.sub * 2 ^ 16 + dev % 65536),
   r.param, r.curCcw, num (r.residual % 2 ^ 32 * 2 ^ 32 + r.devStatus % 65536), num r.bytes, num r.outBytes]

/-- A queue as the posting unit serves it; a new one starts at the tail word in memory (log entry 51). -/
def openQueue (s : State) (e : List Word) : PostQueue × State :=
  match Assoc.get s.chs.queues (eQueue e) with
  | some q => (q, s)
  | none =>
    let (t, s) := match engWords rep s (wordAt e 5) 1 (eZone e) false with
      | (.ok ws, s) => ((wordAt ws 0).field 31 0, s)
      | (.error _, s) => (0, s)
    let q : PostQueue := ⟨wordAt e 4, wordAt e 5, eQm e, t, t, t, [], []⟩
    (q, { s with chs := { s.chs with queues := Assoc.put s.chs.queues (eQueue e) q } })

def putQueue (s : State) (k : Nat) (q : PostQueue) : State :=
  { s with chs := { s.chs with queues := Assoc.put s.chs.queues k q } }

/-- A slot index that a record in phase POSTING still names, modulo the queue's size (R362). -/
def slotHeld (s : State) (k m i : Nat) : Bool :=
  s.chs.ops.any (fun o => eQueue o.2.jr.entry == k && o.2.jr.phase == 4 && o.2.jr.slot % 2 ^ m == i % 2 ^ m)

/-- Assign slots to waiting completions in order while the queue has room (R350): POSTING is written and awaited. -/
def assignSlots (k : Nat) : Nat → State → State
  | 0, s => s
  | fuel + 1, s =>
    match Assoc.get s.chs.queues k with
    | none => s
    | some q =>
      match q.waiting with
      | [] => s
      | n :: t =>
        match getOp s n with
        | none => assignSlots k fuel (putQueue s k { q with waiting := t })
        | some o =>
          if 2 ^ q.m ≤ (q.next + 2 ^ 32 - q.head) % 2 ^ 32 ∨ slotHeld s k q.m q.next then s
          else
            let s := putQueue s k { q with next := (q.next + 1) % 2 ^ 32, waiting := t }
            let s := putOp s n { o with jr := { o.jr with phase := 4, slot := q.next } }
            assignSlots k fuel (writeJournal s n true 5)

/-- Read the head word of a queue again (R350). -/
def rereadHead (s : State) (k zone : Nat) : State :=
  match Assoc.get s.chs.queues k with
  | none => s
  | some q =>
    match engWords rep s (q.ctl + 128) 1 zone false with
    | (.ok ws, s) => putQueue s k { q with head := (wordAt ws 0).field 31 0 }
    | (.error _, s) => s

/-- A decided completion joins its queue (R350). -/
def queueCompletion (s : State) (n : Nat) : State :=
  match getOp s n with
  | none => s
  | some o =>
    let (q, s) := openQueue s o.jr.entry
    let k := eQueue o.jr.entry
    let s := putQueue s k { q with waiting := q.waiting ++ [n] }
    let s := putOp s n { o with wait := .slot }
    assignSlots k 65536 (rereadHead s k (eZone o.jr.entry))

/-- The record is FREE and the subchannel IDLE (R338, R354). -/
def freeOp (s : State) (n : Nat) : State := delOp s n

/-- The completion's interrupt, once the tail has passed its slot (R351, R443). -/
def postCompletion (s : State) (dev : Nat) (r : JRec) : State :=
  if eInt r.entry then
    postEntry rep s ⟨eZone r.entry, eVcid r.entry, 1, eVector r.entry, r.cstamp, BitVec.ofNat 64 (r.sub * 2 ^ 16 + dev % 65536)⟩
  else s

/-- Operations whose slot the tail has just passed: interrupt, then FREE, or JREL to the partner (R351, R354, R357). -/
def passTail (s : State) (k tail : Nat) : State :=
  (s.chs.ops.filter (fun o => eQueue o.2.jr.entry == k && o.2.jr.phase == 4 && o.2.wait == .nothing &&
      decide ((tail + 2 ^ 32 - o.2.jr.slot) % 2 ^ 32 ≤ 2 ^ 31 ∧ tail ≠ o.2.jr.slot))).foldl (fun s (o : Nat × ChOp) =>
    let s := postCompletion s s.devId o.2.jr
    match o.2.jr.unmirrored, s.fab.partner with
    | false, some p =>
      sendChs (updOp s o.1 (fun x => { x with wait := .jrelack })) .jrel p o.2.jr.zone o.2.jr.stamp
        [BitVec.ofNat 64 o.1, o.2.jr.stamp]
    | _, _ => freeOp s o.1) s

/-- Advance a tail over every consecutive written slot (R351). -/
def tailOver : Nat → List Nat → Nat → Nat
  | 0, _, t => t
  | fuel + 1, w, t => if w.contains t then tailOver fuel w ((t + 1) % 2 ^ 32) else t

/-- The address of slot `i` of a queue (R350). -/
def slotAddr (q : PostQueue) (i : Nat) : Word := q.base + BitVec.ofNat 64 (64 * (i % 2 ^ q.m))

/-- Write an operation's entry into its slot, advance the tail, and go on with what the tail has passed (R351, R358). A
write that the home refuses is dropped with a class C2 record; the record is released all the same (log entry 52). -/
def writeEntry (s : State) (n : Nat) : State :=
  match getOp s n with
  | none => s
  | some o =>
    let k := eQueue o.jr.entry
    let (q, s) := openQueue s o.jr.entry
    let zone := eZone o.jr.entry
    let again := decide (Assoc.get s.chs.lastPosted n = some o.jr.stamp)
    let s := if again then { s with chs := { s.chs with dup := satAdd 16 s.chs.dup 1 } }
      else
        match engPutWords rep s (slotAddr q o.jr.slot)
            (complWords s.devId o.jr false false (o.jr.unmirrored && !o.ackedEnd)) zone o.jr.cstamp with
        | (some r, s) => faultAt s 0x0A 2 r o.jr.cstamp (slotAddr q o.jr.slot)
            (BitVec.ofNat 64 (o.jr.cp + n * 2 ^ 16)) zone
        | (none, s) => { s with chs := { s.chs with
            posted := satAdd 32 s.chs.posted 1, lastPosted := Assoc.put s.chs.lastPosted n o.jr.stamp } }
    let s := putOp s n { o with wait := .nothing }
    let w := o.jr.slot :: q.written
    let t := tailOver 65537 w q.tail
    let s := putQueue s k { q with written := w.filter (fun i => !(decide ((t + 2 ^ 32 - i) % 2 ^ 32 ≤ 2 ^ 31) && i != t)), tail := t }
    let s := if t = q.tail then s else (engPutWords rep s q.ctl [BitVec.ofNat 64 t] zone o.jr.cstamp).2
    passTail s k t

/-! ## The decision of an end (R354, R359) -/

def opZoneCount (s : State) (z : Nat) : Nat :=
  (s.chs.ops.filter (fun o => o.2.jr.zone == z && (o.2.state == 2 || o.2.state == 3))).length

/-- PENDING operations that head their zone's order (R338). -/
def pendingHeads (s : State) : List (Nat × ChOp) :=
  let p := s.chs.ops.filter (fun o => o.2.state == 1 && o.2.wait == .nothing)
  p.filter (fun o => p.all (fun x => x.2.jr.zone != o.2.jr.zone || decide (o.2.acceptSeq ≤ x.2.acceptSeq)))

/-- The zone's channel concurrency allows one more (R338, R449). -/
def chconAllows (s : State) (z : Nat) : Bool :=
  let c := match (zoneEntry rep s z).1 with | some ws => (wordAt ws 4).field 31 21 | none => 0
  decide (c = 0 ∨ opZoneCount s z < c)

/-- The mover channel that an operation gets: the lowest that none holds (R338). -/
def freeMover (s : State) : Option Nat :=
  (List.range (chnMch s)).find? (fun k => s.chs.ops.all (fun o => o.2.mover != some k))

/-- PENDING operations become ACTIVE while channels and their zones' concurrency last, the oldest first (R338). -/
def activate : Nat → State → State
  | 0, s => s
  | fuel + 1, s =>
    let ok := (pendingHeads s).filter (fun o => chconAllows s o.2.jr.zone)
    match freeMover s, ok with
    | some k, a :: t =>
      let b := t.foldl (fun (b : Nat × ChOp) o => if o.2.acceptSeq < b.2.acceptSeq then o else b) a
      let o := b.2
      let s := putOp s b.1 { o with
        state := 2, wait := .ccw, mover := some k, jr := { o.jr with mover := k, curCcw := o.jr.firstCcw } }
      activate fuel (updChn s k (fun c => { freshChn c with zone := o.jr.zone, pause := false, hold := false }))
    | _, _ => s

/-- Decide an operation's end: the first decision stands, a later one is counted (R354). The completion stamp is the
processor's; ENDED is written and awaited. -/
def endOp (s : State) (n kind error : Nat) : State :=
  match getOp s n with
  | none => s
  | some o =>
    if 3 ≤ o.jr.phase then { s with chs := { s.chs with dup := satAdd 16 s.chs.dup 1 } }
    else
      let s := releaseMover s n
      let (st, s) := issueStamp s (0x20 + o.jr.cp)
      let s := setOutcomeOpt s o.mbx (okRes [o.jr.stamp])
      let s := updOp s n (fun o => { o with
        state := 4, mbx := none, upc := none, jr := { o.jr with phase := 3, kind := kind, error := error, cstamp := st } })
      activate 1024 (writeJournal s n true 4)

/-- An end with a device status that the outcome carries (R349, R359). -/
def endOpStatus (s : State) (n error dev : Nat) : State :=
  endOp (updOp s n (fun o => { o with jr := { o.jr with devStatus := dev } })) n 1 error

/-- The error code of an end whose code no rule states: open (log entry 53). -/
def endOpen (s : State) (n kind : Nat) : State :=
  let e := Config.freeNat s.fresh % 65536
  endOp (nextFree s) n kind e

/-! ## Adapters (R345, R346) -/

/-- The 64-byte record for the command window, as one posted write (R345). -/
def commandRecord (s : State) (n : Nat) (abort : Bool) (code : Nat) : State :=
  match getOp s n with
  | none => s
  | some o =>
    let num := BitVec.ofNat 64
    let ws := [o.jr.stamp, num (o.jr.seq % 65536 * 2 ^ 48 + code % 256 * 2 ^ 40 + o.flags * 2 ^ 32 +
      abort.toNat * 2 ^ 24 + n % 65536), num (o.total % 2 ^ 32), 0, 0, 0, 0, 0]
    sendFlit s (mkFlit s .adwr s.devId (0x140 + eCtl o.jr.entry) o.jr.zone o.jr.stamp (wordAt o.jr.entry 2 :: ws))

/-- Command record, then wait for the status. -/
def sendCommand (s : State) (n : Nat) : State :=
  match getOp s n with
  | none => s
  | some o => updOp (commandRecord s n false o.opcode) n (fun o => { o with wait := .status })

/-- Abort record, for an adapter (R339). -/
def sendAbort (s : State) (n : Nat) : State :=
  match getOp s n with
  | none => s
  | some o => if eKind o.jr.entry = 0 then commandRecord s n true o.opcode else s

/-! ## Data movement -/

/-- The operation's mover channel takes a transfer, with the barrier flag (R347, R351). -/
def startMove (s : State) (n op comp cipher : Nat) (count : Nat) (limit : Nat) (src dst : Nat)
    (pieces : List (Nat × Nat × Bool)) (scatter : Bool) : State :=
  match getOp s n with
  | none => s
  | some o =>
    match o.mover with
    | none => s
    | some k =>
      let p := o.xform / 4 % 4
      let d : Desc := ⟨op, true, false, cipher, comp, limit, count, BitVec.ofNat 64 src, BitVec.ofNat 64 dst,
        wordAt o.jr.entry (8 + 2 * p), wordAt o.jr.entry (9 + 2 * p), 0⟩
      let s := putOp s n { o with wait := .mover }
      let s := updChn s k (fun c => { c with pieces := pieces, scatterDst := scatter, halted := false, reading := true })
      beginDesc (admitChn s k) k d

def xfCipher (x : Nat) : Nat := x / 64
def xfComp (x : Nat) : Nat := x / 16 % 4

/-- The PCIe address of the adapter's data window, as a mover names it (R375). -/
def windowAddr (o : ChOp) : Nat := eCtl o.jr.entry * 2 ^ 63 + eWindow o.jr.entry % 2 ^ 63

/-- The first address of the pieces. -/
def pieceStart (ps : List (Nat × Nat × Bool)) : Nat := match ps with | p :: _ => p.1 | [] => 0

/-- The data phase of the chain in work (R347). -/
def dataPhase (s : State) (n : Nat) : State :=
  match getOp s n with
  | none => s
  | some o =>
    let comp := xfComp o.xform
    let ci := xfCipher o.xform
    match o.opcode with
    | 0x10 | 0x12 => startMove s n 1 comp ci o.total (eWinSize o.jr.entry) (pieceStart o.pieces) (windowAddr o) o.pieces false
    | 0x20 =>
      if comp = 0 ∧ ci = 0 then
        match o.pieces[o.piece]? with
        | some p => startMove s n 0 0 0 p.2.1 0 p.1
            (o.dest.toNat + ((o.pieces.take o.piece).foldl (fun a x => a + x.2.1) 0)) [] false
        | none => startMove s n 0 0 0 0 0 0 0 [] false
      else startMove s n 0 comp ci o.total o.total (pieceStart o.pieces) o.dest.toNat
        (if o.pieces.length ≤ 1 then [] else o.pieces) false
    | _ => sendCommand s n

/-- The data of a FETCH or QUERY, once the status has arrived (R347). -/
def storePhase (s : State) (n count : Nat) : State :=
  match getOp s n with
  | none => s
  | some o => startMove s n 2 (xfComp o.xform) (xfCipher o.xform) count o.total (windowAddr o) (pieceStart o.pieces) o.pieces true

/-- A CCW has completed: the next seq is written (R354). -/
def completeCcw (s : State) (n : Nat) : State :=
  writeJournal (updOp s n (fun o => { o with jr := { o.jr with seq := (o.jr.seq + 1) % 65536, cmdSent := false } })) n false 3

/-- The command in work has its status and its data: notice, short transfer, or complete (R343, R347). -/
def afterData (s : State) (n : Nat) : State :=
  match getOp s n with
  | none => s
  | some o =>
    if o.jr.devStatus.testBit 13 then endOp s n 1 0x0515
    else if o.jr.residual ≠ 0 ∧ o.lflags.testBit 4 = false then endOp s n 1 0x0512
    else completeCcw s n

/-! ## Customer microcode (R363 to R365) -/

/-- Store the words of a microcode load once no operation executes a customer word (R365). -/
def tryUcodeLoad (s : State) : State :=
  match s.chs.load with
  | none => s
  | some (m, _, ws, codes, ver) =>
    if s.chs.ops.any (fun o => o.2.upc.isSome) then s
    else
      let st := ws.foldl (fun (t : Table Nat) (w : Nat × Nat) => Table.set zeroOf t w.1 w.2) s.chs.store
      let s := { s with chs := { s.chs with
        store := st, custCodes := s.chs.custCodes ||| codes, custImage := ver, load := none } }
      setOutcome s m (okRes [BitVec.ofNat 64 ver, BitVec.ofNat 64 codes])

/-- A customer word faults: the operation ends with MICRO_FAULT, class C0 (R359). -/
def microFault (s : State) (n : Nat) : State :=
  match getOp s n with
  | none => s
  | some o => tryUcodeLoad (endOp (faultAt s 0x0A 0 0 o.jr.stamp 0 (BitVec.ofNat 64 (o.jr.cp + n * 2 ^ 16)) o.jr.zone) n 1 0x0517)

/-- A field of a microword. -/
def mwField (w hi lo : Nat) : Nat := w / 2 ^ lo % 2 ^ (hi + 1 - lo)

def uGet (o : ChOp) (r : Nat) : Word := if r = 0 then 0 else Table.get zeroWord o.uregs r
def uSet (o : ChOp) (r : Nat) (v : Word) : ChOp :=
  if r = 0 then o else { o with uregs := Table.set zeroWord o.uregs r v }

/-- Context register 32 holds whether the last xop succeeded. -/
def uOk (o : ChOp) : Bool := Table.get zeroWord o.uregs 32 != 0
def uSetOk (o : ChOp) (b : Bool) : ChOp := { o with uregs := Table.set zeroWord o.uregs 32 (if b then 1 else 0) }

/-- The ALU of a microword: result and carry (R363). What no rule states is open: a shift by 64 or more, and the carry of
anything but an addition. -/
def uAlu (s : State) (f : Nat) (a b : Word) : Word × Bool :=
  let sh := fun (x : Word) => if b.toNat < 64 then x else Config.freeWord s.fresh
  match f with
  | 1 => (a + b, decide (2 ^ 64 ≤ a.toNat + b.toNat))
  | 2 | 8 => (a - b, Config.freeBool s.fresh)
  | 3 => (a &&& b, false)
  | 4 => (a ||| b, false)
  | 5 => (a ^^^ b, false)
  | 6 => (sh (a <<< b.toNat), Config.freeBool s.fresh)
  | 7 => (sh (a >>> b.toNat), Config.freeBool s.fresh)
  | _ => (a, false)

/-- The deadline has passed. -/
def pastDue (s : State) (r : JRec) : Bool :=
  decide (r.deadline ≠ 0 ∧ (now s + 2 ^ 64 - r.deadline) % 2 ^ 64 < 2 ^ 63)

/-- The condition of a microword (R364). -/
def uCond (s : State) (o : ChOp) (c : Nat) (res : Word) (carry : Bool) : Bool :=
  match c with
  | 1 => res == 0
  | 2 => res.bit 63
  | 3 => carry
  | 4 => uOk o
  | 5 => !(uOk o)
  | 6 => o.state == 3 || pastDue s o.jr
  | 7 => o.flags.testBit 7
  | 8 => o.flags.testBit 6
  | _ => false

/-- A word that R363 and R364 make a fault in customer code: reserved fields, codes or registers. -/
def uBad (w : Nat) : Bool :=
  decide (8 < mwField w 95 90 ∨ 8 < mwField w 85 80 ∨ mwField w 47 32 ≠ 0 ∨ mwField w 63 60 = 7 ∨ 9 < mwField w 63 60 ∨
    (16 ≤ mwField w 79 75 ∧ mwField w 85 80 ≠ 8) ∨ mwField w 127 112 < 0xE000 ∨
    (mwField w 95 90 ≠ 0 ∧ mwField w 111 96 < 0xE000) ∨ (mwField w 63 60 = 3 ∧ 2 < mwField w 59 48))

/-- How an external operation leaves the processor: on to the next word, waiting, or done. -/
inductive XEnd where
  | go | wait | stop
  deriving DecidableEq, Repr

/-- An external operation of a customer word (R364). -/
def uXop (s : State) (n w : Nat) (o : ChOp) (a b imm : Word) : XEnd × State :=
  let put := fun (s : State) (f : ChOp → ChOp) => updOp s n f
  match mwField w 63 60 with
  | 1 =>
    match engRead rep 3 s (a + imm) 8 o.jr.zone false o.jr.stamp with
    | (.ok bs, s) => (.go, put s (fun o => uSetOk (uSet o (mwField w 79 75) (wordAt (bytesWords 1 bs) 0)) true))
    | (_, s) => (.go, put s (fun o => uSetOk o false))
  | 2 =>
    match engWrite rep 3 s (a + imm) (leBytes 8 b.toNat) o.jr.zone false o.jr.stamp with
    | (.ok _, s) => (.go, put s (fun o => uSetOk o true))
    | (_, s) => (.go, put s (fun o => uSetOk o false))
  | 3 =>
    if o.umov = 1 then (.go, put s (fun o => uSetOk o false))
    else
      let win := windowAddr o + (uGet o 21).toNat
      let s := put s (fun o => { uSetOk o true with umov := 1 })
      let c := xfComp o.xform
      let e := xfCipher o.xform
      let s := match mwField w 59 48 with
        | 0 => startMove s n 1 c e b.toNat 0 a.toNat win [] false
        | 1 => startMove s n 2 c e b.toNat 0 win a.toNat [] false
        | _ => startMove s n 0 c e b.toNat 0 a.toNat imm.toNat [] false
      (.go, put s (fun o => { o with wait := .nothing }))
  | 4 => if o.umov = 1 then (.wait, put s (fun o => { o with wait := .mover, usteps := 0 })) else (.go, put s (fun o => uSetOk o true))
  | 5 => (.go, put (commandRecord s n false (mwField w 55 48)) (fun o => uSetOk o true))
  | 6 => (.wait, put s (fun o => { o with wait := .status, usteps := 0 }))
  | 9 =>
    let s := put s (fun o => { o with upc := none })
    let r3 := (uGet o 3).field 15 0
    (.stop, tryUcodeLoad (if uGet o 3 = 0 then completeCcw s n else endOp s n 1 r3))
  | _ => (.go, s)

/-- Execute customer words from the operation's next one on, until one waits, ends or faults; after 2^16 words without a
wait the row MICROWORD_RUNAWAY ends it (R359, R363). -/
def runMicro : Nat → State → Nat → State
  | 0, s, n => updOp s n (fun o => { o with usteps := 65536, wait := .nothing })
  | fuel + 1, s, n =>
    match getOp s n with
    | none => s
    | some o =>
      match o.upc with
      | none => s
      | some pc =>
        let w := Table.get zeroOf s.chs.store pc
        if pc < 0xE000 ∨ 0xFFFF < pc ∨ uBad w then microFault s n
        else
          let imm := BitVec.ofNat 64 (mwField w 31 0)
          let a := uGet o (mwField w 74 70)
          let b := if mwField w 64 64 = 1 then imm else uGet o (mwField w 69 65)
          let (res, carry) := uAlu s (mwField w 85 80) a b
          let s := nextFree s
          let s := updOp s n (fun o => if mwField w 85 80 = 8 ∨ mwField w 63 60 = 1 then o else uSet o (mwField w 79 75) res)
          let (e, s) := uXop s n w o a b imm
          match e with
          | .stop => s
          | _ =>
            match getOp s n with
            | none => s
            | some o2 =>
              let o3 := if e == .wait then uSetOk o2 true else o2
              let taken := uCond s o3 (mwField w 95 90) res carry != (mwField w 89 89 == 1)
              let s := putOp s n { o2 with upc := some (if taken then mwField w 111 96 else mwField w 127 112) }
              if e == .wait then s else runMicro fuel s n

/-- Enter a customer code: the context registers are loaded (R363, R364). -/
def enterMicro (s : State) (n : Nat) (w0 w1 : Word) : State :=
  let s := updOp s n (fun o =>
    let regs : Table Word := []
    let regs := Table.set zeroWord regs 16 o.jr.stamp
    let regs := Table.set zeroWord regs 17 w0
    let regs := Table.set zeroWord regs 18 w1
    let regs := Table.set zeroWord regs 19 (wordAt o.jr.entry 0)
    let regs := Table.set zeroWord regs 20 (BitVec.ofNat 64 o.jr.bytes)
    let regs := Table.set zeroWord regs 32 1
    { o with uregs := regs, upc := some (0xE000 + (o.opcode - 0xE0) * 0x100), usteps := 0, umov := 0, wait := .nothing })
  runMicro 65536 s n

/-! ## Channel programs (R340 to R344) -/

/-- A CCW's two words: this module's memory answers itself, a remote one by the row's operand. An error is the code of
R359. -/
def readCcw (s : State) (zone : Nat) (a : Word) (words : List Word) (i : Nat) (res : ReadResult) :
    Except Nat (Word × Word) × State :=
  let ops := match res with | .ok _ => ReadResult.ok (wordsBytes ((words.drop (2 * i)).take 2)) | r => r
  match readAnswer s false a.toNat 16 zone ops with
  | (.ok bs, s) => let ws := bytesWords 2 bs; (.ok (wordAt ws 0, wordAt ws 1), s)
  | (.poisoned, s) => (.error 0x051A, s)
  | (.err 4, s) => (.error 0x030B, s)
  | (.err _, s) => (.error 0x000B, s)

def ccwCount (w : Word) : Nat := w.field 63 32
def ccwCode (w : Word) : Nat := w.field 31 24
def ccwFlags (w : Word) : Nat := w.field 23 16
def ccwXform (w : Word) : Nat := w.field 15 8

/-- Reserved bits of a CCW. -/
def ccwReserved (w : Word) : Bool := w.field 19 16 != 0 || w.field 9 8 != 0 || w.field 7 0 != 0

/-- Read the rest of a data chain after a CCW at slot `i`: pieces, flags of the last CCW, and the next address (R342). -/
def readChain (s : State) (zone : Nat) (words : List Word) (res : ReadResult) (dropOk : Bool) :
    Nat → Word → Nat → List (Nat × Nat × Bool) → Nat → Except Nat (List (Nat × Nat × Bool) × Nat × Word) × State
  | 0, _, _, _, _ => (.error 0x0511, s)
  | fuel + 1, a, i, ps, flags =>
    if flags.testBit 6 = false then (.ok (ps, flags, a), s)
    else
      match readCcw s zone a words i res with
      | (.error e, s) => (.error e, s)
      | (.ok (w0, w1), s) =>
        if ccwReserved w0 ∨ ccwCode w0 ≠ 0 ∨ ccwXform w0 ≠ 0 ∨ ((ccwFlags w0).testBit 5 ∧ dropOk = false) then
          (.error 0x0511, s)
        else
          readChain s zone words res dropOk fuel (a + 16) (i + 1)
            (ps ++ [(w1.toNat, ccwCount w0, (ccwFlags w0).testBit 5)]) (ccwFlags w0)

/-- The transform of a CCW is allowed (R341, R342). -/
def xformOk (code x : Nat) : Bool :=
  let c := xfCipher x
  let k := xfComp x
  if code = 0x12 ∨ code = 0x13 then x == 0
  else c != 3 && k != 3 && !(k == 1 && c == 2) && !(k == 2 && c == 1)

/-- Some piece meets the destination of a transforming COPY (R389), but for one exact in-place operation. -/
def copyOverlap (ps : List (Nat × Nat × Bool)) (dst total x : Nat) (prof : Word) : Bool :=
  let exact := ps.length == 1 && pieceStart ps == dst && xfComp x == 0 && (profMode prof == 0 || profMode prof == 2)
  x / 16 != 0 && !exact && ps.any (fun p => decide (p.1 < dst + total ∧ dst < p.1 + p.2.1))

/-- The command in work is set: its pieces, flags, transform and where the next CCW lies. -/
def setCommand (o : ChOp) (w0 : Word) (ps : List (Nat × Nat × Bool)) (last : Nat) (next dst : Word) : ChOp :=
  { o with
    pieces := ps, opcode := ccwCode w0, flags := ccwFlags w0, lflags := last, xform := ccwXform w0, dest := dst
    total := ps.foldl (fun a p => a + p.2.1) 0, nextCcw := next, jumped := false, piece := 0
    jr := { o.jr with residual := 0, devStatus := 0, cmdSent := false } }

/-- Check and start a data-moving command whose chain has been read (R341 to R343, R424): RUNNING is written first. -/
def startCommand (s : State) (n : Nat) (o : ChOp) : State :=
  let prof := wordAt o.jr.entry (8 + 2 * (o.xform / 4 % 4))
  let s := putOp s n o
  if eKind o.jr.entry = 0 ∧ eWinSize o.jr.entry < o.total then endOp s n 1 0x0513
  else if xfCipher o.xform ≠ 0 ∧ o.total ≠ 0 ∧
      cipherLengthBad prof o.total (xfComp o.xform != 0) (o.opcode == 0x20 && pieceStart o.pieces == o.dest.toNat) then
    endOpStatus s n 0x051B 0x11
  else if o.opcode = 0x20 ∧ copyOverlap o.pieces o.dest.toNat o.total o.xform prof then
    endOpStatus (nextFree s) n 0x051B (Config.freeNat s.fresh % 8192)
  else writeJournal (updOp s n (fun o => { o with jr := { o.jr with phase := 2 } })) n false 1

/-- A CCW arrives (R340 to R342). -/
def runCcw (s : State) (n : Nat) (o : ChOp) (words : List Word) (res : ReadResult) : State :=
  let z := o.jr.zone
  let a := o.jr.curCcw
  let kind := eKind o.jr.entry
  match readCcw s z a words 0 res with
  | (.error e, s) => endOp s n 1 e
  | (.ok (w0, w1), s) =>
    let code := ccwCode w0
    let fl := ccwFlags w0
    let bad := endOp s n 1 0x0511
    if code = 0x30 then
      if ccwCount w0 ≠ 0 ∨ fl ≠ 0 ∨ ccwXform w0 ≠ 0 ∨ w0.field 7 0 ≠ 0 ∨ w1.field 3 0 ≠ 0 ∨ o.jumped then bad
      else putOp s n { o with jumped := true, jr := { o.jr with curCcw := w1 } }
    else if ccwReserved w0 then bad
    else if code = 0x31 then
      if ccwCount w0 ≠ 0 ∨ ccwXform w0 ≠ 0 ∨ fl.testBit 6 ∨ fl.testBit 5 then bad
      else completeCcw (putOp s n { setCommand o w0 [] fl (a + 16) 0 with jr := { o.jr with phase := 2 } }) n
    else if 0xE0 ≤ code then
      if s.chs.custCodes.testBit (code - 0xE0) = false then bad
      else
        let o := { setCommand o w0 [] fl (a + 16) 0 with total := ccwCount w0 }
        enterMicro (putOp s n { o with jr := { o.jr with phase := 2 } }) n w0 w1
    else
      let dropOk := code == 0x11 || code == 0x13
      let known : Bool := if kind = 0 then code == 0x10 || code == 0x11 || code == 0x12 || code == 0x13 else code == 0x20
      if known = false ∨ xformOk code (ccwXform w0) = false ∨ (fl.testBit 5 ∧ dropOk = false) then bad
      else
        let first := (w1.toNat, ccwCount w0, fl.testBit 5)
        if code = 0x20 then
          match readCcw s z (a + 16) words 1 res with
          | (.error e, s) => endOp s n 1 e
          | (.ok (x0, x1), s) =>
            if x0 ≠ 0 then endOp s n 1 0x0511
            else match readChain s z words res false 256 (a + 32) 2 [first] fl with
              | (.error e, s) => endOp s n 1 e
              | (.ok (ps, last, next), s) => startCommand s n (setCommand o w0 ps last next x1)
        else match readChain s z words res dropOk 256 (a + 16) 1 [first] fl with
          | (.error e, s) => endOp s n 1 e
          | (.ok (ps, last, next), s) => startCommand s n (setCommand o w0 ps last next 0)

/-! ## What follows a journal write (R354) -/

/-- Both local copies are written and the partner, where awaited, has answered: `next` says what follows. 0 started,
1 the data phase, 2 the command record, 3 the next CCW or the end, 4 a slot, 5 the entry. -/
def journalNext (s : State) (n next : Nat) : State :=
  match getOp s n with
  | none => s
  | some o =>
    match next with
    | 0 =>
      let s := setOutcomeOpt s o.mbx (okRes [o.jr.stamp])
      activate 1024 (putOp s n { o with wait := .nothing, mbx := none, state := 1 })
    | 1 => dataPhase s n
    | 2 => sendCommand s n
    | 3 =>
      if o.lflags.testBit 7 ∨ (o.lflags.testBit 6 ∧ 0xE0 ≤ o.opcode) then
        putOp s n { o with wait := .ccw, jumped := false, jr := { o.jr with curCcw := o.nextCcw } }
      else endOp s n 0 0
    | 4 => queueCompletion s n
    | _ => putOp s n { o with wait := .writeEntry }

/-- Go on where nothing is awaited any longer. -/
def journalDone (s : State) (n : Nat) : State :=
  match getOp s n with
  | none => s
  | some o => match o.wait with
    | .journal next true false => journalNext s n next
    | _ => s

/-- A mirrored record that waits for the partner goes on without it, with its unmirrored bit set (R357). -/
def unmirrorOps (s : State) : State :=
  s.chs.ops.foldl (fun s (e : Nat × ChOp) =>
    match getOp s e.1 with
    | none => s
    | some o =>
      match o.wait with
      | .journal next l true =>
        journalDone (putOp s e.1 { o with wait := .journal next l false, jr := { o.jr with unmirrored := true } }) e.1
      | .jrelack => freeOp s e.1
      | _ => s) s

/-! ## Starting and halting (R336 to R339) -/

/-- The checks of R336 in order; the entry where they pass. The first argument after the state says which zone asks, and
whether with zone 0's rights. -/
def startCheck (s : State) (req : Nat) (sub : Nat) (ccw : Word) (mirror : Bool) : Except Nat (List Word) × State :=
  if s.vin.divergent then (.error 0x000D, s)
  else if nsubOf s ≤ sub then (.error 0x0501, s)
  else
    let (e, s) := subEntry s sub
    match e with
    | none => (.error 0x0501, s)
    | some e =>
      if entryOk e = false then (.error 0x0501, s)
      else if req ≠ 0 ∧ eZone e ≠ req then (.error 0x000F, s)
      else if (wordAt e 0).bit 62 = false then (.error 0x0502, s)
      else if (getOp s sub).isSome then (.error 0x0009, s)
      else if ccw.field 3 0 ≠ 0 then (.error 0x0503, s)
      else if mirror ∧ s.fab.partner.isNone then (.error 0x0504, s)
      else if (Assoc.get s.chs.queues (eQueue e)).isNone ∧ 4096 ≤ s.chs.queues.length then (.error 0x0505, s)
      else (.ok e, s)

/-- Acceptance (R337): the processor issues the stamp, and ACCEPTED is written and awaited. -/
def acceptOp (s : State) (cp sub : Nat) (e : List Word) (ccw param : Word) (mbx : Option Mbx) : State :=
  let (st, s) := issueStamp s (0x20 + cp)
  let (_, s) := openQueue s e
  let due := if eTimeout e = 0 then 0 else (now s + eTimeout e * 2 ^ 20) % 2 ^ 64
  let jr : JRec := ⟨1, cp, sub, 0, st, eZone e, 0, false, s.fab.partner.isNone, 0, 0, 0, ccw, ccw, param, now s, due, 0, 0,
    0, 0, 0, 0, e⟩
  let o : ChOp := ⟨jr, 1, .nothing, none, s.chs.opSeq, mbx, [], 0, 0, 0, 0, 0, 0, 0, false, 0, none, 0, false, none, [], 0, 0⟩
  let s := { s with chs := { s.chs with opSeq := s.chs.opSeq + 1 } }
  writeJournal (putOp s sub o) sub true 0

/-- Nothing of a memory subchannel's operation is under way any more. -/
def moverQuiet (s : State) (o : ChOp) : Bool :=
  match o.mover with
  | some k => drained (getChn s k)
  | none => true

/-- How a halt or deadline that has been carried out ends the operation (R339, R359). -/
def endHalting (s : State) (n : Nat) : State :=
  match getOp s n with
  | none => s
  | some o => if o.haltKind = 2 then endOpen s n 2 else endOp s n 1 0x0510

/-- Carry out a halt (1) or a deadline (2): PENDING ends at once; ACTIVE becomes HALTING, with the mover paused and an
abort record sent; at an end already decided it is only counted (R339, R354, R359). -/
def haltOp (s : State) (n kind : Nat) : State :=
  match getOp s n with
  | none => s
  | some o =>
    if o.state = 1 then (if kind = 2 then endOpen s n 2 else endOp s n 1 0x0510)
    else if o.state = 2 then
      let s := match o.mover with | some k => updChn s k (fun c => { c with pause := true }) | none => s
      let s := putOp s n { o with state := 3, haltAt := some (now s), haltKind := kind }
      let s := sendAbort s n
      if eKind o.jr.entry = 1 ∧ moverQuiet s o then endHalting s n else s
    else if 3 ≤ o.jr.phase then endOp s n 1 0x0510
    else s

/-- Zone reset reaches a zone's operations (R359): each ends with the kind zone-reset unless its end is decided, which is
counted (R354); an adapter gets its abort record without waiting. -/
def resetOps (s : State) (z : Nat) : State :=
  (s.chs.ops.filter (fun o => o.2.jr.zone == z)).foldl (fun s (o : Nat × ChOp) =>
    if 3 ≤ o.2.jr.phase then endOp s o.1 3 0
    else endOpen (if o.2.state = 1 then s else sendAbort s o.1) o.1 3) s

/-- A PCIe link goes down: every operation that waits on that controller ends with LINK_DOWN (R359). -/
def linkDownOps (s : State) (ctl : Nat) : State :=
  (s.chs.ops.filter (fun o => eKind o.2.jr.entry == 0 && eCtl o.2.jr.entry == ctl && decide (o.2.jr.phase < 3) &&
      (o.2.state == 2 || o.2.state == 3))).foldl (fun s (o : Nat × ChOp) => endOp s o.1 1 0x0519) s

/-! ## The end of a transfer (R347, R359) -/

/-- The outcome of a mover failure for its operation: code and device status; poisoned data of the window is a channel
error (R359). -/
def moverOutcome (o : ChOp) (code xcode : Nat) : Nat × Option Nat :=
  match code with
  | 0x051B => (0x051B, some xcode)
  | 0x0521 => (0x051B, some 0x11)
  | 0x051A => (if o.opcode = 0x11 ∨ o.opcode = 0x13 then 0x0518 else 0x051A, none)
  | 0x000B | 0x030B | 0x0519 => (code, none)
  | _ => (0x0518, none)

/-- The operation's mover transfer has ended with a status and a code. -/
def transferDone (s : State) (n status code : Nat) : State :=
  match getOp s n with
  | none => s
  | some o =>
    match o.mover with
    | none => s
    | some k =>
      let c := getChn s k
      let xc := c.xcode
      let s := updChn s k (fun c => { idleChn c with en := true, pause := c.pause })
      let jr := { o.jr with bytes := o.jr.bytes + c.confirmed, outBytes := o.jr.outBytes + c.outBytes }
      let total := if o.opcode = 0x10 ∧ xfComp o.xform = 1 then c.outBytes else o.total
      let o := { o with jr := jr, total := total }
      let s := putOp s n o
      if status ≠ 1 then
        if code = 0x0522 then endOpStatus (nextFree s) n 0x051B (Config.freeNat s.fresh % 8192)
        else
          let (e, dv) := moverOutcome o code xc
          match dv with
          | some x => endOpStatus s n e x
          | none => endOp s n 1 e
      else if o.state = 3 then (if eKind o.jr.entry = 1 then endHalting s n else s)
      else if o.upc.isSome then
        let s := putOp s n { o with umov := 0, wait := if o.wait == .mover then .nothing else o.wait }
        if o.wait == .mover then runMicro 65536 s n else s
      else match o.opcode with
        | 0x10 | 0x12 => writeJournal (putOp s n { o with jr := { o.jr with cmdSent := true } }) n false 2
        | 0x20 =>
          if xfComp o.xform = 0 ∧ xfCipher o.xform = 0 ∧ o.piece + 1 < o.pieces.length then
            dataPhase (putOp s n { o with piece := o.piece + 1 }) n
          else completeCcw s n
        | _ => afterData s n

/-! ## Posting for a lost module (R358, R361) -/

/-- Hold an entry whose queue lies on a lost module (R358). -/
def holdEntry (s : State) (dev : Nat) (zone : Nat) (ws : List Word) : State :=
  { s with chs := { s.chs with held := s.chs.held ++ [⟨dev, zone, ws⟩] } }

/-- The entry that the partner posts for a record (R361). -/
def orphanRec (r : JRec) (st : Word) : JRec × Bool :=
  if r.phase = 1 ∨ r.phase = 2 then ({ r with kind := 1, error := 0x051D, cstamp := st }, true) else (r, false)

/-- Post one record of a lost module at a slot index; answers whether the slot was used. -/
def postOrphan (s : State) (dev : Nat) (r : JRec) (slot : Nat) : Bool × State :=
  let (st, s) := if r.phase = 1 ∨ r.phase = 2 then issueStamp s 0x60 else (r.cstamp, s)
  let (r', part) := orphanRec r st
  let ws := complWords dev r' true part r.unmirrored
  let qdev := addrDev (wordAt r.entry 4)
  if lostDev s qdev then (false, holdEntry s dev (eZone r.entry) ws)
  else
    let a := wordAt r.entry 4 + BitVec.ofNat 64 (64 * (slot % 2 ^ eQm r.entry))
    match engPutWords rep s a ws (eZone r.entry) r'.cstamp with
    | (none, s) => (true, postCompletion { s with chs := { s.chs with partnerPosts := satAdd 32 s.chs.partnerPosts 1 } } dev r')
    | (some _, s) => (false, holdEntry s dev (eZone r.entry) ws)

/-- The tail word of a queue as memory holds it. -/
def queueTail (s : State) (e : List Word) : Nat × State :=
  match engWords rep s (wordAt e 5) 1 (eZone e) false with
  | (.ok ws, s) => ((wordAt ws 0).field 31 0, s)
  | (.error _, s) => (0, s)

/-- Post the records of one queue: those in POSTING at their slots, the others above, then the tail (R361). -/
def orphanQueue (s : State) (dev : Nat) (rs : List JRec) : State :=
  match rs with
  | [] => s
  | r0 :: _ =>
    let (t, s) := if lostDev s (addrDev (wordAt r0.entry 4)) then (0, s) else queueTail s r0.entry
    let post := rs.filter (fun r => r.phase == 4)
    let rest := rs.filter (fun r => r.phase != 4)
    let up := post.foldl (fun (acc : Nat × State) r =>
      let (u, s) := postOrphan acc.2 dev r r.slot
      (if u ∧ (acc.1 + 2 ^ 32 - r.slot) % 2 ^ 32 ≠ 0 ∧ (r.slot + 1 + 2 ^ 32 - acc.1) % 2 ^ 32 < 2 ^ 31 then (r.slot + 1) % 2 ^ 32
       else if u ∧ acc.1 = r.slot then (r.slot + 1) % 2 ^ 32 else acc.1, s)) (t, s)
    let fin := rest.foldl (fun (acc : Nat × State) r =>
      let (u, s) := postOrphan acc.2 dev r acc.1
      (if u then (acc.1 + 1) % 2 ^ 32 else acc.1, s)) up
    if fin.1 = t then fin.2
    else (engPutWords rep fin.2 (wordAt r0.entry 5) [BitVec.ofNat 64 fin.1] (eZone r0.entry) 0).2

/-- The records of the module behind a port in the mirror store. -/
def mirrorsOf (s : State) (port : Nat) : List JRec :=
  (s.chs.mirrors.filter (fun m => m.1 / 65536 == port)).map (·.2)

def dropMirrors (s : State) (port : Nat) : State :=
  { s with chs := { s.chs with mirrors := s.chs.mirrors.filter (fun m => m.1 / 65536 != port) } }

/-- The port at which a device is a neighbour; 12 where it is none. -/
def portOfDev (s : State) (dev : Nat) : Nat :=
  match ports.find? (fun p => (getPort s p).nbrId == some dev) with
  | some p => p
  | none => 12

/-- The named partner posts for a lost module; a former partner hands its records on (R356, R361). -/
def orphanPosting (s : State) (dev : Nat) : State :=
  let p := portOfDev s dev
  let rs := mirrorsOf s p
  let named := Table.get selfPartner s.vin.cfg.partners dev
  if rs = [] then s
  else if named = s.devId ∧ dev ≠ s.devId then
    let qs := (rs.map (fun r => eQueue r.entry)).eraseDups
    dropMirrors (qs.foldl (fun s q => orphanQueue s dev (rs.filter (fun r => eQueue r.entry == q))) s) p
  else
    rs.foldl (fun s r => sendChs s .jhand named r.zone r.stamp (BitVec.ofNat 64 dev :: jrWords r)) s

/-- A vintage names a new partner: every record goes to it, then the former one may drop its copies (R356). A module
left without a partner goes on alone (R357). -/
def changePartner (s : State) (former : Option Nat) : State :=
  match s.fab.partner with
  | none => unmirrorOps s
  | some p =>
    if former = some p then s
    else
      let s := s.chs.ops.foldl (fun s (o : Nat × ChOp) => sendChs s .jmw p o.2.jr.zone o.2.jr.stamp (jrWords o.2.jr)) s
      match former with
      | some f => sendChs s .jdrop f 0 0 [BitVec.ofNat 64 s.devId]
      | none => s

end Sys2Proof.Machine
end

