-- ==== Sys2Proof/Machine/Channel.lean ====
section
/-! DEFINITION. The rows of the channel subsystem, and the mover rows that carry a channel operation on (R333 to R387). -/

namespace Sys2Proof.Machine

/-! ## Programs and adapters -/

/-- A channel processor receives a CCW, with its data chain (R340 to R342). -/
def execCcwFetched (sub : Nat) (words : List Word) (res : ReadResult) (s : State) : Out :=
  .next (match getOp s sub with
    | some o => if o.wait == .ccw && o.state == 2 then runCcw s sub o words res else s
    | none => s)

/-- The status of the command in work (R343, R347). -/
def takeStatus (s : State) (n : Nat) (o : ChOp) (r : StatusRec) : State :=
  let st := r.status
  let o := { o with jr := { o.jr with devStatus := st % 65536, residual := r.residual % 2 ^ 32 } }
  if o.upc.isSome then
    let o := uSet (uSet (uSetOk { o with wait := .nothing } true) 1 (BitVec.ofNat 64 (st % 65536))) 2
      (BitVec.ofNat 64 (r.residual % 2 ^ 32))
    runMicro 65536 (putOp s n o) n
  else
    let s := putOp s n o
    if st.testBit 14 then endOp s n 1 0x0514
    else if st.testBit 15 = false then endOp s n 1 0x0516
    else match o.opcode with
      | 0x11 | 0x13 => storePhase s n (o.total - min o.total o.jr.residual)
      | _ => afterData s n

/-- An adapter's status record arrives (R346): one that does not match the awaited command is discarded and counted. -/
def execAdst (ctl sub : Nat) (r : StatusRec) (s : State) : Out :=
  let stale := { s with chs := { s.chs with stale := satAdd 16 s.chs.stale 1 } }
  .next (match getOp s sub with
    | none => stale
    | some o =>
      if o.jr.stamp ≠ r.stamp ∨ o.jr.seq ≠ r.seq ∨ eKind o.jr.entry ≠ 0 ∨ eCtl o.jr.entry ≠ ctl then stale
      else if 3 ≤ o.jr.phase then { s with chs := { s.chs with dup := satAdd 16 s.chs.dup 1 } }
      else if o.state = 3 then
        endHalting (putOp s sub { o with jr := { o.jr with devStatus := r.status % 65536, residual := r.residual % 2 ^ 32 } }) sub
      else if o.wait == .status then takeStatus s sub o r
      else stale)

/-- A posted write reaches its PCIe controller and goes out on the link; without a link it is lost (R355, R383). -/
def execAdwr (ctl : Nat) (bus : Nat) (data : List Byte) (s : State) : Out :=
  .next (if (getPcie s ctl).up then updPcie s ctl (fun p => { p with posted := p.posted ++ [(bus, data)] }) else s)

/-- A read reaches its PCIe controller: it goes out, or is answered with link down (R355, R383). -/
def execAdrd (ctl : Nat) (bus len ch : Nat) (s : State) : Out :=
  .next (if (getPcie s ctl).up then updPcie s ctl (fun p => { p with reads := p.reads ++ [(bus, len, ch)] })
    else sendFlit s (mkFlit s .aderr s.devId 0x121 (getChn s ch).zone 0 [5]))

/-- The controllers forget the oldest outstanding read of a channel. -/
def answerRead (s : State) (ch : Nat) : State :=
  { s with pcie := Table.mapListed pcieOf (fun _ p =>
      { p with reads := List.delFirst (fun (r : Nat × Nat × Nat) => r.2.2 == ch) p.reads }) s.pcie }

/-- Read data comes back to the mover (R355, R378). -/
def execAddata (ch beat : Nat) (data : List Byte) (s : State) : Out :=
  .next (readReturns (answerRead s ch) ch beat (.ok data))

/-- The code of an ADERR and its detail (R355, R383). -/
def aderrCode (kind : Nat) : Nat × Nat :=
  match kind with
  | 1 => (0x0523, 1)
  | 2 => (0x0524, 2)
  | 3 => (0x051A, 0)
  | 4 => (0x0525, 4)
  | _ => (0x0519, 5)

/-- A PCIe read fails: the oldest beat of the channel that waits for its data (R383). -/
def execAderr (ch kind : Nat) (s : State) : Out :=
  .next (match (getChn s ch).beats.find? (fun b => b.data.isNone && !b.issued) with
    | some b => let (code, det) := aderrCode kind; busError (answerRead s ch) ch b.id false code det
    | none => s)

/-! ## The journal -/

/-- Both local copies of a record are written (R354). -/
def execJournalWriteDone (sub : Nat) (s : State) : Out :=
  .next (match getOp s sub with
    | none => s
    | some o => match o.wait with
      | .journal next false p => journalDone (putOp s sub { o with wait := .journal next true p }) sub
      | _ => s)

/-- A record of a neighbour for the mirror store: applied only if its update count is higher; answered (R355). -/
def execJmw (port : Nat) (r : JRec) (s : State) : Out :=
  let k := port * 65536 + r.sub % 65536
  let higher := match Assoc.get s.chs.mirrors k with | some h => decide (h.count < r.count) | none => true
  let s1 := if higher then { s with chs := { s.chs with mirrors := Assoc.put s.chs.mirrors k r } } else s
  .next (match (getPort s port).nbrId with
    | some d => sendChs s1 .jmack d r.zone r.stamp [BitVec.ofNat 64 r.sub, BitVec.ofNat 64 r.count]
    | none => s1)

/-- The partner holds a record (R354, R355). -/
def execJmack (sub count : Nat) (s : State) : Out :=
  .next (match getOp s sub with
    | none => s
    | some o => match o.wait with
      | .journal next l true =>
        if o.jr.count = count then
          journalDone (putOp s sub { o with
            wait := .journal next l false, ackedEnd := o.ackedEnd || decide (o.jr.phase = 3) }) sub
        else s
      | _ => s)

/-- A neighbour releases a record: the copy is dropped and the release answered (R355). -/
def execJrel (port sub : Nat) (stamp : Word) (s : State) : Out :=
  let k := port * 65536 + sub % 65536
  let s1 := match Assoc.get s.chs.mirrors k with
    | some h => if h.stamp = stamp then { s with chs := { s.chs with mirrors := Assoc.del s.chs.mirrors k } } else s
    | none => s
  .next (match (getPort s port).nbrId with
    | some d => sendChs s1 .jrelack d 0 stamp [BitVec.ofNat 64 sub, stamp]
    | none => s1)

/-- The partner has released a record: it is FREE and its subchannel IDLE (R338, R354). -/
def execJrelack (sub : Nat) (stamp : Word) (s : State) : Out :=
  .next (match getOp s sub with
    | some o => if o.wait == .jrelack && o.jr.stamp == stamp then freeOp s sub else s
    | none => s)

/-- A module that has another partner now releases all its records (R356). -/
def execJdrop (port dev : Nat) (s : State) : Out :=
  .next (if (getPort s port).nbrId = some dev then dropMirrors s port else s)

/-- A former partner hands over a record of a lost module: the higher update count is kept, and posted where this module
is the named partner (R356, R361). -/
def execJhand (dev : Nat) (r : JRec) (s : State) : Out :=
  let k := portOfDev s dev * 65536 + r.sub % 65536
  let higher := match Assoc.get s.chs.mirrors k with | some h => decide (h.count < r.count) | none => true
  let s1 := if higher then { s with chs := { s.chs with mirrors := Assoc.put s.chs.mirrors k r } } else s
  .next (if lostDev s dev ∧ Table.get selfPartner s.vin.cfg.partners dev = s.devId then orphanPosting s1 dev else s1)

/-! ## Deadlines, halts, faults -/

/-- An operation's deadline passes (R359). -/
def execOperationDeadline (sub : Nat) (s : State) : Out :=
  .next (match getOp s sub with
    | some o => if pastDue s o.jr then haltOp s sub 2 else s
    | none => s)

/-- A HALTING operation ends without the adapter's status after 2^22 mt; a memory operation once its mover has drained
(R339, R359). -/
def execHaltStatusTimeout (sub : Nat) (s : State) : Out :=
  .next (match getOp s sub with
    | some o =>
      match o.state, o.haltAt with
      | 3, some t =>
        if 2 ^ 22 ≤ (now s + 2 ^ 64 - t) % 2 ^ 64 ∨ (eKind o.jr.entry = 1 ∧ moverQuiet s o) then endHalting s sub else s
      | _, _ => s
    | none => s)

/-- A new processor resumes an operation by its phase (R360). -/
def resumeOp (s : State) (n cp : Nat) : State :=
  match getOp s n with
  | none => s
  | some o =>
    let s := putOp s n { o with jr := { o.jr with cp := cp } }
    let s := match o.mover with
      | some k => if o.state = 2 then resumeChn (updChn s k (fun c => { c with pause := false })) k else s
      | none => s
    if o.state = 2 ∧ o.jr.phase = 2 ∧ o.jr.cmdSent ∧ o.wait == .status then commandRecord s n false o.opcode
    else if o.jr.phase = 4 ∧ o.wait == .nothing then
      let (q, s) := openQueue s o.jr.entry
      (engPutWords rep s (slotAddr q o.jr.slot) (complWords s.devId o.jr false false (o.jr.unmirrored && !o.ackedEnd))
        (eZone o.jr.entry) o.jr.cstamp).2
    else s

/-- A channel processor faults: class C2; its operations' movers are paused, and each is assigned anew and resumed
(R359, R360). With no processor to take it, an operation stays paused. -/
def execChannelProcessorFault (cp : Nat) (s : State) : Out :=
  .next (if 32 ≤ cp ∨ (getCp s cp).state ≠ 0 then s
    else
      let s := updCp s cp (fun c => { c with faults := satAdd 16 c.faults 1, state := 1 })
      let s := faultAt s 0x0A 2 0 0 0 (BitVec.ofNat 64 cp) 0
      (s.chs.ops.filter (fun o => o.2.jr.cp == cp)).foldl (fun s (o : Nat × ChOp) =>
        let s := match o.2.mover with | some k => updChn s k (fun c => { c with pause := true }) | none => s
        match pickCp s with
        | some p => resumeOp s o.1 p
        | none => s) s)

/-- Customer microcode has run 2^16 words without a word that waits (R359). -/
def execMicrowordRunaway (sub : Nat) (s : State) : Out :=
  .next (match getOp s sub with
    | some o => if o.upc.isSome ∧ 65536 ≤ o.usteps then microFault s sub else s
    | none => s)

/-- The posting unit reads a queue's head again, every 2^20 mt (R350). -/
def execQueueHeadReread (queue : Word) (s : State) : Out :=
  let k := queue.toNat
  .next (match Assoc.get s.chs.queues k with
    | none => s
    | some q =>
      let zone := match q.waiting.findSome? (fun n => getOp s n) with | some o => eZone o.jr.entry | none => 0
      if q.waiting = [] then s else assignSlots k 65536 (rereadHead s k zone))

/-- An entry is written, the tail passes it, and its interrupt goes out (R351). -/
def execCompletionPosted (sub : Nat) (s : State) : Out :=
  .next (match getOp s sub with
    | some o => if o.wait == .writeEntry then writeEntry s sub else s
    | none => s)

/-- A microcode load has waited 2^26 mt for customer words to end (R365). -/
def execUcodeLoadTimeout (s : State) : Out :=
  .next (match s.chs.load with
    | some (m, t, _) =>
      if 2 ^ 26 ≤ (now s + 2 ^ 64 - t) % 2 ^ 64 then
        setOutcome { s with chs := { s.chs with load := none } } m (errRes 0x0009)
      else s
    | none => s)

/-! ## Mover rows that carry an operation on -/

/-- Word 0 of a written-back descriptor is visible: head advances and the interrupt goes out (R379); an operation's
transfer has ended (R347). -/
def execWriteBackVisible (n : Nat) (s : State) : Out :=
  let c := getChn s n
  .next (match c.wb with
    | none => s
    | some (status, code, st, idx, kind) =>
      if opChannel s n then
        match s.chs.ops.find? (fun o => o.2.mover == some n) with
        | some o => transferDone s o.1 status code
        | none => updChn s n idleChn
      else
        let s := updChn s n (fun c => { c with
          head := (c.head + 1) % 2 ^ 32, wb := none, desc := none, failed := none, ended := false })
        let s := if kind = 0 then s
          else postEntry rep s ⟨c.zone, c.vcid, kind, c.vector, st, BitVec.ofNat 64 (n * 2 ^ 32 + idx)⟩
        retireChn s n)

/-- A stopping channel's drain ends (R385); a memory operation that is being halted ends with it (R339). -/
def execChannelPaused (n : Nat) (s : State) : Out :=
  let s := pauseDone s n
  .next (match s.chs.ops.find? (fun o => o.2.mover == some n) with
    | some o => if o.2.state = 3 ∧ eKind o.2.jr.entry = 1 ∧ (getChn s n).paused then endHalting s o.1 else s
    | none => s)

/-- One channel of a disabled engine (R386): what its writes under way do, and its progress and saved state, are open. -/
def disableChn (s : State) (n : Nat) : State :=
  let c := getChn s n
  let s := match c.desc with
    | some d => (c.beats.filter (·.issued)).foldl (fun s b =>
        if Config.freeBool s.fresh then nextFree (landBeat s n d b).2 else nextFree s) s
    | none => s
  let s := dropEngines s n
  let keep := Config.freeBool s.fresh
  let cnt := Config.freeNat (s.fresh + 1) % 2 ^ 32
  let conf := Config.freeNat (s.fresh + 2) % 2 ^ 32
  let s := nextFree (nextFree (nextFree s))
  let s := updChn s n (fun c => { latch c 0x0526 0 c.errAddr c.errDir 0 c.head with
    halted := true, dead := true, beats := [], open' := [], wb := none, failed := none, count := cnt, confirmed := conf
    stream := if keep then c.stream else none })
  match s.chs.ops.find? (fun o => o.2.mover == some n) with
  | some o => endOp s o.1 1 0x0518
  | none => postHalt s n

/-- A channel of a disabled engine that is not in service is halted too (R386). -/
def disableIdle (s : State) (n : Nat) : State :=
  updChn s n (fun c => { latch c 0x0526 0 c.errAddr c.errDir 0 c.head with halted := true, dead := true })

/-- MOV_CTL[e] (R386, R390, R474): every channel of the engine halts. -/
def writeMovCtl (s : State) (q : IoReq) (e : Nat) (v : Word) : State :=
  if v.bit 0 then
    if s.mov.disable.testBit e then s
    else if s.bnd.mov.testBit e ∧ q.world = false then gateIgnored s q (0x700100 + 0x10 * e)
    else
      let s := { s with mov := { s.mov with disable := s.mov.disable ||| 2 ^ e } }
      (List.range 64).foldl (fun s k =>
        let c := getChn s (16 * k + e)
        if c.en || c.desc.isSome then disableChn s (16 * k + e) else disableIdle s (16 * k + e)) s
  else { s with mov := { s.mov with disable := s.mov.disable - (if s.mov.disable.testBit e then 2 ^ e else 0) } }

/-- A write of MOV_CTL.disable stops or restarts an engine (R386). -/
def execMovCtlDisable (q : IoReq) (e : Nat) (v : Word) (s : State) : Out :=
  .next (mainReg s (if 16 ≤ e then s else writeMovCtl s q e v))

end Sys2Proof.Machine
end

