-- ==== Sys2Proof/Machine/Home.lean ====
section
/-! DEFINITION. The home's rows: requests, snoop responses, evictions, acknowledgements, credits, warnings and the
lost-device walk (R221 to R228). -/

namespace Sys2Proof.Machine

/-- RdShared (R221). -/
def execRdshared (r : CohReq) (e : ReadFinding) (s : State) : Out := .next (takeRequest s .rdShared r none e 0)

/-- RdOwn (R221). -/
def execRdown (r : CohReq) (e : ReadFinding) (s : State) : Out := .next (takeRequest s .rdOwn r none e 0)

/-- Upgrade (R221). -/
def execUpgrade (r : CohReq) (e : ReadFinding) (s : State) : Out := .next (takeRequest s .upgrade r none e 0)

/-- RdOnce (R221). -/
def execRdonce (r : CohReq) (e : ReadFinding) (s : State) : Out := .next (takeRequest s .rdOnce r none e 0)

/-- WrLine (R221). -/
def execWrline (r : CohReq) (data : Line) (verify : Nat) (s : State) : Out :=
  .next (takeRequest s (.wrLine data) r none .clean verify)

/-- WrPart (R221). -/
def execWrpart (r : CohReq) (mask : BitVec 128) (data : Line) (e : ReadFinding) (s : State) : Out :=
  .next (takeRequest s (.wrPart mask data) r none e 0)

/-- CleanLine (R193, R221). -/
def execCleanline (r : CohReq) (s : State) : Out := .next (takeRequest s .cleanLine r none .clean 0)

/-- InvLine (R193, R196, R221). -/
def execInvline (r : CohReq) (s : State) : Out := .next (takeRequest s .invLine r none .clean 0)

/-- CleanInvLine (R193, R221). -/
def execCleaninvline (r : CohReq) (s : State) : Out := .next (takeRequest s .cleanInvLine r none .clean 0)

/-- A retried request comes back with its credit; without that credit recorded for it, it is taken as a new request
(R223). -/
def execResendRequest (r : CohReq) (kind : ReqKind) (credit : Nat) (e : ReadFinding) (s : State) : Out :=
  let held := match Assoc.get s.home.credits credit with
    | some c => decide (c.agent = r.agent ∧ c.stamp = r.stamp ∧ c.line = addrOff r.addr / 128)
    | none => false
  .next (takeRequest s kind r (if held then some credit else none) e 0)

/-- An agent's answer will not come, or came too late: taken as a miss, and an owner is taken as having held dirty data
that is lost, so that memory and the grant carry poison. The S copies elsewhere are invalidated before the transaction
goes on (R226, R227, R321). -/
def loseAnswer (s : State) (t : Txn) (a : Agent) : State :=
  let li := t.line
  let dead := (match Assoc.get s.home.dir li with | some e => e.dstate != 1 && e.owner == a | none => false) &&
    !(t.absorbed.any (fun x => x.1 == a))
  let left := t.waiting.filter (fun x => x.1 != a)
  let calls := fun (b : Agent) => left.any (fun x => x.1 == b && x.2 != .snpClean && x.2 != .snpFwdS)
  let rest := if dead then (lineHolders s (li * 128)).filter (fun b => b != a && !(calls b)) else []
  let (st, s) := match t.goal.served with
    | some (_, r) => (r.stamp, s)
    | none => issueStamp s 0x60
  let t := { t with
    waiting := left ++ rest.map (fun b => (b, .snpInv)), missFrom := t.missFrom.filter (· != a)
    sentAt := if rest = [] then t.sentAt else now s, warned := t.warned && rest.isEmpty
    dataPoison := t.dataPoison || dead, data := if dead then some (t.data.getD 0) else t.data }
  let s := if dead then
      let s := match frameOf s (li * 128) with | some fl => poisonFrame s fl | none => s
      let s := rest.foldl (fun s b => sendSnoop s .snpInv b true 0 st (mkAddr s.devId (li * 128))) s
      setDir s li DirEntry.free
    else forgetAgent s li a
  finishTxn (putTxn s t) t

/-- What a snoop response does to its transaction. A miss of the recorded owner, or an answer from a write-back buffer,
awaits the write-back that goes with it (R221, R225). -/
def answerSnoop (s : State) (t : Txn) (m : SnpRespMsg) : State :=
  let a := m.agent
  let li := t.line
  let recorded := match Assoc.get s.home.dir li with
    | some e => decide (e.dstate ≠ 1 ∧ e.owner = a)
    | none => false
  let had := t.absorbed.any (fun x => x.1 == a)
  let w := List.delFirst (fun x => x.1 == a) t.waiting
  if m.miss then
    let t := { t with waiting := w, missFrom := if recorded && !had then t.missFrom ++ [a] else t.missFrom }
    finishTxn (putTxn (if recorded && !had then s else forgetAgent s li a) t) t
  else
    let d := if m.wbp && had then t.data else match m.data with | some l => some l | none => t.data
    let t := { t with
      waiting := w, missFrom := if m.wbp && !had then t.missFrom ++ [a] else t.missFrom
      data := d, dataZone := if m.data.isSome then m.zone else t.dataZone
      dataPoison := t.dataPoison || m.poison, forwarded := t.forwarded || m.fwd
      fwdClean := t.fwdClean || (m.fwd && m.before == .e) }
    finishTxn (putTxn (recordAfter s li a m.after) t) t

/-- SnpResp at the home. A response that no transaction waits for changes nothing. -/
def execSnpresp (m : SnpRespMsg) (s : State) : Out :=
  .next (if hubUp s = false ∨ addrDev m.addr ≠ s.devId then s
    else match findTxn s (addrOff m.addr / 128) with
      | none => s
      | some t =>
        if t.waiting.any (fun w => w.1 == m.agent) = false then s
        else if m.rs ∧ m.miss then loseAnswer s t m.agent
        else answerSnoop s t m)

/-- WrBack at the home (R224, R252). -/
def execWrback (m : WrBackMsg) (verify : Nat) (s : State) : Out :=
  .next (if hubUp s = false ∨ addrDev m.addr ≠ s.devId then s
    else if m.rs ∧ evictionStands s (addrOff m.addr / 128) m.agent = false then
      respond s .wbAck m.agent m.zone m.stamp m.addr []
    else takeEviction s m.agent m.stamp m.addr m.zone m.poison (some m.data) verify)

/-- EvictClean at the home (R224). -/
def execEvictclean (agent : Agent) (stamp addr : Word) (rs : Bool) (s : State) : Out :=
  .next (if hubUp s = false ∨ addrDev addr ≠ s.devId then s
    else if rs ∧ evictionStands s (addrOff addr / 128) agent = false then respond s .wbAck agent 0 stamp addr []
    else takeEviction s agent stamp addr 0 false none 0)

/-- CmpAck: the requester has installed the data, and the line is freed (R223). -/
def execCmpack (agent : Agent) (stamp addr : Word) (s : State) : Out :=
  let li := addrOff addr / 128
  .next (match findTxn s li with
    | some t =>
      match t.goal with
      | .request _ r => if t.granted.isSome ∧ r.agent = agent ∧ r.stamp = stamp ∧ addrDev addr = s.devId then freeLine s li
          else s
      | _ => s
    | none => s)

/-- A credit whose Resend has not come within 2^24 mt of the RESEND is reclaimed, with a class C0 fault (R223). -/
def execCreditReclaim (credit : Nat) (s : State) : Out :=
  .next (match Assoc.get s.home.credits credit with
    | some c =>
      match c.resentAt with
      | some t =>
        if 2 ^ 24 ≤ (now s + 2 ^ 64 - t) % 2 ^ 64 then
          let s := { s with home := { s.home with credits := Assoc.del s.home.credits credit } }
          let s := faultAt s 0x05 0 0 c.stamp (mkAddr s.devId (c.line * 128)) (BitVec.ofNat 64 (credit % 16)) 0
          if busy s c.line then s else freeLine s c.line
        else s
      | none => s
    | none => s)

/-- The age of a snoop, in mt, at which R228 warns: snoop_warn in units of 2^16 mt, 0 taken as 1 (R229). -/
def snoopWarnAge (s : State) : Nat := max 1 s.home.snoopWarn * 2 ^ 16

/-- A snoop has been outstanding for longer than snoop_warn: class C2 with the line, once for each module that has not
answered (R228). -/
def execSnoopWarn (line : Nat) (s : State) : Out :=
  .next (match findTxn s line with
    | some t =>
      if t.waiting ≠ [] ∧ t.warned = false ∧ snoopWarnAge s < (now s + 2 ^ 64 - t.sentAt) % 2 ^ 64 then
        ((t.waiting.map (fun w => w.1.dev)).eraseDups).foldl (fun s d =>
          faultAt s 0x05 2 0 0 (mkAddr s.devId (line * 128)) (BitVec.ofNat 64 d) 0) (putTxn s { t with warned := true })
      else s
    | none => s)

/-- One step of the walk for lost devices: a line's entry is settled, and the copies that a lost owner of O leaves behind
are invalidated (R226). -/
def walkEntry (s : State) (li : Nat) : State :=
  let lost := ownerLost s li
  let s := dropLost s li
  let hs := lineHolders s (li * 128)
  if lost ∧ hs ≠ [] ∧ busy s li = false then
    let (st, s) := issueStamp s 0x60
    startSettle s li (.settle none) .snpInv hs 0 st .clean
  else s

/-- The walk of the directory for the oldest lost device ends: every entry is settled, the device leaves the list, and
a waiting loss takes its place; the requests that were stalled go on (R226). It does not end while a line that a lost device
owns is busy, since the copies that such an owner leaves behind are then still to be invalidated. HA_LOST follows the order of this list (R232; log entry 172). -/
def execLostWalkDone (s : State) : Out :=
  .next (match s.home.walking with
    | none => s
    | some d =>
      if s.home.dir.any (fun e => ownerLost s e.1 && busy s e.1) then s
      else
      let s := s.home.dir.foldl (fun s e => walkEntry s e.1) s
      let l := s.home.lost.filter (· != d)
      resumeWaiting (match s.home.lostQueue with
      | [] => { s with home := { s.home with lost := l, walking := l.head? } }
      | q :: t => { s with home := { s.home with lost := l ++ [q], lostQueue := t, walking := (l ++ [q]).head? } }))

end Sys2Proof.Machine
end

