-- ==== Sys2Proof/Machine/SweepOps.lean ====
section
/-! DEFINITION. The sweep: what homes and agents send again after a loss (R321, R322), and the flooding of LOST, JOIN and
SWEEP by the master (R314, R318, R320). -/

namespace Sys2Proof.Machine

/-- A time before S − 2^23 mt. -/
def beforeSweep (sm t : Nat) : Bool :=
  let d := (sm + 2 ^ 64 - t % 2 ^ 64) % 2 ^ 64
  decide (2 ^ 23 < d ∧ d < 2 ^ 63)

/-- The no-forward bit of a snoop of a transaction. -/
def snoopNf (t : Txn) : FlitOp → Bool
  | .snpFwdS => false
  | .snpFwdO => t.nf
  | _ => true

/-- The outstanding snoops of a transaction go out again with rs = 1 (R321 step 1). -/
def resendSnoops (s : State) (t : Txn) : State :=
  let (zone, stamp) := match t.goal.served with | some (_, r) => (r.zone, r.stamp) | none => (0, 0)
  t.waiting.foldl (fun s x =>
    sendFlit s { mkFlit s x.2 x.1.dev (0x110 + 4 * x.1.quad) zone stamp [mkAddr s.devId (t.line * 128)] with
      nf := snoopNf t x.2, qmask := 2 ^ x.1.quad, rs := true }) s

/-- The grant of a transaction goes out again with rs = 1: data that went by FwdData comes from memory when memory is
current, and as poison otherwise (R321 step 1). -/
def regrant (s : State) (t : Txn) (k : ReqKind) (r : CohReq) (st : Moesi) : State :=
  let out := fun (s : State) (l : Line) (p : Bool) =>
    sendFlit s { mkFlit s .data r.agent.dev (0x110 + 4 * r.agent.quad) r.zone r.stamp [] with
      line := some l, poison := p, qmask := quadBit r.agent.quad, credit := moesiNum st, rs := true }
  let own := match k with | .rdOwn => t.data | _ => none
  match own, frameOf s (t.line * 128) with
  | some l, _ => if t.forwarded then out s 0 true else out s l t.dataPoison
  | none, some fl =>
    if t.forwarded ∧ t.fwdClean = false ∧ t.absorbed = [] then out s 0 true
    else
      let (l, p, s) := homeRead s fl r.zone r.stamp .clean
      out s l p
  | none, none => out s 0 true

/-- The home's part of a sweep at S: snoops and grants counted (R321 step 1). -/
def homeSweep (s : State) (sm : Nat) : Nat × Nat × State :=
  s.home.txns.foldl (fun (acc : Nat × Nat × State) t =>
    let (a, b, s) := acc
    if beforeSweep sm t.sentAt = false then (a, b, s)
    else
      match t.granted, t.goal with
      | some st, .request k r => (a, b + 1, regrant s t k r st)
      | _, _ => (a + t.waiting.length, b, resendSnoops s t)) (0, 0, s)

/-- A sweep starts at this module. -/
def runSweep (s : State) (sm : Nat) : State :=
  let (a, b, s) := homeSweep s sm
  { s with fab := { s.fab with sweepAt := some (sm, a, b) } }

/-- The master floods SWEEP and runs it itself (R321). -/
def startSweep (s : State) : State :=
  let (st, s) := issueStamp s 0x60
  let m := now s
  runSweep (flood (noteStamp s st) none .sweep st [BitVec.ofNat 64 m]) m

/-- The agents' part of a sweep: requests, credited requests and write-backs that nothing has answered go out again
with rs = 1 (R321 step 2). Answers how many. -/
def agentSweep (s : State) (sm : Nat) : Nat × State :=
  let old := s.reqs.filter (fun r => beforeSweep sm r.sentAt)
  let s := old.foldl (fun s r =>
    let f := { reqFlit s r.kind r.req r.core with rs := true }
    sendFlit s (match r.credit with | some c => { f with op := .resendReq, crv := true, credit := c } | none => f)) s
  let wb := s.wbs.filter (fun w => beforeSweep sm w.sentAt)
  let s := wb.foldl (fun s w =>
    let a := BitVec.ofNat 64 (w.line * 128)
    let e := decide (w.st = .e)
    sendFlit s { mkFlit s (if e then .evictClean else .wrBack) (addrDev a) 0x120 w.zone w.stamp [a] with
      qmask := 2 ^ w.quad, steid := quadTeid w.quad, poison := w.poison, line := if e then none else some w.data, more := if e then 0 else 1
      rs := true }) s
  (old.length + wb.length, s)

/-- A device rejoins: it leaves the lost map (R320). -/
def takeJoin (s : State) (dev : Nat) : State :=
  if lostDev s dev then
    let (st, s) := issueStamp s 0x60
    let s := { s with fab := { s.fab with
      lostMap := Table.set noFlag s.fab.lostMap dev false, downs := s.fab.downs.filter (fun d => d.1 != dev && d.2.2.1 != dev) } }
    logLink s 3 dev 0 st
  else s

/-- The master floods a message about a device, and repeats it to modules that do not acknowledge it (R314). -/
def floodAwait (s : State) (op : FlitOp) (dev : Nat) (ws : List Word) : State :=
  let (st, s) := issueStamp s 0x60
  let s := flood (noteStamp s st) none op st ws
  let add := ((otherDevs s).filter (· != dev)).map (fun d => (⟨op, d, ws, st, now s⟩ : MgmtAwait))
  { s with fab := { s.fab with await := s.fab.await ++ add } }

/-- A module acknowledges LOST and JOIN to the master. -/
def ackMaster (s : State) : State :=
  match s.mer.masterId with
  | some m => if m = s.devId then s
      else sendMgmt s .ack m [BitVec.ofNat 64 s.vin.vintage, s.vin.digest, 0, 0]
  | none => s

end Sys2Proof.Machine
end

