-- ==== Sys2Proof/Machine/Meridian.lean ====
section
/-! DEFINITION. The rows of the meridian, the vintage and the stamps (R21 to R49, R313, R569). -/

namespace Sys2Proof.Machine

/-- What an empty queue gives: one hub cycle of the keeper (R21; log entry 1). -/
def idleTick (s : State) : State := tick s

/-- Time since a recorded meridian. -/
def since (s : State) (t : Nat) : Nat := (now s + 2 ^ 64 - t) % 2 ^ 64

/-- One second in mt. -/
def second : Nat := 4096000000

/-! ## PPS and reference (R23, R24, R569) -/

/-- An edge lies within 10 µs of the expected second. -/
def ppsExpected (s : State) : Bool :=
  match s.mer.ppsLast with
  | none => true
  | some t => decide (since s t % second ≤ 40960 ∨ second - 40960 ≤ since s t % second)

/-- The signed distance of the meridian from the nearest second. -/
def secondError (s : State) : Int :=
  let r := now s % second
  if r < second / 2 then (r : Int) else (r : Int) - second

/-- A PPS rising edge: a set value is loaded; with source 1, the master aligns it to a second. An edge off its second, or
without the reference, is ignored and counted. Without main power there is no keeper to take it (R12). -/
def execMerPpsInEdge (s : State) : Out :=
  .next (if s.power.pwrOk = false then s
    else if ppsExpected s = false ∨ (s.mer.src = 1 ∧ s.mer.refPresent = false) then
      { s with mer := { s.mer with ppsIgnored := s.mer.ppsIgnored + 1 } }
    else
      match s.mer.setVal with
      | some v =>
        if s.mer.locked then { s with mer := { s.mer with ppsLast := some (now s), setVal := none } }
        else { s with mer := { s.mer with ext := v * 2 ^ 32, slew := 0, ppsLast := some v, setVal := none } }
      | none =>
        let s := { s with mer := { s.mer with ppsLast := some (now s) } }
        if s.mer.src = 1 ∧ s.mer.role ≠ 0 ∧ s.mer.role ≠ 1 then
          let s := correct s (-(secondError s))
          { s with mer := { s.mer with holdover := false, ppsLast := some (now s) } }
        else s)

/-- The master goes into holdover: ref_lost, class C2 (R24). -/
def loseReference (s : State) : State :=
  if s.mer.src ≠ 1 ∨ s.mer.role ≠ 2 ∨ s.mer.holdover then s
  else
    let s := { s with mer := { s.mer with refLost := true, holdover := true } }
    faultAt (logMeridian s 4) 0x10 2 0 0 0 2 0

/-- No accepted edge for 3 s (R569). -/
def execPpsTimeout (s : State) : Out :=
  .next (match s.mer.ppsLast with
    | some t => if 3 * second ≤ since s t then loseReference s else s
    | none => loseReference s)

def execMerRefLoss (s : State) : Out :=
  .next (loseReference { s with mer := { s.mer with refPresent := false } })

/-- The reference is back: the next PPS edge slews the master back into alignment (R24). -/
def execMerRefReturn (s : State) : Out :=
  .next { s with mer := { s.mer with refPresent := true, holdover := false } }

/-- MER_PPS_OUT rises at each second, is high for 2^22 mt, and is low before lock and in a meridian fault (R569). -/
def execMerPpsOutEdge (s : State) : Out :=
  let i := now s / second
  .next (match s.mer.ppsOut with
    | some t => if 2 ^ 22 ≤ since s t ∨ s.mer.fault then { s with mer := { s.mer with ppsOut := none } } else s
    | none =>
      if s.mer.locked ∧ s.mer.fault = false ∧ i ≠ s.mer.ppsOutIdx then
        { s with mer := { s.mer with ppsOut := some (now s), ppsOutIdx := i } }
      else s)

/-! ## Sync and heartbeat (R25 to R35, R313) -/

/-- A port leads to a device: by the routing table, or as that of a neighbour. -/
def leadsTo (s : State) (dev port : Nat) : Bool :=
  rtPort s (activePar s) dev == some port || (getPort s port).nbrId == some dev

/-- A port leads to this module's parent in the sync tree (R313); any port does while no master is known. -/
def fromParent (s : State) (port : Nat) : Bool :=
  match s.mer.masterId with
  | some m => leadsTo s m port
  | none => true

/-- SYNC from the parent: the error is estimated and slewed away, and this module's meridian goes on (R22, R26, R313). -/
def execSync (port : Nat) (mer : Word) (_vintage masterId : Nat) (s : State) : Out :=
  .next (if s.mer.role = 2 ∨ fromParent s port = false ∨ s.power.pwrOk = false then s
    else
      let e := signedDiff (now s) (mer.toNat + (getPort s port).delay)
      let s := { s with mer := { s.mer with masterId := some (s.mer.masterId.getD masterId) } }
      sendSync (correct (takeError s e) (-e)) (some port))

/-- HEARTBEAT on every UP port every 2^22 mt; the master's SYNC goes with it (R28, R35). -/
def execHeartbeatInterval (s : State) : Out :=
  let i := now s / 2 ^ 22
  .next (if i = s.mer.hbIdx then s
    else
      let s := { s with mer := { s.mer with hbIdx := i } }
      let s := (upPorts s).foldl (fun s p => let (st, s) := portStamp s p; sendLink s p .heartbeat st (heartbeatWords s)) s
      if isMaster s then sendSync s none else s)

/-- Report to the master; the master acts at once: a divergent module is caught up, a lost one that is back joins, and a
discard starts a sweep (R35, R314, R320, R321). -/
def takeReport (s : State) (kind dev : Nat) : State :=
  if kind = 2 then startSweep s
  else if kind = 1 ∧ dev ≠ s.devId ∧ s.vin.inventory.contains dev ∧
      ¬ (s.fab.await.any (fun a => a.op == .prepare && a.dev == dev)) ∧ s.vin.prep.isNone then
    sendCatchup (if lostDev s dev then takeJoin (floodAwait s .join dev [BitVec.ofNat 64 dev]) dev else s) dev
  else s

/-- A neighbour's vintage or digest differs, beyond the tolerance just after an activation (R35). -/
def hbMismatch (s : State) (vintage digest16 : Nat) : Bool :=
  let late := decide ((vintage + 1) % 2 ^ 32 = s.vin.vintage ∧ since s s.vin.activatedAt ≤ 2 ^ 22)
  !late && (vintage != s.vin.vintage || digest16 != s.vin.digest.toNat % 65536)

/-- A neighbour's own heartbeat: liveness, the comparison of R35, and the end of a catch-up (R39). -/
def neighbourBeat (s : State) (port vintage digest16 dev : Nat) : State :=
  let bad := hbMismatch s vintage digest16
  let s := updPort s port (fun p => { p with hbAt := now s, nbrDivergent := bad })
  if bad then
    (if isMaster s then takeReport s 1 dev
     else match s.mer.masterId with
       | some m => sendMgmt s .report m [1, BitVec.ofNat 64 dev]
       | none => s)
  else if s.vin.caughtUp then { s with vin := { s.vin with divergent := false, caughtUp := false } } else s

/-- A module that hears another master than the one it knew takes the standby that this one names: the rule of R31 on the
eligible modules it knows (log entry 189). -/
def learnStandby (s : State) (dev : Nat) : State :=
  if s.mer.masterId = some dev ∨ s.mer.masters = [] then s
  else { s with mer := { s.mer with
    standbyId := nextStandby s dev, role := if nextStandby s dev = some s.devId then 1 else 0 } }

/-- Of two that claim the role, this module yields: to the standby that it named itself, which has taken over meanwhile
(R31); never to the master that it took over from; and else where its device ID is the lower (log entry 60). -/
def yieldsTo (s : State) (dev : Nat) : Bool :=
  if s.mer.standbyId = some dev then true
  else if s.mer.former = some dev then false
  else decide (s.devId < dev)

/-- A master that yields becomes standby only where the new one has no other (R31). -/
def yieldRole (s : State) (dev : Nat) : State :=
  { s with mer := { s.mer with
    role := if (nextStandby s dev).isNone then 1 else 0, masterId := some dev
    standbyId := some ((nextStandby s dev).getD s.devId) } }

/-- The master's heartbeat (R30, R31): it is relayed away from the parent, and a new master is known by it. -/
def masterBeat (s : State) (port vintage digest16 dev : Nat) : State :=
  if s.mer.role = 2 ∧ yieldsTo s dev = false then s
  else
    let s := if s.mer.role = 2 then yieldRole s dev else s
    if s.mer.masterId = some dev ∨ s.mer.masterId.isNone ∨ s.mer.missing.isSome then
      let s := learnStandby s dev
      let s := { s with mer := { s.mer with masterId := some dev, hbSeen := now s, missing := none, takeover := none } }
      let ws := [BitVec.ofNat 64 (vintage * 2 ^ 32 + digest16 % 65536 * 2 ^ 16 + dev), (2 : Word)]
      (upPorts s).foldl (fun s p => if p = port then s else sendLink s p .heartbeat 0 ws) s
    else s

/-- A heartbeat arrives: a neighbour's own, or a master's, relayed from the side on which that master lies (R30, R35). -/
def execHeartbeat (port vintage digest16 dev role : Nat) (s : State) : Out :=
  let s := { s with fab := { s.fab with heard := Table.set zeroOf s.fab.heard dev (now s) } }
  let s := if (getPort s port).nbrId = some dev then neighbourBeat s port vintage digest16 dev else s
  .next (if role % 4 = 2 ∧ leadsTo s dev port ∧ dev ≠ s.devId then masterBeat s port vintage digest16 dev else s)

/-! ## Master and standby (R30 to R32) -/

/-- No heartbeat of the master for 2^33 mt: it counts as missing (R30). With no standby, nobody takes over (R32). -/
def execMasterMissing (s : State) : Out :=
  .next (if s.mer.role = 2 ∨ s.mer.masterId.isNone ∨ s.mer.missing.isSome ∨ since s s.mer.hbSeen < 2 ^ 33 then s
    else
      let s := { s with mer := { s.mer with missing := some (now s) } }
      if s.mer.standbyId.isNone then loseMaster s else s)

/-- Take over where a strict majority of the inventory has acknowledged (R30, R31). -/
def tryTakeover (s : State) : State :=
  match s.mer.takeover with
  | some (_, l) => if majority s l then becomeMaster s else s
  | none => s

/-- The standby has counted the master missing for 2^34 mt: it asks every module (R30). -/
def execTakeoverRequestTimer (s : State) : Out :=
  .next (match s.mer.missing with
    | some t =>
      if s.mer.role ≠ 1 ∨ s.mer.takeover.isSome ∨ since s t < 2 ^ 34 then s
      else
        let s := { s with mer := { s.mer with takeover := some (now s, [s.devId]) } }
        let s := (s.vin.inventory.filter (· != s.devId)).foldl (fun s d =>
          sendMgmt s .takeover d [BitVec.ofNat 64 s.devId, BitVec.ofNat 64 s.vin.vintage]) s
        tryTakeover s
    | none => s)

/-- A takeover request: acknowledged only while this module also counts the master as missing (R30). -/
def execTakeover (candidate _vintage : Nat) (s : State) : Out :=
  .next (if s.mer.missing.isNone then s
    else sendMgmt s .takeoverAck candidate [BitVec.ofNat 64 candidate, BitVec.ofNat 64 s.vin.vintage])

/-- An acknowledgement counts while the request is not older than 2^26 mt (R30). -/
def execTakeoverAck (dev _vintage : Nat) (s : State) : Out :=
  .next (match s.mer.takeover with
    | some (t, l) =>
      if l.contains dev ∨ ¬ s.vin.inventory.contains dev ∨ 2 ^ 26 < since s t then s
      else tryTakeover { s with mer := { s.mer with takeover := some (t, l ++ [dev]) } }
    | none => s)

/-- No majority within 2^26 mt; a module that is not the standby knows it by the time that has passed (R30, R32). -/
def execTakeoverTimeout (s : State) : Out :=
  .next (match s.mer.takeover, s.mer.missing with
    | some (t, _), _ => if 2 ^ 26 ≤ since s t then loseMaster s else s
    | none, some t =>
      if s.mer.role ≠ 1 ∧ s.mer.role ≠ 2 ∧ s.mer.masterId.isSome ∧ 2 ^ 34 + 2 ^ 26 ≤ since s t then loseMaster s else s
    | none, none => s)

/-! ## Two-phase change (R36 to R39, R287) -/

/-- PREPARE from the master, with the items that travel with it (R36, R37, R39). -/
def execPrepare (vintage : Nat) (digest : Word) (act : Nat) (catchup : Bool) (image : CfgImage) (s : State) : Out :=
  .next (if s.power.pwrOk = false then s else takePrepare s vintage digest act catchup image)

/-- The answer of a device ends the repetition of what the master asked of it (R314). -/
def clearAwait (s : State) (dev vintage : Nat) : State :=
  { s with fab := { s.fab with await := s.fab.await.filter (fun a =>
      !(a.dev == dev && (a.op == .lost || a.op == .join || (a.op == .prepare && (wordAt a.words 0).toNat == vintage)))) } }

/-- ACK counts towards the majority of the change in progress (R36). -/
def execAck (dev vintage : Nat) (s : State) : Out :=
  let s := clearAwait s dev vintage
  .next { s with vin := { s.vin with prep := s.vin.prep.map (fun p =>
    if p.vintage = vintage ∧ ¬ p.acks.contains dev then { p with acks := p.acks ++ [dev] } else p) } }

def execNack (dev vintage : Nat) (s : State) : Out :=
  let s := clearAwait s dev vintage
  .next { s with vin := { s.vin with prep := s.vin.prep.map (fun p =>
    if p.vintage = vintage ∧ ¬ p.nacks.contains dev then { p with nacks := p.nacks ++ [dev] } else p) } }

/-- Discard a staged change (R36 step 3). -/
def discardStaged (s : State) (vintage : Nat) : State :=
  let s := match s.vin.staged with
    | some st => if st.vintage = vintage ∧ st.catchup = false then
        { s with vin := { s.vin with staged := none }, tree := { s.tree with stagedPar := none } } else s
    | none => s
  match s.vin.missed with
  | some (v, _) => if v = vintage then { s with vin := { s.vin with missed := none } } else s
  | none => s

/-- r4 of VINTAGE_CHANGE: NACKs and ACKs (R506). -/
def changeCounts (p : Prep) : Word := BitVec.ofNat 64 (p.nacks.length * 2 ^ 32 + p.acks.length)

/-- At A − 2^24 mt without a strict majority the master sends ABORT (R36 step 3). -/
def execAbortDeadline (s : State) : Out :=
  .next (match s.vin.prep with
    | some p =>
      if p.aborted ∨ isMaster s = false ∨ 2 ^ 24 < aheadOf s p.act ∨ majority s p.acks then s
      else
        let s := { s with vin := { s.vin with prep := none } }
        let s := (otherDevs s).foldl (fun s d => sendMgmt s .abort d
          [BitVec.ofNat 64 p.vintage, p.digest, BitVec.ofNat 64 p.act, 0]) s
        let s := discardStaged s p.vintage
        setOutcomeOpt s p.mbx ⟨0x0804, []⟩
    | none => s)

/-- ABORT before A discards the staged items (R36 step 3). -/
def execAbort (vintage : Nat) (s : State) : Out :=
  .next (match s.vin.staged with
    | some st => if aheadOf s st.act = 0 then s else discardStaged s vintage
    | none => discardStaged s vintage)

/-- The partner that a new vintage names; the vintage that start-up agrees on names none in its image, and the module
takes the neighbour of R323 (log entry 61). -/
def vintagePartner (s : State) : Option Nat :=
  if s.vin.cfg.partners = [] then pickPartner s else namedPartner s

/-- What follows an activation: the mirror partner (R323, R356, R357), the command that asked for the change (R506), and
step 8 of start-up (R557). -/
def afterActivation (s : State) : State :=
  let former := s.fab.partner
  let s := changePartner (setPartner s (vintagePartner s)) former
  let s := match s.vin.prep with
    | some p => if p.vintage = s.vin.vintage then
        setOutcomeOpt { s with vin := { s.vin with prep := none } } p.mbx
          (okRes [BitVec.ofNat 64 p.vintage, p.digest, BitVec.ofNat 64 p.act, changeCounts p])
      else s
    | none => s
  if s.power.step = 7 ∧ s.power.failed = false then endStep s 8 0 (merWords s) else s

/-- The activation meridian comes: a staged module activates, an unstaged one, or one in a meridian fault, becomes
divergent (R28, R36). -/
def execVintageActivation (s : State) : Out :=
  .next (match s.vin.staged, s.vin.missed with
    | some st, _ =>
      if 0 < aheadOf s st.act then s
      else if s.tree.stagedPar.isNone ∨ s.mer.fault then
        becomeDivergent { s with vin := { s.vin with staged := none }, tree := { s.tree with stagedPar := none } }
      else afterActivation (activateVintage s st)
    | none, some (_, a) => if 0 < aheadOf s a then s else becomeDivergent s
    | none, none => s)

/-- No flit of the previous parity remains: the previous table is free again, and a staging that waited for it is done
(R287 step 3). -/
def execTrnOldDrained (s : State) : Out :=
  .next (if s.tree.old = false ∨ oldFlits s ≠ 0 then s
    else
      let s := { s with tree := { s.tree with old := false } }
      match s.vin.staged with
      | some st => if s.tree.stagedPar.isNone then finishStaging s st else s
      | none => s)

/-- The previous table stayed in use for 2^24 mt after PREPARE: staging fails (R287 step 1). -/
def execRouteStagingTimeout (s : State) : Out :=
  .next (match s.vin.staged with
    | some st =>
      if s.tree.old ∧ s.tree.stagedPar.isNone ∧ 2 ^ 24 ≤ since s s.tree.stagedAt then
        refusePrepare { s with vin := { s.vin with staged := none } } st.vintage st.digest st.act st.catchup
      else s
    | none => s)

/-! ## Management messages and stamps (R47, R313, R314) -/

/-- What has not been acknowledged within 2^22 mt is sent again (R314). -/
def execManagementResend (s : State) : Out :=
  let due := fun (a : MgmtAwait) => decide (2 ^ 22 ≤ since s a.sentAt)
  let s1 := (s.fab.await.filter due).foldl (fun s a => send s a.op a.dev 0x121 0 a.stamp a.words) s
  .next { s1 with fab := { s1.fab with await := s1.fab.await.map (fun a => if due a then { a with sentAt := now s } else a) } }

/-- A report reaches the master (R35, R38). -/
def execReport (kind dev : Nat) (s : State) : Out := .next (if isMaster s then takeReport s kind dev else s)

/-- Relrax records each counter's highest issued value every 2^32 mt (R47). -/
def recordMarks (s : State) : State :=
  s.counters.foldl (fun s (e : Nat × Nat) =>
    let (st, s) := issueStamp s 0x60
    let unit := if e.1 < 4096 then e.1 else coreSlot (e.1 - 4096)
    let cluster := if e.1 < 4096 then 0 else coreCluster (e.1 - 4096)
    let h := highestIssued s e.1
    let s := { s with marks := Table.set zeroOf s.marks e.1 h }
    logAdd s 0x0022 st [BitVec.ofNat 64 (unit + cluster * 2 ^ 8), BitVec.ofNat 64 h, 0, 0]) s

/-- Every 2^32 mt. The table of R28 does not name this activity nor the measurement of link delays; both go on in a meridian
fault (log entry 206). -/
def execStampWatermark (s : State) : Out :=
  let i := now s / 2 ^ 32
  .next (if i = s.mer.wmIdx then s else recordMarks { s with mer := { s.mer with wmIdx := i } })

/-- A DELAY request on a port: t1 is its meridian on the serialiser (R313). -/
def sendDelay (s : State) (p : Nat) : State :=
  let t := now s
  sendLink (updPort s p (fun x => { x with t1 := t })) p .delay 0 [BitVec.ofNat 64 t, 0, 0, 0]

/-- Each link's delay is measured again every 2^32 mt (R25). -/
def execLinkDelayRemeasure (s : State) : Out :=
  let i := now s / 2 ^ 32
  .next (if i = s.fab.remeasureIdx then s
    else (upPorts s).foldl sendDelay { s with fab := { s.fab with remeasureIdx := i } })

/-- DELAY: a request is answered with its arrival and departure; an answer gives the one-way delay (R313). -/
def execDelay (port : Nat) (answer : Bool) (t1 t2 t3 : Nat) (s : State) : Out :=
  .next (if s.power.pwrOk = false then s
    else if answer = false then
      sendLink s port .delay 0 [BitVec.ofNat 64 t1, BitVec.ofNat 64 (now s), BitVec.ofNat 64 (now s), 1]
    else if (getPort s port).t1 ≠ t1 then s
    else updPort s port (fun x => { x with
      delay := (((now s + 2 ^ 64 - t1) % 2 ^ 64 + 2 ^ 64 - (t3 + 2 ^ 64 - t2) % 2 ^ 64) % 2 ^ 64 / 2) % 2 ^ 32 }))

end Sys2Proof.Machine
end

