-- ==== Sys2Proof/Machine/LinkOps.lean ====
section
/-! DEFINITION. Ports going down, replay, credits and arbitration of a Hezhaul link, and what the master does about lost
links and modules (R299 to R303, R315 to R320). -/

namespace Sys2Proof.Machine

/-- The network cycle of the current epoch: 32,000 in 2^16 mt (R275). -/
def netCycle (s : State) : Nat := now s % 2 ^ 16 * 125 / 256

/-! ## Frames (R297 to R301) -/

/-- Messages of link scope stay on their link (R314). -/
def linkScope : FlitOp → Bool
  | .hello | .origin | .delay | .sync | .heartbeat => true
  | _ => false

/-- The virtual channel of a flit (R298). -/
def vcOf (f : Flit) : Nat := 2 * flitCls f.op + f.dl.toNat

/-- The frames that no ack covers, oldest first. -/
def unacked (x : Port) : List Frame :=
  match x.buf.findIdx? (fun f => f.seq == x.ackSeen) with
  | some i => x.buf.drop (i + 1)
  | none => x.buf

/-- The frames, newest first, that hold part of a burst which goes on after the newest: those before a frame in which a
burst has ended hold none of it (R301). -/
def openRun : List Frame → List Frame
  | [] => []
  | f :: t => if f.cont then f :: (if f.flits.isEmpty then openRun t else []) else []

/-- An ack releases frames, but one whose last slots hold a burst that goes on stays until the burst's last frame is
acknowledged (R300, R301). -/
def ackFrames (s : State) (p a : Nat) : State :=
  updPort s p (fun x =>
    match x.buf.findIdx? (fun f => f.seq == a) with
    | none => x
    | some i =>
      if x.ackSeen = a then x
      else
        let after := x.buf.drop (i + 1)
        { x with
          buf := (openRun (x.buf.take (i + 1)).reverse).reverse ++ after, ackSeen := a, ackAt := now s
          replays := x.replays.filter (fun e => after.any (fun f => f.seq == e.1)) })

/-- The PHY retrains; replay buffer and sequence numbers are kept (R300). -/
def startRecovery (s : State) (p : Nat) : State :=
  (portStamp (updPort s p (fun x => { x with
    state := 3, since := now s, recover := satAdd 16 x.recover 1, resendFrom := [] })) p).2

/-- A class record of a port (R514). -/
def portFault (s : State) (p cls : Nat) (stamp : Word) : State :=
  faultAt s 0x08 cls 0 stamp 0 (BitVec.ofNat 64 p) 0

/-- A change of width: class C2 under the port's stamp (R294). -/
def widthFault (s : State) (p : Nat) : State :=
  let (st, s) := portStamp s p
  portFault s p 2 st

/-- A frame that waits for its ack has been replayed eight times (R300). -/
def replaysSpent (x : Port) : Bool := (unacked x).any (fun f => decide (8 ≤ Table.get zeroOf x.replays f.seq))

/-- Each frame that waits for its ack has been replayed once more. -/
def countReplay (x : Port) : Table Nat :=
  (unacked x).foldl (fun t f => Table.upd zeroOf t f.seq (· + 1)) x.replays

/-- Replay from the first frame that is not acknowledged, class C0; a frame replayed eight times starts a recovery
(R300). -/
def replayPort (s : State) (p : Nat) : State :=
  let x := getPort s p
  if unacked x = [] then s
  else if replaysSpent x then startRecovery s p
  else
    portFault (updPort s p (fun x => { x with
      replays := countReplay x, replay := satAdd 16 x.replay 1, resendFrom := unacked x, ackAt := now s })) p 0 0

/-! ## Link state at the master (R318, R319) -/

/-- A link as the list names it: from its lower device's end (R507). -/
def linkName (mesh : Bool) (sizes : List Nat) (i p : Nat) : Nat × Nat :=
  match linkEnd mesh sizes i p with
  | some (j, q) => if j < i then (j, q) else (i, p)
  | none => (i, p)

/-- The links that the master knows as not UP: those of the active list and those reported DOWN. -/
def deadLinks (s : State) : List (Nat × Nat) :=
  let new := s.fab.downs.map (fun d => linkName s.fab.mesh s.fab.sizes d.1 d.2.1)
  (s.vin.cfg.linksDown ++ new).eraseDups

/-- Every port of a device that was UP has been reported DOWN by its neighbour, or the neighbour is lost (R318). -/
def cutOff (s : State) (dev : Nat) : Bool :=
  ports.all (fun p =>
    match linkEnd s.fab.mesh s.fab.sizes dev p with
    | none => true
    | some (n, q) => lostDev s n || linkListed s.fab.mesh s.fab.sizes s.vin.cfg.linksDown dev p ||
        s.fab.downs.any (fun d => d.1 == n && d.2.1 == q))

/-- The last report about a device's links. -/
def lastReport (s : State) (dev : Nat) : Option Nat :=
  (s.fab.downs.filter (fun d => d.2.2.1 == dev)).foldl (fun (b : Option Nat) d =>
    match b with | some t => some (max t d.2.2.2) | none => some d.2.2.2) none

/-- How many of these devices one of them cannot reach over the remaining links. -/
def unreachedBy (s : State) (links : List (Nat × Nat)) (alive : List Nat) (a : Nat) : Nat :=
  (alive.filter (fun b => !(canRoute s.fab.mesh s.fab.sizes links b 128 a))).length

/-- The next device to give up: the one that cannot reach the most others, between equals the highest (R319). -/
def worstDevice (s : State) (links : List (Nat × Nat)) (alive : List Nat) : Option Nat :=
  (alive.foldl (fun (b : Option (Nat × Nat)) d =>
    let n := unreachedBy s links alive d
    if n = 0 then b
    else match b with
      | none => some (n, d)
      | some (m, e) => if m < n ∨ (m = n ∧ e < d) then some (n, d) else b) none).map (·.2)

/-- The devices to declare lost until all remaining pairs can route (R319). -/
def giveUp (s : State) (links : List (Nat × Nat)) : Nat → List Nat → List Nat
  | 0, _ => []
  | n + 1, alive =>
    match worstDevice s links alive with
    | none => []
    | some d => d :: giveUp s links n (alive.filter (· != d))

/-- The master has heard a strict majority of the inventory within 2^26 mt (R318). -/
def heardMajority (s : State) : Bool :=
  majority s (s.vin.inventory.filter (fun d => decide (d = s.devId) ||
    s.fab.heard.any (fun h => h.1 == d && decide (since s h.2 ≤ 2 ^ 26))))

/-- The master treats a device as divergent: a catch-up is on its way to it, or a neighbour's heartbeat differs (R38,
R39). -/
def heldDivergent (s : State) (dev : Nat) : Bool :=
  s.fab.await.any (fun a => a.op == .prepare && a.dev == dev && (wordAt a.words 3).bit 0) ||
    ports.any (fun p => (getPort s p).nbrId == some dev && (getPort s p).nbrDivergent)

/-- The partner of a device in an image that follows a loss: the present one while its link stands, else the neighbour on
the lowest port whose link stands; never a divergent one (R38, R323). -/
def imagePartner (s : State) (links : List (Nat × Nat)) (dev : Nat) : Nat :=
  let nbr := fun (p : Nat) => match linkEnd s.fab.mesh s.fab.sizes dev p with
    | some (n, _) => if linkListed s.fab.mesh s.fab.sizes links dev p ∨ lostDev s n ∨ heldDivergent s n ∨ n = dev then none else some n
    | none => none
  let cur := Table.get selfPartner s.vin.cfg.partners dev
  let ns := ports.filterMap nbr
  if cur = dev ∨ ns.contains cur then cur else ns.headD dev

/-- The master starts a change whose tables reflect the remaining links, 2^27 mt ahead (R319, log entry 62). -/
def relinkChange (s : State) : State :=
  if s.vin.prep.isSome ∨ s.vin.agreed = false then s
  else
    let links := deadLinks s
    let parts := s.vin.inventory.map (fun d => (d, imagePartner s links d))
    let v := (s.vin.vintage + 1) % 2 ^ 32
    let img := { s.vin.cfg with
      vintage := v, linksDown := links
      partners := parts.foldl (fun t e => Table.set selfPartner t e.1 e.2) s.vin.cfg.partners }
    startChange s img v ((now s + 2 ^ 27) % 2 ^ 64) none

/-! ## A lost module (R226, R227, R320) -/

/-- The transactions and credits of a home that concern a lost device end (R227). -/
def endLostTxns (s : State) (dev : Nat) : State :=
  let s := s.home.txns.foldl (fun s t =>
    ((t.waiting.map (·.1) ++ t.missFrom).filter (fun a => a.dev == dev)).foldl (fun s a =>
      match findTxn s t.line with
      | some t => if t.waiting.any (fun x => x.1 == a) ∨ t.missFrom.contains a then loseAnswer s t a else s
      | none => s) s) s
  let s := s.home.txns.foldl (fun s t =>
    match t.goal with
    | .request _ r => if r.agent.dev = dev then freeLine s t.line else s
    | _ => s) s
  let mine := s.home.credits.filter (fun c => c.2.agent.dev == dev)
  let s := { s with home := { s.home with credits := s.home.credits.filter (fun c => c.2.agent.dev != dev) } }
  mine.foldl (fun s c => if busy s c.2.line then s else freeLine s c.2.line) s

/-- A buffered store to a line of a device's memory (R227). -/
def homedOn (dev : Nat) (e : BufEntry) : Bool := e.maint.isNone && !(e.addr.bit 63) && addrDev e.addr == dev

/-- What this module loses with a home: the buffered stores to its lines, and the dirty lines of it that are cached or on
their way back; the address and zone of each. -/
def lostWith (s : State) (dev : Nat) : List (Word × Nat) × List (Word × Nat) :=
  let addr := fun (gl : Nat) => BitVec.ofNat 64 (gl % 2 ^ 50 * 128)
  let stores := s.cores.flatMap (fun c => (c.2.buf.filter (homedOn dev)).map (fun e => (e.addr, e.zone)))
  let dirty := fun (st : Moesi) => st == .m || st == .o
  let lines := (s.lines.filter (fun e => addrDev (addr e.1) == dev && dirty e.2.st)).map (fun e => (addr e.1, e.2.zone))
  let backs := (s.wbs.filter (fun w => addrDev (addr w.line) == dev && dirty w.st)).map (fun w => (addr w.line, w.zone))
  (stores, lines ++ backs)

/-- The class C3 records of a lost home: one per discarded store, with its address; the first of a zone, or else one with
the address of a dirty line, counts the zone's dirty lines in word 5 [63:32] (R227; log entry 179). -/
def lostReports (stores dirty : List (Word × Nat)) : List Report :=
  let count := fun (z : Nat) => (dirty.filter (fun e => e.2 == z)).length
  let rec' := fun (e : Word × Nat) (k : Nat) => mkReport 0x05 3 5 0 e.1 (BitVec.ofNat 64 (k * 2 ^ 32)) e.2
  let ofStores := stores.zipIdx.map (fun x =>
    rec' x.1 (if (stores.take x.2).any (fun e => e.2 == x.1.2) then 0 else count x.1.2))
  let ofLines := dirty.zipIdx.filterMap (fun x =>
    if stores.any (fun e => e.2 == x.1.2) || (dirty.take x.2).any (fun e => e.2 == x.1.2) then none
    else some (rec' x.1 (count x.1.2)))
  ofStores ++ ofLines

/-- A home is lost: every cached line of it is invalidated without write-back, and the buffered stores to it are
discarded, with class C3 faults (R212, R227). -/
def loseHomed (s : State) (dev : Nat) : State :=
  let (stores, dirty) := lostWith s dev
  let homed := fun (gl : Nat) => addrDev (BitVec.ofNat 64 (gl % 2 ^ 50 * 128)) == dev
  let s := (s.lines.filter (fun e => homed e.1)).foldl (fun s e => dropLine s (e.1 / 2 ^ 50) (e.1 % 2 ^ 50)) s
  let s := { s with
    wbs := s.wbs.filter (fun w => !(homed w.line))
    cores := Table.mapListed Core.reset (fun _ c =>
      { c with buf := c.buf.filter (fun e => !(homedOn dev e)) }) s.cores }
  (lostReports stores dirty).foldl fault s

/-- This module loses its partner: unmirrored until a vintage names another (R324, R357). -/
def losePartner (s : State) : State := unmirrorOps (setPartner s none)

/-- This module is cut off: class C5, and nothing further is sent on Hezhaul (R320). -/
def isolateModule (s : State) : State :=
  if s.fab.isolated then s else faultAt { s with fab := { s.fab with isolated := true } } 0x08 5 0 0 0 0 0

/-- LOST at a module; running zone resets become partial (R226, R227, R320, R361, R456, R490). -/
def takeLost (s : State) (dev : Nat) : State :=
  if dev = s.devId then isolateModule s
  else if lostDev s dev then s
  else
    let (st, s) := issueStamp s 0x60
    let s := { s with
      fab := { s.fab with
        lostMap := Table.set noFlag s.fab.lostMap dev true, await := s.fab.await.filter (fun a => a.dev != dev) }
      home := if s.home.lost.length < 64 then
          { s.home with lost := s.home.lost ++ [dev], walking := some (s.home.walking.getD dev) }
        else { s.home with lostQueue := s.home.lostQueue ++ [dev] } }
    let s := logLink s 2 dev 0 st
    let s := if s.vin.inventory.contains dev then
        { s with zon := { s.zon with zones := s.zon.zones.map (fun z =>
            (z.1, { z.2 with rst := z.2.rst.map (fun r => { r with partial' := true }) })) } }
      else s
    let s := loseHomed (endLostTxns s dev) dev
    let s := (s.reqs.filter (fun r => addrDev r.req.addr == dev)).foldl (fun s r => sendErr s r.req 5) s
    let s := if s.fab.partner = some dev then losePartner s else s
    let s := orphanPosting s dev
    let gone := s.rlx.forwards.filter (fun f => f.target == dev)
    let s := { s with rlx := { s.rlx with forwards := s.rlx.forwards.filter (fun f => f.target != dev) } }
    gone.foldl (fun s f => setOutcome s f.mbx ⟨0x0008, []⟩) s

/-- The master declares a device lost: LOST and SWEEP are flooded (R318, R321). -/
def declareLost (s : State) (dev : Nat) : State :=
  startSweep (takeLost (floodAwait s .lost dev [BitVec.ofNat 64 dev, BitVec.ofNat 64 (now s)]) dev)

/-- LINKDOWN at the master: the report is kept, modules that no links reach are declared lost, and new tables follow
(R318, R319). -/
def takeLinkdown (s : State) (reporter port neighbour mer : Nat) : State :=
  let s := { s with fab := { s.fab with
    downs := s.fab.downs.filter (fun d => !(d.1 == reporter && d.2.1 == port)) ++ [(reporter, port, neighbour, mer)] } }
  if s.vin.agreed = false then s
  else
    let dead := giveUp s (deadLinks s) s.vin.inventory.length (s.vin.inventory.filter (fun d => !(lostDev s d)))
    if dead = [] then relinkChange s
    else if heardMajority s = false then faultAt s 0x10 2 0 0 0 4 0
    else relinkChange (dead.foldl declareLost s)

/-- A report to the master, which takes its own at once. -/
def tellDown (s : State) (p nbr mer : Nat) : State :=
  if isMaster s then takeLinkdown s s.devId p nbr mer
  else match s.mer.masterId with
    | some m => sendMgmt s .linkdown m [BitVec.ofNat 64 (s.devId * 2 ^ 48 + p * 2 ^ 44 + nbr), BitVec.ofNat 64 mer]
    | none => s

/-! ## A port goes down (R315 to R317) -/

/-- The flits of a port's replay buffer as orphans for the neighbour, or none where it is lost; they come from the port,
and so keep their virtual channel in its dimension (R307, R316). -/
def orphansOf (s : State) (p : Nat) (x : Port) : List Flit :=
  match x.nbrId with
  | none => []
  | some d =>
    if lostDev s d then []
    else (x.buf.flatMap (·.flits) ++ (x.sending.map (·.1)).toList).map (fun f =>
      { f with tdst := f.dst, dst := d, orph := true, det := 0, inPort := some p })

/-- A port becomes DOWN, or FENCED where `state` is 5: class C2, the history frozen, its buffered flits orphaned, its
queued flits routed again as if they had not left, and the master told (R315, R316, R317, R324). -/
def portDown (s : State) (p state : Nat) : State :=
  let x := getPort s p
  if x.state = 4 ∨ (x.state = 5 ∧ state = 5) ∨ x.state = 6 then s
  else
    let (st, s) := portStamp s p
    let orph := orphansOf s p x
    let again := (x.tx.filter (fun f => !(linkScope f.op))).map (fun f => { f with hops := f.hops - 1 })
    let s := updPort s p (fun x => { x with
      state := state, since := now s, inited := false, nakWait := false, rtLane := none, width := 3
      buf := [], resendFrom := [], tx := [], sending := none, history := []
      frozen := if x.history = [] then x.frozen else x.frozen ++ [(x.history.flatten, now s)]
      orphans := satAdd 16 x.orphans (orph.foldl (fun a f => a + f.more + 1) 0) })
    let s := { s with tree := { s.tree with net := s.tree.net ++ (orph ++ again).map (fun f => { f with hop := some (20, netCycle s) }) } }
    let s := portFault s p 2 st
    let s := logLink s 1 (x.nbrId.getD 0xFFFF) p st
    let s := if upPorts s = [] ∧ x.state = 2 then { s with fab := { s.fab with lastUp := now s } } else s
    let lone := match s.fab.partner with
      | some d => x.nbrId == some d && !((upPorts s).any (fun q => (getPort s q).nbrId == some d))
      | none => false
    let s := if lone then losePartner s else s
    match x.nbrId with
    | some d => tellDown s p d (now s)
    | none => s

/-- A port starts its training (R310, R329). -/
def trainPort (s : State) (p : Nat) : State :=
  (portStamp (updPort s p (fun x => { x with state := 1, since := now s, inited := false })) p).2

/-! ## Sending (R302, R303) -/

/-- Request-class and channel-I/O flits. -/
def isRequest (f : Flit) : Bool := flitCls f.op == 0 || flitCls f.op == 3

/-- Credits of a virtual channel. -/
def creditsFor (x : Port) (vc : Nat) : Nat := Table.get zeroOf x.credits vc

/-- The oldest packet of a virtual channel, where its credits allow it to leave. -/
def vcHead (x : Port) (vc : Nat) : Option Flit :=
  match x.tx.find? (fun f => vcOf f == vc) with
  | some f => if f.more + 1 ≤ creditsFor x vc then some f else none
  | none => none

def vcHeads (x : Port) (vcs : List Nat) : List Flit := vcs.filterMap (vcHead x)

/-- A weight of a zone, the byte from bit `lo` on of its QoS block, 0 taken as 1 (R279, R437). -/
def zoneWeight (lo : Nat) (s : State) (z : Nat) : Nat × State :=
  match zoneEntry rep s z with
  | (some ws, s) => (max 1 ((qosOf ws (s.vin.cfg.zonCtl.field 63 32)).field (lo + 7) lo), s)
  | (none, s) => (1, s)

/-- The fabric weight of a zone, and its tree weight (R436). -/
def fabricWeight : State → Nat → Nat × State := zoneWeight 48
def treeWeight : State → Nat → Nat × State := zoneWeight 56

/-- The zone after `z` in the round among the zones that have a packet ready. -/
def nextZone (zs : List Nat) (z : Option Nat) : Option Nat :=
  let lo := fun (l : List Nat) => l.foldl (fun (b : Option Nat) x =>
    match b with | some y => some (min x y) | none => some x) none
  match z with
  | some z => match lo (zs.filter (fun x => decide (z < x))) with | some n => some n | none => lo zs
  | none => lo zs

/-- Turns enough for a zone to gather the deficit that its packet needs (R279). -/
def drrTurns (heads : List Flit) : Nat := heads.length * (heads.foldl (fun a f => max a f.more) 0 + 2) + 1

/-- Deficit round robin over zones among the packets ready, of which `all` are the best-effort packets that wait: the zone
in turn sends while its deficit allows, and an empty one keeps no deficit; then the turn goes on (R279, R303). -/
def drrPick (weight : State → Nat → Nat × State) (heads all : List Flit) : Nat → Drr → State → Option Flit × Drr × State
  | 0, d, s => (heads.head?, d, s)
  | n + 1, d, s =>
    match heads.find? (fun f => some f.zone == d.turn && decide (f.more + 1 ≤ Table.get zeroOf d.deficits f.zone)) with
    | some f =>
      let left := (all.filter (fun g => g.zone == f.zone)).length
      let pay := fun (x : Nat) => if left ≤ 1 then 0 else x - (f.more + 1)
      (some f, { d with deficits := Table.upd zeroOf d.deficits f.zone pay }, s)
    | none =>
      match nextZone (heads.map (·.zone)) d.turn with
      | none => (none, d, s)
      | some z =>
        let (w, s) := weight s z
        drrPick weight heads all n ⟨some z, Table.upd zeroOf d.deficits z (· + w)⟩ s

/-- A Hezhaul port's choice among the packets ready, by the fabric weights (R303). -/
def pickZone (p : Nat) (heads : List Flit) (s : State) : Option Flit × State :=
  let x := getPort s p
  let all := x.tx.filter isRequest
  let (f, d, s) := drrPick fabricWeight heads all (drrTurns heads) ⟨x.turn, x.deficits⟩ s
  (f, updPort s p (fun x => { x with turn := d.turn, deficits := d.deficits }))

/-- The packet that a port sends next: management, response, snoop, then requests and channel I/O (R303). -/
def pickPacket (s : State) (p : Nat) : Option Flit × State :=
  let x := getPort s p
  match vcHeads x [8, 9, 4, 5, 2, 3] with
  | f :: _ => (some f, s)
  | [] =>
    match vcHeads x [0, 1, 6, 7] with
    | [] => (none, s)
    | l => pickZone p l s

/-- Fill the slots of a frame: the packets whose last flit it holds. -/
def fillFrame (p : Nat) : Nat → State → List Flit → List Flit × State
  | 0, s, acc => (acc, s)
  | n + 1, s, acc =>
    match (getPort s p).sending with
    | some (f, k) =>
      if f.more ≤ k then fillFrame p n (updPort s p (fun x => { x with sending := none })) (acc ++ [f])
      else fillFrame p n (updPort s p (fun x => { x with sending := some (f, k + 1) })) acc
    | none =>
      match pickPacket s p with
      | (none, s) => (acc, s)
      | (some f, s) =>
        let s := updPort s p (fun x => { x with
          tx := List.delFirst (· == f) x.tx
          credits := Table.upd zeroOf x.credits (vcOf f) (fun c => c - (f.more + 1))
          sending := if f.more = 0 then none else some (f, 1) })
        fillFrame p n s (if f.more = 0 then acc ++ [f] else acc)

/-- Up to three credit returns of a frame (R297, R302). -/
def takeOwed (x : Port) : List (Nat × Nat) × Port :=
  let give := (x.owed.take 3).map (fun e => (e.1, min 63 e.2))
  (give, { x with owed := give.foldl (fun t e => Table.upd zeroOf t e.1 (fun c => c - e.2)) x.owed })

/-- The next frame of a port: a replayed one, a data frame, or an idle one (R300, R302, R303). -/
def transmit (s : State) (p : Nat) : State :=
  let x := getPort s p
  match x.resendFrom with
  | _ :: t => updPort s p (fun x => { x with resendFrom := t })
  | [] =>
    let (give, x') := takeOwed x
    let s := updPort s p (fun _ => x')
    if 256 ≤ x.buf.length then s
    else
      let began := x.sending.isSome
      let (fl, s) := fillFrame p 8 s []
      let y := getPort s p
      if fl = [] ∧ began = false ∧ y.sending.isNone then s
      else
        let fr : Frame := ⟨(y.txSeq + 1) % 4096, y.rxSeq, false, give, fl, y.sending.isSome,
          if s.devValid then some s.devId else none, p, true, 0, 0⟩
        updPort s p (fun x => { x with
          txSeq := fr.seq, buf := x.buf ++ [fr], ackAt := if unacked x = [] then now s else x.ackAt })

/-- The width without a lane's pair: 1 on lanes 0 and 1, 2 on lanes 2 and 3 (R330). -/
def otherPair (lane : Nat) : Nat := if lane < 2 then 2 else 1

/-- A lane may retrain: none of its port does, and the other pair carries the port; a lane of the one pair that works waits
(R294, R295; log entry 219). -/
def mayStartLane (x : Port) (lane : Nat) : Bool :=
  x.state == 2 && x.rtLane.isNone && (x.width == 0 || x.width == otherPair lane)

/-- A lane of a port starts to retrain: the port runs x2 on the other pair, a change of width, and the frames in flight
are replayed (R294, R295, R330; log entry 27). -/
def startLane (s : State) (p lane : Nat) : State :=
  let x := getPort s p
  let w := otherPair lane
  let s := updPort s p (fun x => { x with rtLane := some lane, rtWidth := x.width, width := w })
  replayPort (if x.width = w then s else widthFault s p) p

end Sys2Proof.Machine
end

