-- ==== Sys2Proof/Machine/TreeOps.lean ====
section
/-! DEFINITION. The routers of the tree: their ports and links, arbitration, domains, and the root's lost map, parity,
detours and orphans (R267 to R269, R272, R274 to R287, R306 to R309, R316, R317). -/

namespace Sys2Proof.Machine

/-- 64 network cycles, 32 ns, in mt (R283). -/
def nackDelay : Nat := 131

/-! ## Routers (R267 to R269)

Cluster routers are 0 to 15, quadrant routers 16 to 19, as their power domains are numbered, and the root is 20. Root output
ports are 0 to 19 and those of quadrant routers 32 to 51 as R269 has them; those of cluster router `k` are `64 + 32 k + j`:
`j` below 17 toward core `j` of the cluster, 17 toward its L3 slice, 18 toward its quadrant router (log entry 225). -/

/-- The router that an endpoint hangs on (R267, R268). -/
def teidRouter (t : Nat) : Nat := if t < 0x110 then t / 17 else if t < 0x120 then t - 0x110 else 20

/-- The router at which a flit stands: the one it has reached, else that of its source, which for a flit from Hezhaul is
the root. -/
def routerOf (f : Flit) : Nat :=
  match f.hop with
  | some h => h.1
  | none => if f.inPort.isSome then 20 else teidRouter f.steid

/-- The link over which a flit came to its router, by the output port that drove it; none at the router of its source. -/
def cameOver (f : Flit) : Option Nat :=
  match f.hop with
  | none => none
  | some h =>
    let k := teidRouter f.steid
    let up := f.inPort.isNone && decide (k < 16)
    if 20 ≤ h.1 then (if up then some (32 + 5 * (k / 4) + 4) else none)
    else if 16 ≤ h.1 then (if up && k / 4 == h.1 - 16 then some (64 + 32 * k + 18) else some (h.1 - 16))
    else some (32 + 5 * (h.1 / 4) + h.1 % 4)

/-- The input ports of a router in order: its children, then its parent. -/
def inputNo (f : Flit) : Nat :=
  match cameOver f with
  | none => 0
  | some p => if p < 4 then 1024 else p

/-- The router that an output port drives. -/
def portTarget (p : Nat) : Option Nat :=
  if p < 4 then some (16 + p)
  else if 32 ≤ p ∧ p < 52 then some (if (p - 32) % 5 = 4 then 20 else 4 * ((p - 32) / 5) + (p - 32) % 5)
  else if 64 ≤ p ∧ (p - 64) % 32 = 18 then some (16 + (p - 64) / 128)
  else none

/-- The quadrant whose die-to-die link an output port drives (R267). -/
def d2dQuad (p : Nat) : Option Nat :=
  if p < 4 then some p else if 32 ≤ p ∧ p < 52 ∧ (p - 32) % 5 = 4 then some ((p - 32) / 5) else none

/-- The arrival of a flit at a router: behind those that came before it, and among those of its network cycle in the order
of the input ports (R279). -/
def enterRouter (s : State) (f : Flit) (r : Nat) : State :=
  let f := { f with hop := some (r, netCycle s) }
  let i := s.tree.net.findIdx (fun g => g.hop == f.hop && decide (inputNo f < inputNo g))
  { s with tree := { s.tree with net := s.tree.net.take i ++ [f] ++ s.tree.net.drop i } }

/-- A flit whose journey ends in this module's tree. -/
def endsHere (s : State) (f : Flit) : Bool := f.dst == s.devId && !f.orph

/-- A tree NACK: to the source on this module, or to the root for a flit from Hezhaul (R283). -/
def treeNackFor (s : State) (f : Flit) (d : Nat) : State :=
  let s := updDom s d (fun x => { x with nacks := satAdd 16 x.nacks 1 })
  if f.inPort.isSome then
    { s with tree := { s.tree with refused := s.tree.refused ++ [({ f with hop := none }, (now s + nackDelay) % 2 ^ 64)] } }
  else sendFlit s (mkFlit s .treeNack s.devId f.steid f.zone f.stamp [wordAt f.words 0])

/-- A flit that its router forwards into a power domain: it goes on to the domain's router, but a request is held, refused or
answered where the domain is not ONLINE, and the root answers a snoop of a quadrant that is OFF (R282, R284). -/
def passDomain (s : State) (f : Flit) (d : Nat) : State :=
  let st := (getDom s d).state
  if st = 1 then enterRouter s f d
  else if isRequest f then
    if st = 2 ∨ st = 3 then
      (if (getDom s d).held.length < 64 then updDom s d (fun x => { x with held := x.held ++ [f] })
       else treeNackFor s f d)
    else answerErr s f 1
  else if flitCls f.op = 1 ∧ 16 ≤ d ∧ st = 0 then
    sendFlit s { mkFlit s .snpResp f.src f.steid f.zone f.stamp [wordAt f.words 0, 0, 0x80] with qmask := f.qmask, rs := f.rs }
  else enterRouter s f d

/-- At the root, a flit for an endpoint of this module: into the quadrant that holds the endpoint, else handed to its agent
on the hub, whose own row takes the message (R268, R282, R284). -/
def deliver (s : State) (f : Flit) : State :=
  let s := if flitCls f.op = 4 then { s with fab := { s.fab with heard := Table.set zeroOf s.fab.heard f.src (now s) } } else s
  let k := teidRouter f.teid
  if k < 16 then passDomain s f (16 + k / 4) else s

/-- An unroutable flit: Err reason 3 for a request, else discarded, counted, class C2, and reported to the master
(R309). -/
def unroutable (s : State) (f : Flit) : State :=
  if isRequest f then answerErr s f 3
  else
    let (st, s) := issueStamp s (match f.inPort with | some p => 0x50 + p | none => 0x60)
    let s := { s with fab := { s.fab with discards := satAdd 32 s.fab.discards (f.more + 1) } }
    let s := faultAt s 0x08 2 0 st 0 (BitVec.ofNat 64 (f.inPort.getD 0)) 0
    if isMaster s then takeReport s 2 f.dst
    else match s.mer.masterId with
      | some m => sendMgmt s .report m [2, BitVec.ofNat 64 f.dst]
      | none => s

/-- A flit leaves on a port with its hop counted (R308); the dateline bit is set where the link is a dateline and cleared
at a turn, and on a mesh is 1 on the second hop of a transit (R307). -/
def leaveOn (s : State) (f : Flit) (q : Nat) : State :=
  let same := match f.inPort with | some i => decide (i / 2 = q / 2) | none => false
  let dl := if s.fab.mesh then f.det == 7 && f.inPort.isSome
    else isDateline s.fab.mesh s.fab.sizes s.devId q || (f.dl && same)
  if 48 < f.hops + 1 then unroutable s f
  else updPort s q (fun x => { x with tx := x.tx ++ [{ f with hops := f.hops + 1, dl := dl, inPort := none, hop := none }] })

/-- The lowest module whose links to this module and to the destination are both UP (R308). -/
def meshTransit (s : State) (dst : Nat) : Option Nat :=
  let n := s.fab.sizes.getD 0 1
  let dead := deadLinks s
  let portTo := fun (i j : Nat) => (j + n - i - 1) % n
  ((List.range n).find? (fun m => decide (m ≠ s.devId ∧ m ≠ dst) && !(lostDev s m) && portUp s (portTo s.devId m) &&
    !(linkListed true s.fab.sizes dead m (portTo m dst)))).map (portTo s.devId)

/-- A flit's parity names the table that holds staged entries which are not active (R287). -/
def staleTable (s : State) (f : Flit) : Bool := s.tree.stagedPar == some f.par && f.par != activePar s

/-- The entry of the routing table that a flit takes: the table of its parity, but the active one where that is staged,
and always in a divergent module (R38, R285, R287). -/
def flitPort (s : State) (f : Flit) : Option Nat :=
  rtPort s (if staleTable s f ∨ s.vin.divergent then activePar s else f.par) f.dst

/-- A flit whose parity names a table that is staged is counted (R287). -/
def countStale (s : State) (f : Flit) : State :=
  if staleTable s f then { s with tree := { s.tree with stale := satAdd 16 s.tree.stale (f.more + 1) } } else s

/-- A flit for another module of a mesh: over port `p`, or through one transit (R308). -/
def routeMesh (s : State) (f : Flit) (p : Nat) : State :=
  if portUp s p then leaveOn s f p
  else if f.det = 7 then unroutable s f
  else match meshTransit s f.dst with
    | some q => leaveOn s { f with det := 7, inPort := none } q
    | none => unroutable s f

/-- A flit for another module of a torus: over port `p`, or the other way round its ring where that link is down (R308). -/
def routeTorus (s : State) (f : Flit) (p : Nat) : State :=
  let d := p / 2
  let locked := f.det == d + 1
  let f := if locked then f else { f with det := 0 }
  let q := if locked then 2 * d + f.ddir.toNat else p
  if portUp s q then leaveOn s f q
  else if locked then unroutable s f
  else
    let o := if q % 2 = 0 then q + 1 else q - 1
    if portUp s o then leaveOn s { f with det := d + 1, ddir := o % 2 == 1 } o else unroutable s f

/-- Routing of a flit that is not for this module; a divergent module routes either parity with its active table (R38,
R285, R286, R287, R308, R309). -/
def routeOut (s : State) (f : Flit) : State :=
  match flitPort s f with
  | none => unroutable (countStale s f) f
  | some p =>
    if p = 12 then deliver (countStale s f) f
    else if s.fab.mesh then routeMesh (countStale s f) f p
    else routeTorus (countStale s f) f p

/-- Routing without an orphan's check. -/
def routePlain (s : State) (f : Flit) : State :=
  if lostDev s f.dst then (if isRequest f then answerErr s f 5 else s)
  else if f.dst = s.devId then deliver s f
  else routeOut s f

/-- An orphan at the module that it names: discarded where a frozen history holds its key, else on its way (R317). -/
def orphanCheck (s : State) (f : Flit) : State :=
  let key := (f.stamp, f.op, f.more)
  let known := s.fab.ports.any (fun p => p.2.frozen.any (fun h => h.1.contains key))
  if known then { s with fab := { s.fab with orphDup := satAdd 16 s.fab.orphDup (f.more + 1) } }
  else
    let s := { s with fab := { s.fab with orphFwd := satAdd 16 s.fab.orphFwd (f.more + 1) } }
    routePlain s { f with dst := f.tdst, tdst := 0, orph := false }

/-- The root routes a flit (R308). -/
def routeFlit (s : State) (f : Flit) : State :=
  if f.orph ∧ f.dst = s.devId then orphanCheck s f else routePlain s f

/-- A flit crosses to its next router: up from a cluster or a quadrant that does not hold its endpoint, else down into the
cluster of the endpoint, whose agent takes it there; the root routes it (R267, R268, R308). -/
def hopFlit (s : State) (f : Flit) : State :=
  let r := routerOf f
  let k := teidRouter f.teid
  if 20 ≤ r then routeFlit s f
  else if 16 ≤ r then (if endsHere s f && decide (k < 16 ∧ k / 4 = r - 16) then passDomain s f k else enterRouter s f 20)
  else if endsHere s f && k == r then s
  else enterRouter s f (16 + r / 4)

/-! ## Arbitration (R269, R272, R275 to R280) -/

/-- The root output port toward an endpoint of this module (R268, R269). -/
def teidPort (t : Nat) : Option Nat :=
  if t < 0x110 then some (t / 68)
  else if t < 0x120 then some ((t - 0x110) / 4)
  else if t = 0x120 then some 4
  else if t = 0x121 then some 5
  else if 0x130 ≤ t ∧ t < 0x13C then some (6 + (t - 0x130))
  else if t = 0x140 ∨ t = 0x141 then some (18 + (t - 0x140))
  else none

/-- The root output port of a flit, by its destination and table; none for a flit that the root itself ends: one that has
no route, goes to a lost device, or is an orphan to be checked here. -/
def rootOut (s : State) (f : Flit) : Option Nat :=
  if lostDev s f.dst ∨ (f.orph ∧ f.dst = s.devId) then none
  else if f.dst = s.devId then teidPort f.teid
  else match flitPort s f with
    | some 12 => teidPort f.teid
    | some p => some (6 + p)
    | none => none

/-- The output port of a flit at its router: toward its endpoint where the router holds it, else toward the parent. -/
def outputPort (s : State) (f : Flit) : Option Nat :=
  let r := routerOf f
  let k := teidRouter f.teid
  if 20 ≤ r then rootOut s f
  else if 16 ≤ r then
    some (32 + 5 * (r - 16) + (if endsHere s f && decide (k < 16 ∧ k / 4 = r - 16) then k % 4 else 4))
  else some (64 + 32 * r + (if endsHere s f && k == r then (if f.teid < 0x110 then f.teid % 17 else 17) else 18))

/-- The system class of an eviction that a flush sends: a draining domain's, or a zone reset's (R277, R282, R454). -/
def flushClass (s : State) (f : Flit) : Option Nat :=
  let q := (f.steid - 0x110) / 4
  if (f.op ≠ .wrBack ∧ f.op ≠ .evictClean) ∨ f.src ≠ s.devId ∨ f.steid < 0x110 ∨ 0x120 ≤ f.steid then none
  else if (match (getZone s f.zone).rst with | some r => r.step == 5 | none => false) then some 5
  else if (getDom s (16 + q)).state = 3 ∨ (List.range 4).any (fun j => (getDom s (4 * q + j)).state == 3) then some 3
  else none

/-- The system class of a flit; the codes of logbook and decant traffic have no flits of their own (R277; log entry
180). -/
def systemClass (s : State) (f : Flit) : Option Nat :=
  match flushClass s f with
  | some c => some c
  | none => if flitCls f.op = 2 then some 0 else if flitCls f.op = 4 then some 1 else none

/-- Whether a flit is of the system class with a code. -/
def systemFlit (s : State) (code : Nat) (f : Flit) : Bool := systemClass s f == some code

/-- Best-effort traffic of a port, system traffic taken as zone 0's (R276). -/
def bestEffort (ready : List Flit) : List Flit :=
  (ready.filter (fun f => isRequest f || flitCls f.op == 4)).map (fun f => if flitCls f.op = 4 then { f with zone := 0 } else f)

/-- The oldest flit of every zone. -/
def zoneHeads (fs : List Flit) : List Flit :=
  fs.foldl (fun acc f => if acc.any (fun g => g.zone == f.zone) then acc else acc ++ [f]) []

/-- The unreserved choice of a port: responses, then snoops, then best effort by the zones' tree weights (R276, R279).
Answers the stamp and the operation of the flit. -/
def openChoice (s : State) (p : Nat) (ready : List Flit) : Option Flit × State :=
  match ready.find? (fun f => flitCls f.op == 2), ready.find? (fun f => flitCls f.op == 1) with
  | some f, _ => (some f, s)
  | none, some f => (some f, s)
  | none, none =>
    let all := bestEffort ready
    let (f, d, s) := drrPick treeWeight (zoneHeads all) all (drrTurns (zoneHeads all)) (Table.get Drr.start s.tree.rounds p) s
    let pick := match f with
      | some g => ready.find? (fun x => x == g || (flitCls x.op == 4 && { x with zone := 0 } == g))
      | none => none
    (pick, { s with tree := { s.tree with rounds := Table.set Drr.start s.tree.rounds p d } })

/-- The unreserved choice below the root: responses, then snoops, then the oldest flit (R276, R279). -/
def lowChoice (ready : List Flit) : Option Flit :=
  match ready.find? (fun f => flitCls f.op == 2), ready.find? (fun f => flitCls f.op == 1) with
  | some f, _ => some f
  | none, some f => some f
  | none, none => ready.head?

/-- The flit that an output port takes in this network cycle, of those ready for it, oldest first; a cluster router has
no slot table (R269, R276). -/
def portChoice (s : State) (p : Nat) (ready : List Flit) : Option Flit × State :=
  let e := if p < 52 then slotEntry s.vin.cfg p (netCycle s % 256) else 0
  let own := match e / 2 ^ 13 with
    | 1 => ready.find? (fun f => f.zone == e % 4096)
    | 2 => ready.find? (systemFlit s (e % 4096))
    | _ => none
  match own with
  | some f => (some f, s)
  | none => if p < 20 then openChoice s p ready else (lowChoice ready, s)

/-- An output port is free: what it sent last has left its link (R267, R276). -/
def portFree (s : State) (p : Nat) : Bool :=
  match Assoc.get s.tree.freeAt p with
  | some t => decide ((now s + 2 ^ 64 - t) % 2 ^ 64 < 2 ^ 63)
  | none => true

/-- The port sends a burst: its link carries one flit in a network cycle of 256/125 mt (R267, R275). -/
def portSends (s : State) (p : Nat) (f : Flit) : State :=
  let t := (now s + ((f.more + 1) * 256 + 124) / 125) % 2 ^ 64
  { s with tree := { s.tree with freeAt := Assoc.put s.tree.freeAt p t } }

/-- The flits of a class that stand in the buffers behind a link (R272). -/
def bufferedFlits (s : State) (p cls : Nat) : Nat :=
  (s.tree.net.filter (fun g => cameOver g == some p && portTarget p == some (routerOf g) && flitCls g.op == cls)).foldl
    (fun a g => a + g.more + 1) 0

/-- The link of a port takes a flit: it has not failed, and one of the four buffers of the flit's class behind it is free;
a longer burst follows as they empty (R272, R274; log entry 226). -/
def linkTakes (s : State) (p : Nat) (f : Flit) : Bool :=
  (match d2dQuad p with | some q => !(s.tree.failed.contains q) | none => true) && decide (bufferedFlits s p (flitCls f.op) < 4)

/-- The flits that are ready for an output port: those at its router whose way leads through it and which its link takes. -/
def readyFor (s : State) (q : List Flit) (p : Nat) : List Flit := q.filter (fun g => outputPort s g == some p && linkTakes s p g)

/-- A flit leaves its router's queue where it is its output port's choice and the port's link is free; a flit that the root
ends leaves at once. -/
def treeTake (s : State) (f : Flit) : Option State :=
  let gone := fun (s : State) => { s with tree := { s.tree with net := List.delFirst (· == f) s.tree.net } }
  match outputPort s f with
  | none => some (gone s)
  | some p =>
    let q := if s.tree.net.contains f then s.tree.net else s.tree.net ++ [f]
    if portFree s p = false then none
    else
      match portChoice s p (readyFor s q p) with
      | (some g, s) => if g = f then some (portSends (gone s) p f) else none
      | (none, _) => none

/-- The check of a link that a flit crosses: replays and their failure belong to the die-to-die links (R274). -/
def checkAt (p : Option Nat) : LinkCheck → LinkCheck
  | .replayed q n => if p.bind d2dQuad = some q then .replayed q n else .good
  | .failed q => if p.bind d2dQuad = some q then .failed q else .good
  | c => c

/-- What the link checks of R274 do; the flit goes on where there is one. -/
def checkLink (s : State) (f : Flit) : LinkCheck → Option Flit × State
  | .good => (some f, s)
  | .replayed _ n =>
    let s := (List.range (min n 8)).foldl (fun s _ => faultAt s 0x04 0 0 f.stamp 0 (BitVec.ofNat 64 f.teid) f.zone) s
    (some f, { s with tree := { s.tree with crc := satAdd 32 s.tree.crc (min n 8) } })
  | .failed q =>
    let s := { s with tree := { s.tree with failed := q :: s.tree.failed } }
    let s := (List.range 8).foldl (fun s _ => faultAt s 0x04 0 0 f.stamp 0 (BitVec.ofNat 64 f.teid) f.zone) s
    (none, fault s { mkReport 0x04 4 0 f.stamp 0 (BitVec.ofNat 64 f.teid) f.zone with quad := some q })
  | .payload =>
    let s := { s with tree := { s.tree with parity := satAdd 16 s.tree.parity 1 } }
    (some { f with poison := true }, faultAt s 0x04 2 0 f.stamp 0 (BitVec.ofNat 64 f.teid) f.zone)
  | .header q =>
    let s := { s with tree := { s.tree with parity := satAdd 16 s.tree.parity 1 } }
    (none, fault s { mkReport 0x04 (if q.isSome then 4 else 5) 0 f.stamp 0 (BitVec.ofNat 64 f.teid) f.zone with quad := q })

end Sys2Proof.Machine
end

