-- ==== Sys2Proof/Machine/Fabric.lean ====
section
/-! DEFINITION. The rows of the Hezhaul fabric (R292 to R332), but for the mailbox transport. -/

namespace Sys2Proof.Machine

/-! ## Training and discovery (R294, R302, R310 to R313) -/

/-- A change of width is a class C2 fault of the port, but not a port's coming up at x4; a port that cannot run at x2 is
DOWN (R294). -/
def setWidth (s : State) (p width : Nat) : State :=
  if 3 ≤ width then portDown (updPort s p (fun x => { x with width := 3 })) p 4
  else
    let old := (getPort s p).width
    let s := updPort s p (fun x => { x with width := width })
    if old = width ∨ (old = 3 ∧ width = 0) then s else widthFault s p

/-- PHY training is done: the port sends init frames (R302, R310). -/
def execPortTrained (p width : Nat) (s : State) : Out :=
  .next (if 12 ≤ p ∨ (getPort s p).state ≠ 1 then s
    else setWidth (updPort s p (fun x => { x with inited := false })) p width)

/-- A port not trained within 2^31 mt is DOWN (R310). -/
def execPortTrainingTimeout (p : Nat) (s : State) : Out :=
  .next (if 12 ≤ p ∨ (getPort s p).state ≠ 1 ∨ since s (getPort s p).since < 2 ^ 31 then s else portDown s p 4)

/-- CRC-32C of a topology record: its word as item 1 of the image holds it (R311, log entry 63). -/
def recordCrc (s : State) : Nat := crc32c (leBytes 8 (topoWord s.rlx.flash.mesh s.rlx.flash.sizes).toNat)

/-- HELLO on a port (R314). -/
def sendHello (s : State) (p : Nat) : State :=
  let f := s.rlx.flash
  let k := f.sizes.zipIdx.foldl (fun a x => a + (x.1 - 1) % 16 * 2 ^ (24 + 4 * x.2)) 0
  let w1 := f.mesh.toNat * 2 ^ 63 + s.power.straps.masterEn.toNat * 2 ^ 62 + s.power.straps.noMirror.toNat * 2 ^ 61 +
    p % 16 * 2 ^ 56 + k + s.devValid.toNat * 2 ^ 16 + (if s.devValid then s.devId % 65536 else 0)
  sendLink s p .hello 0 [s.part.serial, BitVec.ofNat 64 w1, BitVec.ofNat 64 (recordCrc s)]

/-- A frame's CRC or FEC check fails (R296, R299). -/
def frameBad (fr : Frame) : Bool := !fr.good || fr.uncorr != 0

/-- The first good init frame of a training: sequence numbers 0, 64 credits for each virtual channel; the delay measurement
and the HELLO exchange follow (R302, R310). -/
def execInitFrame (m : InitFrame) (s : State) : Out :=
  let p := m.p
  let x := getPort s p
  .next (if 12 ≤ p ∨ x.state ≠ 1 ∨ x.inited ∨ frameBad m.frame then s
    else
      let s := updPort s p (fun x => { x with
        inited := true, txSeq := 0, ackSeen := 0, rxSeq := 0, nakWait := false, buf := [], resendFrom := [], replays := []
        credits := (List.range 10).map (fun v => (v, 64)), owed := [], sending := none, deficits := [], turn := none })
      sendHello (sendDelay s p) p)

/-- The device ID that a neighbour's ID gives this module (R305, R312). -/
def impliedId (s : State) (p e nbrPort : Nat) : Nat :=
  let f := s.rlx.flash
  if f.mesh then (e + nbrPort + 1) % max 1 (f.sizes.getD 0 1)
  else
    let d := p / 2
    let k := f.sizes.getD d 1
    let c := coordsOf f.sizes e
    let y := if p % 2 = 1 then (c.getD d 0 + 1) % k else (c.getD d 0 + k - 1) % k
    idOf f.sizes (c.set d y)

/-- This module takes its coordinate and device ID, and its ports tell their neighbours (R312). -/
def takeId (s : State) (id : Nat) : State :=
  let f := s.rlx.flash
  let s := { s with
    devId := id, devValid := true
    fab := { s.fab with
      mesh := f.mesh, sizes := f.sizes, coordKnown := true
      coords := if f.mesh then [id] else coordsOf f.sizes id } }
  let s := ports.foldl (fun s p => updPort s p (fun x => { x with dateline := isDateline f.mesh f.sizes id p })) s
  (upPorts s).foldl sendHello s

/-- ORIGIN on a port: the best serial known (R312). -/
def sendOrigin (s : State) (p : Nat) : State :=
  sendLink s p .origin 0 [s.fab.bestSerial, Word.flag s.fab.bestMaster 0]

/-- A HELLO agrees with this module's record, and the ports pair (R292, R305, R311). -/
def helloOk (s : State) (p : Nat) (m : HelloMsg) : Bool :=
  let f := s.rlx.flash
  m.kind == f.mesh && m.sizes == f.sizes && m.recordCrc == recordCrc s &&
    (if f.mesh then
      (match m.devId with
       | some e => !s.devValid || linkEnd true f.sizes s.devId p == some (e, m.port)
       | none => true)
     else m.port == (if p % 2 = 0 then p + 1 else p - 1)) &&
    (match m.devId with | some e => !s.devValid || impliedId s p e m.port == s.devId | none => true)

/-- HELLO: a port that passes is UP, one that fails is FENCED with class C2; a neighbour's coordinate gives this
module's (R311, R312). -/
def execHello (p : Nat) (m : HelloMsg) (s : State) : Out :=
  let x := getPort s p
  .next (if 12 ≤ p ∨ ¬ ((x.state = 1 ∧ x.inited) ∨ x.state = 2) then s
    else
      let s := updPort s p (fun x => { x with
        nbrId := m.devId, nbrPort := some m.port, nbrNoMirror := m.noMirror })
      if helloOk s p m = false then portDown s p 5
      else
        let s := if x.state = 1 then
            sendOrigin (portStamp (updPort s p (fun x => { x with state := 2, since := now s, hbAt := now s })) p).2 p
          else s
        match m.devId with
        | some e => if s.devValid then s else takeId s (impliedId s p e m.port)
        | none => s)

/-- A serial is better: MASTER_EN high first, then the lowest (R312). -/
def betterOrigin (s : State) (serial : Word) (masterEn : Bool) : Bool :=
  (masterEn && !s.fab.bestMaster) || (masterEn == s.fab.bestMaster && decide (serial.toNat < s.fab.bestSerial.toNat))

/-- ORIGIN: a better serial is taken and flooded on (R312). -/
def execOrigin (p : Nat) (serial : Word) (masterEn : Bool) (s : State) : Out :=
  .next (if betterOrigin s serial masterEn = false then s
    else
      let s := { s with fab := { s.fab with bestSerial := serial, bestMaster := masterEn, bestAt := now s } }
      (upPorts s).foldl (fun s q => if q = p then s else sendOrigin s q) s)

/-- No change for 2^26 mt and every port settled: the module whose serial is the best is the origin and takes coordinate
0 (R310, R312). -/
def execOriginQuiet (s : State) : Out :=
  let settled := ports.all (fun p => (getPort s p).state != 1 && (getPort s p).state != 3)
  .next (if s.devValid ∨ since s s.fab.bestAt < 2 ^ 26 ∨ settled = false ∨ s.power.step < 4 ∨
      s.fab.bestSerial ≠ s.part.serial then s
    else takeId { s with fab := { s.fab with isOrigin := true } } 0)

/-! ## Frames (R299 to R303) -/

/-- The sender that a frame names is the neighbour learnt at training (R299). -/
def senderOk (x : Port) (fr : Frame) : Bool :=
  (match fr.sender, x.nbrId with | some d, some e => e == d | _, _ => true) &&
    (match x.nbrPort with | some r => r == fr.port | none => true)

/-- The receiver waits for the frame after the last good one: a NAK at once (R299). -/
def startNak (s : State) (p : Nat) : State :=
  updPort s p (fun x => if x.nakWait then x else { x with nakWait := true, nakAt := now s })

/-- Credit returns of a frame (R302). -/
def takeCredits (x : Port) (l : List (Nat × Nat)) : Port :=
  { x with credits := l.foldl (fun t e => if e.1 < 10 ∧ e.2 < 64 then Table.upd zeroOf t e.1 (· + e.2) else t) x.credits }

/-- The packets of an accepted frame go to the root; their buffers are free again, and their keys enter the receive
history of 256 frames (R301, R302, R317). -/
def acceptFrame (s : State) (p : Nat) (fr : Frame) : State :=
  let s := updPort s p (fun x => { x with
    rxSeq := fr.seq, nakWait := false
    owed := fr.flits.foldl (fun t f => Table.upd zeroOf t (vcOf f) (· + (f.more + 1))) x.owed
    history := (x.history ++ [fr.flits.map (fun f => (f.stamp, f.op, f.more))]).drop (x.history.length - 255) })
  let ins := (fr.flits.filter (fun f => !(linkScope f.op))).map (fun f => { f with inPort := some p, hop := none })
  { s with tree := { s.tree with net := s.tree.net ++ ins } }

/-- A port sends and receives frames: it is UP, or in training after its first init frame (R302, R310). -/
def portRuns (x : Port) : Bool := x.state == 2 || (x.state == 1 && x.inited)

/-- A frame arrives on a port and is checked: one that fails its CRC or FEC check is discarded, one from a wrong sender
fences the port; the others go on (R296, R299). -/
def checkFrame (s : State) (p : Nat) (fr : Frame) (f : State → State) : State :=
  let x := getPort s p
  if 12 ≤ p ∨ portRuns x = false then s
  else
    let s := updPort s p (fun x => { x with
      corr := satAdd 32 x.corr fr.corr, uncorr := satAdd 32 x.uncorr fr.uncorr })
    if frameBad fr then startNak (updPort s p (fun x => { x with crc := satAdd 16 x.crc 1 })) p
    else if senderOk x fr = false then portDown s p 5
    else f s

/-- What a frame that is not discarded carries in its header: its credit returns and its ack (R297, R300, R302). -/
def takeHeader (s : State) (p : Nat) (fr : Frame) : State :=
  ackFrames (updPort s p (fun x => takeCredits x fr.credits)) p fr.ack

/-- A data or idle frame arrives on a port (R296, R299, R300, R302). -/
def execFrameReceive (p : Nat) (fr : Frame) (s : State) : Out :=
  let x := getPort s p
  .next (checkFrame s p fr (fun s =>
    if fr.idle then takeHeader s p fr
    else if fr.seq = (x.rxSeq + 1) % 4096 then acceptFrame (takeHeader s p fr) p fr
    else if (x.rxSeq + 4096 - fr.seq) % 4096 < 2048 then s
    else startNak (updPort s p (fun x => { x with crc := satAdd 16 x.crc 1 })) p))

/-- NAK: replay from ack + 1 (R300). -/
def execNakFrame (p : Nat) (fr : Frame) (s : State) : Out :=
  .next (checkFrame s p fr (fun s => replayPort (takeHeader s p fr) p))

/-- A waiting receiver sends its NAK again every 2^14 mt (R299). -/
def execNakRepeat (p : Nat) (s : State) : Out :=
  let x := getPort s p
  .next (if x.nakWait ∧ 2 ^ 14 ≤ since s x.nakAt then updPort s p (fun x => { x with nakAt := now s }) else s)

/-- The ack has not advanced for 2^15 mt while frames are unacknowledged (R300). -/
def execAckStall (p : Nat) (s : State) : Out :=
  let x := getPort s p
  .next (if portRuns x ∧ unacked x ≠ [] ∧ 2 ^ 15 ≤ since s x.ackAt then replayPort s p else s)

/-- The next frame leaves (R303); an isolated module sends nothing (R320). -/
def execFrameTransmit (p : Nat) (s : State) : Out :=
  let x := getPort s p
  .next (if 12 ≤ p ∨ s.fab.isolated ∨ s.flt.checkstop ∨ ¬ (x.state = 2 ∨ (x.state = 1 ∧ x.inited)) then s else transmit s p)

/-! ## Loss of a link (R295, R300, R315, R317) -/

/-- The signal is lost: RECOVERING (R300, R315). -/
def execPortSignalLost (p : Nat) (s : State) : Out :=
  .next (if 12 ≤ p ∨ (getPort s p).state ≠ 2 then s else startRecovery s p)

/-- A recovery within 2^24 mt: UP again, class C1, with a replay, class C0 as any (R300). -/
def execRecoveryDone (p width : Nat) (s : State) : Out :=
  let x := getPort s p
  .next (if 12 ≤ p ∨ x.state ≠ 3 ∨ 2 ^ 24 ≤ since s x.since then s
    else
      let s := updPort s p (fun x => { x with state := 2, replays := [] })
      let (st, s) := portStamp s p
      setWidth (replayPort (portFault s p 1 st) p) p width)

/-- A recovery not done within 2^24 mt makes the port DOWN (R300, R315). -/
def execRecoveryTimeout (p : Nat) (s : State) : Out :=
  .next (if 12 ≤ p ∨ (getPort s p).state ≠ 3 ∨ since s (getPort s p).since < 2 ^ 24 then s else portDown s p 4)

/-- No HEARTBEAT for 2^24 mt makes the port DOWN (R315). -/
def execPortHeartbeatLoss (p : Nat) (s : State) : Out :=
  .next (if 12 ≤ p ∨ (getPort s p).state ≠ 2 ∨ since s (getPort s p).hbAt < 2 ^ 24 then s else portDown s p 4)

/-- A frozen history is dropped after 2^26 mt (R317). -/
def execReceiveHistoryExpiry (p : Nat) (s : State) : Out :=
  .next (updPort s p (fun x => { x with frozen := x.frozen.filter (fun h => decide (since s h.2 < 2 ^ 26)) }))

/-- A lane has retrained: back to the width before, the frames in flight are replayed, and the command that ordered it is
done (R295, R502). -/
def execLaneRetrainDone (p : Nat) (s : State) : Out :=
  let x := getPort s p
  .next (if x.rtLane.isNone then s
    else
      let s := updPort s p (fun x => { x with rtLane := none, width := x.rtWidth })
      let s := replayPort (if x.width = x.rtWidth then s else widthFault s p) p
      (inProgress s).foldl (fun s x =>
        if cmdCode x.2.words = 0x0403 ∧ x.2.started ∧ (cmdP x.2.words 1).field 3 0 = p then setOutcome s x.1 (okRes [])
        else s) s)

/-! ## HZ_PCTL (R329) -/

/-- A write of HZ_PCTL[p]. -/
def writePctl (s : State) (p : Nat) (v : Word) : State :=
  let x := getPort s p
  let r := if v.field 1 0 < 2 then v.field 1 0 else 0
  let s := updPort s p (fun x => { x with en := v.bit 3, reach := r })
  if v.bit 3 then (if x.state = 4 ∨ x.state = 0 then trainPort s p else s)
  else if x.state = 0 ∨ x.state = 6 then s
  else portDown s p 4

def execHzPctlEnClear (_q : IoReq) (p : Nat) (v : Word) (s : State) : Out :=
  .next (mainReg s (if 12 ≤ p then s else writePctl s p v))
def execHzPctlEnSet (_q : IoReq) (p : Nat) (v : Word) (s : State) : Out :=
  .next (mainReg s (if 12 ≤ p then s else writePctl s p v))
def execHzPctlReach (_q : IoReq) (p : Nat) (v : Word) (s : State) : Out :=
  .next (mainReg s (if 12 ≤ p then s else writePctl s p v))

/-! ## Loss of a module (R318 to R322) -/

/-- LINKDOWN reaches the master (R318). -/
def execLinkdown (reporter port neighbour : Nat) (mer : Nat) (s : State) : Out :=
  .next (if isMaster s then takeLinkdown s reporter port neighbour mer else s)

/-- lost_wait, in units of 2^20 mt; 0 is taken as 1 (R326). -/
def lostWaitTime (s : State) : Nat := max 1 s.fab.lostWait * 2 ^ 20

/-- lost_wait has passed since the last report about a device that is cut off, with nothing heard of it: the master
declares it lost, unless it has no majority itself (R318, R319). -/
def execLostWaitExpiry (dev : Nat) (s : State) : Out :=
  .next (match lastReport s dev with
    | none => s
    | some t =>
      let quiet := match s.fab.heard.find? (fun h => h.1 == dev) with
        | some h => decide ((h.2 + 2 ^ 64 - t) % 2 ^ 64 = 0 ∨ 2 ^ 63 ≤ (h.2 + 2 ^ 64 - t) % 2 ^ 64)
        | none => true
      if isMaster s = false ∨ dev = s.devId ∨ lostDev s dev ∨ ¬ s.vin.inventory.contains dev ∨ cutOff s dev = false ∨
          quiet = false ∨ since s t < lostWaitTime s then s
      else if heardMajority s = false then faultAt s 0x10 2 0 0 0 4 0
      else relinkChange (declareLost s dev))

/-- LOST arrives: forwarded once, acted on, acknowledged (R314, R320). -/
def execLost (port dev mer : Nat) (stamp : Word) (s : State) : Out :=
  .next (if seenStamp s stamp then ackMaster s
    else
      let s := flood (noteStamp s stamp) (some port) .lost stamp [BitVec.ofNat 64 dev, BitVec.ofNat 64 mer]
      ackMaster (takeLost s dev))

/-- JOIN arrives (R314, R320). -/
def execJoin (port dev : Nat) (stamp : Word) (s : State) : Out :=
  .next (if seenStamp s stamp then ackMaster s
    else ackMaster (takeJoin (flood (noteStamp s stamp) (some port) .join stamp [BitVec.ofNat 64 dev]) dev))

/-- A topology that gives this module a link. -/
def hasLinks (s : State) : Bool := ports.any (fun p => (linkEnd s.fab.mesh s.fab.sizes s.devId p).isSome)

/-- No port UP for 2^26 mt after discovery: class C5 (R320; log entry 64 for a single module). -/
def execNoPortUp (s : State) : Out :=
  .next (if s.fab.discovered = false ∨ upPorts s ≠ [] ∨ hasLinks s = false ∨ since s s.fab.lastUp < 2 ^ 26 then s
    else isolateModule s)

/-- SWEEP arrives: forwarded once; the homes send again (R314, R321). -/
def execSweep (port mer : Nat) (stamp : Word) (s : State) : Out :=
  .next (if seenStamp s stamp then s
    else runSweep (flood (noteStamp s stamp) (some port) .sweep stamp [BitVec.ofNat 64 mer]) mer)

/-- At S + 2^22 mt the agents send again, and the sweep is recorded (R321, R322, R535). -/
def execSweepAgentResend (s : State) : Out :=
  .next (match s.fab.sweepAt with
    | none => s
    | some (sm, a, b) =>
      if since s sm < 2 ^ 22 then s
      else
        let (c, s) := agentSweep s sm
        let s := { s with fab := { s.fab with sweepAt := none } }
        let (st, s) := issueStamp s 0x60
        logAdd s 0x0031 st [BitVec.ofNat 64 sm, BitVec.ofNat 64 (a % 65536 + b % 65536 * 2 ^ 16 + c % 65536 * 2 ^ 32), 0, 0])

end Sys2Proof.Machine
end

