-- ==== Sys2Proof/Machine/RegOps.lean ====
section
/-! DEFINITION. What register writes do beyond storing a field: the near cache's control, debug enables, claims and
gates of the bonded world, zone windows, the fault collector's acknowledgements, the register mailboxes and the rings'
registers (R7, R198, R448, R473, R474, R478, R484 to R487, R525, R528, R583 to R585). -/

namespace Sys2Proof.Machine

/-! ## The near cache, zone windows, device accesses (R189, R198, R199, R448, R585) -/

/-- Near-cache counts as NEAR_STAT shows them: dirty and valid entries, confirmed streams (R199). -/
def nearCounts (nr : Near) : Nat × Nat × Nat :=
  let v := nr.entries.filter (fun e => e.2.valid)
  ((v.filter (fun e => e.2.dirty)).length, v.length, (nr.streams.filter (fun e => e.conf == 3)).length)

/-- The I/O offset of a core's debug and performance window (R17). -/
def coreWindow (n : Nat) : Nat := 0x01000000 + n * 0x10000

/-- The field enable of NEAR_CTL. -/
def setNearEnable (s : State) (q : IoReq) (n : Nat) (on : Bool) : State :=
  let c := getCore s n
  if on then
    updCore s n (fun c =>
      if c.near.cleaning then { c with near := { c.near with enablePending := true } }
      else if c.near.enabled then c
      else { c with near := { c.near with enabled := true, entries := [], plru := 0 } })
  else if c.near.enabled = false then s
  else if c.regs.w ∧ q.world = false then gateIgnored s q (coreWindow n)
  else updCore s n (fun c => { c with near := { c.near with enabled := false, cleaning := true } })

/-- A write of NEAR_CTL: pf, a write of 3 storing 0, and enable (R198). -/
def writeNearCtl (s : State) (q : IoReq) (n : Nat) (v : Word) : State :=
  let pf := v.field 2 1
  let s := updCore s n (fun c => { c with near := { c.near with pf := if pf = 3 then 0 else pf } })
  setNearEnable s q n (v.bit 0)

def offZw (zone : Nat) : Nat := 0x280000 + zone * 0x80

/-- ZW_SEND (R448): a kind-7 entry under a stamp of this zone controller; discarded for another zone than the window's or
0, and for a vcid above nvc. -/
def sendZw (s : State) (q : IoReq) (zone : Nat) (v : Word) : State :=
  if q.zone ≠ zone ∧ q.zone ≠ 0 then discard s q (offZw zone)
  else
    let (e, s) := zoneEntry rep s zone
    match e with
    | some ws =>
      if entryNvc ws < v.field 11 0 then discard s q (offZw zone)
      else
        let (st, s) := issueStamp s 0x62
        postEntry rep s ⟨zone, v.field 11 0, 7, v.field 42 32, st, BitVec.ofNat 64 (q.vcid % 4096 + q.zone % 4096 * 2 ^ 12)⟩
    | none =>
      let (st, s) := issueStamp s 0x62
      postEntry rep s ⟨zone, v.field 11 0, 7, v.field 42 32, st, BitVec.ofNat 64 (q.vcid % 4096 + q.zone % 4096 * 2 ^ 12)⟩

/-- All ones of a size in bytes. -/
def allOnes (size : Nat) : Nat := 2 ^ (8 * size) - 1

/-- The record of a strict-device access that took no effect (R585): class C0 for a refusal, C2 for poisoned data. -/
def deviceFault (s : State) (q : IoReq) (addr : Word) (cls reason : Nat) : State :=
  fault s { mkReport 0x11 cls reason q.stamp addr (BitVec.ofNat 64 (addr.field 31 0)) q.zone with bonded := q.world }

/-! ## Debug enables and claims (R3, R473, R474, R477, R478) -/

/-- DBG_EN as read. -/
def dbgWord (c : Core) : Word :=
  BitVec.ofNat 64 (c.dbgBi.toNat * 8 + c.dbgBn.toNat * 4 + c.dbgOi.toNat * 2 + c.dbgOn.toNat)

/-- A write of DBG_EN: the open enables by any world; the bonded ones by the bonded world, and never on a -B part. Every
open-world write is recorded (R7, R583; log entry 66). -/
def writeDbg (s : State) (q : IoReq) (n : Nat) (v : Word) : State :=
  let s := updCore s n (fun c => { c with dbgOi := v.bit 1, dbgOn := v.bit 0 })
  if q.world then
    if s.part.fuseB then s else updCore s n (fun c => { c with dbgBi := v.bit 3, dbgBn := v.bit 2 })
  else rwbIgnored s q (coreWindow n + 0x18)

/-- BND_OWN as read. -/
def ownWord (s : State) : Word :=
  let b := s.bnd
  BitVec.ofNat 64 (b.cip % 256 * 2 ^ 44 + b.cmp % 256 * 2 ^ 36 + b.mov % 65536 * 2 ^ 20 + b.quad % 16 * 2 ^ 16 +
    b.clus % 65536)

/-- A write of BND_OWN: taken from the bonded world only (R478, R583). -/
def writeOwn (s : State) (q : IoReq) (v : Word) : State :=
  if q.world = false then rwbIgnored s q 0x200030
  else { s with bnd := { s.bnd with
    cip := v.field 51 44, cmp := v.field 43 36, mov := v.field 35 20, quad := v.field 19 16, clus := v.field 15 0 } }

/-! ## The fault collector (R525, R528) -/

/-- A record wherever it is kept. -/
def updRec (s : State) (stamp : Word) (f : FRec → FRec) : State :=
  let g := fun (x : FRec) => if x.stamp = stamp then f x else x
  { s with flt := { s.flt with hist := s.flt.hist.map g, unack := s.flt.unack.map g } }

/-- The unacknowledged record with a stamp. -/
def findUnack (s : State) (stamp : Word) : Option FRec := s.flt.unack.find? (fun x => x.stamp == stamp)

/-- Acknowledge a record: its timer stops (R525). -/
def ackRec (s : State) (stamp : Word) : State :=
  let s := updRec s stamp (fun x => { x with acked := true, timer := none })
  { s with flt := { s.flt with unack := s.flt.unack.filter (fun x => x.stamp != stamp) } }

/-- A write of FLT_ACK: one that names no unacknowledged record is ignored (R525). -/
def writeFltAck (s : State) (v : Word) : State := if (findUnack s v).isSome then ackRec s v else s

/-- Release ERR_L: at the end of a running minimum; never at checkstop (R528). -/
def releaseErr (s : State) : State :=
  if s.flt.checkstop then s
  else if s.flt.errMin.isSome then { s with flt := { s.flt with errRelease := true } }
  else { s with flt := { s.flt with errLow := false } }

/-- A write of FLT_CTL (R528, R540). -/
def writeFltCtl (s : State) (v : Word) : State :=
  let s := { s with flt := { s.flt with errHold := v.bit 0 } }
  if v.bit 1 then releaseErr s else s

/-! ## Register mailboxes and ring registers (R484, R485, R487) -/

/-- MBX_STAT. -/
def boxStat (b : Mailbox) : Word :=
  BitVec.ofNat 64 (b.accSeq % 65536 * 2 ^ 48 + b.cmpSeq % 65536 * 2 ^ 32 + b.ignored % 65536 * 2 ^ 16 +
    b.error.toNat * 4 + b.done.toNat * 2 + b.acc.isSome.toNat)

/-- A register of a register mailbox by its offset; `shown` is false for an open-world reader of the bonded one. -/
def boxRead (b : Mailbox) (shown : Bool) (off : Nat) : Option Word :=
  if off % 8 ≠ 0 then none
  else if off < 0x40 then some (if shown then wordAt b.cmd (off / 8) else 0)
  else if off = 0x40 then some 0
  else if off = 0x48 then some (boxStat b)
  else if 0x100 ≤ off ∧ off < 0x200 then some (if shown then wordAt b.res ((off - 0x100) / 8) else 0)
  else none

/-- A command word of a register mailbox is written (R484, R492). -/
def writeBoxCmd (s : State) (m : Mbx) (i : Nat) (v : Word) : State :=
  updBox s m (fun b => { b with cmd := (b.cmd ++ List.replicate 8 0).take 8 |>.set i v })

/-- A register of a register mailbox is written; nothing where it holds no such register. -/
def boxWrite (s : State) (m : Mbx) (zone : Nat) (off : Nat) (v : Word) : Option State :=
  if off % 8 ≠ 0 then none
  else if off < 0x40 then some (writeBoxCmd s m (off / 8) v)
  else if off = 0x40 then some (if v.bit 0 then ringBox s m (boxKind s m) zone (getBox s m).cmd else s)
  else if off = 0x48 ∨ (0x100 ≤ off ∧ off < 0x200) then some s
  else none

/-- The bonded mailbox in I/O space: its command words and doorbell are RWB (R485, R583). -/
def bondedBoxWrite (s : State) (q : IoReq) (off : Nat) (v : Word) : Option State :=
  if q.world = false ∧ off ≤ 0x40 ∧ off % 8 = 0 then some (rwbIgnored s q (0xA00000 + off))
  else boxWrite s .bonded q.zone off v

def offRingReg (z r : Nat) : Nat := 0xA10000 + z * 0x20 + r

/-- MBZ_RING as read. -/
def ringWord (r : Ring) : Word :=
  BitVec.ofNat 64 (2 ^ 9 * (r.base.toNat / 2 ^ 9) + r.en.toNat * 2 ^ 8 + r.m % 16)

/-- MBZ_STAT. -/
def ringStat (r : Ring) : Word := boxStat r.box + Word.flag r.fault 3

/-- A write of MBZ_RING: from zone 0 and with busy = 0 only; head becomes 0 and fault clears (R487). -/
def writeRing (s : State) (q : IoReq) (z : Nat) (v : Word) : State :=
  if q.zone ≠ 0 ∨ (getRing s z).box.acc.isSome then discard s q (offRingReg z 0)
  else
    let m := v.field 3 0
    updRing s z (fun r => { r with
      base := BitVec.ofNat 64 (2 ^ 9 * (v.toNat / 2 ^ 9)), en := v.bit 8, m := if 2 ≤ m ∧ m ≤ 10 then m else 2
      head := 0, fault := false })

/-- A write of MBZ_DB: from the ring's zone or zone 0 only (R487). -/
def writeRingDb (s : State) (q : IoReq) (z : Nat) (v : Word) : State :=
  if q.zone ≠ z ∧ q.zone ≠ 0 then discard s q (offRingReg z 8)
  else if v.bit 0 then ringZone s z else s

/-! ## The channel subsystem's and the movers' registers (R366, R367, R391, R392, R415) -/

/-- CHS_CTL as read. -/
def chsCtl (s : State) : Word := BitVec.ofNat 64 (s.chs.nsub % 65536 * 2 ^ 32 + s.chs.mch % 2048 * 2 ^ 10 + s.chs.en.toNat)

/-- A write of CHS_CTL: the other fields only while en = 0; en = 0 only while every subchannel is IDLE (R366; log
entry 67). -/
def writeChsCtl (s : State) (q : IoReq) (v : Word) : State :=
  let same := decide (v.field 47 32 = s.chs.nsub ∧ v.field 20 10 = s.chs.mch)
  if s.chs.en ∧ (same = false ∨ (v.bit 0 = false ∧ s.chs.ops ≠ [])) then discard s q 0x600000
  else { s with chs := { s.chs with nsub := v.field 47 32, mch := v.field 20 10, en := v.bit 0 } }

/-- CHS_SCTB and CHS_SWIN: only while en = 0 (R367). -/
def writeSctb (s : State) (q : IoReq) (v : Word) : State :=
  if s.chs.en then discard s q 0x600008
  else { s with chs := { s.chs with sctb := BitVec.ofNat 64 (2 ^ 7 * (v.toNat / 2 ^ 7)), subCache := [] } }

def writeSwin (s : State) (q : IoReq) (c : Nat) (v : Word) : State :=
  if s.chs.en then discard s q (0x600040 + 8 * c)
  else { s with chs := { s.chs with swin := Table.set zeroWord s.chs.swin c (BitVec.ofNat 64 (2 ^ 20 * (v.toNat / 2 ^ 20))) } }

/-- CHN_RING[n]: not while in service (R372, R387). -/
def writeRingBase (s : State) (q : IoReq) (n : Nat) (v : Word) : State :=
  if opChannel s n ∨ (getChn s n).en then discard s q (offRing n)
  else
    let m := v.field 4 0
    updChn s n (fun c => { c with
      base := BitVec.ofNat 64 (2 ^ 6 * (v.toNat / 2 ^ 6)), m := if 4 ≤ m ∧ m ≤ 16 then m else 4 })

/-- CHN_THR[n]: at any time; thresholds out of order store 48 and 16 (R391). -/
def writeThr (s : State) (n : Nat) (v : Word) : State :=
  let hi := v.field 15 8
  let lo := v.field 7 0
  updChn s n (fun c => if hi = 0 ∨ 64 < hi ∨ hi ≤ lo then { c with hi := 48, lo := 16 } else { c with hi := hi, lo := lo })

/-- CHN_STAT[n]: late and halted are cleared by writing 1 (R392). -/
def writeChnStat (s : State) (q : IoReq) (n : Nat) (v : Word) : State :=
  if opChannel s n then discard s q (offUser n 0x18)
  else
    let s := if v.bit 7 then updChn s n (fun c => { c with late := false }) else s
    if v.bit 6 then clearHalted s q n else s

/-! ## Memory, fabric, sextant, PCIe (R229, R265, R326, R174, R176, R575, R576) -/

/-- CEL_CTL: max_gran is staged, the others take effect (R265). -/
def writeCelCtl (s : State) (v : Word) : State :=
  let g := v.field 7 3
  { s with
    staged := { s.staged with maxGran := some (if g = 0 ∨ 24 < g then 24 else g) }
    mem := { s.mem with zeroEn := v.bit 2, celEn := v.bit 0 } }

/-- SXT_CTL: c1_limit and guard are staged (R174). -/
def writeSxtCtl (s : State) (v : Word) : State :=
  { s with
    staged := { s.staged with c1Limit := some (v.field 47 32), guard := some (v.field 7 4) }
    sxt := { s.sxt with watchEn := v.bit 0 } }

/-- The key of an inbound window's register. -/
def winKey (i r : Nat) : Nat := i * 4 + r

/-- At reset a window's size is 12 and all else 0 (R576). -/
def winReset (k : Nat) : Word := if k % 4 = 0 then 12 else 0

def getWin (s : State) (c i r : Nat) : Word := Table.get winReset (getPcie s c).win (winKey i r)

/-- The fields of a window's register that a write stores (R576). -/
def winStore (r : Nat) (v : Word) : Word :=
  match r with
  | 0 => BitVec.ofNat 64 (2 ^ 12 * (v.toNat / 2 ^ 12) + (if 12 ≤ v.field 5 0 ∧ v.field 5 0 ≤ 40 then v.field 5 0 else 12))
  | 1 => BitVec.ofNat 64 (v.field 56 12 * 2 ^ 12)
  | _ => BitVec.ofNat 64 ((v.bit 63).toNat * 2 ^ 63 + v.field 47 32 * 2 ^ 32 + v.field 31 16 * 2 ^ 16 + v.field 11 0)

def writeWin (s : State) (c i r : Nat) (v : Word) : State :=
  updPcie s c (fun p => { p with win := Table.set winReset p.win (winKey i r) (winStore r v) })

/-- A controller is in endpoint mode. -/
def endpoint (s : State) (c : Nat) : Bool := !(rootPort s c)

/-- The bifurcation of a controller: x16 in endpoint mode (R550, R574). -/
def bifOf (s : State) (c : Nat) : Nat :=
  if endpoint s c then 0 else if c = 0 then s.rlx.flash.pcieBif.1 % 4 else s.rlx.flash.pcieBif.2 % 4

/-- The ports of a controller (R573, R575). -/
def portsOf (s : State) (c : Nat) : Nat := match bifOf s c with | 1 => 2 | 2 => 4 | _ => 1

/-- Words of a port's configuration space are kept as the bits in which they differ from what the PCI Express
specification gives at reset, which this source does not hold (R575; log entry 68). -/
def cfgKey (c b o : Nat) : Nat := (c * 4 + b) * 1024 + o

def zeroDword (_ : Nat) : BitVec 32 := 0

def cfgRead (s : State) (c b o : Nat) : BitVec 32 :=
  Config.pcieReset (cfgKey c b o) ^^^ Table.get zeroDword (getPcie s c).cfgSpace (b * 1024 + o)

def cfgWrite (s : State) (c b o : Nat) (v : BitVec 32) : State :=
  if endpoint s c then s
  else
    let d := (v ^^^ cfgRead s c b o) &&& Config.pcieWritable (cfgKey c b o)
    updPcie s c (fun p => { p with
      cfgSpace := Table.upd zeroDword p.cfgSpace (b * 1024 + o) (fun x => x ^^^ d) })

end Sys2Proof.Machine
end

