-- ==== Sys2Proof/Machine/IoMap.lean ====
section
/-! DEFINITION. What every register reads as (R15 to R20 and the register ledgers of all chapters). A function of a block
answers nothing at an offset that the block does not assign (R18). -/

namespace Sys2Proof.Machine

/-- The index of an offset in an array of registers. -/
def slotAt (off base stride count : Nat) : Option Nat :=
  if base ≤ off ∧ off < base + stride * count ∧ (off - base) % stride = 0 then some ((off - base) / stride) else none

/-- Bits set in a mask where `p` holds. -/
def maskOf (n : Nat) (p : Nat → Bool) : Nat :=
  (List.range n).foldl (fun a i => if p i then a + 2 ^ i else a) 0

/-- A count cut to the largest value of its field. -/
def capTo (width n : Nat) : Nat := min n (2 ^ width - 1)

/-! ## Identity, meridian, vintage (R19, R20, R40 to R43) -/

def idnPart : Word := BitVec.ofNat 64 (0xC10C * 2 ^ 48 + 0x0009 * 2 ^ 32 + 0x10 * 2 ^ 8)

def idnLoc (s : State) : Word :=
  BitVec.ofNat 64 (s.devId % 65536 * 2 ^ 32 + s.devValid.toNat * 2 ^ 31 + s.power.straps.masterEn.toNat * 2 ^ 30 +
    s.quadOnline % 16 * 2 ^ 16 + s.spareInUse % 65536)

def readIdn (s : State) (off : Nat) : Option Word :=
  match off with
  | 0x00 => some idnPart
  | 0x08 => some (idnLoc s)
  | 0x10 => some (BitVec.ofNat 64 (now s))
  | 0x18 => some (merStat s)
  | 0x20 => some (vinStat s)
  | 0x28 => some s.vin.digest
  | 0x30 => some (vinAct s)
  | _ => none

/-! ## Fault collector (R540 to R545) -/

def fltRcv (s : State) : Word :=
  let c := fun (k : Nat) => Table.get zeroClass s.flt.rcv k % 65536
  BitVec.ofNat 64 (c 4 * 2 ^ 48 + c 3 * 2 ^ 32 + c 2 * 2 ^ 16 + c 1)

/-- The next logbook position: segment sequence number and slot (R536, R543). -/
def logPos (s : State) : Word :=
  let g := Table.get segOf s.log.segs s.log.cur
  if g.state = 1 then BitVec.ofNat 64 (g.seqNo * 2 ^ 14 + (g.entries.length + 1)) else 0

def readFlt (s : State) (q : IoReq) (off : Nat) : Option Word :=
  match off with
  | 0x100000 => some (Word.flag s.flt.errHold 0)
  | 0x100008 => some (fltStat s)
  | 0x100010 => some (fltRcv s)
  | 0x100018 => some 0
  | 0x100020 => some (logPos s)
  | _ =>
    match slotAt off 0x101000 8 256 with
    | some i => some (match s.flt.hist[i / 8]? with
      | some r => wordAt (r.words q.world) (i % 8)
      | none => 0)
    | none =>
      match slotAt off 0x102000 8 192 with
      | some i => some (reactionWord s (8 + i) &&& 0xFFFF0077)
      | none =>
        match slotAt off 0x102800 8 6 with
        | some c => some (BitVec.ofNat 64 ((reactionWord s c).field 31 0))
        | none => none

/-! ## Zone controller and bonded world (R458 to R461, R478, R479) -/

/-- The zone being reset on this module that has the lowest number. -/
def resetting (s : State) : Option (Nat × ZoneRst) :=
  match s.zon.zones.find? (fun e => e.2.rst.isSome) with
  | some e => e.2.rst.map (fun r => (e.1, r))
  | none => none

def zonStat (s : State) : Word :=
  let z := s.zon
  let held := z.zones.foldl (fun a e => a + e.2.held.length) 0
  let r := match resetting s with | some (k, r) => k % 4096 * 2 ^ 52 + r.step % 16 * 2 ^ 48 + 1 | none => 0
  BitVec.ofNat 64 (r + z.lostDb % 65536 * 2 ^ 32 + z.unposted % 65536 * 2 ^ 16 + capTo 8 held * 2 ^ 8 +
    s.vin.cfg.zonCtl.field 63 32 % 2 * 2)

def zonCnt (s : State) : Word :=
  let z := s.zon
  BitVec.ofNat 64 (z.dup % 65536 * 2 ^ 48 + z.stale % 65536 * 2 ^ 32 + z.overflow % 65536 * 2 ^ 16 + z.disabled % 65536)

/-- ZW_STAT of a zone. -/
def zwStat (s : State) (z : Nat) : Word :=
  let x := getZone s z
  let run := (s.zon.vcores.filter (fun e => e.1 / 4096 == z && e.2.state == 2)).length
  BitVec.ofNat 64 (x.state % 4 * 2 ^ 62 + run % 4096 * 2 ^ 32 + x.resets % 2 ^ 32)

def bndWdg (s : State) : Word :=
  let b := s.bnd
  BitVec.ofNat 64 (b.wdgCore % 512 * 2 ^ 32 + b.wdgE % 256 * 2 ^ 8 + b.wdgLock.toNat * 2 + b.wdgArmed.toNat)

def readZon (s : State) (off : Nat) : Option Word :=
  match off with
  | 0x200000 => some (BitVec.ofNat 64 (2 ^ 20 * (s.vin.cfg.zonTb.toNat / 2 ^ 20)))
  | 0x200008 => some (BitVec.ofNat 64 (s.vin.cfg.zonCtl.field 63 32 * 2 ^ 32))
  | 0x200010 => some (zonStat s)
  | 0x200018 => some (zonCnt s)
  | 0x200020 => some s.zon.rstStamp
  | 0x200028 => some (BitVec.ofNat 64 s.zon.rstTime)
  | 0x200030 => some (ownWord s)
  | 0x200038 => some (bndWdg s)
  | 0x200040 => some (BitVec.ofNat 64 s.bnd.wdgExp)
  | _ =>
    match slotAt off 0x280000 0x80 4096 with
    | some _ => some 0
    | none =>
      match slotAt off 0x280008 0x80 4096 with
      | some z => some (zwStat s z)
      | none => none

/-! ## Tree network (R288 to R291) -/

/-- The port number of R269 whose slot table holds an offset. -/
def slotPort (off : Nat) : Option (Nat × Nat) :=
  match slotAt off 0x310000 8 (52 * 256) with
  | some i => if i / 256 < 20 ∨ 32 ≤ i / 256 then some (i / 256, i % 256) else none
  | none => none

def readTrn (s : State) (off : Nat) : Option Word :=
  match off with
  | 0x300000 => some (BitVec.ofNat 64 (capTo 32 (oldFlits s) * 2 ^ 32 + s.tree.old.toNat * 2 + (activePar s).toNat))
  | 0x300008 => some (BitVec.ofNat 64 (s.tree.crc % 2 ^ 32 * 2 ^ 32 + s.tree.parity % 65536 * 2 ^ 16 + s.tree.stale % 65536))
  | _ =>
    match slotAt off 0x300100 8 20 with
    | some d =>
      let x := getDom s d
      some (BitVec.ofNat 64 (x.held.length % 256 * 2 ^ 24 + x.nacks % 65536 * 2 ^ 8 + x.state % 8))
    | none =>
      match slotPort off with
      | some (p, i) => some (BitVec.ofNat 64 (slotEntry s.vin.cfg p i % 65536) &&& 0xEFFF)
      | none =>
        match slotAt off 0x340000 8 8192 with
        | some j => some (BitVec.ofNat 64 ((List.range 8).foldl (fun a m =>
            a + Table.get zeroOf (rtTable s (activePar s)) (8 * j + m) % 256 * 2 ^ (8 * m)) 0))
        | none => none

/-! ## Hezhaul ports (R325 to R332) -/

def hzCfg (s : State) : Word :=
  let c := s.fab.coords.zipIdx.foldl (fun a x => a + x.1 % 16 * 2 ^ (12 + 4 * x.2)) 0
  topoWord s.fab.mesh s.fab.sizes + BitVec.ofNat 64 c

def hzStat (s : State) : Word :=
  let f := s.fab
  let st := fun (k : Nat) => maskOf 12 (fun p => (getPort s p).state == k)
  BitVec.ofNat 64 (f.partner.getD 0xFFFF * 2 ^ 48 + st 2 * 2 ^ 36 + st 4 * 2 ^ 24 + st 5 * 2 ^ 12 +
    f.partner.isSome.toNat * 2 ^ 5 + f.unmirrored.toNat * 2 ^ 4 + f.isolated.toNat * 2 ^ 3 + f.sweepAt.isSome.toNat * 4 +
    f.isOrigin.toNat * 2 + f.discovered.toNat)

def hzPctl (x : Port) : Word := BitVec.ofNat 64 (x.en.toNat * 8 + x.reach % 4)

def hzPst (x : Port) : Word :=
  BitVec.ofNat 64 (x.nbrId.getD 0xFFFF * 2 ^ 48 + x.nbrPort.getD 0xF * 2 ^ 44 + x.dateline.toNat * 2 ^ 40 +
    x.width % 4 * 2 ^ 34 + x.rtLane.getD 0xFF * 2 ^ 24 + x.state % 16)

def hzPcnt (x : Port) : Word :=
  BitVec.ofNat 64 (x.crc % 65536 * 2 ^ 48 + x.replay % 65536 * 2 ^ 32 + x.recover % 65536 * 2 ^ 16 + x.orphans % 65536)

def hzPfec (x : Port) : Word := BitVec.ofNat 64 (x.corr % 2 ^ 32 * 2 ^ 32 + x.uncorr % 2 ^ 32)
def hzPdly (x : Port) : Word := BitVec.ofNat 64 (x.delay % 2 ^ 32)

/-- HZ_LOST[j]. -/
def hzLost (s : State) (j : Nat) : Word :=
  BitVec.ofNat 64 (maskOf 64 (fun m => Table.get noFlag s.fab.lostMap (64 * j + m)))

def readHz (s : State) (off : Nat) : Option Word :=
  match off with
  | 0x400000 => some (hzCfg s)
  | 0x400008 => some (BitVec.ofNat 64 (s.fab.lostWait % 65536 * 2 ^ 32))
  | 0x400010 => some (hzStat s)
  | 0x400018 => some (BitVec.ofNat 64
      (s.fab.discards % 2 ^ 32 * 2 ^ 32 + s.fab.orphFwd % 65536 * 2 ^ 16 + s.fab.orphDup % 65536))
  | _ =>
    match slotAt off 0x408000 8 1024 with
    | some j => some (hzLost s j)
    | none =>
      match slotAt off 0x401000 8 (12 * 8) with
      | some i =>
        let x := getPort s (i / 8)
        match i % 8 with
        | 0 => some (hzPctl x)
        | 1 => some (hzPst x)
        | 2 => some (hzPcnt x)
        | 3 => some (hzPfec x)
        | 4 => some (hzPdly x)
        | _ => none
      | none => none

/-! ## Memory, cellar, home agent (R229 to R232, R261 to R266) -/

def memChon (s : State) : Word := BitVec.ofNat 64 (maskOf 64 (fun c => (getChan s c).online))

def chanWord (s : State) (c : Nat) : Word :=
  let x := getChan s c
  BitVec.ofNat 64 (x.rd % 256 * 2 ^ 56 + x.wr % 256 * 2 ^ 48 + x.interval % 256 * 2 ^ 40 + x.state % 16 * 16)

def memScrub (s : State) : Word :=
  let m := s.mem
  let pos := (List.range 64).foldl (fun a c => min a (getChan s c).scrubPos) (getChan s 0).scrubPos
  BitVec.ofNat 64 (m.scrubPasses % 2 ^ 32 * 2 ^ 32 + pos % 2 ^ 28 * 16 + m.scrubHeld.toNat * 2 + m.scrubRunning.toNat)

def celPool (s : State) : Word :=
  let m := s.mem
  let held := m.decants.foldl (fun a d => a + d.held.length) 0
  let queued := (m.decants.filter (fun d => d.phase < 2)).length
  BitVec.ofNat 64 (totalGran m % 2 ^ 32 * 2 ^ 32 + held % 65536 * 2 ^ 16 + capTo 8 queued * 2 ^ 8 + m.pool.length % 256)

def celStat (s : State) : Word :=
  let n := (s.mem.pages.filter (fun p => p.2.st == 1)).length
  BitVec.ofNat 64 (n % 2 ^ 32 * 2 ^ 32 + (totalGran s.mem - s.mem.usedGran.length) % 2 ^ 32)

def haStat (s : State) : Word :=
  let h := s.home
  BitVec.ofNat 64 (capTo 28 h.dir.length * 2 ^ 36 + h.credits.length % 256 * 2 ^ 24 + h.lost.length % 256 * 2 ^ 16 +
    (if h.lostQueue = [] then 0 else 2) + h.walking.isSome.toNat)

def readMem (s : State) (off : Nat) : Option Word :=
  let m := s.mem
  match off with
  | 0x500000 => some (BitVec.ofNat 64 ((if s.part.oneTib then 960 else 1952) * 2 ^ 48 + 0x10 * 2 ^ 8 + 0x40))
  | 0x500008 => some (BitVec.ofNat 64 (m.eccCe % 2 ^ 32 * 2 ^ 32 + m.eccUe % 65536 * 2 ^ 16 + m.eccLink % 65536))
  | 0x500010 => some (memScrub s)
  | 0x500018 => some (memChon s)
  | 0x500100 => some (BitVec.ofNat 64 (m.maxGran % 32 * 8 + m.zeroEn.toNat * 4 + m.celEn.toNat))
  | 0x500108 => some (celStat s)
  | 0x500110 => some (celPool s)
  | 0x500118 => some (BitVec.ofNat 64 (m.decantCnt % 2 ^ 32 * 2 ^ 32 + m.exhausted % 65536 * 2 ^ 16 + m.decFail % 65536))
  | 0x580000 => some (BitVec.ofNat 64 (s.home.snoopWarn % 65536 * 2 ^ 16))
  | 0x580008 => some (haStat s)
  | 0x580010 => some (BitVec.ofNat 64 (s.home.backInv % 2 ^ 32 * 2 ^ 32 + s.home.plainRetry % 2 ^ 32))
  | _ =>
    match slotAt off 0x501000 8 64 with
    | some c => some (chanWord s c)
    | none =>
      match slotAt off 0x580100 8 64 with
      | some i => some (match s.home.lost[i]? with
        | some d => BitVec.ofNat 64 (d % 65536 * 2 ^ 48 + 1)
        | none => 0)
      | none => none

/-! ## Channel subsystem (R366 to R370) -/

def cpOk (s : State) : Nat := maskOf 32 (fun n => (getCp s n).state == 0)

def chsStat (s : State) : Word :=
  let n := fun (p : ChOp → Bool) => (s.chs.ops.filter (fun o => p o.2)).length
  BitVec.ofNat 64 (n (fun o => o.state == 2 || o.state == 3) % 65536 * 2 ^ 48 +
    capTo 16 (n (fun o => o.state == 1)) * 2 ^ 32 + cpOk s)

/-- CHS_SCST of a subchannel. -/
def chsScst (s : State) (n : Nat) : Word :=
  match getOp s n with
  | none => 0
  | some o => BitVec.ofNat 64 (o.jr.stamp.field 31 0 * 2 ^ 32 + o.jr.zone % 4096 * 2 ^ 16 + o.jr.cp % 32 * 2 ^ 8 + o.state % 8)

def readChs (s : State) (off : Nat) : Option Word :=
  let c := s.chs
  match off with
  | 0x600000 => some (chsCtl s)
  | 0x600008 => some c.sctb
  | 0x600010 => some (chsStat s)
  | 0x600018 => some (BitVec.ofNat 64 (c.posted % 2 ^ 32 * 2 ^ 32 + c.dup % 65536 * 2 ^ 16 + c.stale % 65536))
  | 0x600020 => some (BitVec.ofNat 64 (c.partnerPosts % 2 ^ 32 * 2 ^ 32 + capTo 16 c.held.length * 2 ^ 16))
  | 0x600028 => some (BitVec.ofNat 64 (c.custImage % 2 ^ 32 * 2 ^ 32 + c.custCodes % 2 ^ 32))
  | 0x600040 => some (Table.get zeroWord c.swin 0)
  | 0x600048 => some (Table.get zeroWord c.swin 1)
  | _ =>
    match slotAt off 0x600100 8 32 with
    | some n =>
      let x := getCp s n
      some (BitVec.ofNat 64 (cpLoad s n % 256 * 2 ^ 56 + x.faults % 65536 * 2 ^ 32 + x.state % 4))
    | none =>
      match slotAt off 0x680000 8 65536 with
      | some n => some (chsScst s n)
      | none => none

/-! ## Data movers (R390 to R392) -/

def chnStat (c : Chn) : Word :=
  let stop := chnStopping c
  BitVec.ofNat 64 (c.beats.length % 256 * 2 ^ 56 + c.late.toNat * 128 + c.halted.toNat * 64 + c.ownWait.toNat * 32 +
    c.paused.toNat * 16 + (stop && !c.paused).toNat * 8 + c.reading.toNat * 4 + c.desc.isSome.toNat * 2 +
    (chnActive c).toNat)

def chnErra (c : Chn) : Word :=
  BitVec.ofNat 64 (c.errCode % 65536 * 2 ^ 48 + c.errDir.toNat * 2 ^ 47 + c.errDetail % 8 * 2 ^ 44 +
    c.errX % 256 * 2 ^ 36 + c.tailBad % 16 * 2 ^ 32 + c.errIndex % 2 ^ 32)

def readMov (s : State) (off : Nat) : Option Word :=
  match slotAt off 0x700100 8 32 with
  | some i =>
    let e := i / 2
    if i % 2 = 0 then some (Word.flag (s.mov.disable.testBit e) 0)
    else some (BitVec.ofNat 64 (Table.get zeroOf s.mov.beats e % 2 ^ 32 * 2 ^ 32 + carried s e % 256))
  | none =>
    match slotAt off 0x708000 8 4096 with
    | some i =>
      let c := getChn s (i / 4)
      match i % 4 with
      | 0 => some (BitVec.ofNat 64 (c.base.toNat + c.m % 32))
      | 1 => some (chnZoneWord c)
      | 2 => some (BitVec.ofNat 64 (c.hi % 256 * 256 + c.lo % 256))
      | _ => none
    | none =>
      match slotAt off 0x740000 8 32768 with
      | some i =>
        let c := getChn s (i / 32)
        match i % 32 with
        | 0 => some (Word.flag c.pause 0)
        | 1 => some (BitVec.ofNat 64 (c.tail % 2 ^ 32))
        | 2 => some (BitVec.ofNat 64 (c.head % 2 ^ 32))
        | 3 => some (chnStat c)
        | 4 => some (BitVec.ofNat 64 ((match c.desc with | some _ => c.count | none => 0) % 2 ^ 32 * 2 ^ 32 + c.confirmed % 2 ^ 32))
        | 5 => some c.errAddr
        | 6 => some (chnErra c)
        | _ => none
      | none => none

/-! ## Compression and cipher engines (R413 to R415, R430 to R434) -/

def cmpOos (s : State) : Nat := maskOf 8 (fun e => !(engInService s e))
def cipOos (s : State) : Nat := maskOf 8 (fun e => !(pipeInService s e))

def cmpStat (s : State) : Word :=
  let d := (s.cmp.queue.filter (fun j => match j with | .decant _ => true | _ => false)).length
  BitVec.ofNat 64 (maskOf 8 (fun e => (getEng s e).job != 0) * 2 ^ 56 + cmpOos s * 2 ^ 48 +
    capTo 16 s.cmp.queue.length * 2 ^ 32 + capTo 16 d * 2 ^ 16)

/-- The state of a channel's stream: empty, open, or suspended with its descriptor in progress (R402). -/
def streamState (c : Chn) : Nat :=
  match c.stream with
  | none => 0
  | some _ => if c.desc.isSome ∧ (c.paused ∨ c.eng.isNone) then 2 else 1

def readCmp (s : State) (off : Nat) : Option Word :=
  match off with
  | 0x800000 => some (BitVec.ofNat 64 (s.cmp.ioThr % 256 * 2 ^ 32 + s.cmp.ioSync.toNat * 2 ^ 9 + s.cmp.ioClear.toNat * 2 ^ 8 +
      s.cmp.engOff % 256))
  | 0x800008 => some (cmpStat s)
  | _ =>
    match slotAt off 0x800100 8 8 with
    | some e =>
      let x := getEng s e
      some (BitVec.ofNat 64 (x.vfail % 65536 * 2 ^ 48 + x.derr % 65536 * 2 ^ 32 + x.job % 16))
    | none =>
      match slotAt off 0x810000 8 4096 with
      | some i =>
        let c := getChn s (i / 4)
        match i % 4 with
        | 0 => some (BitVec.ofNat 64 (streamState c * 2 ^ 48 + c.thr % 256 * 2 ^ 8 + c.sync.toNat * 4 + c.clear.toNat * 2))
        | 1 => some (BitVec.ofNat 64 c.olim)
        | 2 => some (BitVec.ofNat 64 (c.crec.toNat + c.crecValid.toNat))
        | _ => none
      | none => none

def cipKst (s : State) : Word :=
  BitVec.ofNat 64 (s.cip.kstSlot % 4096 * 2 ^ 16 + s.cip.kstResult % 8 * 2 + s.cip.kstBusy.toNat)

def inlZero (_ : Nat) : InlPipe := ⟨0, 0, 0⟩

def readCip (s : State) (off : Nat) : Option Word :=
  match off with
  | 0x900000 => some (BitVec.ofNat 64 (s.cip.inlLimit % 256 * 2 ^ 32 + s.cip.off % 256))
  | 0x900008 => some (BitVec.ofNat 64 (maskOf 8 (fun e => (getPipe s e).job != 0) * 2 ^ 56 + cipOos s * 2 ^ 48 +
      capTo 16 s.cip.queue.length * 2 ^ 32))
  | 0x900140 => some 0
  | 0x900148 => some (cipKst s)
  | _ =>
    match slotAt off 0x900100 8 8 with
    | some _ => some 0
    | none =>
      match slotAt off 0x900200 8 8 with
      | some e =>
        let p := getPipe s e
        some (BitVec.ofNat 64 (p.faults % 65536 * 2 ^ 48 + p.channel % 1024 * 2 ^ 38 + p.job % 4))
      | none =>
        match slotAt off 0x901000 8 64 with
        | some c =>
          let p := Table.get inlZero s.cip.inls c
          some (BitVec.ofNat 64 (p.c0 % 2 ^ 32 * 2 ^ 32 + p.c2 % 65536 * 2 ^ 16 + p.watch % 65536))
        | none =>
          match slotAt off 0x908000 8 4096 with
          | some n =>
            let k := getSlot s n
            some (BitVec.ofNat 64 (k.gen % 65536 * 2 ^ 16 + k.aes256.toNat * 2 + k.loaded.toNat))
          | none =>
            match slotAt off 0x910000 8 4096 with
            | some n => some (Table.get keyMapDefault s.vin.cfg.keyMap n &&& 0xFFF0003)
            | none => none

/-! ## Mailboxes (R484 to R487) -/

def readMbx (s : State) (q : IoReq) (off : Nat) : Option Word :=
  if off < 0xA10000 then boxRead s.rlx.bonded q.world (off - 0xA00000)
  else match slotAt off 0xA10000 8 (4096 * 4) with
    | some i =>
      let r := getRing s (i / 4)
      match i % 4 with
      | 0 => some (ringWord r)
      | 1 => some 0
      | 2 => some (ringStat r)
      | _ => none
    | none => none

/-! ## Sextant (R174 to R177) -/

def sxtCore (s : State) (n : Nat) : Word :=
  let c := getCore s n
  BitVec.ofNat 64 (c.slack % 256 * 2 ^ 48 + c.sxtRetries % 65536 * 2 ^ 32 + c.sxtFor % 32 * 2 ^ 24 + c.sxtState % 16 * 2 ^ 16 +
    (BitVec.ofInt 8 c.req).toNat * 2 ^ 8 + (BitVec.ofInt 8 c.voff).toNat)

def sxtStat (s : State) : Word :=
  BitVec.ofNat 64 (s.sxt.watches % 2 ^ 32 * 2 ^ 32 + s.sxt.replans % 65536 * 2 ^ 16 + s.sxt.spareBad % 65536)

def readSxt (s : State) (off : Nat) : Option Word :=
  match off with
  | 0xB00000 => some (BitVec.ofNat 64 (s.sxt.c1Limit % 65536 * 2 ^ 32 + s.sxt.guard % 16 * 16 + s.sxt.watchEn.toNat))
  | 0xB00008 => some (sxtStat s)
  | 0xB00010 => some (BitVec.ofNat 64 s.sxt.last)
  | 0xB00018 => some (rlfStat s)
  | 0xB00020 => some (BitVec.ofNat 64 s.sxt.rlfTime)
  | _ =>
    match slotAt off 0xB01000 8 272 with
    | some n => some (sxtCore s n)
    | none => none

/-! ## PCIe controllers (R574, R576) -/

def pcieLink (s : State) (c : Nat) : Word :=
  let p := getPcie s c
  let sris := if c = 0 then s.rlx.flash.pcieSris.1 else s.rlx.flash.pcieSris.2
  BitVec.ofNat 64 (p.replay % 65536 * 2 ^ 48 + p.ecrc % 65536 * 2 ^ 32 + bifOf s c * 2 ^ 10 + (endpoint s c).toNat * 2 ^ 9 +
    sris.toNat * 2 ^ 8 + p.speed % 8 * 2 ^ 5 + p.width % 32)

/-- The window and register that an offset names. -/
def winAt (off : Nat) : Option (Nat × Nat × Nat) :=
  match slotAt off 0xC00000 8 1024 with
  | some i =>
    let r := i % 512
    if 32 ≤ r ∧ r < 32 + 256 ∧ (r - 32) % 4 < 3 then some (i / 512, (r - 32) / 4, (r - 32) % 4) else none
  | none => none

def readPcie (s : State) (off : Nat) : Option Word :=
  match off with
  | 0xC00000 => some (pcieLink s 0)
  | 0xC01000 => some (pcieLink s 1)
  | _ => match winAt off with
    | some (c, i, r) => some (getWin s c i r)
    | none => none

/-! ## Core windows (R17, R198 to R200, R477) -/

def nearStat (c : Core) : Word :=
  let n := match c.near.frozen with | some t => if c.regs.w then t else nearCounts c.near | none => nearCounts c.near
  let older := decide (c.maint ≠ []) || c.buf.any (fun e => e.maint.isSome)
  let pf := if c.near.enabled = false then 0 else if c.near.pf = 2 ∧ c.regs.psw.bit 40 then 1 else c.near.pf
  BitVec.ofNat 64 (n.1 % 256 * 2 ^ 40 + n.2.1 % 256 * 2 ^ 32 + n.2.2 % 16 * 2 ^ 8 + older.toNat * 16 +
    c.near.enabled.toNat * 8 + pf % 4 * 2 + c.near.cleaning.toNat)

def cacheErr (c : Core) : Word :=
  BitVec.ofNat 64 (c.nearCor % 65536 * 2 ^ 48 + c.nearPoison % 65536 * 2 ^ 32 + c.l2Cor % 65536 * 2 ^ 16 +
    c.l2WaysOff % 16 * 2 ^ 12 + c.l2Poison % 4096)

def readWindow (s : State) (off : Nat) : Option Word :=
  let n := (off - 0x1000000) / 0x10000
  let c := getCore s n
  if 272 ≤ n then none
  else match (off - 0x1000000) % 0x10000 with
    | 0x00 => some (BitVec.ofNat 64 (c.near.pf % 4 * 2 + (c.near.enabled || c.near.enablePending).toNat))
    | 0x08 => some (nearStat c)
    | 0x10 => some (cacheErr c)
    | 0x18 => some (dbgWord c)
    | _ => none

/-! ## The whole map (R16) -/

/-- What a 64-bit register of this module reads as; nothing at an unassigned offset. -/
def readReg (s : State) (q : IoReq) (off : Nat) : Option Word :=
  if 0x1000000 ≤ off then readWindow s off
  else match off / 0x100000 with
    | 0x0 => readIdn s off
    | 0x1 => readFlt s q off
    | 0x2 => readZon s off
    | 0x3 => readTrn s off
    | 0x4 => readHz s off
    | 0x5 => readMem s off
    | 0x6 => readChs s off
    | 0x7 => readMov s off
    | 0x8 => readCmp s off
    | 0x9 => readCip s off
    | 0xA => readMbx s q off
    | 0xB => readSxt s off
    | 0xC => readPcie s off
    | _ => none

/-- A word of a port's configuration space: controller, port and word (R575). -/
def cfgAt (s : State) (off : Nat) : Option (Nat × Nat × Nat) :=
  match slotAt off 0xC10000 4 (8 * 1024) with
  | some i => if i / 1024 % 4 < portsOf s (i / 4096) then some (i / 4096, i / 1024 % 4, i % 1024) else none
  | none => none

end Sys2Proof.Machine
end

