-- ==== Sys2Proof/Machine/Io.lean ====
section
/-! DEFINITION. Accesses to I/O space: register writes by offset, the checks of size, alignment and assignment, and accesses
to other modules (R7 to R9, R15, R18, R309, R584, R585). -/

namespace Sys2Proof.Machine

/-! ## Writes by block -/

/-- The user window of a mover channel (R372, R392). -/
def writeUser (s : State) (q : IoReq) (n r : Nat) (v : Word) : Option State :=
  match r with
  | 0 => some (writePause s q n v)
  | 1 => some (writeTail s q n v)
  | 3 => some (writeChnStat s q n v)
  | 2 | 4 | 5 | 6 => some (if opChannel s n then discard s q (offUser n (8 * r)) else s)
  | _ => none

def writeMov (s : State) (q : IoReq) (off : Nat) (v : Word) : Option State :=
  match slotAt off 0x700100 0x10 16 with
  | some e => some (writeMovCtl s q e v)
  | none =>
    match slotAt off 0x708000 8 4096 with
    | some i =>
      let n := i / 4
      match i % 4 with
      | 0 => some (writeRingBase s q n v)
      | 1 => some (writeChnZone s q n v)
      | 2 => some (writeThr s n v)
      | _ => none
    | none =>
      match slotAt off 0x740000 8 32768 with
      | some i => writeUser s q (i / 32) (i % 32) v
      | none => none

def writeCmp (s : State) (q : IoReq) (off : Nat) (v : Word) : Option State :=
  if off = 0x800000 then some (writeCmpCtl s q v)
  else
    match slotAt off 0x810000 8 4096 with
    | some i =>
      let n := i / 4
      match i % 4 with
      | 0 => some (writeChcfg s q n v)
      | 1 => some (if opChannel s n then discard s q off else updChn s n (fun c => { c with olim := v.toNat }))
      | 2 => some (if opChannel s n then discard s q off else updChn s n (fun c => { c with
          crec := BitVec.ofNat 64 (2 ^ 9 * (v.toNat / 2 ^ 9)), crecValid := v.bit 0 }))
      | _ => none
    | none => none

def writeCip (s : State) (q : IoReq) (off : Nat) (v : Word) : Option State :=
  match off with
  | 0x900000 => some (writeCipCtl s q v)
  | 0x900140 => some (writeKcmt s q v)
  | _ =>
    match slotAt off 0x900100 8 8 with
    | some i => some (if q.world then { s with cip := { s.cip with kld := Table.set zeroWord s.cip.kld i v } }
        else rwbIgnored s q off)
    | none => (slotAt off 0x910000 8 4096).map (fun _ => discard s q off)

def writeMbx (s : State) (q : IoReq) (off : Nat) (v : Word) : Option State :=
  if off < 0xA10000 then bondedBoxWrite s q (off - 0xA00000) v
  else match slotAt off 0xA10000 8 (4096 * 4) with
    | some i =>
      match i % 4 with
      | 0 => some (writeRing s q (i / 4) v)
      | 1 => some (writeRingDb s q (i / 4) v)
      | _ => none
    | none => none

def writeZon (s : State) (q : IoReq) (off : Nat) (v : Word) : Option State :=
  match off with
  | 0x200000 | 0x200008 => some (discard s q off)
  | 0x200030 => some (writeOwn s q v)
  | _ => (slotAt off 0x280000 0x80 4096).map (fun z => sendZw s q z v)

def writeTrn (s : State) (q : IoReq) (off : Nat) : Option State :=
  if (slotPort off).isSome ∨ (slotAt off 0x340000 8 8192).isSome then some (discard s q off) else none

def writeHz (s : State) (off : Nat) (v : Word) : Option State :=
  if off = 0x400008 then some { s with staged := { s.staged with lostWait := some (v.field 47 32) } }
  else (slotAt off 0x401000 0x40 12).map (fun p => writePctl s p v)

def writeMemReg (s : State) (off : Nat) (v : Word) : Option State :=
  match off with
  | 0x500100 => some (writeCelCtl s v)
  | 0x580000 => some { s with staged := { s.staged with snoopWarn := some (v.field 31 16) } }
  | _ => none

def writeChs (s : State) (q : IoReq) (off : Nat) (v : Word) : Option State :=
  match off with
  | 0x600000 => some (writeChsCtl s q v)
  | 0x600008 => some (writeSctb s q v)
  | 0x600040 => some (writeSwin s q 0 v)
  | 0x600048 => some (writeSwin s q 1 v)
  | _ => none

def writeSxt (s : State) (off : Nat) (v : Word) : Option State :=
  match off with
  | 0xB00000 => some (writeSxtCtl s v)
  | 0xB00018 => some (if v.bit 1 then { s with sxt := { s.sxt with rlfDone := false } } else s)
  | _ => none

def writeWindow (s : State) (q : IoReq) (off : Nat) (v : Word) : Option State :=
  let n := (off - 0x1000000) / 0x10000
  if 272 ≤ n then none
  else match (off - 0x1000000) % 0x10000 with
    | 0x00 => some (writeNearCtl s q n v)
    | 0x18 => some (writeDbg s q n v)
    | _ => none

/-- The effect of a write beyond read-only fields; nothing where the register has none. -/
def writeEffect (s : State) (q : IoReq) (off : Nat) (v : Word) : Option State :=
  if 0x1000000 ≤ off then writeWindow s q off v
  else match off / 0x100000 with
    | 0x0 => if off = 0x18 then some (if v.bit 7 then { s with mer := { s.mer with refLost := false } } else s) else none
    | 0x1 => match off with
      | 0x100000 => some (writeFltCtl s v)
      | 0x100018 => some (writeFltAck s v)
      | _ => none
    | 0x2 => writeZon s q off v
    | 0x3 => writeTrn s q off
    | 0x4 => writeHz s off v
    | 0x5 => writeMemReg s off v
    | 0x6 => writeChs s q off v
    | 0x7 => writeMov s q off v
    | 0x8 => writeCmp s q off v
    | 0x9 => writeCip s q off v
    | 0xA => writeMbx s q off v
    | 0xB => writeSxt s off v
    | 0xC => (winAt off).map (fun w => writeWin s w.1 w.2.1 w.2.2 v)
    | _ => none

/-- A 64-bit write of a register of this module; nothing at an unassigned offset. A register of read-only fields ignores
it (R7). -/
def writeReg (s : State) (q : IoReq) (off : Nat) (v : Word) : Option State :=
  match writeEffect s q off v with
  | some s => some s
  | none => (readReg s q off).map (fun _ => s)

/-! ## Accesses with their width (R9, R18, R575) -/

/-- A read of a register of this module at the access's width: nothing where R9 or R18 forbids it. -/
def readLocal (s : State) (q : IoReq) (off size : Nat) : Option Nat :=
  if 0xC10000 ≤ off ∧ off < 0xC18000 then
    if size = 4 then (cfgAt s off).map (fun w => (cfgRead s w.1 w.2.1 w.2.2).toNat) else none
  else if size = 8 ∧ off % 8 = 0 then (readReg s q off).map BitVec.toNat
  else none

/-- A write of a register of this module at the access's width: nothing where R9 or R18 forbids it. -/
def writeLocal (s : State) (q : IoReq) (off size v : Nat) : Option State :=
  if 0xC10000 ≤ off ∧ off < 0xC18000 then
    if size = 4 then (cfgAt s off).map (fun w => cfgWrite s w.1 w.2.1 w.2.2 (BitVec.ofNat 32 v)) else none
  else if size = 8 ∧ off % 8 = 0 then writeReg s q off (BitVec.ofNat 64 v)
  else none

/-- The device that an I/O-space address names, and the offset (R15). -/
def ioDev (addr : Word) : Nat := addr.field 47 32
def ioOff (addr : Word) : Nat := addr.field 31 0

/-- A strict-device read of I/O space: all ones and a record where it is not performed (R9, R18) or refused (R585). The map
is the same in every module, so an unassigned offset of another one is known here (R15, R18); what that module answers
is open. -/
def ioRead (s : State) (q : IoReq) (addr : Word) (size : Nat) : Nat × State :=
  if addr.field 62 48 ≠ 0 then (allOnes size, discard s q (ioOff addr))
  else if ioDev addr = s.devId then
    match readLocal s q (ioOff addr) size with
    | some v => (v, s)
    | none => (allOnes size, discard s q (ioOff addr))
  else
    match deviceGone s (ioDev addr) with
    | some r => (allOnes size, deviceFault s q addr 0 r)
    | none => if (readLocal s q (ioOff addr) size).isNone then (allOnes size, discard s q (ioOff addr)) else
      let s := send s .rdOnce (ioDev addr) 0x121 q.zone q.stamp [addr, Word.flag q.world 63]
      match Config.freeNat s.fresh with
      | 0 => ((Config.freeWord s.fresh).toNat % 2 ^ (8 * size), nextFree s)
      | k + 1 => (allOnes size, deviceFault (nextFree s) q addr 0 (k % 6 + 1))

/-- A strict-device write of I/O space. -/
def ioWrite (s : State) (q : IoReq) (addr : Word) (size : Nat) (v : Nat) : State :=
  if addr.field 62 48 ≠ 0 then discard s q (ioOff addr)
  else if ioDev addr = s.devId then (writeLocal s q (ioOff addr) size v).getD (discard s q (ioOff addr))
  else
    match deviceGone s (ioDev addr) with
    | some r => deviceFault s q addr 0 r
    | none => if (writeLocal s q (ioOff addr) size v).isNone then discard s q (ioOff addr) else
      let j := addr.toNat % 128
      let mask := (2 ^ size - 1) * 2 ^ j
      let ws := [addr - BitVec.ofNat 64 j, Word.flag q.world 63, BitVec.ofNat 64 mask, BitVec.ofNat 64 (mask / 2 ^ 64)]
      let f := mkFlit s .wrPart (ioDev addr) 0x121 q.zone q.stamp ws
      let s := sendFlit s { f with more := 1, line := some (BitVec.ofNat 1024 (v * 2 ^ (8 * j))) }
      match Config.freeNat s.fresh with
      | 0 => nextFree s
      | k + 1 => deviceFault (nextFree s) q addr 0 (k % 6 + 1)

/-- The offset of a register of the standby domain: FLT, or a host or bonded mailbox (R12, R587). -/
def standbyOff (off : Nat) : Bool := off / 0x100000 == 1 || decide (0xA00000 ≤ off ∧ off < 0xA10000)

/-- A write to a register that has no row of its own (R7); one of the main domain answers only while PWR_OK is asserted
(R12). With bit 63 of the address 0, it is the host's write over the
management bus to an offset of BAR0 (R486; log entry 69). -/
def execRegisterWrite (a : IoAccess) (v : Word) (s : State) : Out :=
  .next (if a.addr.bit 63 then
      (if s.power.pwrOk || standbyOff (ioOff a.addr) then ioWrite s a.req a.addr a.size v.toNat else s)
    else if a.size = 8 ∧ a.req.core = none ∧ s.power.standby then (boxWrite s .host 0 a.addr.toNat v).getD s
    else s)

end Sys2Proof.Machine
end

