-- ==== Sys2Proof/Machine/Dev.lean ====
section
/-! DEFINITION. Strict-device accesses of cores (R9, R18, R153, R209, R585). -/

namespace Sys2Proof.Machine

/-- A strict-device store of a core: a register of I/O space, or memory at the access's own size and natural alignment;
its acknowledgement is awaited where it goes by message (R9, R68, R209). -/
def devWrite (s : State) (q : IoReq) (addr : Word) (size : Nat) (v : Nat) : State :=
  if addr.bit 63 then ioWrite s q addr size v
  else if addr.toNat % size ≠ 0 then deviceFault s q addr 0 0
  else
    let l := lineOf (List.replicate (addr.toNat % 128) 0 ++ leBytes size v)
    match writeMask rep s (q.core.getD 272) true addr (maskAt (addr.toNat % 128) size) l q.zone q.world q.stamp with
    | (.err r, s) => deviceFault s q addr 0 r
    | (_, s) => s

end Sys2Proof.Machine
end

