-- ==== Sys2Proof/Machine/IntOps.lean ====
section
/-! DEFINITION. Results and flags of the integer units (R99 to R106, R131 to R133) and the conditions of R104. -/

namespace Sys2Proof.Machine

/-- What an integer operation gives: the result, c and v of its .f form, and whether either form sets v or dz (R101). -/
structure IntRes where
  r : Word
  c : Bool
  v : Bool
  vSet : Bool
  dzSet : Bool
  deriving DecidableEq, Repr

/-- A result whose .f form clears c and v (R100). -/
def plainRes (r : Word) : IntRes := ⟨r, false, false, false, false⟩

/-- The most negative number (R132). -/
def minWord : Word := 0x8000000000000000#64

/-- Whether an integer lies outside the signed 64-bit range. -/
def outOfRange (x : Int) : Bool := decide (x < -(2 ^ 63) ∨ 2 ^ 63 ≤ x)

/-- ADD and ADC: c is the carry out of bit 63, v signed overflow (R100). -/
def intAdd (a b : Word) (cin : Bool) : IntRes :=
  let u := a.toNat + b.toNat + cin.toNat
  ⟨BitVec.ofNat 64 u, decide (2 ^ 64 ≤ u), outOfRange (a.toInt + b.toInt + (cin.toNat : Int)), false, false⟩

/-- SUB and SBC: c is 1 when there is no borrow (R100). -/
def intSub (a b : Word) (borrow : Bool) : IntRes :=
  ⟨a - b - BitVec.ofNat 64 borrow.toNat, decide (b.toNat + borrow.toNat ≤ a.toNat),
    outOfRange (a.toInt - b.toInt - (borrow.toNat : Int)), false, false⟩

/-- NEG (R100, R132). -/
def intNeg (a : Word) : IntRes := ⟨-a, a == 0, a == minWord, a == minWord, false⟩

/-- ABS (R100, R132). -/
def intAbs (a : Word) : IntRes := ⟨if a.bit 63 then -a else a, false, a == minWord, a == minWord, false⟩

def intMin (a b : Word) : Word := if a.toInt ≤ b.toInt then a else b
def intMax (a b : Word) : Word := if a.toInt ≤ b.toInt then b else a
def intMinU (a b : Word) : Word := if a.toNat ≤ b.toNat then a else b
def intMaxU (a b : Word) : Word := if a.toNat ≤ b.toNat then b else a

/-- MUL: c when the unsigned product is 2^64 or more, v when the signed product is out of range (R103). -/
def intMul (a b : Word) : IntRes :=
  ⟨a * b, decide (2 ^ 64 ≤ a.toNat * b.toNat), outOfRange (a.toInt * b.toInt), false, false⟩

def intMulHU (a b : Word) : Word := BitVec.ofNat 64 (a.toNat * b.toNat / 2 ^ 64)
def intMulHS (a b : Word) : Word := BitVec.ofInt 64 (a.toInt * b.toInt / 2 ^ 64)

/-- DIVU (R132). -/
def intDivU (a b : Word) : IntRes :=
  if b = 0 then ⟨-1, false, false, false, true⟩ else plainRes (BitVec.ofNat 64 (a.toNat / b.toNat))

/-- REMU (R132). -/
def intRemU (a b : Word) : IntRes :=
  if b = 0 then ⟨a, false, false, false, true⟩ else plainRes (BitVec.ofNat 64 (a.toNat % b.toNat))

/-- DIVS truncates toward zero (R131, R132). -/
def intDivS (a b : Word) : IntRes :=
  if b = 0 then ⟨-1, false, false, false, true⟩
  else if a = minWord ∧ b = -1 then ⟨minWord, false, true, true, false⟩
  else plainRes (BitVec.ofInt 64 (a.toInt.tdiv b.toInt))

/-- REMS has the sign of the dividend (R131, R132). -/
def intRemS (a b : Word) : IntRes :=
  if b = 0 then ⟨a, false, false, false, true⟩
  else if a = minWord ∧ b = -1 then ⟨0, false, true, true, false⟩
  else plainRes (BitVec.ofInt 64 (a.toInt.tmod b.toInt))

/-! ## Shifts (R102, R133) -/

/-- The six kinds of shift. -/
inductive ShiftKind where
  | shl | shr | sar | sal | rol | ror
  deriving DecidableEq, Repr

/-- A shift at width `w` of an operand below 2^w by a count, as a number below 2^w. -/
def shiftNat (k : ShiftKind) (w a n : Nat) : Nat :=
  let top := decide (2 ^ (w - 1) ≤ a)
  match k with
  | .shl | .sal => if n < w then a * 2 ^ n % 2 ^ w else 0
  | .shr => if n < w then a / 2 ^ n else 0
  | .sar =>
    let m := min n w
    a / 2 ^ m + (if top then 2 ^ w - 2 ^ (w - m) else 0)
  | .rol => let m := n % w; a * 2 ^ m % 2 ^ w + a / 2 ^ (w - m)
  | .ror => let m := n % w; a / 2 ^ m + a * 2 ^ (w - m) % 2 ^ w

/-- A shift loses value under SAL: the product by 2^n, read as signed, leaves the signed range of the width (R133). -/
def salLoses (w a n : Nat) : Bool :=
  if w ≤ n then a != 0
  else
    let x : Int := if 2 ^ (w - 1) ≤ a then (a : Int) - 2 ^ w else a
    decide (x * 2 ^ n < -(2 ^ (w - 1)) ∨ 2 ^ (w - 1) ≤ x * 2 ^ n)

/-- A shift of a word; at width 32 the result is sign-extended (R102, R133). -/
def intShift (k : ShiftKind) (narrow : Bool) (a : Word) (n : Nat) : IntRes :=
  let w := if narrow then 32 else 64
  let x := a.toNat % 2 ^ w
  let y := shiftNat k w x n
  let lose := k == .sal && salLoses w x n
  ⟨if narrow then (BitVec.ofNat 32 y).signExtend 64 else BitVec.ofNat 64 y, false, lose, lose, false⟩

def shiftKindOf (n : Nat) : ShiftKind :=
  match n with | 0 => .shl | 1 => .shr | 2 => .sar | 3 => .sal | 4 => .rol | _ => .ror

/-! ## Extensions and bit counts (R105) -/

def sextBits (a : Word) (n : Nat) : Word := (a.setWidth n).signExtend 64
def zextBits (a : Word) (n : Nat) : Word := (a.setWidth n).setWidth 64

/-- Leading zeros: 64 for 0. -/
def intClz (a : Word) : Word := BitVec.ofNat 64 (if a = 0 then 64 else 63 - Nat.log2 a.toNat)

/-- Trailing zeros: 64 for 0. -/
def intCtz (a : Word) : Word :=
  BitVec.ofNat 64 (match (List.range 64).find? (fun i => a.getLsbD i) with | some i => i | none => 64)

def intPopc (a : Word) : Word := BitVec.ofNat 64 ((List.range 64).filter (fun i => a.getLsbD i)).length

/-- The 8 bytes reversed. -/
def intBswap (a : Word) : Word := BitVec.ofNat 64 (ofLeBytes (leBytes 8 a.toNat).reverse)

/-! ## Wide immediates (R99, R106) -/

/-- The field of 16 bits at position h replaced. -/
def insField (a : Word) (h : BitVec 2) (imm : BitVec 16) : Word :=
  setField a (16 * h.toNat + 15) (16 * h.toNat) imm.toNat

def ldizWord (h : BitVec 2) (imm : BitVec 16) : Word := BitVec.ofNat 64 (imm.toNat * 2 ^ (16 * h.toNat))
def ldioWord (h : BitVec 2) (imm : BitVec 16) : Word := insField (-1) h imm

/-! ## Flags -/

/-- The flags n, z, c and v of psw replaced (R54). -/
def setFlags (psw : Word) (n z c v : Bool) : Word :=
  setField psw 3 0 (8 * n.toNat + 4 * z.toNat + 2 * c.toNat + v.toNat)

/-- The status word after an integer operation: a .f form writes n, z, c and v; the edges set v or dz in either form
(R101). -/
def intFlags (psw : Word) (f : Bool) (x : IntRes) : Word :=
  let p := if f then setFlags psw (x.r.bit 63) (x.r == 0) x.c x.v
    else if x.vSet then setBit psw 0 true else psw
  if x.dzSet then setBit p 4 true else p

/-- The conditions of SEL and Bcc (R104). -/
def condHolds (cond : BitVec 4) (psw : Word) : Bool :=
  let v := psw.bit 0
  let c := psw.bit 1
  let z := psw.bit 2
  let n := psw.bit 3
  match cond.toNat with
  | 0 => z | 1 => c | 2 => n | 3 => v
  | 4 => c && !z
  | 5 => n == v
  | 6 => !z && n == v
  | 7 => true
  | 8 => !z | 9 => !c | 10 => !n | 11 => !v
  | 12 => !c || z
  | 13 => n != v
  | 14 => z || n != v
  | _ => psw.bit 4

end Sys2Proof.Machine
end

