-- ==== Sys2Proof/Machine/Syllable.lean ====
section
/-! DEFINITION. Syllables: what each writes, its operand constraints, the words that spell it, and bundle legality
(R91 to R130). -/

namespace Sys2Proof.Machine

/-! ## What a syllable writes (R95) -/

/-- The unit number of R58. -/
def unitNum : FUnit → Nat
  | .i0 => 0 | .i1 => 1 | .m0 => 2 | .m1 => 3 | .x => 4 | .f => 5

def unitInt (u : FUnit) : Bool := u == .i0 || u == .i1
def unitMem (u : FUnit) : Bool := u == .m0 || u == .m1

/-- A result in a g register; g0 is no destination (R51, R95). -/
def gDest (r : Reg) : List Dest := if r = 0 then [] else [.g r.toNat]

/-- A result in an even register and the next. -/
def pairDest (r : Reg) : List Dest := gDest r ++ [.g (r.toNat + 1)]

/-- A result of a floating-point format (R123). -/
def fmtDest (fmt : Fmt) (r : Reg) : List Dest := if fmt = .b128 then pairDest r else gDest r

/-- The base names dsp: a = 0 together with s = 14 (R109). -/
def baseIsDsp (s : BitVec 4) (a : Reg) : Bool := a == 0 && s == 14

/-- The base write-back of a short form (R64, R109). -/
def baseDest (m : MemOp) : List Dest :=
  match m.form with
  | .postInc | .preDec => if baseIsDsp m.s m.a then [.dsp] else gDest m.a
  | _ => []

def gRange (lo : Nat) : List Dest := (List.range (64 - lo)).map (fun i => .g (lo + i))
def segRange : List Dest := (List.range 16).map .seg

/-- The flags of a .f form, else those that the plain form may set (R95, R101). -/
def flagDest (f : Bool) (plain : List Dest) : List Dest := if f then [.flags] else plain

/-- The kind of SHI (R102). -/
def shiKind (imm : BitVec 10) : Nat := imm.toNat / 128

/-- The part of an FCVT result: a float for kinds 0 to 2 (R126). -/
def cvtDest (kind : BitVec 4) (df : BitVec 2) (d : Reg) : List Dest :=
  if kind.toNat ≤ 2 ∧ df = 2 then pairDest d else gDest d

/-- The destinations of a syllable (R95), with its unit; none for a command that is no syllable. -/
def sylInfo (i : Instr) : Option SylInfo :=
  let int := fun (sl : Slot) (ds : List Dest) => some (SylInfo.mk sl.unit ds false false false)
  let mem := fun (m : MemOp) (ds : List Dest) => some (SylInfo.mk m.sl.unit (ds ++ baseDest m) false false false)
  let flt := fun (sl : Slot) (ds : List Dest) => some (SylInfo.mk sl.unit (ds ++ [.fcsrSet]) false false false)
  match i with
  | .add sl f d _ _ | .adc sl f d _ _ | .sub sl f d _ _ | .sbc sl f d _ _ | .and sl f d _ _ | .or sl f d _ _
  | .xor sl f d _ _ | .andn sl f d _ _ | .min sl f d _ _ | .max sl f d _ _ | .minu sl f d _ _ | .maxu sl f d _ _
  | .mul sl f d _ _ | .mulhu sl f d _ _ | .mulhs sl f d _ _ | .addi sl f d _ _ | .subi sl f d _ _ =>
    int sl (gDest d ++ flagDest f [])
  | .neg sl f d _ | .abs sl f d _ => int sl (gDest d ++ flagDest f [.vSet])
  | .shl sl f _ d _ _ | .shr sl f _ d _ _ | .sar sl f _ d _ _ | .rol sl f _ d _ _ | .ror sl f _ d _ _ =>
    int sl (gDest d ++ flagDest f [])
  | .sal sl f _ d _ _ => int sl (gDest d ++ flagDest f [.vSet])
  | .divu sl f d _ _ | .remu sl f d _ _ => int sl (gDest d ++ [.dzSet] ++ flagDest f [])
  | .divs sl f d _ _ | .rems sl f d _ _ => int sl (gDest d ++ [.dzSet] ++ flagDest f [.vSet])
  | .sel sl _ d _ _ | .sxtb sl d _ | .sxth sl d _ | .sxtw sl d _ | .zxtb sl d _ | .zxth sl d _ | .zxtw sl d _
  | .clz sl d _ | .ctz sl d _ | .popc sl d _ | .bswap sl d _ | .andi sl d _ _ | .ori sl d _ _ | .xori sl d _ _
  | .ins sl d _ _ | .ldiz sl d _ _ | .ldio sl d _ _ => int sl (gDest d)
  | .shi sl f d _ imm => int sl (gDest d ++ flagDest f (if shiKind imm = 3 then [.vSet] else []))
  | .ldb m | .ldh m | .ldw m | .ldd m | .ldbs m | .ldhs m | .ldws m => mem m (gDest m.r)
  | .lda m => mem m [.acc (m.r.toNat % 4)]
  | .ldp m => mem m (pairDest m.r)
  | .stb m | .sth m | .stw m | .std m | .sta m | .stp m | .pf m => mem m []
  | .ldrsv sl _ r _ _ => some ⟨sl.unit, gDest r, false, false, true⟩
  | .stcnd sl _ _ _ _ => some ⟨sl.unit, [.zOnly], false, false, true⟩
  | .fenceSl sl | .fenceIo sl | .fenceFull sl | .cmaintByAddress sl _ _ _ | .cmaintByZone sl _ _
  | .cmaintGlobal sl _ => int sl []
  | .ldseg sl s _ => int sl [.seg s.toNat]
  | .b sl _ | .bcc sl _ _ | .br sl _ | .call sl _ | .callr sl _ | .ret sl | .svc sl _ | .mtpcnt sl _ | .mtpcnti sl _
  | .mtctl sl _ _ | .savectx sl | .wait sl | .brk sl _ | .bcall sl _ | .bwdr sl _ => int sl []
  | .callm sl _ _ | .callmr sl _ _ | .adjsp sl _ => int sl [.dsp]
  | .mtsp sl _ rsp => int sl (if rsp then [] else [.dsp])
  | .retm sl => int sl (gRange 1 ++ [.dsp])
  | .far sl _ _ => int sl [.seg 13]
  | .eret sl => int sl [.flags, .dzFull, .seg 13]
  | .rep sl _ => some ⟨sl.unit, [], false, true, false⟩
  | .mfpcnt sl d | .mfpsw sl d | .mffcsr sl d | .mfctl sl d _ | .mfsp sl d _ => int sl (gDest d)
  | .mtpsw sl _ => int sl [.flags, .dzFull]
  | .mtfcsr sl _ => int sl [.fcsrFull]
  | .restctx sl =>
    int sl (gRange 1 ++ [.acc 0, .acc 1, .acc 2, .acc 3, .dsp, .fcsrFull] ++ segRange)
  | .bret sl => int sl (gRange 3 ++ [.acc 1, .acc 2, .acc 3, .dsp, .fcsrFull, .flags, .dzFull] ++ segRange)
  | .fadd sl fmt d _ _ | .fsub sl fmt d _ _ | .fmul sl fmt d _ _ | .fdiv sl fmt d _ _ | .fsqrt sl fmt d _
  | .fmin sl fmt d _ _ | .fmax sl fmt d _ _ | .fma sl fmt d _ _ | .fms sl fmt d _ _ | .fnma sl fmt d _ _ =>
    flt sl (fmtDest fmt d)
  | .fcmp sl _ _ _ => flt sl [.flags]
  | .fcvt sl kind _ df d _ => flt sl (cvtDest kind df d)
  | .dadd sl d _ _ | .dsub sl d _ _ => int sl (pairDest d ++ [.flags])
  | .dcmp sl _ _ => int sl [.flags]
  | .dtoi sl d _ => int sl (gDest d ++ [.flags])
  | .itod sl d _ => int sl (pairDest d)
  | .accclr sl a | .accwr sl a _ => int sl [.acc a.toNat]
  | .accrd sl _ g => int sl (pairDest g)
  | .accrnd sl _ g => flt sl (gDest g)
  | .macm sl var a ga _ gb _ =>
    some ⟨sl.unit, [.acc a.toNat] ++ gDest ga ++ gDest gb ++ (if var = 1 then [.fcsrSet] else [.vSet]), true, false,
      false⟩
  | _ => none

/-! ## Operand constraints (R93) -/

def odd (r : Reg) : Bool := r.toNat % 2 == 1

/-- A pair of binary128 operands must be even (R123). -/
def oddFmt (fmt : Fmt) (rs : List Reg) : List Nat := if fmt = .b128 ∧ rs.any odd then [3] else []

/-- A load with write-back whose destination includes the base register (R109). -/
def baseTwice (m : MemOp) (ds : List Nat) : List Nat :=
  match m.form with
  | .postInc | .preDec => if baseIsDsp m.s m.a = false ∧ m.a.toNat ∈ ds then [4] else []
  | _ => []

/-- The scaled-index form exists for some kinds only, with k up to 4 (R110). -/
def indexBad (m : MemOp) (kindOk : Bool) : List Nat :=
  match m.form with
  | .index _ k => if kindOk ∧ k.toNat ≤ 4 then [] else [1]
  | _ => []

/-- The details of 0x10 that a syllable's operands give (R93): each rule it breaks. -/
def operandBad (i : Instr) : List Nat :=
  match i with
  | .shi _ _ _ _ imm => if shiKind imm ≤ 5 then [] else [1]
  | .ldb m | .ldh m | .ldw m | .ldd m => indexBad m true ++ baseTwice m [m.r.toNat]
  | .ldbs m | .ldhs m | .ldws m => indexBad m false ++ baseTwice m [m.r.toNat]
  | .lda m | .sta m => indexBad m false ++ (if m.r.toNat ≤ 3 then [] else [3])
  | .stb m | .sth m | .stw m | .std m => indexBad m true
  | .ldp m => indexBad m false ++ (if odd m.r then [3] else []) ++ baseTwice m [m.r.toNat, m.r.toNat + 1]
  | .stp m => indexBad m false ++ (if odd m.r then [3] else [])
  | .pf m => indexBad m false ++ (if m.r = 0 then [] else [2])
  | .cmaintByAddress _ x _ _ | .cmaintByZone _ x _ | .cmaintGlobal _ x => if x = 3 then [1] else []
  | .fadd _ fmt d a b | .fsub _ fmt d a b | .fmul _ fmt d a b | .fdiv _ fmt d a b | .fmin _ fmt d a b
  | .fmax _ fmt d a b | .fma _ fmt d a b | .fms _ fmt d a b | .fnma _ fmt d a b => oddFmt fmt [d, a, b]
  | .fsqrt _ fmt d a => oddFmt fmt [d, a]
  | .fcmp _ fmt a b => oddFmt fmt [a, b]
  | .fcvt _ kind sf df d a =>
    let k := kind.toNat
    let useS := decide (k = 0 ∨ 3 ≤ k)
    let useD := decide (k ≤ 2)
    (if 6 < k ∨ (useS ∧ sf = 3) ∨ (useD ∧ df = 3) then [1] else []) ++
    (if (useS = false ∧ sf ≠ 0) ∨ (useD = false ∧ df ≠ 0) then [2] else []) ++
    (if (useS ∧ sf = 2 ∧ odd a) ∨ (useD ∧ df = 2 ∧ odd d) then [3] else [])
  | .dadd _ d a b | .dsub _ d a b => if odd d || odd a || odd b then [3] else []
  | .dcmp _ a b => if odd a || odd b then [3] else []
  | .dtoi _ _ a => if odd a then [3] else []
  | .itod _ d _ => if odd d then [3] else []
  | .accrd _ _ g | .accwr _ _ g => if odd g then [3] else []
  | .macm _ _ _ ga _ gb _ => if ga = gb ∧ ga ≠ 0 then [4] else []
  | _ => []

/-- The lowest of the details, if any (R93). -/
def lowest (l : List Nat) : Option Nat := l.foldl (fun m d => some (match m with | none => d | some x => Nat.min x d)) none

/-! ## The words of syllables (R91 to R130) -/

/-- Bits `[hi:lo]` of a syllable. -/
def Syl.bits (w : Syl) (hi lo : Nat) : Nat := w.toNat / 2 ^ lo % 2 ^ (hi + 1 - lo)

/-- The unit that a syllable's class selects (R92). -/
def sylUnit (w : Syl) : FUnit :=
  match Syl.bits w 30 28 with
  | 0 => .i0 | 1 => .i1 | 2 => .m0 | 3 => .m1 | 4 => .x | 5 => .f | 6 => .m0 | _ => .m1

/-- What a word spells: a syllable, or none, with the details of the rules that its fields break. -/
abbrev Spelt := Option Instr × List Nat

/-- Fields marked "must be 0" (R93). -/
def mustBe0 (v : Nat) : List Nat := if v = 0 then [] else [2]

/-- Integer syllables (R98 to R106). -/
def decodeInt (sl : Slot) (w : Syl) : Spelt :=
  let op := Syl.bits w 27 22
  let d : Reg := w.extractLsb' 16 6
  let a : Reg := w.extractLsb' 10 6
  let b : Reg := w.extractLsb' 4 6
  let fn := Syl.bits w 3 0
  let f := decide (op % 2 = 1)
  let imm : BitVec 10 := w.extractLsb' 0 10
  let imm16 : BitVec 16 := w.extractLsb' 0 16
  let h : BitVec 2 := w.extractLsb' 22 2
  let ok := fun (i : Instr) => ((some i, []) : Spelt)
  let b0 := fun (i : Instr) => ((some i, mustBe0 b.toNat) : Spelt)
  if op ≤ 1 then
    match fn with
    | 0 => ok (.add sl f d a b) | 1 => ok (.adc sl f d a b) | 2 => ok (.sub sl f d a b) | 3 => ok (.sbc sl f d a b)
    | 4 => ok (.and sl f d a b) | 5 => ok (.or sl f d a b) | 6 => ok (.xor sl f d a b) | 7 => ok (.andn sl f d a b)
    | 8 => ok (.min sl f d a b) | 9 => ok (.max sl f d a b) | 10 => ok (.minu sl f d a b)
    | 11 => ok (.maxu sl f d a b) | 12 => b0 (.neg sl f d a) | 13 => b0 (.abs sl f d a) | _ => (none, [1])
  else if op ≤ 3 then
    let wd := decide (8 ≤ fn)
    match fn % 8 with
    | 0 => ok (.shl sl f wd d a b) | 1 => ok (.shr sl f wd d a b) | 2 => ok (.sar sl f wd d a b)
    | 3 => ok (.sal sl f wd d a b) | 4 => ok (.rol sl f wd d a b) | 5 => ok (.ror sl f wd d a b) | _ => (none, [1])
  else if op ≤ 5 then
    match fn with
    | 0 => ok (.mul sl f d a b) | 1 => ok (.mulhu sl f d a b) | 2 => ok (.mulhs sl f d a b)
    | 3 => ok (.divu sl f d a b) | 4 => ok (.divs sl f d a b) | 5 => ok (.remu sl f d a b)
    | 6 => ok (.rems sl f d a b) | _ => (none, [1])
  else if op = 6 then ok (.sel sl (w.extractLsb' 0 4) d a b)
  else if op = 7 then
    match fn with
    | 0 => b0 (.sxtb sl d a) | 1 => b0 (.sxth sl d a) | 2 => b0 (.sxtw sl d a) | 3 => b0 (.zxtb sl d a)
    | 4 => b0 (.zxth sl d a) | 5 => b0 (.zxtw sl d a) | 6 => b0 (.clz sl d a) | 7 => b0 (.ctz sl d a)
    | 8 => b0 (.popc sl d a) | 9 => b0 (.bswap sl d a) | _ => (none, [1])
  else if op ≤ 9 then ok (.addi sl f d a imm)
  else if op ≤ 0xB then ok (.subi sl f d a imm)
  else if op = 0xC then ok (.andi sl d a imm)
  else if op = 0xD then ok (.ori sl d a imm)
  else if op = 0xE then ok (.xori sl d a imm)
  else if op ≤ 0x10 then ok (.shi sl (decide (op = 0x10)) d a imm)
  else if op < 0x20 ∨ 0x2B < op then (none, [1])
  else if op ≤ 0x23 then ok (.ins sl d h imm16)
  else if op ≤ 0x27 then ok (.ldiz sl d h imm16)
  else ok (.ldio sl d h imm16)

/-- A memory syllable of a kind of R108. -/
def memOfKind (k : Nat) (m : MemOp) : Instr :=
  match k with
  | 0 => .ldb m | 1 => .ldh m | 2 => .ldw m | 3 => .ldd m | 4 => .ldbs m | 5 => .ldhs m | 6 => .ldws m | 7 => .lda m
  | 8 => .stb m | 9 => .sth m | 10 => .stw m | 11 => .std m | 12 => .sta m | 13 => .ldp m | 14 => .stp m | _ => .pf m

/-- Memory syllables, short forms and miscellaneous (R107 to R115). -/
def decodeMem (sl : Slot) (w : Syl) : Spelt :=
  let k := Syl.bits w 25 22
  let r : Reg := w.extractLsb' 16 6
  let s : BitVec 4 := w.extractLsb' 12 4
  let a : Reg := w.extractLsb' 6 6
  let x := Syl.bits w 5 0
  let x2 : BitVec 2 := w.extractLsb' 0 2
  let rz := mustBe0 r.toNat
  let sz := mustBe0 s.toNat
  let az := mustBe0 a.toNat
  match Syl.bits w 27 26 with
  | 0 => (some (memOfKind k ⟨sl, r, s, a, .disp (w.extractLsb' 0 6)⟩), [])
  | 1 => (some (memOfKind k ⟨sl, r, s, a, .postInc⟩), mustBe0 x)
  | 2 => (some (memOfKind k ⟨sl, r, s, a, .preDec⟩), mustBe0 x)
  | _ =>
    match k with
    | 0 => (some (.ldrsv sl (w.getLsbD 0) r s a), mustBe0 (x / 2))
    | 1 => (some (.stcnd sl (w.getLsbD 0) r s a), mustBe0 (x / 2))
    | 2 =>
      match x with
      | 0 => (some (.fenceSl sl), rz ++ sz ++ az)
      | 1 => (some (.fenceFull sl), rz ++ sz ++ az)
      | 2 => (some (.fenceIo sl), rz ++ sz ++ az)
      | _ => (none, [1])
    | 3 => (some (.ldseg sl s a), rz ++ mustBe0 x)
    | 4 => (some (.cmaintByAddress sl x2 s a), rz ++ mustBe0 (x / 4))
    | 5 => (some (.cmaintByZone sl x2 a), rz ++ sz ++ mustBe0 (x / 4))
    | 6 => (some (.cmaintGlobal sl x2), rz ++ sz ++ az ++ mustBe0 (x / 4))
    | _ => (none, [1])

/-- Memory syllables, scaled-index form (R110). -/
def decodeIndex (sl : Slot) (w : Syl) : Spelt :=
  let k3 := Syl.bits w 27 25
  let m : MemOp := ⟨sl, w.extractLsb' 16 6, w.extractLsb' 12 4, w.extractLsb' 6 6, .index (w.extractLsb' 0 6) (w.extractLsb' 22 3)⟩
  (some (memOfKind (if k3 < 4 then k3 else k3 + 4) m), [])

/-- Branch and control syllables (R116). The words of REP's repeated bundle stand apart. -/
def decodeX (sl : Slot) (w : Syl) : Spelt :=
  let d : Reg := w.extractLsb' 16 6
  let a : Reg := w.extractLsb' 10 6
  let imm : BitVec 16 := w.extractLsb' 0 16
  let low := w.toNat % 2 ^ 22
  let none' := mustBe0 low
  let onlyA := mustBe0 (Syl.bits w 21 16) ++ mustBe0 (Syl.bits w 9 0)
  let onlyD := mustBe0 (Syl.bits w 15 0)
  let onlyImm := mustBe0 (Syl.bits w 21 16)
  match Syl.bits w 27 22 with
  | 0x00 => (some (.b sl (w.extractLsb' 0 22)), [])
  | 0x01 => (some (.bcc sl (w.extractLsb' 18 4) (w.extractLsb' 0 18)), [])
  | 0x02 => (some (.br sl a), onlyA)
  | 0x03 => (some (.call sl (w.extractLsb' 0 22)), [])
  | 0x04 => (some (.callr sl a), onlyA)
  | 0x05 => (some (.callm sl d imm), [])
  | 0x06 => (some (.callmr sl d a), mustBe0 (Syl.bits w 9 0))
  | 0x07 => (some (.ret sl), none')
  | 0x08 => (some (.retm sl), none')
  | 0x09 => (some (.far sl a (w.extractLsb' 4 6)), mustBe0 (Syl.bits w 21 16) ++ mustBe0 (Syl.bits w 3 0))
  | 0x0A => (some (.svc sl imm), onlyImm)
  | 0x0B => (some (.eret sl), none')
  | 0x0C => (some (.rep sl []), none')
  | 0x0D => (some (.mtpcnt sl a), onlyA)
  | 0x0E => (some (.mtpcnti sl imm), onlyImm)
  | 0x0F => (some (.mfpcnt sl d), onlyD)
  | 0x10 => (some (.mfpsw sl d), onlyD)
  | 0x11 => (some (.mtpsw sl a), onlyA)
  | 0x12 => (some (.mffcsr sl d), onlyD)
  | 0x13 => (some (.mtfcsr sl a), onlyA)
  | 0x14 => (some (.mfctl sl d (w.extractLsb' 0 8)), mustBe0 (Syl.bits w 15 8))
  | 0x15 => (some (.mtctl sl a (w.extractLsb' 0 8)), mustBe0 (Syl.bits w 21 16) ++ mustBe0 (Syl.bits w 9 8))
  | 0x16 => (some (.mfsp sl d (w.getLsbD 0)), mustBe0 (Syl.bits w 15 1))
  | 0x17 => (some (.mtsp sl a (w.getLsbD 0)), mustBe0 (Syl.bits w 21 16) ++ mustBe0 (Syl.bits w 9 1))
  | 0x18 => (some (.adjsp sl imm), onlyImm)
  | 0x19 => (some (.savectx sl), none')
  | 0x1A => (some (.restctx sl), none')
  | 0x1B => (some (.wait sl), none')
  | 0x1C => (some (.brk sl imm), onlyImm)
  | 0x20 => (some (.bcall sl imm), onlyImm)
  | 0x21 => (some (.bret sl), none')
  | 0x22 => (some (.bwdr sl a), onlyA)
  | _ => (none, [1])

/-- A format of R123; value 3 is undefined. -/
def fmtOf (v : Nat) : Option Fmt :=
  match v with | 0 => some .b32 | 1 => some .b64 | 2 => some .b128 | _ => none

/-- Floating-point, decimal and accumulator syllables (R122 to R130). -/
def decodeF (sl : Slot) (w : Syl) : Spelt :=
  let op := Syl.bits w 27 22
  let d : Reg := w.extractLsb' 16 6
  let a : Reg := w.extractLsb' 10 6
  let b : Reg := w.extractLsb' 4 6
  let low2 := mustBe0 (Syl.bits w 1 0)
  let low4 := mustBe0 (Syl.bits w 3 0)
  let acc : BitVec 2 := w.extractLsb' 0 2
  let accz := mustBe0 (Syl.bits w 15 2)
  if op ≤ 0x0A then
    match fmtOf (Syl.bits w 3 2) with
    | none => (none, 1 :: low2)
    | some t =>
      match op with
      | 0 => (some (.fadd sl t d a b), low2) | 1 => (some (.fsub sl t d a b), low2)
      | 2 => (some (.fmul sl t d a b), low2) | 3 => (some (.fdiv sl t d a b), low2)
      | 4 => (some (.fsqrt sl t d a), low2 ++ mustBe0 b.toNat)
      | 5 => (some (.fmin sl t d a b), low2) | 6 => (some (.fmax sl t d a b), low2)
      | 7 => (some (.fcmp sl t a b), low2 ++ mustBe0 d.toNat)
      | 8 => (some (.fma sl t d a b), low2) | 9 => (some (.fms sl t d a b), low2)
      | _ => (some (.fnma sl t d a b), low2)
  else
    match op with
    | 0x10 => (some (.fcvt sl (w.extractLsb' 6 4) (w.extractLsb' 4 2) (w.extractLsb' 2 2) d a), low2)
    | 0x20 => (some (.dadd sl d a b), low4)
    | 0x21 => (some (.dsub sl d a b), low4)
    | 0x22 => (some (.dcmp sl a b), low4 ++ mustBe0 d.toNat)
    | 0x23 => (some (.dtoi sl d a), low4 ++ mustBe0 b.toNat)
    | 0x24 => (some (.itod sl d a), low4 ++ mustBe0 b.toNat)
    | 0x30 => (some (.accclr sl acc), accz ++ mustBe0 d.toNat)
    | 0x31 => (some (.accrd sl acc d), accz)
    | 0x32 => (some (.accwr sl acc d), accz)
    | 0x33 => (some (.accrnd sl acc d), accz)
    | 0x38 | 0x39 | 0x3A | 0x3B =>
      (some (.macm sl (w.extractLsb' 22 2) (w.extractLsb' 20 2) (w.extractLsb' 14 6) (w.extractLsb' 10 4)
        (w.extractLsb' 4 6) (w.extractLsb' 0 4)), [])
    | _ => (none, [1])

/-- The syllable that a word spells at a core: its stop bit and unit stand in the slot (R91, R92). -/
def spell (core : Nat) (w : Syl) : Spelt :=
  let sl : Slot := ⟨core, sylUnit w, w.getLsbD 31⟩
  match Syl.bits w 30 28 with
  | 0 | 1 => decodeInt sl w
  | 2 | 3 => decodeMem sl w
  | 4 => decodeX sl w
  | 5 => decodeF sl w
  | _ => decodeIndex sl w

/-- The details that a word breaks (R93). -/
def wordBad (w : Syl) : List Nat :=
  let r := spell 0 w
  r.2 ++ (match r.1 with | some i => operandBad i | none => [])

/-- What legality needs of a word; an undefined syllable writes nothing. -/
def wordInfo (w : Syl) : SylInfo :=
  match (spell 0 w).1.bind sylInfo with
  | some x => x
  | none => ⟨sylUnit w, [], false, false, false⟩

/-! ## Bundle legality (R94, R95) -/

/-- Two destinations conflict; two STCND both write z and are not set-only (R95; log entry 56). -/
def Dest.clash : Dest → Dest → Bool
  | .g i, .g j => i == j
  | .acc i, .acc j => i == j
  | .seg i, .seg j => i == j
  | .dsp, .dsp => true
  | .flags, .flags | .flags, .zOnly | .flags, .vSet | .zOnly, .flags | .vSet, .flags | .zOnly, .zOnly => true
  | .dzFull, .dzFull | .dzFull, .dzSet | .dzSet, .dzFull => true
  | .fcsrFull, .fcsrFull | .fcsrFull, .fcsrSet | .fcsrSet, .fcsrFull => true
  | _, _ => false

/-- The first element that satisfies `p` against the elements before it, from the left. -/
def firstLater (p : List SylInfo → SylInfo → Bool) : List SylInfo → List SylInfo → Option SylInfo
  | _, [] => none
  | before, x :: t => if p before x then some x else firstLater p (before ++ [x]) t

/-- The rules of R94 with details 1 to 5: the lowest detail that the bundle breaks, with ecause.unit as its row gives.
`stopped` says that one of its first six syllables has the stop bit. -/
def bundleBad (l : List SylInfo) (stopped : Bool) : Option (Nat × Nat) :=
  let order := firstLater (fun before x => before.any (fun y => decide (unitNum x.unit ≤ unitNum y.unit))) [] l
  let twice := firstLater (fun before x => before.any (fun y => y.dests.any (fun a => x.dests.any (Dest.clash a)))) [] l
  let memBesideMacm := if l.any (·.macm) then l.find? (fun x => unitMem x.unit) else none
  match order with
  | some x => some (1, unitNum x.unit)
  | none =>
    if stopped = false then some (2, 7)
    else
      match twice with
      | some x => some (3, unitNum x.unit)
      | none =>
        match memBesideMacm with
        | some x => some (4, unitNum x.unit)
        | none => if l.any (·.rep) ∧ 1 < l.length then some (5, 7) else none

/-- The bundle that words begin with: up to the first stop bit, at most six. -/
def bundleWords : Nat → List Syl → List Syl
  | 0, _ => []
  | _, [] => []
  | k + 1, w :: t => if w.getLsbD 31 then [w] else w :: bundleWords k t

/-- Syllables of the control-transfer group (R116). -/
def isTransfer : Instr → Bool
  | .b _ _ | .bcc _ _ _ | .br _ _ | .call _ _ | .callr _ _ | .callm _ _ _ | .callmr _ _ _ | .ret _ | .retm _
  | .far _ _ _ | .svc _ _ | .eret _ | .brk _ _ | .bcall _ _ | .bret _ => true
  | _ => false

/-- Syllables that write pcount (R120). -/
def writesPcount : Instr → Bool
  | .mtpcnt _ _ | .mtpcnti _ _ | .restctx _ => true
  | _ => false

/-- The rules for a repeated bundle, details 6 to 8 (R120). -/
def repeatBad (ws : List Syl) : Option (Nat × Nat) :=
  let unit := fun (p : Instr → Bool) =>
    (ws.find? (fun w => match (spell 0 w).1 with | some i => p i | none => false)).map (fun w => unitNum (sylUnit w))
  match unit writesPcount with
  | some u => some (6, u)
  | none =>
    match unit isTransfer with
    | some u => some (7, u)
    | none =>
      match unit (fun i => match i with | .rep _ _ => true | _ => false) with
      | some u => some (8, u)
      | none => none

/-- Whether words hold a whole bundle: a stop bit among the first six, or six words. -/
def wholeBundle (ws : List Syl) : Bool := (ws.take 6).any (·.getLsbD 31) || decide (6 ≤ ws.length)

/-- The exception that the words of a bundle raise by themselves: 0x12 by R94 (and R120 for a repeated bundle), else
0x10 of the lowest unit (R82, R93, R94). `addr` is the offset of the first syllable. -/
def wordsExc (ws : List Syl) (repeated : Bool) (addr : Word) : Option Exc :=
  let b := bundleWords 6 ws
  let legal := bundleBad (b.map wordInfo) (b.any (·.getLsbD 31))
  let legal := match legal with
    | some x => some x
    | none => if repeated then repeatBad b else none
  match legal with
  | some (d, u) => some ⟨u, 0x12, d, 0, addr⟩
  | none =>
    match b.findSome? (fun w => (lowest (wordBad w)).map (fun d => (unitNum (sylUnit w), d))) with
    | some (u, d) => some ⟨u, 0x10, d, 0, if repeated then addr else 0⟩
    | none => none

end Sys2Proof.Machine
end

