-- ==== Sys2Proof/Machine/BundleOps.lean ====
section
/-! DEFINITION. An open bundle: what a core's syllables check and read of memory (R50 to R53, R64 to R68, R96, R97, R112,
R153, R205 to R211, R585). -/

namespace Sys2Proof.Machine

/-- A bundle of which nothing has run. -/
def freshBundle (c : Core) : OpenBundle := ⟨c.regs, [], none, none, [], [], [], none, [], none, [], none, 0⟩

/-- The mark in a bundle's list of lookups that it is not repeated: a strict-device access has been made, a STCND has been
decided, or a store has entered the store buffer (R152, R153, R155). -/
def deviceMark : Nat := 99

/-- The open bundle of a core cannot be discarded: it goes on to its end, also where the core is to stop (R153, R159). -/
def bundleFixed (c : Core) : Bool := match c.bundle with | some b => b.seen.contains deviceMark | none => false

/-- A core takes syllables: it is powered, runs a vcore and does not wait, neither for a doorbell nor for a handler's
segment. -/
def canRun (s : State) (n : Nat) : Bool :=
  decide (n < 272) && (getCore s n).power && ((getCore s n).run || bundleFixed (getCore s n)) && !(getCore s n).waiting &&
    (getCore s n).entering.isNone

/-- What a syllable left: whether it ran (false: it waits, and is offered again), and the bundle. -/
structure SylRes where
  ran : Bool
  b : OpenBundle
  deriving DecidableEq, Repr

def OpenBundle.addFault (b : OpenBundle) (e : Exc) : OpenBundle := { b with faults := b.faults ++ [e] }

/-- An access of `size` bytes lies within the limit, without wrapping (R65). -/
def inLimit (d : SegReg) (o : Word) (size : Nat) : Bool := decide (o.toNat + size ≤ d.limit.toNat + 1)

/-- The offset of the bundle after this one (R53, R71). -/
def nextPc (r : CoreRegs) (b : OpenBundle) : Word := r.pc + BitVec.ofNat 64 (4 * b.syls.length)

/-- The first byte that the fetch of a bundle at pc cannot have (R97): pc itself in a segment without x or past the limit,
else the byte after the limit. -/
def fetchEnd (r : CoreRegs) : Word :=
  let d := r.getSeg 13
  if d.bit 4 = false ∨ d.limit.toNat < r.pc.toNat then r.pc else d.limit + 1

/-- Bytes of a bundle up to an offset can be fetched (R65, R66, R97). -/
def fetchRoom (r : CoreRegs) (o : Word) (size : Nat) : Bool := (r.getSeg 13).bit 4 && inLimit (r.getSeg 13) o size

/-- The word of a bundle's next syllable can be fetched. -/
def fetchable (r : CoreRegs) (b : OpenBundle) : Bool := fetchRoom r (nextPc r b) 4

/-- The stores of a bundle so far. -/
def storesOf (b : OpenBundle) : List BufEntry := b.late.filterMap (fun l => match l with | .store e => some e | _ => none)

/-- The offset after the bundle of an X syllable: at most one syllable, on F, follows it (R94). -/
def linkPc (r : CoreRegs) (b : OpenBundle) (sl : Slot) : Word :=
  r.pc + BitVec.ofNat 64 (4 * (b.syls.length + (if sl.last then 1 else 2)))

/-! ## Fences (R205) -/

/-- What a fence still waits for: 1 FENCE.SL, 2 FENCE.IO, 3 FENCE.FULL. -/
def fenceWaits (c : Core) (kind : Nat) : Bool :=
  match kind with
  | 0 => false
  | 1 => c.buf.any (fun e => e.maint.isNone && e.typ == 0)
  | 2 => c.buf.any (fun e => e.maint.isNone) || c.wc != [] || c.wcOut != [] || c.devOut != []
  | _ => c.buf != [] || c.wc != [] || c.wcOut != [] || c.devOut != [] || c.maint != []

/-- Nothing of a core's stores and maintenance is left to do: the store buffer and the write-combining buffers are empty,
what has been sent is acknowledged, and every CMAINT is complete (R88, R205). -/
def coreDrained (c : Core) : Bool := !(fenceWaits c 3)

/-- The strongest fence that a younger access of the core meets: one of an earlier bundle, or of this one. -/
def fenceKind (c : Core) (b : OpenBundle) : Nat :=
  b.acts.foldl (fun k a => match a with | .fence j => Nat.max k j | _ => k) c.fence

/-- A memory access may not be made: a fence holds it, or the cleaning of the near cache, but for a load that had waited for
its line (R189, R205). -/
def accessHeld (c : Core) (b : OpenBundle) : Bool :=
  fenceWaits c (fenceKind c b) || (c.near.cleaning && c.near.served.isNone)

/-- A read of memory at once may not be made either while the near cache waits for a line (R184). -/
def accessWaits (c : Core) (b : OpenBundle) : Bool := accessHeld c b || c.near.blocked.isSome

/-- A fence that no longer waits is done. -/
def clearFence (s : State) (n : Nat) : State :=
  updCore s n (fun c => if fenceWaits c c.fence then c else { c with fence := 0 })

/-- The number of one near-cache lookup of a bundle: its unit and the line of the access. -/
def lookupId (unit : FUnit) (i : Nat) : Nat := unitNum unit * 2 + i

/-- A load through a normal segment: one access, or two where it crosses a line (R68). -/
def loadNormal (s : State) (n : Nat) (b : OpenBundle) (d : SegReg) (unit : FUnit) (a : Word) (k : Nat) (e : Exc) :
    LoadRes × OpenBundle × State :=
  let es := (getCore s n).buf ++ storesOf b
  let j := Nat.min k (128 - a.toNat % 128)
  let see := fun (b : OpenBundle) (i : Nat) => if b.seen.contains i then b else { b with seen := b.seen ++ [i] }
  let blocked := (getCore s n).near.blocked.isSome
  let i0 := lookupId unit 0
  let (r0, s) := loadLine s n d unit es (!(b.seen.contains i0)) a j (some e)
  let b := if blocked then b else see b i0
  match r0 with
  | .ok bs =>
    if j = k then (.ok bs, b, s)
    else
      let i1 := lookupId unit 1
      let a1 := a + BitVec.ofNat 64 j
      let (r1, s) := loadLine s n d unit es (!(b.seen.contains i1)) a1 (k - j) (some e)
      let b := if blocked then b else see b i1
      match r1 with
      | .ok t => (.ok (bs ++ t), b, s)
      | r => (r, b, s)
  | r => (r, b, s)

/-- What a load writes (R108): kinds 0 to 6 a register, 7 an accumulator, 13 a pair. -/
def putLoad (r : CoreRegs) (kind d : Nat) (bs : List Byte) : CoreRegs :=
  let v := ofLeBytes bs
  match kind with
  | 4 => r.setG d ((BitVec.ofNat 8 v).signExtend 64)
  | 5 => r.setG d ((BitVec.ofNat 16 v).signExtend 64)
  | 6 => r.setG d ((BitVec.ofNat 32 v).signExtend 64)
  | 7 => r.setAcc (d % 4) (BitVec.ofNat 128 v)
  | 13 => (r.setG d (BitVec.ofNat 64 v)).setG (d + 1) (BitVec.ofNat 64 (v / 2 ^ 64))
  | _ => r.setG d (BitVec.ofNat 64 v)

/-! ## Offsets and checks (R64 to R66) -/

/-- The base of an access: dsp where a = 0 together with s = 14 (R109). -/
def baseVal (r : CoreRegs) (sg : BitVec 4) (a : Reg) : Word := if baseIsDsp sg a then r.dsp else r.getG a.toNat

def putBase (w : CoreRegs) (sg : BitVec 4) (a : Reg) (v : Word) : CoreRegs :=
  if baseIsDsp sg a then { w with dsp := v } else w.setG a.toNat v

/-- The offset of an access and the base register afterwards, where it changes (R64). -/
def formOffset (r : CoreRegs) (m : MemOp) (size : Nat) : Word × Option Word :=
  let x := baseVal r m.s m.a
  let k := BitVec.ofNat 64 size
  match m.form with
  | .disp d => (x + d.signExtend 64 * k, none)
  | .postInc => (x, some (x + k))
  | .preDec => (x - k, some (x - k))
  | .index b sh => (x + (r.getG b.toNat) * BitVec.ofNat 64 (2 ^ sh.toNat), none)

/-- What right of the segment an access needs. -/
inductive Need where
  | load | store | stack
  deriving DecidableEq, Repr

/-- The check that an access fails: a bonded segment in the open world, then limit and access right (R65, R66). -/
def segFault (r : CoreRegs) (sg : Nat) (o : Word) (size : Nat) (need : Need) : Option (Nat × Nat) :=
  let d := r.getSeg sg
  let right := match need with
    | .load => d.bit 2
    | .store => d.bit 3 && sg != 15
    | .stack => true
  if d.bit 8 && !r.w then some (0x13, 2)
  else if inLimit d o size && right then none
  else some (0x04, 0)

/-- The bundle with a base register written back. -/
def baseBack (b : OpenBundle) (m : MemOp) (v : Option Word) : OpenBundle :=
  match v with
  | none => b
  | some x => { b with work := putBase b.work m.s m.a x }

/-- A read that is made when the bundle is whole, or a STCND, precedes in the bundle: a read after it is made again when
that is done, and the later bytes count (R206, R209, R210). -/
def behindLate (b : OpenBundle) : Bool := b.late.any (fun l => match l with | .store _ => false | _ => true)

/-- The unit has met a refusal of this access already (R80). -/
def refusedHere (b : OpenBundle) (u : Nat) : Bool := b.faults.any (fun e => e.unit == u && e.code == 0x21)

/-! ## Reads outside the caches (R9, R68, R153, R207, R209, R585) -/

/-- The requester of an access that a core makes. -/
def coreReq (s : State) (n : Nat) (zone : Nat) (world : Bool) (stamp : Word) : IoReq :=
  ⟨zone, world, some n, (match vcoreOn s n with | some zv => zv.2 | none => (getCore s n).regs.getCtl 0x0A |>.toNat), stamp⟩

/-- How a strict-device read ends: all ones where its target refuses it or its data is poisoned, with a record (R585). -/
def strictEnd (s : State) (q : IoReq) (a : Word) (k : Nat) (res : EngRes) : EngRes × State :=
  let ones := leBytes k (2 ^ (8 * k) - 1)
  match res with
  | .ok bs => (.ok bs, s)
  | .poisoned => (.ok ones, deviceFault s q a 2 0)
  | .err r => (.ok ones, deviceFault s q a 0 r)

/-- Make a read of memory at its own size for core `n`, outside the caches: at once where that may be, else by a request for
whose answer it waits. A misaligned strict-device read is not made (R9, R68, R207). -/
def askRead (s : State) (n : Nat) (strict : Bool) (unit : FUnit) (a : Word) (k : Nat) : OwnRead × State :=
  let r := (getCore s n).regs
  let (st, s) := issueCoreStamp s n
  let q := coreReq s n r.zone r.w st
  let ends := fun (res : EngRes) (s : State) =>
    let (res, s) := if strict then strictEnd s q a k res else (res, s)
    (OwnRead.mk unit a k st strict (some res), s)
  if strict && a.bit 63 then
    let (v, s) := ioRead s q a k
    ends (.ok (leBytes k v)) s
  else if strict && decide (a.toNat % k ≠ 0) then ends (.err 0) s
  else
    match readNow rep s a k r.zone r.w st with
    | (some res, s) => ends res s
    | (none, s) =>
      let (st, s) := postReq s (coreQuad n) n .rdOnce a r.zone r.w false st
      (OwnRead.mk unit a k st strict none, s)

/-- A read of the bundle outside the caches has ended: a strict-device one never with an error (R585). -/
def settleRead (s : State) (n : Nat) (b : OpenBundle) (g : OwnRead) (res : EngRes) : Option EngRes × OpenBundle × State :=
  if g.strict = false then (some res, b, s)
  else
    let r := (getCore s n).regs
    let (res, s) := strictEnd s (coreReq s n r.zone r.w g.stamp) g.addr g.size res
    (some res, { b with got := b.got.map (fun x => if x.stamp = g.stamp then { g with res := some res } else x) }, s)

/-- A read of the bundle outside the caches, made once: what it gave, or none while it is under way. -/
def readOnce (s : State) (n : Nat) (b : OpenBundle) (strict : Bool) (unit : FUnit) (a : Word) (k : Nat) :
    Option EngRes × OpenBundle × State :=
  match b.got.find? (fun g => g.unit == unit && g.addr == a) with
  | some g =>
    (match g.res with
    | none => (none, b, s)
    | some res => settleRead s n b g res)
  | none =>
    if b.got.any (·.res.isNone) then (none, b, s)
    else
      let (g, s) := askRead s n strict unit a k
      let seen := if strict then deviceMark :: b.seen else b.seen
      (g.res, { b with got := b.got ++ [g], seen := seen }, s)

/-- The core's own write-combined bytes over what memory holds of a line (R202, R208). -/
def wcBytes (c : Core) (world : Bool) (a : Nat) (bs : List Byte) : List Byte :=
  c.wc.foldl (fun bs b =>
    if b.line ≠ a / 128 ∨ (b.world && !world) = true then bs
    else bs.zipIdx.map (fun x => if b.mask.getLsbD (a % 128 + x.2) then (lineBytes b.data).getD (a % 128 + x.2) x.1 else x.1)) bs

/-- Bytes of a write-combining read under the core's own stores, buffered or in a write-combining buffer (R96, R202). -/
def ownBytes (c : Core) (es : List BufEntry) (world : Bool) (a : Nat) (bs : List Byte) : List Byte :=
  forward (es.map (fun e => if e.typ = 1 then { e with typ := 0 } else e)) world a (wcBytes c world a bs)

/-- A read of one line through a write-combining segment (R207). -/
def readWcLine (s : State) (n : Nat) (b : OpenBundle) (unit : FUnit) (a : Word) (k : Nat) : LoadRes × OpenBundle × State :=
  let c := getCore s n
  match readOnce s n b false unit a k with
  | (none, b, s) => (.held, b, s)
  | (some (.ok bs), b, s) => (.ok (ownBytes c (c.buf ++ storesOf b) c.regs.w a.toNat bs), b, s)
  | (some .poisoned, b, s) => (.exc 0x20 0, b, s)
  | (some (.err t), b, s) => (.exc 0x21 t, b, s)

/-- A read through a write-combining segment: at its own size, or one for each line that it lies in (R68, R207). -/
def readWc (s : State) (n : Nat) (b : OpenBundle) (unit : FUnit) (a : Word) (k : Nat) : LoadRes × OpenBundle × State :=
  let j := Nat.min k (128 - a.toNat % 128)
  match readWcLine s n b unit a j with
  | (.ok bs, b, s) =>
    if j = k then (.ok bs, b, s)
    else
      match readWcLine s n b unit (a + BitVec.ofNat 64 j) (k - j) with
      | (.ok t, b, s) => (.ok (bs ++ t), b, s)
      | r => r
  | r => r

/-- A strict-device read: when every older store has left the buffer and its target has acknowledged it (R209). -/
def readStrict (s : State) (n : Nat) (b : OpenBundle) (unit : FUnit) (a : Word) (k : Nat) : LoadRes × OpenBundle × State :=
  let c := getCore s n
  if c.buf ≠ [] ∨ c.devOut ≠ [] then (.held, b, s)
  else
    match readOnce s n b true unit a k with
    | (some (.ok bs), b, s) => (.ok bs, b, s)
    | (_, b, s) => (.held, b, s)

/-- The refusal of a read outside the caches that is known before it is made, with the record of an empty key slot (R233,
R239, R251). -/
def refusedEarly (s : State) (n : Nat) (a : Word) : Option Nat × State :=
  let r := (getCore s n).regs
  if a.field 63 57 ≠ 0 then (some 3, s)
  else if addrDev a ≠ s.devId then (deviceGone s (addrDev a), s)
  else
    match homeCheck s (addrOff a) r.zone r.w with
    | .refused t key =>
      if key then
        let (st, s) := issueCoreStamp s n
        (some t, rep.fault (keyRefusal st a r.zone) s)
      else (some t, s)
    | _ => (none, s)

/-- A load of one access: the bytes, from the source that the segment's type decides (R184, R202, R207). A load that waited
for a line when the near cache began to be cleaned gets its data (R189). -/
def loadAccess (s : State) (n : Nat) (b : OpenBundle) (d : SegReg) (unit : FUnit) (a : Word) (k : Nat) (e : Exc) :
    LoadRes × OpenBundle × State :=
  let c := getCore s n
  if accessHeld c b ∨ (c.near.cleaning && d.typ != 0) then (.held, b, s)
  else
    let s := clearFence s n
    match d.typ with
    | 0 => loadNormal s n b d unit a k e
    | 1 => if c.near.blocked.isSome then (.held, b, s) else readWc s n b unit a k
    | _ => if c.near.blocked.isSome then (.held, b, s) else readStrict s n b unit a k

/-- The bundle with a syllable that is to be carried out, or carried out again, when it is whole. -/
def OpenBundle.later (b : OpenBundle) (i : Instr) (own : List BufEntry) (strict : Bool) : OpenBundle :=
  { b with late := b.late ++ [.redo i own strict] }

/-- What a syllable that reads memory does once its data is there: behind such an access of its bundle it is carried out
again. -/
def againBehind (old : OpenBundle) (i : Instr) (x : SylRes) : SylRes :=
  if x.ran && old.phase == 0 && behindLate old then { x with b := x.b.later i (storesOf old) false } else x

/-- A load of a kind of R108. Through a write-combining or strict-device segment it is made when the bundle is whole
(R153, R207). -/
def loadEff (m : MemOp) (i : Instr) (kind size : Nat) (s : State) (r : CoreRegs) (b : OpenBundle) : SylRes × State :=
  let n := m.sl.core
  let u := unitNum m.sl.unit
  let sg := m.s.toNat
  let d := r.getSeg sg
  let (o, back) := formOffset r m size
  let a := d.base + o
  match segFault r sg o size .load with
  | some (c, t) => (⟨true, b.addFault ⟨u, c, t, sg, o⟩⟩, s)
  | none =>
    if refusedHere b u then (⟨true, b⟩, s)
    else if d.typ ≠ 0 ∧ b.phase = 0 then
      if accessHeld (getCore s n) b then (⟨false, b⟩, s)
      else
        let s := clearFence s n
        let (bad, s) := if d.typ = 1 then refusedEarly s n a else (none, s)
        match bad with
        | some t => (⟨true, b.addFault ⟨u, 0x21, t, sg, o⟩⟩, s)
        | none => (⟨true, (baseBack b m back).later i (storesOf b) (d.typ == 2)⟩, s)
    else
      match loadAccess s n b d m.sl.unit a size ⟨u, 0x21, 0, sg, o⟩ with
      | (.held, b, s) => (⟨false, b⟩, s)
      | (.exc c t, b, s) => (⟨true, b.addFault ⟨u, c, t, sg, o⟩⟩, s)
      | (.ok bs, b', s) =>
        let w := baseBack b' m back
        (againBehind b i ⟨true, { w with work := putLoad w.work kind m.r.toNat bs }⟩, s)

/-! ## Reservations (R112, R206, R211) -/

/-- The checks of LDRSV and STCND: those of R66 for bonded segments, then type, alignment, limit and right (R112).
Alignment is judged on the address, so that the access lies in one line (log entry 167). -/
def rsvFault (r : CoreRegs) (sg : Nat) (o : Word) (size : Nat) (need : Need) : Option (Nat × Nat) :=
  let d := r.getSeg sg
  if d.bit 8 && !r.w then some (0x13, 2)
  else if d.typ ≠ 0 then some (0x08, 2)
  else if (d.base + o).toNat % size ≠ 0 then some (0x08, 1)
  else segFault r sg o size need

/-- The size of the reservation granule: 128 B unless the zone table entry selects 1 KiB (R211). -/
def rsvSize (s : State) (zone : Nat) : Nat :=
  match (getZone s zone).entry with
  | some ws => if entryGran1K ws then 1024 else 128
  | none => 128

/-- The first line of the granule that the quadrant does not hold. -/
def missingLine (s : State) (q first k : Nat) (w : Bool) : Option Nat :=
  (List.range k).findSome? (fun j => if usable s q (first + j) w then none else some (first + j))

/-- LDRSV: the addressed line in E or M, the granule's other lines in S at least, then the load; the reservation and the
deferral begin when the bundle completes (R112, R155, R211, R213). -/
def ldrsvEff (sl : Slot) (wide : Bool) (rd : Reg) (sgr : BitVec 4) (a : Reg) (s : State) (r : CoreRegs) (b : OpenBundle) :
    SylRes × State :=
  let n := sl.core
  let u := unitNum sl.unit
  let sg := sgr.toNat
  let d := r.getSeg sg
  let o := baseVal r sgr a
  let size := if wide then 8 else 4
  let ga := d.base + o
  let gl := globalLine ga
  let q := coreQuad n
  let e : Exc := ⟨u, 0x21, 0, sg, o⟩
  let k := rsvSize s r.zone
  let first := ga.toNat / k * k
  match rsvFault r sg o size .load with
  | some (c, t) => (⟨true, b.addFault ⟨u, c, t, sg, o⟩⟩, s)
  | none =>
    if refusedHere b u then (⟨true, b⟩, s)
    else if accessHeld (getCore s n) b ∨ (getCore s n).near.blocked.isSome then (⟨false, b⟩, s)
    else
      let s := clearFence s n
      let refused : Option Nat := if ga.field 63 57 ≠ 0 then some 3
        else if usable s q gl r.w then none else reqRefused s ga
      match refused with
      | some t => (⟨true, b.addFault { e with detail := t }⟩, s)
      | none =>
        match ownKind s n gl r.w with
        | some kind => (⟨false, b⟩, askOwn s n gl kind r.zone r.w (d.bit 8) false (some e) (segRoom d))
        | none =>
          match missingLine s q (first / 128) (k / 128) r.w with
          | some g => (⟨false, b⟩, demandMiss s n d g .rdShared false (some e))
          | none =>
            match loadNormal s n b d sl.unit ga size e with
            | (.held, b, s) => (⟨false, b⟩, s)
            | (.exc c t, b, s) => (⟨true, b.addFault ⟨u, c, t, sg, o⟩⟩, s)
            | (.ok bs, b', s) =>
              let w := { b' with work := putLoad b'.work 3 rd.toNat bs, rsv := some (first, k, gl) }
              (againBehind b (.ldrsv sl wide rd sgr a) ⟨true, w⟩, s)

/-- A descriptor for a syllable, read as an ordinary load over its core's stores, its bundle's included; `f` gets it. A
failed check names the target register (R61, R62, R80). -/
def withDesc (s : State) (n : Nat) (b : OpenBundle) (i : Instr) (u tgt sel : Nat) (priv world : Option Bool)
    (f : State → OpenBundle → SegReg → SylRes × State) : SylRes × State :=
  let e : Exc := ⟨u, 0x21, 0, tgt, 0⟩
  if refusedHere b u then (⟨true, b⟩, s)
  else if accessHeld (getCore s n) b then (⟨false, b⟩, s)
  else
    let s := clearFence s n
    match readDesc s n ((getCore s n).buf ++ storesOf b) sel priv world tgt (decide (u < 4)) (some e) with
    | (.held, s) => (⟨false, b⟩, s)
    | (.fail x, s) => (⟨true, b.addFault ⟨u, x.code, x.detail, tgt, 0⟩⟩, s)
    | (.ok d, s) =>
      let (x, s) := f s b d
      (againBehind b i x, s)

/-- LDSEG: the target register and the check that failed (R61). -/
def ldsegEff (sl : Slot) (sgr : BitVec 4) (a : Reg) (s : State) (r : CoreRegs) (b : OpenBundle) : SylRes × State :=
  withDesc s sl.core b (.ldseg sl sgr a) (unitNum sl.unit) sgr.toNat ((r.getG a.toNat).field 15 0) (some r.priv) (some r.w)
    (fun s b d => (⟨true, { b with work := b.work.setSeg sgr.toNat d }⟩, s))

end Sys2Proof.Machine
end

