-- ==== Sys2Proof/Machine/Tree.lean ====
section
/-! DEFINITION. The rows of the tree network (R275, R281 to R284, R308). -/

namespace Sys2Proof.Machine

/-- A lane whose retraining is due starts it where its port is UP and no other of its lanes retrains (R172, R295). -/
def startDue (s : State) (k : Nat) : State :=
  if mayStartLane (getPort s (k / 16)) (k % 16) then
    startLane { s with sxt := { s.sxt with laneDue := s.sxt.laneDue.filter (· != k) } } (k / 16) (k % 16)
  else s

/-- A slot-table epoch starts at each multiple of 2^16 mt; lanes ordered to retrain start (R275, R295). -/
def execSlotEpoch (s : State) : Out :=
  let s := { s with tree := { s.tree with epochIdx := now s / 2 ^ 16 } }
  .next (s.sxt.laneDue.foldl startDue s)

/-- FLIT_ROUTE: a flit that its output port chooses leaves its router and crosses the link, and the root routes it; another
one waits (R267, R274, R276, R308, R317). -/
def execFlitRoute (f : Flit) (chk : LinkCheck) (s : State) : Out :=
  .next (if s.flt.checkstop then s
    else match treeTake s f with
      | none => s
      | some u =>
        match checkLink u f (checkAt (outputPort s f) chk) with
        | (some f, u) => hopFlit u f
        | (none, u) => u)

/-- A source keeps a flit that a tree NACK refuses (R283). -/
def execTreeNack (f : Flit) (s : State) : Out :=
  .next { s with tree := { s.tree with refused := s.tree.refused ++ [(f, (now s + nackDelay) % 2 ^ 64)] } }

/-- 64 network cycles later it is sent again, unchanged (R283). -/
def execTreeNackResend (stamp : Word) (s : State) : Out :=
  let due := fun (e : Flit × Nat) => e.1.stamp == stamp && decide ((now s + 2 ^ 64 - e.2) % 2 ^ 64 < 2 ^ 63)
  .next { s with tree := { s.tree with
    net := s.tree.net ++ (s.tree.refused.filter due).map (·.1), refused := s.tree.refused.filter (fun e => !(due e)) } }

/-- The cores of a domain. -/
def domCores (d : Nat) : List Nat := if d < 16 then clusterCores d else quadCores (d - 16)

def domQuad (d : Nat) : Nat := if d < 16 then d / 4 else d - 16

/-- The L2s and L3 slices of a domain write back and invalidate (R282 step 5). -/
def flushDomain (s : State) (d : Nat) : State :=
  let q := domQuad d
  let s := if d < 16 then (getSlice s d).foldl (fun s gl => sliceEvict s d gl) s
    else ((s.lines.filter (fun e => e.1 / 2 ^ 50 == q)).map (fun e => e.1 % 2 ^ 50)).foldl (fun s gl => evictLine s q gl) s
  updCores s (domCores d) (fun _ c => flushCore c)

/-- Every request of a DRAINING domain has its response and its store buffers are empty, and no relief runs in
it: FLUSHING (R162, R282 steps 3 to 5). -/
def execDomainDrained (d : Nat) (s : State) : Out :=
  let relieved := s.sxt.reliefs.any (fun r => (domCores d).contains (spareOf r.1)) ||
    s.sxt.requests.any (fun r => (domCores d).contains r.1)
  let busy := relieved || s.reqs.any (fun r => (domCores d).contains r.core) ||
    (domCores d).any (fun n => !(coreDrained (getCore s n)))
  .next (if 20 ≤ d ∨ (getDom s d).state ≠ 2 ∨ busy then s
    else flushDomain (updDom s d (fun x => { x with state := 3 })) d)

/-- The rails of a domain are off: held requests are answered, its cores lose power (R282 steps 6 and 7). -/
def domainIsOff (s : State) (d : Nat) : State :=
  let held := (getDom s d).held
  let s := updDom s d (fun x => { x with state := 0, held := [], mbx := none })
  let s := held.foldl (fun s f => answerErr s f 1) s
  let s := updCores s (domCores d) (fun _ c => { flushCore c with power := false, run := false, bundle := none })
  let s := { s with spareInUse := (List.range 16).foldl (fun a k =>
    if (domCores d).contains (spareOf k) ∧ a.testBit k then a - 2 ^ k else a) s.spareInUse }
  if 16 ≤ d ∧ s.quadOnline.testBit (d - 16) then { s with quadOnline := s.quadOnline - 2 ^ (d - 16) } else s

/-- Every write-back has its WbAck: OFF, and the command that asked is done (R282). -/
def execDomainFlushed (d : Nat) (s : State) : Out :=
  let x := getDom s d
  .next (if 20 ≤ d ∨ x.state ≠ 3 ∨ x.isolated.isSome ∨ s.wbs.any (fun w => w.quad == domQuad d) then s
    else setOutcomeOpt (domainIsOff s d) x.mbx (okRes []))

/-- The invalidation of a POWERING domain ends: ONLINE, and held requests go on; its cores are
powered, a spare that carries work among them, but no idle spare and none that is retired or lost (R20, R163, R284). -/
def execDomainPowered (d : Nat) (s : State) : Out :=
  let x := getDom s d
  .next (if 20 ≤ d ∨ x.state ≠ 4 then s
    else
      let s := updDom s d (fun x => { x with state := 1, held := [], mbx := none })
      let s := { s with tree := { s.tree with net := s.tree.net ++ x.held } }
      let on := fun (n : Nat) => ((getCore s n).sxtState == 0 || (getCore s n).sxtState == 2) &&
        (getDom s (n / 17)).state == 1 && (getDom s (16 + n / 68)).state == 1
      let s := updCores s ((domCores d).filter on) (fun _ c => { flushCore c with power := true })
      let s := { s with spareInUse := (List.range 16).foldl (fun a k =>
        if (domCores d).contains (spareOf k) ∧ on (spareOf k) ∧ a.testBit k = false then a + 2 ^ k else a) s.spareInUse }
      let s := if 16 ≤ d ∧ s.quadOnline.testBit (d - 16) = false ∧ 9 ≤ s.power.step then
          { s with quadOnline := s.quadOnline + 2 ^ (d - 16) } else s
      setOutcomeOpt s x.mbx (okRes []))

end Sys2Proof.Machine
end

