-- ==== Sys2Proof/Machine/StackOps.lean ====
section
/-! DEFINITION. The return stack and the control syllables that read memory: returns, contexts, far transfers, bonded entry and
return (R61 to R63, R70 to R75, R84, R116, R117, R468 to R470), and which syllables are carried out when the bundle is whole. -/

namespace Sys2Proof.Machine

/-- An exception of an X syllable. -/
def xExc (code detail : Nat) : Exc := ⟨4, code, detail, 0, 0⟩

/-- A stack exception names s15 and rsp (R73). -/
def stackExc (r : CoreRegs) (detail : Nat) : Exc := ⟨4, 0x06, detail, 15, r.rsp⟩

/-- A word target with bits [1:0] taken as 0 (R117). -/
def aligned4 (w : Word) : Word := BitVec.ofNat 64 (w.toNat / 4 * 4)

/-! ## Pushes (R63, R70 to R73) -/

/-- The entries of a store: two where it crosses a line of normal or write-combining memory (R68, R201). -/
def storeEntries (r : CoreRegs) (d : SegReg) (a : Word) (k : Nat) (v : Nat) (stamp : Word) : List BufEntry :=
  let e := fun (a : Word) (k v : Nat) =>
    (⟨a, k, BitVec.ofNat 128 (v % 2 ^ (8 * k)), d.typ, r.zone, r.w, d.bit 8, stamp, none, segRoom d⟩ : BufEntry)
  let j := 128 - a.toNat % 128
  if d.typ = 2 ∨ k ≤ j then [e a k v]
  else [e a j v, e (a + BitVec.ofNat 64 j) (k - j) (v / 2 ^ (8 * j))]

/-- The check that a push of an entry of n bytes fails, the bonded one first (R63, R66, R73, R82). -/
def pushFault (r : CoreRegs) (n : Nat) : Option Exc :=
  if (r.getSeg 15).bit 8 && !r.w then some ⟨4, 0x13, 2, 15, r.rsp - BitVec.ofNat 64 n⟩
  else if r.rsp.toNat < n then some (stackExc r 1)
  else none

/-- The bundle with words stored at an offset of a segment. -/
def pushWords (r : CoreRegs) (b : OpenBundle) (sg : Nat) (o : Word) (ws : List Word) (stamp : Word) : OpenBundle :=
  let d := r.getSeg sg
  let es := ws.zipIdx.flatMap (fun x => storeEntries r d (d.base + o + BitVec.ofNat 64 (8 * x.2)) 8 x.1.toNat stamp)
  { b with late := b.late ++ es.map .store }

/-- The bundle with the registers of a mask and the mask stored below dsp, in the order of R72: from the highest register
down, then the mask. -/
def saveWords (r : CoreRegs) (b : OpenBundle) (o : Word) (ws : List Word) (stamp : Word) : OpenBundle :=
  let d := r.getSeg 14
  let es := ws.zipIdx.reverse.flatMap (fun x => storeEntries r d (d.base + o + BitVec.ofNat 64 (8 * x.2)) 8 x.1.toNat stamp)
  { b with late := b.late ++ es.map .store }

/-- Push an entry: its words below rsp, and rsp moved (R70). -/
def pushEntry (r : CoreRegs) (b : OpenBundle) (ws : List Word) (stamp : Word) : OpenBundle :=
  let o := r.rsp - BitVec.ofNat 64 (8 * ws.length)
  let b := pushWords r b 15 o ws stamp
  { b with work := { b.work with rsp := o } }

/-- Registers that a mask names, without g0, lowest first (R72). -/
def maskRegs (m : Word) : List Nat := (List.range 64).filter (fun i => decide (1 ≤ i) && m.getLsbD i)

/-- The first data-stack word, from the top down, that fails its check (R65, R66, R72). -/
def dataStackFault (r : CoreRegs) (top : Word) (k : Nat) (need : Need) : Option Exc :=
  (List.range k).findSome? (fun j =>
    let o := top - BitVec.ofNat 64 (8 * (j + 1))
    (segFault r 14 o 8 need).map (fun c => ⟨4, c.1, c.2, 14, o⟩))

/-! ## Pops (R63, R71 to R73, R75, R470) -/

/-- Words of a read of unit X at consecutive addresses outside the caches, each one access (R207, R209). -/
def readWords : Nat → State → Nat → OpenBundle → Bool → Word → LoadRes × OpenBundle × State
  | 0, s, _, b, _, _ => (.ok [], b, s)
  | k + 1, s, n, b, strict, a =>
    match (if strict then readStrict s n b .x a 8 else readWc s n b .x a 8) with
    | (.ok bs, b, s) =>
      let x := readWords k s n b strict (a + 8)
      (x.1.after bs, x.2.1, x.2.2)
    | r => r

/-- How reading a stack goes. -/
inductive PopRes where
  | ok (ws : List Word)
  | held
  | exc (e : Exc)
  deriving DecidableEq, Repr

/-- Words at an offset of a stack's segment, by its type; a refusal or poison as an exception of the X syllable (R80,
R585). -/
def readSeg (s : State) (n : Nat) (r : CoreRegs) (b : OpenBundle) (sg : Nat) (o : Word) (k : Nat) :
    PopRes × OpenBundle × State :=
  let d := r.getSeg sg
  let a := d.base + o
  let (x, b, s) := match d.typ with
    | 0 =>
      let (x, s) := loadRun (k / 16 + 2) s n d ((getCore s n).buf ++ storesOf b) a (8 * k) (some ⟨4, 0x21, 0, sg, o⟩)
      (x, b, s)
    | t => readWords k s n b (t != 1) a
  match x with
  | .ok bs => (.ok (bytesWords k bs), b, s)
  | .held => (.held, b, s)
  | .exc c t => (.exc ⟨4, c, t, sg, o⟩, b, s)

/-- Read the entry at rsp for a pop (R63, R71 to R73): the tag, whose kind is checked, and the entry's own length. -/
def popEntry (s : State) (n : Nat) (r : CoreRegs) (b : OpenBundle) (kind len : Nat) : PopRes × OpenBundle × State :=
  match readSeg s n r b 15 r.rsp 1 with
  | (.ok ws, b, s) =>
    if (wordAt ws 0).field 7 0 ≠ kind then (.exc (stackExc r 3), b, s)
    else if (r.getSeg 15).limit.toNat < r.rsp.toNat + len - 1 then (.exc (stackExc r 2), b, s)
    else readSeg s n r b 15 r.rsp (len / 8)
  | x => x

/-- The checks of a pop that need no read, the bonded ones first: `both` says that s14 is read too, `first` are the bytes
that the underflow check asks for before the tag is read (R63, R66, R73, R82). -/
def popCheck (r : CoreRegs) (both : Bool) (first : Nat) : Option Exc :=
  if (r.getSeg 15).bit 8 && !r.w then some ⟨4, 0x13, 2, 15, r.rsp⟩
  else if both && (r.getSeg 14).bit 8 && !r.w then some ⟨4, 0x13, 2, 14, r.dsp⟩
  else if (r.getSeg 15).limit.toNat < r.rsp.toNat + first - 1 then some (stackExc r 2)
  else none

/-- The check of the data stack's lowest word (R65, R66). -/
def dataTop (r : CoreRegs) : Option Exc := (segFault r 14 r.dsp 8 .load).map (fun c => ⟨4, c.1, c.2, 14, r.dsp⟩)

/-- A pop by an X syllable, from s15 and, where `both`, from s14 too: `f` gets the entry's words. A stack that is not in normal
memory is read when the bundle is whole, one on a strict device after every older store (R153, R207, R209). Where the
entry cannot be read, the lower check of the data stack goes before that (R82). -/
def popSyl (s : State) (n : Nat) (r : CoreRegs) (b : OpenBundle) (i : Instr) (both : Bool) (kind first len : Nat)
    (f : State → OpenBundle → List Word → SylRes × State) : SylRes × State :=
  let t15 := (r.getSeg 15).typ
  let t14 := if both then (r.getSeg 14).typ else 0
  if refusedHere b 4 then (⟨true, b⟩, s)
  else
    match popCheck r both first with
    | some e => (⟨true, b.addFault e⟩, s)
    | none =>
      if accessWaits (getCore s n) b then (⟨false, b⟩, s)
      else
        let s := clearFence s n
        if b.phase = 0 ∧ (t15 ≠ 0 ∨ t14 ≠ 0) then (⟨true, b.later i (storesOf b) (t15 == 2 || t14 == 2)⟩, s)
        else
          match popEntry s n r b kind len with
          | (.held, b, s) => (⟨false, b⟩, s)
          | (.exc e, b, s) =>
            (⟨true, { b with faults := b.faults ++ e :: (if both then (dataTop r).toList else []) }⟩, s)
          | (.ok ws, b', s) =>
            let (x, s) := f s b' ws
            (againBehind b i x, s)

/-- RET (R71). -/
def retEff (sl : Slot) (s : State) (r : CoreRegs) (b : OpenBundle) : SylRes × State :=
  popSyl s sl.core r b (.ret sl) false 0x01 16 16 (fun s b ws =>
    (⟨true, { b with target := some (wordAt ws 1), work := { b.work with rsp := r.rsp + 16 } }⟩, s))

/-- The registers of a mask restored from the words above the mask, both stack pointers moved, and the return (R72). -/
def restoreMask (r : CoreRegs) (b : OpenBundle) (regs : List Nat) (target : Word) (vs : List Word) : OpenBundle :=
  let w := regs.zipIdx.foldl (fun (w : CoreRegs) (x : Nat × Nat) => w.setG x.1 (wordAt vs x.2)) b.work
  let top := r.dsp + BitVec.ofNat 64 (8 * (regs.length + 1))
  { b with target := some target, work := { w with dsp := top, rsp := r.rsp + 32 } }

/-- The first of the words above the mask, from the lowest up, that fails its check (R65, R66, R72). -/
def dataAbove (r : CoreRegs) (k : Nat) : Option Exc :=
  (List.range k).findSome? (fun j =>
    let o := r.dsp + BitVec.ofNat 64 (8 * (j + 1))
    (segFault r 14 o 8 .load).map (fun c => (⟨4, c.1, c.2, 14, o⟩ : Exc)))

/-- RETM: the entry's mask and dsp must agree with the data stack; then the registers are restored. The checks go by their
priority: the stack exception, the limits, the reads (R72, R82). -/
def retmEff (sl : Slot) (s : State) (r : CoreRegs) (b : OpenBundle) : SylRes × State :=
  popSyl s sl.core r b (.retm sl) true 0x02 16 32 (fun s b ws =>
    let n := sl.core
    let mask := wordAt ws 2
    let regs := maskRegs mask
    let fail := fun (b : OpenBundle) (e : Exc) (s : State) => ((⟨true, b.addFault e⟩, s) : SylRes × State)
    if r.dsp ≠ wordAt ws 3 then fail b (stackExc r 4) s
    else
      match dataTop r with
      | some e => fail b e s
      | none =>
        match readSeg s n r b 14 r.dsp 1 with
        | (.held, b, s) => (⟨false, b⟩, s)
        | (.exc e, b, s) => fail b ((dataAbove r regs.length).getD e) s
        | (.ok mw, b, s) =>
          if wordAt mw 0 ≠ mask then fail b (stackExc r 4) s
          else
            match dataAbove r regs.length with
            | some e => fail b e s
            | none =>
              match readSeg s n r b 14 (r.dsp + 8) regs.length with
              | (.held, b, s) => (⟨false, b⟩, s)
              | (.exc e, b, s) => fail b e s
              | (.ok vs, b, s) => (⟨true, restoreMask r b regs (wordAt ws 1) vs⟩, s))

/-! ## Contexts and segments (R56 to R58, R75) -/

/-- What a write to fcsr stores: the sticky bits and rm, 0 for rm 5 to 7 (R56). -/
def fcsrStored (v : Word) : Word := (v &&& 0x1F0#64) + BitVec.ofNat 64 (if v.field 2 0 ≤ 4 then v.field 2 0 else 0)

/-- What a write to a control register stores; none where it is discarded (R57, R58). -/
def ctlStored (num : Nat) (v : Word) : Option Word :=
  match (if 0x10 ≤ num ∧ num ≤ 0x17 then num - 0x0E else num) with
  | 0x00 => some (v &&& 0xFFFFFFFFFFFFFFE0#64)
  | 0x01 => some (BitVec.ofNat 64 (Nat.min (v.field 16 0) 65536))
  | 0x02 => some (v &&& 0xFFFFFFFFFFFFFFC0#64)
  | 0x03 => some v
  | 0x04 => some v
  | 0x05 => some (v &&& 0xFFFF#64)
  | 0x06 => some (v &&& 0xFFFFF7FF#64)
  | 0x07 => some v
  | 0x08 => some v
  | 0x09 => some v
  | _ => none

/-- The registers of a context frame but the segments (R75). -/
def contextRegs (ws : List Word) (k : Nat) (w : CoreRegs) : CoreRegs :=
  let w := (List.range 63).foldl (fun w i => w.setG (i + 1) (wordAt ws (i + 1))) w
  let w := (List.range 4).foldl (fun w i =>
    w.setAcc i (BitVec.ofNat 128 ((wordAt ws (64 + 2 * i)).toNat + (wordAt ws (65 + 2 * i)).toNat * 2 ^ 64))) w
  let w := (List.range 5).foldl (fun w i =>
    match ctlStored (k + 1 + i) (wordAt ws (75 + i)) with
    | some v => w.setCtl (k + 1 + i) v
    | none => w) w
  { w with pcount := wordAt ws 72, fcsr := fcsrStored (wordAt ws 73), dsp := wordAt ws 74 }

/-- How reloading segment registers goes. -/
inductive SegsRes where
  | ok (w : CoreRegs)
  | held
  | exc (e : Exc)
  deriving DecidableEq, Repr

/-- Reload segment registers from selectors, in order; the first failing reload ends it (R75). -/
def reloadSegs (n : Nat) (es : List BufEntry) (priv world : Option Bool) :
    List (Nat × Nat) → CoreRegs → State → SegsRes × State
  | [], w, s => (.ok w, s)
  | (i, sel) :: t, w, s =>
    match readDesc s n es sel priv world i false (some ⟨4, 0x21, 0, i, 0⟩) with
    | (.held, s) => (.held, s)
    | (.fail f, s) => (.exc ⟨4, f.code, f.detail, i, 0⟩, s)
    | (.ok d, s) => reloadSegs n es priv world t (w.setSeg i d) s

/-- Reload segment registers for a syllable; `f` gets the registers. -/
def withSegs (s : State) (n : Nat) (b : OpenBundle) (priv world : Option Bool) (sels : List (Nat × Nat))
    (f : OpenBundle → CoreRegs → OpenBundle) : SylRes × State :=
  match reloadSegs n ((getCore s n).buf ++ storesOf b) priv world sels b.work s with
  | (.held, s) => (⟨false, b⟩, s)
  | (.exc e, s) => (⟨true, b.addFault e⟩, s)
  | (.ok w, s) => (⟨true, f b w⟩, s)

/-- RESTCTX (R75). -/
def restctxEff (sl : Slot) (s : State) (r : CoreRegs) (b : OpenBundle) : SylRes × State :=
  popSyl s sl.core r b (.restctx sl) false 0x03 16 672 (fun s b ws =>
    let sels := (List.range 16).map (fun i => (i, (wordAt ws (80 + i / 4)).field (16 * (i % 4) + 15) (16 * (i % 4))))
    withSegs s sl.core b (some r.priv) (some r.w) sels (fun b w =>
      { b with work := { contextRegs ws (excBase r) w with rsp := r.rsp + 672 } }))

/-! ## Far transfers and the return from an exception (R84, R116, R117) -/

/-- FAR: s13 loaded under R61, then the offset gb (R116, R117). -/
def farEff (sl : Slot) (a b' : Reg) (s : State) (r : CoreRegs) (b : OpenBundle) : SylRes × State :=
  withDesc s sl.core b (.far sl a b') 4 13 ((r.getG a.toNat).field 15 0) (some r.priv) (some r.w) (fun s b d =>
    (⟨true, { b with work := b.work.setSeg 13 d, target := some (aligned4 (r.getG b'.toNat)) }⟩, s))

/-- The bits of psw that ERET restores: all defined fields but zone and w (R54, R84). -/
def eretMask : Word := 0x00002F000000001F#64

/-- ERET: psw from epsw but zone and w, s13 from ecs, pc from epc, whose bits [1:0] stand as they are; the reservation is
lost (R84, R212; log entry 207). -/
def eretEff (sl : Slot) (s : State) (r : CoreRegs) (b : OpenBundle) : SylRes × State :=
  let k := excBase r
  withDesc s sl.core b (.eret sl) 4 13 ((r.getCtl (k + 3)).field 15 0) (some r.priv) (some r.w) (fun s b d =>
    let psw := (r.psw &&& ~~~eretMask) ||| (r.getCtl (k + 2) &&& eretMask)
    let w := { b.work.setSeg 13 d with psw := psw }
    (⟨true, { b with work := w, target := some (r.getCtl (k + 1)), acts := b.acts ++ [.loseRsv] }⟩, s))

/-! ## Bonded entry and return (R467 to R470) -/

/-- The state of the open world that entry kind 0x05 keeps (R469). -/
def bcallWord (r : CoreRegs) : Word :=
  BitVec.ofNat 64 ((r.getSeg 13).sel.toNat * 2 ^ 48 + (r.getSeg 14).sel.toNat * 2 ^ 32 + (r.getSeg 15).sel.toNat * 2 ^ 16 +
    r.priv.toNat * 2 ^ 15 + (r.psw.bit 42).toNat * 2 ^ 14 + (r.psw.bit 40).toNat * 2 ^ 13 +
    (r.psw.bit 41).toNat * 2 ^ 12 + r.fcsr.field 2 0)

/-- BCALL's entry to the bonded world: the push, s13, psw and the target (R468, R469). -/
def enterBonded (r : CoreRegs) (b : OpenBundle) (sl : Slot) (d : SegReg) (imm : BitVec 16) (stamp : Word) : OpenBundle :=
  let b1 := pushEntry r b [0x0000002000000005#64, linkPc r b sl, bcallWord r, r.dsp] stamp
  let psw := setBit (setBit (setBit (setBit b1.work.psw 44 true) 43 true) 42 false) 41 false
  let w := { b1.work.setSeg 13 d with psw := psw }
  { b1 with work := w, target := some (BitVec.ofNat 64 ((r.getCtl 0x10).field 47 0 + 0x4000 + imm.toNat * 64)) }

/-- BCALL (R468): the checks in order, then entry to the bonded world. -/
def bcallEff (sl : Slot) (imm : BitVec 16) (s : State) (r : CoreRegs) (b : OpenBundle) : SylRes × State :=
  if r.w then (⟨true, b.addFault (xExc 0x13 4)⟩, s)
  else if imm.getLsbD 15 && !r.priv then (⟨true, b.addFault (xExc 0x11 2)⟩, s)
  else
    withDesc s sl.core b (.bcall sl imm) 4 13 ((r.getCtl 0x10).field 63 48) none none (fun s b d =>
      if d.bit 8 = false then (⟨true, b.addFault (xExc 0x13 5)⟩, s)
      else
        match pushFault r 32 with
        | some e => (⟨true, b.addFault e⟩, s)
        | none =>
          let (st, s) := issueCoreStamp s sl.core
          (⟨true, enterBonded r b sl d imm st⟩, s))

/-- The registers that survive a return to the open world: g1, g2 and acc0 (R470); s0 to s12 with bonded descriptors
become null. -/
def bondedScrub (w : CoreRegs) : CoreRegs :=
  let segs := (List.range 13).foldl (fun (w : CoreRegs) i => if (w.getSeg i).bit 8 then w.setSeg i SegReg.null else w) w
  { segs with g := segs.g.filter (fun e => decide (e.1 ≤ 2)), acc := segs.acc.filter (fun e => decide (e.1 = 0)),
              pcount := 0 }

/-- BRET (R470): the checks in order, then the scrub and the return. -/
def bretEff (sl : Slot) (s : State) (r : CoreRegs) (b : OpenBundle) : SylRes × State :=
  if r.w = false then (⟨true, b.addFault (xExc 0x13 3)⟩, s)
  else if (r.getSeg 15).bit 8 then (⟨true, b.addFault (xExc 0x13 6)⟩, s)
  else
    popSyl s sl.core r b (.bret sl) false 0x05 32 32 (fun s b ws =>
      let e := wordAt ws 2
      let sels := [(13, e.field 63 48), (14, e.field 47 32), (15, e.field 31 16)]
      withSegs s sl.core b (some r.priv) (some false) sels (fun b w =>
        let psw := (r.psw &&& 0xFFF0000000000000#64) +
          BitVec.ofNat 64 ((e.bit 15).toNat * 2 ^ 43 + (e.bit 14).toNat * 2 ^ 42 + (e.bit 12).toNat * 2 ^ 41 +
            (e.bit 13).toNat * 2 ^ 40)
        let w := { bondedScrub w with
          psw := psw, fcsr := BitVec.ofNat 64 (e.field 2 0), dsp := wordAt ws 3, rsp := r.rsp + 32 }
        { b with work := w, target := some (wordAt ws 1), acts := b.acts ++ [.scrubNear] }))

/-! ## Syllables carried out when the bundle is whole -/

/-- The effect of a syllable that reads memory, for the bundle's end (R153, R206, R207, R209). -/
def lateEff (i : Instr) (s : State) (r : CoreRegs) (b : OpenBundle) : SylRes × State :=
  match i with
  | .ldb m => loadEff m i 0 1 s r b
  | .ldh m => loadEff m i 1 2 s r b
  | .ldw m => loadEff m i 2 4 s r b
  | .ldd m => loadEff m i 3 8 s r b
  | .ldbs m => loadEff m i 4 1 s r b
  | .ldhs m => loadEff m i 5 2 s r b
  | .ldws m => loadEff m i 6 4 s r b
  | .lda m => loadEff m i 7 16 s r b
  | .ldp m => loadEff m i 13 16 s r b
  | .ldrsv sl wide rd sgr a => ldrsvEff sl wide rd sgr a s r b
  | .ldseg sl sgr a => ldsegEff sl sgr a s r b
  | .ret sl => retEff sl s r b
  | .retm sl => retmEff sl s r b
  | .restctx sl => restctxEff sl s r b
  | .far sl a b' => farEff sl a b' s r b
  | .eret sl => eretEff sl s r b
  | .bcall sl imm => bcallEff sl imm s r b
  | .bret sl => bretEff sl s r b
  | _ => (⟨true, b⟩, s)

end Sys2Proof.Machine
end

