-- ==== Sys2Proof/Machine/Bundle.lean ====
section
/-! DEFINITION. Executing a bundle: syllables arrive one by one, read the registers as they stood before the bundle, and
their results are written together when the bundle completes (R50 to R52, R81, R94 to R96, R152 to R155). -/

namespace Sys2Proof.Machine

/-! ## Completing a bundle -/

/-- The execution that ends here used retries: a class C1 fault with their number and the detector (R154). -/
def noteRetries (s : State) (n : Nat) : State :=
  let c := getCore s n
  if c.retries = 0 then s
  else
    let (st, s) := issueCoreStamp s n
    updCore (faultAt s 0x01 1 c.retries st 0 (BitVec.ofNat 64 (n + c.detector * 2 ^ 12)) c.regs.zone) n
      (fun c => { c with retries := 0 })

/-- A bundle faults: it has no effect, and the exception is entered (R81, R154, R156). -/
def raiseBundle (s : State) (n : Nat) (e : Exc) : State := enterException (noteRetries s n) n e (getCore s n).regs.pc

/-- Every near-cache entry with the bonded bit set is cleaned and invalidated (R470). -/
def scrubNear (nr : Near) : Near :=
  { nr with entries := Table.mapListed noEntry (fun _ e => if e.bonded then noEntry 0 else e) nr.entries }

/-- BWDR (R475): disarm, arm, then lock; the core and the stamp are kept whatever it changes. -/
def bwdrNow (s : State) (n : Nat) (w : Word) (stamp : Word) : State :=
  let e := w.field 7 0
  let b := s.bnd
  let k := if e = 0 then 0 else if e < 20 then 20 else if 40 < e then 40 else e
  let b :=
    if e = 0 then (if b.wdgLock then b else { b with wdgArmed := false })
    else { b with wdgArmed := true, wdgE := k, wdgExp := (now s + 2 ^ k) % 2 ^ 64 }
  { s with bnd := { b with wdgLock := b.wdgLock || w.bit 8, wdgCore := n, wdgStamp := stamp } }

/-- What an X or M syllable does when its bundle completes. -/
def actNow (s : State) (n : Nat) (a : Act) : State :=
  match a with
  | .wait => s
  | .bwdr w => let (st, s) := issueCoreStamp s n; bwdrNow s n w st
  | .scrubNear => updCore s n (fun c => { c with near := scrubNear c.near })
  | .fence k => updCore s n (fun c => { c with fence := Nat.max c.fence k })
  | .loseRsv => updCore s n (fun c => { c with rsv := none })
  | .rwbWrite num =>
    let c := getCore s n
    faultAt s 0x14 0 0 0 (BitVec.ofNat 64 num) 3 c.regs.zone
  | .repeatBody _ => s

/-- A deferral counts a bundle; an M syllable other than LDRSV and STCND, a backward branch, SVC, or the sixteenth
bundle ends the constrained sequence (R213). -/
def countDeferral (s : State) (n : Nat) (b : OpenBundle) (pc : Word) : State :=
  match (getCore s n).defer with
  | none => s
  | some d =>
    let other := b.syls.any (fun x => unitMem x.unit && !x.rsv)
    let back := match b.target with | some t => decide (t.toNat ≤ pc.toNat) | none => false
    let svc := match b.trap with | some e => e.code == 0x14 | none => false
    if other || back || svc || decide (d.bundles ≤ 1) then endDeferral s n
    else updCore s n (fun c => { c with defer := some { d with bundles := d.bundles - 1 } })

/-- The syllables at pc, up to a stop bit or the sixth, read from its line and, where that does not hold them all, the next
one; or the exception of a fetch that fails (R65, R80, R97). -/
def fetchWords (s : State) (n : Nat) : Except Exc (List Syl) × State :=
  let r := (getCore s n).regs
  let d := r.getSeg 13
  let room := (d.limit.toNat + 1 - r.pc.toNat) / 4
  let k := if d.bit 4 then Nat.min 6 room else 0
  let a := d.base + r.pc
  let j := Nat.min k ((128 - a.toNat % 128) / 4)
  let words := fun (bs : List Byte) =>
    bundleWords 6 ((List.range (bs.length / 4)).map (fun i => BitVec.ofNat 32 (ofLeBytes ((bs.drop (4 * i)).take 4))))
  let fails := fun (t : Nat) (o : Word) => (Except.error ⟨7, 0x02, t, 13, o⟩ : Except Exc (List Syl))
  let beyond : Except Exc (List Syl) := .error ⟨7, 0x01, 0, 13, fetchEnd r⟩
  let (st, s) := issueCoreStamp s n
  match peekBytes 2 s n a (4 * j) st with
  | (.ok bs, s) =>
    if wholeBundle (words bs) then (.ok (words bs), s)
    else
      let o := r.pc + BitVec.ofNat 64 (4 * j)
      match peekBytes 2 s n (a + BitVec.ofNat 64 (4 * j)) (4 * (k - j)) st with
      | (.ok t, s) => (if wholeBundle (words (bs ++ t)) then .ok (words (bs ++ t)) else beyond, s)
      | (.poisoned, s) => (fails 0 o, s)
      | (.err t, s) => (fails t o, s)
  | (.poisoned, s) => (fails 0 r.pc, s)
  | (.err t, s) => (fails t r.pc, s)

/-- A repeat that ERET resumes (R87, R121): the repeated bundle is fetched and checked again; with pcount = 0 it is not
executed. -/
def resumeRepeat (s : State) (n : Nat) : State :=
  let r := (getCore s n).regs
  match fetchWords s n with
  | (.error e, s) => enterException s n e r.pc
  | (.ok ws, s) =>
    match wordsExc ws true r.pc with
    | some e => enterException s n e r.pc
    | none =>
      if r.pcount = 0 then
        updCore s n (fun c => { c with rep := [], regs := { r with
          psw := setBit r.psw 45 false, pc := r.pc + BitVec.ofNat 64 (4 * ws.length) } })
      else updCore s n (fun c => { c with rep := ws })

/-- The registers as a bundle leaves them, with the next pc and the count of a repeat (R87, R96, R121), and the words
of the bundle that is repeated from here on. -/
def nextRegs (c : Core) (b : OpenBundle) : CoreRegs × List Syl :=
  let old := c.regs
  let next := nextPc old b
  if old.psw.bit 45 then
    let k := old.pcount - 1
    if k = 0 then ({ b.work with pcount := 0, psw := setBit b.work.psw 45 false, pc := next }, [])
    else ({ b.work with pcount := k, pc := old.pc }, c.rep)
  else
    match b.acts.findSome? (fun a => match a with | .repeatBody ws => some ws | _ => none) with
    | some ws =>
      if old.pcount = 0 then ({ b.work with pc := next + BitVec.ofNat 64 (4 * ws.length) }, [])
      else ({ b.work with pc := next, psw := setBit b.work.psw 45 true }, ws)
    | none => ({ b.work with pc := b.target.getD next }, [])

/-- A bundle completes (R51, R152): its registers are written together, its acts are done, a trap is entered. -/
def completeBundle (s : State) (n : Nat) (b : OpenBundle) : State :=
  let c := getCore s n
  let old := c.regs
  let (r, body) := nextRegs c b
  let wasW := old.w
  let near := c.near
  let near := if !(old.psw.bit 40) && r.psw.bit 40 then { near with streams := [] } else near
  let near := if !wasW && r.w then { near with frozen := some (nearCounts near) }
    else if wasW && !r.w then { near with frozen := none } else near
  let rsv := if wasW != r.w then none else match b.rsv with | some g => some (g.1, g.2.1) | none => (getCore s n).rsv
  let s := updCore s n (fun c => { c with
    regs := r, bundle := none, rep := body, rsv := rsv, waiting := false, near := near
    repFirst := r.psw.bit 45 && !(old.psw.bit 45) && body != [] })
  let s := noteRetries s n
  let s := countDeferral s n b old.pc
  let s := match b.rsv with
    | some g => updCore (endDeferral s n) n (fun c => { c with defer := some ⟨g.2.2, 16, []⟩ })
    | none => s
  let s := b.acts.foldl (fun s a => actNow s n a) s
  let resumed := r.psw.bit 45 && !(old.psw.bit 45) && body == []
  let s := if resumed then resumeRepeat s n else s
  match b.trap with
  | some e => enterException s n e (getCore s n).regs.pc
  | none => s

/-- The granule of a reservation covers an address (R112). -/
def rsvHolds (rsv : Option (Nat × Nat)) (a : Word) : Bool :=
  match rsv with
  | some (base, k) => decide (base ≤ a.toNat ∧ a.toNat < base + k)
  | none => false

/-- Is a late access a store? -/
def isStore : Late → Bool
  | .store _ => true
  | _ => false

/-- May a late access change what a strict device or memory holds (a strict access, a store that is conditional)? -/
def mayWrite : Late → Bool
  | .redo _ _ strict => strict
  | _ => true

/-- The order in which a whole bundle makes its accesses. Its stores enter the store buffer last, when nothing of the
bundle can fail any more, unless a strict-device read or a STCND, for which older stores must have left, takes part (R152,
R206, R209; log entry 218). -/
def orderLate (l : List Late) : List Late :=
  let rest := l.filter (fun x => !isStore x)
  if rest.any mayWrite then l else rest ++ l.filter isStore

/-- Make the accesses of a whole bundle in order (R96, R112, R153, R206, R209), then complete it. An access that must wait
leaves the rest in place; the bundle is offered again. An access that fails raises its exception. Where the record of an
access stops the core (R454, R521, R522), its bundle is gone. -/
def lateSteps : List Late → State → Nat → OpenBundle → State
  | [], s, n, b =>
    let c := getCore s n
    if b.acts.contains .scrubNear ∧ c.buf ≠ [] then updCore s n (fun c => { c with bundle := some { b with late := [] } })
    else completeBundle s n { b with late := [] }
  | .store e :: t, s, n, b =>
    lateSteps t (updCore s n (fun c => { c with buf := c.buf ++ [e] })) n { b with seen := deviceMark :: b.seen }
  | .redo i own strict :: t, s, n, b =>
    let mine := (own.filter (fun e => t.contains (.store e))).map Late.store
    let (x, s) := lateEff i s (getCore s n).regs { b with late := mine }
    if (getCore s n).bundle.isNone then s
    else if x.ran = false then updCore s n (fun c => { c with bundle := some { x.b with late := .redo i own strict :: t } })
    else
      match pickExc x.b.faults with
      | some e => raiseBundle s n e
      | none => lateSteps t s n { x.b with late := b.late }
  | .cond a data k zone world bnd after room :: t, s, n, b =>
    let c := getCore s n
    let rsv := if after then b.rsv.map (fun g => (g.1, g.2.1)) else c.rsv
    let hold := fun (s : State) =>
      updCore s n (fun c => { c with bundle := some { b with late := .cond a data k zone world bnd after room :: t } })
    let decide' := fun (s : State) (ok : Bool) =>
      let s := endDeferral (updCore s n (fun c => { c with rsv := none })) n
      let work := { b.work with psw := setBit b.work.psw 2 ok }
      lateSteps t s n { b with work := work, faults := [], rsv := if after then none else b.rsv, seen := deviceMark :: b.seen }
    if fenceWaits c 2 ∨ c.near.cleaning then hold s
    else if rsvHolds rsv a = false ∨ b.faults ≠ [] then decide' s false
    else if c.near.blocked.isSome then hold s
    else
      match ownKind s n (globalLine a) world with
      | none => decide' (storeCond s n a (leBytes k data.toNat) bnd) true
      | some kind => hold (askOwn s n (globalLine a) kind zone world bnd false (some ⟨0, 0x21, 0, 0, 0⟩) room)

/-- Whether a doorbell for the core's vcore is pending (R118). -/
def bellPending (s : State) (n : Nat) : Bool :=
  (getCore s n).irq || (match vcoreOn s n with | some (z, v) => (getVcore s z v).db | none => false)

/-- A whole bundle goes on as far as it can: the store buffer takes its stores where there is room for them, or where it
is empty (R181); a WAIT waits for a doorbell (R118). -/
def proceed (s : State) (n : Nat) : State :=
  match (getCore s n).bundle with
  | none => s
  | some b =>
    let c := getCore s n
    if b.phase = 2 then lateSteps b.late s n b
    else if b.phase = 0 then s
    else if storesOf b ≠ [] ∧ 32 < c.buf.length + (storesOf b).length ∧ c.buf ≠ [] then s
    else if b.acts.contains .wait ∧ bellPending s n = false then updCore s n (fun c => { c with waiting := true })
    else
      let b := { b with phase := 2, late := orderLate b.late }
      lateSteps b.late (updCore s n (fun c => { c with bundle := some b })) n b

/-- The last syllable has come, or a sixth without a stop (R82, R94): the bundle raises the exception that R82 selects,
or is whole. A repeated bundle then waits for the end of its iteration. -/
def endBundle (s : State) (n : Nat) (b : OpenBundle) (stopped : Bool) : State :=
  let r := (getCore s n).regs
  match bundleBad b.syls stopped with
  | some (d, u) => raiseBundle s n ⟨u, 0x12, d, 0, r.pc⟩
  | none =>
    match pickExc b.faults with
    | some e => raiseBundle s n e
    | none =>
      let s := updCore s n (fun c => { c with bundle := some { b with phase := 1 } })
      if r.psw.bit 45 then s else proceed s n

/-- Run one syllable: `f` reads the registers as they stood before the bundle and adds its results and accesses to the
bundle, or waits. A syllable that breaks an operand rule raises 0x10 (R93), one that cannot be fetched
0x01 (R97). Where the record of an access stops the core (R454, R521, R522), its bundle is gone. -/
def runSyl (s : State) (sl : Slot) (fits : FUnit → Bool) (i : Instr)
    (f : State → CoreRegs → OpenBundle → SylRes × State) : State :=
  let n := sl.core
  let c := getCore s n
  if canRun s n = false ∨ fits sl.unit = false then s
  else
    let b := c.bundle.getD (freshBundle c)
    if b.phase ≠ 0 then (if sl.last ∧ c.regs.psw.bit 45 = false then proceed s n else s)
    else if fetchable c.regs b = false then raiseBundle s n ⟨7, 0x01, 0, 13, fetchEnd c.regs⟩
    else
      let (r, s) := match lowest (operandBad i) with
        | some d => (SylRes.mk true (b.addFault ⟨unitNum sl.unit, 0x10, d, 0, 0⟩), s)
        | none => f s c.regs b
      let info := (sylInfo i).getD ⟨sl.unit, [], false, false, false⟩
      if c.run && !(getCore s n).run then s
      else if r.ran then
        let b := { r.b with syls := r.b.syls ++ [info], held := none }
        if sl.last ∨ 6 ≤ b.syls.length then endBundle s n b sl.last
        else updCore s n (fun c => { c with bundle := some b })
      else updCore s n (fun c => { c with bundle := some { r.b with held := some (info, sl.last) } })

/-- A syllable that only computes: `f old work` gives the registers after it. -/
def regSyl (s : State) (sl : Slot) (fits : FUnit → Bool) (i : Instr) (f : CoreRegs → CoreRegs → CoreRegs) : State :=
  runSyl s sl fits i (fun s r b => (⟨true, { b with work := f r b.work }⟩, s))

end Sys2Proof.Machine
end

