-- ==== Sys2Proof/Machine/Float.lean ====
section
/-! DEFINITION. Binary floating point (R123 to R126, R134 to R141): values as exact integers times powers of two, rounded
once into a format. -/

namespace Sys2Proof.Machine

/-- A binary format: precision in bits, largest exponent, width in bits (R134). -/
structure FloatFmt where
  p : Nat
  emax : Nat
  width : Nat
  deriving DecidableEq, Repr

def floatFmt : Fmt → FloatFmt
  | .b32 => ⟨24, 127, 32⟩
  | .b64 => ⟨53, 1023, 64⟩
  | .b128 => ⟨113, 16383, 128⟩

/-- A floating-point datum; a finite value is (-1)^neg × m × 2^e. -/
inductive FVal where
  | nan (signalling : Bool)
  | inf (neg : Bool)
  | fin (neg : Bool) (m : Nat) (e : Int)
  deriving DecidableEq, Repr

/-- The flags of fcsr that an operation raises (R56). -/
structure FFlags where
  nv : Bool
  dzf : Bool
  of : Bool
  uf : Bool
  nx : Bool
  deriving DecidableEq, Repr

def noFlags : FFlags := ⟨false, false, false, false, false⟩
def nvFlag : FFlags := { noFlags with nv := true }

/-- The sticky bits of fcsr, set by OR (R56). -/
def raiseFlags (fcsr : Word) (f : FFlags) : Word :=
  fcsr ||| BitVec.ofNat 64 (f.nv.toNat * 256 + f.dzf.toNat * 128 + f.of.toNat * 64 + f.uf.toNat * 32 + f.nx.toNat * 16)

/-- The value that bits encode (R134, R135). -/
def decodeFloat (t : FloatFmt) (bits : Nat) : FVal :=
  let frac := bits % 2 ^ (t.p - 1)
  let ex := bits / 2 ^ (t.p - 1) % (2 * t.emax + 2)
  let neg := decide (2 ^ (t.width - 1) ≤ bits)
  let emin : Int := 1 - (t.emax : Int) - ((t.p : Int) - 1)
  if ex = 2 * t.emax + 1 then
    if frac = 0 then .inf neg else .nan (decide (frac < 2 ^ (t.p - 2)))
  else if ex = 0 then .fin neg frac emin
  else .fin neg (frac + 2 ^ (t.p - 1)) (emin + (ex : Int) - 1)

def signBit (t : FloatFmt) (neg : Bool) : Nat := if neg then 2 ^ (t.width - 1) else 0

/-- The canonical NaN of a format (R135). -/
def canonNan (t : FloatFmt) : Nat := (2 * t.emax + 1) * 2 ^ (t.p - 1) + 2 ^ (t.p - 2)

def infBits (t : FloatFmt) (neg : Bool) : Nat := signBit t neg + (2 * t.emax + 1) * 2 ^ (t.p - 1)

/-- The largest finite value M (R135). -/
def maxBits (t : FloatFmt) (neg : Bool) : Nat := infBits t neg - 1

def zeroBits (t : FloatFmt) (neg : Bool) : Nat := signBit t neg

/-- Whether a truncated magnitude is rounded up: `q` kept, `rem` of `2^sh` dropped (R56). -/
def roundsUp (rm : Nat) (neg : Bool) (q rem sh : Nat) : Bool :=
  if rem = 0 then false
  else
    match rm with
    | 0 => decide (2 ^ sh < 2 * rem ∨ (2 * rem = 2 ^ sh ∧ q % 2 = 1))
    | 1 => false
    | 2 => !neg
    | 3 => neg
    | _ => decide (2 ^ sh ≤ 2 * rem)

/-- m × 2^e as a multiple of 2^qe, rounded, and whether that was inexact. -/
def quantize (rm : Nat) (neg : Bool) (m : Nat) (e qe : Int) : Nat × Bool :=
  if qe ≤ e then (m * 2 ^ (e - qe).toNat, false)
  else
    let sh := (qe - e).toNat
    let q := m / 2 ^ sh
    let r := m % 2 ^ sh
    (if roundsUp rm neg q r sh then q + 1 else q, r != 0)

/-- The result on overflow (R137). -/
def overflowBits (t : FloatFmt) (rm : Nat) (neg : Bool) : Nat :=
  let toInf := match rm with | 0 => true | 4 => true | 2 => !neg | 3 => neg | _ => false
  if toInf then infBits t neg else maxBits t neg

/-- A non-zero exact value rounded into a format, with its flags: tininess after rounding, underflow only where the
result is tiny and inexact (R134, R137). -/
def roundFloat (t : FloatFmt) (rm : Nat) (neg : Bool) (m : Nat) (e : Int) : Nat × FFlags :=
  let p : Int := t.p
  let emin : Int := 1 - (t.emax : Int)
  let lead : Int := e + (Nat.log2 m : Int)
  let qe : Int := max (lead - (p - 1)) (emin - (p - 1))
  let (q, inexact) := quantize rm neg m e qe
  let free := (quantize rm neg m e (lead - (p - 1))).1
  let leadFree : Int := if free = 2 ^ t.p then lead + 1 else lead
  let tiny := decide (leadFree < emin)
  let (q, qe) := if q = 2 ^ t.p then (2 ^ (t.p - 1), qe + 1) else (q, qe)
  if 2 ^ (t.p - 1) ≤ q ∧ (t.emax : Int) < qe + (p - 1) then
    (overflowBits t rm neg, { noFlags with of := true, nx := true })
  else
    let fl := { noFlags with nx := inexact, uf := tiny && inexact }
    if q < 2 ^ (t.p - 1) then (signBit t neg + q, fl)
    else
      let ex := (qe + (p - 1) + (t.emax : Int)).toNat
      (signBit t neg + ex * 2 ^ (t.p - 1) + (q - 2 ^ (t.p - 1)), fl)

/-- A value that may be zero, with the sign that a zero takes. -/
def roundOrZero (t : FloatFmt) (rm : Nat) (neg : Bool) (m : Nat) (e : Int) (zneg : Bool) : Nat × FFlags :=
  if m = 0 then (zeroBits t zneg, noFlags) else roundFloat t rm neg m e

def FVal.isNan : FVal → Bool | .nan _ => true | _ => false
def FVal.isSnan : FVal → Bool | .nan s => s | _ => false

/-- The exact sum of two finite values, rounded; a zero sum of opposite signs is +0, or -0 under rm 3 (R136). -/
def addFin (t : FloatFmt) (rm : Nat) (n1 : Bool) (m1 : Nat) (e1 : Int) (n2 : Bool) (m2 : Nat) (e2 : Int) :
    Nat × FFlags :=
  let e := if m1 = 0 then e2 else if m2 = 0 then e1 else min e1 e2
  let a : Int := if m1 = 0 then 0 else (m1 * 2 ^ (e1 - e).toNat : Nat)
  let b : Int := if m2 = 0 then 0 else (m2 * 2 ^ (e2 - e).toNat : Nat)
  let x : Int := (if n1 then -a else a) + (if n2 then -b else b)
  let zneg := if n1 = n2 then n1 else decide (rm = 3)
  roundOrZero t rm (decide (x < 0)) x.natAbs e zneg

/-- a × b + c with one rounding; for FADD the product is a × 1 (R122, R130, R136). -/
def fusedAdd (t : FloatFmt) (rm : Nat) (a b c : FVal) : Nat × FFlags :=
  let snan := a.isSnan || b.isSnan || c.isSnan
  let zeroInf := match a, b with
    | .inf _, .fin _ 0 _ => true
    | .fin _ 0 _, .inf _ => true
    | _, _ => false
  if snan || zeroInf then (canonNan t, nvFlag)
  else if a.isNan || b.isNan || c.isNan then (canonNan t, noFlags)
  else
    let sign : FVal → Bool := fun v => match v with | .inf n => n | .fin n _ _ => n | .nan _ => false
    let neg := sign a != sign b
    match a, b, c with
    | .fin _ m1 e1, .fin _ m2 e2, .fin n3 m3 e3 => addFin t rm neg (m1 * m2) (e1 + e2) n3 m3 e3
    | .fin _ _ _, .fin _ _ _, .inf n => (infBits t n, noFlags)
    | _, _, .inf n => if n = neg then (infBits t n, noFlags) else (canonNan t, nvFlag)
    | _, _, _ => (infBits t neg, noFlags)

/-- The sign of a datum reversed; a NaN stays. -/
def FVal.negate : FVal → FVal
  | .nan s => .nan s
  | .inf n => .inf (!n)
  | .fin n m e => .fin (!n) m e

def oneVal : FVal := .fin false 1 0

def floatAdd (t : FloatFmt) (rm : Nat) (a b : FVal) : Nat × FFlags := fusedAdd t rm a oneVal b
def floatSub (t : FloatFmt) (rm : Nat) (a b : FVal) : Nat × FFlags := fusedAdd t rm a oneVal b.negate

/-- FMUL: a zero product has the product's sign. -/
def floatMul (t : FloatFmt) (rm : Nat) (a b : FVal) : Nat × FFlags :=
  match a, b with
  | .fin n1 m1 e1, .fin n2 m2 e2 => roundOrZero t rm (n1 != n2) (m1 * m2) (e1 + e2) (n1 != n2)
  | _, _ => fusedAdd t rm a b (.fin false 0 0)

/-- FDIV (R136): a quotient with two bits more than any rounding needs, and a sticky bit. -/
def floatDiv (t : FloatFmt) (rm : Nat) (a b : FVal) : Nat × FFlags :=
  if a.isSnan || b.isSnan then (canonNan t, nvFlag)
  else
    match a, b with
    | .nan _, _ => (canonNan t, noFlags)
    | _, .nan _ => (canonNan t, noFlags)
    | .inf _, .inf _ => (canonNan t, nvFlag)
    | .inf n1, .fin n2 _ _ => (infBits t (n1 != n2), noFlags)
    | .fin n1 _ _, .inf n2 => (zeroBits t (n1 != n2), noFlags)
    | .fin n1 m1 e1, .fin n2 m2 e2 =>
      let neg := n1 != n2
      if m2 = 0 then
        if m1 = 0 then (canonNan t, nvFlag) else (infBits t neg, { noFlags with dzf := true })
      else if m1 = 0 then (zeroBits t neg, noFlags)
      else
        let k := 2 * t.p + 4
        let x := m1 * 2 ^ k
        roundFloat t rm neg (2 * (x / m2) + (if x % m2 = 0 then 0 else 1)) (e1 - e2 - (k : Int) - 1)

/-- The integer square root, bit by bit from bit `k`. -/
def isqrt : Nat → Nat → Nat → Nat
  | 0, _, r => r
  | k + 1, x, r => let c := r + 2 ^ k; isqrt k x (if c * c ≤ x then c else r)

/-- FSQRT (R136). -/
def floatSqrt (t : FloatFmt) (rm : Nat) (a : FVal) : Nat × FFlags :=
  match a with
  | .nan s => (canonNan t, if s then nvFlag else noFlags)
  | .inf n => if n then (canonNan t, nvFlag) else (infBits t false, noFlags)
  | .fin n m e =>
    if m = 0 then (zeroBits t n, noFlags)
    else if n then (canonNan t, nvFlag)
    else
      let k := 2 * t.p + 4 + (if (e - (2 * t.p + 4 : Nat)) % 2 = 0 then 0 else 1)
      let x := m * 2 ^ k
      let r := isqrt (2 * t.p + 6) x 0
      roundFloat t rm false (2 * r + (if r * r = x then 0 else 1)) ((e - (k : Int)) / 2 - 1)

/-- How two values compare: -1, 0, 1, or none where unordered. -/
def floatOrd (a b : FVal) : Option Int :=
  match a, b with
  | .nan _, _ => none
  | _, .nan _ => none
  | .inf n1, .inf n2 => some (if n1 = n2 then 0 else if n1 then -1 else 1)
  | .inf n, .fin _ _ _ => some (if n then -1 else 1)
  | .fin _ _ _, .inf n => some (if n then 1 else -1)
  | .fin n1 m1 e1, .fin n2 m2 e2 =>
    let e := min e1 e2
    let x : Int := (m1 * 2 ^ (e1 - e).toNat : Nat)
    let y : Int := (m2 * 2 ^ (e2 - e).toNat : Nat)
    let d := (if n1 then -x else x) - (if n2 then -y else y)
    some (if d < 0 then -1 else if d = 0 then 0 else 1)

/-- FMIN and FMAX choose between the operands' own bits: -0 below +0; one NaN gives the other operand, two the canonical
NaN (R124, R135). -/
def floatMinMax (t : FloatFmt) (isMax : Bool) (x y : Nat) : Nat × FFlags :=
  let a := decodeFloat t x
  let b := decodeFloat t y
  let fl := if a.isSnan || b.isSnan then nvFlag else noFlags
  match a.isNan, b.isNan with
  | true, true => (canonNan t, fl)
  | true, false => (y, fl)
  | false, true => (x, fl)
  | false, false =>
    let aLess := match floatOrd a b with
      | some o => decide (o < 0) || (o == 0 && decide (2 ^ (t.width - 1) ≤ x))
      | none => false
    (if aLess != isMax then x else y, fl)

/-- FCVT between formats (R126, R135). -/
def floatCvt (t : FloatFmt) (rm : Nat) (a : FVal) : Nat × FFlags :=
  match a with
  | .nan s => (canonNan t, if s then nvFlag else noFlags)
  | .inf n => (infBits t n, noFlags)
  | .fin n m e => roundOrZero t rm n m e n

/-- A 64-bit integer to a float (R126). -/
def intToFloat (t : FloatFmt) (rm : Nat) (x : Int) : Nat × FFlags :=
  roundOrZero t rm (decide (x < 0)) x.natAbs 0 false

/-- A float to a signed or unsigned 64-bit integer (R141). -/
def floatToInt (rm : Nat) (signed : Bool) (a : FVal) : Word × FFlags :=
  let lo : Int := if signed then -(2 ^ 63) else 0
  let hi : Int := if signed then 2 ^ 63 - 1 else 2 ^ 64 - 1
  match a with
  | .nan _ => (0, nvFlag)
  | .inf n => (BitVec.ofInt 64 (if n then lo else hi), nvFlag)
  | .fin n m e =>
    let (q, inexact) := quantize rm n m e 0
    let x : Int := if n then -(q : Int) else q
    if x < lo then (BitVec.ofInt 64 lo, nvFlag)
    else if hi < x then (BitVec.ofInt 64 hi, nvFlag)
    else (BitVec.ofInt 64 x, { noFlags with nx := inexact })

end Sys2Proof.Machine
end

