-- ==== Sys2Proof/Machine/Packed.lean ====
section
/-! DEFINITION. Packed decimal (R127, R142 to R146). -/

namespace Sys2Proof.Machine

/-- Nibble `i` of a value. -/
def nibble (x i : Nat) : Nat := x / 16 ^ i % 16

/-- The digits' value: digit i in nibble i + 1 (R142). -/
def digitsVal (x n : Nat) : Nat := (List.range n).foldl (fun a i => a + nibble x (i + 1) * 10 ^ i) 0

/-- A decimal operand of `n` digits: its value, or the detail bits of an invalid one, [4] for the sign (R143). -/
def decodeDec (x n : Nat) : Except Nat Int :=
  if nibble x 0 < 10 then .error 16
  else if (List.range n).any (fun i => decide (9 < nibble x (i + 1))) then .error 0
  else if nibble x 0 = 0xB ∨ nibble x 0 = 0xD then .ok (-(digitsVal x n : Int))
  else .ok (digitsVal x n : Int)

/-- Digits of a number, as nibbles above the sign. -/
def packDigits (n v : Nat) : Nat := (List.range n).foldl (fun a i => a + v / 10 ^ i % 10 * 16 ^ (i + 1)) 0

/-- What a decimal operation writes: the low 31 digits with the sign of the exact result, 0xC for zero; whether it
overflowed; and the value written (R144, R145). -/
def encodeDec (x : Int) : BitVec 128 × Bool × Int :=
  let low := x.natAbs % 10 ^ 31
  let neg := decide (x < 0 ∧ low ≠ 0)
  (BitVec.ofNat 128 (packDigits 31 low + (if neg then 0xD else 0xC)), decide (10 ^ 31 ≤ x.natAbs),
    if neg then -(low : Int) else low)

/-- Operands in order, the first invalid one reported by its number (R143). -/
def decodeAll : Nat → List (Nat × Nat) → Except Nat (List Int)
  | _, [] => .ok []
  | k, (x, n) :: t =>
    match decodeDec x n with
    | .error d => .error (d + k)
    | .ok v => match decodeAll (k + 1) t with
      | .error d => .error d
      | .ok l => .ok (v :: l)

end Sys2Proof.Machine
end

