-- ==== Sys2Proof/Machine/CoreFloat.lean ====
section
/-! DEFINITION. The meanings of floating-point, decimal and accumulator syllables (R122 to R130, R134 to R146). -/

namespace Sys2Proof.Machine

def unitF (u : FUnit) : Bool := u == .f

/-! ## Operands (R123, R127) -/

/-- A 16-byte operand in an even register and the next. -/
def pairBits (r : CoreRegs) (a : Reg) : Nat := (r.getG a.toNat).toNat + (r.getG (a.toNat + 1)).toNat * 2 ^ 64

/-- An operand of a format. -/
def fmtBits (r : CoreRegs) (t : Fmt) (a : Reg) : Nat :=
  match t with
  | .b32 => (r.getG a.toNat).toNat % 2 ^ 32
  | .b64 => (r.getG a.toNat).toNat
  | .b128 => pairBits r a

def fmtVal (r : CoreRegs) (t : Fmt) (a : Reg) : FVal := decodeFloat (floatFmt t) (fmtBits r t a)

/-- Write 16 bytes into an even register and the next. -/
def putPair (w : CoreRegs) (d : Reg) (v : Nat) : CoreRegs :=
  (w.setG d.toNat (BitVec.ofNat 64 v)).setG (d.toNat + 1) (BitVec.ofNat 64 (v / 2 ^ 64))

/-- Write a result of a format; binary32 is zero-extended. -/
def putFmt (w : CoreRegs) (t : Fmt) (d : Reg) (v : Nat) : CoreRegs :=
  if t = .b128 then putPair w d v else w.setG d.toNat (BitVec.ofNat 64 v)

/-- The rounding mode of fcsr (R56). -/
def roundMode (r : CoreRegs) : Nat := r.fcsr.field 2 0

/-- A binary operation: its result in gd, its sticky flags in fcsr. -/
def fltSyl (s : State) (sl : Slot) (i : Instr) (t : Fmt) (d : Reg) (op : CoreRegs → Nat × FFlags) : State :=
  regSyl s sl unitF i (fun r w =>
    let (v, fl) := op r
    { putFmt w t d v with fcsr := raiseFlags w.fcsr fl })

/-- FADD (R122, R134 to R138). -/
def execFadd (sl : Slot) (fmt : Fmt) (d a b : Reg) (s : State) : Out :=
  .next (fltSyl s sl (.fadd sl fmt d a b) fmt d (fun r =>
    floatAdd (floatFmt fmt) (roundMode r) (fmtVal r fmt a) (fmtVal r fmt b)))

/-- FSUB (R122, R134 to R138). -/
def execFsub (sl : Slot) (fmt : Fmt) (d a b : Reg) (s : State) : Out :=
  .next (fltSyl s sl (.fsub sl fmt d a b) fmt d (fun r =>
    floatSub (floatFmt fmt) (roundMode r) (fmtVal r fmt a) (fmtVal r fmt b)))

/-- FMUL (R122, R134 to R138). -/
def execFmul (sl : Slot) (fmt : Fmt) (d a b : Reg) (s : State) : Out :=
  .next (fltSyl s sl (.fmul sl fmt d a b) fmt d (fun r =>
    floatMul (floatFmt fmt) (roundMode r) (fmtVal r fmt a) (fmtVal r fmt b)))

/-- FDIV (R122, R134 to R138). -/
def execFdiv (sl : Slot) (fmt : Fmt) (d a b : Reg) (s : State) : Out :=
  .next (fltSyl s sl (.fdiv sl fmt d a b) fmt d (fun r =>
    floatDiv (floatFmt fmt) (roundMode r) (fmtVal r fmt a) (fmtVal r fmt b)))

/-- FSQRT (R122, R136). -/
def execFsqrt (sl : Slot) (fmt : Fmt) (d a : Reg) (s : State) : Out :=
  .next (fltSyl s sl (.fsqrt sl fmt d a) fmt d (fun r => floatSqrt (floatFmt fmt) (roundMode r) (fmtVal r fmt a)))

/-- FMIN (R124, R135). -/
def execFmin (sl : Slot) (fmt : Fmt) (d a b : Reg) (s : State) : Out :=
  .next (fltSyl s sl (.fmin sl fmt d a b) fmt d (fun r =>
    floatMinMax (floatFmt fmt) false (fmtBits r fmt a) (fmtBits r fmt b)))

/-- FMAX (R124, R135). -/
def execFmax (sl : Slot) (fmt : Fmt) (d a b : Reg) (s : State) : Out :=
  .next (fltSyl s sl (.fmax sl fmt d a b) fmt d (fun r =>
    floatMinMax (floatFmt fmt) true (fmtBits r fmt a) (fmtBits r fmt b)))

/-- The flags of FCMP (R125). -/
def fcmpFlags (psw : Word) (o : Option Int) : Word :=
  match o with
  | none => setFlags psw false false true true
  | some x => setFlags psw (decide (x < 0)) (x == 0) (decide (0 ≤ x)) false

/-- FCMP: flags only; nv for a signalling NaN (R125). -/
def execFcmp (sl : Slot) (fmt : Fmt) (a b : Reg) (s : State) : Out :=
  .next (regSyl s sl unitF (.fcmp sl fmt a b) (fun r w =>
    let x := fmtVal r fmt a
    let y := fmtVal r fmt b
    let fl := if x.isSnan || y.isSnan then nvFlag else noFlags
    { w with psw := fcmpFlags w.psw (floatOrd x y), fcsr := raiseFlags w.fcsr fl }))

/-- FMA: gd := ga × gb + gd (R122). -/
def execFma (sl : Slot) (fmt : Fmt) (d a b : Reg) (s : State) : Out :=
  .next (fltSyl s sl (.fma sl fmt d a b) fmt d (fun r =>
    fusedAdd (floatFmt fmt) (roundMode r) (fmtVal r fmt a) (fmtVal r fmt b) (fmtVal r fmt d)))

/-- FMS: gd := ga × gb - gd (R122). -/
def execFms (sl : Slot) (fmt : Fmt) (d a b : Reg) (s : State) : Out :=
  .next (fltSyl s sl (.fms sl fmt d a b) fmt d (fun r =>
    fusedAdd (floatFmt fmt) (roundMode r) (fmtVal r fmt a) (fmtVal r fmt b) (fmtVal r fmt d).negate))

/-- FNMA: gd := -(ga × gb) + gd (R122). -/
def execFnma (sl : Slot) (fmt : Fmt) (d a b : Reg) (s : State) : Out :=
  .next (fltSyl s sl (.fnma sl fmt d a b) fmt d (fun r =>
    fusedAdd (floatFmt fmt) (roundMode r) (fmtVal r fmt a).negate (fmtVal r fmt b) (fmtVal r fmt d)))

/-- A format by its field (R123). -/
def fmtField (x : BitVec 2) : Fmt := match x.toNat with | 0 => .b32 | 1 => .b64 | _ => .b128

/-- FCVT to an integer of kind 3 to 6 (R126, R141). -/
def cvtToInt (s : State) (sl : Slot) (i : Instr) (d a : Reg) (sf : BitVec 2) (signed toZero : Bool) : State :=
  fltSyl s sl i .b64 d (fun r =>
    let x := floatToInt (if toZero then 1 else roundMode r) signed (fmtVal r (fmtField sf) a)
    (x.1.toNat, x.2))

/-- FCVT (R126, R140, R141). -/
def execFcvt (sl : Slot) (kind : BitVec 4) (sf df : BitVec 2) (d a : Reg) (s : State) : Out :=
  .next (
    let i := Instr.fcvt sl kind sf df d a
    let src := fun (r : CoreRegs) => fmtVal r (fmtField sf) a
    let t := floatFmt (fmtField df)
    match kind.toNat with
    | 0 => fltSyl s sl i (fmtField df) d (fun r => floatCvt t (roundMode r) (src r))
    | 1 => fltSyl s sl i (fmtField df) d (fun r => intToFloat t (roundMode r) (r.getG a.toNat).toInt)
    | 2 => fltSyl s sl i (fmtField df) d (fun r => intToFloat t (roundMode r) ((r.getG a.toNat).toNat : Int))
    | 3 => cvtToInt s sl i d a sf true false
    | 4 => cvtToInt s sl i d a sf false false
    | 5 => cvtToInt s sl i d a sf true true
    | _ => cvtToInt s sl i d a sf false true)

/-! ## Decimal (R127, R142 to R145) -/

/-- A decimal syllable: the data exception where an operand is invalid (R143), else its effect. -/
def decSyl (s : State) (sl : Slot) (i : Instr) (ops : CoreRegs → List (Nat × Nat))
    (f : List Int → CoreRegs → CoreRegs) : State :=
  runSyl s sl unitF i (fun s r b =>
    match decodeAll 1 (ops r) with
    | .error d => (⟨true, b.addFault ⟨5, 0x07, d, 0, 0⟩⟩, s)
    | .ok vs => (⟨true, { b with work := f vs b.work }⟩, s))

/-- The sum of DADD and DSUB with its flags (R127, R145). -/
def decSum (d : Reg) (x : Int) (w : CoreRegs) : CoreRegs :=
  let e := encodeDec x
  { putPair w d e.1.toNat with psw := setFlags w.psw (decide (e.2.2 < 0)) (e.2.2 == 0) false e.2.1 }

/-- DADD (R127, R145). -/
def execDadd (sl : Slot) (d a b : Reg) (s : State) : Out :=
  .next (decSyl s sl (.dadd sl d a b) (fun r => [(pairBits r a, 31), (pairBits r b, 31)]) (fun vs w =>
    decSum d (vs.getD 0 0 + vs.getD 1 0) w))

/-- DSUB (R127, R145). -/
def execDsub (sl : Slot) (d a b : Reg) (s : State) : Out :=
  .next (decSyl s sl (.dsub sl d a b) (fun r => [(pairBits r a, 31), (pairBits r b, 31)]) (fun vs w =>
    decSum d (vs.getD 0 0 - vs.getD 1 0) w))

/-- DCMP: n for a < b, z for a = b, c for a ≥ b, v := 0 (R127). -/
def execDcmp (sl : Slot) (a b : Reg) (s : State) : Out :=
  .next (decSyl s sl (.dcmp sl a b) (fun r => [(pairBits r a, 31), (pairBits r b, 31)]) (fun vs w =>
    let x := vs.getD 0 0
    let y := vs.getD 1 0
    { w with psw := setFlags w.psw (decide (x < y)) (x == y) (decide (y ≤ x)) false }))

/-- DTOI: the value modulo 2^64, v where it lies outside the signed range (R127). -/
def execDtoi (sl : Slot) (d a : Reg) (s : State) : Out :=
  .next (decSyl s sl (.dtoi sl d a) (fun r => [(pairBits r a, 31)]) (fun vs w =>
    let x := vs.getD 0 0
    let v : Word := BitVec.ofInt 64 x
    { w.setG d.toNat v with psw := setFlags w.psw (v.bit 63) (v == 0) false (outOfRange x) }))

/-- ITOD: the exact value; no flag (R127, R144). -/
def execItod (sl : Slot) (d a : Reg) (s : State) : Out :=
  .next (regSyl s sl unitF (.itod sl d a) (fun r w => putPair w d (encodeDec (r.getG a.toNat).toInt).1.toNat))

/-! ## Accumulators (R128) -/

/-- ACCCLR (R128). -/
def execAccclr (sl : Slot) (acc : BitVec 2) (s : State) : Out :=
  .next (regSyl s sl unitF (.accclr sl acc) (fun _ w => w.setAcc acc.toNat 0))

/-- ACCRD (R128). -/
def execAccrd (sl : Slot) (acc : BitVec 2) (g : Reg) (s : State) : Out :=
  .next (regSyl s sl unitF (.accrd sl acc g) (fun r w => putPair w g (r.getAcc acc.toNat).toNat))

/-- ACCWR (R128). -/
def execAccwr (sl : Slot) (acc : BitVec 2) (g : Reg) (s : State) : Out :=
  .next (regSyl s sl unitF (.accwr sl acc g) (fun r w => w.setAcc acc.toNat (BitVec.ofNat 128 (pairBits r g))))

/-- ACCRND: the accumulator read as binary128, rounded to binary64 (R128, R141). -/
def execAccrnd (sl : Slot) (acc : BitVec 2) (g : Reg) (s : State) : Out :=
  .next (fltSyl s sl (.accrnd sl acc g) .b64 g (fun r =>
    floatCvt (floatFmt .b64) (roundMode r) (decodeFloat (floatFmt .b128) (r.getAcc acc.toNat).toNat)))

/-! ## MACM (R129, R130, R146) -/

/-- The accumulator after a MACM of a variant, and the flags it sets; or the detail of a data exception. -/
def macmAcc (var : Nat) (r w : CoreRegs) (acc : Nat) (x y : Word) : Except Nat CoreRegs :=
  let a := r.getAcc acc
  let setV := fun (w : CoreRegs) (v : Bool) => if v then { w with psw := setBit w.psw 0 true } else w
  match var with
  | 0 =>
    let t := a.toInt + x.toInt * y.toInt
    .ok (setV (w.setAcc acc (BitVec.ofInt 128 t)) (decide (t < -(2 ^ 127) ∨ 2 ^ 127 ≤ t)))
  | 1 =>
    let (v, fl) := fusedAdd (floatFmt .b128) (roundMode r) (decodeFloat (floatFmt .b64) x.toNat)
      (decodeFloat (floatFmt .b64) y.toNat) (decodeFloat (floatFmt .b128) a.toNat)
    .ok { w.setAcc acc (BitVec.ofNat 128 v) with fcsr := raiseFlags w.fcsr fl }
  | 2 =>
    match decodeAll 1 [(x.toNat, 15), (y.toNat, 15), (a.toNat, 31)] with
    | .error d => .error d
    | .ok vs =>
      let e := encodeDec (vs.getD 2 0 + vs.getD 0 0 * vs.getD 1 0)
      .ok (setV (w.setAcc acc e.1) e.2.1)
  | _ =>
    let t := a.toNat + x.toNat * y.toNat
    .ok (setV (w.setAcc acc (BitVec.ofNat 128 t)) (decide (2 ^ 128 ≤ t)))

end Sys2Proof.Machine
end

