-- ==== Sys2Proof/Machine/CoreMem.lean ====
section
/-! DEFINITION. The memory syllables' meanings, and MACM (R64 to R68, R107 to R115, R129, R130, R193 to R197, R205, R206,
R211). -/

namespace Sys2Proof.Machine

/-! ## Loads -/

/-- A load of a kind of R108. -/
def loadSyl (s : State) (m : MemOp) (i : Instr) (kind size : Nat) : State := runSyl s m.sl unitMem i (loadEff m i kind size)

/-- LDB (R108). -/
def execLdb (m : MemOp) (s : State) : Out := .next (loadSyl s m (.ldb m) 0 1)
/-- LDH (R108). -/
def execLdh (m : MemOp) (s : State) : Out := .next (loadSyl s m (.ldh m) 1 2)
/-- LDW (R108). -/
def execLdw (m : MemOp) (s : State) : Out := .next (loadSyl s m (.ldw m) 2 4)
/-- LDD (R108). -/
def execLdd (m : MemOp) (s : State) : Out := .next (loadSyl s m (.ldd m) 3 8)
/-- LDBS (R108). -/
def execLdbs (m : MemOp) (s : State) : Out := .next (loadSyl s m (.ldbs m) 4 1)
/-- LDHS (R108). -/
def execLdhs (m : MemOp) (s : State) : Out := .next (loadSyl s m (.ldhs m) 5 2)
/-- LDWS (R108). -/
def execLdws (m : MemOp) (s : State) : Out := .next (loadSyl s m (.ldws m) 6 4)
/-- LDA (R108). -/
def execLda (m : MemOp) (s : State) : Out := .next (loadSyl s m (.lda m) 7 16)
/-- LDP (R108). -/
def execLdp (m : MemOp) (s : State) : Out := .next (loadSyl s m (.ldp m) 13 16)

/-! ## Stores -/

/-- A store of a kind of R108: `v` reads its data, as it stood before the bundle. -/
def storeSyl (s : State) (m : MemOp) (i : Instr) (size : Nat) (v : CoreRegs → Nat) : State :=
  runSyl s m.sl unitMem i (fun s r b =>
    let n := m.sl.core
    let u := unitNum m.sl.unit
    let sg := m.s.toNat
    let d := r.getSeg sg
    let (o, back) := formOffset r m size
    match segFault r sg o size .store with
    | some (c, t) => (⟨true, b.addFault ⟨u, c, t, sg, o⟩⟩, s)
    | none =>
      if accessHeld (getCore s n) b then (⟨false, b⟩, s)
      else
        let (st, s) := issueCoreStamp (clearFence s n) n
        let b := baseBack b m back
        (⟨true, { b with late := b.late ++ (storeEntries r d (d.base + o) size (v r) st).map .store }⟩, s))

/-- STB (R108). -/
def execStb (m : MemOp) (s : State) : Out := .next (storeSyl s m (.stb m) 1 (fun r => (r.getG m.r.toNat).toNat))
/-- STH (R108). -/
def execSth (m : MemOp) (s : State) : Out := .next (storeSyl s m (.sth m) 2 (fun r => (r.getG m.r.toNat).toNat))
/-- STW (R108). -/
def execStw (m : MemOp) (s : State) : Out := .next (storeSyl s m (.stw m) 4 (fun r => (r.getG m.r.toNat).toNat))
/-- STD (R108). -/
def execStd (m : MemOp) (s : State) : Out := .next (storeSyl s m (.std m) 8 (fun r => (r.getG m.r.toNat).toNat))
/-- STA (R108). -/
def execSta (m : MemOp) (s : State) : Out := .next (storeSyl s m (.sta m) 16 (fun r => (r.getAcc (m.r.toNat % 4)).toNat))
/-- STP (R108). -/
def execStp (m : MemOp) (s : State) : Out := .next (storeSyl s m (.stp m) 16 (fun r => pairBits r m.r))

/-- PF: no access; dropped where a check fails, outside normal memory, and while the near cache is disabled; the base
write-back takes place in any case (R115, R187, R190). -/
def execPf (m : MemOp) (s : State) : Out :=
  .next (runSyl s m.sl unitMem (.pf m) (fun s r b =>
    let n := m.sl.core
    let sg := m.s.toNat
    let d := r.getSeg sg
    let (o, back) := formOffset r m 1
    let b := baseBack b m back
    if (segFault r sg o 1 .load).isSome ∨ d.typ ≠ 0 ∨ (getCore s n).near.enabled = false then (⟨true, b⟩, s)
    else (⟨true, b⟩, prefetchFor s n d (globalLine (d.base + o)))))

/-! ## Reservations (R112, R206, R211) -/

/-- LDRSV (R112, R155, R211, R213). -/
def execLdrsv (sl : Slot) (wide : Bool) (rd : Reg) (sgr : BitVec 4) (a : Reg) (s : State) : Out :=
  .next (runSyl s sl unitMem (.ldrsv sl wide rd sgr a) (ldrsvEff sl wide rd sgr a))

/-- STCND: the checks first; the store is decided when the bundle completes, after every older store (R112, R155,
R206). -/
def execStcnd (sl : Slot) (wide : Bool) (rd : Reg) (sgr : BitVec 4) (a : Reg) (s : State) : Out :=
  .next (runSyl s sl unitMem (.stcnd sl wide rd sgr a) (fun s r b =>
    let n := sl.core
    let u := unitNum sl.unit
    let sg := sgr.toNat
    let d := r.getSeg sg
    let o := baseVal r sgr a
    let size := if wide then 8 else 4
    match rsvFault r sg o size .store with
    | some (c, t) => (⟨true, b.addFault ⟨u, c, t, sg, o⟩⟩, s)
    | none =>
      if accessHeld (getCore s n) b then (⟨false, b⟩, s)
      else
        (⟨true, { b with late := b.late ++ [.cond (d.base + o) (r.getG rd.toNat) size r.zone r.w (d.bit 8) b.rsv.isSome (segRoom d)] }⟩,
          clearFence s n)))

/-! ## Fences (R113, R205) -/

/-- A fence: no younger access is made until what it waits for is done. One that empties write-combining buffers makes
them leave (R208). -/
def fenceSyl (s : State) (sl : Slot) (i : Instr) (kind : Nat) : State :=
  runSyl s sl unitMem i (fun s _ b =>
    (⟨true, { b with acts := b.acts ++ [.fence kind] }⟩, if 2 ≤ kind then leaveWc s sl.core else s))

/-- FENCE.SL (R205). -/
def execFenceSl (sl : Slot) (s : State) : Out := .next (fenceSyl s sl (.fenceSl sl) 1)
/-- FENCE.IO (R205). -/
def execFenceIo (sl : Slot) (s : State) : Out := .next (fenceSyl s sl (.fenceIo sl) 2)
/-- FENCE.FULL (R205). -/
def execFenceFull (sl : Slot) (s : State) : Out := .next (fenceSyl s sl (.fenceFull sl) 3)

/-! ## Segments (R61, R62, R111) -/

/-- LDSEG (R61, R62, R111). -/
def execLdseg (sl : Slot) (sgr : BitVec 4) (a : Reg) (s : State) : Out :=
  .next (runSyl s sl unitMem (.ldseg sl sgr a) (ldsegEff sl sgr a))

/-! ## Maintenance (R111, R114, R193 to R197) -/

/-- A CMAINT takes its place in the store buffer (R194). -/
def maintEntry (r : CoreRegs) (addr : Word) (m : Maint) : Late :=
  .store ⟨addr, 0, 0, 0, r.zone, r.w, false, 0, some m, (0, 0)⟩

/-- CMAINT by address: the limit check with size 1, r for clean and w for the others, privilege for invalidate (R111,
R114); without effect outside normal memory (R197). -/
def execCmaintByAddress (sl : Slot) (x : BitVec 2) (sgr : BitVec 4) (a : Reg) (s : State) : Out :=
  .next (runSyl s sl unitMem (.cmaintByAddress sl x sgr a) (fun s r b =>
    let u := unitNum sl.unit
    let sg := sgr.toNat
    let d := r.getSeg sg
    let o := baseVal r sgr a
    let b := if x = 1 ∧ r.priv = false then b.addFault ⟨u, 0x11, 0, 0, 0⟩ else b
    let bad : Option (Nat × Nat) :=
      if d.bit 8 && !r.w then some (0x13, 2)
      else if inLimit d o 1 && (if x = 0 then d.bit 2 else d.bit 3) then none
      else some (0x04, 0)
    match bad with
    | some (c, t) => (⟨true, b.addFault ⟨u, c, t, sg, o⟩⟩, s)
    | none =>
      if d.typ ≠ 0 then (⟨true, b⟩, s)
      else if accessHeld (getCore s sl.core) b then (⟨false, b⟩, s)
      else (⟨true, { b with late := b.late ++ [maintEntry r (d.base + o) ⟨.address, x.toNat, r.w⟩] }⟩, clearFence s sl.core)))

/-- CMAINT by zone: privileged, and of another zone only from zone 0 (R77, R111). -/
def execCmaintByZone (sl : Slot) (x : BitVec 2) (a : Reg) (s : State) : Out :=
  .next (runSyl s sl unitMem (.cmaintByZone sl x a) (fun s r b =>
    let u := unitNum sl.unit
    let z := (r.getG a.toNat).field 11 0
    if z ≠ r.zone ∧ (r.zone ≠ 0 ∨ r.priv = false) then (⟨true, b.addFault ⟨u, 0x11, 1, 0, 0⟩⟩, s)
    else if r.priv = false then (⟨true, b.addFault ⟨u, 0x11, 0, 0, 0⟩⟩, s)
    else if accessHeld (getCore s sl.core) b then (⟨false, b⟩, s)
    else (⟨true, { b with late := b.late ++ [maintEntry r 0 ⟨.zone z, x.toNat, r.w⟩] }⟩, clearFence s sl.core)))

/-- CMAINT global: privileged (R111). -/
def execCmaintGlobal (sl : Slot) (x : BitVec 2) (s : State) : Out :=
  .next (runSyl s sl unitMem (.cmaintGlobal sl x) (fun s r b =>
    if r.priv = false then (⟨true, b.addFault ⟨unitNum sl.unit, 0x11, 0, 0, 0⟩⟩, s)
    else if accessHeld (getCore s sl.core) b then (⟨false, b⟩, s)
    else (⟨true, { b with late := b.late ++ [maintEntry r 0 ⟨.whole, x.toNat, r.w⟩] }⟩, clearFence s sl.core)))

/-! ## MACM (R129, R130) -/

/-- One access of a MACM: its checks; unit 2 for the first, 3 for the second (R58). -/
def macmCheck (r : CoreRegs) (u : Nat) (sg : BitVec 4) (g : Reg) : Option Exc :=
  let o := r.getG g.toNat
  (segFault r sg.toNat o 8 .load).map (fun c => ⟨u, c.1, c.2, sg.toNat, o⟩)

/-- One access of a MACM, through a segment of any type. -/
def macmLoad (s : State) (n : Nat) (b : OpenBundle) (r : CoreRegs) (unit : FUnit) (sg : BitVec 4) (g : Reg) :
    LoadRes × OpenBundle × State :=
  let d := r.getSeg sg.toNat
  let o := r.getG g.toNat
  loadAccess s n b d unit (d.base + o) 8 ⟨unitNum unit, 0x21, 0, sg.toNat, o⟩

/-- The loads of a MACM that are made before a strict-device access of it: those through a normal segment, which are only
checked where a device access follows (R81, R153). -/
def macmEarly (s : State) (n : Nat) (b : OpenBundle) (r : CoreRegs) (unit : FUnit) (sg : BitVec 4) (g : Reg) :
    LoadRes × OpenBundle × State :=
  if (r.getSeg sg.toNat).typ = 0 then macmLoad s n b r unit sg g else (.ok [], b, s)

/-- A fault of a MACM: of its first access (0), of its second (1), or of the decimal operation (2). -/
def macmFault (b : OpenBundle) (r : CoreRegs) (ga : Reg) (sa : BitVec 4) (gb : Reg) (sb : BitVec 4) (k c t : Nat) :
    OpenBundle :=
  b.addFault (match k with
    | 0 => ⟨2, c, t, sa.toNat, r.getG ga.toNat⟩
    | 1 => ⟨3, c, t, sb.toNat, r.getG gb.toNat⟩
    | _ => ⟨5, c, t, 0, 0⟩)

/-- The decimal operand that is known to be invalid before a device access: of the operands loaded from normal memory and
the accumulator the first, in the order first, second, accumulator (R81, R143, R146). -/
def macmDecBad (r : CoreRegs) (acc : Nat) (x y : List Byte) : Option Nat :=
  let operand := fun (bs : List Byte) (detail : Nat) =>
    if bs = [] then none else match decodeDec (ofLeBytes bs) 15 with | .ok _ => none | .error _ => some detail
  match operand x 1 with
  | some t => some t
  | none =>
    match operand y 2 with
    | some t => some t
    | none => match decodeDec (r.getAcc acc).toNat 31 with | .ok _ => none | .error _ => some 3

/-- The accesses of a MACM, the accumulator and the address registers (R129, R130). -/
def macmRun (s : State) (n : Nat) (b : OpenBundle) (r : CoreRegs) (var acc : BitVec 2) (ga : Reg) (sa : BitVec 4) (gb : Reg)
    (sb : BitVec 4) : SylRes × State :=
  let fail := macmFault
  match macmLoad s n b r .m0 sa ga with
  | (.held, b, s) => (⟨false, b⟩, s)
  | (.exc c t, b, s) => (⟨true, fail b r ga sa gb sb 0 c t⟩, s)
  | (.ok x, b, s) =>
    match macmLoad s n b r .m1 sb gb with
    | (.held, b, s) => (⟨false, b⟩, s)
    | (.exc c t, b, s) => (⟨true, fail b r ga sa gb sb 1 c t⟩, s)
    | (.ok y, b, s) =>
      match macmAcc var.toNat r b.work acc.toNat (BitVec.ofNat 64 (ofLeBytes x)) (BitVec.ofNat 64 (ofLeBytes y)) with
      | .error t => (⟨true, fail b r ga sa gb sb 2 0x07 t⟩, s)
      | .ok w =>
        let w := w.setG ga.toNat (r.getG ga.toNat + 8)
        (⟨true, { b with work := w.setG gb.toNat (r.getG gb.toNat + 8) }⟩, s)

/-- A MACM one of whose accesses is not to normal memory: what can fail is tried first, and nothing is accessed where the
bundle faults in any case (R81, R153, R207). -/
def macmDevice (s : State) (n : Nat) (b : OpenBundle) (r : CoreRegs) (var acc : BitVec 2) (ga : Reg) (sa : BitVec 4) (gb : Reg)
    (sb : BitVec 4) : SylRes × State :=
  match macmEarly s n b r .m0 sa ga with
  | (.held, b, s) => (⟨false, b⟩, s)
  | (.exc c t, b, s) => (⟨true, macmFault b r ga sa gb sb 0 c t⟩, s)
  | (.ok x, b, s) =>
    match macmEarly s n b r .m1 sb gb with
    | (.held, b, s) => (⟨false, b⟩, s)
    | (.exc c t, b, s) => (⟨true, macmFault b r ga sa gb sb 1 c t⟩, s)
    | (.ok y, b, s) =>
      match (if var = 2 then macmDecBad r acc.toNat x y else none) with
      | some t => (⟨true, macmFault b r ga sa gb sb 2 0x07 t⟩, s)
      | none => macmRun s n b r var acc ga sa gb sb

/-- MACM: both accesses checked before any effect; then the accumulator and both address registers (R52, R58, R129, R130,
R146). -/
def execMacm (sl : Slot) (var acc : BitVec 2) (ga : Reg) (sa : BitVec 4) (gb : Reg) (sb : BitVec 4) (s : State) : Out :=
  .next (runSyl s sl unitF (.macm sl var acc ga sa gb sb) (fun s r b =>
    let n := sl.core
    let bad := (macmCheck r 2 sa ga).toList ++ (macmCheck r 3 sb gb).toList
    let device := decide ((r.getSeg sa.toNat).typ ≠ 0 ∨ (r.getSeg sb.toNat).typ ≠ 0)
    let info := (sylInfo (.macm sl var acc ga sa gb sb)).toList
    let doomed := b.faults != [] || (bundleBad (b.syls ++ info) sl.last).isSome
    if bad ≠ [] then (⟨true, { b with faults := b.faults ++ bad }⟩, s)
    else if refusedHere b 2 ∨ refusedHere b 3 ∨ (device && doomed) then (⟨true, b⟩, s)
    else if device then macmDevice s n b r var acc ga sa gb sb
    else macmRun s n b r var acc ga sa gb sb))

end Sys2Proof.Machine
end

