-- ==== Sys2Proof/Machine/CoreCtl.lean ====
section
/-! DEFINITION. The branch and control syllables' meanings (R55 to R57, R69 to R78, R84, R116 to R121, R467 to R475). -/

namespace Sys2Proof.Machine

def unitX (u : FUnit) : Bool := u == .x

/-- A relative target (R116, R117). -/
def relTarget {k : Nat} (r : CoreRegs) (disp : BitVec k) : Word := r.pc + disp.signExtend 64 * 4

/-- A control transfer that only sets the target. -/
def jumpSyl (s : State) (sl : Slot) (i : Instr) (t : CoreRegs → Option Word) : State :=
  runSyl s sl unitX i (fun s r b => (⟨true, { b with target := t r }⟩, s))

/-- An X syllable that only moves registers. -/
def ctlSyl (s : State) (sl : Slot) (i : Instr) (f : CoreRegs → CoreRegs → CoreRegs) : State := regSyl s sl unitX i f

/-- A privileged X syllable (R76): code 0x11 at user privilege. -/
def privSyl (s : State) (sl : Slot) (i : Instr) (f : State → CoreRegs → OpenBundle → SylRes × State) : State :=
  runSyl s sl unitX i (fun s r b =>
    if r.priv = false then (⟨true, b.addFault (xExc 0x11 0)⟩, s) else f s r b)

/-! ## Branches -/

/-- B (R116). -/
def execB (sl : Slot) (disp : BitVec 22) (s : State) : Out := .next (jumpSyl s sl (.b sl disp) (fun r => some (relTarget r disp)))

/-- Bcc: untaken, it has no effect (R104, R117). -/
def execBcc (sl : Slot) (c : BitVec 4) (disp : BitVec 18) (s : State) : Out :=
  .next (jumpSyl s sl (.bcc sl c disp) (fun r => if condHolds c r.psw then some (relTarget r disp) else none))

/-- BR (R116). -/
def execBr (sl : Slot) (a : Reg) (s : State) : Out :=
  .next (jumpSyl s sl (.br sl a) (fun r => some (aligned4 (r.getG a.toNat))))

/-! ## The return stack (R63, R70 to R73) -/

/-- A call: push, then jump (R71). -/
def callSyl (s : State) (sl : Slot) (i : Instr) (t : CoreRegs → Word) : State :=
  runSyl s sl unitX i (fun s r b =>
    match pushFault r 16 with
    | some e => (⟨true, b.addFault e⟩, s)
    | none =>
      if accessHeld (getCore s sl.core) b then (⟨false, b⟩, s)
      else
        let (st, s) := issueCoreStamp (clearFence s sl.core) sl.core
        let b := pushEntry r b [0x0000001000000001#64, linkPc r b sl] st
        (⟨true, { b with target := some (t r) }⟩, s))

/-- CALL (R71). -/
def execCall (sl : Slot) (disp : BitVec 22) (s : State) : Out :=
  .next (callSyl s sl (.call sl disp) (fun r => relTarget r disp))

/-- CALLR (R71). -/
def execCallr (sl : Slot) (a : Reg) (s : State) : Out :=
  .next (callSyl s sl (.callr sl a) (fun r => aligned4 (r.getG a.toNat)))

/-- CALLM and CALLMR: save the registers of the mask and the mask on the data stack, push the entry, jump; as one action
(R72). A stack overflow is reported before a data-stack fault (R82). -/
def callmSyl (s : State) (sl : Slot) (i : Instr) (m : Reg) (t : CoreRegs → Word) : State :=
  runSyl s sl unitX i (fun s r b =>
    let mask := r.getG m.toNat
    let regs := maskRegs mask
    let dsp := r.dsp - BitVec.ofNat 64 (8 * (regs.length + 1))
    let bad := (pushFault r 32).toList ++ (dataStackFault r r.dsp (regs.length + 1) .store).toList
    if bad ≠ [] then (⟨true, { b with faults := b.faults ++ bad }⟩, s)
    else if accessHeld (getCore s sl.core) b then (⟨false, b⟩, s)
    else
      let (st, s) := issueCoreStamp (clearFence s sl.core) sl.core
      let saved := saveWords r b dsp (mask :: regs.map r.getG) st
      let b1 := pushEntry r saved [0x0000002000000002#64, linkPc r b sl, mask, dsp] st
      (⟨true, { b1 with target := some (t r), work := { b1.work with dsp := dsp } }⟩, s))

/-- CALLM (R72). -/
def execCallm (sl : Slot) (m : Reg) (disp : BitVec 16) (s : State) : Out :=
  .next (callmSyl s sl (.callm sl m disp) m (fun r => relTarget r disp))

/-- CALLMR (R72). -/
def execCallmr (sl : Slot) (m a : Reg) (s : State) : Out :=
  .next (callmSyl s sl (.callmr sl m a) m (fun r => aligned4 (r.getG a.toNat)))

/-- RET (R71). -/
def execRet (sl : Slot) (s : State) : Out := .next (runSyl s sl unitX (.ret sl) (retEff sl))

/-- RETM (R72). -/
def execRetm (sl : Slot) (s : State) : Out := .next (runSyl s sl unitX (.retm sl) (retmEff sl))

/-! ## Far transfers, traps -/

/-- FAR (R116, R117). -/
def execFar (sl : Slot) (a b' : Reg) (s : State) : Out := .next (privSyl s sl (.far sl a b') (farEff sl a b'))

/-- SVC: a trap; its bundle completes first (R79, R116). -/
def execSvc (sl : Slot) (imm : BitVec 16) (s : State) : Out :=
  .next (runSyl s sl unitX (.svc sl imm) (fun s _ b => (⟨true, { b with trap := some (xExc 0x14 imm.toNat) }⟩, s)))

/-- ERET (R84). -/
def execEret (sl : Slot) (s : State) : Out := .next (privSyl s sl (.eret sl) (eretEff sl))

/-- BREAK: a debug trap where the enable of the core's world permits it, else no operation (R118, R473). Nothing else
raises 0x18: the spec names no mechanism that arms a breakpoint or a single step (R79; log entry 166). -/
def execBrk (sl : Slot) (imm : BitVec 16) (s : State) : Out :=
  .next (runSyl s sl unitX (.brk sl imm) (fun s r b =>
    let c := getCore s sl.core
    if (if r.w then c.dbgBi else c.dbgOi) then (⟨true, { b with trap := some (xExc 0x18 imm.toNat) }⟩, s)
    else (⟨true, b⟩, s)))

/-! ## Repeat (R120, R121) -/

/-- REP: the repeated bundle is checked with it, whatever pcount is: its place within s13, then its words (R97, R120, R121). A command whose words hold no whole
bundle is none of the machine's bundles. -/
def execRep (sl : Slot) (body : List Syl) (s : State) : Out :=
  .next (if wholeBundle body = false then s
    else runSyl s sl unitX (.rep sl body) (fun s r b =>
      if fetchRoom r (r.pc + 4) (4 * (bundleWords 6 body).length) = false then
        (⟨true, b.addFault ⟨7, 0x01, 0, 13, fetchEnd r⟩⟩, s)
      else
      match wordsExc body true (r.pc + 4) with
      | some e => (⟨true, b.addFault e⟩, s)
      | none => (⟨true, { b with acts := b.acts ++ [.repeatBody (bundleWords 6 body)] }⟩, s)))

/-- One iteration of the repeated bundle completes: its results are written and pcount is decremented (R87, R121). -/
def execRepIteration (core : Nat) (s : State) : Out :=
  .next (if canRun s core ∧ (getCore s core).regs.psw.bit 45 then proceed s core else s)

/-! ## Moves to and from special registers (R54 to R57, R69) -/

/-- MTPCNT (R116). -/
def execMtpcnt (sl : Slot) (a : Reg) (s : State) : Out :=
  .next (ctlSyl s sl (.mtpcnt sl a) (fun r w => { w with pcount := r.getG a.toNat }))

/-- MTPCNTI (R116). -/
def execMtpcnti (sl : Slot) (imm : BitVec 16) (s : State) : Out :=
  .next (ctlSyl s sl (.mtpcnti sl imm) (fun _ w => { w with pcount := imm.setWidth 64 }))

/-- MFPCNT (R116, R121). -/
def execMfpcnt (sl : Slot) (d : Reg) (s : State) : Out :=
  .next (ctlSyl s sl (.mfpcnt sl d) (fun r w => w.setG d.toNat r.pcount))

/-- MFPSW (R54). -/
def execMfpsw (sl : Slot) (d : Reg) (s : State) : Out :=
  .next (ctlSyl s sl (.mfpsw sl d) (fun r w => w.setG d.toNat r.psw))

/-- The fields of psw that MTPSW writes: ct, dz, n, z, c, v; at privilege also priv, ie and ex (R55). -/
def mtpswMask (priv : Bool) : Word := if priv then 0x00000F000000001F#64 else 0x000001000000001F#64

/-- MTPSW (R55). -/
def execMtpsw (sl : Slot) (a : Reg) (s : State) : Out :=
  .next (ctlSyl s sl (.mtpsw sl a) (fun r w =>
    let m := mtpswMask r.priv
    { w with psw := (r.psw &&& ~~~m) ||| (r.getG a.toNat &&& m) }))

/-- MFFCSR (R56). -/
def execMffcsr (sl : Slot) (d : Reg) (s : State) : Out :=
  .next (ctlSyl s sl (.mffcsr sl d) (fun r w => w.setG d.toNat r.fcsr))

/-- MTFCSR (R56). -/
def execMtfcsr (sl : Slot) (a : Reg) (s : State) : Out :=
  .next (ctlSyl s sl (.mtfcsr sl a) (fun r w => { w with fcsr := fcsrStored (r.getG a.toNat) }))

/-- What MFCTL reads: 0 for an unlisted number, and for a bonded one in the open world (R57). -/
def ctlRead (r : CoreRegs) (num : Nat) : Word :=
  if num ≤ 0x0A then r.getCtl num
  else if 0x10 ≤ num ∧ num ≤ 0x17 ∧ r.w then r.getCtl num
  else 0

/-- MFCTL (R57). -/
def execMfctl (sl : Slot) (d : Reg) (num : BitVec 8) (s : State) : Out :=
  .next (privSyl s sl (.mfctl sl d num) (fun s r b =>
    (⟨true, { b with work := b.work.setG d.toNat (ctlRead r num.toNat) }⟩, s)))

/-- MTCTL: a bonded register is not written from the open world, and the attempt is recorded (R57, R583). -/
def execMtctl (sl : Slot) (a : Reg) (num : BitVec 8) (s : State) : Out :=
  .next (privSyl s sl (.mtctl sl a num) (fun s r b =>
    let k := num.toNat
    if 0x10 ≤ k ∧ k ≤ 0x17 ∧ r.w = false then (⟨true, { b with acts := b.acts ++ [.rwbWrite k] }⟩, s)
    else
      match ctlStored k (r.getG a.toNat) with
      | some v => (⟨true, { b with work := b.work.setCtl k v }⟩, s)
      | none => (⟨true, b⟩, s)))

/-- MFSP (R69). -/
def execMfsp (sl : Slot) (d : Reg) (rsp : Bool) (s : State) : Out :=
  .next (ctlSyl s sl (.mfsp sl d rsp) (fun r w => w.setG d.toNat (if rsp then r.rsp else r.dsp)))

/-- MTSP: rsp is written only at privilege (R69). -/
def execMtsp (sl : Slot) (a : Reg) (rsp : Bool) (s : State) : Out :=
  .next (runSyl s sl unitX (.mtsp sl a rsp) (fun s r b =>
    if rsp && !r.priv then (⟨true, b.addFault (xExc 0x11 0)⟩, s)
    else
      let v := r.getG a.toNat
      (⟨true, { b with work := if rsp then { b.work with rsp := v } else { b.work with dsp := v } }⟩, s)))

/-- ADJSP (R116). -/
def execAdjsp (sl : Slot) (imm : BitVec 16) (s : State) : Out :=
  .next (ctlSyl s sl (.adjsp sl imm) (fun r w => { w with dsp := r.dsp + imm.signExtend 64 }))

/-! ## Contexts (R75) -/

/-- The selectors of four segment registers, lowest in [15:0] (R75). -/
def selWord (r : CoreRegs) (k : Nat) : Word :=
  BitVec.ofNat 64 ((List.range 4).foldl (fun a j => a + (r.getSeg (4 * k + j)).sel.toNat * 2 ^ (16 * j)) 0)

/-- The 84 words of a context frame (R75). -/
def contextWords (r : CoreRegs) : List Word :=
  let accs := (List.range 4).flatMap (fun i =>
    [BitVec.ofNat 64 (r.getAcc i).toNat, BitVec.ofNat 64 ((r.getAcc i).toNat / 2 ^ 64)])
  let k := excBase r
  0x000002A000000003#64 :: (List.range 63).map (fun i => r.getG (i + 1)) ++ accs ++ [r.pcount, r.fcsr, r.dsp] ++
    (List.range 5).map (fun i => r.getCtl (k + 1 + i)) ++ (List.range 4).map (selWord r)

/-- SAVECTX (R75). -/
def execSavectx (sl : Slot) (s : State) : Out :=
  .next (privSyl s sl (.savectx sl) (fun s r b =>
    match pushFault r 672 with
    | some e => (⟨true, b.addFault e⟩, s)
    | none =>
      if accessHeld (getCore s sl.core) b then (⟨false, b⟩, s)
      else
        let (st, s) := issueCoreStamp (clearFence s sl.core) sl.core
        (⟨true, pushEntry r b (contextWords r) st⟩, s)))

/-- RESTCTX (R75). -/
def execRestctx (sl : Slot) (s : State) : Out := .next (privSyl s sl (.restctx sl) (restctxEff sl))

/-- WAIT: completes when a doorbell for the vcore is pending (R118). -/
def execWait (sl : Slot) (s : State) : Out :=
  .next (privSyl s sl (.wait sl) (fun s _ b => (⟨true, { b with acts := b.acts ++ [.wait] }⟩, s)))

/-- A waiting core's doorbell is pending: the WAIT bundle completes (R118). -/
def execWaitWake (core : Nat) (s : State) : Out :=
  .next (if (getCore s core).waiting ∧ bellPending s core then
      proceed (updCore s core (fun c => { c with waiting := false })) core
    else s)

/-! ## Bonded entry and return (R467 to R470, R475) -/

/-- BCALL (R468). -/
def execBcall (sl : Slot) (imm : BitVec 16) (s : State) : Out := .next (runSyl s sl unitX (.bcall sl imm) (bcallEff sl imm))

/-- BRET (R470). -/
def execBret (sl : Slot) (s : State) : Out := .next (runSyl s sl unitX (.bret sl) (bretEff sl))

/-- BWDR: the bonded watchdog, when the bundle completes (R119, R475). -/
def execBwdr (sl : Slot) (a : Reg) (s : State) : Out :=
  .next (runSyl s sl unitX (.bwdr sl a) (fun s r b =>
    if r.w = false then (⟨true, b.addFault (xExc 0x13 3)⟩, s)
    else (⟨true, { b with acts := b.acts ++ [.bwdr (r.getG a.toNat)] }⟩, s)))

/-! ## Illegal bundles and failed fetches (R93, R94, R97) -/

/-- A fetched bundle that breaks a rule by its words alone: 0x01 where it does not lie within s13, 0x12 where it breaks R94, else 0x10 of its first undefined
or malformed syllable. -/
def execIllegalBundle (core : Nat) (words : List Syl) (s : State) : Out :=
  .next (if canRun s core = false ∨ (getCore s core).bundle.isSome ∨ wholeBundle words = false then s
    else
      let r := (getCore s core).regs
      if fetchRoom r r.pc (4 * (bundleWords 6 words).length) = false then raiseBundle s core ⟨7, 0x01, 0, 13, fetchEnd r⟩
      else
        match wordsExc words false r.pc with
        | some e => raiseBundle s core e
        | none => s)

/-- A fetch fails: beyond the segment, refused, or uncorrectable data (R65, R66, R80, R97). `off` is the first byte of the
bundle at pc, or of the one that a REP there repeats, that cannot be fetched: beyond the segment it is the one that R97
names (R120). -/
def execFetchFault (core : Nat) (cause : FetchCause) (off : Word) (s : State) : Out :=
  let r := (getCore s core).regs
  .next (if canRun s core = false ∨ (getCore s core).bundle.isSome ∨ 28 ≤ (off - r.pc).toNat then s
    else
      match cause with
      | .beyond => if off = fetchEnd r then raiseBundle s core ⟨7, 0x01, 0, 13, off⟩ else s
      | .refused k => raiseBundle s core ⟨7, 0x02, k, 13, off⟩
      | .uncorrectable => raiseBundle s core ⟨7, 0x02, 0, 13, off⟩)

end Sys2Proof.Machine
end

