-- ==== Sys2Proof/Machine/CoreEvents.lean ====
section
/-! DEFINITION. Events of a core: refusals, interrupts, the store buffer, maintenance, write-combining buffers, bundle
retry, and the near cache's control register (R80, R86 to R88, R152 to R158, R184 to R190, R194 to R197, R202, R208,
R209, R218, R586). -/

namespace Sys2Proof.Machine

/-! ## Refusals (R80, R586) -/

/-- A buffered store to a line of normal memory. -/
def storesTo (gl : Nat) (e : BufEntry) : Bool := e.maint.isNone && e.typ == 0 && globalLine e.addr == gl

/-- The oldest buffered store of a core to a line, and the core without it (R586). -/
def storeOf (c : Core) (gl : Nat) : Option BufEntry := c.buf.find? (storesTo gl)
def dropStore (c : Core) (gl : Nat) : Core := { c with buf := List.delFirst (storesTo gl) c.buf }

/-- A load's access error stands in its bundle; where the waiting syllable is the last one, the bundle ends (R82). -/
def failLoad (s : State) (n : Nat) (e : Exc) : State :=
  match (getCore s n).bundle with
  | none => s
  | some b =>
    let b := b.addFault e
    match b.held with
    | some (info, true) =>
      if b.phase = 0 then endBundle s n { b with syls := b.syls ++ [info], held := none } true
      else updCore s n (fun c => { c with bundle := some b })
    | _ => updCore s n (fun c => { c with bundle := some b })

/-- The offset in its line of the first byte that a WrPart writes. -/
def maskStart (m : BitVec 128) : Nat := ((List.range 128).find? (fun i => m.getLsbD i)).getD 0

/-- The mask of a whole line. -/
def wholeMask : BitVec 128 := BitVec.allOnes 128

/-- A store outside the caches is refused: a write-combining one with the record of R586, a strict-device one with that of
R585. -/
def failWrite (s : State) (r : AgentReq) (mask : BitVec 128) (reason : Nat) : State :=
  let strict := (getCore s r.core).devOut.contains r.req.stamp
  let s := endWc s r.core r.req.stamp
  let q := coreReq s r.core r.req.zone r.req.world r.req.stamp
  if strict then deviceFault s q (r.req.addr + BitVec.ofNat 64 (maskStart mask)) 0 reason
  else refusedStore s r.req.addr r.req.zone reason r.req.world

/-- A store whose ownership is refused is discarded with its record (R586). -/
def failStore (s : State) (r : AgentReq) (reason : Nat) : State :=
  match storeOf (getCore s r.core) (globalLine r.req.addr) with
  | some e => refusedStore (updCore s r.core (fun c => dropStore c (globalLine r.req.addr))) e.addr e.zone reason e.world
  | none => s

/-- A refused read: a load raises its access error (R80); a descriptor of an exception entry is missing (R85). -/
def failRead (s : State) (r : AgentReq) (reason : Nat) : State :=
  match r.exc with
  | some e => failLoad s r.core { e with detail := reason }
  | none => if (getCore s r.core).entering.isSome then doubleException s r.core else s

/-- A refused request of a core by its kind: maintenance ends without effect; a store is discarded with a class C2 fault
(R586), or C3 where its home is lost (R227); a read outside the caches has its answer. -/
def failReq (s : State) (r : AgentReq) (reason : Nat) : State :=
  match r.kind with
  | .cleanLine | .invLine | .cleanInvLine => if r.forStore then endMaint s r.core r.req.addr else s
  | .wrLine _ => if r.forStore then failWrite s r wholeMask reason else s
  | .wrPart m _ => if r.forStore then failWrite s r m reason else s
  | .rdOnce => landRead s r.core r.req.stamp (fun _ => .err reason)
  | _ => if r.forStore then failStore s r reason else failRead s r reason

/-- Err at the requester (R80): a prefetch ends silently (R187). A core of the quadrant that waited for the same line asks
again. -/
def execErr (stamp : Word) (reason : Nat) (s : State) : Out :=
  .next (match findReq s stamp with
    | none => s
    | some r =>
      let gl := globalLine r.req.addr
      let s := delReq s stamp
      let s := updCore s r.core (fun c => { c with near := endWait c.near gl })
      let others := (quadCores r.quad).filter (fun n => (getCore s n).near.blocked == some gl)
      let s := updCores s others (fun _ c => { c with near := endWait c.near gl })
      let s := if r.req.prefetch then wakeEntry s r.core else failReq s r reason
      others.foldl wakeEntry s)

/-! ## Interrupts (R83, R86, R118) -/

/-- A doorbell reaches the core that runs its vcore and becomes one pending interrupt; it is held while the vcore does
not run (R86, R159, R446). -/
def execDoorbell (core : Nat) (s : State) : Out :=
  .next (match vcoreOn s core with
    | none => s
    | some (z, v) =>
      let x := getVcore s z v
      if x.db ∧ x.state = 2 then
        updCore (updVcore s z v (fun x => { x with db := false })) core (fun c => { c with irq := true })
      else s)

/-- The pending interrupt is taken at a bundle boundary, with psw.ie = 1 and psw.ex = 0; not between a REP bundle and
its first iteration, nor before a retried bundle has completed (R86, R121, R156). -/
def execExternalInterrupt (core : Nat) (s : State) : Out :=
  let c := getCore s core
  .next (if canRun s core ∧ c.bundle.isNone ∧ c.irq ∧ mayInterrupt c.regs ∧ c.repFirst = false ∧ c.retries = 0 then
      enterException (updCore s core (fun c => { c with irq := false })) core ⟨7, 0x30, 0, 0, 0⟩ c.regs.pc
    else s)

/-! ## Write-combining buffers (R207, R208) -/

/-- The bits of a line that `k` bytes at offset `o` occupy. -/
def byteMask (o k : Nat) : BitVec 128 := BitVec.ofNat 128 ((2 ^ k - 1) * 2 ^ o)

/-- A write-combining store merges in the buffer of its line. A fifth buffer makes the oldest leave; a full one leaves,
and each leaves at once while FENCE.IO or FENCE.FULL waits. An address with bits [62:57] is refused with reason 3 (R233). -/
def wcStore (s : State) (n : Nat) (e : BufEntry) : State :=
  let line := globalLine e.addr
  let o := e.addr.toNat % 128
  let same := fun (b : WcBuf) => b.line == line && b.zone == e.zone && b.world == e.world
  let c := getCore s n
  let old := (c.wc.find? same).getD ⟨line, 0, 0, e.zone, e.world⟩
  let b := { old with mask := old.mask ||| byteMask o e.size, data := lineSet old.data o e.bytes }
  let rest := List.delFirst same c.wc
  let (out, rest) := match rest with
    | x :: t => if 4 ≤ rest.length then ([x], t) else ([], rest)
    | [] => ([], [])
  if e.addr.field 63 57 ≠ 0 then refusedStore s e.addr e.zone 3 e.world
  else
  let s := out.foldl (sendWc n) (updCore s n (fun c => { c with wc := rest }))
  if b.mask = BitVec.allOnes 128 ∨ 2 ≤ c.fence then sendWc n s b else updCore s n (fun c => { c with wc := rest ++ [b] })

/-- A buffer without a store for 64 network cycles leaves (R208). -/
def execWcBufferTimeout (core line : Nat) (s : State) : Out :=
  let c := getCore s core
  .next (match c.wc.find? (fun b => b.line == line) with
    | none => s
    | some b => sendWc core (updCore s core (fun c => { c with wc := List.delFirst (fun b => b.line == line) c.wc })) b)

/-! ## The store buffer (R88, R184, R202, R203, R209, R218) -/

/-- A core's entry leaves the store buffer. -/
def popBuf (s : State) (n : Nat) : State := updCore s n (fun c => { c with buf := c.buf.drop 1 })

/-- A store to normal memory: written into the near cache, or into L2 while that is disabled, once the line is held in M
or E; until then it asks for the line (R184, R189, R218). -/
def drainNormal (s : State) (n : Nat) (e : BufEntry) : State :=
  let c := getCore s n
  let gl := globalLine e.addr
  let refused : Option Nat := if e.addr.field 63 57 ≠ 0 then some 3
    else if usable s (coreQuad n) gl e.world then none else reqRefused s e.addr
  if c.near.blocked.isSome then s
  else
    match refused with
    | some r => refusedStore (popBuf s n) e.addr e.zone r e.world
    | none =>
      match ownKind s n gl e.world with
      | some kind => askOwn s n gl kind e.zone e.world e.bnd true none e.room
      | none =>
        if c.near.enabled ∧ (nearIndex c.near gl).isNone then
          let s := blockNear s n gl e.bnd
          if pfMode c = 1 then prefetchLine s n e.room e.bnd e.world e.zone (gl + 1) else s
        else
          let s := storeOwned (popBuf s n) n e.addr e.bytes e.bnd
          let s := l2Add s n gl
          updCore s n (fun c => { c with near := dirtyNear c.near gl })

/-- The request of a CMAINT by address (R193). -/
def maintKind (act : Nat) : ReqKind := match act with | 0 | 3 => .cleanLine | 1 => .invLine | _ => .cleanInvLine

/-- The CMAINT that stands first in the buffer has met a fill of its line: a clean (0) leaves the line invalid as well
(3) (R195). -/
def meetFill : List BufEntry → List BufEntry
  | e :: t => { e with maint := e.maint.map (fun m => if m.act = 0 then { m with act := 3 } else m) } :: t
  | [] => []

/-- A CMAINT leaves the store buffer, every older store being done. One by address waits for a fill of its line and goes
to the line's home; a walk ends with CMAINT_COMPLETE (R194, R195). -/
def startMaint (s : State) (n : Nat) (e : BufEntry) (m : Maint) : State :=
  let c := getCore s n
  let gl := globalLine e.addr
  match m.form with
  | .address =>
    if c.near.fills.contains gl ∨ c.near.blocked = some gl then
      updCore s n (fun c => { c with buf := meetFill c.buf })
    else if c.near.blocked.isSome then s
    else
      let s := popBuf s n
      if (reqRefused s e.addr).isSome then s
      else
        let s := updCore s n (fun c => { c with maint := c.maint ++ [e] })
        sendReq s n (maintKind m.act) e.addr e.zone e.world false true false none
  | _ => if c.near.blocked.isSome then s else updCore (popBuf s n) n (fun c => { c with maint := c.maint ++ [e] })

/-- The oldest buffered store leaves: into the cache, to a write-combining buffer, to its device, or as maintenance. A
cleaning near cache holds it (R189), and so does a strict-device store whose acknowledgement has not come (R209, R210). -/
def execStoreDrain (core : Nat) (s : State) : Out :=
  let c := getCore s core
  .next (if 272 ≤ core ∨ c.power = false ∨ c.near.cleaning ∨ c.devOut ≠ [] then s
    else
      match c.buf with
      | [] => s
      | e :: _ =>
        match e.maint with
        | some m => startMaint s core e m
        | none =>
          if c.near.blocked.isSome then s
          else
          match e.typ with
          | 0 => drainNormal s core e
          | 1 => wcStore (popBuf s core) core e
          | _ => devWrite (popBuf s core) (coreReq s core e.zone e.world e.stamp) e.addr e.size (e.data.toNat % 2 ^ (8 * e.size)))

/-! ## Maintenance walks (R193, R194, R196) -/

/-- A dirty line is written back and kept: into memory at once for a line of this module with no transaction, else by a request to its home
(R193, R215). -/
def walkClean (s : State) (n q gl : Nat) (l : AgentLine) : State :=
  let a := BitVec.ofNat 64 (gl * 128)
  if l.st ≠ .m ∧ l.st ≠ .o then s
  else if addrDev a = s.devId ∧ busy s (addrOff a / 128) = false then
    match homeCheck s (addrOff a) l.zone true with
    | .line fl =>
      setLine (cleanNears (writeZoneLine s fl l.zone l.poison l.data) q gl) q gl { l with st := if l.st = .m then .e else .s }
    | _ => s
  else sendReq s n .cleanLine a l.zone true false false false none

/-- The bonded bit of a line in any cache of a quadrant (R180). -/
def bondedLine (s : State) (q gl : Nat) (l : AgentLine) : Bool :=
  l.bonded || s.cores.any (fun e => coreQuad e.1 == q &&
    (match nearIndex e.2.near gl with | some i => (getEntry e.2.near i).bonded | none => false))

/-- What a walk does to one line: clean, invalidate, or both; a bonded line is never discarded by the open world
(R196). Where it meets a fill, the fill completes first, and the line is left invalid (R195). -/
def walkLine (s : State) (n : Nat) (act : Nat) (world : Bool) (key : Nat) (l : AgentLine) : State :=
  let q := key / 2 ^ 50
  let gl := key % 2 ^ 50
  let act := if act = 1 ∧ world = false ∧ bondedLine s q gl l then 2 else act
  let met := fillMet s q gl
  let s := if met then meetFills s q gl else s
  match act with
  | 0 => if met then evictLine s q gl else walkClean s n q gl l
  | 1 => match l.st with
    | .m | .o | .e => evictLine (setLine s q gl { l with st := .e }) q gl
    | _ => dropLine s q gl
  | _ => evictLine s q gl

/-- The end of a walk over the module's caches. -/
def walkAll (s : State) (n : Nat) (m : Maint) : State :=
  let mine := s.lines.filter (fun e => match m.form with
    | .zone z => e.2.zone == z
    | .whole => true
    | .address => false)
  mine.foldl (fun s e => walkLine s n m.act m.world e.1 e.2) s

/-- A CMAINT becomes complete: by address when nothing of it is outstanding, else at the end of its walk (R194). -/
def execCmaintComplete (core : Nat) (s : State) : Out :=
  .next (match (getCore s core).maint with
    | [] => s
    | e :: t =>
      match e.maint with
      | none => s
      | some m =>
        let gone := updCore s core (fun c => { c with maint := t })
        match m.form with
        | .address =>
          if s.reqs.any (fun r => r.core == core && r.forStore && globalLine r.req.addr == globalLine e.addr) then s else gone
        | _ => walkAll gone core m)

/-! ## Bundle retry (R152 to R158) -/

/-- Ask for the relief of a core: it stops fetching, T0 of its relief is now, and RLF_STAT shows it (R158, R159, R176). A
bundle that cannot be repeated goes on to its end (R153). -/
def requestRelief (s : State) (n reason : Nat) : State :=
  let s := updCore s n (fun c => { c with
    run := false, bundle := if bundleFixed c then c.bundle else none, waiting := false })
  { s with sxt := { s.sxt with
      requests := s.sxt.requests ++ [(n, reason)], reqAt := Table.set zeroOf s.sxt.reqAt n (now s)
      rlfFrom := n, rlfTo := spareOf (coreCluster n), rlfReason := reason, rlfResult := 0 } }

/-- The bundle is discarded and executed again from the checkpoint, up to three times; a fourth failure is persistent
(R154, R158). A bundle that cannot be repeated is not (R152, R153). -/
def retryBundle (s : State) (n detector : Nat) : State :=
  let c := getCore s n
  if bundleFixed c then s
  else
    let s := updCore s n (fun c => { c with bundle := none, waiting := false, detector := detector })
    if c.retries < 3 then
      updCore s n (fun c => { c with retries := c.retries + 1, sxtRetries := satAdd 16 c.sxtRetries 1 })
    else requestRelief s n 1

/-! ## Bringing a core to rest (R88, R159, R212, R282, R454, R471) -/

/-- The core may stop between two bundles: no entry to an exception is under way, and no bundle that cannot be repeated
(R153). -/
def mayRest (c : Core) : Bool := c.entering.isNone && !(bundleFixed c)

/-- The registers of a bonded vcore that is stopped: the scrub of BRET without its entry, and the return registers and
bonded control registers cleared (R471). -/
def stopScrub (r : CoreRegs) : CoreRegs :=
  let w := bondedScrub r
  let w := (List.range 3).foldl (fun (w : CoreRegs) i => w.setSeg (13 + i) SegReg.null) w
  { w with
    g := [], acc := [], fcsr := 0, ctl := w.ctl.filter (fun e => decide (e.1 < 0x10 ∨ 0x17 < e.1))
    psw := (r.psw &&& 0xFFF0000000000000#64) + 0x80000000000#64 }

/-- A core stops fetching and loses its reservation; its write-combining buffers leave, and its buffered stores drain in
order from here on (R88, R212, R454). -/
def quiesceCore (s : State) (n : Nat) : State :=
  let s := updCore s n (fun c => { c with
    bundle := none, run := false, waiting := false, entering := none, rep := [], repFirst := false })
  let s := leaveWc (endDeferral s n) n
  updCore s n (fun c =>
    let c := { c with rsv := none, irq := false }
    if c.regs.w then { c with regs := stopScrub c.regs, near := scrubNear c.near } else c)

/-- A running vcore becomes STOPPED; a doorbell not yet taken stays pending (R441, R448). -/
def quiesceVcore (s : State) (z v : Nat) : State :=
  let x := getVcore s z v
  if x.state ≠ 2 then s
  else
    let bell := (getCore s x.core).irq
    updVcore (quiesceCore s x.core) z v (fun x => { x with state := 1, db := x.db || bell })

/-! ## NEAR_CTL (R185, R189, R190, R198, R474) -/

/-- A write of enable = 0 starts automatic cleaning (R189). -/
def execNearCtlDisable (q : IoReq) (core : Nat) (v : Word) (s : State) : Out :=
  .next (mainReg s (if core < 272 ∧ v.bit 0 = false then writeNearCtl s q core v else s))

/-- A write of enable = 1 (R190). -/
def execNearCtlEnable (q : IoReq) (core : Nat) (v : Word) (s : State) : Out :=
  .next (mainReg s (if core < 272 ∧ v.bit 0 then writeNearCtl s q core v else s))

/-- A write of pf (R185, R198). -/
def execNearCtlPf (q : IoReq) (core : Nat) (v : Word) (s : State) : Out :=
  .next (mainReg s (if core < 272 then writeNearCtl s q core v else s))

/-- Cleaning ends, its fills being complete: every entry is invalid, and a held enable takes effect (R189, R190). -/
def execNearCleaningDone (core : Nat) (s : State) : Out :=
  let c := getCore s core
  .next (if c.near.cleaning ∧ c.near.fills = [] ∧ c.near.blocked = none then
      wakeEntry (updCore s core (fun c => { c with near := { c.near with
        cleaning := false, enabled := c.near.enablePending, enablePending := false
        entries := [], plru := 0, streams := [], served := none } })) core
    else s)

end Sys2Proof.Machine
end

