-- ==== Sys2Proof/Machine/Relief.lean ====
section
/-! DEFINITION. Relief of a core by its cluster's spare, sextant watches and margin planning (R158 to R177). -/

namespace Sys2Proof.Machine

/-! ## Relief (R158 to R162) -/

def noRelief (_ : Nat) : Relief := ⟨0, 0, 0, 0, 0, 0, false, none⟩
def getRelief (s : State) (k : Nat) : Relief := Table.get noRelief s.sxt.reliefs k
def setRelief (s : State) (k : Nat) (r : Relief) : State :=
  { s with sxt := { s.sxt with reliefs := Table.set noRelief s.sxt.reliefs k r } }

/-- No relief runs or is asked for in the cluster, and its spare is idle and usable (R163, R167, R171). -/
def spareFree (s : State) (k : Nat) : Bool :=
  getRelief s k == noRelief k && (getCore s (spareOf k)).sxtState == 1

/-- The spare is free and no request of its cluster waits for it (R162, R171). -/
def spareReady (s : State) (k : Nat) : Bool := spareFree s k && !(s.sxt.requests.any (fun r => coreCluster r.1 == k))

/-- The outcome of a commanded relief: RLF_STAT and RLF_TIME (R505). -/
def reliefOutcome (s : State) (m : Option Mbx) : State :=
  setOutcomeOpt s m (okRes [rlfStat s, BitVec.ofNat 64 s.sxt.rlfTime])

/-- The vcore that step 7 mapped to the spare belongs to the failing core again (R162, R176). -/
def unmapRelief (s : State) (r : Relief) : State :=
  let s := match vcoreOn s r.spare with
    | some (z, v) => updVcore s z v (fun x => { x with core := r.core })
    | none => s
  spareGone s r.spare

/-- A relief cannot complete: its core is lost with the image of step 3, and the spare goes back to idle (R162, R167). -/
def loseRelief (s : State) (k : Nat) : State :=
  let r := getRelief s k
  let s := if r.step = 7 then unmapRelief s r else s
  let s := updCore s r.spare (fun c => { c with power := false, sxtState := 1, sxtFor := 0x1F })
  let s := loseCore rep s r.core r.reason true
  reliefOutcome (setRelief s k (noRelief k)) r.mbx

/-! ## Margin planning (R170, R171) -/

/-- The points of a curve, as input and output: 0 core, 1 lane, 2 memory; unused points are all ones (R507). Outputs are
signed. -/
def curvePoints (s : State) (t : Nat) : List (Int × Int) :=
  (List.range 16).filterMap (fun i =>
    let w := Table.get (fun _ => (0xFFFFFFFFFFFFFFFF : Word)) s.vin.cfg.curves (16 * t + i)
    if w = 0xFFFFFFFFFFFFFFFF then none else some ((w.field 63 32 : Int), (BitVec.ofNat 32 (w.field 31 0)).toInt))

/-- A curve's output at an input, as numerator and denominator: linear between points, the end points' outputs outside;
none where the table has no points (R170). -/
def curveAt : List (Int × Int) → Int → Option (Int × Int)
  | [], _ => none
  | [p], _ => some (p.2, 1)
  | p :: q :: t, x =>
    if x ≤ p.1 then some (p.2, 1)
    else if x < q.1 then some (p.2 * (q.1 - p.1) + (q.2 - p.2) * (x - p.1), q.1 - p.1)
    else curveAt (q :: t) x

/-- The required offset in steps of 5 mV, rounded up (R171); a table without points asks for the guard alone (log
entry 171). -/
def coreReq5 (s : State) (d : Int) : Int :=
  match curveAt (curvePoints s 0) d with
  | none => (s.sxt.guard : Int)
  | some (a, b) => -((-a) / (5 * b)) + s.sxt.guard

/-- A curve's output rounded down (R170; log entry 170); none for a table without points (log entry 171). -/
def curveFloor (s : State) (t : Nat) (d : Int) : Option Int := (curveAt (curvePoints s t) d).map (fun x => x.1 / x.2)

def byteOf (x : Int) : Nat := (BitVec.ofInt 8 x).toNat

/-- Set a core's applied offset, with its logbook entry where it changes (R173, R535). -/
def setVoff (s : State) (n : Nat) (v : Int) : State :=
  let c := getCore s n
  if c.voff = v then s
  else
    let s := updCore s n (fun c => { c with voff := v })
    let s := { s with sxt := { s.sxt with replans := satAdd 16 s.sxt.replans 1 } }
    logAdd s 0x0012 0 [BitVec.ofNat 64 (n + byteOf c.voff * 2 ^ 16 + byteOf v * 2 ^ 24 + byteOf (getCore s n).req * 2 ^ 32)]

/-- No margin is left and no spare is free: the core stays at +12, with a class C2 fault (R171). -/
def marginExhausted (s : State) (n : Nat) : State :=
  let z := match vcoreOn s n with | some zv => zv.1 | none => 0
  let s := faultAt (setVoff s n 12) 0x13 2 0 0 0 (BitVec.ofNat 64 n) z
  logAdd s 0x0014 0 [BitVec.ofNat 64 (2 + n % 256 * 2 ^ 8 + n / 256 * 2 ^ 16)]

/-- A spare whose own requirement exceeds 12 becomes unusable (R171). -/
def spareUnusable (s : State) (n : Nat) : State :=
  let k := coreCluster n
  let s := updCore s n (fun c => { c with sxtState := 5 })
  let s := { s with sxt := { s.sxt with spareBad := s.sxt.spareBad ||| 2 ^ k } }
  logAdd s 0x0014 0 [BitVec.ofNat 64 (1 + k * 2 ^ 8)]

/-! ## The steps of a relief (R158 to R162) -/

/-- The relief of a core starts: its write-combining buffers leave and its stores drain from here on, its reservation is
lost, its image is built and kept; its spare is powered; its vcore's doorbells are held (R159 steps 1 to 3). A vcore that
does not run stays as it is (R161). -/
def startRelief (s : State) (n reason t0 : Nat) (m : Option Mbx) : State :=
  let k := coreCluster n
  let s := updCore s n (fun c => { c with run := false, bundle := none, waiting := false })
  let s := leaveWc (endDeferral s n) n
  let s := updCore s n (fun c => { c with rsv := none })
  let bell := (getCore s n).irq
  let s := match vcoreOn s n with
    | some (z, v) => updVcore s z v (fun x => { x with state := if x.state = 2 then 3 else x.state, db := x.db || bell })
    | none => s
  let s := updCore s n (fun c => { c with irq := false })
  let s := putImage s n (mkImage s n reason 0 t0 [] true)
  let s := setRelief s k ⟨n, spareOf k, t0, 3, reason, 0, false, m⟩
  { s with sxt := { s.sxt with rlfFrom := n, rlfTo := spareOf k, rlfReason := reason, rlfResult := 0 } }

/-- A request is taken from the list. -/
def dropRequest (s : State) (n reason : Nat) : State :=
  { s with sxt := { s.sxt with
    requests := List.delFirst (· == (n, reason)) s.sxt.requests, reqAt := Table.set zeroOf s.sxt.reqAt n 0 } }

/-- A request for relief is taken up, at a bundle boundary. While a relief runs in the cluster, and for a persistent fault without a free
spare, the core is lost; a retirement without a usable spare is not carried out: the core goes on at +12 with a class C2
fault (R158, R162, R167, R171). -/
def execReliefStart (core reason : Nat) (s : State) : Out :=
  .next (if ¬ s.sxt.requests.contains (core, reason) ∨ 272 ≤ core ∨ mayRest (getCore s core) = false then s
    else
      let k := coreCluster core
      if spareFree s k then startRelief (dropRequest s core reason) core reason (reliefT0 s core) none
      else if reason = 1 ∨ getRelief s k ≠ noRelief k then loseCore rep s core reason true
      else
        let goes := match vcoreOn s core with | some (z, v) => (getVcore s z v).state == 2 | none => false
        marginExhausted (updCore (dropRequest s core reason) core (fun c => { c with run := goes })) core)

/-- The kept image of a core takes the stamp that the collector gives its next record (R160, R164). -/
def stampImage (s : State) (n : Nat) : State :=
  match Assoc.get s.sxt.images n with
  | some im => putImage s n { im with stamp := mkStamp s 0x61 (counterOf s 0x61) }
  | none => s

/-- The end of step 2 and step 4: the failing core's stores have drained, its dirty lines are written back and its caches invalidated; it is powered off; the relief is
a class C2 fault, whose stamp the image carries (R159, R160). Core and reason share a bit of word 5: they are added (R514; log entry 168). -/
def execReliefFlushDone (core : Nat) (s : State) : Out :=
  let k := coreCluster core
  let r := getRelief s k
  .next (if r.core ≠ core ∨ r.step ≠ 3 ∨ coreDrained (getCore s core) = false then s
    else
      let s := updCore s core (fun c => { flushCore c with power := false, sxtState := 3 })
      let z := match vcoreOn s core with | some zv => zv.1 | none => 0
      let s := faultAt (stampImage s core) 0x13 2 r.reason 0 0 (BitVec.ofNat 64 (core + r.reason * 256)) z
      setRelief s k { r with step := 4 })

/-- Steps 5 and 6: the spare is powered with its caches invalid, and the image moves to it (R159, R188). -/
def execSparePowered (cluster : Nat) (s : State) : Out :=
  let r := getRelief s cluster
  .next (if r.step ≠ 4 ∨ r.powered then s
    else
      let s := updCore s r.spare (fun c => { flushCore c with
        power := true, near := Near.reset, bundle := none, buf := [], maint := [], rsv := none, defer := none, wc := []
        wcOut := [], devOut := [], entering := none, fence := 0, irq := false, waiting := false, retries := 0, repFirst := false })
      setRelief s cluster { r with step := 6, powered := true })

/-- Step 7: the spare checks the image's CRC and the vcore is mapped to it. A bad image is moved once more; a second bad
one loses the core (R159, R162). -/
def execReliefImageArrived (cluster : Nat) (crcOk : Bool) (s : State) : Out :=
  let r := getRelief s cluster
  .next (if r.step ≠ 6 then s
    else if crcOk = false then
      if r.moves = 0 then setRelief s cluster { r with moves := 1 } else loseRelief s cluster
    else
      match Assoc.get s.sxt.images r.core with
      | none => loseRelief s cluster
      | some im =>
        let s := match vcoreOn s r.core with
          | some (z, v) => updVcore s z v (fun x => { x with core := r.spare })
          | none => s
        let s := updCore s r.spare (fun c => { c with
          regs := im.regs, rep := im.rep, sxtState := 2, sxtFor := coreSlot r.core
          near := { c.near with frozen := (getCore s r.core).near.frozen } })
        let s := { s with
          spareInUse := s.spareInUse ||| 2 ^ cluster
          rlx := { s.rlx with flash := { s.rlx.flash with
            retired := Table.set noFlag s.rlx.flash.retired r.core true } } }
        setRelief s cluster { r with step := 7 })

/-- A reset of the zone is at step 4, the quiesce of its vcores (R454). -/
def zoneQuiets (s : State) (z : Nat) : Bool := match (getZone s z).rst with | some r => r.step == 4 | none => false

/-- Step 8: the spare resumes at the checkpointed bundle where its vcore ran, the held doorbells are delivered, and the relief
is logged (R159, R161, R173). A zone reset that waits for it quiesces the vcore on the spare (R162, R454). -/
def execReliefResume (cluster : Nat) (s : State) : Out :=
  let r := getRelief s cluster
  .next (if r.step ≠ 7 then s
    else
      let zv := (vcoreOn s r.spare).getD (0, 0)
      let s := match vcoreOn s r.spare with
        | some (z, v) => if (getVcore s z v).state = 3 then
            let s := updVcore (updCore s r.spare (fun c => { c with run := true })) z v (fun x => { x with state := 2 })
            if zoneQuiets s z then quiesceVcore s z v else s
          else s
        | none => s
      let s := setRelief s cluster (noRelief cluster)
      let s := { s with sxt := { s.sxt with
        rlfFrom := r.core, rlfTo := r.spare, rlfReason := r.reason, rlfResult := 1, rlfDone := true
        rlfTime := (now s + 2 ^ 64 - r.t0) % 2 ^ 64 } }
      let st := match Assoc.get s.sxt.images r.core with | some im => im.stamp | none => 0
      let s := logAdd s 0x0010 st [rlfStat s, BitVec.ofNat 64 s.sxt.rlfTime, BitVec.ofNat 64 r.t0,
        BitVec.ofNat 64 (zv.1 + zv.2 * 2 ^ 12)]
      reliefOutcome s r.mbx)

/-! ## Plans after a watch (R169 to R173) -/

/-- The offset that the plan applies: raised at once to the requirement, or lowered by one step, down to −12 (R171,
R177). -/
def planVoff (s : State) (n : Nat) (req : Int) : State :=
  let v := (getCore s n).voff
  if v < req then setVoff s n req
  else if req < v - 1 ∧ -12 < v then setVoff s n (v - 1)
  else s

/-- The plan of one core after a watch; answers whether it is retired (R171). The plan of a spare sets the offset that it
runs at when a relief powers it (R159 step 5). -/
def planCore (s : State) (x : CoreReading) : Bool × State :=
  let n := x.core
  let s := updCore s n (fun c => { c with slack := x.slack })
  let c := getCore s n
  let req := coreReq5 s ((c.baseline : Int) - x.slack)
  let spent := decide (12 < req ∨ s.sxt.c1Limit < c.sxtRetries)
  let s := updCore s n (fun c => { c with req := req })
  if c.sxtState = 4 ∨ c.sxtState = 5 then (false, s)
  else if c.sxtState = 1 then (false, if 12 < req then spareUnusable s n else planVoff s n req)
  else if spent then
    if spareReady s (coreCluster n) ∧ c.sxtState = 0 then (true, requestRelief s n 2) else (false, marginExhausted s n)
  else (false, planVoff s n req)

/-- A watch reads a core that is powered, a lost one too, or a spare, and takes no part in a relief from its request on (R159, R162,
R169). -/
def readable (s : State) (n : Nat) : Bool :=
  let c := getCore s n
  let k := coreCluster n
  let r := getRelief s k
  decide (n < 272) && (c.power || n == spareOf k) && c.sxtState != 3 &&
    !(r != noRelief 0 && (r.core == n || r.spare == n)) &&
    !(s.sxt.requests.any (fun x => x.1 == n || (n == spareOf k && coreCluster x.1 == k)))

/-- The number of a lane among all: 16 to a port. -/
def laneKey (p lane : Nat) : Nat := 16 * p + lane

/-- A lane of a Hezhaul port retrains at once where the port is UP and no other of its lanes does, else at a later epoch
(R295). -/
def orderLane (s : State) (p lane : Nat) : State :=
  if mayStartLane (getPort s p) lane then startLane s p lane
  else { s with sxt := { s.sxt with laneDue := s.sxt.laneDue ++ [laneKey p lane] } }

/-- What an urgency calls for: a Hezhaul lane retrains at once (2) or at the next slot-table epoch (1); the link of a
PCIe lane recovers with equalisation, once in a watch (R172, R295). -/
def actLane (s : State) (p lane u : Nat) : State :=
  let k := laneKey p lane
  let s := { s with sxt := { s.sxt with laneDue := s.sxt.laneDue.filter (· != k) } }
  if u = 0 then s
  else if 12 ≤ p then
    let link := 4 * (p - 12) + lane / (16 / portsOf s (p - 12))
    if s.sxt.pcieRt.contains link then s else { s with sxt := { s.sxt with pcieRt := s.sxt.pcieRt ++ [link] } }
  else if u = 2 then orderLane s p lane
  else { s with sxt := { s.sxt with laneDue := s.sxt.laneDue ++ [k] } }

/-- A port whose lanes a watch reads: a Hezhaul port that is neither DISABLED nor UNUSED, a PCIe link that is up. -/
def lanePowered (s : State) (p : Nat) : Bool :=
  if 12 ≤ p then (Table.get pcieOf s.pcie (p - 12)).up else (getPort s p).state != 0 && (getPort s p).state != 6

/-- The plan of a lane: its urgency from its loss of eye height, the first reading being its baseline (R170, R172; log
entry 177). Answers whether the plan changed, which is logged (R173). -/
def planLane (s : State) (x : LaneReading) : Bool × State :=
  let k := laneKey x.port x.lane
  let base : Nat := match Table.get zeroOf s.sxt.laneBase k with | 0 => x.height | b + 1 => b
  let s := { s with sxt := { s.sxt with laneBase := Table.set zeroOf s.sxt.laneBase k (base + 1) } }
  match curveFloor s 1 ((base : Int) - x.height) with
  | none => (false, s)
  | some e =>
    let u := Nat.min 2 e.toNat
    let old := Table.get zeroOf s.sxt.lanePlan k
    let s := actLane { s with sxt := { s.sxt with lanePlan := Table.set zeroOf s.sxt.lanePlan k u } } x.port x.lane u
    if u = old then (false, s)
    else
      let (kind, port) := if 12 ≤ x.port then (2, x.port - 12) else (1, x.port)
      (true, logAdd s 0x0013 0 [BitVec.ofNat 64 (kind + port * 2 ^ 8 + x.lane * 2 ^ 16 + u * 2 ^ 24)])

/-- The plan of a memory channel: its retrain interval, 2^36 to 2^44 mt (R170, R244). -/
def planMemory (s : State) (c : Nat) : Bool × State :=
  let x := Table.get (fun _ => Chan.reset) s.mem.chans c
  match curveFloor s 2 ((x.base : Int) - Nat.min x.rd x.wr) with
  | none => (false, s)
  | some e =>
    let k := Nat.max 36 (Nat.min 44 e.toNat)
    if x.online = false ∨ x.interval = k then (false, s)
    else
      let s := { s with mem := { s.mem with
        chans := Table.upd (fun _ => Chan.reset) s.mem.chans c (fun x => { x with interval := k }) } }
      (true, logAdd s 0x0013 0 [BitVec.ofNat 64 (3 + c * 2 ^ 8 + k * 2 ^ 24)])

/-- The C0 summary of a watch: one byte per source (R532, R535). -/
def c0Summary (s : State) : State :=
  let byte := fun (i : Nat) => Nat.min 255 (Table.get (fun _ => 0) s.flt.c0 i)
  let word := fun (k : Nat) => BitVec.ofNat 64 ((List.range 8).foldl (fun a j => a + byte (8 * k + j) * 2 ^ (8 * j)) 0)
  logAdd { s with flt := { s.flt with c0 := [] } } 0x0002 0 [word 0, word 1, word 2, word 3]

def countIf (b : Bool) : Nat := if b then 1 else 0

/-- A watch that is not made is logged with zero counts (R169, R174). -/
def skipWatch (s : State) (idx : Nat) : State :=
  logAdd { s with sxt := { s.sxt with watchIdx := idx } } 0x0011 0 [BitVec.ofNat 64 (idx * 2 ^ 40), 0]

/-- What the plans of a watch count: offsets changed is kept in `replans`; here plans changed and retirements. -/
def planAll (s : State) (cores : List CoreReading) (lanes : List LaneReading) : (Nat × Nat) × State :=
  let (retired, s) := cores.foldl (fun (acc : Nat × State) (x : CoreReading) =>
    let (b, s) := planCore acc.2 x
    (acc.1 + countIf b, s)) (0, s)
  let (nl, s) := lanes.foldl (fun (acc : Nat × State) (x : LaneReading) =>
    let (b, s) := planLane acc.2 x
    (acc.1 + countIf b, s)) (0, s)
  let (nc, s) := (List.range 64).foldl (fun (acc : Nat × State) (c : Nat) =>
    let (b, s) := planMemory acc.2 c
    (acc.1 + countIf b, s)) (0, s)
  ((nl + nc, retired), s)

/-- A sextant watch, at each multiple of 2^40 mt: readings, plans, the logbook, and the counts of a new watch (R28, R169
to R173, R177). -/
def execSextantWatch (r : Readings) (s : State) : Out :=
  let idx := now s / 2 ^ 40
  .next (if hubUp s = false ∨ idx ≤ s.sxt.watchIdx then s
    else if s.mer.fault ∨ s.sxt.watchEn = false then skipWatch s idx
    else
      let old := s.sxt.replans
      let cores := r.cores.filter (fun x => readable s x.core)
      let lanes := r.lanes.filter (fun x => lanePowered s x.port)
      let s := { s with
        cores := Table.mapListed Core.reset (fun _ c => { c with slack := 0xFF }) s.cores
        sxt := { s.sxt with reads := ⟨cores, lanes⟩, pcieRt := [] } }
      let (counts, s) := planAll s cores lanes
      let s := { s with
        cores := Table.mapListed Core.reset (fun _ c => { c with sxtRetries := 0, ckptWords := [] }) s.cores
        sxt := { s.sxt with
          watches := (s.sxt.watches + 1) % 2 ^ 32, last := idx * 2 ^ 40, watchIdx := idx, wayErrs := [] } }
      let sum := cores.length + (s.sxt.replans - old) * 2 ^ 16 + counts.1 * 2 ^ 32 + counts.2 * 2 ^ 48
      c0Summary (logAdd s 0x0011 0 [BitVec.ofNat 64 (idx * 2 ^ 40), BitVec.ofNat 64 sum]))

/-! ## Bundle retry (R152 to R158) -/

/-- A record of a core's detector that calls for no retry (R152, R514). -/
def detectorAt (s : State) (source cls n part : Nat) (addr : Word) : State :=
  faultAt s source cls 0 0 addr (BitVec.ofNat 64 (n + part)) (getCore s n).regs.zone

/-- Two bad bits in a near-cache line: a clean line is refetched from L2; a dirty one is poisoned, with a class C2 record
as R191 has it for L2 (R152, R191, R200; log entry 178). -/
def nearTwoBits (s : State) (n gl : Nat) (dirty : Bool) : State :=
  match nearIndex (getCore s n).near gl with
  | none => s
  | some i =>
    if (getEntry (getCore s n).near i).dirty ≠ dirty then s
    else if dirty then
      let q := coreQuad n
      let s := setLine s q gl { getLine s q gl with poison := true }
      detectorAt (updCore s n (fun c => { c with nearPoison := satAdd 16 c.nearPoison 1 })) 0x02 2 n (2 * 2 ^ 16)
        (BitVec.ofNat 64 (gl * 128))
    else
      detectorAt (updCore s n (fun c => { c with nearCor := satAdd 16 c.nearCor 1 })) 0x02 0 n (2 * 2 ^ 16) 0

/-- A single-bit correction in the checkpoint file: the same word twice in one watch asks for relief (R152, R158). -/
def checkpointBit (s : State) (n word : Nat) : State :=
  let again := (getCore s n).ckptWords.contains word
  let s := detectorAt (updCore s n (fun c => { c with
    ckptWords := if again then c.ckptWords else c.ckptWords ++ [word] })) 0x01 0 n (7 * 2 ^ 12) 0
  if again ∧ (getCore s n).run then requestRelief s n 1 else s

/-- The core is the spare of a relief that has powered it and not resumed (R162). -/
def spareRelieving (s : State) (n : Nat) : Bool :=
  let r := getRelief s (coreCluster n)
  r.spare == n && n != 0 && r.powered

/-- The core waits for its relief, or its image is being built: it depends on its checkpoint file (R159 steps 1 to 3). -/
def awaitsRelief (s : State) (n : Nat) : Bool :=
  let r := getRelief s (coreCluster n)
  s.sxt.requests.any (fun x => x.1 == n) || (r.core == n && r.step == 3)

/-- An uncorrectable checkpoint of a core that does not execute: the core whose image is to be built from it is lost without
relief, and so is the relief whose powered spare it is (R152, R162, R167). -/
def idleCheckpoint (s : State) (n : Nat) : State :=
  if awaitsRelief s n then
    let r := getRelief s (coreCluster n)
    let t := loseCore rep s n (if r.core = n then r.reason else 1) false
    if r.core = n then reliefOutcome (setRelief t (coreCluster n) (noRelief 0)) r.mbx else t
  else if spareRelieving s n then spareUnusable (loseRelief s (coreCluster n)) n
  else s

/-- A detector fires, by the row of R152: 1 to 3 call for a retry; 4 an L1I line is refetched; 5 the near cache is
corrected, 9 and 10 its line `place` has two bad bits, clean or dirty; 7 an uncorrectable checkpoint loses the core, or the
relief whose spare it is; 8 word `place` of the checkpoint is corrected. -/
def execBundleRetry (core : Nat) (d : Detection) (s : State) : Out :=
  let c := getCore s core
  .next (if 272 ≤ core ∨ c.power = false then s
    else if c.run = false then (if d.row = 7 then idleCheckpoint s core else s)
    else
      match d.row with
      | 1 | 2 | 3 => retryBundle s core d.row
      | 4 => detectorAt s 0x02 0 core (1 * 2 ^ 16) 0
      | 5 => detectorAt (updCore s core (fun c => { c with nearCor := satAdd 16 c.nearCor 1 })) 0x02 0 core (2 * 2 ^ 16) 0
      | 7 => loseCore rep s core 1 false
      | 8 => checkpointBit s core d.place
      | 9 => nearTwoBits s core d.place false
      | 10 => nearTwoBits s core d.place true
      | _ => s)

/-- No bundle has completed for 4,096 core cycles, and the core has no memory request outstanding: a retry (R152). -/
def execProgressMonitorExpiry (core : Nat) (s : State) : Out :=
  .next (if canRun s core ∧ ¬ s.reqs.any (fun r => r.core == core) then retryBundle s core 3 else s)

end Sys2Proof.Machine
end

