-- ==== Sys2Proof/Machine/ZoneOps.lean ====
section
/-! DEFINITION. Vcores brought to rest, and the steps of a zone reset on this module (R441, R454 to R457, R466, R471). -/

namespace Sys2Proof.Machine

/-- The vcores of a zone bound to cores of this module. -/
def zoneVcores (s : State) (z : Nat) : List (Nat × Vcore) :=
  (s.zon.vcores.filter (fun e => e.1 / 4096 == z && e.2.state != 0)).map (fun e => (e.1 % 4096, e.2))

/-! ## The steps (R454) -/

/-- Step 2: hold on every channel of the zone. -/
def holdZone (s : State) (z : Nat) : State :=
  (s.mov.chns.filter (fun c => c.2.en && c.2.zone == z)).foldl (fun s c =>
    afterStop (updChn s c.1 (fun x => { x with hold := true })) c.1) s

/-- Step 5: every line of the zone leaves the caches; its held decant requests end with reason 2, and its waiting
decants are cancelled. -/
def flushZone (s : State) (z : Nat) : State :=
  let ls := (s.lines.filter (fun e => e.2.zone == z)).map (·.1)
  let s := ls.foldl (fun s k => evictLine s (k / 2 ^ 50) (k % 2 ^ 50)) s
  let mine := s.mem.decants.filter (fun d => (getPage s d.page).zone == z)
  mine.foldl (fun s d =>
    let s := d.held.foldl (fun s h => sendErr s h.req 2) s
    if d.phase = 2 ∨ d.phase = 3 then
      { s with mem := { s.mem with decants := s.mem.decants.map (fun x => if x.page = d.page then { x with held := [] } else x) } }
    else
      let s := endJob s (.decant d.page)
      let s := if d.phase = 1 then pushFrame s z d.frame else s
      let s := setPage s d.page { getPage s d.page with st := 1, dir := false }
      resendPage { s with mem := { s.mem with decants := s.mem.decants.filter (fun x => x.page != d.page) } } d.page) s

/-- Untag every granule of the zone, without zero-fill (R466). -/
def untagZone (s : State) (z : Nat) : State :=
  { s with mem := { s.mem with tags := s.mem.tags.filter (fun e => e.2 != z + 1) } }

/-- Step 7: held doorbells and entries are discarded, every local unit's counter is the zone's floor, and the internal
tails are zero. -/
def floorZone (s : State) (z : Nat) : State :=
  let held := (getZone s z).held.length
  let units := s.counters.filter (fun e => decide (e.1 < 4096))
  let wins := units.foldl (fun t e =>
    Table.upd noWin t e.1 (fun w => { w with floor := some (highestIssued s e.1) })) (getZone s z).wins
  let s := updZone s z (fun x => { x with held := [], wins := wins })
  let s := (zoneVcores s z).foldl (fun s v => updVcore s z v.1 (fun x => { x with db := false })) s
  let zero := fun (e : Nat × List Word) => if e.1 / 4096 = z then (e.1, [wordAt e.2 0, 0, wordAt e.2 2]) else e
  { s with
    chs := { s.chs with vcCache := s.chs.vcCache.map zero }
    zon := { s.zon with stale := satAdd 16 s.zon.stale held } }

/-- Start a step of a zone's reset on this module. -/
def startResetStep (s : State) (z step : Nat) : State :=
  let s := updZone s z (fun x => { x with state := 2, rst := x.rst.map (fun r => { r with step := step, stepAt := now s }) })
  match step with
  | 2 => holdZone s z
  | 3 => resetOps s z
  | 4 => (zoneVcores s z).foldl (fun s v => quiesceVcore s z v.1) s
  | 5 => flushZone s z
  | 6 => commitScrub s z none
  | 7 => floorZone (untagZone s z) z
  | _ => s

/-- This module has completed a step of a zone's reset. -/
def resetStepDone (s : State) (z step : Nat) : Bool :=
  match step with
  | 2 => s.mov.chns.all (fun c => !(c.2.en && c.2.zone == z) || c.2.paused || c.2.halted)
  | 3 => s.chs.ops.all (fun o => o.2.jr.zone != z)
  | 4 => (zoneVcores s z).all (fun v => v.2.state != 2 && v.2.state != 3 && coreDrained (getCore s v.2.core))
  | 5 => s.wbs.all (fun w => w.zone != z)
  | 6 => !s.cip.kstBusy
  | _ => true

/-- The step's budget in mt (R454, R455: the figures for 1 TiB and 256 vcores). -/
def stepBudget (step : Nat) : Nat :=
  let ms := match step with | 2 => 4 | 3 => 8 | 4 => 2 | 5 => 25 | 6 => 2 | _ => 1
  ms * 4096000

/-- The zone is STOPPED after its reset: counted (R457, R461). -/
def endResetHere (s : State) (z : Nat) : State :=
  updZone s z (fun x => { x with state := 3, rst := none, resets := satAdd 32 x.resets 1 })

/-- Step 8 at the coordinator: kind 6 to zone 0, the requesters answered, the logbook entry (R454, R460, R535). -/
def finishReset (s : State) (z : Nat) (r : ZoneRst) : State :=
  let dt := (now s + 2 ^ 64 - r.t0) % 2 ^ 64
  let s := endResetHere s z
  let s := { s with zon := { s.zon with rstStamp := r.stamp, rstTime := dt } }
  let s := postEvent rep s 0 6 r.stamp (BitVec.ofNat 64 (z + r.partial'.toNat * 2 ^ 32))
  let s := r.waiters.foldl (fun s m => setOutcome s m (okRes [r.stamp, BitVec.ofNat 64 dt, Word.flag r.partial' 0])) s
  logAdd s 0x0030 r.stamp [r.stamp, BitVec.ofNat 64 dt, BitVec.ofNat 64 (z + r.partial'.toNat * 2 ^ 12),
    BitVec.ofNat 64 (r.kind % 4 + (if r.kind = 1 then r.rzone * 2 ^ 32 else 0))]

/-- Every other module of the inventory that is not lost is told to run a step, over the master mailbox's transport; the
layout of that message is the model's (log entry 65). -/
def tellStep (s : State) (z step : Nat) (stamp : Word) : State :=
  (otherDevs s).foldl (fun s d =>
    send s .mbx d 0x121 z stamp (stepWords s z step stamp)) s

/-- A participant runs a step that the coordinator orders (R454). -/
def joinStep (s : State) (z step : Nat) (stamp : Word) : State :=
  let zn := getZone s z
  match zn.rst with
  | some r => if r.stamp = stamp ∧ r.step < step then startResetStep s z step else s
  | none =>
    if zn.state = 0 ∨ step = 8 then s
    else
      let r : ZoneRst := ⟨stamp, step, now s, now s, false, [], 3, 0⟩
      startResetStep (updZone s z (fun x => { x with rst := some r })) z step

end Sys2Proof.Machine
end

