-- ==== Sys2Proof/Machine/FaultLog.lean ====
section
/-! DEFINITION. The rows of the fault collector, the service processor's watchdog, and the logbook's writer (R513 to
R537). -/

namespace Sys2Proof.Machine

/-- The sources that lie in the standby domain: Relrax, the JTAG TAP and power (R12, R514; log entry 163). -/
def standbySource (source : Nat) : Bool := source == 0x12 || source == 0x14 || source == 0x15

/-- A check reports: the collector makes or coalesces a record and reacts. Reserved source codes and classes above C5 name
no check (R514, R515); while PWR_OK is deasserted a main-domain check reports nothing (R12). -/
def execFaultReport (r : Report) (s : State) : Out :=
  .next (if 1 ≤ r.source ∧ r.source ≤ 0x15 ∧ r.cls ≤ 5 ∧ (s.power.pwrOk || standbySource r.source) = true then fault s r
    else s)

/-! ## Isolation of a quadrant (R521, R523, R527) -/

/-- Raise a record to a level: applied, escalated, and its reaction carried out (R520, R523). -/
def raiseRec (s : State) (x : FRec) (want : Nat) : State :=
  let l := targetLevel x.zone x.quad want
  let up := fun (r : FRec) => { r with level := l, esc := true, noTarget := r.noTarget || decide (l ≠ want), timer := none }
  let s := updRec s x.stamp up
  react rep s (up x) l

/-- Salvage ends: the quadrant's lines are written back, its rails turn off, and it is OFF (R521 steps 3 and 4). -/
def execIsolationSalvageDone (quad : Nat) (s : State) : Out :=
  let d := getDom s (16 + quad)
  .next (if 4 ≤ quad ∨ d.state ≠ 3 ∨ d.isolated.isNone then s
    else
      let mine := (s.lines.filter (fun e => e.1 / 2 ^ 50 == quad)).map (fun e => e.1 % 2 ^ 50)
      let s := mine.foldl (fun s gl => evictLine s quad gl) s
      setOutcomeOpt (domainIsOff s (16 + quad)) d.mbx (okRes []))

/-- Salvage is not done by T0 + 2^26 mt, or a line that may be dirty has lost its address: the reaction becomes L5, and the
record is escalated (R521). -/
def execIsolationSalvageTimeout (quad : Nat) (s : State) : Out :=
  let d := getDom s (16 + quad)
  .next (if 4 ≤ quad ∨ d.state ≠ 3 ∨ since s d.t0 < 2 ^ 26 then s
    else match d.isolated with
      | none => s
      | some st =>
        match s.flt.hist.find? (fun x => x.stamp == st), findUnack s st with
        | _, some x => raiseRec s x 5
        | some x, none => raiseRec s x 5
        | none, none => s)

/-! ## Escalation and quiet periods (R523, R526) -/

/-- The timer of an unacknowledged L2 record expires: one level above the level applied, within the cap of the table that is
active now; void where that is L2 again (R523, R527). -/
def execEscalationTimerExpiry (stamp : Word) (s : State) : Out :=
  .next (match findUnack s stamp with
    | none => s
    | some x =>
      match x.timer with
      | none => s
      | some t =>
        if s.flt.checkstop ∨ x.level ≠ 2 ∨ 2 ^ 63 ≤ (now s + 2 ^ 64 - t) % 2 ^ 64 then s
        else
          let want := min 3 (tableCap s x.source x.cls)
          if targetLevel x.zone x.quad want ≤ 2 then updRec s stamp (fun r => { r with timer := none })
          else raiseRec s x want)

/-- A class clears when its quiet period has passed since its last record at L1 or above: its records are acknowledged, its
recovery counter rises, and the logbook notes it. C5 never clears (R526, R542). -/
def execQuietPeriodExpiry (cls : Nat) (s : State) : Out :=
  .next (if cls = 5 ∨ ¬ s.flt.active.contains cls ∨ s.flt.checkstop ∨
      since s (Table.get zeroClass s.flt.lastAt cls) < quietPeriod s cls then s
    else
      let s := ((s.flt.unack.filter (fun x => x.cls == cls)).map (·.stamp)).foldl ackRec s
      let n := satAdd 16 (Table.get zeroClass s.flt.rcv cls) 1
      let s := { s with flt := { s.flt with
        active := s.flt.active.filter (· != cls)
        rcv := Table.set zeroClass s.flt.rcv cls n } }
      logAdd s 0x0003 0 [BitVec.ofNat 64 cls, BitVec.ofNat 64 n])

/-! ## ERR_L and the registers (R525, R528) -/

/-- The 2 µs minimum ends: ERR_L rises where err_hold is 0 or a release is pending. -/
def execErrLMinimumEnd (s : State) : Out :=
  .next (match s.flt.errMin with
    | none => s
    | some t =>
      if 2 ^ 63 ≤ (now s + 2 ^ 64 - t) % 2 ^ 64 then s
      else { s with flt := { s.flt with
        errMin := none, errRelease := false
        errLow := s.flt.checkstop || (s.flt.errHold && !s.flt.errRelease) } })

def execFltAckWrite (_q : IoReq) (v : Word) (s : State) : Out := .next (writeFltAck s v)

def execFltCtlRelease (_q : IoReq) (v : Word) (s : State) : Out := .next (writeFltCtl s v)

/-! ## The service processor (R527, R530) -/

/-- A command in progress ends with an error, whatever was decided, and with no later answer. -/
def killCmd (s : State) (m : Mbx) (e : Nat) : State :=
  completeCmd (updBox s m (fun b => { b with acc := b.acc.map (fun a => { a with outcome := some (errRes e) }) })) m

/-- Nothing under way answers a mailbox any longer. -/
def forgetMbxs (s : State) : State :=
  let gone := s.mem.cellarings
  let s := gone.foldl (fun s c =>
    if c.phase = 0 then s else endJob (unTransit s c.page) (.cellaring c.page)) s
  { s with
    mem := { s.mem with cellarings := [] }
    cip := { s.cip with kstMbx := none }
    vin := { s.vin with prep := s.vin.prep.map (fun p => { p with mbx := none }) }
    tree := { s.tree with doms := Table.mapListed domOf (fun _ d => { d with mbx := none }) s.tree.doms }
    zon := { s.zon with zones := Table.mapListed Zone.reset (fun _ z =>
      { z with rst := z.rst.map (fun r => { r with waiters := [] }) }) s.zon.zones }
    chs := { s.chs with ops := s.chs.ops.map (fun o => (o.1, { o.2 with mbx := none })), load := none }
    sxt := { s.sxt with reliefs := s.sxt.reliefs.map (fun r => (r.1, { r.2 with mbx := none })) }
    rlx := { s.rlx with forwards := [] } }

/-- The service processor fails: class C2, and it restarts from flash; mailbox commands in progress end with NOT_READY. -/
def restartSp (s : State) (detail : Nat) : State :=
  if s.rlx.running = false then s
  else
    let s := faultAt s 0x12 2 0 0 0 (BitVec.ofNat 64 detail) 0
    let s := { s with rlx := { s.rlx with running := false, wdogAt := now s } }
    ((inProgress s).map (·.1)).foldl (fun s m => killCmd s m 0x000A) (forgetMbxs s)

/-- The watchdog expires, 2^32 mt after Relrax's last reload (R530). -/
def execSpWatchdogExpiry (s : State) : Out := .next (restartSp s 2)

def execSpLockstepMismatch (s : State) : Out := .next (restartSp s 1)

/-- Relrax runs again: the zone resets that L3 reactions asked for meanwhile are requested, and the rings are served
(R489, R527). -/
def execSpRestartDone (s : State) : Out :=
  .next (if s.rlx.running ∨ s.power.bootRom then s
    else
      let zs := s.rlx.deferredL3
      let s := { s with rlx := { s.rlx with running := true, wdogAt := now s, deferredL3 := [] } }
      let s := zs.foldl (fun s z => (requestReset s z none 3 0).2) s
      (s.rlx.rings.map (·.1)).foldl (fun s z => serveRing 1025 s z) s)

/-! ## The logbook's writer (R532 to R534, R536) -/

/-- Open the segment with the lowest sequence number; its old entries are lost (R533). -/
def openSegment (s : State) : State :=
  let seg := fun (i : Nat) => Table.get segOf s.log.segs i
  let top := (List.range 16).foldl (fun a i => max a (seg i).seqNo) 0
  let i := (List.range 16).foldl (fun b i => if (seg i).seqNo < (seg b).seqNo then i else b) 0
  let g : LogSeg := ⟨1, top + 1, 0, 0, if s.devValid then some s.devId else none, []⟩
  { s with log := { s.log with segs := Table.set segOf s.log.segs i g, cur := i } }

/-- The segment that the writer fills: opened where none is open. -/
def openLog (s : State) : State :=
  if (Table.get segOf s.log.segs s.log.cur).state = 1 then s else openSegment s

/-- Store the entry being written; a full segment is sealed and the next one opened (R533). -/
def storeEntry (s : State) (e : LogEntry) : State :=
  let s := openLog s
  let g := Table.get segOf s.log.segs s.log.cur
  let g := { g with
    first := if g.entries = [] then e.mer else g.first, last := e.mer, entries := g.entries ++ [e] }
  let full := decide (16382 ≤ g.entries.length)
  let s := { s with log := { s.log with
    segs := Table.set segOf s.log.segs s.log.cur (if full then { g with state := 2 } else g) } }
  if full then openSegment s else s

/-- The writer finishes an entry and starts the next one (R532). -/
def execLogEntryWritten (s : State) : Out :=
  .next (match s.log.writing with
    | none => s
    | some e =>
      let s := storeEntry s e
      logPump { s with log := { s.log with writing := none } })

end Sys2Proof.Machine
end

