-- ==== Sys2Proof/Machine/VcoreOps.lean ====
section
/-! DEFINITION. Starting a vcore from its start image (R90, R500). -/

namespace Sys2Proof.Machine

/-- The tag of a start image's word 0 (R500). -/
def startTag : Word := 0x000002A000000003#64

/-- The value that a control register takes from a word, with its reserved bits 0 (R57). -/
def ctlValue (num : Nat) (v : Word) : Word := (ctlStored num v).getD 0

/-- The registers that a start image gives before the segments are loaded; psw is as at reset, in the vcore's zone,
and vcid is its number (R54, R57, R90, R500 step 2). -/
def startRegs (ws : List Word) (z v : Nat) (bevb : Word) : CoreRegs :=
  let r := contextRegs ws 2 CoreRegs.reset
  let r := (List.range 3).foldl (fun (r : CoreRegs) i => r.setCtl i (ctlValue i (wordAt ws (84 + i)))) r
  { (r.setCtl 0x10 bevb).setCtl 0x0A (BitVec.ofNat 64 v) with
    psw := CoreRegs.reset.psw + BitVec.ofNat 64 (z * 2 ^ 52), pc := wordAt ws 87, rsp := wordAt ws 88 }

/-- Load the segment registers from the selectors, in order; the first failing one is answered with its code (R500
step 3). -/
def startSegs (n : Nat) : List (Nat × Nat) → State → Option (Nat × Nat) × State
  | [], s => (none, s)
  | (i, sel) :: t, s =>
    match loadDesc s n sel (some true) (some false) i false with
    | (.error f, s) => (some (i, f.code), s)
    | (.ok d, s) => startSegs n t (updCore s n (fun c => { c with regs := c.regs.setSeg i d }))

/-- The core of a vcore stands as at core release: nothing under way, no reservation, no bonded state (R90, R500). -/
def freshCore (c : Core) (r : CoreRegs) : Core :=
  { c with
    regs := r, bundle := none, rep := [], repFirst := false, waiting := false, irq := false, rsv := none, fence := 0
    retries := 0, near := scrubNear c.near }

/-- VCORE_START's steps: nothing where the vcore runs, else r1 and r2 of START_IMAGE (R500). What the core's last vcore
stored has drained (R88, R90). -/
def startVcore (s : State) (z v : Nat) (addr : Word) : Option (Nat × Nat) × State :=
  let n := (getVcore s z v).core
  match engWords rep s addr 96 z false with
  | (.error r, s) => (some (0x10, r), s)
  | (.ok ws, s) =>
    if wordAt ws 0 ≠ startTag then (some (0x11, (wordAt ws 0).toNat), s)
    else
      let s := updCore s n (fun c => freshCore c (startRegs ws z v s.bnd.bevb))
      let sels := (List.range 16).map (fun i => (i, (wordAt ws (80 + i / 4)).field (16 * (i % 4) + 15) (16 * (i % 4))))
      match startSegs n sels s with
      | (some e, s) => (some e, s)
      | (none, s) =>
        let s := updCore s n (fun c => { c with run := true })
        (none, updVcore s z v (fun x => { x with state := 2 }))

/-- The state after starting a vcore, whether or not it started. -/
def startedVcore (s : State) (z v : Nat) (addr : Word) : State := (startVcore s z v addr).2

end Sys2Proof.Machine
end

