-- ==== Sys2Proof/Machine/Power.lean ====
section
/-! DEFINITION. Supplies, straps, the kinds of reset, start-up, and the PCIe links (R546 to R560, R568, R573 to R576). -/

namespace Sys2Proof.Machine

/-! ## Losing the main domain (R88, R547, R552) -/

/-- A word of a start-up entry whose layout the spec does not give (R560; log entry 70). -/
def openWord (s : State) : Word × State := (Config.freeWord s.fresh, nextFree s)

/-- A core after the main rails have gone: as at reset, but for the slack fused at test (R170). -/
def coldCore (n : Nat) (c : Core) : Core := { Core.reset n with baseline := c.baseline }

/-- A time that the standby domain keeps, once the meridian starts again from 0: as far ahead or behind as before (R552,
R587; log entry 71). -/
def rebase (s : State) (t : Nat) : Nat := (t + 2 ^ 64 - now s) % 2 ^ 64

/-- The collector's timers and quiet periods over a new start of the meridian. -/
def rebaseFlt (s : State) : Faults :=
  { s.flt with
    unack := s.flt.unack.map (fun x => { x with timer := x.timer.map (rebase s) })
    lastAt := Table.mapListed zeroClass (fun _ t => rebase s t) s.flt.lastAt
    errMin := s.flt.errMin.map (rebase s) }

/-- The main rails are off: every main-domain part is lost and stands at its reset values, the meridian's count among them
(R40, R552; log entry 71); the collector's registers, FLT_RT and FLT_QUIET among them, keep their values, and its timers
run on (R12, R547, R587). -/
def mainOff (s : State) : State :=
  { State.reset with
    part := s.part
    power := { s.power with
      rails := false, step := min s.power.step 1, downPending := false
      stepAt := rebase s s.power.stepAt, railsAt := rebase s s.power.railsAt }
    vin := { Vintage.reset with cfg := { Vintage.reset.cfg with reaction := s.vin.cfg.reaction } }
    counters := s.counters
    marks := s.marks
    cores := Table.mapListed Core.reset coldCore s.cores
    rlx := { s.rlx with
      rings := [], forwards := [], served := [], deferredL3 := [], wdogAt := rebase s s.rlx.wdogAt }
    flt := rebaseFlt s
    log := s.log
    fresh := s.fresh
    pending := s.pending }

/-- Commands of the register mailboxes that need the main domain end with NO_MAIN_POWER when it goes (R12, R496; log
entry 72). -/
def endMainCmds (s : State) : State :=
  (inProgress s).foldl (fun s x => if standbyCmd (cmdCode x.2.words) then s else setOutcome s x.1 (errRes 0x0004)) s

/-- The writer records the reset cause with a step 0 entry (R547, R560). -/
def causeEntry (s : State) (cause : Nat) : State :=
  let (w, s) := openWord s
  startEntry s 0 0 [w, BitVec.ofNat 64 cause, 0, 0]

/-! ## Sampling the straps and the start of start-up (R550, R552) -/

/-- The straps are sampled and start-up begins; BOOT_SEL 3 is a class C0 fault (R550). -/
def beginStartUp (s : State) (straps : Straps) (cause : Nat) : State :=
  let s := { s with power := { s.power with
    straps := straps, cause := cause, step := 0, failed := false, stepAt := now s, bootRom := false, thermTrip := false
    downPending := false, selfRefresh := false } }
  let s := causeEntry s cause
  if straps.bootSel % 4 = 3 then faultAt s 0x15 0 0 0 0 0 0 else s

/-- A module reset: the main domain goes, Relrax restarts, ERR_L and checkstop are cleared; the collector's records, the
logbook and the register mailboxes are kept (R552, R587). Commands in progress end with NOT_READY (R530). -/
def moduleReset (s : State) (straps : Straps) (cause : Nat) : State :=
  let s := forgetMbxs s
  let s := ((inProgress s).map (·.1)).foldl (fun s m => killCmd s m 0x000A) s
  let s := mainOff s
  let s := { s with
    rlx := { s.rlx with running := false }
    flt := { s.flt with errLow := false, errMin := none, errRelease := false, checkstop := false } }
  beginStartUp s straps cause

/-- 3V3_STBY rises: the straps are sampled, the standby registers take their reset values, the bonded mailbox is
cleared; the logbook, the flash and the recorded stamp counters are kept (R47, R552, R587). -/
def execStandbyPowerOn (straps : Straps) (s : State) : Out :=
  .next (if s.power.standby then s
    else
      let s := { State.reset with
        part := s.part
        power := { Power.reset with standby := true, pwrOk := s.power.pwrOk }
        counters := Table.mapListed counterStart (fun k m => (m + 2 ^ 32) % 2 ^ counterWidth k) s.marks
        marks := s.marks
        cores := Table.mapListed Core.reset coldCore s.cores
        rlx := { Relrax.reset with flash := s.rlx.flash }
        log := s.log
        fresh := s.fresh
        pending := s.pending }
      beginStartUp s straps 1)

/-- 3V3_STBY falls: the entry being written is completed, queued and held entries are lost, and the standby domain
stops (R537). -/
def execStandbyPowerLoss (s : State) : Out :=
  .next (if s.power.standby = false then s
    else
      let s := match s.log.writing with
        | some e => storeEntry s e
        | none => s
      let s := { s with log := { s.log with writing := none, first := [], queue := [], held := [] } }
      let s := mainOff s
      { s with
        power := { s.power with standby := false, step := 0 }
        rlx := { Relrax.reset with flash := s.rlx.flash }
        flt := Faults.reset })

/-- RESET_L: ignored below 1 µs, a module reset from 10 µs on; between the two the spec gives no outcome (R568). -/
def execResetLPulse (lowNs : Nat) (straps : Straps) (s : State) : Out :=
  if lowNs < 1000 ∨ s.power.standby = false then .next s
  else if lowNs < 10000 then .fault .resetPulseUnspecified
  else .next (moduleReset s straps 2)

/-! ## PWR_OK and THERMTRIP_L (R546 to R548) -/

/-- Step 2 ends once Relrax has booted and PWR_OK is asserted; the wait is logged once (R546, R556). -/
def tryStep2 (s : State) (first : Bool) : State :=
  if s.power.step ≠ 1 ∨ s.power.failed ∨ s.power.thermTrip then s
  else if s.power.pwrOk then endStep s 2 0 []
  else if first then startEntry s 2 3 []
  else s

/-- PWR_OK is asserted: start-up goes on from step 2. After a loss of PWR_OK the checkstop that the loss itself caused is
left (R546, R547; log entry 73). -/
def execPwrOkAssert (s : State) : Out :=
  .next (if s.power.standby = false ∨ s.power.pwrOk then s
    else
      let s := { s with power := { s.power with pwrOk := true } }
      let s := if s.power.cause = 5 ∧ s.flt.checkstop then
          { s with flt := { s.flt with checkstop := false, errLow := false } } else s
      if s.flt.checkstop then s else tryStep2 s false)

/-- PWR_OK is deasserted: the main rails go, class C5 from source 0x15, and the entry with cause 5; start-up waits in
step 2 (R547). -/
def execPwrOkDeassert (s : State) : Out :=
  .next (if s.power.pwrOk = false then s
    else
      let s := { s with power := { s.power with pwrOk := false } }
      if s.power.rails = false then
        { s with power := { s.power with step := min s.power.step 1 } }
      else
        let old := s.flt.checkstop
        let s := mainOff (endMainCmds s)
        let s := { s with power := { s.power with
          failed := false, stepAt := now s, cause := if old then s.power.cause else 5 } }
        let s := causeEntry s 5
        let s := faultAt s 0x15 5 0 0 0 0 0
        if old then s else tryStep2 s true)

/-- A junction reaches 115 °C: THERMTRIP_L goes low, the main rails go, class C5 with cause 6; the main domain does not
start before the next reset (R548). -/
def execThermtrip (s : State) : Out :=
  .next (if s.power.standby = false ∨ s.power.thermTrip then s
    else
      let s := if s.power.rails then mainOff (endMainCmds s) else s
      let s := { s with power := { s.power with thermTrip := true, cause := 6 } }
      faultAt (causeEntry s 6) 0x15 5 0 0 0 0 0)

/-! ## PCIe links (R555, R568, R573, R574) -/

/-- A controller's link is gone: what was sent and not taken is lost, reads are answered with link down, and the
operations that wait on it end with LINK_DOWN (R359, R383). -/
def linkGone (s : State) (c : Nat) : State :=
  let rs := (getPcie s c).reads
  let s := updPcie s c (fun p => { p with up := false, speed := 0, width := 0, posted := [], reads := [] })
  let s := rs.foldl (fun s r =>
    sendFlit s (mkFlit s .aderr s.devId 0x121 (getChn s r.2.2).zone 0 [5])) s
  linkDownOps s c

def execPcieLinkDown (ctl : Nat) (s : State) : Out :=
  .next (if 2 ≤ ctl ∨ (getPcie s ctl).up = false then s else linkGone s ctl)

/-- A link reaches L0: only with main power, PERST high, and, in root-port mode, a link that the flash configuration
enables (R555, R574). -/
def execPcieLinkUp (ctl speed width : Nat) (s : State) : Out :=
  .next (if 2 ≤ ctl ∨ s.power.rails = false ∨ s.flt.checkstop ∨ (getPcie s ctl).perst ∨
      (rootPort s ctl && !(s.rlx.flash.pcieEn.testBit ctl)) = true then s
    else updPcie s ctl (fun p => { p with up := true, speed := speed, width := width }))

/-- PERST is driven low in endpoint mode: the controller is reset (R552, R555). -/
def execPerstInput (ctl : Nat) (s : State) : Out :=
  .next (if 2 ≤ ctl ∨ rootPort s ctl then s
    else updPcie (if (getPcie s ctl).up then linkGone s ctl else s) ctl (fun _ => Pcie.reset))

/-- PERST rises in endpoint mode: link training starts (R568). -/
def execPerstInputRelease (ctl : Nat) (s : State) : Out :=
  .next (if 2 ≤ ctl ∨ rootPort s ctl ∨ s.power.rails = false then s
    else updPcie s ctl (fun p => { p with perst := false }))

/-- 100 ms after the main rails are good, the PERST outputs of the enabled root ports are released (R555). -/
def execPerstRelease (s : State) : Out :=
  .next (if s.power.rails = false ∨ since s s.power.railsAt < 409600000 then s
    else (List.range 2).foldl (fun s c =>
      if rootPort s c && s.rlx.flash.pcieEn.testBit c then updPcie s c (fun p => { p with perst := false }) else s) s)

/-! ## Inbound requests (R346, R486, R576) -/

/-- Class C0 from source 0x09 with the requester ID: the request is refused (R576). -/
def inboundRefused (s : State) (r : PcieReq) : State := faultAt s 0x09 0 0 0 0 (BitVec.ofNat 64 r.rid) 0

/-- What window `i` makes of a request: its target address and zone, or a refusal where the request begins in the window's
range and crosses its end. -/
inductive WinHit where
  | miss | cross
  | hit (addr : Word) (zone : Nat)
  deriving DecidableEq, Repr

def matchWin (s : State) (r : PcieReq) (i : Nat) : WinHit :=
  let b := getWin s r.ctl i 0
  let t := getWin s r.ctl i 1
  let z := getWin s r.ctl i 2
  let size := 2 ^ b.field 5 0
  let bus := 2 ^ 12 * (b.toNat / 2 ^ 12)
  let mask := z.field 47 32
  if z.bit 63 = false ∨ (r.rid ^^^ z.field 31 16) &&& mask ≠ 0 ∨ r.bus < bus ∨ bus + size ≤ r.bus then .miss
  else if bus + size < r.bus + r.len then .cross
  else .hit (BitVec.ofNat 64 (t.field 56 12 * 2 ^ 12 + (r.bus - bus))) (z.field 11 0)

/-- The first window that takes the request, in ascending order. -/
def firstWin (s : State) (r : PcieReq) : WinHit :=
  (List.range 64).foldl (fun (h : WinHit) i => match h with | .miss => matchWin s r i | h => h) .miss

/-- The bus range of the status window of a controller (R346). -/
def inStatusWin (s : State) (r : PcieReq) : Bool :=
  let w := (Table.get zeroWord s.chs.swin r.ctl).toNat
  decide (w ≤ r.bus ∧ r.bus < w + 2 ^ 20)

/-- A 16-byte write to the status window is an adapter's status record (R346). -/
def statusWrite (s : State) (r : PcieReq) (bs : List Byte) : State :=
  let ws := bytesWords 2 bs
  let off := r.bus % 2 ^ 20
  if bs.length = 16 ∧ off % 16 = 0 then
    (match execAdst r.ctl (off / 16) ⟨wordAt ws 0, (wordAt ws 1).field 63 48, (wordAt ws 1).field 47 32, (wordAt ws 1).field 31 0⟩ s with
     | .next s => s
     | _ => s)
  else inboundRefused s r

/-- An access to BAR0 in endpoint mode: eight bytes at their alignment at an offset of the ledger; any other is not
performed, with a class C0 record that carries its offset (R9, R18, R484, R514). -/
def hostBox (s : State) (r : PcieReq) : State :=
  let off := r.bus
  let done := match r.write with
    | some bs => if bs.length = 8 then boxWrite s .host 0 off (wordAt (bytesWords 1 bs) 0) else none
    | none => if r.len = 8 then (boxRead s.rlx.host true off).map (fun _ => s) else none
  match done with
  | some s => s
  | none =>
    let (st, s) := issueStamp s (0x70 + r.ctl)
    faultAt s 0x11 0 0 st 0 (BitVec.ofNat 64 off) 0

/-- An inbound memory request: BAR0 in endpoint mode; else the status window, then the inbound windows (R346, R576). -/
def execPcieInboundRequest (r : PcieReq) (s : State) : Out :=
  .next (if 2 ≤ r.ctl ∨ (getPcie s r.ctl).up = false then s
    else if endpoint s r.ctl then
      hostBox s r
    else if inStatusWin s r then
      match r.write with
      | some bs => statusWrite s r bs
      | none => inboundRefused s r
    else
      match firstWin s r with
      | .miss | .cross => inboundRefused s r
      | .hit addr z =>
        let (st, s) := issueStamp s (0x70 + r.ctl)
        let (res, s) := match r.write with
          | some bs => engWrite rep (bs.length + 1) s addr bs z false st
          | none => engRead rep (r.len + 1) s addr r.len z false st
        match res with
        | .err _ => inboundRefused s r
        | _ => s)

/-! ## Start-up (R556 to R560) -/

/-- A start-up command acts only in its place, while start-up runs. -/
def atStep (s : State) (done : Nat) : Bool :=
  s.power.standby && s.power.step == done && !s.power.failed && !s.flt.checkstop && !s.power.thermTrip

/-- The copy that BOOT_SEL chooses: the valid one of higher version, or the other (R550). -/
def chosenCopy (s : State) : BootCopy :=
  let f := s.rlx.flash
  let high := if f.okA ∧ (f.okB = false ∨ f.verB ≤ f.verA) then BootCopy.a else .b
  if s.power.straps.bootSel % 4 = 1 then (if high = .a then .b else .a) else high

/-- Step 1: Relrax runs from a copy whose signature is good, or the boot ROM serves; the logbook opens (R556). -/
def execRelraxBooted (copy : BootCopy) (s : State) : Out :=
  .next (if atStep s 0 = false ∨ s.rlx.running ∨ s.power.bootRom then s
    else
      let s := openLog s
      match copy with
      | .none =>
        failStep { s with power := { s.power with bootRom := true } } 1 []
      | c =>
        let f := s.rlx.flash
        let s := { s with rlx := { s.rlx with
          running := true, copy := if c = .a then 0 else 1, version := if c = .a then f.verA else f.verB, wdogAt := now s } }
        let (w, s) := openWord s
        let s := endStep s 1 (if c = chosenCopy s then 0 else 1) [w, BitVec.ofNat 64 s.chs.custImage, 0, 0]
        tryStep2 s true)

/-- Step 3: the main rails are good; the cabled ports start training (R310, R556). Standby hold stops start-up here
(R550). -/
def execMainRailsGood (s : State) : Out :=
  .next (if atStep s 2 = false ∨ s.power.pwrOk = false ∨ s.power.straps.bootSel % 4 = 2 then s
    else
      let f := s.rlx.flash
      let s := { s with
        power := { s.power with rails := true, railsAt := now s, selfRefresh := false }
        fab := { s.fab with
          mesh := f.mesh, sizes := f.sizes, bestSerial := s.part.serial, bestMaster := s.power.straps.masterEn
          bestAt := now s } }
      let s := ports.foldl (fun s p =>
        if (linkEnd f.mesh f.sizes 0 p).isNone then updPort s p (fun x => { x with state := 6 })
        else if (getPort s p).en then trainPort s p else s) s
      endStep s 3 0 [])

/-- Every channel is trained; the margins that training finds are open (R242; log entry 74). -/
def trainedChans (s : State) : State :=
  (List.range 64).foldl (fun s c =>
    let rd := Config.freeNat s.fresh % 256
    let wr := Config.freeNat (s.fresh + 1) % 256
    let s := nextFree (nextFree s)
    updChan s c (fun x => { x with
      online := true, state := 0, rd := rd, wr := wr, base := min rd wr, dueAt := (now s + 2 ^ x.interval) % 2 ^ 64 })) s

/-- Slot 0 takes a key from the service processor's random generator (R418). -/
def loadSlot0 (s : State) : State :=
  let k := fun (i : Nat) => (Config.freeWide (s.fresh + i)).toNat
  let b := Config.freeBool s.fresh
  let n := Config.freeNat s.fresh % 2 ^ 32
  let s := { s with fresh := s.fresh + 4 }
  loadSlot s 0 b (BitVec.ofNat 256 (k 0 + k 1 * 2 ^ 128)) (BitVec.ofNat 256 (k 2 + k 3 * 2 ^ 128)) n

/-- The regions of the home and the hub agents are initialised, and usable memory is zero (R553, R554). -/
def initRegions (s : State) : State :=
  { s with
    mem := { Memory.reset with chans := s.mem.chans, maxGran := s.mem.maxGran, zeroEn := s.mem.zeroEn, celEn := s.mem.celEn }
    home := { s.home with dir := [], txns := [], credits := [] }
    sxt := { s.sxt with images := [] }
    chs := { s.chs with ops := [], mirrors := [], lastPosted := [] } }

/-- Step 4: all channels have trained, or one has failed three attempts (R556). -/
def execMemoryTrainingDone (retried : Nat) (failed : Bool) (s : State) : Out :=
  .next (if atStep s 3 = false then s
    else if failed then faultAt (failStep s 4 [memChon s, BitVec.ofNat 64 retried, 0, 0]) 0x06 5 0 0 0 0 0
    else
      let s := initRegions (loadSlot0 (trainedChans s))
      let (w, s) := openWord s
      endStep s 4 (if retried = 0 then 0 else 1) [memChon s, BitVec.ofNat 64 retried, w, 0])

/-- The lowest of a list of devices above a bound. -/
def lowestDev (l : List Nat) : Option Nat :=
  l.foldl (fun (b : Option Nat) d => match b with | some x => some (min x d) | none => some d) none

/-- Step 6: the lowest device strapped MASTER_EN is the master, the next the standby; a module that has heard a running
master keeps it, and becomes its standby only where there is none (R29, R31, R559). -/
def elect (s : State) (eligible : List Nat) : State :=
  let own := eligible.filter (· != s.devId) ++ (if s.power.straps.masterEn then [s.devId] else [])
  let m := match s.mer.masterId with
    | some m => some m
    | none => lowestDev own
  match m with
  | none => failStep s 6 (merWords s)
  | some m =>
    let st := match s.mer.standbyId with
      | some d => some d
      | none => match lowestDev (own.filter (fun d => decide (m < d))) with
        | some d => some d
        | none => if s.power.straps.masterEn ∧ m ≠ s.devId then some s.devId else none
    let role := if m = s.devId then 2 else if st = some s.devId then 1 else 0
    let s := { s with mer := { s.mer with
      masterId := some m, standbyId := st, role := role, masters := own, hbSeen := now s } }
    endStep s 6 0 (merWords s)

/-- The lost map with the positions of a torus from which no module took part (R311). -/
def absentMap (mesh : Bool) (sizes absent : List Nat) (own : Nat) (m : Table Bool) : Table Bool :=
  if mesh then m
  else (absent.filter (fun d => decide (d < moduleCount mesh sizes) && d != own)).foldl
    (fun (m : Table Bool) (d : Nat) => Table.set noFlag m d true) m

/-- Step 5 and, after it, step 6: discovery has ended; the lost map, the inventory, the vintage-0 tables, the mirror partner and the
election follow. A module cut off from its system raises class C5 (R310, R320, R556). -/
def execDiscoveryDone (found : Found) (s : State) : Out :=
  let words := fun (s : State) => [hzStat s, hzCfg s, idnLoc s, 0]
  .next (if atStep s 4 = false then s
    else if s.rlx.flash.sizes.any (fun k => decide (1 < k)) ∧ upPorts s = [] then
      isolateModule (failStep s 5 (words s))
    else if s.devValid = false then s
    else
      let f := s.rlx.flash
      let s := setRt s false (routeTable f.mesh f.sizes f.image0.linksDown s.devId)
      let lost := absentMap f.mesh f.sizes found.absent s.devId s.fab.lostMap
      let s := { s with
        vin := { s.vin with inventory := List.range (moduleCount f.mesh f.sizes) }
        fab := { s.fab with discovered := true, lastUp := now s, lostMap := lost } }
      let s := setPartner s (pickPartner s)
      elect (endStep s 5 0 (words s)) found.eligible)

/-- Step 7: the meridian has locked. The master then starts the agreement on vintage 0 (R556, R557). -/
def execMeridianLock (s : State) : Out :=
  .next (if atStep s 6 = false ∨ ¬ (isMaster s ∨ 3 ≤ s.mer.goodSyncs) then s
    else
      let s := logMeridian { s with mer := { s.mer with locked := true } } 1
      let s := endStep s 7 0 (merWords s)
      if isMaster s then startChange s s.rlx.flash.image0 0 ((now s + 2 ^ 26) % 2 ^ 64) none else s)

/-- The budget of a step in mt; step 2 has none (R556). -/
def startBudget (step : Nat) : Option Nat :=
  match step with
  | 1 => some 6144000000
  | 3 => some 204800000
  | 4 => some 30720000000
  | 5 => some (2 ^ 33)
  | 6 => some (2 ^ 26)
  | 7 => some (2 ^ 34)
  | 8 => some (2 ^ 27)
  | 9 => some 4096
  | 10 => some 40960000
  | _ => none

/-- A step exceeds its budget: start-up stops there with the outcome of its row; in step 8 the module is divergent and
waits for catch-up (R556). -/
def execStartupStepTimeout (s : State) : Out :=
  let n := s.power.step + 1
  .next (match startBudget n with
    | none => s
    | some b =>
      if atStep s (n - 1) = false ∨ since s s.power.stepAt < b then s
      else
        match n with
        | 1 => failStep { s with power := { s.power with bootRom := true } } 1 []
        | 3 => faultAt (failStep (mainOff s) 3 []) 0x15 5 0 0 0 0 0
        | 4 => faultAt (failStep s 4 [memChon s, 0, 0, 0]) 0x06 5 0 0 0 0 0
        | 5 =>
          let t := failStep s 5 [hzStat s, hzCfg s, idnLoc s, 0]
          if s.rlx.flash.sizes.any (fun k => decide (1 < k)) ∧ upPorts s = [] then isolateModule t else t
        | 7 => faultAt (failStep s 7 (merWords s)) 0x10 5 0 0 0 0 0
        | 8 => if s.vin.divergent then s
          else startEntry { s with vin := { s.vin with divergent := true } } 8 3 (merWords s)
        | _ => failStep s n (if n = 6 then merWords s else []))

/-! ## Steps 9 and 10 (R47, R558) -/

/-- Each stamp counter starts at its recorded value plus 2^32; one that has already passed that value goes on (R47; log
entry 75). -/
def startCounters (s : State) : State :=
  let start := fun (k m : Nat) => (m + 2 ^ 32) % 2 ^ counterWidth k
  s.marks.foldl (fun s (e : Nat × Nat) =>
    let n := start e.1 e.2
    let c := counterOf s e.1
    if counterLater (counterWidth e.1) c n then s
    else { s with counters := Table.set counterStart s.counters e.1 n }) s

/-- The words of a signed image's body: what stands between its header and its signature (R510). -/
def imageBody (ws : List Word) : List Word := (ws.drop 8).take (ws.length - 20)

/-- The core of cluster `k` whose retirement record stands, if one does: its spare takes its place (R163). -/
def retiredIn (s : State) (k : Nat) : Option Nat :=
  (clusterCores k).find? (fun n => n % 17 != 16 && Table.get noFlag s.rlx.flash.retired n)

/-- A core at release: powered and invalidated, unless it is retired or an idle spare (R163, R188, R556). -/
def releaseCore (s : State) (n : Nat) : State :=
  let gone := Table.get noFlag s.rlx.flash.retired n
  updCore s n (fun c =>
    let c := { coldCore n c with voff := c.voff, req := c.req }
    if gone then { c with sxtState := 3 }
    else if n % 17 = 16 then
      match retiredIn s (n / 17) with
      | some m => { c with power := true, sxtState := 2, sxtFor := coreSlot m }
      | none => c
    else { c with power := true })

/-- The clusters whose spare carries a retired core's work. -/
def sparesAtStart (s : State) : Nat :=
  (List.range 16).foldl (fun a k =>
    if (retiredIn s k).isSome ∧ Table.get noFlag s.rlx.flash.retired (spareOf k) = false then a + 2 ^ k else a) 0

/-- The cores that are released. -/
def activeCores (s : State) : List Nat := allCores.filter (fun n => (getCore s n).power)

/-- The bonded start image: loaded at local offset 0, its granules tagged for zone 0, its first body word the bevb of
every active core (R558). -/
def loadBonded (s : State) (ws : List Word) : State :=
  let s := (engPutWords rep s (mkAddr s.devId 0) ws 0 0).2
  let s := { s with mem := { s.mem with
    tags := (List.range ((8 * ws.length + 2 ^ 21 - 1) / 2 ^ 21)).foldl (fun t g => Table.set zeroOf t g 1) s.mem.tags } }
  let bevb := ctlValue 0x10 (wordAt (imageBody ws) 0)
  let s := { s with bnd := { s.bnd with bevb := bevb } }
  updCores s (activeCores s) (fun _ c => { c with regs := c.regs.setCtl 0x10 bevb })

/-- The master loads the system loader, binds vcore 0 of zone 0 to its lowest active core, and starts it (R558). -/
def loadSystem (s : State) (ws : List Word) : State :=
  let a := mkAddr s.devId 0x400000
  let s := (engPutWords rep s a ws 0 0).2
  match activeCores s with
  | [] => s
  | n :: _ => startedVcore (updVcore s 0 0 (fun _ => ⟨n, 1, false⟩)) 0 0 (a + 64)

/-- Steps 9 and 10: the stamp counters start, the cores are released, and the start images are loaded. An image that
fails its signature leaves the cores unbound, class C2 (R47, R556, R558). -/
def execCoreRelease (signatureOk : Bool) (s : State) : Out :=
  .next (if atStep s 8 = false then s
    else
      let s := endStep (startCounters s) 9 0 []
      let s := allCores.foldl releaseCore s
      let s := (List.range 20).foldl (fun s d => updDom s d (fun x => { x with state := 1 })) s
      let q := fun (i : Nat) => (quadCores i).any (fun n => (getCore s n).power)
      let s := { s with
        quadOnline := quads.foldl (fun a i => if q i then a + 2 ^ i else a) 0
        spareInUse := sparesAtStart s }
      if signatureOk = false then faultAt (failStep s 10 []) 0x12 2 0 0 0 3 0
      else
        let s := match s.rlx.flash.bonded with
          | some ws => loadBonded s ws
          | none => s
        let s := match s.rlx.flash.loader with
          | some ws => if isMaster s ∧ s.vin.vintage = 0 then loadSystem s ws else s
          | none => s
        endStep s 10 0 [])

end Sys2Proof.Machine
end

