-- ==== Sys2Proof/Machine/Bonded.lean ====
section
/-! DEFINITION. The rows of the bonded world's registers, its watchdog, and the JTAG port (R473 to R479, R570). -/

namespace Sys2Proof.Machine

def execBndOwnWrite (q : IoReq) (v : Word) (s : State) : Out :=
  .next (mainReg s (writeOwn s q v))

def execDbgEnWrite (q : IoReq) (core : Nat) (v : Word) (s : State) : Out :=
  .next (mainReg s (if 272 ≤ core then s else writeDbg s q core v))

/-- The debug enables of a core permit a request: by the world that the core is in; bi implies bn (R473). -/
def debugPermitted (c : Core) (invasive : Bool) : Bool :=
  if c.regs.w then (if invasive then c.dbgBi else c.dbgBi || c.dbgBn)
  else (if invasive then c.dbgOi else c.dbgOn)

/-- A JTAG request: one that is not permitted reads 0 and is recorded; a permitted one reads out or scans, and changes no
register that a rule names (R473, R570). -/
def execJtagRequest (r : JtagReq) (s : State) : Out :=
  let refuse := faultAt s 0x14 0 0 0 0 2 0
  .next (match r with
    | .debug n invasive => if n < 272 ∧ debugPermitted (getCore s n) invasive then s else refuse
    | .flash => if s.rlx.running then refuse else s
    | .boundary => s)

/-- The bonded watchdog reaches its expiry: a logbook entry with the expiry, the stamp of the last BWDR and its core, then a
module reset with cause 4. A checkstop stops the watchdog (R476, R535). -/
def execBondedWatchdogExpiry (straps : Straps) (s : State) : Out :=
  .next (if s.bnd.wdgArmed = false ∨ s.flt.checkstop ∨ 2 ^ 63 ≤ (now s + 2 ^ 64 - s.bnd.wdgExp) % 2 ^ 64 then s
    else
      let b := s.bnd
      moduleReset (logAdd s 0x0042 b.wdgStamp [BitVec.ofNat 64 b.wdgExp, b.wdgStamp, BitVec.ofNat 64 b.wdgCore]) straps 4)

end Sys2Proof.Machine
end

