-- ==== Sys2Proof/Machine/Cellar.lean ====
section
/-! DEFINITION. Rows of the memory subsystem and of the cellar: temperature polls, retraining, patrol scrub, the ends of
a cellaring and of a decant, the engines' assignment, the QoS period (R242 to R249, R256 to R260, R399, R450, R451). -/

namespace Sys2Proof.Machine

/-- The MR4 poll, every 2^22 mt: the refresh rate of each channel follows its status (R242). -/
def execMr4Poll (status : List (Nat × Nat)) (s : State) : Out :=
  .next (if ¬ hubUp s then s else status.foldl (fun s x => if x.1 < 64 then updChan s x.1 (fun c => { c with refresh := x.2 }) else s) s)

/-- A channel of the same package retrains (R244): packages hold four channels. -/
def packageBusy (s : State) (c : Nat) : Bool :=
  (List.range 4).any (fun i => (getChan s (c / 4 * 4 + i)).state == 1)

/-- A retraining starts at its planned meridian, or for MEM_RETRAIN: deferred while a meridian fault is set, one channel
of a package at a time (R28, R244). -/
def execMemoryRetrain (c : Nat) (s : State) : Out :=
  let x := getChan s c
  let asked := (inProgress s).any (fun m => cmdCode m.2.words == 0x030B && m.2.started && m.2.outcome.isNone &&
    (cmdP m.2.words 1).toNat == c)
  let due := decide (x.dueAt ≤ now s)
  .next (if hubUp s ∧ c < 64 ∧ x.online ∧ x.state = 0 ∧ packageBusy s c = false ∧ s.mer.fault = false ∧ (due || asked) then
      updChan s c (fun x => { x with state := 1 }) else s)

/-- MEM_CHAN[c] (R264). -/
def memChan (s : State) (c : Nat) : Word :=
  let x := getChan s c
  BitVec.ofNat 64 (x.rd % 256 * 2 ^ 56 + x.wr % 256 * 2 ^ 48 + x.interval % 256 * 2 ^ 40 + x.state % 16 * 2 ^ 4)

/-- A retraining ends: the margins, the next planned meridian, and the commands and requests that waited for it (R244,
R501). -/
def execMemoryRetrainDone (c rd wr : Nat) (s : State) : Out :=
  .next (if (getChan s c).state ≠ 1 then s
    else
      let s := updChan s c (fun x => { x with
        state := 0, rd := rd, wr := wr, dueAt := (now s + 2 ^ x.interval) % 2 ^ 64
        base := if x.base = 0 then Nat.min rd wr else x.base })
      resumeWaiting ((inProgress s).foldl (fun s m =>
        if cmdCode m.2.words = 0x030B ∧ m.2.started ∧ (cmdP m.2.words 1).toNat = c then setOutcome s m.1 (okRes [memChan s c])
        else s) s))

/-- A patrol pass starts at a multiple of 2^46 mt; while one runs, or in a meridian fault, the boundary is skipped (R28,
R248). -/
def execPatrolPassStart (s : State) : Out :=
  let i := now s / 2 ^ 46
  .next (if hubUp s = false ∨ i = s.mem.scrubIdx then s
    else
      let s := { s with mem := { s.mem with scrubIdx := i } }
      if s.mem.scrubRunning then
        let (st, s) := issueStamp s 0x60
        logAdd { s with mem := { s.mem with scrubHeld := true } } 0x0014 st [6, 0, 0, 0]
      else if s.mer.fault then { s with mem := { s.mem with scrubHeld := true } }
      else
        let s := { s with mem := { s.mem with scrubRunning := true, scrubHeld := false } }
        (List.range 64).foldl (fun s c => updChan s c (fun x => { x with scrubPos := 0 })) s)

/-- One scrub read of a channel, handled and recorded as any read, with the scrub bit set (R246, R248, R249, R514); none
while the channel is in retraining (R244). -/
def execScrubLine (c : Nat) (e : ReadFinding) (s : State) : Out :=
  let p := (getChan s c).scrubPos
  .next (if hubUp s = false ∨ 64 ≤ c ∨ s.mem.scrubRunning = false ∨ scrubLines s ≤ p ∨ (getChan s c).state = 1 then s
    else
      let f := scrubOffset c p
      let s := updChan s c (fun x => { x with scrubPos := p + 1 })
      let s := (channelRead s (f / 128) (frameZone s (f / 4096)) 0 true e).2
      if (List.range 64).all (fun k => decide (scrubLines s ≤ (getChan s k).scrubPos)) then
        { s with mem := { s.mem with scrubRunning := false, scrubPasses := satAdd 32 s.mem.scrubPasses 1 } }
      else s)

/-- The engine has compressed and verified a page: steps 3 to 6 of a cellaring; a page that was touched meanwhile ends
TOUCHED (R256, R257, R401). -/
def execCellaringCompressed (page : Nat) (verifyOk : Bool) (s : State) : Out :=
  .next (match s.mem.cellarings.find? (fun c => c.page == page &&
      (c.phase == 8 || c.phase == 9 || (c.phase == 2 && (engineOf s (.cellaring page)).isSome))) with
    | none => s
    | some c =>
      let s := if c.phase = 8 ∨ c.phase = 9 then endCellaring s c 0x0305
        else
          let (bytes, bad) := pageContent s page
          if bad then endCellaring (unTransit s page) c 0x0301
          else if verifyOk = false then
            let s := verifyFail s ((engineOf s (.cellaring page)).getD 0) (getPage s page).zone
            endCellaring (unTransit s page) c 0x0302
          else if s.mem.zeroEn ∧ bytes.all (· == 0) then storeImage s c bytes []
          else match lzPage (min 3071 (128 * s.mem.maxGran)) bytes with
            | none => endCellaring (unTransit s page) c 0x0303
            | some im => storeImage s c bytes im
      runCellar 33 s c.mbx)

/-- A granule or the descriptor of an image has an uncorrectable error: the line takes the marker and is recorded as any such
read; which line it is, and its syndrome, are open (R246, R259). -/
def granuleLost (s : State) (im : CellImage) : State :=
  let fls := imageLines s im
  match fls[Config.freeNat s.fresh % fls.length]? with
  | none => s
  | some fl =>
    let d := BitVec.ofNat 64 (chanOf (fl * 128) + Config.freeNat (s.fresh + 1) % 2 ^ 32 * 2 ^ 32)
    let s := { nextFree (nextFree s) with mem := { s.mem with eccUe := satAdd 16 s.mem.eccUe 1 } }
    faultAt (poisonFrame s fl) 0x06 2 0 0 (BitVec.ofNat 64 (fl * 128)) d im.zone

/-- The engine has expanded a cellared page: the CRC decides between its content and the poison marker, the page is
mapped, its granules are freed, and the held requests go on (R258, R259). -/
def execDecantExpanded (page : Nat) (readOk : Bool) (s : State) : Out :=
  .next (match s.mem.decants.find? (fun d => d.page == page) with
    | none => s
    | some d =>
      if d.phase = 3 then releaseHeld (endJob s (.decant page)) d
      else if d.phase = 2 then
        let s := endJob s (.decant page)
        let s := match readOk, Assoc.get s.mem.cellared page with
          | false, some im => granuleLost { s with mem := { s.mem with
              cellared := Assoc.put s.mem.cellared page { im with bad := true } } } im
          | _, _ => s
        let zone := (getPage s page).zone
        let r := decantInto s page d.frame
        let s := if r.1 then faultAt r.2 0x07 2 0 0 0 (BitVec.ofNat 64 page) zone else r.2
        releaseHeld s d
      else s)

/-- The code of a job in CMP_ENG.job. -/
def jobCode (s : State) : CmpJob → Nat
  | .chn n => match (getChn s n).stream with
    | some st => if st.updates ≠ 0 then 5 else st.kind
    | none => match (getChn s n).desc with
      | some d => d.comp
      | none => 0
  | .cellaring _ => 3
  | .decant _ => 4

/-- A cellaring that waits asks again for the copies of its page that are still out (R256 step 2). -/
def askJob (s : State) : CmpJob → State
  | .cellaring p => if (getPage s p).st = 2 then backPage s p (getPage s p).loc else s
  | _ => s

/-- A job can take an engine: a cellaring waits for its page's lines, and for the engine that an earlier one of the page
still has (R256, R257). -/
def jobReady (s : State) : CmpJob → Bool
  | .cellaring p => pageReady s p && (engineOf s (.cellaring p)).isNone
  | _ => true

/-- The first waiting job that can take one takes the lowest idle engine in service (R399). -/
def execCompressionJobAssign (s : State) : Out :=
  let s := s.cmp.queue.foldl askJob s
  .next (match s.cmp.queue.find? (jobReady s), idleEngine s with
    | some j, some e =>
      let code := jobCode s j
      let s := { s with cmp := { s.cmp with queue := List.delFirst (· == j) s.cmp.queue } }
      let s := updEng s e (fun x => { x with job := code, run := some j })
      match j with
      | .decant p => { s with mem := { s.mem with decants := s.mem.decants.map (fun d =>
          if d.page = p ∧ d.phase = 1 then { d with phase := 2, engine := e } else d) } }
      | .cellaring p => { s with mem := { s.mem with cellarings := s.mem.cellarings.map (fun c =>
          if c.page = p ∧ c.phase = 1 then { c with phase := 2 } else c) } }
      | .chn n => updChn s n (fun c => { c with eng := some e })
    | _, _ => s)

/-- An accounting period starts at each multiple of 2^24 mt: memory credits and decant budgets are new, and the decants
that waited for a budget and the requests that waited for credit go on (R258, R449 to R451). -/
def execQosPeriod (s : State) : Out :=
  let i := now s / 2 ^ 24
  .next (if hubUp s = false ∨ i = s.zon.qosIdx then s
    else
      let s := { s with zon := { s.zon with qosIdx := i } }
      let s := (liveZones s).foldl (fun s z =>
        let (e, s) := zoneEntry rep s z
        let q := match e with | some ws => entryQos s ws | none => 0
        updZone s z (fun x => { x with credit := q.field 47 32 * 1024, spent := 0 })) s
      resumeWaiting ((s.mem.decants.filter (fun d => d.phase == 0)).foldl (fun s d => decantPop s d) s))

end Sys2Proof.Machine
end

