-- ==== Sys2Proof/Machine/CmdOps.lean ====
section
/-! DEFINITION. How a mailbox command runs: its parameters, waiting, and the words it returns (R494, R497, R499 to
R511). -/

namespace Sys2Proof.Machine

/-- What a command answers at once, or nothing where it goes on or waits. -/
abbrev CmdOut := Option CmdResult × State

def ok (ws : List Word) (s : State) : CmdOut := (some (okRes ws), s)
def bad (e : Nat) (s : State) : CmdOut := (some (errRes e), s)

/-- The bits of p1, p2, … that a command's table row names (R498 to R511); a bit of such a word that is not named is
reserved (log entry 76). -/
def paramMask (code : Nat) : List Nat :=
  let all := 2 ^ 64 - 1
  match code with
  | 0x0104 | 0x0105 => [2 ^ 32 - 1]
  | 0x0201 | 0x0202 | 0x0203 | 0x0204 | 0x0205 | 0x0206 | 0x0208 | 0x0209 | 0x020A => [2 ^ 24 - 1]
  | 0x0207 => [2 ^ 24 - 1, 0x1FF]
  | 0x020B | 0x020C => [0x1FF]
  | 0x0301 | 0x0303 => [all, 0x3FF, 0xFFF]
  | 0x0302 => [all, 0x3FF]
  | 0x0304 => [all, 1]
  | 0x0305 => [all, 0x3F]
  | 0x0306 => [all, 0xFFFF]
  | 0x0307 => [0xF]
  | 0x0308 => [0xFFF, 0xFFF, 2 ^ 29 - 1]
  | 0x0309 => [0xFFF, 2 ^ 29 - 1]
  | 0x030A => [0xFFF]
  | 0x030B => [0x3F]
  | 0x0401 => [0xF]
  | 0x0402 => [0xF, 0xB]
  | 0x0403 => [0xF, 3]
  | 0x0404 => [0x3FF]
  | 0x0501 => [0x1FFFF]
  | 0x0502 | 0x0505 => [0xFFFF]
  | 0x0503 => [3, 2 ^ 24 - 1]
  | 0x0504 => [0xFFFF, all, 0xFF]
  | 0x0601 => [0x1F]
  | 0x0701 | 0x0702 | 0x0703 => [0x1FF]
  | 0x0801 => [3]
  | 0x0901 => [0x10FFF]
  | 0x0902 => [0xFFF]
  | 0x0903 | 0x0904 => [0xFFFFF]
  | 0x0B01 | 0x0B02 | 0x0B03 => [0x1F]
  | _ => []

def paramsOk (ws : List Word) : Bool :=
  (paramMask (cmdCode ws)).zipIdx.all (fun x => (cmdP ws (x.2 + 1)).toNat &&& x.1 == (cmdP ws (x.2 + 1)).toNat)

/-- Execute the row of a command: BAD_PARAM where a reserved parameter bit is set (R497). -/
def runRow (s : State) (m : Mbx) (code : Nat) (f : Accepted → State → CmdOut) : State :=
  runCmd s m code (fun a s => if paramsOk a.words then f a s else bad 0x0002 s)

/-- The command cannot be executed yet: its row is issued again later. -/
def waitCmd (s : State) (m : Mbx) : CmdOut :=
  (none, updBox s m (fun b => { b with acc := b.acc.map (fun a => { a with started := false }) }))

/-- The zone in whose memory a command's addresses lie, and with whose rights it asks: 0 with system authority. -/
def askZone (s : State) (m : Mbx) (a : Accepted) : Nat := if issuerSystem s m a then 0 else a.zone

/-- Read words of a command's parameter block (R80: a refusal or poisoned data is ACCESS). -/
def cmdWords (s : State) (addr : Word) (n zone : Nat) (world : Bool) : Option (List Word) × State :=
  match engWords rep s addr n zone world with
  | (.ok ws, s) => (some ws, s)
  | (.error _, s) => (none, s)

/-- Write words to a command's destination; false where the home refuses. -/
def cmdPut (s : State) (addr : Word) (ws : List Word) (zone : Nat) (world : Bool) : Bool × State :=
  match engWrite rep (ws.length + 2) s addr (wordsBytes ws) zone world 0 with
  | (.err _, s) => (false, s)
  | (_, s) => (true, s)

/-- How Relrax's own access to a register is issued: open world, the asking zone, no core, stamp 0 (R498; log
entry 164). -/
def cmdReq (zone : Nat) : IoReq := ⟨zone, false, none, 0, 0⟩

/-- The width of a register at an offset: configuration space is accessed in 4 bytes (R9, R575). -/
def regSize (off : Nat) : Nat := if 0xC10000 ≤ off ∧ off < 0xC18000 then 4 else 8

/-- Pad result words to `n`. -/
def padTo (n : Nat) (ws : List Word) : List Word := (ws ++ List.replicate n 0).take n

end Sys2Proof.Machine
end

