-- ==== Sys2Proof/Machine/CmdMem.lean ====
section
/-! DEFINITION. The commands of memory, the cellar, keys and granules (R440, R463 to R466, R501, R508). -/

namespace Sys2Proof.Machine

/-! ## Ranges of pages (R440, R501) -/

/-- Every copy of a page's lines leaves the caches, as in step 2 of R256; dirty data goes to the page's frame. -/
def backInvPage (s : State) (page : Nat) : State :=
  let loc := (getPage s page).loc
  (List.range 32).foldl (fun s j => takeLine s (page * 4096 + 128 * j) (loc * 32 + j) true) s

/-- A page that a command may not touch: in transit, tagged, or its zone or the target zone RESETTING (R440, R466, R501). -/
def pageHeld (s : State) (page target : Nat) : Option Nat :=
  let e := getPage s page
  if e.st = 2 then some 0x0306
  else if (getZone s e.zone).state = 2 ∨ (getZone s target).state = 2 then some 0x000E
  else if pageTagged s page then some 0x000C
  else none

/-- Assign one page (R440). A page with no frame of its own takes one from the target zone's list where it was in the
cellar, and stays unassigned where it was unassigned (log entry 77). -/
def assignPage (s : State) (page z : Nat) : Except Nat State :=
  match pageHeld s page z with
  | some e => .error e
  | none =>
    let e := getPage s page
    match e.st with
    | 3 => .ok (setPage s page { e with zone := z })
    | 1 =>
      match popFrame s z with
      | none => .error 0x030A
      | some (f, due, s) =>
        let s := setPage (freeImage s page) page { e with st := 0, zone := z, dir := false, loc := f }
        let s := zeroFrame s f z
        .ok (if due then rep.low z s else s)
    | _ =>
      let s := setPage (backInvPage s page) page { e with zone := z }
      .ok (zeroFrame s e.loc z)

/-- Release one page (R501). -/
def releasePage (s : State) (page _z : Nat) : Except Nat State :=
  let e := getPage s page
  match pageHeld s page e.zone with
  | some x => .error x
  | none =>
    let out := fun (s : State) => setPage s page { e with st := 3, dir := false }
    match e.st with
    | 0 => .ok (out (pushFrame (backInvPage s page) e.zone e.loc))
    | 1 => .ok (out (freeImage s page))
    | _ => .ok s

/-- Map one unassigned page (R501); a page that is not unassigned is refused as out of range (log entry 77). -/
def mapPage (s : State) (page z : Nat) : Except Nat State :=
  let e := getPage s page
  if e.st = 2 then .error 0x0306
  else if (getZone s e.zone).state = 2 ∨ (getZone s z).state = 2 then .error 0x000E
  else if e.st ≠ 3 then .error 0x0002
  else
    match popFrame s z with
    | none => .error 0x030A
    | some (f, due, s) =>
      let s := zeroFrame (setPage s page { e with st := 0, zone := z, dir := false, loc := f }) f z
      .ok (if due then rep.low z s else s)

/-- Pages in ascending order until the first refusal: r1 pages done, r2 the page refused (R501). -/
def pageRange (f : State → Nat → Nat → Except Nat State) (z : Nat) : Nat → Nat → Nat → State → CmdOut
  | 0, _, d, s => ok [BitVec.ofNat 64 d, 0] s
  | n + 1, page, d, s =>
    let stop := fun (e : Nat) => ((some ⟨e, [BitVec.ofNat 64 d, BitVec.ofNat 64 page]⟩, s) : CmdOut)
    if usablePages s ≤ page then stop 0x0002
    else match f s page z with
      | .error e => stop e
      | .ok s => pageRange f z n (page + 1) (d + 1) s

/-- A range command: 1 to 512 pages. -/
def rangeCmd (f : State → Nat → Nat → Except Nat State) (z : Nat) (a : Accepted) (s : State) : CmdOut :=
  let n := (cmdP a.words 2).toNat
  if n = 0 ∨ 512 < n then bad 0x0002 s else pageRange f z n (cmdP a.words 1).toNat 0 s

/-- The mapped pages of a list have their lines called in; whether all of it is done, each answer and write-back of
these lines being in (R256 step 2, R501). -/
def callPages (s : State) (ps : List Nat) : Bool × State :=
  let ps := ps.filter (fun p => decide (p < usablePages s) && (getPage s p).st == 0)
  let s := ps.foldl (fun s p => backPage s p (getPage s p).loc) s
  (ps.all (pageReady s), s)

/-- The pages that a range command names and may touch, for a target zone where it has one. -/
def rangePages (s : State) (a : Accepted) (z : Option Nat) : List Nat :=
  let n := (cmdP a.words 2).toNat
  if 512 < n then []
  else ((List.range n).map (fun i => (cmdP a.words 1).toNat + i)).filter (fun p =>
    (pageHeld s p (z.getD (getPage s p).zone)).isNone)

/-- PAGE_ASSIGN waits until the lines of its pages are called in (R440, R501). -/
def execPageAssign (m : Mbx) (s : State) : Out :=
  .next (runRow s m 0x0301 (fun a s =>
    let z := (cmdP a.words 3).toNat
    let (ready, s) := callPages s (rangePages s a (some z))
    if ready then rangeCmd assignPage z a s else waitCmd s m))

/-- PAGE_RELEASE, likewise (R501). -/
def execPageRelease (m : Mbx) (s : State) : Out :=
  .next (runRow s m 0x0302 (fun a s =>
    let (ready, s) := callPages s (rangePages s a none)
    if ready then rangeCmd releasePage 0 a s else waitCmd s m))

def execPageMap (m : Mbx) (s : State) : Out :=
  .next (runRow s m 0x0303 (fun a s => rangeCmd mapPage (cmdP a.words 3).toNat a s))

def execPagePin (m : Mbx) (s : State) : Out :=
  .next (runRow s m 0x0304 (fun a s =>
    let p := (cmdP a.words 1).toNat
    let e := getPage s p
    if usablePages s ≤ p then bad 0x0002 s
    else if notOwner s m a e.zone then bad 0x000F s
    else if e.st = 2 then bad 0x0306 s
    else ok [] (setPage s p { e with pin := (cmdP a.words 2).bit 0 })))

/-! ## The cellar (R253, R256, R501) -/

/-- CELLAR: the list is read in the issuer's zone; its pages are taken in order, and the command ends with the last. -/
def execCellar (m : Mbx) (s : State) : Out :=
  .next (runRow s m 0x0305 (fun a s =>
    let n := (cmdP a.words 2).toNat
    if n = 0 ∨ 32 < n then bad 0x0002 s
    else
      match cmdWords s (cmdP a.words 1) n (askZone s m a) false with
      | (none, s) => bad 0x000B s
      | (some ws, s) =>
        let s := updBox s m (fun b => { b with acc := b.acc.map (fun a => { a with results := List.replicate n 0 }) })
        let cs : List Cellaring := ws.zipIdx.map (fun x => ⟨x.1.toNat, m, x.2, 0⟩)
        (none, runCellar 64 { s with mem := { s.mem with cellarings := s.mem.cellarings ++ cs } } m)))

/-- The lowest `n` block numbers that no range uses. -/
def lowBlocks (used : List Nat) (n : Nat) : List Nat :=
  ((List.range (used.length + n)).filter (fun b => !(used.contains b))).take n

/-- Each frame of a list names the next one; the last names none (R255; log entry 181). -/
def relink (s : State) (fs : List Nat) : State :=
  (fs.zip (fs.drop 1 ++ [0])).foldl (fun s x => linkFrame s x.1 x.2) s

/-- The lowest free position of the 16. -/
def freePosition (s : State) : Option Nat := (List.range 16).find? (fun p => (Assoc.get s.mem.pool p).isNone)

def execPoolAdd (m : Mbx) (s : State) : Out :=
  .next (runRow s m 0x0306 (fun a s =>
    let first := (cmdP a.words 1).toNat
    let n := (cmdP a.words 2).toNat
    let used := poolBlocks s.mem
    if first % 512 ≠ 0 ∨ n = 0 ∨ usablePages s < first + 512 * n then bad 0x0002 s
    else
      match freePosition s with
      | none => bad 0x0308 s
      | some p =>
        let l := (getList s 0).frames
        let mine := fun (f : Nat) => decide (first ≤ f ∧ f < first + 512 * n)
        if 131072 < used.length + n then bad 0x0308 s
        else if (l.filter mine).length ≠ 512 * n then bad 0x0307 s
        else
          let bs := lowBlocks used n
          let left := l.filter (fun f => !(mine f))
          let s := updList (relink s left) 0 (fun x => { x with frames := left })
          let s := { s with mem := { s.mem with pool := Assoc.put s.mem.pool p ⟨first / 512, n, bs⟩ } }
          ok [BitVec.ofNat 64 s.mem.pool.length, BitVec.ofNat 64 p, BitVec.ofNat 64 (bs.headD 0)] s))

def execPoolRemove (m : Mbx) (s : State) : Out :=
  .next (runRow s m 0x0307 (fun a s =>
    let p := (cmdP a.words 1).field 3 0
    match Assoc.get s.mem.pool p with
    | none => bad 0x0002 s
    | some r =>
      if s.mem.usedGran.any (fun e => r.blocks.contains (e.1 / 16384)) then bad 0x0309 s
      else
        let s := { s with mem := { s.mem with pool := Assoc.del s.mem.pool p } }
        ok [] ((List.range (512 * r.units)).foldl (fun s i => pushFrame s 0 (512 * r.first + i)) s)))

/-! ## Free lists (R255, R501) -/

/-- LIST_MOVE: all frames or none; the low-water rule is applied once, at the end. -/
def moveFrames (s : State) (z t n : Nat) : CmdOut :=
  let l := getList s z
  let held := l.frames.length
  if held < n then (some ⟨0x030A, [0, BitVec.ofNat 64 held]⟩, s)
  else
    let s := updList s z (fun x => { x with frames := x.frames.drop n })
    let s := (l.frames.take n).foldl (fun s f =>
      updList (linkFrame s f ((getList s t).frames.headD 0)) t (fun x => { x with frames := f :: x.frames })) s
    let s := updList s t (fun x => { x with lowSent := x.lowSent && decide (x.frames.length ≤ x.lowMark) })
    let l := getList s z
    let due := decide (l.frames.length ≤ l.lowMark) && !l.lowSent && decide (n ≠ 0)
    let s := if due then rep.low z (updList s z (fun x => { x with lowSent := true })) else s
    ok [BitVec.ofNat 64 n, BitVec.ofNat 64 held] s

def execListMove (m : Mbx) (s : State) : Out :=
  .next (runRow s m 0x0308 (fun a s =>
    moveFrames s (cmdP a.words 1).toNat (cmdP a.words 2).toNat (cmdP a.words 3).toNat))

def execListMark (m : Mbx) (s : State) : Out :=
  .next (runRow s m 0x0309 (fun a s =>
    ok [] (updList s (cmdP a.words 1).toNat (fun x => { x with lowMark := (cmdP a.words 2).toNat }))))

/-- A zone's entry in the free-list table (R255). -/
def listWords (l : FreeList) : List Word :=
  [BitVec.ofNat 64 (l.frames.length % 2 ^ 29 * 2 ^ 32 + l.frames.headD 0 % 2 ^ 29),
    BitVec.ofNat 64 (l.lowSent.toNat * 2 ^ 63 + l.lowMark % 2 ^ 29 * 2 ^ 32)]

def execListRead (m : Mbx) (s : State) : Out :=
  .next (runRow s m 0x030A (fun a s =>
    let z := (cmdP a.words 1).toNat
    let l := getList s z
    if notOwner s m a z then bad 0x000F s
    else ok (listWords l) s))

/-- MEM_RETRAIN: asked for here; MEMORY_RETRAIN starts it and MEMORY_RETRAIN_DONE ends the command. -/
def execMemRetrain (m : Mbx) (s : State) : Out :=
  .next (runRow s m 0x030B (fun _ s => (none, s)))

/-! ## Keys (R419, R508) -/

/-- Bonded code of the slot's owner, or of zone 0, may name a slot. -/
def slotNamed (s : State) (a : Accepted) (slot : Nat) : Bool :=
  decide (a.zone = 0 ∨ (keyMapOf s slot).field 27 16 = a.zone)

/-- A key block lies in a tagged granule of the issuing zone; another module's tags are its own concern. -/
def keyBlockOk (s : State) (a : Accepted) (addr : Word) : Bool :=
  decide (addrDev addr ≠ s.devId) ||
    (granTag s (addrOff addr / 2 ^ 21) == a.zone + 1 && granTag s ((addrOff addr + 71) / 2 ^ 21) == a.zone + 1)

/-- The error of a refused commit (R419, R512). -/
def commitError (r : Nat) : Nat := match r with | 1 => 0x0901 | 2 => 0x0902 | _ => 0x0903

/-- 256 bits from four words, the first lowest. -/
def keyOf (ws : List Word) : BitVec 256 :=
  BitVec.ofNat 256 ((List.range 4).foldl (fun a i => a + (wordAt ws i).toNat * 2 ^ (64 * i)) 0)

def execKeyLoad (m : Mbx) (s : State) : Out :=
  .next (runRow s m 0x0901 (fun a s =>
    let slot := (cmdP a.words 1).field 11 0
    let aes := (cmdP a.words 1).bit 16
    if slotNamed s a slot = false then bad 0x000F s
    else if s.cip.kstBusy then waitCmd s m
    else if keyBlockOk s a (cmdP a.words 2) = false then bad 0x000B s
    else
      match cmdWords s (cmdP a.words 2) 9 a.zone true with
      | (none, s) => bad 0x000B s
      | (some ws, s) =>
        let k1 := keyOf (ws.take 4)
        let k2 := keyOf ((ws.drop 4).take 4)
        match loadRefused s slot aes k1 k2 with
        | some r => bad (commitError r) (commitLoad s slot aes k1 k2 0 none)
        | none => (none, commitLoad s slot aes k1 k2 ((wordAt ws 8).field 31 0) (some m))))

def execKeyScrub (m : Mbx) (s : State) : Out :=
  .next (runRow s m 0x0902 (fun a s =>
    let slot := (cmdP a.words 1).field 11 0
    if slotNamed s a slot = false then bad 0x000F s
    else if s.cip.kstBusy then waitCmd s m
    else if slot = 0 then bad 0x0903 (commitScrub s 0 none)
    else (none, commitScrub s slot (some m))))

/-! ## Granules (R465) -/

def granPages (g : Nat) : List Nat := (List.range 512).map (fun i => 512 * g + i)

/-- The zone of a granule whose 512 pages are all mapped and belong to it. -/
def granZone (s : State) (g : Nat) : Option Nat :=
  let z := (getPage s (512 * g)).zone
  if (granPages g).all (fun p => (getPage s p).st == 0 && (getPage s p).zone == z) then some z else none

def setTag (s : State) (g v : Nat) : State := { s with mem := { s.mem with tags := Table.set zeroOf s.mem.tags g v } }

def execGranuleTag (m : Mbx) (s : State) : Out :=
  .next (runRow s m 0x0903 (fun a s =>
    let g := (cmdP a.words 1).toNat
    if usablePages s ≤ 512 * g then bad 0x0002 s
    else
      match granZone s g with
      | none => bad 0x0301 s
      | some z =>
        if a.zone ≠ 0 ∧ a.zone ≠ z then bad 0x0301 s
        else
          let (ready, s) := callPages s (granPages g)
          if ready then ok [] (setTag ((granPages g).foldl backInvPage s) g (z + 1)) else waitCmd s m))

def execGranuleUntag (m : Mbx) (s : State) : Out :=
  .next (runRow s m 0x0904 (fun a s =>
    let g := (cmdP a.words 1).toNat
    let t := granTag s g
    if usablePages s ≤ 512 * g then bad 0x0002 s
    else if t = 0 then bad 0x0301 s
    else if a.zone ≠ 0 ∧ a.zone ≠ t - 1 then bad 0x000F s
    else
      let (ready, s) := callPages s (granPages g)
      if ready then
        let s := (granPages g).foldl (fun s p => zeroFrame (backInvPage s p) (getPage s p).loc (t - 1)) s
        ok [] (setTag s g 0)
      else waitCmd s m))

end Sys2Proof.Machine
end

