-- ==== Sys2Proof/Machine/CmdSys.lean ====
section
/-! DEFINITION. The commands of the fabric, channels, faults, margins, vintage, microcode and power (R502 to R506, R509
to R511). -/

namespace Sys2Proof.Machine

/-! ## Fabric (0x04xx, R502) -/

def pPort (a : Accepted) : Nat := (cmdP a.words 1).field 3 0

def execPortStatus (m : Mbx) (s : State) : Out :=
  .next (runRow s m 0x0401 (fun a s =>
    let x := getPort s (pPort a)
    if 12 ≤ pPort a then bad 0x0002 s else ok [hzPst x, hzPcnt x, hzPfec x, hzPdly x] s))

def execPortSet (m : Mbx) (s : State) : Out :=
  .next (runRow s m 0x0402 (fun a s =>
    if 12 ≤ pPort a then bad 0x0002 s else ok [] (writePctl s (pPort a) (cmdP a.words 2))))

/-- PORT_RETRAIN: done when the lane has retrained; a lane of the one pair that works waits (R295; log entry 219). -/
def execPortRetrain (m : Mbx) (s : State) : Out :=
  .next (runRow s m 0x0403 (fun a s =>
    let x := getPort s (pPort a)
    if 12 ≤ pPort a then bad 0x0002 s
    else if x.state ≠ 2 ∨ x.rtLane.isSome then bad 0x0401 s
    else (none, orderLane s (pPort a) (cmdP a.words 2).toNat)))

def execLostRead (m : Mbx) (s : State) : Out :=
  .next (runRow s m 0x0404 (fun a s =>
    let j := (cmdP a.words 1).toNat
    ok ((List.range 30).map (fun i => if j + i < 1024 then hzLost s (j + i) else 0)) s))

/-! ## Channels (0x05xx, R336 to R339, R503) -/

def pSub (a : Accepted) : Nat := (cmdP a.words 1).field 15 0

/-- START: ends once the operation has started; while no channel processor has room it waits (R337). -/
def execStart (m : Mbx) (s : State) : Out :=
  .next (runRow s m 0x0501 (fun a s =>
    if s.chs.en = false then bad 0x000A s
    else
      match startCheck s (askZone s m a) (pSub a) (cmdP a.words 2) ((cmdP a.words 1).bit 16) with
      | (.error e, s) => bad e s
      | (.ok e, s) =>
        if (getZone s (eZone e)).state = 2 then bad 0x000E s
        else
          match pickCp s with
          | none => waitCmd s m
          | some cp => (none, acceptOp s cp (pSub a) e (cmdP a.words 2) (cmdP a.words 3) (some m))))

/-- The entry of a subchannel that the asker may name, or the error (R503). -/
def ownSub (s : State) (m : Mbx) (a : Accepted) : Except Nat (List Word) × State :=
  if nsubOf s ≤ pSub a then (.error 0x0501, s)
  else
    match subEntry s (pSub a) with
    | (none, s) => (.error 0x0501, s)
    | (some e, s) =>
      if entryOk e = false then (.error 0x0501, s)
      else if askZone s m a ≠ 0 ∧ eZone e ≠ askZone s m a then (.error 0x000F, s)
      else (.ok e, s)

def execHalt (m : Mbx) (s : State) : Out :=
  .next (runRow s m 0x0502 (fun a s =>
    match ownSub s m a with
    | (.error e, s) => bad e s
    | (.ok _, s) =>
      match getOp s (pSub a) with
      | none => bad 0x0506 s
      | some o => ok [o.jr.stamp] (haltOp s (pSub a) 1)))

/-- A zone's entry is read again at its next use (R335). -/
def forgetZone (s : State) (z : Nat) : State := updZone s z (fun x => { x with entry := none })

/-- Forward a command to every other module of the inventory, with Relrax as its source (R490, R503). -/
def forwardAll (s : State) (m : Mbx) (ws : List Word) : State :=
  (otherDevs s).foldl (fun s d => forwardCmd s m 3 0 ws d) s

/-- REFRESH: of a zone's entry it goes to every module, and ends when the last has refreshed. -/
def execRefresh (m : Mbx) (s : State) : Out :=
  .next (runRow s m 0x0503 (fun a s =>
    let t := (cmdP a.words 1).toNat
    let i := (cmdP a.words 2).toNat
    let z := askZone s m a
    if t = 3 ∨ (t = 0 ∧ 65536 ≤ i) ∨ (t = 1 ∧ 4096 ≤ i) then bad 0x0002 s
    else if z ≠ 0 ∧ ¬ (t = 2 ∧ i / 4096 = z) then bad 0x000F s
    else
      match t with
      | 0 => if nsubOf s ≤ i then bad 0x0501 s
          else ok [] { s with chs := { s.chs with subCache := Assoc.del s.chs.subCache i } }
      | 1 =>
        let s := forgetZone s i
        if boxKind s m = 3 ∨ otherDevs s = [] then ok [] s else (none, forwardAll s m a.words)
      | _ => ok [] { s with chs := { s.chs with vcCache := Assoc.del s.chs.vcCache i } }))

/-- The held entries that an asker sees: its own, or all for zone 0 (R358, R503). -/
def seesHeld (z : Nat) (h : HeldEntry) : Bool := z == 0 || h.zone == z

/-- Copy held entries out, oldest first; a copied entry is released. Answers how many, or nothing where the home refuses. -/
def copyHeld (dev z : Nat) : Nat → Nat → Word → State → Option Nat × State
  | 0, k, _, s => (some k, s)
  | n + 1, k, dst, s =>
    let pick := fun (h : HeldEntry) => h.dev == dev && seesHeld z h
    match s.chs.held.find? pick with
    | none => (some k, s)
    | some h =>
      match cmdPut s dst h.words z false with
      | (false, s) => (none, s)
      | (true, s) =>
        copyHeld dev z n (k + 1) (dst + 64) { s with chs := { s.chs with held := List.delFirst pick s.chs.held } }

def execOrphanRead (m : Mbx) (s : State) : Out :=
  .next (runRow s m 0x0504 (fun a s =>
    let z := askZone s m a
    match copyHeld (pSub a) z (cmdP a.words 3).toNat 0 (cmdP a.words 2) s with
    | (none, s) => bad 0x000B s
    | (some k, s) => ok [BitVec.ofNat 64 k, BitVec.ofNat 64 (s.chs.held.filter (seesHeld z)).length] s))

def execSubStatus (m : Mbx) (s : State) : Out :=
  .next (runRow s m 0x0505 (fun a s =>
    match ownSub s m a with
    | (.error e, s) => bad e s
    | (.ok _, s) =>
      let (st, w) := match getOp s (pSub a) with
        | some o => (o.jr.stamp, wordAt (jrWords o.jr) 0)
        | none => (0, 0)
      ok [chsScst s (pSub a), st, w] s))

/-! ## Faults and logbook (0x06xx, R504) -/

def execHistory (m : Mbx) (s : State) : Out :=
  .next (runRow s m 0x0601 (fun a s =>
    let rs := (s.flt.hist.drop (cmdP a.words 1).toNat).take 3
    ok (padTo 24 (rs.flatMap (fun r => r.words false)) ++ [BitVec.ofNat 64 rs.length]) s))

def execFaultAck (m : Mbx) (s : State) : Out :=
  .next (runRow s m 0x0602 (fun a s =>
    if (findUnack s (cmdP a.words 1)).isSome then ok [] (ackRec s (cmdP a.words 1)) else bad 0x0601 s))

/-- The position after slot `k` of a segment (R533, R536). -/
def posAfter (seq k : Nat) : Nat := if 16382 ≤ k then (seq + 1) * 2 ^ 14 + 1 else seq * 2 ^ 14 + k + 1

/-- LOG_READ: up to three entries of one segment, as they are stored (R536). -/
def execLogRead (m : Mbx) (s : State) : Out :=
  .next (runRow s m 0x0603 (fun a s =>
    let p := (cmdP a.words 1).toNat
    let k := p % 2 ^ 14
    match (List.range 16).find? (fun i => let g := Table.get segOf s.log.segs i; g.state != 0 && g.seqNo == p / 2 ^ 14) with
    | none => bad 0x0602 s
    | some i =>
      let es := (Table.get segOf s.log.segs i).entries
      if k = 0 ∨ es.length < k then bad 0x0602 s
      else
        let out := (es.drop (k - 1)).take 3
        ok (padTo 24 (out.flatMap LogEntry.words) ++ [BitVec.ofNat 64 (posAfter (p / 2 ^ 14) (k + out.length - 1))]) s))

def execErrRelease (m : Mbx) (s : State) : Out := .next (runRow s m 0x0604 (fun _ s => ok [] (releaseErr s)))

/-- LOG_NOTE: 40 bytes of text (R535). -/
def execLogNote (m : Mbx) (s : State) : Out :=
  .next (runRow s m 0x0605 (fun a s =>
    let (st, s) := issueStamp s 0x60
    let p5 := cmdP a.words 5
    ok [st] (logPut s (mkEntry s 0x0050 (p5.field 31 0) st ((List.range 4).map (fun i => cmdP a.words (i + 1)))
      (p5.field 63 32)))))

/-! ## Sextant and margins (0x07xx, R505) -/

def pCore (a : Accepted) : Nat := (cmdP a.words 1).field 8 0

def execCoreRead (m : Mbx) (s : State) : Out :=
  .next (runRow s m 0x0701 (fun a s =>
    let n := pCore a
    if 272 ≤ n then bad 0x0002 s
    else ok [sxtCore s n, BitVec.ofNat 64 ((getCore s n).baseline % 256),
      Word.flag (Table.get noFlag s.rlx.flash.retired n) 0] s))

/-- RETIRE_CLEAR: takes effect at the next start-up (R163). -/
def execRetireClear (m : Mbx) (s : State) : Out :=
  .next (runRow s m 0x0702 (fun a s =>
    let f := s.rlx.flash
    if 272 ≤ pCore a then bad 0x0002 s
    else if Table.get noFlag f.retired (pCore a) = false then bad 0x0701 s
    else ok [] { s with rlx := { s.rlx with flash := { f with retired := Table.set noFlag f.retired (pCore a) false } } }))

/-- CORE_RELIEVE: a relief with reason 3 starts; the command ends with it (R160). -/
def execCoreRelieve (m : Mbx) (s : State) : Out :=
  .next (runRow s m 0x0703 (fun a s =>
    let n := pCore a
    let runs := match vcoreOn s n with | some (z, v) => (getVcore s z v).state == 2 | none => false
    if 272 ≤ n then bad 0x0002 s
    else if spareReady s (coreCluster n) = false then bad 0x0702 s
    else if runs = false then bad 0x0203 s
    else if mayRest (getCore s n) = false then waitCmd s m
    else (none, startRelief s n 3 (now s) (some m))))

/-! ## Vintage and configuration (0x08xx, R23, R24, R36, R506, R507) -/

/-- A PPS edge has been accepted within 3 s (R569). -/
def ppsPresent (s : State) : Bool := match s.mer.ppsLast with | some t => decide (since s t < 3 * second) | none => false

/-- Select the source; a set value waits for the next PPS edge, or is loaded at once where no PPS is present (R23). -/
def selectSource (s : State) (src : Nat) (v : Word) : State :=
  let s := { s with mer := { s.mer with src := src, holdover := false, setVal := none } }
  if src ≠ 2 then s
  else if ppsPresent s then { s with mer := { s.mer with setVal := some v.toNat } }
  else { s with mer := { s.mer with ext := v.toNat * 2 ^ 32, slew := 0 } }

def execMerSource (m : Mbx) (s : State) : Out :=
  .next (runRow s m 0x0801 (fun a s =>
    let src := (cmdP a.words 1).toNat
    if src = 3 then bad 0x0002 s
    else if src = 2 ∧ s.mer.locked then bad 0x0801 s
    else if isMaster s = false then bad 0x0402 s
    else ok [] (selectSource s src (cmdP a.words 2))))

/-- Read an image from zone 0 memory: its vintage and its sections, or the malformed item, 0 for the header (R507). -/
def readImage (s : State) (addr : Word) : Option (Except Nat CfgImage) × State :=
  match cmdWords s addr 8 0 false with
  | (none, s) => (none, s)
  | (some h, s) =>
    let w := wordAt h 0
    let len := w.field 63 32
    let v := (wordAt h 1).toNat
    if w.field 31 16 ≠ 6 ∨ w.field 15 0 ≠ 1 ∨ len % 8 ≠ 0 ∨ len < 64 ∨ 2 ^ 24 < len ∨ (h.drop 2).any (· != 0) ∨
        v ≠ (s.vin.vintage + 1) % 2 ^ 32 then (some (.error 0), s)
    else
      match cmdWords s (addr + 64) (len / 8 - 8) 0 false with
      | (none, s) => (none, s)
      | (some ws, s) => (some (parseSections v ws), s)

/-- CONFIG_INVALID with the item and the rule (R506). -/
def configInvalid (item rule : Nat) (s : State) : CmdOut :=
  (some ⟨0x0802, [BitVec.ofNat 64 item, BitVec.ofNat 64 rule]⟩, s)

def execVintageChange (m : Mbx) (s : State) : Out :=
  .next (runRow s m 0x0802 (fun a s =>
    let lead := (cmdP a.words 2).toNat
    let act := (now s + lead) % 2 ^ 64
    if s.mer.masterId.isNone then bad 0x0805 s
    else if isMaster s = false then bad 0x0402 s
    else if s.vin.prep.isSome ∨ s.vin.staged.isSome then bad 0x0803 s
    else if lead < 2 ^ 26 ∨ 2 ^ 63 ≤ lead then bad 0x0002 s
    else
      match readImage s (cmdP a.words 1) with
      | (none, s) => bad 0x000B s
      | (some (.error i), s) => configInvalid i 4 s
      | (some (.ok c), s) =>
        match imageFault s c with
        | (some (i, r), s) => configInvalid i r s
        | (none, s) => (none, startChange s c c.vintage act (some m))))

def execConfigRead (m : Mbx) (s : State) : Out :=
  .next (runRow s m 0x0803 (fun _ s => ok [vinStat s, s.vin.digest, vinAct s] s))

def execConfigExport (m : Mbx) (s : State) : Out :=
  .next (runRow s m 0x0804 (fun a s =>
    let ws := imageWords s.vin.cfg s.vin.vintage
    match cmdPut s (cmdP a.words 1) ws 0 false with
    | (false, s) => bad 0x000B s
    | (true, s) => ok [BitVec.ofNat 64 (8 * ws.length)] s))

/-! ## Signed images (0x0Axx, R509, R510) -/

/-- A signed image as read, where its length can be one. -/
def signedImage (s : State) (addr : Word) (len : Nat) : Option (List Word) × State :=
  if len % 8 ≠ 0 ∨ len < 160 ∨ 2 ^ 24 < len then (some [], s) else cmdWords s addr (len / 8) 0 false

def imageKind (ws : List Word) : Nat := (wordAt ws 0).field 63 48
def imageVer (ws : List Word) : Nat := (wordAt ws 0).field 47 32

/-- The signature verifies under Clocen's key, or, but for kind 2, under the customer key (R510, R551). -/
def signed (s : State) (ws : List Word) : Bool :=
  Config.signatureGood ws [] ||
    (imageKind ws != 2 && (match s.rlx.flash.custKey with | some k => Config.signatureGood ws k | none => false))

/-- The header is one of kind `k`, with this total length; only kind 1 uses words 1 and 2. -/
def headerOk (ws : List Word) (k len : Nat) : Bool :=
  decide (imageKind ws = k ∧ (wordAt ws 0).field 31 0 = len ∧ ws.length * 8 = len) &&
    (if k = 1 then
      let n := (wordAt ws 2).field 31 16
      decide ((wordAt ws 1).field 63 32 = 0 ∧ (wordAt ws 2).field 63 32 = 0 ∧ n ≤ 8192 ∧
        (wordAt ws 2).field 15 0 + n ≤ 8192 ∧ len = 160 + 16 * n) && (ws.take 8 |>.drop 3).all (· == 0)
     else (ws.take 8 |>.drop 1).all (· == 0))

def acceptVersion (s : State) (ws : List Word) : State :=
  let f := s.rlx.flash
  { s with rlx := { s.rlx with flash := { f with maxVer := Table.upd zeroOf f.maxVer (imageKind ws) (max (imageVer ws)) } } }

/-- The checks of a signed image in the order SIGNATURE, IMAGE_INVALID, ROLLBACK (R509; log entry 78). -/
def imageRefused (s : State) (ws : List Word) (kinds : List Nat) (len : Nat) : Option Nat :=
  if ws = [] then some 0x0A02
  else if signed s ws = false then some 0x0A01
  else if !(kinds.any (fun k => headerOk ws k len)) then some 0x0A02
  else if imageVer ws < Table.get zeroOf s.rlx.flash.maxVer (imageKind ws) then some 0x0A03
  else none

/-- UCODE_LOAD: the codes of the image are cleared, and the words are stored once no operation executes a customer word
(R365). -/
def execUcodeLoad (m : Mbx) (s : State) : Out :=
  .next (runRow s m 0x0A01 (fun a s =>
    let len := (cmdP a.words 2).toNat
    match signedImage s (cmdP a.words 1) len with
    | (none, s) => bad 0x000B s
    | (some ws, s) =>
      match imageRefused s ws [1] len with
      | some e => bad e s
      | none =>
        let codes := (wordAt ws 1).field 31 0
        let first := (wordAt ws 2).field 15 0
        let n := (wordAt ws 2).field 31 16
        let body := imageBody ws
        let mw := (List.range n).map (fun i =>
          (first + i, (wordAt body (2 * i)).toNat + (wordAt body (2 * i + 1)).toNat * 2 ^ 64))
        let s := acceptVersion s ws
        let s := { s with chs := { s.chs with
          custCodes := s.chs.custCodes ^^^ (s.chs.custCodes &&& codes)
          load := some (m, now s, mw, codes, imageVer ws) } }
        (none, tryUcodeLoad s)))

/-- UCODE_KEY: succeeds once in a module's life (R510). -/
def execUcodeKey (m : Mbx) (s : State) : Out :=
  .next (runRow s m 0x0A02 (fun a s =>
    if s.rlx.flash.custKey.isSome then bad 0x0801 s
    else
      match cmdWords s (cmdP a.words 1) 6 0 false with
      | (none, s) => bad 0x000B s
      | (some ws, s) => ok [] { s with rlx := { s.rlx with flash := { s.rlx.flash with custKey := some ws } } }))

/-- What an accepted image replaces: the Relrax copy that does not run, the bonded start image or the system loader
(R551). -/
def storeFlash (s : State) (ws : List Word) : State :=
  let f := s.rlx.flash
  let f := match imageKind ws with
    | 2 => if s.rlx.copy = 0 then { f with okB := true, verB := imageVer ws } else { f with okA := true, verA := imageVer ws }
    | 3 => { f with bonded := some ws }
    | _ => { f with loader := some ws }
  { s with rlx := { s.rlx with flash := f } }

def execFlashUpdate (m : Mbx) (s : State) : Out :=
  .next (runRow s m 0x0A03 (fun a s =>
    let len := (cmdP a.words 2).toNat
    match signedImage s (cmdP a.words 1) len with
    | (none, s) => bad 0x000B s
    | (some ws, s) =>
      match imageRefused s ws [2, 3, 4] len with
      | some e => bad e s
      | none => ok [BitVec.ofNat 64 (imageVer ws)] (storeFlash (acceptVersion s ws) ws)))

/-! ## Power (0x0Bxx, R281 to R284, R474, R511, R549) -/

def pDom (a : Accepted) : Nat := (cmdP a.words 1).field 4 0

/-- DRAINING, FLUSHING or POWERING. -/
def inTransition (s : State) (d : Nat) : Bool := decide (2 ≤ (getDom s d).state)

/-- A vcore is dispatched on a core of the domain (R281). -/
def domInUse (s : State) (d : Nat) : Bool :=
  s.zon.vcores.any (fun e => (e.2.state == 2 || e.2.state == 3) && (domCores d).contains e.2.core)

/-- The bonded world owns the domain, a cluster of it, or a core of it that runs with w = 1 (R474). -/
def domBonded (s : State) (d : Nat) : Bool :=
  (if d < 16 then s.bnd.clus.testBit d
   else s.bnd.quad.testBit (d - 16) || (List.range 4).any (fun i => s.bnd.clus.testBit (4 * (d - 16) + i))) ||
    (domCores d).any (fun n => (getCore s n).run && (getCore s n).regs.w)

/-- T0 of a power-off: DRAINING; the cores stop, their buffers drain from here on, their reservations are lost (R282 steps 1
to 3). -/
def startOff (s : State) (d : Nat) (m : Mbx) : State :=
  let s := updDom s d (fun x => { x with state := 2, t0 := now s, nacks := 0, mbx := some m })
  (domCores d).foldl (fun s n =>
    let s := updCore s n (fun c => { c with run := false, bundle := none, entering := none })
    updCore (leaveWc (endDeferral s n) n) n (fun c => { c with rsv := none })) s

def execDomainOff (m : Mbx) (s : State) : Out :=
  .next (runRow s m 0x0B01 (fun a s =>
    let d := pDom a
    if 20 ≤ d then bad 0x0002 s
    else if domInUse s d then bad 0x0B01 s
    else if inTransition s d ∨ (d < 16 ∧ inTransition s (16 + d / 4)) then bad 0x0B02 s
    else if (getDom s d).state = 0 then ok [] s
    else if domBonded s d then bad 0x000C s
    else (none, startOff s d m)))

def execDomainOn (m : Mbx) (s : State) : Out :=
  .next (runRow s m 0x0B02 (fun a s =>
    let d := pDom a
    if 20 ≤ d then bad 0x0002 s
    else if inTransition s d ∨ (d < 16 ∧ (getDom s (16 + d / 4)).state ≠ 1) then bad 0x0B02 s
    else if (getDom s d).state = 1 then ok [] s
    else (none, updDom s d (fun x => { x with state := 4, t0 := now s, isolated := none, mbx := some m }))))

/-- DOMAIN_CANCEL: a DRAINING domain is ONLINE again and its held requests go on; the DOMAIN_OFF that is cancelled ends
with DOMAIN_TRANSITION (R284, R511; log entry 79). -/
def execDomainCancel (m : Mbx) (s : State) : Out :=
  .next (runRow s m 0x0B03 (fun a s =>
    let d := pDom a
    let x := getDom s d
    if 20 ≤ d then bad 0x0002 s
    else if x.state = 3 then bad 0x0B03 s
    else if x.state ≠ 2 then bad 0x0B02 s
    else
      let s := updDom s d (fun x => { x with state := 1, held := [], mbx := none })
      let s := { s with tree := { s.tree with net := s.tree.net ++ x.held } }
      ok [] (setOutcomeOpt s x.mbx (errRes 0x0B02))))

/-- Every powered core's stores have drained. -/
def allDrained (s : State) : Bool := allCores.all (fun n => !(getCore s n).power || coreDrained (getCore s n))

/-- Every core stops; once their buffers have drained, every line leaves the caches (R88, R511). -/
def quiesceAll (s : State) : State :=
  let s := allCores.foldl (fun s n => if (getCore s n).power then quiesceCore s n else s) s
  if allDrained s then (s.lines.map (·.1)).foldl (fun s k => evictLine s (k / 2 ^ 50) (k % 2 ^ 50)) s else s

/-- POWER_DOWN: its result follows the last write-back; the stamp counters are recorded (R47, R511). -/
def execPowerDown (m : Mbx) (s : State) : Out :=
  .next (runRow s m 0x0B04 (fun _ s =>
    if s.zon.zones.any (fun z => z.1 != 0 && (z.2.state == 1 || z.2.state == 2)) then bad 0x0201 s
    else
      let s := quiesceAll s
      if allDrained s = false ∨ s.wbs ≠ [] then waitCmd s m
      else
        let s := recordMarks s
        ok [] { s with power := { s.power with downPending := true } }))

/-- MODULE_RESET: its result survives the reset in the host mailbox (R511, R552). -/
def execModuleReset (m : Mbx) (straps : Straps) (s : State) : Out :=
  .next (match readyCmd s m 0x0B05 with
    | none => s
    | some _ => moduleReset (completeCmd (setOutcome (startCmd s m) m (okRes [])) m) straps 3)

end Sys2Proof.Machine
end

