-- ==== Sys2Proof/Machine/CmdZone.lean ====
section
/-! DEFINITION. The commands of identity, registers, zones and vcores (R498 to R500). -/

namespace Sys2Proof.Machine

/-! ## Identity and inventory (0x01xx, R498) -/

def execIdentity (m : Mbx) (s : State) : Out :=
  .next (runRow s m 0x0101 (fun _ s =>
    ok [idnPart, idnLoc s,
      BitVec.ofNat 64 ((if s.part.oneTib then 1024 else 2048) * 2 ^ 48 + usableBytes s / 2 ^ 30 * 2 ^ 32 + s.part.fuseB.toNat),
      s.part.serial, BitVec.ofNat 64 (s.rlx.version % 2 ^ 32 * 2 ^ 32 + s.chs.custImage % 2 ^ 32)] s))

/-- The states of sixteen cores, four bits each. -/
def coreStates (s : State) (i : Nat) : Word :=
  BitVec.ofNat 64 ((List.range 16).foldl (fun a j => a + (getCore s (16 * i + j)).sxtState % 16 * 2 ^ (4 * j)) 0)

def execInventory (m : Mbx) (s : State) : Out :=
  .next (runRow s m 0x0102 (fun _ s =>
    ok ([BitVec.ofNat 64 (s.quadOnline % 16 * 2 ^ 16 + s.spareInUse % 2 ^ 16), memChon s, hzStat s,
      BitVec.ofNat 64 (cpOk s * 2 ^ 32 + cipOos s * 2 ^ 8 + cmpOos s), sxtStat s] ++ (List.range 17).map (coreStates s)) s))

def execSystem (m : Mbx) (s : State) : Out :=
  .next (runRow s m 0x0103 (fun _ s =>
    ok [merStat s, vinStat s, s.vin.digest, hzCfg s, BitVec.ofNat 64 s.vin.inventory.length] s))

/-- REG_READ: an access that R9 or R18 does not perform is recorded, and answered with ACCESS. -/
def execRegRead (m : Mbx) (s : State) : Out :=
  .next (runRow s m 0x0104 (fun a s =>
    let off := (cmdP a.words 1).field 31 0
    let q := cmdReq (askZone s m a)
    match readLocal s q off (regSize off) with
    | some v => ok [BitVec.ofNat 64 v] s
    | none => bad 0x000B (discard s q off)))

def execRegWrite (m : Mbx) (s : State) : Out :=
  .next (runRow s m 0x0105 (fun a s =>
    let off := (cmdP a.words 1).field 31 0
    let q := cmdReq (askZone s m a)
    match writeLocal s q off (regSize off) (cmdP a.words 2).toNat with
    | some s => ok [] s
    | none => bad 0x000B (discard s q off)))

/-! ## Zones (R438, R499) -/

/-- The zone and the vcid that p1 names. -/
def pZone (a : Accepted) : Nat := (cmdP a.words 1).field 11 0
def pVcid (a : Accepted) : Nat := (cmdP a.words 1).field 23 12

def setZoneState (s : State) (z st : Nat) : State := updZone s z (fun x => { x with state := st })

def execZoneCreate (m : Mbx) (s : State) : Out :=
  .next (runRow s m 0x0201 (fun a s =>
    let z := pZone a
    if z = 0 ∨ (getZone s z).state ≠ 0 then bad 0x0201 s else ok [] (setZoneState s z 3)))

def execZoneActivate (m : Mbx) (s : State) : Out :=
  .next (runRow s m 0x0202 (fun a s =>
    let z := pZone a
    if z = 0 ∨ (getZone s z).state ≠ 3 then bad 0x0201 s else ok [] (setZoneState s z 1)))

/-- ZONE_STOP: every running vcore is stopped; while one is HELD, or stores of one drain, the command waits. -/
def execZoneStop (m : Mbx) (s : State) : Out :=
  .next (runRow s m 0x0203 (fun a s =>
    let z := pZone a
    if z = 0 ∨ (getZone s z).state ≠ 1 then bad 0x0201 s
    else
      let s := (zoneVcores s z).foldl (fun s v => quiesceVcore s z v.1) s
      if resetStepDone s z 4 = false then waitCmd s m
      else ok [] (setZoneState s z 3)))

/-- The subchannel table names the zone in a valid entry (R438). -/
def subNames (s : State) (z : Nat) : Bool × State :=
  if s.chs.en = false then (false, s)
  else (List.range (nsubOf s)).foldl (fun (r : Bool × State) n =>
    if r.1 then r
    else match engWords rep r.2 (r.2.chs.sctb + BitVec.ofNat 64 (128 * n)) 1 0 false with
      | (.ok ws, s) => ((wordAt ws 0).bit 63 && eZone ws == z, s)
      | (.error _, s) => (false, s)) (false, s)

/-- A zone holds a resource on this module (R438). -/
def holdsHere (s : State) (z : Nat) : Bool :=
  zoneVcores s z != [] || s.mem.pages.any (fun e => e.2.zone == z && e.2.st != 3) || (getList s z).frames != [] ||
    s.mov.chns.any (fun c => c.2.en && c.2.zone == z) || s.mem.tags.any (fun e => e.2 == z + 1) ||
    s.cip.slots.any (fun e => e.2.loaded && (keyMapOf s e.1).field 27 16 == z)

/-- A zone holds a resource on any module; what other modules hold is open (R438). -/
def zoneHolds (s : State) (z : Nat) : Bool × State :=
  if holdsHere s z then (true, s)
  else
    let (b, s) := subNames s z
    if b then (true, s)
    else if otherDevs s = [] then (false, s)
    else (Config.freeBool s.fresh, nextFree s)

def execZoneDestroy (m : Mbx) (s : State) : Out :=
  .next (runRow s m 0x0204 (fun a s =>
    let z := pZone a
    if z = 0 ∨ (getZone s z).state ≠ 3 then bad 0x0201 s
    else
      let (b, s) := zoneHolds s z
      if b then bad 0x0202 s else ok [] (setZoneState s z 0)))

/-- ZONE_RESET: it starts a reset, or joins the running one, and ends with it (R454, R456). -/
def execZoneReset (m : Mbx) (s : State) : Out :=
  .next (runRow s m 0x0205 (fun a s =>
    let z := pZone a
    if notOwner s m a z then bad 0x000F s
    else
      match requestReset s z (some m) (boxKind s m) a.zone with
      | (some _, s) => (none, s)
      | (none, s) => bad 0x0201 s))

def execZoneStatus (m : Mbx) (s : State) : Out :=
  .next (runRow s m 0x0206 (fun a s =>
    let z := pZone a
    if notOwner s m a z then bad 0x000F s
    else ok [BitVec.ofNat 64 (getZone s z).state, zwStat s z] s))

/-! ## Vcores (R441, R499, R500) -/

/-- Both power domains that hold a core are ONLINE (R281). -/
def coreOnline (s : State) (n : Nat) : Bool := (getDom s (n / 17)).state == 1 && (getDom s (16 + n / 68)).state == 1

/-- A core can take a vcore: not bound, ONLINE, powered, neither lost nor retired (R512). -/
def coreAvailable (s : State) (n : Nat) : Bool :=
  let c := getCore s n
  decide (n < 272) && (vcoreOn s n).isNone && coreOnline s n && c.power && (c.sxtState == 0 || c.sxtState == 2)

def execVcoreBind (m : Mbx) (s : State) : Out :=
  .next (runRow s m 0x0207 (fun a s =>
    let z := pZone a
    let v := pVcid a
    let n := (cmdP a.words 2).field 8 0
    let (e, s) := zoneEntry rep s z
    let nvc := match e with | some ws => entryNvc ws | none => 4095
    if 272 ≤ n ∨ nvc < v then bad 0x0002 s
    else if (getZone s z).state = 0 then bad 0x0201 s
    else if (getZone s z).state = 2 then bad 0x000E s
    else if (getVcore s z v).state ≠ 0 then bad 0x0203 s
    else if coreAvailable s n = false then bad 0x0204 s
    else ok [] (updVcore s z v (fun _ => ⟨n, 1, false⟩))))

/-- VCORE_UNBIND: of a STOPPED or LOST vcore; a doorbell pending with it is gone. -/
def execVcoreUnbind (m : Mbx) (s : State) : Out :=
  .next (runRow s m 0x0208 (fun a s =>
    let x := getVcore s (pZone a) (pVcid a)
    if x.state ≠ 1 ∧ x.state ≠ 4 then bad 0x0203 s else ok [] (updVcore s (pZone a) (pVcid a) (fun _ => ⟨0, 0, false⟩))))

def execVcoreStart (m : Mbx) (s : State) : Out :=
  .next (runRow s m 0x0209 (fun a s =>
    let z := pZone a
    let v := pVcid a
    if notOwner s m a z then bad 0x000F s
    else if (getZone s z).state ≠ 1 then bad 0x0201 s
    else if (getVcore s z v).state ≠ 1 then bad 0x0203 s
    else if coreOnline s (getVcore s z v).core = false then bad 0x0204 s
    else if s.vin.divergent then bad 0x000D s
    else
      if coreDrained (getCore s (getVcore s z v).core) = false then waitCmd s m
      else
      match startVcore s z v (cmdP a.words 2) with
      | (none, s) => ok [] s
      | (some (r1, r2), s) => (some ⟨0x0205, [BitVec.ofNat 64 r1, BitVec.ofNat 64 r2]⟩, s)))

def execVcoreStop (m : Mbx) (s : State) : Out :=
  .next (runRow s m 0x020A (fun a s =>
    let z := pZone a
    let v := pVcid a
    if notOwner s m a z then bad 0x000F s
    else
      match (getVcore s z v).state with
      | 1 | 2 =>
        let s := quiesceVcore s z v
        if coreDrained (getCore s (getVcore s z v).core) then ok [] s else waitCmd s m
      | 3 => waitCmd s m
      | _ => bad 0x0203 s))

/-! ## State images (R164 to R166, R499) -/

/-- Whether an image holds bonded state: psw.w or a bonded control register (R166). -/
def imageBonded (im : StateImage) : Bool :=
  im.regs.w || (List.range 8).any (fun i => im.regs.getCtl (0x10 + i) != 0)

/-- The registers that a reader without the bonded mailbox sees of such an image (R166). -/
def maskRegs' (r : CoreRegs) : CoreRegs :=
  { r with g := [], acc := [], dsp := 0, rsp := 0, fcsr := 0, ctl := r.ctl.filter (fun e => decide (e.1 < 0x10 ∨ 0x17 < e.1)) }

/-- A store-buffer entry of an image (R165). -/
def bufWords (hide : Bool) (e : BufEntry) : List Word :=
  let d := if hide then 0 else e.data.toNat
  [e.addr, BitVec.ofNat 64 d, BitVec.ofNat 64 (d / 2 ^ 64), BitVec.ofNat 64 (e.size % 32 + e.typ % 4 * 2 ^ 5 + e.zone % 4096 * 2 ^ 7)]

/-- The registers' part of an image: bytes 0x0040 to 0x0FFF; the accumulators stand in the first half of their 128 bytes
(R164; log entry 176). -/
def imageRegs (r : CoreRegs) (buf : List BufEntry) (hide : Bool) : List Word :=
  (List.range 64).map r.getG ++
    padTo 16 ((List.range 4).flatMap (fun i =>
      [BitVec.ofNat 64 (r.getAcc i).toNat, BitVec.ofNat 64 ((r.getAcc i).toNat / 2 ^ 64)])) ++
    [r.pc, r.dsp, r.rsp, r.pcount, r.psw, r.fcsr, 0, 0] ++ (List.range 32).map r.getCtl ++
    (List.range 16).flatMap (fun i =>
      let d := r.getSeg i
      [d.base, d.limit, BitVec.ofNat 64 d.attr.toNat, BitVec.ofNat 64 d.sel.toNat]) ++
    padTo 128 ((buf.take 32).flatMap (bufWords hide)) ++ List.replicate 192 0

/-- Word 0x0008 and word 0x0020 of an image. -/
def imageWhere (s : State) (n : Nat) (im : StateImage) : Word :=
  BitVec.ofNat 64 (s.devId % 65536 * 2 ^ 48 + n * 2 ^ 32 + coreCluster n * 2 ^ 24 + im.zone % 4096 * 2 ^ 12 + im.vcid % 4096)

def imageFlags (im : StateImage) : Word :=
  BitVec.ofNat 64 (im.reason % 256 * 2 ^ 8 + im.doorbell.toNat * 8 + im.sbValid.toNat * 4 + im.world.toNat * 2 + im.valid.toNat)

/-- The 2,048 words of an image; the diagnostic section is open, and the copy keeps the image's CRC (R164, R166). -/
def imageOf (s : State) (n : Nat) (im : StateImage) (hide : Bool) : List Word :=
  let diag := (List.range 1536).map (fun i => Config.freeWord (s.fresh * 4096 + i))
  let body := fun (h : Bool) => imageRegs (if h then maskRegs' im.regs else im.regs) im.buf h ++ diag
  let crc := BitVec.ofNat 64 (crc64 (wordsBytes (body false)))
  [0x0000400000000004#64, imageWhere s n im, im.stamp, BitVec.ofNat 64 im.mer, imageFlags im,
   BitVec.ofNat 64 (min 32 im.buf.length), 0, crc] ++ body hide

/-- IMAGE_READ: the whole image through the bonded mailbox only (R166). -/
def execImageRead (m : Mbx) (s : State) : Out :=
  .next (runRow s m 0x020B (fun a s =>
    let n := (cmdP a.words 1).field 8 0
    let z := askZone s m a
    let bonded := boxKind s m == 2
    if 272 ≤ n then bad 0x0002 s
    else match Assoc.get s.sxt.images n with
      | none => bad 0x0206 s
      | some im =>
        if z ≠ 0 ∧ im.zone ≠ z then bad 0x000F s
        else
          let ws := imageOf s n im (imageBonded im && !bonded)
          match cmdPut (nextFree s) (cmdP a.words 2) ws z bonded with
          | (false, s) => bad 0x000B s
          | (true, s) => ok [imageWhere s n im, imageFlags im] s))

def execImageRelease (m : Mbx) (s : State) : Out :=
  .next (runRow s m 0x020C (fun a s =>
    let n := (cmdP a.words 1).field 8 0
    let z := askZone s m a
    if 272 ≤ n then bad 0x0002 s
    else match Assoc.get s.sxt.images n with
      | none => bad 0x0206 s
      | some im =>
        if z ≠ 0 ∧ im.zone ≠ z then bad 0x000F s
        else ok [] { s with sxt := { s.sxt with images := Assoc.del s.sxt.images n } }))

end Sys2Proof.Machine
end

