-- ==== Sys2Proof/Machine/CoreInt.lean ====
section
/-! DEFINITION. The integer syllables' meanings (R98 to R106, R131 to R133). -/

namespace Sys2Proof.Machine

/-- An integer syllable: the result in gd, flags as R101 states. -/
def intSyl (s : State) (sl : Slot) (i : Instr) (f : Bool) (d : Reg) (res : CoreRegs → IntRes) : State :=
  regSyl s sl unitInt i (fun r w =>
    let x := res r
    { w.setG d.toNat x.r with psw := intFlags w.psw f x })

/-- A syllable without flags. -/
def moveSyl (s : State) (sl : Slot) (i : Instr) (d : Reg) (res : CoreRegs → Word) : State :=
  regSyl s sl unitInt i (fun r w => w.setG d.toNat (res r))

/-- ADD (R100). -/
def execAdd (sl : Slot) (f : Bool) (d a b : Reg) (s : State) : Out :=
  .next (intSyl s sl (.add sl f d a b) f d (fun r => intAdd (r.getG a.toNat) (r.getG b.toNat) false))

/-- ADC (R100). -/
def execAdc (sl : Slot) (f : Bool) (d a b : Reg) (s : State) : Out :=
  .next (intSyl s sl (.adc sl f d a b) f d (fun r => intAdd (r.getG a.toNat) (r.getG b.toNat) (r.psw.bit 1)))

/-- SUB (R100). -/
def execSub (sl : Slot) (f : Bool) (d a b : Reg) (s : State) : Out :=
  .next (intSyl s sl (.sub sl f d a b) f d (fun r => intSub (r.getG a.toNat) (r.getG b.toNat) false))

/-- SBC (R100). -/
def execSbc (sl : Slot) (f : Bool) (d a b : Reg) (s : State) : Out :=
  .next (intSyl s sl (.sbc sl f d a b) f d (fun r => intSub (r.getG a.toNat) (r.getG b.toNat) (!(r.psw.bit 1))))

/-- AND (R100). -/
def execAnd (sl : Slot) (f : Bool) (d a b : Reg) (s : State) : Out :=
  .next (intSyl s sl (.and sl f d a b) f d (fun r => plainRes ((r.getG a.toNat) &&& (r.getG b.toNat))))

/-- OR (R100). -/
def execOr (sl : Slot) (f : Bool) (d a b : Reg) (s : State) : Out :=
  .next (intSyl s sl (.or sl f d a b) f d (fun r => plainRes ((r.getG a.toNat) ||| (r.getG b.toNat))))

/-- XOR (R100). -/
def execXor (sl : Slot) (f : Bool) (d a b : Reg) (s : State) : Out :=
  .next (intSyl s sl (.xor sl f d a b) f d (fun r => plainRes ((r.getG a.toNat) ^^^ (r.getG b.toNat))))

/-- ANDN (R100). -/
def execAndn (sl : Slot) (f : Bool) (d a b : Reg) (s : State) : Out :=
  .next (intSyl s sl (.andn sl f d a b) f d (fun r => plainRes ((r.getG a.toNat) &&& ~~~(r.getG b.toNat))))

/-- MIN (R100). -/
def execMin (sl : Slot) (f : Bool) (d a b : Reg) (s : State) : Out :=
  .next (intSyl s sl (.min sl f d a b) f d (fun r => plainRes (intMin (r.getG a.toNat) (r.getG b.toNat))))

/-- MAX (R100). -/
def execMax (sl : Slot) (f : Bool) (d a b : Reg) (s : State) : Out :=
  .next (intSyl s sl (.max sl f d a b) f d (fun r => plainRes (intMax (r.getG a.toNat) (r.getG b.toNat))))

/-- MINU (R100). -/
def execMinu (sl : Slot) (f : Bool) (d a b : Reg) (s : State) : Out :=
  .next (intSyl s sl (.minu sl f d a b) f d (fun r => plainRes (intMinU (r.getG a.toNat) (r.getG b.toNat))))

/-- MAXU (R100). -/
def execMaxu (sl : Slot) (f : Bool) (d a b : Reg) (s : State) : Out :=
  .next (intSyl s sl (.maxu sl f d a b) f d (fun r => plainRes (intMaxU (r.getG a.toNat) (r.getG b.toNat))))

/-- MUL (R103). -/
def execMul (sl : Slot) (f : Bool) (d a b : Reg) (s : State) : Out :=
  .next (intSyl s sl (.mul sl f d a b) f d (fun r => intMul (r.getG a.toNat) (r.getG b.toNat)))

/-- MULHU (R103). -/
def execMulhu (sl : Slot) (f : Bool) (d a b : Reg) (s : State) : Out :=
  .next (intSyl s sl (.mulhu sl f d a b) f d (fun r => plainRes (intMulHU (r.getG a.toNat) (r.getG b.toNat))))

/-- MULHS (R103). -/
def execMulhs (sl : Slot) (f : Bool) (d a b : Reg) (s : State) : Out :=
  .next (intSyl s sl (.mulhs sl f d a b) f d (fun r => plainRes (intMulHS (r.getG a.toNat) (r.getG b.toNat))))

/-- DIVU (R103, R132). -/
def execDivu (sl : Slot) (f : Bool) (d a b : Reg) (s : State) : Out :=
  .next (intSyl s sl (.divu sl f d a b) f d (fun r => intDivU (r.getG a.toNat) (r.getG b.toNat)))

/-- DIVS (R103, R131, R132). -/
def execDivs (sl : Slot) (f : Bool) (d a b : Reg) (s : State) : Out :=
  .next (intSyl s sl (.divs sl f d a b) f d (fun r => intDivS (r.getG a.toNat) (r.getG b.toNat)))

/-- REMU (R103, R132). -/
def execRemu (sl : Slot) (f : Bool) (d a b : Reg) (s : State) : Out :=
  .next (intSyl s sl (.remu sl f d a b) f d (fun r => intRemU (r.getG a.toNat) (r.getG b.toNat)))

/-- REMS (R103, R131, R132). -/
def execRems (sl : Slot) (f : Bool) (d a b : Reg) (s : State) : Out :=
  .next (intSyl s sl (.rems sl f d a b) f d (fun r => intRemS (r.getG a.toNat) (r.getG b.toNat)))

/-- NEG (R100, R132). -/
def execNeg (sl : Slot) (f : Bool) (d a : Reg) (s : State) : Out :=
  .next (intSyl s sl (.neg sl f d a) f d (fun r => intNeg (r.getG a.toNat)))

/-- ABS (R100, R132). -/
def execAbs (sl : Slot) (f : Bool) (d a : Reg) (s : State) : Out :=
  .next (intSyl s sl (.abs sl f d a) f d (fun r => intAbs (r.getG a.toNat)))

/-- SHL: the count is all 64 bits of gb, unsigned (R102, R133). -/
def execShl (sl : Slot) (f w : Bool) (d a b : Reg) (s : State) : Out :=
  .next (intSyl s sl (.shl sl f w d a b) f d (fun r => intShift .shl w (r.getG a.toNat) (r.getG b.toNat).toNat))

/-- SHR: the count is all 64 bits of gb, unsigned (R102, R133). -/
def execShr (sl : Slot) (f w : Bool) (d a b : Reg) (s : State) : Out :=
  .next (intSyl s sl (.shr sl f w d a b) f d (fun r => intShift .shr w (r.getG a.toNat) (r.getG b.toNat).toNat))

/-- SAR: the count is all 64 bits of gb, unsigned (R102, R133). -/
def execSar (sl : Slot) (f w : Bool) (d a b : Reg) (s : State) : Out :=
  .next (intSyl s sl (.sar sl f w d a b) f d (fun r => intShift .sar w (r.getG a.toNat) (r.getG b.toNat).toNat))

/-- SAL: the count is all 64 bits of gb, unsigned (R102, R133). -/
def execSal (sl : Slot) (f w : Bool) (d a b : Reg) (s : State) : Out :=
  .next (intSyl s sl (.sal sl f w d a b) f d (fun r => intShift .sal w (r.getG a.toNat) (r.getG b.toNat).toNat))

/-- ROL: the count is all 64 bits of gb, unsigned (R102, R133). -/
def execRol (sl : Slot) (f w : Bool) (d a b : Reg) (s : State) : Out :=
  .next (intSyl s sl (.rol sl f w d a b) f d (fun r => intShift .rol w (r.getG a.toNat) (r.getG b.toNat).toNat))

/-- ROR: the count is all 64 bits of gb, unsigned (R102, R133). -/
def execRor (sl : Slot) (f w : Bool) (d a b : Reg) (s : State) : Out :=
  .next (intSyl s sl (.ror sl f w d a b) f d (fun r => intShift .ror w (r.getG a.toNat) (r.getG b.toNat).toNat))

/-- SEL: the condition is that of psw as it stood before the bundle (R99, R104). -/
def execSel (sl : Slot) (c : BitVec 4) (d a b : Reg) (s : State) : Out :=
  .next (moveSyl s sl (.sel sl c d a b) d (fun r => if condHolds c r.psw then r.getG a.toNat else r.getG b.toNat))

/-- SXTB (R105). -/
def execSxtb (sl : Slot) (d a : Reg) (s : State) : Out :=
  .next (moveSyl s sl (.sxtb sl d a) d (fun r => sextBits (r.getG a.toNat) 8))

/-- SXTH (R105). -/
def execSxth (sl : Slot) (d a : Reg) (s : State) : Out :=
  .next (moveSyl s sl (.sxth sl d a) d (fun r => sextBits (r.getG a.toNat) 16))

/-- SXTW (R105). -/
def execSxtw (sl : Slot) (d a : Reg) (s : State) : Out :=
  .next (moveSyl s sl (.sxtw sl d a) d (fun r => sextBits (r.getG a.toNat) 32))

/-- ZXTB (R105). -/
def execZxtb (sl : Slot) (d a : Reg) (s : State) : Out :=
  .next (moveSyl s sl (.zxtb sl d a) d (fun r => zextBits (r.getG a.toNat) 8))

/-- ZXTH (R105). -/
def execZxth (sl : Slot) (d a : Reg) (s : State) : Out :=
  .next (moveSyl s sl (.zxth sl d a) d (fun r => zextBits (r.getG a.toNat) 16))

/-- ZXTW (R105). -/
def execZxtw (sl : Slot) (d a : Reg) (s : State) : Out :=
  .next (moveSyl s sl (.zxtw sl d a) d (fun r => zextBits (r.getG a.toNat) 32))

/-- CLZ (R105). -/
def execClz (sl : Slot) (d a : Reg) (s : State) : Out :=
  .next (moveSyl s sl (.clz sl d a) d (fun r => intClz (r.getG a.toNat)))

/-- CTZ (R105). -/
def execCtz (sl : Slot) (d a : Reg) (s : State) : Out :=
  .next (moveSyl s sl (.ctz sl d a) d (fun r => intCtz (r.getG a.toNat)))

/-- POPC (R105). -/
def execPopc (sl : Slot) (d a : Reg) (s : State) : Out :=
  .next (moveSyl s sl (.popc sl d a) d (fun r => intPopc (r.getG a.toNat)))

/-- BSWAP (R105). -/
def execBswap (sl : Slot) (d a : Reg) (s : State) : Out :=
  .next (moveSyl s sl (.bswap sl d a) d (fun r => intBswap (r.getG a.toNat)))

/-- ADDI (R99, R101). -/
def execAddi (sl : Slot) (f : Bool) (d a : Reg) (imm : BitVec 10) (s : State) : Out :=
  .next (intSyl s sl (.addi sl f d a imm) f d (fun r => intAdd (r.getG a.toNat) (imm.signExtend 64) false))

/-- SUBI (R99, R101). -/
def execSubi (sl : Slot) (f : Bool) (d a : Reg) (imm : BitVec 10) (s : State) : Out :=
  .next (intSyl s sl (.subi sl f d a imm) f d (fun r => intSub (r.getG a.toNat) (imm.signExtend 64) false))

/-- ANDI (R99). -/
def execAndi (sl : Slot) (d a : Reg) (imm : BitVec 10) (s : State) : Out :=
  .next (moveSyl s sl (.andi sl d a imm) d (fun r => r.getG a.toNat &&& imm.setWidth 64))

/-- ORI (R99). -/
def execOri (sl : Slot) (d a : Reg) (imm : BitVec 10) (s : State) : Out :=
  .next (moveSyl s sl (.ori sl d a imm) d (fun r => r.getG a.toNat ||| imm.setWidth 64))

/-- XORI (R99). -/
def execXori (sl : Slot) (d a : Reg) (imm : BitVec 10) (s : State) : Out :=
  .next (moveSyl s sl (.xori sl d a imm) d (fun r => r.getG a.toNat ^^^ imm.setWidth 64))

/-- SHI: kind imm10[9:7], w imm10[6], count imm10[5:0] (R102). -/
def execShi (sl : Slot) (f : Bool) (d a : Reg) (imm : BitVec 10) (s : State) : Out :=
  .next (intSyl s sl (.shi sl f d a imm) f d (fun r =>
    intShift (shiftKindOf (shiKind imm)) (imm.getLsbD 6) (r.getG a.toNat) (imm.toNat % 64)))

/-- INS reads gd as it stood before the bundle (R99, R106). -/
def execIns (sl : Slot) (d : Reg) (h : BitVec 2) (imm : BitVec 16) (s : State) : Out :=
  .next (moveSyl s sl (.ins sl d h imm) d (fun r => insField (r.getG d.toNat) h imm))

/-- LDIZ (R99). -/
def execLdiz (sl : Slot) (d : Reg) (h : BitVec 2) (imm : BitVec 16) (s : State) : Out :=
  .next (moveSyl s sl (.ldiz sl d h imm) d (fun _ => ldizWord h imm))

/-- LDIO (R99). -/
def execLdio (sl : Slot) (d : Reg) (h : BitVec 2) (imm : BitVec 16) (s : State) : Out :=
  .next (moveSyl s sl (.ldio sl d h imm) d (fun _ => ldioWord h imm))

end Sys2Proof.Machine
end

