-- ==== Sys2Proof/Machine/RelraxRows.lean ====
section
/-! DEFINITION. Doorbells, rings, completions, and commands between modules (R484 to R491, R511, R549). -/

namespace Sys2Proof.Machine

/-! ## Doorbells and rings (R484, R487, R489, R491) -/

/-- A write of MBX_DB of the host or the bonded mailbox; the bonded one is of type RWB (R485). Relrax, or the boot ROM,
accepts commands while standby power is up. -/
def execMbxDbRing (m : Mbx) (q : IoReq) (v : Word) (s : State) : Out :=
  .next (if s.power.standby = false then s
    else match m with
      | .host => (boxWrite s .host q.zone 0x40 v).getD s
      | .bonded => (bondedBoxWrite s q 0x40 v).getD s
      | _ => s)

def execMbzDbRing (q : IoReq) (zone : Nat) (v : Word) (s : State) : Out :=
  .next (mainReg s (if 4096 ≤ zone then s else writeRingDb s q zone v))

def execMbzRingWrite (q : IoReq) (zone : Nat) (v : Word) (s : State) : Out :=
  .next (mainReg s (if 4096 ≤ zone then s else writeRing s q zone v))

/-- The result of a command whose outcome is decided is written. After POWER_DOWN's, memory goes to self refresh and the
main rails turn off (R491, R511, R549). -/
def execRelraxCommandDone (m : Mbx) (s : State) : Out :=
  let decided := match (getBox s m).acc with | some a => a.outcome.isSome | none => false
  let down := match (getBox s m).acc with
    | some a => cmdCode a.words == 0x0B04 && a.outcome == some (okRes [])
    | none => false
  .next (if decided = false then s
    else
      let s := completeCmd s m
      if down && s.power.downPending then
        let s := mainOff (endMainCmds s)
        { s with power := { s.power with selfRefresh := true } }
      else s)

/-! ## Commands between modules (R49, R490) -/

/-- A result comes back: the forward is done, and the command with the last of its forwards. -/
def takeResult (s : State) (stamp : Word) (ws : List Word) : State :=
  match s.rlx.forwards.find? (fun f => f.stamp == stamp) with
  | none => s
  | some f =>
    let s := { s with rlx := { s.rlx with forwards := s.rlx.forwards.filter (fun g => g.stamp != stamp) } }
    let e := (wordAt ws 0).field 31 16
    if e = 0 ∧ s.rlx.forwards.any (fun g => g.mbx == f.mbx) then s
    else setOutcome s f.mbx ⟨e, (ws.drop 1).take 30⟩

/-- A command comes from another module: a step of a zone reset, a repeat, whose held result goes back, or a command that
is served here as if it had arrived directly (R454, R490). -/
def takeRemote (s : State) (msg : MbxMsg) : State :=
  if msg.kind = 3 ∧ cmdCode msg.words = 0x0205 then
    joinStep s ((cmdP msg.words 1).field 11 0) (cmdP msg.words 2).toNat msg.stamp
  else
    match s.rlx.served.find? (fun x => x.stamp == msg.stamp) with
    | some x =>
      if x.box.done then
        let f := mkFlit s .mbx x.origin 0x121 0 msg.stamp ([BitVec.ofNat 64 (x.origin * 2 ^ 48 + 2 ^ 31), msg.stamp] ++ x.box.res)
        sendFlit s { f with more := 2 }
      else s
    | none =>
      let s := { s with rlx := { s.rlx with served := s.rlx.served ++ [⟨msg.stamp, msg.origin, msg.kind, Mailbox.reset⟩] } }
      acceptCmd s (.master msg.stamp) msg.kind msg.zone msg.words

def execMbx (msg : MbxMsg) (s : State) : Out :=
  .next (if s.rlx.running = false then s
    else if msg.result then takeResult s msg.stamp msg.words
    else takeRemote s msg)

/-- A forwarded command without a result is sent again every 2^22 mt (R490). -/
def execMbxForwardResend (s : State) : Out :=
  .next (s.rlx.forwards.foldl (fun s f =>
    if since s f.sentAt < 2 ^ 22 then s
    else
      let w := BitVec.ofNat 64 (s.devId * 2 ^ 48 + f.kind % 4 * 2 ^ 46 + f.zone % 4096 * 2 ^ 32)
      let s := { s with rlx := { s.rlx with
        forwards := s.rlx.forwards.map (fun g => if g.stamp = f.stamp then { g with sentAt := now s } else g) } }
      send s .mbx f.target 0x121 f.zone f.stamp ([w, f.stamp] ++ f.words)) s)

/-- 2^26 mt pass without a result: TARGET_TIMEOUT (R490). -/
def execMbxTargetTimeout (stamp : Word) (s : State) : Out :=
  .next (match s.rlx.forwards.find? (fun f => f.stamp == stamp) with
    | none => s
    | some f =>
      if since s f.since < 2 ^ 26 then s
      else
        let s := { s with rlx := { s.rlx with forwards := s.rlx.forwards.filter (fun g => g.stamp != stamp) } }
        setOutcome s f.mbx (errRes 0x0007))

end Sys2Proof.Machine
end

