-- ==== Sys2Proof/Machine/Zone.lean ====
section
/-! DEFINITION. The rows of the zone controller (R446, R448, R454). -/

namespace Sys2Proof.Machine

/-- The head of a full ring is read again, and held entries are posted in order (R446). -/
def execRingHeadReread (zone : Nat) (s : State) : Out :=
  let es := (getZone s zone).held
  .next (es.foldl (fun s e => postRing rep s e false) (updZone s zone (fun z => { z with held := [] })))

def execZwSend (q : IoReq) (zone : Nat) (v : Word) (s : State) : Out :=
  .next (mainReg s (if 4096 ≤ zone then s else sendZw s q zone v))

/-- Every module has reported a step: the coordinator starts the next one everywhere, and ends the reset after step 8; a
participant, whose part of the step is done, reports (R454). -/
def execZoneResetStepDone (zone step : Nat) (s : State) : Out :=
  .next (match (getZone s zone).rst with
    | none => s
    | some r =>
      if r.step ≠ step ∨ resetStepDone s zone step = false then s
      else if stampDev r.stamp ≠ s.devId then
        let s := send s .mbx (stampDev r.stamp) 0x121 zone r.stamp
          [BitVec.ofNat 64 (s.devId * 2 ^ 48 + 3 * 2 ^ 46 + zone * 2 ^ 32 + 2 ^ 31), r.stamp, 0, BitVec.ofNat 64 zone,
           BitVec.ofNat 64 step]
        if step = 8 then endResetHere s zone else s
      else if step = 8 then finishReset s zone r
      else startResetStep (tellStep s zone (step + 1) r.stamp) zone (step + 1))

/-- The budget of a step runs out; in step 3 the entries whose queue is still full are held as R358 holds them. -/
def execZoneResetStepBudget (zone : Nat) (s : State) : Out :=
  .next (match (getZone s zone).rst with
    | none => s
    | some r =>
      if r.step ≠ 3 ∨ since s r.stepAt < stepBudget 3 then s
      else (s.chs.ops.filter (fun o => o.2.jr.zone == zone)).foldl (fun s (o : Nat × ChOp) =>
        match o.2.wait with
        | .slot =>
          let s := { s with chs := { s.chs with queues := s.chs.queues.map (fun q =>
            (q.1, { q.2 with waiting := q.2.waiting.filter (· != o.1) })) } }
          freeOp (holdEntry s s.devId zone
            (complWords s.devId o.2.jr false false (o.2.jr.unmirrored && !o.2.ackedEnd))) o.1
        | _ => s) s)

end Sys2Proof.Machine
end

