-- ==== Sys2Proof/Machine/Dispatch.lean ====
section
/-! DEFINITION. The meaning of each command, one arm per row of the table of operations. -/

namespace Sys2Proof.Machine

def exec (i : Instr) (s : State) : Host.Outcome State Fault Refusal :=
  match i with
  | .registerWrite a v => Sys2Proof.Machine.execRegisterWrite a v s
  | .merPpsInEdge => Sys2Proof.Machine.execMerPpsInEdge s
  | .ppsTimeout => Sys2Proof.Machine.execPpsTimeout s
  | .sync port mer vintage masterId => Sys2Proof.Machine.execSync port mer vintage masterId s
  | .heartbeatInterval => Sys2Proof.Machine.execHeartbeatInterval s
  | .heartbeat port vintage digest16 dev role => Sys2Proof.Machine.execHeartbeat port vintage digest16 dev role s
  | .masterMissing => Sys2Proof.Machine.execMasterMissing s
  | .takeoverRequestTimer => Sys2Proof.Machine.execTakeoverRequestTimer s
  | .takeover candidate vintage => Sys2Proof.Machine.execTakeover candidate vintage s
  | .takeoverAck dev vintage => Sys2Proof.Machine.execTakeoverAck dev vintage s
  | .takeoverTimeout => Sys2Proof.Machine.execTakeoverTimeout s
  | .prepare vintage digest act catchup image => Sys2Proof.Machine.execPrepare vintage digest act catchup image s
  | .ack dev vintage => Sys2Proof.Machine.execAck dev vintage s
  | .nack dev vintage => Sys2Proof.Machine.execNack dev vintage s
  | .abortDeadline => Sys2Proof.Machine.execAbortDeadline s
  | .abort vintage => Sys2Proof.Machine.execAbort vintage s
  | .vintageActivation => Sys2Proof.Machine.execVintageActivation s
  | .managementResend => Sys2Proof.Machine.execManagementResend s
  | .report kind dev => Sys2Proof.Machine.execReport kind dev s
  | .stampWatermark => Sys2Proof.Machine.execStampWatermark s
  | .linkDelayRemeasure => Sys2Proof.Machine.execLinkDelayRemeasure s
  | .delay port answer t1 t2 t3 => Sys2Proof.Machine.execDelay port answer t1 t2 t3 s
  | .add sl f d a b => Sys2Proof.Machine.execAdd sl f d a b s
  | .adc sl f d a b => Sys2Proof.Machine.execAdc sl f d a b s
  | .sub sl f d a b => Sys2Proof.Machine.execSub sl f d a b s
  | .sbc sl f d a b => Sys2Proof.Machine.execSbc sl f d a b s
  | .and sl f d a b => Sys2Proof.Machine.execAnd sl f d a b s
  | .or sl f d a b => Sys2Proof.Machine.execOr sl f d a b s
  | .xor sl f d a b => Sys2Proof.Machine.execXor sl f d a b s
  | .andn sl f d a b => Sys2Proof.Machine.execAndn sl f d a b s
  | .min sl f d a b => Sys2Proof.Machine.execMin sl f d a b s
  | .max sl f d a b => Sys2Proof.Machine.execMax sl f d a b s
  | .minu sl f d a b => Sys2Proof.Machine.execMinu sl f d a b s
  | .maxu sl f d a b => Sys2Proof.Machine.execMaxu sl f d a b s
  | .neg sl f d a => Sys2Proof.Machine.execNeg sl f d a s
  | .abs sl f d a => Sys2Proof.Machine.execAbs sl f d a s
  | .shl sl f w d a b => Sys2Proof.Machine.execShl sl f w d a b s
  | .shr sl f w d a b => Sys2Proof.Machine.execShr sl f w d a b s
  | .sar sl f w d a b => Sys2Proof.Machine.execSar sl f w d a b s
  | .sal sl f w d a b => Sys2Proof.Machine.execSal sl f w d a b s
  | .rol sl f w d a b => Sys2Proof.Machine.execRol sl f w d a b s
  | .ror sl f w d a b => Sys2Proof.Machine.execRor sl f w d a b s
  | .mul sl f d a b => Sys2Proof.Machine.execMul sl f d a b s
  | .mulhu sl f d a b => Sys2Proof.Machine.execMulhu sl f d a b s
  | .mulhs sl f d a b => Sys2Proof.Machine.execMulhs sl f d a b s
  | .divu sl f d a b => Sys2Proof.Machine.execDivu sl f d a b s
  | .divs sl f d a b => Sys2Proof.Machine.execDivs sl f d a b s
  | .remu sl f d a b => Sys2Proof.Machine.execRemu sl f d a b s
  | .rems sl f d a b => Sys2Proof.Machine.execRems sl f d a b s
  | .sel sl c d a b => Sys2Proof.Machine.execSel sl c d a b s
  | .sxtb sl d a => Sys2Proof.Machine.execSxtb sl d a s
  | .sxth sl d a => Sys2Proof.Machine.execSxth sl d a s
  | .sxtw sl d a => Sys2Proof.Machine.execSxtw sl d a s
  | .zxtb sl d a => Sys2Proof.Machine.execZxtb sl d a s
  | .zxth sl d a => Sys2Proof.Machine.execZxth sl d a s
  | .zxtw sl d a => Sys2Proof.Machine.execZxtw sl d a s
  | .clz sl d a => Sys2Proof.Machine.execClz sl d a s
  | .ctz sl d a => Sys2Proof.Machine.execCtz sl d a s
  | .popc sl d a => Sys2Proof.Machine.execPopc sl d a s
  | .bswap sl d a => Sys2Proof.Machine.execBswap sl d a s
  | .addi sl f d a imm => Sys2Proof.Machine.execAddi sl f d a imm s
  | .subi sl f d a imm => Sys2Proof.Machine.execSubi sl f d a imm s
  | .andi sl d a imm => Sys2Proof.Machine.execAndi sl d a imm s
  | .ori sl d a imm => Sys2Proof.Machine.execOri sl d a imm s
  | .xori sl d a imm => Sys2Proof.Machine.execXori sl d a imm s
  | .shi sl f d a imm => Sys2Proof.Machine.execShi sl f d a imm s
  | .ins sl d h imm => Sys2Proof.Machine.execIns sl d h imm s
  | .ldiz sl d h imm => Sys2Proof.Machine.execLdiz sl d h imm s
  | .ldio sl d h imm => Sys2Proof.Machine.execLdio sl d h imm s
  | .ldb m => Sys2Proof.Machine.execLdb m s
  | .ldh m => Sys2Proof.Machine.execLdh m s
  | .ldw m => Sys2Proof.Machine.execLdw m s
  | .ldd m => Sys2Proof.Machine.execLdd m s
  | .ldbs m => Sys2Proof.Machine.execLdbs m s
  | .ldhs m => Sys2Proof.Machine.execLdhs m s
  | .ldws m => Sys2Proof.Machine.execLdws m s
  | .lda m => Sys2Proof.Machine.execLda m s
  | .stb m => Sys2Proof.Machine.execStb m s
  | .sth m => Sys2Proof.Machine.execSth m s
  | .stw m => Sys2Proof.Machine.execStw m s
  | .std m => Sys2Proof.Machine.execStd m s
  | .sta m => Sys2Proof.Machine.execSta m s
  | .ldp m => Sys2Proof.Machine.execLdp m s
  | .stp m => Sys2Proof.Machine.execStp m s
  | .pf m => Sys2Proof.Machine.execPf m s
  | .ldrsv sl wide r sg a => Sys2Proof.Machine.execLdrsv sl wide r sg a s
  | .stcnd sl wide r sg a => Sys2Proof.Machine.execStcnd sl wide r sg a s
  | .fenceSl sl => Sys2Proof.Machine.execFenceSl sl s
  | .fenceIo sl => Sys2Proof.Machine.execFenceIo sl s
  | .fenceFull sl => Sys2Proof.Machine.execFenceFull sl s
  | .ldseg sl sg a => Sys2Proof.Machine.execLdseg sl sg a s
  | .cmaintByAddress sl x sg a => Sys2Proof.Machine.execCmaintByAddress sl x sg a s
  | .cmaintByZone sl x a => Sys2Proof.Machine.execCmaintByZone sl x a s
  | .cmaintGlobal sl x => Sys2Proof.Machine.execCmaintGlobal sl x s
  | .cmaintComplete core => Sys2Proof.Machine.execCmaintComplete core s
  | .b sl disp => Sys2Proof.Machine.execB sl disp s
  | .bcc sl c disp => Sys2Proof.Machine.execBcc sl c disp s
  | .br sl a => Sys2Proof.Machine.execBr sl a s
  | .call sl disp => Sys2Proof.Machine.execCall sl disp s
  | .callr sl a => Sys2Proof.Machine.execCallr sl a s
  | .callm sl m disp => Sys2Proof.Machine.execCallm sl m disp s
  | .callmr sl m a => Sys2Proof.Machine.execCallmr sl m a s
  | .ret sl => Sys2Proof.Machine.execRet sl s
  | .retm sl => Sys2Proof.Machine.execRetm sl s
  | .far sl a b => Sys2Proof.Machine.execFar sl a b s
  | .svc sl imm => Sys2Proof.Machine.execSvc sl imm s
  | .eret sl => Sys2Proof.Machine.execEret sl s
  | .rep sl body => Sys2Proof.Machine.execRep sl body s
  | .repIteration core => Sys2Proof.Machine.execRepIteration core s
  | .mtpcnt sl a => Sys2Proof.Machine.execMtpcnt sl a s
  | .mtpcnti sl imm => Sys2Proof.Machine.execMtpcnti sl imm s
  | .mfpcnt sl d => Sys2Proof.Machine.execMfpcnt sl d s
  | .mfpsw sl d => Sys2Proof.Machine.execMfpsw sl d s
  | .mtpsw sl a => Sys2Proof.Machine.execMtpsw sl a s
  | .mffcsr sl d => Sys2Proof.Machine.execMffcsr sl d s
  | .mtfcsr sl a => Sys2Proof.Machine.execMtfcsr sl a s
  | .mfctl sl d num => Sys2Proof.Machine.execMfctl sl d num s
  | .mtctl sl a num => Sys2Proof.Machine.execMtctl sl a num s
  | .mfsp sl d rsp => Sys2Proof.Machine.execMfsp sl d rsp s
  | .mtsp sl a rsp => Sys2Proof.Machine.execMtsp sl a rsp s
  | .adjsp sl imm => Sys2Proof.Machine.execAdjsp sl imm s
  | .savectx sl => Sys2Proof.Machine.execSavectx sl s
  | .restctx sl => Sys2Proof.Machine.execRestctx sl s
  | .wait sl => Sys2Proof.Machine.execWait sl s
  | .waitWake core => Sys2Proof.Machine.execWaitWake core s
  | .brk sl imm => Sys2Proof.Machine.execBrk sl imm s
  | .bcall sl imm => Sys2Proof.Machine.execBcall sl imm s
  | .bret sl => Sys2Proof.Machine.execBret sl s
  | .bwdr sl a => Sys2Proof.Machine.execBwdr sl a s
  | .fadd sl fmt d a b => Sys2Proof.Machine.execFadd sl fmt d a b s
  | .fsub sl fmt d a b => Sys2Proof.Machine.execFsub sl fmt d a b s
  | .fmul sl fmt d a b => Sys2Proof.Machine.execFmul sl fmt d a b s
  | .fdiv sl fmt d a b => Sys2Proof.Machine.execFdiv sl fmt d a b s
  | .fsqrt sl fmt d a => Sys2Proof.Machine.execFsqrt sl fmt d a s
  | .fmin sl fmt d a b => Sys2Proof.Machine.execFmin sl fmt d a b s
  | .fmax sl fmt d a b => Sys2Proof.Machine.execFmax sl fmt d a b s
  | .fcmp sl fmt a b => Sys2Proof.Machine.execFcmp sl fmt a b s
  | .fma sl fmt d a b => Sys2Proof.Machine.execFma sl fmt d a b s
  | .fms sl fmt d a b => Sys2Proof.Machine.execFms sl fmt d a b s
  | .fnma sl fmt d a b => Sys2Proof.Machine.execFnma sl fmt d a b s
  | .fcvt sl kind sf df d a => Sys2Proof.Machine.execFcvt sl kind sf df d a s
  | .dadd sl d a b => Sys2Proof.Machine.execDadd sl d a b s
  | .dsub sl d a b => Sys2Proof.Machine.execDsub sl d a b s
  | .dcmp sl a b => Sys2Proof.Machine.execDcmp sl a b s
  | .dtoi sl d a => Sys2Proof.Machine.execDtoi sl d a s
  | .itod sl d a => Sys2Proof.Machine.execItod sl d a s
  | .accclr sl acc => Sys2Proof.Machine.execAccclr sl acc s
  | .accrd sl acc g => Sys2Proof.Machine.execAccrd sl acc g s
  | .accwr sl acc g => Sys2Proof.Machine.execAccwr sl acc g s
  | .accrnd sl acc g => Sys2Proof.Machine.execAccrnd sl acc g s
  | .macm sl var acc ga sa gb sb => Sys2Proof.Machine.execMacm sl var acc ga sa gb sb s
  | .externalInterrupt core => Sys2Proof.Machine.execExternalInterrupt core s
  | .doorbell core => Sys2Proof.Machine.execDoorbell core s
  | .storeDrain core => Sys2Proof.Machine.execStoreDrain core s
  | .bundleRetry core detector => Sys2Proof.Machine.execBundleRetry core detector s
  | .progressMonitorExpiry core => Sys2Proof.Machine.execProgressMonitorExpiry core s
  | .reliefStart core reason => Sys2Proof.Machine.execReliefStart core reason s
  | .reliefFlushDone core => Sys2Proof.Machine.execReliefFlushDone core s
  | .sparePowered cluster => Sys2Proof.Machine.execSparePowered cluster s
  | .reliefImageArrived cluster crcOk => Sys2Proof.Machine.execReliefImageArrived cluster crcOk s
  | .reliefResume cluster => Sys2Proof.Machine.execReliefResume cluster s
  | .sextantWatch r => Sys2Proof.Machine.execSextantWatch r s
  | .nearCacheFill core line => Sys2Proof.Machine.execNearCacheFill core line s
  | .nearCtlDisable q core v => Sys2Proof.Machine.execNearCtlDisable q core v s
  | .nearCtlEnable q core v => Sys2Proof.Machine.execNearCtlEnable q core v s
  | .nearCtlPf q core v => Sys2Proof.Machine.execNearCtlPf q core v s
  | .nearCleaningDone core => Sys2Proof.Machine.execNearCleaningDone core s
  | .l2L3Walk findings => Sys2Proof.Machine.execL2L3Walk findings s
  | .reservationDeferralTimeout core => Sys2Proof.Machine.execReservationDeferralTimeout core s
  | .wcBufferTimeout core line => Sys2Proof.Machine.execWcBufferTimeout core line s
  | .rdshared r e => Sys2Proof.Machine.execRdshared r e s
  | .rdown r e => Sys2Proof.Machine.execRdown r e s
  | .upgrade r e => Sys2Proof.Machine.execUpgrade r e s
  | .rdonce r e => Sys2Proof.Machine.execRdonce r e s
  | .wrline r data verify => Sys2Proof.Machine.execWrline r data verify s
  | .wrpart r mask data e => Sys2Proof.Machine.execWrpart r mask data e s
  | .cleanline r => Sys2Proof.Machine.execCleanline r s
  | .invline r => Sys2Proof.Machine.execInvline r s
  | .cleaninvline r => Sys2Proof.Machine.execCleaninvline r s
  | .resendRequest r kind credit e => Sys2Proof.Machine.execResendRequest r kind credit e s
  | .snpfwds m => Sys2Proof.Machine.execSnpfwds m s
  | .snpfwdo m => Sys2Proof.Machine.execSnpfwdo m s
  | .snpinv m => Sys2Proof.Machine.execSnpinv m s
  | .snpclean m => Sys2Proof.Machine.execSnpclean m s
  | .snpback m => Sys2Proof.Machine.execSnpback m s
  | .snpdrop m => Sys2Proof.Machine.execSnpdrop m s
  | .data m => Sys2Proof.Machine.execData m s
  | .fwddata m => Sys2Proof.Machine.execFwddata m s
  | .snpresp m => Sys2Proof.Machine.execSnpresp m s
  | .wrback m verify => Sys2Proof.Machine.execWrback m verify s
  | .evictclean agent stamp addr rs => Sys2Proof.Machine.execEvictclean agent stamp addr rs s
  | .wback quad addr => Sys2Proof.Machine.execWback quad addr s
  | .cmp quad stamp addr => Sys2Proof.Machine.execCmp quad stamp addr s
  | .cmpack agent stamp addr => Sys2Proof.Machine.execCmpack agent stamp addr s
  | .retry stamp credit => Sys2Proof.Machine.execRetry stamp credit s
  | .resend stamp => Sys2Proof.Machine.execResend stamp s
  | .err stamp reason => Sys2Proof.Machine.execErr stamp reason s
  | .creditReclaim credit => Sys2Proof.Machine.execCreditReclaim credit s
  | .snoopWarn line => Sys2Proof.Machine.execSnoopWarn line s
  | .lostWalkDone => Sys2Proof.Machine.execLostWalkDone s
  | .mr4Poll status => Sys2Proof.Machine.execMr4Poll status s
  | .memoryRetrain c => Sys2Proof.Machine.execMemoryRetrain c s
  | .memoryRetrainDone c rd wr => Sys2Proof.Machine.execMemoryRetrainDone c rd wr s
  | .patrolPassStart => Sys2Proof.Machine.execPatrolPassStart s
  | .scrubLine c e => Sys2Proof.Machine.execScrubLine c e s
  | .cellaringCompressed page verifyOk => Sys2Proof.Machine.execCellaringCompressed page verifyOk s
  | .decantExpanded page readOk => Sys2Proof.Machine.execDecantExpanded page readOk s
  | .slotEpoch => Sys2Proof.Machine.execSlotEpoch s
  | .qosPeriod => Sys2Proof.Machine.execQosPeriod s
  | .treeNack f => Sys2Proof.Machine.execTreeNack f s
  | .treeNackResend stamp => Sys2Proof.Machine.execTreeNackResend stamp s
  | .flitRoute f chk => Sys2Proof.Machine.execFlitRoute f chk s
  | .domainDrained d => Sys2Proof.Machine.execDomainDrained d s
  | .domainFlushed d => Sys2Proof.Machine.execDomainFlushed d s
  | .domainPowered d => Sys2Proof.Machine.execDomainPowered d s
  | .trnOldDrained => Sys2Proof.Machine.execTrnOldDrained s
  | .routeStagingTimeout => Sys2Proof.Machine.execRouteStagingTimeout s
  | .portTrained p width => Sys2Proof.Machine.execPortTrained p width s
  | .portTrainingTimeout p => Sys2Proof.Machine.execPortTrainingTimeout p s
  | .portSignalLost p => Sys2Proof.Machine.execPortSignalLost p s
  | .frameReceive p fr => Sys2Proof.Machine.execFrameReceive p fr s
  | .nakFrame p fr => Sys2Proof.Machine.execNakFrame p fr s
  | .initFrame m => Sys2Proof.Machine.execInitFrame m s
  | .nakRepeat p => Sys2Proof.Machine.execNakRepeat p s
  | .ackStall p => Sys2Proof.Machine.execAckStall p s
  | .recoveryDone p width => Sys2Proof.Machine.execRecoveryDone p width s
  | .recoveryTimeout p => Sys2Proof.Machine.execRecoveryTimeout p s
  | .portHeartbeatLoss p => Sys2Proof.Machine.execPortHeartbeatLoss p s
  | .receiveHistoryExpiry p => Sys2Proof.Machine.execReceiveHistoryExpiry p s
  | .laneRetrainDone p => Sys2Proof.Machine.execLaneRetrainDone p s
  | .hzPctlEnClear q p v => Sys2Proof.Machine.execHzPctlEnClear q p v s
  | .hzPctlEnSet q p v => Sys2Proof.Machine.execHzPctlEnSet q p v s
  | .hzPctlReach q p v => Sys2Proof.Machine.execHzPctlReach q p v s
  | .hello p m => Sys2Proof.Machine.execHello p m s
  | .origin p serial masterEn => Sys2Proof.Machine.execOrigin p serial masterEn s
  | .originQuiet => Sys2Proof.Machine.execOriginQuiet s
  | .linkdown reporter port neighbour mer => Sys2Proof.Machine.execLinkdown reporter port neighbour mer s
  | .lostWaitExpiry dev => Sys2Proof.Machine.execLostWaitExpiry dev s
  | .lost port dev mer stamp => Sys2Proof.Machine.execLost port dev mer stamp s
  | .join port dev stamp => Sys2Proof.Machine.execJoin port dev stamp s
  | .noPortUp => Sys2Proof.Machine.execNoPortUp s
  | .sweep port mer stamp => Sys2Proof.Machine.execSweep port mer stamp s
  | .sweepAgentResend => Sys2Proof.Machine.execSweepAgentResend s
  | .mbx m => Sys2Proof.Machine.execMbx m s
  | .mbxForwardResend => Sys2Proof.Machine.execMbxForwardResend s
  | .mbxTargetTimeout stamp => Sys2Proof.Machine.execMbxTargetTimeout stamp s
  | .ccwFetched sub words res => Sys2Proof.Machine.execCcwFetched sub words res s
  | .adst ctl sub r => Sys2Proof.Machine.execAdst ctl sub r s
  | .adwr ctl bus data => Sys2Proof.Machine.execAdwr ctl bus data s
  | .adrd ctl bus len ch => Sys2Proof.Machine.execAdrd ctl bus len ch s
  | .addata ch beat data => Sys2Proof.Machine.execAddata ch beat data s
  | .aderr ch kind => Sys2Proof.Machine.execAderr ch kind s
  | .journalWriteDone sub => Sys2Proof.Machine.execJournalWriteDone sub s
  | .jmw port r => Sys2Proof.Machine.execJmw port r s
  | .jmack sub count => Sys2Proof.Machine.execJmack sub count s
  | .jrel port sub stamp => Sys2Proof.Machine.execJrel port sub stamp s
  | .jrelack sub stamp => Sys2Proof.Machine.execJrelack sub stamp s
  | .jdrop port dev => Sys2Proof.Machine.execJdrop port dev s
  | .jhand dev r => Sys2Proof.Machine.execJhand dev r s
  | .operationDeadline sub => Sys2Proof.Machine.execOperationDeadline sub s
  | .haltStatusTimeout sub => Sys2Proof.Machine.execHaltStatusTimeout sub s
  | .channelProcessorFault cp => Sys2Proof.Machine.execChannelProcessorFault cp s
  | .microwordRunaway sub => Sys2Proof.Machine.execMicrowordRunaway sub s
  | .queueHeadReread queue => Sys2Proof.Machine.execQueueHeadReread queue s
  | .completionPosted sub => Sys2Proof.Machine.execCompletionPosted sub s
  | .ucodeLoadTimeout => Sys2Proof.Machine.execUcodeLoadTimeout s
  | .chnTailWrite q n v => Sys2Proof.Machine.execChnTailWrite q n v s
  | .descriptorFetched n words res => Sys2Proof.Machine.execDescriptorFetched n words res s
  | .moverReadData n beat res => Sys2Proof.Machine.execMoverReadData n beat res s
  | .moverWriteConfirm n beat => Sys2Proof.Machine.execMoverWriteConfirm n beat s
  | .writeBackVisible n => Sys2Proof.Machine.execWriteBackVisible n s
  | .moverBusError n beat write code detail => Sys2Proof.Machine.execMoverBusError n beat write code detail s
  | .chnStatHaltedClear q n => Sys2Proof.Machine.execChnStatHaltedClear q n s
  | .chnCtlPause q n v => Sys2Proof.Machine.execChnCtlPause q n v s
  | .chnZoneHold q n v => Sys2Proof.Machine.execChnZoneHold q n v s
  | .chnZoneEn q n v => Sys2Proof.Machine.execChnZoneEn q n v s
  | .channelPaused n => Sys2Proof.Machine.execChannelPaused n s
  | .movCtlDisable q e v => Sys2Proof.Machine.execMovCtlDisable q e v s
  | .compressionJobAssign => Sys2Proof.Machine.execCompressionJobAssign s
  | .compressionBeat n verifyOk cipherOk => Sys2Proof.Machine.execCompressionBeat n verifyOk cipherOk s
  | .anchorRebuildDone n recordOk anchorOk => Sys2Proof.Machine.execAnchorRebuildDone n recordOk anchorOk s
  | .cmpChcfgDiscard q n v => Sys2Proof.Machine.execCmpChcfgDiscard q n v s
  | .cmpCtlEngOff q v => Sys2Proof.Machine.execCmpCtlEngOff q v s
  | .cipherPipelineAssign => Sys2Proof.Machine.execCipherPipelineAssign s
  | .cipherYield e => Sys2Proof.Machine.execCipherYield e s
  | .cipKcmtLoad q v => Sys2Proof.Machine.execCipKcmtLoad q v s
  | .cipKcmtScrub q v => Sys2Proof.Machine.execCipKcmtScrub q v s
  | .keyCommitDone => Sys2Proof.Machine.execKeyCommitDone s
  | .cipCtlOff q v => Sys2Proof.Machine.execCipCtlOff q v s
  | .ringHeadReread zone => Sys2Proof.Machine.execRingHeadReread zone s
  | .zwSend q zone v => Sys2Proof.Machine.execZwSend q zone v s
  | .zoneResetStepDone zone step => Sys2Proof.Machine.execZoneResetStepDone zone step s
  | .bndOwnWrite q v => Sys2Proof.Machine.execBndOwnWrite q v s
  | .dbgEnWrite q core v => Sys2Proof.Machine.execDbgEnWrite q core v s
  | .jtagRequest r => Sys2Proof.Machine.execJtagRequest r s
  | .bondedWatchdogExpiry straps => Sys2Proof.Machine.execBondedWatchdogExpiry straps s
  | .mbxDbRing m q v => Sys2Proof.Machine.execMbxDbRing m q v s
  | .mbzDbRing q zone v => Sys2Proof.Machine.execMbzDbRing q zone v s
  | .mbzRingWrite q zone v => Sys2Proof.Machine.execMbzRingWrite q zone v s
  | .relraxCommandDone m => Sys2Proof.Machine.execRelraxCommandDone m s
  | .identity m => Sys2Proof.Machine.execIdentity m s
  | .inventory m => Sys2Proof.Machine.execInventory m s
  | .system m => Sys2Proof.Machine.execSystem m s
  | .regRead m => Sys2Proof.Machine.execRegRead m s
  | .regWrite m => Sys2Proof.Machine.execRegWrite m s
  | .zoneCreate m => Sys2Proof.Machine.execZoneCreate m s
  | .zoneActivate m => Sys2Proof.Machine.execZoneActivate m s
  | .zoneStop m => Sys2Proof.Machine.execZoneStop m s
  | .zoneDestroy m => Sys2Proof.Machine.execZoneDestroy m s
  | .zoneReset m => Sys2Proof.Machine.execZoneReset m s
  | .zoneStatus m => Sys2Proof.Machine.execZoneStatus m s
  | .vcoreBind m => Sys2Proof.Machine.execVcoreBind m s
  | .vcoreUnbind m => Sys2Proof.Machine.execVcoreUnbind m s
  | .vcoreStart m => Sys2Proof.Machine.execVcoreStart m s
  | .vcoreStop m => Sys2Proof.Machine.execVcoreStop m s
  | .imageRead m => Sys2Proof.Machine.execImageRead m s
  | .imageRelease m => Sys2Proof.Machine.execImageRelease m s
  | .pageAssign m => Sys2Proof.Machine.execPageAssign m s
  | .pageRelease m => Sys2Proof.Machine.execPageRelease m s
  | .pageMap m => Sys2Proof.Machine.execPageMap m s
  | .pagePin m => Sys2Proof.Machine.execPagePin m s
  | .cellar m => Sys2Proof.Machine.execCellar m s
  | .poolAdd m => Sys2Proof.Machine.execPoolAdd m s
  | .poolRemove m => Sys2Proof.Machine.execPoolRemove m s
  | .listMove m => Sys2Proof.Machine.execListMove m s
  | .listMark m => Sys2Proof.Machine.execListMark m s
  | .listRead m => Sys2Proof.Machine.execListRead m s
  | .memRetrain m => Sys2Proof.Machine.execMemRetrain m s
  | .portStatus m => Sys2Proof.Machine.execPortStatus m s
  | .portSet m => Sys2Proof.Machine.execPortSet m s
  | .portRetrain m => Sys2Proof.Machine.execPortRetrain m s
  | .lostRead m => Sys2Proof.Machine.execLostRead m s
  | .start m => Sys2Proof.Machine.execStart m s
  | .halt m => Sys2Proof.Machine.execHalt m s
  | .refresh m => Sys2Proof.Machine.execRefresh m s
  | .orphanRead m => Sys2Proof.Machine.execOrphanRead m s
  | .subStatus m => Sys2Proof.Machine.execSubStatus m s
  | .history m => Sys2Proof.Machine.execHistory m s
  | .faultAck m => Sys2Proof.Machine.execFaultAck m s
  | .logRead m => Sys2Proof.Machine.execLogRead m s
  | .errRelease m => Sys2Proof.Machine.execErrRelease m s
  | .logNote m => Sys2Proof.Machine.execLogNote m s
  | .coreRead m => Sys2Proof.Machine.execCoreRead m s
  | .retireClear m => Sys2Proof.Machine.execRetireClear m s
  | .coreRelieve m => Sys2Proof.Machine.execCoreRelieve m s
  | .merSource m => Sys2Proof.Machine.execMerSource m s
  | .vintageChange m => Sys2Proof.Machine.execVintageChange m s
  | .configRead m => Sys2Proof.Machine.execConfigRead m s
  | .configExport m => Sys2Proof.Machine.execConfigExport m s
  | .keyLoad m => Sys2Proof.Machine.execKeyLoad m s
  | .keyScrub m => Sys2Proof.Machine.execKeyScrub m s
  | .granuleTag m => Sys2Proof.Machine.execGranuleTag m s
  | .granuleUntag m => Sys2Proof.Machine.execGranuleUntag m s
  | .ucodeLoad m => Sys2Proof.Machine.execUcodeLoad m s
  | .ucodeKey m => Sys2Proof.Machine.execUcodeKey m s
  | .flashUpdate m => Sys2Proof.Machine.execFlashUpdate m s
  | .domainOff m => Sys2Proof.Machine.execDomainOff m s
  | .domainOn m => Sys2Proof.Machine.execDomainOn m s
  | .domainCancel m => Sys2Proof.Machine.execDomainCancel m s
  | .powerDown m => Sys2Proof.Machine.execPowerDown m s
  | .moduleReset m straps => Sys2Proof.Machine.execModuleReset m straps s
  | .faultReport r => Sys2Proof.Machine.execFaultReport r s
  | .isolationSalvageDone quad => Sys2Proof.Machine.execIsolationSalvageDone quad s
  | .isolationSalvageTimeout quad => Sys2Proof.Machine.execIsolationSalvageTimeout quad s
  | .escalationTimerExpiry stamp => Sys2Proof.Machine.execEscalationTimerExpiry stamp s
  | .quietPeriodExpiry cls => Sys2Proof.Machine.execQuietPeriodExpiry cls s
  | .errLMinimumEnd => Sys2Proof.Machine.execErrLMinimumEnd s
  | .fltAckWrite q v => Sys2Proof.Machine.execFltAckWrite q v s
  | .fltCtlRelease q v => Sys2Proof.Machine.execFltCtlRelease q v s
  | .spWatchdogExpiry => Sys2Proof.Machine.execSpWatchdogExpiry s
  | .spLockstepMismatch => Sys2Proof.Machine.execSpLockstepMismatch s
  | .spRestartDone => Sys2Proof.Machine.execSpRestartDone s
  | .logEntryWritten => Sys2Proof.Machine.execLogEntryWritten s
  | .standbyPowerOn straps => Sys2Proof.Machine.execStandbyPowerOn straps s
  | .pwrOkAssert => Sys2Proof.Machine.execPwrOkAssert s
  | .pwrOkDeassert => Sys2Proof.Machine.execPwrOkDeassert s
  | .thermtrip => Sys2Proof.Machine.execThermtrip s
  | .resetLPulse lowNs straps => Sys2Proof.Machine.execResetLPulse lowNs straps s
  | .perstInput ctl => Sys2Proof.Machine.execPerstInput ctl s
  | .perstRelease => Sys2Proof.Machine.execPerstRelease s
  | .pcieLinkDown ctl => Sys2Proof.Machine.execPcieLinkDown ctl s
  | .pcieInboundRequest r => Sys2Proof.Machine.execPcieInboundRequest r s
  | .relraxBooted copy => Sys2Proof.Machine.execRelraxBooted copy s
  | .mainRailsGood => Sys2Proof.Machine.execMainRailsGood s
  | .memoryTrainingDone retried failed => Sys2Proof.Machine.execMemoryTrainingDone retried failed s
  | .discoveryDone found => Sys2Proof.Machine.execDiscoveryDone found s
  | .meridianLock => Sys2Proof.Machine.execMeridianLock s
  | .startupStepTimeout => Sys2Proof.Machine.execStartupStepTimeout s
  | .coreRelease signatureOk => Sys2Proof.Machine.execCoreRelease signatureOk s
  | .illegalBundle core words => Sys2Proof.Machine.execIllegalBundle core words s
  | .fetchFault core cause off => Sys2Proof.Machine.execFetchFault core cause off s
  | .standbyPowerLoss => Sys2Proof.Machine.execStandbyPowerLoss s
  | .merRefLoss => Sys2Proof.Machine.execMerRefLoss s
  | .merRefReturn => Sys2Proof.Machine.execMerRefReturn s
  | .pcieLinkUp ctl speed width => Sys2Proof.Machine.execPcieLinkUp ctl speed width s
  | .perstInputRelease ctl => Sys2Proof.Machine.execPerstInputRelease ctl s
  | .frameTransmit p => Sys2Proof.Machine.execFrameTransmit p s
  | .moverBeatIssue n => Sys2Proof.Machine.execMoverBeatIssue n s
  | .zoneResetStepBudget zone => Sys2Proof.Machine.execZoneResetStepBudget zone s
  | .merPpsOutEdge => Sys2Proof.Machine.execMerPpsOutEdge s

end Sys2Proof.Machine
end

