-- ==== Sys2Proof/Safety.lean ====
section
/-! DEFINITION. What claims about whole runs speak of: memory in canonical form, the poison marker, and what the flash
and the bonded watchdog hold for good. -/

namespace Sys2Proof.Machine

/-- Memory, its keys and its poison markers are in canonical form: addresses strictly rising, no entry equal to what an
unlisted one reads as. -/
def Memory.wf (m : Memory) : Bool :=
  Table.wf memDefault m.bytes && Table.wf zeroOf m.keys && Table.wf noFlag m.poison

/-- A frame line that carries the poison marker holds zero bytes (R247). -/
def Memory.markerZero (m : Memory) : Prop :=
  ∀ fl, Table.get noFlag m.poison fl = true → ∀ j, j < 128 → Table.get memDefault m.bytes (fl * 128 + j) = 0

/-- What every step keeps of memory. -/
def Memory.sound (m : Memory) : Prop := Memory.wf m = true ∧ Memory.markerZero m

/-- The highest version of a signed image of a kind that the flash records (R510). -/
def acceptedVersion (s : State) (kind : Nat) : Nat := Table.get zeroOf s.rlx.flash.maxVer kind

/-- The retirement record of a core stands (R163). -/
def retirementStands (s : State) (n : Nat) : Prop := Table.get noFlag s.rlx.flash.retired n = true

end Sys2Proof.Machine
end

