-- ==== Sys2Proof/Safety/Cores.lean ====
section
/-! DEFINITION. What claims about syllables speak of: a syllable that stands alone in its bundle, and what a bundle that
has completed leaves. -/

namespace Sys2Proof.Machine

/-- A syllable stands alone in its bundle on a core that takes it: the core runs, no bundle is open, its word
can be fetched, the stop bit is set, no bundle is being repeated, no retry and no deferral is under way (R50, R94, R121, R154, R213). -/
def alone (s : State) (sl : Slot) : Bool :=
  let c := getCore s sl.core
  canRun s sl.core && sl.last && c.bundle.isNone && (c.regs.getSeg 13).bit 4 && inLimit (c.regs.getSeg 13) c.regs.pc 4 &&
     !(c.regs.psw.bit 45) && c.retries == 0 && c.defer.isNone

/-- Nothing holds a memory access of the core: no fence, no cleaning, no line awaited (R184, R189, R205). -/
def accessFree (s : State) (n : Nat) : Bool :=
  let c := getCore s n
  c.fence == 0 && !c.near.cleaning && c.near.blocked.isNone

/-- Only the core differs between the two states. -/
def onlyCore (s t : State) (n : Nat) : Prop :=
  (∀ m, m ≠ n → getCore t m = getCore s m) ∧ t = { s with cores := t.cores }

/-- Only the core, and the counters of stamps, differ. -/
def coreAndStamps (s t : State) (n : Nat) : Prop :=
  (∀ m, m ≠ n → getCore t m = getCore s m) ∧ t = { s with cores := t.cores, counters := t.counters }

/-- A bundle of one syllable has completed with these registers, the pc among them: nothing else that the core holds has
changed but what marks an open bundle. -/
def bundleEnded (s t : State) (n : Nat) (r : CoreRegs) : Prop :=
  getCore t n = { getCore s n with regs := r, bundle := none, rep := [], repFirst := false } ∧ onlyCore s t n

/-- A bundle of one syllable has completed, and execution goes on past it (R50). -/
def bundleRan (s t : State) (n : Nat) (r : CoreRegs) : Prop :=
  bundleEnded s t n { r with pc := (getCore s n).regs.pc + 4 }

/-- A bundle of one syllable has completed with these registers, and its stores have joined the store buffer, youngest
last (R88, R202). -/
def bundleStored (s t : State) (n : Nat) (r : CoreRegs) (es : List BufEntry) : Prop :=
  getCore t n = { getCore s n with
    regs := r
    buf := (getCore s n).buf ++ es
    bundle := none
    rep := []
    repFirst := false } ∧ coreAndStamps s t n

end Sys2Proof.Machine
end

