-- ==== Sys2Proof/Safety/Accesses.lean ====
section
/-! DEFINITION. What claims about the memory syllables speak of: which bytes a store row writes, which register a load row
writes, and the stores of a push (R64 to R73, R108). -/

namespace Sys2Proof.Machine

/-- The store rows: operands, size, and the data from the registers before the bundle (R108). -/
def storeRow : Instr → Option (MemOp × Nat × (CoreRegs → Nat))
  | .stb m => some (m, 1, fun r => (r.getG m.r.toNat).toNat)
  | .sth m => some (m, 2, fun r => (r.getG m.r.toNat).toNat)
  | .stw m => some (m, 4, fun r => (r.getG m.r.toNat).toNat)
  | .std m => some (m, 8, fun r => (r.getG m.r.toNat).toNat)
  | .sta m => some (m, 16, fun r => (r.getAcc (m.r.toNat % 4)).toNat)
  | .stp m => some (m, 16, fun r => (r.getG m.r.toNat).toNat + 2 ^ 64 * (r.getG (m.r.toNat + 1)).toNat)
  | _ => none

/-- The load rows: operands, size, and the registers with the bytes loaded (R108). -/
def loadRow : Instr → Option (MemOp × Nat × (CoreRegs → List Byte → CoreRegs))
  | .ldb m => some (m, 1, fun r bs => r.setG m.r.toNat (BitVec.ofNat 64 (ofLeBytes bs)))
  | .ldh m => some (m, 2, fun r bs => r.setG m.r.toNat (BitVec.ofNat 64 (ofLeBytes bs)))
  | .ldw m => some (m, 4, fun r bs => r.setG m.r.toNat (BitVec.ofNat 64 (ofLeBytes bs)))
  | .ldd m => some (m, 8, fun r bs => r.setG m.r.toNat (BitVec.ofNat 64 (ofLeBytes bs)))
  | .ldbs m => some (m, 1, fun r bs => r.setG m.r.toNat ((BitVec.ofNat 8 (ofLeBytes bs)).signExtend 64))
  | .ldhs m => some (m, 2, fun r bs => r.setG m.r.toNat ((BitVec.ofNat 16 (ofLeBytes bs)).signExtend 64))
  | .ldws m => some (m, 4, fun r bs => r.setG m.r.toNat ((BitVec.ofNat 32 (ofLeBytes bs)).signExtend 64))
  | .lda m => some (m, 16, fun r bs => r.setAcc (m.r.toNat % 4) (BitVec.ofNat 128 (ofLeBytes bs)))
  | .ldp m => some (m, 16, fun r bs =>
      (r.setG m.r.toNat (BitVec.ofNat 64 (ofLeBytes bs))).setG (m.r.toNat + 1) (BitVec.ofNat 64 (ofLeBytes bs / 2 ^ 64)))
  | _ => none

/-- The registers with the base written back, where the form does so (R64). -/
def baseAfter (r base : CoreRegs) (m : MemOp) (size : Nat) : CoreRegs :=
  match (formOffset r m size).2 with
  | some x => putBase base m.s m.a x
  | none => base

/-- The stores of a push of words at an offset of a segment, lowest first (R70). -/
def pushed (r : CoreRegs) (sg : Nat) (o : Word) (ws : List Word) (stamp : Word) : List BufEntry :=
  ws.zipIdx.flatMap (fun x =>
    storeEntries r (r.getSeg sg) ((r.getSeg sg).base + o + BitVec.ofNat 64 (8 * x.2)) 8 x.1.toNat stamp)

/-- The same stores in the order of R72: from the highest word down. -/
def pushedDown (r : CoreRegs) (sg : Nat) (o : Word) (ws : List Word) (stamp : Word) : List BufEntry :=
  ws.zipIdx.reverse.flatMap (fun x =>
    storeEntries r (r.getSeg sg) ((r.getSeg sg).base + o + BitVec.ofNat 64 (8 * x.2)) 8 x.1.toNat stamp)

/-- A push of n bytes is allowed: it does not pass the start of the return stack, and the stack's world fits (R63, R73). -/
def mayPush (r : CoreRegs) (n : Nat) : Bool := decide (n ≤ r.rsp.toNat) && !((r.getSeg 15).bit 8 && !r.w)

/-- The calls: the offset of the target, from the registers before the bundle (R71, R72, R116, R117). -/
def callRow : Instr → Option (Slot × Option Reg × (CoreRegs → Word))
  | .call sl disp => some (sl, none, fun r => r.pc + disp.signExtend 64 * 4)
  | .callr sl a => some (sl, none, fun r => r.getG a.toNat &&& ~~~(3#64))
  | .callm sl m disp => some (sl, some m, fun r => r.pc + disp.signExtend 64 * 4)
  | .callmr sl m a => some (sl, some m, fun r => r.getG a.toNat &&& ~~~(3#64))
  | _ => none

end Sys2Proof.Machine
end

