-- ==== Sys2Proof/Safety/Held.lean ====
section
/-! DEFINITION. What claims about reads of a core speak of: the bytes that its quadrant holds under its own stores, the
descriptors among them, and what entry to an exception leaves (R59 to R62, R79 to R83, R183, R202). -/

namespace Sys2Proof.Machine

/-- The quadrant of the core holds the byte's line, unpoisoned, and the core's world may use it (R216, R464). -/
def heldLine (s : State) (n : Nat) (a : Word) : Bool :=
  let l := getLine s (coreQuad n) (globalLine a)
  l.st != .i && !(l.bonded && !(getCore s n).regs.w) && !l.poison

/-- The byte as the core sees it: the line's, under the youngest of the core's own stores that wrote it (R202). -/
def heldByte (s : State) (n : Nat) (a : Word) : Byte :=
  let l := getLine s (coreQuad n) (globalLine a)
  (forward (getCore s n).buf (getCore s n).regs.w a.toNat [(lineBytes l.data).getD (a.toNat % 128) 0]).headD 0

/-- Each line of an access is present in the near cache, which waits for none: the access is a hit (R183, R184). -/
def nearHit (s : State) (n : Nat) (a : Word) (k : Nat) : Bool :=
  let c := getCore s n
  c.near.enabled && c.near.blocked.isNone &&
    (List.range k).all (fun j => let x := a + BitVec.ofNat 64 j
      (nearIndex c.near (globalLine x)).isSome && decide (x.toNat < 2 ^ 57))

/-- Such an access of a load, with no stream that would start a fill (R185, R186). -/
def nearReady (s : State) (n : Nat) (a : Word) (k : Nat) : Bool := nearHit s n a k && pfMode (getCore s n) != 2

/-- The bytes of an access all of whose lines are held. -/
def heldBytes (s : State) (n : Nat) (a : Word) (k : Nat) : Option (List Byte) :=
  if (List.range k).all (fun j => heldLine s n (a + BitVec.ofNat 64 j)) then
    some ((List.range k).map (fun j => heldByte s n (a + BitVec.ofNat 64 j)))
  else none

/-- Words at an offset of a segment of normal memory, all of whose lines are held and present in the near cache. -/
def heldWords (s : State) (n sg : Nat) (o : Word) (k : Nat) : Option (List Word) :=
  let d := (getCore s n).regs.getSeg sg
  if d.typ = 0 ∧ nearHit s n (d.base + o) (8 * k) = true then (heldBytes s n (d.base + o) (8 * k)).map (bytesWords k)
  else none

/-- The descriptor of a selector whose entry is held and present in the near cache, where it passes the checks of R61 for a
target register. -/
def heldDesc (s : State) (n sel : Nat) (priv world : Option Bool) (tgt : Nat) (viaLdseg : Bool) : Option SegReg :=
  let r := (getCore s n).regs
  let a := r.getCtl 0 + BitVec.ofNat 64 (32 * sel)
  if (r.getCtl 1).field 16 0 ≤ sel ∨ nearHit s n a 32 = false then none
  else
    match heldBytes s n a 32 with
    | none => none
    | some bs =>
      let ws := bytesWords 4 bs
      let d : SegReg := ⟨wordAt ws 0, BitVec.ofNat 64 ((wordAt ws 1).field 56 0), BitVec.ofNat 16 ((wordAt ws 2).field 15 0),
        BitVec.ofNat 16 sel⟩
      if (checkDesc d priv world tgt viaLdseg).isNone then some d else none

/-- An exception can be entered on a core at once: no retry is under way, its handlers have saved the last one, no
write-combined store is open, and the descriptor of its vector base is held and passes (R83, R85). -/
def mayEnter (s : State) (n : Nat) (d : SegReg) : Prop :=
  let c := getCore s n
  c.retries = 0 ∧ c.regs.psw.bit 41 = false ∧ c.wc = [] ∧ c.defer = none ∧ c.near.cleaning = false ∧
    heldDesc s n ((c.regs.getCtl (if c.regs.w then 0x10 else 0x02)).field 63 48) none (some c.regs.w) 13 false = some d

/-- The registers at the handler (R83): `pc` is the offset reported. -/
def atHandler (r q : CoreRegs) (d : SegReg) (e : Exc) (pc : Word) : Prop :=
  let k := if r.w then 0x10 else 0x02
  q.getCtl (k + 1) = pc ∧ q.getCtl (k + 2) = r.psw ∧ q.getCtl (k + 3) = (r.getSeg 13).sel.setWidth 64 ∧
    q.getCtl (k + 4) = BitVec.ofNat 64 (e.code % 256 + 256 * (e.unit % 8) + 4096 * (e.seg % 16) + 65536 * (e.detail % 65536)) ∧
    q.getCtl (k + 5) = e.addr ∧ (∀ j, (j < k + 1 ∨ k + 5 < j) → q.getCtl j = r.getCtl j) ∧
    q.getSeg 13 = d ∧ (∀ j, j ≠ 13 → q.getSeg j = r.getSeg j) ∧
    q.psw.bit 41 = true ∧ q.psw.bit 42 = false ∧ q.psw.bit 43 = true ∧ q.psw.bit 45 = false ∧
    (∀ j, j ≠ 41 → j ≠ 42 → j ≠ 43 → j ≠ 45 → q.psw.bit j = r.psw.bit j) ∧
    q.pc = BitVec.ofNat 64 ((r.getCtl k).field 47 0 + 64 * e.code) ∧
    q.g = r.g ∧ q.acc = r.acc ∧ q.dsp = r.dsp ∧ q.rsp = r.rsp ∧ q.pcount = r.pcount ∧ q.fcsr = r.fcsr

/-- An exception has been entered: the registers are those at the handler, the bundle and the reservation are gone, the
buffered stores are kept, and nothing but the core has changed (R81, R83, R88). -/
def hasEntered (s t : State) (n : Nat) (d : SegReg) (e : Exc) (pc : Word) : Prop :=
  atHandler (getCore s n).regs (getCore t n).regs d e pc ∧ (getCore t n).bundle = none ∧ (getCore t n).rsv = none ∧
    (getCore t n).waiting = false ∧ (getCore t n).retries = 0 ∧ (getCore t n).buf = (getCore s n).buf ∧ onlyCore s t n

/-- A bundle of one syllable has completed with these registers, the pc among them; no store, and nothing but the core has
changed. -/
def regsEnded (s t : State) (n : Nat) (r : CoreRegs) : Prop :=
  (getCore t n).regs = r ∧ (getCore t n).bundle = none ∧ (getCore t n).buf = (getCore s n).buf ∧ onlyCore s t n

/-- Such a bundle, and execution goes on past it. -/
def regsRan (s t : State) (n : Nat) (r : CoreRegs) : Prop := regsEnded s t n { r with pc := (getCore s n).regs.pc + 4 }

/-- The accumulator after a MACM, whether it sets v, and fcsr; none where a decimal operand is invalid (R129, R146). -/
def macmOut (var : Nat) (r : CoreRegs) (acc : Nat) (x y : Word) : Option (BitVec 128 × Bool × Word) :=
  let a := r.getAcc acc
  match var with
  | 0 => some (a + x.signExtend 128 * y.signExtend 128,
      decide ((a.toInt + x.toInt * y.toInt) < -(2 ^ 127) ∨ 2 ^ 127 ≤ (a.toInt + x.toInt * y.toInt)), r.fcsr)
  | 1 =>
    let v := fusedAdd (floatFmt .b128) (roundMode r) (decodeFloat (floatFmt .b64) x.toNat)
      (decodeFloat (floatFmt .b64) y.toNat) (decodeFloat (floatFmt .b128) a.toNat)
    some (BitVec.ofNat 128 v.1, false, raiseFlags r.fcsr v.2)
  | 2 =>
    match (decodeDec x.toNat 15).toOption, (decodeDec y.toNat 15).toOption, (decodeDec a.toNat 31).toOption with
    | some p, some q, some z => some ((encodeDec (z + p * q)).1, decide (10 ^ 31 ≤ (z + p * q).natAbs), r.fcsr)
    | _, _, _ => none
  | _ => some (a + x.setWidth 128 * y.setWidth 128, decide (2 ^ 128 ≤ a.toNat + x.toNat * y.toNat), r.fcsr)

end Sys2Proof.Machine
end

