-- ==== Sys2Proof/Safety/Agents.lean ====
section
/-! DEFINITION. What claims about the caching agents speak of: the table of R218 as it stands there, and the answers that
leave a quadrant. -/

namespace Sys2Proof.Machine

/-- The state of a line after a snoop, by the rows of R218. -/
def snoopAfter : FlitOp → Moesi → Moesi
  | .snpFwdS, .m => .o
  | .snpFwdS, .o => .o
  | .snpFwdS, .e => .s
  | .snpFwdO, _ => .i
  | .snpInv, _ => .i
  | .snpBack, _ => .i
  | .snpDrop, _ => .i
  | .snpClean, .m => .e
  | .snpClean, .o => .s
  | _, st => st

/-- The six snoops as they reach a quadrant. -/
def snoopRow : Instr → Option (FlitOp × Snoop)
  | .snpfwds m => some (.snpFwdS, m)
  | .snpfwdo m => some (.snpFwdO, m)
  | .snpinv m => some (.snpInv, m)
  | .snpclean m => some (.snpClean, m)
  | .snpback m => some (.snpBack, m)
  | .snpdrop m => some (.snpDrop, m)
  | _ => none

/-- The module takes coherence traffic: powered, and not in checkstop (R12, R522). -/
def trafficUp (s : State) : Bool := s.power.pwrOk && s.power.rails && !s.flt.checkstop

/-- No core of a quadrant defers the snoops of a line (R213). -/
def undeferred (s : State) (q gl : Nat) : Prop :=
  ∀ e ∈ s.cores, coreQuad e.1 = q → ∀ d, e.2.defer = some d → d.line ≠ gl

/-- Flits have left this module, the last of them of this kind, to this device, under this stamp. -/
def sent (s t : State) (op : FlitOp) (dst : Nat) (stamp : Word) : Prop :=
  ∃ fs f, t.tree.net = s.tree.net ++ fs ++ [f] ∧ f.op = op ∧ f.dst = dst ∧ f.stamp = stamp

/-- Flits have left this module, among them a SnpResp to this device under this stamp. -/
def snoopAnswered (s t : State) (home : Nat) (stamp : Word) : Prop :=
  ∃ fs, t.tree.net = s.tree.net ++ fs ∧ ∃ f ∈ fs, f.op = .snpResp ∧ f.dst = home ∧ f.stamp = stamp

end Sys2Proof.Machine
end

