-- ==== Sys2Proof/Safety/Commands.lean ====
section
/-! DEFINITION. The words in which statements speak of Relrax's commands (R491, R497 to R511). -/

namespace Sys2Proof.Machine

/-- The mailbox and the command code of a row that executes a mailbox command. -/
def cmdRow : Instr → Option (Mbx × Nat)
  | .identity m => some (m, 0x0101) | .inventory m => some (m, 0x0102) | .system m => some (m, 0x0103)
  | .regRead m => some (m, 0x0104) | .regWrite m => some (m, 0x0105)
  | .zoneCreate m => some (m, 0x0201) | .zoneActivate m => some (m, 0x0202) | .zoneStop m => some (m, 0x0203)
  | .zoneDestroy m => some (m, 0x0204) | .zoneReset m => some (m, 0x0205) | .zoneStatus m => some (m, 0x0206)
  | .vcoreBind m => some (m, 0x0207) | .vcoreUnbind m => some (m, 0x0208) | .vcoreStart m => some (m, 0x0209)
  | .vcoreStop m => some (m, 0x020A) | .imageRead m => some (m, 0x020B) | .imageRelease m => some (m, 0x020C)
  | .pageAssign m => some (m, 0x0301) | .pageRelease m => some (m, 0x0302) | .pageMap m => some (m, 0x0303)
  | .pagePin m => some (m, 0x0304) | .cellar m => some (m, 0x0305) | .poolAdd m => some (m, 0x0306)
  | .poolRemove m => some (m, 0x0307) | .listMove m => some (m, 0x0308) | .listMark m => some (m, 0x0309)
  | .listRead m => some (m, 0x030A) | .memRetrain m => some (m, 0x030B)
  | .portStatus m => some (m, 0x0401) | .portSet m => some (m, 0x0402) | .portRetrain m => some (m, 0x0403)
  | .lostRead m => some (m, 0x0404)
  | .start m => some (m, 0x0501) | .halt m => some (m, 0x0502) | .refresh m => some (m, 0x0503)
  | .orphanRead m => some (m, 0x0504) | .subStatus m => some (m, 0x0505)
  | .history m => some (m, 0x0601) | .faultAck m => some (m, 0x0602) | .logRead m => some (m, 0x0603)
  | .errRelease m => some (m, 0x0604) | .logNote m => some (m, 0x0605)
  | .coreRead m => some (m, 0x0701) | .retireClear m => some (m, 0x0702) | .coreRelieve m => some (m, 0x0703)
  | .merSource m => some (m, 0x0801) | .vintageChange m => some (m, 0x0802) | .configRead m => some (m, 0x0803)
  | .configExport m => some (m, 0x0804)
  | .keyLoad m => some (m, 0x0901) | .keyScrub m => some (m, 0x0902) | .granuleTag m => some (m, 0x0903)
  | .granuleUntag m => some (m, 0x0904)
  | .ucodeLoad m => some (m, 0x0A01) | .ucodeKey m => some (m, 0x0A02) | .flashUpdate m => some (m, 0x0A03)
  | .domainOff m => some (m, 0x0B01) | .domainOn m => some (m, 0x0B02) | .domainCancel m => some (m, 0x0B03)
  | .powerDown m => some (m, 0x0B04) | .moduleReset m _ => some (m, 0x0B05)
  | _ => none

/-- Mailbox `m` holds command `a` with this code, ready to be executed, and its reserved parameter bits are 0. -/
def runs (s : State) (m : Mbx) (code : Nat) (a : Accepted) : Prop := readyCmd s m code = some a ∧ paramsOk a.words = true

/-- The command answers at once, in the state `u` that it leaves: error code 0 and these result words. -/
def answered (t u : State) (m : Mbx) (ws : List Word) : Prop := t = setOutcome u m (okRes ws)

end Sys2Proof.Machine
end

