-- ==== Sys2Proof/Safety/HomeRows.lean ====
section
/-! DEFINITION. What claims about the home speak of: a request that finds its line at rest, and how a grant leaves the
home (R221 to R224, R239). -/

namespace Sys2Proof.Machine

/-- A request of an agent of an inventoried module finds the hub up and its line at rest in a mapped page: no cache holds
it, no transaction and no credit names it, its bucket has room, its zone has memory credit and its channel is in service
(R221 to R223, R239, R244, R450). -/
def atRest (s : State) (r : CohReq) (fl : Nat) : Prop :=
  let off := addrOff r.addr
  let li := off / 128
  hubUp s = true ∧ r.addr.bit 63 = false ∧ addrDev r.addr = s.devId ∧ s.home.lostQueue = [] ∧
    Table.get noFlag s.fab.lostMap r.agent.dev = false ∧ (r.rs = false ∨ stampKnown s r.stamp = false) ∧
    requestCheck s r = .line fl ∧ (getPage s (off / 4096)).st = 0 ∧ mustWait s fl r.zone = false ∧
    busy s li = false ∧ Assoc.get s.home.dir li = none ∧ lineHolders s (128 * li) = [] ∧
    bucketFull s li r.agent = false ∧ framePoison s fl = false

/-- Data has gone to the requester in a state, and the transaction waits for its CmpAck (R221, R223). -/
def dataGranted (s t : State) (r : CohReq) (st : Moesi) (l : Line) : Prop :=
  (∃ f, t.tree.net = s.tree.net ++ [f] ∧ f.op = .data ∧ f.dst = r.agent.dev ∧ f.stamp = r.stamp ∧ f.line = some l ∧
    f.poison = false ∧ f.credit = moesiNum st) ∧
    (findTxn t (addrOff r.addr / 128)).map (·.granted) = some (some st)

/-- The directory after a grant of ownership: the agent, unless it is the home quadrant, which is never recorded (R215). -/
def ownerRecorded (s t : State) (r : CohReq) : Prop :=
  let li := addrOff r.addr / 128
  Assoc.get t.home.dir li = if r.agent = ⟨s.devId, li % 4⟩ then none else some ⟨2, r.agent, [], none⟩

/-- Cmp has gone to the requester, and the line is free. -/
def completed (s t : State) (r : CohReq) : Prop :=
  (∃ f, t.tree.net = s.tree.net ++ [f] ∧ f.op = .cmp ∧ f.dst = r.agent.dev ∧ f.stamp = r.stamp) ∧
    busy t (addrOff r.addr / 128) = false

/-- A frame line holds this data under the key of a zone, and every other one is as before (R247, R251). -/
def frameHolds (s t : State) (fl zone : Nat) (l : Line) : Prop :=
  framePoison t fl = false ∧ readFrame t fl (keyTag s zone) = l ∧
    ∀ f k, f ≠ fl → readFrame t f k = readFrame s f k ∧ framePoison t f = framePoison s f

end Sys2Proof.Machine
end

