-- ==== Sys2Proof/Safety/Integer.lean ====
section
/-! DEFINITION. What claims about the integer syllables speak of: for each row, its slot, whether it is the .f form, its
destination, the value that its rule gives, the flags c and v of the .f form, and the edges that set v or dz in either form,
all from the registers as they stood before the bundle (R98 to R106, R131 to R133). -/

namespace Sys2Proof.Machine

structure IntRow where
  sl : Slot
  f : Bool
  d : Reg
  val : CoreRegs → Word
  c : CoreRegs → Bool
  v : CoreRegs → Bool
  edgeV : CoreRegs → Bool
  dz : CoreRegs → Bool

/-- An integer outside the signed 64-bit range. -/
def beyond64 (x : Int) : Bool := decide (¬ (-(2 ^ 63) ≤ x ∧ x < 2 ^ 63))

def one (b : Bool) : Word := if b then 1 else 0

/-- A shift at any width (R133): counts of the width or more give 0, copies of the sign, or a count modulo the width. -/
def shifted {w : Nat} (k : ShiftKind) (x : BitVec w) (n : Nat) : BitVec w :=
  match k with
  | .shl | .sal => x <<< n
  | .shr => x >>> n
  | .sar => x.sshiftRight n
  | .rol => x.rotateLeft n
  | .ror => x.rotateRight n

/-- At width 32 the low half is shifted and the result is sign-extended (R102). -/
def shiftedBy (k : ShiftKind) (w : Bool) (x : Word) (n : Nat) : Word :=
  if w then (shifted k (x.setWidth 32) n).signExtend 64 else shifted k x n

/-- SAL sets v: the operand times 2^count leaves the signed range of the width (R133). -/
def salLost (w : Bool) (x : Word) (n : Nat) : Bool :=
  if w then decide ((x.setWidth 32).toInt * 2 ^ n < -(2 ^ 31) ∨ 2 ^ 31 ≤ (x.setWidth 32).toInt * 2 ^ n)
  else decide (x.toInt * 2 ^ n < -(2 ^ 63) ∨ 2 ^ 63 ≤ x.toInt * 2 ^ n)

def kindOf (k : BitVec 3) : ShiftKind :=
  if k = 0 then .shl else if k = 1 then .shr else if k = 2 then .sar else if k = 3 then .sal else if k = 4 then .rol else .ror

/-- The conditions of R104: 0 to 6, their inverses 8 to 14, always 7, dz 15. -/
def condTrue (k : Nat) (psw : Word) : Bool :=
  let n := psw.bit 3
  let z := psw.bit 2
  let c := psw.bit 1
  let v := psw.bit 0
  let base := fun (j : Nat) =>
    if j = 0 then z else if j = 1 then c else if j = 2 then n else if j = 3 then v else if j = 4 then c && !z
    else if j = 5 then n == v else !z && n == v
  if k = 7 then true else if k = 15 then psw.bit 4 else if k < 7 then base k else !base (k - 8)

/-- The eight bytes of a word in reverse. -/
def bytesReversed (x : Word) : Word :=
  x.extractLsb' 0 8 ++ x.extractLsb' 8 8 ++ x.extractLsb' 16 8 ++ x.extractLsb' 24 8 ++ x.extractLsb' 32 8 ++
    x.extractLsb' 40 8 ++ x.extractLsb' 48 8 ++ x.extractLsb' 56 8

/-- A row that clears c and v in its .f form and has no edge. -/
def plainRow (sl : Slot) (f : Bool) (d : Reg) (val : CoreRegs → Word) : IntRow :=
  ⟨sl, f, d, val, fun _ => false, fun _ => false, fun _ => false, fun _ => false⟩

/-- The integer rows. -/
def intRow : Instr → Option IntRow
  | .add sl f d a b => some ⟨sl, f, d,
    fun r => r.getG a.toNat + r.getG b.toNat,
    (fun r => decide (2 ^ 64 ≤ (r.getG a.toNat).toNat + (r.getG b.toNat).toNat)),
    (fun r => beyond64 ((r.getG a.toNat).toInt + (r.getG b.toNat).toInt)),
    (fun _ => false), (fun _ => false)⟩
  | .adc sl f d a b => some ⟨sl, f, d,
    fun r => r.getG a.toNat + r.getG b.toNat + one (r.psw.bit 1),
    (fun r => decide (2 ^ 64 ≤ (r.getG a.toNat).toNat + (r.getG b.toNat).toNat + (r.psw.bit 1).toNat)),
    (fun r => beyond64 ((r.getG a.toNat).toInt + (r.getG b.toNat).toInt + (r.psw.bit 1).toNat)),
    (fun _ => false), (fun _ => false)⟩
  | .sub sl f d a b => some ⟨sl, f, d,
    fun r => r.getG a.toNat - r.getG b.toNat,
    (fun r => decide ((r.getG b.toNat).toNat ≤ (r.getG a.toNat).toNat)),
    (fun r => beyond64 ((r.getG a.toNat).toInt - (r.getG b.toNat).toInt)),
    (fun _ => false), (fun _ => false)⟩
  | .sbc sl f d a b => some ⟨sl, f, d,
    fun r => r.getG a.toNat - r.getG b.toNat - one (!(r.psw.bit 1)),
    (fun r => decide ((r.getG b.toNat).toNat + (!(r.psw.bit 1)).toNat ≤ (r.getG a.toNat).toNat)),
    (fun r => beyond64 ((r.getG a.toNat).toInt - (r.getG b.toNat).toInt - (!(r.psw.bit 1)).toNat)),
    (fun _ => false), (fun _ => false)⟩
  | .and sl f d a b => some (plainRow sl f d (fun r => r.getG a.toNat &&& r.getG b.toNat))
  | .or sl f d a b => some (plainRow sl f d (fun r => r.getG a.toNat ||| r.getG b.toNat))
  | .xor sl f d a b => some (plainRow sl f d (fun r => r.getG a.toNat ^^^ r.getG b.toNat))
  | .andn sl f d a b => some (plainRow sl f d (fun r => r.getG a.toNat &&& ~~~(r.getG b.toNat)))
  | .min sl f d a b =>
    some (plainRow sl f d (fun r => if (r.getG b.toNat).slt (r.getG a.toNat) then r.getG b.toNat else r.getG a.toNat))
  | .max sl f d a b =>
    some (plainRow sl f d (fun r => if (r.getG b.toNat).slt (r.getG a.toNat) then r.getG a.toNat else r.getG b.toNat))
  | .minu sl f d a b =>
    some (plainRow sl f d (fun r => if r.getG b.toNat < r.getG a.toNat then r.getG b.toNat else r.getG a.toNat))
  | .maxu sl f d a b =>
    some (plainRow sl f d (fun r => if r.getG b.toNat < r.getG a.toNat then r.getG a.toNat else r.getG b.toNat))
  | .neg sl f d a => some ⟨sl, f, d,
    fun r => -(r.getG a.toNat),
    (fun r => decide (r.getG a.toNat = 0)),
    (fun r => decide (r.getG a.toNat = BitVec.intMin 64)),
    (fun r => decide (r.getG a.toNat = BitVec.intMin 64)), (fun _ => false)⟩
  | .abs sl f d a => some ⟨sl, f, d,
    fun r => if (r.getG a.toNat).msb then -(r.getG a.toNat) else r.getG a.toNat,
    (fun _ => false),
    (fun r => decide (r.getG a.toNat = BitVec.intMin 64)),
    (fun r => decide (r.getG a.toNat = BitVec.intMin 64)), (fun _ => false)⟩
  | .mul sl f d a b => some ⟨sl, f, d,
    fun r => r.getG a.toNat * r.getG b.toNat,
    (fun r => decide (2 ^ 64 ≤ (r.getG a.toNat).toNat * (r.getG b.toNat).toNat)),
    (fun r => beyond64 ((r.getG a.toNat).toInt * (r.getG b.toNat).toInt)),
    (fun _ => false), (fun _ => false)⟩
  | .mulhu sl f d a b =>
    some (plainRow sl f d (fun r => ((r.getG a.toNat).setWidth 128 * (r.getG b.toNat).setWidth 128).extractLsb' 64 64))
  | .mulhs sl f d a b =>
    some (plainRow sl f d (fun r => ((r.getG a.toNat).signExtend 128 * (r.getG b.toNat).signExtend 128).extractLsb' 64 64))
  | .divu sl f d a b => some ⟨sl, f, d,
    fun r => if r.getG b.toNat = 0 then -1 else (r.getG a.toNat).udiv (r.getG b.toNat),
    (fun _ => false),
    (fun _ => false),
    (fun _ => false), (fun r => decide (r.getG b.toNat = 0))⟩
  | .remu sl f d a b => some ⟨sl, f, d,
    fun r => (r.getG a.toNat).umod (r.getG b.toNat),
    (fun _ => false),
    (fun _ => false),
    (fun _ => false), (fun r => decide (r.getG b.toNat = 0))⟩
  | .divs sl f d a b => some ⟨sl, f, d,
    fun r => if r.getG b.toNat = 0 then -1 else (r.getG a.toNat).sdiv (r.getG b.toNat),
    (fun _ => false),
    (fun r => decide (r.getG a.toNat = BitVec.intMin 64 ∧ r.getG b.toNat = -1)),
    (fun r => decide (r.getG a.toNat = BitVec.intMin 64 ∧ r.getG b.toNat = -1)), (fun r => decide (r.getG b.toNat = 0))⟩
  | .rems sl f d a b => some ⟨sl, f, d,
    fun r => (r.getG a.toNat).srem (r.getG b.toNat),
    (fun _ => false),
    (fun r => decide (r.getG a.toNat = BitVec.intMin 64 ∧ r.getG b.toNat = -1)),
    (fun r => decide (r.getG a.toNat = BitVec.intMin 64 ∧ r.getG b.toNat = -1)), (fun r => decide (r.getG b.toNat = 0))⟩
  | .shl sl f w d a b => some (plainRow sl f d (fun r => shiftedBy .shl w (r.getG a.toNat) (r.getG b.toNat).toNat))
  | .shr sl f w d a b => some (plainRow sl f d (fun r => shiftedBy .shr w (r.getG a.toNat) (r.getG b.toNat).toNat))
  | .sar sl f w d a b => some (plainRow sl f d (fun r => shiftedBy .sar w (r.getG a.toNat) (r.getG b.toNat).toNat))
  | .sal sl f w d a b => some ⟨sl, f, d,
    fun r => shiftedBy .sal w (r.getG a.toNat) (r.getG b.toNat).toNat,
    (fun _ => false),
    (fun r => salLost w (r.getG a.toNat) (r.getG b.toNat).toNat),
    (fun r => salLost w (r.getG a.toNat) (r.getG b.toNat).toNat), (fun _ => false)⟩
  | .rol sl f w d a b => some (plainRow sl f d (fun r => shiftedBy .rol w (r.getG a.toNat) (r.getG b.toNat).toNat))
  | .ror sl f w d a b => some (plainRow sl f d (fun r => shiftedBy .ror w (r.getG a.toNat) (r.getG b.toNat).toNat))
  | .sel sl c d a b =>
    some (plainRow sl false d (fun r => if condTrue c.toNat r.psw then r.getG a.toNat else r.getG b.toNat))
  | .sxtb sl d a => some (plainRow sl false d (fun r => ((r.getG a.toNat).setWidth 8).signExtend 64))
  | .sxth sl d a => some (plainRow sl false d (fun r => ((r.getG a.toNat).setWidth 16).signExtend 64))
  | .sxtw sl d a => some (plainRow sl false d (fun r => ((r.getG a.toNat).setWidth 32).signExtend 64))
  | .zxtb sl d a => some (plainRow sl false d (fun r => ((r.getG a.toNat).setWidth 8).setWidth 64))
  | .zxth sl d a => some (plainRow sl false d (fun r => ((r.getG a.toNat).setWidth 16).setWidth 64))
  | .zxtw sl d a => some (plainRow sl false d (fun r => ((r.getG a.toNat).setWidth 32).setWidth 64))
  | .clz sl d a => some (plainRow sl false d (fun r => (r.getG a.toNat).clz))
  | .ctz sl d a => some (plainRow sl false d (fun r => (r.getG a.toNat).ctz))
  | .popc sl d a => some (plainRow sl false d (fun r => (r.getG a.toNat).cpop))
  | .bswap sl d a => some (plainRow sl false d (fun r => bytesReversed (r.getG a.toNat)))
  | .addi sl f d a imm => some ⟨sl, f, d,
    fun r => r.getG a.toNat + imm.signExtend 64,
    (fun r => decide (2 ^ 64 ≤ (r.getG a.toNat).toNat + (imm.signExtend 64).toNat)),
    (fun r => beyond64 ((r.getG a.toNat).toInt + imm.toInt)),
    (fun _ => false), (fun _ => false)⟩
  | .subi sl f d a imm => some ⟨sl, f, d,
    fun r => r.getG a.toNat - imm.signExtend 64,
    (fun r => decide ((imm.signExtend 64).toNat ≤ (r.getG a.toNat).toNat)),
    (fun r => beyond64 ((r.getG a.toNat).toInt - imm.toInt)),
    (fun _ => false), (fun _ => false)⟩
  | .andi sl d a imm => some (plainRow sl false d (fun r => r.getG a.toNat &&& imm.setWidth 64))
  | .ori sl d a imm => some (plainRow sl false d (fun r => r.getG a.toNat ||| imm.setWidth 64))
  | .xori sl d a imm => some (plainRow sl false d (fun r => r.getG a.toNat ^^^ imm.setWidth 64))
  | .shi sl f d a imm => some ⟨sl, f, d,
    fun r => shiftedBy (kindOf (imm.extractLsb' 7 3)) (imm.getLsbD 6) (r.getG a.toNat) (imm.extractLsb' 0 6).toNat,
    (fun _ => false),
    (fun r => (kindOf (imm.extractLsb' 7 3)) == .sal && salLost (imm.getLsbD 6) (r.getG a.toNat) (imm.extractLsb' 0 6).toNat),
    (fun r => (kindOf (imm.extractLsb' 7 3)) == .sal && salLost (imm.getLsbD 6) (r.getG a.toNat) (imm.extractLsb' 0 6).toNat), (fun _ => false)⟩
  | .ins sl d h imm =>
    some (plainRow sl false d (fun r => (r.getG d.toNat &&& ~~~(0xFFFF#64 <<< (16 * h.toNat))) ||| (imm.setWidth 64 <<< (16 * h.toNat))))
  | .ldiz sl d h imm => some (plainRow sl false d (fun _ => imm.setWidth 64 <<< (16 * h.toNat)))
  | .ldio sl d h imm =>
    some (plainRow sl false d (fun _ => ~~~(0xFFFF#64 <<< (16 * h.toNat)) ||| (imm.setWidth 64 <<< (16 * h.toNat))))
  | _ => none

end Sys2Proof.Machine
end

