-- ==== Sys2Proof/Safety/Links.lean ====
section
/-! DEFINITION. What claims about messages between modules speak of: a link message handed to a port, and messages that
left for other modules (R313, R314). -/

namespace Sys2Proof.Machine

/-- A port has been handed one link message for its neighbour, behind what it held (R303, R314). -/
def linkSent (s t : State) (p : Nat) (op : FlitOp) (ws : List Word) : Prop :=
  ∃ f, (getPort t p).tx = (getPort s p).tx ++ [f] ∧ f.op = op ∧ f.words = ws ∧ f.dst = (getPort s p).nbrId.getD 0

/-- A message of a kind has left for each of these modules, in turn, and nothing else has. -/
def sentEach (s t : State) (op : FlitOp) (ds : List Nat) : Prop :=
  ∃ fs, t.tree.net = s.tree.net ++ fs ∧ fs.map (·.dst) = ds ∧ ∀ f ∈ fs, f.op = op

/-- A message has left for a module with these words, and nothing else has. -/
def told (s t : State) (op : FlitOp) (dst : Nat) (ws : List Word) : Prop :=
  ∃ f, t.tree.net = s.tree.net ++ [f] ∧ f.op = op ∧ f.dst = dst ∧ f.words = ws

end Sys2Proof.Machine
end

