-- ==== Sys2Proof/Safety/Registers.lean ====
section
/-! DEFINITION. What claims about the F and X syllables that only compute speak of: for each row, its slot, its unit, and
the registers after it, from the registers as they stood before the bundle; none where the row raises an exception or is
recorded (R54 to R57, R69, R104, R116, R117, R122 to R128). -/

namespace Sys2Proof.Machine

structure RegRow where
  sl : Slot
  fits : FUnit → Bool
  out : CoreRegs → Option CoreRegs

/-- A floating-point result in its destination, and its flags added to the sticky ones (R56, R123). -/
def withFloat (r : CoreRegs) (t : Fmt) (d : Reg) (x : Nat × FFlags) : CoreRegs :=
  { (match t with
      | .b128 => (r.setG d.toNat (BitVec.ofNat 64 x.1)).setG (d.toNat + 1) (BitVec.ofNat 64 (x.1 / 2 ^ 64))
      | _ => r.setG d.toNat (BitVec.ofNat 64 x.1)) with fcsr := raiseFlags r.fcsr x.2 }

/-- A 128-bit value in an even register and the next. -/
def withPair (r : CoreRegs) (d : Reg) (v : BitVec 128) : CoreRegs :=
  (r.setG d.toNat (v.extractLsb' 0 64)).setG (d.toNat + 1) (v.extractLsb' 64 64)

/-- A packed decimal operand; none where it is invalid (R142, R143). -/
def decimalAt (r : CoreRegs) (a : Reg) : Option Int := (decodeDec (pairBits r a) 31).toOption

/-- psw with n, z, c and v replaced (R54). -/
def withNzcv (r : CoreRegs) (n z c v : Bool) : CoreRegs := { r with psw := setFlags r.psw n z c v }

/-- A decimal sum modulo 10^31, with its sign and its overflow (R127, R144, R145). -/
def withDecimal (r : CoreRegs) (d : Reg) (x : Int) : CoreRegs :=
  let m := x.natAbs % 10 ^ 31
  withNzcv (withPair r d (encodeDec x).1) (decide (x < 0 ∧ m ≠ 0)) (decide (m = 0)) false (decide (10 ^ 31 ≤ x.natAbs))

/-- The word with the bits of a mask taken from another. -/
def underMask (m old new : Word) : Word := (old &&& ~~~m) ||| (new &&& m)

def fRow (sl : Slot) (out : CoreRegs → CoreRegs) : Option RegRow := some ⟨sl, unitF, fun r => some (out r)⟩
def xRow (sl : Slot) (out : CoreRegs → CoreRegs) : Option RegRow := some ⟨sl, unitX, fun r => some (out r)⟩

/-- Floating point, decimal and accumulators. -/
def fpRow : Instr → Option RegRow
  | .fadd sl t d a b => fRow sl (fun r => withFloat r t d (floatAdd (floatFmt t) (roundMode r) (fmtVal r t a) (fmtVal r t b)))
  | .fsub sl t d a b => fRow sl (fun r => withFloat r t d (floatSub (floatFmt t) (roundMode r) (fmtVal r t a) (fmtVal r t b)))
  | .fmul sl t d a b => fRow sl (fun r => withFloat r t d (floatMul (floatFmt t) (roundMode r) (fmtVal r t a) (fmtVal r t b)))
  | .fdiv sl t d a b => fRow sl (fun r => withFloat r t d (floatDiv (floatFmt t) (roundMode r) (fmtVal r t a) (fmtVal r t b)))
  | .fsqrt sl t d a => fRow sl (fun r => withFloat r t d (floatSqrt (floatFmt t) (roundMode r) (fmtVal r t a)))
  | .fmin sl t d a b => fRow sl (fun r => withFloat r t d (floatMinMax (floatFmt t) false (fmtBits r t a) (fmtBits r t b)))
  | .fmax sl t d a b => fRow sl (fun r => withFloat r t d (floatMinMax (floatFmt t) true (fmtBits r t a) (fmtBits r t b)))
  | .fma sl t d a b => fRow sl (fun r =>
      withFloat r t d (fusedAdd (floatFmt t) (roundMode r) (fmtVal r t a) (fmtVal r t b) (fmtVal r t d)))
  | .fms sl t d a b => fRow sl (fun r =>
      withFloat r t d (fusedAdd (floatFmt t) (roundMode r) (fmtVal r t a) (fmtVal r t b) (fmtVal r t d).negate))
  | .fnma sl t d a b => fRow sl (fun r =>
      withFloat r t d (fusedAdd (floatFmt t) (roundMode r) (fmtVal r t a).negate (fmtVal r t b) (fmtVal r t d)))
  | .fcmp sl t a b => fRow sl (fun r =>
      let x := fmtVal r t a
      let y := fmtVal r t b
      { r with
        psw := (match floatOrd x y with
          | none => setFlags r.psw false false true true
          | some k => setFlags r.psw (decide (k < 0)) (decide (k = 0)) (decide (0 ≤ k)) false)
        fcsr := raiseFlags r.fcsr (if x.isSnan || y.isSnan then nvFlag else noFlags) })
  | .fcvt sl kind sf df d a =>
    let t := floatFmt (fmtField df)
    let src := fun (r : CoreRegs) => fmtVal r (fmtField sf) a
    let int := fun (r : CoreRegs) (signed cut : Bool) =>
      let x := floatToInt (if cut then 1 else roundMode r) signed (src r)
      withFloat r .b64 d (x.1.toNat, x.2)
    fRow sl (fun r =>
      if kind = 0 then withFloat r (fmtField df) d (floatCvt t (roundMode r) (src r))
      else if kind = 1 then withFloat r (fmtField df) d (intToFloat t (roundMode r) (r.getG a.toNat).toInt)
      else if kind = 2 then withFloat r (fmtField df) d (intToFloat t (roundMode r) ((r.getG a.toNat).toNat : Int))
      else if kind = 3 then int r true false
      else if kind = 4 then int r false false
      else if kind = 5 then int r true true
      else int r false true)
  | .dadd sl d a b => some ⟨sl, unitF, fun r =>
      match decimalAt r a, decimalAt r b with
      | some x, some y => some (withDecimal r d (x + y))
      | _, _ => none⟩
  | .dsub sl d a b => some ⟨sl, unitF, fun r =>
      match decimalAt r a, decimalAt r b with
      | some x, some y => some (withDecimal r d (x - y))
      | _, _ => none⟩
  | .dcmp sl a b => some ⟨sl, unitF, fun r =>
      match decimalAt r a, decimalAt r b with
      | some x, some y => some (withNzcv r (decide (x < y)) (decide (x = y)) (decide (y ≤ x)) false)
      | _, _ => none⟩
  | .dtoi sl d a => some ⟨sl, unitF, fun r =>
      (decimalAt r a).map (fun x =>
        let v := BitVec.ofInt 64 x
        withNzcv (r.setG d.toNat v) v.msb (decide (v = 0)) false (beyond64 x))⟩
  | .itod sl d a => fRow sl (fun r => withPair r d (encodeDec (r.getG a.toNat).toInt).1)
  | .accclr sl acc => fRow sl (fun r => r.setAcc acc.toNat 0)
  | .accrd sl acc g => fRow sl (fun r => withPair r g (r.getAcc acc.toNat))
  | .accwr sl acc g => fRow sl (fun r => r.setAcc acc.toNat (r.getG (g.toNat + 1) ++ r.getG g.toNat))
  | .accrnd sl acc g => fRow sl (fun r =>
      withFloat r .b64 g (floatCvt (floatFmt .b64) (roundMode r) (decodeFloat (floatFmt .b128) (r.getAcc acc.toNat).toNat)))
  | _ => none

/-- Moves to and from the special registers. MTPSW is here where it does not raise ct, MTCTL where it writes an open
register or the world is bonded. -/
def moveRow : Instr → Option RegRow
  | .mtpcnt sl a => xRow sl (fun r => { r with pcount := r.getG a.toNat })
  | .mtpcnti sl imm => xRow sl (fun r => { r with pcount := imm.setWidth 64 })
  | .mfpcnt sl d => xRow sl (fun r => r.setG d.toNat r.pcount)
  | .mfpsw sl d => xRow sl (fun r => r.setG d.toNat r.psw)
  | .mtpsw sl a => some ⟨sl, unitX, fun r =>
      let m : Word := if r.priv then 0xF0000000000#64 ||| 0x1F#64 else 0x10000000000#64 ||| 0x1F#64
      if (r.getG a.toNat).bit 40 = r.psw.bit 40 then some { r with psw := underMask m r.psw (r.getG a.toNat) } else none⟩
  | .mffcsr sl d => xRow sl (fun r => r.setG d.toNat r.fcsr)
  | .mtfcsr sl a => xRow sl (fun r =>
      let v := r.getG a.toNat
      { r with fcsr := (v &&& 0x1F0#64) ||| (if v.field 2 0 ≤ 4 then v &&& 0x7#64 else 0) })
  | .mfctl sl d num => some ⟨sl, unitX, fun r =>
      if r.priv then some (r.setG d.toNat
        (if num.toNat ≤ 0x0A ∨ (0x10 ≤ num.toNat ∧ num.toNat ≤ 0x17 ∧ r.w = true) then r.getCtl num.toNat else 0))
      else none⟩
  | .mtctl sl a num => some ⟨sl, unitX, fun r =>
      let k := num.toNat
      let v := r.getG a.toNat
      if r.priv = false ∨ (0x10 ≤ k ∧ k ≤ 0x17 ∧ r.w = false) then none
      else if k = 0 then some (r.setCtl k (v &&& ~~~(0x1F#64)))
      else if k = 1 then some (r.setCtl k (if 65536 < v.field 16 0 then 65536#64 else v &&& 0x1FFFF#64))
      else if k = 0x02 ∨ k = 0x10 then some (r.setCtl k (v &&& ~~~(0x3F#64)))
      else if k = 0x05 ∨ k = 0x13 then some (r.setCtl k (v &&& 0xFFFF#64))
      else if k = 0x06 ∨ k = 0x14 then some (r.setCtl k (v &&& 0xFFFFF7FF#64))
      else if k ≤ 0x09 ∨ (0x10 ≤ k ∧ k ≤ 0x17) then some (r.setCtl k v)
      else some r⟩
  | .mfsp sl d rsp => xRow sl (fun r => r.setG d.toNat (if rsp then r.rsp else r.dsp))
  | .mtsp sl a rsp => some ⟨sl, unitX, fun r =>
      if rsp then (if r.priv then some { r with rsp := r.getG a.toNat } else none)
      else some { r with dsp := r.getG a.toNat }⟩
  | .adjsp sl imm => xRow sl (fun r => { r with dsp := r.dsp + imm.signExtend 64 })
  | _ => none

/-- Branches: the offset of the next bundle, none where the branch is not taken. -/
def branchRow : Instr → Option (Slot × (CoreRegs → Option Word))
  | .b sl disp => some (sl, fun r => some (r.pc + disp.signExtend 64 * 4))
  | .bcc sl c disp => some (sl, fun r => if condTrue c.toNat r.psw then some (r.pc + disp.signExtend 64 * 4) else none)
  | .br sl a => some (sl, fun r => some (r.getG a.toNat &&& ~~~(3#64)))
  | _ => none

end Sys2Proof.Machine
end

