-- ==== Sys2Proof/Certificates/Slice0/Obligations.lean ====
section
/-! DEFINITION. What is stated of the block, for provers. Each statement's comment names the rules of the spec it formalises. -/

open Sys2Proof Sys2Proof.Machine

/-- For every command c, queue rest and state s: a step of s with c in front of rest is exec of c on s with rest as
its queue. (00_scope.md) -/
def Obligations.StepRunsFrontCommand : Prop :=
  ∀ (c : Instr) (rest : List Instr) (s : State), step { s with pending := c :: rest } = exec c { s with pending := rest }

/-- For every state with an empty queue a step answers a next state: the one of a hub cycle. MER_NOW has moved by the
mt of one hub cycle where the base clock runs, and the queue is still empty. That the cycle happens on an empty queue
is the choice of log entry 1. (R36) -/
def Obligations.StepOnEmptyQueuePassesOneHubCycle : Prop :=
  ∀ s : State, s.pending = [] → ∃ t, step s = .next t ∧ t = idleTick s ∧ t.pending = []

/-- For every state s, if memory is in canonical form (strictly rising addresses, no entry equal to what an unlisted
address reads as, for bytes, keys and poison markers) and every line that carries the poison marker holds zero bytes,
then the same holds of the next state of a step, whatever the command at the front. (R247, R554) -/
def Obligations.StepKeepsMemorySound : Prop :=
  ∀ s t : State, Memory.sound s.mem → step s = .next t → Memory.sound t.mem

/-- The memory of the state after reset is in canonical form and no line carries the poison marker over bytes that are
not zero. (R554) -/
def Obligations.ResetMemorySound : Prop :=
  Memory.sound State.reset.mem

/-- For every command and state, when exec answers a next state, the queue of commands and the ordering code, whose
fuses nothing writes, are as before. (R1, R2) -/
def Obligations.CommandsKeepQueueAndFuses : Prop :=
  ∀ (i : Instr) (s t : State), exec i s = .next t → t.pending = s.pending ∧ t.part = s.part

/-- At reset the watchdog is disarmed and unlocked. BWDR with w = 1, at either privilege, on a core that takes it
alone, takes e from its low byte: zero disarms an unlocked watchdog and leaves a locked one as it stands; otherwise e
clamped to 20 to 40 arms it with expiry 2^e mt from now; bit 8 then sets the lock, whatever e is; the core and the
stamp are kept; the pc passes the bundle, and nothing else changes but the counter of stamps. For every step but that
of a command that can reset the module or takes its power (the rows named), a lock that is set stays set. (R475) -/
def Obligations.BondedWatchdogOfTheModule : Prop :=
  (State.reset.bnd.wdgArmed = false ∧ State.reset.bnd.wdgLock = false) ∧
  (∀ (sl : Slot) (a : Reg) (s : State),
    let n := sl.core
    let r := (getCore s n).regs
    alone s sl = true → sl.unit = .x → r.w = true →
    let w := r.getG a.toNat
    let e := w.field 7 0
    let k := if e < 20 then 20 else if 40 < e then 40 else e
    ∃ t, exec (.bwdr sl a) s = .next t ∧
      getCore t n = { getCore s n with regs := { r with pc := r.pc + 4 }, bundle := none, rep := [], repFirst := false } ∧
      (∀ m, m ≠ n → getCore t m = getCore s m) ∧
      t = { s with
        cores := t.cores, counters := (issueCoreStamp s n).2.counters
        bnd := { s.bnd with
          wdgCore := n, wdgStamp := (issueCoreStamp s n).1, wdgLock := s.bnd.wdgLock || w.bit 8
          wdgE := if e = 0 then s.bnd.wdgE else k
          wdgArmed := if e = 0 then s.bnd.wdgLock && s.bnd.wdgArmed else true
          wdgExp := if e = 0 then s.bnd.wdgExp else (now s + 2 ^ k) % 2 ^ 64 } }) ∧
  ∀ s t : State, step s = .next t → s.bnd.wdgLock = true →
    (match s.pending with
      | .moduleReset .. :: _ | .bondedWatchdogExpiry .. :: _ | .standbyPowerOn .. :: _ | .resetLPulse .. :: _
      | .thermtrip .. :: _ | .pwrOkDeassert .. :: _ | .startupStepTimeout .. :: _ | .standbyPowerLoss .. :: _
      | .relraxCommandDone .. :: _ => False
      | _ => True) →
    t.bnd.wdgLock = true

/-- For every step that answers a next state: of every kind of signed image, the highest version that the flash
records does not fall; and a customer key that is enrolled is the one enrolled afterwards (UCODE_KEY succeeds once in
a life). (R510, R503) -/
def Obligations.AcceptedVersionsNeverFall : Prop :=
  ∀ s t : State, step s = .next t →
    (∀ kind, acceptedVersion s kind ≤ acceptedVersion t kind) ∧
    ∀ key, s.rlx.flash.custKey = some key → t.rlx.flash.custKey = some key

/-- For every step that answers a next state and does not run RETIRE_CLEAR, every core whose retirement record stood
has it standing afterwards, through relief, start-up, reset and loss of power. (R163) -/
def Obligations.RetirementStandsUntilCleared : Prop :=
  ∀ (s t : State) (n : Nat), step s = .next t → retirementStands s n →
    (match s.pending with
      | .retireClear .. :: _ => False
      | _ => True) →
    retirementStands t n

/-- For every integer row (intRow names all of R100 to R105 and the immediate and wide forms), on a core that takes
its syllable alone in a bundle: exec answers a next state in which the destination holds the value of the row, g0
excepted, which discards it; every other register of the core but psw is as before; the pc has passed the bundle. No
other core and no other state changes. (R50, R51, R99, R100, R102, R103, R105) -/
def Obligations.IntegerResult : Prop :=
  ∀ (i : Instr) (x : IntRow) (s : State), intRow i = some x → alone s x.sl = true → unitInt x.sl.unit = true →
    lowest (operandBad i) = none →
    ∃ t r, exec i s = .next t ∧ bundleRan s t x.sl.core r ∧
      r = { (getCore s x.sl.core).regs with g := r.g, psw := r.psw } ∧
      ∀ k, r.getG k = if k = x.d.toNat ∧ k ≠ 0 then x.val (getCore s x.sl.core).regs else (getCore s x.sl.core).regs.getG k

/-- For every integer row on a core that takes its syllable alone: a .f form sets n from the top bit of the result and
z where it is 0, and c and v as its group states, and leaves dz; a form without .f leaves n, z and c, and sets v only
at the edges; a division or remainder by zero sets dz in either form; a set-only write clears nothing; psw bits 5 and
up are as before. (R101) -/
def Obligations.IntegerFlags : Prop :=
  ∀ (i : Instr) (x : IntRow) (s : State), intRow i = some x → alone s x.sl = true → unitInt x.sl.unit = true →
    lowest (operandBad i) = none →
    ∃ t, exec i s = .next t ∧
      let old := (getCore s x.sl.core).regs
      let psw := (getCore t x.sl.core).regs.psw
      psw.bit 3 = (if x.f then (x.val old).msb else old.psw.bit 3) ∧
      psw.bit 2 = (if x.f then decide (x.val old = 0) else old.psw.bit 2) ∧
      psw.bit 1 = (if x.f then x.c old else old.psw.bit 1) ∧
      psw.bit 0 = (if x.f then x.v old else old.psw.bit 0 || x.edgeV old) ∧
      psw.bit 4 = (old.psw.bit 4 || x.dz old) ∧
      ∀ k, 5 ≤ k → psw.bit k = old.psw.bit k

/-- For every row of fpRow, on a core that takes its syllable alone, with operand fields of a legal form and, for
decimal rows, valid operands: exec answers a next state in which the registers are those the row gives (result,
rounding by fcsr, sticky exception bits, n, z, c and v where the row writes them), the pc past the bundle. No other
core and no other state changes. (R56, R122, R123, R127, R142, R144, R145) -/
def Obligations.FloatDecimalResult : Prop :=
  ∀ (i : Instr) (x : RegRow) (s : State) (r : CoreRegs), fpRow i = some x → alone s x.sl = true → x.fits x.sl.unit = true →
    lowest (operandBad i) = none → x.out (getCore s x.sl.core).regs = some r →
    ∃ t, exec i s = .next t ∧ bundleRan s t x.sl.core r

/-- For MTPCNT, MTPCNTI, MFPCNT, MFPSW, MTPSW, MFFCSR, MTFCSR, MFCTL, MTCTL, MFSP, MTSP and ADJSP on a core that takes
the syllable alone, in the mode and world the row needs: exec answers a next state whose registers are those the row
gives, the writable bits only, the pc past the bundle. No other core and no other state changes. (R54, R55, R56, R57,
R69, R116) -/
def Obligations.MoveResult : Prop :=
  ∀ (i : Instr) (x : RegRow) (s : State) (r : CoreRegs), moveRow i = some x → alone s x.sl = true → x.fits x.sl.unit = true →
    x.out (getCore s x.sl.core).regs = some r →
    ∃ t, exec i s = .next t ∧ bundleRan s t x.sl.core r

/-- For B, BCC and BR on a core that takes the syllable alone in its X slot: exec answers a next state in which the pc
is the target where the branch is taken, bits 1 and 0 of a register target taken as 0, and the next bundle where it is
not; every other register is as before. No other core and no other state changes. (R116, R117, R104) -/
def Obligations.BranchTarget : Prop :=
  ∀ (i : Instr) (sl : Slot) (tgt : CoreRegs → Option Word) (s : State), branchRow i = some (sl, tgt) → alone s sl = true →
    sl.unit = .x →
    ∃ t, exec i s = .next t ∧ bundleEnded s t sl.core
      { (getCore s sl.core).regs with pc := (tgt (getCore s sl.core).regs).getD ((getCore s sl.core).regs.pc + 4) }

/-- For STB, STH, STW, STD, STA and STP on a core that takes the syllable alone, whose accesses nothing holds, whose
segment check passes and whose store buffer has room: exec answers a next state in which the entries of the store, at
base plus the offset of the form, have joined the buffer behind the older ones; the base is written back where the
form does so; the pc has passed the bundle. Nothing else but the counters of stamps changes: no byte of memory
changes. (R64, R65, R108, R202) -/
def Obligations.StoreBuffered : Prop :=
  ∀ (i : Instr) (m : MemOp) (size : Nat) (v : CoreRegs → Nat) (s : State), storeRow i = some (m, size, v) →
    let n := m.sl.core
    let r := (getCore s n).regs
    let o := (formOffset r m size).1
    let es := storeEntries r (r.getSeg m.s.toNat) ((r.getSeg m.s.toNat).base + o) size (v r) (issueCoreStamp s n).1
    alone s m.sl = true → unitMem m.sl.unit = true → lowest (operandBad i) = none → accessFree s n = true →
    segFault r m.s.toNat o size .store = none →
    ((getCore s n).buf.length + es.length ≤ 32 ∨ (getCore s n).buf = []) →
    ∃ t, exec i s = .next t ∧ bundleStored s t n { baseAfter r r m size with pc := r.pc + 4 } es

/-- For the four calls on a core that takes the syllable alone, with room on the return stack (and, for CALLM and
CALLMR, a passing data stack) and in the store buffer: exec answers a next state in which the entry of the row, with
the offset of the next bundle, joins the store buffer through s15; CALLM and CALLMR first store the masked registers,
from the highest down, and the mask below dsp; rsp and dsp have moved; the pc is at the target. Nothing else but the
counters of stamps changes. (R70, R71, R72, R73, R116) -/
def Obligations.CallPushes : Prop :=
  ∀ (i : Instr) (sl : Slot) (mr : Option Reg) (tgt : CoreRegs → Word) (s : State), callRow i = some (sl, mr, tgt) →
    let r := (getCore s sl.core).regs
    let st := (issueCoreStamp s sl.core).1
    alone s sl = true → sl.unit = .x → accessFree s sl.core = true →
    match mr with
    | none =>
      let es := pushed r 15 (r.rsp - 16) [0x0000001000000001#64, r.pc + 4] st
      mayPush r 16 = true → ((getCore s sl.core).buf.length + es.length ≤ 32 ∨ (getCore s sl.core).buf = []) →
      ∃ t, exec i s = .next t ∧ bundleStored s t sl.core { r with pc := tgt r, rsp := r.rsp - 16 } es
    | some m =>
      let mask := r.getG m.toNat
      let saved := maskRegs mask
      let dsp := r.dsp - BitVec.ofNat 64 (8 * (saved.length + 1))
      let es := pushedDown r 14 dsp (mask :: saved.map r.getG) st ++
        pushed r 15 (r.rsp - 32) [0x0000002000000002#64, r.pc + 4, mask, dsp] st
      mayPush r 32 = true → dataStackFault r r.dsp (saved.length + 1) .store = none →
      ((getCore s sl.core).buf.length + es.length ≤ 32 ∨ (getCore s sl.core).buf = []) →
      ∃ t, exec i s = .next t ∧ bundleStored s t sl.core { r with pc := tgt r, rsp := r.rsp - 32, dsp := dsp } es

/-- SAVECTX at privilege, alone in its bundle, with room on the return stack and an empty store buffer: exec answers a
next state in which the words of the context join the store buffer through s15, 672 bytes below the old rsp; rsp has
moved; the pc has passed the bundle. Nothing else but the counters of stamps changes. (R70, R73, R75) -/
def Obligations.ContextSaved : Prop :=
  ∀ (sl : Slot) (s : State),
    let r := (getCore s sl.core).regs
    let es := pushed r 15 (r.rsp - 672) (contextWords r) (issueCoreStamp s sl.core).1
    alone s sl = true → sl.unit = .x → accessFree s sl.core = true → r.priv = true → mayPush r 672 = true →
    (getCore s sl.core).buf = [] →
    ∃ t, exec (.savectx sl) s = .next t ∧ bundleStored s t sl.core { r with pc := r.pc + 4, rsp := r.rsp - 672 } es

/-- For SVC and BREAK on a core that takes the syllable alone and that may enter an exception: exec answers a next
state with the core at its handler: the saved pc is that of the next bundle, the saved psw, the selector of s13, the
cause and the offset stand in the registers of the set in use, psw has priv and ex set and ie and rp clear, s13 holds
the descriptor of the vector base, and pc is the vector plus 64 times the code (0x14, and 0x18 for BREAK). The stores
stay buffered, the reservation is lost. Nothing but the core changes. (R79, R83, R116, R118) -/
def Obligations.TrapEnters : Prop :=
  ∀ (sl : Slot) (imm : BitVec 16) (s : State) (d : SegReg),
    let c := getCore s sl.core
    alone s sl = true → sl.unit = .x → mayEnter s sl.core d →
    (∃ t, exec (.svc sl imm) s = .next t ∧ hasEntered s t sl.core d ⟨4, 0x14, imm.toNat, 0, 0⟩ (c.regs.pc + 4)) ∧
    ((if c.regs.w then c.dbgBi else c.dbgOi) = true →
      ∃ t, exec (.brk sl imm) s = .next t ∧ hasEntered s t sl.core d ⟨4, 0x18, imm.toNat, 0, 0⟩ (c.regs.pc + 4))

/-- On a core that takes the syllable alone: BREAK where the debug enable of its world is clear completes and changes
nothing but the pc. WAIT at privilege with a doorbell of its vcore pending does the same; without one the core waits,
its registers as they were. WAIT_WAKE of a core that waits, with its doorbell pending, completes the WAIT. (R118) -/
def Obligations.BreakOffAndWait : Prop :=
  ∀ (sl : Slot) (imm : BitVec 16) (s : State),
    let c := getCore s sl.core
    alone s sl = true → sl.unit = .x →
    ((if c.regs.w then c.dbgBi else c.dbgOi) = false → ∃ t, exec (.brk sl imm) s = .next t ∧ bundleRan s t sl.core c.regs) ∧
    (c.regs.priv = true → bellPending s sl.core = true → ∃ t, exec (.wait sl) s = .next t ∧ bundleRan s t sl.core c.regs) ∧
    (c.regs.priv = true → bellPending s sl.core = false →
      ∃ t, exec (.wait sl) s = .next t ∧ (getCore t sl.core).waiting = true ∧ (getCore t sl.core).regs = c.regs ∧
        onlyCore s t sl.core ∧
        ∀ u, (∀ m, getCore u m = if m = sl.core then { getCore t m with irq := true } else getCore t m) →
          ∃ v, exec (.waitWake sl.core) u = .next v ∧ (getCore v sl.core).waiting = false ∧
            (getCore v sl.core).bundle = none ∧ (getCore v sl.core).regs = { c.regs with pc := c.regs.pc + 4 } ∧
            onlyCore u v sl.core)

/-- On a core that takes the syllable alone, whose accesses nothing holds, with the table entry of the selector in its
near cache and passing the checks of R61: LDSEG puts the descriptor into its register and goes on; FAR at privilege
puts it into s13 and goes on at the offset of gb; ERET at privilege, of an exception saved outside a repeat, puts the
descriptor of ecs into s13, restores psw but zone and w from epsw, goes on at epc and loses the reservation. Nothing
but the core changes. (R61, R62, R84, R111, R116, R117, R212) -/
def Obligations.FarAndSegmentLoads : Prop :=
  ∀ (sl : Slot) (sg : BitVec 4) (a b : Reg) (s : State) (d : SegReg),
    let c := getCore s sl.core
    let r := c.regs
    let k := if r.w then 0x10 else 0x02
    alone s sl = true → accessFree s sl.core = true →
    (unitMem sl.unit = true → heldDesc s sl.core ((r.getG a.toNat).field 15 0) (some r.priv) (some r.w) sg.toNat true = some d →
      ∃ t, exec (.ldseg sl sg a) s = .next t ∧ regsRan s t sl.core (r.setSeg sg.toNat d)) ∧
    (sl.unit = .x → r.priv = true →
      heldDesc s sl.core ((r.getG a.toNat).field 15 0) (some r.priv) (some r.w) 13 false = some d →
      ∃ t, exec (.far sl a b) s = .next t ∧
        regsEnded s t sl.core { r.setSeg 13 d with pc := r.getG b.toNat &&& ~~~(3#64) }) ∧
    (sl.unit = .x → r.priv = true → (r.getCtl (k + 2)).bit 45 = false →
      heldDesc s sl.core ((r.getCtl (k + 3)).field 15 0) (some r.priv) (some r.w) 13 false = some d →
      ∃ t, exec (.eret sl) s = .next t ∧ (getCore t sl.core).rsv = none ∧ (getCore t sl.core).buf = c.buf ∧
        onlyCore s t sl.core ∧ ∃ p, (getCore t sl.core).regs = { r.setSeg 13 d with pc := r.getCtl (k + 1), psw := p } ∧
          ∀ j, p.bit j = if j ≤ 4 ∨ j = 40 ∨ j = 41 ∨ j = 42 ∨ j = 43 ∨ j = 45 then (r.getCtl (k + 2)).bit j else r.psw.bit j)

/-- On a core that takes the syllable alone: every fence completes and stands for the accesses that follow; before,
FENCE.IO and FENCE.FULL make every write-combining buffer leave, oldest first. While the fence that stands still waits
for what R205 names for it, a load, a store or a CMAINT of the core changes no register and no store buffer, and its
bundle stays open. PF completes, whatever it finds, with the registers as they were but for its base, written back,
and the pc: no line and no byte of memory changes. Where a check fails, the segment is not normal, the near cache is
off, four fills are in flight, or the line is present or in flight, nothing but that happens; else, where the quadrant
holds the line, its fill starts, and where it does not and the home is not known to refuse it, a prefetch RDSHARED of
the line goes out once. (R50, R113, R115, R187, R190, R205, R208) -/
def Obligations.FencesAndPrefetch : Prop :=
  (∀ (s : State) (sl : Slot) (i : Instr) (k : Nat), alone s sl = true → unitMem sl.unit = true →
    (i = .fenceSl sl ∧ k = 1 ∨ i = .fenceIo sl ∧ k = 2 ∨ i = .fenceFull sl ∧ k = 3) →
    let n := sl.core
    let done := { getCore s n with
      regs := { (getCore s n).regs with pc := (getCore s n).regs.pc + 4 }
      fence := max (getCore s n).fence k
      bundle := none
      rep := []
      repFirst := false }
    ((k = 1 ∨ (getCore s n).wc = []) → ∃ t, exec i s = .next t ∧ onlyCore s t n ∧ getCore t n = done) ∧
    let u := leaveWc s n
    k ≠ 1 → getCore u n = { getCore s n with wc := [], wcOut := (getCore u n).wcOut } →
    ∃ t, exec i s = .next t ∧ onlyCore u t n ∧ getCore t n = { done with wc := [], wcOut := (getCore u n).wcOut }) ∧
  (∀ (s : State) (i : Instr) (m : MemOp) (size : Nat) (out : CoreRegs → List Byte → CoreRegs), loadRow i = some (m, size, out) →
    let n := m.sl.core
    let c := getCore s n
    alone s m.sl = true → unitMem m.sl.unit = true → lowest (operandBad i) = none →
    segFault c.regs m.s.toNat (formOffset c.regs m size).1 size .load = none → fenceWaits c c.fence = true →
    ∃ t, exec i s = .next t ∧ (getCore t n).regs = c.regs ∧ (getCore t n).buf = c.buf ∧ (getCore t n).bundle.isSome ∧
      onlyCore s t n) ∧
  (∀ (s : State) (i : Instr) (m : MemOp) (size : Nat) (v : CoreRegs → Nat), storeRow i = some (m, size, v) →
    let n := m.sl.core
    let c := getCore s n
    alone s m.sl = true → unitMem m.sl.unit = true → lowest (operandBad i) = none →
    segFault c.regs m.s.toNat (formOffset c.regs m size).1 size .store = none → fenceWaits c c.fence = true →
    ∃ t, exec i s = .next t ∧ (getCore t n).regs = c.regs ∧ (getCore t n).buf = c.buf ∧ (getCore t n).bundle.isSome ∧
      onlyCore s t n) ∧
  ∀ (s : State) (m : MemOp), alone s m.sl = true → unitMem m.sl.unit = true → lowest (operandBad (.pf m)) = none →
    let n := m.sl.core
    let c := getCore s n
    let d := c.regs.getSeg m.s.toNat
    let o := (formOffset c.regs m 1).1
    let gl := globalLine (d.base + o)
    let regs := { baseAfter c.regs c.regs m 1 with pc := c.regs.pc + 4 }
    let off := (segFault c.regs m.s.toNat o 1 .load).isSome ∨ d.typ ≠ 0 ∨ c.near.enabled = false ∨ 4 ≤ c.near.fills.length ∨
      gl ∈ c.near.fills ∨ (nearIndex c.near gl).isSome
    (∃ t, exec (.pf m) s = .next t ∧ (getCore t n).regs = regs ∧ (getCore t n).bundle = none ∧ (getCore t n).buf = c.buf ∧
      (∀ j, j ≠ n → getCore t j = getCore s j) ∧ t.lines = s.lines ∧ t.mem = s.mem ∧ t.flt = s.flt) ∧
    (off → ∃ t, exec (.pf m) s = .next t ∧ bundleRan s t n (baseAfter c.regs c.regs m 1)) ∧
    (¬ off → (d.base + o).toNat < 2 ^ 57 → d.base.toNat + d.limit.toNat < 2 ^ 64 →
      (usable s (coreQuad n) gl c.regs.w = true ∨ reqRefused s (BitVec.ofNat 64 (gl * 128)) = none) →
      ∃ t, exec (.pf m) s = .next t ∧ (getCore t n).near.fills = c.near.fills ++ [gl] ∧
        (usable s (coreQuad n) gl c.regs.w = true ∨ reqPending s (coreQuad n) gl = true →
          regsRan s t n (baseAfter c.regs c.regs m 1)) ∧
        (usable s (coreQuad n) gl c.regs.w = false → reqPending s (coreQuad n) gl = false →
          ∃ r f, t.reqs = s.reqs ++ [r] ∧ r.kind = .rdShared ∧ r.core = n ∧ r.req.prefetch = true ∧
            r.req.addr = BitVec.ofNat 64 (gl * 128) ∧ t.tree.net = s.tree.net ++ [f] ∧ f.op = .rdShared))

/-- On a core that takes the syllable alone, whose accesses nothing holds and whose buffer has room: CMAINT by address
in normal memory, with its limit check and its right passing and privilege for invalidate; by zone at privilege of its
own zone, or of any from zone 0; and global at privilege, each join the store buffer behind the older stores, with
what they maintain. The registers but the pc are as before, and nothing but the core changes. (R77, R111, R114, R194)
-/
def Obligations.MaintenanceJoinsTheStores : Prop :=
  ∀ (sl : Slot) (x : BitVec 2) (sg : BitVec 4) (a : Reg) (s : State),
    let c := getCore s sl.core
    let r := c.regs
    let d := r.getSeg sg.toNat
    let o := baseVal r sg a
    let z := (r.getG a.toNat).field 11 0
    alone s sl = true → unitMem sl.unit = true → accessFree s sl.core = true → (c.buf.length < 32 ∨ c.buf = []) →
    (lowest (operandBad (.cmaintByAddress sl x sg a)) = none → d.typ = 0 → (x ≠ 1 ∨ r.priv = true) →
      (d.bit 8 = false ∨ r.w = true) → inLimit d o 1 = true → (if x = 0 then d.bit 2 else d.bit 3) = true →
      ∃ t, exec (.cmaintByAddress sl x sg a) s = .next t ∧
        bundleStored s t sl.core { r with pc := r.pc + 4 } [⟨d.base + o, 0, 0, 0, r.zone, r.w, false, 0, some ⟨.address, x.toNat, r.w⟩, (0, 0)⟩]) ∧
    (lowest (operandBad (.cmaintByZone sl x a)) = none → r.priv = true → (z = r.zone ∨ r.zone = 0) →
      ∃ t, exec (.cmaintByZone sl x a) s = .next t ∧
        bundleStored s t sl.core { r with pc := r.pc + 4 } [⟨0, 0, 0, 0, r.zone, r.w, false, 0, some ⟨.zone z, x.toNat, r.w⟩, (0, 0)⟩]) ∧
    (lowest (operandBad (.cmaintGlobal sl x)) = none → r.priv = true →
      ∃ t, exec (.cmaintGlobal sl x) s = .next t ∧
        bundleStored s t sl.core { r with pc := r.pc + 4 } [⟨0, 0, 0, 0, r.zone, r.w, false, 0, some ⟨.whole, x.toNat, r.w⟩, (0, 0)⟩])

/-- For LDB, LDH, LDW, LDD, LDBS, LDHS, LDWS, LDA and LDP in normal memory on a core that takes the syllable alone,
whose accesses nothing holds, whose segment check passes and whose lines are held and present in the near cache: exec
answers a next state in which the destination holds the bytes at base plus the offset of the form, extended as the row
says; the base is written back where the form does so; the store buffer is as before. Nothing but the core changes.
(R64, R65, R108, R183, R202) -/
def Obligations.LoadResult : Prop :=
  ∀ (i : Instr) (m : MemOp) (size : Nat) (out : CoreRegs → List Byte → CoreRegs) (s : State) (bs : List Byte),
    loadRow i = some (m, size, out) →
    let n := m.sl.core
    let r := (getCore s n).regs
    let o := (formOffset r m size).1
    let a := (r.getSeg m.s.toNat).base + o
    alone s m.sl = true → unitMem m.sl.unit = true → lowest (operandBad i) = none → accessFree s n = true →
    segFault r m.s.toNat o size .load = none → (r.getSeg m.s.toNat).typ = 0 → nearReady s n a size = true →
    heldBytes s n a size = some bs →
    ∃ t, exec i s = .next t ∧ regsRan s t n (out (baseAfter r r m size) bs)

/-- For MACM of every variant in normal memory on a core that takes the syllable alone in its F slot, whose accesses
nothing holds, both segment checks passing and both words held and present in the near cache, with valid decimal
operands where the variant is decimal: exec answers a next state in which the accumulator is as the variant gives it,
v is set where the sum left its range, fcsr has the sticky bits of the binary variant, and both address registers have
moved by 8. Nothing but the core changes. (R129, R130, R146) -/
def Obligations.MacmAccumulates : Prop :=
  ∀ (sl : Slot) (var acc : BitVec 2) (ga : Reg) (sa : BitVec 4) (gb : Reg) (sb : BitVec 4) (s : State) (x y : Word)
    (v : BitVec 128) (ovf : Bool) (f : Word),
    let n := sl.core
    let r := (getCore s n).regs
    let i := Instr.macm sl var acc ga sa gb sb
    let pa := (r.getSeg sa.toNat).base + r.getG ga.toNat
    let pb := (r.getSeg sb.toNat).base + r.getG gb.toNat
    alone s sl = true → sl.unit = .f → lowest (operandBad i) = none → accessFree s n = true →
    (r.getSeg sa.toNat).typ = 0 → (r.getSeg sb.toNat).typ = 0 →
    segFault r sa.toNat (r.getG ga.toNat) 8 .load = none → segFault r sb.toNat (r.getG gb.toNat) 8 .load = none →
    nearReady s n pa 8 = true → nearReady s n pb 8 = true →
    heldWords s n sa.toNat (r.getG ga.toNat) 1 = some [x] → heldWords s n sb.toNat (r.getG gb.toNat) 1 = some [y] →
    macmOut var.toNat r acc.toNat x y = some (v, ovf, f) →
    ∃ t, exec i s = .next t ∧
      regsRan s t n { (((r.setAcc acc.toNat v).setG ga.toNat (r.getG ga.toNat + 8)).setG gb.toNat (r.getG gb.toNat + 8)) with
        psw := if ovf then setBit r.psw 0 true else r.psw
        fcsr := f }

/-- LDRSV on a core that takes the syllable alone, on an owned line in normal memory whose granule the quadrant holds:
the register holds the zero-extended bytes, the core holds a reservation of the granule, and the constrained sequence
of 16 bundles begins. STCND with the reservation covering its address, the line owned and no older store buffered,
combined or unanswered: the bytes are stored in the line of the quadrant, which is M, no other line changes where the
L2 of the core and its slice hold it, z is set and the reservation is gone; without the reservation nothing is stored,
z is clear and the reservation is gone. (R112, R155, R206, R211, R213) -/
def Obligations.ReservationTaken : Prop :=
  ∀ (sl : Slot) (wide : Bool) (rd : Reg) (sg : BitVec 4) (a : Reg) (s : State),
    let n := sl.core
    let c := getCore s n
    let r := c.regs
    let d := r.getSeg sg.toNat
    let o := baseVal r sg a
    let size := if wide then 8 else 4
    let ga := d.base + o
    let gl := globalLine ga
    let q := coreQuad n
    let k := rsvSize s r.zone
    let first := ga.toNat / k * k
    alone s sl = true → unitMem sl.unit = true → accessFree s n = true →
    (∀ bs, lowest (operandBad (.ldrsv sl wide rd sg a)) = none → rsvFault r sg.toNat o size .load = none → ownsLine s q gl = true →
      (∀ j, j < k / 128 → usable s q (first / 128 + j) r.w = true) → usable s q gl r.w = true →
      nearReady s n ga size = true → heldBytes s n ga size = some bs →
      ∃ t, exec (.ldrsv sl wide rd sg a) s = .next t ∧
        regsRan s t n (r.setG rd.toNat (BitVec.ofNat 64 (ofLeBytes bs))) ∧
        (getCore t n).rsv = some (first, k) ∧ (getCore t n).defer = some ⟨gl, 16, []⟩) ∧
    (lowest (operandBad (.stcnd sl wide rd sg a)) = none → rsvFault r sg.toNat o size .store = none →
      (∀ e ∈ c.buf, e.maint.isSome) → c.wc = [] → c.wcOut = [] → c.devOut = [] →
      (rsvHolds c.rsv ga = false →
        ∃ t, exec (.stcnd sl wide rd sg a) s = .next t ∧ regsRan s t n { r with psw := setBit r.psw 2 false } ∧
          (getCore t n).rsv = none) ∧
      (rsvHolds c.rsv ga = true → usable s q gl r.w = true → ownsLine s q gl = true →
        ∃ t, exec (.stcnd sl wide rd sg a) s = .next t ∧
          (getCore t n).regs = { r with pc := r.pc + 4, psw := setBit r.psw 2 true } ∧ (getCore t n).rsv = none ∧
          (getLine t q gl).st = .m ∧
          (getLine t q gl).data = lineSet (getLine s q gl).data (ga.toNat % 128) (leBytes size (r.getG rd.toNat).toNat) ∧
          (gl ∈ c.l2 → gl ∈ getSlice s (coreCluster n) →
            ∀ p g, p < 4 → g < 2 ^ 50 → (p ≠ q ∨ g ≠ gl) → getLine t p g = getLine s p g)))

/-- On a core that takes the syllable alone, whose accesses nothing holds, with the entry at rsp in normal memory and
in the near cache, of the kind of the return and within the limit: RET goes on at the offset the entry keeps, with rsp
past 16 bytes. RETM, whose mask and dsp agree with the word on the data stack, restores the masked registers from
lowest to highest, moves dsp past them and rsp past 32 bytes and goes on at the offset kept. No other register
changes, and nothing but the core. (R63, R71, R72, R73) -/
def Obligations.ReturnsPop : Prop :=
  ∀ (sl : Slot) (s : State) (ws : List Word),
    let n := sl.core
    let r := (getCore s n).regs
    alone s sl = true → sl.unit = .x → accessFree s n = true → ((r.getSeg 15).bit 8 && !r.w) = false →
    (r.rsp.toNat + 15 ≤ (r.getSeg 15).limit.toNat → heldWords s n 15 r.rsp 2 = some ws → (wordAt ws 0).field 7 0 = 1 →
      ∃ t, exec (.ret sl) s = .next t ∧ regsEnded s t n { r with rsp := r.rsp + 16, pc := wordAt ws 1 }) ∧
    (∀ vs, r.rsp.toNat + 31 ≤ (r.getSeg 15).limit.toNat → heldWords s n 15 r.rsp 4 = some ws → (wordAt ws 0).field 7 0 = 2 →
      let saved := maskRegs (wordAt ws 2)
      wordAt ws 3 = r.dsp → heldWords s n 14 r.dsp (saved.length + 1) = some vs → wordAt vs 0 = wordAt ws 2 →
      (∀ j, j ≤ saved.length → segFault r 14 (r.dsp + BitVec.ofNat 64 (8 * j)) 8 .load = none) →
      ∃ t, exec (.retm sl) s = .next t ∧ onlyCore s t n ∧ (getCore t n).buf = (getCore s n).buf ∧
        let q := (getCore t n).regs
        q = { r with g := q.g, dsp := r.dsp + BitVec.ofNat 64 (8 * (saved.length + 1)), rsp := r.rsp + 32, pc := wordAt ws 1 } ∧
        (∀ j x, saved[j]? = some x → q.getG x = wordAt vs (j + 1)) ∧
        ∀ x, x ∉ saved → q.getG x = r.getG x)

/-- RESTCTX at privilege, alone in its bundle, whose accesses nothing holds, with the 672 bytes of the frame in the
near cache and within the limit and every selector of it passing the checks of R61: g1 to g63, the accumulators,
pcount, fcsr (its stored bits), dsp, the five exception registers of the set in use (their stored bits) and all
segment registers are those of the frame; rsp has passed it; psw is as before. Nothing but the core changes. (R63,
R73, R75) -/
def Obligations.ContextRestored : Prop :=
  ∀ (sl : Slot) (s : State) (ws : List Word) (ds : Nat → SegReg),
    let n := sl.core
    let r := (getCore s n).regs
    let k := if r.w then 0x10 else 0x02
    alone s sl = true → sl.unit = .x → accessFree s n = true → r.priv = true → ((r.getSeg 15).bit 8 && !r.w) = false →
    r.rsp.toNat + 671 ≤ (r.getSeg 15).limit.toNat → heldWords s n 15 r.rsp 84 = some ws → (wordAt ws 0).field 7 0 = 3 →
    (∀ i, i < 16 → heldDesc s n ((wordAt ws (80 + i / 4)).field (16 * (i % 4) + 15) (16 * (i % 4))) (some r.priv) (some r.w) i false =
      some (ds i)) →
    ∃ t, exec (.restctx sl) s = .next t ∧ onlyCore s t n ∧ (getCore t n).buf = (getCore s n).buf ∧
      let q := (getCore t n).regs
      (∀ i, 1 ≤ i → i ≤ 63 → q.getG i = wordAt ws i) ∧
      (∀ i, i < 4 → q.getAcc i = wordAt ws (65 + 2 * i) ++ wordAt ws (64 + 2 * i)) ∧
      q.pcount = wordAt ws 72 ∧ q.dsp = wordAt ws 74 ∧ q.rsp = r.rsp + 672 ∧ q.psw = r.psw ∧ q.pc = r.pc + 4 ∧
      q.fcsr = ((wordAt ws 73 &&& 0x1F0#64) ||| (if (wordAt ws 73).field 2 0 ≤ 4 then wordAt ws 73 &&& 0x7#64 else 0)) ∧
      q.getCtl (k + 1) = wordAt ws 75 ∧ q.getCtl (k + 2) = wordAt ws 76 ∧ q.getCtl (k + 3) = wordAt ws 77 &&& 0xFFFF#64 ∧
      q.getCtl (k + 4) = wordAt ws 78 &&& 0xFFFFF7FF#64 ∧ q.getCtl (k + 5) = wordAt ws 79 ∧
      (∀ j, (j < k + 1 ∨ k + 5 < j) → q.getCtl j = r.getCtl j) ∧ ∀ i, i < 16 → q.getSeg i = ds i

/-- On a core that takes the syllable alone, whose accesses nothing holds: BCALL from the open world (at privilege
where bit 15 of its number is set), with the descriptor of the bonded vector base in the near cache, bonded and
passing and room on the return stack: the entry of kind 5 joins the store buffer, w and priv are set, ie and ex clear,
s13 is the bonded code segment, pc the entry point of the number, and the reservation is lost. BRET from the bonded
world with s15 open, the buffer empty and the entry of kind 5 and its three descriptors in the near cache: g3 to g63,
acc1 to acc3 and pcount are zero, bonded descriptors in s0 to s12 are null, s13 to s15 are those of the entry, dsp,
rsp, fcsr and psw are restored with w clear and the flags clear, and no bonded line stays in the near cache. (R119,
R468, R469, R470) -/
def Obligations.BondedEntryAndReturn : Prop :=
  ∀ (sl : Slot) (s : State),
    let n := sl.core
    let c := getCore s n
    let r := c.regs
    alone s sl = true → sl.unit = .x →
    (∀ (imm : BitVec 16) (d : SegReg), accessFree s n = true → r.w = false → (imm.getLsbD 15 = false ∨ r.priv = true) →
      heldDesc s n ((r.getCtl 0x10).field 63 48) none none 13 false = some d → d.bit 8 = true → mayPush r 32 = true →
      let es := pushed r 15 (r.rsp - 32) [0x0000002000000005#64, r.pc + 4, bcallWord r, r.dsp] (issueCoreStamp s n).1
      (c.buf.length + es.length ≤ 32 ∨ c.buf = []) →
      ∃ t, exec (.bcall sl imm) s = .next t ∧ coreAndStamps s t n ∧ (getCore t n).buf = c.buf ++ es ∧ (getCore t n).rsv = none ∧
        ∃ p, (getCore t n).regs = { r.setSeg 13 d with
            psw := p, rsp := r.rsp - 32, pc := BitVec.ofNat 64 ((r.getCtl 0x10).field 47 0 + 0x4000 + 64 * imm.toNat) } ∧
          p.bit 44 = true ∧ p.bit 43 = true ∧ p.bit 42 = false ∧ p.bit 41 = false ∧
          ∀ j, (j < 41 ∨ 44 < j) → p.bit j = r.psw.bit j) ∧
    (∀ (ws : List Word) (d13 d14 d15 : SegReg), accessFree s n = true → r.w = true → (r.getSeg 15).bit 8 = false → c.buf = [] →
      r.rsp.toNat + 31 ≤ (r.getSeg 15).limit.toNat → heldWords s n 15 r.rsp 4 = some ws → (wordAt ws 0).field 7 0 = 5 →
      let e := wordAt ws 2
      heldDesc s n (e.field 63 48) (some r.priv) (some false) 13 false = some d13 →
      heldDesc s n (e.field 47 32) (some r.priv) (some false) 14 false = some d14 →
      heldDesc s n (e.field 31 16) (some r.priv) (some false) 15 false = some d15 →
      ∃ t, exec (.bret sl) s = .next t ∧ onlyCore s t n ∧ (getCore t n).rsv = none ∧
        (∀ x ∈ (getCore t n).near.entries, x.2.bonded = false) ∧
        let q := (getCore t n).regs
        (∀ i, 3 ≤ i → q.getG i = 0) ∧ (∀ i, i ≤ 2 → q.getG i = r.getG i) ∧
        (∀ i, 1 ≤ i → q.getAcc i = 0) ∧ q.getAcc 0 = r.getAcc 0 ∧ q.pcount = 0 ∧
        (∀ i, i < 13 → q.getSeg i = if (r.getSeg i).bit 8 then SegReg.null else r.getSeg i) ∧
        q.getSeg 13 = d13 ∧ q.getSeg 14 = d14 ∧ q.getSeg 15 = d15 ∧ (∀ j, q.getCtl j = r.getCtl j) ∧
        q.pc = wordAt ws 1 ∧ q.dsp = wordAt ws 3 ∧ q.rsp = r.rsp + 32 ∧ q.fcsr = e &&& 7#64 ∧
        q.psw.bit 43 = e.bit 15 ∧ q.psw.bit 42 = e.bit 14 ∧ q.psw.bit 41 = e.bit 12 ∧ q.psw.bit 40 = e.bit 13 ∧
        ∀ j, (j < 40 ∨ 43 < j) → q.psw.bit j = if 52 ≤ j then r.psw.bit j else false)

/-- REP on a core that takes it alone, with a legal repeated bundle within s13: with pcount 0 execution goes on behind
the repeated bundle and rp stays 0; with pcount above 0, rp is set and the repeated bundle is next. REP_ITERATION of a
core that repeats, with the bundle complete (no access or act of its own): pcount falls by one; with the last
iteration rp falls and the pc passes the bundle, else the bundle is repeated. (R87, R120, R121) -/
def Obligations.RepeatBegins : Prop :=
  (∀ (sl : Slot) (body : List Syl) (s : State),
    let n := sl.core
    let r := (getCore s n).regs
    alone s sl = true → sl.unit = .x → wholeBundle body = true →
    fetchRoom r (r.pc + 4) (4 * (bundleWords 6 body).length) = true → wordsExc body true (r.pc + 4) = none →
    (r.pcount = 0 → ∃ t, exec (.rep sl body) s = .next t ∧ onlyCore s t n ∧
      (getCore t n).regs = { r with pc := r.pc + 4 + BitVec.ofNat 64 (4 * (bundleWords 6 body).length) }) ∧
    (r.pcount ≠ 0 → ∃ t, exec (.rep sl body) s = .next t ∧ onlyCore s t n ∧
      (getCore t n).rep = bundleWords 6 body ∧
      (getCore t n).regs = { r with pc := r.pc + 4, psw := setBit r.psw 45 true })) ∧
  ∀ (n : Nat) (s : State) (b : OpenBundle),
    let c := getCore s n
    canRun s n = true → c.regs.psw.bit 45 = true → c.bundle = some b → b.phase = 1 → b.late = [] → b.acts = [] →
    b.trap = none → b.rsv = none → c.retries = 0 → c.defer = none → b.work.psw = c.regs.psw → c.regs.pcount ≠ 0 →
    ∃ t, exec (.repIteration n) s = .next t ∧ onlyCore s t n ∧ (getCore t n).bundle = none ∧
      (getCore t n).regs = (if c.regs.pcount = 1 then
          { b.work with pcount := 0, psw := setBit b.work.psw 45 false, pc := c.regs.pc + BitVec.ofNat 64 (4 * b.syls.length) }
        else { b.work with pcount := c.regs.pcount - 1, pc := c.regs.pc })

/-- Between bundles, on a core that runs and may enter an exception: a pending interrupt is taken where ie is set and
ex clear, with code 0x30; an illegal bundle within s13 raises the exception that its words select (R94), one beyond it
0x01; a fetch whose first missing byte is the one that R97 names, beyond the limit, raises 0x01, a refused or
uncorrectable one of a byte of the bundle at pc, or of the one that a REP there repeats, 0x02. The core is at its
handler, with the pc of the bundle saved. A doorbell of the running vcore of a core becomes its pending interrupt.
(R79, R80, R83, R86, R94, R97) -/
def Obligations.HandlersEntered : Prop :=
  (∀ (n : Nat) (s : State) (d : SegReg),
    let c := getCore s n
    canRun s n = true → c.bundle = none → mayEnter s n d →
    (c.irq = true → mayInterrupt c.regs = true → c.repFirst = false →
      ∃ t, exec (.externalInterrupt n) s = .next t ∧ hasEntered s t n d ⟨7, 0x30, 0, 0, 0⟩ c.regs.pc ∧ (getCore t n).irq = false) ∧
    (∀ words e, wholeBundle words = true → fetchRoom c.regs c.regs.pc (4 * (bundleWords 6 words).length) = true →
      wordsExc words false c.regs.pc = some e →
      ∃ t, exec (.illegalBundle n words) s = .next t ∧ hasEntered s t n d e c.regs.pc) ∧
    (∀ words, wholeBundle words = true → fetchRoom c.regs c.regs.pc (4 * (bundleWords 6 words).length) = false →
      ∃ t, exec (.illegalBundle n words) s = .next t ∧ hasEntered s t n d ⟨7, 0x01, 0, 13, fetchEnd c.regs⟩ c.regs.pc) ∧
    (∀ off, off = fetchEnd c.regs → (off - c.regs.pc).toNat < 28 →
      ∃ t, exec (.fetchFault n .beyond off) s = .next t ∧ hasEntered s t n d ⟨7, 0x01, 0, 13, off⟩ c.regs.pc) ∧
    (∀ off k, (off - c.regs.pc).toNat < 28 →
      ∃ t, exec (.fetchFault n (.refused k) off) s = .next t ∧ hasEntered s t n d ⟨7, 0x02, k, 13, off⟩ c.regs.pc) ∧
    (∀ off, (off - c.regs.pc).toNat < 28 →
      ∃ t, exec (.fetchFault n .uncorrectable off) s = .next t ∧ hasEntered s t n d ⟨7, 0x02, 0, 13, off⟩ c.regs.pc)) ∧
  ∀ (n z v : Nat) (s : State), vcoreOn s n = some (z, v) → (getVcore s z v).db = true → (getVcore s z v).state = 2 →
    ∃ t, exec (.doorbell n) s = .next t ∧ (getCore t n).irq = true ∧ (getVcore t z v).db = false ∧
      (∀ m, m ≠ n → getCore t m = getCore s m) ∧ (getCore t n).regs = (getCore s n).regs

/-- For the near cache of a core, by a requester that may control it while the main power is good: a write of pf
stores it, 3 as 0; a write of enable 0 while it is enabled disables it and starts cleaning; a write of enable 1 while
it is disabled enables it empty, and while it cleans is held; when cleaning is done every entry is invalid and the
held enable takes effect. A fill of an awaited line that the quadrant holds puts the line into the cache, and nothing
waits for it any more; no line of a quadrant changes where the L2 of the core and its slice hold it. (R183, R184,
R185, R189, R190, R198) -/
def Obligations.NearCacheRows : Prop :=
  ∀ (s : State) (n : Nat),
    let c := getCore s n
    n < 272 →
    (∀ (q : IoReq) (v : Word), s.power.pwrOk = true → (c.regs.w = false ∨ q.world = true) →
      (∃ t, exec (.nearCtlPf q n v) s = .next t ∧ onlyCore s t n ∧ (getCore t n).near.pf = if v.field 2 1 = 3 then 0 else v.field 2 1) ∧
      (v.bit 0 = false → c.near.enabled = true → c.near.cleaning = false →
        ∃ t, exec (.nearCtlDisable q n v) s = .next t ∧ onlyCore s t n ∧ (getCore t n).near.enabled = false ∧
          (getCore t n).near.cleaning = true ∧ (getCore t n).near.entries = c.near.entries ∧ (getCore t n).regs = c.regs) ∧
      (v.bit 0 = true → c.near.enabled = false → c.near.cleaning = false →
        ∃ t, exec (.nearCtlEnable q n v) s = .next t ∧ onlyCore s t n ∧ (getCore t n).near.enabled = true ∧
          (∀ gl, nearIndex (getCore t n).near gl = none) ∧ (getCore t n).regs = c.regs) ∧
      (v.bit 0 = true → c.near.cleaning = true →
        ∃ t, exec (.nearCtlEnable q n v) s = .next t ∧ onlyCore s t n ∧ (getCore t n).near.enablePending = true ∧
          (getCore t n).near.enabled = c.near.enabled)) ∧
    (c.near.cleaning = true → c.near.fills = [] → c.near.blocked = none → c.entering = none →
      ∃ t, exec (.nearCleaningDone n) s = .next t ∧ onlyCore s t n ∧ (getCore t n).near.cleaning = false ∧
        (getCore t n).near.enabled = c.near.enablePending ∧ (∀ gl, nearIndex (getCore t n).near gl = none) ∧
        (getCore t n).regs = c.regs ∧ (getCore t n).buf = c.buf) ∧
    ∀ gl, (getLine s (coreQuad n) gl).st ≠ .i → c.near.enabled = true → c.entering = none →
      (c.near.blocked = some gl ∨ gl ∈ c.near.fills) →
      ∃ t, exec (.nearCacheFill n gl) s = .next t ∧ (nearIndex (getCore t n).near gl).isSome ∧
        (getCore t n).near.blocked ≠ some gl ∧ gl ∉ (getCore t n).near.fills ∧
        (gl ∈ c.l2 → gl ∈ getSlice s (coreCluster n) → t.lines = s.lines) ∧
        (getCore t n).regs = c.regs ∧ (getCore t n).buf = c.buf

/-- The oldest entry of the store buffer of a powered core that no cleaning, no awaited line and no unanswered
strict-device store holds leaves by its kind. A store to normal memory on a line that the quadrant owns and the near
cache holds (or with that cache off): its bytes stand in the line, which is M, and no other line changes where the
core has the line in its L2 and its slice. One on a line that is not owned asks once for ownership, and the near cache
waits. A write-combining store merges into the buffer of its line, or opens one. A strict-device store goes to its
device. A CMAINT by address, with no fill of its line, goes to the home and is outstanding; a walk is outstanding at
once. A write-combining buffer without stores for its time leaves with its written bytes, under a stamp of its core. A
deferral ends with an answer to each of its snoops. The oldest outstanding CMAINT is complete: by address with no
request of its own left for its line, else with its walk. (R184, R194, R202, R207, R208, R209, R213, R218) -/
def Obligations.BufferedWorkLeaves : Prop :=
  (∀ (n : Nat) (s : State) (e : BufEntry) (rest : List BufEntry),
    let c := getCore s n
    let q := coreQuad n
    let gl := globalLine e.addr
    let u := updCore s n (fun c => { c with buf := rest })
    n < 272 → c.power = true → c.near.cleaning = false → c.devOut = [] → c.near.blocked = none → c.buf = e :: rest →
    e.addr.toNat < 2 ^ 57 →
    (e.maint = none → e.typ = 0 →
      (usable s q gl e.world = true → ownsLine s q gl = true → (c.near.enabled = false ∨ (nearIndex c.near gl).isSome) →
        ∃ t, exec (.storeDrain n) s = .next t ∧ (getCore t n).buf = rest ∧ (getCore t n).regs = c.regs ∧ t.mem = s.mem ∧
          (getLine t q gl).st = .m ∧ (getLine t q gl).bonded = ((getLine s q gl).bonded || e.bnd) ∧
          (getLine t q gl).data = lineSet (getLine s q gl).data (e.addr.toNat % 128) (leBytes e.size e.data.toNat) ∧
          (gl ∈ c.l2 → gl ∈ getSlice s (coreCluster n) →
            ∀ p g, p < 4 → g < 2 ^ 50 → (p ≠ q ∨ g ≠ gl) → getLine t p g = getLine s p g)) ∧
      (ownsLine s q gl = false → usable s q gl e.world = true → reqPending s q gl = false →
        ∃ t r, exec (.storeDrain n) s = .next t ∧ (getCore t n).buf = c.buf ∧ (getCore t n).near.blocked = some gl ∧
          t.reqs = s.reqs ++ [r] ∧ r.kind = .upgrade ∧ r.core = n ∧ r.forStore = true ∧ t.lines = s.lines ∧ t.mem = s.mem)) ∧
    (e.maint = none → e.typ = 1 → c.fence < 2 →
      (∀ b ∈ c.wc, b.line ≠ gl ∨ b.zone ≠ e.zone ∨ b.world ≠ e.world) → c.wc.length < 4 →
      byteMask (e.addr.toNat % 128) e.size ≠ BitVec.allOnes 128 →
      ∃ t, exec (.storeDrain n) s = .next t ∧ onlyCore s t n ∧ getCore t n = { c with
        buf := rest
        wc := c.wc ++ [⟨gl, byteMask (e.addr.toNat % 128) e.size, lineSet 0 (e.addr.toNat % 128) e.bytes, e.zone, e.world⟩] }) ∧
    (e.maint = none → e.typ = 2 → ∃ t, exec (.storeDrain n) s = .next t ∧
      t = devWrite u (coreReq u n e.zone e.world e.stamp) e.addr e.size (e.data.toNat % 2 ^ (8 * e.size))) ∧
    (∀ m, e.maint = some m → m.form = .address → gl ∉ c.near.fills → reqRefused s e.addr = none →
      ∃ t r, exec (.storeDrain n) s = .next t ∧ getCore t n = { c with buf := rest, maint := c.maint ++ [e] } ∧
        t.reqs = s.reqs ++ [r] ∧ r.kind = maintKind m.act ∧ r.core = n ∧ r.req.addr = BitVec.ofNat 64 (gl * 128) ∧
        t.lines = s.lines ∧ t.mem = s.mem) ∧
    (∀ m, e.maint = some m → m.form ≠ .address →
      ∃ t, exec (.storeDrain n) s = .next t ∧ onlyCore s t n ∧ getCore t n = { c with buf := rest, maint := c.maint ++ [e] })) ∧
  (∀ (n : Nat) (s u : State) (pre post : List WcBuf) (b : WcBuf),
    (getCore s n).wc = pre ++ b :: post → (∀ x ∈ pre, x.line ≠ b.line) →
    let v := issueCoreStamp (updCore s n (fun c => { c with wc := pre ++ post })) n
    let out := writeMask rep v.2 n false (BitVec.ofNat 64 (b.line * 128)) b.mask b.data b.zone b.world v.1
    (∀ bs, out = (.ok bs, u) → exec (.wcBufferTimeout n b.line) s = .next u) ∧
    ∀ k, out = (.err k, u) → exec (.wcBufferTimeout n b.line) s =
      .next (refusedStore u (BitVec.ofNat 64 (b.line * 128)) b.zone k b.world)) ∧
  (∀ (n : Nat) (s : State) (d : Deferral), (getCore s n).defer = some d →
    (∀ x ∈ d.snoops, undeferred (updCore s n (fun c => { c with defer := none })) x.2.quad (globalLine x.2.addr)) →
    ∃ t, exec (.reservationDeferralTimeout n) s = .next t ∧ (getCore t n).defer = none ∧
      ∃ fs, t.tree.net = s.tree.net ++ fs ∧ ∀ x ∈ d.snoops, ∃ f ∈ fs, f.op = .snpResp ∧ f.dst = x.2.home ∧ f.stamp = x.2.stamp) ∧
  ∀ (n : Nat) (s : State) (e : BufEntry) (rest : List BufEntry) (m : Maint), (getCore s n).maint = e :: rest →
    e.maint = some m →
    (m.form = .address → (∀ r ∈ s.reqs, r.core = n → r.forStore = true → globalLine r.req.addr ≠ globalLine e.addr) →
      ∃ t, exec (.cmaintComplete n) s = .next t ∧ onlyCore s t n ∧ getCore t n = { getCore s n with maint := rest }) ∧
    (m.form ≠ .address → ∃ t, exec (.cmaintComplete n) s = .next t ∧
      t = walkAll (updCore s n (fun c => { c with maint := rest })) n m ∧
      (m.act ≠ 0 → ∀ q gl, q < 4 → gl < 2 ^ 50 → (m.form = .whole ∨ m.form = .zone (getLine s q gl).zone) →
        (getLine t q gl).st = .i))

/-- For a running core whose open bundle, if any, has made no strict-device access and has no store in the buffer: a
detector of the first three rows of R152, or the progress monitor of a core that waits for nothing and has no
outstanding request, discards the bundle, keeps registers and buffered stores, and counts a retry; after three retries
relief is requested with reason 1 and the core stops. (R88, R152, R153, R154, R158) -/
def Obligations.BundleRetried : Prop :=
  ∀ (n k j : Nat) (s : State),
    let c := getCore s n
    n < 272 → c.power = true → c.run = true → (∀ b, c.bundle = some b → deviceMark ∉ b.seen) → 1 ≤ k → k ≤ 3 →
    ∃ t, exec (.bundleRetry n ⟨k, j⟩) s = .next t ∧ (getCore t n).bundle = none ∧ (getCore t n).regs = c.regs ∧
      (getCore t n).buf = c.buf ∧ (∀ m, m ≠ n → getCore t m = getCore s m) ∧ (getCore t n).detector = k ∧
      (if c.retries < 3 then (getCore t n).retries = c.retries + 1 ∧ (getCore t n).run = true ∧ t.sxt = s.sxt
       else (getCore t n).run = false ∧ t.sxt.requests = s.sxt.requests ++ [(n, 1)]) ∧
      (k = 3 → c.waiting = false → c.entering = none → (∀ r ∈ s.reqs, r.core ≠ n) → exec (.progressMonitorExpiry n) s = .next t)

/-- RELIEF_START of a requested relief with a free spare, on a core that enters no exception, whose open bundle has
made no strict-device access, and whose write-combining buffers are empty: the core stops, its reservation and bundle
are gone, its image is kept, its vcore is HELD where it ran, and the relief, counted from its request, stands at step
3. RELIEF_FLUSH_DONE of the core whose buffers and maintenance have come to their end powers the core off with its
caches flushed and reports a class C2 fault, whose stamp the image carries. SPARE_POWERED brings up the spare with
nothing in it. RELIEF_IMAGE_ARRIVED gives the spare the image, the vcore and the retirement of the core; a bad image
is moved once more. RELIEF_RESUME has the spare run a vcore that was HELD, in a zone that is not being quiesced, and
ends the relief with its registers. (R158, R159, R160, R163, R176) -/
def Obligations.ReliefRuns : Prop :=
  ∀ (s : State) (k : Nat),
    let r := getRelief s k
    (∀ (n reason : Nat) (pre post : List (Nat × Nat)), coreCluster n = k → n < 272 → s.sxt.requests = pre ++ (n, reason) :: post →
      (n, reason) ∉ pre → spareFree s k = true → (getCore s n).entering = none →
      (∀ b, (getCore s n).bundle = some b → deviceMark ∉ b.seen) → (getCore s n).wc = [] → (getCore s n).defer = none →
      ∃ t, exec (.reliefStart n reason) s = .next t ∧ t.sxt.requests = pre ++ post ∧ (getCore t n).run = false ∧
        (getCore t n).bundle = none ∧ (getCore t n).rsv = none ∧ (getCore t n).regs = (getCore s n).regs ∧ (getCore t n).buf = (getCore s n).buf ∧
        getRelief t k = ⟨n, 17 * k + 16, reliefT0 s n, 3, reason, 0, false, none⟩ ∧
        (∃ im, Assoc.get t.sxt.images n = some im ∧ im.regs = (getCore s n).regs ∧ im.reason = reason) ∧
        (∀ z v, vcoreOn s n = some (z, v) →
          (getVcore t z v).state = if (getVcore s z v).state = 2 then 3 else (getVcore s z v).state)) ∧
    (r.step = 3 → coreCluster r.core = k → coreDrained (getCore s r.core) = true →
      ∃ t, exec (.reliefFlushDone r.core) s = .next t ∧
        t = setRelief (faultAt (stampImage (updCore s r.core (fun c => { flushCore c with power := false, sxtState := 3 })) r.core)
          0x13 2 r.reason 0 0 (BitVec.ofNat 64 (r.core + 256 * r.reason)) (match vcoreOn s r.core with | some zv => zv.1 | none => 0)) k { r with step := 4 } ∧
        getRelief t k = { r with step := 4 }) ∧
    (r.step = 4 → r.powered = false →
      ∃ t, exec (.sparePowered k) s = .next t ∧ (getCore t r.spare).power = true ∧ (getCore t r.spare).bundle = none ∧
        (getCore t r.spare).buf = [] ∧ (getCore t r.spare).rsv = none ∧ (∀ gl, nearIndex (getCore t r.spare).near gl = none) ∧
        getRelief t k = { r with step := 6, powered := true } ∧ ∀ m, m ≠ r.spare → getCore t m = getCore s m) ∧
    (r.step = 6 → ∀ im, Assoc.get s.sxt.images r.core = some im →
      ∃ t, exec (.reliefImageArrived k true) s = .next t ∧ (getCore t r.spare).regs = im.regs ∧
        retirementStands t r.core ∧ getRelief t k = { r with step := 7 } ∧ t.spareInUse.testBit k = true ∧
        ∀ z v, vcoreOn s r.core = some (z, v) → (getVcore t z v).core = r.spare) ∧
    (r.step = 6 → r.moves = 0 → ∃ t, exec (.reliefImageArrived k false) s = .next t ∧ getRelief t k = { r with moves := 1 }) ∧
    (r.step = 7 → r.mbx = none →
      ∃ t, exec (.reliefResume k) s = .next t ∧ getRelief t k = noRelief k ∧
        (∀ z v, vcoreOn s r.spare = some (z, v) → (getVcore s z v).state = 3 → zoneQuiets s z = false →
          (getCore t r.spare).run = true ∧ (getVcore t z v).state = 2) ∧
        t.sxt.rlfFrom = r.core ∧ t.sxt.rlfTo = r.spare ∧ t.sxt.rlfReason = r.reason ∧ t.sxt.rlfResult = 1 ∧ t.sxt.rlfDone = true)

/-- SEXTANT_WATCH at a new boundary with the hub up: with watching off the boundary is only counted as served; else,
with the reading of one readable core that is neither spare nor lost, has margin and few retries, its slack and
required offset are stored, its applied offset rises at once to the requirement or falls by one step, not below −12,
its retry count starts again and the watch is counted. L2_L3_WALK that finds a dirty line of an L2 with an
uncorrectable error poisons it and reports class C2; one that repairs a tag counts it and reports class C0. (R169,
R171, R173, R191, R192) -/
def Obligations.WatchesAndWalks : Prop :=
  (∀ (r : Readings) (s : State), hubUp s = true → s.sxt.watchIdx < now s / 2 ^ 40 →
    (s.sxt.watchEn = false → ∃ t, exec (.sextantWatch r) s = .next t ∧ t.sxt.watchIdx = now s / 2 ^ 40 ∧ t.sxt.watches = s.sxt.watches ∧
      t.cores = s.cores) ∧
    (∀ x, r = ⟨[x], []⟩ → s.sxt.watchEn = true → s.mer.fault = false → readable s x.core = true →
      let c := getCore s x.core
      let req := coreReq5 s ((c.baseline : Int) - x.slack)
      c.sxtState ≠ 1 → c.sxtState ≠ 4 → c.sxtState ≠ 5 → req ≤ 12 → c.sxtRetries ≤ s.sxt.c1Limit →
      ∃ t, exec (.sextantWatch r) s = .next t ∧ (getCore t x.core).slack = x.slack ∧ (getCore t x.core).req = req ∧
        (getCore t x.core).voff = (if c.voff < req then req else if req < c.voff - 1 ∧ -12 < c.voff then c.voff - 1 else c.voff) ∧
        (∀ n, (getCore t n).sxtRetries = 0) ∧ t.sxt.watches = (s.sxt.watches + 1) % 2 ^ 32 ∧
        t.sxt.last = now s / 2 ^ 40 * 2 ^ 40)) ∧
  ∀ (f : WalkFinding) (s : State), hubUp s = true → f.l3 = false →
    let q := coreQuad f.unit
    let l := getLine s q f.line
    let addr := BitVec.ofNat 64 (128 * f.line)
    let det := BitVec.ofNat 64 (f.unit + 0x30000)
    (f.err = .dirtyPoison → l.st ≠ .i →
      ∃ u t, exec (.l2L3Walk [f]) s = .next t ∧ t = faultAt u 0x02 2 0 0 addr det l.zone ∧
        (getLine u q f.line) = { l with poison := true } ∧ (getCore u f.unit).l2Poison = satAdd 12 (getCore s f.unit).l2Poison 1) ∧
    (f.err = .tagRepair →
      ∃ u t, exec (.l2L3Walk [f]) s = .next t ∧ t = faultAt u 0x02 0 0 0 addr det l.zone ∧
        (getCore u f.unit).l2Cor = satAdd 16 (getCore s f.unit).l2Cor 1 ∧ onlyCore s u f.unit)

/-- For the six snoops at a powered quadrant with no deferral of the line: where the quadrant holds the line, its
state becomes the one of R218, but I where a snoop of maintenance meets a fill of the line in progress, the other
lines are as before, and a SnpResp goes to the home under the stamp of the snoop, after FwdData where the data goes to
the requester; where only a write-back buffer holds the line, it answers and no line changes; where neither holds it,
only the response goes out. (R195, R217, R218, R225) -/
def Obligations.SnoopsAnswered : Prop :=
  ∀ (i : Instr) (op : FlitOp) (m : Snoop) (s : State), snoopRow i = some (op, m) →
    let gl := globalLine m.addr
    let l := getLine s m.quad gl
    trafficUp s = true → undeferred s m.quad gl → (getDom s (16 + m.quad)).state ≠ 0 →
    let met := isCall op && fillMet s m.quad gl
    let after := if met then .i else snoopAfter op l.st
    (l.st ≠ .i → ∃ t, exec i s = .next t ∧ snoopAnswered s t m.home m.stamp ∧
      getLine t m.quad gl = (if after = .i then AgentLine.absent else { l with st := after }) ∧
      (∀ p g, m.quad < 4 → p < 4 → g < 2 ^ 50 → (p ≠ m.quad ∨ g ≠ gl) → getLine t p g = getLine s p g) ∧
      (l.st ≠ .s → (op = .snpFwdS ∨ op = .snpFwdO) → m.nf = false →
        ∃ f ∈ t.tree.net, f.op = .fwdData ∧ f.dst = m.req.dev ∧ f.stamp = m.stamp ∧ f.line = some l.data)) ∧
    (l.st = .i → ∃ t, exec i s = .next t ∧ snoopAnswered s t m.home m.stamp ∧ t.lines = s.lines ∧ t.mem = s.mem ∧
      ((∀ w ∈ s.wbs, w.quad ≠ m.quad ∨ w.line ≠ gl) → t.cores = s.cores ∧ sent s t .snpResp m.home m.stamp))

/-- For a request that a quadrant has outstanding, of a core of it that enters no exception: DATA and FWDDATA answer
CmpAck and end the request, and, but for a RdOnce, which keeps no copy, install the line in the state they grant, with
their data; CMP of an Upgrade makes the line M and unblocks the core, and CMP of a write ends the wait for it; RETRY
with a credit keeps it, without one counts it and sends the request again, starving after eight; RESEND sends it with
its credit; ERR of a prefetch ends it and its fill; ERR of a load puts the access error with its reason into the open
bundle. WBACK frees its write-back buffer. (R80, R187, R217, R218, R223, R225) -/
def Obligations.AgentAnswersTaken : Prop :=
  (∀ (m : DataMsg) (s : State) (r : AgentReq), findReq s m.stamp = some r → r.quad = coreQuad r.core →
    (getCore s r.core).entering = none →
    let gl := globalLine r.req.addr
    (m.state ≠ .i → ∃ t, exec (.data m) s = .next t ∧ findReq t m.stamp = none ∧ sent s t .cmpAck (addrDev r.req.addr) m.stamp ∧
      (r.kind ≠ .rdOnce → getLine t r.quad gl = ⟨m.state, m.data, r.req.zone, m.bonded || r.bnd, m.poison⟩) ∧
      (r.kind = .rdOnce → t.lines = s.lines ∧ ∀ b, r.core < 272 → (getCore s r.core).bundle = some b →
        (getCore t r.core).bundle = some { b with got := b.got.map (fun g =>
          if g.stamp = m.stamp ∧ g.res = none then { g with res := some (readLanded m g) } else g) })) ∧
    (∃ t, exec (.fwddata m) s = .next t ∧ findReq t m.stamp = none ∧ sent s t .cmpAck (addrDev r.req.addr) m.stamp ∧
      (r.kind ≠ .rdOnce → getLine t r.quad gl = ⟨if m.state = .s then .s else if m.dirty then .m else .e, m.data, r.req.zone, m.bonded || r.bnd, m.poison⟩))) ∧
  (∀ (q : Nat) (stamp addr : Word) (s : State) (r : AgentReq), findReq s stamp = some r → r.quad = q → r.kind = .upgrade →
    (getLine s q (globalLine addr)).st ≠ .i → (getCore s r.core).entering = none →
    ∃ t, exec (.cmp q stamp addr) s = .next t ∧ findReq t stamp = none ∧
      getLine t q (globalLine addr) = { getLine s q (globalLine addr) with st := .m } ∧ (getCore t r.core).near.blocked = none) ∧
  (∀ (q : Nat) (stamp addr : Word) (s : State) (r : AgentReq), findReq s stamp = some r → r.quad = q → r.forStore = true →
    ((∃ x, r.kind = .wrLine x) ∨ (∃ x y, r.kind = .wrPart x y)) →
    ∃ t, exec (.cmp q stamp addr) s = .next t ∧ findReq t stamp = none ∧ onlyCore { s with reqs := t.reqs } t r.core ∧
      (r.core < 272 → getCore t r.core = { getCore s r.core with
        wcOut := (getCore s r.core).wcOut.filter (· != stamp), devOut := (getCore s r.core).devOut.filter (· != stamp) })) ∧
  (∀ (stamp : Word) (s : State) (r : AgentReq), findReq s stamp = some r →
    (∀ c, ∃ t, exec (.retry stamp (some c)) s = .next t ∧ (findReq t stamp).map (·.credit) = some (some c) ∧ t.tree = s.tree) ∧
    (∃ t, exec (.retry stamp none) s = .next t ∧ (findReq t stamp).map (·.plain) = some (r.plain + 1) ∧
      sent s t (reqOp r.kind) (addrDev r.req.addr) stamp ∧
      ∀ f, t.tree.net = s.tree.net ++ [f] → f.starve = (r.req.starve || decide (8 ≤ r.plain + 1))) ∧
    (∀ c, r.credit = some c → ∃ t, exec (.resend stamp) s = .next t ∧
      sent s t .resendReq (addrDev r.req.addr) stamp ∧ ∀ f, t.tree.net = s.tree.net ++ [f] → f.crv = true ∧ f.credit = c) ∧
    (∀ k, r.req.prefetch = true → (∀ n, (getCore s n).entering = none) → ∃ t, exec (.err stamp k) s = .next t ∧ findReq t stamp = none ∧
      globalLine r.req.addr ∉ (getCore t r.core).near.fills ∧ t.flt = s.flt) ∧
    (∀ k e b, r.req.prefetch = false → (∀ n, (getCore s n).entering = none) → r.kind = .rdShared → r.forStore = false → r.exc = some e →
      (getCore s r.core).bundle = some b → b.held = none →
      ∃ t, exec (.err stamp k) s = .next t ∧ findReq t stamp = none ∧
        (getCore t r.core).bundle = some { b with faults := b.faults ++ [{ e with detail := k }] })) ∧
  ∀ (q : Nat) (addr : Word) (s : State) (pre post : List WbBuf) (w : WbBuf), s.wbs = pre ++ w :: post → w.quad = q →
    w.line = globalLine addr → (∀ x ∈ pre, x.quad ≠ q ∨ x.line ≠ globalLine addr) →
    exec (.wback q addr) s = .next { s with wbs := pre ++ post }

/-- For a request that finds its line at rest, with no credit recorded for it: RDSHARED and RDOWN, and UPGRADE from an
agent that is not listed, grant E with the data of memory and record the owner; RDONCE sends the data without a copy;
WRLINE stores the line, WRPART the bytes of its mask; CLEANLINE, INVLINE and CLEANINVLINE leave memory; the last five
answer Cmp and free the line. No other line of memory changes. (R215, R217, R221, R223, R239) -/
def Obligations.RequestsGrantedAtRest : Prop :=
  ∀ (r : CohReq) (fl : Nat) (s : State), atRest s r fl →
    (∀ c ∈ s.home.credits, c.2.line ≠ addrOff r.addr / 128) →
    let l := readFrame s fl (keyTag s r.zone)
    (∃ t, exec (.rdshared r .clean) s = .next t ∧ dataGranted s t r .e l ∧ ownerRecorded s t r ∧ t.mem = s.mem) ∧
    (∃ t, exec (.rdown r .clean) s = .next t ∧ dataGranted s t r .e l ∧ ownerRecorded s t r ∧ t.mem = s.mem) ∧
    (∃ t, exec (.upgrade r .clean) s = .next t ∧ dataGranted s t r .e l ∧ ownerRecorded s t r ∧ t.mem = s.mem) ∧
    (∃ t, exec (.rdonce r .clean) s = .next t ∧ dataGranted s t r .i l ∧ t.home.dir = s.home.dir ∧ t.mem = s.mem) ∧
    (∀ d, ∃ t, exec (.wrline r d 0) s = .next t ∧ completed s t r ∧ frameHolds s t fl r.zone d) ∧
    (∀ mask d, ∃ t, exec (.wrpart r mask d .clean) s = .next t ∧ completed s t r ∧ frameHolds s t fl r.zone (mergeMask mask d l)) ∧
    (∃ t, exec (.cleanline r) s = .next t ∧ completed s t r ∧ t.mem = s.mem) ∧
    (∃ t, exec (.invline r) s = .next t ∧ completed s t r ∧ t.mem = s.mem) ∧
    (∃ t, exec (.cleaninvline r) s = .next t ∧ completed s t r ∧ t.mem = s.mem)

/-- RESEND_REQUEST for ownership that comes with the credit recorded for its agent, stamp and line, on a line
otherwise at rest, is granted as the request itself, and the credit is free. A credit whose Resend has not come 2^24
mt after the RESEND is freed, with a class C0 report under its stamp, and the line goes to the next oldest credit.
(R223) -/
def Obligations.CreditsServed : Prop :=
  (∀ (r : CohReq) (fl k : Nat) (c : Credit) (s : State), atRest s r fl → Assoc.get s.home.credits k = some c →
    c.agent = r.agent → c.stamp = r.stamp → c.line = addrOff r.addr / 128 →
    (∀ x ∈ s.home.credits, x.2.line = addrOff r.addr / 128 → x.1 = k) →
    ∃ t, exec (.resendRequest r .rdOwn k .clean) s = .next t ∧ Assoc.get t.home.credits k = none ∧
      dataGranted s t r .e (readFrame s fl (keyTag s r.zone)) ∧ ownerRecorded s t r) ∧
  ∀ (k t0 : Nat) (c : Credit) (s : State), Assoc.get s.home.credits k = some c → c.resentAt = some t0 →
    2 ^ 24 ≤ (now s + 2 ^ 64 - t0) % 2 ^ 64 →
    ∃ t u, exec (.creditReclaim k) s = .next t ∧
      u = faultAt { s with home := { s.home with credits := Assoc.del s.home.credits k } } 0x05 0 0 c.stamp
        (mkAddr s.devId (128 * c.line)) (BitVec.ofNat 64 (k % 16)) 0 ∧
      t = if busy u c.line then u else freeLine u c.line

/-- With the hub up, for a line homed here: the last SNPRESP of a RDOWN that an owner forwards grants M and records
the new owner; WRBACK without a transaction stores its data in the frame, forgets the agent as owner and answers
WbAck; EVICTCLEAN does so without data; CMPACK of the grant frees the line. Snoops that have waited longer than the
limit are reported as class C2, once for each module that has not answered. At the end of the walk for a lost device,
with no request held back and no transaction under way on a line that a lost device owned, no entry names it and it
leaves the list. (R221, R223, R224, R226, R228) -/
def Obligations.HomeAnswersTaken : Prop :=
  (∀ (m : SnpRespMsg) (x : Txn) (r : CohReq) (op : FlitOp) (s : State), hubUp s = true → addrDev m.addr = s.devId →
    findTxn s (addrOff m.addr / 128) = some x → x.waiting = [(m.agent, op)] → x.missFrom = [] → x.granted = none →
    x.goal = .request .rdOwn r → m.miss = false → m.wbp = false → m.fwd = true → addrOff r.addr / 128 = addrOff m.addr / 128 →
    (frameOf s (x.line * 128)).isSome →
    ∃ t, exec (.snpresp m) s = .next t ∧ ownerRecorded s t r ∧
      (findTxn t (addrOff m.addr / 128)).map (·.granted) = some (some .m)) ∧
  (∀ (m : WrBackMsg) (fl : Nat) (s : State), hubUp s = true → addrDev m.addr = s.devId → m.rs = false → m.poison = false →
    findTxn s (addrOff m.addr / 128) = none → frameOf s (128 * (addrOff m.addr / 128)) = some fl → keyReady s m.zone = true →
    ∃ t, exec (.wrback m 0) s = .next t ∧ frameHolds s t fl m.zone m.data ∧ sent s t .wbAck m.agent.dev m.stamp ∧
      ∀ e, Assoc.get t.home.dir (addrOff m.addr / 128) = some e → e.dstate = 1 ∨ e.owner ≠ m.agent) ∧
  (∀ (a : Agent) (stamp addr : Word) (s : State), hubUp s = true → addrDev addr = s.devId →
    findTxn s (addrOff addr / 128) = none →
    ∃ t, exec (.evictclean a stamp addr false) s = .next t ∧ t.mem = s.mem ∧ sent s t .wbAck a.dev stamp ∧
      ∀ e, Assoc.get t.home.dir (addrOff addr / 128) = some e → e.dstate = 1 ∨ e.owner ≠ a) ∧
  (∀ (x : Txn) (k : ReqKind) (r : CohReq) (addr : Word) (s : State), findTxn s (addrOff addr / 128) = some x →
    x.goal = .request k r → x.granted.isSome → addrDev addr = s.devId →
    ∃ t, exec (.cmpack r.agent r.stamp addr) s = .next t ∧ busy t (addrOff addr / 128) = false ∧ t.home.dir = s.home.dir) ∧
  (∀ (li : Nat) (x : Txn) (a : Agent) (op : FlitOp) (rest : List (Agent × FlitOp)) (s : State), findTxn s li = some x →
    x.waiting = (a, op) :: rest → x.warned = false → max 1 s.home.snoopWarn * 2 ^ 16 < (now s + 2 ^ 64 - x.sentAt) % 2 ^ 64 →
    ∃ t, exec (.snoopWarn li) s = .next t ∧
      t = ((x.waiting.map (fun w => w.1.dev)).eraseDups).foldl (fun (u : State) (d : Nat) =>
        faultAt u 0x05 2 0 0 (mkAddr s.devId (128 * li)) (BitVec.ofNat 64 d) 0) (putTxn s { x with warned := true })) ∧
  ∀ (d : Nat) (s : State), s.home.walking = some d → d ∈ s.home.lost → s.home.lostQueue = [] → s.mem.waiting = [] →
    (∀ e ∈ s.home.dir, ownerLost s e.1 = true → busy s e.1 = false) →
    ∃ t, exec .lostWalkDone s = .next t ∧ t.home.lost = s.home.lost.filter (· != d) ∧
      ∀ li e, Assoc.get t.home.dir li = some e → (e.dstate = 1 ∨ e.owner.dev ≠ d) ∧ ∀ a ∈ e.sharers, a.dev ≠ d

/-- With PWR_OK asserted, an edge off its second is counted and nothing else. An accepted edge loads a set value
before lock; on a locked master with source 1 and no set value it slews the distance from the nearest second away,
without a step. No accepted edge for 3 s, or the loss of the reference, sets ref_lost, begins holdover and raises
class C2; the return of the reference ends holdover. MER_PPS_OUT rises at a new second after lock and falls after 2^22
mt or in a meridian fault. (R23, R24, R569) -/
def Obligations.MeridianReference : Prop :=
  (∀ s : State, s.power.pwrOk = true → ppsExpected s = false →
    ∃ t, exec .merPpsInEdge s = .next t ∧ t = { s with mer := { s.mer with ppsIgnored := s.mer.ppsIgnored + 1 } }) ∧
  (∀ (s : State) (v : Nat), s.power.pwrOk = true → ppsExpected s = true → s.mer.src = 2 → s.mer.setVal = some v → s.mer.locked = false →
    ∃ t, exec .merPpsInEdge s = .next t ∧
      t = { s with mer := { s.mer with ext := v * 2 ^ 32, slew := 0, ppsLast := some v, setVal := none } }) ∧
  (∀ s : State, s.power.pwrOk = true → ppsExpected s = true → s.mer.src = 1 → s.mer.refPresent = true → s.mer.role = 2 → s.mer.setVal = none →
    s.mer.locked = true →
    let r := now s % 4096000000
    ∃ t, exec .merPpsInEdge s = .next t ∧ t = { s with mer := { s.mer with
      slew := 2 ^ 32 * (if r < 2048000000 then -(r : Int) else 4096000000 - (r : Int))
      holdover := false, ppsLast := some (now s) } }) ∧
  (∀ s : State, s.mer.src = 1 → s.mer.role = 2 → s.mer.holdover = false →
    (∀ t0, s.mer.ppsLast = some t0 → 3 * 4096000000 ≤ since s t0) →
    ∃ t, exec .ppsTimeout s = .next t ∧
      t = faultAt (logMeridian { s with mer := { s.mer with refLost := true, holdover := true } } 4) 0x10 2 0 0 0 2 0) ∧
  (∀ s : State, s.mer.src = 1 → s.mer.role = 2 → s.mer.holdover = false →
    ∃ t, exec .merRefLoss s = .next t ∧ t = faultAt (logMeridian { s with mer := { s.mer with
      refPresent := false, refLost := true, holdover := true } } 4) 0x10 2 0 0 0 2 0) ∧
  (∀ s : State, ∃ t, exec .merRefReturn s = .next t ∧
    t = { s with mer := { s.mer with refPresent := true, holdover := false } }) ∧
  (∀ s : State, s.mer.ppsOut = none → s.mer.locked = true → s.mer.fault = false → now s / 4096000000 ≠ s.mer.ppsOutIdx →
    ∃ t, exec .merPpsOutEdge s = .next t ∧
      t = { s with mer := { s.mer with ppsOut := some (now s), ppsOutIdx := now s / 4096000000 } }) ∧
  ∀ (s : State) (t0 : Nat), s.mer.ppsOut = some t0 → (2 ^ 22 ≤ since s t0 ∨ s.mer.fault = true) →
    ∃ t, exec .merPpsOutEdge s = .next t ∧ t = { s with mer := { s.mer with ppsOut := none } }

/-- With PWR_OK asserted, SYNC from the parent: the estimated error is kept and slewed away in a locked module, above
100 ns with a class C2 fault, and the own meridian goes out on every other UP port. A heartbeat interval hands
HEARTBEAT to every UP port. A neighbour that agrees is recorded alive; one that differs beyond the tolerance is
reported to the master. The master counts as missing after 2^33 mt; the standby asks every module 2^34 mt later; a
module that counts it missing too acknowledges; with a strict majority within 2^26 mt the standby becomes master
without a step, its error zero and no longer in a meridian fault, else every keeper runs on with class C2 after 2^26
mt. Delays are measured every 2^32 mt by a timed exchange. (R22, R25, R26, R27, R30, R31, R32, R35, R313, R314) -/
def Obligations.MeridianOfTheSystem : Prop :=
  (∀ (p : Nat) (mer : Word) (v m : Nat) (s : State), s.power.pwrOk = true → s.mer.role ≠ 2 → fromParent s p = true → s.mer.locked = true →
    s.mer.fault = false →
    let e := signedDiff (now s) (mer.toNat + (getPort s p).delay)
    (e.natAbs * 10 ≤ 4096 → ∃ t, exec (.sync p mer v m) s = .next t ∧
      t.mer = { s.mer with
        masterId := some (s.mer.masterId.getD m), err := e, slew := -e * 2 ^ 32
        goodSyncs := if e.natAbs * 100 ≤ 8192 then s.mer.goodSyncs + 1 else 0 } ∧
      ∀ q, q ∈ upPorts s → q ≠ p → linkSent s t q .sync [BitVec.ofNat 64 (now s),
        BitVec.ofNat 64 (s.vin.vintage * 2 ^ 32 + s.mer.masterId.getD m)]) ∧
    (4096 < e.natAbs * 10 → ∃ t, exec (.sync p mer v m) s = .next t ∧
      let u := { s with mer := { s.mer with
        masterId := some (s.mer.masterId.getD m), err := e, goodSyncs := 0, fault := true, ppsOut := none } }
      t = sendSync (correct (faultAt (logMeridian u 2) 0x10 2 0 0 0 1 0) (-e)) (some p))) ∧
  (∀ s : State, now s / 2 ^ 22 ≠ s.mer.hbIdx → ∃ t, exec .heartbeatInterval s = .next t ∧ t.mer.hbIdx = now s / 2 ^ 22 ∧
    ∀ p ∈ upPorts s, ∃ f g, (getPort t p).tx = (getPort s p).tx ++ f :: g ∧ f.op = .heartbeat ∧
      f.words = [BitVec.ofNat 64 (s.vin.vintage * 2 ^ 32 + s.vin.digest.toNat % 65536 * 2 ^ 16 + s.devId),
        BitVec.ofNat 64 s.mer.role] ∧
      g.map (·.op) = if s.mer.role = 2 then [.sync] else []) ∧
  (∀ (p v dg dev role : Nat) (s : State), (getPort s p).nbrId = some dev → role % 4 ≠ 2 →
    (v = s.vin.vintage ∧ dg = s.vin.digest.toNat % 65536 → ∃ t, exec (.heartbeat p v dg dev role) s = .next t ∧
      getPort t p = { getPort s p with hbAt := now s, nbrDivergent := false } ∧
      t.vin = if s.vin.caughtUp then { s.vin with divergent := false, caughtUp := false } else s.vin) ∧
    (∀ m, hbMismatch s v dg = true → s.mer.role ≠ 2 → s.mer.masterId = some m →
      ∃ t, exec (.heartbeat p v dg dev role) s = .next t ∧ (getPort t p).nbrDivergent = true ∧
        told s t .report m [1, BitVec.ofNat 64 dev])) ∧
  (∀ (m : Nat) (s : State), s.mer.role ≠ 2 → s.mer.masterId.isSome → s.mer.missing = none → 2 ^ 33 ≤ since s s.mer.hbSeen →
    s.mer.standbyId = some m →
    ∃ t, exec .masterMissing s = .next t ∧ t = { s with mer := { s.mer with missing := some (now s) } }) ∧
  (∀ (t0 : Nat) (s : State), s.mer.role = 1 → s.mer.missing = some t0 → s.mer.takeover = none → 2 ^ 34 ≤ since s t0 →
    2 ≤ s.vin.inventory.length →
    ∃ t, exec .takeoverRequestTimer s = .next t ∧ t.mer = { s.mer with takeover := some (now s, [s.devId]) } ∧
      sentEach s t .takeover (s.vin.inventory.filter (· != s.devId))) ∧
  (∀ (c v : Nat) (s : State), s.mer.missing.isSome →
    ∃ t, exec (.takeover c v) s = .next t ∧
      told s t .takeoverAck c [BitVec.ofNat 64 c, BitVec.ofNat 64 s.vin.vintage]) ∧
  (∀ (dev v t0 : Nat) (l : List Nat) (s : State), s.mer.takeover = some (t0, l) → dev ∉ l → dev ∈ s.vin.inventory →
    since s t0 ≤ 2 ^ 26 →
    (s.vin.inventory.length < 2 * (l.length + 1) →
      ∃ t, exec (.takeoverAck dev v) s = .next t ∧ t.vin = s.vin ∧ t.mer = { s.mer with
        role := 2, masterId := some s.devId, takeover := none, missing := none, err := 0
        goodSyncs := s.mer.goodSyncs + 1, fault := false, former := s.mer.masterId
        standbyId := nextStandby s s.devId }) ∧
    (2 * (l.length + 1) ≤ s.vin.inventory.length →
      ∃ t, exec (.takeoverAck dev v) s = .next t ∧ t = { s with mer := { s.mer with takeover := some (t0, l ++ [dev]) } })) ∧
  (∀ (t0 : Nat) (l : List Nat) (s : State), s.mer.takeover = some (t0, l) → 2 ^ 26 ≤ since s t0 →
    ∃ t, exec .takeoverTimeout s = .next t ∧
      t = faultAt { s with mer := { s.mer with masterId := none, takeover := none, missing := none } } 0x10 2 0 0 0 4 0) ∧
  (∀ s : State, now s / 2 ^ 32 ≠ s.fab.remeasureIdx → ∃ t, exec .linkDelayRemeasure s = .next t ∧
    t.fab.remeasureIdx = now s / 2 ^ 32 ∧
    ∀ p ∈ upPorts s, (getPort t p).t1 = now s ∧ linkSent s t p .delay [BitVec.ofNat 64 (now s), 0, 0, 0]) ∧
  ∀ (p t1 t2 t3 : Nat) (s : State), s.power.pwrOk = true →
    (∃ t, exec (.delay p false t1 t2 t3) s = .next t ∧
      linkSent s t p .delay [BitVec.ofNat 64 t1, BitVec.ofNat 64 (now s), BitVec.ofNat 64 (now s), 1]) ∧
    ((getPort s p).t1 = t1 → t1 ≤ now s → t2 ≤ t3 → t3 - t2 ≤ now s - t1 → now s - t1 < 2 ^ 32 → t3 < 2 ^ 64 →
      ∃ t, exec (.delay p true t1 t2 t3) s = .next t ∧
        getPort t p = { getPort s p with delay := ((now s - t1) - (t3 - t2)) / 2 })

/-- With PWR_OK asserted, a catch-up PREPARE with its time ahead and its digest right is staged and acknowledged to
the master, and one that differs from what the module has shows it divergent; an ordinary one that is not the next
vintage, or comes too late, is refused with NACK and leaves the module to diverge. ACK and NACK are counted once each.
Without a majority by the deadline the master sends ABORT to every other module and drops its own staging. ABORT
before the activation meridian discards what is staged; at that meridian a staged module moves its vintage and an
unstaged one becomes divergent with class C2. What is not acknowledged within 2^22 mt goes out again. A mismatch
reported to the master brings a catch-up PREPARE 2^24 mt ahead. (R33, R34, R36, R37, R39, R314) -/
def Obligations.VintageChanges : Prop :=
  (∀ (v act : Nat) (dg : Word) (c : CfgImage) (m : Nat) (s : State), s.power.pwrOk = true → 2 ^ 22 ≤ aheadOf s act → digestOf c = dg →
    s.tree.old = false → s.mer.role ≠ 2 → s.mer.masterId = some m →
    ∃ t, exec (.prepare v dg act true c) s = .next t ∧ t.vin.staged = some ⟨c, v, dg, act, true⟩ ∧
      t.tree.stagedPar = some (v % 2 == 1) ∧ t.vin.vintage = s.vin.vintage ∧
      t.vin.divergent = (s.vin.divergent || v != s.vin.vintage || dg != s.vin.digest) ∧
      ((v % 2 == 1) ≠ activePar s → rtTable t (v % 2 == 1) = imageRoutes s c) ∧
      told s t .ack m [BitVec.ofNat 64 v, dg, BitVec.ofNat 64 act, 0]) ∧
  (∀ (v act : Nat) (dg : Word) (c : CfgImage) (m : Nat) (s : State), s.power.pwrOk = true → s.vin.agreed = true → s.mer.role ≠ 2 →
    s.mer.masterId = some m → (v ≠ (s.vin.vintage + 1) % 2 ^ 32 ∨ aheadOf s act < 2 ^ 26) →
    ∃ t, exec (.prepare v dg act false c) s = .next t ∧ t.vin = { s.vin with missed := some (v, act) } ∧
      told s t .nack m [BitVec.ofNat 64 v, dg, BitVec.ofNat 64 act, 0]) ∧
  (∀ (dev v : Nat) (p : Prep) (s : State), s.vin.prep = some p → p.vintage = v →
    (∃ t, exec (.ack dev v) s = .next t ∧
      t.vin.prep = some { p with acks := if dev ∈ p.acks then p.acks else p.acks ++ [dev] } ∧
      ∀ a ∈ t.fab.await, ¬ (a.dev = dev ∧ (a.op = .lost ∨ a.op = .join))) ∧
    ∃ t, exec (.nack dev v) s = .next t ∧
      t.vin.prep = some { p with nacks := if dev ∈ p.nacks then p.nacks else p.nacks ++ [dev] }) ∧
  (∀ (p : Prep) (s : State), s.vin.prep = some p → p.aborted = false → p.mbx = none → s.mer.role = 2 →
    aheadOf s p.act ≤ 2 ^ 24 → 2 * p.acks.length ≤ s.vin.inventory.length →
    ∃ t, exec .abortDeadline s = .next t ∧ t.vin.prep = none ∧ sentEach s t .abort (otherDevs s) ∧
      ∀ st, t.vin.staged = some st → st.vintage ≠ p.vintage ∨ st.catchup = true) ∧
  (∀ (st : StagedCfg) (s : State), s.vin.staged = some st → st.catchup = false → 0 < aheadOf s st.act →
    ∃ t, exec (.abort st.vintage) s = .next t ∧ t.vin.staged = none ∧ t.tree.stagedPar = none ∧
      t.vin.vintage = s.vin.vintage) ∧
  (∀ (st : StagedCfg) (s : State), s.vin.staged = some st → aheadOf s st.act = 0 → s.tree.stagedPar.isSome →
    s.mer.fault = false →
    ∃ t, exec .vintageActivation s = .next t ∧ t.vin.vintage = st.vintage ∧ t.vin.digest = st.digest ∧
      t.vin.cfg = st.image ∧ t.vin.staged = none) ∧
  (∀ (v a : Nat) (s : State), s.vin.staged = none → s.vin.missed = some (v, a) → aheadOf s a = 0 →
    ∃ t, exec .vintageActivation s = .next t ∧
      t = faultAt (logVintage { s with vin := { s.vin with divergent := true, missed := none } }) 0x10 2 0 0 0 3 0) ∧
  (∀ s : State, ∃ t, exec .managementResend s = .next t ∧
    ∃ fs, t.tree.net = s.tree.net ++ fs ∧
      fs.map (fun f => (f.op, f.dst, f.stamp, f.words)) =
        (s.fab.await.filter (fun a => decide (2 ^ 22 ≤ since s a.sentAt))).map (fun a => (a.op, a.dev, a.stamp, a.words))) ∧
  (∀ (dev : Nat) (s : State), s.mer.role = 2 → dev ≠ s.devId → dev ∈ s.vin.inventory → s.vin.prep = none →
    s.fab.await = [] → lostDev s dev = false →
    ∃ t, exec (.report 1 dev) s = .next t ∧ told s t .prepare dev
      [BitVec.ofNat 64 s.vin.vintage, s.vin.digest, BitVec.ofNat 64 ((now s + 2 ^ 24) % 2 ^ 64), 1]) ∧
  (∀ s : State, now s / 2 ^ 32 ≠ s.mer.wmIdx → ∃ t, exec .stampWatermark s = .next t ∧ t.mer.wmIdx = now s / 2 ^ 32 ∧
    ∀ e ∈ s.counters, e.1 ≠ 0x60 → Table.get zeroOf t.marks e.1 = highestIssued s e.1) ∧
  ∀ (a : IoAccess) (v : Word) (s : State), a.addr.bit 63 = true → a.addr.field 62 48 = 0 → ioDev a.addr = s.devId →
    a.size = 8 → s.power.pwrOk = true →
    (ioOff a.addr = 0x400008 → ∃ t, exec (.registerWrite a v) s = .next t ∧
      t = { s with staged := { s.staged with lostWait := some (v.field 47 32) } }) ∧
    (ioOff a.addr = 0x580000 → ∃ t, exec (.registerWrite a v) s = .next t ∧
      t = { s with staged := { s.staged with snoopWarn := some (v.field 31 16) } })

/-- With the hub up: a poll sets the refresh rate of each channel to its status. A channel in service whose planned
meridian has come, in no meridian fault and with no channel of its package retraining, goes into retraining; its end,
with no request waiting for it, records the margins and plans the next one 2^interval mt later. A pass starts every
channel at its first position; while one runs, or in a meridian fault, the boundary is skipped. A scrub read of a
channel that is not in retraining moves it on by one line: a line without an error is left, as is one with the poison
marker; an error of the link is counted, and recorded as class C0 where the link code corrected it; one bad symbol is
corrected, counted and recorded as class C0, two in different beats poison the line and are recorded as class C2,
unless their syndrome is that of the marker; the last line of all channels ends the pass. The syndrome is an open
value. (R242, R243, R244, R245, R246, R247, R248, R249) -/
def Obligations.MemoryChannelsServed : Prop :=
  (∀ (st : List (Nat × Nat)) (s : State), hubUp s = true → (st.map (·.1)).Nodup →
    ∃ t, exec (.mr4Poll st) s = .next t ∧ (∀ x ∈ st, x.1 < 64 → getChan t x.1 = { getChan s x.1 with refresh := x.2 }) ∧
      ∀ c, c ∉ st.map (·.1) → getChan t c = getChan s c) ∧
  (∀ (c : Nat) (s : State), hubUp s = true → c < 64 → (getChan s c).online = true → (getChan s c).state = 0 →
    (∀ i < 4, (getChan s (c / 4 * 4 + i)).state ≠ 1) → (getChan s c).dueAt ≤ now s → s.mer.fault = false →
    ∃ t, exec (.memoryRetrain c) s = .next t ∧ getChan t c = { getChan s c with state := 1 } ∧
      ∀ d, d ≠ c → getChan t d = getChan s d) ∧
  (∀ (c rd wr : Nat) (s : State), (getChan s c).state = 1 → s.mem.waiting = [] → ∃ t, exec (.memoryRetrainDone c rd wr) s = .next t ∧
    getChan t c = { getChan s c with
      state := 0, rd := rd, wr := wr, dueAt := (now s + 2 ^ (getChan s c).interval) % 2 ^ 64
      base := if (getChan s c).base = 0 then min rd wr else (getChan s c).base } ∧
    ∀ d, d ≠ c → getChan t d = getChan s d) ∧
  (∀ s : State, hubUp s = true → now s / 2 ^ 46 ≠ s.mem.scrubIdx → ∃ t, exec .patrolPassStart s = .next t ∧
    t.mem.scrubIdx = now s / 2 ^ 46 ∧
    (s.mem.scrubRunning = false ∧ s.mer.fault = false → t.mem.scrubRunning = true ∧ t.mem.scrubHeld = false ∧
      ∀ c < 64, getChan t c = { getChan s c with scrubPos := 0 }) ∧
    (s.mem.scrubRunning = true ∨ s.mer.fault = true → t.mem.scrubRunning = s.mem.scrubRunning ∧ t.mem.scrubHeld = true ∧
      t.mem.chans = s.mem.chans)) ∧
  ∀ (c : Nat) (s : State), hubUp s = true → c < 64 → s.mem.scrubRunning = true → (getChan s c).scrubPos < scrubLines s →
    (getChan s c).state ≠ 1 →
    let f := scrubOffset c (getChan s c).scrubPos
    let u := updChan s c (fun x => { x with scrubPos := x.scrubPos + 1 })
    let after := fun (v : State) => if (List.range 64).all (fun k => decide (scrubLines v ≤ (getChan v k).scrubPos))
      then { v with mem := { v.mem with scrubRunning := false, scrubPasses := satAdd 32 v.mem.scrubPasses 1 } } else v
    let a := BitVec.ofNat 64 f
    let rec4 := fun (errs : List (Nat × Nat)) => BitVec.ofNat 64 (c + 64 + (Config.eccSyndrome errs).toNat * 2 ^ 32)
    let isMark := fun (errs : List (Nat × Nat)) => decide (Config.eccSyndrome errs = Config.eccSyndrome markerErrors)
    (∃ t, exec (.scrubLine c .clean) s = .next t ∧ t = after u) ∧
    (framePoison s (f / 128) = false →
      (let v := { u with mem := { u.mem with eccLink := satAdd 16 s.mem.eccLink 1 } }
      (∃ t, exec (.scrubLine c ⟨.repeated, [], false⟩) s = .next t ∧ t = after v) ∧
      ∃ t, exec (.scrubLine c ⟨.corrected, [], false⟩) s = .next t ∧
        t = after (faultAt v 0x06 0 0 0 a (BitVec.ofNat 64 (c + 64)) 0)) ∧
      (∀ j x, j < 132 → 0 < x → x < 256 → ∃ t, exec (.scrubLine c ⟨.clean, [(j, x)], false⟩) s = .next t ∧
        t = after (if isMark [(j, x)] then u
          else faultAt { u with mem := { u.mem with eccCe := satAdd 32 s.mem.eccCe 1 } } 0x06 0 0 0 a (rec4 [(j, x)]) 0)) ∧
      ∀ j k x y, j < k → k < 132 → j / 2 ≠ k / 2 → 0 < x → x < 256 → 0 < y → y < 256 →
        ∃ t, exec (.scrubLine c ⟨.clean, [(j, x), (k, y)], false⟩) s = .next t ∧
        t = after (if isMark [(j, x), (k, y)] then u
          else faultAt (poisonFrame { u with mem := { u.mem with eccUe := satAdd 16 s.mem.eccUe 1 } } (f / 128)) 0x06 2 0 0 a
            (rec4 [(j, x), (k, y)]) (frameZone s (f / 4096))))

/-- A page whose content was verified and fits, and is not a zero page stored as one, with granules free, leaves its
frame: its entry names the descriptor, the image is kept with length, CRC and key, and the frame is on the zone's
list; a page that was touched meanwhile stays as it is. A decant whose image meets its CRC writes the page into its
frame under the zone's key, maps it and frees the granules. The first waiting job takes the lowest idle engine in
service; a cellaring does so once no cache holds a line of its page. A period, with no request waiting, gives every
live zone whose entry is held its memory credit anew and clears what it spent. A slot epoch is counted at each
multiple of 2^16 mt, and starts the retraining of a lane that was ordered where its pair is free to be retrained.
(R256, R258, R259, R275, R399, R450, R451) -/
def Obligations.PagesCellaredAndDecanted : Prop :=
  (∀ (page : Nat) (c : Cellaring) (bytes : List Byte) (s : State),
    s.mem.cellarings.filter (fun x => x.mbx == c.mbx || x.page == page) = [c] → c.page = page → c.phase = 2 →
    (engineOf s (.cellaring page)).isSome → pageContent s page = (bytes, false) →
    (s.mem.zeroEn && bytes.all (· == 0)) = false →
    let e := getPage s page
    ∃ t, exec (.cellaringCompressed page true) s = .next t ∧ t.mem.cellarings = s.mem.cellarings.filter (· != c) ∧
      ∀ (im : List Byte) (gs : List Nat), lzPage (min 3071 (128 * s.mem.maxGran)) bytes = some im →
      findGrans s.mem ((im.length + 127) / 128 + 1) = some gs →
      getPage t page = ⟨1, e.zone, e.pin, false, gs.headD 0⟩ ∧ (∀ p, p ≠ page → getPage t p = getPage s p) ∧
      Assoc.get t.mem.cellared page =
        some ⟨gs.headD 0, gs.drop 1, im.length, crc32c bytes, e.zone, now s, im, keyTag s e.zone, false⟩ ∧
      (∀ g ∈ gs, Table.get noFlag t.mem.usedGran g = true) ∧ e.loc ∈ (getList t e.zone).frames) ∧
  (∀ (page : Nat) (c : Cellaring) (ok : Bool) (s : State),
    s.mem.cellarings.filter (fun x => x.mbx == c.mbx || x.page == page) = [c] → c.page = page → (c.phase = 8 ∨ c.phase = 9) →
    ∃ t, exec (.cellaringCompressed page ok) s = .next t ∧
      t.mem = { s.mem with cellarings := s.mem.cellarings.filter (· != c) }) ∧
  (∀ (page : Nat) (d : Decant) (im : CellImage) (p : List Byte) (s : State),
    s.mem.decants.filter (fun x => x.page == page) = [d] → d.phase = 2 → d.held = [] →
    Assoc.get s.mem.cellared page = some im → expandImage s im = some p →
    let e := getPage s page
    ∃ t, exec (.decantExpanded page true) s = .next t ∧ getPage t page = ⟨0, e.zone, e.pin, false, d.frame⟩ ∧
      t.mem.bytes = (writePage s d.frame e.zone p).mem.bytes ∧ Assoc.get t.mem.cellared page = none ∧
      (∀ g ∈ im.desc :: im.grans, Table.get noFlag t.mem.usedGran g = false) ∧
      t.mem.decants = s.mem.decants.filter (fun x => x.page != page)) ∧
  (∀ (j : CmpJob) (q : List CmpJob) (e : Nat) (s : State), s.cmp.queue = j :: q →
    ((∀ p, j ≠ .cellaring p) ∨ (q = [] ∧ jobReady (askJob s j) j = true)) → e < 8 → engInService s e = true →
    (getEng s e).run = none → (∀ i < e, engInService s i = false ∨ (getEng s i).run ≠ none) →
    ∃ t, exec .compressionJobAssign s = .next t ∧ t.cmp.queue = q ∧ (getEng t e).run = some j ∧
      ∀ i, i ≠ e → getEng t i = getEng s i) ∧
  (∀ s : State, hubUp s = true → now s / 2 ^ 24 ≠ s.zon.qosIdx → (∀ d ∈ s.mem.decants, d.phase ≠ 0) → s.mem.waiting = [] →
    (∀ z ∈ liveZones s, (getZone s z).entry.isSome) →
    ∃ t, exec .qosPeriod s = .next t ∧ t.zon.qosIdx = now s / 2 ^ 24 ∧
      ∀ z ∈ liveZones s, ∀ ws, (getZone s z).entry = some ws →
        getZone t z = { getZone s z with credit := (entryQos s ws).field 47 32 * 1024, spent := 0 }) ∧
  ∀ s : State,
    let u := { s with tree := { s.tree with epochIdx := now s / 2 ^ 16 } }
    (s.sxt.laneDue = [] → ∃ t, exec .slotEpoch s = .next t ∧ t = u) ∧
    ∀ k, s.sxt.laneDue = [k] → mayStartLane (getPort s (k / 16)) (k % 16) = true →
      ∃ t, exec .slotEpoch s = .next t ∧ t = startLane { u with sxt := { u.sxt with laneDue := [] } } (k / 16) (k % 16) ∧
        (getPort t (k / 16)).rtLane = some (k % 16)

/-- Outside checkstop a flit that its output port does not choose stays; one that the port chooses, or that the root
itself ends, leaves its router; a port that is still sending chooses none. In a slot without a reservation the port
takes its oldest response, and below the root with no response or snoop ready its oldest flit; in the slot of a zone,
the oldest flit of that zone. A flit goes up from a cluster or quadrant that does not hold its endpoint, and into an
ONLINE domain that does; a request for a DRAINING or FLUSHING domain is held there, one for an OFF domain is answered
with reason 1, one for a lost device with reason 5. On a torus a flit for another module leaves the root on the port
that the table names, that of its parity or, in a divergent module, the active one, with its hop counted. A refused
flit is kept and goes out unchanged 64 network cycles later. The previous table is free once no flit of its parity
remains, and what waited for it is staged and acknowledged; where that takes 2^24 mt the staging is refused. (R38,
R267, R274, R276, R279, R282, R283, R285, R287, R308) -/
def Obligations.FlitsRouted : Prop :=
  (∀ (f : Flit) (chk : LinkCheck) (s : State), (s.flt.checkstop = true ∨ treeTake s f = none ∨ ∃ p, outputPort s f = some p ∧ portFree s p = false) →
    ∃ t, exec (.flitRoute f chk) s = .next t ∧ t = s) ∧
  (∀ (f : Flit) (s : State),
    let gone := { s with tree := { s.tree with net := List.delFirst (· == f) s.tree.net } }
    (outputPort s f = none → treeTake s f = some gone) ∧
    ∀ p, outputPort s f = some p → f ∈ s.tree.net →
      let ready := readyFor s s.tree.net p
      let e := if p < 52 then slotEntry s.vin.cfg p (netCycle s % 256) else 0
      let out := portSends gone p f
      portFree s p = true →
      (e / 2 ^ 13 ≠ 1 → e / 2 ^ 13 ≠ 2 → ready.find? (fun g => flitCls g.op == 2) = some f → treeTake s f = some out) ∧
      (e / 2 ^ 13 ≠ 1 → e / 2 ^ 13 ≠ 2 → 20 ≤ p → (∀ g ∈ ready, flitCls g.op ≠ 1 ∧ flitCls g.op ≠ 2) → ready.head? = some f →
        treeTake s f = some out) ∧
      (e / 2 ^ 13 = 1 → ready.find? (fun g => g.zone == e % 4096) = some f → treeTake s f = some out)) ∧
  (∀ (f : Flit) (s u : State), s.flt.checkstop = false → treeTake s f = some u → f.orph = false →
    let r := routerOf f
    let k := teidRouter f.teid
    (r < 16 → ((f.dst = u.devId ∧ k = r) → ∃ t, exec (.flitRoute f .good) s = .next t ∧ t = u) ∧
      (¬ (f.dst = u.devId ∧ k = r) → ∃ t, exec (.flitRoute f .good) s = .next t ∧ t = enterRouter u f (16 + r / 4))) ∧
    (16 ≤ r → r < 20 → ¬ (f.dst = u.devId ∧ k < 16 ∧ k / 4 = r - 16) →
      ∃ t, exec (.flitRoute f .good) s = .next t ∧ t = enterRouter u f 20) ∧
    (20 ≤ r → lostDev u f.dst = false → f.dst = u.devId → flitCls f.op ≠ 4 → 16 ≤ k →
      ∃ t, exec (.flitRoute f .good) s = .next t ∧ t = u) ∧
    (∀ d, f.dst = u.devId → k < 16 → ((16 ≤ r ∧ r < 20 ∧ k / 4 = r - 16 ∧ d = k) ∨
        (20 ≤ r ∧ lostDev u f.dst = false ∧ flitCls f.op ≠ 4 ∧ d = 16 + k / 4)) →
      ((getDom u d).state = 1 → ∃ t, exec (.flitRoute f .good) s = .next t ∧ t = enterRouter u f d) ∧
      (isRequest f = true →
        ((getDom u d).state = 2 ∨ (getDom u d).state = 3 → (getDom u d).held.length < 64 →
          ∃ t, exec (.flitRoute f .good) s = .next t ∧ t = updDom u d (fun x => { x with held := x.held ++ [f] })) ∧
        ((getDom u d).state = 0 → ∃ t, exec (.flitRoute f .good) s = .next t ∧
          told u t .err f.src [wordAt f.words 0, 1]))) ∧
    (20 ≤ r → lostDev u f.dst = true → isRequest f = true →
      ∃ t, exec (.flitRoute f .good) s = .next t ∧ told u t .err f.src [wordAt f.words 0, 5]) ∧
    (∀ p, 20 ≤ r → lostDev u f.dst = false → f.dst ≠ u.devId → staleTable u f = false → u.fab.mesh = false → f.det = 0 →
      rtPort u (if u.vin.divergent then activePar u else f.par) f.dst = some p → p ≠ 12 → portUp u p = true → f.hops < 48 →
      ∃ t, exec (.flitRoute f .good) s = .next t ∧ t.tree.net = u.tree.net ∧
        ∃ dl, (getPort t p).tx = (getPort u p).tx ++ [{ f with hops := f.hops + 1, dl := dl, inPort := none, hop := none }])) ∧
  (∀ (f : Flit) (s : State), ∃ t, exec (.treeNack f) s = .next t ∧
    t = { s with tree := { s.tree with refused := s.tree.refused ++ [(f, (now s + 131) % 2 ^ 64)] } }) ∧
  (∀ (f : Flit) (k : Nat) (s : State), (f, k) ∈ s.tree.refused → (now s + 2 ^ 64 - k) % 2 ^ 64 < 2 ^ 63 →
    ∃ t, exec (.treeNackResend f.stamp) s = .next t ∧ f ∈ t.tree.net ∧ (f, k) ∉ t.tree.refused ∧
      ∀ x ∈ s.tree.refused, x.1.stamp ≠ f.stamp → x ∈ t.tree.refused) ∧
  (∀ s : State, s.tree.old = true → oldFlits s = 0 →
    (s.vin.staged = none → ∃ t, exec .trnOldDrained s = .next t ∧ t = { s with tree := { s.tree with old := false } }) ∧
    ∀ (st : StagedCfg) (m : Nat), s.vin.staged = some st → s.tree.stagedPar = none → s.mer.role ≠ 2 →
      s.mer.masterId = some m → ∃ t, exec .trnOldDrained s = .next t ∧ t.tree.old = false ∧
        t.tree.stagedPar = some (st.vintage % 2 == 1) ∧
        told s t .ack m [BitVec.ofNat 64 st.vintage, st.digest, BitVec.ofNat 64 st.act, 0]) ∧
  ∀ (st : StagedCfg) (m : Nat) (s : State), s.vin.staged = some st → st.catchup = false → s.tree.old = true →
    s.tree.stagedPar = none → 2 ^ 24 ≤ since s s.tree.stagedAt → s.mer.role ≠ 2 → s.mer.masterId = some m →
    ∃ t, exec .routeStagingTimeout s = .next t ∧ t.vin = { s.vin with staged := none, missed := some (st.vintage, st.act) } ∧
      told s t .nack m [BitVec.ofNat 64 st.vintage, st.digest, BitVec.ofNat 64 st.act, 0]

/-- A DRAINING domain whose requests are answered, whose cores have nothing in their buffers and no maintenance open,
and in which no relief runs or is asked for goes to FLUSHING: its cores hold no cached line, a quadrant holds none
either, and every modified line of the quadrant waits in the write-back buffer. A FLUSHING domain that is not isolated
goes OFF with its last WbAck: its cores stop and lose power. A POWERING domain comes ONLINE, what it held goes on, and
its cores that carry work, a spare in use among them, are powered where their cluster and quadrant are both ONLINE.
(R162, R282, R284) -/
def Obligations.PowerDomainsChange : Prop :=
  (∀ (d : Nat) (s : State), d < 20 → (getDom s d).state = 2 → (∀ r ∈ s.reqs, r.core ∉ domCores d) →
    (∀ n ∈ domCores d, coreDrained (getCore s n) = true) →
    (∀ r ∈ s.sxt.reliefs, spareOf r.1 ∉ domCores d) → (∀ r ∈ s.sxt.requests, r.1 ∉ domCores d) →
    ∃ t, exec (.domainDrained d) s = .next t ∧ (getDom t d).state = 3 ∧
      (∀ n ∈ domCores d, (getCore t n).l2 = [] ∧ (getCore t n).l1i = [] ∧ (getCore t n).near.entries = []) ∧
      (16 ≤ d → (∀ e ∈ t.lines, e.1 / 2 ^ 50 ≠ d - 16) ∧
        ∀ gl < 2 ^ 50, (getLine s (d - 16) gl).st = .m ∨ (getLine s (d - 16) gl).st = .o →
          ∃ w ∈ t.wbs, w.quad = d - 16 ∧ w.line = gl ∧ w.data = (getLine s (d - 16) gl).data)) ∧
  (∀ (d : Nat) (s : State), d < 20 → (getDom s d).state = 3 → (getDom s d).isolated = none →
    (∀ w ∈ s.wbs, w.quad ≠ domQuad d) → (getDom s d).held = [] →
    ∃ t, exec (.domainFlushed d) s = .next t ∧ getDom t d = { getDom s d with state := 0, mbx := none } ∧
      t.tree.net = s.tree.net ∧ ∀ n ∈ domCores d, (getCore t n).power = false ∧ (getCore t n).run = false) ∧
  ∀ (d : Nat) (s : State), d < 20 → (getDom s d).state = 4 →
    ∃ t, exec (.domainPowered d) s = .next t ∧ getDom t d = { getDom s d with state := 1, held := [], mbx := none } ∧
      t.tree.net = s.tree.net ++ (getDom s d).held ∧
      ∀ n ∈ domCores d, ((getCore s n).sxtState = 0 ∨ (getCore s n).sxtState = 2) → (getDom t (n / 17)).state = 1 → (getDom t (16 + n / 68)).state = 1 →
        (getCore t n).power = true ∧ (getCore t n).l2 = [] ∧ (getCore t n).near.entries = []

/-- On a port that carries frames: a good frame in sequence hands its packets, but those of link scope, to the root
and takes its sequence number; one that fails its CRC, a NAK too, is counted and the receiver waits; one from a wrong
sender fences the port. Outside checkstop, in a module that is not isolated, the oldest management packet with credit
leaves in the next frame and stays in the replay buffer; a replay goes on with its next frame. A NAK, or no advance
for 2^15 mt, sends what is not acknowledged again, with class C0, and starts a recovery where a frame of it has been
replayed eight times; a recovery in time makes the port UP with class C1, one that is late makes it DOWN. A lane that
has retrained gives back the width from before, and what is not acknowledged goes out again. (R295, R296, R299, R300,
R301, R302, R303, R315, R317) -/
def Obligations.LinksCarryFrames : Prop :=
  (∀ (p : Nat) (fr : Frame) (s : State), p < 12 → portRuns (getPort s p) = true → fr.good = true → fr.uncorr = 0 →
    senderOk (getPort s p) fr = true → fr.idle = false → fr.seq = ((getPort s p).rxSeq + 1) % 4096 →
    ∃ t, exec (.frameReceive p fr) s = .next t ∧ (getPort t p).rxSeq = fr.seq ∧ (getPort t p).nakWait = false ∧
      (getPort t p).tx = (getPort s p).tx ∧
      t.tree.net = s.tree.net ++
        (fr.flits.filter (fun f => !(linkScope f.op))).map (fun f => { f with inPort := some p, hop := none })) ∧
  (∀ (p : Nat) (fr : Frame) (s : State) (i : Instr), p < 12 → portRuns (getPort s p) = true →
    (i = .frameReceive p fr ∨ i = .nakFrame p fr) →
    let u := updPort s p (fun x => { x with corr := satAdd 32 x.corr fr.corr, uncorr := satAdd 32 x.uncorr fr.uncorr })
    ((fr.good = false ∨ fr.uncorr ≠ 0) →
      ∃ t, exec i s = .next t ∧ t.tree = s.tree ∧ (getPort t p).nakWait = true ∧
        (getPort t p).crc = satAdd 16 (getPort s p).crc 1 ∧ (getPort t p).rxSeq = (getPort s p).rxSeq ∧
        (getPort t p).buf = (getPort s p).buf) ∧
    (fr.good = true → fr.uncorr = 0 → senderOk (getPort s p) fr = false →
      ∃ t, exec i s = .next t ∧ t = portDown u p 5) ∧
    (i = .nakFrame p fr → fr.good = true → fr.uncorr = 0 → senderOk (getPort s p) fr = true →
      let v := takeHeader u p fr
      let x := getPort v p
      (unacked x = [] → ∃ t, exec i s = .next t ∧ t = v) ∧
      (unacked x ≠ [] → replaysSpent x = true → ∃ t, exec i s = .next t ∧ getPort t p = { x with
        state := 3, since := now s, recover := satAdd 16 x.recover 1, resendFrom := [] }) ∧
      (unacked x ≠ [] → replaysSpent x = false → ∃ t, exec i s = .next t ∧
        t = portFault (updPort v p (fun x => { x with
          replays := countReplay x, replay := satAdd 16 x.replay 1, resendFrom := unacked x, ackAt := now s })) p 0 0))) ∧
  (∀ (p : Nat) (f : Flit) (s : State), p < 12 → s.fab.isolated = false → s.flt.checkstop = false → (getPort s p).state = 2 →
    (getPort s p).resendFrom = [] → (getPort s p).sending = none → (getPort s p).tx = [f] → flitCls f.op = 4 → f.more = 0 →
    1 ≤ creditsFor (getPort s p) (vcOf f) → (getPort s p).buf.length < 256 →
    ∃ t, exec (.frameTransmit p) s = .next t ∧ (getPort t p).tx = [] ∧
      (getPort t p).txSeq = ((getPort s p).txSeq + 1) % 4096 ∧
      creditsFor (getPort t p) (vcOf f) = creditsFor (getPort s p) (vcOf f) - 1 ∧
      ∃ fr, (getPort t p).buf = (getPort s p).buf ++ [fr] ∧ fr.flits = [f] ∧ fr.seq = (getPort t p).txSeq ∧
        fr.ack = (getPort s p).rxSeq) ∧
  (∀ (p : Nat) (fr : Frame) (rest : List Frame) (s : State), p < 12 → s.fab.isolated = false → s.flt.checkstop = false →
    (getPort s p).state = 2 → (getPort s p).resendFrom = fr :: rest →
    ∃ t, exec (.frameTransmit p) s = .next t ∧ getPort t p = { getPort s p with resendFrom := rest }) ∧
  (∀ (p : Nat) (s : State),
    let x := getPort s p
    (x.nakWait = true → 2 ^ 14 ≤ since s x.nakAt →
      ∃ t, exec (.nakRepeat p) s = .next t ∧ getPort t p = { x with nakAt := now s }) ∧
    (portRuns x = true → unacked x ≠ [] → 2 ^ 15 ≤ since s x.ackAt →
      (replaysSpent x = false → ∃ t, exec (.ackStall p) s = .next t ∧ t = portFault (updPort s p (fun x => { x with
        replays := countReplay x, replay := satAdd 16 x.replay 1, resendFrom := unacked x, ackAt := now s })) p 0 0) ∧
      (replaysSpent x = true → ∃ t, exec (.ackStall p) s = .next t ∧ getPort t p = { x with
        state := 3, since := now s, recover := satAdd 16 x.recover 1, resendFrom := [] })) ∧
    (∃ t, exec (.receiveHistoryExpiry p) s = .next t ∧
      getPort t p = { x with frozen := x.frozen.filter (fun h => decide (since s h.2 < 2 ^ 26)) }) ∧
    (p < 12 → x.state = 2 → ∃ t, exec (.portSignalLost p) s = .next t ∧ getPort t p = { x with
      state := 3, since := now s, recover := satAdd 16 x.recover 1, resendFrom := [] }) ∧
    (p < 12 → x.state = 3 → since s x.since < 2 ^ 24 →
      let u := updPort s p (fun x => { x with state := 2, replays := [] })
      ∀ w, ∃ t, exec (.recoveryDone p w) s = .next t ∧
        t = setWidth (replayPort (portFault (portStamp u p).2 p 1 (portStamp u p).1) p) p w) ∧
    (p < 12 → x.state = 3 → 2 ^ 24 ≤ since s x.since → ∃ t, exec (.recoveryTimeout p) s = .next t ∧ t = portDown s p 4) ∧
    (p < 12 → x.state = 2 → 2 ^ 24 ≤ since s x.hbAt → ∃ t, exec (.portHeartbeatLoss p) s = .next t ∧ t = portDown s p 4) ∧
    (x.rtLane.isSome →
      (unacked x = [] → ∃ t, exec (.laneRetrainDone p) s = .next t ∧
        getPort t p = { x with rtLane := none, width := x.rtWidth }) ∧
      (unacked x ≠ [] → replaysSpent x = false → ∃ t, exec (.laneRetrainDone p) s = .next t ∧
        getPort t p = { x with
          rtLane := none, width := x.rtWidth, replays := countReplay x, replay := satAdd 16 x.replay 1
          resendFrom := unacked x, ackAt := now s })))

/-- A trained port sends init frames at its width, or is DOWN below x2; one not trained within 2^31 mt is DOWN. The
first init frame gives every virtual channel 64 credits and starts the delay measurement and the HELLO exchange. A
HELLO that agrees makes the port UP and sends ORIGIN; one that does not fences it. A better origin is taken and
flooded; the best serial, unchanged for 2^26 mt with every port settled, takes coordinate 0. HZ_PCTL enables a port
into training or disables it, and sets its reach. (R294, R302, R310, R311, R312, R315, R329) -/
def Obligations.PortsTrainAndPair : Prop :=
  (∀ (p w : Nat) (s : State), p < 12 → (getPort s p).state = 1 →
    let x := getPort s p
    (w < 3 → w = x.width → ∃ t, exec (.portTrained p w) s = .next t ∧ getPort t p = { x with inited := false }) ∧
    (w < 3 → w ≠ x.width → ∃ t, exec (.portTrained p w) s = .next t ∧
      let u := updPort (updPort s p (fun x => { x with inited := false })) p (fun x => { x with width := w })
      (x.width = 3 → w = 0 → t = u) ∧ (x.width ≠ 3 ∨ w ≠ 0 → t = widthFault u p)) ∧
    (3 ≤ w → ∃ t, exec (.portTrained p w) s = .next t ∧
      t = portDown (updPort (updPort s p (fun x => { x with inited := false })) p (fun x => { x with width := 3 })) p 4) ∧
    (2 ^ 31 ≤ since s x.since → ∃ t, exec (.portTrainingTimeout p) s = .next t ∧ t = portDown s p 4) ∧
    (∀ fr : Frame, x.inited = false → frameBad fr = false → ∃ t, exec (.initFrame ⟨p, fr⟩) s = .next t ∧ (getPort t p).inited = true ∧ (getPort t p).txSeq = 0 ∧
      (getPort t p).rxSeq = 0 ∧ (getPort t p).buf = [] ∧ (∀ v < 10, creditsFor (getPort t p) v = 64) ∧
      ∃ f g, (getPort t p).tx = x.tx ++ [f, g] ∧ f.op = .delay ∧ g.op = .hello)) ∧
  (∀ (p : Nat) (m : HelloMsg) (s : State), p < 12 → (getPort s p).state = 1 → (getPort s p).inited = true →
    let u := updPort s p (fun x => { x with nbrId := m.devId, nbrPort := some m.port, nbrNoMirror := m.noMirror })
    (helloOk s p m = true → s.devValid = true → ∃ t, exec (.hello p m) s = .next t ∧ (getPort t p).state = 2 ∧
      (getPort t p).nbrId = m.devId ∧ (getPort t p).nbrPort = some m.port ∧
      ∃ f, (getPort t p).tx = (getPort s p).tx ++ [f] ∧ f.op = .origin) ∧
    (helloOk s p m = true → s.devValid = false → ∀ e, m.devId = some e → ∃ t, exec (.hello p m) s = .next t ∧
      t.devValid = true ∧ t.devId = impliedId s p e m.port) ∧
    (helloOk s p m = false → ∃ t, exec (.hello p m) s = .next t ∧ t = portDown u p 5)) ∧
  (∀ (p : Nat) (serial : Word) (en : Bool) (s : State),
    ((en = true ∧ s.fab.bestMaster = false) ∨ (en = s.fab.bestMaster ∧ serial.toNat < s.fab.bestSerial.toNat)) →
    ∃ t, exec (.origin p serial en) s = .next t ∧ t.fab.bestSerial = serial ∧ t.fab.bestMaster = en ∧ t.fab.bestAt = now s ∧
      ∀ q ∈ upPorts s, q ≠ p → linkSent s t q .origin [serial, Word.flag en 0]) ∧
  (∀ s : State, s.devValid = false → 2 ^ 26 ≤ since s s.fab.bestAt → 4 ≤ s.power.step → s.fab.bestSerial = s.part.serial →
    (∀ p < 12, (getPort s p).state ≠ 1 ∧ (getPort s p).state ≠ 3) →
    ∃ t, exec .originQuiet s = .next t ∧ t.devValid = true ∧ t.devId = 0 ∧ t.fab.isOrigin = true) ∧
  ∀ (q : IoReq) (p : Nat) (v : Word) (s : State) (i : Instr), p < 12 → s.power.pwrOk = true →
    (i = .hzPctlEnClear q p v ∨ i = .hzPctlEnSet q p v ∨ i = .hzPctlReach q p v) →
    let x := getPort s p
    let r := if v.field 1 0 < 2 then v.field 1 0 else 0
    (v.bit 3 = true → (x.state = 0 ∨ x.state = 4) → ∃ t, exec i s = .next t ∧
      getPort t p = { x with en := true, reach := r, state := 1, since := now s, inited := false }) ∧
    (v.bit 3 = true → x.state ≠ 0 → x.state ≠ 4 → ∃ t, exec i s = .next t ∧ getPort t p = { x with en := true, reach := r }) ∧
    (v.bit 3 = false → (x.state = 0 ∨ x.state = 6) → ∃ t, exec i s = .next t ∧
      getPort t p = { x with en := false, reach := r }) ∧
    (v.bit 3 = false → x.state ≠ 0 → x.state ≠ 6 → ∃ t, exec i s = .next t ∧
      t = portDown (updPort s p (fun x => { x with en := false, reach := r })) p 4)

/-- The master keeps a report of a link that is down and, while every pair still routes, starts a change of the
tables; a device that is cut off and silent for lost_wait is declared lost where the master hears a majority. LOST,
JOIN and SWEEP are forwarded once away from the port they came by and acted on; LOST and JOIN are acknowledged, a
repeat too. A module that learns of its own loss, or has no UP port for 2^26 mt, is isolated with class C5. At S +
2^22 mt the requests that nothing has answered go out again. (R314, R318, R319, R320, R321) -/
def Obligations.LostModulesDeclared : Prop :=
  (∀ (rp p nb m : Nat) (s : State), s.mer.role = 2 →
    let u := { s with fab := { s.fab with
      downs := s.fab.downs.filter (fun d => !(d.1 == rp && d.2.1 == p)) ++ [(rp, p, nb, m)] } }
    (s.vin.agreed = false → ∃ t, exec (.linkdown rp p nb m) s = .next t ∧ t = u) ∧
    (s.vin.agreed = true →
      giveUp u (deadLinks u) s.vin.inventory.length (s.vin.inventory.filter (fun d => !(lostDev s d))) = [] →
      ∃ t, exec (.linkdown rp p nb m) s = .next t ∧ t = relinkChange u)) ∧
  (∀ (dev t0 : Nat) (s : State), s.mer.role = 2 → dev ≠ s.devId → lostDev s dev = false → dev ∈ s.vin.inventory →
    cutOff s dev = true → lastReport s dev = some t0 → (∀ h ∈ s.fab.heard, h.1 ≠ dev) →
    max 1 s.fab.lostWait * 2 ^ 20 ≤ since s t0 →
    (heardMajority s = true → ∃ t, exec (.lostWaitExpiry dev) s = .next t ∧ t = relinkChange (declareLost s dev)) ∧
    (heardMajority s = false → ∃ t, exec (.lostWaitExpiry dev) s = .next t ∧ t = faultAt s 0x10 2 0 0 0 4 0)) ∧
  (∀ (p dev m : Nat) (st : Word) (s : State), seenStamp s st = false →
    let fwd := fun (op : FlitOp) (ws : List Word) => flood (noteStamp s st) (some p) op st ws
    (∀ q ∈ upPorts s, q ≠ p → linkSent s (fwd .lost [BitVec.ofNat 64 dev, BitVec.ofNat 64 m]) q .lost
      [BitVec.ofNat 64 dev, BitVec.ofNat 64 m]) ∧
    (∃ t, exec (.lost p dev m st) s = .next t ∧
      t = ackMaster (takeLost (fwd .lost [BitVec.ofNat 64 dev, BitVec.ofNat 64 m]) dev)) ∧
    (lostDev s dev = true → ∃ t, exec (.join p dev st) s = .next t ∧ lostDev t dev = false ∧
      ∀ q ∈ upPorts s, q ≠ p → linkSent s t q .join [BitVec.ofNat 64 dev]) ∧
    ∃ t, exec (.sweep p m st) s = .next t ∧ t = runSweep (fwd .sweep [BitVec.ofNat 64 m]) m) ∧
  (∀ (p dev m k : Nat) (st : Word) (s : State), seenStamp s st = true → s.mer.masterId = some k → k ≠ s.devId →
    let ws := [BitVec.ofNat 64 s.vin.vintage, s.vin.digest, 0, 0]
    (∃ t, exec (.lost p dev m st) s = .next t ∧ told s t .ack k ws) ∧
    (∃ t, exec (.join p dev st) s = .next t ∧ told s t .ack k ws) ∧
    ∃ t, exec (.sweep p m st) s = .next t ∧ t = s) ∧
  (∀ s : State, s.fab.discovered = true → upPorts s = [] → hasLinks s = true → 2 ^ 26 ≤ since s s.fab.lastUp →
    s.fab.isolated = false → ∃ t, exec .noPortUp s = .next t ∧
      t = faultAt { s with fab := { s.fab with isolated := true } } 0x08 5 0 0 0 0 0) ∧
  ∀ (sm a b : Nat) (s : State), s.fab.sweepAt = some (sm, a, b) → 2 ^ 22 ≤ since s sm →
    ∃ t, exec .sweepAgentResend s = .next t ∧ t.fab.sweepAt = none ∧
      ∃ fs, t.tree.net = s.tree.net ++ fs ∧ (∀ f ∈ fs, f.rs = true) ∧
        ∀ r ∈ s.reqs, beforeSweep sm r.sentAt = true → ∃ f ∈ fs, f.stamp = r.req.stamp ∧ f.dst = addrDev r.req.addr

/-- An operation that waits for a CCW takes a JUMP to the address it names, ends with the code of a failed read, and
sets an OUT of one piece as its command in work. The status that it awaits, with nothing to notice and no residual,
completes the CCW; one that matches nothing is counted. Posted writes and reads go out on a link that is up; a read on
a link that is down is answered. A deadline that has passed halts an operation that has not ended, and is only counted
where the end is decided; a HALTING one ends without its adapter after 2^22 mt; customer microcode that ran 2^16 words
faults; a microcode load that waited 2^26 mt is refused; a faulted processor is counted with class C2. (R339, R340,
R341, R343, R346, R347, R354, R355, R359, R360, R363, R365) -/
def Obligations.ChannelProgramsRun : Prop :=
  (∀ (n : Nat) (o : ChOp) (ws : List Word) (res : ReadResult) (u s : State), getOp s n = some o → o.wait = .ccw → o.state = 2 →
    (∀ e, readCcw s o.jr.zone o.jr.curCcw ws 0 res = (.error e, u) →
      ∃ t, exec (.ccwFetched n ws res) s = .next t ∧ t = endOp u n 1 e) ∧
    (∀ a : Word, readCcw s o.jr.zone o.jr.curCcw ws 0 res = (.ok (0x30000000, a), u) → a.field 3 0 = 0 → o.jumped = false →
      ∃ t, exec (.ccwFetched n ws res) s = .next t ∧
        t = putOp u n { o with jumped := true, jr := { o.jr with curCcw := a } }) ∧
    (∀ (w0 a : Word), readCcw s o.jr.zone o.jr.curCcw ws 0 res = (.ok (w0, a), u) → ccwCode w0 = 0x10 →
      eKind o.jr.entry = 0 → ccwReserved w0 = false → (ccwFlags w0).testBit 6 = false → (ccwFlags w0).testBit 5 = false →
      xformOk 0x10 (ccwXform w0) = true →
      ∃ t, exec (.ccwFetched n ws res) s = .next t ∧ t = startCommand u n
        (setCommand o w0 [(a.toNat, ccwCount w0, false)] (ccwFlags w0) (o.jr.curCcw + 16) 0))) ∧
  (∀ (ctl n : Nat) (o : ChOp) (r : StatusRec) (s : State), getOp s n = some o → o.wait = .status → o.state = 2 →
    o.jr.phase < 3 → o.jr.stamp = r.stamp → o.jr.seq = r.seq → eKind o.jr.entry = 0 → eCtl o.jr.entry = ctl → o.upc = none →
    o.opcode = 0x10 → r.status.testBit 15 = true → r.status.testBit 14 = false → r.status.testBit 13 = false →
    r.residual = 0 → ∃ t, exec (.adst ctl n r) s = .next t ∧
      t = completeCcw (putOp s n { o with jr := { o.jr with devStatus := r.status % 65536, residual := 0 } }) n) ∧
  (∀ (ctl n : Nat) (r : StatusRec) (s : State), getOp s n = none → ∃ t, exec (.adst ctl n r) s = .next t ∧
    t = { s with chs := { s.chs with stale := satAdd 16 s.chs.stale 1 } }) ∧
  (∀ (ctl bus len ch : Nat) (d : List Byte) (s : State),
    ((getPcie s ctl).up = true → (∃ t, exec (.adwr ctl bus d) s = .next t ∧
        (getPcie t ctl).posted = (getPcie s ctl).posted ++ [(bus, d)]) ∧
      ∃ t, exec (.adrd ctl bus len ch) s = .next t ∧ (getPcie t ctl).reads = (getPcie s ctl).reads ++ [(bus, len, ch)]) ∧
    ((getPcie s ctl).up = false → ∃ t, exec (.adrd ctl bus len ch) s = .next t ∧ told s t .aderr s.devId [5])) ∧
  (∀ (n : Nat) (o : ChOp) (s : State), getOp s n = some o → pastDue s o.jr = true → o.jr.phase < 3 →
    (o.state = 1 → ∃ t, exec (.operationDeadline n) s = .next t ∧ t = endOpen s n 2) ∧
    (o.state = 2 → eKind o.jr.entry = 0 → ∃ t, exec (.operationDeadline n) s = .next t ∧
      (∃ q, getOp t n = some q ∧ q.state = 3 ∧ q.haltAt = some (now s) ∧ q.jr = o.jr) ∧
      (∀ k, o.mover = some k → (getChn t k).pause = true) ∧
      ∃ f, t.tree.net = s.tree.net ++ [f] ∧ f.op = .adwr ∧ f.stamp = o.jr.stamp)) ∧
  (∀ (n : Nat) (o : ChOp) (s : State), getOp s n = some o → pastDue s o.jr = true → o.state = 4 → 3 ≤ o.jr.phase →
    ∃ t, exec (.operationDeadline n) s = .next t ∧ t = { s with chs := { s.chs with dup := satAdd 16 s.chs.dup 1 } }) ∧
  (∀ (n k : Nat) (o : ChOp) (s : State), getOp s n = some o → o.state = 3 → o.haltAt = some k →
    2 ^ 22 ≤ (now s + 2 ^ 64 - k) % 2 ^ 64 → ∃ t, exec (.haltStatusTimeout n) s = .next t ∧ t = endHalting s n) ∧
  (∀ (n : Nat) (o : ChOp) (s : State), getOp s n = some o → o.upc.isSome → 65536 ≤ o.usteps →
    ∃ t, exec (.microwordRunaway n) s = .next t ∧ t = microFault s n) ∧
  (∀ (m : Mbx) (k : Nat) (x : List (Nat × Nat) × Nat × Nat) (s : State), s.chs.load = some (m, k, x) →
    2 ^ 26 ≤ (now s + 2 ^ 64 - k) % 2 ^ 64 → ∃ t, exec .ucodeLoadTimeout s = .next t ∧
      t = setOutcome { s with chs := { s.chs with load := none } } m (errRes 0x0009)) ∧
  ∀ (cp : Nat) (s : State), cp < 32 → (getCp s cp).state = 0 →
    let u := faultAt (updCp s cp (fun c => { c with faults := satAdd 16 c.faults 1, state := 1 })) 0x0A 2 0 0 0 (BitVec.ofNat 64 cp) 0
    (∀ x ∈ u.chs.ops, x.2.jr.cp ≠ cp) → ∃ t, exec (.channelProcessorFault cp) s = .next t ∧ t = u

/-- When both local copies of a record are written and no partner is awaited, the operation goes on with what follows;
else it waits on for the partner, whose acknowledgement of the same count lets it go on. A neighbour's record is kept
only where its update count is higher, and answered; its release drops the copy of the same stamp and is answered; the
answer frees the own record. A partner of another module drops its copies; a handed-over record is kept by the same
rule. A queue's head is read again and slots are assigned; a completed entry is written. (R350, R351, R354, R355,
R356) -/
def Obligations.JournalMirrored : Prop :=
  (∀ (n nx : Nat) (o : ChOp) (s : State), getOp s n = some o →
    (o.wait = .journal nx false false → ∃ t, exec (.journalWriteDone n) s = .next t ∧
      t = journalNext (putOp s n { o with wait := .journal nx true false }) n nx) ∧
    (o.wait = .journal nx false true → ∃ t, exec (.journalWriteDone n) s = .next t ∧
      t = putOp s n { o with wait := .journal nx true true }) ∧
    (o.wait = .journal nx true true → ∃ t, exec (.jmack n o.jr.count) s = .next t ∧
      t = journalNext (putOp s n { o with
        wait := .journal nx true false, ackedEnd := o.ackedEnd || decide (o.jr.phase = 3) }) n nx) ∧
    (o.wait = .journal nx false true → ∃ t, exec (.jmack n o.jr.count) s = .next t ∧
      t = putOp s n { o with wait := .journal nx false false, ackedEnd := o.ackedEnd || decide (o.jr.phase = 3) })) ∧
  (∀ (p d : Nat) (r : JRec) (s : State), (getPort s p).nbrId = some d →
    let k := p * 65536 + r.sub % 65536
    let ws := [BitVec.ofNat 64 r.sub, BitVec.ofNat 64 r.count]
    ((∀ h, Assoc.get s.chs.mirrors k = some h → h.count < r.count) → ∃ t, exec (.jmw p r) s = .next t ∧
      Assoc.get t.chs.mirrors k = some r ∧ told s t .jmack d ws) ∧
    (∀ h, Assoc.get s.chs.mirrors k = some h → r.count ≤ h.count → ∃ t, exec (.jmw p r) s = .next t ∧
      t.chs = s.chs ∧ told s t .jmack d ws)) ∧
  (∀ (p d sub : Nat) (r : JRec) (s : State), (getPort s p).nbrId = some d →
    Assoc.get s.chs.mirrors (p * 65536 + sub % 65536) = some r →
    ∃ t, exec (.jrel p sub r.stamp) s = .next t ∧ Assoc.get t.chs.mirrors (p * 65536 + sub % 65536) = none ∧
      told s t .jrelack d [BitVec.ofNat 64 sub, r.stamp]) ∧
  (∀ (n : Nat) (o : ChOp) (s : State), getOp s n = some o → o.wait = .jrelack →
    ∃ t, exec (.jrelack n o.jr.stamp) s = .next t ∧ getOp t n = none ∧ ∀ k, k ≠ n → getOp t k = getOp s k) ∧
  (∀ (p d : Nat) (s : State), (getPort s p).nbrId = some d → ∃ t, exec (.jdrop p d) s = .next t ∧
    t.chs = { s.chs with mirrors := s.chs.mirrors.filter (fun m => m.1 / 65536 != p) }) ∧
  (∀ (dev : Nat) (r : JRec) (s : State), lostDev s dev = false →
    let k := portOfDev s dev * 65536 + r.sub % 65536
    (∀ h, Assoc.get s.chs.mirrors k = some h → h.count < r.count) → ∃ t, exec (.jhand dev r) s = .next t ∧
      Assoc.get t.chs.mirrors k = some r) ∧
  (∀ (a : Word) (q : PostQueue) (n : Nat) (o : ChOp) (rest : List Nat) (s : State), Assoc.get s.chs.queues a.toNat = some q →
    q.waiting = n :: rest → getOp s n = some o → ∃ t, exec (.queueHeadReread a) s = .next t ∧
      t = assignSlots a.toNat 65536 (rereadHead s a.toNat (eZone o.jr.entry))) ∧
  ∀ (n : Nat) (o : ChOp) (s : State), getOp s n = some o → o.wait = .writeEntry →
    ∃ t, exec (.completionPosted n) s = .next t ∧ t = writeEntry s n

/-- A tail within the ring is taken, and one too far ahead is counted; a descriptor with own = 1 is taken into work,
one with own = 0 stops the channel there. A channel that may read issues the reads of its next beat and counts them.
Data that returns is held in its beat and the writes whose turn has come go out; a failed read ends the beat; a
confirmed beat takes effect and adds its bytes; the read that a barrier waits for ends with its data. A write-back
that is visible passes the head on. pause and hold stop a channel, which is paused when it has drained; a halted
channel is cleared by a write of 1; a disabled engine halts every one of its channels. (R372, R374, R376, R378, R379,
R380, R383, R384, R385, R386, R391) -/
def Obligations.MoversMove : Prop :=
  (∀ (q : IoReq) (n : Nat) (v : Word) (s : State), n < 1024 → opChannel s n = false → s.power.pwrOk = true →
    let c := getChn s n
    ((v.field 31 0 + 2 ^ 32 - c.head) % 2 ^ 32 ≤ 2 ^ c.m → c.en = false → ∃ t, exec (.chnTailWrite q n v) s = .next t ∧
      getChn t n = { c with tail := v.field 31 0, ownWait := false }) ∧
    (2 ^ c.m < (v.field 31 0 + 2 ^ 32 - c.head) % 2 ^ 32 → ∃ t, exec (.chnTailWrite q n v) s = .next t ∧
      t = discard (updChn s n (fun c => { c with tailBad := satAdd 4 c.tailBad 1 })) q (offUser n 8)) ∧
    (c.dead = false → ∃ t, exec (.chnStatHaltedClear q n) s = .next t ∧ getChn t n = { c with halted := false }) ∧
    (v.bit 0 = true → c.ownWait = false → ∃ t, exec (.chnCtlPause q n v) s = .next t ∧ getChn t n = { c with pause := true }) ∧
    (v.bit 0 = false → c.hold = false → c.desc = none → ∃ t, exec (.chnCtlPause q n v) s = .next t ∧
      getChn t n = { c with pause := false, paused := false }) ∧
    (c.en = true → setBit (chnZoneWord c) 26 (v.bit 26) = BitVec.ofNat 64 (2 ^ 26 * (v.toNat / 2 ^ 26)) → v.bit 26 = true →
      c.ownWait = false → ∃ t, exec (.chnZoneHold q n v) s = .next t ∧ getChn t n = { c with hold := true }) ∧
    (c.en = false → v.bit 63 = true → ∀ ws, (getZone s (v.field 61 50)).entry = some ws →
      zoneChns s (v.field 61 50) n < (wordAt ws 4).field 52 42 → ∃ t, exec (.chnZoneEn q n v) s = .next t ∧
        getChn t n = freshChn (setChnZone c v))) ∧
  (∀ (n : Nat) (bs : List Byte) (ws : List Word) (res : ReadResult) (u s : State), n < 1024 → opChannel s n = false →
    let c := getChn s n
    c.en = true → c.admitted = true → c.desc = none → c.wb = none → c.halted = false → chnStopping c = false →
    c.ownWait = false → c.head ≠ c.tail → s.mov.disable.testBit (n % 16) = false →
    readAnswer s false (ringAddr c c.head).toNat 64 c.zone
      (match res with | .ok _ => ReadResult.ok (wordsBytes ws) | r => r) = (.ok bs, u) →
    ((wordAt (bytesWords 8 bs) 0).bit 63 = true → ∃ t, exec (.descriptorFetched n ws res) s = .next t ∧
      t = beginDesc u n (descOfWords (bytesWords 8 bs))) ∧
    ((wordAt (bytesWords 8 bs) 0).bit 63 = false → ∃ t, exec (.descriptorFetched n ws res) s = .next t ∧
      getChn t n = { getChn u n with ownWait := true })) ∧
  (∀ (n : Nat) (d : Desc) (s : State), n < 1024 → (getChn s n).desc = some d → transforms d = false →
    mayRead (getChn s n) d = true → s.mov.disable.testBit (n % 16) = false → (getChn s n).cipher = none →
    (getChn s n).pipe = none → 0 < (getChn s n).count →
    let c := getChn s n
    let b := formBeat c d
    ∃ t, exec (.moverBeatIssue n) s = .next t ∧ (getChn t n).count = c.count - b.2.2 ∧
      (getChn t n).nextBeat = c.nextBeat + 1 ∧ (getChn t n).beats = c.beats ++ [⟨c.nextBeat, b.1, b.2.1, b.2.2, none, false⟩] ∧
      (srcPcie d = false → localMem s b.1 = true → t.tree = s.tree)) ∧
  (∀ (n k : Nat) (d : Desc) (b : Beat) (bs : List Byte) (res : ReadResult) (u s : State), (getChn s n).desc = some d →
    (getChn s n).beats.find? (fun x => x.id == k && x.data.isNone && !x.issued) = some b → b.dst ≠ deadDst → b.dst ≠ flushDst →
    readAnswer s (srcPcie d) b.src b.len (getChn s n).zone res = (.ok bs, u) →
    let v := updChn u n (fun c => { c with beats := c.beats.map (fun x => if x.id = k then { x with data := some bs } else x) })
    ∃ t, exec (.moverReadData n k res) s = .next t ∧ t = tryWriteBack (advanceChn 65 v n) n) ∧
  (∀ (n k : Nat) (d : Desc) (b : Beat) (bs : List Byte) (s : State), (getChn s n).desc = some d →
    (getChn s n).beats.find? (fun x => x.id == k && x.data.isNone && !x.issued) = some b → b.dst = flushDst →
    ∃ t, exec (.moverReadData n k (.ok bs)) s = .next t ∧
      t = tryWriteBack (updChn s n (fun c => { c with beats := c.beats.filter (fun x => x.id != k) })) n) ∧
  (∀ (n k : Nat) (data : List Byte) (s : State), ∃ t, exec (.addata n k data) s = .next t ∧
    t = readReturns (answerRead s n) n k (.ok data)) ∧
  (∀ (n k : Nat) (b : Beat) (d : Desc) (u s : State), (getChn s n).beats.find? (fun x => x.id == k && x.issued) = some b →
    (getChn s n).desc = some d → transforms d = false → landBeat s n d b = (.ok [], u) → (openIds (getChn s n)).contains k = false →
    let v := updChn u n (fun c => { dropBeat c k with confirmed := c.confirmed + (b.data.getD []).length })
    ∃ t, exec (.moverWriteConfirm n k) s = .next t ∧ t = tryWriteBack { v with mov := { v.mov with
      beats := Table.upd zeroOf v.mov.beats (n % 16) (fun x => satAdd 32 x 1) } } n) ∧
  (∀ (n k code det : Nat) (b : Beat) (s : State),
    (getChn s n).beats.find? (fun x => x.id == k && x.issued == false) = some b → code ≠ 0x051B →
    let u := updChn s n (fun c => { c with beats := c.beats.filter (fun x => x.id != k) })
    ∃ t, exec (.moverBusError n k false code det) s = .next t ∧
      t = tryWriteBack (failChn u n k code det (lineDown b.src) false 0) n) ∧
  (∀ (n kind : Nat) (b : Beat) (s : State),
    (getChn s n).beats.find? (fun x => x.data.isNone && !x.issued) = some b →
    ∃ t, exec (.aderr n kind) s = .next t ∧
      t = busError (answerRead s n) n b.id false (aderrCode kind).1 (aderrCode kind).2) ∧
  (∀ (n st code idx : Nat) (w : Word) (s : State), (getChn s n).wb = some (st, code, w, idx, 0) → opChannel s n = false →
    let u := updChn s n (fun c => { c with
      head := (c.head + 1) % 2 ^ 32, wb := none, desc := none, failed := none, ended := false })
    ∃ t, exec (.writeBackVisible n) s = .next t ∧ t = retireChn u n) ∧
  (∀ (n : Nat) (s : State), n < 1024 → chnStopping (getChn s n) = true → (getChn s n).paused = false →
    drained (getChn s n) = true → (getChn s n).desc = none → (getChn s n).eng = none → (∀ x ∈ s.chs.ops, x.2.mover ≠ some n) →
    ∃ t, exec (.channelPaused n) s = .next t ∧ getChn t n = { getChn s n with paused := true }) ∧
  ∀ (q : IoReq) (e : Nat) (v : Word) (s : State), e < 16 → s.power.pwrOk = true →
    (v.bit 0 = true → s.mov.disable.testBit e = false → (s.bnd.mov.testBit e = false ∨ q.world = true) →
      (∀ k < 64, (getChn s (16 * k + e)).en = false ∧ (getChn s (16 * k + e)).desc = none) →
      ∃ t, exec (.movCtlDisable q e v) s = .next t ∧ t.mov.disable = s.mov.disable ||| 2 ^ e ∧
        (∀ k < 64, (getChn t (16 * k + e)).halted = true ∧ (getChn t (16 * k + e)).dead = true ∧
          (getChn t (16 * k + e)).errCode = 0x0526) ∧
        ∀ n, n % 16 ≠ e → getChn t n = getChn s n) ∧
    (v.bit 0 = false → s.mov.disable.testBit e = true → ∃ t, exec (.movCtlDisable q e v) s = .next t ∧
      t.mov = { s.mov with disable := s.mov.disable - 2 ^ e })

/-- An engine whose verifier finds a mismatch ends the stream with detail 1 and class C2; a beat that a pipeline fails
ends it with detail 0x10. A rebuilt dictionary lets the job go on in its kind where its record and its anchor are
intact, and ends the stream with detail 7 or 6 where not. The first waiting cipher job takes the lowest idle pipeline;
a job that has held one for 2^14 mt while another waits gives it up at its boundary. CMP_CHCFG discards a stopped
channel's stream, and the offs of engines and pipelines are taken unless all would be. A bonded CIP_KCMT commits a
load or a scrub; the commit is done when no pipeline holds the slot's old generation. (R400, R406, R408, R413, R417,
R419, R420, R427, R430, R432) -/
def Obligations.EnginesAndKeys : Prop :=
  (∀ (n e : Nat) (d : Desc) (st : LzStream) (b : Beat) (bs : List Byte) (co : Bool) (s : State),
    let c := getChn s n
    c.desc = some d → c.eng = some e → c.stream = some st → turnBeat c = some (b, bs) → d.comp = 1 → c.failed = none →
    c.wb = none → (getEng s e).job ≠ 5 → (d.cipher = 0 ∨ c.pipe.isSome) →
    (∃ t, exec (.compressionBeat n false co) s = .next t ∧ t = tryWriteBack (streamFail (verifyFail s e c.zone) n 0x01) n) ∧
    (d.cipher = 0 → decantWaits (compressBeat s n d b bs st) = false → st.kind = 1 →
      ∃ t, exec (.compressionBeat n true co) s = .next t ∧ t = tryWriteBack (compressBeat s n d b bs st) n)) ∧
  (∀ (n e : Nat) (d : Desc) (st : LzStream) (s : State),
    let c := getChn s n
    c.desc = some d → c.eng = some e → c.stream = some st → (getEng s e).job = 5 → opChannel s n = true →
    let u := updEng s e (fun x => { x with job := st.kind })
    ((anchorExtents st).length < 16 → ∃ t, exec (.anchorRebuildDone n true true) s = .next t ∧ t = u) ∧
    (∃ t, exec (.anchorRebuildDone n false true) s = .next t ∧ t = tryWriteBack (streamFail u n 0x07) n) ∧
    ∃ t, exec (.anchorRebuildDone n true false) s = .next t ∧ t = tryWriteBack (streamFail u n 0x06) n) ∧
  (∀ (n e : Nat) (q : List Nat) (s : State), s.cip.queue = n :: q → idlePipe s = some e →
    ∃ t, exec .cipherPipelineAssign s = .next t ∧ t.cip.queue = q ∧ (getChn t n).pipe = some e ∧
      (getPipe t e).channel = n ∧ (getPipe t e).since = now s ∧ (getPipe t e).yielding = false ∧
      (∀ x, (getChn s n).cipher = some x → (getPipe t e).job = x.mode + 1)) ∧
  (∀ (e : Nat) (d : Desc) (s : State),
    let p := getPipe s e
    let c := getChn s p.channel
    p.job ≠ 0 → s.cip.queue ≠ [] → 2 ^ 14 ≤ (now s + 2 ^ 64 - p.since) % 2 ^ 64 → c.desc = some d → d.comp = 0 →
    ((atBoundary c d = false ∨ ¬ (∀ b ∈ c.beats, b.issued = true)) → ∃ t, exec (.cipherYield e) s = .next t ∧
      getPipe t e = { p with yielding := true }) ∧
    (atBoundary c d = true → (∀ b ∈ c.beats, b.issued = true) → c.failed = none → c.ended = false → c.eng = none → c.pipe = some e →
      p.channel ∉ s.cip.queue → ∃ t, exec (.cipherYield e) s = .next t ∧ (getChn t p.channel).pipe = none ∧ t.cip.queue = s.cip.queue ++ [p.channel])) ∧
  (∀ (q : IoReq) (n : Nat) (v : Word) (s : State), n < 1024 → (getChn s n).desc = none → v.bit 63 = true →
    opChannel s n = false → s.power.pwrOk = true →
    ∃ t, exec (.cmpChcfgDiscard q n v) s = .next t ∧ getChn t n = { getChn s n with
      thr := v.field 15 8, sync := v.bit 2, clear := v.bit 1, stream := none, cipher := none }) ∧
  (∀ (q : IoReq) (v : Word) (s : State), q.world = true → v.field 7 0 ≠ 0xFF → s.power.pwrOk = true →
    (∃ t, exec (.cmpCtlEngOff q v) s = .next t ∧ t.cmp = { s.cmp with
      ioThr := v.field 39 32, ioSync := v.bit 9, ioClear := v.bit 8, engOff := v.field 7 0 }) ∧
    ∃ t, exec (.cipCtlOff q v) s = .next t ∧ t.cip = { s.cip with inlLimit := v.field 39 32, off := v.field 7 0 }) ∧
  (∀ (q : IoReq) (v : Word) (s : State), q.world = true → s.cip.kstBusy = false → s.power.pwrOk = true →
    (v.field 1 0 = 1 → ∃ t, exec (.cipKcmtLoad q v) s = .next t ∧
      t = commitLoad s (v.field 27 16) (v.bit 4) (kldKey s 0) (kldKey s 4) (v.field 63 32) none) ∧
    (v.field 1 0 = 2 → ∃ t, exec (.cipKcmtScrub q v) s = .next t ∧ t = commitScrub s (v.field 27 16) none)) ∧
  ∀ s : State, s.cip.kstBusy = true → keySettled s s.cip.kstSlot = true → s.cip.kstMbx = none →
    ∃ t, exec .keyCommitDone s = .next t ∧ t = { s with cip := { s.cip with kstBusy := false, kstMbx := none } }

/-- Held ring entries are posted again and none stays held. ZW_SEND from the zone or zone 0 posts kind 7 with its
vector; from another zone it is recorded. A step of a zone reset that is done starts the next one here and tells the
others; a participant reports to the coordinator; step 8 finishes; step 3 over its budget frees what waits for a slot.
BND_OWN and DBG_EN take the bonded world. A debug request that DBG_EN permits changes nothing, another is class C0;
the flash only while Relrax does not run. A locked watchdog that expires resets the module. A doorbell of a mailbox
takes the command; MBZ_RING is written while nothing is busy. A decided command completes: its result, cmp_seq and
error are written, busy clears, done sets. A result from a target ends its forward; a forward with no answer for 2^22
mt goes out again, and after 2^26 mt ends with TARGET_TIMEOUT. (R446, R454, R476, R478, R486, R487, R489, R490, R491,
R475) -/
def Obligations.ZonesRingsAndMailboxesServed : Prop :=
  (∀ (z : Nat) (s : State), ∃ t, exec (.ringHeadReread z) s = .next t ∧
    t = (getZone s z).held.foldl (fun s e => postRing (reporter 8) s e false) (updZone s z (fun x => { x with held := [] }))) ∧
  (∀ (q : IoReq) (z : Nat) (v : Word) (s : State), z < 4096 → s.power.pwrOk = true →
    (q.zone ≠ z → q.zone ≠ 0 → ∃ t, exec (.zwSend q z v) s = .next t ∧ t = discard s q (offZw z)) ∧
    (∀ ws u, (q.zone = z ∨ q.zone = 0) → zoneEntry (reporter 8) s z = (some ws, u) → v.field 11 0 ≤ entryNvc ws →
      ∃ t, exec (.zwSend q z v) s = .next t ∧ t = postEntry (reporter 8) (issueStamp u 0x62).2
        ⟨z, v.field 11 0, 7, v.field 42 32, (issueStamp u 0x62).1,
          BitVec.ofNat 64 (q.vcid % 4096 + q.zone % 4096 * 2 ^ 12)⟩)) ∧
  (∀ (z k : Nat) (r : ZoneRst) (s : State), (getZone s z).rst = some r → r.step = k → resetStepDone s z k = true →
    (stampDev r.stamp = s.devId → k ≠ 8 → ∃ t, exec (.zoneResetStepDone z k) s = .next t ∧
      t = startResetStep (tellStep s z (k + 1) r.stamp) z (k + 1)) ∧
    (stampDev r.stamp = s.devId → k = 8 → ∃ t, exec (.zoneResetStepDone z k) s = .next t ∧ t = finishReset s z r) ∧
    (stampDev r.stamp ≠ s.devId → ∃ t, exec (.zoneResetStepDone z k) s = .next t ∧
      told s t .mbx (stampDev r.stamp) [BitVec.ofNat 64 (s.devId * 2 ^ 48 + 3 * 2 ^ 46 + z * 2 ^ 32 + 2 ^ 31), r.stamp, 0,
        BitVec.ofNat 64 z, BitVec.ofNat 64 k] ∧
      (k = 8 → (getZone t z).state = 3 ∧ (getZone t z).rst = none ∧
        (getZone t z).resets = satAdd 32 (getZone s z).resets 1))) ∧
  (∀ (z : Nat) (r : ZoneRst) (s : State), (getZone s z).rst = some r → r.step = 3 → stepBudget 3 ≤ since s r.stepAt →
    ∃ t, exec (.zoneResetStepBudget z) s = .next t ∧ (∀ o ∈ t.chs.ops, o.2.jr.zone = z → o.2.wait ≠ .slot) ∧
      ∀ o ∈ s.chs.ops, (∀ x ∈ s.chs.ops, x.1 = o.1 → x.2.jr.zone ≠ z) → o ∈ t.chs.ops) ∧
  (∀ (q : IoReq) (v : Word) (s : State), s.power.pwrOk = true →
    (q.world = true → ∃ t, exec (.bndOwnWrite q v) s = .next t ∧ t = { s with bnd := { s.bnd with
      cip := v.field 51 44, cmp := v.field 43 36, mov := v.field 35 20, quad := v.field 19 16, clus := v.field 15 0 } }) ∧
    (q.world = false → ∃ t, exec (.bndOwnWrite q v) s = .next t ∧ t = rwbIgnored s q 0x200030)) ∧
  (∀ (q : IoReq) (n : Nat) (v : Word) (s : State), n < 272 → s.power.pwrOk = true →
    let u := updCore s n (fun c => { c with dbgOi := v.bit 1, dbgOn := v.bit 0 })
    (q.world = true → s.part.fuseB = false → ∃ t, exec (.dbgEnWrite q n v) s = .next t ∧ onlyCore s t n ∧
      getCore t n = { getCore s n with dbgOi := v.bit 1, dbgOn := v.bit 0, dbgBi := v.bit 3, dbgBn := v.bit 2 }) ∧
    (q.world = true → s.part.fuseB = true → ∃ t, exec (.dbgEnWrite q n v) s = .next t ∧ t = u) ∧
    (q.world = false → ∃ t, exec (.dbgEnWrite q n v) s = .next t ∧ t = rwbIgnored u q (coreWindow n + 0x18))) ∧
  (∀ (n : Nat) (inv : Bool) (s : State),
    (n < 272 → debugPermitted (getCore s n) inv = true → ∃ t, exec (.jtagRequest (.debug n inv)) s = .next t ∧ t = s) ∧
    (debugPermitted (getCore s n) inv = false → ∃ t, exec (.jtagRequest (.debug n inv)) s = .next t ∧
      t = faultAt s 0x14 0 0 0 0 2 0) ∧
    (s.rlx.running = false → ∃ t, exec (.jtagRequest .flash) s = .next t ∧ t = s) ∧
    ∃ t, exec (.jtagRequest .boundary) s = .next t ∧ t = s) ∧
  (∀ (straps : Straps) (s : State), s.bnd.wdgArmed = true → s.flt.checkstop = false →
    (now s + 2 ^ 64 - s.bnd.wdgExp) % 2 ^ 64 < 2 ^ 63 →
    ∃ t, exec (.bondedWatchdogExpiry straps) s = .next t ∧
      t = moduleReset (logAdd s 0x0042 s.bnd.wdgStamp
        [BitVec.ofNat 64 s.bnd.wdgExp, s.bnd.wdgStamp, BitVec.ofNat 64 s.bnd.wdgCore]) straps 4) ∧
  (∀ (q : IoReq) (v : Word) (s : State), s.power.standby = true → v.bit 0 = true →
    (∃ t, exec (.mbxDbRing .host q v) s = .next t ∧ t = ringBox s .host (boxKind s .host) q.zone (getBox s .host).cmd) ∧
    (q.world = true → ∃ t, exec (.mbxDbRing .bonded q v) s = .next t ∧
      t = ringBox s .bonded (boxKind s .bonded) q.zone (getBox s .bonded).cmd) ∧
    (q.world = false → ∃ t, exec (.mbxDbRing .bonded q v) s = .next t ∧ t = rwbIgnored s q 0xA00040)) ∧
  (∀ (q : IoReq) (z : Nat) (v : Word) (s : State), z < 4096 → s.power.pwrOk = true →
    ((q.zone = z ∨ q.zone = 0) → v.bit 0 = true → ∃ t, exec (.mbzDbRing q z v) s = .next t ∧ t = ringZone s z) ∧
    (q.zone ≠ z → q.zone ≠ 0 → ∃ t, exec (.mbzDbRing q z v) s = .next t ∧ t = discard s q (offRingReg z 8)) ∧
    (q.zone = 0 → (getRing s z).box.acc = none → ∃ t, exec (.mbzRingWrite q z v) s = .next t ∧
      getRing t z = { getRing s z with
        base := BitVec.ofNat 64 (2 ^ 9 * (v.toNat / 2 ^ 9)), en := v.bit 8
        m := if 2 ≤ v.field 3 0 ∧ v.field 3 0 ≤ 10 then v.field 3 0 else 2
        head := 0, fault := false }) ∧
    (q.zone ≠ 0 ∨ (getRing s z).box.acc.isSome = true → ∃ t, exec (.mbzRingWrite q z v) s = .next t ∧
      t = discard s q (offRingReg z 0))) ∧
  (∀ (m : Mbx) (a : Accepted) (r : CmdResult) (s : State), (getBox s m).acc = some a → a.outcome = some r →
    (m = .host ∨ m = .bonded) → cmdCode a.words ≠ 0x0B04 →
    ∃ t, exec (.relraxCommandDone m) s = .next t ∧ getBox t m = { getBox s m with
      acc := none, cmpSeq := cmdSeq a.words, error := decide (r.error ≠ 0), done := true, res := resWords a.words r }) ∧
  (∀ (msg : MbxMsg) (f : Forward) (s : State), s.rlx.running = true → msg.result = true →
    s.rlx.forwards.find? (fun f => f.stamp == msg.stamp) = some f →
    (∀ g ∈ s.rlx.forwards, g.stamp ≠ msg.stamp → g.mbx ≠ f.mbx) →
    ∃ t, exec (.mbx msg) s = .next t ∧ t = setOutcome { s with rlx := { s.rlx with
      forwards := s.rlx.forwards.filter (fun g => g.stamp != msg.stamp) } } f.mbx
        ⟨(wordAt msg.words 0).field 31 16, (msg.words.drop 1).take 30⟩) ∧
  (∀ (msg : MbxMsg) (s : State), s.rlx.running = true → msg.result = false →
    (msg.kind ≠ 3 ∨ cmdCode msg.words ≠ 0x0205) → (∀ x ∈ s.rlx.served, x.stamp ≠ msg.stamp) →
    ∃ t, exec (.mbx msg) s = .next t ∧ t = acceptCmd { s with rlx := { s.rlx with
      served := s.rlx.served ++ [⟨msg.stamp, msg.origin, msg.kind, Mailbox.reset⟩] } } (.master msg.stamp) msg.kind msg.zone
        msg.words) ∧
  (∀ (f : Forward) (s : State), s.rlx.forwards = [f] → 2 ^ 22 ≤ since s f.sentAt →
    ∃ t, exec .mbxForwardResend s = .next t ∧ t.rlx.forwards = [{ f with sentAt := now s }] ∧
      told s t .mbx f.target ([BitVec.ofNat 64 (s.devId * 2 ^ 48 + f.kind % 4 * 2 ^ 46 + f.zone % 4096 * 2 ^ 32), f.stamp] ++
        f.words)) ∧
  (∀ s : State, (∀ f ∈ s.rlx.forwards, since s f.sentAt < 2 ^ 22) → ∃ t, exec .mbxForwardResend s = .next t ∧ t = s) ∧
  ∀ (st : Word) (f : Forward) (s : State), s.rlx.forwards.find? (fun f => f.stamp == st) = some f → 2 ^ 26 ≤ since s f.since →
    ∃ t, exec (.mbxTargetTimeout st) s = .next t ∧ t = setOutcome { s with rlx := { s.rlx with
      forwards := s.rlx.forwards.filter (fun g => g.stamp != st) } } f.mbx (errRes 0x0007)

/-- A row whose command is not ready in its mailbox changes nothing; one with a reserved parameter bit set ends with
BAD_PARAM. Otherwise each command of the groups 0x01xx and 0x02xx has its effect and answers its result words: the
identity, inventory and system words; a register read or written, or ACCESS for an access that is discarded; a zone's
states; the start of a zone reset, with which the command goes on; a vcore bound to an available core, unbound,
started from its start image and stopped, each once its core has nothing left to store, for which the command waits;
an image copied, and released. (R494, R497, R498, R499, R500, R438, R441, R166) -/
def Obligations.CommandsOfZonesAndRegisters : Prop :=
  (∀ (i : Instr) (m : Mbx) (code : Nat) (s : State), cmdRow i = some (m, code) →
    (readyCmd s m code = none → ∃ t, exec i s = .next t ∧ t = s) ∧
    ∀ a, readyCmd s m code = some a → paramsOk a.words = false →
      ∃ t, exec i s = .next t ∧ t = setOutcome (startCmd s m) m (errRes 0x0002)) ∧
  ∀ (m : Mbx) (a : Accepted) (s : State),
    let u := startCmd s m
    let z := (cmdP a.words 1).field 11 0
    let v := (cmdP a.words 1).field 23 12
    let off := (cmdP a.words 1).field 31 0
    let q := cmdReq (askZone u m a)
    let x := getVcore u z v
    let n := (cmdP a.words 1).field 8 0
    (runs s m 0x0101 a → ∃ t, exec (.identity m) s = .next t ∧ answered t u m [idnPart, idnLoc u,
      BitVec.ofNat 64 ((if u.part.oneTib then 1024 else 2048) * 2 ^ 48 + usableBytes u / 2 ^ 30 * 2 ^ 32 + u.part.fuseB.toNat),
      u.part.serial, BitVec.ofNat 64 (u.rlx.version % 2 ^ 32 * 2 ^ 32 + u.chs.custImage % 2 ^ 32)]) ∧
    (runs s m 0x0102 a → ∃ t, exec (.inventory m) s = .next t ∧ answered t u m
      ([BitVec.ofNat 64 (u.quadOnline % 16 * 2 ^ 16 + u.spareInUse % 2 ^ 16), memChon u, hzStat u,
        BitVec.ofNat 64 (cpOk u * 2 ^ 32 + cipOos u * 2 ^ 8 + cmpOos u), sxtStat u] ++ (List.range 17).map (coreStates u))) ∧
    (runs s m 0x0103 a → ∃ t, exec (.system m) s = .next t ∧ answered t u m
      [merStat u, vinStat u, u.vin.digest, hzCfg u, BitVec.ofNat 64 u.vin.inventory.length]) ∧
    (∀ w, runs s m 0x0104 a → readLocal u q off (regSize off) = some w → ∃ t, exec (.regRead m) s = .next t ∧
      answered t u m [BitVec.ofNat 64 w]) ∧
    (runs s m 0x0104 a → readLocal u q off (regSize off) = none → ∃ t, exec (.regRead m) s = .next t ∧
      t = setOutcome (discard u q off) m (errRes 0x000B)) ∧
    (∀ w, runs s m 0x0105 a → writeLocal u q off (regSize off) (cmdP a.words 2).toNat = some w →
      ∃ t, exec (.regWrite m) s = .next t ∧ answered t w m []) ∧
    (runs s m 0x0105 a → writeLocal u q off (regSize off) (cmdP a.words 2).toNat = none →
      ∃ t, exec (.regWrite m) s = .next t ∧ t = setOutcome (discard u q off) m (errRes 0x000B)) ∧
    (runs s m 0x0201 a → z ≠ 0 → (getZone u z).state = 0 → ∃ t, exec (.zoneCreate m) s = .next t ∧
      answered t (updZone u z (fun x => { x with state := 3 })) m []) ∧
    (runs s m 0x0202 a → z ≠ 0 → (getZone u z).state = 3 → ∃ t, exec (.zoneActivate m) s = .next t ∧
      answered t (updZone u z (fun x => { x with state := 1 })) m []) ∧
    (let y := (zoneVcores u z).foldl (fun s e => quiesceVcore s z e.1) u
     runs s m 0x0203 a → z ≠ 0 → (getZone u z).state = 1 →
     ((∀ e ∈ zoneVcores y z, e.2.state ≠ 2 ∧ e.2.state ≠ 3 ∧ coreDrained (getCore y e.2.core) = true) → ∃ t, exec (.zoneStop m) s = .next t ∧
       answered t (updZone y z (fun x => { x with state := 3 })) m []) ∧
     ((∃ e ∈ zoneVcores y z, e.2.state = 2 ∨ e.2.state = 3 ∨ coreDrained (getCore y e.2.core) = false) → ∃ t, exec (.zoneStop m) s = .next t ∧ t = (waitCmd y m).2)) ∧
    (runs s m 0x0204 a → z ≠ 0 → (getZone u z).state = 3 → (zoneHolds u z).1 = false →
      ∃ t, exec (.zoneDestroy m) s = .next t ∧ answered t (updZone (zoneHolds u z).2 z (fun x => { x with state := 0 })) m []) ∧
    (runs s m 0x0204 a → z ≠ 0 → (getZone u z).state = 3 → (zoneHolds u z).1 = true →
      ∃ t, exec (.zoneDestroy m) s = .next t ∧ t = setOutcome (zoneHolds u z).2 m (errRes 0x0202)) ∧
    (∀ st w, runs s m 0x0205 a → notOwner u m a z = false → requestReset u z (some m) (boxKind u m) a.zone = (some st, w) →
      ∃ t, exec (.zoneReset m) s = .next t ∧ t = w) ∧
    (runs s m 0x0206 a → notOwner u m a z = false → ∃ t, exec (.zoneStatus m) s = .next t ∧
      answered t u m [BitVec.ofNat 64 (getZone u z).state, zwStat u z]) ∧
    (∀ e w, runs s m 0x0207 a → zoneEntry (reporter 8) u z = (e, w) →
      (cmdP a.words 2).field 8 0 < 272 → (∀ ws, e = some ws → v ≤ entryNvc ws) → (e = none → v ≤ 4095) →
      ((getZone w z).state = 1 ∨ (getZone w z).state = 3) → (getVcore w z v).state = 0 →
      coreAvailable w ((cmdP a.words 2).field 8 0) = true →
      ∃ t, exec (.vcoreBind m) s = .next t ∧
        answered t (updVcore w z v (fun _ => ⟨(cmdP a.words 2).field 8 0, 1, false⟩)) m []) ∧
    (runs s m 0x0208 a → (x.state = 1 ∨ x.state = 4) → ∃ t, exec (.vcoreUnbind m) s = .next t ∧
      answered t (updVcore u z v (fun _ => ⟨0, 0, false⟩)) m []) ∧
    (∀ w, runs s m 0x0209 a → notOwner u m a z = false → (getZone u z).state = 1 → x.state = 1 → coreOnline u x.core = true →
      u.vin.divergent = false → coreDrained (getCore u x.core) = true → startVcore u z v (cmdP a.words 2) = (none, w) →
      ∃ t, exec (.vcoreStart m) s = .next t ∧ answered t w m []) ∧
    (∀ r1 r2 w, runs s m 0x0209 a → notOwner u m a z = false → (getZone u z).state = 1 → x.state = 1 →
      coreOnline u x.core = true → u.vin.divergent = false → coreDrained (getCore u x.core) = true → startVcore u z v (cmdP a.words 2) = (some (r1, r2), w) →
      ∃ t, exec (.vcoreStart m) s = .next t ∧
        t = setOutcome w m ⟨0x0205, [BitVec.ofNat 64 r1, BitVec.ofNat 64 r2]⟩) ∧
    (runs s m 0x020A a → notOwner u m a z = false → (x.state = 1 ∨ x.state = 2) →
      let y := quiesceVcore u z v
      (coreDrained (getCore y (getVcore y z v).core) = true → ∃ t, exec (.vcoreStop m) s = .next t ∧ answered t y m []) ∧
      (coreDrained (getCore y (getVcore y z v).core) = false → ∃ t, exec (.vcoreStop m) s = .next t ∧ t = (waitCmd y m).2)) ∧
    (∀ im w, runs s m 0x020B a → n < 272 → Assoc.get u.sxt.images n = some im →
      (askZone u m a = 0 ∨ im.zone = askZone u m a) →
      cmdPut (nextFree u) (cmdP a.words 2) (imageOf u n im (imageBonded im && boxKind u m != 2)) (askZone u m a)
        (boxKind u m == 2) = (true, w) →
      ∃ t, exec (.imageRead m) s = .next t ∧ answered t w m [imageWhere w n im, imageFlags im]) ∧
    (∀ im, runs s m 0x020C a → n < 272 → Assoc.get u.sxt.images n = some im →
      (askZone u m a = 0 ∨ im.zone = askZone u m a) → ∃ t, exec (.imageRelease m) s = .next t ∧
        answered t { u with sxt := { u.sxt with images := Assoc.del u.sxt.images n } } m [])

/-- PAGE_ASSIGN, PAGE_RELEASE and PAGE_MAP take their pages in ascending order until the first refusal, PAGE_ASSIGN
and PAGE_RELEASE once no cache holds a line of them, for which they wait; PAGE_PIN sets the pin; CELLAR takes its list
of pages; POOL_ADD takes its frames from the list of zone 0 and answers position and first block, POOL_REMOVE gives
them back; LIST_MOVE moves all frames or none; LIST_MARK and LIST_READ act on a list; MEM_RETRAIN goes on with the
retraining; KEY_LOAD and KEY_SCRUB commit a slot; GRANULE_TAG tags a granule of one zone, GRANULE_UNTAG zeroes it and
clears the tag, both once its lines have been called in. (R440, R501, R253, R255, R256, R465, R508, R419) -/
def Obligations.CommandsOfMemoryAndKeys : Prop :=
  ∀ (m : Mbx) (a : Accepted) (s : State),
    let u := startCmd s m
    let p1 := (cmdP a.words 1).toNat
    let n := (cmdP a.words 2).toNat
    let slot := (cmdP a.words 1).field 11 0
    (∀ d e w y (f : State → Nat → Nat → Except Nat State) (i : Instr),
      ((i = .pageAssign m ∧ f = assignPage ∧ runs s m 0x0301 a ∧ d = (cmdP a.words 3).toNat ∧
          callPages u (rangePages u a (some d)) = (true, y)) ∨
       (i = .pageRelease m ∧ f = releasePage ∧ runs s m 0x0302 a ∧ d = 0 ∧ callPages u (rangePages u a none) = (true, y)) ∨
       (i = .pageMap m ∧ f = mapPage ∧ runs s m 0x0303 a ∧ d = (cmdP a.words 3).toNat ∧ y = u)) → n = 1 → p1 < usablePages y →
      (f y p1 d = .ok w → ∃ t, exec i s = .next t ∧ answered t w m [1, 0]) ∧
      (f y p1 d = .error e → ∃ t, exec i s = .next t ∧ t = setOutcome y m ⟨e, [0, BitVec.ofNat 64 p1]⟩)) ∧
    (∀ y, runs s m 0x0301 a → callPages u (rangePages u a (some (cmdP a.words 3).toNat)) = (false, y) →
      ∃ t, exec (.pageAssign m) s = .next t ∧ t = (waitCmd y m).2) ∧
    (∀ y, runs s m 0x0302 a → callPages u (rangePages u a none) = (false, y) →
      ∃ t, exec (.pageRelease m) s = .next t ∧ t = (waitCmd y m).2) ∧
    (runs s m 0x0304 a → p1 < usablePages u → notOwner u m a (getPage u p1).zone = false → (getPage u p1).st ≠ 2 →
      ∃ t, exec (.pagePin m) s = .next t ∧ answered t (setPage u p1 { getPage u p1 with pin := (cmdP a.words 2).bit 0 }) m []) ∧
    (∀ ws w, runs s m 0x0305 a → 0 < n → n ≤ 32 → cmdWords u (cmdP a.words 1) n (askZone u m a) false = (some ws, w) →
      let y := updBox w m (fun b => { b with acc := b.acc.map (fun a => { a with results := List.replicate n 0 }) })
      ∃ t, exec (.cellar m) s = .next t ∧ t = runCellar 64 { y with mem := { y.mem with
        cellarings := y.mem.cellarings ++ ws.zipIdx.map (fun x => ⟨x.1.toNat, m, x.2, 0⟩) } } m) ∧
    (∀ p, runs s m 0x0306 a → p1 % 512 = 0 → n ≠ 0 → p1 + 512 * n ≤ usablePages u → freePosition u = some p →
      (poolBlocks u.mem).length + n ≤ 131072 →
      ((getList u 0).frames.filter (fun f => decide (p1 ≤ f ∧ f < p1 + 512 * n))).length = 512 * n →
      let bs := lowBlocks (poolBlocks u.mem) n
      let left := (getList u 0).frames.filter (fun f => !(decide (p1 ≤ f ∧ f < p1 + 512 * n)))
      let y := updList (relink u left) 0 (fun x => { x with frames := left })
      let y := { y with mem := { y.mem with pool := Assoc.put y.mem.pool p ⟨p1 / 512, n, bs⟩ } }
      ∃ t, exec (.poolAdd m) s = .next t ∧
        answered t y m [BitVec.ofNat 64 y.mem.pool.length, BitVec.ofNat 64 p, BitVec.ofNat 64 (bs.headD 0)]) ∧
    (∀ r, runs s m 0x0307 a → Assoc.get u.mem.pool ((cmdP a.words 1).field 3 0) = some r →
      (∀ e ∈ u.mem.usedGran, e.1 / 16384 ∉ r.blocks) → ∃ t, exec (.poolRemove m) s = .next t ∧
        answered t ((List.range (512 * r.units)).foldl (fun s i => pushFrame s 0 (512 * r.first + i))
          { u with mem := { u.mem with pool := Assoc.del u.mem.pool ((cmdP a.words 1).field 3 0) } }) m []) ∧
    (let held := (getList u p1).frames.length
     (runs s m 0x0308 a → held < (cmdP a.words 3).toNat → ∃ t, exec (.listMove m) s = .next t ∧
       t = setOutcome u m ⟨0x030A, [0, BitVec.ofNat 64 held]⟩) ∧
     (runs s m 0x0308 a → p1 ≠ n → (cmdP a.words 3).toNat ≤ held →
       (getList u p1).lowMark < held - (cmdP a.words 3).toNat → ∃ t, exec (.listMove m) s = .next t ∧
       (getList t p1).frames = (getList s p1).frames.drop (cmdP a.words 3).toNat ∧
       (getList t n).frames = ((getList s p1).frames.take (cmdP a.words 3).toNat).reverse ++ (getList s n).frames) ∧
     (runs s m 0x0308 a → p1 = n → (cmdP a.words 3).toNat ≤ held → (getList u p1).lowMark < held →
       ∃ t, exec (.listMove m) s = .next t ∧ (getList t p1).frames =
         ((getList s p1).frames.take (cmdP a.words 3).toNat).reverse ++ (getList s p1).frames.drop (cmdP a.words 3).toNat)) ∧
    (runs s m 0x0309 a → ∃ t, exec (.listMark m) s = .next t ∧ answered t (updList u p1 (fun x => { x with lowMark := n })) m []) ∧
    (runs s m 0x030A a → notOwner u m a p1 = false → ∃ t, exec (.listRead m) s = .next t ∧
      let l := getList u p1
      answered t u m [BitVec.ofNat 64 (l.frames.length % 2 ^ 29 * 2 ^ 32 + l.frames.headD 0 % 2 ^ 29),
        BitVec.ofNat 64 (l.lowSent.toNat * 2 ^ 63 + l.lowMark % 2 ^ 29 * 2 ^ 32)]) ∧
    (runs s m 0x030B a → ∃ t, exec (.memRetrain m) s = .next t ∧ t = u) ∧
    (∀ ws w, runs s m 0x0901 a → slotNamed u a slot = true → u.cip.kstBusy = false →
      keyBlockOk u a (cmdP a.words 2) = true → cmdWords u (cmdP a.words 2) 9 a.zone true = (some ws, w) →
      let k1 := keyOf (ws.take 4)
      let k2 := keyOf ((ws.drop 4).take 4)
      (loadRefused w slot ((cmdP a.words 1).bit 16) k1 k2 = none → ∃ t, exec (.keyLoad m) s = .next t ∧
        t = commitLoad w slot ((cmdP a.words 1).bit 16) k1 k2 ((wordAt ws 8).field 31 0) (some m)) ∧
      (∀ r, loadRefused w slot ((cmdP a.words 1).bit 16) k1 k2 = some r → ∃ t, exec (.keyLoad m) s = .next t ∧
        t = setOutcome (commitLoad w slot ((cmdP a.words 1).bit 16) k1 k2 0 none) m (errRes (commitError r)))) ∧
    (runs s m 0x0902 a → slotNamed u a slot = true → u.cip.kstBusy = false → slot ≠ 0 →
      ∃ t, exec (.keyScrub m) s = .next t ∧ t = commitScrub u slot (some m)) ∧
    (∀ z y, runs s m 0x0903 a → 512 * p1 < usablePages u → granZone u p1 = some z → (a.zone = 0 ∨ a.zone = z) →
      (callPages u (granPages p1) = (true, y) → ∃ t, exec (.granuleTag m) s = .next t ∧
        answered t (setTag ((granPages p1).foldl backInvPage y) p1 (z + 1)) m []) ∧
      (callPages u (granPages p1) = (false, y) → ∃ t, exec (.granuleTag m) s = .next t ∧ t = (waitCmd y m).2)) ∧
    (∀ y, runs s m 0x0904 a → 512 * p1 < usablePages u → granTag u p1 ≠ 0 → (a.zone = 0 ∨ a.zone = granTag u p1 - 1) →
      (callPages u (granPages p1) = (true, y) → ∃ t, exec (.granuleUntag m) s = .next t ∧
        answered t (setTag ((granPages p1).foldl
          (fun s p => zeroFrame (backInvPage s p) (getPage s p).loc (granTag u p1 - 1)) y) p1 0) m []) ∧
      (callPages u (granPages p1) = (false, y) → ∃ t, exec (.granuleUntag m) s = .next t ∧ t = (waitCmd y m).2))

/-- PORT_STATUS, LOST_READ, HISTORY, LOG_READ, SUB_STATUS and CORE_READ answer the registers, records and entries that
they name. PORT_SET writes HZ_PCTL; PORT_RETRAIN starts a lane's retraining, or leaves it to the next slot epoch where
its pair is not free, and goes on with it. START runs the checks of R336 and hands the operation to a processor, or
waits for room; HALT halts an active operation. REFRESH forgets a cached entry, a zone's on every module. ORPHAN_READ
copies held entries out. FAULT_ACK acknowledges an unacknowledged record; ERR_RELEASE releases ERR_L; LOG_NOTE stores
its text. RETIRE_CLEAR clears a retirement record; CORE_RELIEVE starts a relief with reason 3 and goes on with it, or
waits while the core may not yet rest. (R502, R503, R504, R505, R329, R336, R337, R295, R160) -/
def Obligations.CommandsOfFabricChannelsAndFaults : Prop :=
  ∀ (m : Mbx) (a : Accepted) (s : State),
    let u := startCmd s m
    let p := (cmdP a.words 1).field 3 0
    let k := (cmdP a.words 1).toNat
    let sub := (cmdP a.words 1).field 15 0
    let z := askZone u m a
    let n := (cmdP a.words 1).field 8 0
    (runs s m 0x0401 a → p < 12 → ∃ t, exec (.portStatus m) s = .next t ∧
      answered t u m [hzPst (getPort u p), hzPcnt (getPort u p), hzPfec (getPort u p), hzPdly (getPort u p)]) ∧
    (runs s m 0x0402 a → p < 12 → ∃ t, exec (.portSet m) s = .next t ∧ answered t (writePctl u p (cmdP a.words 2)) m []) ∧
    (let lane := (cmdP a.words 2).toNat
     runs s m 0x0403 a → p < 12 → (getPort u p).state = 2 → (getPort u p).rtLane = none →
      ∃ t, exec (.portRetrain m) s = .next t ∧
        (mayStartLane (getPort u p) lane = true → t = startLane u p lane) ∧
        (mayStartLane (getPort u p) lane = false →
          t = { u with sxt := { u.sxt with laneDue := u.sxt.laneDue ++ [laneKey p lane] } })) ∧
    (runs s m 0x0403 a → p < 12 → ((getPort u p).state ≠ 2 ∨ (getPort u p).rtLane.isSome = true) →
      ∃ t, exec (.portRetrain m) s = .next t ∧ t = setOutcome u m (errRes 0x0401)) ∧
    (runs s m 0x0404 a → ∃ t, exec (.lostRead m) s = .next t ∧
      answered t u m ((List.range 30).map (fun i => if k + i < 1024 then hzLost u (k + i) else 0))) ∧
    (∀ e w cp, runs s m 0x0501 a → u.chs.en = true → u.vin.divergent = false →
      startCheck u z sub (cmdP a.words 2) ((cmdP a.words 1).bit 16) = (.ok e, w) → (getZone w (eZone e)).state ≠ 2 →
      (pickCp w = some cp → ∃ t, exec (.start m) s = .next t ∧
        t = acceptOp w cp sub e (cmdP a.words 2) (cmdP a.words 3) (some m)) ∧
      (pickCp w = none → ∃ t, exec (.start m) s = .next t ∧ t = (waitCmd w m).2)) ∧
    (∀ e w, runs s m 0x0501 a → u.chs.en = true → startCheck u z sub (cmdP a.words 2) ((cmdP a.words 1).bit 16) = (.error e, w) →
      ∃ t, exec (.start m) s = .next t ∧ t = setOutcome w m (errRes e)) ∧
    (∀ e w o, runs s m 0x0502 a → ownSub u m a = (.ok e, w) → getOp w sub = some o → ∃ t, exec (.halt m) s = .next t ∧
      answered t (haltOp w sub 1) m [o.jr.stamp]) ∧
    (∀ e w, runs s m 0x0502 a → ownSub u m a = (.ok e, w) → getOp w sub = none → ∃ t, exec (.halt m) s = .next t ∧
      t = setOutcome w m (errRes 0x0506)) ∧
    (let i := (cmdP a.words 2).toNat
     (runs s m 0x0503 a → k = 0 → i < 65536 → i < nsubOf u → z = 0 → ∃ t, exec (.refresh m) s = .next t ∧
       answered t { u with chs := { u.chs with subCache := Assoc.del u.chs.subCache i } } m []) ∧
     (runs s m 0x0503 a → k = 1 → i < 4096 → z = 0 → (boxKind u m = 3 ∨ otherDevs u = []) →
       ∃ t, exec (.refresh m) s = .next t ∧ answered t (forgetZone u i) m []) ∧
     (runs s m 0x0503 a → k = 1 → i < 4096 → z = 0 → boxKind u m ≠ 3 → otherDevs u ≠ [] →
       ∃ t, exec (.refresh m) s = .next t ∧ t = forwardAll (forgetZone u i) m a.words) ∧
     (runs s m 0x0503 a → k = 2 → (z = 0 ∨ i / 4096 = z) → ∃ t, exec (.refresh m) s = .next t ∧
       answered t { u with chs := { u.chs with vcCache := Assoc.del u.chs.vcCache i } } m [])) ∧
    (∀ c w, runs s m 0x0504 a → copyHeld sub z (cmdP a.words 3).toNat 0 (cmdP a.words 2) u = (some c, w) →
      ∃ t, exec (.orphanRead m) s = .next t ∧
        answered t w m [BitVec.ofNat 64 c, BitVec.ofNat 64 (w.chs.held.filter (seesHeld z)).length]) ∧
    (∀ e w, runs s m 0x0505 a → ownSub u m a = (.ok e, w) →
      (∀ o, getOp w sub = some o → ∃ t, exec (.subStatus m) s = .next t ∧
        answered t w m [chsScst w sub, o.jr.stamp, wordAt (jrWords o.jr) 0]) ∧
      (getOp w sub = none → ∃ t, exec (.subStatus m) s = .next t ∧ answered t w m [chsScst w sub, 0, 0])) ∧
    (let rs := (u.flt.hist.drop k).take 3
     runs s m 0x0601 a → ∃ t, exec (.history m) s = .next t ∧
       answered t u m (padTo 24 (rs.flatMap (fun r => r.words false)) ++ [BitVec.ofNat 64 rs.length])) ∧
    (runs s m 0x0602 a → (findUnack u (cmdP a.words 1)).isSome = true → ∃ t, exec (.faultAck m) s = .next t ∧
      answered t (ackRec u (cmdP a.words 1)) m []) ∧
    (runs s m 0x0602 a → findUnack u (cmdP a.words 1) = none → ∃ t, exec (.faultAck m) s = .next t ∧
      t = setOutcome u m (errRes 0x0601)) ∧
    (∀ i, runs s m 0x0603 a → (List.range 16).find? (fun i => (Table.get segOf u.log.segs i).state != 0 &&
        (Table.get segOf u.log.segs i).seqNo == k / 2 ^ 14) = some i →
      let es := (Table.get segOf u.log.segs i).entries
      let out := (es.drop (k % 2 ^ 14 - 1)).take 3
      0 < k % 2 ^ 14 → k % 2 ^ 14 ≤ es.length → ∃ t, exec (.logRead m) s = .next t ∧
        answered t u m (padTo 24 (out.flatMap LogEntry.words) ++
          [BitVec.ofNat 64 (posAfter (k / 2 ^ 14) (k % 2 ^ 14 + out.length - 1))])) ∧
    (runs s m 0x0604 a → ∃ t, exec (.errRelease m) s = .next t ∧ answered t (releaseErr u) m []) ∧
    (let st := (issueStamp u 0x60).1
     let w := (issueStamp u 0x60).2
     runs s m 0x0605 a → ∃ t, exec (.logNote m) s = .next t ∧ answered t (logPut w (mkEntry w 0x0050
       ((cmdP a.words 5).field 31 0) st [cmdP a.words 1, cmdP a.words 2, cmdP a.words 3, cmdP a.words 4]
       ((cmdP a.words 5).field 63 32))) m [st]) ∧
    (runs s m 0x0701 a → n < 272 → ∃ t, exec (.coreRead m) s = .next t ∧
      answered t u m [sxtCore u n, BitVec.ofNat 64 ((getCore u n).baseline % 256),
        Word.flag (Table.get noFlag u.rlx.flash.retired n) 0]) ∧
    (runs s m 0x0702 a → n < 272 → Table.get noFlag s.rlx.flash.retired n = true → ∃ t, exec (.retireClear m) s = .next t ∧
      ∀ j, Table.get noFlag t.rlx.flash.retired j = (if j = n then false else Table.get noFlag s.rlx.flash.retired j)) ∧
    ∀ zv, runs s m 0x0703 a → n < 272 → spareReady u (coreCluster n) = true → vcoreOn u n = some zv →
      (getVcore u zv.1 zv.2).state = 2 → ∃ t, exec (.coreRelieve m) s = .next t ∧
        (mayRest (getCore u n) = true → t = startRelief u n 3 (now u) (some m)) ∧
        (mayRest (getCore u n) = false → t = (waitCmd u m).2)

/-- MER_SOURCE selects a source on the master, which a locked meridian refuses for a set value. VINTAGE_CHANGE reads
its image, refuses a malformed or invalid one with the item and the rule, and starts the change; CONFIG_READ and
CONFIG_EXPORT answer the vintage and write its image. UCODE_LOAD takes a good image and stores its words when no
operation runs a customer word; UCODE_KEY succeeds once; FLASH_UPDATE stores a good image. DOMAIN_OFF drains a domain
that is not in use, DOMAIN_ON powers one, DOMAIN_CANCEL returns a draining one to ONLINE. POWER_DOWN quiesces the
module and ends when every store has drained and every line is written back. MODULE_RESET ends its command and resets
the module. (R506, R507, R509, R510, R511, R23, R36, R365, R282, R284, R552) -/
def Obligations.CommandsOfVintageImagesAndPower : Prop :=
  ∀ (m : Mbx) (a : Accepted) (s : State),
    let u := startCmd s m
    let src := (cmdP a.words 1).toNat
    let d := (cmdP a.words 1).field 4 0
    let lead := (cmdP a.words 2).toNat
    (runs s m 0x0801 a → src < 3 → (src = 2 → u.mer.locked = false) → isMaster u = true →
      ∃ t, exec (.merSource m) s = .next t ∧ t.mer.src = src ∧ t.mer.holdover = false ∧
      (src = 2 → ppsPresent u = true → t.mer.setVal = some lead) ∧
      (src = 2 → ppsPresent u = false → t.mer.setVal = none ∧ t.mer.ext = lead * 2 ^ 32 ∧ t.mer.slew = 0)) ∧
    (runs s m 0x0801 a → src = 2 → u.mer.locked = true → ∃ t, exec (.merSource m) s = .next t ∧
      t = setOutcome u m (errRes 0x0801)) ∧
    (runs s m 0x0802 a → u.mer.masterId.isSome = true → isMaster u = true → u.vin.prep = none → u.vin.staged = none →
      2 ^ 26 ≤ lead → lead < 2 ^ 63 →
      (∀ c w x, readImage u (cmdP a.words 1) = (some (.ok c), w) → imageFault w c = (none, x) →
        ∃ t, exec (.vintageChange m) s = .next t ∧ t = startChange x c c.vintage ((now u + lead) % 2 ^ 64) (some m)) ∧
      (∀ c w x i r, readImage u (cmdP a.words 1) = (some (.ok c), w) → imageFault w c = (some (i, r), x) →
        ∃ t, exec (.vintageChange m) s = .next t ∧
          t = setOutcome x m ⟨0x0802, [BitVec.ofNat 64 i, BitVec.ofNat 64 r]⟩) ∧
      (∀ i w, readImage u (cmdP a.words 1) = (some (.error i), w) →
        ∃ t, exec (.vintageChange m) s = .next t ∧ t = setOutcome w m ⟨0x0802, [BitVec.ofNat 64 i, 4]⟩)) ∧
    (runs s m 0x0803 a → ∃ t, exec (.configRead m) s = .next t ∧ answered t u m [vinStat u, u.vin.digest, vinAct u]) ∧
    (∀ w, runs s m 0x0804 a → cmdPut u (cmdP a.words 1) (imageWords u.vin.cfg u.vin.vintage) 0 false = (true, w) →
      ∃ t, exec (.configExport m) s = .next t ∧
        answered t w m [BitVec.ofNat 64 (8 * (imageWords u.vin.cfg u.vin.vintage).length)]) ∧
    (∀ ws w, signedImage u (cmdP a.words 1) lead = (some ws, w) →
      (runs s m 0x0A01 a → ∃ t, exec (.ucodeLoad m) s = .next t ∧
        (∀ e, imageRefused w ws [1] lead = some e → t = setOutcome w m (errRes e)) ∧
        (imageRefused w ws [1] lead = none →
          let codes := (wordAt ws 1).field 31 0
          let body := imageBody ws
          let x := acceptVersion w ws
          t = tryUcodeLoad { x with chs := { x.chs with
            custCodes := x.chs.custCodes ^^^ (x.chs.custCodes &&& codes)
            load := some (m, now x, (List.range ((wordAt ws 2).field 31 16)).map (fun i => ((wordAt ws 2).field 15 0 + i,
              (wordAt body (2 * i)).toNat + (wordAt body (2 * i + 1)).toNat * 2 ^ 64)), codes, imageVer ws) } })) ∧
      (runs s m 0x0A03 a → ∃ t, exec (.flashUpdate m) s = .next t ∧
        (∀ e, imageRefused w ws [2, 3, 4] lead = some e → t = setOutcome w m (errRes e)) ∧
        (imageRefused w ws [2, 3, 4] lead = none →
          answered t (storeFlash (acceptVersion w ws) ws) m [BitVec.ofNat 64 (imageVer ws)]))) ∧
    (∀ ws w, runs s m 0x0A02 a → u.rlx.flash.custKey = none → cmdWords u (cmdP a.words 1) 6 0 false = (some ws, w) →
      ∃ t, exec (.ucodeKey m) s = .next t ∧
        answered t { w with rlx := { w.rlx with flash := { w.rlx.flash with custKey := some ws } } } m []) ∧
    (runs s m 0x0A02 a → u.rlx.flash.custKey.isSome = true → ∃ t, exec (.ucodeKey m) s = .next t ∧
      t = setOutcome u m (errRes 0x0801)) ∧
    (runs s m 0x0B01 a → d < 20 → domInUse u d = false → inTransition u d = false →
      (d < 16 → inTransition u (16 + d / 4) = false) →
      ((getDom u d).state = 0 → ∃ t, exec (.domainOff m) s = .next t ∧ answered t u m []) ∧
      ((getDom u d).state = 1 → domBonded u d = false → ∃ t, exec (.domainOff m) s = .next t ∧ t = startOff u d m)) ∧
    (runs s m 0x0B02 a → d < 20 → inTransition u d = false → (d < 16 → (getDom u (16 + d / 4)).state = 1) →
      ((getDom u d).state = 1 → ∃ t, exec (.domainOn m) s = .next t ∧ answered t u m []) ∧
      ((getDom u d).state = 0 → ∃ t, exec (.domainOn m) s = .next t ∧
        t = updDom u d (fun x => { x with state := 4, t0 := now u, isolated := none, mbx := some m }))) ∧
    (runs s m 0x0B03 a → d < 20 → (getDom u d).state = 2 → ∃ t, exec (.domainCancel m) s = .next t ∧
      (getDom t d).state = 1 ∧ (getDom t d).held = [] ∧ t.tree.net = s.tree.net ++ (getDom s d).held) ∧
    (runs s m 0x0B04 a → (∀ z ∈ u.zon.zones, z.1 ≠ 0 → z.2.state ≠ 1 ∧ z.2.state ≠ 2) →
      let w := quiesceAll u
      (allDrained w = true → w.wbs = [] → ∃ t, exec (.powerDown m) s = .next t ∧
        answered t { recordMarks w with power := { (recordMarks w).power with downPending := true } } m []) ∧
      ((allDrained w = false ∨ w.wbs ≠ []) → ∃ t, exec (.powerDown m) s = .next t ∧ t = (waitCmd w m).2)) ∧
    ∀ straps, readyCmd s m 0x0B05 = some a → ∃ t, exec (.moduleReset m straps) s = .next t ∧
      t = moduleReset (completeCmd (setOutcome u m (okRes [])) m) straps 3

/-- A report that makes a record stands first in the history under a new stamp and is reacted to at its level; one
that joins an earlier record or comes at checkstop is not. When a salvage is done its quadrant is OFF and the command
waiting for it ends; one that is late raises its record to L5. An expired timer of an unacknowledged L2 record raises
it by one level within the cap, unless that is L2 again. A class whose quiet period has passed is no longer active,
its records are acknowledged and its recovery is counted. ERR_L rises at the end of its minimum where nothing holds
it. FLT_ACK and FLT_CTL act. A failed service processor stops serving, and runs again after its restart. The writer
stores its entry and starts the next. (R515, R516, R521, R523, R526, R528, R530, R532, R533) -/
def Obligations.FaultsCollectedAndLogged : Prop :=
  (∀ (r : Report) (s : State), 1 ≤ r.source → r.source ≤ 0x15 → r.cls ≤ 5 →
    (s.power.pwrOk = true ∨ r.source = 0x12 ∨ r.source = 0x14 ∨ r.source = 0x15) →
    (s.flt.checkstop = true → ∃ t, exec (.faultReport r) s = .next t ∧ t = s) ∧
    (s.flt.checkstop = false → s.flt.hist.any (coalesces s r) = true → ∃ t, exec (.faultReport r) s = .next t ∧
      t = { s with flt := { s.flt with
        hist := List.updFirst (coalesces s r) (bumpRec s) s.flt.hist
        unack := s.flt.unack.map (fun x => if coalesces s r x then bumpRec s x else x) } }) ∧
    (s.flt.checkstop = false → s.flt.hist.any (coalesces s r) = false →
      ∃ x u, x = mkRecord (issueStamp s 0x61).2 r (issueStamp s 0x61).1 ∧ u.flt.hist = (x :: s.flt.hist).take 32 ∧
        ∃ t, exec (.faultReport r) s = .next t ∧ t = react (reporter 7) u x x.level)) ∧
  (∀ (q : Nat) (st : Word) (s : State), q < 4 → (getDom s (16 + q)).state = 3 → (getDom s (16 + q)).isolated = some st →
    (let ls := (s.lines.filter (fun e => e.1 / 2 ^ 50 == q)).map (fun e => e.1 % 2 ^ 50)
     ∃ t, exec (.isolationSalvageDone q) s = .next t ∧
      t = setOutcomeOpt (domainIsOff (ls.foldl (fun s gl => evictLine s q gl) s) (16 + q)) (getDom s (16 + q)).mbx (okRes [])) ∧
    (∀ x, 2 ^ 26 ≤ since s (getDom s (16 + q)).t0 → findUnack s st = some x →
      ∃ t, exec (.isolationSalvageTimeout q) s = .next t ∧ t = raiseRec s x 5)) ∧
  (∀ (st : Word) (x : FRec) (t0 : Nat) (s : State), findUnack s st = some x → x.timer = some t0 → s.flt.checkstop = false →
    x.level = 2 → (now s + 2 ^ 64 - t0) % 2 ^ 64 < 2 ^ 63 →
    let want := min 3 (tableCap s x.source x.cls)
    (targetLevel x.zone x.quad want ≤ 2 → ∃ t, exec (.escalationTimerExpiry st) s = .next t ∧
      t = updRec s st (fun r => { r with timer := none })) ∧
    (2 < targetLevel x.zone x.quad want → ∃ t, exec (.escalationTimerExpiry st) s = .next t ∧ t = raiseRec s x want)) ∧
  (∀ (c : Nat) (s : State), c < 5 → s.flt.active.contains c = true → s.flt.checkstop = false →
    quietPeriod s c ≤ since s (Table.get zeroClass s.flt.lastAt c) → ∃ t, exec (.quietPeriodExpiry c) s = .next t ∧
      t.flt.active = s.flt.active.filter (· != c) ∧ (∀ x ∈ t.flt.unack, x.cls ≠ c) ∧
      Table.get zeroClass t.flt.rcv c = satAdd 16 (Table.get zeroClass s.flt.rcv c) 1) ∧
  (∀ (t0 : Nat) (s : State), s.flt.errMin = some t0 → (now s + 2 ^ 64 - t0) % 2 ^ 64 < 2 ^ 63 →
    ∃ t, exec .errLMinimumEnd s = .next t ∧ t = { s with flt := { s.flt with
      errMin := none, errRelease := false, errLow := s.flt.checkstop || (s.flt.errHold && !s.flt.errRelease) } }) ∧
  (∀ (q : IoReq) (v : Word) (s : State),
    ((findUnack s v).isSome = true → ∃ t, exec (.fltAckWrite q v) s = .next t ∧ (∀ x ∈ t.flt.unack, x.stamp ≠ v) ∧
      ∀ x ∈ t.flt.hist, x.stamp = v → x.acked = true ∧ x.timer = none) ∧
    (findUnack s v = none → ∃ t, exec (.fltAckWrite q v) s = .next t ∧ t = s) ∧
    (v.bit 1 = false → ∃ t, exec (.fltCtlRelease q v) s = .next t ∧ t = { s with flt := { s.flt with errHold := v.bit 0 } }) ∧
    (v.bit 1 = true → s.flt.checkstop = false → s.flt.errMin = none → ∃ t, exec (.fltCtlRelease q v) s = .next t ∧
      t = { s with flt := { s.flt with errHold := v.bit 0, errLow := false } }) ∧
    (v.bit 1 = true → s.flt.checkstop = false → s.flt.errMin.isSome = true → ∃ t, exec (.fltCtlRelease q v) s = .next t ∧
      t = { s with flt := { s.flt with errHold := v.bit 0, errRelease := true } }) ∧
    (v.bit 1 = true → s.flt.checkstop = true → ∃ t, exec (.fltCtlRelease q v) s = .next t ∧
      t = { s with flt := { s.flt with errHold := v.bit 0 } })) ∧
  (∀ s : State, s.rlx.running = true →
    let w := fun (d : Word) => let f := faultAt s 0x12 2 0 0 0 d 0
      { f with rlx := { f.rlx with running := false, wdogAt := now f } }
    let ends := fun (w : State) => ((inProgress w).map (·.1)).foldl (fun s m => killCmd s m 0x000A) (forgetMbxs w)
    (∃ t, exec .spLockstepMismatch s = .next t ∧ t = ends (w 1)) ∧
    (∃ t, exec .spWatchdogExpiry s = .next t ∧ t = ends (w 2)) ∧
    (inProgress (w 2) = [] → ∃ t, exec .spWatchdogExpiry s = .next t ∧ t.rlx.running = false ∧ t.rlx.forwards = [] ∧
      t.mem.cellarings = [])) ∧
  (∀ s : State, s.rlx.running = false → s.power.bootRom = false → s.rlx.rings = [] → s.rlx.deferredL3 = [] →
    ∃ t, exec .spRestartDone s = .next t ∧ t = { s with rlx := { s.rlx with running := true, wdogAt := now s } }) ∧
  ∀ (e : LogEntry) (s : State), s.log.writing = some e →
    (∃ t, exec .logEntryWritten s = .next t ∧ t = logPump { storeEntry s e with log := { (storeEntry s e).log with writing := none } }) ∧
    ((Table.get segOf s.log.segs s.log.cur).state = 1 → (Table.get segOf s.log.segs s.log.cur).entries.length < 16381 →
      ∃ t, exec .logEntryWritten s = .next t ∧ t.log.cur = s.log.cur ∧
      (Table.get segOf t.log.segs s.log.cur).entries = (Table.get segOf s.log.segs s.log.cur).entries ++ [e])

/-- 3V3_STBY rising samples the straps and begins start-up; falling, it completes the entry being written and drops
what is queued. RESET_L is ignored below 1 µs, resets the module from 10 µs on, and between the two the model stops
(the spec gives no outcome). PWR_OK and THERMTRIP_L take the main domain as R547 and R548 say. PERST resets a
controller, its release starts training; a link that is up runs until it goes. An inbound request at a window reads or
writes memory under its zone, one that hits none is class C0. Each step of start-up ends in its place, and one over
its budget stops there. (R546, R547, R548, R550, R552, R555, R556, R559, R568, R576, R537) -/
def Obligations.SuppliesResetsAndStartUp : Prop :=
  (∀ (straps : Straps) (s : State), s.power.standby = false → ∃ t, exec (.standbyPowerOn straps) s = .next t ∧
    t.power.standby = true ∧ t.power.straps = straps ∧ t.power.step = 0 ∧ t.power.cause = 1 ∧ t.power.rails = false ∧
    t.rlx.flash = s.rlx.flash ∧ t.log.segs = s.log.segs) ∧
  (∀ s : State, s.power.standby = true →
    (s.log.writing = none → ∃ t, exec .standbyPowerLoss s = .next t ∧ t.log.segs = s.log.segs ∧ t.log.queue = [] ∧
      t.log.held = [] ∧ t.power.standby = false ∧ t.flt = Faults.reset ∧ t.rlx.flash = s.rlx.flash) ∧
    (∀ e, s.log.writing = some e → ∃ t, exec .standbyPowerLoss s = .next t ∧ t.log.segs = (storeEntry s e).log.segs ∧
      t.log.writing = none ∧ t.log.queue = [] ∧ t.log.held = [] ∧ t.power.standby = false)) ∧
  (∀ (ns : Nat) (straps : Straps) (s : State),
    (ns < 1000 → ∃ t, exec (.resetLPulse ns straps) s = .next t ∧ t = s) ∧
    (1000 ≤ ns → ns < 10000 → s.power.standby = true → exec (.resetLPulse ns straps) s = .fault .resetPulseUnspecified) ∧
    (10000 ≤ ns → s.power.standby = true → ∃ t, exec (.resetLPulse ns straps) s = .next t ∧
      t = moduleReset s straps 2 ∧ t.power.rails = false ∧ t.power.step = 0 ∧ t.power.cause = 2 ∧ t.rlx.running = false ∧
      (straps.bootSel % 4 ≠ 3 → t.flt.checkstop = false))) ∧
  (∀ s : State, s.power.standby = true → s.power.pwrOk = false →
    (s.flt.checkstop = true → s.power.cause ≠ 5 → ∃ t, exec .pwrOkAssert s = .next t ∧
      t = { s with power := { s.power with pwrOk := true } }) ∧
    (s.flt.checkstop = false → ∃ t, exec .pwrOkAssert s = .next t ∧
      t = tryStep2 { s with power := { s.power with pwrOk := true } } false) ∧
    (s.flt.checkstop = true → s.power.cause = 5 → ∃ t, exec .pwrOkAssert s = .next t ∧
      t = tryStep2 { s with power := { s.power with pwrOk := true }, flt := { s.flt with checkstop := false, errLow := false } }
        false)) ∧
  (∀ s : State, s.power.pwrOk = true →
    (s.power.rails = false → ∃ t, exec .pwrOkDeassert s = .next t ∧
      t = { s with power := { s.power with pwrOk := false, step := min s.power.step 1 } }) ∧
    (s.power.rails = true → ∃ t, exec .pwrOkDeassert s = .next t ∧ t.power.rails = false ∧ t.power.pwrOk = false ∧
      t.flt.checkstop = true ∧ t.lines = [] ∧ ∀ n, (getCore t n).run = false)) ∧
  (∀ s : State, s.power.standby = true → s.power.thermTrip = false → ∃ t, exec .thermtrip s = .next t ∧
    t.power.thermTrip = true ∧ t.power.rails = false ∧ t.power.cause = 6 ∧ t.flt.checkstop = true) ∧
  (∀ (c : Nat) (s : State), c < 2 →
    (rootPort s c = false → ∃ t, exec (.perstInput c) s = .next t ∧ getPcie t c = Pcie.reset) ∧
    (rootPort s c = false → s.power.rails = true → ∃ t, exec (.perstInputRelease c) s = .next t ∧
      getPcie t c = { getPcie s c with perst := false }) ∧
    (s.power.rails = true → 409600000 ≤ since s s.power.railsAt → rootPort s c = true → s.rlx.flash.pcieEn.testBit c = true →
      ∃ t, exec .perstRelease s = .next t ∧ getPcie t c = { getPcie s c with perst := false }) ∧
    ((getPcie s c).up = true → ∃ t, exec (.pcieLinkDown c) s = .next t ∧ t = linkGone s c) ∧
    ∀ sp w, s.power.rails = true → s.flt.checkstop = false → (getPcie s c).perst = false →
      (rootPort s c = false ∨ s.rlx.flash.pcieEn.testBit c = true) → ∃ t, exec (.pcieLinkUp c sp w) s = .next t ∧
        getPcie t c = { getPcie s c with up := true, speed := sp, width := w }) ∧
  (∀ (r : PcieReq) (s : State), r.ctl < 2 → (getPcie s r.ctl).up = true → endpoint s r.ctl = false →
    inStatusWin s r = false →
    ((firstWin s r = .miss ∨ firstWin s r = .cross) → ∃ t, exec (.pcieInboundRequest r) s = .next t ∧
      t = faultAt s 0x09 0 0 0 0 (BitVec.ofNat 64 r.rid) 0) ∧
    ∀ a z, firstWin s r = .hit a z →
      let st := (issueStamp s (0x70 + r.ctl)).1
      let u := (issueStamp s (0x70 + r.ctl)).2
      (∀ bs w d, r.write = some bs → engWrite (reporter 8) (bs.length + 1) u a bs z false st = (.ok d, w) →
        ∃ t, exec (.pcieInboundRequest r) s = .next t ∧ t = w) ∧
      (∀ w d, r.write = none → engRead (reporter 8) (r.len + 1) u a r.len z false st = (.ok d, w) →
        ∃ t, exec (.pcieInboundRequest r) s = .next t ∧ t = w) ∧
      ∀ bs w e, r.write = some bs → engWrite (reporter 8) (bs.length + 1) u a bs z false st = (.err e, w) →
        ∃ t, exec (.pcieInboundRequest r) s = .next t ∧ t = faultAt w 0x09 0 0 0 0 (BitVec.ofNat 64 r.rid) 0) ∧
  (∀ s : State, atStep s 0 = true → s.rlx.running = false → s.power.bootRom = false →
    (∃ t, exec (.relraxBooted .a) s = .next t ∧ t.rlx.running = true ∧ t.rlx.copy = 0 ∧
      t.rlx.version = s.rlx.flash.verA ∧ 1 ≤ t.power.step) ∧
    (∃ t, exec (.relraxBooted .b) s = .next t ∧ t.rlx.running = true ∧ t.rlx.copy = 1 ∧ t.rlx.version = s.rlx.flash.verB) ∧
    ∃ t, exec (.relraxBooted .none) s = .next t ∧ t.power.bootRom = true ∧ t.power.failed = true ∧ t.rlx.running = false) ∧
  (∀ s : State, atStep s 2 = true → s.power.pwrOk = true → s.power.straps.bootSel % 4 ≠ 2 →
    ∃ t, exec .mainRailsGood s = .next t ∧ t.power.rails = true ∧ t.power.step = 3 ∧ t.fab.mesh = s.rlx.flash.mesh ∧
      t.fab.sizes = s.rlx.flash.sizes) ∧
  (∀ (n : Nat) (s : State), atStep s 3 = true →
    (∃ t, exec (.memoryTrainingDone n false) s = .next t ∧ t.power.step = 4 ∧ t.mem.bytes = [] ∧ t.home.dir = [] ∧
      ∀ c < 64, (getChan t c).online = true) ∧
    ∃ t, exec (.memoryTrainingDone n true) s = .next t ∧
      t = faultAt (failStep s 4 [memChon s, BitVec.ofNat 64 n, 0, 0]) 0x06 5 0 0 0 0 0) ∧
  (∀ (g : Found) (s : State), atStep s 4 = true → s.devValid = true →
    (∀ k ∈ s.rlx.flash.sizes, k ≤ 1) →
    let f := s.rlx.flash
    let w := setRt s false (routeTable f.mesh f.sizes f.image0.linksDown s.devId)
    let w := { w with
      vin := { w.vin with inventory := List.range (moduleCount f.mesh f.sizes) }
      fab := { w.fab with
        discovered := true, lastUp := now w
        lostMap := absentMap f.mesh f.sizes g.absent w.devId w.fab.lostMap } }
    let x := setPartner w (pickPartner w)
    (∃ t, exec (.discoveryDone g) s = .next t ∧ t = elect (endStep x 5 0 [hzStat x, hzCfg x, idnLoc x, 0]) g.eligible) ∧
    ((pickPartner w).isSome = true ∨ s.fab.unmirrored = true → s.mer.masterId = none → s.power.straps.masterEn = true →
      (∀ d ∈ g.eligible, s.devId < d) → ∃ t, exec (.discoveryDone g) s = .next t ∧ t.fab.discovered = true ∧
        t.fab.lostMap = absentMap f.mesh f.sizes g.absent s.devId s.fab.lostMap ∧
        t.mer.masterId = some s.devId ∧ t.mer.role = 2 ∧ t.power.step = 6)) ∧
  (∀ s : State, atStep s 6 = true →
    (isMaster s = false → 3 ≤ s.mer.goodSyncs → ∃ t, exec .meridianLock s = .next t ∧ t.mer.locked = true ∧ t.power.step = 7) ∧
    (isMaster s = true → ∃ t, exec .meridianLock s = .next t ∧
      let u := endStep (logMeridian { s with mer := { s.mer with locked := true } } 1) 7 0
        (merWords (logMeridian { s with mer := { s.mer with locked := true } } 1))
      t = startChange u u.rlx.flash.image0 0 ((now u + 2 ^ 26) % 2 ^ 64) none)) ∧
  (∀ (b : Nat) (s : State), startBudget (s.power.step + 1) = some b → atStep s s.power.step = true →
    b ≤ since s s.power.stepAt →
    ((s.power.step = 0 ∨ s.power.step = 5 ∨ s.power.step = 8 ∨ s.power.step = 9) →
      ∃ t, exec .startupStepTimeout s = .next t ∧ t.power.failed = true ∧ t.power.step = s.power.step) ∧
    (s.power.step = 2 → ∃ t, exec .startupStepTimeout s = .next t ∧ t = faultAt (failStep (mainOff s) 3 []) 0x15 5 0 0 0 0 0 ∧
      t.power.failed = true ∧ t.power.rails = false) ∧
    (s.power.step = 3 → ∃ t, exec .startupStepTimeout s = .next t ∧
      t = faultAt (failStep s 4 [memChon s, 0, 0, 0]) 0x06 5 0 0 0 0 0) ∧
    (s.power.step = 4 → (∀ k ∈ s.rlx.flash.sizes, k ≤ 1) → ∃ t, exec .startupStepTimeout s = .next t ∧
      t = failStep s 5 [hzStat s, hzCfg s, idnLoc s, 0]) ∧
    (s.power.step = 6 → ∃ t, exec .startupStepTimeout s = .next t ∧ t = faultAt (failStep s 7 (merWords s)) 0x10 5 0 0 0 0 0) ∧
    (s.power.step = 7 → s.vin.divergent = false → ∃ t, exec .startupStepTimeout s = .next t ∧ t.vin.divergent = true ∧
      t.power.failed = false)) ∧
  ∀ s : State, atStep s 8 = true →
    (∃ w t, exec (.coreRelease false) s = .next t ∧ w.power.step = 9 ∧ (∀ n < 272, (getCore w n).run = false) ∧
      t = faultAt (failStep w 10 []) 0x12 2 0 0 0 3 0) ∧
    (s.rlx.flash.bonded = none → s.rlx.flash.loader = none → ∃ t, exec (.coreRelease true) s = .next t ∧ t.power.step = 10 ∧
      ∀ n < 272, n % 17 ≠ 16 → Table.get noFlag s.rlx.flash.retired n = false →
        (getCore t n).power = true ∧ (getCore t n).run = false ∧ (getCore t n).buf = [])
end

