-- ==== Sys2Proof/Laws/Table.lean ====
section
/-! SUPPORT. Sparse tables: what a read gives after a write, and that writes keep the canonical form. -/

namespace Sys2Proof

theorem Assoc.mem_put {α : Type} {t : List (Nat × α)} {k : Nat} {v : α} {e : Nat × α} (h : e ∈ Assoc.put t k v) :
    e = (k, v) ∨ e ∈ t := by
  induction t with
  | nil => simpa [Assoc.put] using h
  | cons x t ih =>
    obtain ⟨j, w⟩ := x
    simp only [Assoc.put] at h
    split at h
    · simpa using h
    · split at h
      · simp only [List.mem_cons] at h ⊢; tauto
      · simp only [List.mem_cons] at h ⊢
        rcases h with h | h
        · tauto
        · rcases ih h with h | h <;> tauto

theorem Assoc.mem_del {α : Type} {t : List (Nat × α)} {k : Nat} {e : Nat × α} (h : e ∈ Assoc.del t k) : e ∈ t := by
  induction t with
  | nil => simp [Assoc.del] at h
  | cons x t ih =>
    obtain ⟨j, w⟩ := x
    simp only [Assoc.del] at h
    split at h
    · exact List.mem_cons_of_mem _ (ih h)
    · simp only [List.mem_cons] at h ⊢
      rcases h with h | h
      · exact .inl h
      · exact .inr (ih h)

theorem Table.rising_put {α : Type} {t : List (Nat × α)} {lo : Option Nat} {k : Nat} (v : α)
    (h : Table.rising lo t = true) (hk : ∀ l, lo = some l → l < k) : Table.rising lo (Assoc.put t k v) = true := by
  induction t generalizing lo with
  | nil => cases lo <;> simp_all [Assoc.put, Table.rising]
  | cons x t ih =>
    obtain ⟨j, w⟩ := x
    simp only [Table.rising, Bool.and_eq_true] at h
    simp only [Assoc.put]
    split
    · rename_i hkj
      have : Table.rising (some k) ((j, w) :: t) = true := by
        simp only [Table.rising, Bool.and_eq_true, decide_eq_true_eq]; exact ⟨hkj, h.2⟩
      cases lo <;> simp_all [Table.rising]
    · split
      · rename_i _ e; subst e
        cases lo <;> simp_all [Table.rising]
      · have hjk : j < k := by omega
        have := ih h.2 (by intro l e; cases e; exact hjk)
        cases lo <;> simp_all [Table.rising]

theorem Table.rising_weaken {α : Type} {t : List (Nat × α)} {j : Nat} {lo : Option Nat}
    (h : Table.rising (some j) t = true) (hl : ∀ l, lo = some l → l < j) : Table.rising lo t = true := by
  cases t with
  | nil => rfl
  | cons x t =>
    obtain ⟨i, w⟩ := x
    simp only [Table.rising, Bool.and_eq_true, decide_eq_true_eq] at h
    cases lo with
    | none => simp [Table.rising, h.2]
    | some l =>
      have := hl l rfl
      simp only [Table.rising, Bool.and_eq_true, decide_eq_true_eq]; exact ⟨by omega, h.2⟩

theorem Table.rising_del {α : Type} {t : List (Nat × α)} {lo : Option Nat} (k : Nat)
    (h : Table.rising lo t = true) : Table.rising lo (Assoc.del t k) = true := by
  induction t generalizing lo with
  | nil => exact h
  | cons x t ih =>
    obtain ⟨j, w⟩ := x
    simp only [Table.rising, Bool.and_eq_true] at h
    simp only [Assoc.del]
    split
    · exact ih (Table.rising_weaken h.2 (by intro l e; subst e; simpa using h.1))
    · simp only [Table.rising, Bool.and_eq_true]; exact ⟨h.1, ih h.2⟩

/-- A table keeps its canonical form when one key is written. -/
theorem Table.wf_set {α : Type} [DecidableEq α] {d : Nat → α} {t : Table α} (k : Nat) (v : α)
    (h : Table.wf d t = true) : Table.wf d (Table.set d t k v) = true := by
  simp only [Table.wf, Bool.and_eq_true, List.all_eq_true, decide_eq_true_eq] at *
  unfold Table.set
  split
  · exact ⟨Table.rising_del k h.1, fun e he => h.2 e (Assoc.mem_del he)⟩
  · refine ⟨Table.rising_put v h.1 (by simp), fun e he => ?_⟩
    rcases Assoc.mem_put he with he | he
    · subst he; assumption
    · exact h.2 e he

theorem Table.get_put {α : Type} (d : Nat → α) (t : Table α) (k j : Nat) (v : α) :
    Table.get d (Assoc.put t k v) j = if j = k then v else Table.get d t j := by
  induction t with
  | nil => simp only [Assoc.put, Table.get, eq_comm]
  | cons x t ih =>
    obtain ⟨i, w⟩ := x
    simp only [Assoc.put]
    split
    · simp only [Table.get, eq_comm]
    · split
      · rename_i _ e; subst e
        by_cases h : j = k
        · subst h; simp [Table.get]
        · simp [Table.get, h, Ne.symm h]
      · by_cases h : j = k
        · subst h; rw [Table.get, if_neg (by omega), ih, if_pos rfl, if_pos rfl]
        · simp only [Table.get, ih, if_neg h]

/-- A deleted key reads as the default, the others as before. -/
theorem Table.get_del {α : Type} (d : Nat → α) (t : List (Nat × α)) (k j : Nat) :
    Table.get d (Assoc.del t k) j = if j = k then d k else Table.get d t j := by
  induction t with
  | nil => by_cases e : j = k <;> simp [Assoc.del, Table.get, e]
  | cons x t ih =>
    obtain ⟨i, w⟩ := x
    simp only [Assoc.del]
    split
    · rename_i e; subst e
      by_cases e : j = i
      · subst e; simpa using ih
      · rw [ih, if_neg e, if_neg e, Table.get, if_neg (Ne.symm e)]
    · rename_i hne
      by_cases e : j = k
      · subst e; rw [Table.get, if_neg hne, ih, if_pos rfl, if_pos rfl]
      · simp only [Table.get, ih, if_neg e]

/-- A read after a write: the value written at its key, the old value elsewhere, whatever the table's form. -/
theorem Table.get_set {α : Type} [DecidableEq α] {d : Nat → α} (t : Table α) (k j : Nat) (v : α) :
    Table.get d (Table.set d t k v) j = if j = k then v else Table.get d t j := by
  unfold Table.set
  split
  · rename_i e; rw [Table.get_del, e]
  · exact Table.get_put d t k j v

/-- A read after an update of one key. -/
theorem Table.get_upd {α : Type} [DecidableEq α] {d : Nat → α} (t : Table α) (k j : Nat) (f : α → α) :
    Table.get d (Table.upd d t k f) j = if j = k then f (Table.get d t k) else Table.get d t j :=
  Table.get_set t k j _

/-- What a mapped table holds: `f` of what it held, for an `f` that leaves the default alone. -/
theorem Table.get_mapListed {α : Type} [DecidableEq α] {d : Nat → α} {f : Nat → α → α} {t : Table α} {k : Nat}
    (h : f k (d k) = d k) : Table.get d (Table.mapListed d f t) k = f k (Table.get d t k) := by
  induction t with
  | nil => simp [Table.mapListed, Table.get, h]
  | cons x t ih =>
    obtain ⟨j, v⟩ := x
    simp only [Table.mapListed, Table.get]
    by_cases e : j = k
    · subst e
      split
      · rename_i hd
        rw [if_pos rfl, hd, Table.get_del, if_pos rfl]
      · simp [Table.get]
    · rw [if_neg e]
      split
      · rw [Table.get_del, if_neg (Ne.symm e), ih]
      · simp only [Table.get, if_neg e]; rw [Table.get_del, if_neg (Ne.symm e), ih]

/-- An association list gives back what was put into it. -/
theorem Assoc.get_put {α : Type} (t : List (Nat × α)) (k j : Nat) (v : α) :
    Assoc.get (Assoc.put t k v) j = if j = k then some v else Assoc.get t j := by
  induction t with
  | nil => simp only [Assoc.put, Assoc.get, eq_comm]
  | cons x t ih =>
    obtain ⟨i, w⟩ := x
    simp only [Assoc.put]
    split
    · simp only [Assoc.get, eq_comm]
    · split
      · rename_i _ e; subst e
        by_cases h : j = k
        · subst h; simp [Assoc.get]
        · simp [Assoc.get, h, Ne.symm h]
      · by_cases h : j = k
        · subst h; rw [Assoc.get, if_neg (by omega), ih, if_pos rfl, if_pos rfl]
        · simp only [Assoc.get, ih, if_neg h]

/-- A deleted key is not bound; the others are as before. -/
theorem Assoc.get_del {α : Type} (t : List (Nat × α)) (k j : Nat) :
    Assoc.get (Assoc.del t k) j = if j = k then none else Assoc.get t j := by
  induction t with
  | nil => by_cases e : j = k <;> simp [Assoc.del, Assoc.get, e]
  | cons x t ih =>
    obtain ⟨i, w⟩ := x
    simp only [Assoc.del]
    split
    · rename_i e; subst e
      by_cases e : j = i
      · subst e; simpa using ih
      · rw [ih, if_neg e, if_neg e, Assoc.get, if_neg (Ne.symm e)]
    · rename_i hne
      by_cases e : j = k
      · subst e; rw [Assoc.get, if_neg hne, ih, if_pos rfl, if_pos rfl]
      · simp only [Assoc.get, ih, if_neg e]

end Sys2Proof
end

