-- ==== Sys2Proof/Laws/State.lean ====
section
/-! SUPPORT. What the named updates of a state leave: one equation for each field that an update does not write, and for
each reader, what it gives after the update. -/

namespace Sys2Proof.Machine

variable (s : State)

/-! `setCore` writes the field `cores` only. -/

@[simp] theorem setCore_part (n : Nat) (c : Core) : (setCore s n c).part = s.part := rfl
@[simp] theorem setCore_power (n : Nat) (c : Core) : (setCore s n c).power = s.power := rfl
@[simp] theorem setCore_devId (n : Nat) (c : Core) : (setCore s n c).devId = s.devId := rfl
@[simp] theorem setCore_devValid (n : Nat) (c : Core) : (setCore s n c).devValid = s.devValid := rfl
@[simp] theorem setCore_quadOnline (n : Nat) (c : Core) : (setCore s n c).quadOnline = s.quadOnline := rfl
@[simp] theorem setCore_spareInUse (n : Nat) (c : Core) : (setCore s n c).spareInUse = s.spareInUse := rfl
@[simp] theorem setCore_mer (n : Nat) (c : Core) : (setCore s n c).mer = s.mer := rfl
@[simp] theorem setCore_vin (n : Nat) (c : Core) : (setCore s n c).vin = s.vin := rfl
@[simp] theorem setCore_staged (n : Nat) (c : Core) : (setCore s n c).staged = s.staged := rfl
@[simp] theorem setCore_counters (n : Nat) (c : Core) : (setCore s n c).counters = s.counters := rfl
@[simp] theorem setCore_marks (n : Nat) (c : Core) : (setCore s n c).marks = s.marks := rfl
@[simp] theorem setCore_sxt (n : Nat) (c : Core) : (setCore s n c).sxt = s.sxt := rfl
@[simp] theorem setCore_lines (n : Nat) (c : Core) : (setCore s n c).lines = s.lines := rfl
@[simp] theorem setCore_l3 (n : Nat) (c : Core) : (setCore s n c).l3 = s.l3 := rfl
@[simp] theorem setCore_reqs (n : Nat) (c : Core) : (setCore s n c).reqs = s.reqs := rfl
@[simp] theorem setCore_wbs (n : Nat) (c : Core) : (setCore s n c).wbs = s.wbs := rfl
@[simp] theorem setCore_home (n : Nat) (c : Core) : (setCore s n c).home = s.home := rfl
@[simp] theorem setCore_mem (n : Nat) (c : Core) : (setCore s n c).mem = s.mem := rfl
@[simp] theorem setCore_tree (n : Nat) (c : Core) : (setCore s n c).tree = s.tree := rfl
@[simp] theorem setCore_fab (n : Nat) (c : Core) : (setCore s n c).fab = s.fab := rfl
@[simp] theorem setCore_chs (n : Nat) (c : Core) : (setCore s n c).chs = s.chs := rfl
@[simp] theorem setCore_mov (n : Nat) (c : Core) : (setCore s n c).mov = s.mov := rfl
@[simp] theorem setCore_cmp (n : Nat) (c : Core) : (setCore s n c).cmp = s.cmp := rfl
@[simp] theorem setCore_cip (n : Nat) (c : Core) : (setCore s n c).cip = s.cip := rfl
@[simp] theorem setCore_zon (n : Nat) (c : Core) : (setCore s n c).zon = s.zon := rfl
@[simp] theorem setCore_bnd (n : Nat) (c : Core) : (setCore s n c).bnd = s.bnd := rfl
@[simp] theorem setCore_rlx (n : Nat) (c : Core) : (setCore s n c).rlx = s.rlx := rfl
@[simp] theorem setCore_flt (n : Nat) (c : Core) : (setCore s n c).flt = s.flt := rfl
@[simp] theorem setCore_log (n : Nat) (c : Core) : (setCore s n c).log = s.log := rfl
@[simp] theorem setCore_pcie (n : Nat) (c : Core) : (setCore s n c).pcie = s.pcie := rfl
@[simp] theorem setCore_fresh (n : Nat) (c : Core) : (setCore s n c).fresh = s.fresh := rfl
@[simp] theorem setCore_pending (n : Nat) (c : Core) : (setCore s n c).pending = s.pending := rfl
@[simp] theorem getDom_setCore (m : Nat) (n : Nat) (c : Core) : getDom (setCore s n c) m = getDom s m := rfl
@[simp] theorem getPort_setCore (m : Nat) (n : Nat) (c : Core) : getPort (setCore s n c) m = getPort s m := rfl
@[simp] theorem getChn_setCore (m : Nat) (n : Nat) (c : Core) : getChn (setCore s n c) m = getChn s m := rfl
@[simp] theorem getZone_setCore (m : Nat) (n : Nat) (c : Core) : getZone (setCore s n c) m = getZone s m := rfl
@[simp] theorem getVcore_setCore (m k : Nat) (n : Nat) (c : Core) : getVcore (setCore s n c) m k = getVcore s m k := rfl
@[simp] theorem getPcie_setCore (m : Nat) (n : Nat) (c : Core) : getPcie (setCore s n c) m = getPcie s m := rfl
@[simp] theorem getLine_setCore (m k : Nat) (n : Nat) (c : Core) : getLine (setCore s n c) m k = getLine s m k := rfl
@[simp] theorem getPage_setCore (m : Nat) (n : Nat) (c : Core) : getPage (setCore s n c) m = getPage s m := rfl
@[simp] theorem getOp_setCore (m : Nat) (n : Nat) (c : Core) : getOp (setCore s n c) m = getOp s m := rfl
@[simp] theorem getSlot_setCore (m : Nat) (n : Nat) (c : Core) : getSlot (setCore s n c) m = getSlot s m := rfl

/-! `updCore` writes the field `cores` only. -/

@[simp] theorem updCore_part (n : Nat) (f : Core → Core) : (updCore s n f).part = s.part := rfl
@[simp] theorem updCore_power (n : Nat) (f : Core → Core) : (updCore s n f).power = s.power := rfl
@[simp] theorem updCore_devId (n : Nat) (f : Core → Core) : (updCore s n f).devId = s.devId := rfl
@[simp] theorem updCore_devValid (n : Nat) (f : Core → Core) : (updCore s n f).devValid = s.devValid := rfl
@[simp] theorem updCore_quadOnline (n : Nat) (f : Core → Core) : (updCore s n f).quadOnline = s.quadOnline := rfl
@[simp] theorem updCore_spareInUse (n : Nat) (f : Core → Core) : (updCore s n f).spareInUse = s.spareInUse := rfl
@[simp] theorem updCore_mer (n : Nat) (f : Core → Core) : (updCore s n f).mer = s.mer := rfl
@[simp] theorem updCore_vin (n : Nat) (f : Core → Core) : (updCore s n f).vin = s.vin := rfl
@[simp] theorem updCore_staged (n : Nat) (f : Core → Core) : (updCore s n f).staged = s.staged := rfl
@[simp] theorem updCore_counters (n : Nat) (f : Core → Core) : (updCore s n f).counters = s.counters := rfl
@[simp] theorem updCore_marks (n : Nat) (f : Core → Core) : (updCore s n f).marks = s.marks := rfl
@[simp] theorem updCore_sxt (n : Nat) (f : Core → Core) : (updCore s n f).sxt = s.sxt := rfl
@[simp] theorem updCore_lines (n : Nat) (f : Core → Core) : (updCore s n f).lines = s.lines := rfl
@[simp] theorem updCore_l3 (n : Nat) (f : Core → Core) : (updCore s n f).l3 = s.l3 := rfl
@[simp] theorem updCore_reqs (n : Nat) (f : Core → Core) : (updCore s n f).reqs = s.reqs := rfl
@[simp] theorem updCore_wbs (n : Nat) (f : Core → Core) : (updCore s n f).wbs = s.wbs := rfl
@[simp] theorem updCore_home (n : Nat) (f : Core → Core) : (updCore s n f).home = s.home := rfl
@[simp] theorem updCore_mem (n : Nat) (f : Core → Core) : (updCore s n f).mem = s.mem := rfl
@[simp] theorem updCore_tree (n : Nat) (f : Core → Core) : (updCore s n f).tree = s.tree := rfl
@[simp] theorem updCore_fab (n : Nat) (f : Core → Core) : (updCore s n f).fab = s.fab := rfl
@[simp] theorem updCore_chs (n : Nat) (f : Core → Core) : (updCore s n f).chs = s.chs := rfl
@[simp] theorem updCore_mov (n : Nat) (f : Core → Core) : (updCore s n f).mov = s.mov := rfl
@[simp] theorem updCore_cmp (n : Nat) (f : Core → Core) : (updCore s n f).cmp = s.cmp := rfl
@[simp] theorem updCore_cip (n : Nat) (f : Core → Core) : (updCore s n f).cip = s.cip := rfl
@[simp] theorem updCore_zon (n : Nat) (f : Core → Core) : (updCore s n f).zon = s.zon := rfl
@[simp] theorem updCore_bnd (n : Nat) (f : Core → Core) : (updCore s n f).bnd = s.bnd := rfl
@[simp] theorem updCore_rlx (n : Nat) (f : Core → Core) : (updCore s n f).rlx = s.rlx := rfl
@[simp] theorem updCore_flt (n : Nat) (f : Core → Core) : (updCore s n f).flt = s.flt := rfl
@[simp] theorem updCore_log (n : Nat) (f : Core → Core) : (updCore s n f).log = s.log := rfl
@[simp] theorem updCore_pcie (n : Nat) (f : Core → Core) : (updCore s n f).pcie = s.pcie := rfl
@[simp] theorem updCore_fresh (n : Nat) (f : Core → Core) : (updCore s n f).fresh = s.fresh := rfl
@[simp] theorem updCore_pending (n : Nat) (f : Core → Core) : (updCore s n f).pending = s.pending := rfl
@[simp] theorem getDom_updCore (m : Nat) (n : Nat) (f : Core → Core) : getDom (updCore s n f) m = getDom s m := rfl
@[simp] theorem getPort_updCore (m : Nat) (n : Nat) (f : Core → Core) : getPort (updCore s n f) m = getPort s m := rfl
@[simp] theorem getChn_updCore (m : Nat) (n : Nat) (f : Core → Core) : getChn (updCore s n f) m = getChn s m := rfl
@[simp] theorem getZone_updCore (m : Nat) (n : Nat) (f : Core → Core) : getZone (updCore s n f) m = getZone s m := rfl
@[simp] theorem getVcore_updCore (m k : Nat) (n : Nat) (f : Core → Core) : getVcore (updCore s n f) m k = getVcore s m k := rfl
@[simp] theorem getPcie_updCore (m : Nat) (n : Nat) (f : Core → Core) : getPcie (updCore s n f) m = getPcie s m := rfl
@[simp] theorem getLine_updCore (m k : Nat) (n : Nat) (f : Core → Core) : getLine (updCore s n f) m k = getLine s m k := rfl
@[simp] theorem getPage_updCore (m : Nat) (n : Nat) (f : Core → Core) : getPage (updCore s n f) m = getPage s m := rfl
@[simp] theorem getOp_updCore (m : Nat) (n : Nat) (f : Core → Core) : getOp (updCore s n f) m = getOp s m := rfl
@[simp] theorem getSlot_updCore (m : Nat) (n : Nat) (f : Core → Core) : getSlot (updCore s n f) m = getSlot s m := rfl

/-! `updDom` writes the field `tree` only. -/

@[simp] theorem updDom_part (d : Nat) (f : Domain → Domain) : (updDom s d f).part = s.part := rfl
@[simp] theorem updDom_power (d : Nat) (f : Domain → Domain) : (updDom s d f).power = s.power := rfl
@[simp] theorem updDom_devId (d : Nat) (f : Domain → Domain) : (updDom s d f).devId = s.devId := rfl
@[simp] theorem updDom_devValid (d : Nat) (f : Domain → Domain) : (updDom s d f).devValid = s.devValid := rfl
@[simp] theorem updDom_quadOnline (d : Nat) (f : Domain → Domain) : (updDom s d f).quadOnline = s.quadOnline := rfl
@[simp] theorem updDom_spareInUse (d : Nat) (f : Domain → Domain) : (updDom s d f).spareInUse = s.spareInUse := rfl
@[simp] theorem updDom_mer (d : Nat) (f : Domain → Domain) : (updDom s d f).mer = s.mer := rfl
@[simp] theorem updDom_vin (d : Nat) (f : Domain → Domain) : (updDom s d f).vin = s.vin := rfl
@[simp] theorem updDom_staged (d : Nat) (f : Domain → Domain) : (updDom s d f).staged = s.staged := rfl
@[simp] theorem updDom_counters (d : Nat) (f : Domain → Domain) : (updDom s d f).counters = s.counters := rfl
@[simp] theorem updDom_marks (d : Nat) (f : Domain → Domain) : (updDom s d f).marks = s.marks := rfl
@[simp] theorem updDom_cores (d : Nat) (f : Domain → Domain) : (updDom s d f).cores = s.cores := rfl
@[simp] theorem updDom_sxt (d : Nat) (f : Domain → Domain) : (updDom s d f).sxt = s.sxt := rfl
@[simp] theorem updDom_lines (d : Nat) (f : Domain → Domain) : (updDom s d f).lines = s.lines := rfl
@[simp] theorem updDom_l3 (d : Nat) (f : Domain → Domain) : (updDom s d f).l3 = s.l3 := rfl
@[simp] theorem updDom_reqs (d : Nat) (f : Domain → Domain) : (updDom s d f).reqs = s.reqs := rfl
@[simp] theorem updDom_wbs (d : Nat) (f : Domain → Domain) : (updDom s d f).wbs = s.wbs := rfl
@[simp] theorem updDom_home (d : Nat) (f : Domain → Domain) : (updDom s d f).home = s.home := rfl
@[simp] theorem updDom_mem (d : Nat) (f : Domain → Domain) : (updDom s d f).mem = s.mem := rfl
@[simp] theorem updDom_fab (d : Nat) (f : Domain → Domain) : (updDom s d f).fab = s.fab := rfl
@[simp] theorem updDom_chs (d : Nat) (f : Domain → Domain) : (updDom s d f).chs = s.chs := rfl
@[simp] theorem updDom_mov (d : Nat) (f : Domain → Domain) : (updDom s d f).mov = s.mov := rfl
@[simp] theorem updDom_cmp (d : Nat) (f : Domain → Domain) : (updDom s d f).cmp = s.cmp := rfl
@[simp] theorem updDom_cip (d : Nat) (f : Domain → Domain) : (updDom s d f).cip = s.cip := rfl
@[simp] theorem updDom_zon (d : Nat) (f : Domain → Domain) : (updDom s d f).zon = s.zon := rfl
@[simp] theorem updDom_bnd (d : Nat) (f : Domain → Domain) : (updDom s d f).bnd = s.bnd := rfl
@[simp] theorem updDom_rlx (d : Nat) (f : Domain → Domain) : (updDom s d f).rlx = s.rlx := rfl
@[simp] theorem updDom_flt (d : Nat) (f : Domain → Domain) : (updDom s d f).flt = s.flt := rfl
@[simp] theorem updDom_log (d : Nat) (f : Domain → Domain) : (updDom s d f).log = s.log := rfl
@[simp] theorem updDom_pcie (d : Nat) (f : Domain → Domain) : (updDom s d f).pcie = s.pcie := rfl
@[simp] theorem updDom_fresh (d : Nat) (f : Domain → Domain) : (updDom s d f).fresh = s.fresh := rfl
@[simp] theorem updDom_pending (d : Nat) (f : Domain → Domain) : (updDom s d f).pending = s.pending := rfl
@[simp] theorem getCore_updDom (m : Nat) (d : Nat) (f : Domain → Domain) : getCore (updDom s d f) m = getCore s m := rfl
@[simp] theorem getPort_updDom (m : Nat) (d : Nat) (f : Domain → Domain) : getPort (updDom s d f) m = getPort s m := rfl
@[simp] theorem getChn_updDom (m : Nat) (d : Nat) (f : Domain → Domain) : getChn (updDom s d f) m = getChn s m := rfl
@[simp] theorem getZone_updDom (m : Nat) (d : Nat) (f : Domain → Domain) : getZone (updDom s d f) m = getZone s m := rfl
@[simp] theorem getVcore_updDom (m k : Nat) (d : Nat) (f : Domain → Domain) : getVcore (updDom s d f) m k = getVcore s m k := rfl
@[simp] theorem getPcie_updDom (m : Nat) (d : Nat) (f : Domain → Domain) : getPcie (updDom s d f) m = getPcie s m := rfl
@[simp] theorem getLine_updDom (m k : Nat) (d : Nat) (f : Domain → Domain) : getLine (updDom s d f) m k = getLine s m k := rfl
@[simp] theorem getPage_updDom (m : Nat) (d : Nat) (f : Domain → Domain) : getPage (updDom s d f) m = getPage s m := rfl
@[simp] theorem getOp_updDom (m : Nat) (d : Nat) (f : Domain → Domain) : getOp (updDom s d f) m = getOp s m := rfl
@[simp] theorem getSlot_updDom (m : Nat) (d : Nat) (f : Domain → Domain) : getSlot (updDom s d f) m = getSlot s m := rfl

/-! `updPort` writes the field `fab` only. -/

@[simp] theorem updPort_part (p : Nat) (f : Port → Port) : (updPort s p f).part = s.part := rfl
@[simp] theorem updPort_power (p : Nat) (f : Port → Port) : (updPort s p f).power = s.power := rfl
@[simp] theorem updPort_devId (p : Nat) (f : Port → Port) : (updPort s p f).devId = s.devId := rfl
@[simp] theorem updPort_devValid (p : Nat) (f : Port → Port) : (updPort s p f).devValid = s.devValid := rfl
@[simp] theorem updPort_quadOnline (p : Nat) (f : Port → Port) : (updPort s p f).quadOnline = s.quadOnline := rfl
@[simp] theorem updPort_spareInUse (p : Nat) (f : Port → Port) : (updPort s p f).spareInUse = s.spareInUse := rfl
@[simp] theorem updPort_mer (p : Nat) (f : Port → Port) : (updPort s p f).mer = s.mer := rfl
@[simp] theorem updPort_vin (p : Nat) (f : Port → Port) : (updPort s p f).vin = s.vin := rfl
@[simp] theorem updPort_staged (p : Nat) (f : Port → Port) : (updPort s p f).staged = s.staged := rfl
@[simp] theorem updPort_counters (p : Nat) (f : Port → Port) : (updPort s p f).counters = s.counters := rfl
@[simp] theorem updPort_marks (p : Nat) (f : Port → Port) : (updPort s p f).marks = s.marks := rfl
@[simp] theorem updPort_cores (p : Nat) (f : Port → Port) : (updPort s p f).cores = s.cores := rfl
@[simp] theorem updPort_sxt (p : Nat) (f : Port → Port) : (updPort s p f).sxt = s.sxt := rfl
@[simp] theorem updPort_lines (p : Nat) (f : Port → Port) : (updPort s p f).lines = s.lines := rfl
@[simp] theorem updPort_l3 (p : Nat) (f : Port → Port) : (updPort s p f).l3 = s.l3 := rfl
@[simp] theorem updPort_reqs (p : Nat) (f : Port → Port) : (updPort s p f).reqs = s.reqs := rfl
@[simp] theorem updPort_wbs (p : Nat) (f : Port → Port) : (updPort s p f).wbs = s.wbs := rfl
@[simp] theorem updPort_home (p : Nat) (f : Port → Port) : (updPort s p f).home = s.home := rfl
@[simp] theorem updPort_mem (p : Nat) (f : Port → Port) : (updPort s p f).mem = s.mem := rfl
@[simp] theorem updPort_tree (p : Nat) (f : Port → Port) : (updPort s p f).tree = s.tree := rfl
@[simp] theorem updPort_chs (p : Nat) (f : Port → Port) : (updPort s p f).chs = s.chs := rfl
@[simp] theorem updPort_mov (p : Nat) (f : Port → Port) : (updPort s p f).mov = s.mov := rfl
@[simp] theorem updPort_cmp (p : Nat) (f : Port → Port) : (updPort s p f).cmp = s.cmp := rfl
@[simp] theorem updPort_cip (p : Nat) (f : Port → Port) : (updPort s p f).cip = s.cip := rfl
@[simp] theorem updPort_zon (p : Nat) (f : Port → Port) : (updPort s p f).zon = s.zon := rfl
@[simp] theorem updPort_bnd (p : Nat) (f : Port → Port) : (updPort s p f).bnd = s.bnd := rfl
@[simp] theorem updPort_rlx (p : Nat) (f : Port → Port) : (updPort s p f).rlx = s.rlx := rfl
@[simp] theorem updPort_flt (p : Nat) (f : Port → Port) : (updPort s p f).flt = s.flt := rfl
@[simp] theorem updPort_log (p : Nat) (f : Port → Port) : (updPort s p f).log = s.log := rfl
@[simp] theorem updPort_pcie (p : Nat) (f : Port → Port) : (updPort s p f).pcie = s.pcie := rfl
@[simp] theorem updPort_fresh (p : Nat) (f : Port → Port) : (updPort s p f).fresh = s.fresh := rfl
@[simp] theorem updPort_pending (p : Nat) (f : Port → Port) : (updPort s p f).pending = s.pending := rfl
@[simp] theorem getCore_updPort (m : Nat) (p : Nat) (f : Port → Port) : getCore (updPort s p f) m = getCore s m := rfl
@[simp] theorem getDom_updPort (m : Nat) (p : Nat) (f : Port → Port) : getDom (updPort s p f) m = getDom s m := rfl
@[simp] theorem getChn_updPort (m : Nat) (p : Nat) (f : Port → Port) : getChn (updPort s p f) m = getChn s m := rfl
@[simp] theorem getZone_updPort (m : Nat) (p : Nat) (f : Port → Port) : getZone (updPort s p f) m = getZone s m := rfl
@[simp] theorem getVcore_updPort (m k : Nat) (p : Nat) (f : Port → Port) : getVcore (updPort s p f) m k = getVcore s m k := rfl
@[simp] theorem getPcie_updPort (m : Nat) (p : Nat) (f : Port → Port) : getPcie (updPort s p f) m = getPcie s m := rfl
@[simp] theorem getLine_updPort (m k : Nat) (p : Nat) (f : Port → Port) : getLine (updPort s p f) m k = getLine s m k := rfl
@[simp] theorem getPage_updPort (m : Nat) (p : Nat) (f : Port → Port) : getPage (updPort s p f) m = getPage s m := rfl
@[simp] theorem getOp_updPort (m : Nat) (p : Nat) (f : Port → Port) : getOp (updPort s p f) m = getOp s m := rfl
@[simp] theorem getSlot_updPort (m : Nat) (p : Nat) (f : Port → Port) : getSlot (updPort s p f) m = getSlot s m := rfl

/-! `updChn` writes the field `mov` only. -/

@[simp] theorem updChn_part (n : Nat) (f : Chn → Chn) : (updChn s n f).part = s.part := rfl
@[simp] theorem updChn_power (n : Nat) (f : Chn → Chn) : (updChn s n f).power = s.power := rfl
@[simp] theorem updChn_devId (n : Nat) (f : Chn → Chn) : (updChn s n f).devId = s.devId := rfl
@[simp] theorem updChn_devValid (n : Nat) (f : Chn → Chn) : (updChn s n f).devValid = s.devValid := rfl
@[simp] theorem updChn_quadOnline (n : Nat) (f : Chn → Chn) : (updChn s n f).quadOnline = s.quadOnline := rfl
@[simp] theorem updChn_spareInUse (n : Nat) (f : Chn → Chn) : (updChn s n f).spareInUse = s.spareInUse := rfl
@[simp] theorem updChn_mer (n : Nat) (f : Chn → Chn) : (updChn s n f).mer = s.mer := rfl
@[simp] theorem updChn_vin (n : Nat) (f : Chn → Chn) : (updChn s n f).vin = s.vin := rfl
@[simp] theorem updChn_staged (n : Nat) (f : Chn → Chn) : (updChn s n f).staged = s.staged := rfl
@[simp] theorem updChn_counters (n : Nat) (f : Chn → Chn) : (updChn s n f).counters = s.counters := rfl
@[simp] theorem updChn_marks (n : Nat) (f : Chn → Chn) : (updChn s n f).marks = s.marks := rfl
@[simp] theorem updChn_cores (n : Nat) (f : Chn → Chn) : (updChn s n f).cores = s.cores := rfl
@[simp] theorem updChn_sxt (n : Nat) (f : Chn → Chn) : (updChn s n f).sxt = s.sxt := rfl
@[simp] theorem updChn_lines (n : Nat) (f : Chn → Chn) : (updChn s n f).lines = s.lines := rfl
@[simp] theorem updChn_l3 (n : Nat) (f : Chn → Chn) : (updChn s n f).l3 = s.l3 := rfl
@[simp] theorem updChn_reqs (n : Nat) (f : Chn → Chn) : (updChn s n f).reqs = s.reqs := rfl
@[simp] theorem updChn_wbs (n : Nat) (f : Chn → Chn) : (updChn s n f).wbs = s.wbs := rfl
@[simp] theorem updChn_home (n : Nat) (f : Chn → Chn) : (updChn s n f).home = s.home := rfl
@[simp] theorem updChn_mem (n : Nat) (f : Chn → Chn) : (updChn s n f).mem = s.mem := rfl
@[simp] theorem updChn_tree (n : Nat) (f : Chn → Chn) : (updChn s n f).tree = s.tree := rfl
@[simp] theorem updChn_fab (n : Nat) (f : Chn → Chn) : (updChn s n f).fab = s.fab := rfl
@[simp] theorem updChn_chs (n : Nat) (f : Chn → Chn) : (updChn s n f).chs = s.chs := rfl
@[simp] theorem updChn_cmp (n : Nat) (f : Chn → Chn) : (updChn s n f).cmp = s.cmp := rfl
@[simp] theorem updChn_cip (n : Nat) (f : Chn → Chn) : (updChn s n f).cip = s.cip := rfl
@[simp] theorem updChn_zon (n : Nat) (f : Chn → Chn) : (updChn s n f).zon = s.zon := rfl
@[simp] theorem updChn_bnd (n : Nat) (f : Chn → Chn) : (updChn s n f).bnd = s.bnd := rfl
@[simp] theorem updChn_rlx (n : Nat) (f : Chn → Chn) : (updChn s n f).rlx = s.rlx := rfl
@[simp] theorem updChn_flt (n : Nat) (f : Chn → Chn) : (updChn s n f).flt = s.flt := rfl
@[simp] theorem updChn_log (n : Nat) (f : Chn → Chn) : (updChn s n f).log = s.log := rfl
@[simp] theorem updChn_pcie (n : Nat) (f : Chn → Chn) : (updChn s n f).pcie = s.pcie := rfl
@[simp] theorem updChn_fresh (n : Nat) (f : Chn → Chn) : (updChn s n f).fresh = s.fresh := rfl
@[simp] theorem updChn_pending (n : Nat) (f : Chn → Chn) : (updChn s n f).pending = s.pending := rfl
@[simp] theorem getCore_updChn (m : Nat) (n : Nat) (f : Chn → Chn) : getCore (updChn s n f) m = getCore s m := rfl
@[simp] theorem getDom_updChn (m : Nat) (n : Nat) (f : Chn → Chn) : getDom (updChn s n f) m = getDom s m := rfl
@[simp] theorem getPort_updChn (m : Nat) (n : Nat) (f : Chn → Chn) : getPort (updChn s n f) m = getPort s m := rfl
@[simp] theorem getZone_updChn (m : Nat) (n : Nat) (f : Chn → Chn) : getZone (updChn s n f) m = getZone s m := rfl
@[simp] theorem getVcore_updChn (m k : Nat) (n : Nat) (f : Chn → Chn) : getVcore (updChn s n f) m k = getVcore s m k := rfl
@[simp] theorem getPcie_updChn (m : Nat) (n : Nat) (f : Chn → Chn) : getPcie (updChn s n f) m = getPcie s m := rfl
@[simp] theorem getLine_updChn (m k : Nat) (n : Nat) (f : Chn → Chn) : getLine (updChn s n f) m k = getLine s m k := rfl
@[simp] theorem getPage_updChn (m : Nat) (n : Nat) (f : Chn → Chn) : getPage (updChn s n f) m = getPage s m := rfl
@[simp] theorem getOp_updChn (m : Nat) (n : Nat) (f : Chn → Chn) : getOp (updChn s n f) m = getOp s m := rfl
@[simp] theorem getSlot_updChn (m : Nat) (n : Nat) (f : Chn → Chn) : getSlot (updChn s n f) m = getSlot s m := rfl

/-! `updZone` writes the field `zon` only. -/

@[simp] theorem updZone_part (z : Nat) (f : Zone → Zone) : (updZone s z f).part = s.part := rfl
@[simp] theorem updZone_power (z : Nat) (f : Zone → Zone) : (updZone s z f).power = s.power := rfl
@[simp] theorem updZone_devId (z : Nat) (f : Zone → Zone) : (updZone s z f).devId = s.devId := rfl
@[simp] theorem updZone_devValid (z : Nat) (f : Zone → Zone) : (updZone s z f).devValid = s.devValid := rfl
@[simp] theorem updZone_quadOnline (z : Nat) (f : Zone → Zone) : (updZone s z f).quadOnline = s.quadOnline := rfl
@[simp] theorem updZone_spareInUse (z : Nat) (f : Zone → Zone) : (updZone s z f).spareInUse = s.spareInUse := rfl
@[simp] theorem updZone_mer (z : Nat) (f : Zone → Zone) : (updZone s z f).mer = s.mer := rfl
@[simp] theorem updZone_vin (z : Nat) (f : Zone → Zone) : (updZone s z f).vin = s.vin := rfl
@[simp] theorem updZone_staged (z : Nat) (f : Zone → Zone) : (updZone s z f).staged = s.staged := rfl
@[simp] theorem updZone_counters (z : Nat) (f : Zone → Zone) : (updZone s z f).counters = s.counters := rfl
@[simp] theorem updZone_marks (z : Nat) (f : Zone → Zone) : (updZone s z f).marks = s.marks := rfl
@[simp] theorem updZone_cores (z : Nat) (f : Zone → Zone) : (updZone s z f).cores = s.cores := rfl
@[simp] theorem updZone_sxt (z : Nat) (f : Zone → Zone) : (updZone s z f).sxt = s.sxt := rfl
@[simp] theorem updZone_lines (z : Nat) (f : Zone → Zone) : (updZone s z f).lines = s.lines := rfl
@[simp] theorem updZone_l3 (z : Nat) (f : Zone → Zone) : (updZone s z f).l3 = s.l3 := rfl
@[simp] theorem updZone_reqs (z : Nat) (f : Zone → Zone) : (updZone s z f).reqs = s.reqs := rfl
@[simp] theorem updZone_wbs (z : Nat) (f : Zone → Zone) : (updZone s z f).wbs = s.wbs := rfl
@[simp] theorem updZone_home (z : Nat) (f : Zone → Zone) : (updZone s z f).home = s.home := rfl
@[simp] theorem updZone_mem (z : Nat) (f : Zone → Zone) : (updZone s z f).mem = s.mem := rfl
@[simp] theorem updZone_tree (z : Nat) (f : Zone → Zone) : (updZone s z f).tree = s.tree := rfl
@[simp] theorem updZone_fab (z : Nat) (f : Zone → Zone) : (updZone s z f).fab = s.fab := rfl
@[simp] theorem updZone_chs (z : Nat) (f : Zone → Zone) : (updZone s z f).chs = s.chs := rfl
@[simp] theorem updZone_mov (z : Nat) (f : Zone → Zone) : (updZone s z f).mov = s.mov := rfl
@[simp] theorem updZone_cmp (z : Nat) (f : Zone → Zone) : (updZone s z f).cmp = s.cmp := rfl
@[simp] theorem updZone_cip (z : Nat) (f : Zone → Zone) : (updZone s z f).cip = s.cip := rfl
@[simp] theorem updZone_bnd (z : Nat) (f : Zone → Zone) : (updZone s z f).bnd = s.bnd := rfl
@[simp] theorem updZone_rlx (z : Nat) (f : Zone → Zone) : (updZone s z f).rlx = s.rlx := rfl
@[simp] theorem updZone_flt (z : Nat) (f : Zone → Zone) : (updZone s z f).flt = s.flt := rfl
@[simp] theorem updZone_log (z : Nat) (f : Zone → Zone) : (updZone s z f).log = s.log := rfl
@[simp] theorem updZone_pcie (z : Nat) (f : Zone → Zone) : (updZone s z f).pcie = s.pcie := rfl
@[simp] theorem updZone_fresh (z : Nat) (f : Zone → Zone) : (updZone s z f).fresh = s.fresh := rfl
@[simp] theorem updZone_pending (z : Nat) (f : Zone → Zone) : (updZone s z f).pending = s.pending := rfl
@[simp] theorem getCore_updZone (m : Nat) (z : Nat) (f : Zone → Zone) : getCore (updZone s z f) m = getCore s m := rfl
@[simp] theorem getDom_updZone (m : Nat) (z : Nat) (f : Zone → Zone) : getDom (updZone s z f) m = getDom s m := rfl
@[simp] theorem getPort_updZone (m : Nat) (z : Nat) (f : Zone → Zone) : getPort (updZone s z f) m = getPort s m := rfl
@[simp] theorem getChn_updZone (m : Nat) (z : Nat) (f : Zone → Zone) : getChn (updZone s z f) m = getChn s m := rfl
@[simp] theorem getVcore_updZone (m k : Nat) (z : Nat) (f : Zone → Zone) : getVcore (updZone s z f) m k = getVcore s m k := rfl
@[simp] theorem getPcie_updZone (m : Nat) (z : Nat) (f : Zone → Zone) : getPcie (updZone s z f) m = getPcie s m := rfl
@[simp] theorem getLine_updZone (m k : Nat) (z : Nat) (f : Zone → Zone) : getLine (updZone s z f) m k = getLine s m k := rfl
@[simp] theorem getPage_updZone (m : Nat) (z : Nat) (f : Zone → Zone) : getPage (updZone s z f) m = getPage s m := rfl
@[simp] theorem getOp_updZone (m : Nat) (z : Nat) (f : Zone → Zone) : getOp (updZone s z f) m = getOp s m := rfl
@[simp] theorem getSlot_updZone (m : Nat) (z : Nat) (f : Zone → Zone) : getSlot (updZone s z f) m = getSlot s m := rfl

/-! `updVcore` writes the field `zon` only. -/

@[simp] theorem updVcore_part (z v : Nat) (f : Vcore → Vcore) : (updVcore s z v f).part = s.part := rfl
@[simp] theorem updVcore_power (z v : Nat) (f : Vcore → Vcore) : (updVcore s z v f).power = s.power := rfl
@[simp] theorem updVcore_devId (z v : Nat) (f : Vcore → Vcore) : (updVcore s z v f).devId = s.devId := rfl
@[simp] theorem updVcore_devValid (z v : Nat) (f : Vcore → Vcore) : (updVcore s z v f).devValid = s.devValid := rfl
@[simp] theorem updVcore_quadOnline (z v : Nat) (f : Vcore → Vcore) : (updVcore s z v f).quadOnline = s.quadOnline := rfl
@[simp] theorem updVcore_spareInUse (z v : Nat) (f : Vcore → Vcore) : (updVcore s z v f).spareInUse = s.spareInUse := rfl
@[simp] theorem updVcore_mer (z v : Nat) (f : Vcore → Vcore) : (updVcore s z v f).mer = s.mer := rfl
@[simp] theorem updVcore_vin (z v : Nat) (f : Vcore → Vcore) : (updVcore s z v f).vin = s.vin := rfl
@[simp] theorem updVcore_staged (z v : Nat) (f : Vcore → Vcore) : (updVcore s z v f).staged = s.staged := rfl
@[simp] theorem updVcore_counters (z v : Nat) (f : Vcore → Vcore) : (updVcore s z v f).counters = s.counters := rfl
@[simp] theorem updVcore_marks (z v : Nat) (f : Vcore → Vcore) : (updVcore s z v f).marks = s.marks := rfl
@[simp] theorem updVcore_cores (z v : Nat) (f : Vcore → Vcore) : (updVcore s z v f).cores = s.cores := rfl
@[simp] theorem updVcore_sxt (z v : Nat) (f : Vcore → Vcore) : (updVcore s z v f).sxt = s.sxt := rfl
@[simp] theorem updVcore_lines (z v : Nat) (f : Vcore → Vcore) : (updVcore s z v f).lines = s.lines := rfl
@[simp] theorem updVcore_l3 (z v : Nat) (f : Vcore → Vcore) : (updVcore s z v f).l3 = s.l3 := rfl
@[simp] theorem updVcore_reqs (z v : Nat) (f : Vcore → Vcore) : (updVcore s z v f).reqs = s.reqs := rfl
@[simp] theorem updVcore_wbs (z v : Nat) (f : Vcore → Vcore) : (updVcore s z v f).wbs = s.wbs := rfl
@[simp] theorem updVcore_home (z v : Nat) (f : Vcore → Vcore) : (updVcore s z v f).home = s.home := rfl
@[simp] theorem updVcore_mem (z v : Nat) (f : Vcore → Vcore) : (updVcore s z v f).mem = s.mem := rfl
@[simp] theorem updVcore_tree (z v : Nat) (f : Vcore → Vcore) : (updVcore s z v f).tree = s.tree := rfl
@[simp] theorem updVcore_fab (z v : Nat) (f : Vcore → Vcore) : (updVcore s z v f).fab = s.fab := rfl
@[simp] theorem updVcore_chs (z v : Nat) (f : Vcore → Vcore) : (updVcore s z v f).chs = s.chs := rfl
@[simp] theorem updVcore_mov (z v : Nat) (f : Vcore → Vcore) : (updVcore s z v f).mov = s.mov := rfl
@[simp] theorem updVcore_cmp (z v : Nat) (f : Vcore → Vcore) : (updVcore s z v f).cmp = s.cmp := rfl
@[simp] theorem updVcore_cip (z v : Nat) (f : Vcore → Vcore) : (updVcore s z v f).cip = s.cip := rfl
@[simp] theorem updVcore_bnd (z v : Nat) (f : Vcore → Vcore) : (updVcore s z v f).bnd = s.bnd := rfl
@[simp] theorem updVcore_rlx (z v : Nat) (f : Vcore → Vcore) : (updVcore s z v f).rlx = s.rlx := rfl
@[simp] theorem updVcore_flt (z v : Nat) (f : Vcore → Vcore) : (updVcore s z v f).flt = s.flt := rfl
@[simp] theorem updVcore_log (z v : Nat) (f : Vcore → Vcore) : (updVcore s z v f).log = s.log := rfl
@[simp] theorem updVcore_pcie (z v : Nat) (f : Vcore → Vcore) : (updVcore s z v f).pcie = s.pcie := rfl
@[simp] theorem updVcore_fresh (z v : Nat) (f : Vcore → Vcore) : (updVcore s z v f).fresh = s.fresh := rfl
@[simp] theorem updVcore_pending (z v : Nat) (f : Vcore → Vcore) : (updVcore s z v f).pending = s.pending := rfl
@[simp] theorem getCore_updVcore (m : Nat) (z v : Nat) (f : Vcore → Vcore) : getCore (updVcore s z v f) m = getCore s m := rfl
@[simp] theorem getDom_updVcore (m : Nat) (z v : Nat) (f : Vcore → Vcore) : getDom (updVcore s z v f) m = getDom s m := rfl
@[simp] theorem getPort_updVcore (m : Nat) (z v : Nat) (f : Vcore → Vcore) : getPort (updVcore s z v f) m = getPort s m := rfl
@[simp] theorem getChn_updVcore (m : Nat) (z v : Nat) (f : Vcore → Vcore) : getChn (updVcore s z v f) m = getChn s m := rfl
@[simp] theorem getZone_updVcore (m : Nat) (z v : Nat) (f : Vcore → Vcore) : getZone (updVcore s z v f) m = getZone s m := rfl
@[simp] theorem getPcie_updVcore (m : Nat) (z v : Nat) (f : Vcore → Vcore) : getPcie (updVcore s z v f) m = getPcie s m := rfl
@[simp] theorem getLine_updVcore (m k : Nat) (z v : Nat) (f : Vcore → Vcore) : getLine (updVcore s z v f) m k = getLine s m k := rfl
@[simp] theorem getPage_updVcore (m : Nat) (z v : Nat) (f : Vcore → Vcore) : getPage (updVcore s z v f) m = getPage s m := rfl
@[simp] theorem getOp_updVcore (m : Nat) (z v : Nat) (f : Vcore → Vcore) : getOp (updVcore s z v f) m = getOp s m := rfl
@[simp] theorem getSlot_updVcore (m : Nat) (z v : Nat) (f : Vcore → Vcore) : getSlot (updVcore s z v f) m = getSlot s m := rfl

/-! `updPcie` writes the field `pcie` only. -/

@[simp] theorem updPcie_part (c : Nat) (f : Pcie → Pcie) : (updPcie s c f).part = s.part := rfl
@[simp] theorem updPcie_power (c : Nat) (f : Pcie → Pcie) : (updPcie s c f).power = s.power := rfl
@[simp] theorem updPcie_devId (c : Nat) (f : Pcie → Pcie) : (updPcie s c f).devId = s.devId := rfl
@[simp] theorem updPcie_devValid (c : Nat) (f : Pcie → Pcie) : (updPcie s c f).devValid = s.devValid := rfl
@[simp] theorem updPcie_quadOnline (c : Nat) (f : Pcie → Pcie) : (updPcie s c f).quadOnline = s.quadOnline := rfl
@[simp] theorem updPcie_spareInUse (c : Nat) (f : Pcie → Pcie) : (updPcie s c f).spareInUse = s.spareInUse := rfl
@[simp] theorem updPcie_mer (c : Nat) (f : Pcie → Pcie) : (updPcie s c f).mer = s.mer := rfl
@[simp] theorem updPcie_vin (c : Nat) (f : Pcie → Pcie) : (updPcie s c f).vin = s.vin := rfl
@[simp] theorem updPcie_staged (c : Nat) (f : Pcie → Pcie) : (updPcie s c f).staged = s.staged := rfl
@[simp] theorem updPcie_counters (c : Nat) (f : Pcie → Pcie) : (updPcie s c f).counters = s.counters := rfl
@[simp] theorem updPcie_marks (c : Nat) (f : Pcie → Pcie) : (updPcie s c f).marks = s.marks := rfl
@[simp] theorem updPcie_cores (c : Nat) (f : Pcie → Pcie) : (updPcie s c f).cores = s.cores := rfl
@[simp] theorem updPcie_sxt (c : Nat) (f : Pcie → Pcie) : (updPcie s c f).sxt = s.sxt := rfl
@[simp] theorem updPcie_lines (c : Nat) (f : Pcie → Pcie) : (updPcie s c f).lines = s.lines := rfl
@[simp] theorem updPcie_l3 (c : Nat) (f : Pcie → Pcie) : (updPcie s c f).l3 = s.l3 := rfl
@[simp] theorem updPcie_reqs (c : Nat) (f : Pcie → Pcie) : (updPcie s c f).reqs = s.reqs := rfl
@[simp] theorem updPcie_wbs (c : Nat) (f : Pcie → Pcie) : (updPcie s c f).wbs = s.wbs := rfl
@[simp] theorem updPcie_home (c : Nat) (f : Pcie → Pcie) : (updPcie s c f).home = s.home := rfl
@[simp] theorem updPcie_mem (c : Nat) (f : Pcie → Pcie) : (updPcie s c f).mem = s.mem := rfl
@[simp] theorem updPcie_tree (c : Nat) (f : Pcie → Pcie) : (updPcie s c f).tree = s.tree := rfl
@[simp] theorem updPcie_fab (c : Nat) (f : Pcie → Pcie) : (updPcie s c f).fab = s.fab := rfl
@[simp] theorem updPcie_chs (c : Nat) (f : Pcie → Pcie) : (updPcie s c f).chs = s.chs := rfl
@[simp] theorem updPcie_mov (c : Nat) (f : Pcie → Pcie) : (updPcie s c f).mov = s.mov := rfl
@[simp] theorem updPcie_cmp (c : Nat) (f : Pcie → Pcie) : (updPcie s c f).cmp = s.cmp := rfl
@[simp] theorem updPcie_cip (c : Nat) (f : Pcie → Pcie) : (updPcie s c f).cip = s.cip := rfl
@[simp] theorem updPcie_zon (c : Nat) (f : Pcie → Pcie) : (updPcie s c f).zon = s.zon := rfl
@[simp] theorem updPcie_bnd (c : Nat) (f : Pcie → Pcie) : (updPcie s c f).bnd = s.bnd := rfl
@[simp] theorem updPcie_rlx (c : Nat) (f : Pcie → Pcie) : (updPcie s c f).rlx = s.rlx := rfl
@[simp] theorem updPcie_flt (c : Nat) (f : Pcie → Pcie) : (updPcie s c f).flt = s.flt := rfl
@[simp] theorem updPcie_log (c : Nat) (f : Pcie → Pcie) : (updPcie s c f).log = s.log := rfl
@[simp] theorem updPcie_fresh (c : Nat) (f : Pcie → Pcie) : (updPcie s c f).fresh = s.fresh := rfl
@[simp] theorem updPcie_pending (c : Nat) (f : Pcie → Pcie) : (updPcie s c f).pending = s.pending := rfl
@[simp] theorem getCore_updPcie (m : Nat) (c : Nat) (f : Pcie → Pcie) : getCore (updPcie s c f) m = getCore s m := rfl
@[simp] theorem getDom_updPcie (m : Nat) (c : Nat) (f : Pcie → Pcie) : getDom (updPcie s c f) m = getDom s m := rfl
@[simp] theorem getPort_updPcie (m : Nat) (c : Nat) (f : Pcie → Pcie) : getPort (updPcie s c f) m = getPort s m := rfl
@[simp] theorem getChn_updPcie (m : Nat) (c : Nat) (f : Pcie → Pcie) : getChn (updPcie s c f) m = getChn s m := rfl
@[simp] theorem getZone_updPcie (m : Nat) (c : Nat) (f : Pcie → Pcie) : getZone (updPcie s c f) m = getZone s m := rfl
@[simp] theorem getVcore_updPcie (m k : Nat) (c : Nat) (f : Pcie → Pcie) : getVcore (updPcie s c f) m k = getVcore s m k := rfl
@[simp] theorem getLine_updPcie (m k : Nat) (c : Nat) (f : Pcie → Pcie) : getLine (updPcie s c f) m k = getLine s m k := rfl
@[simp] theorem getPage_updPcie (m : Nat) (c : Nat) (f : Pcie → Pcie) : getPage (updPcie s c f) m = getPage s m := rfl
@[simp] theorem getOp_updPcie (m : Nat) (c : Nat) (f : Pcie → Pcie) : getOp (updPcie s c f) m = getOp s m := rfl
@[simp] theorem getSlot_updPcie (m : Nat) (c : Nat) (f : Pcie → Pcie) : getSlot (updPcie s c f) m = getSlot s m := rfl

/-! `updCp` writes the field `chs` only. -/

@[simp] theorem updCp_part (n : Nat) (f : Cp → Cp) : (updCp s n f).part = s.part := rfl
@[simp] theorem updCp_power (n : Nat) (f : Cp → Cp) : (updCp s n f).power = s.power := rfl
@[simp] theorem updCp_devId (n : Nat) (f : Cp → Cp) : (updCp s n f).devId = s.devId := rfl
@[simp] theorem updCp_devValid (n : Nat) (f : Cp → Cp) : (updCp s n f).devValid = s.devValid := rfl
@[simp] theorem updCp_quadOnline (n : Nat) (f : Cp → Cp) : (updCp s n f).quadOnline = s.quadOnline := rfl
@[simp] theorem updCp_spareInUse (n : Nat) (f : Cp → Cp) : (updCp s n f).spareInUse = s.spareInUse := rfl
@[simp] theorem updCp_mer (n : Nat) (f : Cp → Cp) : (updCp s n f).mer = s.mer := rfl
@[simp] theorem updCp_vin (n : Nat) (f : Cp → Cp) : (updCp s n f).vin = s.vin := rfl
@[simp] theorem updCp_staged (n : Nat) (f : Cp → Cp) : (updCp s n f).staged = s.staged := rfl
@[simp] theorem updCp_counters (n : Nat) (f : Cp → Cp) : (updCp s n f).counters = s.counters := rfl
@[simp] theorem updCp_marks (n : Nat) (f : Cp → Cp) : (updCp s n f).marks = s.marks := rfl
@[simp] theorem updCp_cores (n : Nat) (f : Cp → Cp) : (updCp s n f).cores = s.cores := rfl
@[simp] theorem updCp_sxt (n : Nat) (f : Cp → Cp) : (updCp s n f).sxt = s.sxt := rfl
@[simp] theorem updCp_lines (n : Nat) (f : Cp → Cp) : (updCp s n f).lines = s.lines := rfl
@[simp] theorem updCp_l3 (n : Nat) (f : Cp → Cp) : (updCp s n f).l3 = s.l3 := rfl
@[simp] theorem updCp_reqs (n : Nat) (f : Cp → Cp) : (updCp s n f).reqs = s.reqs := rfl
@[simp] theorem updCp_wbs (n : Nat) (f : Cp → Cp) : (updCp s n f).wbs = s.wbs := rfl
@[simp] theorem updCp_home (n : Nat) (f : Cp → Cp) : (updCp s n f).home = s.home := rfl
@[simp] theorem updCp_mem (n : Nat) (f : Cp → Cp) : (updCp s n f).mem = s.mem := rfl
@[simp] theorem updCp_tree (n : Nat) (f : Cp → Cp) : (updCp s n f).tree = s.tree := rfl
@[simp] theorem updCp_fab (n : Nat) (f : Cp → Cp) : (updCp s n f).fab = s.fab := rfl
@[simp] theorem updCp_mov (n : Nat) (f : Cp → Cp) : (updCp s n f).mov = s.mov := rfl
@[simp] theorem updCp_cmp (n : Nat) (f : Cp → Cp) : (updCp s n f).cmp = s.cmp := rfl
@[simp] theorem updCp_cip (n : Nat) (f : Cp → Cp) : (updCp s n f).cip = s.cip := rfl
@[simp] theorem updCp_zon (n : Nat) (f : Cp → Cp) : (updCp s n f).zon = s.zon := rfl
@[simp] theorem updCp_bnd (n : Nat) (f : Cp → Cp) : (updCp s n f).bnd = s.bnd := rfl
@[simp] theorem updCp_rlx (n : Nat) (f : Cp → Cp) : (updCp s n f).rlx = s.rlx := rfl
@[simp] theorem updCp_flt (n : Nat) (f : Cp → Cp) : (updCp s n f).flt = s.flt := rfl
@[simp] theorem updCp_log (n : Nat) (f : Cp → Cp) : (updCp s n f).log = s.log := rfl
@[simp] theorem updCp_pcie (n : Nat) (f : Cp → Cp) : (updCp s n f).pcie = s.pcie := rfl
@[simp] theorem updCp_fresh (n : Nat) (f : Cp → Cp) : (updCp s n f).fresh = s.fresh := rfl
@[simp] theorem updCp_pending (n : Nat) (f : Cp → Cp) : (updCp s n f).pending = s.pending := rfl
@[simp] theorem getCore_updCp (m : Nat) (n : Nat) (f : Cp → Cp) : getCore (updCp s n f) m = getCore s m := rfl
@[simp] theorem getDom_updCp (m : Nat) (n : Nat) (f : Cp → Cp) : getDom (updCp s n f) m = getDom s m := rfl
@[simp] theorem getPort_updCp (m : Nat) (n : Nat) (f : Cp → Cp) : getPort (updCp s n f) m = getPort s m := rfl
@[simp] theorem getChn_updCp (m : Nat) (n : Nat) (f : Cp → Cp) : getChn (updCp s n f) m = getChn s m := rfl
@[simp] theorem getZone_updCp (m : Nat) (n : Nat) (f : Cp → Cp) : getZone (updCp s n f) m = getZone s m := rfl
@[simp] theorem getVcore_updCp (m k : Nat) (n : Nat) (f : Cp → Cp) : getVcore (updCp s n f) m k = getVcore s m k := rfl
@[simp] theorem getPcie_updCp (m : Nat) (n : Nat) (f : Cp → Cp) : getPcie (updCp s n f) m = getPcie s m := rfl
@[simp] theorem getLine_updCp (m k : Nat) (n : Nat) (f : Cp → Cp) : getLine (updCp s n f) m k = getLine s m k := rfl
@[simp] theorem getPage_updCp (m : Nat) (n : Nat) (f : Cp → Cp) : getPage (updCp s n f) m = getPage s m := rfl
@[simp] theorem getOp_updCp (m : Nat) (n : Nat) (f : Cp → Cp) : getOp (updCp s n f) m = getOp s m := rfl
@[simp] theorem getSlot_updCp (m : Nat) (n : Nat) (f : Cp → Cp) : getSlot (updCp s n f) m = getSlot s m := rfl

/-! `putOp` writes the field `chs` only. -/

@[simp] theorem putOp_part (n : Nat) (o : ChOp) : (putOp s n o).part = s.part := rfl
@[simp] theorem putOp_power (n : Nat) (o : ChOp) : (putOp s n o).power = s.power := rfl
@[simp] theorem putOp_devId (n : Nat) (o : ChOp) : (putOp s n o).devId = s.devId := rfl
@[simp] theorem putOp_devValid (n : Nat) (o : ChOp) : (putOp s n o).devValid = s.devValid := rfl
@[simp] theorem putOp_quadOnline (n : Nat) (o : ChOp) : (putOp s n o).quadOnline = s.quadOnline := rfl
@[simp] theorem putOp_spareInUse (n : Nat) (o : ChOp) : (putOp s n o).spareInUse = s.spareInUse := rfl
@[simp] theorem putOp_mer (n : Nat) (o : ChOp) : (putOp s n o).mer = s.mer := rfl
@[simp] theorem putOp_vin (n : Nat) (o : ChOp) : (putOp s n o).vin = s.vin := rfl
@[simp] theorem putOp_staged (n : Nat) (o : ChOp) : (putOp s n o).staged = s.staged := rfl
@[simp] theorem putOp_counters (n : Nat) (o : ChOp) : (putOp s n o).counters = s.counters := rfl
@[simp] theorem putOp_marks (n : Nat) (o : ChOp) : (putOp s n o).marks = s.marks := rfl
@[simp] theorem putOp_cores (n : Nat) (o : ChOp) : (putOp s n o).cores = s.cores := rfl
@[simp] theorem putOp_sxt (n : Nat) (o : ChOp) : (putOp s n o).sxt = s.sxt := rfl
@[simp] theorem putOp_lines (n : Nat) (o : ChOp) : (putOp s n o).lines = s.lines := rfl
@[simp] theorem putOp_l3 (n : Nat) (o : ChOp) : (putOp s n o).l3 = s.l3 := rfl
@[simp] theorem putOp_reqs (n : Nat) (o : ChOp) : (putOp s n o).reqs = s.reqs := rfl
@[simp] theorem putOp_wbs (n : Nat) (o : ChOp) : (putOp s n o).wbs = s.wbs := rfl
@[simp] theorem putOp_home (n : Nat) (o : ChOp) : (putOp s n o).home = s.home := rfl
@[simp] theorem putOp_mem (n : Nat) (o : ChOp) : (putOp s n o).mem = s.mem := rfl
@[simp] theorem putOp_tree (n : Nat) (o : ChOp) : (putOp s n o).tree = s.tree := rfl
@[simp] theorem putOp_fab (n : Nat) (o : ChOp) : (putOp s n o).fab = s.fab := rfl
@[simp] theorem putOp_mov (n : Nat) (o : ChOp) : (putOp s n o).mov = s.mov := rfl
@[simp] theorem putOp_cmp (n : Nat) (o : ChOp) : (putOp s n o).cmp = s.cmp := rfl
@[simp] theorem putOp_cip (n : Nat) (o : ChOp) : (putOp s n o).cip = s.cip := rfl
@[simp] theorem putOp_zon (n : Nat) (o : ChOp) : (putOp s n o).zon = s.zon := rfl
@[simp] theorem putOp_bnd (n : Nat) (o : ChOp) : (putOp s n o).bnd = s.bnd := rfl
@[simp] theorem putOp_rlx (n : Nat) (o : ChOp) : (putOp s n o).rlx = s.rlx := rfl
@[simp] theorem putOp_flt (n : Nat) (o : ChOp) : (putOp s n o).flt = s.flt := rfl
@[simp] theorem putOp_log (n : Nat) (o : ChOp) : (putOp s n o).log = s.log := rfl
@[simp] theorem putOp_pcie (n : Nat) (o : ChOp) : (putOp s n o).pcie = s.pcie := rfl
@[simp] theorem putOp_fresh (n : Nat) (o : ChOp) : (putOp s n o).fresh = s.fresh := rfl
@[simp] theorem putOp_pending (n : Nat) (o : ChOp) : (putOp s n o).pending = s.pending := rfl
@[simp] theorem getCore_putOp (m : Nat) (n : Nat) (o : ChOp) : getCore (putOp s n o) m = getCore s m := rfl
@[simp] theorem getDom_putOp (m : Nat) (n : Nat) (o : ChOp) : getDom (putOp s n o) m = getDom s m := rfl
@[simp] theorem getPort_putOp (m : Nat) (n : Nat) (o : ChOp) : getPort (putOp s n o) m = getPort s m := rfl
@[simp] theorem getChn_putOp (m : Nat) (n : Nat) (o : ChOp) : getChn (putOp s n o) m = getChn s m := rfl
@[simp] theorem getZone_putOp (m : Nat) (n : Nat) (o : ChOp) : getZone (putOp s n o) m = getZone s m := rfl
@[simp] theorem getVcore_putOp (m k : Nat) (n : Nat) (o : ChOp) : getVcore (putOp s n o) m k = getVcore s m k := rfl
@[simp] theorem getPcie_putOp (m : Nat) (n : Nat) (o : ChOp) : getPcie (putOp s n o) m = getPcie s m := rfl
@[simp] theorem getLine_putOp (m k : Nat) (n : Nat) (o : ChOp) : getLine (putOp s n o) m k = getLine s m k := rfl
@[simp] theorem getPage_putOp (m : Nat) (n : Nat) (o : ChOp) : getPage (putOp s n o) m = getPage s m := rfl
@[simp] theorem getSlot_putOp (m : Nat) (n : Nat) (o : ChOp) : getSlot (putOp s n o) m = getSlot s m := rfl

/-! `setLine` writes the field `lines` only. -/

@[simp] theorem setLine_part (q gl : Nat) (l : AgentLine) : (setLine s q gl l).part = s.part := rfl
@[simp] theorem setLine_power (q gl : Nat) (l : AgentLine) : (setLine s q gl l).power = s.power := rfl
@[simp] theorem setLine_devId (q gl : Nat) (l : AgentLine) : (setLine s q gl l).devId = s.devId := rfl
@[simp] theorem setLine_devValid (q gl : Nat) (l : AgentLine) : (setLine s q gl l).devValid = s.devValid := rfl
@[simp] theorem setLine_quadOnline (q gl : Nat) (l : AgentLine) : (setLine s q gl l).quadOnline = s.quadOnline := rfl
@[simp] theorem setLine_spareInUse (q gl : Nat) (l : AgentLine) : (setLine s q gl l).spareInUse = s.spareInUse := rfl
@[simp] theorem setLine_mer (q gl : Nat) (l : AgentLine) : (setLine s q gl l).mer = s.mer := rfl
@[simp] theorem setLine_vin (q gl : Nat) (l : AgentLine) : (setLine s q gl l).vin = s.vin := rfl
@[simp] theorem setLine_staged (q gl : Nat) (l : AgentLine) : (setLine s q gl l).staged = s.staged := rfl
@[simp] theorem setLine_counters (q gl : Nat) (l : AgentLine) : (setLine s q gl l).counters = s.counters := rfl
@[simp] theorem setLine_marks (q gl : Nat) (l : AgentLine) : (setLine s q gl l).marks = s.marks := rfl
@[simp] theorem setLine_cores (q gl : Nat) (l : AgentLine) : (setLine s q gl l).cores = s.cores := rfl
@[simp] theorem setLine_sxt (q gl : Nat) (l : AgentLine) : (setLine s q gl l).sxt = s.sxt := rfl
@[simp] theorem setLine_l3 (q gl : Nat) (l : AgentLine) : (setLine s q gl l).l3 = s.l3 := rfl
@[simp] theorem setLine_reqs (q gl : Nat) (l : AgentLine) : (setLine s q gl l).reqs = s.reqs := rfl
@[simp] theorem setLine_wbs (q gl : Nat) (l : AgentLine) : (setLine s q gl l).wbs = s.wbs := rfl
@[simp] theorem setLine_home (q gl : Nat) (l : AgentLine) : (setLine s q gl l).home = s.home := rfl
@[simp] theorem setLine_mem (q gl : Nat) (l : AgentLine) : (setLine s q gl l).mem = s.mem := rfl
@[simp] theorem setLine_tree (q gl : Nat) (l : AgentLine) : (setLine s q gl l).tree = s.tree := rfl
@[simp] theorem setLine_fab (q gl : Nat) (l : AgentLine) : (setLine s q gl l).fab = s.fab := rfl
@[simp] theorem setLine_chs (q gl : Nat) (l : AgentLine) : (setLine s q gl l).chs = s.chs := rfl
@[simp] theorem setLine_mov (q gl : Nat) (l : AgentLine) : (setLine s q gl l).mov = s.mov := rfl
@[simp] theorem setLine_cmp (q gl : Nat) (l : AgentLine) : (setLine s q gl l).cmp = s.cmp := rfl
@[simp] theorem setLine_cip (q gl : Nat) (l : AgentLine) : (setLine s q gl l).cip = s.cip := rfl
@[simp] theorem setLine_zon (q gl : Nat) (l : AgentLine) : (setLine s q gl l).zon = s.zon := rfl
@[simp] theorem setLine_bnd (q gl : Nat) (l : AgentLine) : (setLine s q gl l).bnd = s.bnd := rfl
@[simp] theorem setLine_rlx (q gl : Nat) (l : AgentLine) : (setLine s q gl l).rlx = s.rlx := rfl
@[simp] theorem setLine_flt (q gl : Nat) (l : AgentLine) : (setLine s q gl l).flt = s.flt := rfl
@[simp] theorem setLine_log (q gl : Nat) (l : AgentLine) : (setLine s q gl l).log = s.log := rfl
@[simp] theorem setLine_pcie (q gl : Nat) (l : AgentLine) : (setLine s q gl l).pcie = s.pcie := rfl
@[simp] theorem setLine_fresh (q gl : Nat) (l : AgentLine) : (setLine s q gl l).fresh = s.fresh := rfl
@[simp] theorem setLine_pending (q gl : Nat) (l : AgentLine) : (setLine s q gl l).pending = s.pending := rfl
@[simp] theorem getCore_setLine (m : Nat) (q gl : Nat) (l : AgentLine) : getCore (setLine s q gl l) m = getCore s m := rfl
@[simp] theorem getDom_setLine (m : Nat) (q gl : Nat) (l : AgentLine) : getDom (setLine s q gl l) m = getDom s m := rfl
@[simp] theorem getPort_setLine (m : Nat) (q gl : Nat) (l : AgentLine) : getPort (setLine s q gl l) m = getPort s m := rfl
@[simp] theorem getChn_setLine (m : Nat) (q gl : Nat) (l : AgentLine) : getChn (setLine s q gl l) m = getChn s m := rfl
@[simp] theorem getZone_setLine (m : Nat) (q gl : Nat) (l : AgentLine) : getZone (setLine s q gl l) m = getZone s m := rfl
@[simp] theorem getVcore_setLine (m k : Nat) (q gl : Nat) (l : AgentLine) : getVcore (setLine s q gl l) m k = getVcore s m k := rfl
@[simp] theorem getPcie_setLine (m : Nat) (q gl : Nat) (l : AgentLine) : getPcie (setLine s q gl l) m = getPcie s m := rfl
@[simp] theorem getPage_setLine (m : Nat) (q gl : Nat) (l : AgentLine) : getPage (setLine s q gl l) m = getPage s m := rfl
@[simp] theorem getOp_setLine (m : Nat) (q gl : Nat) (l : AgentLine) : getOp (setLine s q gl l) m = getOp s m := rfl
@[simp] theorem getSlot_setLine (m : Nat) (q gl : Nat) (l : AgentLine) : getSlot (setLine s q gl l) m = getSlot s m := rfl

/-! `setDir` writes the field `home` only. -/

@[simp] theorem setDir_part (i : Nat) (e : DirEntry) : (setDir s i e).part = s.part := rfl
@[simp] theorem setDir_power (i : Nat) (e : DirEntry) : (setDir s i e).power = s.power := rfl
@[simp] theorem setDir_devId (i : Nat) (e : DirEntry) : (setDir s i e).devId = s.devId := rfl
@[simp] theorem setDir_devValid (i : Nat) (e : DirEntry) : (setDir s i e).devValid = s.devValid := rfl
@[simp] theorem setDir_quadOnline (i : Nat) (e : DirEntry) : (setDir s i e).quadOnline = s.quadOnline := rfl
@[simp] theorem setDir_spareInUse (i : Nat) (e : DirEntry) : (setDir s i e).spareInUse = s.spareInUse := rfl
@[simp] theorem setDir_mer (i : Nat) (e : DirEntry) : (setDir s i e).mer = s.mer := rfl
@[simp] theorem setDir_vin (i : Nat) (e : DirEntry) : (setDir s i e).vin = s.vin := rfl
@[simp] theorem setDir_staged (i : Nat) (e : DirEntry) : (setDir s i e).staged = s.staged := rfl
@[simp] theorem setDir_counters (i : Nat) (e : DirEntry) : (setDir s i e).counters = s.counters := rfl
@[simp] theorem setDir_marks (i : Nat) (e : DirEntry) : (setDir s i e).marks = s.marks := rfl
@[simp] theorem setDir_cores (i : Nat) (e : DirEntry) : (setDir s i e).cores = s.cores := rfl
@[simp] theorem setDir_sxt (i : Nat) (e : DirEntry) : (setDir s i e).sxt = s.sxt := rfl
@[simp] theorem setDir_lines (i : Nat) (e : DirEntry) : (setDir s i e).lines = s.lines := rfl
@[simp] theorem setDir_l3 (i : Nat) (e : DirEntry) : (setDir s i e).l3 = s.l3 := rfl
@[simp] theorem setDir_reqs (i : Nat) (e : DirEntry) : (setDir s i e).reqs = s.reqs := rfl
@[simp] theorem setDir_wbs (i : Nat) (e : DirEntry) : (setDir s i e).wbs = s.wbs := rfl
@[simp] theorem setDir_mem (i : Nat) (e : DirEntry) : (setDir s i e).mem = s.mem := rfl
@[simp] theorem setDir_tree (i : Nat) (e : DirEntry) : (setDir s i e).tree = s.tree := rfl
@[simp] theorem setDir_fab (i : Nat) (e : DirEntry) : (setDir s i e).fab = s.fab := rfl
@[simp] theorem setDir_chs (i : Nat) (e : DirEntry) : (setDir s i e).chs = s.chs := rfl
@[simp] theorem setDir_mov (i : Nat) (e : DirEntry) : (setDir s i e).mov = s.mov := rfl
@[simp] theorem setDir_cmp (i : Nat) (e : DirEntry) : (setDir s i e).cmp = s.cmp := rfl
@[simp] theorem setDir_cip (i : Nat) (e : DirEntry) : (setDir s i e).cip = s.cip := rfl
@[simp] theorem setDir_zon (i : Nat) (e : DirEntry) : (setDir s i e).zon = s.zon := rfl
@[simp] theorem setDir_bnd (i : Nat) (e : DirEntry) : (setDir s i e).bnd = s.bnd := rfl
@[simp] theorem setDir_rlx (i : Nat) (e : DirEntry) : (setDir s i e).rlx = s.rlx := rfl
@[simp] theorem setDir_flt (i : Nat) (e : DirEntry) : (setDir s i e).flt = s.flt := rfl
@[simp] theorem setDir_log (i : Nat) (e : DirEntry) : (setDir s i e).log = s.log := rfl
@[simp] theorem setDir_pcie (i : Nat) (e : DirEntry) : (setDir s i e).pcie = s.pcie := rfl
@[simp] theorem setDir_fresh (i : Nat) (e : DirEntry) : (setDir s i e).fresh = s.fresh := rfl
@[simp] theorem setDir_pending (i : Nat) (e : DirEntry) : (setDir s i e).pending = s.pending := rfl
@[simp] theorem getCore_setDir (m : Nat) (i : Nat) (e : DirEntry) : getCore (setDir s i e) m = getCore s m := rfl
@[simp] theorem getDom_setDir (m : Nat) (i : Nat) (e : DirEntry) : getDom (setDir s i e) m = getDom s m := rfl
@[simp] theorem getPort_setDir (m : Nat) (i : Nat) (e : DirEntry) : getPort (setDir s i e) m = getPort s m := rfl
@[simp] theorem getChn_setDir (m : Nat) (i : Nat) (e : DirEntry) : getChn (setDir s i e) m = getChn s m := rfl
@[simp] theorem getZone_setDir (m : Nat) (i : Nat) (e : DirEntry) : getZone (setDir s i e) m = getZone s m := rfl
@[simp] theorem getVcore_setDir (m k : Nat) (i : Nat) (e : DirEntry) : getVcore (setDir s i e) m k = getVcore s m k := rfl
@[simp] theorem getPcie_setDir (m : Nat) (i : Nat) (e : DirEntry) : getPcie (setDir s i e) m = getPcie s m := rfl
@[simp] theorem getLine_setDir (m k : Nat) (i : Nat) (e : DirEntry) : getLine (setDir s i e) m k = getLine s m k := rfl
@[simp] theorem getPage_setDir (m : Nat) (i : Nat) (e : DirEntry) : getPage (setDir s i e) m = getPage s m := rfl
@[simp] theorem getOp_setDir (m : Nat) (i : Nat) (e : DirEntry) : getOp (setDir s i e) m = getOp s m := rfl
@[simp] theorem getSlot_setDir (m : Nat) (i : Nat) (e : DirEntry) : getSlot (setDir s i e) m = getSlot s m := rfl

/-! `putTxn` writes the field `home` only. -/

@[simp] theorem putTxn_part (t : Txn) : (putTxn s t).part = s.part := rfl
@[simp] theorem putTxn_power (t : Txn) : (putTxn s t).power = s.power := rfl
@[simp] theorem putTxn_devId (t : Txn) : (putTxn s t).devId = s.devId := rfl
@[simp] theorem putTxn_devValid (t : Txn) : (putTxn s t).devValid = s.devValid := rfl
@[simp] theorem putTxn_quadOnline (t : Txn) : (putTxn s t).quadOnline = s.quadOnline := rfl
@[simp] theorem putTxn_spareInUse (t : Txn) : (putTxn s t).spareInUse = s.spareInUse := rfl
@[simp] theorem putTxn_mer (t : Txn) : (putTxn s t).mer = s.mer := rfl
@[simp] theorem putTxn_vin (t : Txn) : (putTxn s t).vin = s.vin := rfl
@[simp] theorem putTxn_staged (t : Txn) : (putTxn s t).staged = s.staged := rfl
@[simp] theorem putTxn_counters (t : Txn) : (putTxn s t).counters = s.counters := rfl
@[simp] theorem putTxn_marks (t : Txn) : (putTxn s t).marks = s.marks := rfl
@[simp] theorem putTxn_cores (t : Txn) : (putTxn s t).cores = s.cores := rfl
@[simp] theorem putTxn_sxt (t : Txn) : (putTxn s t).sxt = s.sxt := rfl
@[simp] theorem putTxn_lines (t : Txn) : (putTxn s t).lines = s.lines := rfl
@[simp] theorem putTxn_l3 (t : Txn) : (putTxn s t).l3 = s.l3 := rfl
@[simp] theorem putTxn_reqs (t : Txn) : (putTxn s t).reqs = s.reqs := rfl
@[simp] theorem putTxn_wbs (t : Txn) : (putTxn s t).wbs = s.wbs := rfl
@[simp] theorem putTxn_mem (t : Txn) : (putTxn s t).mem = s.mem := rfl
@[simp] theorem putTxn_tree (t : Txn) : (putTxn s t).tree = s.tree := rfl
@[simp] theorem putTxn_fab (t : Txn) : (putTxn s t).fab = s.fab := rfl
@[simp] theorem putTxn_chs (t : Txn) : (putTxn s t).chs = s.chs := rfl
@[simp] theorem putTxn_mov (t : Txn) : (putTxn s t).mov = s.mov := rfl
@[simp] theorem putTxn_cmp (t : Txn) : (putTxn s t).cmp = s.cmp := rfl
@[simp] theorem putTxn_cip (t : Txn) : (putTxn s t).cip = s.cip := rfl
@[simp] theorem putTxn_zon (t : Txn) : (putTxn s t).zon = s.zon := rfl
@[simp] theorem putTxn_bnd (t : Txn) : (putTxn s t).bnd = s.bnd := rfl
@[simp] theorem putTxn_rlx (t : Txn) : (putTxn s t).rlx = s.rlx := rfl
@[simp] theorem putTxn_flt (t : Txn) : (putTxn s t).flt = s.flt := rfl
@[simp] theorem putTxn_log (t : Txn) : (putTxn s t).log = s.log := rfl
@[simp] theorem putTxn_pcie (t : Txn) : (putTxn s t).pcie = s.pcie := rfl
@[simp] theorem putTxn_fresh (t : Txn) : (putTxn s t).fresh = s.fresh := rfl
@[simp] theorem putTxn_pending (t : Txn) : (putTxn s t).pending = s.pending := rfl
@[simp] theorem getCore_putTxn (m : Nat) (t : Txn) : getCore (putTxn s t) m = getCore s m := rfl
@[simp] theorem getDom_putTxn (m : Nat) (t : Txn) : getDom (putTxn s t) m = getDom s m := rfl
@[simp] theorem getPort_putTxn (m : Nat) (t : Txn) : getPort (putTxn s t) m = getPort s m := rfl
@[simp] theorem getChn_putTxn (m : Nat) (t : Txn) : getChn (putTxn s t) m = getChn s m := rfl
@[simp] theorem getZone_putTxn (m : Nat) (t : Txn) : getZone (putTxn s t) m = getZone s m := rfl
@[simp] theorem getVcore_putTxn (m k : Nat) (t : Txn) : getVcore (putTxn s t) m k = getVcore s m k := rfl
@[simp] theorem getPcie_putTxn (m : Nat) (t : Txn) : getPcie (putTxn s t) m = getPcie s m := rfl
@[simp] theorem getLine_putTxn (m k : Nat) (t : Txn) : getLine (putTxn s t) m k = getLine s m k := rfl
@[simp] theorem getPage_putTxn (m : Nat) (t : Txn) : getPage (putTxn s t) m = getPage s m := rfl
@[simp] theorem getOp_putTxn (m : Nat) (t : Txn) : getOp (putTxn s t) m = getOp s m := rfl
@[simp] theorem getSlot_putTxn (m : Nat) (t : Txn) : getSlot (putTxn s t) m = getSlot s m := rfl

/-! `setPage` writes the field `mem` only. -/

@[simp] theorem setPage_part (p : Nat) (e : PageEnt) : (setPage s p e).part = s.part := rfl
@[simp] theorem setPage_power (p : Nat) (e : PageEnt) : (setPage s p e).power = s.power := rfl
@[simp] theorem setPage_devId (p : Nat) (e : PageEnt) : (setPage s p e).devId = s.devId := rfl
@[simp] theorem setPage_devValid (p : Nat) (e : PageEnt) : (setPage s p e).devValid = s.devValid := rfl
@[simp] theorem setPage_quadOnline (p : Nat) (e : PageEnt) : (setPage s p e).quadOnline = s.quadOnline := rfl
@[simp] theorem setPage_spareInUse (p : Nat) (e : PageEnt) : (setPage s p e).spareInUse = s.spareInUse := rfl
@[simp] theorem setPage_mer (p : Nat) (e : PageEnt) : (setPage s p e).mer = s.mer := rfl
@[simp] theorem setPage_vin (p : Nat) (e : PageEnt) : (setPage s p e).vin = s.vin := rfl
@[simp] theorem setPage_staged (p : Nat) (e : PageEnt) : (setPage s p e).staged = s.staged := rfl
@[simp] theorem setPage_counters (p : Nat) (e : PageEnt) : (setPage s p e).counters = s.counters := rfl
@[simp] theorem setPage_marks (p : Nat) (e : PageEnt) : (setPage s p e).marks = s.marks := rfl
@[simp] theorem setPage_cores (p : Nat) (e : PageEnt) : (setPage s p e).cores = s.cores := rfl
@[simp] theorem setPage_sxt (p : Nat) (e : PageEnt) : (setPage s p e).sxt = s.sxt := rfl
@[simp] theorem setPage_lines (p : Nat) (e : PageEnt) : (setPage s p e).lines = s.lines := rfl
@[simp] theorem setPage_l3 (p : Nat) (e : PageEnt) : (setPage s p e).l3 = s.l3 := rfl
@[simp] theorem setPage_reqs (p : Nat) (e : PageEnt) : (setPage s p e).reqs = s.reqs := rfl
@[simp] theorem setPage_wbs (p : Nat) (e : PageEnt) : (setPage s p e).wbs = s.wbs := rfl
@[simp] theorem setPage_home (p : Nat) (e : PageEnt) : (setPage s p e).home = s.home := rfl
@[simp] theorem setPage_tree (p : Nat) (e : PageEnt) : (setPage s p e).tree = s.tree := rfl
@[simp] theorem setPage_fab (p : Nat) (e : PageEnt) : (setPage s p e).fab = s.fab := rfl
@[simp] theorem setPage_chs (p : Nat) (e : PageEnt) : (setPage s p e).chs = s.chs := rfl
@[simp] theorem setPage_mov (p : Nat) (e : PageEnt) : (setPage s p e).mov = s.mov := rfl
@[simp] theorem setPage_cmp (p : Nat) (e : PageEnt) : (setPage s p e).cmp = s.cmp := rfl
@[simp] theorem setPage_cip (p : Nat) (e : PageEnt) : (setPage s p e).cip = s.cip := rfl
@[simp] theorem setPage_zon (p : Nat) (e : PageEnt) : (setPage s p e).zon = s.zon := rfl
@[simp] theorem setPage_bnd (p : Nat) (e : PageEnt) : (setPage s p e).bnd = s.bnd := rfl
@[simp] theorem setPage_rlx (p : Nat) (e : PageEnt) : (setPage s p e).rlx = s.rlx := rfl
@[simp] theorem setPage_flt (p : Nat) (e : PageEnt) : (setPage s p e).flt = s.flt := rfl
@[simp] theorem setPage_log (p : Nat) (e : PageEnt) : (setPage s p e).log = s.log := rfl
@[simp] theorem setPage_pcie (p : Nat) (e : PageEnt) : (setPage s p e).pcie = s.pcie := rfl
@[simp] theorem setPage_fresh (p : Nat) (e : PageEnt) : (setPage s p e).fresh = s.fresh := rfl
@[simp] theorem setPage_pending (p : Nat) (e : PageEnt) : (setPage s p e).pending = s.pending := rfl
@[simp] theorem getCore_setPage (m : Nat) (p : Nat) (e : PageEnt) : getCore (setPage s p e) m = getCore s m := rfl
@[simp] theorem getDom_setPage (m : Nat) (p : Nat) (e : PageEnt) : getDom (setPage s p e) m = getDom s m := rfl
@[simp] theorem getPort_setPage (m : Nat) (p : Nat) (e : PageEnt) : getPort (setPage s p e) m = getPort s m := rfl
@[simp] theorem getChn_setPage (m : Nat) (p : Nat) (e : PageEnt) : getChn (setPage s p e) m = getChn s m := rfl
@[simp] theorem getZone_setPage (m : Nat) (p : Nat) (e : PageEnt) : getZone (setPage s p e) m = getZone s m := rfl
@[simp] theorem getVcore_setPage (m k : Nat) (p : Nat) (e : PageEnt) : getVcore (setPage s p e) m k = getVcore s m k := rfl
@[simp] theorem getPcie_setPage (m : Nat) (p : Nat) (e : PageEnt) : getPcie (setPage s p e) m = getPcie s m := rfl
@[simp] theorem getLine_setPage (m k : Nat) (p : Nat) (e : PageEnt) : getLine (setPage s p e) m k = getLine s m k := rfl
@[simp] theorem getOp_setPage (m : Nat) (p : Nat) (e : PageEnt) : getOp (setPage s p e) m = getOp s m := rfl
@[simp] theorem getSlot_setPage (m : Nat) (p : Nat) (e : PageEnt) : getSlot (setPage s p e) m = getSlot s m := rfl

/-! `updList` writes the field `mem` only. -/

@[simp] theorem updList_part (z : Nat) (f : FreeList → FreeList) : (updList s z f).part = s.part := rfl
@[simp] theorem updList_power (z : Nat) (f : FreeList → FreeList) : (updList s z f).power = s.power := rfl
@[simp] theorem updList_devId (z : Nat) (f : FreeList → FreeList) : (updList s z f).devId = s.devId := rfl
@[simp] theorem updList_devValid (z : Nat) (f : FreeList → FreeList) : (updList s z f).devValid = s.devValid := rfl
@[simp] theorem updList_quadOnline (z : Nat) (f : FreeList → FreeList) : (updList s z f).quadOnline = s.quadOnline := rfl
@[simp] theorem updList_spareInUse (z : Nat) (f : FreeList → FreeList) : (updList s z f).spareInUse = s.spareInUse := rfl
@[simp] theorem updList_mer (z : Nat) (f : FreeList → FreeList) : (updList s z f).mer = s.mer := rfl
@[simp] theorem updList_vin (z : Nat) (f : FreeList → FreeList) : (updList s z f).vin = s.vin := rfl
@[simp] theorem updList_staged (z : Nat) (f : FreeList → FreeList) : (updList s z f).staged = s.staged := rfl
@[simp] theorem updList_counters (z : Nat) (f : FreeList → FreeList) : (updList s z f).counters = s.counters := rfl
@[simp] theorem updList_marks (z : Nat) (f : FreeList → FreeList) : (updList s z f).marks = s.marks := rfl
@[simp] theorem updList_cores (z : Nat) (f : FreeList → FreeList) : (updList s z f).cores = s.cores := rfl
@[simp] theorem updList_sxt (z : Nat) (f : FreeList → FreeList) : (updList s z f).sxt = s.sxt := rfl
@[simp] theorem updList_lines (z : Nat) (f : FreeList → FreeList) : (updList s z f).lines = s.lines := rfl
@[simp] theorem updList_l3 (z : Nat) (f : FreeList → FreeList) : (updList s z f).l3 = s.l3 := rfl
@[simp] theorem updList_reqs (z : Nat) (f : FreeList → FreeList) : (updList s z f).reqs = s.reqs := rfl
@[simp] theorem updList_wbs (z : Nat) (f : FreeList → FreeList) : (updList s z f).wbs = s.wbs := rfl
@[simp] theorem updList_home (z : Nat) (f : FreeList → FreeList) : (updList s z f).home = s.home := rfl
@[simp] theorem updList_tree (z : Nat) (f : FreeList → FreeList) : (updList s z f).tree = s.tree := rfl
@[simp] theorem updList_fab (z : Nat) (f : FreeList → FreeList) : (updList s z f).fab = s.fab := rfl
@[simp] theorem updList_chs (z : Nat) (f : FreeList → FreeList) : (updList s z f).chs = s.chs := rfl
@[simp] theorem updList_mov (z : Nat) (f : FreeList → FreeList) : (updList s z f).mov = s.mov := rfl
@[simp] theorem updList_cmp (z : Nat) (f : FreeList → FreeList) : (updList s z f).cmp = s.cmp := rfl
@[simp] theorem updList_cip (z : Nat) (f : FreeList → FreeList) : (updList s z f).cip = s.cip := rfl
@[simp] theorem updList_zon (z : Nat) (f : FreeList → FreeList) : (updList s z f).zon = s.zon := rfl
@[simp] theorem updList_bnd (z : Nat) (f : FreeList → FreeList) : (updList s z f).bnd = s.bnd := rfl
@[simp] theorem updList_rlx (z : Nat) (f : FreeList → FreeList) : (updList s z f).rlx = s.rlx := rfl
@[simp] theorem updList_flt (z : Nat) (f : FreeList → FreeList) : (updList s z f).flt = s.flt := rfl
@[simp] theorem updList_log (z : Nat) (f : FreeList → FreeList) : (updList s z f).log = s.log := rfl
@[simp] theorem updList_pcie (z : Nat) (f : FreeList → FreeList) : (updList s z f).pcie = s.pcie := rfl
@[simp] theorem updList_fresh (z : Nat) (f : FreeList → FreeList) : (updList s z f).fresh = s.fresh := rfl
@[simp] theorem updList_pending (z : Nat) (f : FreeList → FreeList) : (updList s z f).pending = s.pending := rfl
@[simp] theorem getCore_updList (m : Nat) (z : Nat) (f : FreeList → FreeList) : getCore (updList s z f) m = getCore s m := rfl
@[simp] theorem getDom_updList (m : Nat) (z : Nat) (f : FreeList → FreeList) : getDom (updList s z f) m = getDom s m := rfl
@[simp] theorem getPort_updList (m : Nat) (z : Nat) (f : FreeList → FreeList) : getPort (updList s z f) m = getPort s m := rfl
@[simp] theorem getChn_updList (m : Nat) (z : Nat) (f : FreeList → FreeList) : getChn (updList s z f) m = getChn s m := rfl
@[simp] theorem getZone_updList (m : Nat) (z : Nat) (f : FreeList → FreeList) : getZone (updList s z f) m = getZone s m := rfl
@[simp] theorem getVcore_updList (m k : Nat) (z : Nat) (f : FreeList → FreeList) : getVcore (updList s z f) m k = getVcore s m k := rfl
@[simp] theorem getPcie_updList (m : Nat) (z : Nat) (f : FreeList → FreeList) : getPcie (updList s z f) m = getPcie s m := rfl
@[simp] theorem getLine_updList (m k : Nat) (z : Nat) (f : FreeList → FreeList) : getLine (updList s z f) m k = getLine s m k := rfl
@[simp] theorem getPage_updList (m : Nat) (z : Nat) (f : FreeList → FreeList) : getPage (updList s z f) m = getPage s m := rfl
@[simp] theorem getOp_updList (m : Nat) (z : Nat) (f : FreeList → FreeList) : getOp (updList s z f) m = getOp s m := rfl
@[simp] theorem getSlot_updList (m : Nat) (z : Nat) (f : FreeList → FreeList) : getSlot (updList s z f) m = getSlot s m := rfl

/-! `setSlot` writes the field `cip` only. -/

@[simp] theorem setSlot_part (n : Nat) (e : KeySlot) : (setSlot s n e).part = s.part := rfl
@[simp] theorem setSlot_power (n : Nat) (e : KeySlot) : (setSlot s n e).power = s.power := rfl
@[simp] theorem setSlot_devId (n : Nat) (e : KeySlot) : (setSlot s n e).devId = s.devId := rfl
@[simp] theorem setSlot_devValid (n : Nat) (e : KeySlot) : (setSlot s n e).devValid = s.devValid := rfl
@[simp] theorem setSlot_quadOnline (n : Nat) (e : KeySlot) : (setSlot s n e).quadOnline = s.quadOnline := rfl
@[simp] theorem setSlot_spareInUse (n : Nat) (e : KeySlot) : (setSlot s n e).spareInUse = s.spareInUse := rfl
@[simp] theorem setSlot_mer (n : Nat) (e : KeySlot) : (setSlot s n e).mer = s.mer := rfl
@[simp] theorem setSlot_vin (n : Nat) (e : KeySlot) : (setSlot s n e).vin = s.vin := rfl
@[simp] theorem setSlot_staged (n : Nat) (e : KeySlot) : (setSlot s n e).staged = s.staged := rfl
@[simp] theorem setSlot_counters (n : Nat) (e : KeySlot) : (setSlot s n e).counters = s.counters := rfl
@[simp] theorem setSlot_marks (n : Nat) (e : KeySlot) : (setSlot s n e).marks = s.marks := rfl
@[simp] theorem setSlot_cores (n : Nat) (e : KeySlot) : (setSlot s n e).cores = s.cores := rfl
@[simp] theorem setSlot_sxt (n : Nat) (e : KeySlot) : (setSlot s n e).sxt = s.sxt := rfl
@[simp] theorem setSlot_lines (n : Nat) (e : KeySlot) : (setSlot s n e).lines = s.lines := rfl
@[simp] theorem setSlot_l3 (n : Nat) (e : KeySlot) : (setSlot s n e).l3 = s.l3 := rfl
@[simp] theorem setSlot_reqs (n : Nat) (e : KeySlot) : (setSlot s n e).reqs = s.reqs := rfl
@[simp] theorem setSlot_wbs (n : Nat) (e : KeySlot) : (setSlot s n e).wbs = s.wbs := rfl
@[simp] theorem setSlot_home (n : Nat) (e : KeySlot) : (setSlot s n e).home = s.home := rfl
@[simp] theorem setSlot_mem (n : Nat) (e : KeySlot) : (setSlot s n e).mem = s.mem := rfl
@[simp] theorem setSlot_tree (n : Nat) (e : KeySlot) : (setSlot s n e).tree = s.tree := rfl
@[simp] theorem setSlot_fab (n : Nat) (e : KeySlot) : (setSlot s n e).fab = s.fab := rfl
@[simp] theorem setSlot_chs (n : Nat) (e : KeySlot) : (setSlot s n e).chs = s.chs := rfl
@[simp] theorem setSlot_mov (n : Nat) (e : KeySlot) : (setSlot s n e).mov = s.mov := rfl
@[simp] theorem setSlot_cmp (n : Nat) (e : KeySlot) : (setSlot s n e).cmp = s.cmp := rfl
@[simp] theorem setSlot_zon (n : Nat) (e : KeySlot) : (setSlot s n e).zon = s.zon := rfl
@[simp] theorem setSlot_bnd (n : Nat) (e : KeySlot) : (setSlot s n e).bnd = s.bnd := rfl
@[simp] theorem setSlot_rlx (n : Nat) (e : KeySlot) : (setSlot s n e).rlx = s.rlx := rfl
@[simp] theorem setSlot_flt (n : Nat) (e : KeySlot) : (setSlot s n e).flt = s.flt := rfl
@[simp] theorem setSlot_log (n : Nat) (e : KeySlot) : (setSlot s n e).log = s.log := rfl
@[simp] theorem setSlot_pcie (n : Nat) (e : KeySlot) : (setSlot s n e).pcie = s.pcie := rfl
@[simp] theorem setSlot_fresh (n : Nat) (e : KeySlot) : (setSlot s n e).fresh = s.fresh := rfl
@[simp] theorem setSlot_pending (n : Nat) (e : KeySlot) : (setSlot s n e).pending = s.pending := rfl
@[simp] theorem getCore_setSlot (m : Nat) (n : Nat) (e : KeySlot) : getCore (setSlot s n e) m = getCore s m := rfl
@[simp] theorem getDom_setSlot (m : Nat) (n : Nat) (e : KeySlot) : getDom (setSlot s n e) m = getDom s m := rfl
@[simp] theorem getPort_setSlot (m : Nat) (n : Nat) (e : KeySlot) : getPort (setSlot s n e) m = getPort s m := rfl
@[simp] theorem getChn_setSlot (m : Nat) (n : Nat) (e : KeySlot) : getChn (setSlot s n e) m = getChn s m := rfl
@[simp] theorem getZone_setSlot (m : Nat) (n : Nat) (e : KeySlot) : getZone (setSlot s n e) m = getZone s m := rfl
@[simp] theorem getVcore_setSlot (m k : Nat) (n : Nat) (e : KeySlot) : getVcore (setSlot s n e) m k = getVcore s m k := rfl
@[simp] theorem getPcie_setSlot (m : Nat) (n : Nat) (e : KeySlot) : getPcie (setSlot s n e) m = getPcie s m := rfl
@[simp] theorem getLine_setSlot (m k : Nat) (n : Nat) (e : KeySlot) : getLine (setSlot s n e) m k = getLine s m k := rfl
@[simp] theorem getPage_setSlot (m : Nat) (n : Nat) (e : KeySlot) : getPage (setSlot s n e) m = getPage s m := rfl
@[simp] theorem getOp_setSlot (m : Nat) (n : Nat) (e : KeySlot) : getOp (setSlot s n e) m = getOp s m := rfl

/-! `updPipe` writes the field `cip` only. -/

@[simp] theorem updPipe_part (e : Nat) (f : Pipe → Pipe) : (updPipe s e f).part = s.part := rfl
@[simp] theorem updPipe_power (e : Nat) (f : Pipe → Pipe) : (updPipe s e f).power = s.power := rfl
@[simp] theorem updPipe_devId (e : Nat) (f : Pipe → Pipe) : (updPipe s e f).devId = s.devId := rfl
@[simp] theorem updPipe_devValid (e : Nat) (f : Pipe → Pipe) : (updPipe s e f).devValid = s.devValid := rfl
@[simp] theorem updPipe_quadOnline (e : Nat) (f : Pipe → Pipe) : (updPipe s e f).quadOnline = s.quadOnline := rfl
@[simp] theorem updPipe_spareInUse (e : Nat) (f : Pipe → Pipe) : (updPipe s e f).spareInUse = s.spareInUse := rfl
@[simp] theorem updPipe_mer (e : Nat) (f : Pipe → Pipe) : (updPipe s e f).mer = s.mer := rfl
@[simp] theorem updPipe_vin (e : Nat) (f : Pipe → Pipe) : (updPipe s e f).vin = s.vin := rfl
@[simp] theorem updPipe_staged (e : Nat) (f : Pipe → Pipe) : (updPipe s e f).staged = s.staged := rfl
@[simp] theorem updPipe_counters (e : Nat) (f : Pipe → Pipe) : (updPipe s e f).counters = s.counters := rfl
@[simp] theorem updPipe_marks (e : Nat) (f : Pipe → Pipe) : (updPipe s e f).marks = s.marks := rfl
@[simp] theorem updPipe_cores (e : Nat) (f : Pipe → Pipe) : (updPipe s e f).cores = s.cores := rfl
@[simp] theorem updPipe_sxt (e : Nat) (f : Pipe → Pipe) : (updPipe s e f).sxt = s.sxt := rfl
@[simp] theorem updPipe_lines (e : Nat) (f : Pipe → Pipe) : (updPipe s e f).lines = s.lines := rfl
@[simp] theorem updPipe_l3 (e : Nat) (f : Pipe → Pipe) : (updPipe s e f).l3 = s.l3 := rfl
@[simp] theorem updPipe_reqs (e : Nat) (f : Pipe → Pipe) : (updPipe s e f).reqs = s.reqs := rfl
@[simp] theorem updPipe_wbs (e : Nat) (f : Pipe → Pipe) : (updPipe s e f).wbs = s.wbs := rfl
@[simp] theorem updPipe_home (e : Nat) (f : Pipe → Pipe) : (updPipe s e f).home = s.home := rfl
@[simp] theorem updPipe_mem (e : Nat) (f : Pipe → Pipe) : (updPipe s e f).mem = s.mem := rfl
@[simp] theorem updPipe_tree (e : Nat) (f : Pipe → Pipe) : (updPipe s e f).tree = s.tree := rfl
@[simp] theorem updPipe_fab (e : Nat) (f : Pipe → Pipe) : (updPipe s e f).fab = s.fab := rfl
@[simp] theorem updPipe_chs (e : Nat) (f : Pipe → Pipe) : (updPipe s e f).chs = s.chs := rfl
@[simp] theorem updPipe_mov (e : Nat) (f : Pipe → Pipe) : (updPipe s e f).mov = s.mov := rfl
@[simp] theorem updPipe_cmp (e : Nat) (f : Pipe → Pipe) : (updPipe s e f).cmp = s.cmp := rfl
@[simp] theorem updPipe_zon (e : Nat) (f : Pipe → Pipe) : (updPipe s e f).zon = s.zon := rfl
@[simp] theorem updPipe_bnd (e : Nat) (f : Pipe → Pipe) : (updPipe s e f).bnd = s.bnd := rfl
@[simp] theorem updPipe_rlx (e : Nat) (f : Pipe → Pipe) : (updPipe s e f).rlx = s.rlx := rfl
@[simp] theorem updPipe_flt (e : Nat) (f : Pipe → Pipe) : (updPipe s e f).flt = s.flt := rfl
@[simp] theorem updPipe_log (e : Nat) (f : Pipe → Pipe) : (updPipe s e f).log = s.log := rfl
@[simp] theorem updPipe_pcie (e : Nat) (f : Pipe → Pipe) : (updPipe s e f).pcie = s.pcie := rfl
@[simp] theorem updPipe_fresh (e : Nat) (f : Pipe → Pipe) : (updPipe s e f).fresh = s.fresh := rfl
@[simp] theorem updPipe_pending (e : Nat) (f : Pipe → Pipe) : (updPipe s e f).pending = s.pending := rfl
@[simp] theorem getCore_updPipe (m : Nat) (e : Nat) (f : Pipe → Pipe) : getCore (updPipe s e f) m = getCore s m := rfl
@[simp] theorem getDom_updPipe (m : Nat) (e : Nat) (f : Pipe → Pipe) : getDom (updPipe s e f) m = getDom s m := rfl
@[simp] theorem getPort_updPipe (m : Nat) (e : Nat) (f : Pipe → Pipe) : getPort (updPipe s e f) m = getPort s m := rfl
@[simp] theorem getChn_updPipe (m : Nat) (e : Nat) (f : Pipe → Pipe) : getChn (updPipe s e f) m = getChn s m := rfl
@[simp] theorem getZone_updPipe (m : Nat) (e : Nat) (f : Pipe → Pipe) : getZone (updPipe s e f) m = getZone s m := rfl
@[simp] theorem getVcore_updPipe (m k : Nat) (e : Nat) (f : Pipe → Pipe) : getVcore (updPipe s e f) m k = getVcore s m k := rfl
@[simp] theorem getPcie_updPipe (m : Nat) (e : Nat) (f : Pipe → Pipe) : getPcie (updPipe s e f) m = getPcie s m := rfl
@[simp] theorem getLine_updPipe (m k : Nat) (e : Nat) (f : Pipe → Pipe) : getLine (updPipe s e f) m k = getLine s m k := rfl
@[simp] theorem getPage_updPipe (m : Nat) (e : Nat) (f : Pipe → Pipe) : getPage (updPipe s e f) m = getPage s m := rfl
@[simp] theorem getOp_updPipe (m : Nat) (e : Nat) (f : Pipe → Pipe) : getOp (updPipe s e f) m = getOp s m := rfl
@[simp] theorem getSlot_updPipe (m : Nat) (e : Nat) (f : Pipe → Pipe) : getSlot (updPipe s e f) m = getSlot s m := rfl

/-! `updEng` writes the field `cmp` only. -/

@[simp] theorem updEng_part (e : Nat) (f : CmpEng → CmpEng) : (updEng s e f).part = s.part := rfl
@[simp] theorem updEng_power (e : Nat) (f : CmpEng → CmpEng) : (updEng s e f).power = s.power := rfl
@[simp] theorem updEng_devId (e : Nat) (f : CmpEng → CmpEng) : (updEng s e f).devId = s.devId := rfl
@[simp] theorem updEng_devValid (e : Nat) (f : CmpEng → CmpEng) : (updEng s e f).devValid = s.devValid := rfl
@[simp] theorem updEng_quadOnline (e : Nat) (f : CmpEng → CmpEng) : (updEng s e f).quadOnline = s.quadOnline := rfl
@[simp] theorem updEng_spareInUse (e : Nat) (f : CmpEng → CmpEng) : (updEng s e f).spareInUse = s.spareInUse := rfl
@[simp] theorem updEng_mer (e : Nat) (f : CmpEng → CmpEng) : (updEng s e f).mer = s.mer := rfl
@[simp] theorem updEng_vin (e : Nat) (f : CmpEng → CmpEng) : (updEng s e f).vin = s.vin := rfl
@[simp] theorem updEng_staged (e : Nat) (f : CmpEng → CmpEng) : (updEng s e f).staged = s.staged := rfl
@[simp] theorem updEng_counters (e : Nat) (f : CmpEng → CmpEng) : (updEng s e f).counters = s.counters := rfl
@[simp] theorem updEng_marks (e : Nat) (f : CmpEng → CmpEng) : (updEng s e f).marks = s.marks := rfl
@[simp] theorem updEng_cores (e : Nat) (f : CmpEng → CmpEng) : (updEng s e f).cores = s.cores := rfl
@[simp] theorem updEng_sxt (e : Nat) (f : CmpEng → CmpEng) : (updEng s e f).sxt = s.sxt := rfl
@[simp] theorem updEng_lines (e : Nat) (f : CmpEng → CmpEng) : (updEng s e f).lines = s.lines := rfl
@[simp] theorem updEng_l3 (e : Nat) (f : CmpEng → CmpEng) : (updEng s e f).l3 = s.l3 := rfl
@[simp] theorem updEng_reqs (e : Nat) (f : CmpEng → CmpEng) : (updEng s e f).reqs = s.reqs := rfl
@[simp] theorem updEng_wbs (e : Nat) (f : CmpEng → CmpEng) : (updEng s e f).wbs = s.wbs := rfl
@[simp] theorem updEng_home (e : Nat) (f : CmpEng → CmpEng) : (updEng s e f).home = s.home := rfl
@[simp] theorem updEng_mem (e : Nat) (f : CmpEng → CmpEng) : (updEng s e f).mem = s.mem := rfl
@[simp] theorem updEng_tree (e : Nat) (f : CmpEng → CmpEng) : (updEng s e f).tree = s.tree := rfl
@[simp] theorem updEng_fab (e : Nat) (f : CmpEng → CmpEng) : (updEng s e f).fab = s.fab := rfl
@[simp] theorem updEng_chs (e : Nat) (f : CmpEng → CmpEng) : (updEng s e f).chs = s.chs := rfl
@[simp] theorem updEng_mov (e : Nat) (f : CmpEng → CmpEng) : (updEng s e f).mov = s.mov := rfl
@[simp] theorem updEng_cip (e : Nat) (f : CmpEng → CmpEng) : (updEng s e f).cip = s.cip := rfl
@[simp] theorem updEng_zon (e : Nat) (f : CmpEng → CmpEng) : (updEng s e f).zon = s.zon := rfl
@[simp] theorem updEng_bnd (e : Nat) (f : CmpEng → CmpEng) : (updEng s e f).bnd = s.bnd := rfl
@[simp] theorem updEng_rlx (e : Nat) (f : CmpEng → CmpEng) : (updEng s e f).rlx = s.rlx := rfl
@[simp] theorem updEng_flt (e : Nat) (f : CmpEng → CmpEng) : (updEng s e f).flt = s.flt := rfl
@[simp] theorem updEng_log (e : Nat) (f : CmpEng → CmpEng) : (updEng s e f).log = s.log := rfl
@[simp] theorem updEng_pcie (e : Nat) (f : CmpEng → CmpEng) : (updEng s e f).pcie = s.pcie := rfl
@[simp] theorem updEng_fresh (e : Nat) (f : CmpEng → CmpEng) : (updEng s e f).fresh = s.fresh := rfl
@[simp] theorem updEng_pending (e : Nat) (f : CmpEng → CmpEng) : (updEng s e f).pending = s.pending := rfl
@[simp] theorem getCore_updEng (m : Nat) (e : Nat) (f : CmpEng → CmpEng) : getCore (updEng s e f) m = getCore s m := rfl
@[simp] theorem getDom_updEng (m : Nat) (e : Nat) (f : CmpEng → CmpEng) : getDom (updEng s e f) m = getDom s m := rfl
@[simp] theorem getPort_updEng (m : Nat) (e : Nat) (f : CmpEng → CmpEng) : getPort (updEng s e f) m = getPort s m := rfl
@[simp] theorem getChn_updEng (m : Nat) (e : Nat) (f : CmpEng → CmpEng) : getChn (updEng s e f) m = getChn s m := rfl
@[simp] theorem getZone_updEng (m : Nat) (e : Nat) (f : CmpEng → CmpEng) : getZone (updEng s e f) m = getZone s m := rfl
@[simp] theorem getVcore_updEng (m k : Nat) (e : Nat) (f : CmpEng → CmpEng) : getVcore (updEng s e f) m k = getVcore s m k := rfl
@[simp] theorem getPcie_updEng (m : Nat) (e : Nat) (f : CmpEng → CmpEng) : getPcie (updEng s e f) m = getPcie s m := rfl
@[simp] theorem getLine_updEng (m k : Nat) (e : Nat) (f : CmpEng → CmpEng) : getLine (updEng s e f) m k = getLine s m k := rfl
@[simp] theorem getPage_updEng (m : Nat) (e : Nat) (f : CmpEng → CmpEng) : getPage (updEng s e f) m = getPage s m := rfl
@[simp] theorem getOp_updEng (m : Nat) (e : Nat) (f : CmpEng → CmpEng) : getOp (updEng s e f) m = getOp s m := rfl
@[simp] theorem getSlot_updEng (m : Nat) (e : Nat) (f : CmpEng → CmpEng) : getSlot (updEng s e f) m = getSlot s m := rfl

/-! `setRelief` writes the field `sxt` only. -/

@[simp] theorem setRelief_part (j : Nat) (r : Relief) : (setRelief s j r).part = s.part := rfl
@[simp] theorem setRelief_power (j : Nat) (r : Relief) : (setRelief s j r).power = s.power := rfl
@[simp] theorem setRelief_devId (j : Nat) (r : Relief) : (setRelief s j r).devId = s.devId := rfl
@[simp] theorem setRelief_devValid (j : Nat) (r : Relief) : (setRelief s j r).devValid = s.devValid := rfl
@[simp] theorem setRelief_quadOnline (j : Nat) (r : Relief) : (setRelief s j r).quadOnline = s.quadOnline := rfl
@[simp] theorem setRelief_spareInUse (j : Nat) (r : Relief) : (setRelief s j r).spareInUse = s.spareInUse := rfl
@[simp] theorem setRelief_mer (j : Nat) (r : Relief) : (setRelief s j r).mer = s.mer := rfl
@[simp] theorem setRelief_vin (j : Nat) (r : Relief) : (setRelief s j r).vin = s.vin := rfl
@[simp] theorem setRelief_staged (j : Nat) (r : Relief) : (setRelief s j r).staged = s.staged := rfl
@[simp] theorem setRelief_counters (j : Nat) (r : Relief) : (setRelief s j r).counters = s.counters := rfl
@[simp] theorem setRelief_marks (j : Nat) (r : Relief) : (setRelief s j r).marks = s.marks := rfl
@[simp] theorem setRelief_cores (j : Nat) (r : Relief) : (setRelief s j r).cores = s.cores := rfl
@[simp] theorem setRelief_lines (j : Nat) (r : Relief) : (setRelief s j r).lines = s.lines := rfl
@[simp] theorem setRelief_l3 (j : Nat) (r : Relief) : (setRelief s j r).l3 = s.l3 := rfl
@[simp] theorem setRelief_reqs (j : Nat) (r : Relief) : (setRelief s j r).reqs = s.reqs := rfl
@[simp] theorem setRelief_wbs (j : Nat) (r : Relief) : (setRelief s j r).wbs = s.wbs := rfl
@[simp] theorem setRelief_home (j : Nat) (r : Relief) : (setRelief s j r).home = s.home := rfl
@[simp] theorem setRelief_mem (j : Nat) (r : Relief) : (setRelief s j r).mem = s.mem := rfl
@[simp] theorem setRelief_tree (j : Nat) (r : Relief) : (setRelief s j r).tree = s.tree := rfl
@[simp] theorem setRelief_fab (j : Nat) (r : Relief) : (setRelief s j r).fab = s.fab := rfl
@[simp] theorem setRelief_chs (j : Nat) (r : Relief) : (setRelief s j r).chs = s.chs := rfl
@[simp] theorem setRelief_mov (j : Nat) (r : Relief) : (setRelief s j r).mov = s.mov := rfl
@[simp] theorem setRelief_cmp (j : Nat) (r : Relief) : (setRelief s j r).cmp = s.cmp := rfl
@[simp] theorem setRelief_cip (j : Nat) (r : Relief) : (setRelief s j r).cip = s.cip := rfl
@[simp] theorem setRelief_zon (j : Nat) (r : Relief) : (setRelief s j r).zon = s.zon := rfl
@[simp] theorem setRelief_bnd (j : Nat) (r : Relief) : (setRelief s j r).bnd = s.bnd := rfl
@[simp] theorem setRelief_rlx (j : Nat) (r : Relief) : (setRelief s j r).rlx = s.rlx := rfl
@[simp] theorem setRelief_flt (j : Nat) (r : Relief) : (setRelief s j r).flt = s.flt := rfl
@[simp] theorem setRelief_log (j : Nat) (r : Relief) : (setRelief s j r).log = s.log := rfl
@[simp] theorem setRelief_pcie (j : Nat) (r : Relief) : (setRelief s j r).pcie = s.pcie := rfl
@[simp] theorem setRelief_fresh (j : Nat) (r : Relief) : (setRelief s j r).fresh = s.fresh := rfl
@[simp] theorem setRelief_pending (j : Nat) (r : Relief) : (setRelief s j r).pending = s.pending := rfl
@[simp] theorem getCore_setRelief (m : Nat) (j : Nat) (r : Relief) : getCore (setRelief s j r) m = getCore s m := rfl
@[simp] theorem getDom_setRelief (m : Nat) (j : Nat) (r : Relief) : getDom (setRelief s j r) m = getDom s m := rfl
@[simp] theorem getPort_setRelief (m : Nat) (j : Nat) (r : Relief) : getPort (setRelief s j r) m = getPort s m := rfl
@[simp] theorem getChn_setRelief (m : Nat) (j : Nat) (r : Relief) : getChn (setRelief s j r) m = getChn s m := rfl
@[simp] theorem getZone_setRelief (m : Nat) (j : Nat) (r : Relief) : getZone (setRelief s j r) m = getZone s m := rfl
@[simp] theorem getVcore_setRelief (m k : Nat) (j : Nat) (r : Relief) : getVcore (setRelief s j r) m k = getVcore s m k := rfl
@[simp] theorem getPcie_setRelief (m : Nat) (j : Nat) (r : Relief) : getPcie (setRelief s j r) m = getPcie s m := rfl
@[simp] theorem getLine_setRelief (m k : Nat) (j : Nat) (r : Relief) : getLine (setRelief s j r) m k = getLine s m k := rfl
@[simp] theorem getPage_setRelief (m : Nat) (j : Nat) (r : Relief) : getPage (setRelief s j r) m = getPage s m := rfl
@[simp] theorem getOp_setRelief (m : Nat) (j : Nat) (r : Relief) : getOp (setRelief s j r) m = getOp s m := rfl
@[simp] theorem getSlot_setRelief (m : Nat) (j : Nat) (r : Relief) : getSlot (setRelief s j r) m = getSlot s m := rfl

theorem getCore_setCore_eq (m n : Nat) (c : Core) : getCore (setCore s n c) m = if m = n then c else getCore s m :=
  Table.get_set _ _ _ _

theorem getCore_updCore_eq (m n : Nat) (f : Core → Core) : getCore (updCore s n f) m = if m = n then f (getCore s n) else getCore s m :=
  Table.get_set _ _ _ _

theorem getDom_updDom_eq (m n : Nat) (f : Domain → Domain) : getDom (updDom s n f) m = if m = n then f (getDom s n) else getDom s m :=
  Table.get_set _ _ _ _

theorem getPort_updPort_eq (m n : Nat) (f : Port → Port) : getPort (updPort s n f) m = if m = n then f (getPort s n) else getPort s m :=
  Table.get_set _ _ _ _

theorem getChn_updChn_eq (m n : Nat) (f : Chn → Chn) : getChn (updChn s n f) m = if m = n then f (getChn s n) else getChn s m :=
  Table.get_set _ _ _ _

theorem getZone_updZone_eq (m n : Nat) (f : Zone → Zone) : getZone (updZone s n f) m = if m = n then f (getZone s n) else getZone s m :=
  Table.get_set _ _ _ _

theorem getPcie_updPcie_eq (m n : Nat) (f : Pcie → Pcie) : getPcie (updPcie s n f) m = if m = n then f (getPcie s n) else getPcie s m :=
  Table.get_set _ _ _ _

theorem getCp_updCp_eq (m n : Nat) (f : Cp → Cp) : getCp (updCp s n f) m = if m = n then f (getCp s n) else getCp s m :=
  Table.get_set _ _ _ _

theorem getPage_setPage_eq (m n : Nat) (e : PageEnt) : getPage (setPage s n e) m = if m = n then e else getPage s m :=
  Table.get_set _ _ _ _

theorem getList_updList_eq (m n : Nat) (f : FreeList → FreeList) : getList (updList s n f) m = if m = n then f (getList s n) else getList s m :=
  Table.get_set _ _ _ _

theorem getSlot_setSlot_eq (m n : Nat) (k : KeySlot) : getSlot (setSlot s n k) m = if m = n then k else getSlot s m :=
  Table.get_set _ _ _ _

theorem getPipe_updPipe_eq (m n : Nat) (f : Pipe → Pipe) : getPipe (updPipe s n f) m = if m = n then f (getPipe s n) else getPipe s m :=
  Table.get_set _ _ _ _

theorem getEng_updEng_eq (m n : Nat) (f : CmpEng → CmpEng) : getEng (updEng s n f) m = if m = n then f (getEng s n) else getEng s m :=
  Table.get_set _ _ _ _

theorem getRelief_setRelief_eq (m n : Nat) (r : Relief) : getRelief (setRelief s n r) m = if m = n then r else getRelief s m :=
  Table.get_set _ _ _ _

theorem getVcore_updVcore_eq (z v k : Nat) (w : Nat) (f : Vcore → Vcore) : getVcore (updVcore s z v f) k w =
    if vcoreKey k w = vcoreKey z v then f (getVcore s z v) else getVcore s k w :=
  Table.get_set _ _ _ _

theorem getOp_putOp_eq (m n : Nat) (o : ChOp) : getOp (putOp s n o) m = if m = n then some o else getOp s m :=
  Assoc.get_put _ _ _ _

theorem getLine_setLine_eq (q gl r k : Nat) (l : AgentLine) : getLine (setLine s q gl l) r k =
    if lineKey r k = lineKey q gl then (if l.st = .i then AgentLine.absent else l) else getLine s r k :=
  Table.get_set _ _ _ _

/-! A core updated, then read or updated again. -/

@[simp] theorem getCore_updCore_self (n : Nat) (f : Core → Core) : getCore (updCore s n f) n = f (getCore s n) := by
  rw [getCore_updCore_eq, if_pos rfl]

@[simp] theorem getPort_updPort_self (n : Nat) (f : Port → Port) : getPort (updPort s n f) n = f (getPort s n) := by
  rw [getPort_updPort_eq, if_pos rfl]

@[simp] theorem getChn_updChn_self (n : Nat) (f : Chn → Chn) : getChn (updChn s n f) n = f (getChn s n) := by
  rw [getChn_updChn_eq, if_pos rfl]

@[simp] theorem getZone_updZone_self (n : Nat) (f : Zone → Zone) : getZone (updZone s n f) n = f (getZone s n) := by
  rw [getZone_updZone_eq, if_pos rfl]

@[simp] theorem getPcie_updPcie_self (n : Nat) (f : Pcie → Pcie) : getPcie (updPcie s n f) n = f (getPcie s n) := by
  rw [getPcie_updPcie_eq, if_pos rfl]

@[simp] theorem getDom_updDom_self (n : Nat) (f : Domain → Domain) : getDom (updDom s n f) n = f (getDom s n) := by
  rw [getDom_updDom_eq, if_pos rfl]

/-! ## Registers of a core -/

/-- g0 reads 0 whatever was written to it (R53). -/
@[simp] theorem getG_zero (r : CoreRegs) : r.getG 0 = 0 := rfl

/-- A register reads as written, but for g0, which keeps no write (R53). -/
theorem getG_setG (r : CoreRegs) (i j : Nat) (v : Word) :
    (r.setG i v).getG j = if j = i ∧ i ≠ 0 then v else r.getG j := by
  unfold CoreRegs.getG CoreRegs.setG
  by_cases hi : i = 0
  · subst hi; simp
  · by_cases hj : j = 0
    · subst hj; simp [Ne.symm hi]
    · rw [if_neg hi, if_neg hj, if_neg hj, Table.get_set]; simp [hi]

theorem getAcc_setAcc (r : CoreRegs) (i j : Nat) (v : BitVec 128) :
    (r.setAcc i v).getAcc j = if j = i then v else r.getAcc j :=
  Table.get_set _ _ _ _

theorem getCtl_setCtl (r : CoreRegs) (i j : Nat) (v : Word) :
    (r.setCtl i v).getCtl j = if j = i then v else r.getCtl j :=
  Table.get_set _ _ _ _

theorem getSeg_setSeg (r : CoreRegs) (i j : Nat) (d : SegReg) :
    (r.setSeg i d).getSeg j = if j = i then d else r.getSeg j :=
  Table.get_set _ _ _ _

end Sys2Proof.Machine
end

