-- ==== Sys2Proof/Laws/Words.lean ====
section
/-! SUPPORT. Fields and bits of words: what a replaced field leaves, and what it reads as. -/

namespace Sys2Proof.Machine

/-- A word cut at a field: what lies above it, the field, what lies below it. -/
theorem word_cut (x lo k : Nat) : x = 2 ^ (lo + k) * (x / 2 ^ (lo + k)) + 2 ^ lo * (x / 2 ^ lo % 2 ^ k) + x % 2 ^ lo := by
  have h1 := Nat.div_add_mod x (2 ^ lo)
  have h2 := Nat.div_add_mod (x / 2 ^ lo) (2 ^ k)
  rw [Nat.div_div_eq_div_mul, ← Nat.pow_add] at h2
  calc x = 2 ^ lo * (x / 2 ^ lo) + x % 2 ^ lo := h1.symm
    _ = 2 ^ lo * (2 ^ k * (x / 2 ^ (lo + k)) + x / 2 ^ lo % 2 ^ k) + x % 2 ^ lo := by rw [h2]
    _ = _ := by rw [Nat.mul_add, ← Nat.mul_assoc, ← Nat.pow_add]

/-- A word with a field replaced, as a number. -/
theorem setField_toNat (w : Word) (hi lo v : Nat) (h : lo ≤ hi) (h64 : hi < 64) :
    (setField w hi lo v).toNat =
      2 ^ (hi + 1) * (w.toNat / 2 ^ (hi + 1)) + 2 ^ lo * (v % 2 ^ (hi + 1 - lo)) + w.toNat % 2 ^ lo := by
  have hk : hi + 1 = lo + (hi + 1 - lo) := by omega
  generalize hkk : hi + 1 - lo = k at *
  have cut := word_cut w.toNat lo k
  have hw := w.isLt
  have hv : v % 2 ^ k < 2 ^ k := Nat.mod_lt _ (Nat.two_pow_pos k)
  have hf : w.toNat / 2 ^ lo % 2 ^ k < 2 ^ k := Nat.mod_lt _ (Nat.two_pow_pos k)
  have hl : w.toNat % 2 ^ lo < 2 ^ lo := Nat.mod_lt _ (Nat.two_pow_pos lo)
  have hq : w.toNat / 2 ^ (lo + k) < 2 ^ (64 - (lo + k)) := by
    rw [Nat.div_lt_iff_lt_mul (Nat.two_pow_pos _), ← Nat.pow_add]
    rw [show 64 - (lo + k) + (lo + k) = 64 by omega]; exact hw
  have hp : 2 ^ (lo + k) * 2 ^ (64 - (lo + k)) = 2 ^ 64 := by
    rw [← Nat.pow_add, show lo + k + (64 - (lo + k)) = 64 by omega]
  have hpk : 2 ^ (lo + k) = 2 ^ lo * 2 ^ k := Nat.pow_add _ _ _
  have b1 : 2 ^ lo * (v % 2 ^ k) + 2 ^ lo ≤ 2 ^ (lo + k) := by
    rw [hpk, ← Nat.mul_succ]; exact Nat.mul_le_mul_left _ hv
  have b2 : 2 ^ (lo + k) * (w.toNat / 2 ^ (lo + k)) + 2 ^ (lo + k) ≤ 2 ^ 64 := by
    rw [← hp, ← Nat.mul_succ]; exact Nat.mul_le_mul_left _ hq
  have bf : 2 ^ lo * (w.toNat / 2 ^ lo % 2 ^ k) ≤ w.toNat := by omega
  unfold setField Word.field
  rw [hkk, hk]
  have e1 : (BitVec.ofNat 64 (2 ^ lo * (w.toNat / 2 ^ lo % 2 ^ k))).toNat = 2 ^ lo * (w.toNat / 2 ^ lo % 2 ^ k) := by
    rw [BitVec.toNat_ofNat]; exact Nat.mod_eq_of_lt (by omega)
  have e2 : (BitVec.ofNat 64 (2 ^ lo * (v % 2 ^ k))).toNat = 2 ^ lo * (v % 2 ^ k) := by
    rw [BitVec.toNat_ofNat]; exact Nat.mod_eq_of_lt (by omega)
  rw [BitVec.toNat_add, BitVec.toNat_sub, e1, e2]
  omega

/-- Bits outside a replaced field stand as they did. -/
theorem setField_bit_ne (w : Word) (hi lo v i : Nat) (h : lo ≤ hi) (h64 : hi < 64) (hi' : i < lo ∨ hi < i) :
    (setField w hi lo v).bit i = w.bit i := by
  unfold Word.bit BitVec.getLsbD
  have hk : hi + 1 = lo + (hi + 1 - lo) := by omega
  have hv : v % 2 ^ (hi + 1 - lo) < 2 ^ (hi + 1 - lo) := Nat.mod_lt _ (Nat.two_pow_pos _)
  have hl : w.toNat % 2 ^ lo < 2 ^ lo := Nat.mod_lt _ (Nat.two_pow_pos lo)
  rw [setField_toNat w hi lo v h h64]
  rcases hi' with hi' | hi'
  · rw [show 2 ^ (hi + 1) * (w.toNat / 2 ^ (hi + 1)) + 2 ^ lo * (v % 2 ^ (hi + 1 - lo)) =
      2 ^ lo * (2 ^ (hi + 1 - lo) * (w.toNat / 2 ^ (hi + 1)) + v % 2 ^ (hi + 1 - lo)) by
        rw [Nat.mul_add, ← Nat.mul_assoc, ← Nat.pow_add, ← hk]]
    rw [Nat.testBit_two_pow_mul_add _ hl, if_pos hi', Nat.testBit_mod_two_pow]
    simp [hi']
  · have hb : 2 ^ lo * (v % 2 ^ (hi + 1 - lo)) + w.toNat % 2 ^ lo < 2 ^ (hi + 1) := by
      have : 2 ^ (hi + 1) = 2 ^ lo * 2 ^ (hi + 1 - lo) := by rw [← Nat.pow_add, ← hk]
      have : 2 ^ lo * (v % 2 ^ (hi + 1 - lo)) + 2 ^ lo ≤ 2 ^ (hi + 1) := by
        rw [this, ← Nat.mul_succ]; exact Nat.mul_le_mul_left _ hv
      omega
    rw [Nat.add_assoc, Nat.testBit_two_pow_mul_add _ hb, if_neg (by omega), Nat.testBit_div_two_pow]
    congr 1; omega

/-- The bits of a replaced field are those put into it. -/
theorem setField_bit_in (w : Word) (hi lo v i : Nat) (h : lo ≤ hi) (h64 : hi < 64) (h1 : lo ≤ i) (h2 : i ≤ hi) :
    (setField w hi lo v).bit i = v.testBit (i - lo) := by
  unfold Word.bit BitVec.getLsbD
  have hk : hi + 1 = lo + (hi + 1 - lo) := by omega
  have hv : v % 2 ^ (hi + 1 - lo) < 2 ^ (hi + 1 - lo) := Nat.mod_lt _ (Nat.two_pow_pos _)
  have hl : w.toNat % 2 ^ lo < 2 ^ lo := Nat.mod_lt _ (Nat.two_pow_pos lo)
  rw [setField_toNat w hi lo v h h64]
  rw [show 2 ^ (hi + 1) * (w.toNat / 2 ^ (hi + 1)) + 2 ^ lo * (v % 2 ^ (hi + 1 - lo)) =
    2 ^ lo * (2 ^ (hi + 1 - lo) * (w.toNat / 2 ^ (hi + 1)) + v % 2 ^ (hi + 1 - lo)) by
      rw [Nat.mul_add, ← Nat.mul_assoc, ← Nat.pow_add, ← hk]]
  rw [Nat.testBit_two_pow_mul_add _ hl, if_neg (by omega), Nat.testBit_two_pow_mul_add _ hv, if_pos (by omega),
    Nat.testBit_mod_two_pow]
  simp; omega

/-- A replaced field reads as what was put into it. -/
theorem setField_field (w : Word) (hi lo v : Nat) (h : lo ≤ hi) (h64 : hi < 64) :
    (setField w hi lo v).field hi lo = v % 2 ^ (hi + 1 - lo) := by
  have hk : hi + 1 = lo + (hi + 1 - lo) := by omega
  have hv : v % 2 ^ (hi + 1 - lo) < 2 ^ (hi + 1 - lo) := Nat.mod_lt _ (Nat.two_pow_pos _)
  have hl : w.toNat % 2 ^ lo < 2 ^ lo := Nat.mod_lt _ (Nat.two_pow_pos lo)
  unfold Word.field
  rw [setField_toNat w hi lo v h h64]
  rw [show 2 ^ (hi + 1) * (w.toNat / 2 ^ (hi + 1)) + 2 ^ lo * (v % 2 ^ (hi + 1 - lo)) + w.toNat % 2 ^ lo =
      2 ^ lo * (2 ^ (hi + 1 - lo) * (w.toNat / 2 ^ (hi + 1)) + v % 2 ^ (hi + 1 - lo)) + w.toNat % 2 ^ lo by
        rw [Nat.mul_add, ← Nat.mul_assoc, ← Nat.pow_add, ← hk]]
  rw [Nat.mul_add_div (Nat.two_pow_pos lo), Nat.div_eq_of_lt hl, Nat.add_zero, Nat.mul_add_mod, Nat.mod_mod]

/-- A replaced bit reads as what was put into it. -/
theorem setBit_bit_self (w : Word) (i : Nat) (b : Bool) (h : i < 64) : (setBit w i b).bit i = b := by
  have e := setField_field w i i b.toNat (Nat.le_refl i) h
  have hb : (setBit w i b).bit i = decide ((setBit w i b).field i i = 1) := by
    unfold Word.bit Word.field BitVec.getLsbD
    rw [Nat.add_sub_cancel_left, Nat.pow_one, Nat.testBit_eq_decide_div_mod_eq]
  rw [hb]; unfold setBit; rw [e]; cases b <;> simp

/-- The other bits stand as they did. -/
theorem setBit_bit_ne (w : Word) (i j : Nat) (b : Bool) (h : i < 64) (hj : j ≠ i) :
    (setBit w i b).bit j = w.bit j :=
  setField_bit_ne w i i b.toNat j (Nat.le_refl i) h (by omega)

/-- The low two bits cleared. -/
theorem div_mul_four (w : Word) : BitVec.ofNat 64 (w.toNat / 4 * 4) = w &&& ~~~(3#64) := by
  apply BitVec.eq_of_toNat_eq
  have hw := w.isLt
  have h3 : ~~~(3#64) = BitVec.ofNat 64 (2 ^ 64 - 4) := by decide
  apply Nat.eq_of_testBit_eq
  intro i
  rw [BitVec.toNat_ofNat, Nat.mod_eq_of_lt (by omega), Nat.mul_comm, show (4 : Nat) = 2 ^ 2 by rfl, Nat.testBit_two_pow_mul,
    Nat.testBit_div_two_pow]
  rw [BitVec.toNat_and, Nat.testBit_and, BitVec.toNat_not]
  by_cases hi : i < 64
  · have : (2 ^ 64 - 1 - (3#64).toNat).testBit i = decide (2 ≤ i) := by
      have : ∀ i, i < 64 → (2 ^ 64 - 1 - (3#64).toNat).testBit i = decide (2 ≤ i) := by decide
      exact this i hi
    rw [this]
    by_cases h2 : 2 ≤ i
    · simp [h2]
    · simp [h2]
  · have hz : w.toNat.testBit i = false := Nat.testBit_lt_two_pow (Nat.lt_of_lt_of_le hw (Nat.pow_le_pow_right (by decide) (by omega)))
    by_cases h2 : 2 ≤ i
    · rw [show i - 2 + 2 = i by omega, hz]; simp
    · omega

end Sys2Proof.Machine
end

