-- ==== Sys2Proof/Laws/Bundle.lean ====
section
/-! SUPPORT. What a syllable that stands alone in its bundle does: one lemma that every such syllable's claim cites. -/

namespace Sys2Proof.Machine

theorem onlyCore_refl (s : State) (n : Nat) : onlyCore s s n := ⟨fun _ _ => rfl, rfl⟩

theorem onlyCore_updCore (s : State) (n : Nat) (f : Core → Core) : onlyCore s (updCore s n f) n :=
  ⟨fun m h => by rw [getCore_updCore_eq, if_neg h], rfl⟩

theorem onlyCore_trans {s t u : State} {n : Nat} (h : onlyCore s t n) (k : onlyCore t u n) : onlyCore s u n :=
  ⟨fun m e => (k.1 m e).trans (h.1 m e), by rw [k.2, h.2]⟩

/-- The parts of `alone`. -/
theorem alone_iff {s : State} {sl : Slot} : alone s sl = true ↔
    canRun s sl.core = true ∧ sl.last = true ∧ (getCore s sl.core).bundle = none ∧
      (((getCore s sl.core).regs.getSeg 13).bit 4 = true ∧
        inLimit ((getCore s sl.core).regs.getSeg 13) (getCore s sl.core).regs.pc 4 = true) ∧
      (getCore s sl.core).regs.psw.bit 45 = false ∧ (getCore s sl.core).retries = 0 ∧
        (getCore s sl.core).defer = none := by
  simp only [alone, Bool.and_eq_true, Option.isNone_iff_eq_none, Bool.not_eq_true', beq_iff_eq]
  tauto

/-- A core whose bundle was not repeated after a detected error has nothing to note. -/
theorem noteRetries_none {s : State} {n : Nat} (h : (getCore s n).retries = 0) : noteRetries s n = s := by
  unfold noteRetries
  simp only [h, if_true]

/-- A bundle of one syllable without accesses, traps or acts completes: its registers become `r`, with the pc at its
target or past it. -/
theorem completeBundle_plain (s : State) (n : Nat) (b : OpenBundle)
    (hret : (getCore s n).retries = 0) (hdef : (getCore s n).defer = none) (hw : (getCore s n).waiting = false)
    (htr : b.trap = none) (ha : b.acts = []) (hr : b.rsv = none)
    (hrep : (getCore s n).regs.psw.bit 45 = false) (hone : b.syls.length = 1)
    (h45 : b.work.psw.bit 45 = false) (h44 : b.work.psw.bit 44 = (getCore s n).regs.psw.bit 44)
    (h40 : b.work.psw.bit 40 = (getCore s n).regs.psw.bit 40) :
    bundleEnded s (completeBundle s n b) n { b.work with pc := b.target.getD ((getCore s n).regs.pc + 4) } := by
  obtain ⟨work, late, target, trap, faults, syls, acts, rsv, seen, held, got, kept, phase⟩ := b
  simp only at htr ha hr hone h45 h44 h40
  subst htr ha hr
  have hnr : nextRegs (getCore s n) ⟨work, late, target, none, faults, syls, [], none, seen, held, got, kept, phase⟩ =
      ({ work with pc := target.getD ((getCore s n).regs.pc + 4) }, []) := by
    unfold nextRegs nextPc
    simp only [hrep, hone, List.findSome?_nil]
    rfl
  have hww : (getCore s n).regs.w = CoreRegs.w { work with pc := target.getD ((getCore s n).regs.pc + 4) } := h44.symm
  have hne : (!(getCore s n).regs.psw.bit 40 && work.psw.bit 40) = false := by
    rw [← h40]; cases work.psw.bit 40 <;> rfl
  unfold completeBundle
  simp only [hnr, hww, hne, h45, Bool.false_eq_true, if_false]
  rw [noteRetries_none (by rw [getCore_updCore_self]; exact hret)]
  simp only [countDeferral, List.foldl_nil, getCore_updCore_self]
  simp only [bne_self_eq_false, Bool.not_and_self, Bool.and_not_self, Bool.false_eq_true, if_false, Bool.false_and,
    hdef]
  refine ⟨?_, ?_⟩
  · simp [getCore_updCore_self, hw, hret]
  · simpa using onlyCore_updCore s n _

/-- A bundle of one syllable breaks no rule of R94, but for a MACM on a memory unit. -/
theorem bundleBad_single (x : SylInfo) (h : (x.macm && unitMem x.unit) = false) : bundleBad [x] true = none := by
  obtain ⟨u, d, m, r, v⟩ := x
  cases m <;> simp_all [bundleBad, firstLater]

/-- The first word of a bundle lies at the pc. -/
theorem fetchable_fresh {c : Core} {r : CoreRegs} (hx : (r.getSeg 13).bit 4 = true)
    (hl : inLimit (r.getSeg 13) r.pc 4 = true) : fetchable r (freshBundle c) = true := by
  have e : nextPc r (freshBundle c) = r.pc := by simp [nextPc, freshBundle]
  simp [fetchable, fetchRoom, e, hx, hl]

/-- A syllable that stands alone and breaks no operand rule: its bundle is whole, and goes on. -/
theorem runSyl_alone {s s' : State} {sl : Slot} {fits : FUnit → Bool} {i : Instr}
    {f : State → CoreRegs → OpenBundle → SylRes × State} {b : OpenBundle} {info : SylInfo}
    (ha : alone s sl = true) (hu : fits sl.unit = true) (ho : lowest (operandBad i) = none)
    (hi : sylInfo i = some info) (hm : (info.macm && unitMem info.unit) = false)
    (hf : f s (getCore s sl.core).regs (freshBundle (getCore s sl.core)) = (⟨true, b⟩, s'))
    (hs : b.syls = []) (hq : b.faults = []) (hrun : (getCore s' sl.core).run = (getCore s sl.core).run) (hr : (getCore s' sl.core).regs.psw.bit 45 = false) :
    runSyl s sl fits i f =
      proceed (updCore s' sl.core (fun c => { c with bundle := some { b with syls := [info], held := none, phase := 1 } })) sl.core := by
  obtain ⟨h1, h2, h3, hx, h4, h5, h6⟩ := alone_iff.mp ha
  unfold runSyl
  simp only [h1, hu, h2, h3, ho, hi, hf, hs, Option.getD_none, Option.getD_some, Bool.true_eq_false, or_self, if_false,
    List.nil_append, true_or, if_true]
  rw [if_neg (by simp [freshBundle]), if_neg (by simp [fetchable_fresh hx.1 hx.2]), if_neg (by rw [hrun]; simp)]
  unfold endBundle
  simp only [bundleBad_single info hm, hq, pickExc, List.foldl_nil, hr, Bool.false_eq_true, if_false]

/-- The order of a bundle's accesses where they are stores. -/
theorem orderLate_stores (es : List BufEntry) : orderLate (es.map .store) = es.map .store := by
  have h1 : (es.map Late.store).filter (fun x => !isStore x) = [] := by
    rw [List.filter_eq_nil_iff]; simp [isStore]
  have h2 : (es.map Late.store).filter isStore = es.map .store := by
    rw [List.filter_eq_self]; simp [isStore]
  unfold orderLate
  simp only [h1, h2, List.any_nil, Bool.false_eq_true, if_false, List.nil_append]

/-- A bundle without accesses, traps or acts runs to its end. -/
theorem proceed_plain {s : State} {n : Nat} {b : OpenBundle} (hb : (getCore s n).bundle = some b) (hp : b.phase = 1)
    (hl : b.late = []) (ha : b.acts = []) :
    proceed s n = completeBundle (updCore s n (fun c => { c with bundle := some { b with phase := 2 } })) n
      { b with phase := 2 } := by
  unfold proceed
  have hst : storesOf b = [] := by unfold storesOf; rw [hl]; rfl
  have ho : orderLate [] = [] := rfl
  simp only [hb, hp, hst, ha, List.length_nil, Nat.add_zero]
  rw [if_neg (by decide), if_neg (by decide), if_neg (by simp), if_neg (by simp)]
  simp only [hl, ho, lateSteps]
  rw [if_neg (by simp)]

theorem bundleEnded_of {s t u : State} {n : Nat} {r : CoreRegs} (h : bundleEnded t u n r) (ht : onlyCore s t n)
    (hc : ∃ b, getCore t n = { getCore s n with bundle := b }) : bundleEnded s u n r := by
  obtain ⟨b, hc⟩ := hc
  refine ⟨?_, onlyCore_trans ht h.2⟩
  rw [h.1, hc]

/-- What a syllable adds to a fresh bundle when it makes no access and no act, and raises nothing. -/
def quiet (b : OpenBundle) : Prop :=
  b.late = [] ∧ b.trap = none ∧ b.acts = [] ∧ b.rsv = none ∧ b.syls = [] ∧ b.faults = []

/-- A syllable alone in its bundle that sets registers and perhaps a target. -/
theorem runSyl_alone_plain {s : State} {sl : Slot} {fits : FUnit → Bool} {i : Instr}
    {f : State → CoreRegs → OpenBundle → SylRes × State} {info : SylInfo} {b : OpenBundle}
    (ha : alone s sl = true) (hu : fits sl.unit = true) (ho : lowest (operandBad i) = none)
    (hi : sylInfo i = some info) (hm : (info.macm && unitMem info.unit) = false)
    (hf : f s (getCore s sl.core).regs (freshBundle (getCore s sl.core)) = (⟨true, b⟩, s)) (hq : quiet b)
    (hk : ∀ j, j = 40 ∨ j = 44 ∨ j = 45 → b.work.psw.bit j = (getCore s sl.core).regs.psw.bit j) :
    bundleEnded s (runSyl s sl fits i f) sl.core
      { b.work with pc := b.target.getD ((getCore s sl.core).regs.pc + 4) } := by
  obtain ⟨h1, -, h3, -, h4, h5, h6⟩ := alone_iff.mp ha
  obtain ⟨q1, q2, q3, q4, q5, q6⟩ := hq
  have hw : (getCore s sl.core).waiting = false := by
    simp only [canRun, Bool.and_eq_true, Bool.not_eq_true'] at h1; exact h1.1.2
  rw [runSyl_alone ha hu ho hi hm hf q5 q6 rfl h4]
  obtain ⟨c, hc⟩ : ∃ c : OpenBundle, c = { b with syls := [info], held := none, phase := 1 } := ⟨_, rfl⟩
  rw [← hc]
  rw [proceed_plain (by rw [getCore_updCore_self]) (by rw [hc]) (by rw [hc]; exact q1) (by rw [hc]; exact q3)]
  have key := completeBundle_plain (updCore (updCore s sl.core (fun x => { x with bundle := some c }))
      sl.core (fun x => { x with bundle := some { c with phase := 2 } })) sl.core { c with phase := 2 }
      (by simpa using h5) (by simpa using h6) (by simpa using hw) (by rw [hc]; exact q2) (by rw [hc]; exact q3)
      (by rw [hc]; exact q4) (by simpa using h4) (by rw [hc]; rfl)
      (by rw [hc]; exact (hk 45 (by simp)).trans h4) (by simpa [hc] using hk 44 (by simp))
      (by simpa [hc] using hk 40 (by simp))
  refine bundleEnded_of (t := updCore (updCore s sl.core (fun x => { x with bundle := some c }))
      sl.core (fun x => { x with bundle := some { c with phase := 2 } })) ?_
    (onlyCore_trans (onlyCore_updCore _ _ _) (onlyCore_updCore _ _ _)) ?_
  · simpa only [getCore_updCore_self, hc] using key
  · exact ⟨some _, by simp only [getCore_updCore_self]; rfl⟩

/-- A syllable that only computes, alone in its bundle: the registers become `f` of what they were. -/
theorem regSyl_alone {s : State} {sl : Slot} {fits : FUnit → Bool} {i : Instr} {f : CoreRegs → CoreRegs → CoreRegs}
    {info : SylInfo} (ha : alone s sl = true) (hu : fits sl.unit = true) (ho : lowest (operandBad i) = none)
    (hi : sylInfo i = some info) (hm : (info.macm && unitMem info.unit) = false)
    (hk : ∀ j, j = 40 ∨ j = 44 ∨ j = 45 → ∀ r : CoreRegs, (f r r).psw.bit j = r.psw.bit j) :
    bundleRan s (regSyl s sl fits i f) sl.core (f (getCore s sl.core).regs (getCore s sl.core).regs) := by
  unfold regSyl
  exact runSyl_alone_plain (b := { freshBundle (getCore s sl.core) with
    work := f (getCore s sl.core).regs (getCore s sl.core).regs }) ha hu ho hi hm rfl
    ⟨rfl, rfl, rfl, rfl, rfl, rfl⟩ (fun j hj => hk j hj _)

/-! ## Bundles with stores -/

/-- The bundle's own stores go behind those that the buffer holds. -/
theorem lateSteps_stores (es : List BufEntry) (s : State) (n : Nat) (b : OpenBundle) (ha : b.acts = []) :
    ∃ t l, lateSteps (es.map .store) s n b = completeBundle t n { b with late := [], seen := l } ∧
      getCore t n = { getCore s n with buf := (getCore s n).buf ++ es } ∧ onlyCore s t n := by
  induction es generalizing s b with
  | nil =>
    refine ⟨s, b.seen, ?_, by simp, onlyCore_refl s n⟩
    simp [lateSteps, ha]
  | cons e es ih =>
    obtain ⟨t, l, h1, h2, h3⟩ := ih (updCore s n (fun c => { c with buf := c.buf ++ [e] }))
      { b with seen := deviceMark :: b.seen } ha
    refine ⟨t, l, ?_, ?_, onlyCore_trans (onlyCore_updCore _ _ _) h3⟩
    · simpa [lateSteps] using h1
    · rw [h2]; simp

theorem storesOf_map (b : OpenBundle) (es : List BufEntry) (h : b.late = es.map .store) : storesOf b = es := by
  unfold storesOf; rw [h, List.filterMap_map]; simp

theorem coreAndStamps_of_onlyCore {s t : State} {n : Nat} (h : onlyCore s t n) : coreAndStamps s t n :=
  ⟨h.1, by rw [h.2]⟩

theorem coreAndStamps_trans {s t u : State} {n : Nat} (h : coreAndStamps s t n) (k : coreAndStamps t u n) :
    coreAndStamps s u n :=
  ⟨fun m e => (k.1 m e).trans (h.1 m e), by rw [k.2, h.2]⟩

/-- A syllable alone in its bundle that sets registers, stores, and perhaps a target. -/
theorem runSyl_alone_stores {s s' : State} {sl : Slot} {fits : FUnit → Bool} {i : Instr}
    {f : State → CoreRegs → OpenBundle → SylRes × State} {info : SylInfo} {b : OpenBundle} {es : List BufEntry}
    (ha : alone s sl = true) (hu : fits sl.unit = true) (ho : lowest (operandBad i) = none)
    (hi : sylInfo i = some info) (hm : (info.macm && unitMem info.unit) = false)
    (hf : f s (getCore s sl.core).regs (freshBundle (getCore s sl.core)) = (⟨true, b⟩, s'))
    (hl : b.late = es.map .store) (hq : quiet { b with late := [] })
    (hs : coreAndStamps s s' sl.core) (hc : getCore s' sl.core = getCore s sl.core)
    (hroom : (getCore s sl.core).buf.length + es.length ≤ 32 ∨ (getCore s sl.core).buf = [])
    (hk : ∀ j, j = 40 ∨ j = 44 ∨ j = 45 → b.work.psw.bit j = (getCore s sl.core).regs.psw.bit j) :
    bundleStored s (runSyl s sl fits i f) sl.core
      { b.work with pc := b.target.getD ((getCore s sl.core).regs.pc + 4) } es := by
  obtain ⟨h1, -, h3, -, h4, h5, h6⟩ := alone_iff.mp ha
  obtain ⟨-, q2, q3, q4, q5, q6⟩ := hq
  simp only at q2 q3 q4 q5 q6
  have hw : (getCore s sl.core).waiting = false := by
    simp only [canRun, Bool.and_eq_true, Bool.not_eq_true'] at h1; exact h1.1.2
  rw [runSyl_alone ha hu ho hi hm hf q5 q6 (by rw [hc]) (by rw [hc]; exact h4)]
  obtain ⟨c, hcd⟩ : ∃ c : OpenBundle, c = { b with syls := [info], held := none, phase := 1 } := ⟨_, rfl⟩
  rw [← hcd]
  have hst : storesOf c = es := storesOf_map c es (by rw [hcd]; exact hl)
  obtain ⟨t, l, t1, t2, t3⟩ := lateSteps_stores es (updCore (updCore s' sl.core (fun x => { x with bundle := some c }))
    sl.core (fun x => { x with bundle := some { c with phase := 2 } })) sl.core { c with phase := 2 }
    (by rw [hcd]; exact q3)
  have hp : proceed (updCore s' sl.core (fun x => { x with bundle := some c })) sl.core =
      completeBundle t sl.core { c with phase := 2, late := [], seen := l } := by
    unfold proceed
    simp only [getCore_updCore_self, hst]
    rw [if_neg (by rw [hcd]; simp), if_neg (by rw [hcd]; simp), if_neg ?_, if_neg (by rw [hcd]; simp [q3])]
    · have e : c.late = es.map .store := by rw [hcd]; exact hl
      have eo : orderLate c.late = c.late := by rw [e]; exact orderLate_stores es
      rw [← e] at t1
      simp only [eo]
      exact t1
    · rintro ⟨-, h, h'⟩
      rw [hc] at h h'
      rcases hroom with hr | hr
      · omega
      · exact h' hr
  rw [hp]
  simp only [getCore_updCore_self, hc] at t2
  have key := completeBundle_plain t sl.core { c with phase := 2, late := [], seen := l }
    (by simpa [t2] using h5) (by simpa [t2] using h6) (by simpa [t2] using hw) (by rw [hcd]; exact q2)
    (by rw [hcd]; exact q3) (by rw [hcd]; exact q4) (by simpa [t2] using h4) (by rw [hcd]; rfl)
    (by rw [hcd]; exact (hk 45 (by simp)).trans h4) (by simpa [t2, hcd] using hk 44 (by simp))
    (by simpa [t2, hcd] using hk 40 (by simp))
  refine ⟨?_, ?_⟩
  · rw [key.1, t2]
    simp only [hcd]
  · refine coreAndStamps_trans hs (coreAndStamps_of_onlyCore ?_)
    exact onlyCore_trans (onlyCore_updCore _ _ _) (onlyCore_trans (onlyCore_updCore _ _ _) (onlyCore_trans t3 key.2))

end Sys2Proof.Machine
end

