-- ==== Sys2Proof/Laws/IntOps.lean ====
section
/-! SUPPORT. The integer units' results as operations of bit vectors. -/

namespace Sys2Proof.Machine

theorem intAdd_r (a b : Word) (c : Bool) : (intAdd a b c).r = a + b + (if c then 1 else 0) := by
  unfold intAdd
  apply BitVec.eq_of_toNat_eq
  cases c <;> simp [BitVec.toNat_add] 

theorem intSub_r (a b : Word) (c : Bool) : (intSub a b c).r = a - b - (if c then 1 else 0) := by
  unfold intSub; cases c <;> rfl

theorem intMin_eq (a b : Word) : intMin a b = if b.slt a then b else a := by
  unfold intMin; rw [BitVec.slt_eq_decide]
  by_cases h : a.toInt ≤ b.toInt
  · rw [if_pos h, if_neg (by simpa using h)]
  · rw [if_neg h, if_pos (by simpa using h)]

theorem intMax_eq (a b : Word) : intMax a b = if b.slt a then a else b := by
  unfold intMax; rw [BitVec.slt_eq_decide]
  by_cases h : a.toInt ≤ b.toInt
  · rw [if_pos h, if_neg (by simpa using h)]
  · rw [if_neg h, if_pos (by simpa using h)]

theorem intMinU_eq (a b : Word) : intMinU a b = if b < a then b else a := by
  unfold intMinU
  by_cases h : a.toNat ≤ b.toNat
  · rw [if_pos h, if_neg (by rw [BitVec.lt_def]; omega)]
  · rw [if_neg h, if_pos (by rw [BitVec.lt_def]; omega)]

theorem intMaxU_eq (a b : Word) : intMaxU a b = if b < a then a else b := by
  unfold intMaxU
  by_cases h : a.toNat ≤ b.toNat
  · rw [if_pos h, if_neg (by rw [BitVec.lt_def]; omega)]
  · rw [if_neg h, if_pos (by rw [BitVec.lt_def]; omega)]

theorem intMulHU_eq (a b : Word) : intMulHU a b = (a.setWidth 128 * b.setWidth 128).extractLsb' 64 64 := by
  have h : a.toNat * b.toNat < 2 ^ 128 := by
    have := Nat.mul_lt_mul'' a.isLt b.isLt
    rwa [← Nat.pow_add] at this
  unfold intMulHU
  apply BitVec.eq_of_toNat_eq
  have ha := a.isLt
  have hb := b.isLt
  simp only [BitVec.toNat_ofNat, BitVec.extractLsb'_toNat, BitVec.toNat_mul, BitVec.toNat_setWidth]
  rw [Nat.mod_eq_of_lt (a := a.toNat) (by omega), Nat.mod_eq_of_lt (a := b.toNat) (by omega), Nat.mod_eq_of_lt h,
    Nat.shiftRight_eq_div_pow]

theorem intMulHS_eq (a b : Word) : intMulHS a b = (a.signExtend 128 * b.signExtend 128).extractLsb' 64 64 := by
  unfold intMulHS
  have ha := BitVec.toInt_lt (x := a)
  have ha' := BitVec.le_toInt (x := a)
  have hb := BitVec.toInt_lt (x := b)
  have hb' := BitVec.le_toInt (x := b)
  have e : (a.signExtend 128 * b.signExtend 128) = BitVec.ofInt 128 (a.toInt * b.toInt) := by
    rw [BitVec.ofInt_mul]; rfl
  rw [e]
  apply BitVec.eq_of_toNat_eq
  simp only [BitVec.extractLsb'_toNat, BitVec.toNat_ofInt, Nat.shiftRight_eq_div_pow]
  generalize a.toInt * b.toInt = x
  omega

theorem intDivU_r (a b : Word) : (intDivU a b).r = if b = 0 then -1 else a.udiv b := by
  unfold intDivU
  split
  · rfl
  · apply BitVec.eq_of_toNat_eq
    have := Nat.div_le_self a.toNat b.toNat
    have ha := a.isLt
    simp only [plainRes, BitVec.toNat_ofNat, BitVec.toNat_udiv, BitVec.udiv_eq]
    exact Nat.mod_eq_of_lt (Nat.lt_of_le_of_lt this ha)

theorem intRemU_r (a b : Word) : (intRemU a b).r = a.umod b := by
  unfold intRemU
  split
  · rename_i h; subst h; simp
  · apply BitVec.eq_of_toNat_eq
    have := Nat.mod_le a.toNat b.toNat
    have ha := a.isLt
    simp only [plainRes, BitVec.toNat_ofNat, BitVec.umod_eq, BitVec.toNat_umod]
    omega

theorem intDivS_r (a b : Word) : (intDivS a b).r = if b = 0 then -1 else a.sdiv b := by
  unfold intDivS
  split
  · rfl
  · rename_i hb
    split
    · rename_i h; obtain ⟨rfl, rfl⟩ := h; decide
    · rename_i h
      apply BitVec.eq_of_toInt_eq
      simp only [plainRes, BitVec.toInt_ofInt, BitVec.toInt_sdiv]

theorem intRemS_r (a b : Word) : (intRemS a b).r = a.srem b := by
  unfold intRemS
  split
  · rename_i h; subst h; simp
  · split
    · rename_i h; obtain ⟨rfl, rfl⟩ := h; decide
    · apply BitVec.eq_of_toInt_eq
      rw [BitVec.toInt_srem]
      simp only [plainRes, BitVec.toInt_ofInt]
      rw [← BitVec.toInt_srem, BitVec.toInt_bmod_cancel]

/-- A shift at one width, as an operation of bit vectors. -/
def shiftVec {w : Nat} (k : ShiftKind) (a : BitVec w) (n : Nat) : BitVec w :=
  match k with
  | .shl | .sal => a <<< n
  | .shr => a >>> n
  | .sar => a.sshiftRight n
  | .rol => a.rotateLeft n
  | .ror => a.rotateRight n

theorem or_eq_add_low {x y k : Nat} (hy : y < 2 ^ k) (hx : x % 2 ^ k = 0) : x ||| y = x + y := by
  have : x = 2 ^ k * (x / 2 ^ k) := by
    have := Nat.div_add_mod x (2 ^ k); omega
  rw [this, Nat.two_pow_add_eq_or_of_lt hy]

theorem shiftNat_eq {w : Nat} (hw : 0 < w) (k : ShiftKind) (a : BitVec w) (n : Nat) :
    BitVec.ofNat w (shiftNat k w a.toNat n) = shiftVec k a n := by
  have ha := a.isLt
  have hp : 2 ^ w = 2 * 2 ^ (w - 1) := by rw [← Nat.pow_succ']; congr 1; omega
  apply BitVec.eq_of_toNat_eq
  cases k with
  | shl =>
    simp only [shiftNat, shiftVec, BitVec.toNat_ofNat, BitVec.toNat_shiftLeft, Nat.shiftLeft_eq]
    split
    · rw [Nat.mod_mod]
    · rename_i h
      have : 2 ^ n = 2 ^ w * 2 ^ (n - w) := by rw [← Nat.pow_add]; congr 1; omega
      rw [this, ← Nat.mul_assoc, Nat.mul_comm _ (2 ^ w), Nat.mul_assoc, Nat.mul_mod_right]; simp
  | sal =>
    simp only [shiftNat, shiftVec, BitVec.toNat_ofNat, BitVec.toNat_shiftLeft, Nat.shiftLeft_eq]
    split
    · rw [Nat.mod_mod]
    · rename_i h
      have : 2 ^ n = 2 ^ w * 2 ^ (n - w) := by rw [← Nat.pow_add]; congr 1; omega
      rw [this, ← Nat.mul_assoc, Nat.mul_comm _ (2 ^ w), Nat.mul_assoc, Nat.mul_mod_right]; simp
  | shr =>
    simp only [shiftNat, shiftVec, BitVec.toNat_ofNat, BitVec.toNat_ushiftRight, Nat.shiftRight_eq_div_pow]
    split
    · exact Nat.mod_eq_of_lt (Nat.lt_of_le_of_lt (Nat.div_le_self _ _) ha)
    · rename_i h
      rw [Nat.div_eq_of_lt (Nat.lt_of_lt_of_le ha (Nat.pow_le_pow_right (by decide) (by omega)))]; simp
  | sar =>
    simp only [shiftNat, shiftVec, BitVec.toNat_ofNat]
    have hle : a.toNat / 2 ^ min n w ≤ a.toNat := Nat.div_le_self _ _
    by_cases hm : a.msb = true
    · have ht : 2 ^ (w - 1) ≤ a.toNat := by simpa [BitVec.msb_eq_decide] using hm
      rw [BitVec.toNat_sshiftRight_of_msb_true hm, Nat.shiftRight_eq_div_pow]
      simp only [ht, decide_true, if_true]
      by_cases hn : n < w
      · rw [Nat.min_eq_left (Nat.le_of_lt hn)]
        have hpw : 2 ^ w = 2 ^ n * 2 ^ (w - n) := by rw [← Nat.pow_add]; congr 1; omega
        have hq : a.toNat / 2 ^ n < 2 ^ (w - n) := by
          rw [Nat.div_lt_iff_lt_mul (Nat.two_pow_pos _), Nat.mul_comm, ← hpw]; exact ha
        have hd := Nat.div_add_mod a.toNat (2 ^ n)
        have hr := Nat.mod_lt a.toNat (Nat.two_pow_pos n)
        have hc : (2 ^ w - 1 - a.toNat) / 2 ^ n = 2 ^ (w - n) - 1 - a.toNat / 2 ^ n := by
          have e1 : 2 ^ (w - n) - 1 - a.toNat / 2 ^ n + 1 = 2 ^ (w - n) - a.toNat / 2 ^ n := by omega
          have e2 : (2 ^ (w - n) - a.toNat / 2 ^ n) * 2 ^ n = 2 ^ w - 2 ^ n * (a.toNat / 2 ^ n) := by
            rw [Nat.sub_mul, Nat.mul_comm (2 ^ (w - n)), ← hpw, Nat.mul_comm (a.toNat / 2 ^ n)]
          have e3 : (2 ^ (w - n) - 1 - a.toNat / 2 ^ n) * 2 ^ n + 2 ^ n = 2 ^ w - 2 ^ n * (a.toNat / 2 ^ n) := by
            rw [← e2, ← e1, Nat.add_mul, Nat.one_mul]
          apply Nat.div_eq_of_lt_le
          · clear e1 e2 hpw; omega
          · rw [e1, e2]; clear e1 e2 e3 hpw; omega
        have hle2 : 2 ^ (w - n) ≤ 2 ^ w := Nat.pow_le_pow_right (by decide) (by omega)
        rw [hc, Nat.mod_eq_of_lt (by omega)]
        clear hc hd hr ht hle hpw hp
        generalize 2 ^ w = u at *
        generalize 2 ^ (w - n) = v at *
        generalize a.toNat / 2 ^ n = q at *
        omega
      · rw [Nat.min_eq_right (by omega), Nat.div_eq_of_lt ha, Nat.sub_self, Nat.pow_zero, Nat.zero_add]
        rw [Nat.div_eq_of_lt (Nat.lt_of_lt_of_le (by omega) (Nat.pow_le_pow_right (by decide) (Nat.le_of_not_lt hn)))]
        rw [Nat.mod_eq_of_lt (by have := Nat.two_pow_pos w; omega)]
        rfl
    · have hm : a.msb = false := by simpa using hm
      have ht : ¬ 2 ^ (w - 1) ≤ a.toNat := by simpa [BitVec.msb_eq_decide] using hm
      rw [BitVec.toNat_sshiftRight_of_msb_false hm, Nat.shiftRight_eq_div_pow]
      simp only [ht, decide_false, Bool.false_eq_true, if_false, Nat.add_zero]
      rw [Nat.mod_eq_of_lt (Nat.lt_of_le_of_lt hle ha)]
      by_cases hn : n < w
      · rw [Nat.min_eq_left (Nat.le_of_lt hn)]
      · rw [Nat.min_eq_right (by omega), Nat.div_eq_of_lt ha]
        rw [Nat.div_eq_of_lt (Nat.lt_of_lt_of_le ha (Nat.pow_le_pow_right (by decide) (Nat.le_of_not_lt hn)))]
  | rol =>
    simp only [shiftNat, shiftVec, BitVec.toNat_ofNat, BitVec.toNat_rotateLeft, Nat.shiftLeft_eq, Nat.shiftRight_eq_div_pow]
    have hm := Nat.mod_lt n hw
    generalize n % w = m at *
    have h1 : a.toNat / 2 ^ (w - m) < 2 ^ m := by
      rw [Nat.div_lt_iff_lt_mul (Nat.two_pow_pos _), ← Nat.pow_add]; rwa [show m + (w - m) = w by omega]
    have hpw : 2 ^ w = 2 ^ m * 2 ^ (w - m) := by rw [← Nat.pow_add]; congr 1; omega
    have h2 : a.toNat * 2 ^ m % 2 ^ w = 2 ^ m * (a.toNat % 2 ^ (w - m)) := by
      rw [hpw, Nat.mul_comm a.toNat, Nat.mul_mod_mul_left]
    rw [h2, or_eq_add_low h1 (by simp)]
    have h3 := Nat.mod_lt a.toNat (Nat.two_pow_pos (w - m))
    refine Nat.mod_eq_of_lt ?_
    have : 2 ^ m * (a.toNat % 2 ^ (w - m)) + 2 ^ m ≤ 2 ^ w := by
      rw [hpw, ← Nat.mul_succ]; exact Nat.mul_le_mul_left _ h3
    omega
  | ror =>
    simp only [shiftNat, shiftVec, BitVec.toNat_ofNat, BitVec.toNat_rotateRight, Nat.shiftLeft_eq, Nat.shiftRight_eq_div_pow]
    have hm := Nat.mod_lt n hw
    generalize n % w = m at *
    have h1 : a.toNat / 2 ^ m < 2 ^ (w - m) := by
      rw [Nat.div_lt_iff_lt_mul (Nat.two_pow_pos _), ← Nat.pow_add]; rwa [show w - m + m = w by omega]
    have hpw : 2 ^ w = 2 ^ (w - m) * 2 ^ m := by rw [← Nat.pow_add]; congr 1; omega
    have h2 : a.toNat * 2 ^ (w - m) % 2 ^ w = 2 ^ (w - m) * (a.toNat % 2 ^ m) := by
      rw [hpw, Nat.mul_comm a.toNat, Nat.mul_mod_mul_left]
    rw [h2, Nat.lor_comm, or_eq_add_low h1 (by simp), Nat.add_comm]
    have h3 := Nat.mod_lt a.toNat (Nat.two_pow_pos m)
    refine Nat.mod_eq_of_lt ?_
    have : 2 ^ (w - m) * (a.toNat % 2 ^ m) + 2 ^ (w - m) ≤ 2 ^ w := by
      rw [hpw, ← Nat.mul_succ]; exact Nat.mul_le_mul_left _ h3
    omega

theorem intShift_r (k : ShiftKind) (narrow : Bool) (a : Word) (n : Nat) : (intShift k narrow a n).r =
    if narrow then (shiftVec k (a.setWidth 32) n).signExtend 64 else shiftVec k a n := by
  cases narrow
  · simp only [intShift, Bool.false_eq_true, if_false]
    rw [Nat.mod_eq_of_lt a.isLt, shiftNat_eq (by decide)]
  · simp only [intShift, if_true]
    rw [← shiftNat_eq (by decide), BitVec.toNat_setWidth]

/-- The product that SAL stands for leaves the signed range exactly as R133 says. -/
theorem salLoses_iff {w : Nat} (hw : 0 < w) (a : BitVec w) (n : Nat) : salLoses w a.toNat n = true ↔
    (a.toInt * 2 ^ n < -(2 ^ (w - 1)) ∨ 2 ^ (w - 1) ≤ a.toInt * 2 ^ n) := by
  have hp : (2 : Int) ^ w = 2 * 2 ^ (w - 1) := by
    rw [← pow_succ']; congr 1; omega
  have hpn : 2 ^ w = 2 * 2 ^ (w - 1) := by rw [← Nat.pow_succ']; congr 1; omega
  have ht : a.toInt = if 2 ^ (w - 1) ≤ a.toNat then (a.toNat : Int) - 2 ^ w else a.toNat := by
    rw [BitVec.toInt_eq_toNat_cond]
    by_cases h : 2 ^ (w - 1) ≤ a.toNat
    · rw [if_pos h, if_neg (by omega)]; push_cast; rfl
    · rw [if_neg h, if_pos (by omega)]
  unfold salLoses
  split
  · rename_i hn
    have hle : (2 : Int) ^ (w - 1) ≤ 2 ^ n := pow_le_pow_right₀ (by decide) (by omega)
    have hpos : (0 : Int) < 2 ^ (w - 1) := by positivity
    have hlt : (2 : Int) ^ (w - 1) < 2 ^ n := pow_lt_pow_right₀ (by decide) (by omega)
    constructor
    · intro h
      have h0 : a.toInt ≠ 0 := by
        intro e
        have : a.toNat = 0 := by
          have := BitVec.toInt_eq_toNat_bmod a
          have e2 : a = 0#w := BitVec.eq_of_toInt_eq (by simpa using e)
          simp [e2]
        simp [this] at h
      rcases lt_or_gt_of_ne h0 with h1 | h1
      · left; nlinarith
      · right; nlinarith
    · intro h
      simp only [bne_iff_ne, ne_eq]
      intro e
      have : a.toInt = 0 := by
        have e2 : a = 0#w := BitVec.eq_of_toNat_eq (by simpa using e)
        simp [e2]
      rw [this] at h; omega
  · simp only [decide_eq_true_eq, ht]

theorem intClz_eq (a : Word) : intClz a = a.clz := by
  unfold intClz
  split
  · rename_i h; subst h; decide
  · rename_i h
    have h1 := BitVec.two_pow_sub_clz_le_toNat_of_ne_zero (x := a) (by decide) h
    have h2 := BitVec.toNat_lt_two_pow_sub_clz (x := a)
    have h3 : a.clz.toNat < 64 := by
      have h4 : a.clz < BitVec.ofNat 64 64 := BitVec.clz_lt_iff_ne_zero.mpr h
      rw [BitVec.lt_def] at h4
      simpa using h4
    have h0 : a.toNat ≠ 0 := by intro e; exact h (BitVec.eq_of_toNat_eq (by simpa using e))
    have hl : Nat.log2 a.toNat = 63 - a.clz.toNat := by
      rw [Nat.log2_eq_iff h0]
      exact ⟨h1, by rwa [show 63 - a.clz.toNat + 1 = 64 - a.clz.toNat by omega]⟩
    apply BitVec.eq_of_toNat_eq
    rw [hl, BitVec.toNat_ofNat, Nat.mod_eq_of_lt (by omega)]
    omega

theorem intCtz_eq (a : Word) : intCtz a = a.ctz := by
  unfold intCtz
  by_cases h : a = 0
  · subst h
    have hn : (List.range 64).find? (fun i => (0 : Word).getLsbD i) = none := by simp
    have hr : (0 : Word).reverse = 0#64 := by
      apply BitVec.eq_of_getLsbD_eq; intro i _; rw [BitVec.getLsbD_reverse]; simp
    simp only [hn]
    rw [BitVec.ctz_eq_reverse_clz]
    exact (BitVec.clz_eq_iff_eq_zero.mpr hr).symm
  · have h1 := BitVec.getLsbD_true_ctz_of_ne_zero h
    have h3 : a.ctz.toNat < 64 := by
      have h4 : a.ctz < BitVec.ofNat 64 64 := BitVec.ctz_lt_iff_ne_zero.mpr h
      rw [BitVec.lt_def] at h4
      simpa using h4
    have hf : (List.range 64).find? (fun i => a.getLsbD i) = some a.ctz.toNat := by
      rw [List.find?_range_eq_some]
      refine ⟨h1, List.mem_range.mpr h3, fun j hj => ?_⟩
      rw [BitVec.getLsbD_false_of_lt_ctz hj]; rfl
    simp only [hf]
    exact BitVec.eq_of_toNat_eq (by simp)

theorem cpopNatRec_eq_count (a : Word) (n acc : Nat) :
    a.cpopNatRec n acc = acc + ((List.range n).filter (fun i => a.getLsbD i)).length := by
  induction n generalizing acc with
  | zero => rfl
  | succ n ih =>
    rw [BitVec.cpopNatRec_succ, ih, List.range_succ, List.filter_append, List.length_append]
    cases h : a.getLsbD n
    · simp [h]
    · simp [h]; omega

theorem intPopc_eq (a : Word) : intPopc a = a.cpop := by
  apply BitVec.eq_of_toNat_eq
  unfold intPopc
  rw [BitVec.toNat_cpop, cpopNatRec_eq_count, Nat.zero_add, BitVec.toNat_ofNat]
  refine Nat.mod_eq_of_lt ?_
  have := List.length_filter_le (fun i => a.getLsbD i) (List.range 64)
  rw [List.length_range] at this
  omega

theorem insField_eq (a : Word) (h : BitVec 2) (imm : BitVec 16) :
    insField a h imm = (a &&& ~~~(0xFFFF#64 <<< (16 * h.toNat))) ||| (imm.setWidth 64 <<< (16 * h.toNat)) := by
  unfold insField
  have hh := h.isLt
  apply BitVec.eq_of_getLsbD_eq
  intro i hi
  have hm : ∀ j, (0xFFFF#64).getLsbD j = decide (j < 16) := by
    intro j
    rw [show (0xFFFF#64) = BitVec.setWidth 64 (BitVec.allOnes 16) by decide, BitVec.getLsbD_setWidth,
      BitVec.getLsbD_allOnes]
    by_cases hj : j < 16 <;> simp [hj]; omega
  simp only [BitVec.getLsbD_or, BitVec.getLsbD_and, BitVec.getLsbD_not, BitVec.getLsbD_shiftLeft, hm,
    BitVec.getLsbD_setWidth, hi, decide_true, Bool.true_and]
  have hout := setField_bit_ne a (16 * h.toNat + 15) (16 * h.toNat) imm.toNat i (by omega) (by omega)
  by_cases h1 : i < 16 * h.toNat
  · simp [Word.bit] at hout; simp [h1, hout (.inl h1)]
  · by_cases h2 : 16 * h.toNat + 15 < i
    · simp [Word.bit] at hout
      have h3 : imm.getLsbD (i - 16 * h.toNat) = false := BitVec.getLsbD_of_ge _ _ (by omega)
      simp [h1, hout (.inr h2), h3]; intro h5; omega
    · have := setField_bit_in a (16 * h.toNat + 15) (16 * h.toNat) imm.toNat i (by omega) (by omega) (by omega) (by omega)
      simp only [Word.bit] at this
      rw [this]
      have h4 : i - 16 * h.toNat < 16 := by omega
      simp [h1, h4, BitVec.getLsbD]; omega

theorem append_byte {n : Nat} (x : BitVec n) (y : BitVec 8) : (x ++ y).toNat = 256 * x.toNat + y.toNat := by
  rw [BitVec.toNat_append, Nat.shiftLeft_eq, or_eq_add_low y.isLt (Nat.mul_mod_left _ _), Nat.mul_comm]; rfl

/-- The bytes of a word, as the number with them in reverse. -/
theorem intBswap_toNat (a : Word) : intBswap a = BitVec.ofNat 64
    (a.toNat / 2 ^ 56 % 256 + 256 * (a.toNat / 2 ^ 48 % 256 + 256 * (a.toNat / 2 ^ 40 % 256 + 256 * (a.toNat / 2 ^ 32 % 256 +
      256 * (a.toNat / 2 ^ 24 % 256 + 256 * (a.toNat / 2 ^ 16 % 256 + 256 * (a.toNat / 2 ^ 8 % 256 + 256 *
        (a.toNat % 256)))))))) := by
  simp only [intBswap, leBytes, ofLeBytes, List.reverse_cons, List.reverse_nil, List.nil_append, List.cons_append,
    BitVec.toNat_ofNat, Nat.div_div_eq_div_mul]
  norm_num

theorem intBswap_eq (a : Word) : intBswap a = a.extractLsb' 0 8 ++ a.extractLsb' 8 8 ++ a.extractLsb' 16 8 ++
    a.extractLsb' 24 8 ++ a.extractLsb' 32 8 ++ a.extractLsb' 40 8 ++ a.extractLsb' 48 8 ++ a.extractLsb' 56 8 := by
  rw [intBswap_toNat]
  apply BitVec.eq_of_toNat_eq
  simp only [append_byte, BitVec.extractLsb'_toNat, Nat.shiftRight_eq_div_pow, BitVec.toNat_ofNat, Nat.pow_zero, Nat.div_one]
  have l : ∀ k, a.toNat / 2 ^ k % 256 < 256 := fun k => Nat.mod_lt _ (by decide)
  have l0 : a.toNat % 256 < 256 := Nat.mod_lt _ (by decide)
  have h8 := l 8; have h16 := l 16; have h24 := l 24; have h32 := l 32; have h40 := l 40; have h48 := l 48; have h56 := l 56
  generalize a.toNat / 2 ^ 8 % 256 = b1 at *
  generalize a.toNat / 2 ^ 16 % 256 = b2 at *
  generalize a.toNat / 2 ^ 24 % 256 = b3 at *
  generalize a.toNat / 2 ^ 32 % 256 = b4 at *
  generalize a.toNat / 2 ^ 40 % 256 = b5 at *
  generalize a.toNat / 2 ^ 48 % 256 = b6 at *
  generalize a.toNat / 2 ^ 56 % 256 = b7 at *
  generalize a.toNat % 256 = b0 at *
  omega

end Sys2Proof.Machine
end

