-- ==== Sys2Proof/Laws/Integer.lean ====
section
/-! SUPPORT. The model's integer operations in the terms of the claims: shifts, conditions and flags. -/

namespace Sys2Proof.Machine

theorem outOfRange_eq (x : Int) : outOfRange x = beyond64 x := by
  unfold outOfRange beyond64; congr 1; apply propext; omega

theorem minWord_eq : minWord = BitVec.intMin 64 := by decide

theorem shiftVec_eq_shifted {w : Nat} (k : ShiftKind) (x : BitVec w) (n : Nat) : shiftVec k x n = shifted k x n := by
  cases k <;> rfl

theorem intShift_value (k w a n) : (intShift k w a n).r = shiftedBy k w a n := by
  rw [intShift_r]; unfold shiftedBy; cases w <;> simp [shiftVec_eq_shifted]

theorem intShift_vSet (k w a n) : (intShift k w a n).vSet = (k == .sal && salLost w a n) := by
  unfold intShift salLost
  cases k <;> try rfl
  cases w
  · simp only [Bool.false_eq_true, if_false, beq_self_eq_true, Bool.true_and]
    rw [Nat.mod_eq_of_lt a.isLt]
    rw [Bool.eq_iff_iff, salLoses_iff (by decide), decide_eq_true_iff]
  · simp only [if_true, beq_self_eq_true, Bool.true_and]
    rw [Bool.eq_iff_iff, decide_eq_true_iff, ← salLoses_iff (by decide), BitVec.toNat_setWidth]

theorem intShift_v (k w a n) : (intShift k w a n).v = (k == .sal && salLost w a n) := intShift_vSet k w a n

theorem condHolds_eq (c : BitVec 4) (psw : Word) : condHolds c psw = condTrue c.toNat psw := by
  unfold condHolds condTrue
  have hc : ∀ c : BitVec 4, c.toNat = 0 ∨ c.toNat = 1 ∨ c.toNat = 2 ∨ c.toNat = 3 ∨ c.toNat = 4 ∨ c.toNat = 5 ∨ c.toNat = 6 ∨
      c.toNat = 7 ∨ c.toNat = 8 ∨ c.toNat = 9 ∨ c.toNat = 10 ∨ c.toNat = 11 ∨ c.toNat = 12 ∨ c.toNat = 13 ∨ c.toNat = 14 ∨ c.toNat = 15 := by intro c; have := c.isLt; omega
  generalize psw.bit 0 = v; generalize psw.bit 1 = cc; generalize psw.bit 2 = z
  generalize psw.bit 3 = n; generalize psw.bit 4 = d
  rcases hc c with h | h | h | h | h | h | h | h | h | h | h | h | h | h | h | h <;> rw [h] <;>
    cases v <;> cases cc <;> cases z <;> cases n <;> cases d <;> rfl

theorem shiftKindOf_eq (imm : BitVec 10) (h : shiKind imm ≤ 5) : shiftKindOf (shiKind imm) =
    kindOf (imm.extractLsb' 7 3) := by
  revert imm; decide

theorem intFlags_keep (p : Word) (f : Bool) (x : IntRes) (j : Nat) (h : 5 ≤ j) :
    (intFlags p f x).bit j = p.bit j := by
  unfold intFlags setFlags
  dsimp only
  split
  · rw [setBit_bit_ne _ _ _ _ (by decide) (by omega)]
    split
    · exact setField_bit_ne _ _ _ _ _ (by decide) (by decide) (by omega)
    · split
      · exact setBit_bit_ne _ _ _ _ (by decide) (by omega)
      · rfl
  · split
    · exact setField_bit_ne _ _ _ _ _ (by decide) (by decide) (by omega)
    · split
      · exact setBit_bit_ne _ _ _ _ (by decide) (by omega)
      · rfl

theorem intRow_info (i : Instr) (x : IntRow) (h : intRow i = some x) :
    ∃ ds, sylInfo i = some ⟨x.sl.unit, ds, false, false, false⟩ := by
  cases i <;> first | (injection h with h; subst h; exact ⟨_, rfl⟩) | (injection h)

theorem setG_psw (r : CoreRegs) (d : Nat) (v : Word) : (r.setG d v).psw = r.psw := by
  unfold CoreRegs.setG; split <;> rfl

theorem setG_rest (r : CoreRegs) (d : Nat) (v p : Word) :
    { r.setG d v with psw := p } = { r with g := (r.setG d v).g, psw := p } := by
  unfold CoreRegs.setG; split <;> rfl

theorem getG_psw (r : CoreRegs) (p : Word) (k : Nat) : CoreRegs.getG { r with psw := p } k = r.getG k := rfl

theorem intFlags_bits (p : Word) (f : Bool) (x : IntRes) :
    (intFlags p f x).bit 3 = (if f then x.r.msb else p.bit 3) ∧
    (intFlags p f x).bit 2 = (if f then decide (x.r = 0) else p.bit 2) ∧
    (intFlags p f x).bit 1 = (if f then x.c else p.bit 1) ∧
    (intFlags p f x).bit 0 = (if f then x.v else p.bit 0 || x.vSet) ∧
    (intFlags p f x).bit 4 = (p.bit 4 || x.dzSet) := by
  have hf : ∀ j, j ≤ 3 → (setFlags p (x.r.bit 63) (x.r == 0) x.c x.v).bit j =
      (8 * (x.r.bit 63).toNat + 4 * (x.r == 0).toNat + 2 * x.c.toNat + x.v.toNat).testBit j := by
    intro j hj
    unfold setFlags
    rw [setField_bit_in _ _ _ _ _ (by decide) (by decide) (by omega) hj, Nat.sub_zero]
  have h4 : (setFlags p (x.r.bit 63) (x.r == 0) x.c x.v).bit 4 = p.bit 4 := by
    unfold setFlags; exact setField_bit_ne _ _ _ _ _ (by decide) (by decide) (by omega)
  have hm : x.r.msb = x.r.bit 63 := by simp [BitVec.msb_eq_getLsbD_last, Word.bit]
  have e0 := hf 0 (by decide); have e1 := hf 1 (by decide); have e2 := hf 2 (by decide); have e3 := hf 3 (by decide)
  have hz : decide (x.r = 0) = (x.r == 0) := rfl
  have k0 : ∀ (w : Word) j b, j ≠ 4 → (setBit w 4 b).bit j = w.bit j :=
    fun w j b hj => setBit_bit_ne w 4 j b (by decide) hj
  have k4 : ∀ (w : Word) b, (setBit w 4 b).bit 4 = b := fun w b => setBit_bit_self w 4 b (by decide)
  have v0 : ∀ (w : Word) j b, j ≠ 0 → (setBit w 0 b).bit j = w.bit j :=
    fun w j b hj => setBit_bit_ne w 0 j b (by decide) hj
  have v4 : ∀ (w : Word) b, (setBit w 0 b).bit 0 = b := fun w b => setBit_bit_self w 0 b (by decide)
  have p1 : (intFlags p f x) = if x.dzSet then setBit (if f then setFlags p (x.r.bit 63) (x.r == 0) x.c x.v
    else if x.vSet then setBit p 0 true else p) 4 true else (if f then setFlags p (x.r.bit 63) (x.r == 0) x.c x.v
    else if x.vSet then setBit p 0 true else p) := rfl
  rw [p1, hm, hz]
  generalize setFlags p (x.r.bit 63) (x.r == 0) x.c x.v = q at *
  generalize x.r.bit 63 = n at *; generalize (x.r == 0) = z at *; generalize x.c = c at *; generalize x.v = v at *
  have t0 : (8 * n.toNat + 4 * z.toNat + 2 * c.toNat + v.toNat).testBit 0 = v := by
    cases n <;> cases z <;> cases c <;> cases v <;> rfl
  have t1 : (8 * n.toNat + 4 * z.toNat + 2 * c.toNat + v.toNat).testBit 1 = c := by
    cases n <;> cases z <;> cases c <;> cases v <;> rfl
  have t2 : (8 * n.toNat + 4 * z.toNat + 2 * c.toNat + v.toNat).testBit 2 = z := by
    cases n <;> cases z <;> cases c <;> cases v <;> rfl
  have t3 : (8 * n.toNat + 4 * z.toNat + 2 * c.toNat + v.toNat).testBit 3 = n := by
    cases n <;> cases z <;> cases c <;> cases v <;> rfl
  rw [t0] at e0; rw [t1] at e1; rw [t2] at e2; rw [t3] at e3
  cases x.dzSet <;> cases f <;> cases x.vSet <;> simp [k0, k4, v0, v4, e0, e1, e2, e3, h4]

end Sys2Proof.Machine
end

