-- ==== Sys2Proof/Laws/KeepsBase.lean ====
section
/-! SUPPORT. What almost every operation keeps, as one relation between states, and how it is shown of an operation. -/

namespace Sys2Proof.Machine

/-- `s` keeps of `s0` the queue, the fuses, sound memory, the accepted image versions and the customer key; with `r` the
retirement records, with `l` the lock of the bonded watchdog. -/
structure Keeps (r l : Bool) (s0 s : State) : Prop where
  pending : s.pending = s0.pending
  part : s.part = s0.part
  mem : Memory.sound s0.mem → Memory.sound s.mem
  version : ∀ k, acceptedVersion s0 k ≤ acceptedVersion s k
  custKey : ∀ k, s0.rlx.flash.custKey = some k → s.rlx.flash.custKey = some k
  retired : r = true → ∀ n, retirementStands s0 n → retirementStands s n
  lock : l = true → s0.bnd.wdgLock = true → s.bnd.wdgLock = true

theorem Keeps.refl (r l : Bool) (s : State) : Keeps r l s s :=
  ⟨rfl, rfl, id, fun _ => Nat.le_refl _, fun _ h => h, fun _ _ h => h, fun _ h => h⟩

theorem Keeps.trans {r l : Bool} {a b c : State} (h : Keeps r l a b) (k : Keeps r l b c) : Keeps r l a c :=
  ⟨k.pending.trans h.pending, k.part.trans h.part, fun m => k.mem (h.mem m),
    fun i => Nat.le_trans (h.version i) (k.version i), fun i e => k.custKey i (h.custKey i e),
    fun x n e => k.retired x n (h.retired x n e), fun x e => k.lock x (h.lock x e)⟩

/-- A state that differs only in fields the relation does not speak of. -/
theorem Keeps.upd {r l : Bool} {s0 s t : State} (h : Keeps r l s0 s) (hp : t.pending = s.pending)
    (hq : t.part = s.part) (hb : t.mem.bytes = s.mem.bytes) (hk : t.mem.keys = s.mem.keys)
    (hz : t.mem.poison = s.mem.poison) (hf : t.rlx.flash = s.rlx.flash) (hl : t.bnd.wdgLock = s.bnd.wdgLock) :
    Keeps r l s0 t := by
  refine ⟨hp.trans h.pending, hq.trans h.part, ?_, ?_, ?_, ?_, ?_⟩
  · intro m
    have := h.mem m
    unfold Memory.sound Memory.wf Memory.markerZero at *
    rw [hb, hk, hz]; exact this
  · intro k; unfold acceptedVersion; rw [hf]; exact h.version k
  · rw [hf]; exact h.custKey
  · intro x n e; unfold retirementStands; rw [hf]; exact h.retired x n e
  · rw [hl]; exact h.lock

/-- The same, in the form in which an update of `s` stands. -/
theorem Keeps.made {kr kl : Bool} {s0 s : State} {power : Power} {devId : Nat} {devValid : Bool} {quadOnline : Nat}
    {spareInUse : Nat} {mer : Meridian} {vin : Vintage} {staged : Staged} {counters : Table Nat} {marks : Table Nat}
    {cores : Table Core} {sxt : Sextant} {lines : Table AgentLine} {l3 : Table (List Nat)} {reqs : List AgentReq} {wbs : List WbBuf} {home : Home}
    {mem : Memory} {tree : Tree} {fab : Fabric} {chs : Channels} {mov : Movers} {cmp : Compression} {cip : Cipher} {zon :
    Zones} {bnd : Bonded} {rlx : Relrax} {flt : Faults} {log : Logbook} {pcie : Table Pcie} {fresh : Nat}
    (h : Keeps kr kl s0 s) (hb : mem.bytes = s.mem.bytes) (hk : mem.keys = s.mem.keys)
    (hz : mem.poison = s.mem.poison) (hf : rlx.flash = s.rlx.flash) (hl : bnd.wdgLock = s.bnd.wdgLock) :
    Keeps kr kl s0 (State.mk s.part power devId devValid quadOnline spareInUse mer vin staged counters marks cores sxt
    lines l3 reqs wbs home mem tree fab chs mov cmp cip zon bnd rlx flt log pcie fresh s.pending) :=
  h.upd rfl rfl hb hk hz hf hl

/-- The same of the state of an answer with a result. -/
def Keeps2 {α : Type} (kr kl : Bool) (s0 : State) (e : α × State) : Prop := Keeps kr kl s0 e.2

/-- The same of the state of an answer with two results. -/
def Keeps3 {α β : Type} (kr kl : Bool) (s0 : State) (e : α × β × State) : Prop := Keeps kr kl s0 e.2.2

theorem Keeps2.mk {α : Type} {kr kl : Bool} {s0 t : State} {a : α} (h : Keeps kr kl s0 t) : Keeps2 kr kl s0 (a, t) := h

theorem Keeps3.mk {α β : Type} {kr kl : Bool} {s0 t : State} {a : α} {b : β} (h : Keeps kr kl s0 t) :
    Keeps3 kr kl s0 (a, b, t) := h

theorem Keeps2.snd {α : Type} {kr kl : Bool} {s0 : State} {e : α × State} (h : Keeps2 kr kl s0 e) : Keeps kr kl s0 e.2 := h

theorem Keeps3.snd {α β : Type} {kr kl : Bool} {s0 : State} {e : α × β × State} (h : Keeps3 kr kl s0 e) :
    Keeps kr kl s0 e.2.2 := h

theorem Keeps2.eq {α : Type} {kr kl : Bool} {s0 t : State} {e : α × State} {a : α} (h : e = (a, t))
    (k : Keeps2 kr kl s0 e) : Keeps kr kl s0 t := by rw [h] at k; exact k

theorem Keeps3.eq {α β : Type} {kr kl : Bool} {s0 t : State} {e : α × β × State} {a : α} {b : β} (h : e = (a, b, t))
    (k : Keeps3 kr kl s0 e) : Keeps kr kl s0 t := by rw [h] at k; exact k

/-- The same of the state of an answer that may be missing. -/
def KeepsO (kr kl : Bool) (s0 : State) (e : Option State) : Prop := ∀ t, e = some t → Keeps kr kl s0 t

/-- The same of the state of an answer that may be an error. -/
def KeepsE (kr kl : Bool) (s0 : State) (e : Except Nat State) : Prop := ∀ t, e = .ok t → Keeps kr kl s0 t

theorem KeepsO.none {kr kl : Bool} {s0 : State} : KeepsO kr kl s0 none := fun _ h => nomatch h

theorem KeepsO.some {kr kl : Bool} {s0 t : State} (h : Keeps kr kl s0 t) : KeepsO kr kl s0 (some t) := by
  intro u e; cases e; exact h

theorem KeepsE.error {kr kl : Bool} {s0 : State} {x : Nat} : KeepsE kr kl s0 (.error x) := fun _ h => nomatch h

theorem KeepsE.ok {kr kl : Bool} {s0 t : State} (h : Keeps kr kl s0 t) : KeepsE kr kl s0 (.ok t) := by
  intro u e; cases e; exact h

theorem KeepsO.eq {kr kl : Bool} {s0 t : State} {e : Option State} (h : e = .some t) (k : KeepsO kr kl s0 e) :
    Keeps kr kl s0 t := k t h

theorem KeepsE.eq {kr kl : Bool} {s0 t : State} {e : Except Nat State} (h : e = .ok t) (k : KeepsE kr kl s0 e) :
    Keeps kr kl s0 t := k t h

theorem KeepsO.map {α : Type} {kr kl : Bool} {s0 : State} {f : α → State} {o : Option α}
    (h : ∀ x, Keeps kr kl s0 (f x)) : KeepsO kr kl s0 (o.map f) := by
  intro t e
  cases o with
  | none => cases e
  | some x => cases e; exact h x

theorem Keeps.getD {kr kl : Bool} {s0 s : State} {o : Option State} (k : KeepsO kr kl s0 o) (h : Keeps kr kl s0 s) :
    Keeps kr kl s0 (o.getD s) := by
  cases o with
  | none => exact h
  | some t => exact k t rfl

theorem Keeps.foldl {α : Type} {r l : Bool} {s0 : State} {f : State → α → State} {s : State} (xs : List α)
    (h : Keeps r l s0 s) (k : ∀ t x, Keeps r l s0 t → Keeps r l s0 (f t x)) : Keeps r l s0 (xs.foldl f s) := by
  induction xs generalizing s with
  | nil => exact h
  | cons x xs ih => exact ih (k _ _ h)

theorem Keeps2.foldl {α β : Type} {kr kl : Bool} {s0 : State} {f : β × State → α → β × State} {s : β × State}
    (xs : List α) (h : Keeps2 kr kl s0 s) (k : ∀ t x, Keeps2 kr kl s0 t → Keeps2 kr kl s0 (f t x)) :
    Keeps2 kr kl s0 (xs.foldl f s) := by
  induction xs generalizing s with
  | nil => exact h
  | cons x xs ih => exact ih (k _ _ h)

theorem Keeps3.foldl {α β γ : Type} {kr kl : Bool} {s0 : State} {f : β × γ × State → α → β × γ × State}
    {s : β × γ × State} (xs : List α) (h : Keeps3 kr kl s0 s) (k : ∀ t x, Keeps3 kr kl s0 t → Keeps3 kr kl s0 (f t x)) :
    Keeps3 kr kl s0 (xs.foldl f s) := by
  induction xs generalizing s with
  | nil => exact h
  | cons x xs ih => exact ih (k _ _ h)

/-- A reporter that keeps what `Keeps` speaks of. -/
structure RepKeeps (r l : Bool) (rep : Reporter) : Prop where
  fault : ∀ s0 x s, Keeps r l s0 s → Keeps r l s0 (rep.fault x s)
  low : ∀ s0 z s, Keeps r l s0 s → Keeps r l s0 (rep.low z s)

/-- A table with a flag set keeps the flags that were set. -/
theorem Table.flag_set_mono {t : Table Bool} (k n : Nat) (h : Table.get noFlag t n = true) :
    Table.get noFlag (Table.set noFlag t k true) n = true := by
  by_cases e : n = k
  · subst e; rw [Table.get_set, if_pos rfl]
  · rw [Table.get_set, if_neg e]; exact h

/-- A table whose entry is raised to a maximum keeps or raises every entry. -/
theorem Table.upd_max_mono (t : Table Nat) (k v n : Nat) :
    Table.get zeroOf t n ≤ Table.get zeroOf (Table.upd zeroOf t k (max v)) n := by
  unfold Table.upd Table.set
  split
  · rename_i e
    by_cases h : n = k
    · subst h
      have e' : max v (Table.get zeroOf t n) = 0 := e
      have : Table.get zeroOf t n ≤ 0 := e' ▸ Nat.le_max_right _ _
      omega
    · rw [Table.get_del, if_neg h]
  · rw [Table.get_put]
    split
    · rename_i h; subst h; exact Nat.le_max_right _ _
    · exact Nat.le_refl _

/-! ## Bytes of memory -/

theorem putBytes_wf {m : List Host.Cell} (a : Nat) (bs : List Byte) (h : Table.wf memDefault m = true) :
    Table.wf memDefault (putBytes m a bs) = true := by
  induction bs generalizing m a with
  | nil => exact h
  | cons b t ih => exact ih (a + 1) (Table.wf_set a b h)

/-- A byte outside the written ones reads as before. -/
theorem putBytes_get_outside {m : List Host.Cell} (a k : Nat) (bs : List Byte) (h : Table.wf memDefault m = true)
    (hk : k < a ∨ a + bs.length ≤ k) : Table.get memDefault (putBytes m a bs) k = Table.get memDefault m k := by
  induction bs generalizing m a with
  | nil => rfl
  | cons b t ih =>
    simp only [List.length_cons] at hk
    simp only [putBytes]
    rw [ih (a + 1) (Table.wf_set a b h) (by omega), Table.get_set, if_neg (by omega)]

/-- A written byte reads as written. -/
theorem putBytes_get {m : List Host.Cell} (a j : Nat) (bs : List Byte) (h : Table.wf memDefault m = true)
    (hj : j < bs.length) : Table.get memDefault (putBytes m a bs) (a + j) = bs[j] := by
  induction bs generalizing m a j with
  | nil => simp at hj
  | cons b t ih =>
    simp only [putBytes]
    cases j with
    | zero =>
      rw [putBytes_get_outside (a + 1) (a + 0) t (Table.wf_set a b h) (by omega), Table.get_set]
      simp
    | succ j =>
      have := ih (a + 1) j (Table.wf_set a b h) (by simpa using hj)
      simpa [Nat.add_assoc, Nat.add_comm 1 j] using this

theorem leBytes_length (n v : Nat) : (leBytes n v).length = n := by
  induction n generalizing v with
  | zero => rfl
  | succ n ih => simp [leBytes, ih]

theorem leBytes_zero (n : Nat) : leBytes n 0 = List.replicate n 0 := by
  induction n with
  | zero => rfl
  | succ n ih => simp [leBytes, ih, List.replicate_succ]

theorem leBytes_getElem_zero (n j : Nat) (h : j < (leBytes n 0).length) : (leBytes n 0)[j] = 0 := by
  simp only [leBytes_zero, List.getElem_replicate]

theorem line_zero_toNat : (0 : Line).toNat = 0 := BitVec.toNat_zero

theorem lineBytes_zero : lineBytes 0 = leBytes 128 0 :=
  congrArg (leBytes 128) line_zero_toNat

theorem lineBytes_length (x : Line) : (lineBytes x).length = 128 := leBytes_length 128 x.toNat

/-! ## The two operations that write memory -/

theorem writeFrame_sound (s : State) (fl key : Nat) (x : Line) (h : Memory.sound s.mem) :
    Memory.sound (writeFrame s fl key x).mem := by
  obtain ⟨hw, hz⟩ := h
  simp only [Memory.wf, Bool.and_eq_true] at hw
  refine ⟨?_, ?_⟩
  · simp only [Memory.wf, writeFrame, Bool.and_eq_true]
    exact ⟨⟨putBytes_wf _ _ hw.1.1, Table.wf_set _ _ hw.1.2⟩, Table.wf_set _ _ hw.2⟩
  · intro g hg j hj
    simp only [writeFrame] at hg ⊢
    rw [Table.get_set] at hg
    split at hg
    · cases hg
    · rename_i hne
      rw [putBytes_get_outside (fl * 128) (g * 128 + j) (lineBytes x) hw.1.1 (by rw [lineBytes_length]; omega)]
      exact hz g hg j hj

theorem poisonFrame_sound (s : State) (fl : Nat) (h : Memory.sound s.mem) :
    Memory.sound (poisonFrame s fl).mem := by
  have hs := writeFrame_sound s fl 0 0 h
  obtain ⟨hw, hz⟩ := hs
  obtain ⟨hw0, hz0⟩ := h
  have hw' := hw
  simp only [Memory.wf, Bool.and_eq_true] at hw hw0
  refine ⟨?_, ?_⟩
  · simp only [Memory.wf, poisonFrame, Bool.and_eq_true]
    exact ⟨hw.1, Table.wf_set _ _ hw.2⟩
  · intro g hg j hj
    simp only [poisonFrame] at hg ⊢
    rw [Table.get_set] at hg
    by_cases e : g = fl
    · subst e
      simp only [writeFrame]
      rw [putBytes_get (g * 128) j (lineBytes 0) hw0.1.1 (by rw [lineBytes_length]; exact hj)]
      simp only [lineBytes_zero]
      exact leBytes_getElem_zero 128 j _
    · rw [if_neg e] at hg
      exact hz g hg j hj

theorem keeps_writeFrame (s : State) (fl key : Nat) (x : Line) {r l : Bool} {s0 : State} (h : Keeps r l s0 s) :
    Keeps r l s0 (writeFrame s fl key x) :=
  ⟨h.pending, h.part, fun m => writeFrame_sound s fl key x (h.mem m), h.version, h.custKey, h.retired, h.lock⟩

theorem keeps_poisonFrame (s : State) (fl : Nat) {r l : Bool} {s0 : State} (h : Keeps r l s0 s) :
    Keeps r l s0 (poisonFrame s fl) := by
  have k := keeps_writeFrame s fl 0 0 h
  generalize e : writeFrame s fl 0 0 = t at k
  have m := poisonFrame_sound s fl
  simp only [poisonFrame, e] at m ⊢
  exact ⟨k.pending, k.part, fun x => m (h.mem x), k.version, k.custKey, k.retired, k.lock⟩

end Sys2Proof.Machine
end

