-- ==== Sys2Proof/Laws/KeepsOps.lean ====
section
/-! SUPPORT. What the operations of Ops.lean keep: one lemma for each, in the terms of `Keeps`. -/

set_option linter.unusedTactic false
set_option linter.unreachableTactic false

namespace Sys2Proof.Machine

variable {kr kl : Bool} {s0 : State}

theorem keeps_bumpCounter (s : State) (key : ℕ) (hk : Keeps kr kl s0 s) : Keeps kr kl s0 (bumpCounter s key) := by
  unfold bumpCounter
  with_reducible repeat' first
    | assumption | fail_if_no_progress (refine Keeps.made ?_ rfl rfl rfl rfl rfl)
    | (extract_lets +onlyGivenNames x; subst x) | split | fail_if_no_progress beta_reduce

theorem keeps_issueStamp (s : State) (unit : ℕ) (hk : Keeps kr kl s0 s) : Keeps2 kr kl s0 (issueStamp s unit) := by
  unfold issueStamp
  with_reducible repeat' first
    | assumption | apply keeps_bumpCounter | apply Keeps2.snd | refine Keeps2.eq (by assumption) ?_
    | (extract_lets +onlyGivenNames x; subst x) | split | fail_if_no_progress beta_reduce | apply Keeps2.mk

theorem keeps_logPump (s : State) (hk : Keeps kr kl s0 s) : Keeps kr kl s0 (logPump s) := by
  unfold logPump
  with_reducible repeat' first
    | assumption | fail_if_no_progress (refine Keeps.made ?_ rfl rfl rfl rfl rfl)
    | (extract_lets +onlyGivenNames x; subst x) | split | fail_if_no_progress beta_reduce

theorem keeps_logPut (s : State) (e : LogEntry) (hk : Keeps kr kl s0 s) : Keeps kr kl s0 (logPut s e) := by
  unfold logPut
  with_reducible repeat' first
    | assumption | apply keeps_logPump | fail_if_no_progress (refine Keeps.made ?_ rfl rfl rfl rfl rfl)
    | (extract_lets +onlyGivenNames x; subst x) | split | fail_if_no_progress beta_reduce

theorem keeps_logAdd (s : State) (type : ℕ) (stamp : Word) (p : List Word) (hk : Keeps kr kl s0 s) : Keeps kr kl s0
    (logAdd s type stamp p) := by
  unfold logAdd
  with_reducible repeat' first
    | assumption | apply keeps_logPut | (extract_lets +onlyGivenNames x; subst x) | split
    | fail_if_no_progress beta_reduce

theorem keeps_updVcore (s : State) (zone vcid : ℕ) (f : Vcore → Vcore) (hk : Keeps kr kl s0 s) : Keeps kr kl s0
    (updVcore s zone vcid f) := by
  unfold updVcore
  with_reducible repeat' first
    | assumption | fail_if_no_progress (refine Keeps.made ?_ rfl rfl rfl rfl rfl)
    | (extract_lets +onlyGivenNames x; subst x) | split | fail_if_no_progress beta_reduce

theorem keeps_issueCoreStamp (s : State) (n : ℕ) (hk : Keeps kr kl s0 s) : Keeps2 kr kl s0 (issueCoreStamp s n) :=
    by
  unfold issueCoreStamp
  with_reducible repeat' first
    | assumption | apply keeps_bumpCounter | apply Keeps2.snd | refine Keeps2.eq (by assumption) ?_
    | (extract_lets +onlyGivenNames x; subst x) | split | fail_if_no_progress beta_reduce | apply Keeps2.mk

theorem keeps_setCore (s : State) (n : ℕ) (c : Core) (hk : Keeps kr kl s0 s) : Keeps kr kl s0 (setCore s n c) := by
  unfold setCore
  with_reducible repeat' first
    | assumption | fail_if_no_progress (refine Keeps.made ?_ rfl rfl rfl rfl rfl)
    | (extract_lets +onlyGivenNames x; subst x) | split | fail_if_no_progress beta_reduce

theorem keeps_updCore (s : State) (n : ℕ) (f : Core → Core) (hk : Keeps kr kl s0 s) : Keeps kr kl s0 (updCore s n f)
    := by
  unfold updCore
  with_reducible repeat' first
    | assumption | apply keeps_setCore | (extract_lets +onlyGivenNames x; subst x) | split
    | fail_if_no_progress beta_reduce

theorem keeps_updCores (s : State) (ns : List ℕ) (f : ℕ → Core → Core) (hk : Keeps kr kl s0 s) : Keeps kr kl s0
    (updCores s ns f) := by
  unfold updCores
  with_reducible repeat' first
    | assumption | apply keeps_updCore | refine Keeps.foldl _ ?_ ?_ | intro _
    | (extract_lets +onlyGivenNames x; subst x) | split | fail_if_no_progress beta_reduce

theorem keeps_updPcie (s : State) (c : ℕ) (f : Pcie → Pcie) (hk : Keeps kr kl s0 s) : Keeps kr kl s0 (updPcie s c f)
    := by
  unfold updPcie
  with_reducible repeat' first
    | assumption | fail_if_no_progress (refine Keeps.made ?_ rfl rfl rfl rfl rfl)
    | (extract_lets +onlyGivenNames x; subst x) | split | fail_if_no_progress beta_reduce

theorem keeps_nextFree (s : State) (hk : Keeps kr kl s0 s) : Keeps kr kl s0 (nextFree s) := by
  unfold nextFree
  with_reducible repeat' first
    | assumption | fail_if_no_progress (refine Keeps.made ?_ rfl rfl rfl rfl rfl)
    | (extract_lets +onlyGivenNames x; subst x) | split | fail_if_no_progress beta_reduce

theorem keeps_updDom (s : State) (d : ℕ) (f : Domain → Domain) (hk : Keeps kr kl s0 s) : Keeps kr kl s0 (updDom s d
    f) := by
  unfold updDom
  with_reducible repeat' first
    | assumption | fail_if_no_progress (refine Keeps.made ?_ rfl rfl rfl rfl rfl)
    | (extract_lets +onlyGivenNames x; subst x) | split | fail_if_no_progress beta_reduce

theorem keeps_updZone (s : State) (z : ℕ) (f : Zone → Zone) (hk : Keeps kr kl s0 s) : Keeps kr kl s0 (updZone s z f)
    := by
  unfold updZone
  with_reducible repeat' first
    | assumption | fail_if_no_progress (refine Keeps.made ?_ rfl rfl rfl rfl rfl)
    | (extract_lets +onlyGivenNames x; subst x) | split | fail_if_no_progress beta_reduce

theorem keeps_updChn (s : State) (n : ℕ) (f : Chn → Chn) (hk : Keeps kr kl s0 s) : Keeps kr kl s0 (updChn s n f) :=
    by
  unfold updChn
  with_reducible repeat' first
    | assumption | fail_if_no_progress (refine Keeps.made ?_ rfl rfl rfl rfl rfl)
    | (extract_lets +onlyGivenNames x; subst x) | split | fail_if_no_progress beta_reduce

theorem keeps_updPort (s : State) (p : ℕ) (f : Port → Port) (hk : Keeps kr kl s0 s) : Keeps kr kl s0 (updPort s p f)
    := by
  unfold updPort
  with_reducible repeat' first
    | assumption | fail_if_no_progress (refine Keeps.made ?_ rfl rfl rfl rfl rfl)
    | (extract_lets +onlyGivenNames x; subst x) | split | fail_if_no_progress beta_reduce

end Sys2Proof.Machine
end

