-- ==== Sys2Proof/Laws/KeepsMem.lean ====
section
/-! SUPPORT. What the operations of Mem.lean keep: one lemma for each, in the terms of `Keeps`. -/

set_option linter.unusedTactic false
set_option linter.unreachableTactic false

namespace Sys2Proof.Machine

variable {kr kl : Bool} {s0 : State}

theorem keeps_setPage (s : State) (p : ℕ) (e : PageEnt) (hk : Keeps kr kl s0 s) : Keeps kr kl s0 (setPage s p e) :=
    by
  unfold setPage
  with_reducible repeat' first
    | assumption | fail_if_no_progress (refine Keeps.made ?_ rfl rfl rfl rfl rfl)
    | (extract_lets +onlyGivenNames x; subst x) | split | fail_if_no_progress beta_reduce

theorem keeps_touchPage (s : State) (page : ℕ) (hk : Keeps kr kl s0 s) : Keeps kr kl s0 (touchPage s page) := by
  unfold touchPage
  with_reducible repeat' first
    | assumption | apply keeps_setPage | fail_if_no_progress (refine Keeps.made ?_ rfl rfl rfl rfl rfl)
    | (extract_lets +onlyGivenNames x; subst x) | split | fail_if_no_progress beta_reduce

theorem keeps_markGrans (s : State) (gs : List ℕ) (u : Bool) (hk : Keeps kr kl s0 s) : Keeps kr kl s0 (markGrans s
    gs u) := by
  unfold markGrans
  with_reducible repeat' first
    | assumption | refine Keeps.foldl _ ?_ ?_ | fail_if_no_progress (refine Keeps.made ?_ rfl rfl rfl rfl rfl)
    | intro _ | (extract_lets +onlyGivenNames x; subst x) | split | fail_if_no_progress beta_reduce

theorem keeps_freeImage (s : State) (page : ℕ) (hk : Keeps kr kl s0 s) : Keeps kr kl s0 (freeImage s page) := by
  unfold freeImage
  with_reducible repeat' first
    | assumption | apply keeps_markGrans | fail_if_no_progress (refine Keeps.made ?_ rfl rfl rfl rfl rfl)
    | (extract_lets +onlyGivenNames x; subst x) | split | fail_if_no_progress beta_reduce

theorem keeps_writePage (s : State) (frame zone : ℕ) (page : List Byte) (hk : Keeps kr kl s0 s) : Keeps kr kl s0
    (writePage s frame zone page) := by
  unfold writePage
  with_reducible repeat' first
    | assumption | apply keeps_writeFrame | refine Keeps.foldl _ ?_ ?_ | intro _
    | (extract_lets +onlyGivenNames x; subst x) | split | fail_if_no_progress beta_reduce

theorem keeps_decantInto (s : State) (page frame : ℕ) (hk : Keeps kr kl s0 s) : Keeps2 kr kl s0 (decantInto s page
    frame) := by
  unfold decantInto
  with_reducible repeat' first
    | assumption | apply keeps_setPage | apply keeps_freeImage | apply keeps_writePage | apply keeps_poisonFrame
    | apply Keeps2.snd | refine Keeps.foldl _ ?_ ?_ | refine Keeps2.foldl _ ?_ ?_ | refine Keeps2.eq (by assumption) ?_
    | fail_if_no_progress (refine Keeps.made ?_ rfl rfl rfl rfl rfl) | intro _
    | (extract_lets +onlyGivenNames x; subst x) | split | fail_if_no_progress beta_reduce | apply Keeps2.mk

theorem keeps_updList (s : State) (z : ℕ) (f : FreeList → FreeList) (hk : Keeps kr kl s0 s) : Keeps kr kl s0
    (updList s z f) := by
  unfold updList
  with_reducible repeat' first
    | assumption | fail_if_no_progress (refine Keeps.made ?_ rfl rfl rfl rfl rfl)
    | (extract_lets +onlyGivenNames x; subst x) | split | fail_if_no_progress beta_reduce

theorem keeps_popFrame (s : State) (z : ℕ) {x : ℕ} {y : Bool} {t : State} (hk : Keeps kr kl s0 s) (e : popFrame s z
    = some (x, y, t)) : Keeps kr kl s0 t := by
  unfold popFrame at e
  dsimp only at e
  split at e
  · cases e
  · simp only [Option.some.injEq, Prod.mk.injEq] at e
    obtain ⟨-, -, rfl⟩ := e
    exact keeps_updList _ _ _ hk

theorem keeps_engineLine (rep : Reporter) (s : State) (off zone : ℕ) (world : Bool) (stamp : Word) (hk : Keeps kr kl
    s0 s) (hrep : RepKeeps kr kl rep) : Keeps2 kr kl s0 (engineLine rep s off zone world stamp) := by
  unfold engineLine
  with_reducible repeat' first
    | assumption | apply keeps_touchPage | apply keeps_decantInto | apply keeps_updZone
    | apply keeps_popFrame (e := by assumption) | apply Keeps2.snd | refine Keeps2.eq (by assumption) ?_
    | apply hrep.fault | apply hrep.low | exact hrep | fail_if_no_progress (refine Keeps.made ?_ rfl rfl rfl rfl rfl)
    | (extract_lets +onlyGivenNames x; subst x) | split | fail_if_no_progress beta_reduce | apply Keeps2.mk

theorem keeps_setLine (s : State) (q gl : ℕ) (l : AgentLine) (hk : Keeps kr kl s0 s) : Keeps kr kl s0 (setLine s q
    gl l) := by
  unfold setLine
  with_reducible repeat' first
    | assumption | fail_if_no_progress (refine Keeps.made ?_ rfl rfl rfl rfl rfl)
    | (extract_lets +onlyGivenNames x; subst x) | split | fail_if_no_progress beta_reduce

theorem keeps_cleanNears (s : State) (q gl : ℕ) (hk : Keeps kr kl s0 s) : Keeps kr kl s0 (cleanNears s q gl) := by
  unfold cleanNears
  with_reducible repeat' first
    | assumption | fail_if_no_progress (refine Keeps.made ?_ rfl rfl rfl rfl rfl)
    | (extract_lets +onlyGivenNames x; subst x) | split | fail_if_no_progress beta_reduce

theorem keeps_writeZoneLine (s : State) (fl zone : ℕ) (poison : Bool) (l : Line) (hk : Keeps kr kl s0 s) : Keeps kr
    kl s0 (writeZoneLine s fl zone poison l) := by
  unfold writeZoneLine
  with_reducible repeat' first
    | assumption | apply keeps_poisonFrame | apply keeps_writeFrame | (extract_lets +onlyGivenNames x; subst x) | split
    | fail_if_no_progress beta_reduce

theorem keeps_cleanLineAt (s : State) (off fl : ℕ) (hk : Keeps kr kl s0 s) : Keeps kr kl s0 (cleanLineAt s off fl)
    := by
  unfold cleanLineAt
  with_reducible repeat' first
    | assumption | apply keeps_setLine | apply keeps_cleanNears | apply keeps_writeZoneLine
    | refine Keeps.foldl _ ?_ ?_ | intro _ | (extract_lets +onlyGivenNames x; subst x) | split
    | fail_if_no_progress beta_reduce

theorem keeps_readNow (rep : Reporter) (s : State) (addr : Word) (n zone : ℕ) (world : Bool) (stamp : Word) (hk :
    Keeps kr kl s0 s) (hrep : RepKeeps kr kl rep) : Keeps2 kr kl s0 (readNow rep s addr n zone world stamp) := by
  unfold readNow
  with_reducible repeat' first
    | assumption | apply keeps_engineLine | apply keeps_cleanLineAt | apply Keeps2.snd
    | refine Keeps2.eq (by assumption) ?_ | apply hrep.fault | apply hrep.low | exact hrep | intro _
    | (extract_lets +onlyGivenNames x; subst x) | split | fail_if_no_progress beta_reduce | apply Keeps2.mk

theorem keeps_dropQuadCopies (s : State) (q gl : ℕ) (keep : Option ℕ) (hk : Keeps kr kl s0 s) : Keeps kr kl s0
    (dropQuadCopies s q gl keep) := by
  unfold dropQuadCopies
  with_reducible repeat' first
    | assumption | fail_if_no_progress (refine Keeps.made ?_ rfl rfl rfl rfl rfl) | intro _
    | (extract_lets +onlyGivenNames x; subst x) | split | fail_if_no_progress beta_reduce

theorem keeps_dropLine (s : State) (q gl : ℕ) (hk : Keeps kr kl s0 s) : Keeps kr kl s0 (dropLine s q gl) := by
  unfold dropLine
  with_reducible repeat' first
    | assumption | apply keeps_dropQuadCopies | apply keeps_setLine | (extract_lets +onlyGivenNames x; subst x) | split
    | fail_if_no_progress beta_reduce

theorem keeps_sendFlit (s : State) (f : Flit) (hk : Keeps kr kl s0 s) : Keeps kr kl s0 (sendFlit s f) := by
  unfold sendFlit
  with_reducible repeat' first
    | assumption | fail_if_no_progress (refine Keeps.made ?_ rfl rfl rfl rfl rfl)
    | (extract_lets +onlyGivenNames x; subst x) | split | fail_if_no_progress beta_reduce

theorem keeps_sendSnoop (s : State) (op : FlitOp) (a : Agent) (nf : Bool) (zone : ℕ) (stamp addr : Word) (hk : Keeps
    kr kl s0 s) : Keeps kr kl s0 (sendSnoop s op a nf zone stamp addr) := by
  unfold sendSnoop
  with_reducible repeat' first
    | assumption | apply keeps_sendFlit | (extract_lets +onlyGivenNames x; subst x) | split
    | fail_if_no_progress beta_reduce

theorem keeps_setDir (s : State) (lineIdx : ℕ) (e : DirEntry) (hk : Keeps kr kl s0 s) : Keeps kr kl s0 (setDir s
    lineIdx e) := by
  unfold setDir
  with_reducible repeat' first
    | assumption | fail_if_no_progress (refine Keeps.made ?_ rfl rfl rfl rfl rfl)
    | (extract_lets +onlyGivenNames x; subst x) | split | fail_if_no_progress beta_reduce

theorem keeps_takeLine (s : State) (off fl : ℕ) (keep : Bool) (hk : Keeps kr kl s0 s) : Keeps kr kl s0 (takeLine s
    off fl keep) := by
  unfold takeLine
  with_reducible repeat' first
    | assumption | apply keeps_writeZoneLine | apply keeps_dropLine | apply keeps_nextFree | apply keeps_writeFrame
    | apply keeps_issueStamp | apply keeps_sendSnoop | apply keeps_setDir | apply Keeps2.snd
    | refine Keeps.foldl _ ?_ ?_ | refine Keeps2.foldl _ ?_ ?_ | refine Keeps2.eq (by assumption) ?_ | intro _
    | (extract_lets +onlyGivenNames x; subst x) | split | fail_if_no_progress beta_reduce | apply Keeps2.mk

theorem keeps_messageStamp (s : State) (stamp : Word) (hk : Keeps kr kl s0 s) : Keeps2 kr kl s0 (messageStamp s
    stamp) := by
  unfold messageStamp
  with_reducible repeat' first
    | assumption | apply keeps_issueStamp | apply keeps_issueCoreStamp | apply Keeps2.snd
    | refine Keeps2.eq (by assumption) ?_ | (extract_lets +onlyGivenNames x; subst x) | split
    | fail_if_no_progress beta_reduce | apply Keeps2.mk

theorem keeps_postReq (s : State) (quad core : ℕ) (k : ReqKind) (addr : Word) (zone : ℕ) (world forStore : Bool)
    (stamp : Word) (hk : Keeps kr kl s0 s) : Keeps2 kr kl s0 (postReq s quad core k addr zone world forStore stamp) :=
    by
  unfold postReq
  with_reducible repeat' first
    | assumption | apply keeps_messageStamp | apply keeps_sendFlit | apply Keeps2.snd
    | refine Keeps2.eq (by assumption) ?_ | fail_if_no_progress (refine Keeps.made ?_ rfl rfl rfl rfl rfl)
    | (extract_lets +onlyGivenNames x; subst x) | split | fail_if_no_progress beta_reduce | apply Keeps2.mk

theorem keeps_askHome (s : State) (addr : Word) (n zone : ℕ) (world : Bool) (stamp : Word) (hk : Keeps kr kl s0 s) :
    Keeps2 kr kl s0 (askHome s addr n zone world stamp) := by
  unfold askHome
  with_reducible repeat' first
    | assumption | apply keeps_nextFree | apply keeps_postReq | apply Keeps2.snd | refine Keeps2.eq (by assumption) ?_
    | (extract_lets +onlyGivenNames x; subst x) | split | fail_if_no_progress beta_reduce | apply Keeps2.mk

theorem keeps_readOne (rep : Reporter) (s : State) (addr : Word) (n zone : ℕ) (world : Bool) (stamp : Word) (hk :
    Keeps kr kl s0 s) (hrep : RepKeeps kr kl rep) : Keeps2 kr kl s0 (readOne rep s addr n zone world stamp) := by
  unfold readOne
  with_reducible repeat' first
    | assumption | apply keeps_readNow | apply keeps_askHome | apply Keeps2.snd | refine Keeps2.eq (by assumption) ?_
    | apply hrep.fault | apply hrep.low | exact hrep | (extract_lets +onlyGivenNames x; subst x) | split
    | fail_if_no_progress beta_reduce | apply Keeps2.mk

theorem keeps_engRead (rep : Reporter) (a1 : ℕ) (a2 : State) (a3 : Word) (a4 a5 : ℕ) (a6 : Bool) (a7 : Word) (hk :
    Keeps kr kl s0 a2) (hrep : RepKeeps kr kl rep) : Keeps2 kr kl s0 (engRead rep a1 a2 a3 a4 a5 a6 a7) := by
  induction a1 generalizing a2 a3 a4 a5 a6 a7 with
  | zero =>
    unfold engRead
    with_reducible repeat' first
      | assumption | apply keeps_readOne | apply Keeps2.snd | refine Keeps2.eq (by assumption) ?_ | apply hrep.fault
      | apply hrep.low | exact hrep | (extract_lets +onlyGivenNames x; subst x) | split
      | fail_if_no_progress beta_reduce | apply Keeps2.mk
  | succ n1  ih =>
    unfold engRead
    with_reducible repeat' first
      | assumption | apply ih | apply keeps_readOne | apply Keeps2.snd | refine Keeps2.eq (by assumption) ?_
      | apply hrep.fault | apply hrep.low | exact hrep | (extract_lets +onlyGivenNames x; subst x) | split
      | fail_if_no_progress beta_reduce | apply Keeps2.mk

theorem keeps_engWords (rep : Reporter) (s : State) (addr : Word) (n zone : ℕ) (world : Bool) (hk : Keeps kr kl s0
    s) (hrep : RepKeeps kr kl rep) : Keeps2 kr kl s0 (engWords rep s addr n zone world) := by
  unfold engWords
  with_reducible repeat' first
    | assumption | apply keeps_engRead | apply Keeps2.snd | refine Keeps2.eq (by assumption) ?_ | apply hrep.fault
    | apply hrep.low | exact hrep | (extract_lets +onlyGivenNames x; subst x) | split | fail_if_no_progress beta_reduce
    | apply Keeps2.mk

theorem keeps_writeOne (rep : Reporter) (s : State) (addr : Word) (bs : List Byte) (zone : ℕ) (world : Bool) (stamp
    : Word) (hk : Keeps kr kl s0 s) (hrep : RepKeeps kr kl rep) : Keeps2 kr kl s0 (writeOne rep s addr bs zone world
    stamp) := by
  unfold writeOne
  with_reducible repeat' first
    | assumption | apply keeps_postReq | apply keeps_engineLine | apply keeps_takeLine | apply keeps_writeFrame
    | apply keeps_nextFree | apply Keeps2.snd | refine Keeps2.eq (by assumption) ?_ | apply hrep.fault | apply hrep.low
    | exact hrep | (extract_lets +onlyGivenNames x; subst x) | split | fail_if_no_progress beta_reduce
    | apply Keeps2.mk

theorem keeps_engWrite (rep : Reporter) (a1 : ℕ) (a2 : State) (a3 : Word) (a4 : List Byte) (a5 : ℕ) (a6 : Bool) (a7
    : Word) (hk : Keeps kr kl s0 a2) (hrep : RepKeeps kr kl rep) : Keeps2 kr kl s0 (engWrite rep a1 a2 a3 a4 a5 a6 a7)
    := by
  induction a1 generalizing a2 a3 a4 a5 a6 a7 with
  | zero =>
    unfold engWrite
    with_reducible repeat' first
      | assumption | apply keeps_writeOne | apply Keeps2.snd | refine Keeps2.eq (by assumption) ?_ | apply hrep.fault
      | apply hrep.low | exact hrep | (extract_lets +onlyGivenNames x; subst x) | split
      | fail_if_no_progress beta_reduce | apply Keeps2.mk
  | succ n1  ih =>
    unfold engWrite
    with_reducible repeat' first
      | assumption | apply ih | apply keeps_writeOne | apply Keeps2.snd | refine Keeps2.eq (by assumption) ?_
      | apply hrep.fault | apply hrep.low | exact hrep | (extract_lets +onlyGivenNames x; subst x) | split
      | fail_if_no_progress beta_reduce | apply Keeps2.mk

theorem keeps_engPutWords (rep : Reporter) (s : State) (addr : Word) (ws : List Word) (zone : ℕ) (stamp : Word) (hk
    : Keeps kr kl s0 s) (hrep : RepKeeps kr kl rep) : Keeps2 kr kl s0 (engPutWords rep s addr ws zone stamp) := by
  unfold engPutWords
  with_reducible repeat' first
    | assumption | apply keeps_engWrite | apply Keeps2.snd | refine Keeps2.eq (by assumption) ?_ | apply hrep.fault
    | apply hrep.low | exact hrep | (extract_lets +onlyGivenNames x; subst x) | split | fail_if_no_progress beta_reduce
    | apply Keeps2.mk

theorem keeps_zeroFrame (s : State) (frame zone : ℕ) (hk : Keeps kr kl s0 s) : Keeps kr kl s0 (zeroFrame s frame
    zone) := by
  unfold zeroFrame
  with_reducible repeat' first
    | assumption | apply keeps_writeZoneLine | refine Keeps.foldl _ ?_ ?_ | intro _
    | (extract_lets +onlyGivenNames x; subst x) | split | fail_if_no_progress beta_reduce

theorem keeps_writeMask (rep : Reporter) (s : State) (n : ℕ) (strict : Bool) (addr : Word) (mask : BitVec 128) (l :
    Line) (zone : ℕ) (world : Bool) (stamp : Word) (hk : Keeps kr kl s0 s) (hrep : RepKeeps kr kl rep) : Keeps2 kr kl s0
    (writeMask rep s n strict addr mask l zone world stamp) := by
  unfold writeMask
  with_reducible repeat' first
    | assumption | apply keeps_postReq | apply keeps_updCore | apply keeps_engineLine | apply keeps_takeLine
    | apply keeps_writeFrame | apply Keeps2.snd | refine Keeps2.eq (by assumption) ?_ | apply hrep.fault
    | apply hrep.low | exact hrep | (extract_lets +onlyGivenNames x; subst x) | split | fail_if_no_progress beta_reduce
    | apply Keeps2.mk

theorem keeps_linkFrame (s : State) (frame next : ℕ) (hk : Keeps kr kl s0 s) : Keeps kr kl s0 (linkFrame s frame
    next) := by
  unfold linkFrame
  with_reducible repeat' first
    | assumption | apply keeps_writeFrame | (extract_lets +onlyGivenNames x; subst x) | split
    | fail_if_no_progress beta_reduce

theorem keeps_pushFrame (s : State) (z frame : ℕ) (hk : Keeps kr kl s0 s) : Keeps kr kl s0 (pushFrame s z frame) :=
    by
  unfold pushFrame
  with_reducible repeat' first
    | assumption | apply keeps_updList | apply keeps_linkFrame | (extract_lets +onlyGivenNames x; subst x) | split
    | fail_if_no_progress beta_reduce

theorem keeps_updChan (s : State) (c : ℕ) (f : Chan → Chan) (hk : Keeps kr kl s0 s) : Keeps kr kl s0 (updChan s c f)
    := by
  unfold updChan
  with_reducible repeat' first
    | assumption | fail_if_no_progress (refine Keeps.made ?_ rfl rfl rfl rfl rfl)
    | (extract_lets +onlyGivenNames x; subst x) | split | fail_if_no_progress beta_reduce

theorem keeps_send (s : State) (op : FlitOp) (dst teid zone : ℕ) (stamp : Word) (words : List Word) (hk : Keeps kr
    kl s0 s) : Keeps kr kl s0 (send s op dst teid zone stamp words) := by
  unfold send
  with_reducible repeat' first
    | assumption | apply keeps_sendFlit | (extract_lets +onlyGivenNames x; subst x) | split
    | fail_if_no_progress beta_reduce

end Sys2Proof.Machine
end

