-- ==== Sys2Proof/Laws/KeepsPost.lean ====
section
/-! SUPPORT. What the operations of Post.lean keep: one lemma for each, in the terms of `Keeps`. -/

set_option linter.unusedTactic false
set_option linter.unreachableTactic false

namespace Sys2Proof.Machine

variable {kr kl : Bool} {s0 : State}

theorem keeps_ringDoorbell (s : State) (zone vcid : ℕ) (hk : Keeps kr kl s0 s) : Keeps kr kl s0 (ringDoorbell s zone
    vcid) := by
  unfold ringDoorbell
  with_reducible repeat' first
    | assumption | apply keeps_updVcore | fail_if_no_progress (refine Keeps.made ?_ rfl rfl rfl rfl rfl)
    | (extract_lets +onlyGivenNames x; subst x) | split | fail_if_no_progress beta_reduce

theorem keeps_zoneEntry (rep : Reporter) (s : State) (z : ℕ) (hk : Keeps kr kl s0 s) (hrep : RepKeeps kr kl rep) :
    Keeps2 kr kl s0 (zoneEntry rep s z) := by
  unfold zoneEntry
  with_reducible repeat' first
    | assumption | apply keeps_engWords | apply keeps_updZone | apply Keeps2.snd | refine Keeps2.eq (by assumption) ?_
    | apply hrep.fault | apply hrep.low | exact hrep | (extract_lets +onlyGivenNames x; subst x) | split
    | fail_if_no_progress beta_reduce | apply Keeps2.mk

theorem keeps_unposted (rep : Reporter) (s : State) (e : RingEntry) (hk : Keeps kr kl s0 s) (hrep : RepKeeps kr kl
    rep) : Keeps kr kl s0 (unposted rep s e) := by
  unfold unposted
  with_reducible repeat' first
    | assumption | apply keeps_ringDoorbell | apply hrep.fault | apply hrep.low | exact hrep
    | fail_if_no_progress (refine Keeps.made ?_ rfl rfl rfl rfl rfl) | (extract_lets +onlyGivenNames x; subst x)
    | split | fail_if_no_progress beta_reduce

theorem keeps_vcoreEntry (rep : Reporter) (s : State) (ze : List Word) (zone vcid : ℕ) (hk : Keeps kr kl s0 s) (hrep
    : RepKeeps kr kl rep) : Keeps3 kr kl s0 (vcoreEntry rep s ze zone vcid) := by
  unfold vcoreEntry
  with_reducible repeat' first
    | assumption | apply keeps_engWords | apply Keeps2.snd | apply Keeps3.snd | refine Keeps2.eq (by assumption) ?_
    | refine Keeps3.eq (by assumption) ?_ | apply hrep.fault | apply hrep.low | exact hrep
    | fail_if_no_progress (refine Keeps.made ?_ rfl rfl rfl rfl rfl) | (extract_lets +onlyGivenNames x; subst x)
    | split | fail_if_no_progress beta_reduce | apply Keeps2.mk | apply Keeps3.mk

theorem keeps_postRing (rep : Reporter) (s : State) (e : RingEntry) (retry : Bool) (hk : Keeps kr kl s0 s) (hrep :
    RepKeeps kr kl rep) : Keeps kr kl s0 (postRing rep s e retry) := by
  unfold postRing
  with_reducible repeat' first
    | assumption | apply keeps_zoneEntry | apply keeps_unposted | apply keeps_vcoreEntry | apply keeps_engWords
    | apply keeps_updZone | apply keeps_engPutWords | apply keeps_ringDoorbell | apply Keeps2.snd | apply Keeps3.snd
    | refine Keeps2.eq (by assumption) ?_ | refine Keeps3.eq (by assumption) ?_ | apply hrep.fault | apply hrep.low
    | exact hrep | fail_if_no_progress (refine Keeps.made ?_ rfl rfl rfl rfl rfl)
    | (extract_lets +onlyGivenNames x; subst x) | split | fail_if_no_progress beta_reduce | apply Keeps2.mk
    | apply Keeps3.mk

theorem keeps_vectorEnabled (rep : Reporter) (s : State) (e : RingEntry) (hk : Keeps kr kl s0 s) (hrep : RepKeeps kr
    kl rep) : Keeps2 kr kl s0 (vectorEnabled rep s e) := by
  unfold vectorEnabled
  with_reducible repeat' first
    | assumption | apply keeps_zoneEntry | apply keeps_engWords | apply Keeps2.snd
    | refine Keeps2.eq (by assumption) ?_ | apply hrep.fault | apply hrep.low | exact hrep
    | (extract_lets +onlyGivenNames x; subst x) | split | fail_if_no_progress beta_reduce | apply Keeps2.mk

theorem keeps_postEntry (rep : Reporter) (s : State) (e : RingEntry) (hk : Keeps kr kl s0 s) (hrep : RepKeeps kr kl
    rep) : Keeps kr kl s0 (postEntry rep s e) := by
  unfold postEntry
  with_reducible repeat' first
    | assumption | apply keeps_updZone | apply keeps_vectorEnabled | apply keeps_unposted | apply keeps_postRing
    | apply Keeps2.snd | refine Keeps2.eq (by assumption) ?_ | apply hrep.fault | apply hrep.low | exact hrep
    | fail_if_no_progress (refine Keeps.made ?_ rfl rfl rfl rfl rfl) | (extract_lets +onlyGivenNames x; subst x)
    | split | fail_if_no_progress beta_reduce | apply Keeps2.mk

theorem keeps_postEvent (rep : Reporter) (s : State) (zone kind : ℕ) (stamp detail : Word) (hk : Keeps kr kl s0 s)
    (hrep : RepKeeps kr kl rep) : Keeps kr kl s0 (postEvent rep s zone kind stamp detail) := by
  unfold postEvent
  with_reducible repeat' first
    | assumption | apply keeps_zoneEntry | apply keeps_unposted | apply keeps_postEntry | apply Keeps2.snd
    | refine Keeps2.eq (by assumption) ?_ | apply hrep.fault | apply hrep.low | exact hrep
    | (extract_lets +onlyGivenNames x; subst x) | split | fail_if_no_progress beta_reduce | apply Keeps2.mk

theorem keeps_postLow (rep : Reporter) (z : ℕ) (s : State) (hk : Keeps kr kl s0 s) (hrep : RepKeeps kr kl rep) :
    Keeps kr kl s0 (postLow rep z s) := by
  unfold postLow
  with_reducible repeat' first
    | assumption | apply keeps_issueStamp | apply keeps_postEvent | apply Keeps2.snd
    | refine Keeps2.eq (by assumption) ?_ | apply hrep.fault | apply hrep.low | exact hrep
    | (extract_lets +onlyGivenNames x; subst x) | split | fail_if_no_progress beta_reduce | apply Keeps2.mk

theorem keeps_requestReset (s : State) (z : ℕ) (waiter : Option Mbx) (kind rzone : ℕ) (hk : Keeps kr kl s0 s) :
    Keeps2 kr kl s0 (requestReset s z waiter kind rzone) := by
  unfold requestReset
  with_reducible repeat' first
    | assumption | apply keeps_updZone | apply keeps_issueStamp | apply keeps_send | apply Keeps2.snd
    | refine Keeps.foldl _ ?_ ?_ | refine Keeps2.foldl _ ?_ ?_ | refine Keeps2.eq (by assumption) ?_ | intro _
    | (extract_lets +onlyGivenNames x; subst x) | split | fail_if_no_progress beta_reduce | apply Keeps2.mk

theorem keeps_answerErr (s : State) (f : Flit) (reason : ℕ) (hk : Keeps kr kl s0 s) : Keeps kr kl s0 (answerErr s f
    reason) := by
  unfold answerErr
  with_reducible repeat' first
    | assumption | apply keeps_sendFlit | (extract_lets +onlyGivenNames x; subst x) | split
    | fail_if_no_progress beta_reduce

end Sys2Proof.Machine
end

