-- ==== Sys2Proof/Laws/KeepsLost.lean ====
section
/-! SUPPORT. What the operations of Lost.lean keep: one lemma for each, in the terms of `Keeps`. -/

set_option linter.unusedTactic false
set_option linter.unreachableTactic false

namespace Sys2Proof.Machine

variable {kr kl : Bool} {s0 : State}

theorem keeps_putImage (s : State) (n : ℕ) (im : StateImage) (hk : Keeps kr kl s0 s) : Keeps kr kl s0 (putImage s n
    im) := by
  unfold putImage
  with_reducible repeat' first
    | assumption | fail_if_no_progress (refine Keeps.made ?_ rfl rfl rfl rfl rfl)
    | (extract_lets +onlyGivenNames x; subst x) | split | fail_if_no_progress beta_reduce

theorem keeps_storeOwned (s : State) (n : ℕ) (addr : Word) (bs : List Byte) (bnd : Bool) (hk : Keeps kr kl s0 s) :
    Keeps kr kl s0 (storeOwned s n addr bs bnd) := by
  unfold storeOwned
  with_reducible repeat' first
    | assumption | apply keeps_dropQuadCopies | apply keeps_updCore | apply keeps_setLine
    | (extract_lets +onlyGivenNames x; subst x) | split | fail_if_no_progress beta_reduce

theorem keeps_drainOwned (n : ℕ) (a1 : List BufEntry) (a2 : State) (hk : Keeps kr kl s0 a2) : Keeps2 kr kl s0
    (drainOwned n a1 a2) := by
  induction a1 generalizing a2 with
  | nil =>
    unfold drainOwned
    with_reducible repeat' first
      | assumption | apply keeps_storeOwned | apply Keeps2.snd | refine Keeps2.eq (by assumption) ?_
      | (extract_lets +onlyGivenNames x; subst x) | split | fail_if_no_progress beta_reduce | apply Keeps2.mk
  | cons x1 xs1 ih =>
    unfold drainOwned
    with_reducible repeat' first
      | assumption | apply ih | apply keeps_storeOwned | apply Keeps2.snd | refine Keeps2.eq (by assumption) ?_
      | (extract_lets +onlyGivenNames x; subst x) | split | fail_if_no_progress beta_reduce | apply Keeps2.mk

theorem keeps_imageStores (rep : Reporter) (es : List BufEntry) (s : State) (hk : Keeps kr kl s0 s) (hrep : RepKeeps
    kr kl rep) : Keeps2 kr kl s0 (imageStores rep es s) := by
  unfold imageStores
  with_reducible repeat' first
    | assumption | apply keeps_engWrite | apply Keeps2.snd | refine Keeps.foldl _ ?_ ?_ | refine Keeps2.foldl _ ?_ ?_
    | refine Keeps2.eq (by assumption) ?_ | apply hrep.fault | apply hrep.low | exact hrep | intro _
    | (extract_lets +onlyGivenNames x; subst x) | split | fail_if_no_progress beta_reduce | apply Keeps2.mk

theorem keeps_spareGone (s : State) (n : ℕ) (hk : Keeps kr kl s0 s) : Keeps kr kl s0 (spareGone s n) := by
  unfold spareGone
  with_reducible repeat' first
    | assumption | fail_if_no_progress (refine Keeps.made ?_ rfl rfl rfl rfl rfl)
    | (extract_lets +onlyGivenNames x; subst x) | split | fail_if_no_progress beta_reduce

theorem keeps_loseCore (rep : Reporter) (s : State) (n reason : ℕ) (ok : Bool) (hk : Keeps kr kl s0 s) (hrep :
    RepKeeps kr kl rep) : Keeps kr kl s0 (loseCore rep s n reason ok) := by
  unfold loseCore
  with_reducible repeat' first
    | assumption | apply keeps_drainOwned | apply keeps_imageStores | apply keeps_spareGone | apply keeps_putImage
    | apply keeps_updCore | apply keeps_updVcore | apply keeps_logAdd | apply keeps_postEvent | apply Keeps2.snd
    | refine Keeps2.eq (by assumption) ?_ | apply hrep.fault | apply hrep.low | exact hrep
    | fail_if_no_progress (refine Keeps.made ?_ rfl rfl rfl rfl rfl) | (extract_lets +onlyGivenNames x; subst x)
    | split | fail_if_no_progress beta_reduce | apply Keeps2.mk

end Sys2Proof.Machine
end

