-- ==== Sys2Proof/Laws/KeepsFault.lean ====
section
/-! SUPPORT. What the operations of Fault.lean keep: one lemma for each, in the terms of `Keeps`. -/

set_option linter.unusedTactic false
set_option linter.unreachableTactic false

namespace Sys2Proof.Machine

variable {kr kl : Bool} {s0 : State}

theorem keeps_driveErr (s : State) (hk : Keeps kr kl s0 s) : Keeps kr kl s0 (driveErr s) := by
  unfold driveErr
  with_reducible repeat' first
    | assumption | fail_if_no_progress (refine Keeps.made ?_ rfl rfl rfl rfl rfl)
    | (extract_lets +onlyGivenNames x; subst x) | split | fail_if_no_progress beta_reduce

theorem keeps_checkstop (s : State) (x : FRec) (hk : Keeps kr kl s0 s) : Keeps kr kl s0 (checkstop s x) := by
  unfold checkstop
  with_reducible repeat' first
    | assumption | apply keeps_logPump | fail_if_no_progress (refine Keeps.made ?_ rfl rfl rfl rfl rfl)
    | (extract_lets +onlyGivenNames x; subst x) | split | fail_if_no_progress beta_reduce

theorem keeps_isolate (rep : Reporter) (s : State) (q : ℕ) (stamp : Word) (hk : Keeps kr kl s0 s) (hrep : RepKeeps
    kr kl rep) : Keeps kr kl s0 (isolate rep s q stamp) := by
  unfold isolate
  with_reducible repeat' first
    | assumption | apply keeps_updDom | apply keeps_answerErr | apply keeps_loseCore | apply keeps_updCore
    | refine Keeps.foldl _ ?_ ?_ | refine Keeps2.foldl _ ?_ ?_ | apply hrep.fault | apply hrep.low | exact hrep
    | fail_if_no_progress (refine Keeps.made ?_ rfl rfl rfl rfl rfl) | intro _
    | (extract_lets +onlyGivenNames x; subst x) | split | fail_if_no_progress beta_reduce

theorem keeps_react (rep : Reporter) (s : State) (x : FRec) (l : ℕ) (hk : Keeps kr kl s0 s) (hrep : RepKeeps kr kl
    rep) : Keeps kr kl s0 (react rep s x l) := by
  unfold react
  with_reducible repeat' first
    | assumption | apply keeps_postEvent | apply keeps_driveErr | apply keeps_checkstop | apply keeps_requestReset
    | apply keeps_isolate | apply Keeps2.snd | refine Keeps2.eq (by assumption) ?_ | apply hrep.fault | apply hrep.low
    | exact hrep | fail_if_no_progress (refine Keeps.made ?_ rfl rfl rfl rfl rfl)
    | (extract_lets +onlyGivenNames x; subst x) | split | fail_if_no_progress beta_reduce | apply Keeps2.mk

theorem keeps_recordOnly (s : State) (r : Report) (hk : Keeps kr kl s0 s) : Keeps2 kr kl s0 (recordOnly s r) := by
  unfold recordOnly
  with_reducible repeat' first
    | assumption | apply keeps_issueStamp | apply keeps_logPut | apply Keeps2.snd | refine Keeps2.eq (by assumption) ?_
    | fail_if_no_progress (refine Keeps.made ?_ rfl rfl rfl rfl rfl) | (extract_lets +onlyGivenNames x; subst x)
    | split | fail_if_no_progress beta_reduce | apply Keeps2.mk

theorem repKeeps_reporter (n : ℕ) : RepKeeps kr kl (reporter n) := by
  induction n with
  | zero =>
    refine ⟨fun s0 x s h => ?_, fun s0 z s h => ?_⟩
    · unfold reporter; exact Keeps2.snd (keeps_recordOnly _ _ h)
    · unfold reporter; exact h
  | succ n ih =>
    refine ⟨fun s0 x s h => ?_, fun s0 z s h => ?_⟩
    · have k := keeps_recordOnly s x h
      unfold reporter
      dsimp only
      split
      · exact Keeps2.eq (by assumption) k
      · exact keeps_react _ _ _ _ (Keeps2.eq (by assumption) k) ih
    · unfold reporter; exact keeps_postLow _ _ _ h ih

theorem repKeeps_rep : RepKeeps kr kl rep := repKeeps_reporter 8

theorem keeps_fault (s : State) (r : Report) (hk : Keeps kr kl s0 s) : Keeps kr kl s0 (fault s r) := by
  unfold fault
  exact repKeeps_rep.fault _ _ _ hk

theorem keeps_faultAt (s : State) (source cls reason : ℕ) (stamp addr detail : Word) (zone : ℕ) (hk : Keeps kr kl s0
    s) : Keeps kr kl s0 (faultAt s source cls reason stamp addr detail zone) := by
  unfold faultAt
  with_reducible repeat' first
    | assumption | apply keeps_fault | (extract_lets +onlyGivenNames x; subst x) | split
    | fail_if_no_progress beta_reduce

end Sys2Proof.Machine
end

