-- ==== Sys2Proof/Laws/KeepsHomeOps.lean ====
section
/-! SUPPORT. What the operations of HomeOps.lean keep: one lemma for each, in the terms of `Keeps`. -/

set_option linter.unusedTactic false
set_option linter.unreachableTactic false

namespace Sys2Proof.Machine

variable {kr kl : Bool} {s0 : State}

theorem keeps_inlineVerify (s : State) (fl zone verify : ℕ) (hk : Keeps kr kl s0 s) : Keeps2 kr kl s0 (inlineVerify
    s fl zone verify) := by
  unfold inlineVerify
  with_reducible repeat' first
    | assumption | apply keeps_faultAt | apply Keeps2.snd | refine Keeps2.eq (by assumption) ?_
    | fail_if_no_progress (refine Keeps.made ?_ rfl rfl rfl rfl rfl) | (extract_lets +onlyGivenNames x; subst x)
    | split | fail_if_no_progress beta_reduce | apply Keeps2.mk

theorem keeps_decantBudget (s : State) (zone : ℕ) (hk : Keeps kr kl s0 s) : Keeps2 kr kl s0 (decantBudget s zone) :=
    by
  unfold decantBudget
  with_reducible repeat' first
    | assumption | apply keeps_zoneEntry | apply Keeps2.snd | refine Keeps2.eq (by assumption) ?_ | exact repKeeps_rep
    | (extract_lets +onlyGivenNames x; subst x) | split | fail_if_no_progress beta_reduce | apply Keeps2.mk

theorem keeps_respond (s : State) (op : FlitOp) (a : Agent) (zone : ℕ) (stamp addr : Word) (words : List Word) (hk :
    Keeps kr kl s0 s) : Keeps kr kl s0 (respond s op a zone stamp addr words) := by
  unfold respond
  with_reducible repeat' first
    | assumption | apply keeps_sendFlit | (extract_lets +onlyGivenNames x; subst x) | split
    | fail_if_no_progress beta_reduce

theorem keeps_sendErr (s : State) (r : CohReq) (reason : ℕ) (hk : Keeps kr kl s0 s) : Keeps kr kl s0 (sendErr s r
    reason) := by
  unfold sendErr
  with_reducible repeat' first
    | assumption | apply keeps_respond | (extract_lets +onlyGivenNames x; subst x) | split
    | fail_if_no_progress beta_reduce

theorem keeps_dropTxn (s : State) (li : ℕ) (hk : Keeps kr kl s0 s) : Keeps kr kl s0 (dropTxn s li) := by
  unfold dropTxn
  with_reducible repeat' first
    | assumption | fail_if_no_progress (refine Keeps.made ?_ rfl rfl rfl rfl rfl)
    | (extract_lets +onlyGivenNames x; subst x) | split | fail_if_no_progress beta_reduce

theorem keeps_freeLine (s : State) (li : ℕ) (hk : Keeps kr kl s0 s) : Keeps kr kl s0 (freeLine s li) := by
  unfold freeLine
  with_reducible repeat' first
    | assumption | apply keeps_dropTxn | apply keeps_respond
    | fail_if_no_progress (refine Keeps.made ?_ rfl rfl rfl rfl rfl) | (extract_lets +onlyGivenNames x; subst x)
    | split | fail_if_no_progress beta_reduce

theorem keeps_offerLine (s : State) (li : ℕ) (hk : Keeps kr kl s0 s) : Keeps kr kl s0 (offerLine s li) := by
  unfold offerLine
  with_reducible repeat' first
    | assumption | apply keeps_freeLine | (extract_lets +onlyGivenNames x; subst x) | split
    | fail_if_no_progress beta_reduce

theorem keeps_resendPage (s : State) (page : ℕ) (hk : Keeps kr kl s0 s) : Keeps kr kl s0 (resendPage s page) := by
  unfold resendPage
  with_reducible repeat' first
    | assumption | apply keeps_offerLine | refine Keeps.foldl _ ?_ ?_ | intro _
    | (extract_lets +onlyGivenNames x; subst x) | split | fail_if_no_progress beta_reduce

theorem keeps_decantPop_popStep (d : Decant) (s : State) (zone : ℕ) (put : State → Decant → State) (hk : Keeps kr kl
    s0 s) (hf : ∀ s0 x0 x1, Keeps kr kl s0 x0 → Keeps kr kl s0 (put x0 x1)) : Keeps kr kl s0 (decantPop.popStep d s zone
    put) := by
  unfold decantPop.popStep
  with_reducible repeat' first
    | assumption | apply keeps_popFrame (e := by assumption) | apply keeps_sendErr | apply keeps_resendPage
    | apply keeps_setPage | apply keeps_faultAt | refine Keeps.foldl _ ?_ ?_ | refine Keeps2.foldl _ ?_ ?_ | apply hf
    | exact repKeeps_rep | refine repKeeps_rep.low _ _ _ ?_
    | fail_if_no_progress (refine Keeps.made ?_ rfl rfl rfl rfl rfl) | intro _
    | (extract_lets +onlyGivenNames x; subst x) | split | fail_if_no_progress beta_reduce

theorem keeps_decantPop (s : State) (d : Decant) (hk : Keeps kr kl s0 s) : Keeps kr kl s0 (decantPop s d) := by
  unfold decantPop
  with_reducible repeat' first
    | assumption | apply keeps_decantBudget | apply keeps_decantPop_popStep | apply keeps_updZone
    | apply keeps_popFrame (e := by assumption) | apply keeps_sendErr | apply keeps_resendPage | apply keeps_setPage
    | apply keeps_faultAt | apply Keeps2.snd | refine Keeps.foldl _ ?_ ?_ | refine Keeps2.foldl _ ?_ ?_
    | refine Keeps2.eq (by assumption) ?_ | exact repKeeps_rep | refine repKeeps_rep.low _ _ _ ?_
    | fail_if_no_progress (refine Keeps.made ?_ rfl rfl rfl rfl rfl) | intro _
    | (extract_lets +onlyGivenNames x; subst x) | split | fail_if_no_progress beta_reduce | apply Keeps2.mk

theorem keeps_chargeCredit (s : State) (zone : ℕ) (hk : Keeps kr kl s0 s) : Keeps kr kl s0 (chargeCredit s zone) :=
    by
  unfold chargeCredit
  with_reducible repeat' first
    | assumption | apply keeps_updZone | (extract_lets +onlyGivenNames x; subst x) | split
    | fail_if_no_progress beta_reduce

theorem keeps_homeWrite (s : State) (fl zone : ℕ) (poison : Bool) (l : Line) (verify : ℕ) (hk : Keeps kr kl s0 s) :
    Keeps kr kl s0 (homeWrite s fl zone poison l verify) := by
  unfold homeWrite
  with_reducible repeat' first
    | assumption | apply keeps_poisonFrame | apply keeps_faultAt | apply keeps_inlineVerify | apply keeps_writeFrame
    | apply Keeps2.snd | refine Keeps2.eq (by assumption) ?_ | (extract_lets +onlyGivenNames x; subst x) | split
    | fail_if_no_progress beta_reduce | apply Keeps2.mk

theorem keeps_forgetAgent (s : State) (li : ℕ) (a : Agent) (hk : Keeps kr kl s0 s) : Keeps kr kl s0 (forgetAgent s
    li a) := by
  unfold forgetAgent
  with_reducible repeat' first
    | assumption | apply keeps_setDir | (extract_lets +onlyGivenNames x; subst x) | split
    | fail_if_no_progress beta_reduce

theorem keeps_recordGrant (s : State) (li : ℕ) (a : Agent) (st : Moesi) (hk : Keeps kr kl s0 s) : Keeps kr kl s0
    (recordGrant s li a st) := by
  unfold recordGrant
  with_reducible repeat' first
    | assumption | apply keeps_setDir | (extract_lets +onlyGivenNames x; subst x) | split
    | fail_if_no_progress beta_reduce

theorem keeps_channelRead (s : State) (fl zone : ℕ) (stamp : Word) (scrub : Bool) (e : ReadFinding) (hk : Keeps kr
    kl s0 s) : Keeps2 kr kl s0 (channelRead s fl zone stamp scrub e) := by
  unfold channelRead
  with_reducible repeat' first
    | assumption | apply keeps_faultAt | apply keeps_writeFrame | apply keeps_poisonFrame | apply Keeps2.snd
    | refine Keeps2.eq (by assumption) ?_ | fail_if_no_progress (refine Keeps.made ?_ rfl rfl rfl rfl rfl)
    | (extract_lets +onlyGivenNames x; subst x) | split | fail_if_no_progress beta_reduce | apply Keeps2.mk

theorem keeps_homeRead (s : State) (fl zone : ℕ) (stamp : Word) (e : ReadFinding) (hk : Keeps kr kl s0 s) : Keeps3
    kr kl s0 (homeRead s fl zone stamp e) := by
  unfold homeRead
  with_reducible repeat' first
    | assumption | apply keeps_channelRead | apply Keeps2.snd | apply Keeps3.snd | refine Keeps2.eq (by assumption) ?_
    | refine Keeps3.eq (by assumption) ?_ | (extract_lets +onlyGivenNames x; subst x) | split
    | fail_if_no_progress beta_reduce | apply Keeps2.mk | apply Keeps3.mk

theorem keeps_sendData (s : State) (r : CohReq) (st : Moesi) (l : Line) (poison : Bool) (hk : Keeps kr kl s0 s) :
    Keeps kr kl s0 (sendData s r st l poison) := by
  unfold sendData
  with_reducible repeat' first
    | assumption | apply keeps_sendFlit | (extract_lets +onlyGivenNames x; subst x) | split
    | fail_if_no_progress beta_reduce

theorem keeps_grant (s : State) (t : Txn) (k : ReqKind) (r : CohReq) (verify : ℕ) (hk : Keeps kr kl s0 s) : Keeps kr
    kl s0 (grant s t k r verify) := by
  unfold grant
  extract_lets +onlyGivenNames li
  split
  · exact keeps_freeLine _ _ (keeps_sendErr _ _ _ hk)
  · rename_i fl _
    extract_lets +onlyGivenNames s1
    extract_lets +onlyGivenNames toMem
    extract_lets +onlyGivenNames hold
    have k1 : Keeps kr kl s0 s1 := keeps_chargeCredit _ _ hk
    have hm : ∀ u, Keeps kr kl s0 u → Keeps kr kl s0 (toMem u) := by
      intro u h
      unfold toMem
      split
      · exact keeps_homeWrite _ _ _ _ _ _ h
      · exact h
    have hh : ∀ u x, Keeps kr kl s0 u → Keeps kr kl s0 (hold u x) := fun u x h => h.upd rfl rfl rfl rfl rfl rfl rfl
    have hr : ∀ u x y z w, Keeps kr kl s0 u → Keeps3 kr kl s0 (homeRead u x y z w) :=
      fun u x y z w h => keeps_homeRead _ _ _ _ _ h
    clear_value s1 toMem hold
    split
    all_goals
      repeat' first
        | with_reducible assumption
        | (with_reducible apply hh)
        | (with_reducible apply hm)
        | (with_reducible apply hr)
        | (with_reducible apply keeps_freeLine)
        | (with_reducible apply keeps_sendData)
        | (with_reducible apply keeps_recordGrant)
        | (with_reducible apply keeps_respond)
        | (with_reducible apply keeps_setDir)
        | (with_reducible apply keeps_homeWrite)
        | (with_reducible apply Keeps3.snd)
        | (with_reducible refine Keeps3.eq (by assumption) ?_)
        | (extract_lets +onlyGivenNames x; subst x)
        | split

theorem keeps_holdWaiting (s : State) (w : WaitingReq) (hk : Keeps kr kl s0 s) : Keeps kr kl s0 (holdWaiting s w) :=
    by
  unfold holdWaiting
  with_reducible repeat' first
    | assumption | fail_if_no_progress (refine Keeps.made ?_ rfl rfl rfl rfl rfl)
    | (extract_lets +onlyGivenNames x; subst x) | split | fail_if_no_progress beta_reduce

theorem keeps_sendRetry (s : State) (r : CohReq) (hk : Keeps kr kl s0 s) : Keeps kr kl s0 (sendRetry s r) := by
  unfold sendRetry
  with_reducible repeat' first
    | assumption | apply keeps_sendFlit | apply keeps_respond
    | fail_if_no_progress (refine Keeps.made ?_ rfl rfl rfl rfl rfl) | (extract_lets +onlyGivenNames x; subst x)
    | split | fail_if_no_progress beta_reduce

theorem keeps_startSettle (s : State) (v : ℕ) (goal : TxnGoal) (op : FlitOp) (hs : List Agent) (zone : ℕ) (stamp :
    Word) (e : ReadFinding) (hk : Keeps kr kl s0 s) : Keeps kr kl s0 (startSettle s v goal op hs zone stamp e) := by
  unfold startSettle
  with_reducible repeat' first
    | assumption | apply keeps_sendSnoop | refine Keeps.foldl _ ?_ ?_ | refine Keeps2.foldl _ ?_ ?_
    | fail_if_no_progress (refine Keeps.made ?_ rfl rfl rfl rfl rfl) | intro _
    | (extract_lets +onlyGivenNames x; subst x) | split | fail_if_no_progress beta_reduce

theorem keeps_dropLost (s : State) (li : ℕ) (hk : Keeps kr kl s0 s) : Keeps kr kl s0 (dropLost s li) := by
  unfold dropLost
  with_reducible repeat' first
    | assumption | apply keeps_poisonFrame | apply keeps_setDir | (extract_lets +onlyGivenNames x; subst x) | split
    | fail_if_no_progress beta_reduce

theorem keeps_beginTxn (s : State) (k0 : ReqKind) (r : CohReq) (e : ReadFinding) (verify : ℕ) (hk : Keeps kr kl s0
    s) : Keeps kr kl s0 (beginTxn s k0 r e verify) := by
  unfold beginTxn
  with_reducible repeat' first
    | assumption | apply keeps_sendSnoop | apply keeps_grant | refine Keeps.foldl _ ?_ ?_ | refine Keeps2.foldl _ ?_ ?_
    | fail_if_no_progress (refine Keeps.made ?_ rfl rfl rfl rfl rfl) | intro _
    | (extract_lets +onlyGivenNames x; subst x) | split | fail_if_no_progress beta_reduce

theorem keeps_openEntry (s : State) (k : ReqKind) (r : CohReq) (e : ReadFinding) (verify : ℕ) (hk : Keeps kr kl s0
    s) : Keeps kr kl s0 (openEntry s k r e verify) := by
  unfold openEntry
  with_reducible repeat' first
    | assumption | apply keeps_sendRetry | apply keeps_dropLost | apply keeps_beginTxn | apply keeps_setDir
    | apply keeps_startSettle | fail_if_no_progress (refine Keeps.made ?_ rfl rfl rfl rfl rfl)
    | (extract_lets +onlyGivenNames x; subst x) | split | fail_if_no_progress beta_reduce

theorem keeps_openTxn (s : State) (k : ReqKind) (r : CohReq) (e : ReadFinding) (verify : ℕ) (hk : Keeps kr kl s0 s)
    : Keeps kr kl s0 (openTxn s k r e verify) := by
  unfold openTxn
  with_reducible repeat' first
    | assumption | apply keeps_faultAt | apply keeps_startSettle | apply keeps_dropLost | apply keeps_openEntry
    | (extract_lets +onlyGivenNames x; subst x) | split | fail_if_no_progress beta_reduce

theorem keeps_admitRequest (s : State) (k : ReqKind) (r : CohReq) (credit : Option ℕ) (e : ReadFinding) (verify : ℕ)
    (hk : Keeps kr kl s0 s) : Keeps kr kl s0 (admitRequest s k r credit e verify) := by
  unfold admitRequest
  with_reducible repeat' first
    | assumption | apply keeps_sendFlit | apply keeps_sendRetry | apply keeps_openTxn
    | fail_if_no_progress (refine Keeps.made ?_ rfl rfl rfl rfl rfl) | (extract_lets +onlyGivenNames x; subst x)
    | split | fail_if_no_progress beta_reduce

theorem keeps_maintVoid (s : State) (r : CohReq) (hk : Keeps kr kl s0 s) : Keeps kr kl s0 (maintVoid s r) := by
  unfold maintVoid
  with_reducible repeat' first
    | assumption | apply keeps_respond | (extract_lets +onlyGivenNames x; subst x) | split
    | fail_if_no_progress beta_reduce

theorem keeps_holdForDecant (s : State) (k : ReqKind) (r : CohReq) (hk : Keeps kr kl s0 s) : Keeps kr kl s0
    (holdForDecant s k r) := by
  unfold holdForDecant
  with_reducible repeat' first
    | assumption | apply keeps_sendRetry | apply keeps_setPage | apply keeps_decantPop
    | fail_if_no_progress (refine Keeps.made ?_ rfl rfl rfl rfl rfl) | (extract_lets +onlyGivenNames x; subst x)
    | split | fail_if_no_progress beta_reduce

theorem keeps_takeRequest (s : State) (k : ReqKind) (r : CohReq) (credit : Option ℕ) (e : ReadFinding) (verify : ℕ)
    (hk : Keeps kr kl s0 s) : Keeps kr kl s0 (takeRequest s k r credit e verify) := by
  unfold takeRequest
  extract_lets wait serve
  have hw : ∀ u, Keeps kr kl s0 u → Keeps kr kl s0 (wait u) := fun u h => keeps_holdWaiting _ _ h
  have hs : ∀ u fl, Keeps kr kl s0 u → Keeps kr kl s0 (serve u fl) := by
    intro u fl h
    unfold serve
    split
    · exact hw _ h
    · exact keeps_admitRequest _ _ _ _ _ _ h
  clear_value serve wait
  repeat' first
    | with_reducible assumption
    | (with_reducible apply hs)
    | (with_reducible apply hw)
    | (with_reducible apply keeps_touchPage)
    | (with_reducible apply keeps_maintVoid)
    | (with_reducible apply keeps_holdForDecant)
    | (with_reducible apply keeps_sendErr)
    | (with_reducible apply keeps_faultAt)
    | (with_reducible apply keeps_fault)
    | (extract_lets +onlyGivenNames x; subst x)
    | split

theorem keeps_putBack (s : State) (t : Txn) (hk : Keeps kr kl s0 s) : Keeps kr kl s0 (putBack s t) := by
  unfold putBack
  with_reducible repeat' first
    | assumption | apply keeps_homeWrite | (extract_lets +onlyGivenNames x; subst x) | split
    | fail_if_no_progress beta_reduce

theorem keeps_goOn (s : State) (k : ReqKind) (r : CohReq) (e : ReadFinding) (hk : Keeps kr kl s0 s) : Keeps kr kl s0
    (goOn s k r e) := by
  unfold goOn
  with_reducible repeat' first
    | assumption | apply keeps_holdWaiting | apply keeps_openTxn | apply keeps_takeRequest | apply keeps_freeLine
    | (extract_lets +onlyGivenNames x; subst x) | split | fail_if_no_progress beta_reduce

theorem keeps_recordAfter (s : State) (li : ℕ) (a : Agent) (st : Moesi) (hk : Keeps kr kl s0 s) : Keeps kr kl s0
    (recordAfter s li a st) := by
  unfold recordAfter
  with_reducible repeat' first
    | assumption | apply keeps_forgetAgent | apply keeps_setDir | (extract_lets +onlyGivenNames x; subst x) | split
    | fail_if_no_progress beta_reduce

theorem keeps_resumeWaiting (s : State) (hk : Keeps kr kl s0 s) : Keeps kr kl s0 (resumeWaiting s) := by
  unfold resumeWaiting
  with_reducible repeat' first
    | assumption | apply keeps_takeRequest | refine Keeps.foldl _ ?_ ?_
    | fail_if_no_progress (refine Keeps.made ?_ rfl rfl rfl rfl rfl) | intro _
    | (extract_lets +onlyGivenNames x; subst x) | split | fail_if_no_progress beta_reduce

theorem keeps_finishTxn (s : State) (t : Txn) (hk : Keeps kr kl s0 s) : Keeps kr kl s0 (finishTxn s t) := by
  unfold finishTxn
  with_reducible repeat' first
    | assumption | apply keeps_grant | apply keeps_putBack | apply keeps_goOn | apply keeps_freeLine
    | apply keeps_setDir | apply keeps_dropTxn | fail_if_no_progress (refine Keeps.made ?_ rfl rfl rfl rfl rfl)
    | (extract_lets +onlyGivenNames x; subst x) | split | fail_if_no_progress beta_reduce

theorem keeps_putTxn (s : State) (t : Txn) (hk : Keeps kr kl s0 s) : Keeps kr kl s0 (putTxn s t) := by
  unfold putTxn
  with_reducible repeat' first
    | assumption | fail_if_no_progress (refine Keeps.made ?_ rfl rfl rfl rfl rfl)
    | (extract_lets +onlyGivenNames x; subst x) | split | fail_if_no_progress beta_reduce

theorem keeps_takeEviction (s : State) (a : Agent) (stamp addr : Word) (zone : ℕ) (poison : Bool) (data : Option
    Line) (verify : ℕ) (hk : Keeps kr kl s0 s) : Keeps kr kl s0 (takeEviction s a stamp addr zone poison data verify) :=
    by
  unfold takeEviction
  extract_lets li ack toMem
  have ha : ∀ u, Keeps kr kl s0 u → Keeps kr kl s0 (ack u) := fun u h => keeps_respond _ _ _ _ _ _ _ h
  have hm : ∀ u, Keeps kr kl s0 u → Keeps kr kl s0 (toMem u) := by
    intro u h
    unfold toMem
    split
    · exact keeps_homeWrite _ _ _ _ _ _ h
    · exact h
  clear_value ack toMem
  split
  · exact ha _ (keeps_forgetAgent _ _ _ (hm _ hk))
  · split
    · exact keeps_finishTxn _ _ (ha _ (keeps_putTxn _ _ (keeps_forgetAgent _ _ _ hk)))
    · exact ha _ (keeps_forgetAgent _ _ _ (hm _ hk))

end Sys2Proof.Machine
end

