-- ==== Sys2Proof/Laws/KeepsAgentOps.lean ====
section
/-! SUPPORT. What the operations of AgentOps.lean keep: one lemma for each, in the terms of `Keeps`. -/

set_option linter.unusedTactic false
set_option linter.unreachableTactic false

namespace Sys2Proof.Machine

variable {kr kl : Bool} {s0 : State}

theorem keeps_meetFills (s : State) (q gl : ℕ) (hk : Keeps kr kl s0 s) : Keeps kr kl s0 (meetFills s q gl) := by
  unfold meetFills
  with_reducible repeat' first
    | assumption | fail_if_no_progress (refine Keeps.made ?_ rfl rfl rfl rfl rfl)
    | (extract_lets +onlyGivenNames x; subst x) | split | fail_if_no_progress beta_reduce

theorem keeps_sendSnpResp (s : State) (m : Snoop) (before after : Moesi) (fwd miss wbp poison : Bool) (data : Option
    Line) (hk : Keeps kr kl s0 s) : Keeps kr kl s0 (sendSnpResp s m before after fwd miss wbp poison data) := by
  unfold sendSnpResp
  with_reducible repeat' first
    | assumption | apply keeps_sendFlit | (extract_lets +onlyGivenNames x; subst x) | split
    | fail_if_no_progress beta_reduce

theorem keeps_sendFwd (s : State) (m : Snoop) (op : FlitOp) (dirty poison : Bool) (l : Line) (hk : Keeps kr kl s0 s)
    : Keeps kr kl s0 (sendFwd s m op dirty poison l) := by
  unfold sendFwd
  with_reducible repeat' first
    | assumption | apply keeps_sendFlit | (extract_lets +onlyGivenNames x; subst x) | split
    | fail_if_no_progress beta_reduce

theorem keeps_answerFrom (s : State) (op : FlitOp) (m : Snoop) (st : Moesi) (l : Line) (poison wbp : Bool) (hk :
    Keeps kr kl s0 s) : Keeps kr kl s0 (answerFrom s op m st l poison wbp) := by
  unfold answerFrom
  with_reducible repeat' first
    | assumption | apply keeps_sendSnpResp | apply keeps_sendFwd | (extract_lets +onlyGivenNames x; subst x) | split
    | fail_if_no_progress beta_reduce

theorem keeps_sendReq (s : State) (core : ℕ) (k : ReqKind) (addr : Word) (zone : ℕ) (world prefetch forStore bnd :
    Bool) (exc : Option Exc) (hk : Keeps kr kl s0 s) : Keeps kr kl s0 (sendReq s core k addr zone world prefetch
    forStore bnd exc) := by
  unfold sendReq
  with_reducible repeat' first
    | assumption | apply keeps_issueCoreStamp | apply keeps_sendFlit | apply Keeps2.snd
    | refine Keeps2.eq (by assumption) ?_ | fail_if_no_progress (refine Keeps.made ?_ rfl rfl rfl rfl rfl)
    | (extract_lets +onlyGivenNames x; subst x) | split | fail_if_no_progress beta_reduce | apply Keeps2.mk

theorem keeps_evictLine (s : State) (q gl : ℕ) (hk : Keeps kr kl s0 s) : Keeps kr kl s0 (evictLine s q gl) := by
  unfold evictLine
  with_reducible repeat' first
    | assumption | apply keeps_dropLine | apply keeps_issueCoreStamp | apply keeps_sendFlit | apply Keeps2.snd
    | refine Keeps2.eq (by assumption) ?_ | fail_if_no_progress (refine Keeps.made ?_ rfl rfl rfl rfl rfl)
    | (extract_lets +onlyGivenNames x; subst x) | split | fail_if_no_progress beta_reduce | apply Keeps2.mk

theorem keeps_snoopNow (s : State) (op : FlitOp) (m : Snoop) (hk : Keeps kr kl s0 s) : Keeps kr kl s0 (snoopNow s op
    m) := by
  unfold snoopNow
  with_reducible repeat' first
    | assumption | apply keeps_meetFills | apply keeps_sendSnpResp | apply keeps_answerFrom | apply keeps_cleanNears
    | apply keeps_dropLine | apply keeps_setLine | apply keeps_evictLine | (extract_lets +onlyGivenNames x; subst x)
    | split | fail_if_no_progress beta_reduce

theorem keeps_delReq (s : State) (stamp : Word) (hk : Keeps kr kl s0 s) : Keeps kr kl s0 (delReq s stamp) := by
  unfold delReq
  with_reducible repeat' first
    | assumption | fail_if_no_progress (refine Keeps.made ?_ rfl rfl rfl rfl rfl)
    | (extract_lets +onlyGivenNames x; subst x) | split | fail_if_no_progress beta_reduce

theorem keeps_leaveSlice (s : State) (k gl : ℕ) (hk : Keeps kr kl s0 s) : Keeps kr kl s0 (leaveSlice s k gl) := by
  unfold leaveSlice
  with_reducible repeat' first
    | assumption | fail_if_no_progress (refine Keeps.made ?_ rfl rfl rfl rfl rfl)
    | (extract_lets +onlyGivenNames x; subst x) | split | fail_if_no_progress beta_reduce

theorem keeps_sliceEvict (s : State) (k gl : ℕ) (hk : Keeps kr kl s0 s) : Keeps kr kl s0 (sliceEvict s k gl) := by
  unfold sliceEvict
  with_reducible repeat' first
    | assumption | apply keeps_leaveSlice | apply keeps_evictLine | (extract_lets +onlyGivenNames x; subst x) | split
    | fail_if_no_progress beta_reduce

theorem keeps_sliceAdd (s : State) (k gl : ℕ) (hk : Keeps kr kl s0 s) : Keeps kr kl s0 (sliceAdd s k gl) := by
  unfold sliceAdd
  with_reducible repeat' first
    | assumption | apply keeps_sliceEvict | apply keeps_nextFree
    | fail_if_no_progress (refine Keeps.made ?_ rfl rfl rfl rfl rfl) | (extract_lets +onlyGivenNames x; subst x)
    | split | fail_if_no_progress beta_reduce

theorem keeps_landRead (s : State) (n : ℕ) (stamp : Word) (res : OwnRead → EngRes) (hk : Keeps kr kl s0 s) : Keeps
    kr kl s0 (landRead s n stamp res) := by
  unfold landRead
  with_reducible repeat' first
    | assumption | apply keeps_updCore | intro _ | (extract_lets +onlyGivenNames x; subst x) | split
    | fail_if_no_progress beta_reduce

theorem keeps_deferSnoop (s : State) (op : FlitOp) (m : Snoop) (hk : Keeps kr kl s0 s) : Keeps kr kl s0 (deferSnoop
    s op m) := by
  unfold deferSnoop
  with_reducible repeat' first
    | assumption | apply keeps_updCore | apply keeps_snoopNow | intro _ | (extract_lets +onlyGivenNames x; subst x)
    | split | fail_if_no_progress beta_reduce

theorem keeps_endDeferral (s : State) (n : ℕ) (hk : Keeps kr kl s0 s) : Keeps kr kl s0 (endDeferral s n) := by
  unfold endDeferral
  with_reducible repeat' first
    | assumption | apply keeps_deferSnoop | apply keeps_updCore | refine Keeps.foldl _ ?_ ?_
    | refine Keeps2.foldl _ ?_ ?_ | intro _ | (extract_lets +onlyGivenNames x; subst x) | split
    | fail_if_no_progress beta_reduce

theorem keeps_takeSnoop (s : State) (op : FlitOp) (m : Snoop) (hk : Keeps kr kl s0 s) : Keeps kr kl s0 (takeSnoop s
    op m) := by
  unfold takeSnoop
  with_reducible repeat' first
    | assumption | apply keeps_deferSnoop | (extract_lets +onlyGivenNames x; subst x) | split
    | fail_if_no_progress beta_reduce

theorem keeps_l2Add (s : State) (n gl : ℕ) (hk : Keeps kr kl s0 s) : Keeps kr kl s0 (l2Add s n gl) := by
  unfold l2Add
  with_reducible repeat' first
    | assumption | apply keeps_sliceAdd | apply keeps_updCore | apply keeps_nextFree
    | (extract_lets +onlyGivenNames x; subst x) | split | fail_if_no_progress beta_reduce

theorem keeps_installLine (s : State) (r : AgentReq) (m : DataMsg) (hk : Keeps kr kl s0 s) : Keeps kr kl s0
    (installLine s r m) := by
  unfold installLine
  with_reducible repeat' first
    | assumption | apply keeps_setLine | apply keeps_l2Add | apply keeps_updCore
    | (extract_lets +onlyGivenNames x; subst x) | split | fail_if_no_progress beta_reduce

theorem keeps_installData (s : State) (m : DataMsg) (hk : Keeps kr kl s0 s) : Keeps kr kl s0 (installData s m) := by
  unfold installData
  with_reducible repeat' first
    | assumption | apply keeps_sendFlit | apply keeps_delReq | apply keeps_landRead | apply keeps_installLine
    | (extract_lets +onlyGivenNames x; subst x) | split | fail_if_no_progress beta_reduce

end Sys2Proof.Machine
end

