-- ==== Sys2Proof/Laws/KeepsLoadOps.lean ====
section
/-! SUPPORT. What the operations of LoadOps.lean keep: one lemma for each, in the terms of `Keeps`. -/

set_option linter.unusedTactic false
set_option linter.unreachableTactic false

namespace Sys2Proof.Machine

variable {kr kl : Bool} {s0 : State}

theorem keeps_prefetchLine (s : State) (n : ℕ) (room : ℕ × ℕ) (bnd world : Bool) (zone gl : ℕ) (hk : Keeps kr kl s0
    s) : Keeps kr kl s0 (prefetchLine s n room bnd world zone gl) := by
  unfold prefetchLine
  with_reducible repeat' first
    | assumption | apply keeps_updCore | apply keeps_sendReq | (extract_lets +onlyGivenNames x; subst x) | split
    | fail_if_no_progress beta_reduce

theorem keeps_prefetchFor (s : State) (n : ℕ) (d : SegReg) (gl : ℕ) (hk : Keeps kr kl s0 s) : Keeps kr kl s0
    (prefetchFor s n d gl) := by
  unfold prefetchFor
  with_reducible repeat' first
    | assumption | apply keeps_prefetchLine | (extract_lets +onlyGivenNames x; subst x) | split
    | fail_if_no_progress beta_reduce

theorem keeps_trainStream (s : State) (n : ℕ) (d : SegReg) (unit : FUnit) (a : ℕ) (hk : Keeps kr kl s0 s) : Keeps kr
    kl s0 (trainStream s n d unit a) := by
  unfold trainStream
  with_reducible repeat' first
    | assumption | apply keeps_updCore | apply keeps_prefetchFor | (extract_lets +onlyGivenNames x; subst x) | split
    | fail_if_no_progress beta_reduce

theorem keeps_blockNear (s : State) (n gl : ℕ) (bnd : Bool) (hk : Keeps kr kl s0 s) : Keeps kr kl s0 (blockNear s n
    gl bnd) := by
  unfold blockNear
  with_reducible repeat' first
    | assumption | apply keeps_updCore | (extract_lets +onlyGivenNames x; subst x) | split
    | fail_if_no_progress beta_reduce

theorem keeps_demandMiss (s : State) (n : ℕ) (d : SegReg) (gl : ℕ) (kind : ReqKind) (forStore : Bool) (e : Option
    Exc) (hk : Keeps kr kl s0 s) : Keeps kr kl s0 (demandMiss s n d gl kind forStore e) := by
  unfold demandMiss
  with_reducible repeat' first
    | assumption | apply keeps_blockNear | apply keeps_sendReq | apply keeps_prefetchFor
    | (extract_lets +onlyGivenNames x; subst x) | split | fail_if_no_progress beta_reduce

theorem keeps_loadLine (s : State) (n : ℕ) (d : SegReg) (unit : FUnit) (es : List BufEntry) (train : Bool) (a :
    Word) (k : ℕ) (e : Option Exc) (hk : Keeps kr kl s0 s) : Keeps2 kr kl s0 (loadLine s n d unit es train a k e) := by
  unfold loadLine
  with_reducible repeat' first
    | assumption | apply keeps_trainStream | apply keeps_updCore | apply keeps_demandMiss | apply keeps_l2Add
    | apply Keeps2.snd | refine Keeps2.eq (by assumption) ?_ | (extract_lets +onlyGivenNames x; subst x) | split
    | fail_if_no_progress beta_reduce | apply Keeps2.mk

theorem keeps_loadRun (a0 : ℕ) (a1 : State) (a2 : ℕ) (a3 : SegReg) (a4 : List BufEntry) (a5 : Word) (a6 : ℕ) (a7 :
    Option Exc) (hk : Keeps kr kl s0 a1) : Keeps2 kr kl s0 (loadRun a0 a1 a2 a3 a4 a5 a6 a7) := by
  induction a0 generalizing a1 a5 a6 with
  | zero => rw [loadRun]; exact Keeps2.mk hk
  | succ n ih =>
    rw [loadRun]
    with_reducible repeat' first
      | assumption | apply ih | apply keeps_loadLine | apply Keeps2.snd | refine Keeps2.eq (by assumption) ?_
      | (extract_lets +onlyGivenNames x; subst x) | split | fail_if_no_progress beta_reduce | apply Keeps2.mk

theorem keeps_readDesc (s : State) (n : ℕ) (es : List BufEntry) (sel : ℕ) (priv world : Option Bool) (tgt : ℕ)
    (viaLdseg : Bool) (e : Option Exc) (hk : Keeps kr kl s0 s) : Keeps2 kr kl s0 (readDesc s n es sel priv world tgt
    viaLdseg e) := by
  unfold readDesc
  with_reducible repeat' first
    | assumption | apply keeps_loadRun | apply Keeps2.snd | refine Keeps2.eq (by assumption) ?_
    | (extract_lets +onlyGivenNames x; subst x) | split | fail_if_no_progress beta_reduce | apply Keeps2.mk

theorem keeps_askOwn (s : State) (n gl : ℕ) (kind : ReqKind) (zone : ℕ) (world bnd forStore : Bool) (e : Option Exc)
    (room : ℕ × ℕ) (hk : Keeps kr kl s0 s) : Keeps kr kl s0 (askOwn s n gl kind zone world bnd forStore e room) := by
  unfold askOwn
  with_reducible repeat' first
    | assumption | apply keeps_blockNear | apply keeps_sendReq | apply keeps_prefetchLine
    | (extract_lets +onlyGivenNames x; subst x) | split | fail_if_no_progress beta_reduce

theorem keeps_storeCond (s : State) (n : ℕ) (a : Word) (bs : List Byte) (bnd : Bool) (hk : Keeps kr kl s0 s) : Keeps
    kr kl s0 (storeCond s n a bs bnd) := by
  unfold storeCond
  with_reducible repeat' first
    | assumption | apply keeps_updCore | apply keeps_l2Add | apply keeps_storeOwned
    | (extract_lets +onlyGivenNames x; subst x) | split | fail_if_no_progress beta_reduce

end Sys2Proof.Machine
end

