-- ==== Sys2Proof/Laws/KeepsCoreOps.lean ====
section
/-! SUPPORT. What the operations of CoreOps.lean keep: one lemma for each, in the terms of `Keeps`. -/

set_option linter.unusedTactic false
set_option linter.unreachableTactic false

namespace Sys2Proof.Machine

variable {kr kl : Bool} {s0 : State}

theorem keeps_peekOne (s : State) (n : ℕ) (addr : Word) (k : ℕ) (stamp : Word) (hk : Keeps kr kl s0 s) : Keeps2 kr
    kl s0 (peekOne s n addr k stamp) := by
  unfold peekOne
  with_reducible repeat' first
    | assumption | apply keeps_readOne | apply Keeps2.snd | refine Keeps2.eq (by assumption) ?_ | exact repKeeps_rep
    | (extract_lets +onlyGivenNames x; subst x) | split | fail_if_no_progress beta_reduce | apply Keeps2.mk

theorem keeps_peekBytes (a0 : ℕ) (a1 : State) (a2 : ℕ) (a3 : Word) (a4 : ℕ) (a5 : Word) (hk : Keeps kr kl s0 a1) :
    Keeps2 kr kl s0 (peekBytes a0 a1 a2 a3 a4 a5) := by
  induction a0 generalizing a1 a2 a3 a4 a5 with
  | zero =>
    unfold peekBytes
    with_reducible repeat' first
      | assumption | apply keeps_peekOne | apply Keeps2.snd | refine Keeps2.eq (by assumption) ?_
      | (extract_lets +onlyGivenNames x; subst x) | split | fail_if_no_progress beta_reduce | apply Keeps2.mk
  | succ n1  ih =>
    unfold peekBytes
    with_reducible repeat' first
      | assumption | apply ih | apply keeps_peekOne | apply Keeps2.snd | refine Keeps2.eq (by assumption) ?_
      | (extract_lets +onlyGivenNames x; subst x) | split | fail_if_no_progress beta_reduce | apply Keeps2.mk

theorem keeps_refusedStore (s : State) (addr : Word) (zone reason : ℕ) (world : Bool) (hk : Keeps kr kl s0 s) :
    Keeps kr kl s0 (refusedStore s addr zone reason world) := by
  unfold refusedStore
  with_reducible repeat' first
    | assumption | apply keeps_fault | (extract_lets +onlyGivenNames x; subst x) | split
    | fail_if_no_progress beta_reduce

theorem keeps_sendWc (n : ℕ) (s : State) (b : WcBuf) (hk : Keeps kr kl s0 s) : Keeps kr kl s0 (sendWc n s b) := by
  unfold sendWc
  with_reducible repeat' first
    | assumption | apply keeps_issueCoreStamp | apply keeps_writeMask | apply keeps_refusedStore | apply Keeps2.snd
    | refine Keeps2.eq (by assumption) ?_ | exact repKeeps_rep | (extract_lets +onlyGivenNames x; subst x) | split
    | fail_if_no_progress beta_reduce | apply Keeps2.mk

theorem keeps_doubleException (s : State) (n : ℕ) (hk : Keeps kr kl s0 s) : Keeps kr kl s0 (doubleException s n) :=
    by
  unfold doubleException
  with_reducible repeat' first
    | assumption | apply keeps_putImage | apply keeps_updCore | apply keeps_updVcore | apply keeps_fault
    | (extract_lets +onlyGivenNames x; subst x) | split | fail_if_no_progress beta_reduce

theorem keeps_loadHandler (s : State) (n : ℕ) (e : Exc) (pc : Word) (hk : Keeps kr kl s0 s) : Keeps kr kl s0
    (loadHandler s n e pc) := by
  unfold loadHandler
  with_reducible repeat' first
    | assumption | apply keeps_updCore | apply keeps_readDesc | apply keeps_doubleException | apply Keeps2.snd
    | refine Keeps2.eq (by assumption) ?_ | (extract_lets +onlyGivenNames x; subst x) | split
    | fail_if_no_progress beta_reduce | apply Keeps2.mk

theorem keeps_loadDesc (s : State) (n sel : ℕ) (priv world : Option Bool) (tgt : ℕ) (viaLdseg : Bool) (hk : Keeps kr
    kl s0 s) : Keeps2 kr kl s0 (loadDesc s n sel priv world tgt viaLdseg) := by
  unfold loadDesc
  with_reducible repeat' first
    | assumption | apply keeps_peekBytes | apply Keeps2.snd | refine Keeps2.eq (by assumption) ?_
    | (extract_lets +onlyGivenNames x; subst x) | split | fail_if_no_progress beta_reduce | apply Keeps2.mk

theorem keeps_leaveWc (s : State) (n : ℕ) (hk : Keeps kr kl s0 s) : Keeps kr kl s0 (leaveWc s n) := by
  unfold leaveWc
  with_reducible repeat' first
    | assumption | apply keeps_sendWc | apply keeps_updCore | refine Keeps.foldl _ ?_ ?_ | intro _
    | (extract_lets +onlyGivenNames x; subst x) | split | fail_if_no_progress beta_reduce

theorem keeps_wakeEntry (s : State) (n : ℕ) (hk : Keeps kr kl s0 s) : Keeps kr kl s0 (wakeEntry s n) := by
  unfold wakeEntry
  with_reducible repeat' first
    | assumption | apply keeps_loadHandler | (extract_lets +onlyGivenNames x; subst x) | split
    | fail_if_no_progress beta_reduce

theorem keeps_enterException (s : State) (n : ℕ) (e : Exc) (pc : Word) (hk : Keeps kr kl s0 s) : Keeps kr kl s0
    (enterException s n e pc) := by
  unfold enterException
  with_reducible repeat' first
    | assumption | apply keeps_leaveWc | apply keeps_endDeferral | apply keeps_updCore | apply keeps_doubleException
    | apply keeps_loadHandler | (extract_lets +onlyGivenNames x; subst x) | split | fail_if_no_progress beta_reduce

end Sys2Proof.Machine
end

