-- ==== Sys2Proof/Laws/KeepsAgent.lean ====
section
/-! SUPPORT. What the operations of Agent.lean keep: one lemma for each, in the terms of `Keeps`. -/

set_option linter.unusedTactic false
set_option linter.unreachableTactic false

namespace Sys2Proof.Machine

variable {kr kl : Bool} {s0 : State}

theorem keeps_takeData (s : State) (m : DataMsg) (hk : Keeps kr kl s0 s) : Keeps kr kl s0 (takeData s m) := by
  unfold takeData
  with_reducible repeat' first
    | assumption | apply keeps_installData | apply keeps_wakeEntry | (extract_lets +onlyGivenNames x; subst x) | split
    | fail_if_no_progress beta_reduce

theorem keeps_execResend (stamp : Word) (s : State) {t : State} (hk : Keeps kr kl s0 s) (e : execResend stamp s =
    .next t) : Keeps kr kl s0 t := by
  unfold execResend at e
  injection e with e
  subst e
  with_reducible repeat' first
    | assumption | apply keeps_sendFlit | (extract_lets +onlyGivenNames x; subst x) | split
    | fail_if_no_progress beta_reduce

theorem keeps_repeatReq (s : State) (r : AgentReq) (hk : Keeps kr kl s0 s) : Keeps kr kl s0 (repeatReq s r) := by
  unfold repeatReq
  with_reducible repeat' first
    | assumption | apply keeps_sendFlit | (extract_lets +onlyGivenNames x; subst x) | split
    | fail_if_no_progress beta_reduce

theorem keeps_execRetry (stamp : Word) (credit : Option ℕ) (s : State) {t : State} (hk : Keeps kr kl s0 s) (e :
    execRetry stamp credit s = .next t) : Keeps kr kl s0 t := by
  unfold execRetry at e
  injection e with e
  subst e
  with_reducible repeat' first
    | assumption | apply keeps_repeatReq | fail_if_no_progress (refine Keeps.made ?_ rfl rfl rfl rfl rfl)
    | (extract_lets +onlyGivenNames x; subst x) | split | fail_if_no_progress beta_reduce

theorem keeps_execReservationDeferralTimeout (core : ℕ) (s : State) {t : State} (hk : Keeps kr kl s0 s) (e :
    execReservationDeferralTimeout core s = .next t) : Keeps kr kl s0 t := by
  unfold execReservationDeferralTimeout at e
  injection e with e
  subst e
  with_reducible repeat' first
    | assumption | apply keeps_endDeferral | (extract_lets +onlyGivenNames x; subst x) | split
    | fail_if_no_progress beta_reduce

theorem keeps_execSnpfwds (m : Snoop) (s : State) {t : State} (hk : Keeps kr kl s0 s) (e : execSnpfwds m s = .next
    t) : Keeps kr kl s0 t := by
  unfold execSnpfwds at e
  injection e with e
  subst e
  with_reducible repeat' first
    | assumption | apply keeps_takeSnoop | (extract_lets +onlyGivenNames x; subst x) | split
    | fail_if_no_progress beta_reduce

theorem keeps_endMaint (s : State) (core : ℕ) (addr : Word) (hk : Keeps kr kl s0 s) : Keeps kr kl s0 (endMaint s
    core addr) := by
  unfold endMaint
  with_reducible repeat' first
    | assumption | apply keeps_updCore | apply keeps_evictLine | (extract_lets +onlyGivenNames x; subst x) | split
    | fail_if_no_progress beta_reduce

theorem keeps_execSnpinv (m : Snoop) (s : State) {t : State} (hk : Keeps kr kl s0 s) (e : execSnpinv m s = .next t)
    : Keeps kr kl s0 t := by
  unfold execSnpinv at e
  injection e with e
  subst e
  with_reducible repeat' first
    | assumption | apply keeps_takeSnoop | (extract_lets +onlyGivenNames x; subst x) | split
    | fail_if_no_progress beta_reduce

theorem keeps_execSnpdrop (m : Snoop) (s : State) {t : State} (hk : Keeps kr kl s0 s) (e : execSnpdrop m s = .next
    t) : Keeps kr kl s0 t := by
  unfold execSnpdrop at e
  injection e with e
  subst e
  with_reducible repeat' first
    | assumption | apply keeps_takeSnoop | (extract_lets +onlyGivenNames x; subst x) | split
    | fail_if_no_progress beta_reduce

theorem keeps_execSnpfwdo (m : Snoop) (s : State) {t : State} (hk : Keeps kr kl s0 s) (e : execSnpfwdo m s = .next
    t) : Keeps kr kl s0 t := by
  unfold execSnpfwdo at e
  injection e with e
  subst e
  with_reducible repeat' first
    | assumption | apply keeps_takeSnoop | (extract_lets +onlyGivenNames x; subst x) | split
    | fail_if_no_progress beta_reduce

theorem keeps_execData (m : DataMsg) (s : State) {t : State} (hk : Keeps kr kl s0 s) (e : execData m s = .next t) :
    Keeps kr kl s0 t := by
  unfold execData at e
  injection e with e
  subst e
  with_reducible repeat' first
    | assumption | apply keeps_takeData | (extract_lets +onlyGivenNames x; subst x) | split
    | fail_if_no_progress beta_reduce

theorem keeps_endWc (s : State) (core : ℕ) (stamp : Word) (hk : Keeps kr kl s0 s) : Keeps kr kl s0 (endWc s core
    stamp) := by
  unfold endWc
  with_reducible repeat' first
    | assumption | apply keeps_updCore | (extract_lets +onlyGivenNames x; subst x) | split
    | fail_if_no_progress beta_reduce

theorem keeps_execFwddata (m : DataMsg) (s : State) {t : State} (hk : Keeps kr kl s0 s) (e : execFwddata m s = .next
    t) : Keeps kr kl s0 t := by
  unfold execFwddata at e
  injection e with e
  subst e
  with_reducible repeat' first
    | assumption | apply keeps_takeData | (extract_lets +onlyGivenNames x; subst x) | split
    | fail_if_no_progress beta_reduce

theorem keeps_execWback (quad : ℕ) (addr : Word) (s : State) {t : State} (hk : Keeps kr kl s0 s) (e : execWback quad
    addr s = .next t) : Keeps kr kl s0 t := by
  unfold execWback at e
  injection e with e
  subst e
  with_reducible repeat' first
    | assumption | fail_if_no_progress (refine Keeps.made ?_ rfl rfl rfl rfl rfl)
    | (extract_lets +onlyGivenNames x; subst x) | split | fail_if_no_progress beta_reduce

theorem keeps_execSnpclean (m : Snoop) (s : State) {t : State} (hk : Keeps kr kl s0 s) (e : execSnpclean m s = .next
    t) : Keeps kr kl s0 t := by
  unfold execSnpclean at e
  injection e with e
  subst e
  with_reducible repeat' first
    | assumption | apply keeps_takeSnoop | (extract_lets +onlyGivenNames x; subst x) | split
    | fail_if_no_progress beta_reduce

theorem keeps_walkOne (s : State) (f : WalkFinding) (hk : Keeps kr kl s0 s) : Keeps kr kl s0 (walkOne s f) := by
  unfold walkOne
  with_reducible repeat' first
    | assumption | apply keeps_updCore | apply keeps_faultAt | apply keeps_leaveSlice | apply keeps_dropLine
    | apply keeps_setLine | apply keeps_fault | (extract_lets +onlyGivenNames x; subst x) | split
    | fail_if_no_progress beta_reduce

theorem keeps_execNearCacheFill (core line : ℕ) (s : State) {t : State} (hk : Keeps kr kl s0 s) (e :
    execNearCacheFill core line s = .next t) : Keeps kr kl s0 t := by
  unfold execNearCacheFill at e
  injection e with e
  subst e
  with_reducible repeat' first
    | assumption | apply keeps_wakeEntry | apply keeps_updCore | apply keeps_l2Add
    | (extract_lets +onlyGivenNames x; subst x) | split | fail_if_no_progress beta_reduce

theorem keeps_clearWay (s : State) (f : WalkFinding) (off : ℕ) (hk : Keeps kr kl s0 s) : Keeps kr kl s0 (clearWay s
    f off) := by
  unfold clearWay
  with_reducible repeat' first
    | assumption | apply keeps_sliceEvict | apply keeps_updCore | refine Keeps.foldl _ ?_ ?_
    | fail_if_no_progress (refine Keeps.made ?_ rfl rfl rfl rfl rfl) | intro _
    | (extract_lets +onlyGivenNames x; subst x) | split | fail_if_no_progress beta_reduce

theorem keeps_retireWay (s : State) (f : WalkFinding) (hk : Keeps kr kl s0 s) : Keeps kr kl s0 (retireWay s f) := by
  unfold retireWay
  with_reducible repeat' first
    | assumption | apply keeps_faultAt | apply keeps_logAdd | apply keeps_clearWay
    | (extract_lets +onlyGivenNames x; subst x) | split | fail_if_no_progress beta_reduce

theorem keeps_execL2L3Walk (findings : List WalkFinding) (s : State) {t : State} (hk : Keeps kr kl s0 s) (e :
    execL2L3Walk findings s = .next t) : Keeps kr kl s0 t := by
  unfold execL2L3Walk at e
  injection e with e
  subst e
  with_reducible repeat' first
    | assumption | apply keeps_walkOne | apply keeps_retireWay | refine Keeps.foldl _ ?_ ?_
    | fail_if_no_progress (refine Keeps.made ?_ rfl rfl rfl rfl rfl) | intro _
    | (extract_lets +onlyGivenNames x; subst x) | split | fail_if_no_progress beta_reduce

theorem keeps_execCmp (quad : ℕ) (stamp addr : Word) (s : State) {t : State} (hk : Keeps kr kl s0 s) (e : execCmp
    quad stamp addr s = .next t) : Keeps kr kl s0 t := by
  unfold execCmp at e
  injection e with e
  subst e
  with_reducible repeat' first
    | assumption | apply keeps_sendFlit | apply keeps_delReq | apply keeps_setLine | apply keeps_wakeEntry
    | apply keeps_updCore | apply keeps_endMaint | apply keeps_endWc | (extract_lets +onlyGivenNames x; subst x)
    | split | fail_if_no_progress beta_reduce

theorem keeps_execSnpback (m : Snoop) (s : State) {t : State} (hk : Keeps kr kl s0 s) (e : execSnpback m s = .next
    t) : Keeps kr kl s0 t := by
  unfold execSnpback at e
  injection e with e
  subst e
  with_reducible repeat' first
    | assumption | apply keeps_takeSnoop | (extract_lets +onlyGivenNames x; subst x) | split
    | fail_if_no_progress beta_reduce

end Sys2Proof.Machine
end

