-- ==== Sys2Proof/Laws/KeepsIoOps.lean ====
section
/-! SUPPORT. What the operations of IoOps.lean keep: one lemma for each, in the terms of `Keeps`. -/

set_option linter.unusedTactic false
set_option linter.unreachableTactic false

namespace Sys2Proof.Machine

variable {kr kl : Bool} {s0 : State}

theorem keeps_rwbIgnored (s : State) (q : IoReq) (off : ℕ) (hk : Keeps kr kl s0 s) : Keeps kr kl s0 (rwbIgnored s q
    off) := by
  unfold rwbIgnored
  with_reducible repeat' first
    | assumption | apply keeps_faultAt | (extract_lets +onlyGivenNames x; subst x) | split
    | fail_if_no_progress beta_reduce

theorem keeps_gateIgnored (s : State) (q : IoReq) (off : ℕ) (hk : Keeps kr kl s0 s) : Keeps kr kl s0 (gateIgnored s
    q off) := by
  unfold gateIgnored
  with_reducible repeat' first
    | assumption | apply keeps_logAdd | apply keeps_faultAt | (extract_lets +onlyGivenNames x; subst x) | split
    | fail_if_no_progress beta_reduce

theorem keeps_gateField (s : State) (q : IoReq) (off owned old new : ℕ) (hk : Keeps kr kl s0 s) : Keeps2 kr kl s0
    (gateField s q off owned old new) := by
  unfold gateField
  with_reducible repeat' first
    | assumption | apply keeps_gateIgnored | apply Keeps2.snd | refine Keeps2.eq (by assumption) ?_
    | (extract_lets +onlyGivenNames x; subst x) | split | fail_if_no_progress beta_reduce | apply Keeps2.mk

theorem keeps_mainReg (s t : State) (h : Keeps kr kl s0 s) (hk : Keeps kr kl s0 t) : Keeps kr kl s0 (mainReg s t) :=
    by
  unfold mainReg
  split <;> assumption

theorem keeps_discard (s : State) (q : IoReq) (off : ℕ) (hk : Keeps kr kl s0 s) : Keeps kr kl s0 (discard s q off)
    := by
  unfold discard
  with_reducible repeat' first
    | assumption | apply keeps_faultAt | (extract_lets +onlyGivenNames x; subst x) | split
    | fail_if_no_progress beta_reduce

end Sys2Proof.Machine
end

