-- ==== Sys2Proof/Laws/KeepsFabOps.lean ====
section
/-! SUPPORT. What the operations of FabOps.lean keep: one lemma for each, in the terms of `Keeps`. -/

set_option linter.unusedTactic false
set_option linter.unreachableTactic false

namespace Sys2Proof.Machine

variable {kr kl : Bool} {s0 : State}

theorem keeps_logLink (s : State) (kind dev port : ℕ) (stamp : Word) (hk : Keeps kr kl s0 s) : Keeps kr kl s0
    (logLink s kind dev port stamp) := by
  unfold logLink
  with_reducible repeat' first
    | assumption | apply keeps_logAdd | (extract_lets +onlyGivenNames x; subst x) | split
    | fail_if_no_progress beta_reduce

theorem keeps_sendMgmt (s : State) (op : FlitOp) (dev : ℕ) (words : List Word) (hk : Keeps kr kl s0 s) : Keeps kr kl
    s0 (sendMgmt s op dev words) := by
  unfold sendMgmt
  with_reducible repeat' first
    | assumption | apply keeps_issueStamp | apply keeps_send | apply Keeps2.snd | refine Keeps2.eq (by assumption) ?_
    | (extract_lets +onlyGivenNames x; subst x) | split | fail_if_no_progress beta_reduce | apply Keeps2.mk

theorem keeps_sendLink (s : State) (p : ℕ) (op : FlitOp) (stamp : Word) (words : List Word) (hk : Keeps kr kl s0 s)
    : Keeps kr kl s0 (sendLink s p op stamp words) := by
  unfold sendLink
  with_reducible repeat' first
    | assumption | apply keeps_updPort | (extract_lets +onlyGivenNames x; subst x) | split
    | fail_if_no_progress beta_reduce

theorem keeps_flood (s : State) (except : Option ℕ) (op : FlitOp) (stamp : Word) (words : List Word) (hk : Keeps kr
    kl s0 s) : Keeps kr kl s0 (flood s except op stamp words) := by
  unfold flood
  with_reducible repeat' first
    | assumption | apply keeps_sendLink | refine Keeps.foldl _ ?_ ?_ | intro _
    | (extract_lets +onlyGivenNames x; subst x) | split | fail_if_no_progress beta_reduce

theorem keeps_portStamp (s : State) (p : ℕ) (hk : Keeps kr kl s0 s) : Keeps2 kr kl s0 (portStamp s p) := by
  unfold portStamp
  with_reducible repeat' first
    | assumption | apply keeps_issueStamp | apply Keeps2.snd | refine Keeps2.eq (by assumption) ?_
    | (extract_lets +onlyGivenNames x; subst x) | split | fail_if_no_progress beta_reduce | apply Keeps2.mk

theorem keeps_noteStamp (s : State) (stamp : Word) (hk : Keeps kr kl s0 s) : Keeps kr kl s0 (noteStamp s stamp) :=
    by
  unfold noteStamp
  with_reducible repeat' first
    | assumption | fail_if_no_progress (refine Keeps.made ?_ rfl rfl rfl rfl rfl)
    | (extract_lets +onlyGivenNames x; subst x) | split | fail_if_no_progress beta_reduce

theorem keeps_setRt (s : State) (par : Bool) (t : Table ℕ) (hk : Keeps kr kl s0 s) : Keeps kr kl s0 (setRt s par t)
    := by
  unfold setRt
  with_reducible repeat' first
    | assumption | fail_if_no_progress (refine Keeps.made ?_ rfl rfl rfl rfl rfl)
    | (extract_lets +onlyGivenNames x; subst x) | split | fail_if_no_progress beta_reduce

theorem keeps_setPartner (s : State) (p : Option ℕ) (hk : Keeps kr kl s0 s) : Keeps kr kl s0 (setPartner s p) := by
  unfold setPartner
  with_reducible repeat' first
    | assumption | apply keeps_faultAt | fail_if_no_progress (refine Keeps.made ?_ rfl rfl rfl rfl rfl)
    | (extract_lets +onlyGivenNames x; subst x) | split | fail_if_no_progress beta_reduce

end Sys2Proof.Machine
end

