-- ==== Sys2Proof/Laws/KeepsVinOps.lean ====
section
/-! SUPPORT. What the operations of VinOps.lean keep: one lemma for each, in the terms of `Keeps`. -/

set_option linter.unusedTactic false
set_option linter.unreachableTactic false

namespace Sys2Proof.Machine

variable {kr kl : Bool} {s0 : State}

theorem keeps_loseMaster (s : State) (hk : Keeps kr kl s0 s) : Keeps kr kl s0 (loseMaster s) := by
  unfold loseMaster
  with_reducible repeat' first
    | assumption | apply keeps_faultAt | fail_if_no_progress (refine Keeps.made ?_ rfl rfl rfl rfl rfl)
    | (extract_lets +onlyGivenNames x; subst x) | split | fail_if_no_progress beta_reduce

theorem keeps_activateStaged (s : State) (hk : Keeps kr kl s0 s) : Keeps kr kl s0 (activateStaged s) := by
  unfold activateStaged
  with_reducible repeat' first
    | assumption | fail_if_no_progress (refine Keeps.made ?_ rfl rfl rfl rfl rfl)
    | (extract_lets +onlyGivenNames x; subst x) | split | fail_if_no_progress beta_reduce

theorem keeps_sendPrepare (s : State) (dev vintage : ℕ) (digest : Word) (act : ℕ) (catchup : Bool) (hk : Keeps kr kl
    s0 s) : Keeps kr kl s0 (sendPrepare s dev vintage digest act catchup) := by
  unfold sendPrepare
  with_reducible repeat' first
    | assumption | apply keeps_issueStamp | apply keeps_send | apply Keeps2.snd | refine Keeps2.eq (by assumption) ?_
    | fail_if_no_progress (refine Keeps.made ?_ rfl rfl rfl rfl rfl) | (extract_lets +onlyGivenNames x; subst x)
    | split | fail_if_no_progress beta_reduce | apply Keeps2.mk

theorem keeps_logVintage (s : State) (hk : Keeps kr kl s0 s) : Keeps kr kl s0 (logVintage s) := by
  unfold logVintage
  with_reducible repeat' first
    | assumption | apply keeps_issueStamp | apply keeps_logAdd | apply Keeps2.snd | refine Keeps2.eq (by assumption) ?_
    | (extract_lets +onlyGivenNames x; subst x) | split | fail_if_no_progress beta_reduce | apply Keeps2.mk

theorem keeps_activateVintage (s : State) (st : StagedCfg) (hk : Keeps kr kl s0 s) : Keeps kr kl s0 (activateVintage
    s st) := by
  unfold activateVintage
  with_reducible repeat' first
    | assumption | apply keeps_setRt | apply keeps_activateStaged | apply keeps_logVintage
    | fail_if_no_progress (refine Keeps.made ?_ rfl rfl rfl rfl rfl) | (extract_lets +onlyGivenNames x; subst x)
    | split | fail_if_no_progress beta_reduce

theorem keeps_startEntry (s : State) (st result : ℕ) (ws : List Word) (hk : Keeps kr kl s0 s) : Keeps kr kl s0
    (startEntry s st result ws) := by
  unfold startEntry
  with_reducible repeat' first
    | assumption | apply keeps_logPut | (extract_lets +onlyGivenNames x; subst x) | split
    | fail_if_no_progress beta_reduce

theorem keeps_failStep (s : State) (st : ℕ) (ws : List Word) (hk : Keeps kr kl s0 s) : Keeps kr kl s0 (failStep s st
    ws) := by
  unfold failStep
  with_reducible repeat' first
    | assumption | apply keeps_startEntry | fail_if_no_progress (refine Keeps.made ?_ rfl rfl rfl rfl rfl)
    | (extract_lets +onlyGivenNames x; subst x) | split | fail_if_no_progress beta_reduce

theorem keeps_becomeDivergent (s : State) (hk : Keeps kr kl s0 s) : Keeps kr kl s0 (becomeDivergent s) := by
  unfold becomeDivergent
  with_reducible repeat' first
    | assumption | apply keeps_faultAt | apply keeps_logVintage
    | fail_if_no_progress (refine Keeps.made ?_ rfl rfl rfl rfl rfl) | (extract_lets +onlyGivenNames x; subst x)
    | split | fail_if_no_progress beta_reduce

theorem keeps_correct (s : State) (d : ℤ) (hk : Keeps kr kl s0 s) : Keeps kr kl s0 (correct s d) := by
  unfold correct
  with_reducible repeat' first
    | assumption | fail_if_no_progress (refine Keeps.made ?_ rfl rfl rfl rfl rfl)
    | (extract_lets +onlyGivenNames x; subst x) | split | fail_if_no_progress beta_reduce

theorem keeps_endStep (s : State) (st result : ℕ) (ws : List Word) (hk : Keeps kr kl s0 s) : Keeps kr kl s0 (endStep
    s st result ws) := by
  unfold endStep
  with_reducible repeat' first
    | assumption | apply keeps_startEntry | fail_if_no_progress (refine Keeps.made ?_ rfl rfl rfl rfl rfl)
    | (extract_lets +onlyGivenNames x; subst x) | split | fail_if_no_progress beta_reduce

theorem keeps_logMeridian (s : State) (kind : ℕ) (hk : Keeps kr kl s0 s) : Keeps kr kl s0 (logMeridian s kind) := by
  unfold logMeridian
  with_reducible repeat' first
    | assumption | apply keeps_issueStamp | apply keeps_logAdd | apply Keeps2.snd | refine Keeps2.eq (by assumption) ?_
    | (extract_lets +onlyGivenNames x; subst x) | split | fail_if_no_progress beta_reduce | apply Keeps2.mk

theorem keeps_takeError (s : State) (e : ℤ) (hk : Keeps kr kl s0 s) : Keeps kr kl s0 (takeError s e) := by
  unfold takeError
  with_reducible repeat' first
    | assumption | apply keeps_faultAt | apply keeps_logMeridian
    | fail_if_no_progress (refine Keeps.made ?_ rfl rfl rfl rfl rfl) | (extract_lets +onlyGivenNames x; subst x)
    | split | fail_if_no_progress beta_reduce

theorem keeps_becomeMaster (s : State) (hk : Keeps kr kl s0 s) : Keeps kr kl s0 (becomeMaster s) := by
  unfold becomeMaster
  with_reducible repeat' first
    | assumption | apply keeps_takeError | apply keeps_logMeridian
    | fail_if_no_progress (refine Keeps.made ?_ rfl rfl rfl rfl rfl) | (extract_lets +onlyGivenNames x; subst x)
    | split | fail_if_no_progress beta_reduce

theorem keeps_sendCatchup (s : State) (dev : ℕ) (hk : Keeps kr kl s0 s) : Keeps kr kl s0 (sendCatchup s dev) := by
  unfold sendCatchup
  with_reducible repeat' first
    | assumption | apply keeps_sendPrepare | (extract_lets +onlyGivenNames x; subst x) | split
    | fail_if_no_progress beta_reduce

theorem keeps_noteCatchup (s : State) (vintage : ℕ) (digest : Word) (catchup : Bool) (hk : Keeps kr kl s0 s) : Keeps
    kr kl s0 (noteCatchup s vintage digest catchup) := by
  unfold noteCatchup
  with_reducible repeat' first
    | assumption | fail_if_no_progress (refine Keeps.made ?_ rfl rfl rfl rfl rfl)
    | (extract_lets +onlyGivenNames x; subst x) | split | fail_if_no_progress beta_reduce

theorem keeps_answerPrepare (s : State) (ok : Bool) (vintage : ℕ) (digest : Word) (act : ℕ) (hk : Keeps kr kl s0 s)
    : Keeps kr kl s0 (answerPrepare s ok vintage digest act) := by
  unfold answerPrepare
  with_reducible repeat' first
    | assumption | apply keeps_sendMgmt | fail_if_no_progress (refine Keeps.made ?_ rfl rfl rfl rfl rfl) | intro _
    | (extract_lets +onlyGivenNames x; subst x) | split | fail_if_no_progress beta_reduce

theorem keeps_refusePrepare (s : State) (vintage : ℕ) (digest : Word) (act : ℕ) (catchup : Bool) (hk : Keeps kr kl
    s0 s) : Keeps kr kl s0 (refusePrepare s vintage digest act catchup) := by
  unfold refusePrepare
  with_reducible repeat' first
    | assumption | apply keeps_answerPrepare | fail_if_no_progress (refine Keeps.made ?_ rfl rfl rfl rfl rfl)
    | (extract_lets +onlyGivenNames x; subst x) | split | fail_if_no_progress beta_reduce

theorem keeps_finishStaging (s : State) (st : StagedCfg) (hk : Keeps kr kl s0 s) : Keeps kr kl s0 (finishStaging s
    st) := by
  unfold finishStaging
  with_reducible repeat' first
    | assumption | apply keeps_setRt | apply keeps_answerPrepare
    | fail_if_no_progress (refine Keeps.made ?_ rfl rfl rfl rfl rfl) | (extract_lets +onlyGivenNames x; subst x)
    | split | fail_if_no_progress beta_reduce

theorem keeps_stage (s : State) (st : StagedCfg) (hk : Keeps kr kl s0 s) : Keeps kr kl s0 (stage s st) := by
  unfold stage
  with_reducible repeat' first
    | assumption | apply keeps_finishStaging | fail_if_no_progress (refine Keeps.made ?_ rfl rfl rfl rfl rfl)
    | (extract_lets +onlyGivenNames x; subst x) | split | fail_if_no_progress beta_reduce

theorem keeps_refetch (s : State) (hk : Keeps kr kl s0 s) : Keeps2 kr kl s0 (refetch s) := by
  unfold refetch
  with_reducible repeat' first
    | assumption | apply keeps_updZone | apply keeps_zoneEntry | apply Keeps2.snd | refine Keeps.foldl _ ?_ ?_
    | refine Keeps2.foldl _ ?_ ?_ | refine Keeps2.eq (by assumption) ?_ | exact repKeeps_rep | intro _
    | (extract_lets +onlyGivenNames x; subst x) | split | fail_if_no_progress beta_reduce | apply Keeps2.mk

theorem keeps_imageFault (s : State) (c : CfgImage) (hk : Keeps kr kl s0 s) : Keeps2 kr kl s0 (imageFault s c) := by
  unfold imageFault
  with_reducible repeat' first
    | assumption | apply keeps_refetch | apply Keeps2.snd | refine Keeps2.eq (by assumption) ?_
    | (extract_lets +onlyGivenNames x; subst x) | split | fail_if_no_progress beta_reduce | apply Keeps2.mk

theorem keeps_takePrepare (s : State) (vintage : ℕ) (digest : Word) (act : ℕ) (catchup : Bool) (c : CfgImage) (hk :
    Keeps kr kl s0 s) : Keeps kr kl s0 (takePrepare s vintage digest act catchup c) := by
  unfold takePrepare
  with_reducible repeat' first
    | assumption | apply keeps_noteCatchup | apply keeps_refusePrepare | apply keeps_stage | apply keeps_imageFault
    | apply Keeps2.snd | refine Keeps2.eq (by assumption) ?_ | (extract_lets +onlyGivenNames x; subst x) | split
    | fail_if_no_progress beta_reduce | apply Keeps2.mk

theorem keeps_startChange (s : State) (c : CfgImage) (vintage act : ℕ) (mbx : Option Mbx) (hk : Keeps kr kl s0 s) :
    Keeps kr kl s0 (startChange s c vintage act mbx) := by
  unfold startChange
  with_reducible repeat' first
    | assumption | apply keeps_sendPrepare | apply keeps_takePrepare | refine Keeps.foldl _ ?_ ?_
    | fail_if_no_progress (refine Keeps.made ?_ rfl rfl rfl rfl rfl) | intro _
    | (extract_lets +onlyGivenNames x; subst x) | split | fail_if_no_progress beta_reduce

theorem keeps_tick (s : State) (hk : Keeps kr kl s0 s) : Keeps kr kl s0 (tick s) := by
  unfold tick
  with_reducible repeat' first
    | assumption | fail_if_no_progress (refine Keeps.made ?_ rfl rfl rfl rfl rfl)
    | (extract_lets +onlyGivenNames x; subst x) | split | fail_if_no_progress beta_reduce

theorem keeps_sendSync (s : State) (except : Option ℕ) (hk : Keeps kr kl s0 s) : Keeps kr kl s0 (sendSync s except)
    := by
  unfold sendSync
  with_reducible repeat' first
    | assumption | apply keeps_sendLink | refine Keeps.foldl _ ?_ ?_ | intro _
    | (extract_lets +onlyGivenNames x; subst x) | split | fail_if_no_progress beta_reduce

end Sys2Proof.Machine
end

