-- ==== Sys2Proof/Laws/KeepsRelraxOps.lean ====
section
/-! SUPPORT. What the operations of RelraxOps.lean keep: one lemma for each, in the terms of `Keeps`. -/

set_option linter.unusedTactic false
set_option linter.unreachableTactic false

namespace Sys2Proof.Machine

variable {kr kl : Bool} {s0 : State}

theorem keeps_forwardCmd (s : State) (m : Mbx) (kind zone : ℕ) (ws : List Word) (d : ℕ) (hk : Keeps kr kl s0 s) :
    Keeps kr kl s0 (forwardCmd s m kind zone ws d) := by
  unfold forwardCmd
  with_reducible repeat' first
    | assumption | apply keeps_issueStamp | apply keeps_send | apply Keeps2.snd | refine Keeps2.eq (by assumption) ?_
    | fail_if_no_progress (refine Keeps.made ?_ rfl rfl rfl rfl rfl) | (extract_lets +onlyGivenNames x; subst x)
    | split | fail_if_no_progress beta_reduce | apply Keeps2.mk

theorem keeps_updRing (s : State) (z : ℕ) (f : Ring → Ring) (hk : Keeps kr kl s0 s) : Keeps kr kl s0 (updRing s z f)
    := by
  unfold updRing
  with_reducible repeat' first
    | assumption | fail_if_no_progress (refine Keeps.made ?_ rfl rfl rfl rfl rfl)
    | (extract_lets +onlyGivenNames x; subst x) | split | fail_if_no_progress beta_reduce

theorem keeps_updBox (s : State) (m : Mbx) (f : Mailbox → Mailbox) (hk : Keeps kr kl s0 s) : Keeps kr kl s0 (updBox
    s m f) := by
  unfold updBox
  with_reducible repeat' first
    | assumption | apply keeps_updRing | fail_if_no_progress (refine Keeps.made ?_ rfl rfl rfl rfl rfl)
    | (extract_lets +onlyGivenNames x; subst x) | split | fail_if_no_progress beta_reduce

theorem keeps_acceptCmd (s : State) (m : Mbx) (kind zone : ℕ) (ws : List Word) (hk : Keeps kr kl s0 s) : Keeps kr kl
    s0 (acceptCmd s m kind zone ws) := by
  unfold acceptCmd
  with_reducible repeat' first
    | assumption | apply keeps_updBox | apply keeps_forwardCmd
    | fail_if_no_progress (refine Keeps.made ?_ rfl rfl rfl rfl rfl) | intro _
    | (extract_lets +onlyGivenNames x; subst x) | split | fail_if_no_progress beta_reduce

theorem keeps_bumpIgnored (s : State) (m : Mbx) (hk : Keeps kr kl s0 s) : Keeps kr kl s0 (bumpIgnored s m) := by
  unfold bumpIgnored
  with_reducible repeat' first
    | assumption | apply keeps_updBox | (extract_lets +onlyGivenNames x; subst x) | split
    | fail_if_no_progress beta_reduce

theorem keeps_stopRing (s : State) (z : ℕ) (hk : Keeps kr kl s0 s) : Keeps kr kl s0 (stopRing s z) := by
  unfold stopRing
  with_reducible repeat' first
    | assumption | apply keeps_faultAt | apply keeps_updRing | (extract_lets +onlyGivenNames x; subst x) | split
    | fail_if_no_progress beta_reduce

theorem keeps_putRingResult (s : State) (z : ℕ) (ws : List Word) (hk : Keeps kr kl s0 s) : Keeps kr kl s0
    (putRingResult s z ws) := by
  unfold putRingResult
  with_reducible repeat' first
    | assumption | apply keeps_engPutWords | apply keeps_stopRing | apply keeps_updRing | apply keeps_engWrite
    | apply Keeps2.snd | refine Keeps2.eq (by assumption) ?_ | exact repKeeps_rep
    | (extract_lets +onlyGivenNames x; subst x) | split | fail_if_no_progress beta_reduce | apply Keeps2.mk

theorem keeps_serveRing (a0 : ℕ) (a1 : State) (a2 : ℕ) (hk : Keeps kr kl s0 a1) : Keeps kr kl s0 (serveRing a0 a1
    a2) := by
  induction a0 generalizing a1 a2 with
  | zero =>
    unfold serveRing
    with_reducible repeat' first
      | assumption | apply keeps_engWords | apply keeps_stopRing | apply keeps_updBox | apply keeps_bumpIgnored
      | apply keeps_putRingResult | apply keeps_engPutWords | apply keeps_acceptCmd | apply Keeps2.snd
      | refine Keeps2.eq (by assumption) ?_ | exact repKeeps_rep | (extract_lets +onlyGivenNames x; subst x) | split
      | fail_if_no_progress beta_reduce | apply Keeps2.mk
  | succ n1  ih =>
    unfold serveRing
    with_reducible repeat' first
      | assumption | apply ih | apply keeps_engWords | apply keeps_stopRing | apply keeps_updBox
      | apply keeps_bumpIgnored | apply keeps_putRingResult | apply keeps_engPutWords | apply keeps_acceptCmd
      | apply Keeps2.snd | refine Keeps2.eq (by assumption) ?_ | exact repKeeps_rep
      | (extract_lets +onlyGivenNames x; subst x) | split | fail_if_no_progress beta_reduce | apply Keeps2.mk

theorem keeps_ringZone (s : State) (z : ℕ) (hk : Keeps kr kl s0 s) : Keeps kr kl s0 (ringZone s z) := by
  unfold ringZone
  with_reducible repeat' first
    | assumption | apply keeps_bumpIgnored | apply keeps_serveRing | (extract_lets +onlyGivenNames x; subst x) | split
    | fail_if_no_progress beta_reduce

theorem keeps_startCmd (s : State) (m : Mbx) (hk : Keeps kr kl s0 s) : Keeps kr kl s0 (startCmd s m) := by
  unfold startCmd
  with_reducible repeat' first
    | assumption | apply keeps_updBox | intro _ | (extract_lets +onlyGivenNames x; subst x) | split
    | fail_if_no_progress beta_reduce

theorem keeps_setOutcome (s : State) (m : Mbx) (r : CmdResult) (hk : Keeps kr kl s0 s) : Keeps kr kl s0 (setOutcome
    s m r) := by
  unfold setOutcome
  with_reducible repeat' first
    | assumption | apply keeps_updBox | intro _ | (extract_lets +onlyGivenNames x; subst x) | split
    | fail_if_no_progress beta_reduce

theorem keeps_setOutcomeOpt (s : State) (m : Option Mbx) (r : CmdResult) (hk : Keeps kr kl s0 s) : Keeps kr kl s0
    (setOutcomeOpt s m r) := by
  unfold setOutcomeOpt
  with_reducible repeat' first
    | assumption | apply keeps_setOutcome | (extract_lets +onlyGivenNames x; subst x) | split
    | fail_if_no_progress beta_reduce

theorem keeps_ringBox (s : State) (m : Mbx) (kind zone : ℕ) (ws : List Word) (hk : Keeps kr kl s0 s) : Keeps kr kl
    s0 (ringBox s m kind zone ws) := by
  unfold ringBox
  with_reducible repeat' first
    | assumption | apply keeps_bumpIgnored | apply keeps_updBox | apply keeps_acceptCmd
    | (extract_lets +onlyGivenNames x; subst x) | split | fail_if_no_progress beta_reduce

theorem keeps_completeCmd (s : State) (m : Mbx) (hk : Keeps kr kl s0 s) : Keeps kr kl s0 (completeCmd s m) := by
  unfold completeCmd
  with_reducible repeat' first
    | assumption | apply keeps_updBox | apply keeps_serveRing | apply keeps_putRingResult | apply keeps_sendFlit
    | (extract_lets +onlyGivenNames x; subst x) | split | fail_if_no_progress beta_reduce

theorem keeps_runCmd (s : State) (m : Mbx) (code : ℕ) (f : Accepted → State → Option CmdResult × State) (hk : Keeps
    kr kl s0 s) (hf : ∀ s0 x0 x1, Keeps kr kl s0 x1 → Keeps2 kr kl s0 (f x0 x1)) : Keeps kr kl s0 (runCmd s m code f) :=
    by
  unfold runCmd
  with_reducible repeat' first
    | assumption | apply keeps_startCmd | apply keeps_setOutcome | apply Keeps2.snd
    | refine Keeps2.eq (by assumption) ?_ | apply hf | (extract_lets +onlyGivenNames x; subst x) | split
    | fail_if_no_progress beta_reduce | apply Keeps2.mk

end Sys2Proof.Machine
end

