-- ==== Sys2Proof/Laws/KeepsCellarOps.lean ====
section
/-! SUPPORT. What the operations of CellarOps.lean keep: one lemma for each, in the terms of `Keeps`. -/

set_option linter.unusedTactic false
set_option linter.unreachableTactic false

namespace Sys2Proof.Machine

variable {kr kl : Bool} {s0 : State}

theorem keeps_unTransit (s : State) (page : ℕ) (hk : Keeps kr kl s0 s) : Keeps kr kl s0 (unTransit s page) := by
  unfold unTransit
  with_reducible repeat' first
    | assumption | apply keeps_setPage | (extract_lets +onlyGivenNames x; subst x) | split
    | fail_if_no_progress beta_reduce

theorem keeps_updEng (s : State) (e : ℕ) (f : CmpEng → CmpEng) (hk : Keeps kr kl s0 s) : Keeps kr kl s0 (updEng s e
    f) := by
  unfold updEng
  with_reducible repeat' first
    | assumption | fail_if_no_progress (refine Keeps.made ?_ rfl rfl rfl rfl rfl)
    | (extract_lets +onlyGivenNames x; subst x) | split | fail_if_no_progress beta_reduce

theorem keeps_freeEngine (s : State) (j : CmpJob) (hk : Keeps kr kl s0 s) : Keeps kr kl s0 (freeEngine s j) := by
  unfold freeEngine
  with_reducible repeat' first
    | assumption | apply keeps_updEng | (extract_lets +onlyGivenNames x; subst x) | split
    | fail_if_no_progress beta_reduce

theorem keeps_endJob (s : State) (j : CmpJob) (hk : Keeps kr kl s0 s) : Keeps kr kl s0 (endJob s j) := by
  unfold endJob
  with_reducible repeat' first
    | assumption | apply keeps_freeEngine | fail_if_no_progress (refine Keeps.made ?_ rfl rfl rfl rfl rfl)
    | (extract_lets +onlyGivenNames x; subst x) | split | fail_if_no_progress beta_reduce

theorem keeps_cellarResult (s : State) (m : Mbx) (idx code : ℕ) (hk : Keeps kr kl s0 s) : Keeps kr kl s0
    (cellarResult s m idx code) := by
  unfold cellarResult
  with_reducible repeat' first
    | assumption | apply keeps_updBox | intro _ | (extract_lets +onlyGivenNames x; subst x) | split
    | fail_if_no_progress beta_reduce

theorem keeps_endCellaring (s : State) (c : Cellaring) (code : ℕ) (hk : Keeps kr kl s0 s) : Keeps kr kl s0
    (endCellaring s c code) := by
  unfold endCellaring
  with_reducible repeat' first
    | assumption | apply keeps_freeEngine | apply keeps_endJob | apply keeps_cellarResult
    | fail_if_no_progress (refine Keeps.made ?_ rfl rfl rfl rfl rfl) | (extract_lets +onlyGivenNames x; subst x)
    | split | fail_if_no_progress beta_reduce

theorem keeps_writeImage (s : State) (im : CellImage) (page : ℕ) (hk : Keeps kr kl s0 s) : Keeps kr kl s0
    (writeImage s im page) := by
  unfold writeImage
  with_reducible repeat' first
    | assumption | apply keeps_writeFrame | refine Keeps.foldl _ ?_ ?_ | refine Keeps2.foldl _ ?_ ?_ | intro _
    | (extract_lets +onlyGivenNames x; subst x) | split | fail_if_no_progress beta_reduce

theorem keeps_storeImage (s : State) (c : Cellaring) (page image : List Byte) (hk : Keeps kr kl s0 s) : Keeps kr kl
    s0 (storeImage s c page image) := by
  unfold storeImage
  with_reducible repeat' first
    | assumption | apply keeps_endCellaring | apply keeps_unTransit | apply keeps_writeImage | apply keeps_markGrans
    | apply keeps_setPage | apply keeps_pushFrame | fail_if_no_progress (refine Keeps.made ?_ rfl rfl rfl rfl rfl)
    | (extract_lets +onlyGivenNames x; subst x) | split | fail_if_no_progress beta_reduce

theorem keeps_verifyFail (s : State) (e zone : ℕ) (hk : Keeps kr kl s0 s) : Keeps kr kl s0 (verifyFail s e zone) :=
    by
  unfold verifyFail
  with_reducible repeat' first
    | assumption | apply keeps_updEng | apply keeps_faultAt | apply keeps_issueStamp | apply keeps_logAdd
    | apply Keeps2.snd | refine Keeps2.eq (by assumption) ?_
    | fail_if_no_progress (refine Keeps.made ?_ rfl rfl rfl rfl rfl) | (extract_lets +onlyGivenNames x; subst x)
    | split | fail_if_no_progress beta_reduce | apply Keeps2.mk

theorem keeps_backLine (s : State) (off fl : ℕ) (hk : Keeps kr kl s0 s) : Keeps kr kl s0 (backLine s off fl) := by
  unfold backLine
  with_reducible repeat' first
    | assumption | apply keeps_dropLost | apply keeps_takeLine | apply keeps_issueStamp | apply keeps_startSettle
    | apply Keeps2.snd | refine Keeps2.eq (by assumption) ?_ | (extract_lets +onlyGivenNames x; subst x) | split
    | fail_if_no_progress beta_reduce | apply Keeps2.mk

theorem keeps_backPage (s : State) (page loc : ℕ) (hk : Keeps kr kl s0 s) : Keeps kr kl s0 (backPage s page loc) :=
    by
  unfold backPage
  with_reducible repeat' first
    | assumption | apply keeps_backLine | refine Keeps.foldl _ ?_ ?_ | intro _
    | (extract_lets +onlyGivenNames x; subst x) | split | fail_if_no_progress beta_reduce

theorem keeps_takeCellaring (s : State) (c : Cellaring) (hk : Keeps kr kl s0 s) : Keeps kr kl s0 (takeCellaring s c)
    := by
  unfold takeCellaring
  with_reducible repeat' first
    | assumption | apply keeps_endCellaring | apply keeps_setPage | apply keeps_backPage | apply keeps_storeImage
    | fail_if_no_progress (refine Keeps.made ?_ rfl rfl rfl rfl rfl) | (extract_lets +onlyGivenNames x; subst x)
    | split | fail_if_no_progress beta_reduce

theorem keeps_runCellar (a0 : ℕ) (a1 : State) (a2 : Mbx) (hk : Keeps kr kl s0 a1) : Keeps kr kl s0 (runCellar a0 a1
    a2) := by
  induction a0 generalizing a1 a2 with
  | zero =>
    unfold runCellar
    with_reducible repeat' first
      | assumption | apply keeps_setOutcome | apply keeps_takeCellaring | (extract_lets +onlyGivenNames x; subst x)
      | split | fail_if_no_progress beta_reduce
  | succ n1  ih =>
    unfold runCellar
    with_reducible repeat' first
      | assumption | apply ih | apply keeps_setOutcome | apply keeps_takeCellaring
      | (extract_lets +onlyGivenNames x; subst x) | split | fail_if_no_progress beta_reduce

theorem keeps_releaseHeld (s : State) (d : Decant) (hk : Keeps kr kl s0 s) : Keeps kr kl s0 (releaseHeld s d) := by
  unfold releaseHeld
  with_reducible repeat' first
    | assumption | apply keeps_resendPage | apply keeps_takeRequest | refine Keeps.foldl _ ?_ ?_
    | fail_if_no_progress (refine Keeps.made ?_ rfl rfl rfl rfl rfl) | intro _
    | (extract_lets +onlyGivenNames x; subst x) | split | fail_if_no_progress beta_reduce

end Sys2Proof.Machine
end

