-- ==== Sys2Proof/Laws/KeepsCipherOps.lean ====
section
/-! SUPPORT. What the operations of CipherOps.lean keep: one lemma for each, in the terms of `Keeps`. -/

set_option linter.unusedTactic false
set_option linter.unreachableTactic false

namespace Sys2Proof.Machine

variable {kr kl : Bool} {s0 : State}

theorem keeps_setSlot (s : State) (n : ℕ) (k : KeySlot) (hk : Keeps kr kl s0 s) : Keeps kr kl s0 (setSlot s n k) :=
    by
  unfold setSlot
  with_reducible repeat' first
    | assumption | fail_if_no_progress (refine Keeps.made ?_ rfl rfl rfl rfl rfl)
    | (extract_lets +onlyGivenNames x; subst x) | split | fail_if_no_progress beta_reduce

theorem keeps_updPipe (s : State) (e : ℕ) (f : Pipe → Pipe) (hk : Keeps kr kl s0 s) : Keeps kr kl s0 (updPipe s e f)
    := by
  unfold updPipe
  with_reducible repeat' first
    | assumption | fail_if_no_progress (refine Keeps.made ?_ rfl rfl rfl rfl rfl)
    | (extract_lets +onlyGivenNames x; subst x) | split | fail_if_no_progress beta_reduce

theorem keeps_freePipe (s : State) (n : ℕ) (hk : Keeps kr kl s0 s) : Keeps kr kl s0 (freePipe s n) := by
  unfold freePipe
  with_reducible repeat' first
    | assumption | apply keeps_updChn | apply keeps_updPipe
    | fail_if_no_progress (refine Keeps.made ?_ rfl rfl rfl rfl rfl) | (extract_lets +onlyGivenNames x; subst x)
    | split | fail_if_no_progress beta_reduce

theorem keeps_loadSlot (s : State) (slot : ℕ) (aes256 : Bool) (key1 key2 : BitVec 256) (salt : ℕ) (hk : Keeps kr kl
    s0 s) : Keeps kr kl s0 (loadSlot s slot aes256 key1 key2 salt) := by
  unfold loadSlot
  with_reducible repeat' first
    | assumption | apply keeps_setSlot | (extract_lets +onlyGivenNames x; subst x) | split
    | fail_if_no_progress beta_reduce

theorem keeps_scrubSlot (s : State) (slot : ℕ) (hk : Keeps kr kl s0 s) : Keeps kr kl s0 (scrubSlot s slot) := by
  unfold scrubSlot
  with_reducible repeat' first
    | assumption | apply keeps_setSlot | (extract_lets +onlyGivenNames x; subst x) | split
    | fail_if_no_progress beta_reduce

theorem keeps_noteCommit (s : State) (slot result : ℕ) (mbx : Option Mbx) (hk : Keeps kr kl s0 s) : Keeps kr kl s0
    (noteCommit s slot result mbx) := by
  unfold noteCommit
  with_reducible repeat' first
    | assumption | fail_if_no_progress (refine Keeps.made ?_ rfl rfl rfl rfl rfl)
    | (extract_lets +onlyGivenNames x; subst x) | split | fail_if_no_progress beta_reduce

theorem keeps_commitScrub (s : State) (slot : ℕ) (mbx : Option Mbx) (hk : Keeps kr kl s0 s) : Keeps kr kl s0
    (commitScrub s slot mbx) := by
  unfold commitScrub
  with_reducible repeat' first
    | assumption | apply keeps_noteCommit | apply keeps_scrubSlot | (extract_lets +onlyGivenNames x; subst x) | split
    | fail_if_no_progress beta_reduce

theorem keeps_cipherFault (s : State) (e n zone : ℕ) (hk : Keeps kr kl s0 s) : Keeps kr kl s0 (cipherFault s e n
    zone) := by
  unfold cipherFault
  with_reducible repeat' first
    | assumption | apply keeps_updPipe | apply keeps_faultAt | apply keeps_issueStamp | apply keeps_logAdd
    | apply Keeps2.snd | refine Keeps2.eq (by assumption) ?_
    | fail_if_no_progress (refine Keeps.made ?_ rfl rfl rfl rfl rfl) | (extract_lets +onlyGivenNames x; subst x)
    | split | fail_if_no_progress beta_reduce | apply Keeps2.mk

theorem keeps_commitLoad (s : State) (slot : ℕ) (aes256 : Bool) (key1 key2 : BitVec 256) (salt : ℕ) (mbx : Option
    Mbx) (hk : Keeps kr kl s0 s) : Keeps kr kl s0 (commitLoad s slot aes256 key1 key2 salt mbx) := by
  unfold commitLoad
  with_reducible repeat' first
    | assumption | apply keeps_noteCommit | apply keeps_loadSlot | (extract_lets +onlyGivenNames x; subst x) | split
    | fail_if_no_progress beta_reduce

end Sys2Proof.Machine
end

