-- ==== Sys2Proof/Laws/KeepsMoverOps.lean ====
section
/-! SUPPORT. What the operations of MoverOps.lean keep: one lemma for each, in the terms of `Keeps`. -/

set_option linter.unusedTactic false
set_option linter.unreachableTactic false

namespace Sys2Proof.Machine

variable {kr kl : Bool} {s0 : State}

theorem keeps_admitChn (s : State) (n : ℕ) (hk : Keeps kr kl s0 s) : Keeps kr kl s0 (admitChn s n) := by
  unfold admitChn
  with_reducible repeat' first
    | assumption | apply keeps_updChn | fail_if_no_progress (refine Keeps.made ?_ rfl rfl rfl rfl rfl)
    | (extract_lets +onlyGivenNames x; subst x) | split | fail_if_no_progress beta_reduce

theorem keeps_retireChn (s : State) (n : ℕ) (hk : Keeps kr kl s0 s) : Keeps kr kl s0 (retireChn s n) := by
  unfold retireChn
  with_reducible repeat' first
    | assumption | apply keeps_updChn | apply keeps_admitChn
    | fail_if_no_progress (refine Keeps.made ?_ rfl rfl rfl rfl rfl) | (extract_lets +onlyGivenNames x; subst x)
    | split | fail_if_no_progress beta_reduce

theorem keeps_emitWrite (s : State) (n : ℕ) (d : Desc) (a : ℕ) (bs : List Byte) (hk : Keeps kr kl s0 s) : Keeps kr
    kl s0 (emitWrite s n d a bs) := by
  unfold emitWrite
  with_reducible repeat' first
    | assumption | apply keeps_sendFlit | (extract_lets +onlyGivenNames x; subst x) | split
    | fail_if_no_progress beta_reduce

theorem keeps_emitAt (n : ℕ) (d : Desc) (a2 : ℕ) (a3 : State) (a4 : ℕ) (a5 : List Byte) (hk : Keeps kr kl s0 a3) :
    Keeps kr kl s0 (emitAt n d a2 a3 a4 a5) := by
  induction a2 generalizing a3 a4 a5 with
  | zero =>
    unfold emitAt
    with_reducible repeat' first
      | assumption | apply keeps_emitWrite | (extract_lets +onlyGivenNames x; subst x) | split
      | fail_if_no_progress beta_reduce
  | succ n1  ih =>
    unfold emitAt
    with_reducible repeat' first
      | assumption | apply ih | apply keeps_emitWrite | (extract_lets +onlyGivenNames x; subst x) | split
      | fail_if_no_progress beta_reduce

theorem keeps_issueOut (s : State) (n : ℕ) (d : Desc) (b : Beat) (out : List Byte) (hk : Keeps kr kl s0 s) : Keeps
    kr kl s0 (issueOut s n d b out) := by
  unfold issueOut
  with_reducible repeat' first
    | assumption | apply keeps_emitAt | apply keeps_updChn | (extract_lets +onlyGivenNames x; subst x) | split
    | fail_if_no_progress beta_reduce

theorem keeps_closeStream (s : State) (n : ℕ) (hk : Keeps kr kl s0 s) : Keeps kr kl s0 (closeStream s n) := by
  unfold closeStream
  with_reducible repeat' first
    | assumption | apply keeps_updChn | (extract_lets +onlyGivenNames x; subst x) | split
    | fail_if_no_progress beta_reduce

theorem keeps_failChn (s : State) (n k code detail : ℕ) (addr : Word) (write : Bool) (xcode : ℕ) (hk : Keeps kr kl
    s0 s) : Keeps kr kl s0 (failChn s n k code detail addr write xcode) := by
  unfold failChn
  with_reducible repeat' first
    | assumption | apply keeps_updChn | (extract_lets +onlyGivenNames x; subst x) | split
    | fail_if_no_progress beta_reduce

theorem keeps_streamFail (s : State) (n xcode : ℕ) (hk : Keeps kr kl s0 s) : Keeps kr kl s0 (streamFail s n xcode)
    := by
  unfold streamFail
  with_reducible repeat' first
    | assumption | apply keeps_failChn | apply keeps_updChn | (extract_lets +onlyGivenNames x; subst x) | split
    | fail_if_no_progress beta_reduce

theorem keeps_readExtents (s : State) (zone : ℕ) (es : List (ℕ × ℕ)) (hk : Keeps kr kl s0 s) : Keeps2 kr kl s0
    (readExtents s zone es) := by
  unfold readExtents
  with_reducible repeat' first
    | assumption | apply keeps_engRead | apply Keeps2.snd | refine Keeps.foldl _ ?_ ?_ | refine Keeps2.foldl _ ?_ ?_
    | refine Keeps2.eq (by assumption) ?_ | exact repKeeps_rep | intro _ | (extract_lets +onlyGivenNames x; subst x)
    | split | fail_if_no_progress beta_reduce | apply Keeps2.mk

theorem keeps_putRecord (s : State) (n state : ℕ) (stamp : Word) (hk : Keeps kr kl s0 s) : Keeps kr kl s0 (putRecord
    s n state stamp) := by
  unfold putRecord
  with_reducible repeat' first
    | assumption | apply keeps_readExtents | apply keeps_updChn | apply keeps_engPutWords | apply Keeps2.snd
    | refine Keeps2.eq (by assumption) ?_ | exact repKeeps_rep | (extract_lets +onlyGivenNames x; subst x) | split
    | fail_if_no_progress beta_reduce | apply Keeps2.mk

theorem keeps_streamFull (s : State) (n left : ℕ) (hk : Keeps kr kl s0 s) : Keeps kr kl s0 (streamFull s n left) :=
    by
  unfold streamFull
  with_reducible repeat' first
    | assumption | apply keeps_failChn | apply keeps_updChn | apply keeps_putRecord
    | (extract_lets +onlyGivenNames x; subst x) | split | fail_if_no_progress beta_reduce

theorem keeps_decompressBeat (s : State) (n : ℕ) (d : Desc) (b : Beat) (bs : List Byte) (st : LzStream) (hk : Keeps
    kr kl s0 s) : Keeps kr kl s0 (decompressBeat s n d b bs st) := by
  unfold decompressBeat
  with_reducible repeat' first
    | assumption | apply keeps_updChn | apply keeps_issueOut | apply keeps_closeStream | apply keeps_streamFail
    | apply keeps_updEng | apply keeps_streamFull | apply keeps_putRecord | intro _
    | (extract_lets +onlyGivenNames x; subst x) | split | fail_if_no_progress beta_reduce

theorem keeps_resumeChn (s : State) (n : ℕ) (hk : Keeps kr kl s0 s) : Keeps kr kl s0 (resumeChn s n) := by
  unfold resumeChn
  with_reducible repeat' first
    | assumption | apply keeps_updChn | fail_if_no_progress (refine Keeps.made ?_ rfl rfl rfl rfl rfl)
    | (extract_lets +onlyGivenNames x; subst x) | split | fail_if_no_progress beta_reduce

theorem keeps_storeAt (s : State) (zone : ℕ) (stamp : Word) (a3 : ℕ) (a4 : Chn) (a5 : Desc) (a6 : ℕ) (a7 : List
    Byte) (hk : Keeps kr kl s0 s) : Keeps2 kr kl s0 (storeAt s zone stamp a3 a4 a5 a6 a7) := by
  induction a3 generalizing s a4 a5 a6 a7 with
  | zero =>
    unfold storeAt
    with_reducible repeat' first
      | assumption | apply keeps_engWrite | apply Keeps2.snd | refine Keeps2.eq (by assumption) ?_ | exact repKeeps_rep
      | (extract_lets +onlyGivenNames x; subst x) | split | fail_if_no_progress beta_reduce | apply Keeps2.mk
  | succ n1  ih =>
    unfold storeAt
    with_reducible repeat' first
      | assumption | apply ih | apply keeps_engWrite | apply Keeps2.snd | refine Keeps2.eq (by assumption) ?_
      | exact repKeeps_rep | (extract_lets +onlyGivenNames x; subst x) | split | fail_if_no_progress beta_reduce
      | apply Keeps2.mk

theorem keeps_cipherBeat (s : State) (n : ℕ) (d : Desc) (b : Beat) (bs : List Byte) (hk : Keeps kr kl s0 s) : Keeps
    kr kl s0 (cipherBeat s n d b bs) := by
  unfold cipherBeat
  with_reducible repeat' first
    | assumption | apply keeps_updChn | apply keeps_failChn | apply keeps_issueOut
    | (extract_lets +onlyGivenNames x; subst x) | split | fail_if_no_progress beta_reduce

theorem keeps_encryptOut (s : State) (n : ℕ) (out : List Byte) (hk : Keeps kr kl s0 s) : Keeps2 kr kl s0 (encryptOut
    s n out) := by
  unfold encryptOut
  with_reducible repeat' first
    | assumption | apply keeps_updChn | apply Keeps2.snd | refine Keeps2.eq (by assumption) ?_
    | (extract_lets +onlyGivenNames x; subst x) | split | fail_if_no_progress beta_reduce | apply Keeps2.mk

theorem keeps_issuePlain (s : State) (n : ℕ) (d : Desc) (b : Beat) (bs : List Byte) (hk : Keeps kr kl s0 s) : Keeps
    kr kl s0 (issuePlain s n d b bs) := by
  unfold issuePlain
  with_reducible repeat' first
    | assumption | apply keeps_emitWrite | apply keeps_updChn | (extract_lets +onlyGivenNames x; subst x) | split
    | fail_if_no_progress beta_reduce

theorem keeps_dropEngines (s : State) (n : ℕ) (hk : Keeps kr kl s0 s) : Keeps kr kl s0 (dropEngines s n) := by
  unfold dropEngines
  with_reducible repeat' first
    | assumption | apply keeps_endJob | apply keeps_freePipe | apply keeps_updChn
    | (extract_lets +onlyGivenNames x; subst x) | split | fail_if_no_progress beta_reduce

theorem keeps_writeBack (s : State) (n status code : ℕ) (hk : Keeps kr kl s0 s) : Keeps kr kl s0 (writeBack s n
    status code) := by
  unfold writeBack
  with_reducible repeat' first
    | assumption | apply keeps_issueStamp | apply keeps_dropEngines | apply keeps_engPutWords | apply keeps_updChn
    | apply Keeps2.snd | refine Keeps2.eq (by assumption) ?_ | exact repKeeps_rep
    | (extract_lets +onlyGivenNames x; subst x) | split | fail_if_no_progress beta_reduce | apply Keeps2.mk

theorem keeps_endStream (s : State) (n : ℕ) (d : Desc) (code : ℕ) (hk : Keeps kr kl s0 s) : Keeps kr kl s0
    (endStream s n d code) := by
  unfold endStream
  with_reducible repeat' first
    | assumption | apply keeps_updChn | apply keeps_putRecord | (extract_lets +onlyGivenNames x; subst x) | split
    | fail_if_no_progress beta_reduce

theorem keeps_flushRead (s : State) (n : ℕ) (d : Desc) (hk : Keeps kr kl s0 s) : Keeps kr kl s0 (flushRead s n d) :=
    by
  unfold flushRead
  with_reducible repeat' first
    | assumption | apply keeps_updChn | apply keeps_sendFlit | (extract_lets +onlyGivenNames x; subst x) | split
    | fail_if_no_progress beta_reduce

theorem keeps_tryWriteBack (s : State) (n : ℕ) (hk : Keeps kr kl s0 s) : Keeps kr kl s0 (tryWriteBack s n) := by
  unfold tryWriteBack
  with_reducible repeat' first
    | assumption | apply keeps_writeBack | apply keeps_endStream | apply keeps_flushRead | apply keeps_updChn
    | (extract_lets +onlyGivenNames x; subst x) | split | fail_if_no_progress beta_reduce

theorem keeps_feedEnd (s : State) (n : ℕ) (d : Desc) (hk : Keeps kr kl s0 s) : Keeps kr kl s0 (feedEnd s n d) := by
  unfold feedEnd
  with_reducible repeat' first
    | assumption | apply keeps_updChn | (extract_lets +onlyGivenNames x; subst x) | split
    | fail_if_no_progress beta_reduce

theorem keeps_askEngines (s : State) (n : ℕ) (d : Desc) (hk : Keeps kr kl s0 s) : Keeps kr kl s0 (askEngines s n d)
    := by
  unfold askEngines
  with_reducible repeat' first
    | assumption | apply keeps_updChn | apply keeps_feedEnd
    | fail_if_no_progress (refine Keeps.made ?_ rfl rfl rfl rfl rfl) | (extract_lets +onlyGivenNames x; subst x)
    | split | fail_if_no_progress beta_reduce

theorem keeps_beginDesc (s : State) (n : ℕ) (d : Desc) (hk : Keeps kr kl s0 s) : Keeps kr kl s0 (beginDesc s n d) :=
    by
  unfold beginDesc
  with_reducible repeat' first
    | assumption | apply keeps_updChn | apply keeps_writeBack | apply keeps_tryWriteBack | apply keeps_failChn
    | apply keeps_askEngines | (extract_lets +onlyGivenNames x; subst x) | split | fail_if_no_progress beta_reduce

theorem keeps_yieldJob (s : State) (n : ℕ) (hk : Keeps kr kl s0 s) : Keeps kr kl s0 (yieldJob s n) := by
  unfold yieldJob
  with_reducible repeat' first
    | assumption | apply keeps_putRecord | apply keeps_dropEngines
    | fail_if_no_progress (refine Keeps.made ?_ rfl rfl rfl rfl rfl) | (extract_lets +onlyGivenNames x; subst x)
    | split | fail_if_no_progress beta_reduce

theorem keeps_compressBeat (s : State) (n : ℕ) (d : Desc) (b : Beat) (bs : List Byte) (st : LzStream) (hk : Keeps kr
    kl s0 s) : Keeps kr kl s0 (compressBeat s n d b bs st) := by
  unfold compressBeat
  with_reducible repeat' first
    | assumption | apply keeps_encryptOut | apply keeps_updChn | apply keeps_issueOut | apply keeps_streamFull
    | apply keeps_closeStream | apply Keeps2.snd | refine Keeps2.eq (by assumption) ?_
    | (extract_lets +onlyGivenNames x; subst x) | split | fail_if_no_progress beta_reduce | apply Keeps2.mk

theorem keeps_advanceChn (a0 : ℕ) (a1 : State) (a2 : ℕ) (hk : Keeps kr kl s0 a1) : Keeps kr kl s0 (advanceChn a0 a1
    a2) := by
  induction a0 generalizing a1 a2 with
  | zero =>
    unfold advanceChn
    with_reducible repeat' first
      | assumption | apply keeps_cipherBeat | apply keeps_issuePlain | (extract_lets +onlyGivenNames x; subst x)
      | split | fail_if_no_progress beta_reduce
  | succ n1  ih =>
    unfold advanceChn
    with_reducible repeat' first
      | assumption | apply ih | apply keeps_cipherBeat | apply keeps_issuePlain
      | (extract_lets +onlyGivenNames x; subst x) | split | fail_if_no_progress beta_reduce

theorem keeps_readAnswer (s : State) (pcie : Bool) (a n zone : ℕ) (res : ReadResult) (hk : Keeps kr kl s0 s) :
    Keeps2 kr kl s0 (readAnswer s pcie a n zone res) := by
  unfold readAnswer
  with_reducible repeat' first
    | assumption | apply keeps_engRead | apply Keeps2.snd | refine Keeps2.eq (by assumption) ?_ | exact repKeeps_rep
    | (extract_lets +onlyGivenNames x; subst x) | split | fail_if_no_progress beta_reduce | apply Keeps2.mk

end Sys2Proof.Machine
end

