-- ==== Sys2Proof/Laws/KeepsMover.lean ====
section
/-! SUPPORT. What the operations of Mover.lean keep: one lemma for each, in the terms of `Keeps`. -/

set_option linter.unusedTactic false
set_option linter.unreachableTactic false

namespace Sys2Proof.Machine

variable {kr kl : Bool} {s0 : State}

theorem keeps_writeChcfg (s : State) (q : IoReq) (n : ℕ) (v : Word) (hk : Keeps kr kl s0 s) : Keeps kr kl s0
    (writeChcfg s q n v) := by
  unfold writeChcfg
  with_reducible repeat' first
    | assumption | apply keeps_discard | apply keeps_updChn | (extract_lets +onlyGivenNames x; subst x) | split
    | fail_if_no_progress beta_reduce

theorem keeps_execCmpChcfgDiscard (q : IoReq) (n : ℕ) (v : Word) (s : State) {t : State} (hk : Keeps kr kl s0 s) (e
    : execCmpChcfgDiscard q n v s = .next t) : Keeps kr kl s0 t := by
  unfold execCmpChcfgDiscard at e
  injection e with e
  subst e
  with_reducible repeat' first
    | assumption | apply keeps_mainReg | apply keeps_writeChcfg | (extract_lets +onlyGivenNames x; subst x) | split
    | fail_if_no_progress beta_reduce

theorem keeps_postHalt (s : State) (n : ℕ) (hk : Keeps kr kl s0 s) : Keeps kr kl s0 (postHalt s n) := by
  unfold postHalt
  with_reducible repeat' first
    | assumption | apply keeps_issueStamp | apply keeps_postEntry | apply Keeps2.snd
    | refine Keeps2.eq (by assumption) ?_ | exact repKeeps_rep | (extract_lets +onlyGivenNames x; subst x) | split
    | fail_if_no_progress beta_reduce | apply Keeps2.mk

theorem keeps_lateFail (s : State) (n beat code det : ℕ) (addr : Word) (hk : Keeps kr kl s0 s) : Keeps kr kl s0
    (lateFail s n beat code det addr) := by
  unfold lateFail
  with_reducible repeat' first
    | assumption | apply keeps_updChn | apply keeps_postHalt | (extract_lets +onlyGivenNames x; subst x) | split
    | fail_if_no_progress beta_reduce

theorem keeps_execDescriptorFetched (n : ℕ) (words : List Word) (res : ReadResult) (s : State) {t : State} (hk :
    Keeps kr kl s0 s) (e : execDescriptorFetched n words res s = .next t) : Keeps kr kl s0 t := by
  unfold execDescriptorFetched at e
  injection e with e
  subst e
  with_reducible repeat' first
    | assumption | apply keeps_readAnswer | apply keeps_beginDesc | apply keeps_updChn | apply keeps_postHalt
    | apply Keeps2.snd | refine Keeps2.eq (by assumption) ?_ | (extract_lets +onlyGivenNames x; subst x) | split
    | fail_if_no_progress beta_reduce | apply Keeps2.mk

theorem keeps_landBeat (s : State) (n : ℕ) (d : Desc) (b : Beat) (hk : Keeps kr kl s0 s) : Keeps2 kr kl s0 (landBeat
    s n d b) := by
  unfold landBeat
  with_reducible repeat' first
    | assumption | apply keeps_storeAt | apply keeps_engWrite | apply Keeps2.snd | refine Keeps2.eq (by assumption) ?_
    | exact repKeeps_rep | (extract_lets +onlyGivenNames x; subst x) | split | fail_if_no_progress beta_reduce
    | apply Keeps2.mk

theorem keeps_writeFails (s : State) (n beat code det : ℕ) (addr : Word) (hk : Keeps kr kl s0 s) : Keeps kr kl s0
    (writeFails s n beat code det addr) := by
  unfold writeFails
  with_reducible repeat' first
    | assumption | apply keeps_lateFail | apply keeps_tryWriteBack | apply keeps_updChn | apply keeps_failChn
    | (extract_lets +onlyGivenNames x; subst x) | split | fail_if_no_progress beta_reduce

theorem keeps_execMoverWriteConfirm (n beat : ℕ) (s : State) {t : State} (hk : Keeps kr kl s0 s) (e :
    execMoverWriteConfirm n beat s = .next t) : Keeps kr kl s0 t := by
  unfold execMoverWriteConfirm at e
  injection e with e
  subst e
  with_reducible repeat' first
    | assumption | apply keeps_landBeat | apply keeps_updChn | apply keeps_tryWriteBack | apply keeps_writeFails
    | apply Keeps2.snd | refine Keeps2.eq (by assumption) ?_
    | fail_if_no_progress (refine Keeps.made ?_ rfl rfl rfl rfl rfl) | (extract_lets +onlyGivenNames x; subst x)
    | split | fail_if_no_progress beta_reduce | apply Keeps2.mk

theorem keeps_clearHalted (s : State) (q : IoReq) (n : ℕ) (hk : Keeps kr kl s0 s) : Keeps kr kl s0 (clearHalted s q
    n) := by
  unfold clearHalted
  with_reducible repeat' first
    | assumption | apply keeps_discard | apply keeps_updChn | (extract_lets +onlyGivenNames x; subst x) | split
    | fail_if_no_progress beta_reduce

theorem keeps_writeTail (s : State) (q : IoReq) (n : ℕ) (v : Word) (hk : Keeps kr kl s0 s) : Keeps kr kl s0
    (writeTail s q n v) := by
  unfold writeTail
  with_reducible repeat' first
    | assumption | apply keeps_discard | apply keeps_updChn | apply keeps_admitChn
    | (extract_lets +onlyGivenNames x; subst x) | split | fail_if_no_progress beta_reduce

theorem keeps_execChnTailWrite (q : IoReq) (n : ℕ) (v : Word) (s : State) {t : State} (hk : Keeps kr kl s0 s) (e :
    execChnTailWrite q n v s = .next t) : Keeps kr kl s0 t := by
  unfold execChnTailWrite at e
  injection e with e
  subst e
  with_reducible repeat' first
    | assumption | apply keeps_mainReg | apply keeps_writeTail | (extract_lets +onlyGivenNames x; subst x) | split
    | fail_if_no_progress beta_reduce

theorem keeps_afterStop (s : State) (n : ℕ) (hk : Keeps kr kl s0 s) : Keeps kr kl s0 (afterStop s n) := by
  unfold afterStop
  with_reducible repeat' first
    | assumption | apply keeps_updChn | apply keeps_resumeChn | (extract_lets +onlyGivenNames x; subst x) | split
    | fail_if_no_progress beta_reduce

theorem keeps_writeChnZone (s : State) (q : IoReq) (n : ℕ) (v : Word) (hk : Keeps kr kl s0 s) : Keeps kr kl s0
    (writeChnZone s q n v) := by
  unfold writeChnZone
  with_reducible repeat' first
    | assumption | apply keeps_discard | apply keeps_afterStop | apply keeps_updChn | apply keeps_dropEngines
    | apply keeps_zoneEntry | apply Keeps2.snd | refine Keeps2.eq (by assumption) ?_ | exact repKeeps_rep
    | fail_if_no_progress (refine Keeps.made ?_ rfl rfl rfl rfl rfl) | (extract_lets +onlyGivenNames x; subst x)
    | split | fail_if_no_progress beta_reduce | apply Keeps2.mk

theorem keeps_execChnZoneEn (q : IoReq) (n : ℕ) (v : Word) (s : State) {t : State} (hk : Keeps kr kl s0 s) (e :
    execChnZoneEn q n v s = .next t) : Keeps kr kl s0 t := by
  unfold execChnZoneEn at e
  injection e with e
  subst e
  with_reducible repeat' first
    | assumption | apply keeps_mainReg | apply keeps_writeChnZone | (extract_lets +onlyGivenNames x; subst x) | split
    | fail_if_no_progress beta_reduce

theorem keeps_execCompressionBeat (n : ℕ) (verifyOk cipherOk : Bool) (s : State) {t : State} (hk : Keeps kr kl s0 s)
    (e : execCompressionBeat n verifyOk cipherOk s = .next t) : Keeps kr kl s0 t := by
  unfold execCompressionBeat at e
  injection e with e
  subst e
  with_reducible repeat' first
    | assumption | apply keeps_tryWriteBack | apply keeps_streamFail | apply keeps_verifyFail | apply keeps_cipherFault
    | apply keeps_compressBeat | apply keeps_decompressBeat | apply keeps_yieldJob
    | (extract_lets +onlyGivenNames x; subst x) | split | fail_if_no_progress beta_reduce

theorem keeps_writePause (s : State) (q : IoReq) (n : ℕ) (v : Word) (hk : Keeps kr kl s0 s) : Keeps kr kl s0
    (writePause s q n v) := by
  unfold writePause
  with_reducible repeat' first
    | assumption | apply keeps_discard | apply keeps_afterStop | apply keeps_updChn
    | (extract_lets +onlyGivenNames x; subst x) | split | fail_if_no_progress beta_reduce

theorem keeps_recordIntact (s : State) (n : ℕ) (hk : Keeps kr kl s0 s) : Keeps2 kr kl s0 (recordIntact s n) := by
  unfold recordIntact
  with_reducible repeat' first
    | assumption | apply keeps_engWords | apply Keeps2.snd | refine Keeps2.eq (by assumption) ?_ | exact repKeeps_rep
    | (extract_lets +onlyGivenNames x; subst x) | split | fail_if_no_progress beta_reduce | apply Keeps2.mk

theorem keeps_anchorIntact (s : State) (n : ℕ) (st : LzStream) (hk : Keeps kr kl s0 s) : Keeps2 kr kl s0
    (anchorIntact s n st) := by
  unfold anchorIntact
  with_reducible repeat' first
    | assumption | apply keeps_readExtents | apply keeps_engWords | apply Keeps2.snd
    | refine Keeps2.eq (by assumption) ?_ | exact repKeeps_rep | (extract_lets +onlyGivenNames x; subst x) | split
    | fail_if_no_progress beta_reduce | apply Keeps2.mk

theorem keeps_execKeyCommitDone (s : State) {t : State} (hk : Keeps kr kl s0 s) (e : execKeyCommitDone s = .next t)
    : Keeps kr kl s0 t := by
  unfold execKeyCommitDone at e
  injection e with e
  subst e
  with_reducible repeat' first
    | assumption | apply keeps_setOutcomeOpt | fail_if_no_progress (refine Keeps.made ?_ rfl rfl rfl rfl rfl)
    | (extract_lets +onlyGivenNames x; subst x) | split | fail_if_no_progress beta_reduce

theorem keeps_execAnchorRebuildDone (n : ℕ) (recordOk anchorOk : Bool) (s : State) {t : State} (hk : Keeps kr kl s0
    s) (e : execAnchorRebuildDone n recordOk anchorOk s = .next t) : Keeps kr kl s0 t := by
  unfold execAnchorRebuildDone at e
  injection e with e
  subst e
  with_reducible repeat' first
    | assumption | apply keeps_updEng | apply keeps_recordIntact | apply keeps_tryWriteBack | apply keeps_streamFail
    | apply keeps_anchorIntact | apply keeps_updChn | apply Keeps2.snd | refine Keeps2.eq (by assumption) ?_
    | (extract_lets +onlyGivenNames x; subst x) | split | fail_if_no_progress beta_reduce | apply Keeps2.mk

theorem keeps_writeKcmt (s : State) (q : IoReq) (v : Word) (hk : Keeps kr kl s0 s) : Keeps kr kl s0 (writeKcmt s q
    v) := by
  unfold writeKcmt
  with_reducible repeat' first
    | assumption | apply keeps_rwbIgnored | apply keeps_discard | apply keeps_commitLoad | apply keeps_commitScrub
    | (extract_lets +onlyGivenNames x; subst x) | split | fail_if_no_progress beta_reduce

theorem keeps_busError (s : State) (n beat : ℕ) (write : Bool) (code detail : ℕ) (hk : Keeps kr kl s0 s) : Keeps kr
    kl s0 (busError s n beat write code detail) := by
  unfold busError
  with_reducible repeat' first
    | assumption | apply keeps_cipherFault | apply keeps_updChn | apply keeps_tryWriteBack | apply keeps_failChn
    | apply keeps_writeFails | (extract_lets +onlyGivenNames x; subst x) | split | fail_if_no_progress beta_reduce

theorem keeps_readReturns (s : State) (n beat : ℕ) (res : ReadResult) (hk : Keeps kr kl s0 s) : Keeps kr kl s0
    (readReturns s n beat res) := by
  unfold readReturns
  with_reducible repeat' first
    | assumption | apply keeps_tryWriteBack | apply keeps_updChn | apply keeps_readAnswer | apply keeps_advanceChn
    | apply keeps_failChn | apply Keeps2.snd | refine Keeps2.eq (by assumption) ?_
    | (extract_lets +onlyGivenNames x; subst x) | split | fail_if_no_progress beta_reduce | apply Keeps2.mk

theorem keeps_execMoverReadData (n beat : ℕ) (res : ReadResult) (s : State) {t : State} (hk : Keeps kr kl s0 s) (e :
    execMoverReadData n beat res s = .next t) : Keeps kr kl s0 t := by
  unfold execMoverReadData at e
  injection e with e
  subst e
  with_reducible repeat' first
    | assumption | apply keeps_readReturns | (extract_lets +onlyGivenNames x; subst x) | split
    | fail_if_no_progress beta_reduce

theorem keeps_writeCmpCtl (s : State) (q : IoReq) (v : Word) (hk : Keeps kr kl s0 s) : Keeps kr kl s0 (writeCmpCtl s
    q v) := by
  unfold writeCmpCtl
  with_reducible repeat' first
    | assumption | apply keeps_discard | apply keeps_gateField | apply Keeps2.snd | refine Keeps2.eq (by assumption) ?_
    | fail_if_no_progress (refine Keeps.made ?_ rfl rfl rfl rfl rfl) | (extract_lets +onlyGivenNames x; subst x)
    | split | fail_if_no_progress beta_reduce | apply Keeps2.mk

theorem keeps_writeCipCtl (s : State) (q : IoReq) (v : Word) (hk : Keeps kr kl s0 s) : Keeps kr kl s0 (writeCipCtl s
    q v) := by
  unfold writeCipCtl
  with_reducible repeat' first
    | assumption | apply keeps_discard | apply keeps_gateField | apply Keeps2.snd | refine Keeps2.eq (by assumption) ?_
    | fail_if_no_progress (refine Keeps.made ?_ rfl rfl rfl rfl rfl) | (extract_lets +onlyGivenNames x; subst x)
    | split | fail_if_no_progress beta_reduce | apply Keeps2.mk

theorem keeps_execCipCtlOff (q : IoReq) (v : Word) (s : State) {t : State} (hk : Keeps kr kl s0 s) (e :
    execCipCtlOff q v s = .next t) : Keeps kr kl s0 t := by
  unfold execCipCtlOff at e
  injection e with e
  subst e
  with_reducible repeat' first
    | assumption | apply keeps_mainReg | apply keeps_writeCipCtl | (extract_lets +onlyGivenNames x; subst x) | split
    | fail_if_no_progress beta_reduce

theorem keeps_execChnCtlPause (q : IoReq) (n : ℕ) (v : Word) (s : State) {t : State} (hk : Keeps kr kl s0 s) (e :
    execChnCtlPause q n v s = .next t) : Keeps kr kl s0 t := by
  unfold execChnCtlPause at e
  injection e with e
  subst e
  with_reducible repeat' first
    | assumption | apply keeps_mainReg | apply keeps_writePause | (extract_lets +onlyGivenNames x; subst x) | split
    | fail_if_no_progress beta_reduce

theorem keeps_issueRead (s : State) (n : ℕ) (hk : Keeps kr kl s0 s) : Keeps kr kl s0 (issueRead s n) := by
  unfold issueRead
  with_reducible repeat' first
    | assumption | apply keeps_tryWriteBack | apply keeps_failChn | apply keeps_updChn | apply keeps_sendFlit
    | refine Keeps.foldl _ ?_ ?_ | refine Keeps2.foldl _ ?_ ?_ | intro _ | (extract_lets +onlyGivenNames x; subst x)
    | split | fail_if_no_progress beta_reduce

theorem keeps_execMoverBeatIssue (n : ℕ) (s : State) {t : State} (hk : Keeps kr kl s0 s) (e : execMoverBeatIssue n s
    = .next t) : Keeps kr kl s0 t := by
  unfold execMoverBeatIssue at e
  injection e with e
  subst e
  with_reducible repeat' first
    | assumption | apply keeps_issueRead | (extract_lets +onlyGivenNames x; subst x) | split
    | fail_if_no_progress beta_reduce

theorem keeps_execCmpCtlEngOff (q : IoReq) (v : Word) (s : State) {t : State} (hk : Keeps kr kl s0 s) (e :
    execCmpCtlEngOff q v s = .next t) : Keeps kr kl s0 t := by
  unfold execCmpCtlEngOff at e
  injection e with e
  subst e
  with_reducible repeat' first
    | assumption | apply keeps_mainReg | apply keeps_writeCmpCtl | (extract_lets +onlyGivenNames x; subst x) | split
    | fail_if_no_progress beta_reduce

theorem keeps_execChnStatHaltedClear (q : IoReq) (n : ℕ) (s : State) {t : State} (hk : Keeps kr kl s0 s) (e :
    execChnStatHaltedClear q n s = .next t) : Keeps kr kl s0 t := by
  unfold execChnStatHaltedClear at e
  injection e with e
  subst e
  with_reducible repeat' first
    | assumption | apply keeps_mainReg | apply keeps_clearHalted | (extract_lets +onlyGivenNames x; subst x) | split
    | fail_if_no_progress beta_reduce

theorem keeps_execChnZoneHold (q : IoReq) (n : ℕ) (v : Word) (s : State) {t : State} (hk : Keeps kr kl s0 s) (e :
    execChnZoneHold q n v s = .next t) : Keeps kr kl s0 t := by
  unfold execChnZoneHold at e
  injection e with e
  subst e
  with_reducible repeat' first
    | assumption | apply keeps_mainReg | apply keeps_writeChnZone | (extract_lets +onlyGivenNames x; subst x) | split
    | fail_if_no_progress beta_reduce

theorem keeps_execCipKcmtScrub (q : IoReq) (v : Word) (s : State) {t : State} (hk : Keeps kr kl s0 s) (e :
    execCipKcmtScrub q v s = .next t) : Keeps kr kl s0 t := by
  unfold execCipKcmtScrub at e
  injection e with e
  subst e
  with_reducible repeat' first
    | assumption | apply keeps_mainReg | apply keeps_writeKcmt | (extract_lets +onlyGivenNames x; subst x) | split
    | fail_if_no_progress beta_reduce

theorem keeps_execCipherYield (e : ℕ) (s : State) {t : State} (hk : Keeps kr kl s0 s) (e : execCipherYield e s =
    .next t) : Keeps kr kl s0 t := by
  unfold execCipherYield at e
  injection e with e
  subst e
  with_reducible repeat' first
    | assumption | apply keeps_yieldJob | apply keeps_freePipe | apply keeps_updPipe
    | fail_if_no_progress (refine Keeps.made ?_ rfl rfl rfl rfl rfl) | (extract_lets +onlyGivenNames x; subst x)
    | split | fail_if_no_progress beta_reduce

theorem keeps_execCipKcmtLoad (q : IoReq) (v : Word) (s : State) {t : State} (hk : Keeps kr kl s0 s) (e :
    execCipKcmtLoad q v s = .next t) : Keeps kr kl s0 t := by
  unfold execCipKcmtLoad at e
  injection e with e
  subst e
  with_reducible repeat' first
    | assumption | apply keeps_mainReg | apply keeps_writeKcmt | (extract_lets +onlyGivenNames x; subst x) | split
    | fail_if_no_progress beta_reduce

theorem keeps_execMoverBusError (n beat : ℕ) (write : Bool) (code detail : ℕ) (s : State) {t : State} (hk : Keeps kr
    kl s0 s) (e : execMoverBusError n beat write code detail s = .next t) : Keeps kr kl s0 t := by
  unfold execMoverBusError at e
  injection e with e
  subst e
  with_reducible repeat' first
    | assumption | apply keeps_busError | (extract_lets +onlyGivenNames x; subst x) | split
    | fail_if_no_progress beta_reduce

theorem keeps_pauseDone (s : State) (n : ℕ) (hk : Keeps kr kl s0 s) : Keeps kr kl s0 (pauseDone s n) := by
  unfold pauseDone
  with_reducible repeat' first
    | assumption | apply keeps_dropEngines | apply keeps_putRecord | apply keeps_freePipe | apply keeps_updChn
    | (extract_lets +onlyGivenNames x; subst x) | split | fail_if_no_progress beta_reduce

theorem keeps_execCipherPipelineAssign (s : State) {t : State} (hk : Keeps kr kl s0 s) (e : execCipherPipelineAssign
    s = .next t) : Keeps kr kl s0 t := by
  unfold execCipherPipelineAssign at e
  injection e with e
  subst e
  with_reducible repeat' first
    | assumption | apply keeps_updPipe | apply keeps_updChn
    | fail_if_no_progress (refine Keeps.made ?_ rfl rfl rfl rfl rfl) | (extract_lets +onlyGivenNames x; subst x)
    | split | fail_if_no_progress beta_reduce

end Sys2Proof.Machine
end

