-- ==== Sys2Proof/Laws/KeepsChannelOps.lean ====
section
/-! SUPPORT. What the operations of ChannelOps.lean keep: one lemma for each, in the terms of `Keeps`. -/

set_option linter.unusedTactic false
set_option linter.unreachableTactic false

namespace Sys2Proof.Machine

variable {kr kl : Bool} {s0 : State}

theorem keeps_putOp (s : State) (n : ℕ) (o : ChOp) (hk : Keeps kr kl s0 s) : Keeps kr kl s0 (putOp s n o) := by
  unfold putOp
  with_reducible repeat' first
    | assumption | fail_if_no_progress (refine Keeps.made ?_ rfl rfl rfl rfl rfl)
    | (extract_lets +onlyGivenNames x; subst x) | split | fail_if_no_progress beta_reduce

theorem keeps_sendChs (s : State) (op : FlitOp) (dev zone : ℕ) (stamp : Word) (ws : List Word) (hk : Keeps kr kl s0
    s) : Keeps kr kl s0 (sendChs s op dev zone stamp ws) := by
  unfold sendChs
  with_reducible repeat' first
    | assumption | apply keeps_send | (extract_lets +onlyGivenNames x; subst x) | split
    | fail_if_no_progress beta_reduce

theorem keeps_writeJournal (s : State) (n : ℕ) (await : Bool) (next : ℕ) (hk : Keeps kr kl s0 s) : Keeps kr kl s0
    (writeJournal s n await next) := by
  unfold writeJournal
  with_reducible repeat' first
    | assumption | apply keeps_putOp | apply keeps_sendChs | (extract_lets +onlyGivenNames x; subst x) | split
    | fail_if_no_progress beta_reduce

theorem keeps_landAll (s : State) (n : ℕ) (hk : Keeps kr kl s0 s) : Keeps kr kl s0 (landAll s n) := by
  unfold landAll
  with_reducible repeat' first
    | assumption | apply keeps_landBeat | apply keeps_updChn | apply Keeps2.snd | refine Keeps.foldl _ ?_ ?_
    | refine Keeps2.foldl _ ?_ ?_ | refine Keeps2.eq (by assumption) ?_ | intro _
    | (extract_lets +onlyGivenNames x; subst x) | split | fail_if_no_progress beta_reduce | apply Keeps2.mk

theorem keeps_releaseMover (s : State) (n : ℕ) (hk : Keeps kr kl s0 s) : Keeps kr kl s0 (releaseMover s n) := by
  unfold releaseMover
  with_reducible repeat' first
    | assumption | apply keeps_dropEngines | apply keeps_landAll | apply keeps_updChn | apply keeps_putOp
    | fail_if_no_progress (refine Keeps.made ?_ rfl rfl rfl rfl rfl) | (extract_lets +onlyGivenNames x; subst x)
    | split | fail_if_no_progress beta_reduce

theorem keeps_updOp (s : State) (n : ℕ) (f : ChOp → ChOp) (hk : Keeps kr kl s0 s) : Keeps kr kl s0 (updOp s n f) :=
    by
  unfold updOp
  with_reducible repeat' first
    | assumption | apply keeps_putOp | (extract_lets +onlyGivenNames x; subst x) | split
    | fail_if_no_progress beta_reduce

theorem keeps_putQueue (s : State) (k : ℕ) (q : PostQueue) (hk : Keeps kr kl s0 s) : Keeps kr kl s0 (putQueue s k q)
    := by
  unfold putQueue
  with_reducible repeat' first
    | assumption | fail_if_no_progress (refine Keeps.made ?_ rfl rfl rfl rfl rfl)
    | (extract_lets +onlyGivenNames x; subst x) | split | fail_if_no_progress beta_reduce

theorem keeps_assignSlots (k a1 : ℕ) (a2 : State) (hk : Keeps kr kl s0 a2) : Keeps kr kl s0 (assignSlots k a1 a2) :=
    by
  induction a1 generalizing a2 with
  | zero =>
    unfold assignSlots
    with_reducible repeat' first
      | assumption | apply keeps_putQueue | apply keeps_putOp | apply keeps_writeJournal
      | (extract_lets +onlyGivenNames x; subst x) | split | fail_if_no_progress beta_reduce
  | succ n1  ih =>
    unfold assignSlots
    with_reducible repeat' first
      | assumption | apply ih | apply keeps_putQueue | apply keeps_putOp | apply keeps_writeJournal
      | (extract_lets +onlyGivenNames x; subst x) | split | fail_if_no_progress beta_reduce

theorem keeps_activate (a0 : ℕ) (a1 : State) (hk : Keeps kr kl s0 a1) : Keeps kr kl s0 (activate a0 a1) := by
  induction a0 generalizing a1 with
  | zero =>
    unfold activate
    with_reducible repeat' first
      | assumption | apply keeps_putOp | apply keeps_updChn | refine Keeps.foldl _ ?_ ?_ | refine Keeps2.foldl _ ?_ ?_
      | intro _ | (extract_lets +onlyGivenNames x; subst x) | split | fail_if_no_progress beta_reduce
  | succ n1  ih =>
    unfold activate
    with_reducible repeat' first
      | assumption | apply ih | apply keeps_putOp | apply keeps_updChn | refine Keeps.foldl _ ?_ ?_
      | refine Keeps2.foldl _ ?_ ?_ | intro _ | (extract_lets +onlyGivenNames x; subst x) | split
      | fail_if_no_progress beta_reduce

theorem keeps_endOp (s : State) (n kind error : ℕ) (hk : Keeps kr kl s0 s) : Keeps kr kl s0 (endOp s n kind error)
    := by
  unfold endOp
  with_reducible repeat' first
    | assumption | apply keeps_releaseMover | apply keeps_issueStamp | apply keeps_setOutcomeOpt | apply keeps_updOp
    | apply keeps_activate | apply keeps_writeJournal | apply Keeps2.snd | refine Keeps2.eq (by assumption) ?_
    | fail_if_no_progress (refine Keeps.made ?_ rfl rfl rfl rfl rfl) | (extract_lets +onlyGivenNames x; subst x)
    | split | fail_if_no_progress beta_reduce | apply Keeps2.mk

theorem keeps_endOpStatus (s : State) (n error dev : ℕ) (hk : Keeps kr kl s0 s) : Keeps kr kl s0 (endOpStatus s n
    error dev) := by
  unfold endOpStatus
  with_reducible repeat' first
    | assumption | apply keeps_endOp | apply keeps_updOp | (extract_lets +onlyGivenNames x; subst x) | split
    | fail_if_no_progress beta_reduce

theorem keeps_startCommand (s : State) (n : ℕ) (o : ChOp) (hk : Keeps kr kl s0 s) : Keeps kr kl s0 (startCommand s n
    o) := by
  unfold startCommand
  with_reducible repeat' first
    | assumption | apply keeps_putOp | apply keeps_endOp | apply keeps_endOpStatus | apply keeps_nextFree
    | apply keeps_writeJournal | apply keeps_updOp | (extract_lets +onlyGivenNames x; subst x) | split
    | fail_if_no_progress beta_reduce

theorem keeps_startMove (s : State) (n op comp cipher count limit src dst : ℕ) (pieces : List (ℕ × ℕ × Bool))
    (scatter : Bool) (hk : Keeps kr kl s0 s) : Keeps kr kl s0 (startMove s n op comp cipher count limit src dst pieces
    scatter) := by
  unfold startMove
  with_reducible repeat' first
    | assumption | apply keeps_putOp | apply keeps_updChn | apply keeps_beginDesc | apply keeps_admitChn
    | (extract_lets +onlyGivenNames x; subst x) | split | fail_if_no_progress beta_reduce

theorem keeps_commandRecord (s : State) (n : ℕ) (abort : Bool) (code : ℕ) (hk : Keeps kr kl s0 s) : Keeps kr kl s0
    (commandRecord s n abort code) := by
  unfold commandRecord
  with_reducible repeat' first
    | assumption | apply keeps_sendFlit | (extract_lets +onlyGivenNames x; subst x) | split
    | fail_if_no_progress beta_reduce

theorem keeps_sendCommand (s : State) (n : ℕ) (hk : Keeps kr kl s0 s) : Keeps kr kl s0 (sendCommand s n) := by
  unfold sendCommand
  with_reducible repeat' first
    | assumption | apply keeps_updOp | apply keeps_commandRecord | (extract_lets +onlyGivenNames x; subst x) | split
    | fail_if_no_progress beta_reduce

theorem keeps_dataPhase (s : State) (n : ℕ) (hk : Keeps kr kl s0 s) : Keeps kr kl s0 (dataPhase s n) := by
  unfold dataPhase
  with_reducible repeat' first
    | assumption | apply keeps_startMove | apply keeps_sendCommand | refine Keeps.foldl _ ?_ ?_
    | refine Keeps2.foldl _ ?_ ?_ | intro _ | (extract_lets +onlyGivenNames x; subst x) | split
    | fail_if_no_progress beta_reduce

theorem keeps_sendAbort (s : State) (n : ℕ) (hk : Keeps kr kl s0 s) : Keeps kr kl s0 (sendAbort s n) := by
  unfold sendAbort
  with_reducible repeat' first
    | assumption | apply keeps_commandRecord | (extract_lets +onlyGivenNames x; subst x) | split
    | fail_if_no_progress beta_reduce

theorem keeps_tryUcodeLoad (s : State) (hk : Keeps kr kl s0 s) : Keeps kr kl s0 (tryUcodeLoad s) := by
  unfold tryUcodeLoad
  with_reducible repeat' first
    | assumption | apply keeps_setOutcome | refine Keeps.foldl _ ?_ ?_ | refine Keeps2.foldl _ ?_ ?_
    | fail_if_no_progress (refine Keeps.made ?_ rfl rfl rfl rfl rfl) | intro _
    | (extract_lets +onlyGivenNames x; subst x) | split | fail_if_no_progress beta_reduce

theorem keeps_completeCcw (s : State) (n : ℕ) (hk : Keeps kr kl s0 s) : Keeps kr kl s0 (completeCcw s n) := by
  unfold completeCcw
  with_reducible repeat' first
    | assumption | apply keeps_writeJournal | apply keeps_updOp | (extract_lets +onlyGivenNames x; subst x) | split
    | fail_if_no_progress beta_reduce

theorem keeps_uXop (s : State) (n w : ℕ) (o : ChOp) (a b imm : Word) (hk : Keeps kr kl s0 s) : Keeps2 kr kl s0 (uXop
    s n w o a b imm) := by
  unfold uXop
  with_reducible repeat' first
    | assumption | apply keeps_updOp | apply keeps_engRead | apply keeps_engWrite | apply keeps_startMove
    | apply keeps_commandRecord | apply keeps_tryUcodeLoad | apply keeps_completeCcw | apply keeps_endOp
    | apply Keeps2.snd | refine Keeps2.eq (by assumption) ?_ | exact repKeeps_rep
    | (extract_lets +onlyGivenNames x; subst x) | split | fail_if_no_progress beta_reduce | apply Keeps2.mk

theorem keeps_dropMirrors (s : State) (port : ℕ) (hk : Keeps kr kl s0 s) : Keeps kr kl s0 (dropMirrors s port) := by
  unfold dropMirrors
  with_reducible repeat' first
    | assumption | fail_if_no_progress (refine Keeps.made ?_ rfl rfl rfl rfl rfl)
    | (extract_lets +onlyGivenNames x; subst x) | split | fail_if_no_progress beta_reduce

theorem keeps_delOp (s : State) (n : ℕ) (hk : Keeps kr kl s0 s) : Keeps kr kl s0 (delOp s n) := by
  unfold delOp
  with_reducible repeat' first
    | assumption | fail_if_no_progress (refine Keeps.made ?_ rfl rfl rfl rfl rfl)
    | (extract_lets +onlyGivenNames x; subst x) | split | fail_if_no_progress beta_reduce

theorem keeps_readCcw (s : State) (zone : ℕ) (a : Word) (words : List Word) (i : ℕ) (res : ReadResult) (hk : Keeps
    kr kl s0 s) : Keeps2 kr kl s0 (readCcw s zone a words i res) := by
  unfold readCcw
  with_reducible repeat' first
    | assumption | apply keeps_readAnswer | apply Keeps2.snd | refine Keeps2.eq (by assumption) ?_
    | (extract_lets +onlyGivenNames x; subst x) | split | fail_if_no_progress beta_reduce | apply Keeps2.mk

theorem keeps_readChain (s : State) (zone : ℕ) (words : List Word) (res : ReadResult) (dropOk : Bool) (a5 : ℕ) (a6 :
    Word) (a7 : ℕ) (a8 : List (ℕ × ℕ × Bool)) (a9 : ℕ) (hk : Keeps kr kl s0 s) : Keeps2 kr kl s0 (readChain s zone words
    res dropOk a5 a6 a7 a8 a9) := by
  induction a5 generalizing s a6 a7 a8 a9 with
  | zero =>
    unfold readChain
    with_reducible repeat' first
      | assumption | apply keeps_readCcw | apply Keeps2.snd | refine Keeps2.eq (by assumption) ?_
      | (extract_lets +onlyGivenNames x; subst x) | split | fail_if_no_progress beta_reduce | apply Keeps2.mk
  | succ n1  ih =>
    unfold readChain
    with_reducible repeat' first
      | assumption | apply ih | apply keeps_readCcw | apply Keeps2.snd | refine Keeps2.eq (by assumption) ?_
      | (extract_lets +onlyGivenNames x; subst x) | split | fail_if_no_progress beta_reduce | apply Keeps2.mk

theorem keeps_microFault (s : State) (n : ℕ) (hk : Keeps kr kl s0 s) : Keeps kr kl s0 (microFault s n) := by
  unfold microFault
  with_reducible repeat' first
    | assumption | apply keeps_tryUcodeLoad | apply keeps_endOp | apply keeps_faultAt
    | (extract_lets +onlyGivenNames x; subst x) | split | fail_if_no_progress beta_reduce

theorem keeps_runMicro (a0 : ℕ) (a1 : State) (a2 : ℕ) (hk : Keeps kr kl s0 a1) : Keeps kr kl s0 (runMicro a0 a1 a2)
    := by
  induction a0 generalizing a1 a2 with
  | zero =>
    unfold runMicro
    with_reducible repeat' first
      | assumption | apply keeps_updOp | apply keeps_microFault | apply keeps_nextFree | apply keeps_uXop
      | apply keeps_putOp | apply Keeps2.snd | refine Keeps2.eq (by assumption) ?_
      | (extract_lets +onlyGivenNames x; subst x) | split | fail_if_no_progress beta_reduce | apply Keeps2.mk
  | succ n1  ih =>
    unfold runMicro
    with_reducible repeat' first
      | assumption | apply ih | apply keeps_updOp | apply keeps_microFault | apply keeps_nextFree | apply keeps_uXop
      | apply keeps_putOp | apply Keeps2.snd | refine Keeps2.eq (by assumption) ?_
      | (extract_lets +onlyGivenNames x; subst x) | split | fail_if_no_progress beta_reduce | apply Keeps2.mk

theorem keeps_enterMicro (s : State) (n : ℕ) (w0 w1 : Word) (hk : Keeps kr kl s0 s) : Keeps kr kl s0 (enterMicro s n
    w0 w1) := by
  unfold enterMicro
  with_reducible repeat' first
    | assumption | apply keeps_updOp | apply keeps_runMicro | (extract_lets +onlyGivenNames x; subst x) | split
    | fail_if_no_progress beta_reduce

theorem keeps_runCcw (s : State) (n : ℕ) (o : ChOp) (words : List Word) (res : ReadResult) (hk : Keeps kr kl s0 s) :
    Keeps kr kl s0 (runCcw s n o words res) := by
  unfold runCcw
  with_reducible repeat' first
    | assumption | apply keeps_readCcw | apply keeps_endOp | apply keeps_putOp | apply keeps_completeCcw
    | apply keeps_enterMicro | apply keeps_readChain | apply keeps_startCommand | apply Keeps2.snd
    | refine Keeps2.eq (by assumption) ?_ | (extract_lets +onlyGivenNames x; subst x) | split
    | fail_if_no_progress beta_reduce | apply Keeps2.mk

theorem keeps_subEntry (s : State) (n : ℕ) (hk : Keeps kr kl s0 s) : Keeps2 kr kl s0 (subEntry s n) := by
  unfold subEntry
  with_reducible repeat' first
    | assumption | apply keeps_engWords | apply Keeps2.snd | refine Keeps2.eq (by assumption) ?_ | exact repKeeps_rep
    | fail_if_no_progress (refine Keeps.made ?_ rfl rfl rfl rfl rfl) | (extract_lets +onlyGivenNames x; subst x)
    | split | fail_if_no_progress beta_reduce | apply Keeps2.mk

theorem keeps_openQueue (s : State) (e : List Word) (hk : Keeps kr kl s0 s) : Keeps2 kr kl s0 (openQueue s e) := by
  unfold openQueue
  with_reducible repeat' first
    | assumption | apply keeps_engWords | apply Keeps2.snd | refine Keeps2.eq (by assumption) ?_ | exact repKeeps_rep
    | fail_if_no_progress (refine Keeps.made ?_ rfl rfl rfl rfl rfl) | (extract_lets +onlyGivenNames x; subst x)
    | split | fail_if_no_progress beta_reduce | apply Keeps2.mk

theorem keeps_rereadHead (s : State) (k zone : ℕ) (hk : Keeps kr kl s0 s) : Keeps kr kl s0 (rereadHead s k zone) :=
    by
  unfold rereadHead
  with_reducible repeat' first
    | assumption | apply keeps_engWords | apply keeps_putQueue | apply Keeps2.snd | refine Keeps2.eq (by assumption) ?_
    | exact repKeeps_rep | (extract_lets +onlyGivenNames x; subst x) | split | fail_if_no_progress beta_reduce
    | apply Keeps2.mk

theorem keeps_queueCompletion (s : State) (n : ℕ) (hk : Keeps kr kl s0 s) : Keeps kr kl s0 (queueCompletion s n) :=
    by
  unfold queueCompletion
  with_reducible repeat' first
    | assumption | apply keeps_openQueue | apply keeps_putQueue | apply keeps_putOp | apply keeps_assignSlots
    | apply keeps_rereadHead | apply Keeps2.snd | refine Keeps2.eq (by assumption) ?_
    | (extract_lets +onlyGivenNames x; subst x) | split | fail_if_no_progress beta_reduce | apply Keeps2.mk

theorem keeps_journalNext (s : State) (n next : ℕ) (hk : Keeps kr kl s0 s) : Keeps kr kl s0 (journalNext s n next)
    := by
  unfold journalNext
  with_reducible repeat' first
    | assumption | apply keeps_setOutcomeOpt | apply keeps_activate | apply keeps_putOp | apply keeps_dataPhase
    | apply keeps_sendCommand | apply keeps_endOp | apply keeps_queueCompletion
    | (extract_lets +onlyGivenNames x; subst x) | split | fail_if_no_progress beta_reduce

theorem keeps_endOpen (s : State) (n kind : ℕ) (hk : Keeps kr kl s0 s) : Keeps kr kl s0 (endOpen s n kind) := by
  unfold endOpen
  with_reducible repeat' first
    | assumption | apply keeps_endOp | apply keeps_nextFree | (extract_lets +onlyGivenNames x; subst x) | split
    | fail_if_no_progress beta_reduce

theorem keeps_afterData (s : State) (n : ℕ) (hk : Keeps kr kl s0 s) : Keeps kr kl s0 (afterData s n) := by
  unfold afterData
  with_reducible repeat' first
    | assumption | apply keeps_endOp | apply keeps_completeCcw | (extract_lets +onlyGivenNames x; subst x) | split
    | fail_if_no_progress beta_reduce

theorem keeps_acceptOp (s : State) (cp sub : ℕ) (e : List Word) (ccw param : Word) (mbx : Option Mbx) (hk : Keeps kr
    kl s0 s) : Keeps kr kl s0 (acceptOp s cp sub e ccw param mbx) := by
  unfold acceptOp
  with_reducible repeat' first
    | assumption | apply keeps_issueStamp | apply keeps_openQueue | apply keeps_writeJournal | apply keeps_putOp
    | apply Keeps2.snd | refine Keeps2.eq (by assumption) ?_
    | fail_if_no_progress (refine Keeps.made ?_ rfl rfl rfl rfl rfl) | (extract_lets +onlyGivenNames x; subst x)
    | split | fail_if_no_progress beta_reduce | apply Keeps2.mk

theorem keeps_holdEntry (s : State) (dev zone : ℕ) (ws : List Word) (hk : Keeps kr kl s0 s) : Keeps kr kl s0
    (holdEntry s dev zone ws) := by
  unfold holdEntry
  with_reducible repeat' first
    | assumption | fail_if_no_progress (refine Keeps.made ?_ rfl rfl rfl rfl rfl)
    | (extract_lets +onlyGivenNames x; subst x) | split | fail_if_no_progress beta_reduce

theorem keeps_postCompletion (s : State) (dev : ℕ) (r : JRec) (hk : Keeps kr kl s0 s) : Keeps kr kl s0
    (postCompletion s dev r) := by
  unfold postCompletion
  with_reducible repeat' first
    | assumption | apply keeps_postEntry | exact repKeeps_rep | (extract_lets +onlyGivenNames x; subst x) | split
    | fail_if_no_progress beta_reduce

theorem keeps_postOrphan (s : State) (dev : ℕ) (r : JRec) (slot : ℕ) (hk : Keeps kr kl s0 s) : Keeps2 kr kl s0
    (postOrphan s dev r slot) := by
  unfold postOrphan
  with_reducible repeat' first
    | assumption | apply keeps_issueStamp | apply keeps_holdEntry | apply keeps_engPutWords
    | apply keeps_postCompletion | apply Keeps2.snd | refine Keeps2.eq (by assumption) ?_ | exact repKeeps_rep
    | fail_if_no_progress (refine Keeps.made ?_ rfl rfl rfl rfl rfl) | (extract_lets +onlyGivenNames x; subst x)
    | split | fail_if_no_progress beta_reduce | apply Keeps2.mk

theorem keeps_journalDone (s : State) (n : ℕ) (hk : Keeps kr kl s0 s) : Keeps kr kl s0 (journalDone s n) := by
  unfold journalDone
  with_reducible repeat' first
    | assumption | apply keeps_journalNext | (extract_lets +onlyGivenNames x; subst x) | split
    | fail_if_no_progress beta_reduce

theorem keeps_freeOp (s : State) (n : ℕ) (hk : Keeps kr kl s0 s) : Keeps kr kl s0 (freeOp s n) := by
  unfold freeOp
  with_reducible repeat' first
    | assumption | apply keeps_delOp | (extract_lets +onlyGivenNames x; subst x) | split
    | fail_if_no_progress beta_reduce

theorem keeps_unmirrorOps (s : State) (hk : Keeps kr kl s0 s) : Keeps kr kl s0 (unmirrorOps s) := by
  unfold unmirrorOps
  with_reducible repeat' first
    | assumption | apply keeps_journalDone | apply keeps_putOp | apply keeps_freeOp | refine Keeps.foldl _ ?_ ?_
    | refine Keeps2.foldl _ ?_ ?_ | intro _ | (extract_lets +onlyGivenNames x; subst x) | split
    | fail_if_no_progress beta_reduce

theorem keeps_changePartner (s : State) (former : Option ℕ) (hk : Keeps kr kl s0 s) : Keeps kr kl s0 (changePartner
    s former) := by
  unfold changePartner
  with_reducible repeat' first
    | assumption | apply keeps_unmirrorOps | apply keeps_sendChs | refine Keeps.foldl _ ?_ ?_
    | refine Keeps2.foldl _ ?_ ?_ | intro _ | (extract_lets +onlyGivenNames x; subst x) | split
    | fail_if_no_progress beta_reduce

theorem keeps_queueTail (s : State) (e : List Word) (hk : Keeps kr kl s0 s) : Keeps2 kr kl s0 (queueTail s e) := by
  unfold queueTail
  with_reducible repeat' first
    | assumption | apply keeps_engWords | apply Keeps2.snd | refine Keeps2.eq (by assumption) ?_ | exact repKeeps_rep
    | (extract_lets +onlyGivenNames x; subst x) | split | fail_if_no_progress beta_reduce | apply Keeps2.mk

theorem keeps_orphanQueue (s : State) (dev : ℕ) (rs : List JRec) (hk : Keeps kr kl s0 s) : Keeps kr kl s0
    (orphanQueue s dev rs) := by
  unfold orphanQueue
  with_reducible repeat' first
    | assumption | apply keeps_queueTail | apply keeps_postOrphan | apply keeps_engPutWords | apply Keeps2.snd
    | refine Keeps.foldl _ ?_ ?_ | refine Keeps2.foldl _ ?_ ?_ | refine Keeps2.eq (by assumption) ?_
    | exact repKeeps_rep | intro _ | (extract_lets +onlyGivenNames x; subst x) | split
    | fail_if_no_progress beta_reduce | apply Keeps2.mk

theorem keeps_startCheck (s : State) (req sub : ℕ) (ccw : Word) (mirror : Bool) (hk : Keeps kr kl s0 s) : Keeps2 kr
    kl s0 (startCheck s req sub ccw mirror) := by
  unfold startCheck
  with_reducible repeat' first
    | assumption | apply keeps_subEntry | apply Keeps2.snd | refine Keeps2.eq (by assumption) ?_
    | (extract_lets +onlyGivenNames x; subst x) | split | fail_if_no_progress beta_reduce | apply Keeps2.mk

theorem keeps_passTail (s : State) (k tail : ℕ) (hk : Keeps kr kl s0 s) : Keeps kr kl s0 (passTail s k tail) := by
  unfold passTail
  with_reducible repeat' first
    | assumption | apply keeps_postCompletion | apply keeps_sendChs | apply keeps_updOp | apply keeps_freeOp
    | refine Keeps.foldl _ ?_ ?_ | refine Keeps2.foldl _ ?_ ?_ | intro _ | (extract_lets +onlyGivenNames x; subst x)
    | split | fail_if_no_progress beta_reduce

theorem keeps_endHalting (s : State) (n : ℕ) (hk : Keeps kr kl s0 s) : Keeps kr kl s0 (endHalting s n) := by
  unfold endHalting
  with_reducible repeat' first
    | assumption | apply keeps_endOpen | apply keeps_endOp | (extract_lets +onlyGivenNames x; subst x) | split
    | fail_if_no_progress beta_reduce

theorem keeps_haltOp (s : State) (n kind : ℕ) (hk : Keeps kr kl s0 s) : Keeps kr kl s0 (haltOp s n kind) := by
  unfold haltOp
  with_reducible repeat' first
    | assumption | apply keeps_endOpen | apply keeps_endOp | apply keeps_updChn | apply keeps_putOp
    | apply keeps_sendAbort | apply keeps_endHalting | (extract_lets +onlyGivenNames x; subst x) | split
    | fail_if_no_progress beta_reduce

theorem keeps_storePhase (s : State) (n count : ℕ) (hk : Keeps kr kl s0 s) : Keeps kr kl s0 (storePhase s n count)
    := by
  unfold storePhase
  with_reducible repeat' first
    | assumption | apply keeps_startMove | (extract_lets +onlyGivenNames x; subst x) | split
    | fail_if_no_progress beta_reduce

theorem keeps_linkDownOps (s : State) (ctl : ℕ) (hk : Keeps kr kl s0 s) : Keeps kr kl s0 (linkDownOps s ctl) := by
  unfold linkDownOps
  with_reducible repeat' first
    | assumption | apply keeps_endOp | refine Keeps.foldl _ ?_ ?_ | refine Keeps2.foldl _ ?_ ?_ | intro _
    | (extract_lets +onlyGivenNames x; subst x) | split | fail_if_no_progress beta_reduce

theorem keeps_orphanPosting (s : State) (dev : ℕ) (hk : Keeps kr kl s0 s) : Keeps kr kl s0 (orphanPosting s dev) :=
    by
  unfold orphanPosting
  with_reducible repeat' first
    | assumption | apply keeps_dropMirrors | apply keeps_orphanQueue | apply keeps_sendChs | refine Keeps.foldl _ ?_ ?_
    | intro _ | (extract_lets +onlyGivenNames x; subst x) | split | fail_if_no_progress beta_reduce

theorem keeps_writeEntry (s : State) (n : ℕ) (hk : Keeps kr kl s0 s) : Keeps kr kl s0 (writeEntry s n) := by
  unfold writeEntry
  with_reducible repeat' first
    | assumption | apply keeps_openQueue | apply keeps_engPutWords | apply keeps_faultAt | apply keeps_putOp
    | apply keeps_putQueue | apply keeps_passTail | apply Keeps2.snd | refine Keeps2.eq (by assumption) ?_
    | exact repKeeps_rep | fail_if_no_progress (refine Keeps.made ?_ rfl rfl rfl rfl rfl)
    | (extract_lets +onlyGivenNames x; subst x) | split | fail_if_no_progress beta_reduce | apply Keeps2.mk

theorem keeps_resetOps (s : State) (z : ℕ) (hk : Keeps kr kl s0 s) : Keeps kr kl s0 (resetOps s z) := by
  unfold resetOps
  with_reducible repeat' first
    | assumption | apply keeps_endOp | apply keeps_endOpen | apply keeps_sendAbort | refine Keeps.foldl _ ?_ ?_
    | refine Keeps2.foldl _ ?_ ?_ | intro _ | (extract_lets +onlyGivenNames x; subst x) | split
    | fail_if_no_progress beta_reduce

theorem keeps_transferDone (s : State) (n status code : ℕ) (hk : Keeps kr kl s0 s) : Keeps kr kl s0 (transferDone s
    n status code) := by
  unfold transferDone
  with_reducible repeat' first
    | assumption | apply keeps_updChn | apply keeps_putOp | apply keeps_endOpStatus | apply keeps_nextFree
    | apply keeps_endOp | apply keeps_endHalting | apply keeps_runMicro | apply keeps_writeJournal
    | apply keeps_dataPhase | apply keeps_completeCcw | apply keeps_afterData
    | (extract_lets +onlyGivenNames x; subst x) | split | fail_if_no_progress beta_reduce

theorem keeps_updCp (s : State) (n : ℕ) (f : Cp → Cp) (hk : Keeps kr kl s0 s) : Keeps kr kl s0 (updCp s n f) := by
  unfold updCp
  with_reducible repeat' first
    | assumption | fail_if_no_progress (refine Keeps.made ?_ rfl rfl rfl rfl rfl)
    | (extract_lets +onlyGivenNames x; subst x) | split | fail_if_no_progress beta_reduce

end Sys2Proof.Machine
end

