-- ==== Sys2Proof/Laws/KeepsChannel.lean ====
section
/-! SUPPORT. What the operations of Channel.lean keep: one lemma for each, in the terms of `Keeps`. -/

set_option linter.unusedTactic false
set_option linter.unreachableTactic false

namespace Sys2Proof.Machine

variable {kr kl : Bool} {s0 : State}

theorem keeps_execCcwFetched (sub : ℕ) (words : List Word) (res : ReadResult) (s : State) {t : State} (hk : Keeps kr
    kl s0 s) (e : execCcwFetched sub words res s = .next t) : Keeps kr kl s0 t := by
  unfold execCcwFetched at e
  injection e with e
  subst e
  with_reducible repeat' first
    | assumption | apply keeps_runCcw | (extract_lets +onlyGivenNames x; subst x) | split
    | fail_if_no_progress beta_reduce

theorem keeps_execMicrowordRunaway (sub : ℕ) (s : State) {t : State} (hk : Keeps kr kl s0 s) (e :
    execMicrowordRunaway sub s = .next t) : Keeps kr kl s0 t := by
  unfold execMicrowordRunaway at e
  injection e with e
  subst e
  with_reducible repeat' first
    | assumption | apply keeps_microFault | (extract_lets +onlyGivenNames x; subst x) | split
    | fail_if_no_progress beta_reduce

theorem keeps_answerRead (s : State) (ch : ℕ) (hk : Keeps kr kl s0 s) : Keeps kr kl s0 (answerRead s ch) := by
  unfold answerRead
  with_reducible repeat' first
    | assumption | fail_if_no_progress (refine Keeps.made ?_ rfl rfl rfl rfl rfl)
    | (extract_lets +onlyGivenNames x; subst x) | split | fail_if_no_progress beta_reduce

theorem keeps_execAderr (ch kind : ℕ) (s : State) {t : State} (hk : Keeps kr kl s0 s) (e : execAderr ch kind s =
    .next t) : Keeps kr kl s0 t := by
  unfold execAderr at e
  injection e with e
  subst e
  with_reducible repeat' first
    | assumption | apply keeps_busError | apply keeps_answerRead | (extract_lets +onlyGivenNames x; subst x) | split
    | fail_if_no_progress beta_reduce

theorem keeps_execAdwr (ctl bus : ℕ) (data : List Byte) (s : State) {t : State} (hk : Keeps kr kl s0 s) (e :
    execAdwr ctl bus data s = .next t) : Keeps kr kl s0 t := by
  unfold execAdwr at e
  injection e with e
  subst e
  with_reducible repeat' first
    | assumption | apply keeps_updPcie | (extract_lets +onlyGivenNames x; subst x) | split
    | fail_if_no_progress beta_reduce

theorem keeps_execJmw (port : ℕ) (r : JRec) (s : State) {t : State} (hk : Keeps kr kl s0 s) (e : execJmw port r s =
    .next t) : Keeps kr kl s0 t := by
  unfold execJmw at e
  injection e with e
  subst e
  with_reducible repeat' first
    | assumption | apply keeps_sendChs | fail_if_no_progress (refine Keeps.made ?_ rfl rfl rfl rfl rfl)
    | (extract_lets +onlyGivenNames x; subst x) | split | fail_if_no_progress beta_reduce

theorem keeps_takeStatus (s : State) (n : ℕ) (o : ChOp) (r : StatusRec) (hk : Keeps kr kl s0 s) : Keeps kr kl s0
    (takeStatus s n o r) := by
  unfold takeStatus
  with_reducible repeat' first
    | assumption | apply keeps_runMicro | apply keeps_putOp | apply keeps_endOp | apply keeps_storePhase
    | apply keeps_afterData | (extract_lets +onlyGivenNames x; subst x) | split | fail_if_no_progress beta_reduce

theorem keeps_execAdst (ctl sub : ℕ) (r : StatusRec) (s : State) {t : State} (hk : Keeps kr kl s0 s) (e : execAdst
    ctl sub r s = .next t) : Keeps kr kl s0 t := by
  unfold execAdst at e
  injection e with e
  subst e
  with_reducible repeat' first
    | assumption | apply keeps_endHalting | apply keeps_putOp | apply keeps_takeStatus
    | fail_if_no_progress (refine Keeps.made ?_ rfl rfl rfl rfl rfl) | (extract_lets +onlyGivenNames x; subst x)
    | split | fail_if_no_progress beta_reduce

theorem keeps_execJmack (sub count : ℕ) (s : State) {t : State} (hk : Keeps kr kl s0 s) (e : execJmack sub count s =
    .next t) : Keeps kr kl s0 t := by
  unfold execJmack at e
  injection e with e
  subst e
  with_reducible repeat' first
    | assumption | apply keeps_journalDone | apply keeps_putOp | (extract_lets +onlyGivenNames x; subst x) | split
    | fail_if_no_progress beta_reduce

theorem keeps_execWriteBackVisible (n : ℕ) (s : State) {t : State} (hk : Keeps kr kl s0 s) (e : execWriteBackVisible
    n s = .next t) : Keeps kr kl s0 t := by
  unfold execWriteBackVisible at e
  injection e with e
  subst e
  with_reducible repeat' first
    | assumption | apply keeps_transferDone | apply keeps_updChn | apply keeps_postEntry | apply keeps_retireChn
    | exact repKeeps_rep | (extract_lets +onlyGivenNames x; subst x) | split | fail_if_no_progress beta_reduce

theorem keeps_execChannelPaused (n : ℕ) (s : State) {t : State} (hk : Keeps kr kl s0 s) (e : execChannelPaused n s =
    .next t) : Keeps kr kl s0 t := by
  unfold execChannelPaused at e
  injection e with e
  subst e
  with_reducible repeat' first
    | assumption | apply keeps_pauseDone | apply keeps_endHalting | (extract_lets +onlyGivenNames x; subst x) | split
    | fail_if_no_progress beta_reduce

theorem keeps_disableChn (s : State) (n : ℕ) (hk : Keeps kr kl s0 s) : Keeps kr kl s0 (disableChn s n) := by
  unfold disableChn
  with_reducible repeat' first
    | assumption | apply keeps_nextFree | apply keeps_landBeat | apply keeps_dropEngines | apply keeps_updChn
    | apply keeps_endOp | apply keeps_postHalt | apply Keeps2.snd | refine Keeps.foldl _ ?_ ?_
    | refine Keeps2.foldl _ ?_ ?_ | refine Keeps2.eq (by assumption) ?_ | intro _
    | (extract_lets +onlyGivenNames x; subst x) | split | fail_if_no_progress beta_reduce | apply Keeps2.mk

theorem keeps_execJrelack (sub : ℕ) (stamp : Word) (s : State) {t : State} (hk : Keeps kr kl s0 s) (e : execJrelack
    sub stamp s = .next t) : Keeps kr kl s0 t := by
  unfold execJrelack at e
  injection e with e
  subst e
  with_reducible repeat' first
    | assumption | apply keeps_freeOp | (extract_lets +onlyGivenNames x; subst x) | split
    | fail_if_no_progress beta_reduce

theorem keeps_resumeOp (s : State) (n cp : ℕ) (hk : Keeps kr kl s0 s) : Keeps kr kl s0 (resumeOp s n cp) := by
  unfold resumeOp
  with_reducible repeat' first
    | assumption | apply keeps_putOp | apply keeps_resumeChn | apply keeps_updChn | apply keeps_commandRecord
    | apply keeps_openQueue | apply keeps_engPutWords | apply Keeps2.snd | refine Keeps2.eq (by assumption) ?_
    | exact repKeeps_rep | (extract_lets +onlyGivenNames x; subst x) | split | fail_if_no_progress beta_reduce
    | apply Keeps2.mk

theorem keeps_disableIdle (s : State) (n : ℕ) (hk : Keeps kr kl s0 s) : Keeps kr kl s0 (disableIdle s n) := by
  unfold disableIdle
  with_reducible repeat' first
    | assumption | apply keeps_updChn | (extract_lets +onlyGivenNames x; subst x) | split
    | fail_if_no_progress beta_reduce

theorem keeps_writeMovCtl (s : State) (q : IoReq) (e : ℕ) (v : Word) (hk : Keeps kr kl s0 s) : Keeps kr kl s0
    (writeMovCtl s q e v) := by
  unfold writeMovCtl
  with_reducible repeat' first
    | assumption | apply keeps_gateIgnored | apply keeps_disableChn | apply keeps_disableIdle
    | refine Keeps.foldl _ ?_ ?_ | fail_if_no_progress (refine Keeps.made ?_ rfl rfl rfl rfl rfl) | intro _
    | (extract_lets +onlyGivenNames x; subst x) | split | fail_if_no_progress beta_reduce

theorem keeps_execJrel (port sub : ℕ) (stamp : Word) (s : State) {t : State} (hk : Keeps kr kl s0 s) (e : execJrel
    port sub stamp s = .next t) : Keeps kr kl s0 t := by
  unfold execJrel at e
  injection e with e
  subst e
  with_reducible repeat' first
    | assumption | apply keeps_sendChs | fail_if_no_progress (refine Keeps.made ?_ rfl rfl rfl rfl rfl)
    | (extract_lets +onlyGivenNames x; subst x) | split | fail_if_no_progress beta_reduce

theorem keeps_execQueueHeadReread (queue : Word) (s : State) {t : State} (hk : Keeps kr kl s0 s) (e :
    execQueueHeadReread queue s = .next t) : Keeps kr kl s0 t := by
  unfold execQueueHeadReread at e
  injection e with e
  subst e
  with_reducible repeat' first
    | assumption | apply keeps_assignSlots | apply keeps_rereadHead | (extract_lets +onlyGivenNames x; subst x) | split
    | fail_if_no_progress beta_reduce

theorem keeps_execMovCtlDisable (q : IoReq) (e : ℕ) (v : Word) (s : State) {t : State} (hk : Keeps kr kl s0 s) (e :
    execMovCtlDisable q e v s = .next t) : Keeps kr kl s0 t := by
  unfold execMovCtlDisable at e
  injection e with e
  subst e
  with_reducible repeat' first
    | assumption | apply keeps_mainReg | apply keeps_writeMovCtl | (extract_lets +onlyGivenNames x; subst x) | split
    | fail_if_no_progress beta_reduce

theorem keeps_execChannelProcessorFault (cp : ℕ) (s : State) {t : State} (hk : Keeps kr kl s0 s) (e :
    execChannelProcessorFault cp s = .next t) : Keeps kr kl s0 t := by
  unfold execChannelProcessorFault at e
  injection e with e
  subst e
  with_reducible repeat' first
    | assumption | apply keeps_updCp | apply keeps_faultAt | apply keeps_updChn | apply keeps_resumeOp
    | refine Keeps.foldl _ ?_ ?_ | refine Keeps2.foldl _ ?_ ?_ | intro _ | (extract_lets +onlyGivenNames x; subst x)
    | split | fail_if_no_progress beta_reduce

theorem keeps_execHaltStatusTimeout (sub : ℕ) (s : State) {t : State} (hk : Keeps kr kl s0 s) (e :
    execHaltStatusTimeout sub s = .next t) : Keeps kr kl s0 t := by
  unfold execHaltStatusTimeout at e
  injection e with e
  subst e
  with_reducible repeat' first
    | assumption | apply keeps_endHalting | (extract_lets +onlyGivenNames x; subst x) | split
    | fail_if_no_progress beta_reduce

theorem keeps_execJdrop (port dev : ℕ) (s : State) {t : State} (hk : Keeps kr kl s0 s) (e : execJdrop port dev s =
    .next t) : Keeps kr kl s0 t := by
  unfold execJdrop at e
  injection e with e
  subst e
  with_reducible repeat' first
    | assumption | apply keeps_dropMirrors | (extract_lets +onlyGivenNames x; subst x) | split
    | fail_if_no_progress beta_reduce

theorem keeps_execUcodeLoadTimeout (s : State) {t : State} (hk : Keeps kr kl s0 s) (e : execUcodeLoadTimeout s =
    .next t) : Keeps kr kl s0 t := by
  unfold execUcodeLoadTimeout at e
  injection e with e
  subst e
  with_reducible repeat' first
    | assumption | apply keeps_setOutcome | fail_if_no_progress (refine Keeps.made ?_ rfl rfl rfl rfl rfl)
    | (extract_lets +onlyGivenNames x; subst x) | split | fail_if_no_progress beta_reduce

theorem keeps_execJhand (dev : ℕ) (r : JRec) (s : State) {t : State} (hk : Keeps kr kl s0 s) (e : execJhand dev r s
    = .next t) : Keeps kr kl s0 t := by
  unfold execJhand at e
  injection e with e
  subst e
  with_reducible repeat' first
    | assumption | apply keeps_orphanPosting | fail_if_no_progress (refine Keeps.made ?_ rfl rfl rfl rfl rfl)
    | (extract_lets +onlyGivenNames x; subst x) | split | fail_if_no_progress beta_reduce

theorem keeps_execAddata (ch beat : ℕ) (data : List Byte) (s : State) {t : State} (hk : Keeps kr kl s0 s) (e :
    execAddata ch beat data s = .next t) : Keeps kr kl s0 t := by
  unfold execAddata at e
  injection e with e
  subst e
  with_reducible repeat' first
    | assumption | apply keeps_readReturns | apply keeps_answerRead | (extract_lets +onlyGivenNames x; subst x) | split
    | fail_if_no_progress beta_reduce

theorem keeps_execJournalWriteDone (sub : ℕ) (s : State) {t : State} (hk : Keeps kr kl s0 s) (e :
    execJournalWriteDone sub s = .next t) : Keeps kr kl s0 t := by
  unfold execJournalWriteDone at e
  injection e with e
  subst e
  with_reducible repeat' first
    | assumption | apply keeps_journalDone | apply keeps_putOp | (extract_lets +onlyGivenNames x; subst x) | split
    | fail_if_no_progress beta_reduce

theorem keeps_execOperationDeadline (sub : ℕ) (s : State) {t : State} (hk : Keeps kr kl s0 s) (e :
    execOperationDeadline sub s = .next t) : Keeps kr kl s0 t := by
  unfold execOperationDeadline at e
  injection e with e
  subst e
  with_reducible repeat' first
    | assumption | apply keeps_haltOp | (extract_lets +onlyGivenNames x; subst x) | split
    | fail_if_no_progress beta_reduce

theorem keeps_execAdrd (ctl bus len ch : ℕ) (s : State) {t : State} (hk : Keeps kr kl s0 s) (e : execAdrd ctl bus
    len ch s = .next t) : Keeps kr kl s0 t := by
  unfold execAdrd at e
  injection e with e
  subst e
  with_reducible repeat' first
    | assumption | apply keeps_updPcie | apply keeps_sendFlit | (extract_lets +onlyGivenNames x; subst x) | split
    | fail_if_no_progress beta_reduce

theorem keeps_execCompletionPosted (sub : ℕ) (s : State) {t : State} (hk : Keeps kr kl s0 s) (e :
    execCompletionPosted sub s = .next t) : Keeps kr kl s0 t := by
  unfold execCompletionPosted at e
  injection e with e
  subst e
  with_reducible repeat' first
    | assumption | apply keeps_writeEntry | (extract_lets +onlyGivenNames x; subst x) | split
    | fail_if_no_progress beta_reduce

end Sys2Proof.Machine
end

