-- ==== Sys2Proof/Laws/KeepsHome.lean ====
section
/-! SUPPORT. What the operations of Home.lean keep: one lemma for each, in the terms of `Keeps`. -/

set_option linter.unusedTactic false
set_option linter.unreachableTactic false

namespace Sys2Proof.Machine

variable {kr kl : Bool} {s0 : State}

theorem keeps_execRdshared (r : CohReq) (e : ReadFinding) (s : State) {t : State} (hk : Keeps kr kl s0 s) (e :
    execRdshared r e s = .next t) : Keeps kr kl s0 t := by
  unfold execRdshared at e
  injection e with e
  subst e
  with_reducible repeat' first
    | assumption | apply keeps_takeRequest | (extract_lets +onlyGivenNames x; subst x) | split
    | fail_if_no_progress beta_reduce

theorem keeps_execEvictclean (agent : Agent) (stamp addr : Word) (rs : Bool) (s : State) {t : State} (hk : Keeps kr
    kl s0 s) (e : execEvictclean agent stamp addr rs s = .next t) : Keeps kr kl s0 t := by
  unfold execEvictclean at e
  injection e with e
  subst e
  with_reducible repeat' first
    | assumption | apply keeps_respond | apply keeps_takeEviction | (extract_lets +onlyGivenNames x; subst x) | split
    | fail_if_no_progress beta_reduce

theorem keeps_execWrline (r : CohReq) (data : Line) (verify : ℕ) (s : State) {t : State} (hk : Keeps kr kl s0 s) (e
    : execWrline r data verify s = .next t) : Keeps kr kl s0 t := by
  unfold execWrline at e
  injection e with e
  subst e
  with_reducible repeat' first
    | assumption | apply keeps_takeRequest | (extract_lets +onlyGivenNames x; subst x) | split
    | fail_if_no_progress beta_reduce

theorem keeps_execCmpack (agent : Agent) (stamp addr : Word) (s : State) {t : State} (hk : Keeps kr kl s0 s) (e :
    execCmpack agent stamp addr s = .next t) : Keeps kr kl s0 t := by
  unfold execCmpack at e
  injection e with e
  subst e
  with_reducible repeat' first
    | assumption | apply keeps_freeLine | (extract_lets +onlyGivenNames x; subst x) | split
    | fail_if_no_progress beta_reduce

theorem keeps_execUpgrade (r : CohReq) (e : ReadFinding) (s : State) {t : State} (hk : Keeps kr kl s0 s) (e :
    execUpgrade r e s = .next t) : Keeps kr kl s0 t := by
  unfold execUpgrade at e
  injection e with e
  subst e
  with_reducible repeat' first
    | assumption | apply keeps_takeRequest | (extract_lets +onlyGivenNames x; subst x) | split
    | fail_if_no_progress beta_reduce

theorem keeps_loseAnswer (s : State) (t : Txn) (a : Agent) (hk : Keeps kr kl s0 s) : Keeps kr kl s0 (loseAnswer s t
    a) := by
  unfold loseAnswer
  with_reducible repeat' first
    | assumption | apply keeps_issueStamp | apply keeps_poisonFrame | apply keeps_sendSnoop | apply keeps_setDir
    | apply keeps_forgetAgent | apply keeps_finishTxn | apply keeps_putTxn | apply Keeps2.snd
    | refine Keeps.foldl _ ?_ ?_ | refine Keeps2.foldl _ ?_ ?_ | refine Keeps2.eq (by assumption) ?_ | intro _
    | (extract_lets +onlyGivenNames x; subst x) | split | fail_if_no_progress beta_reduce | apply Keeps2.mk

theorem keeps_execResendRequest (r : CohReq) (kind : ReqKind) (credit : ℕ) (e : ReadFinding) (s : State) {t : State}
    (hk : Keeps kr kl s0 s) (e : execResendRequest r kind credit e s = .next t) : Keeps kr kl s0 t := by
  unfold execResendRequest at e
  injection e with e
  subst e
  with_reducible repeat' first
    | assumption | apply keeps_takeRequest | (extract_lets +onlyGivenNames x; subst x) | split
    | fail_if_no_progress beta_reduce

theorem keeps_execCreditReclaim (credit : ℕ) (s : State) {t : State} (hk : Keeps kr kl s0 s) (e : execCreditReclaim
    credit s = .next t) : Keeps kr kl s0 t := by
  unfold execCreditReclaim at e
  injection e with e
  subst e
  with_reducible repeat' first
    | assumption | apply keeps_faultAt | apply keeps_freeLine
    | fail_if_no_progress (refine Keeps.made ?_ rfl rfl rfl rfl rfl) | (extract_lets +onlyGivenNames x; subst x)
    | split | fail_if_no_progress beta_reduce

theorem keeps_execCleanline (r : CohReq) (s : State) {t : State} (hk : Keeps kr kl s0 s) (e : execCleanline r s =
    .next t) : Keeps kr kl s0 t := by
  unfold execCleanline at e
  injection e with e
  subst e
  with_reducible repeat' first
    | assumption | apply keeps_takeRequest | (extract_lets +onlyGivenNames x; subst x) | split
    | fail_if_no_progress beta_reduce

theorem keeps_answerSnoop (s : State) (t : Txn) (m : SnpRespMsg) (hk : Keeps kr kl s0 s) : Keeps kr kl s0
    (answerSnoop s t m) := by
  unfold answerSnoop
  with_reducible repeat' first
    | assumption | apply keeps_finishTxn | apply keeps_putTxn | apply keeps_forgetAgent | apply keeps_recordAfter
    | (extract_lets +onlyGivenNames x; subst x) | split | fail_if_no_progress beta_reduce

theorem keeps_execSnpresp (m : SnpRespMsg) (s : State) {t : State} (hk : Keeps kr kl s0 s) (e : execSnpresp m s =
    .next t) : Keeps kr kl s0 t := by
  unfold execSnpresp at e
  injection e with e
  subst e
  with_reducible repeat' first
    | assumption | apply keeps_loseAnswer | apply keeps_answerSnoop | (extract_lets +onlyGivenNames x; subst x) | split
    | fail_if_no_progress beta_reduce

theorem keeps_execRdown (r : CohReq) (e : ReadFinding) (s : State) {t : State} (hk : Keeps kr kl s0 s) (e :
    execRdown r e s = .next t) : Keeps kr kl s0 t := by
  unfold execRdown at e
  injection e with e
  subst e
  with_reducible repeat' first
    | assumption | apply keeps_takeRequest | (extract_lets +onlyGivenNames x; subst x) | split
    | fail_if_no_progress beta_reduce

theorem keeps_execSnoopWarn (line : ℕ) (s : State) {t : State} (hk : Keeps kr kl s0 s) (e : execSnoopWarn line s =
    .next t) : Keeps kr kl s0 t := by
  unfold execSnoopWarn at e
  injection e with e
  subst e
  with_reducible repeat' first
    | assumption | apply keeps_faultAt | apply keeps_putTxn | refine Keeps.foldl _ ?_ ?_ | refine Keeps2.foldl _ ?_ ?_
    | intro _ | (extract_lets +onlyGivenNames x; subst x) | split | fail_if_no_progress beta_reduce

theorem keeps_execRdonce (r : CohReq) (e : ReadFinding) (s : State) {t : State} (hk : Keeps kr kl s0 s) (e :
    execRdonce r e s = .next t) : Keeps kr kl s0 t := by
  unfold execRdonce at e
  injection e with e
  subst e
  with_reducible repeat' first
    | assumption | apply keeps_takeRequest | (extract_lets +onlyGivenNames x; subst x) | split
    | fail_if_no_progress beta_reduce

theorem keeps_execCleaninvline (r : CohReq) (s : State) {t : State} (hk : Keeps kr kl s0 s) (e : execCleaninvline r
    s = .next t) : Keeps kr kl s0 t := by
  unfold execCleaninvline at e
  injection e with e
  subst e
  with_reducible repeat' first
    | assumption | apply keeps_takeRequest | (extract_lets +onlyGivenNames x; subst x) | split
    | fail_if_no_progress beta_reduce

theorem keeps_execWrback (m : WrBackMsg) (verify : ℕ) (s : State) {t : State} (hk : Keeps kr kl s0 s) (e :
    execWrback m verify s = .next t) : Keeps kr kl s0 t := by
  unfold execWrback at e
  injection e with e
  subst e
  with_reducible repeat' first
    | assumption | apply keeps_respond | apply keeps_takeEviction | (extract_lets +onlyGivenNames x; subst x) | split
    | fail_if_no_progress beta_reduce

theorem keeps_walkEntry (s : State) (li : ℕ) (hk : Keeps kr kl s0 s) : Keeps kr kl s0 (walkEntry s li) := by
  unfold walkEntry
  with_reducible repeat' first
    | assumption | apply keeps_dropLost | apply keeps_issueStamp | apply keeps_startSettle | apply Keeps2.snd
    | refine Keeps2.eq (by assumption) ?_ | (extract_lets +onlyGivenNames x; subst x) | split
    | fail_if_no_progress beta_reduce | apply Keeps2.mk

theorem keeps_execInvline (r : CohReq) (s : State) {t : State} (hk : Keeps kr kl s0 s) (e : execInvline r s = .next
    t) : Keeps kr kl s0 t := by
  unfold execInvline at e
  injection e with e
  subst e
  with_reducible repeat' first
    | assumption | apply keeps_takeRequest | (extract_lets +onlyGivenNames x; subst x) | split
    | fail_if_no_progress beta_reduce

theorem keeps_execLostWalkDone (s : State) {t : State} (hk : Keeps kr kl s0 s) (e : execLostWalkDone s = .next t) :
    Keeps kr kl s0 t := by
  unfold execLostWalkDone at e
  injection e with e
  subst e
  with_reducible repeat' first
    | assumption | apply keeps_walkEntry | apply keeps_resumeWaiting | refine Keeps.foldl _ ?_ ?_
    | refine Keeps2.foldl _ ?_ ?_ | fail_if_no_progress (refine Keeps.made ?_ rfl rfl rfl rfl rfl) | intro _
    | (extract_lets +onlyGivenNames x; subst x) | split | fail_if_no_progress beta_reduce

theorem keeps_execWrpart (r : CohReq) (mask : BitVec 128) (data : Line) (e : ReadFinding) (s : State) {t : State}
    (hk : Keeps kr kl s0 s) (e : execWrpart r mask data e s = .next t) : Keeps kr kl s0 t := by
  unfold execWrpart at e
  injection e with e
  subst e
  with_reducible repeat' first
    | assumption | apply keeps_takeRequest | (extract_lets +onlyGivenNames x; subst x) | split
    | fail_if_no_progress beta_reduce

end Sys2Proof.Machine
end

