-- ==== Sys2Proof/Laws/KeepsSweepOps.lean ====
section
/-! SUPPORT. What the operations of SweepOps.lean keep: one lemma for each, in the terms of `Keeps`. -/

set_option linter.unusedTactic false
set_option linter.unreachableTactic false

namespace Sys2Proof.Machine

variable {kr kl : Bool} {s0 : State}

theorem keeps_agentSweep (s : State) (sm : ℕ) (hk : Keeps kr kl s0 s) : Keeps2 kr kl s0 (agentSweep s sm) := by
  unfold agentSweep
  with_reducible repeat' first
    | assumption | apply keeps_sendFlit | apply Keeps2.snd | refine Keeps.foldl _ ?_ ?_ | refine Keeps2.foldl _ ?_ ?_
    | refine Keeps2.eq (by assumption) ?_ | intro _ | (extract_lets +onlyGivenNames x; subst x) | split
    | fail_if_no_progress beta_reduce | apply Keeps2.mk

theorem keeps_ackMaster (s : State) (hk : Keeps kr kl s0 s) : Keeps kr kl s0 (ackMaster s) := by
  unfold ackMaster
  with_reducible repeat' first
    | assumption | apply keeps_sendMgmt | (extract_lets +onlyGivenNames x; subst x) | split
    | fail_if_no_progress beta_reduce

theorem keeps_regrant (s : State) (t : Txn) (k : ReqKind) (r : CohReq) (st : Moesi) (hk : Keeps kr kl s0 s) : Keeps
    kr kl s0 (regrant s t k r st) := by
  unfold regrant
  extract_lets out own
  have ho : ∀ u x p, Keeps kr kl s0 u → Keeps kr kl s0 (out u x p) := fun u x p h => keeps_sendFlit _ _ h
  clear_value out own
  repeat' first
    | with_reducible assumption
    | (with_reducible apply ho)
    | exact Keeps3.snd (keeps_homeRead _ _ _ _ _ hk)
    | split

theorem keeps_resendSnoops (s : State) (t : Txn) (hk : Keeps kr kl s0 s) : Keeps kr kl s0 (resendSnoops s t) := by
  unfold resendSnoops
  with_reducible repeat' first
    | assumption | apply keeps_sendFlit | refine Keeps.foldl _ ?_ ?_ | refine Keeps2.foldl _ ?_ ?_ | intro _
    | (extract_lets +onlyGivenNames x; subst x) | split | fail_if_no_progress beta_reduce

theorem keeps_homeSweep (s : State) (sm : ℕ) (hk : Keeps kr kl s0 s) : Keeps3 kr kl s0 (homeSweep s sm) := by
  unfold homeSweep
  refine Keeps3.foldl _ hk ?_
  intro u x h
  obtain ⟨a, b, u⟩ := u
  dsimp only
  split
  · exact h
  · split
    · exact keeps_regrant _ _ _ _ _ h
    · exact keeps_resendSnoops _ _ h

theorem keeps_runSweep (s : State) (sm : ℕ) (hk : Keeps kr kl s0 s) : Keeps kr kl s0 (runSweep s sm) := by
  unfold runSweep
  split
  rename_i heq
  exact (Keeps3.eq heq (keeps_homeSweep _ _ hk)).upd rfl rfl rfl rfl rfl rfl rfl

theorem keeps_startSweep (s : State) (hk : Keeps kr kl s0 s) : Keeps kr kl s0 (startSweep s) := by
  unfold startSweep
  with_reducible repeat' first
    | assumption | apply keeps_issueStamp | apply keeps_runSweep | apply keeps_flood | apply keeps_noteStamp
    | apply Keeps2.snd | refine Keeps2.eq (by assumption) ?_ | (extract_lets +onlyGivenNames x; subst x) | split
    | fail_if_no_progress beta_reduce | apply Keeps2.mk

theorem keeps_takeJoin (s : State) (dev : ℕ) (hk : Keeps kr kl s0 s) : Keeps kr kl s0 (takeJoin s dev) := by
  unfold takeJoin
  with_reducible repeat' first
    | assumption | apply keeps_issueStamp | apply keeps_logLink | apply Keeps2.snd
    | refine Keeps2.eq (by assumption) ?_ | fail_if_no_progress (refine Keeps.made ?_ rfl rfl rfl rfl rfl)
    | (extract_lets +onlyGivenNames x; subst x) | split | fail_if_no_progress beta_reduce | apply Keeps2.mk

theorem keeps_floodAwait (s : State) (op : FlitOp) (dev : ℕ) (ws : List Word) (hk : Keeps kr kl s0 s) : Keeps kr kl
    s0 (floodAwait s op dev ws) := by
  unfold floodAwait
  with_reducible repeat' first
    | assumption | apply keeps_issueStamp | apply keeps_flood | apply keeps_noteStamp | apply Keeps2.snd
    | refine Keeps2.eq (by assumption) ?_ | fail_if_no_progress (refine Keeps.made ?_ rfl rfl rfl rfl rfl)
    | (extract_lets +onlyGivenNames x; subst x) | split | fail_if_no_progress beta_reduce | apply Keeps2.mk

end Sys2Proof.Machine
end

