-- ==== Sys2Proof/Laws/KeepsMeridian.lean ====
section
/-! SUPPORT. What the operations of Meridian.lean keep: one lemma for each, in the terms of `Keeps`. -/

set_option linter.unusedTactic false
set_option linter.unreachableTactic false

namespace Sys2Proof.Machine

variable {kr kl : Bool} {s0 : State}

theorem keeps_execTakeover (candidate _vintage : ℕ) (s : State) {t : State} (hk : Keeps kr kl s0 s) (e :
    execTakeover candidate _vintage s = .next t) : Keeps kr kl s0 t := by
  unfold execTakeover at e
  injection e with e
  subst e
  with_reducible repeat' first
    | assumption | apply keeps_sendMgmt | (extract_lets +onlyGivenNames x; subst x) | split
    | fail_if_no_progress beta_reduce

theorem keeps_clearAwait (s : State) (dev vintage : ℕ) (hk : Keeps kr kl s0 s) : Keeps kr kl s0 (clearAwait s dev
    vintage) := by
  unfold clearAwait
  with_reducible repeat' first
    | assumption | fail_if_no_progress (refine Keeps.made ?_ rfl rfl rfl rfl rfl)
    | (extract_lets +onlyGivenNames x; subst x) | split | fail_if_no_progress beta_reduce

theorem keeps_execAck (dev vintage : ℕ) (s : State) {t : State} (hk : Keeps kr kl s0 s) (e : execAck dev vintage s =
    .next t) : Keeps kr kl s0 t := by
  unfold execAck at e
  injection e with e
  subst e
  with_reducible repeat' first
    | assumption | apply keeps_clearAwait | fail_if_no_progress (refine Keeps.made ?_ rfl rfl rfl rfl rfl) | intro _
    | (extract_lets +onlyGivenNames x; subst x) | split | fail_if_no_progress beta_reduce

theorem keeps_tryTakeover (s : State) (hk : Keeps kr kl s0 s) : Keeps kr kl s0 (tryTakeover s) := by
  unfold tryTakeover
  with_reducible repeat' first
    | assumption | apply keeps_becomeMaster | (extract_lets +onlyGivenNames x; subst x) | split
    | fail_if_no_progress beta_reduce

theorem keeps_execTakeoverTimeout (s : State) {t : State} (hk : Keeps kr kl s0 s) (e : execTakeoverTimeout s = .next
    t) : Keeps kr kl s0 t := by
  unfold execTakeoverTimeout at e
  injection e with e
  subst e
  with_reducible repeat' first
    | assumption | apply keeps_loseMaster | (extract_lets +onlyGivenNames x; subst x) | split
    | fail_if_no_progress beta_reduce

theorem keeps_discardStaged (s : State) (vintage : ℕ) (hk : Keeps kr kl s0 s) : Keeps kr kl s0 (discardStaged s
    vintage) := by
  unfold discardStaged
  with_reducible repeat' first
    | assumption | fail_if_no_progress (refine Keeps.made ?_ rfl rfl rfl rfl rfl)
    | (extract_lets +onlyGivenNames x; subst x) | split | fail_if_no_progress beta_reduce

theorem keeps_execAbortDeadline (s : State) {t : State} (hk : Keeps kr kl s0 s) (e : execAbortDeadline s = .next t)
    : Keeps kr kl s0 t := by
  unfold execAbortDeadline at e
  injection e with e
  subst e
  with_reducible repeat' first
    | assumption | apply keeps_sendMgmt | apply keeps_discardStaged | apply keeps_setOutcomeOpt
    | refine Keeps.foldl _ ?_ ?_ | fail_if_no_progress (refine Keeps.made ?_ rfl rfl rfl rfl rfl) | intro _
    | (extract_lets +onlyGivenNames x; subst x) | split | fail_if_no_progress beta_reduce

theorem keeps_afterActivation (s : State) (hk : Keeps kr kl s0 s) : Keeps kr kl s0 (afterActivation s) := by
  unfold afterActivation
  with_reducible repeat' first
    | assumption | apply keeps_changePartner | apply keeps_setPartner | apply keeps_setOutcomeOpt | apply keeps_endStep
    | fail_if_no_progress (refine Keeps.made ?_ rfl rfl rfl rfl rfl) | (extract_lets +onlyGivenNames x; subst x)
    | split | fail_if_no_progress beta_reduce

theorem keeps_execVintageActivation (s : State) {t : State} (hk : Keeps kr kl s0 s) (e : execVintageActivation s =
    .next t) : Keeps kr kl s0 t := by
  unfold execVintageActivation at e
  injection e with e
  subst e
  with_reducible repeat' first
    | assumption | apply keeps_becomeDivergent | apply keeps_afterActivation | apply keeps_activateVintage
    | fail_if_no_progress (refine Keeps.made ?_ rfl rfl rfl rfl rfl) | (extract_lets +onlyGivenNames x; subst x)
    | split | fail_if_no_progress beta_reduce

theorem keeps_execHeartbeatInterval (s : State) {t : State} (hk : Keeps kr kl s0 s) (e : execHeartbeatInterval s =
    .next t) : Keeps kr kl s0 t := by
  unfold execHeartbeatInterval at e
  injection e with e
  subst e
  with_reducible repeat' first
    | assumption | apply keeps_portStamp | apply keeps_sendLink | apply keeps_sendSync | apply Keeps2.snd
    | refine Keeps.foldl _ ?_ ?_ | refine Keeps2.foldl _ ?_ ?_ | refine Keeps2.eq (by assumption) ?_
    | fail_if_no_progress (refine Keeps.made ?_ rfl rfl rfl rfl rfl) | intro _
    | (extract_lets +onlyGivenNames x; subst x) | split | fail_if_no_progress beta_reduce | apply Keeps2.mk

theorem keeps_execMerRefReturn (s : State) {t : State} (hk : Keeps kr kl s0 s) (e : execMerRefReturn s = .next t) :
    Keeps kr kl s0 t := by
  unfold execMerRefReturn at e
  injection e with e
  subst e
  with_reducible repeat' first
    | assumption | fail_if_no_progress (refine Keeps.made ?_ rfl rfl rfl rfl rfl)
    | (extract_lets +onlyGivenNames x; subst x) | split | fail_if_no_progress beta_reduce

theorem keeps_recordMarks (s : State) (hk : Keeps kr kl s0 s) : Keeps kr kl s0 (recordMarks s) := by
  unfold recordMarks
  with_reducible repeat' first
    | assumption | apply keeps_issueStamp | apply keeps_logAdd | apply Keeps2.snd | refine Keeps.foldl _ ?_ ?_
    | refine Keeps2.foldl _ ?_ ?_ | refine Keeps2.eq (by assumption) ?_
    | fail_if_no_progress (refine Keeps.made ?_ rfl rfl rfl rfl rfl) | intro _
    | (extract_lets +onlyGivenNames x; subst x) | split | fail_if_no_progress beta_reduce | apply Keeps2.mk

theorem keeps_execMerPpsInEdge (s : State) {t : State} (hk : Keeps kr kl s0 s) (e : execMerPpsInEdge s = .next t) :
    Keeps kr kl s0 t := by
  unfold execMerPpsInEdge at e
  injection e with e
  subst e
  with_reducible repeat' first
    | assumption | apply keeps_correct | fail_if_no_progress (refine Keeps.made ?_ rfl rfl rfl rfl rfl)
    | (extract_lets +onlyGivenNames x; subst x) | split | fail_if_no_progress beta_reduce

theorem keeps_execTakeoverRequestTimer (s : State) {t : State} (hk : Keeps kr kl s0 s) (e : execTakeoverRequestTimer
    s = .next t) : Keeps kr kl s0 t := by
  unfold execTakeoverRequestTimer at e
  injection e with e
  subst e
  with_reducible repeat' first
    | assumption | apply keeps_sendMgmt | apply keeps_tryTakeover | refine Keeps.foldl _ ?_ ?_
    | refine Keeps2.foldl _ ?_ ?_ | fail_if_no_progress (refine Keeps.made ?_ rfl rfl rfl rfl rfl) | intro _
    | (extract_lets +onlyGivenNames x; subst x) | split | fail_if_no_progress beta_reduce

theorem keeps_execManagementResend (s : State) {t : State} (hk : Keeps kr kl s0 s) (e : execManagementResend s =
    .next t) : Keeps kr kl s0 t := by
  unfold execManagementResend at e
  injection e with e
  subst e
  with_reducible repeat' first
    | assumption | apply keeps_send | refine Keeps.foldl _ ?_ ?_
    | fail_if_no_progress (refine Keeps.made ?_ rfl rfl rfl rfl rfl) | intro _
    | (extract_lets +onlyGivenNames x; subst x) | split | fail_if_no_progress beta_reduce

theorem keeps_sendDelay (s : State) (p : ℕ) (hk : Keeps kr kl s0 s) : Keeps kr kl s0 (sendDelay s p) := by
  unfold sendDelay
  with_reducible repeat' first
    | assumption | apply keeps_sendLink | apply keeps_updPort | (extract_lets +onlyGivenNames x; subst x) | split
    | fail_if_no_progress beta_reduce

theorem keeps_execLinkDelayRemeasure (s : State) {t : State} (hk : Keeps kr kl s0 s) (e : execLinkDelayRemeasure s =
    .next t) : Keeps kr kl s0 t := by
  unfold execLinkDelayRemeasure at e
  injection e with e
  subst e
  with_reducible repeat' first
    | assumption | apply keeps_sendDelay | refine Keeps.foldl _ ?_ ?_
    | fail_if_no_progress (refine Keeps.made ?_ rfl rfl rfl rfl rfl) | intro _
    | (extract_lets +onlyGivenNames x; subst x) | split | fail_if_no_progress beta_reduce

theorem keeps_execPrepare (vintage : ℕ) (digest : Word) (act : ℕ) (catchup : Bool) (image : CfgImage) (s : State) {t
    : State} (hk : Keeps kr kl s0 s) (e : execPrepare vintage digest act catchup image s = .next t) : Keeps kr kl s0 t
    := by
  unfold execPrepare at e
  injection e with e
  subst e
  with_reducible repeat' first
    | assumption | apply keeps_takePrepare | (extract_lets +onlyGivenNames x; subst x) | split
    | fail_if_no_progress beta_reduce

theorem keeps_loseReference (s : State) (hk : Keeps kr kl s0 s) : Keeps kr kl s0 (loseReference s) := by
  unfold loseReference
  with_reducible repeat' first
    | assumption | apply keeps_faultAt | apply keeps_logMeridian
    | fail_if_no_progress (refine Keeps.made ?_ rfl rfl rfl rfl rfl) | (extract_lets +onlyGivenNames x; subst x)
    | split | fail_if_no_progress beta_reduce

theorem keeps_execPpsTimeout (s : State) {t : State} (hk : Keeps kr kl s0 s) (e : execPpsTimeout s = .next t) :
    Keeps kr kl s0 t := by
  unfold execPpsTimeout at e
  injection e with e
  subst e
  with_reducible repeat' first
    | assumption | apply keeps_loseReference | (extract_lets +onlyGivenNames x; subst x) | split
    | fail_if_no_progress beta_reduce

theorem keeps_yieldRole (s : State) (dev : ℕ) (hk : Keeps kr kl s0 s) : Keeps kr kl s0 (yieldRole s dev) := by
  unfold yieldRole
  with_reducible repeat' first
    | assumption | fail_if_no_progress (refine Keeps.made ?_ rfl rfl rfl rfl rfl)
    | (extract_lets +onlyGivenNames x; subst x) | split | fail_if_no_progress beta_reduce

theorem keeps_learnStandby (s : State) (dev : ℕ) (hk : Keeps kr kl s0 s) : Keeps kr kl s0 (learnStandby s dev) := by
  unfold learnStandby
  with_reducible repeat' first
    | assumption | fail_if_no_progress (refine Keeps.made ?_ rfl rfl rfl rfl rfl)
    | (extract_lets +onlyGivenNames x; subst x) | split | fail_if_no_progress beta_reduce

theorem keeps_masterBeat (s : State) (port vintage digest16 dev : ℕ) (hk : Keeps kr kl s0 s) : Keeps kr kl s0
    (masterBeat s port vintage digest16 dev) := by
  unfold masterBeat
  with_reducible repeat' first
    | assumption | apply keeps_yieldRole | apply keeps_learnStandby | apply keeps_sendLink | refine Keeps.foldl _ ?_ ?_
    | refine Keeps2.foldl _ ?_ ?_ | fail_if_no_progress (refine Keeps.made ?_ rfl rfl rfl rfl rfl) | intro _
    | (extract_lets +onlyGivenNames x; subst x) | split | fail_if_no_progress beta_reduce

theorem keeps_execMasterMissing (s : State) {t : State} (hk : Keeps kr kl s0 s) (e : execMasterMissing s = .next t)
    : Keeps kr kl s0 t := by
  unfold execMasterMissing at e
  injection e with e
  subst e
  with_reducible repeat' first
    | assumption | apply keeps_loseMaster | fail_if_no_progress (refine Keeps.made ?_ rfl rfl rfl rfl rfl)
    | (extract_lets +onlyGivenNames x; subst x) | split | fail_if_no_progress beta_reduce

theorem keeps_execSync (port : ℕ) (mer : Word) (_vintage masterId : ℕ) (s : State) {t : State} (hk : Keeps kr kl s0
    s) (e : execSync port mer _vintage masterId s = .next t) : Keeps kr kl s0 t := by
  unfold execSync at e
  injection e with e
  subst e
  with_reducible repeat' first
    | assumption | apply keeps_sendSync | apply keeps_correct | apply keeps_takeError
    | fail_if_no_progress (refine Keeps.made ?_ rfl rfl rfl rfl rfl) | (extract_lets +onlyGivenNames x; subst x)
    | split | fail_if_no_progress beta_reduce

theorem keeps_execTakeoverAck (dev _vintage : ℕ) (s : State) {t : State} (hk : Keeps kr kl s0 s) (e :
    execTakeoverAck dev _vintage s = .next t) : Keeps kr kl s0 t := by
  unfold execTakeoverAck at e
  injection e with e
  subst e
  with_reducible repeat' first
    | assumption | apply keeps_tryTakeover | fail_if_no_progress (refine Keeps.made ?_ rfl rfl rfl rfl rfl)
    | (extract_lets +onlyGivenNames x; subst x) | split | fail_if_no_progress beta_reduce

theorem keeps_idleTick (s : State) (hk : Keeps kr kl s0 s) : Keeps kr kl s0 (idleTick s) := by
  unfold idleTick
  with_reducible repeat' first
    | assumption | apply keeps_tick | (extract_lets +onlyGivenNames x; subst x) | split
    | fail_if_no_progress beta_reduce

theorem keeps_takeReport (s : State) (kind dev : ℕ) (hk : Keeps kr kl s0 s) : Keeps kr kl s0 (takeReport s kind dev)
    := by
  unfold takeReport
  with_reducible repeat' first
    | assumption | apply keeps_startSweep | apply keeps_sendCatchup | apply keeps_takeJoin | apply keeps_floodAwait
    | (extract_lets +onlyGivenNames x; subst x) | split | fail_if_no_progress beta_reduce

theorem keeps_execReport (kind dev : ℕ) (s : State) {t : State} (hk : Keeps kr kl s0 s) (e : execReport kind dev s =
    .next t) : Keeps kr kl s0 t := by
  unfold execReport at e
  injection e with e
  subst e
  with_reducible repeat' first
    | assumption | apply keeps_takeReport | (extract_lets +onlyGivenNames x; subst x) | split
    | fail_if_no_progress beta_reduce

theorem keeps_execMerRefLoss (s : State) {t : State} (hk : Keeps kr kl s0 s) (e : execMerRefLoss s = .next t) :
    Keeps kr kl s0 t := by
  unfold execMerRefLoss at e
  injection e with e
  subst e
  with_reducible repeat' first
    | assumption | apply keeps_loseReference | fail_if_no_progress (refine Keeps.made ?_ rfl rfl rfl rfl rfl)
    | (extract_lets +onlyGivenNames x; subst x) | split | fail_if_no_progress beta_reduce

theorem keeps_neighbourBeat (s : State) (port vintage digest16 dev : ℕ) (hk : Keeps kr kl s0 s) : Keeps kr kl s0
    (neighbourBeat s port vintage digest16 dev) := by
  unfold neighbourBeat
  with_reducible repeat' first
    | assumption | apply keeps_updPort | apply keeps_takeReport | apply keeps_sendMgmt
    | fail_if_no_progress (refine Keeps.made ?_ rfl rfl rfl rfl rfl) | (extract_lets +onlyGivenNames x; subst x)
    | split | fail_if_no_progress beta_reduce

theorem keeps_execHeartbeat (port vintage digest16 dev role : ℕ) (s : State) {t : State} (hk : Keeps kr kl s0 s) (e
    : execHeartbeat port vintage digest16 dev role s = .next t) : Keeps kr kl s0 t := by
  unfold execHeartbeat at e
  injection e with e
  subst e
  with_reducible repeat' first
    | assumption | apply keeps_neighbourBeat | apply keeps_masterBeat
    | fail_if_no_progress (refine Keeps.made ?_ rfl rfl rfl rfl rfl) | (extract_lets +onlyGivenNames x; subst x)
    | split | fail_if_no_progress beta_reduce

theorem keeps_execDelay (port : ℕ) (answer : Bool) (t1 t2 t3 : ℕ) (s : State) {t : State} (hk : Keeps kr kl s0 s) (e
    : execDelay port answer t1 t2 t3 s = .next t) : Keeps kr kl s0 t := by
  unfold execDelay at e
  injection e with e
  subst e
  with_reducible repeat' first
    | assumption | apply keeps_sendLink | apply keeps_updPort | (extract_lets +onlyGivenNames x; subst x) | split
    | fail_if_no_progress beta_reduce

theorem keeps_execRouteStagingTimeout (s : State) {t : State} (hk : Keeps kr kl s0 s) (e : execRouteStagingTimeout s
    = .next t) : Keeps kr kl s0 t := by
  unfold execRouteStagingTimeout at e
  injection e with e
  subst e
  with_reducible repeat' first
    | assumption | apply keeps_refusePrepare | fail_if_no_progress (refine Keeps.made ?_ rfl rfl rfl rfl rfl)
    | (extract_lets +onlyGivenNames x; subst x) | split | fail_if_no_progress beta_reduce

theorem keeps_execStampWatermark (s : State) {t : State} (hk : Keeps kr kl s0 s) (e : execStampWatermark s = .next
    t) : Keeps kr kl s0 t := by
  unfold execStampWatermark at e
  injection e with e
  subst e
  with_reducible repeat' first
    | assumption | apply keeps_recordMarks | fail_if_no_progress (refine Keeps.made ?_ rfl rfl rfl rfl rfl)
    | (extract_lets +onlyGivenNames x; subst x) | split | fail_if_no_progress beta_reduce

theorem keeps_execNack (dev vintage : ℕ) (s : State) {t : State} (hk : Keeps kr kl s0 s) (e : execNack dev vintage s
    = .next t) : Keeps kr kl s0 t := by
  unfold execNack at e
  injection e with e
  subst e
  with_reducible repeat' first
    | assumption | apply keeps_clearAwait | fail_if_no_progress (refine Keeps.made ?_ rfl rfl rfl rfl rfl) | intro _
    | (extract_lets +onlyGivenNames x; subst x) | split | fail_if_no_progress beta_reduce

theorem keeps_execTrnOldDrained (s : State) {t : State} (hk : Keeps kr kl s0 s) (e : execTrnOldDrained s = .next t)
    : Keeps kr kl s0 t := by
  unfold execTrnOldDrained at e
  injection e with e
  subst e
  with_reducible repeat' first
    | assumption | apply keeps_finishStaging | fail_if_no_progress (refine Keeps.made ?_ rfl rfl rfl rfl rfl)
    | (extract_lets +onlyGivenNames x; subst x) | split | fail_if_no_progress beta_reduce

theorem keeps_execMerPpsOutEdge (s : State) {t : State} (hk : Keeps kr kl s0 s) (e : execMerPpsOutEdge s = .next t)
    : Keeps kr kl s0 t := by
  unfold execMerPpsOutEdge at e
  injection e with e
  subst e
  with_reducible repeat' first
    | assumption | fail_if_no_progress (refine Keeps.made ?_ rfl rfl rfl rfl rfl)
    | (extract_lets +onlyGivenNames x; subst x) | split | fail_if_no_progress beta_reduce

theorem keeps_execAbort (vintage : ℕ) (s : State) {t : State} (hk : Keeps kr kl s0 s) (e : execAbort vintage s =
    .next t) : Keeps kr kl s0 t := by
  unfold execAbort at e
  injection e with e
  subst e
  with_reducible repeat' first
    | assumption | apply keeps_discardStaged | (extract_lets +onlyGivenNames x; subst x) | split
    | fail_if_no_progress beta_reduce

end Sys2Proof.Machine
end

