-- ==== Sys2Proof/Laws/KeepsLinkOps.lean ====
section
/-! SUPPORT. What the operations of LinkOps.lean keep: one lemma for each, in the terms of `Keeps`. -/

set_option linter.unusedTactic false
set_option linter.unreachableTactic false

namespace Sys2Proof.Machine

variable {kr kl : Bool} {s0 : State}

theorem keeps_relinkChange (s : State) (hk : Keeps kr kl s0 s) : Keeps kr kl s0 (relinkChange s) := by
  unfold relinkChange
  with_reducible repeat' first
    | assumption | apply keeps_startChange | refine Keeps.foldl _ ?_ ?_ | refine Keeps2.foldl _ ?_ ?_ | intro _
    | (extract_lets +onlyGivenNames x; subst x) | split | fail_if_no_progress beta_reduce

theorem keeps_loseHomed (s : State) (dev : ℕ) (hk : Keeps kr kl s0 s) : Keeps kr kl s0 (loseHomed s dev) := by
  unfold loseHomed
  with_reducible repeat' first
    | assumption | apply keeps_dropLine | apply keeps_fault | refine Keeps.foldl _ ?_ ?_ | refine Keeps2.foldl _ ?_ ?_
    | fail_if_no_progress (refine Keeps.made ?_ rfl rfl rfl rfl rfl) | intro _
    | (extract_lets +onlyGivenNames x; subst x) | split | fail_if_no_progress beta_reduce

theorem keeps_ackFrames (s : State) (p a : ℕ) (hk : Keeps kr kl s0 s) : Keeps kr kl s0 (ackFrames s p a) := by
  unfold ackFrames
  with_reducible repeat' first
    | assumption | apply keeps_updPort | (extract_lets +onlyGivenNames x; subst x) | split
    | fail_if_no_progress beta_reduce

theorem keeps_drrPick (weight : State → ℕ → ℕ × State) (heads all : List Flit) (a3 : ℕ) (a4 : Drr) (a5 : State) (hk
    : Keeps kr kl s0 a5) (hf : ∀ s0 x0 x1, Keeps kr kl s0 x0 → Keeps2 kr kl s0 (weight x0 x1)) : Keeps3 kr kl s0
    (drrPick weight heads all a3 a4 a5) := by
  induction a3 generalizing a4 a5 with
  | zero => unfold drrPick; exact Keeps3.mk hk
  | succ n ih =>
    unfold drrPick
    dsimp only
    split
    · exact Keeps3.mk hk
    · split
      · exact Keeps3.mk hk
      · exact ih _ _ (hf _ _ _ hk)

theorem keeps_zoneWeight (lo : ℕ) (s : State) (z : ℕ) (hk : Keeps kr kl s0 s) : Keeps2 kr kl s0 (zoneWeight lo s z)
    := by
  unfold zoneWeight
  with_reducible repeat' first
    | assumption | apply keeps_zoneEntry | apply Keeps2.snd | refine Keeps2.eq (by assumption) ?_ | exact repKeeps_rep
    | (extract_lets +onlyGivenNames x; subst x) | split | fail_if_no_progress beta_reduce | apply Keeps2.mk

theorem keeps_fabricWeight (a0 : State) (a1 : ℕ) (hk : Keeps kr kl s0 a0) : Keeps2 kr kl s0 (fabricWeight a0 a1) :=
    by
  unfold fabricWeight
  with_reducible repeat' first
    | assumption | apply keeps_zoneWeight | apply Keeps2.snd | refine Keeps2.eq (by assumption) ?_
    | (extract_lets +onlyGivenNames x; subst x) | split | fail_if_no_progress beta_reduce | apply Keeps2.mk

theorem keeps_pickZone (p : ℕ) (heads : List Flit) (s : State) (hk : Keeps kr kl s0 s) : Keeps2 kr kl s0 (pickZone p
    heads s) := by
  have k : ∀ t all d, Keeps3 kr kl s0 (drrPick fabricWeight heads all t d s) := fun _ _ _ =>
    keeps_drrPick _ _ _ _ _ _ hk fun _ _ _ h => keeps_fabricWeight _ _ h
  unfold pickZone
  generalize drrTurns heads = t
  extract_lets x all
  have k := k t all ⟨x.turn, x.deficits⟩
  generalize drrPick fabricWeight heads all t ⟨x.turn, x.deficits⟩ s = y at k ⊢
  exact Keeps2.mk (keeps_updPort _ _ _ k)

theorem keeps_pickPacket (s : State) (p : ℕ) (hk : Keeps kr kl s0 s) : Keeps2 kr kl s0 (pickPacket s p) := by
  unfold pickPacket
  with_reducible repeat' first
    | assumption | apply keeps_pickZone | apply Keeps2.snd | refine Keeps2.eq (by assumption) ?_
    | (extract_lets +onlyGivenNames x; subst x) | split | fail_if_no_progress beta_reduce | apply Keeps2.mk

theorem keeps_fillFrame (p a1 : ℕ) (a2 : State) (a3 : List Flit) (hk : Keeps kr kl s0 a2) : Keeps2 kr kl s0
    (fillFrame p a1 a2 a3) := by
  induction a1 generalizing a2 a3 with
  | zero =>
    unfold fillFrame
    with_reducible repeat' first
      | assumption | apply keeps_updPort | apply keeps_pickPacket | apply Keeps2.snd
      | refine Keeps2.eq (by assumption) ?_ | (extract_lets +onlyGivenNames x; subst x) | split
      | fail_if_no_progress beta_reduce | apply Keeps2.mk
  | succ n1  ih =>
    unfold fillFrame
    with_reducible repeat' first
      | assumption | apply ih | apply keeps_updPort | apply keeps_pickPacket | apply Keeps2.snd
      | refine Keeps2.eq (by assumption) ?_ | (extract_lets +onlyGivenNames x; subst x) | split
      | fail_if_no_progress beta_reduce | apply Keeps2.mk

theorem keeps_endLostTxns (s : State) (dev : ℕ) (hk : Keeps kr kl s0 s) : Keeps kr kl s0 (endLostTxns s dev) := by
  unfold endLostTxns
  with_reducible repeat' first
    | assumption | apply keeps_loseAnswer | apply keeps_freeLine | refine Keeps.foldl _ ?_ ?_
    | refine Keeps2.foldl _ ?_ ?_ | fail_if_no_progress (refine Keeps.made ?_ rfl rfl rfl rfl rfl) | intro _
    | (extract_lets +onlyGivenNames x; subst x) | split | fail_if_no_progress beta_reduce

theorem keeps_trainPort (s : State) (p : ℕ) (hk : Keeps kr kl s0 s) : Keeps kr kl s0 (trainPort s p) := by
  unfold trainPort
  with_reducible repeat' first
    | assumption | apply keeps_portStamp | apply keeps_updPort | apply Keeps2.snd | refine Keeps2.eq (by assumption) ?_
    | (extract_lets +onlyGivenNames x; subst x) | split | fail_if_no_progress beta_reduce | apply Keeps2.mk

theorem keeps_losePartner (s : State) (hk : Keeps kr kl s0 s) : Keeps kr kl s0 (losePartner s) := by
  unfold losePartner
  with_reducible repeat' first
    | assumption | apply keeps_unmirrorOps | apply keeps_setPartner | (extract_lets +onlyGivenNames x; subst x) | split
    | fail_if_no_progress beta_reduce

theorem keeps_startRecovery (s : State) (p : ℕ) (hk : Keeps kr kl s0 s) : Keeps kr kl s0 (startRecovery s p) := by
  unfold startRecovery
  with_reducible repeat' first
    | assumption | apply keeps_portStamp | apply keeps_updPort | apply Keeps2.snd | refine Keeps2.eq (by assumption) ?_
    | (extract_lets +onlyGivenNames x; subst x) | split | fail_if_no_progress beta_reduce | apply Keeps2.mk

theorem keeps_portFault (s : State) (p cls : ℕ) (stamp : Word) (hk : Keeps kr kl s0 s) : Keeps kr kl s0 (portFault s
    p cls stamp) := by
  unfold portFault
  with_reducible repeat' first
    | assumption | apply keeps_faultAt | (extract_lets +onlyGivenNames x; subst x) | split
    | fail_if_no_progress beta_reduce

theorem keeps_replayPort (s : State) (p : ℕ) (hk : Keeps kr kl s0 s) : Keeps kr kl s0 (replayPort s p) := by
  unfold replayPort
  with_reducible repeat' first
    | assumption | apply keeps_startRecovery | apply keeps_portFault | apply keeps_updPort
    | (extract_lets +onlyGivenNames x; subst x) | split | fail_if_no_progress beta_reduce

theorem keeps_widthFault (s : State) (p : ℕ) (hk : Keeps kr kl s0 s) : Keeps kr kl s0 (widthFault s p) := by
  unfold widthFault
  with_reducible repeat' first
    | assumption | apply keeps_portStamp | apply keeps_portFault | apply Keeps2.snd
    | refine Keeps2.eq (by assumption) ?_ | (extract_lets +onlyGivenNames x; subst x) | split
    | fail_if_no_progress beta_reduce | apply Keeps2.mk

theorem keeps_isolateModule (s : State) (hk : Keeps kr kl s0 s) : Keeps kr kl s0 (isolateModule s) := by
  unfold isolateModule
  with_reducible repeat' first
    | assumption | apply keeps_faultAt | fail_if_no_progress (refine Keeps.made ?_ rfl rfl rfl rfl rfl)
    | (extract_lets +onlyGivenNames x; subst x) | split | fail_if_no_progress beta_reduce

theorem keeps_takeLost (s : State) (dev : ℕ) (hk : Keeps kr kl s0 s) : Keeps kr kl s0 (takeLost s dev) := by
  unfold takeLost
  with_reducible repeat' first
    | assumption | apply keeps_isolateModule | apply keeps_issueStamp | apply keeps_logLink | apply keeps_loseHomed
    | apply keeps_endLostTxns | apply keeps_sendErr | apply keeps_losePartner | apply keeps_orphanPosting
    | apply keeps_setOutcome | apply Keeps2.snd | refine Keeps.foldl _ ?_ ?_ | refine Keeps2.foldl _ ?_ ?_
    | refine Keeps2.eq (by assumption) ?_ | fail_if_no_progress (refine Keeps.made ?_ rfl rfl rfl rfl rfl) | intro _
    | (extract_lets +onlyGivenNames x; subst x) | split | fail_if_no_progress beta_reduce | apply Keeps2.mk

theorem keeps_declareLost (s : State) (dev : ℕ) (hk : Keeps kr kl s0 s) : Keeps kr kl s0 (declareLost s dev) := by
  unfold declareLost
  with_reducible repeat' first
    | assumption | apply keeps_startSweep | apply keeps_takeLost | apply keeps_floodAwait
    | (extract_lets +onlyGivenNames x; subst x) | split | fail_if_no_progress beta_reduce

theorem keeps_takeLinkdown (s : State) (reporter port neighbour mer : ℕ) (hk : Keeps kr kl s0 s) : Keeps kr kl s0
    (takeLinkdown s reporter port neighbour mer) := by
  unfold takeLinkdown
  with_reducible repeat' first
    | assumption | apply keeps_relinkChange | apply keeps_faultAt | apply keeps_declareLost
    | refine Keeps.foldl _ ?_ ?_ | refine Keeps2.foldl _ ?_ ?_
    | fail_if_no_progress (refine Keeps.made ?_ rfl rfl rfl rfl rfl) | intro _
    | (extract_lets +onlyGivenNames x; subst x) | split | fail_if_no_progress beta_reduce

theorem keeps_tellDown (s : State) (p nbr mer : ℕ) (hk : Keeps kr kl s0 s) : Keeps kr kl s0 (tellDown s p nbr mer)
    := by
  unfold tellDown
  with_reducible repeat' first
    | assumption | apply keeps_takeLinkdown | apply keeps_sendMgmt | (extract_lets +onlyGivenNames x; subst x) | split
    | fail_if_no_progress beta_reduce

theorem keeps_portDown (s : State) (p state : ℕ) (hk : Keeps kr kl s0 s) : Keeps kr kl s0 (portDown s p state) := by
  unfold portDown
  with_reducible repeat' first
    | assumption | apply keeps_portStamp | apply keeps_updPort | apply keeps_portFault | apply keeps_logLink
    | apply keeps_losePartner | apply keeps_tellDown | apply Keeps2.snd | refine Keeps.foldl _ ?_ ?_
    | refine Keeps2.foldl _ ?_ ?_ | refine Keeps2.eq (by assumption) ?_
    | fail_if_no_progress (refine Keeps.made ?_ rfl rfl rfl rfl rfl) | intro _
    | (extract_lets +onlyGivenNames x; subst x) | split | fail_if_no_progress beta_reduce | apply Keeps2.mk

theorem keeps_transmit (s : State) (p : ℕ) (hk : Keeps kr kl s0 s) : Keeps kr kl s0 (transmit s p) := by
  unfold transmit
  with_reducible repeat' first
    | assumption | apply keeps_updPort | apply keeps_fillFrame | apply Keeps2.snd | refine Keeps2.eq (by assumption) ?_
    | (extract_lets +onlyGivenNames x; subst x) | split | fail_if_no_progress beta_reduce | apply Keeps2.mk

theorem keeps_treeWeight (a0 : State) (a1 : ℕ) (hk : Keeps kr kl s0 a0) : Keeps2 kr kl s0 (treeWeight a0 a1) := by
  unfold treeWeight
  with_reducible repeat' first
    | assumption | apply keeps_zoneWeight | apply Keeps2.snd | refine Keeps2.eq (by assumption) ?_
    | (extract_lets +onlyGivenNames x; subst x) | split | fail_if_no_progress beta_reduce | apply Keeps2.mk

theorem keeps_startLane (s : State) (p lane : ℕ) (hk : Keeps kr kl s0 s) : Keeps kr kl s0 (startLane s p lane) := by
  unfold startLane
  with_reducible repeat' first
    | assumption | apply keeps_updPort | apply keeps_replayPort | apply keeps_widthFault
    | (extract_lets +onlyGivenNames x; subst x) | split | fail_if_no_progress beta_reduce

end Sys2Proof.Machine
end

