-- ==== Sys2Proof/Laws/KeepsTreeOps.lean ====
section
/-! SUPPORT. What the operations of TreeOps.lean keep: one lemma for each, in the terms of `Keeps`. -/

set_option linter.unusedTactic false
set_option linter.unreachableTactic false

namespace Sys2Proof.Machine

variable {kr kl : Bool} {s0 : State}

theorem keeps_openChoice (s : State) (p : ℕ) (ready : List Flit) (hk : Keeps kr kl s0 s) : Keeps2 kr kl s0
    (openChoice s p ready) := by
  unfold openChoice
  with_reducible repeat' first
    | assumption | apply keeps_drrPick | apply keeps_treeWeight | apply Keeps2.snd | apply Keeps3.snd
    | refine Keeps2.eq (by assumption) ?_ | refine Keeps3.eq (by assumption) ?_
    | fail_if_no_progress (refine Keeps.made ?_ rfl rfl rfl rfl rfl) | intro _
    | (extract_lets +onlyGivenNames x; subst x) | split | fail_if_no_progress beta_reduce | apply Keeps2.mk
    | apply Keeps3.mk

theorem keeps_unroutable (s : State) (f : Flit) (hk : Keeps kr kl s0 s) : Keeps kr kl s0 (unroutable s f) := by
  unfold unroutable
  with_reducible repeat' first
    | assumption | apply keeps_answerErr | apply keeps_issueStamp | apply keeps_faultAt | apply keeps_takeReport
    | apply keeps_sendMgmt | apply Keeps2.snd | refine Keeps2.eq (by assumption) ?_
    | fail_if_no_progress (refine Keeps.made ?_ rfl rfl rfl rfl rfl) | (extract_lets +onlyGivenNames x; subst x)
    | split | fail_if_no_progress beta_reduce | apply Keeps2.mk

theorem keeps_leaveOn (s : State) (f : Flit) (q : ℕ) (hk : Keeps kr kl s0 s) : Keeps kr kl s0 (leaveOn s f q) := by
  unfold leaveOn
  with_reducible repeat' first
    | assumption | apply keeps_unroutable | apply keeps_updPort | (extract_lets +onlyGivenNames x; subst x) | split
    | fail_if_no_progress beta_reduce

theorem keeps_checkLink (s : State) (f : Flit) (a2 : LinkCheck) (hk : Keeps kr kl s0 s) : Keeps2 kr kl s0 (checkLink
    s f a2) := by
  unfold checkLink
  with_reducible repeat' first
    | assumption | apply keeps_faultAt | apply keeps_fault | apply Keeps2.snd | refine Keeps.foldl _ ?_ ?_
    | refine Keeps2.foldl _ ?_ ?_ | refine Keeps2.eq (by assumption) ?_
    | fail_if_no_progress (refine Keeps.made ?_ rfl rfl rfl rfl rfl) | intro _
    | (extract_lets +onlyGivenNames x; subst x) | split | fail_if_no_progress beta_reduce | apply Keeps2.mk

theorem keeps_enterRouter (s : State) (f : Flit) (r : ℕ) (hk : Keeps kr kl s0 s) : Keeps kr kl s0 (enterRouter s f
    r) := by
  unfold enterRouter
  with_reducible repeat' first
    | assumption | fail_if_no_progress (refine Keeps.made ?_ rfl rfl rfl rfl rfl)
    | (extract_lets +onlyGivenNames x; subst x) | split | fail_if_no_progress beta_reduce

theorem keeps_treeNackFor (s : State) (f : Flit) (d : ℕ) (hk : Keeps kr kl s0 s) : Keeps kr kl s0 (treeNackFor s f
    d) := by
  unfold treeNackFor
  with_reducible repeat' first
    | assumption | apply keeps_updDom | apply keeps_sendFlit
    | fail_if_no_progress (refine Keeps.made ?_ rfl rfl rfl rfl rfl) | (extract_lets +onlyGivenNames x; subst x)
    | split | fail_if_no_progress beta_reduce

theorem keeps_passDomain (s : State) (f : Flit) (d : ℕ) (hk : Keeps kr kl s0 s) : Keeps kr kl s0 (passDomain s f d)
    := by
  unfold passDomain
  with_reducible repeat' first
    | assumption | apply keeps_enterRouter | apply keeps_updDom | apply keeps_treeNackFor | apply keeps_answerErr
    | apply keeps_sendFlit | (extract_lets +onlyGivenNames x; subst x) | split | fail_if_no_progress beta_reduce

theorem keeps_deliver (s : State) (f : Flit) (hk : Keeps kr kl s0 s) : Keeps kr kl s0 (deliver s f) := by
  unfold deliver
  with_reducible repeat' first
    | assumption | apply keeps_passDomain | fail_if_no_progress (refine Keeps.made ?_ rfl rfl rfl rfl rfl)
    | (extract_lets +onlyGivenNames x; subst x) | split | fail_if_no_progress beta_reduce

theorem keeps_portChoice (s : State) (p : ℕ) (ready : List Flit) (hk : Keeps kr kl s0 s) : Keeps2 kr kl s0
    (portChoice s p ready) := by
  unfold portChoice
  with_reducible repeat' first
    | assumption | apply keeps_openChoice | apply Keeps2.snd | refine Keeps2.eq (by assumption) ?_
    | (extract_lets +onlyGivenNames x; subst x) | split | fail_if_no_progress beta_reduce | apply Keeps2.mk

theorem keeps_portSends (s : State) (p : ℕ) (f : Flit) (hk : Keeps kr kl s0 s) : Keeps kr kl s0 (portSends s p f) :=
    by
  unfold portSends
  with_reducible repeat' first
    | assumption | fail_if_no_progress (refine Keeps.made ?_ rfl rfl rfl rfl rfl)
    | (extract_lets +onlyGivenNames x; subst x) | split | fail_if_no_progress beta_reduce

theorem keeps_treeTake (s : State) (f : Flit) (hk : Keeps kr kl s0 s) : KeepsO kr kl s0 (treeTake s f) := by
  unfold treeTake
  with_reducible repeat' first
    | assumption | apply keeps_portChoice | apply keeps_portSends | exact KeepsO.none | apply KeepsO.some
    | apply Keeps.getD | refine KeepsO.map ?_ | apply Keeps2.snd | refine Keeps2.eq (by assumption) ?_
    | refine KeepsO.eq (by assumption) ?_ | fail_if_no_progress (refine Keeps.made ?_ rfl rfl rfl rfl rfl) | intro _
    | (extract_lets +onlyGivenNames x; subst x) | split | fail_if_no_progress beta_reduce | apply Keeps2.mk

theorem keeps_countStale (s : State) (f : Flit) (hk : Keeps kr kl s0 s) : Keeps kr kl s0 (countStale s f) := by
  unfold countStale
  with_reducible repeat' first
    | assumption | fail_if_no_progress (refine Keeps.made ?_ rfl rfl rfl rfl rfl)
    | (extract_lets +onlyGivenNames x; subst x) | split | fail_if_no_progress beta_reduce

theorem keeps_routeMesh (s : State) (f : Flit) (p : ℕ) (hk : Keeps kr kl s0 s) : Keeps kr kl s0 (routeMesh s f p) :=
    by
  unfold routeMesh
  with_reducible repeat' first
    | assumption | apply keeps_leaveOn | apply keeps_unroutable | (extract_lets +onlyGivenNames x; subst x) | split
    | fail_if_no_progress beta_reduce

theorem keeps_routeTorus (s : State) (f : Flit) (p : ℕ) (hk : Keeps kr kl s0 s) : Keeps kr kl s0 (routeTorus s f p)
    := by
  unfold routeTorus
  with_reducible repeat' first
    | assumption | apply keeps_leaveOn | apply keeps_unroutable | (extract_lets +onlyGivenNames x; subst x) | split
    | fail_if_no_progress beta_reduce

theorem keeps_routeOut (s : State) (f : Flit) (hk : Keeps kr kl s0 s) : Keeps kr kl s0 (routeOut s f) := by
  unfold routeOut
  with_reducible repeat' first
    | assumption | apply keeps_unroutable | apply keeps_countStale | apply keeps_deliver | apply keeps_routeMesh
    | apply keeps_routeTorus | (extract_lets +onlyGivenNames x; subst x) | split | fail_if_no_progress beta_reduce

theorem keeps_routePlain (s : State) (f : Flit) (hk : Keeps kr kl s0 s) : Keeps kr kl s0 (routePlain s f) := by
  unfold routePlain
  with_reducible repeat' first
    | assumption | apply keeps_answerErr | apply keeps_deliver | apply keeps_routeOut
    | (extract_lets +onlyGivenNames x; subst x) | split | fail_if_no_progress beta_reduce

theorem keeps_orphanCheck (s : State) (f : Flit) (hk : Keeps kr kl s0 s) : Keeps kr kl s0 (orphanCheck s f) := by
  unfold orphanCheck
  with_reducible repeat' first
    | assumption | apply keeps_routePlain | fail_if_no_progress (refine Keeps.made ?_ rfl rfl rfl rfl rfl)
    | (extract_lets +onlyGivenNames x; subst x) | split | fail_if_no_progress beta_reduce

theorem keeps_routeFlit (s : State) (f : Flit) (hk : Keeps kr kl s0 s) : Keeps kr kl s0 (routeFlit s f) := by
  unfold routeFlit
  with_reducible repeat' first
    | assumption | apply keeps_orphanCheck | apply keeps_routePlain | (extract_lets +onlyGivenNames x; subst x) | split
    | fail_if_no_progress beta_reduce

theorem keeps_hopFlit (s : State) (f : Flit) (hk : Keeps kr kl s0 s) : Keeps kr kl s0 (hopFlit s f) := by
  unfold hopFlit
  with_reducible repeat' first
    | assumption | apply keeps_routeFlit | apply keeps_passDomain | apply keeps_enterRouter
    | (extract_lets +onlyGivenNames x; subst x) | split | fail_if_no_progress beta_reduce

end Sys2Proof.Machine
end

