-- ==== Sys2Proof/Laws/KeepsFabric.lean ====
section
/-! SUPPORT. What the operations of Fabric.lean keep: one lemma for each, in the terms of `Keeps`. -/

set_option linter.unusedTactic false
set_option linter.unreachableTactic false

namespace Sys2Proof.Machine

variable {kr kl : Bool} {s0 : State}

theorem keeps_startNak (s : State) (p : ℕ) (hk : Keeps kr kl s0 s) : Keeps kr kl s0 (startNak s p) := by
  unfold startNak
  with_reducible repeat' first
    | assumption | apply keeps_updPort | (extract_lets +onlyGivenNames x; subst x) | split
    | fail_if_no_progress beta_reduce

theorem keeps_checkFrame (s : State) (p : ℕ) (fr : Frame) (f : State → State) (hk : Keeps kr kl s0 s) (hf : ∀ s0 x0,
    Keeps kr kl s0 x0 → Keeps kr kl s0 (f x0)) : Keeps kr kl s0 (checkFrame s p fr f) := by
  unfold checkFrame
  with_reducible repeat' first
    | assumption | apply keeps_updPort | apply keeps_startNak | apply keeps_portDown | apply hf
    | (extract_lets +onlyGivenNames x; subst x) | split | fail_if_no_progress beta_reduce

theorem keeps_takeHeader (s : State) (p : ℕ) (fr : Frame) (hk : Keeps kr kl s0 s) : Keeps kr kl s0 (takeHeader s p
    fr) := by
  unfold takeHeader
  with_reducible repeat' first
    | assumption | apply keeps_ackFrames | apply keeps_updPort | (extract_lets +onlyGivenNames x; subst x) | split
    | fail_if_no_progress beta_reduce

theorem keeps_acceptFrame (s : State) (p : ℕ) (fr : Frame) (hk : Keeps kr kl s0 s) : Keeps kr kl s0 (acceptFrame s p
    fr) := by
  unfold acceptFrame
  with_reducible repeat' first
    | assumption | apply keeps_updPort | refine Keeps.foldl _ ?_ ?_ | refine Keeps2.foldl _ ?_ ?_
    | fail_if_no_progress (refine Keeps.made ?_ rfl rfl rfl rfl rfl) | intro _
    | (extract_lets +onlyGivenNames x; subst x) | split | fail_if_no_progress beta_reduce

theorem keeps_execFrameReceive (p : ℕ) (fr : Frame) (s : State) {t : State} (hk : Keeps kr kl s0 s) (e :
    execFrameReceive p fr s = .next t) : Keeps kr kl s0 t := by
  unfold execFrameReceive at e
  injection e with e
  subst e
  with_reducible repeat' first
    | assumption | apply keeps_checkFrame | apply keeps_takeHeader | apply keeps_acceptFrame | apply keeps_startNak
    | apply keeps_updPort | intro _ | (extract_lets +onlyGivenNames x; subst x) | split
    | fail_if_no_progress beta_reduce

theorem keeps_setWidth (s : State) (p width : ℕ) (hk : Keeps kr kl s0 s) : Keeps kr kl s0 (setWidth s p width) := by
  unfold setWidth
  with_reducible repeat' first
    | assumption | apply keeps_portDown | apply keeps_updPort | apply keeps_widthFault
    | (extract_lets +onlyGivenNames x; subst x) | split | fail_if_no_progress beta_reduce

theorem keeps_execRecoveryDone (p width : ℕ) (s : State) {t : State} (hk : Keeps kr kl s0 s) (e : execRecoveryDone p
    width s = .next t) : Keeps kr kl s0 t := by
  unfold execRecoveryDone at e
  injection e with e
  subst e
  with_reducible repeat' first
    | assumption | apply keeps_updPort | apply keeps_portStamp | apply keeps_setWidth | apply keeps_replayPort
    | apply keeps_portFault | apply Keeps2.snd | refine Keeps2.eq (by assumption) ?_
    | (extract_lets +onlyGivenNames x; subst x) | split | fail_if_no_progress beta_reduce | apply Keeps2.mk

theorem keeps_execLostWaitExpiry (dev : ℕ) (s : State) {t : State} (hk : Keeps kr kl s0 s) (e : execLostWaitExpiry
    dev s = .next t) : Keeps kr kl s0 t := by
  unfold execLostWaitExpiry at e
  injection e with e
  subst e
  with_reducible repeat' first
    | assumption | apply keeps_faultAt | apply keeps_relinkChange | apply keeps_declareLost
    | (extract_lets +onlyGivenNames x; subst x) | split | fail_if_no_progress beta_reduce

theorem keeps_writePctl (s : State) (p : ℕ) (v : Word) (hk : Keeps kr kl s0 s) : Keeps kr kl s0 (writePctl s p v) :=
    by
  unfold writePctl
  with_reducible repeat' first
    | assumption | apply keeps_updPort | apply keeps_trainPort | apply keeps_portDown
    | (extract_lets +onlyGivenNames x; subst x) | split | fail_if_no_progress beta_reduce

theorem keeps_execHzPctlEnSet (_q : IoReq) (p : ℕ) (v : Word) (s : State) {t : State} (hk : Keeps kr kl s0 s) (e :
    execHzPctlEnSet _q p v s = .next t) : Keeps kr kl s0 t := by
  unfold execHzPctlEnSet at e
  injection e with e
  subst e
  with_reducible repeat' first
    | assumption | apply keeps_mainReg | apply keeps_writePctl | (extract_lets +onlyGivenNames x; subst x) | split
    | fail_if_no_progress beta_reduce

theorem keeps_execLost (port dev mer : ℕ) (stamp : Word) (s : State) {t : State} (hk : Keeps kr kl s0 s) (e :
    execLost port dev mer stamp s = .next t) : Keeps kr kl s0 t := by
  unfold execLost at e
  injection e with e
  subst e
  with_reducible repeat' first
    | assumption | apply keeps_ackMaster | apply keeps_flood | apply keeps_noteStamp | apply keeps_takeLost
    | (extract_lets +onlyGivenNames x; subst x) | split | fail_if_no_progress beta_reduce

theorem keeps_execReceiveHistoryExpiry (p : ℕ) (s : State) {t : State} (hk : Keeps kr kl s0 s) (e :
    execReceiveHistoryExpiry p s = .next t) : Keeps kr kl s0 t := by
  unfold execReceiveHistoryExpiry at e
  injection e with e
  subst e
  with_reducible repeat' first
    | assumption | apply keeps_updPort | (extract_lets +onlyGivenNames x; subst x) | split
    | fail_if_no_progress beta_reduce

theorem keeps_execNoPortUp (s : State) {t : State} (hk : Keeps kr kl s0 s) (e : execNoPortUp s = .next t) : Keeps kr
    kl s0 t := by
  unfold execNoPortUp at e
  injection e with e
  subst e
  with_reducible repeat' first
    | assumption | apply keeps_isolateModule | (extract_lets +onlyGivenNames x; subst x) | split
    | fail_if_no_progress beta_reduce

theorem keeps_execSweepAgentResend (s : State) {t : State} (hk : Keeps kr kl s0 s) (e : execSweepAgentResend s =
    .next t) : Keeps kr kl s0 t := by
  unfold execSweepAgentResend at e
  injection e with e
  subst e
  with_reducible repeat' first
    | assumption | apply keeps_agentSweep | apply keeps_issueStamp | apply keeps_logAdd | apply Keeps2.snd
    | refine Keeps2.eq (by assumption) ?_ | fail_if_no_progress (refine Keeps.made ?_ rfl rfl rfl rfl rfl)
    | (extract_lets +onlyGivenNames x; subst x) | split | fail_if_no_progress beta_reduce | apply Keeps2.mk

theorem keeps_execPortTrainingTimeout (p : ℕ) (s : State) {t : State} (hk : Keeps kr kl s0 s) (e :
    execPortTrainingTimeout p s = .next t) : Keeps kr kl s0 t := by
  unfold execPortTrainingTimeout at e
  injection e with e
  subst e
  with_reducible repeat' first
    | assumption | apply keeps_portDown | (extract_lets +onlyGivenNames x; subst x) | split
    | fail_if_no_progress beta_reduce

theorem keeps_execRecoveryTimeout (p : ℕ) (s : State) {t : State} (hk : Keeps kr kl s0 s) (e : execRecoveryTimeout p
    s = .next t) : Keeps kr kl s0 t := by
  unfold execRecoveryTimeout at e
  injection e with e
  subst e
  with_reducible repeat' first
    | assumption | apply keeps_portDown | (extract_lets +onlyGivenNames x; subst x) | split
    | fail_if_no_progress beta_reduce

theorem keeps_execPortSignalLost (p : ℕ) (s : State) {t : State} (hk : Keeps kr kl s0 s) (e : execPortSignalLost p s
    = .next t) : Keeps kr kl s0 t := by
  unfold execPortSignalLost at e
  injection e with e
  subst e
  with_reducible repeat' first
    | assumption | apply keeps_startRecovery | (extract_lets +onlyGivenNames x; subst x) | split
    | fail_if_no_progress beta_reduce

theorem keeps_sendOrigin (s : State) (p : ℕ) (hk : Keeps kr kl s0 s) : Keeps kr kl s0 (sendOrigin s p) := by
  unfold sendOrigin
  with_reducible repeat' first
    | assumption | apply keeps_sendLink | (extract_lets +onlyGivenNames x; subst x) | split
    | fail_if_no_progress beta_reduce

theorem keeps_sendHello (s : State) (p : ℕ) (hk : Keeps kr kl s0 s) : Keeps kr kl s0 (sendHello s p) := by
  unfold sendHello
  with_reducible repeat' first
    | assumption | apply keeps_sendLink | refine Keeps.foldl _ ?_ ?_ | refine Keeps2.foldl _ ?_ ?_ | intro _
    | (extract_lets +onlyGivenNames x; subst x) | split | fail_if_no_progress beta_reduce

theorem keeps_takeId (s : State) (id : ℕ) (hk : Keeps kr kl s0 s) : Keeps kr kl s0 (takeId s id) := by
  unfold takeId
  with_reducible repeat' first
    | assumption | apply keeps_updPort | apply keeps_sendHello | refine Keeps.foldl _ ?_ ?_
    | fail_if_no_progress (refine Keeps.made ?_ rfl rfl rfl rfl rfl) | intro _
    | (extract_lets +onlyGivenNames x; subst x) | split | fail_if_no_progress beta_reduce

theorem keeps_execHello (p : ℕ) (m : HelloMsg) (s : State) {t : State} (hk : Keeps kr kl s0 s) (e : execHello p m s
    = .next t) : Keeps kr kl s0 t := by
  unfold execHello at e
  injection e with e
  subst e
  with_reducible repeat' first
    | assumption | apply keeps_updPort | apply keeps_portDown | apply keeps_sendOrigin | apply keeps_portStamp
    | apply keeps_takeId | apply Keeps2.snd | refine Keeps2.eq (by assumption) ?_
    | (extract_lets +onlyGivenNames x; subst x) | split | fail_if_no_progress beta_reduce | apply Keeps2.mk

theorem keeps_execFrameTransmit (p : ℕ) (s : State) {t : State} (hk : Keeps kr kl s0 s) (e : execFrameTransmit p s =
    .next t) : Keeps kr kl s0 t := by
  unfold execFrameTransmit at e
  injection e with e
  subst e
  with_reducible repeat' first
    | assumption | apply keeps_transmit | (extract_lets +onlyGivenNames x; subst x) | split
    | fail_if_no_progress beta_reduce

theorem keeps_execHzPctlEnClear (_q : IoReq) (p : ℕ) (v : Word) (s : State) {t : State} (hk : Keeps kr kl s0 s) (e :
    execHzPctlEnClear _q p v s = .next t) : Keeps kr kl s0 t := by
  unfold execHzPctlEnClear at e
  injection e with e
  subst e
  with_reducible repeat' first
    | assumption | apply keeps_mainReg | apply keeps_writePctl | (extract_lets +onlyGivenNames x; subst x) | split
    | fail_if_no_progress beta_reduce

theorem keeps_execLinkdown (reporter port neighbour mer : ℕ) (s : State) {t : State} (hk : Keeps kr kl s0 s) (e :
    execLinkdown reporter port neighbour mer s = .next t) : Keeps kr kl s0 t := by
  unfold execLinkdown at e
  injection e with e
  subst e
  with_reducible repeat' first
    | assumption | apply keeps_takeLinkdown | (extract_lets +onlyGivenNames x; subst x) | split
    | fail_if_no_progress beta_reduce

theorem keeps_execNakFrame (p : ℕ) (fr : Frame) (s : State) {t : State} (hk : Keeps kr kl s0 s) (e : execNakFrame p
    fr s = .next t) : Keeps kr kl s0 t := by
  unfold execNakFrame at e
  injection e with e
  subst e
  with_reducible repeat' first
    | assumption | apply keeps_checkFrame | apply keeps_replayPort | apply keeps_takeHeader | intro _
    | (extract_lets +onlyGivenNames x; subst x) | split | fail_if_no_progress beta_reduce

theorem keeps_execSweep (port mer : ℕ) (stamp : Word) (s : State) {t : State} (hk : Keeps kr kl s0 s) (e : execSweep
    port mer stamp s = .next t) : Keeps kr kl s0 t := by
  unfold execSweep at e
  injection e with e
  subst e
  with_reducible repeat' first
    | assumption | apply keeps_runSweep | apply keeps_flood | apply keeps_noteStamp
    | (extract_lets +onlyGivenNames x; subst x) | split | fail_if_no_progress beta_reduce

theorem keeps_execPortTrained (p width : ℕ) (s : State) {t : State} (hk : Keeps kr kl s0 s) (e : execPortTrained p
    width s = .next t) : Keeps kr kl s0 t := by
  unfold execPortTrained at e
  injection e with e
  subst e
  with_reducible repeat' first
    | assumption | apply keeps_setWidth | apply keeps_updPort | (extract_lets +onlyGivenNames x; subst x) | split
    | fail_if_no_progress beta_reduce

theorem keeps_execAckStall (p : ℕ) (s : State) {t : State} (hk : Keeps kr kl s0 s) (e : execAckStall p s = .next t)
    : Keeps kr kl s0 t := by
  unfold execAckStall at e
  injection e with e
  subst e
  with_reducible repeat' first
    | assumption | apply keeps_replayPort | (extract_lets +onlyGivenNames x; subst x) | split
    | fail_if_no_progress beta_reduce

theorem keeps_execOrigin (p : ℕ) (serial : Word) (masterEn : Bool) (s : State) {t : State} (hk : Keeps kr kl s0 s)
    (e : execOrigin p serial masterEn s = .next t) : Keeps kr kl s0 t := by
  unfold execOrigin at e
  injection e with e
  subst e
  with_reducible repeat' first
    | assumption | apply keeps_sendOrigin | refine Keeps.foldl _ ?_ ?_
    | fail_if_no_progress (refine Keeps.made ?_ rfl rfl rfl rfl rfl) | intro _
    | (extract_lets +onlyGivenNames x; subst x) | split | fail_if_no_progress beta_reduce

theorem keeps_execInitFrame (m : InitFrame) (s : State) {t : State} (hk : Keeps kr kl s0 s) (e : execInitFrame m s =
    .next t) : Keeps kr kl s0 t := by
  unfold execInitFrame at e
  injection e with e
  subst e
  with_reducible repeat' first
    | assumption | apply keeps_updPort | apply keeps_sendHello | apply keeps_sendDelay
    | (extract_lets +onlyGivenNames x; subst x) | split | fail_if_no_progress beta_reduce

theorem keeps_execJoin (port dev : ℕ) (stamp : Word) (s : State) {t : State} (hk : Keeps kr kl s0 s) (e : execJoin
    port dev stamp s = .next t) : Keeps kr kl s0 t := by
  unfold execJoin at e
  injection e with e
  subst e
  with_reducible repeat' first
    | assumption | apply keeps_ackMaster | apply keeps_takeJoin | apply keeps_flood | apply keeps_noteStamp
    | (extract_lets +onlyGivenNames x; subst x) | split | fail_if_no_progress beta_reduce

theorem keeps_execNakRepeat (p : ℕ) (s : State) {t : State} (hk : Keeps kr kl s0 s) (e : execNakRepeat p s = .next
    t) : Keeps kr kl s0 t := by
  unfold execNakRepeat at e
  injection e with e
  subst e
  with_reducible repeat' first
    | assumption | apply keeps_updPort | (extract_lets +onlyGivenNames x; subst x) | split
    | fail_if_no_progress beta_reduce

theorem keeps_execLaneRetrainDone (p : ℕ) (s : State) {t : State} (hk : Keeps kr kl s0 s) (e : execLaneRetrainDone p
    s = .next t) : Keeps kr kl s0 t := by
  unfold execLaneRetrainDone at e
  injection e with e
  subst e
  with_reducible repeat' first
    | assumption | apply keeps_updPort | apply keeps_replayPort | apply keeps_widthFault | apply keeps_setOutcome
    | refine Keeps.foldl _ ?_ ?_ | refine Keeps2.foldl _ ?_ ?_ | intro _ | (extract_lets +onlyGivenNames x; subst x)
    | split | fail_if_no_progress beta_reduce

theorem keeps_execOriginQuiet (s : State) {t : State} (hk : Keeps kr kl s0 s) (e : execOriginQuiet s = .next t) :
    Keeps kr kl s0 t := by
  unfold execOriginQuiet at e
  injection e with e
  subst e
  with_reducible repeat' first
    | assumption | apply keeps_takeId | fail_if_no_progress (refine Keeps.made ?_ rfl rfl rfl rfl rfl)
    | (extract_lets +onlyGivenNames x; subst x) | split | fail_if_no_progress beta_reduce

theorem keeps_execPortHeartbeatLoss (p : ℕ) (s : State) {t : State} (hk : Keeps kr kl s0 s) (e :
    execPortHeartbeatLoss p s = .next t) : Keeps kr kl s0 t := by
  unfold execPortHeartbeatLoss at e
  injection e with e
  subst e
  with_reducible repeat' first
    | assumption | apply keeps_portDown | (extract_lets +onlyGivenNames x; subst x) | split
    | fail_if_no_progress beta_reduce

theorem keeps_execHzPctlReach (_q : IoReq) (p : ℕ) (v : Word) (s : State) {t : State} (hk : Keeps kr kl s0 s) (e :
    execHzPctlReach _q p v s = .next t) : Keeps kr kl s0 t := by
  unfold execHzPctlReach at e
  injection e with e
  subst e
  with_reducible repeat' first
    | assumption | apply keeps_mainReg | apply keeps_writePctl | (extract_lets +onlyGivenNames x; subst x) | split
    | fail_if_no_progress beta_reduce

end Sys2Proof.Machine
end

