-- ==== Sys2Proof/Laws/KeepsRegOps.lean ====
section
/-! SUPPORT. What the operations of RegOps.lean keep: one lemma for each, in the terms of `Keeps`. -/

set_option linter.unusedTactic false
set_option linter.unreachableTactic false

namespace Sys2Proof.Machine

variable {kr kl : Bool} {s0 : State}

theorem keeps_setNearEnable (s : State) (q : IoReq) (n : ℕ) (on : Bool) (hk : Keeps kr kl s0 s) : Keeps kr kl s0
    (setNearEnable s q n on) := by
  unfold setNearEnable
  with_reducible repeat' first
    | assumption | apply keeps_updCore | apply keeps_gateIgnored | (extract_lets +onlyGivenNames x; subst x) | split
    | fail_if_no_progress beta_reduce

theorem keeps_writeNearCtl (s : State) (q : IoReq) (n : ℕ) (v : Word) (hk : Keeps kr kl s0 s) : Keeps kr kl s0
    (writeNearCtl s q n v) := by
  unfold writeNearCtl
  with_reducible repeat' first
    | assumption | apply keeps_updCore | apply keeps_setNearEnable | (extract_lets +onlyGivenNames x; subst x) | split
    | fail_if_no_progress beta_reduce

theorem keeps_writeSwin (s : State) (q : IoReq) (c : ℕ) (v : Word) (hk : Keeps kr kl s0 s) : Keeps kr kl s0
    (writeSwin s q c v) := by
  unfold writeSwin
  with_reducible repeat' first
    | assumption | apply keeps_discard | fail_if_no_progress (refine Keeps.made ?_ rfl rfl rfl rfl rfl)
    | (extract_lets +onlyGivenNames x; subst x) | split | fail_if_no_progress beta_reduce

theorem keeps_writeSxtCtl (s : State) (v : Word) (hk : Keeps kr kl s0 s) : Keeps kr kl s0 (writeSxtCtl s v) := by
  unfold writeSxtCtl
  with_reducible repeat' first
    | assumption | fail_if_no_progress (refine Keeps.made ?_ rfl rfl rfl rfl rfl)
    | (extract_lets +onlyGivenNames x; subst x) | split | fail_if_no_progress beta_reduce

theorem keeps_cfgWrite (s : State) (c b o : ℕ) (v : BitVec 32) (hk : Keeps kr kl s0 s) : Keeps kr kl s0 (cfgWrite s
    c b o v) := by
  unfold cfgWrite
  with_reducible repeat' first
    | assumption | apply keeps_updPcie | (extract_lets +onlyGivenNames x; subst x) | split
    | fail_if_no_progress beta_reduce

theorem keeps_sendZw (s : State) (q : IoReq) (zone : ℕ) (v : Word) (hk : Keeps kr kl s0 s) : Keeps kr kl s0 (sendZw
    s q zone v) := by
  unfold sendZw
  with_reducible repeat' first
    | assumption | apply keeps_discard | apply keeps_zoneEntry | apply keeps_issueStamp | apply keeps_postEntry
    | apply Keeps2.snd | refine Keeps2.eq (by assumption) ?_ | exact repKeeps_rep
    | (extract_lets +onlyGivenNames x; subst x) | split | fail_if_no_progress beta_reduce | apply Keeps2.mk

theorem keeps_writeCelCtl (s : State) (v : Word) (hk : Keeps kr kl s0 s) : Keeps kr kl s0 (writeCelCtl s v) := by
  unfold writeCelCtl
  with_reducible repeat' first
    | assumption | fail_if_no_progress (refine Keeps.made ?_ rfl rfl rfl rfl rfl)
    | (extract_lets +onlyGivenNames x; subst x) | split | fail_if_no_progress beta_reduce

theorem keeps_updRec (s : State) (stamp : Word) (f : FRec → FRec) (hk : Keeps kr kl s0 s) : Keeps kr kl s0 (updRec s
    stamp f) := by
  unfold updRec
  with_reducible repeat' first
    | assumption | fail_if_no_progress (refine Keeps.made ?_ rfl rfl rfl rfl rfl)
    | (extract_lets +onlyGivenNames x; subst x) | split | fail_if_no_progress beta_reduce

theorem keeps_ackRec (s : State) (stamp : Word) (hk : Keeps kr kl s0 s) : Keeps kr kl s0 (ackRec s stamp) := by
  unfold ackRec
  with_reducible repeat' first
    | assumption | apply keeps_updRec | fail_if_no_progress (refine Keeps.made ?_ rfl rfl rfl rfl rfl)
    | (extract_lets +onlyGivenNames x; subst x) | split | fail_if_no_progress beta_reduce

theorem keeps_writeFltAck (s : State) (v : Word) (hk : Keeps kr kl s0 s) : Keeps kr kl s0 (writeFltAck s v) := by
  unfold writeFltAck
  with_reducible repeat' first
    | assumption | apply keeps_ackRec | (extract_lets +onlyGivenNames x; subst x) | split
    | fail_if_no_progress beta_reduce

theorem keeps_writeChsCtl (s : State) (q : IoReq) (v : Word) (hk : Keeps kr kl s0 s) : Keeps kr kl s0 (writeChsCtl s
    q v) := by
  unfold writeChsCtl
  with_reducible repeat' first
    | assumption | apply keeps_discard | fail_if_no_progress (refine Keeps.made ?_ rfl rfl rfl rfl rfl)
    | (extract_lets +onlyGivenNames x; subst x) | split | fail_if_no_progress beta_reduce

theorem keeps_releaseErr (s : State) (hk : Keeps kr kl s0 s) : Keeps kr kl s0 (releaseErr s) := by
  unfold releaseErr
  with_reducible repeat' first
    | assumption | fail_if_no_progress (refine Keeps.made ?_ rfl rfl rfl rfl rfl)
    | (extract_lets +onlyGivenNames x; subst x) | split | fail_if_no_progress beta_reduce

theorem keeps_writeDbg (s : State) (q : IoReq) (n : ℕ) (v : Word) (hk : Keeps kr kl s0 s) : Keeps kr kl s0 (writeDbg
    s q n v) := by
  unfold writeDbg
  with_reducible repeat' first
    | assumption | apply keeps_updCore | apply keeps_rwbIgnored | (extract_lets +onlyGivenNames x; subst x) | split
    | fail_if_no_progress beta_reduce

theorem keeps_writeWin (s : State) (c i r : ℕ) (v : Word) (hk : Keeps kr kl s0 s) : Keeps kr kl s0 (writeWin s c i r
    v) := by
  unfold writeWin
  with_reducible repeat' first
    | assumption | apply keeps_updPcie | (extract_lets +onlyGivenNames x; subst x) | split
    | fail_if_no_progress beta_reduce

theorem keeps_writeChnStat (s : State) (q : IoReq) (n : ℕ) (v : Word) (hk : Keeps kr kl s0 s) : Keeps kr kl s0
    (writeChnStat s q n v) := by
  unfold writeChnStat
  with_reducible repeat' first
    | assumption | apply keeps_discard | apply keeps_updChn | apply keeps_clearHalted
    | (extract_lets +onlyGivenNames x; subst x) | split | fail_if_no_progress beta_reduce

theorem keeps_writeThr (s : State) (n : ℕ) (v : Word) (hk : Keeps kr kl s0 s) : Keeps kr kl s0 (writeThr s n v) :=
    by
  unfold writeThr
  with_reducible repeat' first
    | assumption | apply keeps_updChn | (extract_lets +onlyGivenNames x; subst x) | split
    | fail_if_no_progress beta_reduce

theorem keeps_writeRingDb (s : State) (q : IoReq) (z : ℕ) (v : Word) (hk : Keeps kr kl s0 s) : Keeps kr kl s0
    (writeRingDb s q z v) := by
  unfold writeRingDb
  with_reducible repeat' first
    | assumption | apply keeps_discard | apply keeps_ringZone | (extract_lets +onlyGivenNames x; subst x) | split
    | fail_if_no_progress beta_reduce

theorem keeps_writeFltCtl (s : State) (v : Word) (hk : Keeps kr kl s0 s) : Keeps kr kl s0 (writeFltCtl s v) := by
  unfold writeFltCtl
  with_reducible repeat' first
    | assumption | apply keeps_releaseErr | fail_if_no_progress (refine Keeps.made ?_ rfl rfl rfl rfl rfl)
    | (extract_lets +onlyGivenNames x; subst x) | split | fail_if_no_progress beta_reduce

theorem keeps_writeRingBase (s : State) (q : IoReq) (n : ℕ) (v : Word) (hk : Keeps kr kl s0 s) : Keeps kr kl s0
    (writeRingBase s q n v) := by
  unfold writeRingBase
  with_reducible repeat' first
    | assumption | apply keeps_discard | apply keeps_updChn | (extract_lets +onlyGivenNames x; subst x) | split
    | fail_if_no_progress beta_reduce

theorem keeps_writeBoxCmd (s : State) (m : Mbx) (i : ℕ) (v : Word) (hk : Keeps kr kl s0 s) : Keeps kr kl s0
    (writeBoxCmd s m i v) := by
  unfold writeBoxCmd
  with_reducible repeat' first
    | assumption | apply keeps_updBox | (extract_lets +onlyGivenNames x; subst x) | split
    | fail_if_no_progress beta_reduce

theorem keeps_deviceFault (s : State) (q : IoReq) (addr : Word) (cls reason : ℕ) (hk : Keeps kr kl s0 s) : Keeps kr
    kl s0 (deviceFault s q addr cls reason) := by
  unfold deviceFault
  with_reducible repeat' first
    | assumption | apply keeps_fault | (extract_lets +onlyGivenNames x; subst x) | split
    | fail_if_no_progress beta_reduce

theorem keeps_boxWrite (s : State) (m : Mbx) (zone off : ℕ) (v : Word) (hk : Keeps kr kl s0 s) : KeepsO kr kl s0
    (boxWrite s m zone off v) := by
  unfold boxWrite
  with_reducible repeat' first
    | assumption | apply keeps_writeBoxCmd | apply keeps_ringBox | exact KeepsO.none | apply KeepsO.some
    | apply Keeps.getD | refine KeepsO.map ?_ | refine KeepsO.eq (by assumption) ?_ | intro _
    | (extract_lets +onlyGivenNames x; subst x) | split | fail_if_no_progress beta_reduce

theorem keeps_bondedBoxWrite (s : State) (q : IoReq) (off : ℕ) (v : Word) (hk : Keeps kr kl s0 s) : KeepsO kr kl s0
    (bondedBoxWrite s q off v) := by
  unfold bondedBoxWrite
  with_reducible repeat' first
    | assumption | apply keeps_rwbIgnored | apply keeps_boxWrite | exact KeepsO.none | apply KeepsO.some
    | apply Keeps.getD | refine KeepsO.map ?_ | refine KeepsO.eq (by assumption) ?_ | intro _
    | (extract_lets +onlyGivenNames x; subst x) | split | fail_if_no_progress beta_reduce

theorem keeps_writeRing (s : State) (q : IoReq) (z : ℕ) (v : Word) (hk : Keeps kr kl s0 s) : Keeps kr kl s0
    (writeRing s q z v) := by
  unfold writeRing
  with_reducible repeat' first
    | assumption | apply keeps_discard | apply keeps_updRing | (extract_lets +onlyGivenNames x; subst x) | split
    | fail_if_no_progress beta_reduce

theorem keeps_writeOwn (s : State) (q : IoReq) (v : Word) (hk : Keeps kr kl s0 s) : Keeps kr kl s0 (writeOwn s q v)
    := by
  unfold writeOwn
  with_reducible repeat' first
    | assumption | apply keeps_rwbIgnored | fail_if_no_progress (refine Keeps.made ?_ rfl rfl rfl rfl rfl)
    | (extract_lets +onlyGivenNames x; subst x) | split | fail_if_no_progress beta_reduce

theorem keeps_writeSctb (s : State) (q : IoReq) (v : Word) (hk : Keeps kr kl s0 s) : Keeps kr kl s0 (writeSctb s q
    v) := by
  unfold writeSctb
  with_reducible repeat' first
    | assumption | apply keeps_discard | fail_if_no_progress (refine Keeps.made ?_ rfl rfl rfl rfl rfl)
    | (extract_lets +onlyGivenNames x; subst x) | split | fail_if_no_progress beta_reduce

end Sys2Proof.Machine
end

