-- ==== Sys2Proof/Laws/KeepsIo.lean ====
section
/-! SUPPORT. What the operations of Io.lean keep: one lemma for each, in the terms of `Keeps`. -/

set_option linter.unusedTactic false
set_option linter.unreachableTactic false

namespace Sys2Proof.Machine

variable {kr kl : Bool} {s0 : State}

theorem keeps_writeUser (s : State) (q : IoReq) (n r : ℕ) (v : Word) (hk : Keeps kr kl s0 s) : KeepsO kr kl s0
    (writeUser s q n r v) := by
  unfold writeUser
  with_reducible repeat' first
    | assumption | apply keeps_writePause | apply keeps_writeTail | apply keeps_writeChnStat | apply keeps_discard
    | exact KeepsO.none | apply KeepsO.some | apply Keeps.getD | refine KeepsO.map ?_
    | refine KeepsO.eq (by assumption) ?_ | intro _ | (extract_lets +onlyGivenNames x; subst x) | split
    | fail_if_no_progress beta_reduce

theorem keeps_writeMov (s : State) (q : IoReq) (off : ℕ) (v : Word) (hk : Keeps kr kl s0 s) : KeepsO kr kl s0
    (writeMov s q off v) := by
  unfold writeMov
  with_reducible repeat' first
    | assumption | apply keeps_writeMovCtl | apply keeps_writeRingBase | apply keeps_writeChnZone
    | apply keeps_writeThr | apply keeps_writeUser | exact KeepsO.none | apply KeepsO.some | apply Keeps.getD
    | refine KeepsO.map ?_ | refine KeepsO.eq (by assumption) ?_ | intro _ | (extract_lets +onlyGivenNames x; subst x)
    | split | fail_if_no_progress beta_reduce

theorem keeps_writeMbx (s : State) (q : IoReq) (off : ℕ) (v : Word) (hk : Keeps kr kl s0 s) : KeepsO kr kl s0
    (writeMbx s q off v) := by
  unfold writeMbx
  with_reducible repeat' first
    | assumption | apply keeps_bondedBoxWrite | apply keeps_writeRing | apply keeps_writeRingDb | exact KeepsO.none
    | apply KeepsO.some | apply Keeps.getD | refine KeepsO.map ?_ | refine KeepsO.eq (by assumption) ?_ | intro _
    | (extract_lets +onlyGivenNames x; subst x) | split | fail_if_no_progress beta_reduce

theorem keeps_writeWindow (s : State) (q : IoReq) (off : ℕ) (v : Word) (hk : Keeps kr kl s0 s) : KeepsO kr kl s0
    (writeWindow s q off v) := by
  unfold writeWindow
  with_reducible repeat' first
    | assumption | apply keeps_writeNearCtl | apply keeps_writeDbg | exact KeepsO.none | apply KeepsO.some
    | apply Keeps.getD | refine KeepsO.map ?_ | refine KeepsO.eq (by assumption) ?_ | intro _
    | (extract_lets +onlyGivenNames x; subst x) | split | fail_if_no_progress beta_reduce

theorem keeps_writeZon (s : State) (q : IoReq) (off : ℕ) (v : Word) (hk : Keeps kr kl s0 s) : KeepsO kr kl s0
    (writeZon s q off v) := by
  unfold writeZon
  with_reducible repeat' first
    | assumption | apply keeps_discard | apply keeps_writeOwn | apply keeps_sendZw | exact KeepsO.none
    | apply KeepsO.some | apply Keeps.getD | refine KeepsO.map ?_ | refine KeepsO.eq (by assumption) ?_ | intro _
    | (extract_lets +onlyGivenNames x; subst x) | split | fail_if_no_progress beta_reduce

theorem keeps_writeTrn (s : State) (q : IoReq) (off : ℕ) (hk : Keeps kr kl s0 s) : KeepsO kr kl s0 (writeTrn s q
    off) := by
  unfold writeTrn
  with_reducible repeat' first
    | assumption | apply keeps_discard | exact KeepsO.none | apply KeepsO.some | apply Keeps.getD
    | refine KeepsO.map ?_ | refine KeepsO.eq (by assumption) ?_ | intro _ | (extract_lets +onlyGivenNames x; subst x)
    | split | fail_if_no_progress beta_reduce

theorem keeps_writeHz (s : State) (off : ℕ) (v : Word) (hk : Keeps kr kl s0 s) : KeepsO kr kl s0 (writeHz s off v)
    := by
  unfold writeHz
  with_reducible repeat' first
    | assumption | apply keeps_writePctl | exact KeepsO.none | apply KeepsO.some | apply Keeps.getD
    | refine KeepsO.map ?_ | refine KeepsO.eq (by assumption) ?_
    | fail_if_no_progress (refine Keeps.made ?_ rfl rfl rfl rfl rfl) | intro _
    | (extract_lets +onlyGivenNames x; subst x) | split | fail_if_no_progress beta_reduce

theorem keeps_writeMemReg (s : State) (off : ℕ) (v : Word) (hk : Keeps kr kl s0 s) : KeepsO kr kl s0 (writeMemReg s
    off v) := by
  unfold writeMemReg
  with_reducible repeat' first
    | assumption | apply keeps_writeCelCtl | exact KeepsO.none | apply KeepsO.some | apply Keeps.getD
    | refine KeepsO.map ?_ | refine KeepsO.eq (by assumption) ?_
    | fail_if_no_progress (refine Keeps.made ?_ rfl rfl rfl rfl rfl) | intro _
    | (extract_lets +onlyGivenNames x; subst x) | split | fail_if_no_progress beta_reduce

theorem keeps_writeChs (s : State) (q : IoReq) (off : ℕ) (v : Word) (hk : Keeps kr kl s0 s) : KeepsO kr kl s0
    (writeChs s q off v) := by
  unfold writeChs
  with_reducible repeat' first
    | assumption | apply keeps_writeChsCtl | apply keeps_writeSctb | apply keeps_writeSwin | exact KeepsO.none
    | apply KeepsO.some | apply Keeps.getD | refine KeepsO.map ?_ | refine KeepsO.eq (by assumption) ?_ | intro _
    | (extract_lets +onlyGivenNames x; subst x) | split | fail_if_no_progress beta_reduce

theorem keeps_writeCmp (s : State) (q : IoReq) (off : ℕ) (v : Word) (hk : Keeps kr kl s0 s) : KeepsO kr kl s0
    (writeCmp s q off v) := by
  unfold writeCmp
  with_reducible repeat' first
    | assumption | apply keeps_writeCmpCtl | apply keeps_writeChcfg | apply keeps_discard | apply keeps_updChn
    | exact KeepsO.none | apply KeepsO.some | apply Keeps.getD | refine KeepsO.map ?_
    | refine KeepsO.eq (by assumption) ?_ | intro _ | (extract_lets +onlyGivenNames x; subst x) | split
    | fail_if_no_progress beta_reduce

theorem keeps_writeCip (s : State) (q : IoReq) (off : ℕ) (v : Word) (hk : Keeps kr kl s0 s) : KeepsO kr kl s0
    (writeCip s q off v) := by
  unfold writeCip
  with_reducible repeat' first
    | assumption | apply keeps_writeCipCtl | apply keeps_writeKcmt | apply keeps_rwbIgnored | apply keeps_discard
    | exact KeepsO.none | apply KeepsO.some | apply Keeps.getD | refine KeepsO.map ?_
    | refine KeepsO.eq (by assumption) ?_ | fail_if_no_progress (refine Keeps.made ?_ rfl rfl rfl rfl rfl) | intro _
    | (extract_lets +onlyGivenNames x; subst x) | split | fail_if_no_progress beta_reduce

theorem keeps_writeSxt (s : State) (off : ℕ) (v : Word) (hk : Keeps kr kl s0 s) : KeepsO kr kl s0 (writeSxt s off v)
    := by
  unfold writeSxt
  with_reducible repeat' first
    | assumption | apply keeps_writeSxtCtl | exact KeepsO.none | apply KeepsO.some | apply Keeps.getD
    | refine KeepsO.map ?_ | refine KeepsO.eq (by assumption) ?_
    | fail_if_no_progress (refine Keeps.made ?_ rfl rfl rfl rfl rfl) | intro _
    | (extract_lets +onlyGivenNames x; subst x) | split | fail_if_no_progress beta_reduce

theorem keeps_writeEffect (s : State) (q : IoReq) (off : ℕ) (v : Word) (hk : Keeps kr kl s0 s) : KeepsO kr kl s0
    (writeEffect s q off v) := by
  unfold writeEffect
  with_reducible repeat' first
    | assumption | apply keeps_writeWindow | apply keeps_writeFltCtl | apply keeps_writeFltAck | apply keeps_writeZon
    | apply keeps_writeTrn | apply keeps_writeHz | apply keeps_writeMemReg | apply keeps_writeChs
    | apply keeps_writeMov | apply keeps_writeCmp | apply keeps_writeCip | apply keeps_writeMbx | apply keeps_writeSxt
    | apply keeps_writeWin | exact KeepsO.none | apply KeepsO.some | apply Keeps.getD | refine KeepsO.map ?_
    | refine KeepsO.eq (by assumption) ?_ | fail_if_no_progress (refine Keeps.made ?_ rfl rfl rfl rfl rfl) | intro _
    | (extract_lets +onlyGivenNames x; subst x) | split | fail_if_no_progress beta_reduce

theorem keeps_ioRead (s : State) (q : IoReq) (addr : Word) (size : ℕ) (hk : Keeps kr kl s0 s) : Keeps2 kr kl s0
    (ioRead s q addr size) := by
  unfold ioRead
  with_reducible repeat' first
    | assumption | apply keeps_discard | apply keeps_deviceFault | apply keeps_send | apply keeps_nextFree
    | apply Keeps2.snd | refine Keeps2.eq (by assumption) ?_ | (extract_lets +onlyGivenNames x; subst x) | split
    | fail_if_no_progress beta_reduce | apply Keeps2.mk

theorem keeps_writeReg (s : State) (q : IoReq) (off : ℕ) (v : Word) (hk : Keeps kr kl s0 s) : KeepsO kr kl s0
    (writeReg s q off v) := by
  unfold writeReg
  with_reducible repeat' first
    | assumption | apply keeps_writeEffect | exact KeepsO.none | apply KeepsO.some | apply Keeps.getD
    | refine KeepsO.map ?_ | refine KeepsO.eq (by assumption) ?_ | intro _ | (extract_lets +onlyGivenNames x; subst x)
    | split | fail_if_no_progress beta_reduce

theorem keeps_writeLocal (s : State) (q : IoReq) (off size v : ℕ) (hk : Keeps kr kl s0 s) : KeepsO kr kl s0
    (writeLocal s q off size v) := by
  unfold writeLocal
  with_reducible repeat' first
    | assumption | apply keeps_cfgWrite | apply keeps_writeReg | exact KeepsO.none | apply KeepsO.some
    | apply Keeps.getD | refine KeepsO.map ?_ | refine KeepsO.eq (by assumption) ?_ | intro _
    | (extract_lets +onlyGivenNames x; subst x) | split | fail_if_no_progress beta_reduce

theorem keeps_ioWrite (s : State) (q : IoReq) (addr : Word) (size v : ℕ) (hk : Keeps kr kl s0 s) : Keeps kr kl s0
    (ioWrite s q addr size v) := by
  unfold ioWrite
  with_reducible repeat' first
    | assumption | apply keeps_discard | apply keeps_writeLocal | apply keeps_deviceFault | apply keeps_sendFlit
    | apply keeps_nextFree | exact KeepsO.none | apply KeepsO.some | apply Keeps.getD | refine KeepsO.map ?_
    | refine KeepsO.eq (by assumption) ?_ | intro _ | (extract_lets +onlyGivenNames x; subst x) | split
    | fail_if_no_progress beta_reduce

theorem keeps_execRegisterWrite (a : IoAccess) (v : Word) (s : State) {t : State} (hk : Keeps kr kl s0 s) (e :
    execRegisterWrite a v s = .next t) : Keeps kr kl s0 t := by
  unfold execRegisterWrite at e
  injection e with e
  subst e
  with_reducible repeat' first
    | assumption | apply keeps_ioWrite | apply keeps_boxWrite | exact KeepsO.none | apply KeepsO.some
    | apply Keeps.getD | refine KeepsO.map ?_ | refine KeepsO.eq (by assumption) ?_ | intro _
    | (extract_lets +onlyGivenNames x; subst x) | split | fail_if_no_progress beta_reduce

end Sys2Proof.Machine
end

