-- ==== Sys2Proof/Laws/KeepsDev.lean ====
section
/-! SUPPORT. What the operations of Dev.lean keep: one lemma for each, in the terms of `Keeps`. -/

set_option linter.unusedTactic false
set_option linter.unreachableTactic false

namespace Sys2Proof.Machine

variable {kr kl : Bool} {s0 : State}

theorem keeps_devWrite (s : State) (q : IoReq) (addr : Word) (size v : ℕ) (hk : Keeps kr kl s0 s) : Keeps kr kl s0
    (devWrite s q addr size v) := by
  unfold devWrite
  with_reducible repeat' first
    | assumption | apply keeps_ioWrite | apply keeps_deviceFault | apply keeps_writeMask | apply Keeps2.snd
    | refine Keeps2.eq (by assumption) ?_ | exact repKeeps_rep | (extract_lets +onlyGivenNames x; subst x) | split
    | fail_if_no_progress beta_reduce | apply Keeps2.mk

end Sys2Proof.Machine
end

