-- ==== Sys2Proof/Laws/KeepsBundleOps.lean ====
section
/-! SUPPORT. What the operations of BundleOps.lean keep: one lemma for each, in the terms of `Keeps`. -/

set_option linter.unusedTactic false
set_option linter.unreachableTactic false

namespace Sys2Proof.Machine

variable {kr kl : Bool} {s0 : State}

theorem keeps_clearFence (s : State) (n : ℕ) (hk : Keeps kr kl s0 s) : Keeps kr kl s0 (clearFence s n) := by
  unfold clearFence
  with_reducible repeat' first
    | assumption | apply keeps_updCore | (extract_lets +onlyGivenNames x; subst x) | split
    | fail_if_no_progress beta_reduce

theorem keeps_withDesc (s : State) (n : ℕ) (b : OpenBundle) (i : Instr) (u tgt sel : ℕ) (priv world : Option Bool)
    (f : State → OpenBundle → SegReg → SylRes × State) (hk : Keeps kr kl s0 s) (hf : ∀ s0 x0 x1 x2, Keeps kr kl s0 x0 →
    Keeps2 kr kl s0 (f x0 x1 x2)) : Keeps2 kr kl s0 (withDesc s n b i u tgt sel priv world f) := by
  unfold withDesc
  with_reducible repeat' first
    | assumption | apply keeps_clearFence | apply keeps_readDesc | apply Keeps2.snd
    | refine Keeps2.eq (by assumption) ?_ | apply hf | (extract_lets +onlyGivenNames x; subst x) | split
    | fail_if_no_progress beta_reduce | apply Keeps2.mk

theorem keeps_ldsegEff (sl : Slot) (sgr : BitVec 4) (a : Reg) (s : State) (r : CoreRegs) (b : OpenBundle) (hk :
    Keeps kr kl s0 s) : Keeps2 kr kl s0 (ldsegEff sl sgr a s r b) := by
  unfold ldsegEff
  with_reducible repeat' first
    | assumption | apply keeps_withDesc | apply Keeps2.snd | refine Keeps2.eq (by assumption) ?_ | intro _
    | (extract_lets +onlyGivenNames x; subst x) | split | fail_if_no_progress beta_reduce | apply Keeps2.mk

theorem keeps_strictEnd (s : State) (q : IoReq) (a : Word) (k : ℕ) (res : EngRes) (hk : Keeps kr kl s0 s) : Keeps2
    kr kl s0 (strictEnd s q a k res) := by
  unfold strictEnd
  with_reducible repeat' first
    | assumption | apply keeps_deviceFault | apply Keeps2.snd | refine Keeps2.eq (by assumption) ?_
    | (extract_lets +onlyGivenNames x; subst x) | split | fail_if_no_progress beta_reduce | apply Keeps2.mk

theorem keeps_askRead (s : State) (n : ℕ) (strict : Bool) (unit : FUnit) (a : Word) (k : ℕ) (hk : Keeps kr kl s0 s)
    : Keeps2 kr kl s0 (askRead s n strict unit a k) := by
  unfold askRead
  with_reducible repeat' first
    | assumption | apply keeps_issueCoreStamp | apply keeps_strictEnd | apply keeps_ioRead | apply keeps_readNow
    | apply keeps_postReq | apply Keeps2.snd | refine Keeps2.eq (by assumption) ?_ | exact repKeeps_rep
    | (extract_lets +onlyGivenNames x; subst x) | split | fail_if_no_progress beta_reduce | apply Keeps2.mk

theorem keeps_refusedEarly (s : State) (n : ℕ) (a : Word) (hk : Keeps kr kl s0 s) : Keeps2 kr kl s0 (refusedEarly s
    n a) := by
  unfold refusedEarly
  with_reducible repeat' first
    | assumption | apply keeps_issueCoreStamp | apply Keeps2.snd | refine Keeps2.eq (by assumption) ?_
    | exact repKeeps_rep | refine repKeeps_rep.fault _ _ _ ?_ | (extract_lets +onlyGivenNames x; subst x) | split
    | fail_if_no_progress beta_reduce | apply Keeps2.mk

theorem keeps_loadNormal (s : State) (n : ℕ) (b : OpenBundle) (d : SegReg) (unit : FUnit) (a : Word) (k : ℕ) (e :
    Exc) (hk : Keeps kr kl s0 s) : Keeps3 kr kl s0 (loadNormal s n b d unit a k e) := by
  unfold loadNormal
  with_reducible repeat' first
    | assumption | apply keeps_loadLine | apply Keeps2.snd | apply Keeps3.snd | refine Keeps2.eq (by assumption) ?_
    | refine Keeps3.eq (by assumption) ?_ | (extract_lets +onlyGivenNames x; subst x) | split
    | fail_if_no_progress beta_reduce | apply Keeps2.mk | apply Keeps3.mk

theorem keeps_settleRead (s : State) (n : ℕ) (b : OpenBundle) (g : OwnRead) (res : EngRes) (hk : Keeps kr kl s0 s) :
    Keeps3 kr kl s0 (settleRead s n b g res) := by
  unfold settleRead
  with_reducible repeat' first
    | assumption | apply keeps_strictEnd | apply Keeps2.snd | apply Keeps3.snd | refine Keeps2.eq (by assumption) ?_
    | refine Keeps3.eq (by assumption) ?_ | (extract_lets +onlyGivenNames x; subst x) | split
    | fail_if_no_progress beta_reduce | apply Keeps2.mk | apply Keeps3.mk

theorem keeps_readOnce (s : State) (n : ℕ) (b : OpenBundle) (strict : Bool) (unit : FUnit) (a : Word) (k : ℕ) (hk :
    Keeps kr kl s0 s) : Keeps3 kr kl s0 (readOnce s n b strict unit a k) := by
  unfold readOnce
  with_reducible repeat' first
    | assumption | apply keeps_settleRead | apply keeps_askRead | apply Keeps2.snd | apply Keeps3.snd
    | refine Keeps2.eq (by assumption) ?_ | refine Keeps3.eq (by assumption) ?_
    | (extract_lets +onlyGivenNames x; subst x) | split | fail_if_no_progress beta_reduce | apply Keeps2.mk
    | apply Keeps3.mk

theorem keeps_readWcLine (s : State) (n : ℕ) (b : OpenBundle) (unit : FUnit) (a : Word) (k : ℕ) (hk : Keeps kr kl s0
    s) : Keeps3 kr kl s0 (readWcLine s n b unit a k) := by
  unfold readWcLine
  with_reducible repeat' first
    | assumption | apply keeps_readOnce | apply Keeps3.snd | refine Keeps3.eq (by assumption) ?_
    | (extract_lets +onlyGivenNames x; subst x) | split | fail_if_no_progress beta_reduce | apply Keeps3.mk

theorem keeps_readWc (s : State) (n : ℕ) (b : OpenBundle) (unit : FUnit) (a : Word) (k : ℕ) (hk : Keeps kr kl s0 s)
    : Keeps3 kr kl s0 (readWc s n b unit a k) := by
  unfold readWc
  with_reducible repeat' first
    | assumption | apply keeps_readWcLine | apply Keeps3.snd | refine Keeps3.eq (by assumption) ?_
    | (extract_lets +onlyGivenNames x; subst x) | split | fail_if_no_progress beta_reduce | apply Keeps3.mk

theorem keeps_readStrict (s : State) (n : ℕ) (b : OpenBundle) (unit : FUnit) (a : Word) (k : ℕ) (hk : Keeps kr kl s0
    s) : Keeps3 kr kl s0 (readStrict s n b unit a k) := by
  unfold readStrict
  with_reducible repeat' first
    | assumption | apply keeps_readOnce | apply Keeps3.snd | refine Keeps3.eq (by assumption) ?_
    | (extract_lets +onlyGivenNames x; subst x) | split | fail_if_no_progress beta_reduce | apply Keeps3.mk

theorem keeps_loadAccess (s : State) (n : ℕ) (b : OpenBundle) (d : SegReg) (unit : FUnit) (a : Word) (k : ℕ) (e :
    Exc) (hk : Keeps kr kl s0 s) : Keeps3 kr kl s0 (loadAccess s n b d unit a k e) := by
  unfold loadAccess
  with_reducible repeat' first
    | assumption | apply keeps_clearFence | apply keeps_loadNormal | apply keeps_readWc | apply keeps_readStrict
    | apply Keeps3.snd | refine Keeps3.eq (by assumption) ?_ | (extract_lets +onlyGivenNames x; subst x) | split
    | fail_if_no_progress beta_reduce | apply Keeps3.mk

theorem keeps_loadEff (m : MemOp) (i : Instr) (kind size : ℕ) (s : State) (r : CoreRegs) (b : OpenBundle) (hk :
    Keeps kr kl s0 s) : Keeps2 kr kl s0 (loadEff m i kind size s r b) := by
  unfold loadEff
  with_reducible repeat' first
    | assumption | apply keeps_clearFence | apply keeps_refusedEarly | apply keeps_loadAccess | apply Keeps2.snd
    | apply Keeps3.snd | refine Keeps2.eq (by assumption) ?_ | refine Keeps3.eq (by assumption) ?_
    | (extract_lets +onlyGivenNames x; subst x) | split | fail_if_no_progress beta_reduce | apply Keeps2.mk
    | apply Keeps3.mk

theorem keeps_ldrsvEff (sl : Slot) (wide : Bool) (rd : Reg) (sgr : BitVec 4) (a : Reg) (s : State) (r : CoreRegs) (b
    : OpenBundle) (hk : Keeps kr kl s0 s) : Keeps2 kr kl s0 (ldrsvEff sl wide rd sgr a s r b) := by
  unfold ldrsvEff
  with_reducible repeat' first
    | assumption | apply keeps_clearFence | apply keeps_askOwn | apply keeps_demandMiss | apply keeps_loadNormal
    | apply Keeps2.snd | apply Keeps3.snd | refine Keeps2.eq (by assumption) ?_ | refine Keeps3.eq (by assumption) ?_
    | (extract_lets +onlyGivenNames x; subst x) | split | fail_if_no_progress beta_reduce | apply Keeps2.mk
    | apply Keeps3.mk

end Sys2Proof.Machine
end

