-- ==== Sys2Proof/Laws/KeepsTree.lean ====
section
/-! SUPPORT. What the operations of Tree.lean keep: one lemma for each, in the terms of `Keeps`. -/

set_option linter.unusedTactic false
set_option linter.unreachableTactic false

namespace Sys2Proof.Machine

variable {kr kl : Bool} {s0 : State}

theorem keeps_domainIsOff (s : State) (d : ℕ) (hk : Keeps kr kl s0 s) : Keeps kr kl s0 (domainIsOff s d) := by
  unfold domainIsOff
  with_reducible repeat' first
    | assumption | apply keeps_updDom | apply keeps_answerErr | apply keeps_updCores | refine Keeps.foldl _ ?_ ?_
    | fail_if_no_progress (refine Keeps.made ?_ rfl rfl rfl rfl rfl) | intro _
    | (extract_lets +onlyGivenNames x; subst x) | split | fail_if_no_progress beta_reduce

theorem keeps_flushDomain (s : State) (d : ℕ) (hk : Keeps kr kl s0 s) : Keeps kr kl s0 (flushDomain s d) := by
  unfold flushDomain
  with_reducible repeat' first
    | assumption | apply keeps_sliceEvict | apply keeps_evictLine | apply keeps_updCores | refine Keeps.foldl _ ?_ ?_
    | refine Keeps2.foldl _ ?_ ?_ | intro _ | (extract_lets +onlyGivenNames x; subst x) | split
    | fail_if_no_progress beta_reduce

theorem keeps_execTreeNack (f : Flit) (s : State) {t : State} (hk : Keeps kr kl s0 s) (e : execTreeNack f s = .next
    t) : Keeps kr kl s0 t := by
  unfold execTreeNack at e
  injection e with e
  subst e
  with_reducible repeat' first
    | assumption | fail_if_no_progress (refine Keeps.made ?_ rfl rfl rfl rfl rfl)
    | (extract_lets +onlyGivenNames x; subst x) | split | fail_if_no_progress beta_reduce

theorem keeps_execTreeNackResend (stamp : Word) (s : State) {t : State} (hk : Keeps kr kl s0 s) (e :
    execTreeNackResend stamp s = .next t) : Keeps kr kl s0 t := by
  unfold execTreeNackResend at e
  injection e with e
  subst e
  with_reducible repeat' first
    | assumption | fail_if_no_progress (refine Keeps.made ?_ rfl rfl rfl rfl rfl)
    | (extract_lets +onlyGivenNames x; subst x) | split | fail_if_no_progress beta_reduce

theorem keeps_execFlitRoute (f : Flit) (chk : LinkCheck) (s : State) {t : State} (hk : Keeps kr kl s0 s) (e :
    execFlitRoute f chk s = .next t) : Keeps kr kl s0 t := by
  unfold execFlitRoute at e
  injection e with e
  subst e
  with_reducible repeat' first
    | assumption | apply keeps_treeTake | apply keeps_checkLink | apply keeps_hopFlit | exact KeepsO.none
    | apply KeepsO.some | apply Keeps.getD | refine KeepsO.map ?_ | apply Keeps2.snd
    | refine Keeps2.eq (by assumption) ?_ | refine KeepsO.eq (by assumption) ?_ | intro _
    | (extract_lets +onlyGivenNames x; subst x) | split | fail_if_no_progress beta_reduce | apply Keeps2.mk

theorem keeps_startDue (s : State) (k : ℕ) (hk : Keeps kr kl s0 s) : Keeps kr kl s0 (startDue s k) := by
  unfold startDue
  with_reducible repeat' first
    | assumption | apply keeps_startLane | fail_if_no_progress (refine Keeps.made ?_ rfl rfl rfl rfl rfl)
    | (extract_lets +onlyGivenNames x; subst x) | split | fail_if_no_progress beta_reduce

theorem keeps_execDomainPowered (d : ℕ) (s : State) {t : State} (hk : Keeps kr kl s0 s) (e : execDomainPowered d s =
    .next t) : Keeps kr kl s0 t := by
  unfold execDomainPowered at e
  injection e with e
  subst e
  with_reducible repeat' first
    | assumption | apply keeps_updDom | apply keeps_updCores | apply keeps_setOutcomeOpt | refine Keeps.foldl _ ?_ ?_
    | fail_if_no_progress (refine Keeps.made ?_ rfl rfl rfl rfl rfl) | intro _
    | (extract_lets +onlyGivenNames x; subst x) | split | fail_if_no_progress beta_reduce

theorem keeps_execDomainDrained (d : ℕ) (s : State) {t : State} (hk : Keeps kr kl s0 s) (e : execDomainDrained d s =
    .next t) : Keeps kr kl s0 t := by
  unfold execDomainDrained at e
  injection e with e
  subst e
  with_reducible repeat' first
    | assumption | apply keeps_flushDomain | apply keeps_updDom | (extract_lets +onlyGivenNames x; subst x) | split
    | fail_if_no_progress beta_reduce

theorem keeps_execDomainFlushed (d : ℕ) (s : State) {t : State} (hk : Keeps kr kl s0 s) (e : execDomainFlushed d s =
    .next t) : Keeps kr kl s0 t := by
  unfold execDomainFlushed at e
  injection e with e
  subst e
  with_reducible repeat' first
    | assumption | apply keeps_setOutcomeOpt | apply keeps_domainIsOff | (extract_lets +onlyGivenNames x; subst x)
    | split | fail_if_no_progress beta_reduce

theorem keeps_execSlotEpoch (s : State) {t : State} (hk : Keeps kr kl s0 s) (e : execSlotEpoch s = .next t) : Keeps
    kr kl s0 t := by
  unfold execSlotEpoch at e
  injection e with e
  subst e
  with_reducible repeat' first
    | assumption | apply keeps_startDue | refine Keeps.foldl _ ?_ ?_
    | fail_if_no_progress (refine Keeps.made ?_ rfl rfl rfl rfl rfl) | intro _
    | (extract_lets +onlyGivenNames x; subst x) | split | fail_if_no_progress beta_reduce

end Sys2Proof.Machine
end

