-- ==== Sys2Proof/Laws/KeepsStackOps.lean ====
section
/-! SUPPORT. What the operations of StackOps.lean keep: one lemma for each, in the terms of `Keeps`. -/

set_option linter.unusedTactic false
set_option linter.unreachableTactic false

namespace Sys2Proof.Machine

variable {kr kl : Bool} {s0 : State}

theorem keeps_reloadSegs (n : ℕ) (es : List BufEntry) (priv world : Option Bool) (a4 : List (ℕ × ℕ)) (a5 : CoreRegs)
    (a6 : State) (hk : Keeps kr kl s0 a6) : Keeps2 kr kl s0 (reloadSegs n es priv world a4 a5 a6) := by
  induction a4 generalizing a5 a6 with
  | nil =>
    unfold reloadSegs
    with_reducible repeat' first
      | assumption | apply keeps_readDesc | apply Keeps2.snd | refine Keeps2.eq (by assumption) ?_
      | (extract_lets +onlyGivenNames x; subst x) | split | fail_if_no_progress beta_reduce | apply Keeps2.mk
  | cons x1 xs1 ih =>
    unfold reloadSegs
    with_reducible repeat' first
      | assumption | apply ih | apply keeps_readDesc | apply Keeps2.snd | refine Keeps2.eq (by assumption) ?_
      | (extract_lets +onlyGivenNames x; subst x) | split | fail_if_no_progress beta_reduce | apply Keeps2.mk

theorem keeps_withSegs (s : State) (n : ℕ) (b : OpenBundle) (priv world : Option Bool) (sels : List (ℕ × ℕ)) (f :
    OpenBundle → CoreRegs → OpenBundle) (hk : Keeps kr kl s0 s) : Keeps2 kr kl s0 (withSegs s n b priv world sels f) :=
    by
  unfold withSegs
  with_reducible repeat' first
    | assumption | apply keeps_reloadSegs | apply Keeps2.snd | refine Keeps2.eq (by assumption) ?_
    | (extract_lets +onlyGivenNames x; subst x) | split | fail_if_no_progress beta_reduce | apply Keeps2.mk

theorem keeps_readWords (a0 : ℕ) (a1 : State) (a2 : ℕ) (a3 : OpenBundle) (a4 : Bool) (a5 : Word) (hk : Keeps kr kl
    s0 a1) : Keeps3 kr kl s0 (readWords a0 a1 a2 a3 a4 a5) := by
  induction a0 generalizing a1 a3 a5 with
  | zero => rw [readWords]; exact Keeps3.mk hk
  | succ n ih =>
    rw [readWords]
    with_reducible repeat' first
      | assumption | apply ih | apply keeps_readStrict | apply keeps_readWc | apply Keeps3.snd
      | refine Keeps3.eq (by assumption) ?_ | (extract_lets +onlyGivenNames x; subst x) | split
      | fail_if_no_progress beta_reduce | apply Keeps3.mk

theorem keeps_readSeg (s : State) (n : ℕ) (r : CoreRegs) (b : OpenBundle) (sg : ℕ) (o : Word) (k : ℕ) (hk : Keeps kr
    kl s0 s) : Keeps3 kr kl s0 (readSeg s n r b sg o k) := by
  unfold readSeg
  with_reducible repeat' first
    | assumption | apply keeps_loadRun | apply keeps_readWords | apply Keeps2.snd | apply Keeps3.snd
    | refine Keeps2.eq (by assumption) ?_ | refine Keeps3.eq (by assumption) ?_
    | (extract_lets +onlyGivenNames x; subst x) | split | fail_if_no_progress beta_reduce | apply Keeps2.mk
    | apply Keeps3.mk

theorem keeps_popEntry (s : State) (n : ℕ) (r : CoreRegs) (b : OpenBundle) (kind len : ℕ) (hk : Keeps kr kl s0 s) :
    Keeps3 kr kl s0 (popEntry s n r b kind len) := by
  unfold popEntry
  with_reducible repeat' first
    | assumption | apply keeps_readSeg | apply Keeps3.snd | refine Keeps3.eq (by assumption) ?_
    | (extract_lets +onlyGivenNames x; subst x) | split | fail_if_no_progress beta_reduce | apply Keeps3.mk

theorem keeps_popSyl (s : State) (n : ℕ) (r : CoreRegs) (b : OpenBundle) (i : Instr) (both : Bool) (kind first len :
    ℕ) (f : State → OpenBundle → List Word → SylRes × State) (hk : Keeps kr kl s0 s) (hf : ∀ s0 x0 x1 x2, Keeps kr kl s0
    x0 → Keeps2 kr kl s0 (f x0 x1 x2)) : Keeps2 kr kl s0 (popSyl s n r b i both kind first len f) := by
  unfold popSyl
  with_reducible repeat' first
    | assumption | apply keeps_clearFence | apply keeps_popEntry | apply Keeps2.snd | apply Keeps3.snd
    | refine Keeps2.eq (by assumption) ?_ | refine Keeps3.eq (by assumption) ?_ | apply hf
    | (extract_lets +onlyGivenNames x; subst x) | split | fail_if_no_progress beta_reduce | apply Keeps2.mk
    | apply Keeps3.mk

theorem keeps_bretEff (sl : Slot) (s : State) (r : CoreRegs) (b : OpenBundle) (hk : Keeps kr kl s0 s) : Keeps2 kr kl
    s0 (bretEff sl s r b) := by
  unfold bretEff
  with_reducible repeat' first
    | assumption | apply keeps_popSyl | apply keeps_withSegs | apply Keeps2.snd | refine Keeps2.eq (by assumption) ?_
    | intro _ | (extract_lets +onlyGivenNames x; subst x) | split | fail_if_no_progress beta_reduce | apply Keeps2.mk

theorem keeps_eretEff (sl : Slot) (s : State) (r : CoreRegs) (b : OpenBundle) (hk : Keeps kr kl s0 s) : Keeps2 kr kl
    s0 (eretEff sl s r b) := by
  unfold eretEff
  with_reducible repeat' first
    | assumption | apply keeps_withDesc | apply Keeps2.snd | refine Keeps2.eq (by assumption) ?_ | intro _
    | (extract_lets +onlyGivenNames x; subst x) | split | fail_if_no_progress beta_reduce | apply Keeps2.mk

theorem keeps_farEff (sl : Slot) (a b' : Reg) (s : State) (r : CoreRegs) (b : OpenBundle) (hk : Keeps kr kl s0 s) :
    Keeps2 kr kl s0 (farEff sl a b' s r b) := by
  unfold farEff
  with_reducible repeat' first
    | assumption | apply keeps_withDesc | apply Keeps2.snd | refine Keeps2.eq (by assumption) ?_ | intro _
    | (extract_lets +onlyGivenNames x; subst x) | split | fail_if_no_progress beta_reduce | apply Keeps2.mk

theorem keeps_restctxEff (sl : Slot) (s : State) (r : CoreRegs) (b : OpenBundle) (hk : Keeps kr kl s0 s) : Keeps2 kr
    kl s0 (restctxEff sl s r b) := by
  unfold restctxEff
  with_reducible repeat' first
    | assumption | apply keeps_popSyl | apply keeps_withSegs | apply Keeps2.snd | refine Keeps2.eq (by assumption) ?_
    | intro _ | (extract_lets +onlyGivenNames x; subst x) | split | fail_if_no_progress beta_reduce | apply Keeps2.mk

theorem keeps_retmEff (sl : Slot) (s : State) (r : CoreRegs) (b : OpenBundle) (hk : Keeps kr kl s0 s) : Keeps2 kr kl
    s0 (retmEff sl s r b) := by
  unfold retmEff
  with_reducible repeat' first
    | assumption | apply keeps_popSyl | apply keeps_readSeg | apply Keeps2.snd | apply Keeps3.snd
    | refine Keeps2.eq (by assumption) ?_ | refine Keeps3.eq (by assumption) ?_ | intro _
    | (extract_lets +onlyGivenNames x; subst x) | split | fail_if_no_progress beta_reduce | apply Keeps2.mk
    | apply Keeps3.mk

theorem keeps_retEff (sl : Slot) (s : State) (r : CoreRegs) (b : OpenBundle) (hk : Keeps kr kl s0 s) : Keeps2 kr kl
    s0 (retEff sl s r b) := by
  unfold retEff
  with_reducible repeat' first
    | assumption | apply keeps_popSyl | apply Keeps2.snd | refine Keeps2.eq (by assumption) ?_ | intro _
    | (extract_lets +onlyGivenNames x; subst x) | split | fail_if_no_progress beta_reduce | apply Keeps2.mk

theorem keeps_bcallEff (sl : Slot) (imm : BitVec 16) (s : State) (r : CoreRegs) (b : OpenBundle) (hk : Keeps kr kl
    s0 s) : Keeps2 kr kl s0 (bcallEff sl imm s r b) := by
  unfold bcallEff
  with_reducible repeat' first
    | assumption | apply keeps_withDesc | apply keeps_issueCoreStamp | apply Keeps2.snd
    | refine Keeps2.eq (by assumption) ?_ | intro _ | (extract_lets +onlyGivenNames x; subst x) | split
    | fail_if_no_progress beta_reduce | apply Keeps2.mk

theorem keeps_lateEff (i : Instr) (s : State) (r : CoreRegs) (b : OpenBundle) (hk : Keeps kr kl s0 s) : Keeps2 kr kl
    s0 (lateEff i s r b) := by
  unfold lateEff
  with_reducible repeat' first
    | assumption | apply keeps_loadEff | apply keeps_ldrsvEff | apply keeps_ldsegEff | apply keeps_retEff
    | apply keeps_retmEff | apply keeps_restctxEff | apply keeps_farEff | apply keeps_eretEff | apply keeps_bcallEff
    | apply keeps_bretEff | apply Keeps2.snd | refine Keeps2.eq (by assumption) ?_
    | (extract_lets +onlyGivenNames x; subst x) | split | fail_if_no_progress beta_reduce | apply Keeps2.mk

end Sys2Proof.Machine
end

