-- ==== Sys2Proof/Laws/KeepsBundle.lean ====
section
/-! SUPPORT. What the operations of Bundle.lean keep: one lemma for each, in the terms of `Keeps`. -/

set_option linter.unusedTactic false
set_option linter.unreachableTactic false

namespace Sys2Proof.Machine

variable {kr kl : Bool} {s0 : State}

theorem keeps_noteRetries (s : State) (n : ℕ) (hk : Keeps kr kl s0 s) : Keeps kr kl s0 (noteRetries s n) := by
  unfold noteRetries
  with_reducible repeat' first
    | assumption | apply keeps_issueCoreStamp | apply keeps_updCore | apply keeps_faultAt | apply Keeps2.snd
    | refine Keeps2.eq (by assumption) ?_ | (extract_lets +onlyGivenNames x; subst x) | split
    | fail_if_no_progress beta_reduce | apply Keeps2.mk

theorem keeps_countDeferral (s : State) (n : ℕ) (b : OpenBundle) (pc : Word) (hk : Keeps kr kl s0 s) : Keeps kr kl
    s0 (countDeferral s n b pc) := by
  unfold countDeferral
  with_reducible repeat' first
    | assumption | apply keeps_endDeferral | apply keeps_updCore | (extract_lets +onlyGivenNames x; subst x) | split
    | fail_if_no_progress beta_reduce

theorem keeps_bwdrNow (s : State) (n : ℕ) (w stamp : Word) (hk : Keeps kr kl s0 s) : Keeps kr kl s0 (bwdrNow s n w
    stamp) := by
  unfold bwdrNow
  refine ⟨hk.pending, hk.part, hk.mem, hk.version, hk.custKey, hk.retired, fun x y => ?_⟩
  have z := hk.lock x y
  dsimp only
  repeat' split
  all_goals simp [z]

theorem keeps_actNow (s : State) (n : ℕ) (a : Act) (hk : Keeps kr kl s0 s) : Keeps kr kl s0 (actNow s n a) := by
  unfold actNow
  with_reducible repeat' first
    | assumption | apply keeps_issueCoreStamp | apply keeps_bwdrNow | apply keeps_updCore | apply keeps_faultAt
    | apply Keeps2.snd | refine Keeps2.eq (by assumption) ?_ | (extract_lets +onlyGivenNames x; subst x) | split
    | fail_if_no_progress beta_reduce | apply Keeps2.mk

theorem keeps_fetchWords (s : State) (n : ℕ) (hk : Keeps kr kl s0 s) : Keeps2 kr kl s0 (fetchWords s n) := by
  unfold fetchWords
  with_reducible repeat' first
    | assumption | apply keeps_issueCoreStamp | apply keeps_peekBytes | apply Keeps2.snd
    | refine Keeps2.eq (by assumption) ?_ | (extract_lets +onlyGivenNames x; subst x) | split
    | fail_if_no_progress beta_reduce | apply Keeps2.mk

theorem keeps_resumeRepeat (s : State) (n : ℕ) (hk : Keeps kr kl s0 s) : Keeps kr kl s0 (resumeRepeat s n) := by
  unfold resumeRepeat
  with_reducible repeat' first
    | assumption | apply keeps_fetchWords | apply keeps_enterException | apply keeps_updCore | apply Keeps2.snd
    | refine Keeps2.eq (by assumption) ?_ | (extract_lets +onlyGivenNames x; subst x) | split
    | fail_if_no_progress beta_reduce | apply Keeps2.mk

theorem keeps_completeBundle (s : State) (n : ℕ) (b : OpenBundle) (hk : Keeps kr kl s0 s) : Keeps kr kl s0
    (completeBundle s n b) := by
  unfold completeBundle
  with_reducible repeat' first
    | assumption | apply keeps_updCore | apply keeps_noteRetries | apply keeps_countDeferral | apply keeps_endDeferral
    | apply keeps_actNow | apply keeps_resumeRepeat | apply keeps_enterException | refine Keeps.foldl _ ?_ ?_
    | refine Keeps2.foldl _ ?_ ?_ | intro _ | (extract_lets +onlyGivenNames x; subst x) | split
    | fail_if_no_progress beta_reduce

theorem keeps_raiseBundle (s : State) (n : ℕ) (e : Exc) (hk : Keeps kr kl s0 s) : Keeps kr kl s0 (raiseBundle s n e)
    := by
  unfold raiseBundle
  with_reducible repeat' first
    | assumption | apply keeps_enterException | apply keeps_noteRetries | (extract_lets +onlyGivenNames x; subst x)
    | split | fail_if_no_progress beta_reduce

theorem keeps_lateSteps (a0 : List Late) (a1 : State) (a2 : ℕ) (a3 : OpenBundle) (hk : Keeps kr kl s0 a1) : Keeps kr
    kl s0 (lateSteps a0 a1 a2 a3) := by
  induction a0 generalizing a1 a2 a3 with
  | nil =>
    unfold lateSteps
    repeat' first
      | with_reducible assumption
      | (with_reducible apply keeps_completeBundle)
      | (with_reducible apply keeps_updCore)
      | (extract_lets +onlyGivenNames x; subst x)
      | split
  | cons x1 xs1 ih =>
    cases x1 <;> rw [lateSteps] <;>
    repeat' first
      | with_reducible assumption
      | (with_reducible apply ih)
      | (with_reducible apply keeps_updCore)
      | (with_reducible apply keeps_endDeferral)
      | (with_reducible apply keeps_storeCond)
      | (with_reducible apply keeps_askOwn)
      | (with_reducible apply keeps_lateEff)
      | (with_reducible apply keeps_raiseBundle)
      | (with_reducible apply Keeps2.snd)
      | (with_reducible refine Keeps2.eq (by assumption) ?_)
      | (extract_lets +onlyGivenNames x; subst x)
      | split
      | fail_if_no_progress beta_reduce

theorem keeps_proceed (s : State) (n : ℕ) (hk : Keeps kr kl s0 s) : Keeps kr kl s0 (proceed s n) := by
  unfold proceed
  with_reducible repeat' first
    | assumption | apply keeps_lateSteps | apply keeps_updCore | (extract_lets +onlyGivenNames x; subst x) | split
    | fail_if_no_progress beta_reduce

theorem keeps_endBundle (s : State) (n : ℕ) (b : OpenBundle) (stopped : Bool) (hk : Keeps kr kl s0 s) : Keeps kr kl
    s0 (endBundle s n b stopped) := by
  unfold endBundle
  with_reducible repeat' first
    | assumption | apply keeps_raiseBundle | apply keeps_updCore | apply keeps_proceed
    | (extract_lets +onlyGivenNames x; subst x) | split | fail_if_no_progress beta_reduce

theorem keeps_runSyl (s : State) (sl : Slot) (fits : FUnit → Bool) (i : Instr) (f : State → CoreRegs → OpenBundle →
    SylRes × State) (hk : Keeps kr kl s0 s) (hf : ∀ s0 x0 x1 x2, Keeps kr kl s0 x0 → Keeps2 kr kl s0 (f x0 x1 x2)) :
    Keeps kr kl s0 (runSyl s sl fits i f) := by
  unfold runSyl
  with_reducible repeat' first
    | assumption | apply keeps_proceed | apply keeps_raiseBundle | apply keeps_endBundle | apply keeps_updCore
    | apply Keeps2.snd | refine Keeps2.eq (by assumption) ?_ | apply hf | (extract_lets +onlyGivenNames x; subst x)
    | split | fail_if_no_progress beta_reduce | apply Keeps2.mk

theorem keeps_regSyl (s : State) (sl : Slot) (fits : FUnit → Bool) (i : Instr) (f : CoreRegs → CoreRegs → CoreRegs)
    (hk : Keeps kr kl s0 s) : Keeps kr kl s0 (regSyl s sl fits i f) := by
  unfold regSyl
  with_reducible repeat' first
    | assumption | apply keeps_runSyl | apply Keeps2.snd | refine Keeps2.eq (by assumption) ?_ | intro _
    | (extract_lets +onlyGivenNames x; subst x) | split | fail_if_no_progress beta_reduce | apply Keeps2.mk

end Sys2Proof.Machine
end

