-- ==== Sys2Proof/Laws/KeepsCoreFloat.lean ====
section
/-! SUPPORT. What the operations of CoreFloat.lean keep: one lemma for each, in the terms of `Keeps`. -/

set_option linter.unusedTactic false
set_option linter.unreachableTactic false

namespace Sys2Proof.Machine

variable {kr kl : Bool} {s0 : State}

theorem keeps_execAccclr (sl : Slot) (acc : BitVec 2) (s : State) {t : State} (hk : Keeps kr kl s0 s) (e :
    execAccclr sl acc s = .next t) : Keeps kr kl s0 t := by
  unfold execAccclr at e
  injection e with e
  subst e
  with_reducible repeat' first
    | assumption | apply keeps_regSyl | (extract_lets +onlyGivenNames x; subst x) | split
    | fail_if_no_progress beta_reduce

theorem keeps_fltSyl (s : State) (sl : Slot) (i : Instr) (t : Fmt) (d : Reg) (op : CoreRegs → ℕ × FFlags) (hk :
    Keeps kr kl s0 s) : Keeps kr kl s0 (fltSyl s sl i t d op) := by
  unfold fltSyl
  with_reducible repeat' first
    | assumption | apply keeps_regSyl | (extract_lets +onlyGivenNames x; subst x) | split
    | fail_if_no_progress beta_reduce

theorem keeps_execFmul (sl : Slot) (fmt : Fmt) (d a b : Reg) (s : State) {t : State} (hk : Keeps kr kl s0 s) (e :
    execFmul sl fmt d a b s = .next t) : Keeps kr kl s0 t := by
  unfold execFmul at e
  injection e with e
  subst e
  with_reducible repeat' first
    | assumption | apply keeps_fltSyl | (extract_lets +onlyGivenNames x; subst x) | split
    | fail_if_no_progress beta_reduce

theorem keeps_execAccrd (sl : Slot) (acc : BitVec 2) (g : Reg) (s : State) {t : State} (hk : Keeps kr kl s0 s) (e :
    execAccrd sl acc g s = .next t) : Keeps kr kl s0 t := by
  unfold execAccrd at e
  injection e with e
  subst e
  with_reducible repeat' first
    | assumption | apply keeps_regSyl | (extract_lets +onlyGivenNames x; subst x) | split
    | fail_if_no_progress beta_reduce

theorem keeps_execFsqrt (sl : Slot) (fmt : Fmt) (d a : Reg) (s : State) {t : State} (hk : Keeps kr kl s0 s) (e :
    execFsqrt sl fmt d a s = .next t) : Keeps kr kl s0 t := by
  unfold execFsqrt at e
  injection e with e
  subst e
  with_reducible repeat' first
    | assumption | apply keeps_fltSyl | (extract_lets +onlyGivenNames x; subst x) | split
    | fail_if_no_progress beta_reduce

theorem keeps_execFms (sl : Slot) (fmt : Fmt) (d a b : Reg) (s : State) {t : State} (hk : Keeps kr kl s0 s) (e :
    execFms sl fmt d a b s = .next t) : Keeps kr kl s0 t := by
  unfold execFms at e
  injection e with e
  subst e
  with_reducible repeat' first
    | assumption | apply keeps_fltSyl | (extract_lets +onlyGivenNames x; subst x) | split
    | fail_if_no_progress beta_reduce

theorem keeps_decSyl (s : State) (sl : Slot) (i : Instr) (ops : CoreRegs → List (ℕ × ℕ)) (f : List ℤ → CoreRegs →
    CoreRegs) (hk : Keeps kr kl s0 s) : Keeps kr kl s0 (decSyl s sl i ops f) := by
  unfold decSyl
  with_reducible repeat' first
    | assumption | apply keeps_runSyl | apply Keeps2.snd | refine Keeps2.eq (by assumption) ?_ | intro _
    | (extract_lets +onlyGivenNames x; subst x) | split | fail_if_no_progress beta_reduce | apply Keeps2.mk

theorem keeps_execDsub (sl : Slot) (d a b : Reg) (s : State) {t : State} (hk : Keeps kr kl s0 s) (e : execDsub sl d
    a b s = .next t) : Keeps kr kl s0 t := by
  unfold execDsub at e
  injection e with e
  subst e
  with_reducible repeat' first
    | assumption | apply keeps_decSyl | (extract_lets +onlyGivenNames x; subst x) | split
    | fail_if_no_progress beta_reduce

theorem keeps_execFmin (sl : Slot) (fmt : Fmt) (d a b : Reg) (s : State) {t : State} (hk : Keeps kr kl s0 s) (e :
    execFmin sl fmt d a b s = .next t) : Keeps kr kl s0 t := by
  unfold execFmin at e
  injection e with e
  subst e
  with_reducible repeat' first
    | assumption | apply keeps_fltSyl | (extract_lets +onlyGivenNames x; subst x) | split
    | fail_if_no_progress beta_reduce

theorem keeps_execDtoi (sl : Slot) (d a : Reg) (s : State) {t : State} (hk : Keeps kr kl s0 s) (e : execDtoi sl d a
    s = .next t) : Keeps kr kl s0 t := by
  unfold execDtoi at e
  injection e with e
  subst e
  with_reducible repeat' first
    | assumption | apply keeps_decSyl | (extract_lets +onlyGivenNames x; subst x) | split
    | fail_if_no_progress beta_reduce

theorem keeps_execFdiv (sl : Slot) (fmt : Fmt) (d a b : Reg) (s : State) {t : State} (hk : Keeps kr kl s0 s) (e :
    execFdiv sl fmt d a b s = .next t) : Keeps kr kl s0 t := by
  unfold execFdiv at e
  injection e with e
  subst e
  with_reducible repeat' first
    | assumption | apply keeps_fltSyl | (extract_lets +onlyGivenNames x; subst x) | split
    | fail_if_no_progress beta_reduce

theorem keeps_execFnma (sl : Slot) (fmt : Fmt) (d a b : Reg) (s : State) {t : State} (hk : Keeps kr kl s0 s) (e :
    execFnma sl fmt d a b s = .next t) : Keeps kr kl s0 t := by
  unfold execFnma at e
  injection e with e
  subst e
  with_reducible repeat' first
    | assumption | apply keeps_fltSyl | (extract_lets +onlyGivenNames x; subst x) | split
    | fail_if_no_progress beta_reduce

theorem keeps_cvtToInt (s : State) (sl : Slot) (i : Instr) (d a : Reg) (sf : BitVec 2) (signed toZero : Bool) (hk :
    Keeps kr kl s0 s) : Keeps kr kl s0 (cvtToInt s sl i d a sf signed toZero) := by
  unfold cvtToInt
  with_reducible repeat' first
    | assumption | apply keeps_fltSyl | (extract_lets +onlyGivenNames x; subst x) | split
    | fail_if_no_progress beta_reduce

theorem keeps_execAccwr (sl : Slot) (acc : BitVec 2) (g : Reg) (s : State) {t : State} (hk : Keeps kr kl s0 s) (e :
    execAccwr sl acc g s = .next t) : Keeps kr kl s0 t := by
  unfold execAccwr at e
  injection e with e
  subst e
  with_reducible repeat' first
    | assumption | apply keeps_regSyl | (extract_lets +onlyGivenNames x; subst x) | split
    | fail_if_no_progress beta_reduce

theorem keeps_execAccrnd (sl : Slot) (acc : BitVec 2) (g : Reg) (s : State) {t : State} (hk : Keeps kr kl s0 s) (e :
    execAccrnd sl acc g s = .next t) : Keeps kr kl s0 t := by
  unfold execAccrnd at e
  injection e with e
  subst e
  with_reducible repeat' first
    | assumption | apply keeps_fltSyl | (extract_lets +onlyGivenNames x; subst x) | split
    | fail_if_no_progress beta_reduce

theorem keeps_execFsub (sl : Slot) (fmt : Fmt) (d a b : Reg) (s : State) {t : State} (hk : Keeps kr kl s0 s) (e :
    execFsub sl fmt d a b s = .next t) : Keeps kr kl s0 t := by
  unfold execFsub at e
  injection e with e
  subst e
  with_reducible repeat' first
    | assumption | apply keeps_fltSyl | (extract_lets +onlyGivenNames x; subst x) | split
    | fail_if_no_progress beta_reduce

theorem keeps_execFcmp (sl : Slot) (fmt : Fmt) (a b : Reg) (s : State) {t : State} (hk : Keeps kr kl s0 s) (e :
    execFcmp sl fmt a b s = .next t) : Keeps kr kl s0 t := by
  unfold execFcmp at e
  injection e with e
  subst e
  with_reducible repeat' first
    | assumption | apply keeps_regSyl | (extract_lets +onlyGivenNames x; subst x) | split
    | fail_if_no_progress beta_reduce

theorem keeps_execFadd (sl : Slot) (fmt : Fmt) (d a b : Reg) (s : State) {t : State} (hk : Keeps kr kl s0 s) (e :
    execFadd sl fmt d a b s = .next t) : Keeps kr kl s0 t := by
  unfold execFadd at e
  injection e with e
  subst e
  with_reducible repeat' first
    | assumption | apply keeps_fltSyl | (extract_lets +onlyGivenNames x; subst x) | split
    | fail_if_no_progress beta_reduce

theorem keeps_execFma (sl : Slot) (fmt : Fmt) (d a b : Reg) (s : State) {t : State} (hk : Keeps kr kl s0 s) (e :
    execFma sl fmt d a b s = .next t) : Keeps kr kl s0 t := by
  unfold execFma at e
  injection e with e
  subst e
  with_reducible repeat' first
    | assumption | apply keeps_fltSyl | (extract_lets +onlyGivenNames x; subst x) | split
    | fail_if_no_progress beta_reduce

theorem keeps_execItod (sl : Slot) (d a : Reg) (s : State) {t : State} (hk : Keeps kr kl s0 s) (e : execItod sl d a
    s = .next t) : Keeps kr kl s0 t := by
  unfold execItod at e
  injection e with e
  subst e
  with_reducible repeat' first
    | assumption | apply keeps_regSyl | (extract_lets +onlyGivenNames x; subst x) | split
    | fail_if_no_progress beta_reduce

theorem keeps_execDcmp (sl : Slot) (a b : Reg) (s : State) {t : State} (hk : Keeps kr kl s0 s) (e : execDcmp sl a b
    s = .next t) : Keeps kr kl s0 t := by
  unfold execDcmp at e
  injection e with e
  subst e
  with_reducible repeat' first
    | assumption | apply keeps_decSyl | (extract_lets +onlyGivenNames x; subst x) | split
    | fail_if_no_progress beta_reduce

theorem keeps_execFcvt (sl : Slot) (kind : BitVec 4) (sf df : BitVec 2) (d a : Reg) (s : State) {t : State} (hk :
    Keeps kr kl s0 s) (e : execFcvt sl kind sf df d a s = .next t) : Keeps kr kl s0 t := by
  unfold execFcvt at e
  injection e with e
  subst e
  with_reducible repeat' first
    | assumption | apply keeps_fltSyl | apply keeps_cvtToInt | (extract_lets +onlyGivenNames x; subst x) | split
    | fail_if_no_progress beta_reduce

theorem keeps_execDadd (sl : Slot) (d a b : Reg) (s : State) {t : State} (hk : Keeps kr kl s0 s) (e : execDadd sl d
    a b s = .next t) : Keeps kr kl s0 t := by
  unfold execDadd at e
  injection e with e
  subst e
  with_reducible repeat' first
    | assumption | apply keeps_decSyl | (extract_lets +onlyGivenNames x; subst x) | split
    | fail_if_no_progress beta_reduce

theorem keeps_execFmax (sl : Slot) (fmt : Fmt) (d a b : Reg) (s : State) {t : State} (hk : Keeps kr kl s0 s) (e :
    execFmax sl fmt d a b s = .next t) : Keeps kr kl s0 t := by
  unfold execFmax at e
  injection e with e
  subst e
  with_reducible repeat' first
    | assumption | apply keeps_fltSyl | (extract_lets +onlyGivenNames x; subst x) | split
    | fail_if_no_progress beta_reduce

end Sys2Proof.Machine
end

