-- ==== Sys2Proof/Laws/KeepsCoreMem.lean ====
section
/-! SUPPORT. What the operations of CoreMem.lean keep: one lemma for each, in the terms of `Keeps`. -/

set_option linter.unusedTactic false
set_option linter.unreachableTactic false

namespace Sys2Proof.Machine

variable {kr kl : Bool} {s0 : State}

theorem keeps_storeSyl (s : State) (m : MemOp) (i : Instr) (size : ℕ) (v : CoreRegs → ℕ) (hk : Keeps kr kl s0 s) :
    Keeps kr kl s0 (storeSyl s m i size v) := by
  unfold storeSyl
  with_reducible repeat' first
    | assumption | apply keeps_runSyl | apply keeps_issueCoreStamp | apply keeps_clearFence | apply Keeps2.snd
    | refine Keeps2.eq (by assumption) ?_ | intro _ | (extract_lets +onlyGivenNames x; subst x) | split
    | fail_if_no_progress beta_reduce | apply Keeps2.mk

theorem keeps_execSta (m : MemOp) (s : State) {t : State} (hk : Keeps kr kl s0 s) (e : execSta m s = .next t) :
    Keeps kr kl s0 t := by
  unfold execSta at e
  injection e with e
  subst e
  with_reducible repeat' first
    | assumption | apply keeps_storeSyl | (extract_lets +onlyGivenNames x; subst x) | split
    | fail_if_no_progress beta_reduce

theorem keeps_loadSyl (s : State) (m : MemOp) (i : Instr) (kind size : ℕ) (hk : Keeps kr kl s0 s) : Keeps kr kl s0
    (loadSyl s m i kind size) := by
  unfold loadSyl
  with_reducible repeat' first
    | assumption | apply keeps_runSyl | apply keeps_loadEff | apply Keeps2.snd | refine Keeps2.eq (by assumption) ?_
    | intro _ | (extract_lets +onlyGivenNames x; subst x) | split | fail_if_no_progress beta_reduce | apply Keeps2.mk

theorem keeps_execLda (m : MemOp) (s : State) {t : State} (hk : Keeps kr kl s0 s) (e : execLda m s = .next t) :
    Keeps kr kl s0 t := by
  unfold execLda at e
  injection e with e
  subst e
  with_reducible repeat' first
    | assumption | apply keeps_loadSyl | (extract_lets +onlyGivenNames x; subst x) | split
    | fail_if_no_progress beta_reduce

theorem keeps_execLdp (m : MemOp) (s : State) {t : State} (hk : Keeps kr kl s0 s) (e : execLdp m s = .next t) :
    Keeps kr kl s0 t := by
  unfold execLdp at e
  injection e with e
  subst e
  with_reducible repeat' first
    | assumption | apply keeps_loadSyl | (extract_lets +onlyGivenNames x; subst x) | split
    | fail_if_no_progress beta_reduce

theorem keeps_fenceSyl (s : State) (sl : Slot) (i : Instr) (kind : ℕ) (hk : Keeps kr kl s0 s) : Keeps kr kl s0
    (fenceSyl s sl i kind) := by
  unfold fenceSyl
  with_reducible repeat' first
    | assumption | apply keeps_runSyl | apply keeps_leaveWc | apply Keeps2.snd | refine Keeps2.eq (by assumption) ?_
    | intro _ | (extract_lets +onlyGivenNames x; subst x) | split | fail_if_no_progress beta_reduce | apply Keeps2.mk

theorem keeps_execFenceSl (sl : Slot) (s : State) {t : State} (hk : Keeps kr kl s0 s) (e : execFenceSl sl s = .next
    t) : Keeps kr kl s0 t := by
  unfold execFenceSl at e
  injection e with e
  subst e
  with_reducible repeat' first
    | assumption | apply keeps_fenceSyl | (extract_lets +onlyGivenNames x; subst x) | split
    | fail_if_no_progress beta_reduce

theorem keeps_execStcnd (sl : Slot) (wide : Bool) (rd : Reg) (sgr : BitVec 4) (a : Reg) (s : State) {t : State} (hk
    : Keeps kr kl s0 s) (e : execStcnd sl wide rd sgr a s = .next t) : Keeps kr kl s0 t := by
  unfold execStcnd at e
  injection e with e
  subst e
  with_reducible repeat' first
    | assumption | apply keeps_runSyl | apply keeps_clearFence | apply Keeps2.snd | refine Keeps2.eq (by assumption) ?_
    | intro _ | (extract_lets +onlyGivenNames x; subst x) | split | fail_if_no_progress beta_reduce | apply Keeps2.mk

theorem keeps_execPf (m : MemOp) (s : State) {t : State} (hk : Keeps kr kl s0 s) (e : execPf m s = .next t) : Keeps
    kr kl s0 t := by
  unfold execPf at e
  injection e with e
  subst e
  with_reducible repeat' first
    | assumption | apply keeps_runSyl | apply keeps_prefetchFor | apply Keeps2.snd
    | refine Keeps2.eq (by assumption) ?_ | intro _ | (extract_lets +onlyGivenNames x; subst x) | split
    | fail_if_no_progress beta_reduce | apply Keeps2.mk

theorem keeps_macmLoad (s : State) (n : ℕ) (b : OpenBundle) (r : CoreRegs) (unit : FUnit) (sg : BitVec 4) (g : Reg)
    (hk : Keeps kr kl s0 s) : Keeps3 kr kl s0 (macmLoad s n b r unit sg g) := by
  unfold macmLoad
  with_reducible repeat' first
    | assumption | apply keeps_loadAccess | apply Keeps3.snd | refine Keeps3.eq (by assumption) ?_
    | (extract_lets +onlyGivenNames x; subst x) | split | fail_if_no_progress beta_reduce | apply Keeps3.mk

theorem keeps_macmRun (s : State) (n : ℕ) (b : OpenBundle) (r : CoreRegs) (var acc : BitVec 2) (ga : Reg) (sa :
    BitVec 4) (gb : Reg) (sb : BitVec 4) (hk : Keeps kr kl s0 s) : Keeps2 kr kl s0 (macmRun s n b r var acc ga sa gb sb)
    := by
  unfold macmRun
  with_reducible repeat' first
    | assumption | apply keeps_macmLoad | apply Keeps2.snd | apply Keeps3.snd | refine Keeps2.eq (by assumption) ?_
    | refine Keeps3.eq (by assumption) ?_ | (extract_lets +onlyGivenNames x; subst x) | split
    | fail_if_no_progress beta_reduce | apply Keeps2.mk | apply Keeps3.mk

theorem keeps_execLdb (m : MemOp) (s : State) {t : State} (hk : Keeps kr kl s0 s) (e : execLdb m s = .next t) :
    Keeps kr kl s0 t := by
  unfold execLdb at e
  injection e with e
  subst e
  with_reducible repeat' first
    | assumption | apply keeps_loadSyl | (extract_lets +onlyGivenNames x; subst x) | split
    | fail_if_no_progress beta_reduce

theorem keeps_execFenceFull (sl : Slot) (s : State) {t : State} (hk : Keeps kr kl s0 s) (e : execFenceFull sl s =
    .next t) : Keeps kr kl s0 t := by
  unfold execFenceFull at e
  injection e with e
  subst e
  with_reducible repeat' first
    | assumption | apply keeps_fenceSyl | (extract_lets +onlyGivenNames x; subst x) | split
    | fail_if_no_progress beta_reduce

theorem keeps_macmEarly (s : State) (n : ℕ) (b : OpenBundle) (r : CoreRegs) (unit : FUnit) (sg : BitVec 4) (g : Reg)
    (hk : Keeps kr kl s0 s) : Keeps3 kr kl s0 (macmEarly s n b r unit sg g) := by
  unfold macmEarly
  with_reducible repeat' first
    | assumption | apply keeps_macmLoad | apply Keeps3.snd | refine Keeps3.eq (by assumption) ?_
    | (extract_lets +onlyGivenNames x; subst x) | split | fail_if_no_progress beta_reduce | apply Keeps3.mk

theorem keeps_execLdhs (m : MemOp) (s : State) {t : State} (hk : Keeps kr kl s0 s) (e : execLdhs m s = .next t) :
    Keeps kr kl s0 t := by
  unfold execLdhs at e
  injection e with e
  subst e
  with_reducible repeat' first
    | assumption | apply keeps_loadSyl | (extract_lets +onlyGivenNames x; subst x) | split
    | fail_if_no_progress beta_reduce

theorem keeps_execLdws (m : MemOp) (s : State) {t : State} (hk : Keeps kr kl s0 s) (e : execLdws m s = .next t) :
    Keeps kr kl s0 t := by
  unfold execLdws at e
  injection e with e
  subst e
  with_reducible repeat' first
    | assumption | apply keeps_loadSyl | (extract_lets +onlyGivenNames x; subst x) | split
    | fail_if_no_progress beta_reduce

theorem keeps_execSth (m : MemOp) (s : State) {t : State} (hk : Keeps kr kl s0 s) (e : execSth m s = .next t) :
    Keeps kr kl s0 t := by
  unfold execSth at e
  injection e with e
  subst e
  with_reducible repeat' first
    | assumption | apply keeps_storeSyl | (extract_lets +onlyGivenNames x; subst x) | split
    | fail_if_no_progress beta_reduce

theorem keeps_execCmaintByZone (sl : Slot) (x : BitVec 2) (a : Reg) (s : State) {t : State} (hk : Keeps kr kl s0 s)
    (e : execCmaintByZone sl x a s = .next t) : Keeps kr kl s0 t := by
  unfold execCmaintByZone at e
  injection e with e
  subst e
  with_reducible repeat' first
    | assumption | apply keeps_runSyl | apply keeps_clearFence | apply Keeps2.snd | refine Keeps2.eq (by assumption) ?_
    | intro _ | (extract_lets +onlyGivenNames x; subst x) | split | fail_if_no_progress beta_reduce | apply Keeps2.mk

theorem keeps_execStb (m : MemOp) (s : State) {t : State} (hk : Keeps kr kl s0 s) (e : execStb m s = .next t) :
    Keeps kr kl s0 t := by
  unfold execStb at e
  injection e with e
  subst e
  with_reducible repeat' first
    | assumption | apply keeps_storeSyl | (extract_lets +onlyGivenNames x; subst x) | split
    | fail_if_no_progress beta_reduce

theorem keeps_execLdh (m : MemOp) (s : State) {t : State} (hk : Keeps kr kl s0 s) (e : execLdh m s = .next t) :
    Keeps kr kl s0 t := by
  unfold execLdh at e
  injection e with e
  subst e
  with_reducible repeat' first
    | assumption | apply keeps_loadSyl | (extract_lets +onlyGivenNames x; subst x) | split
    | fail_if_no_progress beta_reduce

theorem keeps_execFenceIo (sl : Slot) (s : State) {t : State} (hk : Keeps kr kl s0 s) (e : execFenceIo sl s = .next
    t) : Keeps kr kl s0 t := by
  unfold execFenceIo at e
  injection e with e
  subst e
  with_reducible repeat' first
    | assumption | apply keeps_fenceSyl | (extract_lets +onlyGivenNames x; subst x) | split
    | fail_if_no_progress beta_reduce

theorem keeps_macmDevice (s : State) (n : ℕ) (b : OpenBundle) (r : CoreRegs) (var acc : BitVec 2) (ga : Reg) (sa :
    BitVec 4) (gb : Reg) (sb : BitVec 4) (hk : Keeps kr kl s0 s) : Keeps2 kr kl s0 (macmDevice s n b r var acc ga sa gb
    sb) := by
  unfold macmDevice
  with_reducible repeat' first
    | assumption | apply keeps_macmEarly | apply keeps_macmRun | apply Keeps2.snd | apply Keeps3.snd
    | refine Keeps2.eq (by assumption) ?_ | refine Keeps3.eq (by assumption) ?_
    | (extract_lets +onlyGivenNames x; subst x) | split | fail_if_no_progress beta_reduce | apply Keeps2.mk
    | apply Keeps3.mk

theorem keeps_execMacm (sl : Slot) (var acc : BitVec 2) (ga : Reg) (sa : BitVec 4) (gb : Reg) (sb : BitVec 4) (s :
    State) {t : State} (hk : Keeps kr kl s0 s) (e : execMacm sl var acc ga sa gb sb s = .next t) : Keeps kr kl s0 t :=
    by
  unfold execMacm at e
  injection e with e
  subst e
  with_reducible repeat' first
    | assumption | apply keeps_runSyl | apply keeps_macmDevice | apply keeps_macmRun | apply Keeps2.snd
    | refine Keeps2.eq (by assumption) ?_ | intro _ | (extract_lets +onlyGivenNames x; subst x) | split
    | fail_if_no_progress beta_reduce | apply Keeps2.mk

theorem keeps_execLdrsv (sl : Slot) (wide : Bool) (rd : Reg) (sgr : BitVec 4) (a : Reg) (s : State) {t : State} (hk
    : Keeps kr kl s0 s) (e : execLdrsv sl wide rd sgr a s = .next t) : Keeps kr kl s0 t := by
  unfold execLdrsv at e
  injection e with e
  subst e
  with_reducible repeat' first
    | assumption | apply keeps_runSyl | apply keeps_ldrsvEff | apply Keeps2.snd | refine Keeps2.eq (by assumption) ?_
    | intro _ | (extract_lets +onlyGivenNames x; subst x) | split | fail_if_no_progress beta_reduce | apply Keeps2.mk

theorem keeps_execLdseg (sl : Slot) (sgr : BitVec 4) (a : Reg) (s : State) {t : State} (hk : Keeps kr kl s0 s) (e :
    execLdseg sl sgr a s = .next t) : Keeps kr kl s0 t := by
  unfold execLdseg at e
  injection e with e
  subst e
  with_reducible repeat' first
    | assumption | apply keeps_runSyl | apply keeps_ldsegEff | apply Keeps2.snd | refine Keeps2.eq (by assumption) ?_
    | intro _ | (extract_lets +onlyGivenNames x; subst x) | split | fail_if_no_progress beta_reduce | apply Keeps2.mk

theorem keeps_execCmaintGlobal (sl : Slot) (x : BitVec 2) (s : State) {t : State} (hk : Keeps kr kl s0 s) (e :
    execCmaintGlobal sl x s = .next t) : Keeps kr kl s0 t := by
  unfold execCmaintGlobal at e
  injection e with e
  subst e
  with_reducible repeat' first
    | assumption | apply keeps_runSyl | apply keeps_clearFence | apply Keeps2.snd | refine Keeps2.eq (by assumption) ?_
    | intro _ | (extract_lets +onlyGivenNames x; subst x) | split | fail_if_no_progress beta_reduce | apply Keeps2.mk

theorem keeps_execStd (m : MemOp) (s : State) {t : State} (hk : Keeps kr kl s0 s) (e : execStd m s = .next t) :
    Keeps kr kl s0 t := by
  unfold execStd at e
  injection e with e
  subst e
  with_reducible repeat' first
    | assumption | apply keeps_storeSyl | (extract_lets +onlyGivenNames x; subst x) | split
    | fail_if_no_progress beta_reduce

theorem keeps_execLdd (m : MemOp) (s : State) {t : State} (hk : Keeps kr kl s0 s) (e : execLdd m s = .next t) :
    Keeps kr kl s0 t := by
  unfold execLdd at e
  injection e with e
  subst e
  with_reducible repeat' first
    | assumption | apply keeps_loadSyl | (extract_lets +onlyGivenNames x; subst x) | split
    | fail_if_no_progress beta_reduce

theorem keeps_execStw (m : MemOp) (s : State) {t : State} (hk : Keeps kr kl s0 s) (e : execStw m s = .next t) :
    Keeps kr kl s0 t := by
  unfold execStw at e
  injection e with e
  subst e
  with_reducible repeat' first
    | assumption | apply keeps_storeSyl | (extract_lets +onlyGivenNames x; subst x) | split
    | fail_if_no_progress beta_reduce

theorem keeps_execLdbs (m : MemOp) (s : State) {t : State} (hk : Keeps kr kl s0 s) (e : execLdbs m s = .next t) :
    Keeps kr kl s0 t := by
  unfold execLdbs at e
  injection e with e
  subst e
  with_reducible repeat' first
    | assumption | apply keeps_loadSyl | (extract_lets +onlyGivenNames x; subst x) | split
    | fail_if_no_progress beta_reduce

theorem keeps_execCmaintByAddress (sl : Slot) (x : BitVec 2) (sgr : BitVec 4) (a : Reg) (s : State) {t : State} (hk
    : Keeps kr kl s0 s) (e : execCmaintByAddress sl x sgr a s = .next t) : Keeps kr kl s0 t := by
  unfold execCmaintByAddress at e
  injection e with e
  subst e
  with_reducible repeat' first
    | assumption | apply keeps_runSyl | apply keeps_clearFence | apply Keeps2.snd | refine Keeps2.eq (by assumption) ?_
    | intro _ | (extract_lets +onlyGivenNames x; subst x) | split | fail_if_no_progress beta_reduce | apply Keeps2.mk

theorem keeps_execLdw (m : MemOp) (s : State) {t : State} (hk : Keeps kr kl s0 s) (e : execLdw m s = .next t) :
    Keeps kr kl s0 t := by
  unfold execLdw at e
  injection e with e
  subst e
  with_reducible repeat' first
    | assumption | apply keeps_loadSyl | (extract_lets +onlyGivenNames x; subst x) | split
    | fail_if_no_progress beta_reduce

theorem keeps_execStp (m : MemOp) (s : State) {t : State} (hk : Keeps kr kl s0 s) (e : execStp m s = .next t) :
    Keeps kr kl s0 t := by
  unfold execStp at e
  injection e with e
  subst e
  with_reducible repeat' first
    | assumption | apply keeps_storeSyl | (extract_lets +onlyGivenNames x; subst x) | split
    | fail_if_no_progress beta_reduce

end Sys2Proof.Machine
end

