-- ==== Sys2Proof/Laws/KeepsCoreCtl.lean ====
section
/-! SUPPORT. What the operations of CoreCtl.lean keep: one lemma for each, in the terms of `Keeps`. -/

set_option linter.unusedTactic false
set_option linter.unreachableTactic false

namespace Sys2Proof.Machine

variable {kr kl : Bool} {s0 : State}

theorem keeps_ctlSyl (s : State) (sl : Slot) (i : Instr) (f : CoreRegs → CoreRegs → CoreRegs) (hk : Keeps kr kl s0
    s) : Keeps kr kl s0 (ctlSyl s sl i f) := by
  unfold ctlSyl
  with_reducible repeat' first
    | assumption | apply keeps_regSyl | (extract_lets +onlyGivenNames x; subst x) | split
    | fail_if_no_progress beta_reduce

theorem keeps_execMtpsw (sl : Slot) (a : Reg) (s : State) {t : State} (hk : Keeps kr kl s0 s) (e : execMtpsw sl a s
    = .next t) : Keeps kr kl s0 t := by
  unfold execMtpsw at e
  injection e with e
  subst e
  with_reducible repeat' first
    | assumption | apply keeps_ctlSyl | (extract_lets +onlyGivenNames x; subst x) | split
    | fail_if_no_progress beta_reduce

theorem keeps_callSyl (s : State) (sl : Slot) (i : Instr) (t : CoreRegs → Word) (hk : Keeps kr kl s0 s) : Keeps kr
    kl s0 (callSyl s sl i t) := by
  unfold callSyl
  with_reducible repeat' first
    | assumption | apply keeps_runSyl | apply keeps_issueCoreStamp | apply keeps_clearFence | apply Keeps2.snd
    | refine Keeps2.eq (by assumption) ?_ | intro _ | (extract_lets +onlyGivenNames x; subst x) | split
    | fail_if_no_progress beta_reduce | apply Keeps2.mk

theorem keeps_callmSyl (s : State) (sl : Slot) (i : Instr) (m : Reg) (t : CoreRegs → Word) (hk : Keeps kr kl s0 s) :
    Keeps kr kl s0 (callmSyl s sl i m t) := by
  unfold callmSyl
  with_reducible repeat' first
    | assumption | apply keeps_runSyl | apply keeps_issueCoreStamp | apply keeps_clearFence | apply Keeps2.snd
    | refine Keeps2.eq (by assumption) ?_ | intro _ | (extract_lets +onlyGivenNames x; subst x) | split
    | fail_if_no_progress beta_reduce | apply Keeps2.mk

theorem keeps_execCallmr (sl : Slot) (m a : Reg) (s : State) {t : State} (hk : Keeps kr kl s0 s) (e : execCallmr sl
    m a s = .next t) : Keeps kr kl s0 t := by
  unfold execCallmr at e
  injection e with e
  subst e
  with_reducible repeat' first
    | assumption | apply keeps_callmSyl | (extract_lets +onlyGivenNames x; subst x) | split
    | fail_if_no_progress beta_reduce

theorem keeps_privSyl (s : State) (sl : Slot) (i : Instr) (f : State → CoreRegs → OpenBundle → SylRes × State) (hk :
    Keeps kr kl s0 s) (hf : ∀ s0 x0 x1 x2, Keeps kr kl s0 x0 → Keeps2 kr kl s0 (f x0 x1 x2)) : Keeps kr kl s0 (privSyl s
    sl i f) := by
  unfold privSyl
  with_reducible repeat' first
    | assumption | apply keeps_runSyl | apply Keeps2.snd | refine Keeps2.eq (by assumption) ?_ | apply hf | intro _
    | (extract_lets +onlyGivenNames x; subst x) | split | fail_if_no_progress beta_reduce | apply Keeps2.mk

theorem keeps_execBret (sl : Slot) (s : State) {t : State} (hk : Keeps kr kl s0 s) (e : execBret sl s = .next t) :
    Keeps kr kl s0 t := by
  unfold execBret at e
  injection e with e
  subst e
  with_reducible repeat' first
    | assumption | apply keeps_runSyl | apply keeps_bretEff | apply Keeps2.snd | refine Keeps2.eq (by assumption) ?_
    | intro _ | (extract_lets +onlyGivenNames x; subst x) | split | fail_if_no_progress beta_reduce | apply Keeps2.mk

theorem keeps_execCallm (sl : Slot) (m : Reg) (disp : BitVec 16) (s : State) {t : State} (hk : Keeps kr kl s0 s) (e
    : execCallm sl m disp s = .next t) : Keeps kr kl s0 t := by
  unfold execCallm at e
  injection e with e
  subst e
  with_reducible repeat' first
    | assumption | apply keeps_callmSyl | (extract_lets +onlyGivenNames x; subst x) | split
    | fail_if_no_progress beta_reduce

theorem keeps_execMtctl (sl : Slot) (a : Reg) (num : BitVec 8) (s : State) {t : State} (hk : Keeps kr kl s0 s) (e :
    execMtctl sl a num s = .next t) : Keeps kr kl s0 t := by
  unfold execMtctl at e
  injection e with e
  subst e
  with_reducible repeat' first
    | assumption | apply keeps_privSyl | apply Keeps2.snd | refine Keeps2.eq (by assumption) ?_ | intro _
    | (extract_lets +onlyGivenNames x; subst x) | split | fail_if_no_progress beta_reduce | apply Keeps2.mk

theorem keeps_execMtfcsr (sl : Slot) (a : Reg) (s : State) {t : State} (hk : Keeps kr kl s0 s) (e : execMtfcsr sl a
    s = .next t) : Keeps kr kl s0 t := by
  unfold execMtfcsr at e
  injection e with e
  subst e
  with_reducible repeat' first
    | assumption | apply keeps_ctlSyl | (extract_lets +onlyGivenNames x; subst x) | split
    | fail_if_no_progress beta_reduce

theorem keeps_execSavectx (sl : Slot) (s : State) {t : State} (hk : Keeps kr kl s0 s) (e : execSavectx sl s = .next
    t) : Keeps kr kl s0 t := by
  unfold execSavectx at e
  injection e with e
  subst e
  with_reducible repeat' first
    | assumption | apply keeps_privSyl | apply keeps_issueCoreStamp | apply keeps_clearFence | apply Keeps2.snd
    | refine Keeps2.eq (by assumption) ?_ | intro _ | (extract_lets +onlyGivenNames x; subst x) | split
    | fail_if_no_progress beta_reduce | apply Keeps2.mk

theorem keeps_execMfpsw (sl : Slot) (d : Reg) (s : State) {t : State} (hk : Keeps kr kl s0 s) (e : execMfpsw sl d s
    = .next t) : Keeps kr kl s0 t := by
  unfold execMfpsw at e
  injection e with e
  subst e
  with_reducible repeat' first
    | assumption | apply keeps_ctlSyl | (extract_lets +onlyGivenNames x; subst x) | split
    | fail_if_no_progress beta_reduce

theorem keeps_execBcall (sl : Slot) (imm : BitVec 16) (s : State) {t : State} (hk : Keeps kr kl s0 s) (e : execBcall
    sl imm s = .next t) : Keeps kr kl s0 t := by
  unfold execBcall at e
  injection e with e
  subst e
  with_reducible repeat' first
    | assumption | apply keeps_runSyl | apply keeps_bcallEff | apply Keeps2.snd | refine Keeps2.eq (by assumption) ?_
    | intro _ | (extract_lets +onlyGivenNames x; subst x) | split | fail_if_no_progress beta_reduce | apply Keeps2.mk

theorem keeps_execMtpcnti (sl : Slot) (imm : BitVec 16) (s : State) {t : State} (hk : Keeps kr kl s0 s) (e :
    execMtpcnti sl imm s = .next t) : Keeps kr kl s0 t := by
  unfold execMtpcnti at e
  injection e with e
  subst e
  with_reducible repeat' first
    | assumption | apply keeps_ctlSyl | (extract_lets +onlyGivenNames x; subst x) | split
    | fail_if_no_progress beta_reduce

theorem keeps_execBwdr (sl : Slot) (a : Reg) (s : State) {t : State} (hk : Keeps kr kl s0 s) (e : execBwdr sl a s =
    .next t) : Keeps kr kl s0 t := by
  unfold execBwdr at e
  injection e with e
  subst e
  with_reducible repeat' first
    | assumption | apply keeps_runSyl | apply Keeps2.snd | refine Keeps2.eq (by assumption) ?_ | intro _
    | (extract_lets +onlyGivenNames x; subst x) | split | fail_if_no_progress beta_reduce | apply Keeps2.mk

theorem keeps_jumpSyl (s : State) (sl : Slot) (i : Instr) (t : CoreRegs → Option Word) (hk : Keeps kr kl s0 s) :
    Keeps kr kl s0 (jumpSyl s sl i t) := by
  unfold jumpSyl
  with_reducible repeat' first
    | assumption | apply keeps_runSyl | apply Keeps2.snd | refine Keeps2.eq (by assumption) ?_ | intro _
    | (extract_lets +onlyGivenNames x; subst x) | split | fail_if_no_progress beta_reduce | apply Keeps2.mk

theorem keeps_execRep (sl : Slot) (body : List Syl) (s : State) {t : State} (hk : Keeps kr kl s0 s) (e : execRep sl
    body s = .next t) : Keeps kr kl s0 t := by
  unfold execRep at e
  injection e with e
  subst e
  with_reducible repeat' first
    | assumption | apply keeps_runSyl | apply Keeps2.snd | refine Keeps2.eq (by assumption) ?_ | intro _
    | (extract_lets +onlyGivenNames x; subst x) | split | fail_if_no_progress beta_reduce | apply Keeps2.mk

theorem keeps_execRepIteration (core : ℕ) (s : State) {t : State} (hk : Keeps kr kl s0 s) (e : execRepIteration core
    s = .next t) : Keeps kr kl s0 t := by
  unfold execRepIteration at e
  injection e with e
  subst e
  with_reducible repeat' first
    | assumption | apply keeps_proceed | (extract_lets +onlyGivenNames x; subst x) | split
    | fail_if_no_progress beta_reduce

theorem keeps_execMtpcnt (sl : Slot) (a : Reg) (s : State) {t : State} (hk : Keeps kr kl s0 s) (e : execMtpcnt sl a
    s = .next t) : Keeps kr kl s0 t := by
  unfold execMtpcnt at e
  injection e with e
  subst e
  with_reducible repeat' first
    | assumption | apply keeps_ctlSyl | (extract_lets +onlyGivenNames x; subst x) | split
    | fail_if_no_progress beta_reduce

theorem keeps_execRestctx (sl : Slot) (s : State) {t : State} (hk : Keeps kr kl s0 s) (e : execRestctx sl s = .next
    t) : Keeps kr kl s0 t := by
  unfold execRestctx at e
  injection e with e
  subst e
  with_reducible repeat' first
    | assumption | apply keeps_privSyl | apply keeps_restctxEff | apply Keeps2.snd
    | refine Keeps2.eq (by assumption) ?_ | intro _ | (extract_lets +onlyGivenNames x; subst x) | split
    | fail_if_no_progress beta_reduce | apply Keeps2.mk

theorem keeps_execCall (sl : Slot) (disp : BitVec 22) (s : State) {t : State} (hk : Keeps kr kl s0 s) (e : execCall
    sl disp s = .next t) : Keeps kr kl s0 t := by
  unfold execCall at e
  injection e with e
  subst e
  with_reducible repeat' first
    | assumption | apply keeps_callSyl | (extract_lets +onlyGivenNames x; subst x) | split
    | fail_if_no_progress beta_reduce

theorem keeps_execWait (sl : Slot) (s : State) {t : State} (hk : Keeps kr kl s0 s) (e : execWait sl s = .next t) :
    Keeps kr kl s0 t := by
  unfold execWait at e
  injection e with e
  subst e
  with_reducible repeat' first
    | assumption | apply keeps_privSyl | apply Keeps2.snd | refine Keeps2.eq (by assumption) ?_ | intro _
    | (extract_lets +onlyGivenNames x; subst x) | split | fail_if_no_progress beta_reduce | apply Keeps2.mk

theorem keeps_execFetchFault (core : ℕ) (cause : FetchCause) (off : Word) (s : State) {t : State} (hk : Keeps kr kl
    s0 s) (e : execFetchFault core cause off s = .next t) : Keeps kr kl s0 t := by
  unfold execFetchFault at e
  injection e with e
  subst e
  with_reducible repeat' first
    | assumption | apply keeps_raiseBundle | (extract_lets +onlyGivenNames x; subst x) | split
    | fail_if_no_progress beta_reduce

theorem keeps_execBr (sl : Slot) (a : Reg) (s : State) {t : State} (hk : Keeps kr kl s0 s) (e : execBr sl a s =
    .next t) : Keeps kr kl s0 t := by
  unfold execBr at e
  injection e with e
  subst e
  with_reducible repeat' first
    | assumption | apply keeps_jumpSyl | (extract_lets +onlyGivenNames x; subst x) | split
    | fail_if_no_progress beta_reduce

theorem keeps_execAdjsp (sl : Slot) (imm : BitVec 16) (s : State) {t : State} (hk : Keeps kr kl s0 s) (e : execAdjsp
    sl imm s = .next t) : Keeps kr kl s0 t := by
  unfold execAdjsp at e
  injection e with e
  subst e
  with_reducible repeat' first
    | assumption | apply keeps_ctlSyl | (extract_lets +onlyGivenNames x; subst x) | split
    | fail_if_no_progress beta_reduce

theorem keeps_execCallr (sl : Slot) (a : Reg) (s : State) {t : State} (hk : Keeps kr kl s0 s) (e : execCallr sl a s
    = .next t) : Keeps kr kl s0 t := by
  unfold execCallr at e
  injection e with e
  subst e
  with_reducible repeat' first
    | assumption | apply keeps_callSyl | (extract_lets +onlyGivenNames x; subst x) | split
    | fail_if_no_progress beta_reduce

theorem keeps_execB (sl : Slot) (disp : BitVec 22) (s : State) {t : State} (hk : Keeps kr kl s0 s) (e : execB sl
    disp s = .next t) : Keeps kr kl s0 t := by
  unfold execB at e
  injection e with e
  subst e
  with_reducible repeat' first
    | assumption | apply keeps_jumpSyl | (extract_lets +onlyGivenNames x; subst x) | split
    | fail_if_no_progress beta_reduce

theorem keeps_execFar (sl : Slot) (a b' : Reg) (s : State) {t : State} (hk : Keeps kr kl s0 s) (e : execFar sl a b'
    s = .next t) : Keeps kr kl s0 t := by
  unfold execFar at e
  injection e with e
  subst e
  with_reducible repeat' first
    | assumption | apply keeps_privSyl | apply keeps_farEff | apply Keeps2.snd | refine Keeps2.eq (by assumption) ?_
    | intro _ | (extract_lets +onlyGivenNames x; subst x) | split | fail_if_no_progress beta_reduce | apply Keeps2.mk

theorem keeps_execWaitWake (core : ℕ) (s : State) {t : State} (hk : Keeps kr kl s0 s) (e : execWaitWake core s =
    .next t) : Keeps kr kl s0 t := by
  unfold execWaitWake at e
  injection e with e
  subst e
  with_reducible repeat' first
    | assumption | apply keeps_proceed | apply keeps_updCore | (extract_lets +onlyGivenNames x; subst x) | split
    | fail_if_no_progress beta_reduce

theorem keeps_execMfpcnt (sl : Slot) (d : Reg) (s : State) {t : State} (hk : Keeps kr kl s0 s) (e : execMfpcnt sl d
    s = .next t) : Keeps kr kl s0 t := by
  unfold execMfpcnt at e
  injection e with e
  subst e
  with_reducible repeat' first
    | assumption | apply keeps_ctlSyl | (extract_lets +onlyGivenNames x; subst x) | split
    | fail_if_no_progress beta_reduce

theorem keeps_execMfsp (sl : Slot) (d : Reg) (rsp : Bool) (s : State) {t : State} (hk : Keeps kr kl s0 s) (e :
    execMfsp sl d rsp s = .next t) : Keeps kr kl s0 t := by
  unfold execMfsp at e
  injection e with e
  subst e
  with_reducible repeat' first
    | assumption | apply keeps_ctlSyl | (extract_lets +onlyGivenNames x; subst x) | split
    | fail_if_no_progress beta_reduce

theorem keeps_execSvc (sl : Slot) (imm : BitVec 16) (s : State) {t : State} (hk : Keeps kr kl s0 s) (e : execSvc sl
    imm s = .next t) : Keeps kr kl s0 t := by
  unfold execSvc at e
  injection e with e
  subst e
  with_reducible repeat' first
    | assumption | apply keeps_runSyl | apply Keeps2.snd | refine Keeps2.eq (by assumption) ?_ | intro _
    | (extract_lets +onlyGivenNames x; subst x) | split | fail_if_no_progress beta_reduce | apply Keeps2.mk

theorem keeps_execMfctl (sl : Slot) (d : Reg) (num : BitVec 8) (s : State) {t : State} (hk : Keeps kr kl s0 s) (e :
    execMfctl sl d num s = .next t) : Keeps kr kl s0 t := by
  unfold execMfctl at e
  injection e with e
  subst e
  with_reducible repeat' first
    | assumption | apply keeps_privSyl | apply Keeps2.snd | refine Keeps2.eq (by assumption) ?_ | intro _
    | (extract_lets +onlyGivenNames x; subst x) | split | fail_if_no_progress beta_reduce | apply Keeps2.mk

theorem keeps_execIllegalBundle (core : ℕ) (words : List Syl) (s : State) {t : State} (hk : Keeps kr kl s0 s) (e :
    execIllegalBundle core words s = .next t) : Keeps kr kl s0 t := by
  unfold execIllegalBundle at e
  injection e with e
  subst e
  with_reducible repeat' first
    | assumption | apply keeps_raiseBundle | (extract_lets +onlyGivenNames x; subst x) | split
    | fail_if_no_progress beta_reduce

theorem keeps_execBcc (sl : Slot) (c : BitVec 4) (disp : BitVec 18) (s : State) {t : State} (hk : Keeps kr kl s0 s)
    (e : execBcc sl c disp s = .next t) : Keeps kr kl s0 t := by
  unfold execBcc at e
  injection e with e
  subst e
  with_reducible repeat' first
    | assumption | apply keeps_jumpSyl | (extract_lets +onlyGivenNames x; subst x) | split
    | fail_if_no_progress beta_reduce

theorem keeps_execRetm (sl : Slot) (s : State) {t : State} (hk : Keeps kr kl s0 s) (e : execRetm sl s = .next t) :
    Keeps kr kl s0 t := by
  unfold execRetm at e
  injection e with e
  subst e
  with_reducible repeat' first
    | assumption | apply keeps_runSyl | apply keeps_retmEff | apply Keeps2.snd | refine Keeps2.eq (by assumption) ?_
    | intro _ | (extract_lets +onlyGivenNames x; subst x) | split | fail_if_no_progress beta_reduce | apply Keeps2.mk

theorem keeps_execMffcsr (sl : Slot) (d : Reg) (s : State) {t : State} (hk : Keeps kr kl s0 s) (e : execMffcsr sl d
    s = .next t) : Keeps kr kl s0 t := by
  unfold execMffcsr at e
  injection e with e
  subst e
  with_reducible repeat' first
    | assumption | apply keeps_ctlSyl | (extract_lets +onlyGivenNames x; subst x) | split
    | fail_if_no_progress beta_reduce

theorem keeps_execBrk (sl : Slot) (imm : BitVec 16) (s : State) {t : State} (hk : Keeps kr kl s0 s) (e : execBrk sl
    imm s = .next t) : Keeps kr kl s0 t := by
  unfold execBrk at e
  injection e with e
  subst e
  with_reducible repeat' first
    | assumption | apply keeps_runSyl | apply Keeps2.snd | refine Keeps2.eq (by assumption) ?_ | intro _
    | (extract_lets +onlyGivenNames x; subst x) | split | fail_if_no_progress beta_reduce | apply Keeps2.mk

theorem keeps_execMtsp (sl : Slot) (a : Reg) (rsp : Bool) (s : State) {t : State} (hk : Keeps kr kl s0 s) (e :
    execMtsp sl a rsp s = .next t) : Keeps kr kl s0 t := by
  unfold execMtsp at e
  injection e with e
  subst e
  with_reducible repeat' first
    | assumption | apply keeps_runSyl | apply Keeps2.snd | refine Keeps2.eq (by assumption) ?_ | intro _
    | (extract_lets +onlyGivenNames x; subst x) | split | fail_if_no_progress beta_reduce | apply Keeps2.mk

theorem keeps_execRet (sl : Slot) (s : State) {t : State} (hk : Keeps kr kl s0 s) (e : execRet sl s = .next t) :
    Keeps kr kl s0 t := by
  unfold execRet at e
  injection e with e
  subst e
  with_reducible repeat' first
    | assumption | apply keeps_runSyl | apply keeps_retEff | apply Keeps2.snd | refine Keeps2.eq (by assumption) ?_
    | intro _ | (extract_lets +onlyGivenNames x; subst x) | split | fail_if_no_progress beta_reduce | apply Keeps2.mk

theorem keeps_execEret (sl : Slot) (s : State) {t : State} (hk : Keeps kr kl s0 s) (e : execEret sl s = .next t) :
    Keeps kr kl s0 t := by
  unfold execEret at e
  injection e with e
  subst e
  with_reducible repeat' first
    | assumption | apply keeps_privSyl | apply keeps_eretEff | apply Keeps2.snd | refine Keeps2.eq (by assumption) ?_
    | intro _ | (extract_lets +onlyGivenNames x; subst x) | split | fail_if_no_progress beta_reduce | apply Keeps2.mk

end Sys2Proof.Machine
end

