-- ==== Sys2Proof/Laws/KeepsCoreEvents.lean ====
section
/-! SUPPORT. What the operations of CoreEvents.lean keep: one lemma for each, in the terms of `Keeps`. -/

set_option linter.unusedTactic false
set_option linter.unreachableTactic false

namespace Sys2Proof.Machine

variable {kr kl : Bool} {s0 : State}

theorem keeps_execNearCtlDisable (q : IoReq) (core : ℕ) (v : Word) (s : State) {t : State} (hk : Keeps kr kl s0 s)
    (e : execNearCtlDisable q core v s = .next t) : Keeps kr kl s0 t := by
  unfold execNearCtlDisable at e
  injection e with e
  subst e
  with_reducible repeat' first
    | assumption | apply keeps_mainReg | apply keeps_writeNearCtl | (extract_lets +onlyGivenNames x; subst x) | split
    | fail_if_no_progress beta_reduce

theorem keeps_failWrite (s : State) (r : AgentReq) (mask : BitVec 128) (reason : ℕ) (hk : Keeps kr kl s0 s) : Keeps
    kr kl s0 (failWrite s r mask reason) := by
  unfold failWrite
  with_reducible repeat' first
    | assumption | apply keeps_endWc | apply keeps_deviceFault | apply keeps_refusedStore
    | (extract_lets +onlyGivenNames x; subst x) | split | fail_if_no_progress beta_reduce

theorem keeps_failStore (s : State) (r : AgentReq) (reason : ℕ) (hk : Keeps kr kl s0 s) : Keeps kr kl s0 (failStore
    s r reason) := by
  unfold failStore
  with_reducible repeat' first
    | assumption | apply keeps_refusedStore | apply keeps_updCore | (extract_lets +onlyGivenNames x; subst x) | split
    | fail_if_no_progress beta_reduce

theorem keeps_failLoad (s : State) (n : ℕ) (e : Exc) (hk : Keeps kr kl s0 s) : Keeps kr kl s0 (failLoad s n e) := by
  unfold failLoad
  with_reducible repeat' first
    | assumption | apply keeps_endBundle | apply keeps_updCore | (extract_lets +onlyGivenNames x; subst x) | split
    | fail_if_no_progress beta_reduce

theorem keeps_failRead (s : State) (r : AgentReq) (reason : ℕ) (hk : Keeps kr kl s0 s) : Keeps kr kl s0 (failRead s
    r reason) := by
  unfold failRead
  with_reducible repeat' first
    | assumption | apply keeps_failLoad | apply keeps_doubleException | (extract_lets +onlyGivenNames x; subst x)
    | split | fail_if_no_progress beta_reduce

theorem keeps_failReq (s : State) (r : AgentReq) (reason : ℕ) (hk : Keeps kr kl s0 s) : Keeps kr kl s0 (failReq s r
    reason) := by
  unfold failReq
  cases r.kind <;> dsimp only <;> (try split)
  all_goals first
    | exact hk
    | exact keeps_endMaint _ _ _ hk
    | exact keeps_failWrite _ _ _ _ hk
    | exact keeps_landRead _ _ _ _ hk
    | exact keeps_failStore _ _ _ hk
    | exact keeps_failRead _ _ _ hk

theorem keeps_popBuf (s : State) (n : ℕ) (hk : Keeps kr kl s0 s) : Keeps kr kl s0 (popBuf s n) := by
  unfold popBuf
  with_reducible repeat' first
    | assumption | apply keeps_updCore | (extract_lets +onlyGivenNames x; subst x) | split
    | fail_if_no_progress beta_reduce

theorem keeps_drainNormal (s : State) (n : ℕ) (e : BufEntry) (hk : Keeps kr kl s0 s) : Keeps kr kl s0 (drainNormal s
    n e) := by
  unfold drainNormal
  with_reducible repeat' first
    | assumption | apply keeps_refusedStore | apply keeps_popBuf | apply keeps_askOwn | apply keeps_blockNear
    | apply keeps_prefetchLine | apply keeps_storeOwned | apply keeps_l2Add | apply keeps_updCore
    | (extract_lets +onlyGivenNames x; subst x) | split | fail_if_no_progress beta_reduce

theorem keeps_startMaint (s : State) (n : ℕ) (e : BufEntry) (m : Maint) (hk : Keeps kr kl s0 s) : Keeps kr kl s0
    (startMaint s n e m) := by
  unfold startMaint
  with_reducible repeat' first
    | assumption | apply keeps_updCore | apply keeps_popBuf | apply keeps_sendReq
    | (extract_lets +onlyGivenNames x; subst x) | split | fail_if_no_progress beta_reduce

theorem keeps_wcStore (s : State) (n : ℕ) (e : BufEntry) (hk : Keeps kr kl s0 s) : Keeps kr kl s0 (wcStore s n e) :=
    by
  unfold wcStore
  with_reducible repeat' first
    | assumption | apply keeps_refusedStore | apply keeps_sendWc | apply keeps_updCore | refine Keeps.foldl _ ?_ ?_
    | refine Keeps2.foldl _ ?_ ?_ | intro _ | (extract_lets +onlyGivenNames x; subst x) | split
    | fail_if_no_progress beta_reduce

theorem keeps_execStoreDrain (core : ℕ) (s : State) {t : State} (hk : Keeps kr kl s0 s) (e : execStoreDrain core s =
    .next t) : Keeps kr kl s0 t := by
  unfold execStoreDrain at e
  injection e with e
  subst e
  with_reducible repeat' first
    | assumption | apply keeps_startMaint | apply keeps_drainNormal | apply keeps_wcStore | apply keeps_popBuf
    | apply keeps_devWrite | (extract_lets +onlyGivenNames x; subst x) | split | fail_if_no_progress beta_reduce

theorem keeps_walkClean (s : State) (n q gl : ℕ) (l : AgentLine) (hk : Keeps kr kl s0 s) : Keeps kr kl s0 (walkClean
    s n q gl l) := by
  unfold walkClean
  with_reducible repeat' first
    | assumption | apply keeps_setLine | apply keeps_cleanNears | apply keeps_writeZoneLine | apply keeps_sendReq
    | (extract_lets +onlyGivenNames x; subst x) | split | fail_if_no_progress beta_reduce

theorem keeps_walkLine (s : State) (n act : ℕ) (world : Bool) (key : ℕ) (l : AgentLine) (hk : Keeps kr kl s0 s) :
    Keeps kr kl s0 (walkLine s n act world key l) := by
  unfold walkLine
  with_reducible repeat' first
    | assumption | apply keeps_meetFills | apply keeps_evictLine | apply keeps_walkClean | apply keeps_setLine
    | apply keeps_dropLine | (extract_lets +onlyGivenNames x; subst x) | split | fail_if_no_progress beta_reduce

theorem keeps_walkAll (s : State) (n : ℕ) (m : Maint) (hk : Keeps kr kl s0 s) : Keeps kr kl s0 (walkAll s n m) := by
  unfold walkAll
  with_reducible repeat' first
    | assumption | apply keeps_walkLine | refine Keeps.foldl _ ?_ ?_ | refine Keeps2.foldl _ ?_ ?_ | intro _
    | (extract_lets +onlyGivenNames x; subst x) | split | fail_if_no_progress beta_reduce

theorem keeps_execCmaintComplete (core : ℕ) (s : State) {t : State} (hk : Keeps kr kl s0 s) (e : execCmaintComplete
    core s = .next t) : Keeps kr kl s0 t := by
  unfold execCmaintComplete at e
  injection e with e
  subst e
  with_reducible repeat' first
    | assumption | apply keeps_updCore | apply keeps_walkAll | (extract_lets +onlyGivenNames x; subst x) | split
    | fail_if_no_progress beta_reduce

theorem keeps_execNearCtlEnable (q : IoReq) (core : ℕ) (v : Word) (s : State) {t : State} (hk : Keeps kr kl s0 s) (e
    : execNearCtlEnable q core v s = .next t) : Keeps kr kl s0 t := by
  unfold execNearCtlEnable at e
  injection e with e
  subst e
  with_reducible repeat' first
    | assumption | apply keeps_mainReg | apply keeps_writeNearCtl | (extract_lets +onlyGivenNames x; subst x) | split
    | fail_if_no_progress beta_reduce

theorem keeps_execDoorbell (core : ℕ) (s : State) {t : State} (hk : Keeps kr kl s0 s) (e : execDoorbell core s =
    .next t) : Keeps kr kl s0 t := by
  unfold execDoorbell at e
  injection e with e
  subst e
  with_reducible repeat' first
    | assumption | apply keeps_updCore | apply keeps_updVcore | (extract_lets +onlyGivenNames x; subst x) | split
    | fail_if_no_progress beta_reduce

theorem keeps_quiesceCore (s : State) (n : ℕ) (hk : Keeps kr kl s0 s) : Keeps kr kl s0 (quiesceCore s n) := by
  unfold quiesceCore
  with_reducible repeat' first
    | assumption | apply keeps_updCore | apply keeps_leaveWc | apply keeps_endDeferral
    | (extract_lets +onlyGivenNames x; subst x) | split | fail_if_no_progress beta_reduce

theorem keeps_quiesceVcore (s : State) (z v : ℕ) (hk : Keeps kr kl s0 s) : Keeps kr kl s0 (quiesceVcore s z v) := by
  unfold quiesceVcore
  with_reducible repeat' first
    | assumption | apply keeps_updVcore | apply keeps_quiesceCore | (extract_lets +onlyGivenNames x; subst x) | split
    | fail_if_no_progress beta_reduce

theorem keeps_requestRelief (s : State) (n reason : ℕ) (hk : Keeps kr kl s0 s) : Keeps kr kl s0 (requestRelief s n
    reason) := by
  unfold requestRelief
  with_reducible repeat' first
    | assumption | apply keeps_updCore | fail_if_no_progress (refine Keeps.made ?_ rfl rfl rfl rfl rfl)
    | (extract_lets +onlyGivenNames x; subst x) | split | fail_if_no_progress beta_reduce

theorem keeps_execNearCleaningDone (core : ℕ) (s : State) {t : State} (hk : Keeps kr kl s0 s) (e :
    execNearCleaningDone core s = .next t) : Keeps kr kl s0 t := by
  unfold execNearCleaningDone at e
  injection e with e
  subst e
  with_reducible repeat' first
    | assumption | apply keeps_wakeEntry | apply keeps_updCore | (extract_lets +onlyGivenNames x; subst x) | split
    | fail_if_no_progress beta_reduce

theorem keeps_execExternalInterrupt (core : ℕ) (s : State) {t : State} (hk : Keeps kr kl s0 s) (e :
    execExternalInterrupt core s = .next t) : Keeps kr kl s0 t := by
  unfold execExternalInterrupt at e
  injection e with e
  subst e
  with_reducible repeat' first
    | assumption | apply keeps_enterException | apply keeps_updCore | (extract_lets +onlyGivenNames x; subst x) | split
    | fail_if_no_progress beta_reduce

theorem keeps_execNearCtlPf (q : IoReq) (core : ℕ) (v : Word) (s : State) {t : State} (hk : Keeps kr kl s0 s) (e :
    execNearCtlPf q core v s = .next t) : Keeps kr kl s0 t := by
  unfold execNearCtlPf at e
  injection e with e
  subst e
  with_reducible repeat' first
    | assumption | apply keeps_mainReg | apply keeps_writeNearCtl | (extract_lets +onlyGivenNames x; subst x) | split
    | fail_if_no_progress beta_reduce

theorem keeps_execErr (stamp : Word) (reason : ℕ) (s : State) {t : State} (hk : Keeps kr kl s0 s) (e : execErr stamp
    reason s = .next t) : Keeps kr kl s0 t := by
  unfold execErr at e
  injection e with e
  subst e
  with_reducible repeat' first
    | assumption | apply keeps_delReq | apply keeps_updCore | apply keeps_updCores | apply keeps_wakeEntry
    | apply keeps_failReq | refine Keeps.foldl _ ?_ ?_ | intro _ | (extract_lets +onlyGivenNames x; subst x) | split
    | fail_if_no_progress beta_reduce

theorem keeps_execWcBufferTimeout (core line : ℕ) (s : State) {t : State} (hk : Keeps kr kl s0 s) (e :
    execWcBufferTimeout core line s = .next t) : Keeps kr kl s0 t := by
  unfold execWcBufferTimeout at e
  injection e with e
  subst e
  with_reducible repeat' first
    | assumption | apply keeps_sendWc | apply keeps_updCore | (extract_lets +onlyGivenNames x; subst x) | split
    | fail_if_no_progress beta_reduce

theorem keeps_retryBundle (s : State) (n detector : ℕ) (hk : Keeps kr kl s0 s) : Keeps kr kl s0 (retryBundle s n
    detector) := by
  unfold retryBundle
  with_reducible repeat' first
    | assumption | apply keeps_updCore | apply keeps_requestRelief | (extract_lets +onlyGivenNames x; subst x) | split
    | fail_if_no_progress beta_reduce

end Sys2Proof.Machine
end

