-- ==== Sys2Proof/Laws/KeepsRelief.lean ====
section
/-! SUPPORT. What the operations of Relief.lean keep: one lemma for each, in the terms of `Keeps`. -/

set_option linter.unusedTactic false
set_option linter.unreachableTactic false

namespace Sys2Proof.Machine

variable {kr kl : Bool} {s0 : State}

theorem keeps_setVoff (s : State) (n : ℕ) (v : ℤ) (hk : Keeps kr kl s0 s) : Keeps kr kl s0 (setVoff s n v) := by
  unfold setVoff
  with_reducible repeat' first
    | assumption | apply keeps_updCore | apply keeps_logAdd
    | fail_if_no_progress (refine Keeps.made ?_ rfl rfl rfl rfl rfl) | (extract_lets +onlyGivenNames x; subst x)
    | split | fail_if_no_progress beta_reduce

theorem keeps_detectorAt (s : State) (source cls n part : ℕ) (addr : Word) (hk : Keeps kr kl s0 s) : Keeps kr kl s0
    (detectorAt s source cls n part addr) := by
  unfold detectorAt
  with_reducible repeat' first
    | assumption | apply keeps_faultAt | (extract_lets +onlyGivenNames x; subst x) | split
    | fail_if_no_progress beta_reduce

theorem keeps_checkpointBit (s : State) (n word : ℕ) (hk : Keeps kr kl s0 s) : Keeps kr kl s0 (checkpointBit s n
    word) := by
  unfold checkpointBit
  with_reducible repeat' first
    | assumption | apply keeps_detectorAt | apply keeps_updCore | apply keeps_requestRelief
    | (extract_lets +onlyGivenNames x; subst x) | split | fail_if_no_progress beta_reduce

theorem keeps_unmapRelief (s : State) (r : Relief) (hk : Keeps kr kl s0 s) : Keeps kr kl s0 (unmapRelief s r) := by
  unfold unmapRelief
  with_reducible repeat' first
    | assumption | apply keeps_updVcore | apply keeps_spareGone | (extract_lets +onlyGivenNames x; subst x) | split
    | fail_if_no_progress beta_reduce

theorem keeps_setRelief (s : State) (k : ℕ) (r : Relief) (hk : Keeps kr kl s0 s) : Keeps kr kl s0 (setRelief s k r)
    := by
  unfold setRelief
  with_reducible repeat' first
    | assumption | fail_if_no_progress (refine Keeps.made ?_ rfl rfl rfl rfl rfl)
    | (extract_lets +onlyGivenNames x; subst x) | split | fail_if_no_progress beta_reduce

theorem keeps_startRelief (s : State) (n reason t0 : ℕ) (m : Option Mbx) (hk : Keeps kr kl s0 s) : Keeps kr kl s0
    (startRelief s n reason t0 m) := by
  unfold startRelief
  with_reducible repeat' first
    | assumption | apply keeps_updCore | apply keeps_leaveWc | apply keeps_endDeferral | apply keeps_updVcore
    | apply keeps_putImage | apply keeps_setRelief | fail_if_no_progress (refine Keeps.made ?_ rfl rfl rfl rfl rfl)
    | (extract_lets +onlyGivenNames x; subst x) | split | fail_if_no_progress beta_reduce

theorem keeps_dropRequest (s : State) (n reason : ℕ) (hk : Keeps kr kl s0 s) : Keeps kr kl s0 (dropRequest s n
    reason) := by
  unfold dropRequest
  with_reducible repeat' first
    | assumption | fail_if_no_progress (refine Keeps.made ?_ rfl rfl rfl rfl rfl)
    | (extract_lets +onlyGivenNames x; subst x) | split | fail_if_no_progress beta_reduce

theorem keeps_marginExhausted (s : State) (n : ℕ) (hk : Keeps kr kl s0 s) : Keeps kr kl s0 (marginExhausted s n) :=
    by
  unfold marginExhausted
  with_reducible repeat' first
    | assumption | apply keeps_faultAt | apply keeps_setVoff | apply keeps_logAdd
    | (extract_lets +onlyGivenNames x; subst x) | split | fail_if_no_progress beta_reduce

theorem keeps_execReliefStart (core reason : ℕ) (s : State) {t : State} (hk : Keeps kr kl s0 s) (e : execReliefStart
    core reason s = .next t) : Keeps kr kl s0 t := by
  unfold execReliefStart at e
  injection e with e
  subst e
  with_reducible repeat' first
    | assumption | apply keeps_startRelief | apply keeps_dropRequest | apply keeps_loseCore
    | apply keeps_marginExhausted | apply keeps_updCore | exact repKeeps_rep
    | (extract_lets +onlyGivenNames x; subst x) | split | fail_if_no_progress beta_reduce

theorem keeps_orderLane (s : State) (p lane : ℕ) (hk : Keeps kr kl s0 s) : Keeps kr kl s0 (orderLane s p lane) := by
  unfold orderLane
  with_reducible repeat' first
    | assumption | apply keeps_startLane | fail_if_no_progress (refine Keeps.made ?_ rfl rfl rfl rfl rfl)
    | (extract_lets +onlyGivenNames x; subst x) | split | fail_if_no_progress beta_reduce

theorem keeps_skipWatch (s : State) (idx : ℕ) (hk : Keeps kr kl s0 s) : Keeps kr kl s0 (skipWatch s idx) := by
  unfold skipWatch
  with_reducible repeat' first
    | assumption | apply keeps_logAdd | fail_if_no_progress (refine Keeps.made ?_ rfl rfl rfl rfl rfl)
    | (extract_lets +onlyGivenNames x; subst x) | split | fail_if_no_progress beta_reduce

theorem keeps_spareUnusable (s : State) (n : ℕ) (hk : Keeps kr kl s0 s) : Keeps kr kl s0 (spareUnusable s n) := by
  unfold spareUnusable
  with_reducible repeat' first
    | assumption | apply keeps_updCore | apply keeps_logAdd
    | fail_if_no_progress (refine Keeps.made ?_ rfl rfl rfl rfl rfl) | (extract_lets +onlyGivenNames x; subst x)
    | split | fail_if_no_progress beta_reduce

theorem keeps_planVoff (s : State) (n : ℕ) (req : ℤ) (hk : Keeps kr kl s0 s) : Keeps kr kl s0 (planVoff s n req) :=
    by
  unfold planVoff
  with_reducible repeat' first
    | assumption | apply keeps_setVoff | (extract_lets +onlyGivenNames x; subst x) | split
    | fail_if_no_progress beta_reduce

theorem keeps_planCore (s : State) (x : CoreReading) (hk : Keeps kr kl s0 s) : Keeps2 kr kl s0 (planCore s x) := by
  unfold planCore
  with_reducible repeat' first
    | assumption | apply keeps_updCore | apply keeps_spareUnusable | apply keeps_planVoff | apply keeps_requestRelief
    | apply keeps_marginExhausted | apply Keeps2.snd | refine Keeps2.eq (by assumption) ?_
    | (extract_lets +onlyGivenNames x; subst x) | split | fail_if_no_progress beta_reduce | apply Keeps2.mk

theorem keeps_actLane (s : State) (p lane u : ℕ) (hk : Keeps kr kl s0 s) : Keeps kr kl s0 (actLane s p lane u) := by
  unfold actLane
  with_reducible repeat' first
    | assumption | apply keeps_orderLane | fail_if_no_progress (refine Keeps.made ?_ rfl rfl rfl rfl rfl)
    | (extract_lets +onlyGivenNames x; subst x) | split | fail_if_no_progress beta_reduce

theorem keeps_planLane (s : State) (x : LaneReading) (hk : Keeps kr kl s0 s) : Keeps2 kr kl s0 (planLane s x) := by
  unfold planLane
  with_reducible repeat' first
    | assumption | apply keeps_actLane | apply keeps_logAdd | apply Keeps2.snd | refine Keeps2.eq (by assumption) ?_
    | fail_if_no_progress (refine Keeps.made ?_ rfl rfl rfl rfl rfl) | (extract_lets +onlyGivenNames x; subst x)
    | split | fail_if_no_progress beta_reduce | apply Keeps2.mk

theorem keeps_planMemory (s : State) (c : ℕ) (hk : Keeps kr kl s0 s) : Keeps2 kr kl s0 (planMemory s c) := by
  unfold planMemory
  with_reducible repeat' first
    | assumption | apply keeps_logAdd | apply Keeps2.snd | refine Keeps2.eq (by assumption) ?_
    | fail_if_no_progress (refine Keeps.made ?_ rfl rfl rfl rfl rfl) | (extract_lets +onlyGivenNames x; subst x)
    | split | fail_if_no_progress beta_reduce | apply Keeps2.mk

theorem keeps_planAll (s : State) (cores : List CoreReading) (lanes : List LaneReading) (hk : Keeps kr kl s0 s) :
    Keeps2 kr kl s0 (planAll s cores lanes) := by
  unfold planAll
  with_reducible repeat' first
    | assumption | apply keeps_planCore | apply keeps_planLane | apply keeps_planMemory | apply Keeps2.snd
    | refine Keeps.foldl _ ?_ ?_ | refine Keeps2.foldl _ ?_ ?_ | refine Keeps2.eq (by assumption) ?_ | intro _
    | (extract_lets +onlyGivenNames x; subst x) | split | fail_if_no_progress beta_reduce | apply Keeps2.mk

theorem keeps_c0Summary (s : State) (hk : Keeps kr kl s0 s) : Keeps kr kl s0 (c0Summary s) := by
  unfold c0Summary
  with_reducible repeat' first
    | assumption | apply keeps_logAdd | refine Keeps.foldl _ ?_ ?_ | refine Keeps2.foldl _ ?_ ?_
    | fail_if_no_progress (refine Keeps.made ?_ rfl rfl rfl rfl rfl) | intro _
    | (extract_lets +onlyGivenNames x; subst x) | split | fail_if_no_progress beta_reduce

theorem keeps_execSextantWatch (r : Readings) (s : State) {t : State} (hk : Keeps kr kl s0 s) (e : execSextantWatch
    r s = .next t) : Keeps kr kl s0 t := by
  unfold execSextantWatch at e
  injection e with e
  subst e
  with_reducible repeat' first
    | assumption | apply keeps_skipWatch | apply keeps_planAll | apply keeps_c0Summary | apply keeps_logAdd
    | apply Keeps2.snd | refine Keeps2.eq (by assumption) ?_
    | fail_if_no_progress (refine Keeps.made ?_ rfl rfl rfl rfl rfl) | (extract_lets +onlyGivenNames x; subst x)
    | split | fail_if_no_progress beta_reduce | apply Keeps2.mk

theorem keeps_execSparePowered (cluster : ℕ) (s : State) {t : State} (hk : Keeps kr kl s0 s) (e : execSparePowered
    cluster s = .next t) : Keeps kr kl s0 t := by
  unfold execSparePowered at e
  injection e with e
  subst e
  with_reducible repeat' first
    | assumption | apply keeps_updCore | apply keeps_setRelief | (extract_lets +onlyGivenNames x; subst x) | split
    | fail_if_no_progress beta_reduce

theorem keeps_nearTwoBits (s : State) (n gl : ℕ) (dirty : Bool) (hk : Keeps kr kl s0 s) : Keeps kr kl s0
    (nearTwoBits s n gl dirty) := by
  unfold nearTwoBits
  with_reducible repeat' first
    | assumption | apply keeps_setLine | apply keeps_detectorAt | apply keeps_updCore
    | (extract_lets +onlyGivenNames x; subst x) | split | fail_if_no_progress beta_reduce

theorem keeps_reliefOutcome (s : State) (m : Option Mbx) (hk : Keeps kr kl s0 s) : Keeps kr kl s0 (reliefOutcome s
    m) := by
  unfold reliefOutcome
  with_reducible repeat' first
    | assumption | apply keeps_setOutcomeOpt | (extract_lets +onlyGivenNames x; subst x) | split
    | fail_if_no_progress beta_reduce

theorem keeps_loseRelief (s : State) (k : ℕ) (hk : Keeps kr kl s0 s) : Keeps kr kl s0 (loseRelief s k) := by
  unfold loseRelief
  with_reducible repeat' first
    | assumption | apply keeps_unmapRelief | apply keeps_updCore | apply keeps_loseCore | apply keeps_reliefOutcome
    | apply keeps_setRelief | exact repKeeps_rep | (extract_lets +onlyGivenNames x; subst x) | split
    | fail_if_no_progress beta_reduce

theorem keeps_idleCheckpoint (s : State) (n : ℕ) (hk : Keeps kr kl s0 s) : Keeps kr kl s0 (idleCheckpoint s n) := by
  unfold idleCheckpoint
  with_reducible repeat' first
    | assumption | apply keeps_loseCore | apply keeps_reliefOutcome | apply keeps_setRelief | apply keeps_spareUnusable
    | apply keeps_loseRelief | exact repKeeps_rep | (extract_lets +onlyGivenNames x; subst x) | split
    | fail_if_no_progress beta_reduce

theorem keeps_execBundleRetry (core : ℕ) (d : Detection) (s : State) {t : State} (hk : Keeps kr kl s0 s) (e :
    execBundleRetry core d s = .next t) : Keeps kr kl s0 t := by
  unfold execBundleRetry at e
  injection e with e
  subst e
  with_reducible repeat' first
    | assumption | apply keeps_idleCheckpoint | apply keeps_retryBundle | apply keeps_detectorAt | apply keeps_updCore
    | apply keeps_loseCore | apply keeps_checkpointBit | apply keeps_nearTwoBits | exact repKeeps_rep
    | (extract_lets +onlyGivenNames x; subst x) | split | fail_if_no_progress beta_reduce

theorem keeps_execProgressMonitorExpiry (core : ℕ) (s : State) {t : State} (hk : Keeps kr kl s0 s) (e :
    execProgressMonitorExpiry core s = .next t) : Keeps kr kl s0 t := by
  unfold execProgressMonitorExpiry at e
  injection e with e
  subst e
  with_reducible repeat' first
    | assumption | apply keeps_retryBundle | (extract_lets +onlyGivenNames x; subst x) | split
    | fail_if_no_progress beta_reduce

theorem keeps_execReliefImageArrived (cluster : ℕ) (crcOk : Bool) (s : State) {t : State} (hk : Keeps kr kl s0 s) (e
    : execReliefImageArrived cluster crcOk s = .next t) : Keeps kr kl s0 t := by
  unfold execReliefImageArrived at e
  injection e with e
  subst e
  split
  · exact hk
  · split
    · split
      · exact keeps_setRelief _ _ _ hk
      · exact keeps_loseRelief _ _ hk
    · split
      · exact keeps_loseRelief _ _ hk
      · extract_lets a1 a2 a3
        have k1 : Keeps kr kl s0 a1 := by
          unfold a1; split
          · exact keeps_updVcore _ _ _ _ hk
          · exact hk
        have k2 : Keeps kr kl s0 a2 := keeps_updCore _ _ _ k1
        clear_value a2
        refine keeps_setRelief _ _ _ ⟨k2.pending, k2.part, k2.mem, k2.version, k2.custKey, fun x n y => ?_, k2.lock⟩
        exact Table.flag_set_mono _ _ (k2.retired x n y)

theorem keeps_stampImage (s : State) (n : ℕ) (hk : Keeps kr kl s0 s) : Keeps kr kl s0 (stampImage s n) := by
  unfold stampImage
  with_reducible repeat' first
    | assumption | apply keeps_putImage | (extract_lets +onlyGivenNames x; subst x) | split
    | fail_if_no_progress beta_reduce

theorem keeps_execReliefFlushDone (core : ℕ) (s : State) {t : State} (hk : Keeps kr kl s0 s) (e :
    execReliefFlushDone core s = .next t) : Keeps kr kl s0 t := by
  unfold execReliefFlushDone at e
  injection e with e
  subst e
  with_reducible repeat' first
    | assumption | apply keeps_updCore | apply keeps_faultAt | apply keeps_stampImage | apply keeps_setRelief
    | (extract_lets +onlyGivenNames x; subst x) | split | fail_if_no_progress beta_reduce

theorem keeps_execReliefResume (cluster : ℕ) (s : State) {t : State} (hk : Keeps kr kl s0 s) (e : execReliefResume
    cluster s = .next t) : Keeps kr kl s0 t := by
  unfold execReliefResume at e
  injection e with e
  subst e
  with_reducible repeat' first
    | assumption | apply keeps_updVcore | apply keeps_updCore | apply keeps_quiesceVcore | apply keeps_setRelief
    | apply keeps_logAdd | apply keeps_reliefOutcome | fail_if_no_progress (refine Keeps.made ?_ rfl rfl rfl rfl rfl)
    | (extract_lets +onlyGivenNames x; subst x) | split | fail_if_no_progress beta_reduce

end Sys2Proof.Machine
end

