-- ==== Sys2Proof/Laws/KeepsZoneOps.lean ====
section
/-! SUPPORT. What the operations of ZoneOps.lean keep: one lemma for each, in the terms of `Keeps`. -/

set_option linter.unusedTactic false
set_option linter.unreachableTactic false

namespace Sys2Proof.Machine

variable {kr kl : Bool} {s0 : State}

theorem keeps_holdZone (s : State) (z : ℕ) (hk : Keeps kr kl s0 s) : Keeps kr kl s0 (holdZone s z) := by
  unfold holdZone
  with_reducible repeat' first
    | assumption | apply keeps_afterStop | apply keeps_updChn | refine Keeps.foldl _ ?_ ?_
    | refine Keeps2.foldl _ ?_ ?_ | intro _ | (extract_lets +onlyGivenNames x; subst x) | split
    | fail_if_no_progress beta_reduce

theorem keeps_flushZone (s : State) (z : ℕ) (hk : Keeps kr kl s0 s) : Keeps kr kl s0 (flushZone s z) := by
  unfold flushZone
  with_reducible repeat' first
    | assumption | apply keeps_evictLine | apply keeps_sendErr | apply keeps_endJob | apply keeps_pushFrame
    | apply keeps_setPage | apply keeps_resendPage | refine Keeps.foldl _ ?_ ?_ | refine Keeps2.foldl _ ?_ ?_
    | fail_if_no_progress (refine Keeps.made ?_ rfl rfl rfl rfl rfl) | intro _
    | (extract_lets +onlyGivenNames x; subst x) | split | fail_if_no_progress beta_reduce

theorem keeps_floorZone (s : State) (z : ℕ) (hk : Keeps kr kl s0 s) : Keeps kr kl s0 (floorZone s z) := by
  unfold floorZone
  with_reducible repeat' first
    | assumption | apply keeps_updZone | apply keeps_updVcore | refine Keeps.foldl _ ?_ ?_
    | refine Keeps2.foldl _ ?_ ?_ | fail_if_no_progress (refine Keeps.made ?_ rfl rfl rfl rfl rfl) | intro _
    | (extract_lets +onlyGivenNames x; subst x) | split | fail_if_no_progress beta_reduce

theorem keeps_untagZone (s : State) (z : ℕ) (hk : Keeps kr kl s0 s) : Keeps kr kl s0 (untagZone s z) := by
  unfold untagZone
  with_reducible repeat' first
    | assumption | fail_if_no_progress (refine Keeps.made ?_ rfl rfl rfl rfl rfl)
    | (extract_lets +onlyGivenNames x; subst x) | split | fail_if_no_progress beta_reduce

theorem keeps_startResetStep (s : State) (z step : ℕ) (hk : Keeps kr kl s0 s) : Keeps kr kl s0 (startResetStep s z
    step) := by
  unfold startResetStep
  with_reducible repeat' first
    | assumption | apply keeps_updZone | apply keeps_holdZone | apply keeps_resetOps | apply keeps_quiesceVcore
    | apply keeps_flushZone | apply keeps_commitScrub | apply keeps_floorZone | apply keeps_untagZone
    | refine Keeps.foldl _ ?_ ?_ | refine Keeps2.foldl _ ?_ ?_ | intro _ | (extract_lets +onlyGivenNames x; subst x)
    | split | fail_if_no_progress beta_reduce

theorem keeps_endResetHere (s : State) (z : ℕ) (hk : Keeps kr kl s0 s) : Keeps kr kl s0 (endResetHere s z) := by
  unfold endResetHere
  with_reducible repeat' first
    | assumption | apply keeps_updZone | (extract_lets +onlyGivenNames x; subst x) | split
    | fail_if_no_progress beta_reduce

theorem keeps_finishReset (s : State) (z : ℕ) (r : ZoneRst) (hk : Keeps kr kl s0 s) : Keeps kr kl s0 (finishReset s
    z r) := by
  unfold finishReset
  with_reducible repeat' first
    | assumption | apply keeps_endResetHere | apply keeps_postEvent | apply keeps_setOutcome | apply keeps_logAdd
    | refine Keeps.foldl _ ?_ ?_ | exact repKeeps_rep | fail_if_no_progress (refine Keeps.made ?_ rfl rfl rfl rfl rfl)
    | intro _ | (extract_lets +onlyGivenNames x; subst x) | split | fail_if_no_progress beta_reduce

theorem keeps_tellStep (s : State) (z step : ℕ) (stamp : Word) (hk : Keeps kr kl s0 s) : Keeps kr kl s0 (tellStep s
    z step stamp) := by
  unfold tellStep
  with_reducible repeat' first
    | assumption | apply keeps_send | refine Keeps.foldl _ ?_ ?_ | intro _ | (extract_lets +onlyGivenNames x; subst x)
    | split | fail_if_no_progress beta_reduce

theorem keeps_joinStep (s : State) (z step : ℕ) (stamp : Word) (hk : Keeps kr kl s0 s) : Keeps kr kl s0 (joinStep s
    z step stamp) := by
  unfold joinStep
  with_reducible repeat' first
    | assumption | apply keeps_startResetStep | apply keeps_updZone | (extract_lets +onlyGivenNames x; subst x) | split
    | fail_if_no_progress beta_reduce

end Sys2Proof.Machine
end

