-- ==== Sys2Proof/Laws/KeepsFaultLog.lean ====
section
/-! SUPPORT. What the operations of FaultLog.lean keep: one lemma for each, in the terms of `Keeps`. -/

set_option linter.unusedTactic false
set_option linter.unreachableTactic false

namespace Sys2Proof.Machine

variable {kr kl : Bool} {s0 : State}

theorem keeps_killCmd (s : State) (m : Mbx) (e : ℕ) (hk : Keeps kr kl s0 s) : Keeps kr kl s0 (killCmd s m e) := by
  unfold killCmd
  with_reducible repeat' first
    | assumption | apply keeps_completeCmd | apply keeps_updBox | intro _ | (extract_lets +onlyGivenNames x; subst x)
    | split | fail_if_no_progress beta_reduce

theorem keeps_forgetMbxs (s : State) (hk : Keeps kr kl s0 s) : Keeps kr kl s0 (forgetMbxs s) := by
  unfold forgetMbxs
  with_reducible repeat' first
    | assumption | apply keeps_endJob | apply keeps_unTransit | refine Keeps.foldl _ ?_ ?_
    | refine Keeps2.foldl _ ?_ ?_ | fail_if_no_progress (refine Keeps.made ?_ rfl rfl rfl rfl rfl) | intro _
    | (extract_lets +onlyGivenNames x; subst x) | split | fail_if_no_progress beta_reduce

theorem keeps_restartSp (s : State) (detail : ℕ) (hk : Keeps kr kl s0 s) : Keeps kr kl s0 (restartSp s detail) := by
  unfold restartSp
  with_reducible repeat' first
    | assumption | apply keeps_faultAt | apply keeps_killCmd | apply keeps_forgetMbxs | refine Keeps.foldl _ ?_ ?_
    | refine Keeps2.foldl _ ?_ ?_ | fail_if_no_progress (refine Keeps.made ?_ rfl rfl rfl rfl rfl) | intro _
    | (extract_lets +onlyGivenNames x; subst x) | split | fail_if_no_progress beta_reduce

theorem keeps_raiseRec (s : State) (x : FRec) (want : ℕ) (hk : Keeps kr kl s0 s) : Keeps kr kl s0 (raiseRec s x
    want) := by
  unfold raiseRec
  with_reducible repeat' first
    | assumption | apply keeps_updRec | apply keeps_react | exact repKeeps_rep
    | (extract_lets +onlyGivenNames x; subst x) | split | fail_if_no_progress beta_reduce

theorem keeps_execIsolationSalvageTimeout (quad : ℕ) (s : State) {t : State} (hk : Keeps kr kl s0 s) (e :
    execIsolationSalvageTimeout quad s = .next t) : Keeps kr kl s0 t := by
  unfold execIsolationSalvageTimeout at e
  injection e with e
  subst e
  with_reducible repeat' first
    | assumption | apply keeps_raiseRec | (extract_lets +onlyGivenNames x; subst x) | split
    | fail_if_no_progress beta_reduce

theorem keeps_execIsolationSalvageDone (quad : ℕ) (s : State) {t : State} (hk : Keeps kr kl s0 s) (e :
    execIsolationSalvageDone quad s = .next t) : Keeps kr kl s0 t := by
  unfold execIsolationSalvageDone at e
  injection e with e
  subst e
  with_reducible repeat' first
    | assumption | apply keeps_evictLine | apply keeps_setOutcomeOpt | apply keeps_domainIsOff
    | refine Keeps.foldl _ ?_ ?_ | refine Keeps2.foldl _ ?_ ?_ | intro _ | (extract_lets +onlyGivenNames x; subst x)
    | split | fail_if_no_progress beta_reduce

theorem keeps_execQuietPeriodExpiry (cls : ℕ) (s : State) {t : State} (hk : Keeps kr kl s0 s) (e :
    execQuietPeriodExpiry cls s = .next t) : Keeps kr kl s0 t := by
  unfold execQuietPeriodExpiry at e
  injection e with e
  subst e
  with_reducible repeat' first
    | assumption | apply keeps_ackRec | apply keeps_logAdd | refine Keeps.foldl _ ?_ ?_
    | fail_if_no_progress (refine Keeps.made ?_ rfl rfl rfl rfl rfl) | intro _
    | (extract_lets +onlyGivenNames x; subst x) | split | fail_if_no_progress beta_reduce

theorem keeps_execFltCtlRelease (_q : IoReq) (v : Word) (s : State) {t : State} (hk : Keeps kr kl s0 s) (e :
    execFltCtlRelease _q v s = .next t) : Keeps kr kl s0 t := by
  unfold execFltCtlRelease at e
  injection e with e
  subst e
  with_reducible repeat' first
    | assumption | apply keeps_writeFltCtl | (extract_lets +onlyGivenNames x; subst x) | split
    | fail_if_no_progress beta_reduce

theorem keeps_execEscalationTimerExpiry (stamp : Word) (s : State) {t : State} (hk : Keeps kr kl s0 s) (e :
    execEscalationTimerExpiry stamp s = .next t) : Keeps kr kl s0 t := by
  unfold execEscalationTimerExpiry at e
  injection e with e
  subst e
  with_reducible repeat' first
    | assumption | apply keeps_updRec | apply keeps_raiseRec | (extract_lets +onlyGivenNames x; subst x) | split
    | fail_if_no_progress beta_reduce

theorem keeps_execSpWatchdogExpiry (s : State) {t : State} (hk : Keeps kr kl s0 s) (e : execSpWatchdogExpiry s =
    .next t) : Keeps kr kl s0 t := by
  unfold execSpWatchdogExpiry at e
  injection e with e
  subst e
  with_reducible repeat' first
    | assumption | apply keeps_restartSp | (extract_lets +onlyGivenNames x; subst x) | split
    | fail_if_no_progress beta_reduce

theorem keeps_openSegment (s : State) (hk : Keeps kr kl s0 s) : Keeps kr kl s0 (openSegment s) := by
  unfold openSegment
  with_reducible repeat' first
    | assumption | refine Keeps.foldl _ ?_ ?_ | fail_if_no_progress (refine Keeps.made ?_ rfl rfl rfl rfl rfl)
    | intro _ | (extract_lets +onlyGivenNames x; subst x) | split | fail_if_no_progress beta_reduce

theorem keeps_openLog (s : State) (hk : Keeps kr kl s0 s) : Keeps kr kl s0 (openLog s) := by
  unfold openLog
  with_reducible repeat' first
    | assumption | apply keeps_openSegment | (extract_lets +onlyGivenNames x; subst x) | split
    | fail_if_no_progress beta_reduce

theorem keeps_execFltAckWrite (_q : IoReq) (v : Word) (s : State) {t : State} (hk : Keeps kr kl s0 s) (e :
    execFltAckWrite _q v s = .next t) : Keeps kr kl s0 t := by
  unfold execFltAckWrite at e
  injection e with e
  subst e
  with_reducible repeat' first
    | assumption | apply keeps_writeFltAck | (extract_lets +onlyGivenNames x; subst x) | split
    | fail_if_no_progress beta_reduce

theorem keeps_execFaultReport (r : Report) (s : State) {t : State} (hk : Keeps kr kl s0 s) (e : execFaultReport r s
    = .next t) : Keeps kr kl s0 t := by
  unfold execFaultReport at e
  injection e with e
  subst e
  with_reducible repeat' first
    | assumption | apply keeps_fault | (extract_lets +onlyGivenNames x; subst x) | split
    | fail_if_no_progress beta_reduce

theorem keeps_execSpLockstepMismatch (s : State) {t : State} (hk : Keeps kr kl s0 s) (e : execSpLockstepMismatch s =
    .next t) : Keeps kr kl s0 t := by
  unfold execSpLockstepMismatch at e
  injection e with e
  subst e
  with_reducible repeat' first
    | assumption | apply keeps_restartSp | (extract_lets +onlyGivenNames x; subst x) | split
    | fail_if_no_progress beta_reduce

theorem keeps_execErrLMinimumEnd (s : State) {t : State} (hk : Keeps kr kl s0 s) (e : execErrLMinimumEnd s = .next
    t) : Keeps kr kl s0 t := by
  unfold execErrLMinimumEnd at e
  injection e with e
  subst e
  with_reducible repeat' first
    | assumption | fail_if_no_progress (refine Keeps.made ?_ rfl rfl rfl rfl rfl)
    | (extract_lets +onlyGivenNames x; subst x) | split | fail_if_no_progress beta_reduce

theorem keeps_execSpRestartDone (s : State) {t : State} (hk : Keeps kr kl s0 s) (e : execSpRestartDone s = .next t)
    : Keeps kr kl s0 t := by
  unfold execSpRestartDone at e
  injection e with e
  subst e
  with_reducible repeat' first
    | assumption | apply keeps_requestReset | apply keeps_serveRing | apply Keeps2.snd | refine Keeps.foldl _ ?_ ?_
    | refine Keeps2.foldl _ ?_ ?_ | refine Keeps2.eq (by assumption) ?_
    | fail_if_no_progress (refine Keeps.made ?_ rfl rfl rfl rfl rfl) | intro _
    | (extract_lets +onlyGivenNames x; subst x) | split | fail_if_no_progress beta_reduce | apply Keeps2.mk

theorem keeps_storeEntry (s : State) (e : LogEntry) (hk : Keeps kr kl s0 s) : Keeps kr kl s0 (storeEntry s e) := by
  unfold storeEntry
  with_reducible repeat' first
    | assumption | apply keeps_openLog | apply keeps_openSegment
    | fail_if_no_progress (refine Keeps.made ?_ rfl rfl rfl rfl rfl) | (extract_lets +onlyGivenNames x; subst x)
    | split | fail_if_no_progress beta_reduce

theorem keeps_execLogEntryWritten (s : State) {t : State} (hk : Keeps kr kl s0 s) (e : execLogEntryWritten s = .next
    t) : Keeps kr kl s0 t := by
  unfold execLogEntryWritten at e
  injection e with e
  subst e
  with_reducible repeat' first
    | assumption | apply keeps_storeEntry | apply keeps_logPump
    | fail_if_no_progress (refine Keeps.made ?_ rfl rfl rfl rfl rfl) | (extract_lets +onlyGivenNames x; subst x)
    | split | fail_if_no_progress beta_reduce

end Sys2Proof.Machine
end

