-- ==== Sys2Proof/Laws/KeepsVcoreOps.lean ====
section
/-! SUPPORT. What the operations of VcoreOps.lean keep: one lemma for each, in the terms of `Keeps`. -/

set_option linter.unusedTactic false
set_option linter.unreachableTactic false

namespace Sys2Proof.Machine

variable {kr kl : Bool} {s0 : State}

theorem keeps_startSegs (n : ℕ) (a1 : List (ℕ × ℕ)) (a2 : State) (hk : Keeps kr kl s0 a2) : Keeps2 kr kl s0
    (startSegs n a1 a2) := by
  induction a1 generalizing a2 with
  | nil =>
    unfold startSegs
    with_reducible repeat' first
      | assumption | apply keeps_loadDesc | apply keeps_updCore | apply Keeps2.snd
      | refine Keeps2.eq (by assumption) ?_ | (extract_lets +onlyGivenNames x; subst x) | split
      | fail_if_no_progress beta_reduce | apply Keeps2.mk
  | cons x1 xs1 ih =>
    unfold startSegs
    with_reducible repeat' first
      | assumption | apply ih | apply keeps_loadDesc | apply keeps_updCore | apply Keeps2.snd
      | refine Keeps2.eq (by assumption) ?_ | (extract_lets +onlyGivenNames x; subst x) | split
      | fail_if_no_progress beta_reduce | apply Keeps2.mk

theorem keeps_startVcore (s : State) (z v : ℕ) (addr : Word) (hk : Keeps kr kl s0 s) : Keeps2 kr kl s0 (startVcore s
    z v addr) := by
  unfold startVcore
  with_reducible repeat' first
    | assumption | apply keeps_engWords | apply keeps_updCore | apply keeps_startSegs | apply keeps_updVcore
    | apply Keeps2.snd | refine Keeps2.eq (by assumption) ?_ | exact repKeeps_rep
    | (extract_lets +onlyGivenNames x; subst x) | split | fail_if_no_progress beta_reduce | apply Keeps2.mk

theorem keeps_startedVcore (s : State) (z v : ℕ) (addr : Word) (hk : Keeps kr kl s0 s) : Keeps kr kl s0
    (startedVcore s z v addr) := by
  unfold startedVcore
  with_reducible repeat' first
    | assumption | apply keeps_startVcore | apply Keeps2.snd | refine Keeps2.eq (by assumption) ?_
    | (extract_lets +onlyGivenNames x; subst x) | split | fail_if_no_progress beta_reduce | apply Keeps2.mk

end Sys2Proof.Machine
end

