-- ==== Sys2Proof/Laws/KeepsPower.lean ====
section
/-! SUPPORT. What the operations of Power.lean keep: one lemma for each, in the terms of `Keeps`. -/

set_option linter.unusedTactic false
set_option linter.unreachableTactic false

namespace Sys2Proof.Machine

variable {kr kl : Bool} {s0 : State}

theorem keeps_mainOff (s : State) (hk : Keeps kr false s0 s) : Keeps kr false s0 (mainOff s) := by
  unfold mainOff
  refine ⟨hk.pending, hk.part, fun _ => ⟨rfl, fun fl e => ?_⟩, hk.version, hk.custKey, hk.retired, fun e => nomatch e⟩
  cases e

theorem keeps_openWord (s : State) (hk : Keeps kr kl s0 s) : Keeps2 kr kl s0 (openWord s) := by
  unfold openWord
  with_reducible repeat' first
    | assumption | apply keeps_nextFree | apply Keeps2.snd | refine Keeps2.eq (by assumption) ?_
    | (extract_lets +onlyGivenNames x; subst x) | split | fail_if_no_progress beta_reduce | apply Keeps2.mk

theorem keeps_causeEntry (s : State) (cause : ℕ) (hk : Keeps kr kl s0 s) : Keeps kr kl s0 (causeEntry s cause) := by
  unfold causeEntry
  with_reducible repeat' first
    | assumption | apply keeps_openWord | apply keeps_startEntry | apply Keeps2.snd
    | refine Keeps2.eq (by assumption) ?_ | (extract_lets +onlyGivenNames x; subst x) | split
    | fail_if_no_progress beta_reduce | apply Keeps2.mk

theorem keeps_beginStartUp (s : State) (straps : Straps) (cause : ℕ) (hk : Keeps kr kl s0 s) : Keeps kr kl s0
    (beginStartUp s straps cause) := by
  unfold beginStartUp
  with_reducible repeat' first
    | assumption | apply keeps_causeEntry | apply keeps_faultAt
    | fail_if_no_progress (refine Keeps.made ?_ rfl rfl rfl rfl rfl) | (extract_lets +onlyGivenNames x; subst x)
    | split | fail_if_no_progress beta_reduce

theorem keeps_moduleReset (s : State) (straps : Straps) (cause : ℕ) (hk : Keeps kr false s0 s) : Keeps kr false s0
    (moduleReset s straps cause) := by
  unfold moduleReset
  with_reducible repeat' first
    | assumption | apply keeps_forgetMbxs | apply keeps_killCmd | apply keeps_mainOff | apply keeps_beginStartUp
    | refine Keeps.foldl _ ?_ ?_ | refine Keeps2.foldl _ ?_ ?_
    | fail_if_no_progress (refine Keeps.made ?_ rfl rfl rfl rfl rfl) | intro _
    | (extract_lets +onlyGivenNames x; subst x) | split | fail_if_no_progress beta_reduce

theorem keeps_execResetLPulse (lowNs : ℕ) (straps : Straps) (s : State) {t : State} (hk : Keeps kr false s0 s) (e :
    execResetLPulse lowNs straps s = .next t) : Keeps kr false s0 t := by
  unfold execResetLPulse at e
  split at e
  · injection e with e
    subst e
    exact hk
  · split at e
    · cases e
    · injection e with e
      subst e
      exact keeps_moduleReset _ _ _ hk

theorem keeps_elect (s : State) (eligible : List ℕ) (hk : Keeps kr kl s0 s) : Keeps kr kl s0 (elect s eligible) :=
    by
  unfold elect
  with_reducible repeat' first
    | assumption | apply keeps_failStep | apply keeps_endStep
    | fail_if_no_progress (refine Keeps.made ?_ rfl rfl rfl rfl rfl) | (extract_lets +onlyGivenNames x; subst x)
    | split | fail_if_no_progress beta_reduce

theorem keeps_releaseCore (s : State) (n : ℕ) (hk : Keeps kr kl s0 s) : Keeps kr kl s0 (releaseCore s n) := by
  unfold releaseCore
  with_reducible repeat' first
    | assumption | apply keeps_updCore | (extract_lets +onlyGivenNames x; subst x) | split
    | fail_if_no_progress beta_reduce

theorem keeps_execStandbyPowerOn (straps : Straps) (s : State) {t : State} (hk : Keeps kr false s0 s) (e :
    execStandbyPowerOn straps s = .next t) : Keeps kr false s0 t := by
  unfold execStandbyPowerOn at e
  injection e with e
  subst e
  split
  · exact hk
  · extract_lets +onlyGivenNames x
    subst x
    apply keeps_beginStartUp
    refine ⟨hk.pending, hk.part, fun _ => ⟨rfl, fun fl e => ?_⟩, hk.version, hk.custKey, hk.retired, fun e => nomatch e⟩
    cases e

theorem keeps_execStandbyPowerLoss (s : State) {t : State} (hk : Keeps kr false s0 s) (e : execStandbyPowerLoss s =
    .next t) : Keeps kr false s0 t := by
  unfold execStandbyPowerLoss at e
  injection e with e
  subst e
  with_reducible repeat' first
    | assumption | apply keeps_storeEntry | apply keeps_mainOff
    | fail_if_no_progress (refine Keeps.made ?_ rfl rfl rfl rfl rfl) | (extract_lets +onlyGivenNames x; subst x)
    | split | fail_if_no_progress beta_reduce

theorem keeps_inboundRefused (s : State) (r : PcieReq) (hk : Keeps kr kl s0 s) : Keeps kr kl s0 (inboundRefused s r)
    := by
  unfold inboundRefused
  with_reducible repeat' first
    | assumption | apply keeps_faultAt | (extract_lets +onlyGivenNames x; subst x) | split
    | fail_if_no_progress beta_reduce

theorem keeps_hostBox (s : State) (r : PcieReq) (hk : Keeps kr kl s0 s) : Keeps kr kl s0 (hostBox s r) := by
  unfold hostBox
  with_reducible repeat' first
    | assumption | apply keeps_boxWrite | apply keeps_issueStamp | apply keeps_faultAt | exact KeepsO.none
    | apply KeepsO.some | apply Keeps.getD | refine KeepsO.map ?_ | apply Keeps2.snd
    | refine Keeps2.eq (by assumption) ?_ | refine KeepsO.eq (by assumption) ?_ | intro _
    | (extract_lets +onlyGivenNames x; subst x) | split | fail_if_no_progress beta_reduce | apply Keeps2.mk

theorem keeps_statusWrite (s : State) (r : PcieReq) (bs : List Byte) (hk : Keeps kr kl s0 s) : Keeps kr kl s0
    (statusWrite s r bs) := by
  unfold statusWrite
  with_reducible repeat' first
    | assumption | apply keeps_execAdst (e := by assumption) | apply keeps_inboundRefused
    | (extract_lets +onlyGivenNames x; subst x) | split | fail_if_no_progress beta_reduce

theorem keeps_execPcieInboundRequest (r : PcieReq) (s : State) {t : State} (hk : Keeps kr kl s0 s) (e :
    execPcieInboundRequest r s = .next t) : Keeps kr kl s0 t := by
  unfold execPcieInboundRequest at e
  injection e with e
  subst e
  with_reducible repeat' first
    | assumption | apply keeps_hostBox | apply keeps_statusWrite | apply keeps_inboundRefused | apply keeps_issueStamp
    | apply keeps_engWrite | apply keeps_engRead | apply Keeps2.snd | refine Keeps2.eq (by assumption) ?_
    | exact repKeeps_rep | (extract_lets +onlyGivenNames x; subst x) | split | fail_if_no_progress beta_reduce
    | apply Keeps2.mk

theorem keeps_execMeridianLock (s : State) {t : State} (hk : Keeps kr kl s0 s) (e : execMeridianLock s = .next t) :
    Keeps kr kl s0 t := by
  unfold execMeridianLock at e
  injection e with e
  subst e
  with_reducible repeat' first
    | assumption | apply keeps_logMeridian | apply keeps_endStep | apply keeps_startChange
    | fail_if_no_progress (refine Keeps.made ?_ rfl rfl rfl rfl rfl) | (extract_lets +onlyGivenNames x; subst x)
    | split | fail_if_no_progress beta_reduce

theorem keeps_initRegions (s : State) (hk : Keeps kr kl s0 s) : Keeps kr kl s0 (initRegions s) := by
  unfold initRegions
  refine ⟨hk.pending, hk.part, fun _ => ⟨rfl, fun fl e => ?_⟩, hk.version, hk.custKey, hk.retired, hk.lock⟩
  cases e

theorem keeps_loadSlot0 (s : State) (hk : Keeps kr kl s0 s) : Keeps kr kl s0 (loadSlot0 s) := by
  unfold loadSlot0
  with_reducible repeat' first
    | assumption | apply keeps_loadSlot | fail_if_no_progress (refine Keeps.made ?_ rfl rfl rfl rfl rfl)
    | (extract_lets +onlyGivenNames x; subst x) | split | fail_if_no_progress beta_reduce

theorem keeps_trainedChans (s : State) (hk : Keeps kr kl s0 s) : Keeps kr kl s0 (trainedChans s) := by
  unfold trainedChans
  with_reducible repeat' first
    | assumption | apply keeps_nextFree | apply keeps_updChan | refine Keeps.foldl _ ?_ ?_ | intro _
    | (extract_lets +onlyGivenNames x; subst x) | split | fail_if_no_progress beta_reduce

theorem keeps_execMemoryTrainingDone (retried : ℕ) (failed : Bool) (s : State) {t : State} (hk : Keeps kr kl s0 s)
    (e : execMemoryTrainingDone retried failed s = .next t) : Keeps kr kl s0 t := by
  unfold execMemoryTrainingDone at e
  injection e with e
  subst e
  with_reducible repeat' first
    | assumption | apply keeps_faultAt | apply keeps_failStep | apply keeps_initRegions | apply keeps_loadSlot0
    | apply keeps_trainedChans | apply keeps_openWord | apply keeps_endStep | apply Keeps2.snd
    | refine Keeps2.eq (by assumption) ?_ | (extract_lets +onlyGivenNames x; subst x) | split
    | fail_if_no_progress beta_reduce | apply Keeps2.mk

theorem keeps_endMainCmds (s : State) (hk : Keeps kr kl s0 s) : Keeps kr kl s0 (endMainCmds s) := by
  unfold endMainCmds
  with_reducible repeat' first
    | assumption | apply keeps_setOutcome | refine Keeps.foldl _ ?_ ?_ | refine Keeps2.foldl _ ?_ ?_ | intro _
    | (extract_lets +onlyGivenNames x; subst x) | split | fail_if_no_progress beta_reduce

theorem keeps_execDiscoveryDone (found : Found) (s : State) {t : State} (hk : Keeps kr kl s0 s) (e :
    execDiscoveryDone found s = .next t) : Keeps kr kl s0 t := by
  unfold execDiscoveryDone at e
  injection e with e
  subst e
  with_reducible repeat' first
    | assumption | apply keeps_isolateModule | apply keeps_failStep | apply keeps_setRt | apply keeps_setPartner
    | apply keeps_elect | apply keeps_endStep | fail_if_no_progress (refine Keeps.made ?_ rfl rfl rfl rfl rfl)
    | (extract_lets +onlyGivenNames x; subst x) | split | fail_if_no_progress beta_reduce

theorem keeps_tryStep2 (s : State) (first : Bool) (hk : Keeps kr kl s0 s) : Keeps kr kl s0 (tryStep2 s first) := by
  unfold tryStep2
  with_reducible repeat' first
    | assumption | apply keeps_endStep | apply keeps_startEntry | (extract_lets +onlyGivenNames x; subst x) | split
    | fail_if_no_progress beta_reduce

theorem keeps_execPwrOkAssert (s : State) {t : State} (hk : Keeps kr kl s0 s) (e : execPwrOkAssert s = .next t) :
    Keeps kr kl s0 t := by
  unfold execPwrOkAssert at e
  injection e with e
  subst e
  with_reducible repeat' first
    | assumption | apply keeps_tryStep2 | fail_if_no_progress (refine Keeps.made ?_ rfl rfl rfl rfl rfl)
    | (extract_lets +onlyGivenNames x; subst x) | split | fail_if_no_progress beta_reduce

theorem keeps_linkGone (s : State) (c : ℕ) (hk : Keeps kr kl s0 s) : Keeps kr kl s0 (linkGone s c) := by
  unfold linkGone
  with_reducible repeat' first
    | assumption | apply keeps_updPcie | apply keeps_sendFlit | apply keeps_linkDownOps | refine Keeps.foldl _ ?_ ?_
    | refine Keeps2.foldl _ ?_ ?_ | intro _ | (extract_lets +onlyGivenNames x; subst x) | split
    | fail_if_no_progress beta_reduce

theorem keeps_execMainRailsGood (s : State) {t : State} (hk : Keeps kr kl s0 s) (e : execMainRailsGood s = .next t)
    : Keeps kr kl s0 t := by
  unfold execMainRailsGood at e
  injection e with e
  subst e
  with_reducible repeat' first
    | assumption | apply keeps_updPort | apply keeps_trainPort | apply keeps_endStep | refine Keeps.foldl _ ?_ ?_
    | refine Keeps2.foldl _ ?_ ?_ | fail_if_no_progress (refine Keeps.made ?_ rfl rfl rfl rfl rfl) | intro _
    | (extract_lets +onlyGivenNames x; subst x) | split | fail_if_no_progress beta_reduce

theorem keeps_execPwrOkDeassert (s : State) {t : State} (hk : Keeps kr false s0 s) (e : execPwrOkDeassert s = .next
    t) : Keeps kr false s0 t := by
  unfold execPwrOkDeassert at e
  injection e with e
  subst e
  with_reducible repeat' first
    | assumption | apply keeps_mainOff | apply keeps_endMainCmds | apply keeps_causeEntry | apply keeps_faultAt
    | apply keeps_tryStep2 | fail_if_no_progress (refine Keeps.made ?_ rfl rfl rfl rfl rfl)
    | (extract_lets +onlyGivenNames x; subst x) | split | fail_if_no_progress beta_reduce

theorem keeps_execPerstInput (ctl : ℕ) (s : State) {t : State} (hk : Keeps kr kl s0 s) (e : execPerstInput ctl s =
    .next t) : Keeps kr kl s0 t := by
  unfold execPerstInput at e
  injection e with e
  subst e
  with_reducible repeat' first
    | assumption | apply keeps_updPcie | apply keeps_linkGone | (extract_lets +onlyGivenNames x; subst x) | split
    | fail_if_no_progress beta_reduce

theorem keeps_execRelraxBooted (copy : BootCopy) (s : State) {t : State} (hk : Keeps kr kl s0 s) (e :
    execRelraxBooted copy s = .next t) : Keeps kr kl s0 t := by
  unfold execRelraxBooted at e
  injection e with e
  subst e
  with_reducible repeat' first
    | assumption | apply keeps_openLog | apply keeps_failStep | apply keeps_openWord | apply keeps_endStep
    | apply keeps_tryStep2 | apply Keeps2.snd | refine Keeps2.eq (by assumption) ?_
    | fail_if_no_progress (refine Keeps.made ?_ rfl rfl rfl rfl rfl) | (extract_lets +onlyGivenNames x; subst x)
    | split | fail_if_no_progress beta_reduce | apply Keeps2.mk

theorem keeps_execStartupStepTimeout (s : State) {t : State} (hk : Keeps kr false s0 s) (e : execStartupStepTimeout
    s = .next t) : Keeps kr false s0 t := by
  unfold execStartupStepTimeout at e
  injection e with e
  subst e
  with_reducible repeat' first
    | assumption | apply keeps_failStep | apply keeps_faultAt | apply keeps_mainOff | apply keeps_isolateModule
    | apply keeps_startEntry | fail_if_no_progress (refine Keeps.made ?_ rfl rfl rfl rfl rfl)
    | (extract_lets +onlyGivenNames x; subst x) | split | fail_if_no_progress beta_reduce

theorem keeps_execThermtrip (s : State) {t : State} (hk : Keeps kr false s0 s) (e : execThermtrip s = .next t) :
    Keeps kr false s0 t := by
  unfold execThermtrip at e
  injection e with e
  subst e
  with_reducible repeat' first
    | assumption | apply keeps_mainOff | apply keeps_endMainCmds | apply keeps_faultAt | apply keeps_causeEntry
    | fail_if_no_progress (refine Keeps.made ?_ rfl rfl rfl rfl rfl) | (extract_lets +onlyGivenNames x; subst x)
    | split | fail_if_no_progress beta_reduce

theorem keeps_execPerstRelease (s : State) {t : State} (hk : Keeps kr kl s0 s) (e : execPerstRelease s = .next t) :
    Keeps kr kl s0 t := by
  unfold execPerstRelease at e
  injection e with e
  subst e
  with_reducible repeat' first
    | assumption | apply keeps_updPcie | refine Keeps.foldl _ ?_ ?_ | intro _
    | (extract_lets +onlyGivenNames x; subst x) | split | fail_if_no_progress beta_reduce

theorem keeps_startCounters (s : State) (hk : Keeps kr kl s0 s) : Keeps kr kl s0 (startCounters s) := by
  unfold startCounters
  with_reducible repeat' first
    | assumption | refine Keeps.foldl _ ?_ ?_ | refine Keeps2.foldl _ ?_ ?_
    | fail_if_no_progress (refine Keeps.made ?_ rfl rfl rfl rfl rfl) | intro _
    | (extract_lets +onlyGivenNames x; subst x) | split | fail_if_no_progress beta_reduce

theorem keeps_execPcieLinkDown (ctl : ℕ) (s : State) {t : State} (hk : Keeps kr kl s0 s) (e : execPcieLinkDown ctl s
    = .next t) : Keeps kr kl s0 t := by
  unfold execPcieLinkDown at e
  injection e with e
  subst e
  with_reducible repeat' first
    | assumption | apply keeps_linkGone | (extract_lets +onlyGivenNames x; subst x) | split
    | fail_if_no_progress beta_reduce

theorem keeps_execPcieLinkUp (ctl speed width : ℕ) (s : State) {t : State} (hk : Keeps kr kl s0 s) (e :
    execPcieLinkUp ctl speed width s = .next t) : Keeps kr kl s0 t := by
  unfold execPcieLinkUp at e
  injection e with e
  subst e
  with_reducible repeat' first
    | assumption | apply keeps_updPcie | (extract_lets +onlyGivenNames x; subst x) | split
    | fail_if_no_progress beta_reduce

theorem keeps_loadSystem (s : State) (ws : List Word) (hk : Keeps kr kl s0 s) : Keeps kr kl s0 (loadSystem s ws) :=
    by
  unfold loadSystem
  with_reducible repeat' first
    | assumption | apply keeps_engPutWords | apply keeps_startedVcore | apply keeps_updVcore | apply Keeps2.snd
    | refine Keeps2.eq (by assumption) ?_ | exact repKeeps_rep | (extract_lets +onlyGivenNames x; subst x) | split
    | fail_if_no_progress beta_reduce | apply Keeps2.mk

theorem keeps_execPerstInputRelease (ctl : ℕ) (s : State) {t : State} (hk : Keeps kr kl s0 s) (e :
    execPerstInputRelease ctl s = .next t) : Keeps kr kl s0 t := by
  unfold execPerstInputRelease at e
  injection e with e
  subst e
  with_reducible repeat' first
    | assumption | apply keeps_updPcie | (extract_lets +onlyGivenNames x; subst x) | split
    | fail_if_no_progress beta_reduce

theorem keeps_loadBonded (s : State) (ws : List Word) (hk : Keeps kr kl s0 s) : Keeps kr kl s0 (loadBonded s ws) :=
    by
  unfold loadBonded
  with_reducible repeat' first
    | assumption | apply keeps_engPutWords | apply keeps_updCores | apply Keeps2.snd | refine Keeps.foldl _ ?_ ?_
    | refine Keeps2.foldl _ ?_ ?_ | refine Keeps2.eq (by assumption) ?_ | exact repKeeps_rep
    | fail_if_no_progress (refine Keeps.made ?_ rfl rfl rfl rfl rfl) | intro _
    | (extract_lets +onlyGivenNames x; subst x) | split | fail_if_no_progress beta_reduce | apply Keeps2.mk

theorem keeps_execCoreRelease (signatureOk : Bool) (s : State) {t : State} (hk : Keeps kr kl s0 s) (e :
    execCoreRelease signatureOk s = .next t) : Keeps kr kl s0 t := by
  unfold execCoreRelease at e
  injection e with e
  subst e
  with_reducible repeat' first
    | assumption | apply keeps_endStep | apply keeps_startCounters | apply keeps_releaseCore | apply keeps_updDom
    | apply keeps_faultAt | apply keeps_failStep | apply keeps_loadBonded | apply keeps_loadSystem
    | refine Keeps.foldl _ ?_ ?_ | fail_if_no_progress (refine Keeps.made ?_ rfl rfl rfl rfl rfl) | intro _
    | (extract_lets +onlyGivenNames x; subst x) | split | fail_if_no_progress beta_reduce

end Sys2Proof.Machine
end

