-- ==== Sys2Proof/Laws/KeepsBonded.lean ====
section
/-! SUPPORT. What the operations of Bonded.lean keep: one lemma for each, in the terms of `Keeps`. -/

set_option linter.unusedTactic false
set_option linter.unreachableTactic false

namespace Sys2Proof.Machine

variable {kr kl : Bool} {s0 : State}

theorem keeps_execDbgEnWrite (q : IoReq) (core : ℕ) (v : Word) (s : State) {t : State} (hk : Keeps kr kl s0 s) (e :
    execDbgEnWrite q core v s = .next t) : Keeps kr kl s0 t := by
  unfold execDbgEnWrite at e
  injection e with e
  subst e
  with_reducible repeat' first
    | assumption | apply keeps_mainReg | apply keeps_writeDbg | (extract_lets +onlyGivenNames x; subst x) | split
    | fail_if_no_progress beta_reduce

theorem keeps_execBndOwnWrite (q : IoReq) (v : Word) (s : State) {t : State} (hk : Keeps kr kl s0 s) (e :
    execBndOwnWrite q v s = .next t) : Keeps kr kl s0 t := by
  unfold execBndOwnWrite at e
  injection e with e
  subst e
  with_reducible repeat' first
    | assumption | apply keeps_mainReg | apply keeps_writeOwn | (extract_lets +onlyGivenNames x; subst x) | split
    | fail_if_no_progress beta_reduce

theorem keeps_execBondedWatchdogExpiry (straps : Straps) (s : State) {t : State} (hk : Keeps kr false s0 s) (e :
    execBondedWatchdogExpiry straps s = .next t) : Keeps kr false s0 t := by
  unfold execBondedWatchdogExpiry at e
  injection e with e
  subst e
  with_reducible repeat' first
    | assumption | apply keeps_moduleReset | apply keeps_logAdd | (extract_lets +onlyGivenNames x; subst x) | split
    | fail_if_no_progress beta_reduce

theorem keeps_execJtagRequest (r : JtagReq) (s : State) {t : State} (hk : Keeps kr kl s0 s) (e : execJtagRequest r s
    = .next t) : Keeps kr kl s0 t := by
  unfold execJtagRequest at e
  injection e with e
  subst e
  with_reducible repeat' first
    | assumption | apply keeps_faultAt | (extract_lets +onlyGivenNames x; subst x) | split
    | fail_if_no_progress beta_reduce

end Sys2Proof.Machine
end

