-- ==== Sys2Proof/Laws/KeepsCellar.lean ====
section
/-! SUPPORT. What the operations of Cellar.lean keep: one lemma for each, in the terms of `Keeps`. -/

set_option linter.unusedTactic false
set_option linter.unreachableTactic false

namespace Sys2Proof.Machine

variable {kr kl : Bool} {s0 : State}

theorem keeps_askJob (s : State) (a1 : CmpJob) (hk : Keeps kr kl s0 s) : Keeps kr kl s0 (askJob s a1) := by
  unfold askJob
  with_reducible repeat' first
    | assumption | apply keeps_backPage | (extract_lets +onlyGivenNames x; subst x) | split
    | fail_if_no_progress beta_reduce

theorem keeps_execCompressionJobAssign (s : State) {t : State} (hk : Keeps kr kl s0 s) (e : execCompressionJobAssign
    s = .next t) : Keeps kr kl s0 t := by
  unfold execCompressionJobAssign at e
  injection e with e
  subst e
  with_reducible repeat' first
    | assumption | apply keeps_askJob | apply keeps_updEng | apply keeps_updChn | refine Keeps.foldl _ ?_ ?_
    | fail_if_no_progress (refine Keeps.made ?_ rfl rfl rfl rfl rfl) | intro _
    | (extract_lets +onlyGivenNames x; subst x) | split | fail_if_no_progress beta_reduce

theorem keeps_granuleLost (s : State) (im : CellImage) (hk : Keeps kr kl s0 s) : Keeps kr kl s0 (granuleLost s im)
    := by
  unfold granuleLost
  with_reducible repeat' first
    | assumption | apply keeps_nextFree | apply keeps_faultAt | apply keeps_poisonFrame
    | fail_if_no_progress (refine Keeps.made ?_ rfl rfl rfl rfl rfl) | (extract_lets +onlyGivenNames x; subst x)
    | split | fail_if_no_progress beta_reduce

theorem keeps_execQosPeriod (s : State) {t : State} (hk : Keeps kr kl s0 s) (e : execQosPeriod s = .next t) : Keeps
    kr kl s0 t := by
  unfold execQosPeriod at e
  injection e with e
  subst e
  with_reducible repeat' first
    | assumption | apply keeps_zoneEntry | apply keeps_updZone | apply keeps_resumeWaiting | apply keeps_decantPop
    | apply Keeps2.snd | refine Keeps.foldl _ ?_ ?_ | refine Keeps2.foldl _ ?_ ?_ | refine Keeps2.eq (by assumption) ?_
    | exact repKeeps_rep | fail_if_no_progress (refine Keeps.made ?_ rfl rfl rfl rfl rfl) | intro _
    | (extract_lets +onlyGivenNames x; subst x) | split | fail_if_no_progress beta_reduce | apply Keeps2.mk

theorem keeps_execCellaringCompressed (page : ℕ) (verifyOk : Bool) (s : State) {t : State} (hk : Keeps kr kl s0 s)
    (e : execCellaringCompressed page verifyOk s = .next t) : Keeps kr kl s0 t := by
  unfold execCellaringCompressed at e
  injection e with e
  subst e
  with_reducible repeat' first
    | assumption | apply keeps_endCellaring | apply keeps_unTransit | apply keeps_verifyFail | apply keeps_storeImage
    | apply keeps_runCellar | (extract_lets +onlyGivenNames x; subst x) | split | fail_if_no_progress beta_reduce

theorem keeps_execDecantExpanded (page : ℕ) (readOk : Bool) (s : State) {t : State} (hk : Keeps kr kl s0 s) (e :
    execDecantExpanded page readOk s = .next t) : Keeps kr kl s0 t := by
  unfold execDecantExpanded at e
  injection e with e
  subst e
  with_reducible repeat' first
    | assumption | apply keeps_releaseHeld | apply keeps_endJob | apply keeps_granuleLost | apply keeps_decantInto
    | apply keeps_faultAt | apply Keeps2.snd | refine Keeps2.eq (by assumption) ?_
    | fail_if_no_progress (refine Keeps.made ?_ rfl rfl rfl rfl rfl) | (extract_lets +onlyGivenNames x; subst x)
    | split | fail_if_no_progress beta_reduce | apply Keeps2.mk

theorem keeps_execPatrolPassStart (s : State) {t : State} (hk : Keeps kr kl s0 s) (e : execPatrolPassStart s = .next
    t) : Keeps kr kl s0 t := by
  unfold execPatrolPassStart at e
  injection e with e
  subst e
  with_reducible repeat' first
    | assumption | apply keeps_issueStamp | apply keeps_logAdd | apply keeps_updChan | apply Keeps2.snd
    | refine Keeps.foldl _ ?_ ?_ | refine Keeps2.foldl _ ?_ ?_ | refine Keeps2.eq (by assumption) ?_
    | fail_if_no_progress (refine Keeps.made ?_ rfl rfl rfl rfl rfl) | intro _
    | (extract_lets +onlyGivenNames x; subst x) | split | fail_if_no_progress beta_reduce | apply Keeps2.mk

theorem keeps_execMemoryRetrain (c : ℕ) (s : State) {t : State} (hk : Keeps kr kl s0 s) (e : execMemoryRetrain c s =
    .next t) : Keeps kr kl s0 t := by
  unfold execMemoryRetrain at e
  injection e with e
  subst e
  with_reducible repeat' first
    | assumption | apply keeps_updChan | (extract_lets +onlyGivenNames x; subst x) | split
    | fail_if_no_progress beta_reduce

theorem keeps_execMemoryRetrainDone (c rd wr : ℕ) (s : State) {t : State} (hk : Keeps kr kl s0 s) (e :
    execMemoryRetrainDone c rd wr s = .next t) : Keeps kr kl s0 t := by
  unfold execMemoryRetrainDone at e
  injection e with e
  subst e
  with_reducible repeat' first
    | assumption | apply keeps_updChan | apply keeps_resumeWaiting | apply keeps_setOutcome
    | refine Keeps.foldl _ ?_ ?_ | refine Keeps2.foldl _ ?_ ?_ | intro _ | (extract_lets +onlyGivenNames x; subst x)
    | split | fail_if_no_progress beta_reduce

theorem keeps_execScrubLine (c : ℕ) (e : ReadFinding) (s : State) {t : State} (hk : Keeps kr kl s0 s) (e :
    execScrubLine c e s = .next t) : Keeps kr kl s0 t := by
  unfold execScrubLine at e
  injection e with e
  subst e
  with_reducible repeat' first
    | assumption | apply keeps_updChan | apply keeps_channelRead | apply Keeps2.snd
    | refine Keeps2.eq (by assumption) ?_ | fail_if_no_progress (refine Keeps.made ?_ rfl rfl rfl rfl rfl)
    | (extract_lets +onlyGivenNames x; subst x) | split | fail_if_no_progress beta_reduce | apply Keeps2.mk

theorem keeps_execMr4Poll (status : List (ℕ × ℕ)) (s : State) {t : State} (hk : Keeps kr kl s0 s) (e : execMr4Poll
    status s = .next t) : Keeps kr kl s0 t := by
  unfold execMr4Poll at e
  injection e with e
  subst e
  with_reducible repeat' first
    | assumption | apply keeps_updChan | refine Keeps.foldl _ ?_ ?_ | refine Keeps2.foldl _ ?_ ?_ | intro _
    | (extract_lets +onlyGivenNames x; subst x) | split | fail_if_no_progress beta_reduce

end Sys2Proof.Machine
end

