-- ==== Sys2Proof/Laws/KeepsCmdOps.lean ====
section
/-! SUPPORT. What the operations of CmdOps.lean keep: one lemma for each, in the terms of `Keeps`. -/

set_option linter.unusedTactic false
set_option linter.unreachableTactic false

namespace Sys2Proof.Machine

variable {kr kl : Bool} {s0 : State}

theorem keeps_bad (e : ℕ) (s : State) (hk : Keeps kr kl s0 s) : Keeps2 kr kl s0 (bad e s) := by
  unfold bad
  with_reducible repeat' first
    | assumption | apply Keeps2.snd | refine Keeps2.eq (by assumption) ?_ | (extract_lets +onlyGivenNames x; subst x)
    | split | fail_if_no_progress beta_reduce | apply Keeps2.mk

theorem keeps_runRow (s : State) (m : Mbx) (code : ℕ) (f : Accepted → State → CmdOut) (hk : Keeps kr kl s0 s) (hf :
    ∀ s0 x0 x1, Keeps kr kl s0 x1 → Keeps2 kr kl s0 (f x0 x1)) : Keeps kr kl s0 (runRow s m code f) := by
  unfold runRow
  with_reducible repeat' first
    | assumption | apply keeps_runCmd | apply keeps_bad | apply Keeps2.snd | refine Keeps2.eq (by assumption) ?_
    | apply hf | intro _ | (extract_lets +onlyGivenNames x; subst x) | split | fail_if_no_progress beta_reduce
    | apply Keeps2.mk

theorem keeps_cmdPut (s : State) (addr : Word) (ws : List Word) (zone : ℕ) (world : Bool) (hk : Keeps kr kl s0 s) :
    Keeps2 kr kl s0 (cmdPut s addr ws zone world) := by
  unfold cmdPut
  with_reducible repeat' first
    | assumption | apply keeps_engWrite | apply Keeps2.snd | refine Keeps2.eq (by assumption) ?_ | exact repKeeps_rep
    | (extract_lets +onlyGivenNames x; subst x) | split | fail_if_no_progress beta_reduce | apply Keeps2.mk

theorem keeps_ok (ws : List Word) (s : State) (hk : Keeps kr kl s0 s) : Keeps2 kr kl s0 (ok ws s) := by
  unfold ok
  with_reducible repeat' first
    | assumption | apply Keeps2.snd | refine Keeps2.eq (by assumption) ?_ | (extract_lets +onlyGivenNames x; subst x)
    | split | fail_if_no_progress beta_reduce | apply Keeps2.mk

theorem keeps_waitCmd (s : State) (m : Mbx) (hk : Keeps kr kl s0 s) : Keeps2 kr kl s0 (waitCmd s m) := by
  unfold waitCmd
  with_reducible repeat' first
    | assumption | apply keeps_updBox | apply Keeps2.snd | refine Keeps2.eq (by assumption) ?_ | intro _
    | (extract_lets +onlyGivenNames x; subst x) | split | fail_if_no_progress beta_reduce | apply Keeps2.mk

theorem keeps_cmdWords (s : State) (addr : Word) (n zone : ℕ) (world : Bool) (hk : Keeps kr kl s0 s) : Keeps2 kr kl
    s0 (cmdWords s addr n zone world) := by
  unfold cmdWords
  with_reducible repeat' first
    | assumption | apply keeps_engWords | apply Keeps2.snd | refine Keeps2.eq (by assumption) ?_ | exact repKeeps_rep
    | (extract_lets +onlyGivenNames x; subst x) | split | fail_if_no_progress beta_reduce | apply Keeps2.mk

end Sys2Proof.Machine
end

