-- ==== Sys2Proof/Laws/KeepsCmdMem.lean ====
section
/-! SUPPORT. What the operations of CmdMem.lean keep: one lemma for each, in the terms of `Keeps`. -/

set_option linter.unusedTactic false
set_option linter.unreachableTactic false

namespace Sys2Proof.Machine

variable {kr kl : Bool} {s0 : State}

theorem keeps_setTag (s : State) (g v : ℕ) (hk : Keeps kr kl s0 s) : Keeps kr kl s0 (setTag s g v) := by
  unfold setTag
  with_reducible repeat' first
    | assumption | fail_if_no_progress (refine Keeps.made ?_ rfl rfl rfl rfl rfl)
    | (extract_lets +onlyGivenNames x; subst x) | split | fail_if_no_progress beta_reduce

theorem keeps_callPages (s : State) (ps : List ℕ) (hk : Keeps kr kl s0 s) : Keeps2 kr kl s0 (callPages s ps) := by
  unfold callPages
  with_reducible repeat' first
    | assumption | apply keeps_backPage | apply Keeps2.snd | refine Keeps.foldl _ ?_ ?_ | refine Keeps2.foldl _ ?_ ?_
    | refine Keeps2.eq (by assumption) ?_ | intro _ | (extract_lets +onlyGivenNames x; subst x) | split
    | fail_if_no_progress beta_reduce | apply Keeps2.mk

theorem keeps_pageRange (f : State → ℕ → ℕ → Except ℕ State) (z a2 a3 a4 : ℕ) (a5 : State) (hk : Keeps kr kl s0 a5)
    (hf : ∀ s0 x0 x1 x2, Keeps kr kl s0 x0 → KeepsE kr kl s0 (f x0 x1 x2)) : Keeps2 kr kl s0 (pageRange f z a2 a3 a4 a5)
    := by
  induction a2 generalizing a3 a4 a5 with
  | zero =>
    unfold pageRange
    with_reducible repeat' first
      | assumption | apply keeps_ok | exact KeepsE.error | apply KeepsE.ok | apply Keeps2.snd
      | refine Keeps2.eq (by assumption) ?_ | refine KeepsE.eq (by assumption) ?_ | apply hf
      | (extract_lets +onlyGivenNames x; subst x) | split | fail_if_no_progress beta_reduce | apply Keeps2.mk
  | succ n1  ih =>
    unfold pageRange
    with_reducible repeat' first
      | assumption | apply ih | apply keeps_ok | exact KeepsE.error | apply KeepsE.ok | apply Keeps2.snd
      | refine Keeps2.eq (by assumption) ?_ | refine KeepsE.eq (by assumption) ?_ | apply hf
      | (extract_lets +onlyGivenNames x; subst x) | split | fail_if_no_progress beta_reduce | apply Keeps2.mk

theorem keeps_rangeCmd (f : State → ℕ → ℕ → Except ℕ State) (z : ℕ) (a : Accepted) (s : State) (hk : Keeps kr kl s0
    s) (hf : ∀ s0 x0 x1 x2, Keeps kr kl s0 x0 → KeepsE kr kl s0 (f x0 x1 x2)) : Keeps2 kr kl s0 (rangeCmd f z a s) := by
  unfold rangeCmd
  with_reducible repeat' first
    | assumption | apply keeps_bad | apply keeps_pageRange | exact KeepsE.error | apply KeepsE.ok | apply Keeps2.snd
    | refine Keeps2.eq (by assumption) ?_ | refine KeepsE.eq (by assumption) ?_ | apply hf | intro _
    | (extract_lets +onlyGivenNames x; subst x) | split | fail_if_no_progress beta_reduce | apply Keeps2.mk

theorem keeps_backInvPage (s : State) (page : ℕ) (hk : Keeps kr kl s0 s) : Keeps kr kl s0 (backInvPage s page) := by
  unfold backInvPage
  with_reducible repeat' first
    | assumption | apply keeps_takeLine | refine Keeps.foldl _ ?_ ?_ | intro _
    | (extract_lets +onlyGivenNames x; subst x) | split | fail_if_no_progress beta_reduce

theorem keeps_assignPage (s : State) (page z : ℕ) (hk : Keeps kr kl s0 s) : KeepsE kr kl s0 (assignPage s page z) :=
    by
  unfold assignPage
  with_reducible repeat' first
    | assumption | apply keeps_setPage | apply keeps_popFrame (e := by assumption) | apply keeps_freeImage
    | apply keeps_zeroFrame | apply keeps_backInvPage | exact KeepsE.error | apply KeepsE.ok
    | refine KeepsE.eq (by assumption) ?_ | exact repKeeps_rep | refine repKeeps_rep.low _ _ _ ?_
    | (extract_lets +onlyGivenNames x; subst x) | split | fail_if_no_progress beta_reduce

theorem keeps_execPageAssign (m : Mbx) (s : State) {t : State} (hk : Keeps kr kl s0 s) (e : execPageAssign m s =
    .next t) : Keeps kr kl s0 t := by
  unfold execPageAssign at e
  injection e with e
  subst e
  with_reducible repeat' first
    | assumption | apply keeps_runRow | apply keeps_callPages | apply keeps_rangeCmd | apply keeps_assignPage
    | apply keeps_waitCmd | exact KeepsE.error | apply KeepsE.ok | apply Keeps2.snd
    | refine Keeps2.eq (by assumption) ?_ | refine KeepsE.eq (by assumption) ?_ | intro _
    | (extract_lets +onlyGivenNames x; subst x) | split | fail_if_no_progress beta_reduce | apply Keeps2.mk

theorem keeps_execGranuleUntag (m : Mbx) (s : State) {t : State} (hk : Keeps kr kl s0 s) (e : execGranuleUntag m s =
    .next t) : Keeps kr kl s0 t := by
  unfold execGranuleUntag at e
  injection e with e
  subst e
  with_reducible repeat' first
    | assumption | apply keeps_runRow | apply keeps_bad | apply keeps_callPages | apply keeps_zeroFrame
    | apply keeps_backInvPage | apply keeps_ok | apply keeps_setTag | apply keeps_waitCmd | apply Keeps2.snd
    | refine Keeps.foldl _ ?_ ?_ | refine Keeps2.foldl _ ?_ ?_ | refine Keeps2.eq (by assumption) ?_ | intro _
    | (extract_lets +onlyGivenNames x; subst x) | split | fail_if_no_progress beta_reduce | apply Keeps2.mk

theorem keeps_relink (s : State) (fs : List ℕ) (hk : Keeps kr kl s0 s) : Keeps kr kl s0 (relink s fs) := by
  unfold relink
  with_reducible repeat' first
    | assumption | apply keeps_linkFrame | refine Keeps.foldl _ ?_ ?_ | refine Keeps2.foldl _ ?_ ?_ | intro _
    | (extract_lets +onlyGivenNames x; subst x) | split | fail_if_no_progress beta_reduce

theorem keeps_execPoolAdd (m : Mbx) (s : State) {t : State} (hk : Keeps kr kl s0 s) (e : execPoolAdd m s = .next t)
    : Keeps kr kl s0 t := by
  unfold execPoolAdd at e
  injection e with e
  subst e
  with_reducible repeat' first
    | assumption | apply keeps_runRow | apply keeps_bad | apply keeps_updList | apply keeps_relink | apply keeps_ok
    | apply Keeps2.snd | refine Keeps2.eq (by assumption) ?_
    | fail_if_no_progress (refine Keeps.made ?_ rfl rfl rfl rfl rfl) | intro _
    | (extract_lets +onlyGivenNames x; subst x) | split | fail_if_no_progress beta_reduce | apply Keeps2.mk

theorem keeps_execMemRetrain (m : Mbx) (s : State) {t : State} (hk : Keeps kr kl s0 s) (e : execMemRetrain m s =
    .next t) : Keeps kr kl s0 t := by
  unfold execMemRetrain at e
  injection e with e
  subst e
  with_reducible repeat' first
    | assumption | apply keeps_runRow | apply Keeps2.snd | refine Keeps2.eq (by assumption) ?_ | intro _
    | (extract_lets +onlyGivenNames x; subst x) | split | fail_if_no_progress beta_reduce | apply Keeps2.mk

theorem keeps_execListMark (m : Mbx) (s : State) {t : State} (hk : Keeps kr kl s0 s) (e : execListMark m s = .next
    t) : Keeps kr kl s0 t := by
  unfold execListMark at e
  injection e with e
  subst e
  with_reducible repeat' first
    | assumption | apply keeps_runRow | apply keeps_ok | apply keeps_updList | apply Keeps2.snd
    | refine Keeps2.eq (by assumption) ?_ | intro _ | (extract_lets +onlyGivenNames x; subst x) | split
    | fail_if_no_progress beta_reduce | apply Keeps2.mk

theorem keeps_releasePage (s : State) (page _z : ℕ) (hk : Keeps kr kl s0 s) : KeepsE kr kl s0 (releasePage s page
    _z) := by
  unfold releasePage
  with_reducible repeat' first
    | assumption | apply keeps_setPage | apply keeps_pushFrame | apply keeps_backInvPage | apply keeps_freeImage
    | exact KeepsE.error | apply KeepsE.ok | refine KeepsE.eq (by assumption) ?_
    | (extract_lets +onlyGivenNames x; subst x) | split | fail_if_no_progress beta_reduce

theorem keeps_execPageRelease (m : Mbx) (s : State) {t : State} (hk : Keeps kr kl s0 s) (e : execPageRelease m s =
    .next t) : Keeps kr kl s0 t := by
  unfold execPageRelease at e
  injection e with e
  subst e
  with_reducible repeat' first
    | assumption | apply keeps_runRow | apply keeps_callPages | apply keeps_rangeCmd | apply keeps_releasePage
    | apply keeps_waitCmd | exact KeepsE.error | apply KeepsE.ok | apply Keeps2.snd
    | refine Keeps2.eq (by assumption) ?_ | refine KeepsE.eq (by assumption) ?_ | intro _
    | (extract_lets +onlyGivenNames x; subst x) | split | fail_if_no_progress beta_reduce | apply Keeps2.mk

theorem keeps_mapPage (s : State) (page z : ℕ) (hk : Keeps kr kl s0 s) : KeepsE kr kl s0 (mapPage s page z) := by
  unfold mapPage
  with_reducible repeat' first
    | assumption | apply keeps_popFrame (e := by assumption) | apply keeps_zeroFrame | apply keeps_setPage
    | exact KeepsE.error | apply KeepsE.ok | refine KeepsE.eq (by assumption) ?_ | exact repKeeps_rep
    | refine repKeeps_rep.low _ _ _ ?_ | (extract_lets +onlyGivenNames x; subst x) | split
    | fail_if_no_progress beta_reduce

theorem keeps_execPagePin (m : Mbx) (s : State) {t : State} (hk : Keeps kr kl s0 s) (e : execPagePin m s = .next t)
    : Keeps kr kl s0 t := by
  unfold execPagePin at e
  injection e with e
  subst e
  with_reducible repeat' first
    | assumption | apply keeps_runRow | apply keeps_bad | apply keeps_ok | apply keeps_setPage | apply Keeps2.snd
    | refine Keeps2.eq (by assumption) ?_ | intro _ | (extract_lets +onlyGivenNames x; subst x) | split
    | fail_if_no_progress beta_reduce | apply Keeps2.mk

theorem keeps_execCellar (m : Mbx) (s : State) {t : State} (hk : Keeps kr kl s0 s) (e : execCellar m s = .next t) :
    Keeps kr kl s0 t := by
  unfold execCellar at e
  injection e with e
  subst e
  with_reducible repeat' first
    | assumption | apply keeps_runRow | apply keeps_bad | apply keeps_cmdWords | apply keeps_updBox
    | apply keeps_runCellar | apply Keeps2.snd | refine Keeps2.eq (by assumption) ?_
    | fail_if_no_progress (refine Keeps.made ?_ rfl rfl rfl rfl rfl) | intro _
    | (extract_lets +onlyGivenNames x; subst x) | split | fail_if_no_progress beta_reduce | apply Keeps2.mk

theorem keeps_execKeyLoad (m : Mbx) (s : State) {t : State} (hk : Keeps kr kl s0 s) (e : execKeyLoad m s = .next t)
    : Keeps kr kl s0 t := by
  unfold execKeyLoad at e
  injection e with e
  subst e
  with_reducible repeat' first
    | assumption | apply keeps_runRow | apply keeps_bad | apply keeps_waitCmd | apply keeps_cmdWords
    | apply keeps_commitLoad | apply Keeps2.snd | refine Keeps2.eq (by assumption) ?_ | intro _
    | (extract_lets +onlyGivenNames x; subst x) | split | fail_if_no_progress beta_reduce | apply Keeps2.mk

theorem keeps_execPageMap (m : Mbx) (s : State) {t : State} (hk : Keeps kr kl s0 s) (e : execPageMap m s = .next t)
    : Keeps kr kl s0 t := by
  unfold execPageMap at e
  injection e with e
  subst e
  with_reducible repeat' first
    | assumption | apply keeps_runRow | apply keeps_rangeCmd | apply keeps_mapPage | exact KeepsE.error
    | apply KeepsE.ok | apply Keeps2.snd | refine Keeps2.eq (by assumption) ?_ | refine KeepsE.eq (by assumption) ?_
    | intro _ | (extract_lets +onlyGivenNames x; subst x) | split | fail_if_no_progress beta_reduce | apply Keeps2.mk

theorem keeps_moveFrames (s : State) (z t n : ℕ) (hk : Keeps kr kl s0 s) : Keeps2 kr kl s0 (moveFrames s z t n) :=
    by
  unfold moveFrames
  with_reducible repeat' first
    | assumption | apply keeps_updList | apply keeps_linkFrame | apply keeps_ok | apply Keeps2.snd
    | refine Keeps.foldl _ ?_ ?_ | refine Keeps2.foldl _ ?_ ?_ | refine Keeps2.eq (by assumption) ?_
    | exact repKeeps_rep | refine repKeeps_rep.low _ _ _ ?_ | intro _ | (extract_lets +onlyGivenNames x; subst x)
    | split | fail_if_no_progress beta_reduce | apply Keeps2.mk

theorem keeps_execKeyScrub (m : Mbx) (s : State) {t : State} (hk : Keeps kr kl s0 s) (e : execKeyScrub m s = .next
    t) : Keeps kr kl s0 t := by
  unfold execKeyScrub at e
  injection e with e
  subst e
  with_reducible repeat' first
    | assumption | apply keeps_runRow | apply keeps_bad | apply keeps_waitCmd | apply keeps_commitScrub
    | apply Keeps2.snd | refine Keeps2.eq (by assumption) ?_ | intro _ | (extract_lets +onlyGivenNames x; subst x)
    | split | fail_if_no_progress beta_reduce | apply Keeps2.mk

theorem keeps_execGranuleTag (m : Mbx) (s : State) {t : State} (hk : Keeps kr kl s0 s) (e : execGranuleTag m s =
    .next t) : Keeps kr kl s0 t := by
  unfold execGranuleTag at e
  injection e with e
  subst e
  with_reducible repeat' first
    | assumption | apply keeps_runRow | apply keeps_bad | apply keeps_callPages | apply keeps_ok | apply keeps_setTag
    | apply keeps_backInvPage | apply keeps_waitCmd | apply Keeps2.snd | refine Keeps.foldl _ ?_ ?_
    | refine Keeps2.foldl _ ?_ ?_ | refine Keeps2.eq (by assumption) ?_ | intro _
    | (extract_lets +onlyGivenNames x; subst x) | split | fail_if_no_progress beta_reduce | apply Keeps2.mk

theorem keeps_execListRead (m : Mbx) (s : State) {t : State} (hk : Keeps kr kl s0 s) (e : execListRead m s = .next
    t) : Keeps kr kl s0 t := by
  unfold execListRead at e
  injection e with e
  subst e
  with_reducible repeat' first
    | assumption | apply keeps_runRow | apply keeps_bad | apply keeps_ok | apply Keeps2.snd
    | refine Keeps2.eq (by assumption) ?_ | intro _ | (extract_lets +onlyGivenNames x; subst x) | split
    | fail_if_no_progress beta_reduce | apply Keeps2.mk

theorem keeps_execPoolRemove (m : Mbx) (s : State) {t : State} (hk : Keeps kr kl s0 s) (e : execPoolRemove m s =
    .next t) : Keeps kr kl s0 t := by
  unfold execPoolRemove at e
  injection e with e
  subst e
  with_reducible repeat' first
    | assumption | apply keeps_runRow | apply keeps_bad | apply keeps_ok | apply keeps_pushFrame | apply Keeps2.snd
    | refine Keeps.foldl _ ?_ ?_ | refine Keeps2.foldl _ ?_ ?_ | refine Keeps2.eq (by assumption) ?_
    | fail_if_no_progress (refine Keeps.made ?_ rfl rfl rfl rfl rfl) | intro _
    | (extract_lets +onlyGivenNames x; subst x) | split | fail_if_no_progress beta_reduce | apply Keeps2.mk

theorem keeps_execListMove (m : Mbx) (s : State) {t : State} (hk : Keeps kr kl s0 s) (e : execListMove m s = .next
    t) : Keeps kr kl s0 t := by
  unfold execListMove at e
  injection e with e
  subst e
  with_reducible repeat' first
    | assumption | apply keeps_runRow | apply keeps_moveFrames | apply Keeps2.snd | refine Keeps2.eq (by assumption) ?_
    | intro _ | (extract_lets +onlyGivenNames x; subst x) | split | fail_if_no_progress beta_reduce | apply Keeps2.mk

end Sys2Proof.Machine
end

