-- ==== Sys2Proof/Laws/KeepsCmdSys.lean ====
section
/-! SUPPORT. What the operations of CmdSys.lean keep: one lemma for each, in the terms of `Keeps`. -/

set_option linter.unusedTactic false
set_option linter.unreachableTactic false

namespace Sys2Proof.Machine

variable {kr kl : Bool} {s0 : State}

theorem keeps_forgetZone (s : State) (z : ℕ) (hk : Keeps kr kl s0 s) : Keeps kr kl s0 (forgetZone s z) := by
  unfold forgetZone
  with_reducible repeat' first
    | assumption | apply keeps_updZone | (extract_lets +onlyGivenNames x; subst x) | split
    | fail_if_no_progress beta_reduce

theorem keeps_forwardAll (s : State) (m : Mbx) (ws : List Word) (hk : Keeps kr kl s0 s) : Keeps kr kl s0 (forwardAll
    s m ws) := by
  unfold forwardAll
  with_reducible repeat' first
    | assumption | apply keeps_forwardCmd | refine Keeps.foldl _ ?_ ?_ | intro _
    | (extract_lets +onlyGivenNames x; subst x) | split | fail_if_no_progress beta_reduce

theorem keeps_execRefresh (m : Mbx) (s : State) {t : State} (hk : Keeps kr kl s0 s) (e : execRefresh m s = .next t)
    : Keeps kr kl s0 t := by
  unfold execRefresh at e
  injection e with e
  subst e
  with_reducible repeat' first
    | assumption | apply keeps_runRow | apply keeps_bad | apply keeps_ok | apply keeps_forgetZone
    | apply keeps_forwardAll | apply Keeps2.snd | refine Keeps2.eq (by assumption) ?_
    | fail_if_no_progress (refine Keeps.made ?_ rfl rfl rfl rfl rfl) | intro _
    | (extract_lets +onlyGivenNames x; subst x) | split | fail_if_no_progress beta_reduce | apply Keeps2.mk

theorem keeps_execStart (m : Mbx) (s : State) {t : State} (hk : Keeps kr kl s0 s) (e : execStart m s = .next t) :
    Keeps kr kl s0 t := by
  unfold execStart at e
  injection e with e
  subst e
  with_reducible repeat' first
    | assumption | apply keeps_runRow | apply keeps_bad | apply keeps_startCheck | apply keeps_waitCmd
    | apply keeps_acceptOp | apply Keeps2.snd | refine Keeps2.eq (by assumption) ?_ | intro _
    | (extract_lets +onlyGivenNames x; subst x) | split | fail_if_no_progress beta_reduce | apply Keeps2.mk

theorem keeps_execLogRead (m : Mbx) (s : State) {t : State} (hk : Keeps kr kl s0 s) (e : execLogRead m s = .next t)
    : Keeps kr kl s0 t := by
  unfold execLogRead at e
  injection e with e
  subst e
  with_reducible repeat' first
    | assumption | apply keeps_runRow | apply keeps_bad | apply keeps_ok | apply Keeps2.snd
    | refine Keeps2.eq (by assumption) ?_ | intro _ | (extract_lets +onlyGivenNames x; subst x) | split
    | fail_if_no_progress beta_reduce | apply Keeps2.mk

theorem keeps_execConfigRead (m : Mbx) (s : State) {t : State} (hk : Keeps kr kl s0 s) (e : execConfigRead m s =
    .next t) : Keeps kr kl s0 t := by
  unfold execConfigRead at e
  injection e with e
  subst e
  with_reducible repeat' first
    | assumption | apply keeps_runRow | apply keeps_ok | apply Keeps2.snd | refine Keeps2.eq (by assumption) ?_
    | intro _ | (extract_lets +onlyGivenNames x; subst x) | split | fail_if_no_progress beta_reduce | apply Keeps2.mk

theorem keeps_ownSub (s : State) (m : Mbx) (a : Accepted) (hk : Keeps kr kl s0 s) : Keeps2 kr kl s0 (ownSub s m a)
    := by
  unfold ownSub
  with_reducible repeat' first
    | assumption | apply keeps_subEntry | apply Keeps2.snd | refine Keeps2.eq (by assumption) ?_
    | (extract_lets +onlyGivenNames x; subst x) | split | fail_if_no_progress beta_reduce | apply Keeps2.mk

theorem keeps_execHalt (m : Mbx) (s : State) {t : State} (hk : Keeps kr kl s0 s) (e : execHalt m s = .next t) :
    Keeps kr kl s0 t := by
  unfold execHalt at e
  injection e with e
  subst e
  with_reducible repeat' first
    | assumption | apply keeps_runRow | apply keeps_ownSub | apply keeps_bad | apply keeps_ok | apply keeps_haltOp
    | apply Keeps2.snd | refine Keeps2.eq (by assumption) ?_ | intro _ | (extract_lets +onlyGivenNames x; subst x)
    | split | fail_if_no_progress beta_reduce | apply Keeps2.mk

theorem keeps_execLogNote (m : Mbx) (s : State) {t : State} (hk : Keeps kr kl s0 s) (e : execLogNote m s = .next t)
    : Keeps kr kl s0 t := by
  unfold execLogNote at e
  injection e with e
  subst e
  with_reducible repeat' first
    | assumption | apply keeps_runRow | apply keeps_issueStamp | apply keeps_ok | apply keeps_logPut | apply Keeps2.snd
    | refine Keeps2.eq (by assumption) ?_ | intro _ | (extract_lets +onlyGivenNames x; subst x) | split
    | fail_if_no_progress beta_reduce | apply Keeps2.mk

theorem keeps_acceptVersion (s : State) (ws : List Word) (hk : Keeps kr kl s0 s) : Keeps kr kl s0 (acceptVersion s
    ws) := by
  unfold acceptVersion
  refine ⟨hk.pending, hk.part, hk.mem, fun k => ?_, hk.custKey, hk.retired, hk.lock⟩
  exact Nat.le_trans (hk.version k) (Table.upd_max_mono _ _ _ _)

theorem keeps_execErrRelease (m : Mbx) (s : State) {t : State} (hk : Keeps kr kl s0 s) (e : execErrRelease m s =
    .next t) : Keeps kr kl s0 t := by
  unfold execErrRelease at e
  injection e with e
  subst e
  with_reducible repeat' first
    | assumption | apply keeps_runRow | apply keeps_ok | apply keeps_releaseErr | apply Keeps2.snd
    | refine Keeps2.eq (by assumption) ?_ | intro _ | (extract_lets +onlyGivenNames x; subst x) | split
    | fail_if_no_progress beta_reduce | apply Keeps2.mk

theorem keeps_execRetireClear (m : Mbx) (s : State) {t : State} (hk : Keeps false kl s0 s) (e : execRetireClear m s
    = .next t) : Keeps false kl s0 t := by
  unfold execRetireClear at e
  injection e with e
  subst e
  apply keeps_runRow _ _ _ _ hk
  intro s1 a u h
  dsimp only
  split
  · exact keeps_bad _ _ h
  · split
    · exact keeps_bad _ _ h
    · refine keeps_ok _ _ ?_
      exact ⟨h.pending, h.part, h.mem, h.version, h.custKey, (fun x => nomatch x), h.lock⟩

theorem keeps_storeFlash (s : State) (ws : List Word) (hk : Keeps kr kl s0 s) : Keeps kr kl s0 (storeFlash s ws) :=
    by
  unfold storeFlash
  refine ⟨hk.pending, hk.part, hk.mem, fun k => ?_, fun k x => ?_, fun x n y => ?_, hk.lock⟩
  · have z := hk.version k
    unfold acceptedVersion at *
    dsimp only
    repeat' split
    all_goals exact z
  · have z := hk.custKey k x
    dsimp only
    repeat' split
    all_goals exact z
  · have z := hk.retired x n y
    unfold retirementStands at *
    dsimp only
    repeat' split
    all_goals exact z

theorem keeps_signedImage (s : State) (addr : Word) (len : ℕ) (hk : Keeps kr kl s0 s) : Keeps2 kr kl s0 (signedImage
    s addr len) := by
  unfold signedImage
  with_reducible repeat' first
    | assumption | apply keeps_cmdWords | apply Keeps2.snd | refine Keeps2.eq (by assumption) ?_
    | (extract_lets +onlyGivenNames x; subst x) | split | fail_if_no_progress beta_reduce | apply Keeps2.mk

theorem keeps_execUcodeLoad (m : Mbx) (s : State) {t : State} (hk : Keeps kr kl s0 s) (e : execUcodeLoad m s = .next
    t) : Keeps kr kl s0 t := by
  unfold execUcodeLoad at e
  injection e with e
  subst e
  with_reducible repeat' first
    | assumption | apply keeps_runRow | apply keeps_signedImage | apply keeps_bad | apply keeps_acceptVersion
    | apply keeps_tryUcodeLoad | apply Keeps2.snd | refine Keeps2.eq (by assumption) ?_
    | fail_if_no_progress (refine Keeps.made ?_ rfl rfl rfl rfl rfl) | intro _
    | (extract_lets +onlyGivenNames x; subst x) | split | fail_if_no_progress beta_reduce | apply Keeps2.mk

theorem keeps_execDomainOn (m : Mbx) (s : State) {t : State} (hk : Keeps kr kl s0 s) (e : execDomainOn m s = .next
    t) : Keeps kr kl s0 t := by
  unfold execDomainOn at e
  injection e with e
  subst e
  with_reducible repeat' first
    | assumption | apply keeps_runRow | apply keeps_bad | apply keeps_ok | apply keeps_updDom | apply Keeps2.snd
    | refine Keeps2.eq (by assumption) ?_ | intro _ | (extract_lets +onlyGivenNames x; subst x) | split
    | fail_if_no_progress beta_reduce | apply Keeps2.mk

theorem keeps_selectSource (s : State) (src : ℕ) (v : Word) (hk : Keeps kr kl s0 s) : Keeps kr kl s0 (selectSource s
    src v) := by
  unfold selectSource
  with_reducible repeat' first
    | assumption | fail_if_no_progress (refine Keeps.made ?_ rfl rfl rfl rfl rfl)
    | (extract_lets +onlyGivenNames x; subst x) | split | fail_if_no_progress beta_reduce

theorem keeps_startOff (s : State) (d : ℕ) (m : Mbx) (hk : Keeps kr kl s0 s) : Keeps kr kl s0 (startOff s d m) := by
  unfold startOff
  with_reducible repeat' first
    | assumption | apply keeps_updDom | apply keeps_updCore | apply keeps_leaveWc | apply keeps_endDeferral
    | refine Keeps.foldl _ ?_ ?_ | refine Keeps2.foldl _ ?_ ?_ | intro _ | (extract_lets +onlyGivenNames x; subst x)
    | split | fail_if_no_progress beta_reduce

theorem keeps_execDomainOff (m : Mbx) (s : State) {t : State} (hk : Keeps kr kl s0 s) (e : execDomainOff m s = .next
    t) : Keeps kr kl s0 t := by
  unfold execDomainOff at e
  injection e with e
  subst e
  with_reducible repeat' first
    | assumption | apply keeps_runRow | apply keeps_bad | apply keeps_ok | apply keeps_startOff | apply Keeps2.snd
    | refine Keeps2.eq (by assumption) ?_ | intro _ | (extract_lets +onlyGivenNames x; subst x) | split
    | fail_if_no_progress beta_reduce | apply Keeps2.mk

theorem keeps_execPortRetrain (m : Mbx) (s : State) {t : State} (hk : Keeps kr kl s0 s) (e : execPortRetrain m s =
    .next t) : Keeps kr kl s0 t := by
  unfold execPortRetrain at e
  injection e with e
  subst e
  with_reducible repeat' first
    | assumption | apply keeps_runRow | apply keeps_bad | apply keeps_orderLane | apply Keeps2.snd
    | refine Keeps2.eq (by assumption) ?_ | intro _ | (extract_lets +onlyGivenNames x; subst x) | split
    | fail_if_no_progress beta_reduce | apply Keeps2.mk

theorem keeps_execFaultAck (m : Mbx) (s : State) {t : State} (hk : Keeps kr kl s0 s) (e : execFaultAck m s = .next
    t) : Keeps kr kl s0 t := by
  unfold execFaultAck at e
  injection e with e
  subst e
  with_reducible repeat' first
    | assumption | apply keeps_runRow | apply keeps_ok | apply keeps_ackRec | apply keeps_bad | apply Keeps2.snd
    | refine Keeps2.eq (by assumption) ?_ | intro _ | (extract_lets +onlyGivenNames x; subst x) | split
    | fail_if_no_progress beta_reduce | apply Keeps2.mk

theorem keeps_execCoreRelieve (m : Mbx) (s : State) {t : State} (hk : Keeps kr kl s0 s) (e : execCoreRelieve m s =
    .next t) : Keeps kr kl s0 t := by
  unfold execCoreRelieve at e
  injection e with e
  subst e
  with_reducible repeat' first
    | assumption | apply keeps_runRow | apply keeps_bad | apply keeps_waitCmd | apply keeps_startRelief
    | apply Keeps2.snd | refine Keeps2.eq (by assumption) ?_ | intro _ | (extract_lets +onlyGivenNames x; subst x)
    | split | fail_if_no_progress beta_reduce | apply Keeps2.mk

theorem keeps_readImage (s : State) (addr : Word) (hk : Keeps kr kl s0 s) : Keeps2 kr kl s0 (readImage s addr) := by
  unfold readImage
  with_reducible repeat' first
    | assumption | apply keeps_cmdWords | apply Keeps2.snd | refine Keeps2.eq (by assumption) ?_
    | (extract_lets +onlyGivenNames x; subst x) | split | fail_if_no_progress beta_reduce | apply Keeps2.mk

theorem keeps_configInvalid (item rule : ℕ) (s : State) (hk : Keeps kr kl s0 s) : Keeps2 kr kl s0 (configInvalid
    item rule s) := by
  unfold configInvalid
  with_reducible repeat' first
    | assumption | apply Keeps2.snd | refine Keeps2.eq (by assumption) ?_ | (extract_lets +onlyGivenNames x; subst x)
    | split | fail_if_no_progress beta_reduce | apply Keeps2.mk

theorem keeps_execVintageChange (m : Mbx) (s : State) {t : State} (hk : Keeps kr kl s0 s) (e : execVintageChange m s
    = .next t) : Keeps kr kl s0 t := by
  unfold execVintageChange at e
  injection e with e
  subst e
  with_reducible repeat' first
    | assumption | apply keeps_runRow | apply keeps_bad | apply keeps_readImage | apply keeps_configInvalid
    | apply keeps_imageFault | apply keeps_startChange | apply Keeps2.snd | refine Keeps2.eq (by assumption) ?_
    | intro _ | (extract_lets +onlyGivenNames x; subst x) | split | fail_if_no_progress beta_reduce | apply Keeps2.mk

theorem keeps_execPortSet (m : Mbx) (s : State) {t : State} (hk : Keeps kr kl s0 s) (e : execPortSet m s = .next t)
    : Keeps kr kl s0 t := by
  unfold execPortSet at e
  injection e with e
  subst e
  with_reducible repeat' first
    | assumption | apply keeps_runRow | apply keeps_bad | apply keeps_ok | apply keeps_writePctl | apply Keeps2.snd
    | refine Keeps2.eq (by assumption) ?_ | intro _ | (extract_lets +onlyGivenNames x; subst x) | split
    | fail_if_no_progress beta_reduce | apply Keeps2.mk

theorem keeps_quiesceAll (s : State) (hk : Keeps kr kl s0 s) : Keeps kr kl s0 (quiesceAll s) := by
  unfold quiesceAll
  with_reducible repeat' first
    | assumption | apply keeps_quiesceCore | apply keeps_evictLine | refine Keeps.foldl _ ?_ ?_
    | refine Keeps2.foldl _ ?_ ?_ | intro _ | (extract_lets +onlyGivenNames x; subst x) | split
    | fail_if_no_progress beta_reduce

theorem keeps_execPowerDown (m : Mbx) (s : State) {t : State} (hk : Keeps kr kl s0 s) (e : execPowerDown m s = .next
    t) : Keeps kr kl s0 t := by
  unfold execPowerDown at e
  injection e with e
  subst e
  with_reducible repeat' first
    | assumption | apply keeps_runRow | apply keeps_bad | apply keeps_quiesceAll | apply keeps_waitCmd
    | apply keeps_recordMarks | apply keeps_ok | apply Keeps2.snd | refine Keeps2.eq (by assumption) ?_
    | fail_if_no_progress (refine Keeps.made ?_ rfl rfl rfl rfl rfl) | intro _
    | (extract_lets +onlyGivenNames x; subst x) | split | fail_if_no_progress beta_reduce | apply Keeps2.mk

theorem keeps_execHistory (m : Mbx) (s : State) {t : State} (hk : Keeps kr kl s0 s) (e : execHistory m s = .next t)
    : Keeps kr kl s0 t := by
  unfold execHistory at e
  injection e with e
  subst e
  with_reducible repeat' first
    | assumption | apply keeps_runRow | apply keeps_ok | apply Keeps2.snd | refine Keeps2.eq (by assumption) ?_
    | intro _ | (extract_lets +onlyGivenNames x; subst x) | split | fail_if_no_progress beta_reduce | apply Keeps2.mk

theorem keeps_execPortStatus (m : Mbx) (s : State) {t : State} (hk : Keeps kr kl s0 s) (e : execPortStatus m s =
    .next t) : Keeps kr kl s0 t := by
  unfold execPortStatus at e
  injection e with e
  subst e
  with_reducible repeat' first
    | assumption | apply keeps_runRow | apply keeps_bad | apply keeps_ok | apply Keeps2.snd
    | refine Keeps2.eq (by assumption) ?_ | intro _ | (extract_lets +onlyGivenNames x; subst x) | split
    | fail_if_no_progress beta_reduce | apply Keeps2.mk

theorem keeps_execCoreRead (m : Mbx) (s : State) {t : State} (hk : Keeps kr kl s0 s) (e : execCoreRead m s = .next
    t) : Keeps kr kl s0 t := by
  unfold execCoreRead at e
  injection e with e
  subst e
  with_reducible repeat' first
    | assumption | apply keeps_runRow | apply keeps_bad | apply keeps_ok | apply Keeps2.snd
    | refine Keeps2.eq (by assumption) ?_ | intro _ | (extract_lets +onlyGivenNames x; subst x) | split
    | fail_if_no_progress beta_reduce | apply Keeps2.mk

theorem keeps_copyHeld (dev z a2 a3 : ℕ) (a4 : Word) (a5 : State) (hk : Keeps kr kl s0 a5) : Keeps2 kr kl s0
    (copyHeld dev z a2 a3 a4 a5) := by
  induction a2 generalizing a3 a4 a5 with
  | zero =>
    unfold copyHeld
    with_reducible repeat' first
      | assumption | apply keeps_cmdPut | apply Keeps2.snd | refine Keeps2.eq (by assumption) ?_
      | fail_if_no_progress (refine Keeps.made ?_ rfl rfl rfl rfl rfl) | (extract_lets +onlyGivenNames x; subst x)
      | split | fail_if_no_progress beta_reduce | apply Keeps2.mk
  | succ n1  ih =>
    unfold copyHeld
    with_reducible repeat' first
      | assumption | apply ih | apply keeps_cmdPut | apply Keeps2.snd | refine Keeps2.eq (by assumption) ?_
      | fail_if_no_progress (refine Keeps.made ?_ rfl rfl rfl rfl rfl) | (extract_lets +onlyGivenNames x; subst x)
      | split | fail_if_no_progress beta_reduce | apply Keeps2.mk

theorem keeps_execOrphanRead (m : Mbx) (s : State) {t : State} (hk : Keeps kr kl s0 s) (e : execOrphanRead m s =
    .next t) : Keeps kr kl s0 t := by
  unfold execOrphanRead at e
  injection e with e
  subst e
  with_reducible repeat' first
    | assumption | apply keeps_runRow | apply keeps_copyHeld | apply keeps_bad | apply keeps_ok | apply Keeps2.snd
    | refine Keeps2.eq (by assumption) ?_ | intro _ | (extract_lets +onlyGivenNames x; subst x) | split
    | fail_if_no_progress beta_reduce | apply Keeps2.mk

theorem keeps_execConfigExport (m : Mbx) (s : State) {t : State} (hk : Keeps kr kl s0 s) (e : execConfigExport m s =
    .next t) : Keeps kr kl s0 t := by
  unfold execConfigExport at e
  injection e with e
  subst e
  with_reducible repeat' first
    | assumption | apply keeps_runRow | apply keeps_cmdPut | apply keeps_bad | apply keeps_ok | apply Keeps2.snd
    | refine Keeps2.eq (by assumption) ?_ | intro _ | (extract_lets +onlyGivenNames x; subst x) | split
    | fail_if_no_progress beta_reduce | apply Keeps2.mk

theorem keeps_execUcodeKey (m : Mbx) (s : State) {t : State} (hk : Keeps kr kl s0 s) (e : execUcodeKey m s = .next
    t) : Keeps kr kl s0 t := by
  unfold execUcodeKey at e
  injection e with e
  subst e
  apply keeps_runRow _ _ _ _ hk
  intro s1 a u h
  dsimp only
  split
  · exact keeps_bad _ _ h
  · rename_i hn
    split
    · exact keeps_bad _ _ (Keeps2.eq (by assumption) (keeps_cmdWords _ _ _ _ _ h))
    · refine keeps_ok _ _ ?_
      have k := Keeps2.eq (by assumption) (keeps_cmdWords u (cmdP a.words 1) 6 0 false h)
      refine ⟨k.pending, k.part, k.mem, k.version, fun x y => ?_, k.retired, k.lock⟩
      have z := h.custKey x y
      rw [z] at hn
      exact absurd rfl hn

theorem keeps_execFlashUpdate (m : Mbx) (s : State) {t : State} (hk : Keeps kr kl s0 s) (e : execFlashUpdate m s =
    .next t) : Keeps kr kl s0 t := by
  unfold execFlashUpdate at e
  injection e with e
  subst e
  with_reducible repeat' first
    | assumption | apply keeps_runRow | apply keeps_signedImage | apply keeps_bad | apply keeps_ok
    | apply keeps_storeFlash | apply keeps_acceptVersion | apply Keeps2.snd | refine Keeps2.eq (by assumption) ?_
    | intro _ | (extract_lets +onlyGivenNames x; subst x) | split | fail_if_no_progress beta_reduce | apply Keeps2.mk

theorem keeps_execDomainCancel (m : Mbx) (s : State) {t : State} (hk : Keeps kr kl s0 s) (e : execDomainCancel m s =
    .next t) : Keeps kr kl s0 t := by
  unfold execDomainCancel at e
  injection e with e
  subst e
  with_reducible repeat' first
    | assumption | apply keeps_runRow | apply keeps_bad | apply keeps_updDom | apply keeps_ok
    | apply keeps_setOutcomeOpt | apply Keeps2.snd | refine Keeps2.eq (by assumption) ?_
    | fail_if_no_progress (refine Keeps.made ?_ rfl rfl rfl rfl rfl) | intro _
    | (extract_lets +onlyGivenNames x; subst x) | split | fail_if_no_progress beta_reduce | apply Keeps2.mk

theorem keeps_execMerSource (m : Mbx) (s : State) {t : State} (hk : Keeps kr kl s0 s) (e : execMerSource m s = .next
    t) : Keeps kr kl s0 t := by
  unfold execMerSource at e
  injection e with e
  subst e
  with_reducible repeat' first
    | assumption | apply keeps_runRow | apply keeps_bad | apply keeps_ok | apply keeps_selectSource | apply Keeps2.snd
    | refine Keeps2.eq (by assumption) ?_ | intro _ | (extract_lets +onlyGivenNames x; subst x) | split
    | fail_if_no_progress beta_reduce | apply Keeps2.mk

theorem keeps_execSubStatus (m : Mbx) (s : State) {t : State} (hk : Keeps kr kl s0 s) (e : execSubStatus m s = .next
    t) : Keeps kr kl s0 t := by
  unfold execSubStatus at e
  injection e with e
  subst e
  with_reducible repeat' first
    | assumption | apply keeps_runRow | apply keeps_ownSub | apply keeps_bad | apply keeps_ok | apply Keeps2.snd
    | refine Keeps2.eq (by assumption) ?_ | intro _ | (extract_lets +onlyGivenNames x; subst x) | split
    | fail_if_no_progress beta_reduce | apply Keeps2.mk

theorem keeps_execModuleReset (m : Mbx) (straps : Straps) (s : State) {t : State} (hk : Keeps kr false s0 s) (e :
    execModuleReset m straps s = .next t) : Keeps kr false s0 t := by
  unfold execModuleReset at e
  injection e with e
  subst e
  with_reducible repeat' first
    | assumption | apply keeps_moduleReset | apply keeps_completeCmd | apply keeps_setOutcome | apply keeps_startCmd
    | (extract_lets +onlyGivenNames x; subst x) | split | fail_if_no_progress beta_reduce

theorem keeps_execLostRead (m : Mbx) (s : State) {t : State} (hk : Keeps kr kl s0 s) (e : execLostRead m s = .next
    t) : Keeps kr kl s0 t := by
  unfold execLostRead at e
  injection e with e
  subst e
  with_reducible repeat' first
    | assumption | apply keeps_runRow | apply keeps_ok | apply Keeps2.snd | refine Keeps2.eq (by assumption) ?_
    | intro _ | (extract_lets +onlyGivenNames x; subst x) | split | fail_if_no_progress beta_reduce | apply Keeps2.mk

end Sys2Proof.Machine
end

