-- ==== Sys2Proof/Laws/KeepsCmdZone.lean ====
section
/-! SUPPORT. What the operations of CmdZone.lean keep: one lemma for each, in the terms of `Keeps`. -/

set_option linter.unusedTactic false
set_option linter.unreachableTactic false

namespace Sys2Proof.Machine

variable {kr kl : Bool} {s0 : State}

theorem keeps_subNames (s : State) (z : ℕ) (hk : Keeps kr kl s0 s) : Keeps2 kr kl s0 (subNames s z) := by
  unfold subNames
  with_reducible repeat' first
    | assumption | apply keeps_engWords | apply Keeps2.snd | refine Keeps.foldl _ ?_ ?_ | refine Keeps2.foldl _ ?_ ?_
    | refine Keeps2.eq (by assumption) ?_ | exact repKeeps_rep | intro _ | (extract_lets +onlyGivenNames x; subst x)
    | split | fail_if_no_progress beta_reduce | apply Keeps2.mk

theorem keeps_zoneHolds (s : State) (z : ℕ) (hk : Keeps kr kl s0 s) : Keeps2 kr kl s0 (zoneHolds s z) := by
  unfold zoneHolds
  with_reducible repeat' first
    | assumption | apply keeps_subNames | apply keeps_nextFree | apply Keeps2.snd | refine Keeps2.eq (by assumption) ?_
    | (extract_lets +onlyGivenNames x; subst x) | split | fail_if_no_progress beta_reduce | apply Keeps2.mk

theorem keeps_setZoneState (s : State) (z st : ℕ) (hk : Keeps kr kl s0 s) : Keeps kr kl s0 (setZoneState s z st) :=
    by
  unfold setZoneState
  with_reducible repeat' first
    | assumption | apply keeps_updZone | (extract_lets +onlyGivenNames x; subst x) | split
    | fail_if_no_progress beta_reduce

theorem keeps_execZoneDestroy (m : Mbx) (s : State) {t : State} (hk : Keeps kr kl s0 s) (e : execZoneDestroy m s =
    .next t) : Keeps kr kl s0 t := by
  unfold execZoneDestroy at e
  injection e with e
  subst e
  with_reducible repeat' first
    | assumption | apply keeps_runRow | apply keeps_bad | apply keeps_zoneHolds | apply keeps_ok
    | apply keeps_setZoneState | apply Keeps2.snd | refine Keeps2.eq (by assumption) ?_ | intro _
    | (extract_lets +onlyGivenNames x; subst x) | split | fail_if_no_progress beta_reduce | apply Keeps2.mk

theorem keeps_execInventory (m : Mbx) (s : State) {t : State} (hk : Keeps kr kl s0 s) (e : execInventory m s = .next
    t) : Keeps kr kl s0 t := by
  unfold execInventory at e
  injection e with e
  subst e
  with_reducible repeat' first
    | assumption | apply keeps_runRow | apply keeps_ok | apply Keeps2.snd | refine Keeps2.eq (by assumption) ?_
    | intro _ | (extract_lets +onlyGivenNames x; subst x) | split | fail_if_no_progress beta_reduce | apply Keeps2.mk

theorem keeps_execVcoreUnbind (m : Mbx) (s : State) {t : State} (hk : Keeps kr kl s0 s) (e : execVcoreUnbind m s =
    .next t) : Keeps kr kl s0 t := by
  unfold execVcoreUnbind at e
  injection e with e
  subst e
  with_reducible repeat' first
    | assumption | apply keeps_runRow | apply keeps_bad | apply keeps_ok | apply keeps_updVcore | apply Keeps2.snd
    | refine Keeps2.eq (by assumption) ?_ | intro _ | (extract_lets +onlyGivenNames x; subst x) | split
    | fail_if_no_progress beta_reduce | apply Keeps2.mk

theorem keeps_execSystem (m : Mbx) (s : State) {t : State} (hk : Keeps kr kl s0 s) (e : execSystem m s = .next t) :
    Keeps kr kl s0 t := by
  unfold execSystem at e
  injection e with e
  subst e
  with_reducible repeat' first
    | assumption | apply keeps_runRow | apply keeps_ok | apply Keeps2.snd | refine Keeps2.eq (by assumption) ?_
    | intro _ | (extract_lets +onlyGivenNames x; subst x) | split | fail_if_no_progress beta_reduce | apply Keeps2.mk

theorem keeps_execVcoreStart (m : Mbx) (s : State) {t : State} (hk : Keeps kr kl s0 s) (e : execVcoreStart m s =
    .next t) : Keeps kr kl s0 t := by
  unfold execVcoreStart at e
  injection e with e
  subst e
  with_reducible repeat' first
    | assumption | apply keeps_runRow | apply keeps_bad | apply keeps_waitCmd | apply keeps_startVcore | apply keeps_ok
    | apply Keeps2.snd | refine Keeps2.eq (by assumption) ?_ | intro _ | (extract_lets +onlyGivenNames x; subst x)
    | split | fail_if_no_progress beta_reduce | apply Keeps2.mk

theorem keeps_execVcoreStop (m : Mbx) (s : State) {t : State} (hk : Keeps kr kl s0 s) (e : execVcoreStop m s = .next
    t) : Keeps kr kl s0 t := by
  unfold execVcoreStop at e
  injection e with e
  subst e
  with_reducible repeat' first
    | assumption | apply keeps_runRow | apply keeps_bad | apply keeps_quiesceVcore | apply keeps_ok
    | apply keeps_waitCmd | apply Keeps2.snd | refine Keeps2.eq (by assumption) ?_ | intro _
    | (extract_lets +onlyGivenNames x; subst x) | split | fail_if_no_progress beta_reduce | apply Keeps2.mk

theorem keeps_execRegRead (m : Mbx) (s : State) {t : State} (hk : Keeps kr kl s0 s) (e : execRegRead m s = .next t)
    : Keeps kr kl s0 t := by
  unfold execRegRead at e
  injection e with e
  subst e
  with_reducible repeat' first
    | assumption | apply keeps_runRow | apply keeps_ok | apply keeps_bad | apply keeps_discard | apply Keeps2.snd
    | refine Keeps2.eq (by assumption) ?_ | intro _ | (extract_lets +onlyGivenNames x; subst x) | split
    | fail_if_no_progress beta_reduce | apply Keeps2.mk

theorem keeps_execVcoreBind (m : Mbx) (s : State) {t : State} (hk : Keeps kr kl s0 s) (e : execVcoreBind m s = .next
    t) : Keeps kr kl s0 t := by
  unfold execVcoreBind at e
  injection e with e
  subst e
  with_reducible repeat' first
    | assumption | apply keeps_runRow | apply keeps_zoneEntry | apply keeps_bad | apply keeps_ok | apply keeps_updVcore
    | apply Keeps2.snd | refine Keeps2.eq (by assumption) ?_ | exact repKeeps_rep | intro _
    | (extract_lets +onlyGivenNames x; subst x) | split | fail_if_no_progress beta_reduce | apply Keeps2.mk

theorem keeps_execIdentity (m : Mbx) (s : State) {t : State} (hk : Keeps kr kl s0 s) (e : execIdentity m s = .next
    t) : Keeps kr kl s0 t := by
  unfold execIdentity at e
  injection e with e
  subst e
  with_reducible repeat' first
    | assumption | apply keeps_runRow | apply keeps_ok | apply Keeps2.snd | refine Keeps2.eq (by assumption) ?_
    | intro _ | (extract_lets +onlyGivenNames x; subst x) | split | fail_if_no_progress beta_reduce | apply Keeps2.mk

theorem keeps_execZoneStatus (m : Mbx) (s : State) {t : State} (hk : Keeps kr kl s0 s) (e : execZoneStatus m s =
    .next t) : Keeps kr kl s0 t := by
  unfold execZoneStatus at e
  injection e with e
  subst e
  with_reducible repeat' first
    | assumption | apply keeps_runRow | apply keeps_bad | apply keeps_ok | apply Keeps2.snd
    | refine Keeps2.eq (by assumption) ?_ | intro _ | (extract_lets +onlyGivenNames x; subst x) | split
    | fail_if_no_progress beta_reduce | apply Keeps2.mk

theorem keeps_execImageRead (m : Mbx) (s : State) {t : State} (hk : Keeps kr kl s0 s) (e : execImageRead m s = .next
    t) : Keeps kr kl s0 t := by
  unfold execImageRead at e
  injection e with e
  subst e
  with_reducible repeat' first
    | assumption | apply keeps_runRow | apply keeps_bad | apply keeps_cmdPut | apply keeps_nextFree | apply keeps_ok
    | apply Keeps2.snd | refine Keeps2.eq (by assumption) ?_ | intro _ | (extract_lets +onlyGivenNames x; subst x)
    | split | fail_if_no_progress beta_reduce | apply Keeps2.mk

theorem keeps_execImageRelease (m : Mbx) (s : State) {t : State} (hk : Keeps kr kl s0 s) (e : execImageRelease m s =
    .next t) : Keeps kr kl s0 t := by
  unfold execImageRelease at e
  injection e with e
  subst e
  with_reducible repeat' first
    | assumption | apply keeps_runRow | apply keeps_bad | apply keeps_ok | apply Keeps2.snd
    | refine Keeps2.eq (by assumption) ?_ | fail_if_no_progress (refine Keeps.made ?_ rfl rfl rfl rfl rfl) | intro _
    | (extract_lets +onlyGivenNames x; subst x) | split | fail_if_no_progress beta_reduce | apply Keeps2.mk

theorem keeps_execRegWrite (m : Mbx) (s : State) {t : State} (hk : Keeps kr kl s0 s) (e : execRegWrite m s = .next
    t) : Keeps kr kl s0 t := by
  unfold execRegWrite at e
  injection e with e
  subst e
  with_reducible repeat' first
    | assumption | apply keeps_runRow | apply keeps_writeLocal | apply keeps_ok | apply keeps_bad | apply keeps_discard
    | exact KeepsO.none | apply KeepsO.some | apply Keeps.getD | refine KeepsO.map ?_ | apply Keeps2.snd
    | refine Keeps2.eq (by assumption) ?_ | refine KeepsO.eq (by assumption) ?_ | intro _
    | (extract_lets +onlyGivenNames x; subst x) | split | fail_if_no_progress beta_reduce | apply Keeps2.mk

theorem keeps_execZoneCreate (m : Mbx) (s : State) {t : State} (hk : Keeps kr kl s0 s) (e : execZoneCreate m s =
    .next t) : Keeps kr kl s0 t := by
  unfold execZoneCreate at e
  injection e with e
  subst e
  with_reducible repeat' first
    | assumption | apply keeps_runRow | apply keeps_bad | apply keeps_ok | apply keeps_setZoneState | apply Keeps2.snd
    | refine Keeps2.eq (by assumption) ?_ | intro _ | (extract_lets +onlyGivenNames x; subst x) | split
    | fail_if_no_progress beta_reduce | apply Keeps2.mk

theorem keeps_execZoneActivate (m : Mbx) (s : State) {t : State} (hk : Keeps kr kl s0 s) (e : execZoneActivate m s =
    .next t) : Keeps kr kl s0 t := by
  unfold execZoneActivate at e
  injection e with e
  subst e
  with_reducible repeat' first
    | assumption | apply keeps_runRow | apply keeps_bad | apply keeps_ok | apply keeps_setZoneState | apply Keeps2.snd
    | refine Keeps2.eq (by assumption) ?_ | intro _ | (extract_lets +onlyGivenNames x; subst x) | split
    | fail_if_no_progress beta_reduce | apply Keeps2.mk

theorem keeps_execZoneStop (m : Mbx) (s : State) {t : State} (hk : Keeps kr kl s0 s) (e : execZoneStop m s = .next
    t) : Keeps kr kl s0 t := by
  unfold execZoneStop at e
  injection e with e
  subst e
  with_reducible repeat' first
    | assumption | apply keeps_runRow | apply keeps_bad | apply keeps_quiesceVcore | apply keeps_waitCmd
    | apply keeps_ok | apply keeps_setZoneState | apply Keeps2.snd | refine Keeps.foldl _ ?_ ?_
    | refine Keeps2.foldl _ ?_ ?_ | refine Keeps2.eq (by assumption) ?_ | intro _
    | (extract_lets +onlyGivenNames x; subst x) | split | fail_if_no_progress beta_reduce | apply Keeps2.mk

theorem keeps_execZoneReset (m : Mbx) (s : State) {t : State} (hk : Keeps kr kl s0 s) (e : execZoneReset m s = .next
    t) : Keeps kr kl s0 t := by
  unfold execZoneReset at e
  injection e with e
  subst e
  with_reducible repeat' first
    | assumption | apply keeps_runRow | apply keeps_bad | apply keeps_requestReset | apply Keeps2.snd
    | refine Keeps2.eq (by assumption) ?_ | intro _ | (extract_lets +onlyGivenNames x; subst x) | split
    | fail_if_no_progress beta_reduce | apply Keeps2.mk

end Sys2Proof.Machine
end

