-- ==== Sys2Proof/Laws/KeepsCoreInt.lean ====
section
/-! SUPPORT. What the operations of CoreInt.lean keep: one lemma for each, in the terms of `Keeps`. -/

set_option linter.unusedTactic false
set_option linter.unreachableTactic false

namespace Sys2Proof.Machine

variable {kr kl : Bool} {s0 : State}

theorem keeps_intSyl (s : State) (sl : Slot) (i : Instr) (f : Bool) (d : Reg) (res : CoreRegs → IntRes) (hk : Keeps
    kr kl s0 s) : Keeps kr kl s0 (intSyl s sl i f d res) := by
  unfold intSyl
  with_reducible repeat' first
    | assumption | apply keeps_regSyl | (extract_lets +onlyGivenNames x; subst x) | split
    | fail_if_no_progress beta_reduce

theorem keeps_execAndn (sl : Slot) (f : Bool) (d a b : Reg) (s : State) {t : State} (hk : Keeps kr kl s0 s) (e :
    execAndn sl f d a b s = .next t) : Keeps kr kl s0 t := by
  unfold execAndn at e
  injection e with e
  subst e
  with_reducible repeat' first
    | assumption | apply keeps_intSyl | (extract_lets +onlyGivenNames x; subst x) | split
    | fail_if_no_progress beta_reduce

theorem keeps_execShl (sl : Slot) (f w : Bool) (d a b : Reg) (s : State) {t : State} (hk : Keeps kr kl s0 s) (e :
    execShl sl f w d a b s = .next t) : Keeps kr kl s0 t := by
  unfold execShl at e
  injection e with e
  subst e
  with_reducible repeat' first
    | assumption | apply keeps_intSyl | (extract_lets +onlyGivenNames x; subst x) | split
    | fail_if_no_progress beta_reduce

theorem keeps_moveSyl (s : State) (sl : Slot) (i : Instr) (d : Reg) (res : CoreRegs → Word) (hk : Keeps kr kl s0 s)
    : Keeps kr kl s0 (moveSyl s sl i d res) := by
  unfold moveSyl
  with_reducible repeat' first
    | assumption | apply keeps_regSyl | (extract_lets +onlyGivenNames x; subst x) | split
    | fail_if_no_progress beta_reduce

theorem keeps_execLdio (sl : Slot) (d : Reg) (h : BitVec 2) (imm : BitVec 16) (s : State) {t : State} (hk : Keeps kr
    kl s0 s) (e : execLdio sl d h imm s = .next t) : Keeps kr kl s0 t := by
  unfold execLdio at e
  injection e with e
  subst e
  with_reducible repeat' first
    | assumption | apply keeps_moveSyl | (extract_lets +onlyGivenNames x; subst x) | split
    | fail_if_no_progress beta_reduce

theorem keeps_execRol (sl : Slot) (f w : Bool) (d a b : Reg) (s : State) {t : State} (hk : Keeps kr kl s0 s) (e :
    execRol sl f w d a b s = .next t) : Keeps kr kl s0 t := by
  unfold execRol at e
  injection e with e
  subst e
  with_reducible repeat' first
    | assumption | apply keeps_intSyl | (extract_lets +onlyGivenNames x; subst x) | split
    | fail_if_no_progress beta_reduce

theorem keeps_execSxtb (sl : Slot) (d a : Reg) (s : State) {t : State} (hk : Keeps kr kl s0 s) (e : execSxtb sl d a
    s = .next t) : Keeps kr kl s0 t := by
  unfold execSxtb at e
  injection e with e
  subst e
  with_reducible repeat' first
    | assumption | apply keeps_moveSyl | (extract_lets +onlyGivenNames x; subst x) | split
    | fail_if_no_progress beta_reduce

theorem keeps_execXori (sl : Slot) (d a : Reg) (imm : BitVec 10) (s : State) {t : State} (hk : Keeps kr kl s0 s) (e
    : execXori sl d a imm s = .next t) : Keeps kr kl s0 t := by
  unfold execXori at e
  injection e with e
  subst e
  with_reducible repeat' first
    | assumption | apply keeps_moveSyl | (extract_lets +onlyGivenNames x; subst x) | split
    | fail_if_no_progress beta_reduce

theorem keeps_execMinu (sl : Slot) (f : Bool) (d a b : Reg) (s : State) {t : State} (hk : Keeps kr kl s0 s) (e :
    execMinu sl f d a b s = .next t) : Keeps kr kl s0 t := by
  unfold execMinu at e
  injection e with e
  subst e
  with_reducible repeat' first
    | assumption | apply keeps_intSyl | (extract_lets +onlyGivenNames x; subst x) | split
    | fail_if_no_progress beta_reduce

theorem keeps_execSal (sl : Slot) (f w : Bool) (d a b : Reg) (s : State) {t : State} (hk : Keeps kr kl s0 s) (e :
    execSal sl f w d a b s = .next t) : Keeps kr kl s0 t := by
  unfold execSal at e
  injection e with e
  subst e
  with_reducible repeat' first
    | assumption | apply keeps_intSyl | (extract_lets +onlyGivenNames x; subst x) | split
    | fail_if_no_progress beta_reduce

theorem keeps_execClz (sl : Slot) (d a : Reg) (s : State) {t : State} (hk : Keeps kr kl s0 s) (e : execClz sl d a s
    = .next t) : Keeps kr kl s0 t := by
  unfold execClz at e
  injection e with e
  subst e
  with_reducible repeat' first
    | assumption | apply keeps_moveSyl | (extract_lets +onlyGivenNames x; subst x) | split
    | fail_if_no_progress beta_reduce

theorem keeps_execSbc (sl : Slot) (f : Bool) (d a b : Reg) (s : State) {t : State} (hk : Keeps kr kl s0 s) (e :
    execSbc sl f d a b s = .next t) : Keeps kr kl s0 t := by
  unfold execSbc at e
  injection e with e
  subst e
  with_reducible repeat' first
    | assumption | apply keeps_intSyl | (extract_lets +onlyGivenNames x; subst x) | split
    | fail_if_no_progress beta_reduce

theorem keeps_execDivu (sl : Slot) (f : Bool) (d a b : Reg) (s : State) {t : State} (hk : Keeps kr kl s0 s) (e :
    execDivu sl f d a b s = .next t) : Keeps kr kl s0 t := by
  unfold execDivu at e
  injection e with e
  subst e
  with_reducible repeat' first
    | assumption | apply keeps_intSyl | (extract_lets +onlyGivenNames x; subst x) | split
    | fail_if_no_progress beta_reduce

theorem keeps_execRor (sl : Slot) (f w : Bool) (d a b : Reg) (s : State) {t : State} (hk : Keeps kr kl s0 s) (e :
    execRor sl f w d a b s = .next t) : Keeps kr kl s0 t := by
  unfold execRor at e
  injection e with e
  subst e
  with_reducible repeat' first
    | assumption | apply keeps_intSyl | (extract_lets +onlyGivenNames x; subst x) | split
    | fail_if_no_progress beta_reduce

theorem keeps_execSxtw (sl : Slot) (d a : Reg) (s : State) {t : State} (hk : Keeps kr kl s0 s) (e : execSxtw sl d a
    s = .next t) : Keeps kr kl s0 t := by
  unfold execSxtw at e
  injection e with e
  subst e
  with_reducible repeat' first
    | assumption | apply keeps_moveSyl | (extract_lets +onlyGivenNames x; subst x) | split
    | fail_if_no_progress beta_reduce

theorem keeps_execRems (sl : Slot) (f : Bool) (d a b : Reg) (s : State) {t : State} (hk : Keeps kr kl s0 s) (e :
    execRems sl f d a b s = .next t) : Keeps kr kl s0 t := by
  unfold execRems at e
  injection e with e
  subst e
  with_reducible repeat' first
    | assumption | apply keeps_intSyl | (extract_lets +onlyGivenNames x; subst x) | split
    | fail_if_no_progress beta_reduce

theorem keeps_execZxtb (sl : Slot) (d a : Reg) (s : State) {t : State} (hk : Keeps kr kl s0 s) (e : execZxtb sl d a
    s = .next t) : Keeps kr kl s0 t := by
  unfold execZxtb at e
  injection e with e
  subst e
  with_reducible repeat' first
    | assumption | apply keeps_moveSyl | (extract_lets +onlyGivenNames x; subst x) | split
    | fail_if_no_progress beta_reduce

theorem keeps_execSubi (sl : Slot) (f : Bool) (d a : Reg) (imm : BitVec 10) (s : State) {t : State} (hk : Keeps kr
    kl s0 s) (e : execSubi sl f d a imm s = .next t) : Keeps kr kl s0 t := by
  unfold execSubi at e
  injection e with e
  subst e
  with_reducible repeat' first
    | assumption | apply keeps_intSyl | (extract_lets +onlyGivenNames x; subst x) | split
    | fail_if_no_progress beta_reduce

theorem keeps_execShi (sl : Slot) (f : Bool) (d a : Reg) (imm : BitVec 10) (s : State) {t : State} (hk : Keeps kr kl
    s0 s) (e : execShi sl f d a imm s = .next t) : Keeps kr kl s0 t := by
  unfold execShi at e
  injection e with e
  subst e
  with_reducible repeat' first
    | assumption | apply keeps_intSyl | (extract_lets +onlyGivenNames x; subst x) | split
    | fail_if_no_progress beta_reduce

theorem keeps_execMaxu (sl : Slot) (f : Bool) (d a b : Reg) (s : State) {t : State} (hk : Keeps kr kl s0 s) (e :
    execMaxu sl f d a b s = .next t) : Keeps kr kl s0 t := by
  unfold execMaxu at e
  injection e with e
  subst e
  with_reducible repeat' first
    | assumption | apply keeps_intSyl | (extract_lets +onlyGivenNames x; subst x) | split
    | fail_if_no_progress beta_reduce

theorem keeps_execAddi (sl : Slot) (f : Bool) (d a : Reg) (imm : BitVec 10) (s : State) {t : State} (hk : Keeps kr
    kl s0 s) (e : execAddi sl f d a imm s = .next t) : Keeps kr kl s0 t := by
  unfold execAddi at e
  injection e with e
  subst e
  with_reducible repeat' first
    | assumption | apply keeps_intSyl | (extract_lets +onlyGivenNames x; subst x) | split
    | fail_if_no_progress beta_reduce

theorem keeps_execAbs (sl : Slot) (f : Bool) (d a : Reg) (s : State) {t : State} (hk : Keeps kr kl s0 s) (e :
    execAbs sl f d a s = .next t) : Keeps kr kl s0 t := by
  unfold execAbs at e
  injection e with e
  subst e
  with_reducible repeat' first
    | assumption | apply keeps_intSyl | (extract_lets +onlyGivenNames x; subst x) | split
    | fail_if_no_progress beta_reduce

theorem keeps_execIns (sl : Slot) (d : Reg) (h : BitVec 2) (imm : BitVec 16) (s : State) {t : State} (hk : Keeps kr
    kl s0 s) (e : execIns sl d h imm s = .next t) : Keeps kr kl s0 t := by
  unfold execIns at e
  injection e with e
  subst e
  with_reducible repeat' first
    | assumption | apply keeps_moveSyl | (extract_lets +onlyGivenNames x; subst x) | split
    | fail_if_no_progress beta_reduce

theorem keeps_execPopc (sl : Slot) (d a : Reg) (s : State) {t : State} (hk : Keeps kr kl s0 s) (e : execPopc sl d a
    s = .next t) : Keeps kr kl s0 t := by
  unfold execPopc at e
  injection e with e
  subst e
  with_reducible repeat' first
    | assumption | apply keeps_moveSyl | (extract_lets +onlyGivenNames x; subst x) | split
    | fail_if_no_progress beta_reduce

theorem keeps_execBswap (sl : Slot) (d a : Reg) (s : State) {t : State} (hk : Keeps kr kl s0 s) (e : execBswap sl d
    a s = .next t) : Keeps kr kl s0 t := by
  unfold execBswap at e
  injection e with e
  subst e
  with_reducible repeat' first
    | assumption | apply keeps_moveSyl | (extract_lets +onlyGivenNames x; subst x) | split
    | fail_if_no_progress beta_reduce

theorem keeps_execMulhu (sl : Slot) (f : Bool) (d a b : Reg) (s : State) {t : State} (hk : Keeps kr kl s0 s) (e :
    execMulhu sl f d a b s = .next t) : Keeps kr kl s0 t := by
  unfold execMulhu at e
  injection e with e
  subst e
  with_reducible repeat' first
    | assumption | apply keeps_intSyl | (extract_lets +onlyGivenNames x; subst x) | split
    | fail_if_no_progress beta_reduce

theorem keeps_execAndi (sl : Slot) (d a : Reg) (imm : BitVec 10) (s : State) {t : State} (hk : Keeps kr kl s0 s) (e
    : execAndi sl d a imm s = .next t) : Keeps kr kl s0 t := by
  unfold execAndi at e
  injection e with e
  subst e
  with_reducible repeat' first
    | assumption | apply keeps_moveSyl | (extract_lets +onlyGivenNames x; subst x) | split
    | fail_if_no_progress beta_reduce

theorem keeps_execMin (sl : Slot) (f : Bool) (d a b : Reg) (s : State) {t : State} (hk : Keeps kr kl s0 s) (e :
    execMin sl f d a b s = .next t) : Keeps kr kl s0 t := by
  unfold execMin at e
  injection e with e
  subst e
  with_reducible repeat' first
    | assumption | apply keeps_intSyl | (extract_lets +onlyGivenNames x; subst x) | split
    | fail_if_no_progress beta_reduce

theorem keeps_execMulhs (sl : Slot) (f : Bool) (d a b : Reg) (s : State) {t : State} (hk : Keeps kr kl s0 s) (e :
    execMulhs sl f d a b s = .next t) : Keeps kr kl s0 t := by
  unfold execMulhs at e
  injection e with e
  subst e
  with_reducible repeat' first
    | assumption | apply keeps_intSyl | (extract_lets +onlyGivenNames x; subst x) | split
    | fail_if_no_progress beta_reduce

theorem keeps_execRemu (sl : Slot) (f : Bool) (d a b : Reg) (s : State) {t : State} (hk : Keeps kr kl s0 s) (e :
    execRemu sl f d a b s = .next t) : Keeps kr kl s0 t := by
  unfold execRemu at e
  injection e with e
  subst e
  with_reducible repeat' first
    | assumption | apply keeps_intSyl | (extract_lets +onlyGivenNames x; subst x) | split
    | fail_if_no_progress beta_reduce

theorem keeps_execAdc (sl : Slot) (f : Bool) (d a b : Reg) (s : State) {t : State} (hk : Keeps kr kl s0 s) (e :
    execAdc sl f d a b s = .next t) : Keeps kr kl s0 t := by
  unfold execAdc at e
  injection e with e
  subst e
  with_reducible repeat' first
    | assumption | apply keeps_intSyl | (extract_lets +onlyGivenNames x; subst x) | split
    | fail_if_no_progress beta_reduce

theorem keeps_execSel (sl : Slot) (c : BitVec 4) (d a b : Reg) (s : State) {t : State} (hk : Keeps kr kl s0 s) (e :
    execSel sl c d a b s = .next t) : Keeps kr kl s0 t := by
  unfold execSel at e
  injection e with e
  subst e
  with_reducible repeat' first
    | assumption | apply keeps_moveSyl | (extract_lets +onlyGivenNames x; subst x) | split
    | fail_if_no_progress beta_reduce

theorem keeps_execZxtw (sl : Slot) (d a : Reg) (s : State) {t : State} (hk : Keeps kr kl s0 s) (e : execZxtw sl d a
    s = .next t) : Keeps kr kl s0 t := by
  unfold execZxtw at e
  injection e with e
  subst e
  with_reducible repeat' first
    | assumption | apply keeps_moveSyl | (extract_lets +onlyGivenNames x; subst x) | split
    | fail_if_no_progress beta_reduce

theorem keeps_execSub (sl : Slot) (f : Bool) (d a b : Reg) (s : State) {t : State} (hk : Keeps kr kl s0 s) (e :
    execSub sl f d a b s = .next t) : Keeps kr kl s0 t := by
  unfold execSub at e
  injection e with e
  subst e
  with_reducible repeat' first
    | assumption | apply keeps_intSyl | (extract_lets +onlyGivenNames x; subst x) | split
    | fail_if_no_progress beta_reduce

theorem keeps_execOr (sl : Slot) (f : Bool) (d a b : Reg) (s : State) {t : State} (hk : Keeps kr kl s0 s) (e :
    execOr sl f d a b s = .next t) : Keeps kr kl s0 t := by
  unfold execOr at e
  injection e with e
  subst e
  with_reducible repeat' first
    | assumption | apply keeps_intSyl | (extract_lets +onlyGivenNames x; subst x) | split
    | fail_if_no_progress beta_reduce

theorem keeps_execMax (sl : Slot) (f : Bool) (d a b : Reg) (s : State) {t : State} (hk : Keeps kr kl s0 s) (e :
    execMax sl f d a b s = .next t) : Keeps kr kl s0 t := by
  unfold execMax at e
  injection e with e
  subst e
  with_reducible repeat' first
    | assumption | apply keeps_intSyl | (extract_lets +onlyGivenNames x; subst x) | split
    | fail_if_no_progress beta_reduce

theorem keeps_execShr (sl : Slot) (f w : Bool) (d a b : Reg) (s : State) {t : State} (hk : Keeps kr kl s0 s) (e :
    execShr sl f w d a b s = .next t) : Keeps kr kl s0 t := by
  unfold execShr at e
  injection e with e
  subst e
  with_reducible repeat' first
    | assumption | apply keeps_intSyl | (extract_lets +onlyGivenNames x; subst x) | split
    | fail_if_no_progress beta_reduce

theorem keeps_execZxth (sl : Slot) (d a : Reg) (s : State) {t : State} (hk : Keeps kr kl s0 s) (e : execZxth sl d a
    s = .next t) : Keeps kr kl s0 t := by
  unfold execZxth at e
  injection e with e
  subst e
  with_reducible repeat' first
    | assumption | apply keeps_moveSyl | (extract_lets +onlyGivenNames x; subst x) | split
    | fail_if_no_progress beta_reduce

theorem keeps_execMul (sl : Slot) (f : Bool) (d a b : Reg) (s : State) {t : State} (hk : Keeps kr kl s0 s) (e :
    execMul sl f d a b s = .next t) : Keeps kr kl s0 t := by
  unfold execMul at e
  injection e with e
  subst e
  with_reducible repeat' first
    | assumption | apply keeps_intSyl | (extract_lets +onlyGivenNames x; subst x) | split
    | fail_if_no_progress beta_reduce

theorem keeps_execSxth (sl : Slot) (d a : Reg) (s : State) {t : State} (hk : Keeps kr kl s0 s) (e : execSxth sl d a
    s = .next t) : Keeps kr kl s0 t := by
  unfold execSxth at e
  injection e with e
  subst e
  with_reducible repeat' first
    | assumption | apply keeps_moveSyl | (extract_lets +onlyGivenNames x; subst x) | split
    | fail_if_no_progress beta_reduce

theorem keeps_execOri (sl : Slot) (d a : Reg) (imm : BitVec 10) (s : State) {t : State} (hk : Keeps kr kl s0 s) (e :
    execOri sl d a imm s = .next t) : Keeps kr kl s0 t := by
  unfold execOri at e
  injection e with e
  subst e
  with_reducible repeat' first
    | assumption | apply keeps_moveSyl | (extract_lets +onlyGivenNames x; subst x) | split
    | fail_if_no_progress beta_reduce

theorem keeps_execXor (sl : Slot) (f : Bool) (d a b : Reg) (s : State) {t : State} (hk : Keeps kr kl s0 s) (e :
    execXor sl f d a b s = .next t) : Keeps kr kl s0 t := by
  unfold execXor at e
  injection e with e
  subst e
  with_reducible repeat' first
    | assumption | apply keeps_intSyl | (extract_lets +onlyGivenNames x; subst x) | split
    | fail_if_no_progress beta_reduce

theorem keeps_execNeg (sl : Slot) (f : Bool) (d a : Reg) (s : State) {t : State} (hk : Keeps kr kl s0 s) (e :
    execNeg sl f d a s = .next t) : Keeps kr kl s0 t := by
  unfold execNeg at e
  injection e with e
  subst e
  with_reducible repeat' first
    | assumption | apply keeps_intSyl | (extract_lets +onlyGivenNames x; subst x) | split
    | fail_if_no_progress beta_reduce

theorem keeps_execCtz (sl : Slot) (d a : Reg) (s : State) {t : State} (hk : Keeps kr kl s0 s) (e : execCtz sl d a s
    = .next t) : Keeps kr kl s0 t := by
  unfold execCtz at e
  injection e with e
  subst e
  with_reducible repeat' first
    | assumption | apply keeps_moveSyl | (extract_lets +onlyGivenNames x; subst x) | split
    | fail_if_no_progress beta_reduce

theorem keeps_execDivs (sl : Slot) (f : Bool) (d a b : Reg) (s : State) {t : State} (hk : Keeps kr kl s0 s) (e :
    execDivs sl f d a b s = .next t) : Keeps kr kl s0 t := by
  unfold execDivs at e
  injection e with e
  subst e
  with_reducible repeat' first
    | assumption | apply keeps_intSyl | (extract_lets +onlyGivenNames x; subst x) | split
    | fail_if_no_progress beta_reduce

theorem keeps_execAnd (sl : Slot) (f : Bool) (d a b : Reg) (s : State) {t : State} (hk : Keeps kr kl s0 s) (e :
    execAnd sl f d a b s = .next t) : Keeps kr kl s0 t := by
  unfold execAnd at e
  injection e with e
  subst e
  with_reducible repeat' first
    | assumption | apply keeps_intSyl | (extract_lets +onlyGivenNames x; subst x) | split
    | fail_if_no_progress beta_reduce

theorem keeps_execSar (sl : Slot) (f w : Bool) (d a b : Reg) (s : State) {t : State} (hk : Keeps kr kl s0 s) (e :
    execSar sl f w d a b s = .next t) : Keeps kr kl s0 t := by
  unfold execSar at e
  injection e with e
  subst e
  with_reducible repeat' first
    | assumption | apply keeps_intSyl | (extract_lets +onlyGivenNames x; subst x) | split
    | fail_if_no_progress beta_reduce

theorem keeps_execAdd (sl : Slot) (f : Bool) (d a b : Reg) (s : State) {t : State} (hk : Keeps kr kl s0 s) (e :
    execAdd sl f d a b s = .next t) : Keeps kr kl s0 t := by
  unfold execAdd at e
  injection e with e
  subst e
  with_reducible repeat' first
    | assumption | apply keeps_intSyl | (extract_lets +onlyGivenNames x; subst x) | split
    | fail_if_no_progress beta_reduce

theorem keeps_execLdiz (sl : Slot) (d : Reg) (h : BitVec 2) (imm : BitVec 16) (s : State) {t : State} (hk : Keeps kr
    kl s0 s) (e : execLdiz sl d h imm s = .next t) : Keeps kr kl s0 t := by
  unfold execLdiz at e
  injection e with e
  subst e
  with_reducible repeat' first
    | assumption | apply keeps_moveSyl | (extract_lets +onlyGivenNames x; subst x) | split
    | fail_if_no_progress beta_reduce

end Sys2Proof.Machine
end

