-- ==== Sys2Proof/Laws/KeepsRelraxRows.lean ====
section
/-! SUPPORT. What the operations of RelraxRows.lean keep: one lemma for each, in the terms of `Keeps`. -/

set_option linter.unusedTactic false
set_option linter.unreachableTactic false

namespace Sys2Proof.Machine

variable {kr kl : Bool} {s0 : State}

theorem keeps_execRelraxCommandDone (m : Mbx) (s : State) {t : State} (hk : Keeps kr false s0 s) (e :
    execRelraxCommandDone m s = .next t) : Keeps kr false s0 t := by
  unfold execRelraxCommandDone at e
  injection e with e
  subst e
  with_reducible repeat' first
    | assumption | apply keeps_completeCmd | apply keeps_mainOff | apply keeps_endMainCmds
    | fail_if_no_progress (refine Keeps.made ?_ rfl rfl rfl rfl rfl) | (extract_lets +onlyGivenNames x; subst x)
    | split | fail_if_no_progress beta_reduce

theorem keeps_execMbxForwardResend (s : State) {t : State} (hk : Keeps kr kl s0 s) (e : execMbxForwardResend s =
    .next t) : Keeps kr kl s0 t := by
  unfold execMbxForwardResend at e
  injection e with e
  subst e
  with_reducible repeat' first
    | assumption | apply keeps_send | refine Keeps.foldl _ ?_ ?_
    | fail_if_no_progress (refine Keeps.made ?_ rfl rfl rfl rfl rfl) | intro _
    | (extract_lets +onlyGivenNames x; subst x) | split | fail_if_no_progress beta_reduce

theorem keeps_takeResult (s : State) (stamp : Word) (ws : List Word) (hk : Keeps kr kl s0 s) : Keeps kr kl s0
    (takeResult s stamp ws) := by
  unfold takeResult
  with_reducible repeat' first
    | assumption | apply keeps_setOutcome | fail_if_no_progress (refine Keeps.made ?_ rfl rfl rfl rfl rfl)
    | (extract_lets +onlyGivenNames x; subst x) | split | fail_if_no_progress beta_reduce

theorem keeps_execMbxTargetTimeout (stamp : Word) (s : State) {t : State} (hk : Keeps kr kl s0 s) (e :
    execMbxTargetTimeout stamp s = .next t) : Keeps kr kl s0 t := by
  unfold execMbxTargetTimeout at e
  injection e with e
  subst e
  with_reducible repeat' first
    | assumption | apply keeps_setOutcome | fail_if_no_progress (refine Keeps.made ?_ rfl rfl rfl rfl rfl)
    | (extract_lets +onlyGivenNames x; subst x) | split | fail_if_no_progress beta_reduce

theorem keeps_takeRemote (s : State) (msg : MbxMsg) (hk : Keeps kr kl s0 s) : Keeps kr kl s0 (takeRemote s msg) :=
    by
  unfold takeRemote
  with_reducible repeat' first
    | assumption | apply keeps_joinStep | apply keeps_sendFlit | apply keeps_acceptCmd
    | fail_if_no_progress (refine Keeps.made ?_ rfl rfl rfl rfl rfl) | (extract_lets +onlyGivenNames x; subst x)
    | split | fail_if_no_progress beta_reduce

theorem keeps_execMbx (msg : MbxMsg) (s : State) {t : State} (hk : Keeps kr kl s0 s) (e : execMbx msg s = .next t) :
    Keeps kr kl s0 t := by
  unfold execMbx at e
  injection e with e
  subst e
  with_reducible repeat' first
    | assumption | apply keeps_takeResult | apply keeps_takeRemote | (extract_lets +onlyGivenNames x; subst x) | split
    | fail_if_no_progress beta_reduce

theorem keeps_execMbxDbRing (m : Mbx) (q : IoReq) (v : Word) (s : State) {t : State} (hk : Keeps kr kl s0 s) (e :
    execMbxDbRing m q v s = .next t) : Keeps kr kl s0 t := by
  unfold execMbxDbRing at e
  injection e with e
  subst e
  with_reducible repeat' first
    | assumption | apply keeps_boxWrite | apply keeps_bondedBoxWrite | exact KeepsO.none | apply KeepsO.some
    | apply Keeps.getD | refine KeepsO.map ?_ | refine KeepsO.eq (by assumption) ?_ | intro _
    | (extract_lets +onlyGivenNames x; subst x) | split | fail_if_no_progress beta_reduce

theorem keeps_execMbzDbRing (q : IoReq) (zone : ℕ) (v : Word) (s : State) {t : State} (hk : Keeps kr kl s0 s) (e :
    execMbzDbRing q zone v s = .next t) : Keeps kr kl s0 t := by
  unfold execMbzDbRing at e
  injection e with e
  subst e
  with_reducible repeat' first
    | assumption | apply keeps_mainReg | apply keeps_writeRingDb | (extract_lets +onlyGivenNames x; subst x) | split
    | fail_if_no_progress beta_reduce

theorem keeps_execMbzRingWrite (q : IoReq) (zone : ℕ) (v : Word) (s : State) {t : State} (hk : Keeps kr kl s0 s) (e
    : execMbzRingWrite q zone v s = .next t) : Keeps kr kl s0 t := by
  unfold execMbzRingWrite at e
  injection e with e
  subst e
  with_reducible repeat' first
    | assumption | apply keeps_mainReg | apply keeps_writeRing | (extract_lets +onlyGivenNames x; subst x) | split
    | fail_if_no_progress beta_reduce

end Sys2Proof.Machine
end

