-- ==== Sys2Proof/Laws/KeepsZone.lean ====
section
/-! SUPPORT. What the operations of Zone.lean keep: one lemma for each, in the terms of `Keeps`. -/

set_option linter.unusedTactic false
set_option linter.unreachableTactic false

namespace Sys2Proof.Machine

variable {kr kl : Bool} {s0 : State}

theorem keeps_execZoneResetStepDone (zone step : ℕ) (s : State) {t : State} (hk : Keeps kr kl s0 s) (e :
    execZoneResetStepDone zone step s = .next t) : Keeps kr kl s0 t := by
  unfold execZoneResetStepDone at e
  injection e with e
  subst e
  with_reducible repeat' first
    | assumption | apply keeps_send | apply keeps_endResetHere | apply keeps_finishReset | apply keeps_startResetStep
    | apply keeps_tellStep | (extract_lets +onlyGivenNames x; subst x) | split | fail_if_no_progress beta_reduce

theorem keeps_execZoneResetStepBudget (zone : ℕ) (s : State) {t : State} (hk : Keeps kr kl s0 s) (e :
    execZoneResetStepBudget zone s = .next t) : Keeps kr kl s0 t := by
  unfold execZoneResetStepBudget at e
  injection e with e
  subst e
  with_reducible repeat' first
    | assumption | apply keeps_freeOp | apply keeps_holdEntry | refine Keeps.foldl _ ?_ ?_
    | refine Keeps2.foldl _ ?_ ?_ | fail_if_no_progress (refine Keeps.made ?_ rfl rfl rfl rfl rfl) | intro _
    | (extract_lets +onlyGivenNames x; subst x) | split | fail_if_no_progress beta_reduce

theorem keeps_execZwSend (q : IoReq) (zone : ℕ) (v : Word) (s : State) {t : State} (hk : Keeps kr kl s0 s) (e :
    execZwSend q zone v s = .next t) : Keeps kr kl s0 t := by
  unfold execZwSend at e
  injection e with e
  subst e
  with_reducible repeat' first
    | assumption | apply keeps_mainReg | apply keeps_sendZw | (extract_lets +onlyGivenNames x; subst x) | split
    | fail_if_no_progress beta_reduce

theorem keeps_execRingHeadReread (zone : ℕ) (s : State) {t : State} (hk : Keeps kr kl s0 s) (e : execRingHeadReread
    zone s = .next t) : Keeps kr kl s0 t := by
  unfold execRingHeadReread at e
  injection e with e
  subst e
  with_reducible repeat' first
    | assumption | apply keeps_postRing | apply keeps_updZone | refine Keeps.foldl _ ?_ ?_ | exact repKeeps_rep
    | intro _ | (extract_lets +onlyGivenNames x; subst x) | split | fail_if_no_progress beta_reduce

end Sys2Proof.Machine
end

