-- ==== Sys2Proof/Machine/Layout.lean ====
section
/-! DEFINITION. How the machine's parts stand in words: the regions of a module's memory and what the home's private port
reads there, directory entries, the positions of lines in a channel, flit headers, route words and frames (R220, R234 to
R238, R241, R253, R255, R270, R297, R298). -/

namespace Sys2Proof.Machine

/-! ## Regions of the local offsets (R234) -/

/-- A region of a module's offsets. -/
inductive Region where
  | usable | directory | service | shadow | absent
  deriving DecidableEq, Repr

/-- The first offset of the directory region; the service region and the shadow follow it. -/
def dirBase (s : State) : Nat := usableBytes s
def serviceBase (s : State) : Nat := dirBase s + 16 * 2 ^ 30
def shadowBase (s : State) : Nat := serviceBase s + 16 * 2 ^ 30
def memoryEnd (s : State) : Nat := shadowBase s + (if s.part.oneTib then 32 else 64) * 2 ^ 30

def regionOf (s : State) (off : Nat) : Region :=
  if off < dirBase s then .usable
  else if off < serviceBase s then .directory
  else if off < shadowBase s then .service
  else if off < memoryEnd s then .shadow
  else .absent

/-! ## Channels (R241) -/

/-- The position of a frame offset within its channel: f[40:13] and f[6:0]. -/
def chanPos (f : Nat) : Nat := f / 2 ^ 13 % 2 ^ 28 * 2 ^ 7 + f % 2 ^ 7

/-- Bytes of a channel's raw storage that hold lines, and that hold check bytes. -/
def chanLines (s : State) : Nat := (if s.part.oneTib then 31 else 62) * 2 ^ 29
def chanShadow (s : State) : Nat := (if s.part.oneTib then 1 else 2) * 2 ^ 29

/-- Where the four check bytes of a line stand in the shadow of its channel. -/
def checkPos (s : State) (f : Nat) : Nat := chanLines s + f / 2 ^ 13 % 2 ^ 28 * 4

/-! ## The directory (R219, R220) -/

/-- The quadrant mask that an entry's sharers give a device. -/
def sharerMask (e : DirEntry) (dev : Nat) : Nat :=
  (e.sharers.filter (fun a => a.dev == dev)).foldl (fun m a => m ||| 2 ^ a.quad) 0

/-- One pointer of an entry. -/
def pointerWord (e : DirEntry) (dev : Nat) : Nat := 2 ^ 31 + sharerMask e dev % 16 * 2 ^ 16 + dev % 65536

/-- The eight words of a valid entry. -/
def dirWords (s : State) (li : Nat) (e : DirEntry) : List Word :=
  let devs := pointedDevs s e
  let ptr := fun (i : Nat) => match devs[i]? with | some d => pointerWord e d | none => 0
  let gs := match e.coarse with | some gs => gs | none => []
  let w0 := 2 ^ 63 + e.dstate % 8 * 2 ^ 60 + e.coarse.isSome.toNat * 2 ^ 59 + min 4 devs.length * 2 ^ 56 +
    sharerMask e s.devId % 16 * 2 ^ 52 + li % 2 ^ 34
  let w1 := if e.dstate = 1 then 0 else e.owner.dev % 65536 * 2 ^ 48 + e.owner.quad % 4 * 2 ^ 46
  let vec := (List.range 4).map (fun k =>
    BitVec.ofNat 64 (gs.foldl (fun m g => if g / 64 = k then m ||| 2 ^ (g % 64) else m) 0))
  [BitVec.ofNat 64 w0, BitVec.ofNat 64 w1, BitVec.ofNat 64 (ptr 1 * 2 ^ 32 + ptr 0),
    BitVec.ofNat 64 (ptr 3 * 2 ^ 32 + ptr 2)] ++ vec

/-- The entries of a bucket, in the order of their positions (log entry 31). -/
def bucketEntries (s : State) (b : Nat) : List (Nat × DirEntry) := s.home.dir.filter (fun e => bucketOf e.1 == b)

/-- A word of the directory region: entry `o / 64` of the table, its word `o / 8 % 8`. -/
def directoryWord (s : State) (o : Nat) : Word :=
  match (bucketEntries s (o / 512))[o / 64 % 8]? with
  | some (li, e) => wordAt (dirWords s li e) (o / 8 % 8)
  | none => 0

/-! ## The service region (R236, R237) -/

/-- A word whose bit `j` is what a test of `64 i + j` gives. -/
def bitWord (f : Nat → Bool) (i : Nat) : Word :=
  BitVec.ofNat 64 ((List.range 64).foldl (fun a j => a + (f (64 * i + j)).toNat * 2 ^ j) 0)

/-- What the home's private port reads at an offset of the service region under key slot 0: state images, free lists, granule
tags, the granule bitmap, and both copies of the translation table. The journal area and Relrax's own store are those
units' (log entry 196). -/
def serviceWord (s : State) (o : Nat) : Word :=
  if o < 0x800000 then
    match Assoc.get s.sxt.images (o / 0x4000) with
    | some im => wordAt (imageOf s (o / 0x4000) im false) (o % 0x4000 / 8)
    | none => 0
  else if o < 0x810000 then wordAt (listWords (getList s ((o - 0x800000) / 16))) (o / 8 % 2)
  else if 0x900000 ≤ o ∧ o < 0x920000 then bitWord (fun g => granTag s g != 0) ((o - 0x900000) / 8)
  else if 0x10000000 ≤ o ∧ o < 0x20000000 then bitWord (granUsed s.mem) ((o - 0x10000000) / 8)
  else if 0x40000000 ≤ o ∧ o < 0x240000000 then (getPage s ((o - 0x40000000) % 2 ^ 32 / 8)).word
  else 0

/-- The home's private port: a word of the directory or service region; no other agent reaches either (R235). -/
def privateWord (s : State) (off : Nat) : Option Word :=
  match regionOf s off with
  | .directory => some (directoryWord s (off - dirBase s))
  | .service => some (serviceWord s (off - serviceBase s))
  | _ => none

/-! ## Flits (R270, R314, R355) -/

/-- The number of a message within its class: the owning chapters give those of classes 3 and 4, and R283 that of the tree
NACK; R217 names the coherence messages without numbers, so theirs are open. -/
def opNumber (op : FlitOp) : Nat :=
  match op with
  | .treeNack => 0x3F
  | .jmw => 0x01 | .jmack => 0x02 | .jrel => 0x03 | .jrelack => 0x04 | .jdrop => 0x05 | .jhand => 0x06
  | .adwr => 0x10 | .adrd => 0x11 | .addata => 0x12 | .aderr => 0x13 | .adst => 0x14
  | .hello => 0x01 | .origin => 0x02 | .delay => 0x03 | .sync => 0x04 | .heartbeat => 0x05 | .prepare => 0x06
  | .ack => 0x07 | .nack => 0x08 | .abort => 0x09 | .linkdown => 0x0A | .lost => 0x0B | .sweep => 0x0C
  | .takeover => 0x0D | .takeoverAck => 0x0E | .mbx => 0x0F | .report => 0x10 | .join => 0x11
  | .rdShared => Config.coherenceOp 0 % 63 | .rdOwn => Config.coherenceOp 1 % 63
  | .upgrade => Config.coherenceOp 2 % 63 | .rdOnce => Config.coherenceOp 3 % 63
  | .wrLine => Config.coherenceOp 4 % 63 | .wrPart => Config.coherenceOp 5 % 63
  | .cleanLine => Config.coherenceOp 6 % 63 | .invLine => Config.coherenceOp 7 % 63
  | .cleanInvLine => Config.coherenceOp 8 % 63 | .resendReq => Config.coherenceOp 9 % 63
  | .snpFwdS => Config.coherenceOp 10 % 63 | .snpFwdO => Config.coherenceOp 11 % 63
  | .snpInv => Config.coherenceOp 12 % 63 | .snpClean => Config.coherenceOp 13 % 63
  | .snpBack => Config.coherenceOp 14 % 63 | .snpDrop => Config.coherenceOp 15 % 63
  | .data => Config.coherenceOp 16 % 63 | .fwdData => Config.coherenceOp 17 % 63
  | .snpResp => Config.coherenceOp 18 % 63 | .wrBack => Config.coherenceOp 19 % 63
  | .evictClean => Config.coherenceOp 20 % 63 | .wbAck => Config.coherenceOp 21 % 63
  | .cmp => Config.coherenceOp 22 % 63 | .cmpAck => Config.coherenceOp 23 % 63
  | .retry => Config.coherenceOp 24 % 63 | .resend => Config.coherenceOp 25 % 63 | .err => Config.coherenceOp 26 % 63

/-- The two header words of the flit of a packet that has `more` flits after it. -/
def flitHeader (f : Flit) (more : Nat) : List Word :=
  let w0 := flitCls f.op % 8 * 2 ^ 61 + opNumber f.op % 64 * 2 ^ 55 + f.par.toNat * 2 ^ 54 + f.poison.toNat * 2 ^ 53 +
    f.nf.toNat * 2 ^ 52 + f.zone % 4096 * 2 ^ 40 + f.teid % 1024 * 2 ^ 30 + f.steid % 1024 * 2 ^ 20 + f.qmask % 16 * 2 ^ 16 +
    more % 256 * 2 ^ 8 + f.starve.toNat * 2 ^ 7 + f.crv.toNat * 2 ^ 6 + f.credit % 64
  [BitVec.ofNat 64 w0, f.stamp]

/-- The payload of a packet, 16 words to a flit: what it says, then its line. A message that is a line alone is one flit. -/
def flitPayload (f : Flit) : List Word :=
  let line := match f.line with | some l => bytesWords 16 (lineBytes l) | none => []
  if f.words = [] then padTo 16 line
  else ((List.range ((f.words.length + 15) / 16)).flatMap (fun i => padTo 16 (f.words.drop (16 * i)))) ++ line

/-- The 18 words of flit `i` of a packet (R270, R271). -/
def flitWords (f : Flit) (i : Nat) : List Word :=
  flitHeader f (f.more - i) ++ padTo 16 ((flitPayload f).drop (16 * i))

/-! ## Frames (R297, R298) -/

/-- The route word of a flit. -/
def routeWord (f : Flit) : Word :=
  BitVec.ofNat 64 (f.dst % 65536 * 2 ^ 48 + f.src % 65536 * 2 ^ 32 + vcOf f % 16 * 2 ^ 28 + f.orph.toNat * 2 ^ 27 +
    f.det % 8 * 2 ^ 24 + f.rs.toNat * 2 ^ 23 + f.ddir.toNat * 2 ^ 22 + f.hops % 64 * 2 ^ 16 + f.tdst % 65536)

/-- The route word of an empty slot. -/
def emptySlot : Word := 0xF0000000#64

/-- The types of frames. -/
inductive FrameType where
  | data | idle | nak | init
  deriving DecidableEq, Repr

def FrameType.code : FrameType → Nat
  | .data => 0 | .idle => 1 | .nak => 2 | .init => 3

/-- Word 0 of a frame. Virtual channel 15 with count 0 is no credit return. -/
def frameWord (t : FrameType) (fr : Frame) : Word :=
  let ret := fun (i : Nat) => match fr.credits[i]? with
    | some (v, n) => v % 16 * 2 ^ 6 + n % 64
    | none => 15 * 2 ^ 6
  let seq := if t = .data then fr.seq else 0
  BitVec.ofNat 64 (t.code * 2 ^ 60 + seq % 4096 * 2 ^ 48 + fr.ack % 4096 * 2 ^ 36 + ret 0 * 2 ^ 26 + ret 1 * 2 ^ 16 +
    ret 2 * 2 ^ 6)

/-- Bits [63:32] of word 153. -/
def frameSender (fr : Frame) : Nat :=
  (match fr.sender with | some d => d % 65536 * 2 ^ 48 + 2 ^ 43 | none => 0) + fr.port % 16 * 2 ^ 44

/-- The 154 words of a frame whose slots hold these flits: each a packet and the number of its flit. -/
def frameWords (t : FrameType) (fr : Frame) (slots : List (Flit × Nat)) : List Word :=
  let slot := fun (i : Nat) => slots[i]?
  let routes := (List.range 8).map (fun i => match slot i with | some x => routeWord x.1 | none => emptySlot)
  let flits := (List.range 8).flatMap (fun i => match slot i with | some x => flitWords x.1 x.2 | none => List.replicate 18 0)
  let body := frameWord t fr :: routes ++ flits
  let high := frameSender fr
  let crc := crc32c (wordsBytes body ++ leBytes 4 (high / 2 ^ 32))
  body ++ [BitVec.ofNat 64 (high + crc)]

end Sys2Proof.Machine
end

