-- ==== Sys2Proof/WellFormed.lean ====
section
/-! DEFINITION. What a sender can spell: the ranges of the operands of each command. A command outside them names a
unit, a zone or a message field that the complex does not have (R11 to R14, R44, R270, R297, R346, R353, R515). The
step does not ask for it: it is a property that claims may use. -/

namespace Sys2Proof

/-- A module's device ID has 16 bits (R11). -/
def devOk (d : Nat) : Bool := decide (d < 65536)

/-- A zone ID has 12 bits (R435). -/
def zoneOk (z : Nat) : Bool := decide (z < 4096)

def Slot.wf (s : Slot) : Bool := decide (s.core < 272)

def MemOp.wf (m : MemOp) : Bool := m.sl.wf

def IoReq.wf (q : IoReq) : Bool :=
  zoneOk q.zone && decide (q.vcid < 4096) && (match q.core with | some n => decide (n < 272) | none => true)

/-- An access is 1, 2, 4, 8 or 16 bytes wide (R107, R583). -/
def IoAccess.wf (a : IoAccess) : Bool := a.req.wf && [1, 2, 4, 8, 16].contains a.size

def Agent.wf (a : Agent) : Bool := devOk a.dev && decide (a.quad < 4)

/-- A request comes from a quadrant or, as from quadrant 4, from the hub of a module (R217, R268). -/
def CohReq.wf (r : CohReq) : Bool := devOk r.agent.dev && decide (r.agent.quad ≤ 4) && zoneOk r.zone

/-- A symbol error names one of the 132 symbols of a line and an eight-bit difference (R245). -/
def ReadFinding.wf (e : ReadFinding) : Bool := e.flips.all (fun x => decide (x.1 < 132 ∧ x.2 < 256))

def Snoop.wf (m : Snoop) : Bool := decide (m.quad < 4) && devOk m.home && zoneOk m.zone && m.req.wf

def DataMsg.wf (m : DataMsg) : Bool := decide (m.quad ≤ 4) && devOk m.home && zoneOk m.zone

def SnpRespMsg.wf (m : SnpRespMsg) : Bool := m.agent.wf && zoneOk m.zone

def WrBackMsg.wf (m : WrBackMsg) : Bool := m.agent.wf && zoneOk m.zone

/-- The header of a flit (R270) and its route word (R298). -/
def Flit.wf (f : Flit) : Bool :=
  devOk f.dst && devOk f.src && decide (f.teid < 1024) && decide (f.steid < 1024) && zoneOk f.zone && decide (f.qmask < 16) &&
    decide (f.more < 32) && decide (f.credit < 64) && decide (f.det < 8) &&
    decide (f.hops < 64) && devOk f.tdst && (match f.inPort with | some p => decide (p < 12) | none => true) &&
    (match f.hop with | some (r, c) => decide (r ≤ 20 ∧ c < 32000) | none => true)

/-- The fields of a frame (R297); a data frame carries one to eight flits. -/
def Frame.wf (fr : Frame) : Bool :=
  decide (fr.seq < 4096) && decide (fr.ack < 4096) && decide (fr.credits.length ≤ 3) && decide (fr.flits.length ≤ 8) &&
    fr.flits.all Flit.wf && (match fr.sender with | some d => devOk d | none => true) && decide (fr.port < 12)

def LinkCheck.wf : LinkCheck → Bool
  | .replayed q n => decide (q < 4) && decide (1 ≤ n ∧ n ≤ 8)
  | .failed q => decide (q < 4)
  | .header (some q) => decide (q < 4)
  | _ => true

def HelloMsg.wf (m : HelloMsg) : Bool :=
  decide (m.port < 12) && (match m.devId with | some d => devOk d | none => true)

def CfgImage.wf (i : CfgImage) : Bool :=
  decide (i.vintage < 2 ^ 32) && i.linksDown.all (fun e => devOk e.1 && decide (e.2 < 12))

def Straps.wf (s : Straps) : Bool := decide (s.bootSel < 2)

def Readings.wf (r : Readings) : Bool :=
  r.cores.all (fun c => decide (c.core < 272 ∧ c.slacks.length = 4 ∧ c.oscs.length = 2)) &&
    r.lanes.all (fun l => decide (l.port < 14 ∧ l.lane < (if l.port < 12 then 4 else 16)))

/-- A finding names a core's L2, or an L3 slice by its cluster (R191). -/
def WalkFinding.wf (w : WalkFinding) : Bool := decide (w.unit < (if w.l3 then 16 else 272))

def Mbx.wf : Mbx → Bool
  | .ring z => zoneOk z
  | _ => true

def MbxMsg.wf (m : MbxMsg) : Bool := devOk m.origin && decide (m.kind < 4) && zoneOk m.zone

/-- A refusal names one of the reasons of R80. -/
def ReadResult.wf : ReadResult → Bool
  | .refused r => decide (1 ≤ r ∧ r ≤ 6)
  | _ => true

def FetchCause.wf : FetchCause → Bool
  | .refused r => decide (1 ≤ r ∧ r ≤ 6)
  | _ => true

def JRec.wf (r : JRec) : Bool :=
  decide (r.phase ≤ 4) && decide (r.cp < 32) && decide (r.sub < 65536) && zoneOk r.zone && decide (r.mover < 1024)

def StatusRec.wf (r : StatusRec) : Bool :=
  decide (r.seq < 65536) && decide (r.status < 65536) && decide (r.residual < 2 ^ 32)

def Report.wf (r : Report) : Bool :=
  decide (r.source < 0x16) && decide (1 ≤ r.source) && decide (r.cls ≤ 5) && decide (r.reason < 256) && zoneOk r.zone &&
    (match r.quad with | some q => decide (q < 4) | none => true)

def PcieReq.wf (r : PcieReq) : Bool := decide (r.ctl < 2) && decide (r.rid < 65536) && decide (r.bus < 2 ^ 64)

def JtagReq.wf : JtagReq → Bool
  | .debug core _ => decide (core < 272)
  | _ => true

/-- A command whose operands lie in their ranges. -/
def Instr.wf : Instr → Bool
  | .registerWrite a _ => a.wf
  | .merPpsInEdge | .ppsTimeout => true
  | .sync port _ vintage masterId => decide (port < 12) && decide (vintage < 2 ^ 32) && decide (masterId < 65536)
  | .heartbeatInterval => true
  | .heartbeat port vintage digest16 dev role =>
    decide (port < 12) && decide (vintage < 2 ^ 32) && decide (digest16 < 65536) && decide (dev < 65536) && decide (role < 4)
  | .masterMissing | .takeoverRequestTimer => true
  | .takeover candidate vintage => decide (candidate < 65536) && decide (vintage < 2 ^ 32)
  | .takeoverAck dev vintage => decide (dev < 65536) && decide (vintage < 2 ^ 32)
  | .takeoverTimeout => true
  | .prepare vintage _ act _ image => decide (vintage < 2 ^ 32) && decide (act < 2 ^ 64) && image.wf
  | .ack dev vintage | .nack dev vintage => decide (dev < 65536) && decide (vintage < 2 ^ 32)
  | .abortDeadline => true
  | .abort vintage => decide (vintage < 2 ^ 32)
  | .vintageActivation | .managementResend => true
  | .report kind dev => decide (kind < 256) && decide (dev < 65536)
  | .stampWatermark | .linkDelayRemeasure => true
  | .delay port _ t1 t2 t3 =>
    decide (port < 2 ^ 64) && decide (t1 < 2 ^ 64) && decide (t2 < 2 ^ 64) && decide (t3 < 2 ^ 64)
  | .add sl _ _ _ _ | .adc sl _ _ _ _ | .sub sl _ _ _ _ | .sbc sl _ _ _ _ | .and sl _ _ _ _ | .or sl _ _ _ _
  | .xor sl _ _ _ _ | .andn sl _ _ _ _ | .min sl _ _ _ _ | .max sl _ _ _ _ | .minu sl _ _ _ _
  | .maxu sl _ _ _ _ | .neg sl _ _ _ | .abs sl _ _ _ | .shl sl _ _ _ _ _ | .shr sl _ _ _ _ _
  | .sar sl _ _ _ _ _ | .sal sl _ _ _ _ _ | .rol sl _ _ _ _ _ | .ror sl _ _ _ _ _ | .mul sl _ _ _ _
  | .mulhu sl _ _ _ _ | .mulhs sl _ _ _ _ | .divu sl _ _ _ _ | .divs sl _ _ _ _ | .remu sl _ _ _ _
  | .rems sl _ _ _ _ | .sel sl _ _ _ _ | .sxtb sl _ _ | .sxth sl _ _ | .sxtw sl _ _ | .zxtb sl _ _
  | .zxth sl _ _ | .zxtw sl _ _ | .clz sl _ _ | .ctz sl _ _ | .popc sl _ _ | .bswap sl _ _ | .addi sl _ _ _ _
  | .subi sl _ _ _ _ | .andi sl _ _ _ | .ori sl _ _ _ | .xori sl _ _ _ | .shi sl _ _ _ _ | .ins sl _ _ _
  | .ldiz sl _ _ _ | .ldio sl _ _ _ => sl.wf
  | .ldb m | .ldh m | .ldw m | .ldd m | .ldbs m | .ldhs m | .ldws m | .lda m | .stb m | .sth m | .stw m
  | .std m | .sta m | .ldp m | .stp m | .pf m => m.wf
  | .ldrsv sl _ _ _ _ | .stcnd sl _ _ _ _ | .fenceSl sl | .fenceIo sl | .fenceFull sl | .ldseg sl _ _
  | .cmaintByAddress sl _ _ _ | .cmaintByZone sl _ _ | .cmaintGlobal sl _ => sl.wf
  | .cmaintComplete core => decide (core < 272)
  | .b sl _ | .bcc sl _ _ | .br sl _ | .call sl _ | .callr sl _ | .callm sl _ _ | .callmr sl _ _ | .ret sl
  | .retm sl | .far sl _ _ | .svc sl _ | .eret sl | .rep sl _ => sl.wf
  | .repIteration core => decide (core < 272)
  | .mtpcnt sl _ | .mtpcnti sl _ | .mfpcnt sl _ | .mfpsw sl _ | .mtpsw sl _ | .mffcsr sl _ | .mtfcsr sl _
  | .mfctl sl _ _ | .mtctl sl _ _ | .mfsp sl _ _ | .mtsp sl _ _ | .adjsp sl _ | .savectx sl | .restctx sl
  | .wait sl => sl.wf
  | .waitWake core => decide (core < 272)
  | .brk sl _ | .bcall sl _ | .bret sl | .bwdr sl _ | .fadd sl _ _ _ _ | .fsub sl _ _ _ _ | .fmul sl _ _ _ _
  | .fdiv sl _ _ _ _ | .fsqrt sl _ _ _ | .fmin sl _ _ _ _ | .fmax sl _ _ _ _ | .fcmp sl _ _ _ | .fma sl _ _ _ _
  | .fms sl _ _ _ _ | .fnma sl _ _ _ _ | .fcvt sl _ _ _ _ _ | .dadd sl _ _ _ | .dsub sl _ _ _ | .dcmp sl _ _
  | .dtoi sl _ _ | .itod sl _ _ | .accclr sl _ | .accrd sl _ _ | .accwr sl _ _ | .accrnd sl _ _
  | .macm sl _ _ _ _ _ _ => sl.wf
  | .externalInterrupt core | .doorbell core | .storeDrain core => decide (core < 272)
  | .bundleRetry core d => decide (core < 272) && decide (1 ≤ d.row ∧ d.row ≤ 10)
  | .progressMonitorExpiry core => decide (core < 272)
  | .reliefStart core reason => decide (core < 272) && decide (reason < 256)
  | .reliefFlushDone core => decide (core < 272)
  | .sparePowered cluster | .reliefImageArrived cluster _ | .reliefResume cluster => decide (cluster < 16)
  | .sextantWatch r => r.wf
  | .nearCacheFill core _ => decide (core < 272)
  | .nearCtlDisable q core _ | .nearCtlEnable q core _ | .nearCtlPf q core _ => q.wf && decide (core < 272)
  | .nearCleaningDone core => decide (core < 272)
  | .l2L3Walk findings => findings.all WalkFinding.wf
  | .reservationDeferralTimeout core | .wcBufferTimeout core _ => decide (core < 272)
  | .rdshared r e | .rdown r e | .upgrade r e | .rdonce r e => r.wf && e.wf
  | .wrline r _ verify => r.wf && decide (verify < 4)
  | .wrpart r _ _ e => r.wf && e.wf
  | .cleanline r | .invline r | .cleaninvline r => r.wf
  | .resendRequest r _ credit e => r.wf && decide (credit < 64) && e.wf
  | .snpfwds m | .snpfwdo m | .snpinv m | .snpclean m | .snpback m | .snpdrop m | .data m | .fwddata m
  | .snpresp m => m.wf
  | .wrback m verify => m.wf && decide (verify < 4)
  | .evictclean agent _ _ _ => agent.wf
  | .wback quad _ => decide (quad < 4)
  | .cmp quad _ _ => decide (quad ≤ 4)
  | .cmpack agent _ _ => devOk agent.dev && decide (agent.quad ≤ 4)
  | .retry _ _ | .resend _ => true
  | .err _ reason => decide (reason < 7)
  | .creditReclaim credit => decide (credit < 64)
  | .snoopWarn _ | .lostWalkDone => true
  | .mr4Poll status => status.all (fun x => decide (x.1 < 64))
  | .memoryRetrain c | .memoryRetrainDone c _ _ => decide (c < 64)
  | .patrolPassStart => true
  | .scrubLine c e => decide (c < 64) && e.wf
  | .cellaringCompressed page _ | .decantExpanded page _ => decide (page < 2 ^ 29)
  | .slotEpoch | .qosPeriod => true
  | .treeNack f => f.wf
  | .treeNackResend _ => true
  | .flitRoute f chk => f.wf && chk.wf
  | .domainDrained d | .domainFlushed d | .domainPowered d => decide (d < 20)
  | .trnOldDrained | .routeStagingTimeout => true
  | .portTrained p _ | .portTrainingTimeout p | .portSignalLost p => decide (p < 12)
  | .frameReceive p fr => decide (p < 12) && fr.wf
  | .nakFrame p fr => decide (p < 12) && fr.wf
  | .initFrame m => decide (m.p < 12) && m.frame.wf
  | .nakRepeat p | .ackStall p | .recoveryDone p _ | .recoveryTimeout p
  | .portHeartbeatLoss p | .receiveHistoryExpiry p | .laneRetrainDone p => decide (p < 12)
  | .hzPctlEnClear q p _ | .hzPctlEnSet q p _ | .hzPctlReach q p _ => q.wf && decide (p < 12)
  | .hello p m => decide (p < 12) && m.wf
  | .origin p _ _ => decide (p < 12)
  | .originQuiet => true
  | .linkdown reporter port neighbour mer =>
    decide (reporter < 65536) && decide (port < 12) && decide (neighbour < 65536) && decide (mer < 2 ^ 64)
  | .lostWaitExpiry dev => decide (dev < 65536)
  | .lost port dev mer _ => decide (port < 12) && decide (dev < 65536) && decide (mer < 2 ^ 64)
  | .join port dev _ => decide (port < 12) && decide (dev < 65536)
  | .noPortUp => true
  | .sweep port mer _ => decide (port < 12) && decide (mer < 2 ^ 64)
  | .sweepAgentResend => true
  | .mbx m => m.wf
  | .mbxForwardResend | .mbxTargetTimeout _ => true
  | .ccwFetched k _ res => decide (k < 65536) && res.wf
  | .adst ctl k r => decide (ctl < 2) && decide (k < 65536) && r.wf
  | .adwr ctl _ _ => decide (ctl < 2)
  | .adrd ctl _ _ ch => decide (ctl < 2) && decide (ch < 1024)
  | .addata ch _ _ => decide (ch < 1024)
  | .aderr ch kind => decide (ch < 1024) && decide (kind < 256)
  | .journalWriteDone k => decide (k < 65536)
  | .jmw port r => decide (port < 12) && r.wf
  | .jmack k _ => decide (k < 65536)
  | .jrel port k _ => decide (port < 12) && decide (k < 65536)
  | .jrelack k _ => decide (k < 65536)
  | .jdrop port dev => decide (port < 12) && decide (dev < 65536)
  | .jhand dev r => decide (dev < 65536) && r.wf
  | .operationDeadline k | .haltStatusTimeout k => decide (k < 65536)
  | .channelProcessorFault cp => decide (cp < 32)
  | .microwordRunaway k => decide (k < 65536)
  | .queueHeadReread _ => true
  | .completionPosted k => decide (k < 65536)
  | .ucodeLoadTimeout => true
  | .chnTailWrite q n _ => q.wf && decide (n < 1024)
  | .descriptorFetched n _ res | .moverReadData n _ res => decide (n < 1024) && res.wf
  | .moverWriteConfirm n _ | .writeBackVisible n | .moverBusError n _ _ _ _ => decide (n < 1024)
  | .chnStatHaltedClear q n | .chnCtlPause q n _ | .chnZoneHold q n _ | .chnZoneEn q n _ => q.wf && decide (n < 1024)
  | .channelPaused n => decide (n < 1024)
  | .movCtlDisable q e _ => q.wf && decide (e < 16)
  | .compressionJobAssign => true
  | .compressionBeat n _ _ | .anchorRebuildDone n _ _ => decide (n < 1024)
  | .cmpChcfgDiscard q n _ => q.wf && decide (n < 1024)
  | .cmpCtlEngOff q _ => q.wf
  | .cipherPipelineAssign => true
  | .cipherYield e => decide (e < 8)
  | .cipKcmtLoad q _ | .cipKcmtScrub q _ => q.wf
  | .keyCommitDone => true
  | .cipCtlOff q _ => q.wf
  | .ringHeadReread zone => decide (zone < 4096)
  | .zwSend q zone _ => q.wf && decide (zone < 4096)
  | .zoneResetStepDone zone step => decide (zone < 4096) && decide (step < 9)
  | .bndOwnWrite q _ => q.wf
  | .dbgEnWrite q core _ => q.wf && decide (core < 272)
  | .jtagRequest r => r.wf
  | .bondedWatchdogExpiry straps => straps.wf
  | .mbxDbRing m q _ => m.wf && q.wf
  | .mbzDbRing q zone _ | .mbzRingWrite q zone _ => q.wf && decide (zone < 4096)
  | .relraxCommandDone m | .identity m | .inventory m | .system m | .regRead m | .regWrite m | .zoneCreate m
  | .zoneActivate m | .zoneStop m | .zoneDestroy m | .zoneReset m | .zoneStatus m | .vcoreBind m
  | .vcoreUnbind m | .vcoreStart m | .vcoreStop m | .imageRead m | .imageRelease m | .pageAssign m
  | .pageRelease m | .pageMap m | .pagePin m | .cellar m | .poolAdd m | .poolRemove m | .listMove m
  | .listMark m | .listRead m | .memRetrain m | .portStatus m | .portSet m | .portRetrain m | .lostRead m
  | .start m | .halt m | .refresh m | .orphanRead m | .subStatus m | .history m | .faultAck m | .logRead m
  | .errRelease m | .logNote m | .coreRead m | .retireClear m | .coreRelieve m | .merSource m
  | .vintageChange m | .configRead m | .configExport m | .keyLoad m | .keyScrub m | .granuleTag m
  | .granuleUntag m | .ucodeLoad m | .ucodeKey m | .flashUpdate m | .domainOff m | .domainOn m
  | .domainCancel m | .powerDown m => m.wf
  | .moduleReset m straps => m.wf && straps.wf
  | .faultReport r => r.wf
  | .isolationSalvageDone quad | .isolationSalvageTimeout quad => decide (quad < 4)
  | .escalationTimerExpiry _ => true
  | .quietPeriodExpiry cls => decide (cls < 6)
  | .errLMinimumEnd => true
  | .fltAckWrite q _ | .fltCtlRelease q _ => q.wf
  | .spWatchdogExpiry | .spLockstepMismatch | .spRestartDone | .logEntryWritten => true
  | .standbyPowerOn straps => straps.wf
  | .pwrOkAssert | .pwrOkDeassert | .thermtrip => true
  | .resetLPulse _ straps => straps.wf
  | .perstInput ctl => decide (ctl < 2)
  | .perstRelease => true
  | .pcieLinkDown ctl => decide (ctl < 2)
  | .pcieInboundRequest r => r.wf
  | .relraxBooted _ | .mainRailsGood | .memoryTrainingDone _ _ => true
  | .discoveryDone found => (found.eligible ++ found.absent).all (fun d => decide (d < 65536))
  | .meridianLock | .startupStepTimeout | .coreRelease _ => true
  | .illegalBundle core _ => decide (core < 272)
  | .fetchFault core cause _ => decide (core < 272) && cause.wf
  | .standbyPowerLoss | .merRefLoss | .merRefReturn => true
  | .pcieLinkUp ctl _ _ | .perstInputRelease ctl => decide (ctl < 2)
  | .frameTransmit p => decide (p < 12)
  | .moverBeatIssue n => decide (n < 1024)
  | .zoneResetStepBudget zone => decide (zone < 4096)
  | .merPpsOutEdge => true

end Sys2Proof
end

