-- ==== Sys2Proof/Tests/Slice0.lean ====
section
/-! SUPPORT. Small tests of the model: ill-formed commands are refused by name of their check, words spell the commands of
the table, and every hypothesis of a statement is met by a concrete state. -/

namespace Sys2Proof.Tests
open Sys2Proof.Machine

set_option Elab.async false

/-! ## Operands to build commands from -/

def slotAt (n : Nat) (u : FUnit) : Slot := ⟨n, u, true⟩
def ioq (zone : Nat) : IoReq := ⟨zone, false, none, 0, 0⟩
def agent0 : Agent := ⟨0, 0⟩
def line0 : Line := 0
def cohReq (a : Agent) : CohReq := ⟨a, 0, 0, 0, false, false, false, false⟩
def snoopAt (q : Nat) : Snoop := ⟨q, 0, 0, 0, 0, agent0, false⟩
def dataAt (q : Nat) : DataMsg := ⟨q, 0, 0, 0, 0, .s, false, false, false, false, line0⟩
def respFrom (a : Agent) : SnpRespMsg := ⟨a, 0, 0, .s, .i, false, false, false, false, false, none, 0⟩
def backFrom (a : Agent) : WrBackMsg := ⟨a, 0, 0, 0, false, false, line0⟩
def flitTo (d teid : Nat) : Flit :=
  ⟨.sync, d, 0, teid, 0, 0, false, false, false, 0, 0, false, false, 0, false, false, 0, false, false, 0, 0, none, [], none,0x120, none⟩
def frameOf (seq : Nat) (fs : List Flit) : Frame := ⟨seq, 0, false, [], fs, false, none, 0, true, 0, 0⟩
def helloOn (p : Nat) : HelloMsg := ⟨0, false, false, false, p, [], none, 0⟩
def imageV (v : Nat) : CfgImage := ⟨v, 0, [], [], 0, 0, [], [], [], []⟩
def strapsSel (b : Nat) : Straps := ⟨false, false, false, false, b⟩
def msgFrom (d kind : Nat) : MbxMsg := ⟨d, kind, 0, false, 0, []⟩
def jrec (phase : Nat) : JRec :=
  ⟨phase, 0, 0, 0, 0, 0, 0, false, false, 0, 0, 0, 0, 0, 0, 0, 0, 0, 0, 0, 0, 0, 0, []⟩
def rep0 (source cls : Nat) : Report := ⟨source, cls, 0, 0, 0, 0, 0, none, false⟩

/-! ## Ill-formed commands, one for each check -/

/-- Refused: a module has 272 cores. -/
theorem test_ill_formed_core_numbers :
    ([
      .ldiz (slotAt 272 .i0) 1 0 0,
      .ldb ⟨slotAt 272 .m0, 1, 0, 2, .postInc⟩,
      .ldrsv (slotAt 272 .m0) false 1 0 2,
      .repIteration 272,
      .cmaintComplete 272,
      .waitWake 272,
      .externalInterrupt 272,
      .doorbell 272,
      .storeDrain 272,
      .bundleRetry 272 ⟨1, 0⟩,
      .progressMonitorExpiry 272,
      .reliefStart 272 0,
      .reliefFlushDone 272,
      .nearCacheFill 272 0,
      .nearCtlDisable (ioq 0) 272 0,
      .nearCtlEnable (ioq 0) 272 0,
      .nearCtlPf (ioq 0) 272 0,
      .nearCleaningDone 272,
      .reservationDeferralTimeout 272,
      .wcBufferTimeout 272 0,
      .dbgEnWrite (ioq 0) 272 0,
      .jtagRequest (.debug 272 true),
      .illegalBundle 272 [],
      .fetchFault 272 .beyond 0,
      .br (slotAt 272 .x) 1,
      .mtpcnt (slotAt 272 .x) 1,
      .fsqrt (slotAt 272 .f) .b64 1 2] : List Instr).all (fun i => !i.wf) = true := by
  decide

/-- Refused: sixteen clusters, the ten rows of detections, 256 reasons, 20 domains, 6 classes. -/
theorem test_ill_formed_clusters_and_reasons :
    ([
      .sparePowered 16,
      .reliefImageArrived 16 true,
      .reliefResume 16,
      .bundleRetry 0 ⟨11, 0⟩,
      .bundleRetry 0 ⟨0, 0⟩,
      .reliefStart 0 256,
      .domainDrained 20,
      .domainFlushed 20,
      .domainPowered 20,
      .quietPeriodExpiry 6,
      .fetchFault 0 (.refused 7) 0,
      .isolationSalvageDone 4,
      .isolationSalvageTimeout 4] : List Instr).all (fun i => !i.wf) = true := by
  decide

/-- Refused: a requester of I/O space names a zone, a vcore and a core that exist. -/
theorem test_ill_formed_requesters :
    ([
      .registerWrite ⟨ioq 4096, 0, 8⟩ 0,
      .registerWrite ⟨ioq 0, 0, 3⟩ 0,
      .bndOwnWrite ⟨0, false, none, 4096, 0⟩ 0,
      .bndOwnWrite ⟨0, false, some 272, 0, 0⟩ 0,
      .cipKcmtLoad (ioq 4096) 0,
      .cipKcmtScrub (ioq 4096) 0,
      .cipCtlOff (ioq 4096) 0,
      .cmpCtlEngOff (ioq 4096) 0,
      .fltAckWrite (ioq 4096) 0,
      .fltCtlRelease (ioq 4096) 0] : List Instr).all (fun i => !i.wf) = true := by
  decide

/-- Refused: a port is below 12, a vintage has 32 bits, a device ID 16. -/
theorem test_ill_formed_meridian_messages :
    ([
      .sync 12 0 0 0,
      .sync 0 0 (2 ^ 32) 0,
      .sync 0 0 0 65536,
      .heartbeat 12 0 0 0 0,
      .heartbeat 0 (2 ^ 32) 0 0 0,
      .heartbeat 0 0 65536 0 0,
      .heartbeat 0 0 0 65536 0,
      .heartbeat 0 0 0 0 4,
      .takeover 65536 0,
      .takeover 0 (2 ^ 32),
      .takeoverAck 65536 0,
      .takeoverAck 0 (2 ^ 32),
      .prepare (2 ^ 32) 0 0 false (imageV 0),
      .prepare 0 0 (2 ^ 64) false (imageV 0),
      .prepare 0 0 0 false (imageV (2 ^ 32)),
      .prepare 0 0 0 false { imageV 0 with linksDown := [(65536, 0)] },
      .prepare 0 0 0 false { imageV 0 with linksDown := [(0, 12)] },
      .ack 65536 0,
      .ack 0 (2 ^ 32),
      .nack 65536 0,
      .nack 0 (2 ^ 32),
      .abort (2 ^ 32),
      .report 256 0,
      .report 0 65536,
      .delay (2 ^ 64) false 0 0 0,
      .delay 0 false (2 ^ 64) 0 0,
      .delay 0 false 0 (2 ^ 64) 0,
      .delay 0 false 0 0 (2 ^ 64)] : List Instr).all (fun i => !i.wf) = true := by
  decide

/-- Refused: what a watch and a walk find. -/
theorem test_ill_formed_watches :
    ([
      .sextantWatch ⟨[⟨272, [0, 0, 0, 0], [0, 0]⟩], []⟩,
      .sextantWatch ⟨[⟨0, [0, 0, 0], [0, 0]⟩], []⟩,
      .sextantWatch ⟨[], [⟨14, 0, 0, 0⟩]⟩,
      .sextantWatch ⟨[], [⟨0, 4, 0, 0⟩]⟩,
      .l2L3Walk [⟨false, 272, .corrected, 0, 0⟩],
      .l2L3Walk [⟨true, 16, .corrected, 0, 0⟩]] : List Instr).all (fun i => !i.wf) = true := by
  decide

/-- Refused: an agent is a quadrant of a module; credits, zones and verify codes have their widths. -/
theorem test_ill_formed_coherence :
    ([
      .rdshared (cohReq ⟨65536, 0⟩) .clean,
      .rdown (cohReq ⟨0, 5⟩) .clean,
      .upgrade { cohReq agent0 with zone := 4096 } .clean,
      .rdonce (cohReq ⟨0, 5⟩) .clean,
      .wrline (cohReq ⟨0, 5⟩) line0 0,
      .wrline (cohReq agent0) line0 4,
      .wrpart (cohReq ⟨0, 5⟩) 0 line0 .clean,
      .cleanline (cohReq ⟨0, 5⟩),
      .invline (cohReq ⟨0, 5⟩),
      .cleaninvline (cohReq ⟨0, 5⟩),
      .resendRequest (cohReq ⟨0, 5⟩) .rdOwn 0 .clean,
      .resendRequest (cohReq agent0) .rdOwn 64 .clean,
      .snpfwds (snoopAt 4),
      .snpfwdo { snoopAt 0 with home := 65536 },
      .snpinv { snoopAt 0 with zone := 4096 },
      .snpclean { snoopAt 0 with req := ⟨0, 4⟩ },
      .snpback (snoopAt 4),
      .snpdrop (snoopAt 4),
      .data (dataAt 5),
      .fwddata { dataAt 0 with home := 65536 },
      .data { dataAt 0 with zone := 4096 },
      .snpresp (respFrom ⟨0, 4⟩),
      .wrback (backFrom ⟨0, 4⟩) 0,
      .wrback { backFrom agent0 with zone := 4096 } 0,
      .wrback (backFrom agent0) 4,
      .evictclean ⟨0, 4⟩ 0 0 false,
      .wback 4 0,
      .cmp 5 0 0,
      .cmpack ⟨0, 5⟩ 0 0,
      .rdshared (cohReq agent0) ⟨.clean, [(132, 1)], false⟩,
      .rdshared (cohReq agent0) ⟨.clean, [(0, 256)], false⟩,
      .err 0 7,
      .creditReclaim 64] : List Instr).all (fun i => !i.wf) = true := by
  decide

/-- Refused: 64 channels; pages of a module. -/
theorem test_ill_formed_memory :
    ([
      .mr4Poll [(64, 0)],
      .memoryRetrain 64,
      .memoryRetrainDone 64 0 0,
      .scrubLine 64 .clean,
      .cellaringCompressed (2 ^ 29) true,
      .decantExpanded (2 ^ 29) true] : List Instr).all (fun i => !i.wf) = true := by
  decide

/-- Refused: the header and the route word of a flit. -/
theorem test_ill_formed_flits :
    ([
      .flitRoute (flitTo 65536 0) .good,
      .flitRoute { flitTo 0 0 with src := 65536 } .good,
      .flitRoute (flitTo 0 1024) .good,
      .flitRoute { flitTo 0 0 with steid := 1024 } .good,
      .flitRoute { flitTo 0 0 with zone := 4096 } .good,
      .flitRoute { flitTo 0 0 with qmask := 16 } .good,
      .flitRoute { flitTo 0 0 with more := 32 } .good,
      .flitRoute { flitTo 0 0 with credit := 64 } .good,
      .flitRoute { flitTo 0 0 with det := 8 } .good,
      .flitRoute { flitTo 0 0 with hops := 64 } .good,
      .flitRoute { flitTo 0 0 with tdst := 65536 } .good,
      .flitRoute { flitTo 0 0 with inPort := some 12 } .good,
      .flitRoute { flitTo 0 0 with hop := some (21, 0) } .good,
      .treeNack (flitTo 65536 0),
      .flitRoute (flitTo 0 0) (.replayed 4 1),
      .flitRoute (flitTo 0 0) (.replayed 0 9),
      .flitRoute (flitTo 0 0) (.failed 4),
      .flitRoute (flitTo 0 0) (.header (some 4))] : List Instr).all (fun i => !i.wf) = true := by
  decide

/-- Refused: the fields of a frame. -/
theorem test_ill_formed_frames :
    ([
      .frameReceive 12 (frameOf 0 []),
      .frameReceive 0 (frameOf 4096 []),
      .frameReceive 0 { frameOf 0 [] with ack := 4096 },
      .frameReceive 0 { frameOf 0 [] with credits := [(0, 0), (0, 0), (0, 0), (0, 0)] },
      .frameReceive 0 (frameOf 0 (List.replicate 9 (flitTo 0 0))),
      .frameReceive 0 (frameOf 0 [flitTo 65536 0]),
      .frameReceive 0 { frameOf 0 [] with sender := some 65536 },
      .frameReceive 0 { frameOf 0 [] with port := 12 }] : List Instr).all (fun i => !i.wf) = true := by
  decide

/-- Refused: a module has 12 ports. -/
theorem test_ill_formed_ports :
    ([
      .portTrained 12 4,
      .portTrainingTimeout 12,
      .portSignalLost 12,
      .nakFrame 12 (frameOf 0 []),
      .initFrame ⟨12, frameOf 0 []⟩,
      .nakRepeat 12,
      .ackStall 12,
      .recoveryDone 12 4,
      .recoveryTimeout 12,
      .portHeartbeatLoss 12,
      .receiveHistoryExpiry 12,
      .laneRetrainDone 12,
      .hzPctlEnClear (ioq 0) 12 0,
      .hzPctlEnSet (ioq 0) 12 0,
      .hzPctlReach (ioq 0) 12 0,
      .hzPctlReach (ioq 4096) 0 0,
      .hello 12 (helloOn 0),
      .hello 0 (helloOn 12),
      .hello 0 { helloOn 0 with devId := some 65536 },
      .origin 12 0 false,
      .frameTransmit 12] : List Instr).all (fun i => !i.wf) = true := by
  decide

/-- Refused: device IDs, ports and meridians of fabric messages. -/
theorem test_ill_formed_fabric_messages :
    ([
      .linkdown 65536 0 0 0,
      .linkdown 0 12 0 0,
      .linkdown 0 0 65536 0,
      .linkdown 0 0 0 (2 ^ 64),
      .lostWaitExpiry 65536,
      .lost 12 0 0 0,
      .lost 0 65536 0 0,
      .lost 0 0 (2 ^ 64) 0,
      .join 12 0 0,
      .join 0 65536 0,
      .sweep 12 0 0,
      .sweep 0 (2 ^ 64) 0,
      .mbx (msgFrom 65536 0),
      .mbx (msgFrom 0 4),
      .mbx { msgFrom 0 0 with zone := 4096 }] : List Instr).all (fun i => !i.wf) = true := by
  decide

/-- Refused: a subchannel number has 16 bits. -/
theorem test_ill_formed_subchannels :
    ([
      .ccwFetched 65536 [] .poisoned,
      .ccwFetched 0 [] (.refused 0),
      .adst 2 0 ⟨0, 0, 0, 0⟩,
      .adst 0 65536 ⟨0, 0, 0, 0⟩,
      .adst 0 0 ⟨0, 65536, 0, 0⟩,
      .adst 0 0 ⟨0, 0, 65536, 0⟩,
      .adst 0 0 ⟨0, 0, 0, 2 ^ 32⟩,
      .adwr 2 0 [],
      .adrd 2 0 0 0,
      .adrd 0 0 0 1024,
      .addata 1024 0 [],
      .aderr 1024 0,
      .aderr 0 256,
      .journalWriteDone 65536,
      .jmw 12 (jrec 0),
      .jmw 0 (jrec 5),
      .jmw 0 { jrec 0 with cp := 32 },
      .jmw 0 { jrec 0 with sub := 65536 },
      .jmw 0 { jrec 0 with zone := 4096 },
      .jmw 0 { jrec 0 with mover := 1024 },
      .jmack 65536 0,
      .jrel 12 0 0,
      .jrel 0 65536 0,
      .jrelack 65536 0,
      .jdrop 12 0,
      .jdrop 0 65536,
      .jhand 65536 (jrec 0),
      .jhand 0 (jrec 5),
      .operationDeadline 65536,
      .haltStatusTimeout 65536,
      .channelProcessorFault 32,
      .microwordRunaway 65536,
      .completionPosted 65536] : List Instr).all (fun i => !i.wf) = true := by
  decide

/-- Refused: 1,024 channels, 16 movers, 8 cipher engines. -/
theorem test_ill_formed_movers :
    ([
      .chnTailWrite (ioq 0) 1024 0,
      .descriptorFetched 1024 [] .poisoned,
      .moverReadData 1024 0 .poisoned,
      .moverWriteConfirm 1024 0,
      .writeBackVisible 1024,
      .moverBusError 1024 0 false 0 0,
      .chnStatHaltedClear (ioq 0) 1024,
      .chnCtlPause (ioq 0) 1024 0,
      .chnZoneHold (ioq 0) 1024 0,
      .chnZoneEn (ioq 0) 1024 0,
      .channelPaused 1024,
      .movCtlDisable (ioq 0) 16 0,
      .compressionBeat 1024 true true,
      .anchorRebuildDone 1024 true true,
      .cmpChcfgDiscard (ioq 0) 1024 0,
      .cipherYield 8,
      .moverBeatIssue 1024] : List Instr).all (fun i => !i.wf) = true := by
  decide

/-- Refused: 4,096 zones, nine steps of a reset. -/
theorem test_ill_formed_zones :
    ([
      .ringHeadReread 4096,
      .zwSend (ioq 0) 4096 0,
      .zoneResetStepDone 4096 0,
      .zoneResetStepDone 0 9,
      .zoneResetStepBudget 4096,
      .mbzDbRing (ioq 0) 4096 0,
      .mbzRingWrite (ioq 0) 4096 0,
      .mbxDbRing (.ring 4096) (ioq 0) 0,
      .mbxDbRing .host (ioq 4096) 0] : List Instr).all (fun i => !i.wf) = true := by
  decide

/-- Refused: a command comes from the ring of one of 4,096 zones. -/
theorem test_ill_formed_command_rings :
    ([
      .relraxCommandDone (.ring 4096),
      .identity (.ring 4096),
      .inventory (.ring 4096),
      .system (.ring 4096),
      .regRead (.ring 4096),
      .regWrite (.ring 4096),
      .zoneCreate (.ring 4096),
      .zoneActivate (.ring 4096),
      .zoneStop (.ring 4096),
      .zoneDestroy (.ring 4096),
      .zoneReset (.ring 4096),
      .zoneStatus (.ring 4096),
      .vcoreBind (.ring 4096),
      .vcoreUnbind (.ring 4096),
      .vcoreStart (.ring 4096),
      .vcoreStop (.ring 4096),
      .imageRead (.ring 4096),
      .imageRelease (.ring 4096),
      .pageAssign (.ring 4096),
      .pageRelease (.ring 4096),
      .pageMap (.ring 4096),
      .pagePin (.ring 4096),
      .cellar (.ring 4096),
      .poolAdd (.ring 4096),
      .poolRemove (.ring 4096),
      .listMove (.ring 4096),
      .listMark (.ring 4096),
      .listRead (.ring 4096),
      .memRetrain (.ring 4096),
      .portStatus (.ring 4096),
      .portSet (.ring 4096),
      .portRetrain (.ring 4096),
      .lostRead (.ring 4096),
      .start (.ring 4096),
      .halt (.ring 4096),
      .refresh (.ring 4096),
      .orphanRead (.ring 4096),
      .subStatus (.ring 4096),
      .history (.ring 4096),
      .faultAck (.ring 4096),
      .logRead (.ring 4096),
      .errRelease (.ring 4096),
      .logNote (.ring 4096),
      .coreRead (.ring 4096),
      .retireClear (.ring 4096),
      .coreRelieve (.ring 4096),
      .merSource (.ring 4096),
      .vintageChange (.ring 4096),
      .configRead (.ring 4096),
      .configExport (.ring 4096),
      .keyLoad (.ring 4096),
      .keyScrub (.ring 4096),
      .granuleTag (.ring 4096),
      .granuleUntag (.ring 4096),
      .ucodeLoad (.ring 4096),
      .ucodeKey (.ring 4096),
      .flashUpdate (.ring 4096),
      .domainOff (.ring 4096),
      .domainOn (.ring 4096),
      .domainCancel (.ring 4096),
      .powerDown (.ring 4096),
      .moduleReset (.ring 4096) (strapsSel 0)] : List Instr).all (fun i => !i.wf) = true := by
  decide

/-- Refused: BOOT_SEL, controllers, reports, device lists. -/
theorem test_ill_formed_straps_and_pins :
    ([
      .standbyPowerOn (strapsSel 2),
      .bondedWatchdogExpiry (strapsSel 2),
      .resetLPulse 20000 (strapsSel 2),
      .moduleReset .host (strapsSel 2),
      .perstInput 2,
      .pcieLinkDown 2,
      .pcieInboundRequest ⟨2, 0, 0, none, 4⟩,
      .pcieInboundRequest ⟨0, 65536, 0, none, 4⟩,
      .pcieInboundRequest ⟨0, 0, 2 ^ 64, none, 4⟩,
      .discoveryDone ⟨[], [65536]⟩,
      .pcieLinkUp 2 5 16,
      .perstInputRelease 2,
      .faultReport (rep0 0 0),
      .faultReport (rep0 0x16 0),
      .faultReport (rep0 1 6),
      .faultReport { rep0 1 0 with reason := 256 },
      .faultReport { rep0 1 0 with zone := 4096 },
      .faultReport { rep0 1 0 with quad := some 4 }] : List Instr).all (fun i => !i.wf) = true := by
  decide

/-- A command in its ranges is well formed. -/
theorem test_well_formed :
    ([
      .ldiz (slotAt 271 .i0) 1 0 0,
      .registerWrite ⟨ioq 4095, 0, 8⟩ 0,
      .sync 11 0 0 65535,
      .rdshared (cohReq ⟨65535, 3⟩) .clean,
      .flitRoute (flitTo 65535 1023) .good,
      .frameReceive 11 (frameOf 4095 [flitTo 0 0]),
      .jmw 11 (jrec 4),
      .faultReport (rep0 0x15 5),
      .moduleReset (.ring 4095) (strapsSel 1),
      .zoneResetStepDone 4095 8] : List Instr).all Instr.wf = true := by
  decide
/-! ## The hypotheses of the statements are met -/

/-- A code segment of 1 GiB at 0. -/
def segCode : SegReg := ⟨0, 0x3FFFFFFF, 0x0010, 1⟩

/-- Core 0 runs in that code segment, with these registers. -/
def ready (f : CoreRegs → CoreRegs) : State :=
  updCore State.reset 0 (fun c => { c with power := true, run := true, regs := f (c.regs.setSeg 13 segCode) })

/-- A readable and writable segment of 64 KiB at 1 MiB. -/
def seg64k : SegReg := ⟨0x100000, 0xFFFF, 0x000C, 1⟩

/-- The same at privilege, with a data segment s1, a data stack and a return stack, both empty. -/
def stacked : State := ready (fun r =>
  { ((r.setSeg 1 seg64k).setSeg 14 seg64k).setSeg 15 seg64k with rsp := 0x10000, dsp := 0x10000 })

theorem test_queue_front :
    (match step { State.reset with pending := [.merPpsOutEdge] } with
      | .next t => t.pending.isEmpty
      | _ => false) = true := by
  decide

theorem test_queue_empty : State.reset.pending = [] := by decide

/-- A sound memory that holds a byte. -/
theorem test_memory_sound : Memory.sound { State.reset.mem with bytes := [(128, 7)] } := by
  refine ⟨by decide, ?_⟩
  intro fl h
  cases h

/-- The lock is set in some state, and a BWDR in front of the queue is no module reset. -/
theorem test_lock_set :
    let s := { State.reset with
      bnd := { State.reset.bnd with wdgLock := true }
      pending := [.storeDrain 0] }
    s.bnd.wdgLock = true ∧ (match step s with
      | .next _ => true
      | _ => false) = true := by
  decide

theorem test_retirement_stands :
    let s := { State.reset with rlx := { State.reset.rlx with flash := { State.reset.rlx.flash with retired := [(3, true)] } } }
    retirementStands s 3 ∧ (match step s with
      | .next _ => true
      | _ => false) = true := by
  unfold retirementStands
  decide

theorem test_customer_key :
    let s := { State.reset with rlx := { State.reset.rlx with flash := { State.reset.rlx.flash with custKey := some [] } } }
    s.rlx.flash.custKey = some [] ∧ (match step s with
      | .next _ => true
      | _ => false) = true := by
  decide

theorem test_integer_alone :
    alone (ready id) (slotAt 0 .i0) = true ∧ (intRow (.add (slotAt 0 .i0) true 63 63 63)).isSome = true ∧
      lowest (operandBad (.add (slotAt 0 .i0) true 63 63 63)) = none := by
  decide

theorem test_float_alone :
    alone (ready id) (slotAt 0 .f) = true ∧ (fpRow (.fadd (slotAt 0 .f) .b128 62 0 2)).isSome = true ∧
      lowest (operandBad (.fadd (slotAt 0 .f) .b128 62 0 2)) = none := by
  decide

theorem test_decimal_operand : (decimalAt (getCore (ready fun r => r.setG 2 0xC) 0).regs 2).isSome = true := by decide

theorem test_move_alone :
    alone (ready id) (slotAt 0 .x) = true ∧
      ((moveRow (.mtctl (slotAt 0 .x) 0 0)).bind (fun x => x.out (getCore (ready id) 0).regs)).isSome = true := by
  decide

theorem test_branch_alone :
    alone (ready id) (slotAt 0 .x) = true ∧ (branchRow (.bcc (slotAt 0 .x) 15 0)).isSome = true := by
  decide

theorem test_store_alone :
    let m : MemOp := ⟨slotAt 0 .m0, 1, 1, 0, .disp 0⟩
    let r := (getCore stacked 0).regs
    (storeRow (.stp m)).isSome = true ∧ alone stacked m.sl = true ∧ lowest (operandBad (.std m)) = none ∧
      accessFree stacked 0 = true ∧ segFault r 1 0 16 .store = none ∧ (getCore stacked 0).buf = [] := by
  decide

theorem test_call_room :
    alone stacked (slotAt 0 .x) = true ∧ accessFree stacked 0 = true ∧ mayPush (getCore stacked 0).regs 672 = true ∧
      dataStackFault (getCore stacked 0).regs (getCore stacked 0).regs.dsp 64 .store = none ∧
      (getCore stacked 0).regs.priv = true := by
  decide

/-- Words of a line, each by its place. -/
def lineOfWords (ws : List (Nat × Nat)) : Line := ws.foldl (fun l w => l ||| BitVec.ofNat 1024 (w.2 * 2 ^ (64 * w.1))) 0

/-- Quadrant 0 owns a line. -/
def owns (s : State) (gl : Nat) (l : Line) : State := setLine s 0 gl { AgentLine.absent with st := .e, data := l }

/-- It owns one, and core 0 has it in its near cache. -/
def holds (s : State) (gl : Nat) (l : Line) : State :=
  updCore (owns s gl l) 0 (fun c => { c with near := { c.near with
    entries := c.near.entries ++ [(c.near.entries.length, ⟨true, gl, false, false⟩)] } })

/-- A segment table at 2 MiB whose entries 0 and 1 are open code, 2 a return stack, 3 bonded code. -/
def withTable (s : State) : State :=
  holds s 0x4000 (lineOfWords [(1, 0xFFFF), (2, 0x8014), (5, 0xFFFF), (6, 0x8014), (9, 0xFFFF), (10, 0x808C), (13, 0xFFFF), (14, 0x8114)])

/-- Core 0 with that table, its vector base in entry 1, and stacks at 1 MiB. -/
def tabled (f : CoreRegs → CoreRegs) : State :=
  withTable (ready (fun r => f
    { (((((r.setSeg 1 seg64k).setSeg 14 seg64k).setSeg 15 seg64k).setCtl 0 0x200000).setCtl 1 16).setCtl 2 0x1000000001000 with
      rsp := 0x1000, dsp := 0x2000 }))

theorem test_entry_possible :
    let c := getCore (tabled id) 0
    alone (tabled id) (slotAt 0 .x) = true ∧ c.regs.psw.bit 41 = false ∧ c.wc = [] ∧ c.defer = none ∧
      (heldDesc (tabled id) 0 ((c.regs.getCtl 2).field 63 48) none (some c.regs.w) 13 false).isSome = true := by
  decide +kernel

theorem test_break_enabled :
    (getCore (updCore (tabled id) 0 (fun c => { c with dbgOi := true })) 0).dbgOi = true := by
  decide +kernel

theorem test_waits : bellPending (ready id) 0 = false ∧ (getCore (ready id) 0).regs.priv = true ∧
    bellPending (updCore (ready id) 0 (fun c => { c with irq := true })) 0 = true := by
  decide +kernel

theorem test_segment_held :
    let s := tabled (fun r => r.setG 2 1)
    let r := (getCore s 0).regs
    accessFree s 0 = true ∧ alone s (slotAt 0 .m1) = true ∧ (r.getCtl 4).bit 45 = false ∧
      (heldDesc s 0 ((r.getG 2).field 15 0) (some r.priv) (some r.w) 1 true).isSome = true ∧
      (heldDesc s 0 ((r.getG 2).field 15 0) (some r.priv) (some r.w) 13 false).isSome = true ∧
      (heldDesc s 0 ((r.getCtl 5).field 15 0) (some r.priv) (some r.w) 13 false).isSome = true := by
  decide +kernel

theorem test_prefetch_starts :
    let s := owns (ready (fun r => r.setSeg 1 seg64k)) 0x2000 0
    let m : MemOp := ⟨slotAt 0 .m0, 0, 1, 0, .disp 0⟩
    let c := getCore s 0
    alone s m.sl = true ∧ c.wc = [] ∧ lowest (operandBad (.pf m)) = none ∧ segFault c.regs 1 0 1 .load = none ∧
      (c.regs.getSeg 1).typ = 0 ∧ c.near.enabled = true ∧ c.near.fills.length < 4 ∧ nearIndex c.near 0x2000 = none ∧
      usable s (coreQuad 0) 0x2000 c.regs.w = true ∧ (formOffset c.regs m 1).1 = 0 := by
  decide +kernel

theorem test_maintenance :
    let r := (getCore stacked 0).regs
    alone stacked (slotAt 0 .m0) = true ∧ accessFree stacked 0 = true ∧ (getCore stacked 0).buf.length < 32 ∧ r.priv = true ∧
      lowest (operandBad (.cmaintByAddress (slotAt 0 .m0) 1 1 0)) = none ∧ (r.getSeg 1).typ = 0 ∧
      inLimit (r.getSeg 1) (baseVal r 1 0) 1 = true ∧ (r.getSeg 1).bit 3 = true ∧
      lowest (operandBad (.cmaintByZone (slotAt 0 .m0) 2 0)) = none ∧
      lowest (operandBad (.cmaintGlobal (slotAt 0 .m0) 0)) = none := by
  decide +kernel

/-- A line at 1 MiB held and present in the near cache. -/
def nearby : State :=
  updCore (holds (ready (fun r => r.setSeg 1 seg64k)) 0x2000 (lineOfWords [(0, 0x1122334455667788), (1, 7)])) 0
    (fun c => { c with near := { c.near with entries := [(0, ⟨true, 0x2000, false, false⟩)], pf := 1 } })

theorem test_load_ready :
    let m : MemOp := ⟨slotAt 0 .m0, 2, 1, 0, .disp 0⟩
    let r := (getCore nearby 0).regs
    alone nearby m.sl = true ∧ lowest (operandBad (.ldp m)) = none ∧ accessFree nearby 0 = true ∧
      segFault r 1 (formOffset r m 16).1 16 .load = none ∧ (r.getSeg 1).typ = 0 ∧ nearReady nearby 0 0x100000 16 = true ∧
      (heldBytes nearby 0 0x100000 16).isSome = true ∧ (r.getSeg 1).base + (formOffset r m 16).1 = 0x100000 := by
  decide +kernel

theorem test_macm_ready :
    let r := (getCore nearby 0).regs
    alone nearby (slotAt 0 .f) = true ∧ lowest (operandBad (.macm (slotAt 0 .f) 0 0 2 1 3 1)) = none ∧
      heldWords nearby 0 1 (r.getG 2) 1 = some [0x1122334455667788] ∧ (macmOut 2 r 0 0xC 0xC).isSome = false ∧
      (macmOut 3 r 0 1 1).isSome = true := by
  decide +kernel

theorem test_reservation :
    let r := (getCore nearby 0).regs
    rsvFault r 1 (baseVal r 1 0) 8 .load = none ∧ rsvFault r 1 (baseVal r 1 0) 8 .store = none ∧
      ownsLine nearby 0 0x2000 = true ∧ usable nearby 0 0x2000 false = true ∧ rsvSize nearby 0 = 128 ∧
      lowest (operandBad (.ldrsv (slotAt 0 .m0) true 2 1 0)) = none ∧ (getCore nearby 0).buf = [] ∧ (getCore nearby 0).wc = [] ∧
      (getCore nearby 0).wcOut = [] ∧ rsvHolds (getCore nearby 0).rsv 0x100000 = false ∧
      rsvHolds (some (0x100000, 128)) 0x100000 = true := by
  decide +kernel

theorem test_return_entries :
    let s := holds (holds (tabled id) 0x2020 (lineOfWords [(0, 0x2000000002), (1, 0x40), (2, 2), (3, 0x2000)])) 0x2040
      (lineOfWords [(0, 2), (1, 99)])
    let r := (getCore s 0).regs
    (heldWords s 0 15 r.rsp 4).isSome = true ∧ heldWords s 0 14 r.dsp 2 = some [2, 99] ∧ maskRegs 2 = [1] ∧
      segFault r 14 (r.dsp + 8) 8 .load = none ∧ r.rsp.toNat + 31 ≤ (r.getSeg 15).limit.toNat ∧
      ((r.getSeg 15).bit 8 && !r.w) = false := by
  decide +kernel

theorem test_interrupt_ready :
    let s := updCore (tabled (fun r => { r.setSeg 13 ⟨0, 7, 0x0010, 1⟩ with psw := 0xC0000000000 })) 0 (fun c => { c with irq := true })
    let c := getCore s 0
    canRun s 0 = true ∧ c.bundle = none ∧ c.irq = true ∧ mayInterrupt c.regs = true ∧ c.repFirst = false ∧ c.retries = 0 ∧
      c.regs.psw.bit 41 = false ∧ c.wc = [] ∧ c.defer = none ∧
      (heldDesc s 0 ((c.regs.getCtl 2).field 63 48) none (some false) 13 false).isSome = true ∧
      wholeBundle [0xFFFFFFFF] = true ∧ (wordsExc [0xFFFFFFFF] false c.regs.pc).isSome = true ∧
      (fetchEnd c.regs - c.regs.pc).toNat = 8 := by
  decide +kernel

/-- Vcore 2 of zone 1 runs on core 0. -/
def onCore0 (s : State) : State := updVcore s 1 2 (fun v => { v with core := 0, state := 2, db := true })

theorem test_doorbell_waits :
    vcoreOn (onCore0 (ready id)) 0 = some (1, 2) ∧ (getVcore (onCore0 (ready id)) 1 2).db = true := by
  decide

/-- The hub is up, at 2^40 mt, with core 0 running. -/
def hubRuns (f : CoreRegs → CoreRegs) : State :=
  let s := ready f
  { s with
    power := { s.power with pwrOk := true, rails := true, step := 12 }
    mer := { s.mer with ext := 2 ^ 72 } }

theorem test_near_states :
    let c := getCore (ready id) 0
    (hubRuns id).power.pwrOk = true ∧ c.near.enabled = true ∧ c.near.cleaning = false ∧ c.near.fills = [] ∧ Word.bit 1 0 = true ∧ Word.bit 0 0 = false ∧
      (getLine nearby 0 0x2000).st ≠ .i := by
  decide +kernel

theorem test_store_drains :
    let e : BufEntry := ⟨0x100008, 8, 5, 0, 0, false, false, 0, none, (0, 0)⟩
    let s := updCore nearby 0 (fun c => { c with buf := [e] })
    let c := getCore s 0
    c.power = true ∧ c.near.cleaning = false ∧ c.buf = [e] ∧ c.near.blocked = none ∧
      usable s 0 (globalLine e.addr) false = true ∧ ownsLine s 0 (globalLine e.addr) = true ∧
      (nearIndex c.near (globalLine e.addr)).isSome = true := by
  decide +kernel

/-- A write-combined byte for another module, and a deferral with a snoop. -/
theorem test_wc_and_deferral :
    let b : WcBuf := ⟨2 ^ 40, 1, 0, 0, false⟩
    let s := updCore (ready id) 0 (fun c => { c with wc := [b], defer := some ⟨5, 16, [(2, snoopAt 0)]⟩ })
    (getCore s 0).wc = [b] ∧ (getCore s 0).defer.isSome = true ∧ (getCore s 0).power = true := by
  decide +kernel

theorem test_maintenance_outstanding :
    let e : BufEntry := ⟨0x100000, 0, 0, 0, 0, false, false, 0, some ⟨.address, 0, false⟩, (0, 0)⟩
    let s := updCore (ready id) 0 (fun c => { c with maint := [e] })
    (getCore s 0).maint = [e] ∧ s.reqs = [] := by
  decide

theorem test_retry_possible :
    let c := getCore (updCore (ready id) 0 (fun c => { c with retries := 3 })) 0
    c.power = true ∧ c.run = true ∧ c.bundle = none ∧ c.waiting = false ∧ c.entering = none ∧ c.retries = 3 ∧ (ready id).reqs = [] := by
  decide

theorem test_relief_requested :
    let s := updCore { ready id with sxt := { State.reset.sxt with requests := [(0, 1)] } } 16 (fun c => { c with sxtState := 1 })
    spareFree s 0 = true ∧ coreCluster 0 = 0 ∧ (getCore s 0).buf = [] ∧ (getCore s 0).wc = [] ∧ (getCore s 0).defer = none ∧
      mayRest (getCore s 0) = true ∧ mayRest { getCore s 0 with entering := some (⟨7, 1, 0, 0, 0⟩, 0) } = false := by
  decide

theorem test_relief_steps :
    let at' := fun (k : Nat) => setRelief State.reset 0 ⟨0, 16, 0, k, 1, 0, false, none⟩
    (getRelief (at' 3) 0).step = 3 ∧ (getRelief (at' 4) 0).step = 4 ∧ (getRelief (at' 6) 0).step = 6 ∧
      (getRelief (at' 7) 0).step = 7 ∧ coreDrained (getCore (at' 3) 0) = true ∧ zoneQuiets (at' 7) 1 = false ∧
      (Assoc.get (putImage (at' 6) 0 (mkImage (at' 6) 0 1 0 0 [] true)).sxt.images 0).isSome = true := by
  decide

/-- The same with key slot 0 loaded, as device 0. -/
def homeRuns : State :=
  let s := hubRuns id
  { s with
    devId := 0
    devValid := true
    cip := { s.cip with slots := [(0, { KeySlot.empty with loaded := true })] } }

theorem test_wc_written :
    (match (writeMask rep homeRuns 0 false 0 1 0 0 false 0).1 with
      | .ok _ => true
      | _ => false) = true := by
  decide +kernel

theorem test_watch_due :
    let s := hubRuns id
    hubUp s = true ∧ s.sxt.watchIdx < now s / 2 ^ 40 ∧ s.sxt.watchEn = true ∧ s.mer.fault = false ∧ readable s 0 = true ∧
      (getCore s 0).sxtState ≠ 1 ∧ (getCore s 0).sxtState ≠ 4 ∧ coreReq5 s (((getCore s 0).baseline : Int) - (⟨0, [100, 90, 95, 99], [0, 0]⟩ : CoreReading).slack) ≤ 12 ∧
      (getCore s 0).sxtState ≠ 5 ∧ (getCore s 0).sxtRetries ≤ s.sxt.c1Limit := by
  decide

theorem test_snoop_held :
    let s := holds (hubRuns id) 0x2000 7
    trafficUp s = true ∧ (s.cores.all (fun e => e.2.defer.isNone)) = true ∧
      (getDom (updDom s 16 (fun d => { d with state := 1 })) 16).state ≠ 0 ∧ (getLine s 0 0x2000).st = .e ∧
      (getLine s 0 0x2001).st = .i ∧ s.wbs = [] ∧
      fillMet (updCore s 0 (fun c => { c with near := { c.near with fills := [0x2000] } })) 0 0x2000 = true := by
  decide +kernel

theorem test_request_outstanding :
    let r : AgentReq := ⟨0, 0, .rdShared, { cohReq agent0 with stamp := 9 }, false, 0, some 3, 0, false, some ⟨2, 0x21, 0, 1, 0⟩⟩
    let s := updCore { ready id with reqs := [r] } 0 (fun c => { c with bundle := some (freshBundle c) })
    findReq s 9 = some r ∧ r.quad = coreQuad r.core ∧ (s.cores.all (fun e => e.2.entering.isNone)) = true ∧ ((getCore s 0).bundle.map (·.held)) = some none ∧
      (getLine (holds s 0 1) 0 (globalLine 0)).st = .e := by
  decide +kernel

theorem test_write_back_waits :
    let w : WbBuf := ⟨1, 5, .m, 0, 0, false, 0, 0⟩
    w.quad = 1 ∧ w.line = globalLine 640 := by
  decide

/-! ## The home -/

theorem test_home_at_rest : atRest homeRuns (cohReq agent0) 0 := by
  unfold atRest
  decide +kernel

theorem test_home_no_credit : ∀ c ∈ homeRuns.home.credits, c.2.line ≠ addrOff (cohReq agent0).addr / 128 := by
  decide

theorem test_credit_held :
    let c : Credit := ⟨0, agent0, 0, 0, some 0⟩
    let s := { homeRuns with home := { homeRuns.home with credits := [(3, c)] } }
    atRest s (cohReq agent0) 0 ∧ Assoc.get s.home.credits 3 = some c ∧ 2 ^ 24 ≤ (now s + 2 ^ 64 - 0) % 2 ^ 64 ∧
      (∀ x ∈ s.home.credits, x.2.line = addrOff (cohReq agent0).addr / 128 → x.1 = 3) := by
  unfold atRest
  decide +kernel

/-- A RDOWN waits for the agent that holds its line. -/
def homeAsks : Txn :=
  ⟨0, .request .rdOwn (cohReq ⟨0, 1⟩), [(agent0, .snpFwdO)], 0, false, none, false, 0, false, [], [], none, .clean, false, false, true⟩

/-- The home with a transaction. -/
def holdTxn (x : Txn) : State := { homeRuns with home := { homeRuns.home with txns := [x] } }

theorem test_home_waits :
    let s := holdTxn homeAsks
    hubUp s = true ∧ findTxn s 0 = some homeAsks ∧ (Machine.frameOf s (homeAsks.line * 128)).isSome = true ∧
      max 1 s.home.snoopWarn * 2 ^ 16 < (now s + 2 ^ 64 - homeAsks.sentAt) % 2 ^ 64 := by
  decide

theorem test_home_granted :
    let x := { homeAsks with waiting := [], granted := some .m }
    findTxn (holdTxn x) 0 = some x ∧ x.granted.isSome = true := by
  decide

theorem test_home_free : findTxn homeRuns (addrOff 0 / 128) = none ∧
    Machine.frameOf homeRuns (128 * (addrOff 0 / 128)) = some 0 ∧ keyReady homeRuns 0 = true := by
  decide

theorem test_home_walks :
    let s := { homeRuns with home := { homeRuns.home with walking := some 5, lost := [5], lostQueue := [] } }
    s.home.walking = some 5 ∧ 5 ∈ s.home.lost ∧ s.home.lostQueue = [] ∧ s.mem.waiting = [] ∧
      (s.home.dir.all (fun e => !(ownerLost s e.1) || !(busy s e.1))) = true := by
  decide

/-! ## The meridian and the vintage -/

/-- The hub is up with these meridian registers. -/
def merRuns (f : Meridian → Meridian) : State := { hubRuns id with mer := f (hubRuns id).mer }

/-- Three modules, this one the standby, the port to the master 1 up. -/
def threeModules : State :=
  let s := merRuns (fun m => { m with role := 1, masterId := some 1, standbyId := some 0, locked := true })
  updPort { s with vin := { s.vin with inventory := [0, 1, 2], agreed := true } } 3 (fun p =>
    { p with state := 2, nbrId := some 1, t1 := now s })

theorem test_main_power : homeRuns.power.pwrOk = true ∧ threeModules.power.pwrOk = true := by decide

theorem test_pps_edges :
    let late := merRuns (fun m => { m with ppsLast := some (now (hubRuns id) - 2048000000) })
    let set := merRuns (fun m => { m with src := 2, setVal := some 5 })
    let aligned := merRuns (fun m => { m with src := 1, refPresent := true, role := 2, locked := true })
    ppsExpected late = false ∧ (ppsExpected set = true ∧ set.mer.setVal = some 5 ∧ set.mer.locked = false) ∧
      (ppsExpected aligned = true ∧ aligned.mer.setVal = none ∧ aligned.mer.holdover = false ∧ aligned.mer.ppsLast = none) := by
  decide

theorem test_pps_output :
    let s := merRuns (fun m => { m with locked := true })
    s.mer.ppsOut = none ∧ s.mer.fault = false ∧ now s / 4096000000 ≠ s.mer.ppsOutIdx ∧
      2 ^ 22 ≤ since s (now s - 2 ^ 22) := by
  decide

theorem test_sync_taken :
    let s := threeModules
    let e := fun (m : Word) => signedDiff (now s) (m.toNat + (getPort s 3).delay)
    fromParent s 3 = true ∧ s.mer.fault = false ∧ (e (BitVec.ofNat 64 (now s + 409))).natAbs * 10 ≤ 4096 ∧
      4096 < (e (BitVec.ofNat 64 (now s + 410))).natAbs * 10 := by
  decide

theorem test_beats :
    let s := threeModules
    now s / 2 ^ 22 ≠ s.mer.hbIdx ∧ upPorts s = [3] ∧ (getPort s 3).nbrId = some 1 ∧
      hbMismatch s (s.vin.vintage + 1) 0 = true ∧ now s / 2 ^ 32 ≠ s.fab.remeasureIdx ∧ now s / 2 ^ 32 ≠ s.mer.wmIdx := by
  decide

theorem test_master_missing :
    let s := threeModules
    s.mer.missing = none ∧ 2 ^ 33 ≤ since s s.mer.hbSeen ∧ s.mer.standbyId = some 0 := by
  decide

theorem test_takeover_due :
    let s := { threeModules with mer := { threeModules.mer with missing := some (now threeModules - 2 ^ 34) } }
    s.mer.takeover = none ∧ 2 ^ 34 ≤ since s (now threeModules - 2 ^ 34) ∧ 2 ≤ s.vin.inventory.length := by
  decide

theorem test_takeover_counts :
    let s := { threeModules with mer := { threeModules.mer with takeover := some (now threeModules - 2 ^ 26, [0]) } }
    s.mer.takeover = some (now threeModules - 2 ^ 26, [0]) ∧ 2 ∉ [0] ∧ 2 ∈ s.vin.inventory ∧
      s.vin.inventory.length < 2 * ([0].length + 1) ∧ 2 ^ 26 ≤ since s (now threeModules - 2 ^ 26) ∧
      2 * (([] : List Nat).length + 1) ≤ s.vin.inventory.length := by
  decide

theorem test_delay_answer :
    let s := threeModules
    (getPort s 3).t1 = now s ∧ now s < 2 ^ 64 := by
  decide

theorem test_prepare_in_time :
    let s := threeModules
    2 ^ 22 ≤ aheadOf s (now s + 2 ^ 22) ∧ aheadOf s (now s) < 2 ^ 26 ∧ s.tree.old = false ∧ s.vin.agreed = true ∧
      (5 : Nat) ≠ (s.vin.vintage + 1) % 2 ^ 32 := by
  decide

/-- The master runs a change that nobody has acknowledged. -/
def changing : State :=
  let s := threeModules
  { s with
    mer := { s.mer with role := 2 }
    vin := { s.vin with prep := some ⟨1, 0, now s, [], [], false, none⟩ } }

theorem test_change_fails :
    let s := changing
    (s.vin.prep.map (·.acks)) = some [] ∧ aheadOf s (now s) ≤ 2 ^ 24 ∧ 2 * ([] : List Nat).length ≤ s.vin.inventory.length := by
  decide

theorem test_change_staged :
    let s := threeModules
    let t := { s with
      vin := { s.vin with staged := some ⟨imageV 1, 1, 0, now s + 5, false⟩ }
      tree := { s.tree with stagedPar := some true } }
    0 < aheadOf t (now s + 5) ∧ aheadOf t (now s) = 0 ∧ t.tree.stagedPar.isSome = true ∧ t.mer.fault = false ∧
      t.vin.missed = none ∧ s.vin.staged = none := by
  decide

theorem test_report_answered :
    let s := { threeModules with mer := { threeModules.mer with role := 2 } }
    (1 : Nat) ≠ s.devId ∧ 1 ∈ s.vin.inventory ∧ s.vin.prep = none ∧ s.fab.await = [] ∧ lostDev s 1 = false := by
  decide

theorem test_register_address :
    let a : Word := 0x8000000000400008
    a.bit 63 = true ∧ a.field 62 48 = 0 ∧ ioDev a = 0 ∧ ioOff a = 0x400008 := by
  decide

/-! ## Memory, the cellar, the tree network -/

theorem test_channel_retrains :
    let s := updChan homeRuns 5 (fun c => { c with online := true, dueAt := now homeRuns })
    hubUp s = true ∧ (getChan s 5).online = true ∧ (getChan s 5).state = 0 ∧
      (∀ i < 4, (getChan s (5 / 4 * 4 + i)).state ≠ 1) ∧ (getChan s 5).dueAt ≤ now s ∧ s.mer.fault = false ∧
      (([(5, 1)] : List (Nat × Nat)).map (·.1)).Nodup := by
  decide

theorem test_channel_trained : (getChan (updChan homeRuns 63 (fun c => { c with state := 1 })) 63).state = 1 := by decide

theorem test_pass_due :
    now homeRuns / 2 ^ 46 = homeRuns.mem.scrubIdx ∧
      (let s := { homeRuns with mer := { homeRuns.mer with ext := 2 ^ 78 } }
       hubUp s = true ∧ now s / 2 ^ 46 ≠ s.mem.scrubIdx ∧ s.mem.scrubRunning = false ∧ s.mer.fault = false) := by
  decide

theorem test_scrub_read :
    let s := { homeRuns with mem := { homeRuns.mem with scrubRunning := true } }
    hubUp s = true ∧ (getChan s 63).scrubPos < scrubLines s ∧ framePoison s (scrubOffset 63 0 / 128) = false ∧ (getChan s 63).state ≠ 1 ∧
      framePoison (poisonFrame s (scrubOffset 63 0 / 128)) (scrubOffset 63 0 / 128) = true := by
  decide +kernel

/-- A page of zone 0 in transit to the cellar, with one block of the pool and an engine at work. -/
def cellaringOn : State :=
  let c : Cellaring := ⟨1, .host, 0, 2⟩
  let s := setPage homeRuns 1 { getPage homeRuns 1 with st := 2 }
  updEng { s with mem := { s.mem with cellarings := [c], pool := [(0, ⟨0, 1, [0]⟩)] } } 0 (fun e => { e with run := some (.cellaring 1) })

theorem test_cellaring_engine :
    let c : Cellaring := ⟨1, .host, 0, 2⟩
    let s := cellaringOn
    s.mem.cellarings.filter (fun x => x.mbx == c.mbx || x.page == 1) = [c] ∧ (engineOf s (.cellaring 1)).isSome = true := by
  decide

/-- A run of zeros shrinks, and granules for an image of 384 bytes are free. -/
theorem test_cellaring_fits :
    ((lzPage (min 3071 (128 * cellaringOn.mem.maxGran)) (List.replicate 64 0)).bind
      (fun im => findGrans cellaringOn.mem ((im.length + 127) / 128 + 1))).isSome = true ∧
      (findGrans cellaringOn.mem 4).isSome = true := by
  decide +kernel

theorem test_cellaring_content : (pageContent cellaringOn 1).2 = false := by decide +kernel

theorem test_decant_ready :
    let d : Decant := ⟨1, 2, 7, 0, []⟩
    let im : CellImage := ⟨0, [], 0, 0, 0, 0, [], keyTag homeRuns 0, false⟩
    let s := { homeRuns with mem := { homeRuns.mem with decants := [d], cellared := [(1, im)] } }
    s.mem.decants.filter (fun x => x.page == 1) = [d] ∧ Assoc.get s.mem.cellared 1 = some im ∧
      (expandImage s im).isSome = true := by
  decide +kernel

theorem test_job_waits :
    let s := { homeRuns with cmp := { homeRuns.cmp with queue := [.decant 1] } }
    s.cmp.queue = [.decant 1] ∧ engInService s 0 = true ∧ (getEng s 0).run = none ∧
      (let s := { homeRuns with cmp := { homeRuns.cmp with queue := [.cellaring 1] } }
       jobReady (askJob s (.cellaring 1)) (.cellaring 1) = true) := by
  decide +kernel

theorem test_period_due :
    let s := updZone homeRuns 0 (fun z => { z with entry := some [] })
    hubUp s = true ∧ now s / 2 ^ 24 ≠ s.zon.qosIdx ∧ s.mem.decants = [] ∧ liveZones s = [0] ∧
      (getZone s 0).entry.isSome = true := by
  decide

/-- A request for the L3 slice of cluster 0, and one for device 3, both at the root. -/
def flitHere : Flit := { flitTo 0 0x110 with op := .rdShared }
def flitAway : Flit := { flitTo 3 0x120 with op := .rdShared }

theorem test_flit_here :
    let s := updDom (updDom homeRuns 0 (fun d => { d with state := 2 })) 16 (fun d => { d with state := 1 })
    let g := { flitHere with hop := some (16, 0) }
    s.flt.checkstop = false ∧ lostDev s flitHere.dst = false ∧ flitHere.dst = s.devId ∧ flitCls flitHere.op ≠ 4 ∧
      isRequest flitHere = true ∧ routerOf flitHere = 20 ∧ teidRouter flitHere.teid = 0 ∧ (getDom s 16).state = 1 ∧
      routerOf g = 16 ∧ (getDom s 0).state = 2 ∧ (getDom s 0).held.length < 64 ∧
      (treeTake s g).isSome = true ∧ (treeTake s flitHere).isSome = true ∧ (treeTake s flitAway).isSome = true := by
  decide +kernel

/-- A flit of core 3 goes up, one for core 3 ends at its cluster, and one at a quadrant router takes its turn there. -/
theorem test_routers_pass :
    let a : Flit := { flitTo 0 0x120 with op := .rdShared, steid := 3 }
    let b : Flit := { flitTo 0 3 with op := .rdShared, hop := some (0, 0) }
    let c : Flit := { a with hop := some (16, 0) }
    let s := { homeRuns with tree := { homeRuns.tree with net := [a, b, c] } }
    outputPort s a = some 82 ∧ outputPort s b = some 67 ∧ outputPort s c = some 36 ∧ readyFor s s.tree.net 36 = [c] ∧
      (treeTake s a).isSome = true ∧ (treeTake s b).isSome = true ∧
      treeTake s c = some (portSends { s with tree := { s.tree with net := [a, b] } } 36 c) ∧
      treeTake { s with tree := { s.tree with failed := [0] } } c = none := by
  decide +kernel

/-- Two flits wait for the root's port to quadrant 0: a response behind a request of zone 5, without and with a slot of
that zone. -/
theorem test_root_chooses :
    let a : Flit := { flitTo 0 0 with op := .rdShared, zone := 5 }
    let b : Flit := { flitTo 0 1 with op := .data, zone := 6 }
    let s := { homeRuns with tree := { homeRuns.tree with net := [a, b] } }
    let z := { s with vin := { s.vin with cfg := { s.vin.cfg with slots := [(slotKey 0 0, 2 ^ 13 + 5)] } } }
    outputPort s a = some 0 ∧ outputPort s b = some 0 ∧ slotEntry s.vin.cfg 0 (netCycle s % 256) / 2 ^ 13 = 0 ∧
      portFree s 0 = true ∧ treeTake s b = some (portSends { s with tree := { s.tree with net := [a] } } 0 b) ∧ treeTake s a = none ∧
      treeTake z a = some (portSends { z with tree := { z.tree with net := [b] } } 0 a) ∧
      treeTake (portSends s 0 a) b = none := by
  decide +kernel

theorem test_flit_away :
    let s := updPort (setRt homeRuns false [(3, 0x85)]) 5 (fun p => { p with state := 2 })
    flitAway.dst ≠ s.devId ∧ s.tree.stagedPar = none ∧ s.fab.mesh = false ∧ flitAway.det = 0 ∧
      s.vin.divergent = false ∧ (treeTake s flitAway).isSome = true ∧
      rtPort s flitAway.par flitAway.dst = some 5 ∧ portUp s 5 = true ∧ flitAway.hops < 48 ∧
      lostDev { s with fab := { s.fab with lostMap := [(3, true)] } } 3 = true := by
  decide +kernel

theorem test_nack_due :
    let s := { homeRuns with tree := { homeRuns.tree with refused := [(flitHere, now homeRuns)] } }
    (flitHere, now homeRuns) ∈ s.tree.refused ∧ (now s + 2 ^ 64 - now homeRuns) % 2 ^ 64 < 2 ^ 63 := by
  decide

theorem test_parity_drained :
    let s := { threeModules with
      tree := { threeModules.tree with old := true }
      vin := { threeModules.vin with staged := some ⟨imageV 1, 1, 0, 0, false⟩ } }
    s.tree.old = true ∧ oldFlits s = 0 ∧ s.tree.stagedPar = none ∧ s.mer.role ≠ 2 ∧ s.mer.masterId = some 1 ∧
      2 ^ 24 ≤ since s s.tree.stagedAt := by
  decide

theorem test_domain_drains :
    let s := updDom homeRuns 17 (fun d => { d with state := 2 })
    (getDom s 17).state = 2 ∧ s.reqs = [] ∧ (domCores 17).all (fun n => coreDrained (getCore s n)) = true ∧
      s.sxt.reliefs = [] ∧ s.sxt.requests = [] ∧
      (getLine (setLine s 1 9 { AgentLine.absent with st := .m }) 1 9).st = .m := by
  decide +kernel

theorem test_domain_states :
    let s := updDom (updDom homeRuns 3 (fun d => { d with state := 3 })) 19 (fun d => { d with state := 4 })
    (getDom s 3).state = 3 ∧ (getDom s 3).isolated = none ∧ s.wbs = [] ∧ (getDom s 3).held = [] ∧ (getDom s 19).state = 4 ∧
      (getCore s 204).sxtState = 0 := by
  decide

theorem test_lane_ordered :
    let s := { threeModules with sxt := { threeModules.sxt with laneDue := [50] } }
    s.sxt.laneDue = [50] ∧ mayStartLane (getPort s (50 / 16)) (50 % 16) = true := by
  decide

/-! ## Hezhaul -/

/-- Port 3 leads to device 1 and has this state. -/
def withPort (f : Port → Port) : State := updPort threeModules 3 f

def mgmtFlit : Flit := { flitTo 1 0x121 with op := .report }

theorem test_frame_good :
    let s := threeModules
    let fr := frameOf 1 [mgmtFlit]
    portRuns (getPort s 3) = true ∧ frameBad fr = false ∧ fr.good = true ∧ fr.uncorr = 0 ∧ senderOk (getPort s 3) fr = true ∧ fr.idle = false ∧
      fr.seq = ((getPort s 3).rxSeq + 1) % 4096 ∧ s.fab.isolated = false ∧ s.flt.checkstop = false := by
  decide

theorem test_frame_leaves :
    let s := withPort (fun x => { x with tx := [mgmtFlit], credits := [(8, 64)] })
    (getPort s 3).tx = [mgmtFlit] ∧ (getPort s 3).resendFrom = [] ∧ (getPort s 3).sending = none ∧ flitCls mgmtFlit.op = 4 ∧
      mgmtFlit.more = 0 ∧ 1 ≤ creditsFor (getPort s 3) (vcOf mgmtFlit) ∧ (getPort s 3).buf.length < 256 := by
  decide

theorem test_replay_due :
    let s := withPort (fun x => { x with buf := [frameOf 1 []], nakWait := true, ackSeen := 9 })
    let x := getPort (takeHeader s 3 { frameOf 0 [] with ack := 9 }) 3
    let y := { x with replays := [(1, 8)] }
    unacked x ≠ [] ∧ replaysSpent x = false ∧ replaysSpent y = true ∧ portRuns (getPort s 3) = true ∧
      senderOk (getPort s 3) { frameOf 0 [] with sender := some 9 } = false ∧ unacked (getPort s 3) ≠ [] ∧ 2 ^ 15 ≤ since s (getPort s 3).ackAt ∧
      2 ^ 14 ≤ since s (getPort s 3).nakAt ∧ 2 ^ 24 ≤ since s (getPort s 3).hbAt := by
  decide

theorem test_port_ages :
    let s := withPort (fun x => { x with state := 3, since := now threeModules, frozen := [([], 0)], rtLane := some 1 })
    (getPort s 3).state = 3 ∧ since s (getPort s 3).since < 2 ^ 24 ∧ 2 ^ 26 ≤ since s 0 ∧ (getPort s 3).rtLane.isSome = true := by
  decide

/-- Port 3 of a torus of three trains. -/
def training : State :=
  let s := withPort (fun x => { x with state := 1, inited := true, width := 0 })
  { s with rlx := { s.rlx with flash := { s.rlx.flash with sizes := [3, 1, 1, 1, 1, 1] } } }

def helloGood : HelloMsg :=
  ⟨0, training.rlx.flash.mesh, false, false, 2, training.rlx.flash.sizes, none, recordCrc training⟩

theorem test_hello_agrees :
    helloOk training 3 helloGood = true ∧ helloOk training 3 { helloGood with port := 5 } = false ∧
      helloOk { training with devValid := false } 3 { helloGood with devId := some 1 } = true := by
  decide +kernel

theorem test_origin_better : training.fab.bestSerial.toNat ≤ 2 ^ 64 ∧
    ((true = true ∧ training.fab.bestMaster = false) ∨ (true = training.fab.bestMaster ∧ False)) := by
  decide

theorem test_origin_quiet :
    let s := { homeRuns with devValid := false, fab := { homeRuns.fab with bestSerial := homeRuns.part.serial } }
    2 ^ 26 ≤ since s s.fab.bestAt ∧ 4 ≤ s.power.step ∧ (∀ p < 12, (getPort s p).state ≠ 1 ∧ (getPort s p).state ≠ 3) := by
  decide

theorem test_pctl_values :
    let v : Word := 0x9
    v.bit 3 = true ∧ (0 : Word).bit 3 = false ∧ v.field 1 0 = 1 ∧ (getPort homeRuns 0).state = 0 ∧ (getPort threeModules 3).state = 2 := by
  decide

/-- The master of a ring of three, which has heard of device 1 last that its links are down. -/
def ringMaster : State :=
  let s := { threeModules with mer := { threeModules.mer with role := 2, masterId := some 0 } }
  { s with
    devId := 0
    devValid := true
    fab := { s.fab with
      mesh := false, sizes := [3, 1, 1, 1, 1, 1], downs := [(0, 0, 1, 0), (2, 1, 1, 0)], heard := [(2, now s)] } }

theorem test_device_cut_off :
    let s := ringMaster
    lostDev s 1 = false ∧ 1 ∈ s.vin.inventory ∧ cutOff s 1 = true ∧ lastReport s 1 = some 0 ∧
      (∀ h ∈ s.fab.heard, h.1 ≠ 1) ∧ max 1 s.fab.lostWait * 2 ^ 20 ≤ since s 0 ∧ heardMajority s = true ∧
      heardMajority { s with fab := { s.fab with heard := [] } } = false := by
  decide

theorem test_reports_route :
    let s := { ringMaster with fab := { ringMaster.fab with downs := [(0, 0, 1, 0)] } }
    s.vin.agreed = true ∧
      giveUp s (deadLinks s) s.vin.inventory.length (s.vin.inventory.filter (fun d => !(lostDev s d))) = [] := by
  decide +kernel

theorem test_flooded_stamps :
    let s := threeModules
    seenStamp s 5 = false ∧ seenStamp (noteStamp s 5) 5 = true ∧ s.mer.masterId = some 1 ∧ 1 ≠ s.devId ∧
      lostDev { s with fab := { s.fab with lostMap := [(2, true)] } } 2 = true := by
  decide

theorem test_no_port :
    let s := { ringMaster with fab := { ringMaster.fab with discovered := true, ports := [] } }
    upPorts s = [] ∧ hasLinks s = true ∧ 2 ^ 26 ≤ since s s.fab.lastUp ∧ s.fab.isolated = false := by
  decide

theorem test_sweep_ages :
    let s := { threeModules with fab := { threeModules.fab with sweepAt := some (0, 1, 2) } }
    s.fab.sweepAt = some (0, 1, 2) ∧ 2 ^ 22 ≤ since s 0 := by
  decide

/-! ## Channels, movers, engines -/

/-- An operation of subchannel 5 on mover channel 1, in this state and wait. -/
def opIn (state : Nat) (w : OpWait) : ChOp :=
  ⟨{ jrec 2 with curCcw := 0x4000000000000, deadline := 1 }, state, w, some 1, 0, none, [], 0x10, 0, 0, 0, 0, 0, 0, false, 0, none, 0, false, none, [], 0, 0⟩

def withOp (o : ChOp) : State := putOp homeRuns 5 o

theorem test_ccw_read :
    let o := opIn 2 .ccw
    getOp (withOp o) 5 = some o ∧ o.wait = .ccw ∧ o.state = 2 ∧
      (match readCcw (withOp o) o.jr.zone o.jr.curCcw [0x30000000, 16] 0 (.ok []) with
        | (.ok w, u) => decide (w = (0x30000000, 16) ∧ u = withOp o)
        | _ => false) = true ∧
      (match readCcw (withOp o) o.jr.zone o.jr.curCcw [] 0 .poisoned with
        | (.error e, _) => decide (e = 0x051A)
        | _ => false) = true := by
  decide +kernel

theorem test_ccw_out :
    let w : Word := 0x8010000000
    ccwCode w = 0x10 ∧ ccwCount w = 128 ∧ ccwReserved w = false ∧ (ccwFlags w).testBit 6 = false ∧
      (ccwFlags w).testBit 5 = false ∧ xformOk 0x10 (ccwXform w) = true ∧ eKind (opIn 2 .ccw).jr.entry = 0 := by
  decide

theorem test_status_matches :
    let o := opIn 2 .status
    o.jr.phase < 3 ∧ o.jr.stamp = 0 ∧ o.jr.seq = 0 ∧ eCtl o.jr.entry = 0 ∧ o.upc = none ∧ o.opcode = 0x10 ∧
      (0x8000 : Nat).testBit 15 = true ∧ (0x8000 : Nat).testBit 14 = false ∧ (0x8000 : Nat).testBit 13 = false := by
  decide

theorem test_controllers :
    (getPcie (updPcie homeRuns 0 (fun p => { p with up := true })) 0).up = true ∧ (getPcie homeRuns 0).up = false := by
  decide

theorem test_operation_late :
    let o := opIn 3 .status
    pastDue homeRuns o.jr = true ∧ o.jr.phase < 3 ∧ 2 ^ 22 ≤ (now homeRuns + 2 ^ 64 - 0) % 2 ^ 64 ∧
      2 ^ 26 ≤ (now homeRuns + 2 ^ 64 - 0) % 2 ^ 64 ∧ ({ o with haltAt := some 0 }).haltAt = some 0 ∧
      ({ o with upc := some 0xE000, usteps := 65536 }).upc.isSome = true := by
  decide

theorem test_operation_ended :
    let o := { opIn 4 .nothing with jr := { (opIn 4 .nothing).jr with phase := 3 } }
    pastDue homeRuns o.jr = true ∧ o.state = 4 ∧ 3 ≤ o.jr.phase := by
  decide

theorem test_processor_free :
    (getCp homeRuns 3).state = 0 ∧
      (faultAt (updCp homeRuns 3 (fun c => { c with faults := satAdd 16 c.faults 1, state := 1 })) 0x0A 2 0 0 0 3 0).chs.ops = [] := by
  decide +kernel

theorem test_journal_waits :
    let o := opIn 2 (.journal 1 false true)
    getOp (withOp o) 5 = some o ∧ o.wait = .journal 1 false true := by
  decide

theorem test_mirror_holds :
    let s := { threeModules with chs := { threeModules.chs with mirrors := [(3 * 65536, jrec 1)] } }
    (getPort s 3).nbrId = some 1 ∧ Assoc.get s.chs.mirrors (3 * 65536 + 0 % 65536) = some (jrec 1) ∧
      lostDev s 1 = false ∧ (jrec 1).count < ({ jrec 1 with count := 1 }).count := by
  decide

theorem test_queue_waits :
    let q : PostQueue := ⟨0, 0, 4, 0, 0, 0, [], [5]⟩
    let s := { withOp (opIn 4 .slot) with chs := { (withOp (opIn 4 .slot)).chs with queues := [(0, q)] } }
    Assoc.get s.chs.queues (0 : Word).toNat = some q ∧ q.waiting = [5] ∧ getOp s 5 = some (opIn 4 .slot) := by
  decide

/-- Mover channel 1000 with these registers, beside channels of operations below 8. -/
def moving (f : Chn → Chn) : State := updChn { homeRuns with chs := { homeRuns.chs with mch := 8 } } 1000 f

theorem test_ring_writes :
    let s := moving id
    let c := getChn s 1000
    opChannel s 1000 = false ∧ ((3 : Word).field 31 0 + 2 ^ 32 - c.head) % 2 ^ 32 ≤ 2 ^ c.m ∧ c.en = false ∧
      2 ^ c.m < ((100 : Word).field 31 0 + 2 ^ 32 - c.head) % 2 ^ 32 ∧ c.dead = false ∧ c.ownWait = false ∧
      c.hold = false ∧ c.desc = none := by
  decide

theorem test_zone_words :
    let s := updZone (moving (fun c => { c with en := true })) 0 (fun z => { z with entry := some [0, 0, 0, 0, 0x8000000000000] })
    let c := getChn s 1000
    let v := setBit (chnZoneWord c) 26 true
    c.en = true ∧ setBit (chnZoneWord c) 26 (v.bit 26) = BitVec.ofNat 64 (2 ^ 26 * (v.toNat / 2 ^ 26)) ∧ v.bit 26 = true ∧
      v.bit 63 = true ∧ v.field 61 50 = 0 ∧ (getZone s 0).entry.isSome = true ∧ zoneChns (moving id) 0 1000 < 1 ∧
      (wordAt [0, 0, 0, 0, 0x8000000000000] 4).field 52 42 = 512 := by
  decide

theorem test_descriptor_comes :
    let s := moving (fun c => { c with en := true, admitted := true, tail := 1, base := 0x4000000000000 })
    let c := getChn s 1000
    c.wb = none ∧ c.halted = false ∧ chnStopping c = false ∧ c.head ≠ c.tail ∧ s.mov.disable.testBit (1000 % 16) = false ∧
      (match readAnswer s false (ringAddr c c.head).toNat 64 c.zone (.ok (wordsBytes [0x8000000000000000])) with
        | (.ok bs, _) => (wordAt (bytesWords 8 bs) 0).bit 63
        | _ => false) = true := by
  decide +kernel

/-- A copy of 128 bytes within memory. -/
def copyDesc : Desc := ⟨0, true, false, 0, 0, 0, 128, 0x1000, 0x2000, 0, 0, 0⟩

theorem test_beat_issues :
    let s := moving (fun c => { c with en := true, admitted := true, reading := true, desc := some copyDesc, count := 128 })
    let c := getChn s 1000
    c.desc = some copyDesc ∧ transforms copyDesc = false ∧ mayRead c copyDesc = true ∧ c.cipher = none ∧ c.pipe = none ∧
      0 < c.count ∧ srcPcie copyDesc = false ∧ localMem s (formBeat c copyDesc).1 = true := by
  decide

theorem test_beat_returns :
    let b : Beat := ⟨0, 0x1000, 0x2000, 128, none, false⟩
    let s := moving (fun c => { c with desc := some copyDesc, beats := [b] })
    (getChn s 1000).beats.find? (fun x => x.id == 0 && x.data.isNone && !x.issued) = some b ∧ b.dst ≠ deadDst ∧
      b.dst ≠ flushDst ∧ (match readAnswer s (srcPcie copyDesc) b.src b.len 0 (.ok []) with
        | (.ok _, _) => true
        | _ => false) = true := by
  decide +kernel

theorem test_beat_confirms :
    let b : Beat := ⟨0, 0x1000, 0x4000000000000, 128, some [], true⟩
    let s := moving (fun c => { c with desc := some copyDesc, beats := [b] })
    (getChn s 1000).beats.find? (fun x => x.id == 0 && x.issued) = some b ∧
      (match landBeat s 1000 copyDesc b with
        | (.ok [], _) => true
        | _ => false) = true ∧ (openIds (getChn s 1000)).contains 0 = false := by
  decide +kernel

theorem test_flush_read :
    let b : Beat := ⟨0, 0x207F, flushDst, 0, none, false⟩
    let s := moving (fun c => { c with desc := some copyDesc, beats := [b] })
    (getChn s 1000).beats.find? (fun x => x.id == 0 && x.data.isNone && !x.issued) = some b ∧ b.dst = flushDst ∧
      needsFlush (getChn s 1000) { copyDesc with op := 1 } = true := by
  decide

theorem test_written_back :
    let s := moving (fun c => { c with wb := some (1, 0, 0, 0, 0), pause := true })
    (getChn s 1000).wb = some (1, 0, 0, 0, 0) ∧ opChannel s 1000 = false := by
  decide

theorem test_pause_drains :
    let s := moving (fun c => { c with pause := true })
    chnStopping (getChn s 1000) = true ∧ (getChn s 1000).paused = false ∧ drained (getChn s 1000) = true ∧
      (getChn s 1000).desc = none ∧ (getChn s 1000).eng = none ∧ s.chs.ops = [] := by
  decide

theorem test_engine_control :
    let s := moving id
    s.mov.disable.testBit 3 = false ∧ s.bnd.mov.testBit 3 = false ∧ (∀ k < 64, (getChn s (16 * k + 3)).en = false ∧ (getChn s (16 * k + 3)).desc = none) ∧
      ({ s.mov with disable := 8 }).disable.testBit 3 = true := by
  decide

theorem test_engine_beat :
    let b : Beat := ⟨0, 0, 0, 1, some [7], false⟩
    let d : Desc := { copyDesc with comp := 1 }
    let s := moving (fun c => { c with desc := some d, eng := some 2, stream := some (lzFresh 1), beats := [b] })
    let c := getChn s 1000
    turnBeat c = some (b, [7]) ∧ d.comp = 1 ∧ c.failed = none ∧ c.wb = none ∧ (getEng s 2).job ≠ 5 ∧ d.cipher = 0 ∧
      decantWaits (compressBeat s 1000 d b [7] (lzFresh 1)) = false ∧ (lzFresh 1).kind = 1 := by
  decide +kernel

theorem test_rebuild :
    let s := updEng (updChn homeRuns 3 (fun c => { c with desc := some copyDesc, eng := some 2, stream := some (lzFresh 1) })) 2
      (fun e => { e with job := 5 })
    (getEng s 2).job = 5 ∧ opChannel s 3 = true ∧ (anchorExtents (lzFresh 1)).length < 16 := by
  decide

theorem test_pipeline :
    let s := { homeRuns with cip := { homeRuns.cip with queue := [4] } }
    s.cip.queue = [4] ∧ idlePipe s = some 0 := by
  decide

theorem test_pipeline_held :
    let s := updPipe (moving (fun c => { c with desc := some copyDesc, count := 128, pipe := some 2 })) 2
      (fun p => { p with job := 1, channel := 1000 })
    let t := { s with cip := { s.cip with queue := [4] } }
    let c := getChn t 1000
    (getPipe t 2).job ≠ 0 ∧ 2 ^ 14 ≤ (now t + 2 ^ 64 - (getPipe t 2).since) % 2 ^ 64 ∧ c.desc = some copyDesc ∧
      atBoundary c copyDesc = true ∧ (∀ b ∈ c.beats, b.issued = true) ∧ c.failed = none ∧ c.ended = false ∧ c.eng = none ∧
      1000 ∉ t.cip.queue ∧ opChannel t 1000 = false := by
  decide

theorem test_pipeline_mid :
    atBoundary { Chn.reset with count := 100 } copyDesc = false := by decide

theorem test_key_commits :
    let s := { homeRuns with cip := { homeRuns.cip with kstBusy := true } }
    s.cip.kstBusy = true ∧ keySettled s s.cip.kstSlot = true ∧ s.cip.kstMbx = none ∧ homeRuns.cip.kstBusy = false ∧
      (1 : Word).field 1 0 = 1 ∧ (2 : Word).field 1 0 = 2 ∧ (0 : Word).field 7 0 ≠ 0xFF := by
  decide
/-! Commands of the mailboxes, zones and rings. -/

/-- The command with these words, as the host mailbox holds it. -/
def theCmd (ws : List Word) : Accepted := ⟨ws, 0, 0, false, none, 0, []⟩
def given (s : State) (ws : List Word) : State := updBox s .host (fun b => { b with acc := some (theCmd ws) })
def header (code : Nat) : Word := BitVec.ofNat 64 (code * 2 ^ 48)

/-- Every row's command is ready in a mailbox that holds it. -/
theorem test_commands_ready :
    ([0x0101, 0x0102, 0x0103, 0x0104, 0x0105, 0x0201, 0x0202, 0x0203, 0x0204, 0x0205, 0x0206, 0x0207, 0x0208, 0x0209, 0x020A,
      0x020B, 0x020C, 0x0301, 0x0302, 0x0303, 0x0304, 0x0305, 0x0306, 0x0307, 0x0308, 0x0309, 0x030A, 0x030B, 0x0401, 0x0402,
      0x0403, 0x0404, 0x0501, 0x0502, 0x0503, 0x0504, 0x0505, 0x0601, 0x0602, 0x0603, 0x0604, 0x0605, 0x0701, 0x0702, 0x0703,
      0x0801, 0x0802, 0x0803, 0x0804, 0x0901, 0x0902, 0x0903, 0x0904, 0x0A01, 0x0A02, 0x0A03, 0x0B01, 0x0B02, 0x0B03, 0x0B04,
      0x0B05].all (fun c => let ws := [header c, 1, 1]
        decide (readyCmd (given homeRuns ws) .host c = some (theCmd ws)) && paramsOk ws)) = true := by
  decide +kernel

theorem test_parameter_reserved :
    let ws := [header 0x0201, BitVec.ofNat 64 (2 ^ 24)]
    cmdRow (.zoneCreate .host) = some (.host, 0x0201) ∧ cmdRow (.zoneCreate .bonded) = some (.bonded, 0x0201) ∧
      readyCmd (given homeRuns ws) .host 0x0201 = some (theCmd ws) ∧ paramsOk ws = false ∧
      readyCmd homeRuns .bonded 0x0201 = none := by
  decide +kernel

/-- Zone 1 in a state, vcore 2 of it in a state on core 0, and zone 2 empty. -/
def zoned (zs vs : Nat) : State :=
  updVcore (updZone homeRuns 1 (fun z => { z with state := zs })) 1 2 (fun _ => ⟨0, vs, false⟩)

theorem test_zone_commands :
    let a := theCmd [header 0x0201, 2 * 2 ^ 12 + 1, 0]
    (cmdP a.words 1).field 11 0 = 1 ∧ (cmdP a.words 1).field 23 12 = 2 ∧ notOwner (zoned 1 1) .host a 1 = false ∧
      (getZone homeRuns 1).state = 0 ∧ (getZone (zoned 3 0) 1).state = 3 ∧ (getZone (zoned 1 2) 1).state = 1 ∧
      (zoneHolds (updZone homeRuns 1 (fun z => { z with state := 3 })) 1).1 = false ∧ (zoneHolds (zoned 3 1) 1).1 = true ∧
      (requestReset (zoned 1 1) 1 (some .host) 0 0).1.isSome = true := by
  decide +kernel

theorem test_zone_stop :
    let y := fun (s : State) => (zoneVcores s 1).foldl (fun s e => quiesceVcore s 1 e.1) s
    ((zoneVcores (y (zoned 1 1)) 1).all (fun e => decide (e.2.state ≠ 2 ∧ e.2.state ≠ 3) && coreDrained (getCore (y (zoned 1 1)) e.2.core))) = true ∧
      ((zoneVcores (y (zoned 1 3)) 1).any (fun e => decide (e.2.state = 2 ∨ e.2.state = 3))) = true := by
  decide +kernel

theorem test_register_commands :
    let q := cmdReq 0
    (readLocal homeRuns q 0x100000 8).isSome = true ∧ readLocal homeRuns q 0xFFFFF8 8 = none ∧
      (writeLocal homeRuns q 0x100000 8 1).isSome = true ∧ writeLocal homeRuns q 0xFFFFF8 8 1 = none := by
  decide +kernel

/-- Core 3 can take a vcore, and the vcore can start there. -/
def coreFree : State :=
  updDom (updDom (updCore (zoned 1 0) 3 (fun c => { c with power := true, sxtState := 0 })) 0 (fun d => { d with state := 1 }))
    16 (fun d => { d with state := 1 })

theorem test_vcore_commands :
    let s := updVcore coreFree 1 2 (fun _ => ⟨3, 1, false⟩)
    coreAvailable coreFree 3 = true ∧ (getVcore coreFree 1 2).state = 0 ∧ (getVcore s 1 2).state = 1 ∧
      coreOnline s 3 = true ∧ s.vin.divergent = false ∧ coreDrained (getCore s 3) = true ∧ (startVcore s 1 2 0x1000).1.isSome = true ∧
      (getVcore (zoned 1 4) 1 2).state = 4 ∧ (getVcore (zoned 1 2) 1 2).state = 2 := by
  decide +kernel

theorem test_image_commands :
    let im : StateImage := ⟨1, 2, 0, 0, 1, false, true, false, true, CoreRegs.reset, [], []⟩
    let s := { homeRuns with sxt := { homeRuns.sxt with images := [(3, im)] } }
    Assoc.get s.sxt.images 3 = some im ∧ imageBonded im = false ∧ askZone s .host (theCmd []) = 0 ∧
      (cmdPut s 0x1000 [1, 2, 3] 0 false).1 = true := by
  decide +kernel

theorem test_page_commands :
    let s := homeRuns
    let a := theCmd [header 0x0301, 0, 1, 1]
    let y := callPages s (rangePages s a (some 1))
    (y.1 = true ∧ 0 < usablePages y.2) ∧ (callPages (holds s 0 0) (rangePages s a none)).1 = true ∧ 0 < usablePages s ∧ (match assignPage s 0 1 with | .ok _ => true | .error _ => false) = true ∧
      (match mapPage s 0 1 with | .ok _ => false | .error _ => true) = true ∧ (getPage s 0).st ≠ 2 ∧
      (cmdWords s 0x1000 2 0 false).1.isSome = true ∧ notOwner s .host (theCmd []) 5 = false := by
  decide +kernel

theorem test_list_commands :
    let s := updList homeRuns 1 (fun l => { l with frames := [7, 8, 9], lowMark := 1 })
    (getList s 1).frames.length = 3 ∧ (getList s 1).lowMark < 3 - 1 ∧ (1 : Nat) ≠ 2 := by
  decide +kernel

theorem test_pool_frees :
    let s := { homeRuns with mem := { homeRuns.mem with pool := [(0, ⟨1, 0, [0]⟩)], usedGran := [] } }
    Assoc.get s.mem.pool 0 = some ⟨1, 0, [0]⟩ ∧ freePosition s = some 1 ∧ (poolBlocks s.mem).length + 1 ≤ 131072 ∧
      512 + 512 * 1 ≤ usablePages s := by
  decide +kernel

/-- The frames of one unit lie on the list of zone 0. -/
theorem test_pool_takes :
    let l := (List.range 512).map (fun i => 512 + i)
    (l.filter (fun f => decide (512 ≤ f ∧ f < 512 + 512 * 1))).length = 512 * 1 := by
  decide +kernel

theorem test_key_commands :
    let s := homeRuns
    let a := theCmd [header 0x0901, 1, 0x1000]
    slotNamed s a 1 = true ∧ s.cip.kstBusy = false ∧ (1 : Nat) ≠ 0 ∧
      keyBlockOk { s with mem := { s.mem with tags := [(0, 1)] } } a 0x1000 = true ∧
      (cmdWords { s with mem := { s.mem with tags := [(0, 1)] } } 0x1000 9 0 true).1.isSome = true ∧
      loadRefused s 1 false 1 1 ≠ none ∧ (∃ k : BitVec 256, loadRefused s 1 false 1 k = none) := by
  refine ⟨by decide +kernel, by decide +kernel, by decide, by decide +kernel, by decide +kernel, by decide +kernel, 2, by decide +kernel⟩

theorem test_granule_commands :
    let s := homeRuns
    (callPages s ((granPages 0).take 2)).1 = true ∧ granZone s 0 = some 0 ∧ 512 * 0 < usablePages s ∧ granTag { s with mem := { s.mem with tags := [(0, 1)] } } 0 ≠ 0 := by
  decide +kernel

theorem test_fabric_commands :
    let s := updPort homeRuns 3 (fun x => { x with state := 2 })
    (getPort s 3).state = 2 ∧ (getPort s 3).rtLane = none ∧ (getPort homeRuns 3).state ≠ 2 ∧
      mayStartLane (getPort s 3) 1 = true ∧ mayStartLane { getPort s 3 with width := 1 } 1 = false := by
  decide +kernel

theorem test_channel_commands :
    let s := { homeRuns with chs := { homeRuns.chs with en := true, nsub := 16 } }
    s.chs.en = true ∧ (match (startCheck s 0 3 0 false).1 with | .error _ => true | .ok _ => false) = true ∧
      (3 : Nat) < nsubOf s ∧ otherDevs s = [] ∧ otherDevs threeModules ≠ [] ∧ boxKind s .host ≠ 3 ∧
      (copyHeld 1 0 1 0 0x1000 s).1 = some 0 := by
  decide +kernel

theorem test_fault_commands :
    let x : FRec := ⟨5, 0, 0, 5, 2, 2, 2, false, false, false, false, false, 0, none, 0, 1, 0, 0, 0, none⟩
    let s := { homeRuns with flt := { homeRuns.flt with hist := [x], unack := [x] } }
    (findUnack s 5).isSome = true ∧ findUnack s 6 = none := by
  decide +kernel

theorem test_log_read :
    let s := openLog homeRuns
    let g := Table.get segOf s.log.segs s.log.cur
    let t := storeEntry homeRuns (mkEntry homeRuns 0x50 0 1 [] 0)
    g.state = 1 ∧ (List.range 16).find? (fun i => (Table.get segOf t.log.segs i).state != 0 &&
      (Table.get segOf t.log.segs i).seqNo == g.seqNo) = some t.log.cur ∧
      (Table.get segOf t.log.segs t.log.cur).entries.length = 1 := by
  decide +kernel

theorem test_core_commands :
    let s := updCore (onCore0 homeRuns) 16 (fun c => { c with sxtState := 1 })
    let r := { homeRuns with rlx := { homeRuns.rlx with flash := { homeRuns.rlx.flash with retired := [(3, true)] } } }
    spareReady s (coreCluster 0) = true ∧ vcoreOn s 0 = some (1, 2) ∧ (getVcore s 1 2).state = 2 ∧ mayRest (getCore s 0) = true ∧
      Table.get noFlag r.rlx.flash.retired 3 = true := by
  decide +kernel

theorem test_vintage_commands :
    let s := homeRuns
    let m := { s with mer := { s.mer with role := 2, masterId := some s.devId, locked := false } }
    m.mer.masterId.isSome = true ∧ isMaster m = true ∧ m.vin.prep = none ∧ m.vin.staged = none ∧
      ppsPresent m = false ∧ (match (readImage m 0x1000).1 with | some (.error _) => true | _ => false) = true ∧
      (cmdPut m 0x1000 [1] 0 false).1 = true := by
  decide +kernel

theorem test_signed_commands :
    let s := homeRuns
    (signedImage s 0x1000 160).1.isSome = true ∧ s.rlx.flash.custKey = none ∧ (cmdWords s 0x1000 6 0 false).1.isSome = true := by
  decide +kernel

theorem test_power_commands :
    let s := fun (k : Nat) => updDom (updDom homeRuns 17 (fun d => { d with state := 1 })) 4 (fun d => { d with state := k })
    domInUse (s 1) 4 = false ∧ inTransition (s 1) 4 = false ∧ inTransition (s 1) 17 = false ∧ domBonded (s 1) 4 = false ∧
      (getDom (s 0) 4).state = 0 ∧ (getDom (s 2) 4).state = 2 ∧ (getDom (s 1) 17).state = 1 ∧
      (homeRuns.zon.zones.all (fun z => decide (z.1 ≠ 0 → z.2.state ≠ 1 ∧ z.2.state ≠ 2))) = true ∧
      (quiesceAll homeRuns).wbs = [] ∧ allDrained (quiesceAll homeRuns) = true := by
  decide +kernel

theorem test_zone_reset_steps :
    let r := fun (k : Nat) (st : Word) => (⟨st, k, 0, 0, false, [], 0, 0⟩ : ZoneRst)
    let s := fun (k : Nat) (st : Word) => updZone homeRuns 1 (fun z => { z with state := 2, rst := some (r k st) })
    (getZone (s 3 0) 1).rst = some (r 3 0) ∧ resetStepDone (s 3 0) 1 3 = true ∧ resetStepDone (s 8 0) 1 8 = true ∧
      stampDev 0 = homeRuns.devId ∧ stampDev (BitVec.ofNat 64 (2 ^ 63)) ≠ homeRuns.devId ∧
      stepBudget 3 ≤ since { s 3 0 with mer := { homeRuns.mer with ext := 2 ^ 60 } } 0 := by
  decide +kernel

theorem test_ring_and_bonded :
    let s := homeRuns
    let w := { s with bnd := { s.bnd with wdgArmed := true, wdgExp := 0 } }
    debugPermitted (getCore (updCore s 3 (fun c => { c with dbgOi := true, dbgOn := true })) 3) false = true ∧
      debugPermitted (getCore s 3) false = false ∧ s.part.fuseB = false ∧ (now w + 2 ^ 64 - 0) % 2 ^ 64 < 2 ^ 63 ∧
      s.flt.checkstop = false ∧ Word.bit 1 0 = true ∧ (getRing s 1).box.acc = none ∧
      entryNvc [0] = 0 ∧ (0 : Word).field 11 0 ≤ entryNvc [0] ∧ { s.power with standby := true }.standby = true := by
  decide +kernel

theorem test_zone_entry :
    let s := updZone homeRuns 1 (fun z => { z with entry := some [BitVec.ofNat 64 (2 ^ 63), 0] })
    (zoneEntry (reporter 8) s 1).1.isSome = true := by
  decide +kernel

theorem test_forwards :
    let f : Forward := ⟨9, 1, .host, [1], 0, 0, 0, 0⟩
    let s := { homeRuns with rlx := { homeRuns.rlx with running := true, forwards := [f] } }
    let l := { s with mer := { s.mer with ext := 2 ^ 60 } }
    s.rlx.forwards.find? (fun f => f.stamp == 9) = some f ∧ 2 ^ 22 ≤ since l f.sentAt ∧ 2 ^ 26 ≤ since l f.since ∧
      since homeRuns (now homeRuns) < 2 ^ 22 ∧ cmdCode [header 0x0101] ≠ 0x0205 ∧ homeRuns.rlx.served = [] := by
  decide +kernel

theorem test_command_decided :
    let a := { theCmd [header 0x0101] with outcome := some (okRes []) }
    let s := updBox homeRuns .host (fun b => { b with acc := some a })
    (getBox s .host).acc = some a ∧ a.outcome = some (okRes []) ∧ cmdCode a.words ≠ 0x0B04 := by
  decide
/-! Faults, the service processor, the logbook, supplies and start-up. -/

def recOf (st : Word) (level : Nat) (timer : Option Nat) : FRec :=
  ⟨st, 0, 0, 5, 2, level, level, false, false, false, false, false, 0, none, 0, 1, 0, 0, 0, timer⟩

theorem test_reports :
    let r := rep0 0x12 0
    let x : FRec := { recOf 5 0 none with source := 0x12, cls := 0 }
    let s := { State.reset with flt := { State.reset.flt with hist := [x] } }
    State.reset.flt.checkstop = false ∧ State.reset.flt.hist.any (coalesces State.reset r) = false ∧
      s.flt.hist.any (coalesces s r) = true ∧ 1 ≤ r.source ∧ r.source ≤ 0x15 ∧ r.cls ≤ 5 := by
  decide +kernel

theorem test_salvage :
    let x := recOf 5 4 none
    let s := updDom { homeRuns with flt := { homeRuns.flt with unack := [x] } } 18
      (fun d => { d with state := 3, isolated := some 5, t0 := 0 })
    let l := { s with mer := { s.mer with ext := 2 ^ 60 } }
    (getDom l 18).state = 3 ∧ (getDom l 18).isolated = some 5 ∧ 2 ^ 26 ≤ since l (getDom l 18).t0 ∧ findUnack l 5 = some x := by
  decide +kernel

theorem test_escalation :
    let x := recOf 5 2 (some 0)
    let s := { homeRuns with flt := { homeRuns.flt with unack := [x], active := [2] } }
    let l := { s with mer := { s.mer with ext := 2 ^ 80 } }
    findUnack s 5 = some x ∧ x.timer = some 0 ∧ x.level = 2 ∧ (now s + 2 ^ 64 - 0) % 2 ^ 64 < 2 ^ 63 ∧
      s.flt.checkstop = false ∧ targetLevel x.zone x.quad (min 3 (tableCap s x.source x.cls)) ≤ 2 ∧
      2 < targetLevel 1 none (min 3 (tableCap s 5 2)) ∧ s.flt.active.contains 2 = true ∧
      quietPeriod l 2 ≤ since l (Table.get zeroClass l.flt.lastAt 2) := by
  decide +kernel

theorem test_err_minimum :
    let s := { homeRuns with flt := { homeRuns.flt with errMin := some 0 } }
    s.flt.errMin = some 0 ∧ (now s + 2 ^ 64 - 0) % 2 ^ 64 < 2 ^ 63 ∧ homeRuns.flt.errMin = none ∧ Word.bit 2 1 = true ∧
      Word.bit 1 1 = false := by
  decide +kernel

theorem test_service_processor :
    let s := { State.reset with rlx := { State.reset.rlx with running := true, rings := [] } }
    let f := faultAt s 0x12 2 0 0 0 2 0
    s.rlx.running = true ∧ inProgress { f with rlx := { f.rlx with running := false, wdogAt := now f } } = [] ∧
      State.reset.rlx.running = false ∧ State.reset.power.bootRom = false ∧ State.reset.rlx.rings = [] ∧
      State.reset.rlx.deferredL3 = [] := by
  decide +kernel

theorem test_log_writer :
    let e := mkEntry homeRuns 0x50 0 1 [] 0
    let s := openLog { homeRuns with log := { homeRuns.log with writing := some e } }
    s.log.writing = some e ∧ (Table.get segOf s.log.segs s.log.cur).state = 1 ∧
      (Table.get segOf s.log.segs s.log.cur).entries.length < 16381 := by
  decide +kernel

/-- Power with a state of start-up. -/
def powered (f : Power → Power) : State := { homeRuns with power := f homeRuns.power }

theorem test_supplies :
    let s := powered (fun p => { p with standby := true, pwrOk := false, thermTrip := false })
    let c := { s with flt := { s.flt with checkstop := true } }
    s.power.standby = true ∧ s.power.pwrOk = false ∧ s.flt.checkstop = false ∧ c.flt.checkstop = true ∧
      { c.power with cause := 5 }.cause = 5 ∧ { c.power with cause := 2 }.cause ≠ 5 ∧
      { s.power with standby := false }.standby = false ∧ homeRuns.log.writing = none := by
  decide +kernel

theorem test_pcie :
    let s := updPcie (powered (fun p => { p with rails := true, railsAt := 0 })) 0 (fun p => { p with perst := false, up := true })
    let l := { s with mer := { s.mer with ext := 2 ^ 61 }, rlx := { s.rlx with flash := { s.rlx.flash with pcieEn := 3 } } }
    let e := powered (fun p => { p with rails := true, straps := { p.straps with epA := true } })
    rootPort l 0 = true ∧ l.rlx.flash.pcieEn.testBit 0 = true ∧ 409600000 ≤ since l l.power.railsAt ∧ l.power.rails = true ∧
      (getPcie l 0).up = true ∧ (getPcie l 0).perst = false ∧ l.flt.checkstop = false ∧ rootPort e 0 = false ∧
      e.power.rails = true ∧ endpoint l 0 = false := by
  decide +kernel

/-- A controller with a window of 2^20 bytes at bus address 0x200000 for zone 0. -/
def windowed : State :=
  updPcie homeRuns 0 (fun p => { p with
    perst := false, up := true, win := [(0, BitVec.ofNat 64 (0x200000 + 20)), (1, 0), (2, BitVec.ofNat 64 (2 ^ 63))] })

theorem test_inbound :
    let r : PcieReq := ⟨0, 0, 0x200000, some [7], 0⟩
    (getPcie windowed 0).up = true ∧ endpoint windowed 0 = false ∧ inStatusWin windowed r = false ∧
      firstWin windowed r = .hit 0 0 ∧ firstWin homeRuns r = .miss ∧
      (match (engWrite (reporter 8) 2 windowed 0x1000 [7] 0 false 0).1 with | .ok _ => true | _ => false) = true ∧
      (match (engRead (reporter 8) 2 windowed 0x1000 1 0 false 0).1 with | .ok _ => true | _ => false) = true ∧
      (match (engWrite (reporter 8) 2 windowed 0x1000 [7] 5 false 0).1 with | .err _ => true | _ => false) = true := by
  decide +kernel

def atStart (k : Nat) : State :=
  powered (fun p => { p with
    standby := true, step := k, failed := false, thermTrip := false, pwrOk := true, stepAt := 0, bootRom := false })

theorem test_start_up_steps :
    atStep (atStart 0) 0 = true ∧ atStep (atStart 2) 2 = true ∧ atStep (atStart 3) 3 = true ∧ atStep (atStart 4) 4 = true ∧
      atStep (atStart 6) 6 = true ∧ atStep (atStart 8) 8 = true ∧ (atStart 0).power.bootRom = false ∧
      (atStart 2).power.straps.bootSel % 4 ≠ 2 ∧ (atStart 4).devValid = true ∧
      ((atStart 4).rlx.flash.sizes.all (fun k => decide (k ≤ 1))) = true ∧ (atStart 8).rlx.flash.bonded = none ∧
      (atStart 8).rlx.flash.loader = none ∧ Table.get noFlag (atStart 8).rlx.flash.retired 0 = false ∧
      { (atStart 0).rlx with running := false }.running = false ∧ (atStart 7).vin.divergent = false := by
  decide +kernel

theorem test_election :
    let s := atStart 4
    let m := { s with fab := { s.fab with unmirrored := true }, power := { s.power with straps := { s.power.straps with masterEn := true } } }
    m.fab.unmirrored = true ∧ { m.mer with masterId := none }.masterId = none ∧ m.power.straps.masterEn = true ∧
      m.devId < 1 ∧ isMaster { s with mer := { s.mer with role := 2 } } = true ∧
      isMaster { s with mer := { s.mer with role := 0 } } = false := by
  decide +kernel

theorem test_start_up_late :
    let l := fun (k : Nat) => { atStart k with mer := { (atStart k).mer with ext := 2 ^ 80 } }
    ([0, 2, 3, 4, 5, 6, 7, 8, 9].all (fun k => match startBudget ((l k).power.step + 1) with
      | some b => atStep (l k) (l k).power.step && decide (b ≤ since (l k) (l k).power.stepAt)
      | none => false)) = true := by
  decide +kernel

end Sys2Proof.Tests
end

section
/-! SUPPORT. What a command keeps, whichever it is: `Keeps` is shown above for the operation behind each row of the table,
and holds here of `exec`. The queue and the fuses are two of the fields it speaks of (O5). -/

namespace Sys2Proof.Machine

/-- Whether a command leaves the retirement records standing: all but RETIRE_CLEAR (R163). -/
def keepsRetirement : Instr → Bool
  | .retireClear .. => false
  | _ => true

/-- Whether a command leaves the lock of the bonded watchdog set: all but those that can reset the module or take its
power (R475). -/
def keepsWatchdogLock : Instr → Bool
  | .moduleReset .. | .bondedWatchdogExpiry .. | .standbyPowerOn .. | .resetLPulse .. | .thermtrip .. | .pwrOkDeassert ..
  | .startupStepTimeout .. | .standbyPowerLoss .. | .relraxCommandDone .. => false
  | _ => true

/-- A claim about what commands leave of the fields of `Keeps` follows from this lemma, with no case split of its own. Each
arm is the lemma of its row, started from the state itself. -/
theorem keeps_exec (i : Instr) (s : State) {t : State} (hrun : exec i s = .next t) :
    Keeps (keepsRetirement i) (keepsWatchdogLock i) s t := by
  cases i with
  | registerWrite a v => exact keeps_execRegisterWrite a v s (.refl ..) hrun
  | merPpsInEdge => exact keeps_execMerPpsInEdge s (.refl ..) hrun
  | ppsTimeout => exact keeps_execPpsTimeout s (.refl ..) hrun
  | sync port mer vintage masterId => exact keeps_execSync port mer vintage masterId s (.refl ..) hrun
  | heartbeatInterval => exact keeps_execHeartbeatInterval s (.refl ..) hrun
  | heartbeat port vintage digest16 dev role =>
    exact keeps_execHeartbeat port vintage digest16 dev role s (.refl ..) hrun
  | masterMissing => exact keeps_execMasterMissing s (.refl ..) hrun
  | takeoverRequestTimer => exact keeps_execTakeoverRequestTimer s (.refl ..) hrun
  | takeover candidate vintage => exact keeps_execTakeover candidate vintage s (.refl ..) hrun
  | takeoverAck dev vintage => exact keeps_execTakeoverAck dev vintage s (.refl ..) hrun
  | takeoverTimeout => exact keeps_execTakeoverTimeout s (.refl ..) hrun
  | prepare vintage digest act catchup image =>
    exact keeps_execPrepare vintage digest act catchup image s (.refl ..) hrun
  | ack dev vintage => exact keeps_execAck dev vintage s (.refl ..) hrun
  | nack dev vintage => exact keeps_execNack dev vintage s (.refl ..) hrun
  | abortDeadline => exact keeps_execAbortDeadline s (.refl ..) hrun
  | abort vintage => exact keeps_execAbort vintage s (.refl ..) hrun
  | vintageActivation => exact keeps_execVintageActivation s (.refl ..) hrun
  | managementResend => exact keeps_execManagementResend s (.refl ..) hrun
  | report kind dev => exact keeps_execReport kind dev s (.refl ..) hrun
  | stampWatermark => exact keeps_execStampWatermark s (.refl ..) hrun
  | linkDelayRemeasure => exact keeps_execLinkDelayRemeasure s (.refl ..) hrun
  | delay port answer t1 t2 t3 => exact keeps_execDelay port answer t1 t2 t3 s (.refl ..) hrun
  | add sl f d a b => exact keeps_execAdd sl f d a b s (.refl ..) hrun
  | adc sl f d a b => exact keeps_execAdc sl f d a b s (.refl ..) hrun
  | sub sl f d a b => exact keeps_execSub sl f d a b s (.refl ..) hrun
  | sbc sl f d a b => exact keeps_execSbc sl f d a b s (.refl ..) hrun
  | and sl f d a b => exact keeps_execAnd sl f d a b s (.refl ..) hrun
  | or sl f d a b => exact keeps_execOr sl f d a b s (.refl ..) hrun
  | xor sl f d a b => exact keeps_execXor sl f d a b s (.refl ..) hrun
  | andn sl f d a b => exact keeps_execAndn sl f d a b s (.refl ..) hrun
  | min sl f d a b => exact keeps_execMin sl f d a b s (.refl ..) hrun
  | max sl f d a b => exact keeps_execMax sl f d a b s (.refl ..) hrun
  | minu sl f d a b => exact keeps_execMinu sl f d a b s (.refl ..) hrun
  | maxu sl f d a b => exact keeps_execMaxu sl f d a b s (.refl ..) hrun
  | neg sl f d a => exact keeps_execNeg sl f d a s (.refl ..) hrun
  | abs sl f d a => exact keeps_execAbs sl f d a s (.refl ..) hrun
  | shl sl f w d a b => exact keeps_execShl sl f w d a b s (.refl ..) hrun
  | shr sl f w d a b => exact keeps_execShr sl f w d a b s (.refl ..) hrun
  | sar sl f w d a b => exact keeps_execSar sl f w d a b s (.refl ..) hrun
  | sal sl f w d a b => exact keeps_execSal sl f w d a b s (.refl ..) hrun
  | rol sl f w d a b => exact keeps_execRol sl f w d a b s (.refl ..) hrun
  | ror sl f w d a b => exact keeps_execRor sl f w d a b s (.refl ..) hrun
  | mul sl f d a b => exact keeps_execMul sl f d a b s (.refl ..) hrun
  | mulhu sl f d a b => exact keeps_execMulhu sl f d a b s (.refl ..) hrun
  | mulhs sl f d a b => exact keeps_execMulhs sl f d a b s (.refl ..) hrun
  | divu sl f d a b => exact keeps_execDivu sl f d a b s (.refl ..) hrun
  | divs sl f d a b => exact keeps_execDivs sl f d a b s (.refl ..) hrun
  | remu sl f d a b => exact keeps_execRemu sl f d a b s (.refl ..) hrun
  | rems sl f d a b => exact keeps_execRems sl f d a b s (.refl ..) hrun
  | sel sl c d a b => exact keeps_execSel sl c d a b s (.refl ..) hrun
  | sxtb sl d a => exact keeps_execSxtb sl d a s (.refl ..) hrun
  | sxth sl d a => exact keeps_execSxth sl d a s (.refl ..) hrun
  | sxtw sl d a => exact keeps_execSxtw sl d a s (.refl ..) hrun
  | zxtb sl d a => exact keeps_execZxtb sl d a s (.refl ..) hrun
  | zxth sl d a => exact keeps_execZxth sl d a s (.refl ..) hrun
  | zxtw sl d a => exact keeps_execZxtw sl d a s (.refl ..) hrun
  | clz sl d a => exact keeps_execClz sl d a s (.refl ..) hrun
  | ctz sl d a => exact keeps_execCtz sl d a s (.refl ..) hrun
  | popc sl d a => exact keeps_execPopc sl d a s (.refl ..) hrun
  | bswap sl d a => exact keeps_execBswap sl d a s (.refl ..) hrun
  | addi sl f d a imm => exact keeps_execAddi sl f d a imm s (.refl ..) hrun
  | subi sl f d a imm => exact keeps_execSubi sl f d a imm s (.refl ..) hrun
  | andi sl d a imm => exact keeps_execAndi sl d a imm s (.refl ..) hrun
  | ori sl d a imm => exact keeps_execOri sl d a imm s (.refl ..) hrun
  | xori sl d a imm => exact keeps_execXori sl d a imm s (.refl ..) hrun
  | shi sl f d a imm => exact keeps_execShi sl f d a imm s (.refl ..) hrun
  | ins sl d h imm => exact keeps_execIns sl d h imm s (.refl ..) hrun
  | ldiz sl d h imm => exact keeps_execLdiz sl d h imm s (.refl ..) hrun
  | ldio sl d h imm => exact keeps_execLdio sl d h imm s (.refl ..) hrun
  | ldb m => exact keeps_execLdb m s (.refl ..) hrun
  | ldh m => exact keeps_execLdh m s (.refl ..) hrun
  | ldw m => exact keeps_execLdw m s (.refl ..) hrun
  | ldd m => exact keeps_execLdd m s (.refl ..) hrun
  | ldbs m => exact keeps_execLdbs m s (.refl ..) hrun
  | ldhs m => exact keeps_execLdhs m s (.refl ..) hrun
  | ldws m => exact keeps_execLdws m s (.refl ..) hrun
  | lda m => exact keeps_execLda m s (.refl ..) hrun
  | stb m => exact keeps_execStb m s (.refl ..) hrun
  | sth m => exact keeps_execSth m s (.refl ..) hrun
  | stw m => exact keeps_execStw m s (.refl ..) hrun
  | std m => exact keeps_execStd m s (.refl ..) hrun
  | sta m => exact keeps_execSta m s (.refl ..) hrun
  | ldp m => exact keeps_execLdp m s (.refl ..) hrun
  | stp m => exact keeps_execStp m s (.refl ..) hrun
  | pf m => exact keeps_execPf m s (.refl ..) hrun
  | ldrsv sl wide r sg a => exact keeps_execLdrsv sl wide r sg a s (.refl ..) hrun
  | stcnd sl wide r sg a => exact keeps_execStcnd sl wide r sg a s (.refl ..) hrun
  | fenceSl sl => exact keeps_execFenceSl sl s (.refl ..) hrun
  | fenceIo sl => exact keeps_execFenceIo sl s (.refl ..) hrun
  | fenceFull sl => exact keeps_execFenceFull sl s (.refl ..) hrun
  | ldseg sl sg a => exact keeps_execLdseg sl sg a s (.refl ..) hrun
  | cmaintByAddress sl x sg a => exact keeps_execCmaintByAddress sl x sg a s (.refl ..) hrun
  | cmaintByZone sl x a => exact keeps_execCmaintByZone sl x a s (.refl ..) hrun
  | cmaintGlobal sl x => exact keeps_execCmaintGlobal sl x s (.refl ..) hrun
  | cmaintComplete core => exact keeps_execCmaintComplete core s (.refl ..) hrun
  | b sl disp => exact keeps_execB sl disp s (.refl ..) hrun
  | bcc sl c disp => exact keeps_execBcc sl c disp s (.refl ..) hrun
  | br sl a => exact keeps_execBr sl a s (.refl ..) hrun
  | call sl disp => exact keeps_execCall sl disp s (.refl ..) hrun
  | callr sl a => exact keeps_execCallr sl a s (.refl ..) hrun
  | callm sl m disp => exact keeps_execCallm sl m disp s (.refl ..) hrun
  | callmr sl m a => exact keeps_execCallmr sl m a s (.refl ..) hrun
  | ret sl => exact keeps_execRet sl s (.refl ..) hrun
  | retm sl => exact keeps_execRetm sl s (.refl ..) hrun
  | far sl a b => exact keeps_execFar sl a b s (.refl ..) hrun
  | svc sl imm => exact keeps_execSvc sl imm s (.refl ..) hrun
  | eret sl => exact keeps_execEret sl s (.refl ..) hrun
  | rep sl body => exact keeps_execRep sl body s (.refl ..) hrun
  | repIteration core => exact keeps_execRepIteration core s (.refl ..) hrun
  | mtpcnt sl a => exact keeps_execMtpcnt sl a s (.refl ..) hrun
  | mtpcnti sl imm => exact keeps_execMtpcnti sl imm s (.refl ..) hrun
  | mfpcnt sl d => exact keeps_execMfpcnt sl d s (.refl ..) hrun
  | mfpsw sl d => exact keeps_execMfpsw sl d s (.refl ..) hrun
  | mtpsw sl a => exact keeps_execMtpsw sl a s (.refl ..) hrun
  | mffcsr sl d => exact keeps_execMffcsr sl d s (.refl ..) hrun
  | mtfcsr sl a => exact keeps_execMtfcsr sl a s (.refl ..) hrun
  | mfctl sl d num => exact keeps_execMfctl sl d num s (.refl ..) hrun
  | mtctl sl a num => exact keeps_execMtctl sl a num s (.refl ..) hrun
  | mfsp sl d rsp => exact keeps_execMfsp sl d rsp s (.refl ..) hrun
  | mtsp sl a rsp => exact keeps_execMtsp sl a rsp s (.refl ..) hrun
  | adjsp sl imm => exact keeps_execAdjsp sl imm s (.refl ..) hrun
  | savectx sl => exact keeps_execSavectx sl s (.refl ..) hrun
  | restctx sl => exact keeps_execRestctx sl s (.refl ..) hrun
  | wait sl => exact keeps_execWait sl s (.refl ..) hrun
  | waitWake core => exact keeps_execWaitWake core s (.refl ..) hrun
  | brk sl imm => exact keeps_execBrk sl imm s (.refl ..) hrun
  | bcall sl imm => exact keeps_execBcall sl imm s (.refl ..) hrun
  | bret sl => exact keeps_execBret sl s (.refl ..) hrun
  | bwdr sl a => exact keeps_execBwdr sl a s (.refl ..) hrun
  | fadd sl fmt d a b => exact keeps_execFadd sl fmt d a b s (.refl ..) hrun
  | fsub sl fmt d a b => exact keeps_execFsub sl fmt d a b s (.refl ..) hrun
  | fmul sl fmt d a b => exact keeps_execFmul sl fmt d a b s (.refl ..) hrun
  | fdiv sl fmt d a b => exact keeps_execFdiv sl fmt d a b s (.refl ..) hrun
  | fsqrt sl fmt d a => exact keeps_execFsqrt sl fmt d a s (.refl ..) hrun
  | fmin sl fmt d a b => exact keeps_execFmin sl fmt d a b s (.refl ..) hrun
  | fmax sl fmt d a b => exact keeps_execFmax sl fmt d a b s (.refl ..) hrun
  | fcmp sl fmt a b => exact keeps_execFcmp sl fmt a b s (.refl ..) hrun
  | fma sl fmt d a b => exact keeps_execFma sl fmt d a b s (.refl ..) hrun
  | fms sl fmt d a b => exact keeps_execFms sl fmt d a b s (.refl ..) hrun
  | fnma sl fmt d a b => exact keeps_execFnma sl fmt d a b s (.refl ..) hrun
  | fcvt sl kind sf df d a => exact keeps_execFcvt sl kind sf df d a s (.refl ..) hrun
  | dadd sl d a b => exact keeps_execDadd sl d a b s (.refl ..) hrun
  | dsub sl d a b => exact keeps_execDsub sl d a b s (.refl ..) hrun
  | dcmp sl a b => exact keeps_execDcmp sl a b s (.refl ..) hrun
  | dtoi sl d a => exact keeps_execDtoi sl d a s (.refl ..) hrun
  | itod sl d a => exact keeps_execItod sl d a s (.refl ..) hrun
  | accclr sl acc => exact keeps_execAccclr sl acc s (.refl ..) hrun
  | accrd sl acc g => exact keeps_execAccrd sl acc g s (.refl ..) hrun
  | accwr sl acc g => exact keeps_execAccwr sl acc g s (.refl ..) hrun
  | accrnd sl acc g => exact keeps_execAccrnd sl acc g s (.refl ..) hrun
  | macm sl var acc ga sa gb sb => exact keeps_execMacm sl var acc ga sa gb sb s (.refl ..) hrun
  | externalInterrupt core => exact keeps_execExternalInterrupt core s (.refl ..) hrun
  | doorbell core => exact keeps_execDoorbell core s (.refl ..) hrun
  | storeDrain core => exact keeps_execStoreDrain core s (.refl ..) hrun
  | bundleRetry core detector => exact keeps_execBundleRetry core detector s (.refl ..) hrun
  | progressMonitorExpiry core => exact keeps_execProgressMonitorExpiry core s (.refl ..) hrun
  | reliefStart core reason => exact keeps_execReliefStart core reason s (.refl ..) hrun
  | reliefFlushDone core => exact keeps_execReliefFlushDone core s (.refl ..) hrun
  | sparePowered cluster => exact keeps_execSparePowered cluster s (.refl ..) hrun
  | reliefImageArrived cluster crcOk => exact keeps_execReliefImageArrived cluster crcOk s (.refl ..) hrun
  | reliefResume cluster => exact keeps_execReliefResume cluster s (.refl ..) hrun
  | sextantWatch r => exact keeps_execSextantWatch r s (.refl ..) hrun
  | nearCacheFill core line => exact keeps_execNearCacheFill core line s (.refl ..) hrun
  | nearCtlDisable q core v => exact keeps_execNearCtlDisable q core v s (.refl ..) hrun
  | nearCtlEnable q core v => exact keeps_execNearCtlEnable q core v s (.refl ..) hrun
  | nearCtlPf q core v => exact keeps_execNearCtlPf q core v s (.refl ..) hrun
  | nearCleaningDone core => exact keeps_execNearCleaningDone core s (.refl ..) hrun
  | l2L3Walk findings => exact keeps_execL2L3Walk findings s (.refl ..) hrun
  | reservationDeferralTimeout core => exact keeps_execReservationDeferralTimeout core s (.refl ..) hrun
  | wcBufferTimeout core line => exact keeps_execWcBufferTimeout core line s (.refl ..) hrun
  | rdshared r e => exact keeps_execRdshared r e s (.refl ..) hrun
  | rdown r e => exact keeps_execRdown r e s (.refl ..) hrun
  | upgrade r e => exact keeps_execUpgrade r e s (.refl ..) hrun
  | rdonce r e => exact keeps_execRdonce r e s (.refl ..) hrun
  | wrline r data verify => exact keeps_execWrline r data verify s (.refl ..) hrun
  | wrpart r mask data e => exact keeps_execWrpart r mask data e s (.refl ..) hrun
  | cleanline r => exact keeps_execCleanline r s (.refl ..) hrun
  | invline r => exact keeps_execInvline r s (.refl ..) hrun
  | cleaninvline r => exact keeps_execCleaninvline r s (.refl ..) hrun
  | resendRequest r kind credit e => exact keeps_execResendRequest r kind credit e s (.refl ..) hrun
  | snpfwds m => exact keeps_execSnpfwds m s (.refl ..) hrun
  | snpfwdo m => exact keeps_execSnpfwdo m s (.refl ..) hrun
  | snpinv m => exact keeps_execSnpinv m s (.refl ..) hrun
  | snpclean m => exact keeps_execSnpclean m s (.refl ..) hrun
  | snpback m => exact keeps_execSnpback m s (.refl ..) hrun
  | snpdrop m => exact keeps_execSnpdrop m s (.refl ..) hrun
  | data m => exact keeps_execData m s (.refl ..) hrun
  | fwddata m => exact keeps_execFwddata m s (.refl ..) hrun
  | snpresp m => exact keeps_execSnpresp m s (.refl ..) hrun
  | wrback m verify => exact keeps_execWrback m verify s (.refl ..) hrun
  | evictclean agent stamp addr rs => exact keeps_execEvictclean agent stamp addr rs s (.refl ..) hrun
  | wback quad addr => exact keeps_execWback quad addr s (.refl ..) hrun
  | cmp quad stamp addr => exact keeps_execCmp quad stamp addr s (.refl ..) hrun
  | cmpack agent stamp addr => exact keeps_execCmpack agent stamp addr s (.refl ..) hrun
  | retry stamp credit => exact keeps_execRetry stamp credit s (.refl ..) hrun
  | resend stamp => exact keeps_execResend stamp s (.refl ..) hrun
  | err stamp reason => exact keeps_execErr stamp reason s (.refl ..) hrun
  | creditReclaim credit => exact keeps_execCreditReclaim credit s (.refl ..) hrun
  | snoopWarn line => exact keeps_execSnoopWarn line s (.refl ..) hrun
  | lostWalkDone => exact keeps_execLostWalkDone s (.refl ..) hrun
  | mr4Poll status => exact keeps_execMr4Poll status s (.refl ..) hrun
  | memoryRetrain c => exact keeps_execMemoryRetrain c s (.refl ..) hrun
  | memoryRetrainDone c rd wr => exact keeps_execMemoryRetrainDone c rd wr s (.refl ..) hrun
  | patrolPassStart => exact keeps_execPatrolPassStart s (.refl ..) hrun
  | scrubLine c e => exact keeps_execScrubLine c e s (.refl ..) hrun
  | cellaringCompressed page verifyOk => exact keeps_execCellaringCompressed page verifyOk s (.refl ..) hrun
  | decantExpanded page readOk => exact keeps_execDecantExpanded page readOk s (.refl ..) hrun
  | slotEpoch => exact keeps_execSlotEpoch s (.refl ..) hrun
  | qosPeriod => exact keeps_execQosPeriod s (.refl ..) hrun
  | treeNack f => exact keeps_execTreeNack f s (.refl ..) hrun
  | treeNackResend stamp => exact keeps_execTreeNackResend stamp s (.refl ..) hrun
  | flitRoute f chk => exact keeps_execFlitRoute f chk s (.refl ..) hrun
  | domainDrained d => exact keeps_execDomainDrained d s (.refl ..) hrun
  | domainFlushed d => exact keeps_execDomainFlushed d s (.refl ..) hrun
  | domainPowered d => exact keeps_execDomainPowered d s (.refl ..) hrun
  | trnOldDrained => exact keeps_execTrnOldDrained s (.refl ..) hrun
  | routeStagingTimeout => exact keeps_execRouteStagingTimeout s (.refl ..) hrun
  | portTrained p width => exact keeps_execPortTrained p width s (.refl ..) hrun
  | portTrainingTimeout p => exact keeps_execPortTrainingTimeout p s (.refl ..) hrun
  | portSignalLost p => exact keeps_execPortSignalLost p s (.refl ..) hrun
  | frameReceive p fr => exact keeps_execFrameReceive p fr s (.refl ..) hrun
  | nakFrame p fr => exact keeps_execNakFrame p fr s (.refl ..) hrun
  | initFrame m => exact keeps_execInitFrame m s (.refl ..) hrun
  | nakRepeat p => exact keeps_execNakRepeat p s (.refl ..) hrun
  | ackStall p => exact keeps_execAckStall p s (.refl ..) hrun
  | recoveryDone p width => exact keeps_execRecoveryDone p width s (.refl ..) hrun
  | recoveryTimeout p => exact keeps_execRecoveryTimeout p s (.refl ..) hrun
  | portHeartbeatLoss p => exact keeps_execPortHeartbeatLoss p s (.refl ..) hrun
  | receiveHistoryExpiry p => exact keeps_execReceiveHistoryExpiry p s (.refl ..) hrun
  | laneRetrainDone p => exact keeps_execLaneRetrainDone p s (.refl ..) hrun
  | hzPctlEnClear q p v => exact keeps_execHzPctlEnClear q p v s (.refl ..) hrun
  | hzPctlEnSet q p v => exact keeps_execHzPctlEnSet q p v s (.refl ..) hrun
  | hzPctlReach q p v => exact keeps_execHzPctlReach q p v s (.refl ..) hrun
  | hello p m => exact keeps_execHello p m s (.refl ..) hrun
  | origin p serial masterEn => exact keeps_execOrigin p serial masterEn s (.refl ..) hrun
  | originQuiet => exact keeps_execOriginQuiet s (.refl ..) hrun
  | linkdown reporter port neighbour mer => exact keeps_execLinkdown reporter port neighbour mer s (.refl ..) hrun
  | lostWaitExpiry dev => exact keeps_execLostWaitExpiry dev s (.refl ..) hrun
  | lost port dev mer stamp => exact keeps_execLost port dev mer stamp s (.refl ..) hrun
  | join port dev stamp => exact keeps_execJoin port dev stamp s (.refl ..) hrun
  | noPortUp => exact keeps_execNoPortUp s (.refl ..) hrun
  | sweep port mer stamp => exact keeps_execSweep port mer stamp s (.refl ..) hrun
  | sweepAgentResend => exact keeps_execSweepAgentResend s (.refl ..) hrun
  | mbx m => exact keeps_execMbx m s (.refl ..) hrun
  | mbxForwardResend => exact keeps_execMbxForwardResend s (.refl ..) hrun
  | mbxTargetTimeout stamp => exact keeps_execMbxTargetTimeout stamp s (.refl ..) hrun
  | ccwFetched sub words res => exact keeps_execCcwFetched sub words res s (.refl ..) hrun
  | adst ctl sub r => exact keeps_execAdst ctl sub r s (.refl ..) hrun
  | adwr ctl bus data => exact keeps_execAdwr ctl bus data s (.refl ..) hrun
  | adrd ctl bus len ch => exact keeps_execAdrd ctl bus len ch s (.refl ..) hrun
  | addata ch beat data => exact keeps_execAddata ch beat data s (.refl ..) hrun
  | aderr ch kind => exact keeps_execAderr ch kind s (.refl ..) hrun
  | journalWriteDone sub => exact keeps_execJournalWriteDone sub s (.refl ..) hrun
  | jmw port r => exact keeps_execJmw port r s (.refl ..) hrun
  | jmack sub count => exact keeps_execJmack sub count s (.refl ..) hrun
  | jrel port sub stamp => exact keeps_execJrel port sub stamp s (.refl ..) hrun
  | jrelack sub stamp => exact keeps_execJrelack sub stamp s (.refl ..) hrun
  | jdrop port dev => exact keeps_execJdrop port dev s (.refl ..) hrun
  | jhand dev r => exact keeps_execJhand dev r s (.refl ..) hrun
  | operationDeadline sub => exact keeps_execOperationDeadline sub s (.refl ..) hrun
  | haltStatusTimeout sub => exact keeps_execHaltStatusTimeout sub s (.refl ..) hrun
  | channelProcessorFault cp => exact keeps_execChannelProcessorFault cp s (.refl ..) hrun
  | microwordRunaway sub => exact keeps_execMicrowordRunaway sub s (.refl ..) hrun
  | queueHeadReread queue => exact keeps_execQueueHeadReread queue s (.refl ..) hrun
  | completionPosted sub => exact keeps_execCompletionPosted sub s (.refl ..) hrun
  | ucodeLoadTimeout => exact keeps_execUcodeLoadTimeout s (.refl ..) hrun
  | chnTailWrite q n v => exact keeps_execChnTailWrite q n v s (.refl ..) hrun
  | descriptorFetched n words res => exact keeps_execDescriptorFetched n words res s (.refl ..) hrun
  | moverReadData n beat res => exact keeps_execMoverReadData n beat res s (.refl ..) hrun
  | moverWriteConfirm n beat => exact keeps_execMoverWriteConfirm n beat s (.refl ..) hrun
  | writeBackVisible n => exact keeps_execWriteBackVisible n s (.refl ..) hrun
  | moverBusError n beat write code detail => exact keeps_execMoverBusError n beat write code detail s (.refl ..) hrun
  | chnStatHaltedClear q n => exact keeps_execChnStatHaltedClear q n s (.refl ..) hrun
  | chnCtlPause q n v => exact keeps_execChnCtlPause q n v s (.refl ..) hrun
  | chnZoneHold q n v => exact keeps_execChnZoneHold q n v s (.refl ..) hrun
  | chnZoneEn q n v => exact keeps_execChnZoneEn q n v s (.refl ..) hrun
  | channelPaused n => exact keeps_execChannelPaused n s (.refl ..) hrun
  | movCtlDisable q e v => exact keeps_execMovCtlDisable q e v s (.refl ..) hrun
  | compressionJobAssign => exact keeps_execCompressionJobAssign s (.refl ..) hrun
  | compressionBeat n verifyOk cipherOk => exact keeps_execCompressionBeat n verifyOk cipherOk s (.refl ..) hrun
  | anchorRebuildDone n recordOk anchorOk => exact keeps_execAnchorRebuildDone n recordOk anchorOk s (.refl ..) hrun
  | cmpChcfgDiscard q n v => exact keeps_execCmpChcfgDiscard q n v s (.refl ..) hrun
  | cmpCtlEngOff q v => exact keeps_execCmpCtlEngOff q v s (.refl ..) hrun
  | cipherPipelineAssign => exact keeps_execCipherPipelineAssign s (.refl ..) hrun
  | cipherYield e => exact keeps_execCipherYield e s (.refl ..) hrun
  | cipKcmtLoad q v => exact keeps_execCipKcmtLoad q v s (.refl ..) hrun
  | cipKcmtScrub q v => exact keeps_execCipKcmtScrub q v s (.refl ..) hrun
  | keyCommitDone => exact keeps_execKeyCommitDone s (.refl ..) hrun
  | cipCtlOff q v => exact keeps_execCipCtlOff q v s (.refl ..) hrun
  | ringHeadReread zone => exact keeps_execRingHeadReread zone s (.refl ..) hrun
  | zwSend q zone v => exact keeps_execZwSend q zone v s (.refl ..) hrun
  | zoneResetStepDone zone step => exact keeps_execZoneResetStepDone zone step s (.refl ..) hrun
  | bndOwnWrite q v => exact keeps_execBndOwnWrite q v s (.refl ..) hrun
  | dbgEnWrite q core v => exact keeps_execDbgEnWrite q core v s (.refl ..) hrun
  | jtagRequest r => exact keeps_execJtagRequest r s (.refl ..) hrun
  | bondedWatchdogExpiry straps => exact keeps_execBondedWatchdogExpiry straps s (.refl ..) hrun
  | mbxDbRing m q v => exact keeps_execMbxDbRing m q v s (.refl ..) hrun
  | mbzDbRing q zone v => exact keeps_execMbzDbRing q zone v s (.refl ..) hrun
  | mbzRingWrite q zone v => exact keeps_execMbzRingWrite q zone v s (.refl ..) hrun
  | relraxCommandDone m => exact keeps_execRelraxCommandDone m s (.refl ..) hrun
  | identity m => exact keeps_execIdentity m s (.refl ..) hrun
  | inventory m => exact keeps_execInventory m s (.refl ..) hrun
  | system m => exact keeps_execSystem m s (.refl ..) hrun
  | regRead m => exact keeps_execRegRead m s (.refl ..) hrun
  | regWrite m => exact keeps_execRegWrite m s (.refl ..) hrun
  | zoneCreate m => exact keeps_execZoneCreate m s (.refl ..) hrun
  | zoneActivate m => exact keeps_execZoneActivate m s (.refl ..) hrun
  | zoneStop m => exact keeps_execZoneStop m s (.refl ..) hrun
  | zoneDestroy m => exact keeps_execZoneDestroy m s (.refl ..) hrun
  | zoneReset m => exact keeps_execZoneReset m s (.refl ..) hrun
  | zoneStatus m => exact keeps_execZoneStatus m s (.refl ..) hrun
  | vcoreBind m => exact keeps_execVcoreBind m s (.refl ..) hrun
  | vcoreUnbind m => exact keeps_execVcoreUnbind m s (.refl ..) hrun
  | vcoreStart m => exact keeps_execVcoreStart m s (.refl ..) hrun
  | vcoreStop m => exact keeps_execVcoreStop m s (.refl ..) hrun
  | imageRead m => exact keeps_execImageRead m s (.refl ..) hrun
  | imageRelease m => exact keeps_execImageRelease m s (.refl ..) hrun
  | pageAssign m => exact keeps_execPageAssign m s (.refl ..) hrun
  | pageRelease m => exact keeps_execPageRelease m s (.refl ..) hrun
  | pageMap m => exact keeps_execPageMap m s (.refl ..) hrun
  | pagePin m => exact keeps_execPagePin m s (.refl ..) hrun
  | cellar m => exact keeps_execCellar m s (.refl ..) hrun
  | poolAdd m => exact keeps_execPoolAdd m s (.refl ..) hrun
  | poolRemove m => exact keeps_execPoolRemove m s (.refl ..) hrun
  | listMove m => exact keeps_execListMove m s (.refl ..) hrun
  | listMark m => exact keeps_execListMark m s (.refl ..) hrun
  | listRead m => exact keeps_execListRead m s (.refl ..) hrun
  | memRetrain m => exact keeps_execMemRetrain m s (.refl ..) hrun
  | portStatus m => exact keeps_execPortStatus m s (.refl ..) hrun
  | portSet m => exact keeps_execPortSet m s (.refl ..) hrun
  | portRetrain m => exact keeps_execPortRetrain m s (.refl ..) hrun
  | lostRead m => exact keeps_execLostRead m s (.refl ..) hrun
  | start m => exact keeps_execStart m s (.refl ..) hrun
  | halt m => exact keeps_execHalt m s (.refl ..) hrun
  | refresh m => exact keeps_execRefresh m s (.refl ..) hrun
  | orphanRead m => exact keeps_execOrphanRead m s (.refl ..) hrun
  | subStatus m => exact keeps_execSubStatus m s (.refl ..) hrun
  | history m => exact keeps_execHistory m s (.refl ..) hrun
  | faultAck m => exact keeps_execFaultAck m s (.refl ..) hrun
  | logRead m => exact keeps_execLogRead m s (.refl ..) hrun
  | errRelease m => exact keeps_execErrRelease m s (.refl ..) hrun
  | logNote m => exact keeps_execLogNote m s (.refl ..) hrun
  | coreRead m => exact keeps_execCoreRead m s (.refl ..) hrun
  | retireClear m => exact keeps_execRetireClear m s (.refl ..) hrun
  | coreRelieve m => exact keeps_execCoreRelieve m s (.refl ..) hrun
  | merSource m => exact keeps_execMerSource m s (.refl ..) hrun
  | vintageChange m => exact keeps_execVintageChange m s (.refl ..) hrun
  | configRead m => exact keeps_execConfigRead m s (.refl ..) hrun
  | configExport m => exact keeps_execConfigExport m s (.refl ..) hrun
  | keyLoad m => exact keeps_execKeyLoad m s (.refl ..) hrun
  | keyScrub m => exact keeps_execKeyScrub m s (.refl ..) hrun
  | granuleTag m => exact keeps_execGranuleTag m s (.refl ..) hrun
  | granuleUntag m => exact keeps_execGranuleUntag m s (.refl ..) hrun
  | ucodeLoad m => exact keeps_execUcodeLoad m s (.refl ..) hrun
  | ucodeKey m => exact keeps_execUcodeKey m s (.refl ..) hrun
  | flashUpdate m => exact keeps_execFlashUpdate m s (.refl ..) hrun
  | domainOff m => exact keeps_execDomainOff m s (.refl ..) hrun
  | domainOn m => exact keeps_execDomainOn m s (.refl ..) hrun
  | domainCancel m => exact keeps_execDomainCancel m s (.refl ..) hrun
  | powerDown m => exact keeps_execPowerDown m s (.refl ..) hrun
  | moduleReset m straps => exact keeps_execModuleReset m straps s (.refl ..) hrun
  | faultReport r => exact keeps_execFaultReport r s (.refl ..) hrun
  | isolationSalvageDone quad => exact keeps_execIsolationSalvageDone quad s (.refl ..) hrun
  | isolationSalvageTimeout quad => exact keeps_execIsolationSalvageTimeout quad s (.refl ..) hrun
  | escalationTimerExpiry stamp => exact keeps_execEscalationTimerExpiry stamp s (.refl ..) hrun
  | quietPeriodExpiry cls => exact keeps_execQuietPeriodExpiry cls s (.refl ..) hrun
  | errLMinimumEnd => exact keeps_execErrLMinimumEnd s (.refl ..) hrun
  | fltAckWrite q v => exact keeps_execFltAckWrite q v s (.refl ..) hrun
  | fltCtlRelease q v => exact keeps_execFltCtlRelease q v s (.refl ..) hrun
  | spWatchdogExpiry => exact keeps_execSpWatchdogExpiry s (.refl ..) hrun
  | spLockstepMismatch => exact keeps_execSpLockstepMismatch s (.refl ..) hrun
  | spRestartDone => exact keeps_execSpRestartDone s (.refl ..) hrun
  | logEntryWritten => exact keeps_execLogEntryWritten s (.refl ..) hrun
  | standbyPowerOn straps => exact keeps_execStandbyPowerOn straps s (.refl ..) hrun
  | pwrOkAssert => exact keeps_execPwrOkAssert s (.refl ..) hrun
  | pwrOkDeassert => exact keeps_execPwrOkDeassert s (.refl ..) hrun
  | thermtrip => exact keeps_execThermtrip s (.refl ..) hrun
  | resetLPulse lowNs straps => exact keeps_execResetLPulse lowNs straps s (.refl ..) hrun
  | perstInput ctl => exact keeps_execPerstInput ctl s (.refl ..) hrun
  | perstRelease => exact keeps_execPerstRelease s (.refl ..) hrun
  | pcieLinkDown ctl => exact keeps_execPcieLinkDown ctl s (.refl ..) hrun
  | pcieInboundRequest r => exact keeps_execPcieInboundRequest r s (.refl ..) hrun
  | relraxBooted copy => exact keeps_execRelraxBooted copy s (.refl ..) hrun
  | mainRailsGood => exact keeps_execMainRailsGood s (.refl ..) hrun
  | memoryTrainingDone retried failed => exact keeps_execMemoryTrainingDone retried failed s (.refl ..) hrun
  | discoveryDone found => exact keeps_execDiscoveryDone found s (.refl ..) hrun
  | meridianLock => exact keeps_execMeridianLock s (.refl ..) hrun
  | startupStepTimeout => exact keeps_execStartupStepTimeout s (.refl ..) hrun
  | coreRelease signatureOk => exact keeps_execCoreRelease signatureOk s (.refl ..) hrun
  | illegalBundle core words => exact keeps_execIllegalBundle core words s (.refl ..) hrun
  | fetchFault core cause off => exact keeps_execFetchFault core cause off s (.refl ..) hrun
  | standbyPowerLoss => exact keeps_execStandbyPowerLoss s (.refl ..) hrun
  | merRefLoss => exact keeps_execMerRefLoss s (.refl ..) hrun
  | merRefReturn => exact keeps_execMerRefReturn s (.refl ..) hrun
  | pcieLinkUp ctl speed width => exact keeps_execPcieLinkUp ctl speed width s (.refl ..) hrun
  | perstInputRelease ctl => exact keeps_execPerstInputRelease ctl s (.refl ..) hrun
  | frameTransmit p => exact keeps_execFrameTransmit p s (.refl ..) hrun
  | moverBeatIssue n => exact keeps_execMoverBeatIssue n s (.refl ..) hrun
  | zoneResetStepBudget zone => exact keeps_execZoneResetStepBudget zone s (.refl ..) hrun
  | merPpsOutEdge => exact keeps_execMerPpsOutEdge s (.refl ..) hrun

/-- Settles O5: the queue and the fuses are among what every command keeps. -/
theorem commandsKeepQueueAndFuses : Obligations.CommandsKeepQueueAndFuses := by
  intro i s t hrun
  have k := keeps_exec i s hrun
  exact ⟨k.pending, k.part⟩

end Sys2Proof.Machine
end

section
/-! SUPPORT. The pulse per second and the reference of a master (R23, R24, R569): what a correction and the loss of the
reference do, and O40. -/

namespace Sys2Proof.Machine

/-- A locked keeper is never stepped: a correction is left to be slewed (R22). -/
theorem correct_locked {s : State} (d : Int) (h : s.mer.locked = true) :
    correct s d = { s with mer := { s.mer with slew := d * 2 ^ 32 } } := by
  unfold correct
  rw [if_neg (by simp [h])]

/-- The correction toward the nearest second, in the keeper's units. -/
theorem neg_secondError_slew (s : State) :
    -(secondError s) * 2 ^ 32 = 2 ^ 32 * (if now s % 4096000000 < 2048000000 then -((now s % 4096000000 : Nat) : Int)
      else 4096000000 - ((now s % 4096000000 : Nat) : Int)) := by
  unfold secondError second
  split <;> (push_cast; omega)

theorem loseReference_master {s : State} (hsrc : s.mer.src = 1) (hrole : s.mer.role = 2) (hhold : s.mer.holdover = false) :
    loseReference s =
      faultAt (logMeridian { s with mer := { s.mer with refLost := true, holdover := true } } 4) 0x10 2 0 0 0 2 0 := by
  unfold loseReference
  rw [if_neg (by simp [hsrc, hrole, hhold])]

/-- Settles O40: each row's branch is decided by its hypotheses. -/
theorem meridianReference : Obligations.MeridianReference := by
  unfold Obligations.MeridianReference
  refine ⟨?ignored, ?loaded, ?slewed, ?timeout, ?lost, ?returned, ?rises, ?falls⟩
  case ignored =>
    intro s hpwr hoff
    exact ⟨_, rfl, by simp [hpwr, hoff]⟩
  case loaded =>
    intro s v hpwr hon hsrc hset hlock
    exact ⟨_, rfl, by simp [hpwr, hon, hsrc, hset, hlock]⟩
  case slewed =>
    intro s hpwr hon hsrc href hrole hset hlock r
    refine ⟨_, rfl, ?_⟩
    have hcorr := correct_locked (s := { s with mer := { s.mer with ppsLast := some (now s) } })
    rw [if_neg (by simp [hpwr]), if_neg (by simp [hon, href]), hset]
    dsimp only
    rw [if_pos (by simp [hsrc, hrole]), hcorr _ hlock, neg_secondError_slew]
    rfl
  case timeout =>
    intro s hsrc hrole hhold hlate
    refine ⟨_, rfl, ?_⟩
    rw [← loseReference_master hsrc hrole hhold]
    cases hpps : s.mer.ppsLast with
    | none => rfl
    | some t0 => exact if_pos (hlate t0 hpps)
  case lost =>
    intro s hsrc hrole hhold
    exact ⟨_, rfl, loseReference_master hsrc hrole hhold⟩
  case returned => exact fun s => ⟨_, rfl, rfl⟩
  case rises =>
    intro s hlow hlock hfault hnew
    exact ⟨_, rfl, by simp [hlow, hlock, hfault, second, hnew]⟩
  case falls =>
    intro s t0 hhigh hend
    exact ⟨_, rfl, by simp only [hhigh]; rw [if_pos hend]⟩

end Sys2Proof.Machine
end

section
/-! SUPPORT. What a message between modules leaves: a flit of its own in the network or at a port, and the keeper, the
vintage and the device ID as they were (R303, R313, R314). -/

namespace Sys2Proof.Machine

/-! ## The logbook -/

/-- The writer touches the logbook only. -/
theorem logPump_eq (s : State) : ∃ l, logPump s = { s with log := l } := by
  fun_cases logPump s <;> exact ⟨_, rfl⟩

theorem logPut_eq (s : State) (e : LogEntry) : ∃ l, logPut s e = { s with log := l } := by
  unfold logPut
  dsimp only
  split <;> exact logPump_eq _

theorem logAdd_eq (s : State) (type : Nat) (stamp : Word) (p : List Word) :
    ∃ l, logAdd s type stamp p = { s with log := l } := logPut_eq s _

section
variable (s : State) (type : Nat) (stamp : Word) (p : List Word)

@[simp] theorem logAdd_mer : (logAdd s type stamp p).mer = s.mer := by
  obtain ⟨l, hl⟩ := logAdd_eq s type stamp p; rw [hl]

@[simp] theorem logAdd_vin : (logAdd s type stamp p).vin = s.vin := by
  obtain ⟨l, hl⟩ := logAdd_eq s type stamp p; rw [hl]

@[simp] theorem logAdd_devId : (logAdd s type stamp p).devId = s.devId := by
  obtain ⟨l, hl⟩ := logAdd_eq s type stamp p; rw [hl]

@[simp] theorem logAdd_fab : (logAdd s type stamp p).fab = s.fab := by
  obtain ⟨l, hl⟩ := logAdd_eq s type stamp p; rw [hl]

@[simp] theorem logAdd_counters : (logAdd s type stamp p).counters = s.counters := by
  obtain ⟨l, hl⟩ := logAdd_eq s type stamp p; rw [hl]

@[simp] theorem logAdd_marks : (logAdd s type stamp p).marks = s.marks := by
  obtain ⟨l, hl⟩ := logAdd_eq s type stamp p; rw [hl]

end

@[simp] theorem logMeridian_mer (s : State) (kind : Nat) : (logMeridian s kind).mer = s.mer := logAdd_mer ..

@[simp] theorem logMeridian_vin (s : State) (kind : Nat) : (logMeridian s kind).vin = s.vin := logAdd_vin ..

@[simp] theorem logMeridian_devId (s : State) (kind : Nat) : (logMeridian s kind).devId = s.devId := logAdd_devId ..

@[simp] theorem logMeridian_fab (s : State) (kind : Nat) : (logMeridian s kind).fab = s.fab := logAdd_fab ..

/-! ## Folds -/

/-- A part of the accumulator that no step of a fold changes is as it was. -/
theorem foldl_part {α β σ : Type} (part : σ → β) {f : σ → α → σ} (hstep : ∀ t x, part (f t x) = part t)
    (xs : List α) (s : σ) : part (xs.foldl f s) = part s := by
  induction xs generalizing s with
  | nil => rfl
  | cons x xs ih => exact (ih (f s x)).trans (hstep s x)

/-- Flits that the steps of a fold put into the network one by one have left in the list's order. -/
theorem sentEach_foldl {f : State → Nat → State} {op : FlitOp} (hstep : ∀ t d, ∃ ws, told t (f t d) op d ws)
    (ds : List Nat) (s : State) : sentEach s (ds.foldl f s) op ds := by
  induction ds generalizing s with
  | nil => exact ⟨[], by simp⟩
  | cons d ds ih =>
    obtain ⟨_, g, hnet, hop, hdst, -⟩ := hstep s d
    obtain ⟨fs, hnets, hdsts, hops⟩ := ih (f s d)
    refine ⟨g :: fs, ?_, by simp [hdst, hdsts], by simpa [hop] using hops⟩
    rw [List.foldl_cons, hnets, hnet, List.append_assoc, List.singleton_append]

/-! ## Messages to a module -/

section
variable (s : State) (op : FlitOp) (dev : Nat) (ws : List Word)

@[simp] theorem sendMgmt_mer : (sendMgmt s op dev ws).mer = s.mer := rfl
@[simp] theorem sendMgmt_vin : (sendMgmt s op dev ws).vin = s.vin := rfl
@[simp] theorem sendMgmt_fab : (sendMgmt s op dev ws).fab = s.fab := rfl

theorem told_sendMgmt : told s (sendMgmt s op dev ws) op dev ws := ⟨_, rfl, rfl, rfl, rfl⟩

end

theorem told_answerErr (s : State) (f : Flit) (reason : Nat) :
    told s (answerErr s f reason) .err f.src [wordAt f.words 0, BitVec.ofNat 64 reason] := ⟨_, rfl, rfl, rfl, rfl⟩

/-! ## Messages to a neighbour -/

section
variable (s : State) (p : Nat) (op : FlitOp) (stamp : Word) (ws : List Word)

@[simp] theorem sendLink_mer : (sendLink s p op stamp ws).mer = s.mer := rfl
@[simp] theorem sendLink_vin : (sendLink s p op stamp ws).vin = s.vin := rfl
@[simp] theorem sendLink_devId : (sendLink s p op stamp ws).devId = s.devId := rfl

theorem getPort_sendLink_self : getPort (sendLink s p op stamp ws) p = { getPort s p with
    tx := (getPort s p).tx ++ [mkFlit s op ((getPort s p).nbrId.getD 0) (0x130 + p) 0 stamp ws] } :=
  getPort_updPort_self ..

theorem getPort_sendLink_ne {q : Nat} (hq : q ≠ p) : getPort (sendLink s p op stamp ws) q = getPort s q := by
  unfold sendLink
  rw [getPort_updPort_eq, if_neg hq]

theorem linkSent_sendLink : linkSent s (sendLink s p op stamp ws) p op ws :=
  ⟨_, congrArg Port.tx (getPort_sendLink_self ..), rfl, rfl, rfl⟩

end

/-- `t` speaks to its neighbours with the meridian, the vintage and the device ID of `s`. -/
structure SpeaksAs (s t : State) : Prop where
  mer : t.mer = s.mer
  vin : t.vin = s.vin
  devId : t.devId = s.devId

theorem SpeaksAs.refl (s : State) : SpeaksAs s s := ⟨rfl, rfl, rfl⟩

theorem SpeaksAs.trans {s t u : State} (h : SpeaksAs s t) (k : SpeaksAs t u) : SpeaksAs s u :=
  ⟨k.mer.trans h.mer, k.vin.trans h.vin, k.devId.trans h.devId⟩

theorem SpeaksAs.now {s t : State} (h : SpeaksAs s t) : now t = now s := by
  unfold Machine.now
  rw [h.mer]

theorem SpeaksAs.heartbeatWords {s t : State} (h : SpeaksAs s t) : heartbeatWords t = heartbeatWords s := by
  unfold Machine.heartbeatWords
  rw [h.mer, h.vin, h.devId]

/-- A step of a fold over ports: it writes its own port only. -/
structure PortStep (f : State → Nat → State) : Prop where
  speaks : ∀ t p, SpeaksAs t (f t p)
  other : ∀ t p q, q ≠ p → getPort (f t p) q = getPort t q

namespace PortStep
variable {f : State → Nat → State} (hf : PortStep f)
include hf

theorem foldl_speaks (ps : List Nat) (s : State) : SpeaksAs s (ps.foldl f s) := by
  induction ps generalizing s with
  | nil => exact .refl s
  | cons p ps ih => exact (hf.speaks s p).trans (ih _)

theorem getPort_foldl_of_not_mem {ps : List Nat} {q : Nat} (hq : q ∉ ps) (s : State) :
    getPort (ps.foldl f s) q = getPort s q := by
  induction ps generalizing s with
  | nil => rfl
  | cons p ps ih =>
    rw [List.mem_cons, not_or] at hq
    exact (ih hq.2 (f s p)).trans (hf.other s p q hq.1)

/-- A listed port holds in the end what its own step left, taken at a state in which it stood as at the start. -/
theorem getPort_foldl_of_mem {ps : List Nat} (hnodup : ps.Nodup) {q : Nat} (hq : q ∈ ps) (s : State) :
    ∃ u, SpeaksAs s u ∧ getPort u q = getPort s q ∧ getPort (ps.foldl f s) q = getPort (f u q) q := by
  induction ps generalizing s with
  | nil => exact absurd hq List.not_mem_nil
  | cons p ps ih =>
    obtain ⟨hp, hnodup⟩ := List.nodup_cons.mp hnodup
    by_cases hqp : q = p
    · subst hqp
      exact ⟨s, .refl s, rfl, hf.getPort_foldl_of_not_mem hp _⟩
    · obtain ⟨u, hu, hport, hfold⟩ := ih hnodup (List.mem_of_ne_of_mem hqp hq) (f s p)
      exact ⟨u, (hf.speaks s p).trans hu, hport.trans (hf.other s p q hqp), hfold⟩

end PortStep

theorem nodup_upPorts (s : State) : (upPorts s).Nodup := List.nodup_range.filter _

theorem mem_upPorts {s : State} {p : Nat} : p ∈ upPorts s ↔ p < 12 ∧ (getPort s p).state = 2 := by
  simp [upPorts, ports, portUp]

end Sys2Proof.Machine
end

section
/-! SUPPORT. The keeper among modules: SYNC and heartbeats over the ports, the estimated error, the takeover, the delay of a
link (R22, R25 to R35, R313), and O41. -/

namespace Sys2Proof.Machine

/-! ## SYNC and HEARTBEAT over the ports -/

/-- The words of a SYNC (R313). -/
def syncWords (s : State) : List Word :=
  [BitVec.ofNat 64 (now s), BitVec.ofNat 64 (s.vin.vintage * 2 ^ 32 + s.mer.masterId.getD 0)]

theorem SpeaksAs.syncWords {s t : State} (h : SpeaksAs s t) : syncWords t = syncWords s := by
  unfold Machine.syncWords
  rw [h.now, h.mer, h.vin]

theorem sendSync_eq (s : State) (except : Option Nat) : sendSync s except =
    (upPorts s).foldl (fun t p => if some p = except then t else sendLink t p .sync 0 (syncWords t)) s := rfl

theorem portStep_sync (except : Option Nat) :
    PortStep (fun t p => if some p = except then t else sendLink t p .sync 0 (syncWords t)) where
  speaks t p := by split <;> exact ⟨rfl, rfl, rfl⟩
  other t p q hq := by
    split
    · rfl
    · exact getPort_sendLink_ne _ _ _ _ _ hq

@[simp] theorem sendSync_mer (s : State) (except : Option Nat) : (sendSync s except).mer = s.mer :=
  ((portStep_sync except).foldl_speaks _ s).mer

theorem linkSent_sendSync (s : State) (except : Option Nat) {q : Nat} (hq : q ∈ upPorts s) (hne : some q ≠ except) :
    linkSent s (sendSync s except) q .sync (syncWords s) := by
  obtain ⟨u, hu, hport, hfold⟩ := (portStep_sync except).getPort_foldl_of_mem (nodup_upPorts s) hq s
  have hown := linkSent_sendLink u q .sync 0 (syncWords u)
  unfold linkSent at hown ⊢
  rwa [sendSync_eq, hfold, if_neg hne, ← hport, ← hu.syncWords]

/-- One module's own heartbeat on every UP port. -/
def beatPorts (s : State) : State :=
  (upPorts s).foldl (fun t p => sendLink (portStamp t p).2 p .heartbeat (portStamp t p).1 (heartbeatWords (portStamp t p).2)) s

theorem portStep_beat : PortStep (fun t p =>
    sendLink (portStamp t p).2 p .heartbeat (portStamp t p).1 (heartbeatWords (portStamp t p).2)) :=
  ⟨fun _ _ => ⟨rfl, rfl, rfl⟩, fun t p _ hq => getPort_sendLink_ne (portStamp t p).2 p _ _ _ hq⟩

theorem speaksAs_beatPorts (s : State) : SpeaksAs s (beatPorts s) := portStep_beat.foldl_speaks _ s

theorem getPort_beatPorts (s : State) {q : Nat} (hq : q ∈ upPorts s) : ∃ f, f.op = .heartbeat ∧
    f.words = heartbeatWords s ∧ getPort (beatPorts s) q = { getPort s q with tx := (getPort s q).tx ++ [f] } := by
  obtain ⟨u, hu, hport, hfold⟩ := portStep_beat.getPort_foldl_of_mem (nodup_upPorts s) hq s
  have hown := getPort_sendLink_self (portStamp u q).2 q .heartbeat (portStamp u q).1 (heartbeatWords (portStamp u q).2)
  rw [show getPort (portStamp u q).2 q = getPort s q from hport] at hown
  exact ⟨_, rfl, hu.heartbeatWords, hfold.trans hown⟩

theorem mem_upPorts_beatPorts {s : State} {q : Nat} (hq : q ∈ upPorts s) : q ∈ upPorts (beatPorts s) := by
  obtain ⟨f, -, -, hport⟩ := getPort_beatPorts s hq
  rw [mem_upPorts] at hq ⊢
  rw [hport]
  exact hq

/-- A heartbeat interval: the own heartbeat on every UP port, and the master's SYNC behind it. -/
def beatAll (s : State) : State := if isMaster (beatPorts s) then sendSync (beatPorts s) none else beatPorts s

theorem beatAll_mer (s : State) : (beatAll s).mer = s.mer := by
  unfold beatAll
  split
  · exact (sendSync_mer ..).trans (speaksAs_beatPorts s).mer
  · exact (speaksAs_beatPorts s).mer

theorem getPort_beatAll (s : State) {q : Nat} (hq : q ∈ upPorts s) :
    ∃ f g, (getPort (beatAll s) q).tx = (getPort s q).tx ++ f :: g ∧ f.op = .heartbeat ∧ f.words = heartbeatWords s ∧
      g.map (·.op) = if s.mer.role = 2 then [.sync] else [] := by
  obtain ⟨f, hop, hwords, hport⟩ := getPort_beatPorts s hq
  have hmaster : isMaster (beatPorts s) = (s.mer.role == 2) := by unfold isMaster; rw [(speaksAs_beatPorts s).mer]
  unfold beatAll
  rw [hmaster]
  by_cases hrole : s.mer.role = 2
  · obtain ⟨g, htx, hsync, -, -⟩ := linkSent_sendSync (beatPorts s) none (mem_upPorts_beatPorts hq) (by simp)
    rw [if_pos (by simpa using hrole), htx, hport]
    exact ⟨f, [g], by simp, hop, hwords, by simp [hsync, hrole]⟩
  · rw [if_neg (by simpa using hrole), hport]
    exact ⟨f, [], rfl, hop, hwords, by simp [hrole]⟩

/-! ## The estimated error (R22, R27) -/

theorem takeError_within {s : State} {e : Int} (he : e.natAbs * 10 ≤ 4096) (hfault : s.mer.fault = false) :
    takeError s e = { s with mer := { s.mer with
      err := e, goodSyncs := if e.natAbs * 100 ≤ 8192 then s.mer.goodSyncs + 1 else 0 } } := by
  unfold takeError
  dsimp only
  rw [if_neg (by omega), if_neg (by simp [hfault])]

theorem takeError_beyond {s : State} {e : Int} (he : 4096 < e.natAbs * 10) (hfault : s.mer.fault = false) :
    takeError s e = faultAt (logMeridian { s with mer := { s.mer with
      err := e, goodSyncs := 0, fault := true, ppsOut := none } } 2) 0x10 2 0 0 0 1 0 := by
  unfold takeError
  dsimp only
  rw [if_pos ⟨he, hfault⟩, if_neg (by omega)]

/-- A module whose own meridian is the reference has no error, and no meridian fault. -/
theorem takeError_zero (s : State) : (takeError s 0).mer =
    { s.mer with err := 0, goodSyncs := s.mer.goodSyncs + 1, fault := false } ∧
    (takeError s 0).vin = s.vin ∧ (takeError s 0).fab = s.fab ∧ (takeError s 0).devId = s.devId := by
  cases hfault : s.mer.fault <;> simp [takeError, hfault]

/-! ## The takeover (R30, R31) -/

theorem nextStandby_congr {s t : State} (hmasters : t.mer.masters = s.mer.masters) (hfab : t.fab = s.fab) (m : Nat) :
    nextStandby t m = nextStandby s m := by
  unfold nextStandby lostDev
  rw [hmasters, hfab]

theorem becomeMaster_vin (s : State) : (becomeMaster s).vin = s.vin := by
  unfold becomeMaster
  rw [logMeridian_vin]
  exact (takeError_zero _).2.1

theorem becomeMaster_mer (s : State) : (becomeMaster s).mer = { s.mer with
    role := 2, masterId := some s.devId, takeover := none, missing := none, err := 0
    goodSyncs := s.mer.goodSyncs + 1, fault := false, former := s.mer.masterId
    standbyId := nextStandby s s.devId } := by
  unfold becomeMaster
  rw [logMeridian_mer]
  obtain ⟨hmer, -, hfab, hdev⟩ := takeError_zero { s with mer := { s.mer with
    role := 2, masterId := some s.devId, takeover := none, missing := none, former := s.mer.masterId } }
  have hstandby := nextStandby_congr (s := s) (by rw [hmer]) hfab s.devId
  dsimp only at hdev ⊢
  rw [hmer, hdev, hstandby]

theorem tryTakeover_majority {s : State} {t0 : Nat} {l : List Nat} (htake : s.mer.takeover = some (t0, l))
    (hmost : s.vin.inventory.length < 2 * l.length) : tryTakeover s = becomeMaster s := by
  unfold tryTakeover
  rw [htake]
  exact if_pos (decide_eq_true hmost)

theorem tryTakeover_minority {s : State} {t0 : Nat} {l : List Nat} (htake : s.mer.takeover = some (t0, l))
    (hfew : 2 * l.length ≤ s.vin.inventory.length) : tryTakeover s = s := by
  unfold tryTakeover
  rw [htake]
  exact if_neg (by simpa [majority] using hfew)

/-- The request for the takeover to each of these modules (R30). -/
def askTakeover (s : State) (ds : List Nat) : State :=
  ds.foldl (fun t d => sendMgmt t .takeover d [BitVec.ofNat 64 t.devId, BitVec.ofNat 64 t.vin.vintage]) s

@[simp] theorem askTakeover_mer (s : State) (ds : List Nat) : (askTakeover s ds).mer = s.mer :=
  foldl_part State.mer (by intros; rfl) ds s

@[simp] theorem askTakeover_vin (s : State) (ds : List Nat) : (askTakeover s ds).vin = s.vin :=
  foldl_part State.vin (by intros; rfl) ds s

theorem sentEach_askTakeover (s : State) (ds : List Nat) : sentEach s (askTakeover s ds) .takeover ds :=
  sentEach_foldl (fun _ _ => ⟨_, told_sendMgmt ..⟩) ds s

/-! ## The delay of a link (R25, R313) -/

theorem portStep_delay : PortStep sendDelay where
  speaks _ _ := ⟨rfl, rfl, rfl⟩
  other t p q hq := by
    unfold sendDelay
    rw [getPort_sendLink_ne _ _ _ _ _ hq, getPort_updPort_eq, if_neg hq]

theorem sendDelay_port (s : State) (p : Nat) : (getPort (sendDelay s p) p).t1 = now s ∧
    linkSent s (sendDelay s p) p .delay [BitVec.ofNat 64 (now s), 0, 0, 0] := by
  unfold sendDelay linkSent
  dsimp only
  rw [getPort_sendLink_self, getPort_updPort_self]
  exact ⟨rfl, _, rfl, rfl, rfl, rfl⟩

/-- Every UP port measures its delay anew (R25). -/
def measureDelays (s : State) : State := (upPorts s).foldl sendDelay s

theorem measureDelays_remeasureIdx (s : State) : (measureDelays s).fab.remeasureIdx = s.fab.remeasureIdx :=
  foldl_part (·.fab.remeasureIdx) (by intros; rfl) _ s

theorem measureDelays_port (s : State) {q : Nat} (hq : q ∈ upPorts s) : (getPort (measureDelays s) q).t1 = now s ∧
    linkSent s (measureDelays s) q .delay [BitVec.ofNat 64 (now s), 0, 0, 0] := by
  obtain ⟨u, hu, hport, hfold⟩ := portStep_delay.getPort_foldl_of_mem (nodup_upPorts s) hq s
  have hown := sendDelay_port u q
  unfold linkSent measureDelays at *
  rwa [hfold, ← hport, ← hu.now]

theorem now_lt (s : State) : now s < 2 ^ 64 := Nat.mod_lt _ (by decide)

/-- Half of the round trip, without what the neighbour held it. -/
theorem roundTrip_eq {t1 t2 t3 n : Nat} (h1 : t1 ≤ n) (h2 : t2 ≤ t3) (hheld : t3 - t2 ≤ n - t1) (htrip : n - t1 < 2 ^ 32)
    (hn : n < 2 ^ 64) (h3 : t3 < 2 ^ 64) :
    ((n + 2 ^ 64 - t1) % 2 ^ 64 + 2 ^ 64 - (t3 + 2 ^ 64 - t2) % 2 ^ 64) % 2 ^ 64 / 2 % 2 ^ 32 = ((n - t1) - (t3 - t2)) / 2 := by
  omega

/-! ## The rows -/

/-- A module that knew of no master takes the one that a SYNC names. -/
def knowsMaster (s : State) (m : Nat) : State := { s with mer := { s.mer with masterId := some (s.mer.masterId.getD m) } }

theorem execSync_taken {s : State} {p m : Nat} {mer : Word} {e : Int} (v : Nat) (hpwr : s.power.pwrOk = true)
    (hrole : s.mer.role ≠ 2) (hparent : fromParent s p = true)
    (he : signedDiff (now s) (mer.toNat + (getPort s p).delay) = e) :
    exec (.sync p mer v m) s = .next (sendSync (correct (takeError (knowsMaster s m) e) (-e)) (some p)) := by
  subst he
  exact congrArg Host.Outcome.next (if_neg (by simp [hpwr, hrole, hparent]))

/-- An error within 100 ns is slewed away, and the own meridian goes out on the other UP ports (R22, R26). -/
theorem execSync_within {s : State} {p m : Nat} {mer : Word} {e : Int} (v : Nat) (hpwr : s.power.pwrOk = true)
    (hrole : s.mer.role ≠ 2) (hparent : fromParent s p = true) (hlock : s.mer.locked = true) (hfault : s.mer.fault = false)
    (he : signedDiff (now s) (mer.toNat + (getPort s p).delay) = e) (hnear : e.natAbs * 10 ≤ 4096) :
    ∃ t, exec (.sync p mer v m) s = .next t ∧
      t.mer = { s.mer with
        masterId := some (s.mer.masterId.getD m), err := e, slew := -e * 2 ^ 32
        goodSyncs := if e.natAbs * 100 ≤ 8192 then s.mer.goodSyncs + 1 else 0 } ∧
      ∀ q, q ∈ upPorts s → q ≠ p → linkSent s t q .sync [BitVec.ofNat 64 (now s),
        BitVec.ofNat 64 (s.vin.vintage * 2 ^ 32 + s.mer.masterId.getD m)] := by
  refine ⟨_, execSync_taken v hpwr hrole hparent he, ?_⟩
  rw [takeError_within (s := knowsMaster s m) hnear hfault, correct_locked _ (by exact hlock), sendSync_mer]
  exact ⟨rfl, fun q hq hqp => linkSent_sendSync _ (some p) hq (by simpa using hqp)⟩

/-- An error above 100 ns is a meridian fault as well (R27). -/
theorem execSync_beyond {s : State} {p m : Nat} {mer : Word} {e : Int} (v : Nat) (hpwr : s.power.pwrOk = true)
    (hrole : s.mer.role ≠ 2) (hparent : fromParent s p = true) (hfault : s.mer.fault = false)
    (he : signedDiff (now s) (mer.toNat + (getPort s p).delay) = e) (hfar : 4096 < e.natAbs * 10) :
    ∃ t, exec (.sync p mer v m) s = .next t ∧
      t = sendSync (correct (faultAt (logMeridian { s with mer := { s.mer with
        masterId := some (s.mer.masterId.getD m), err := e, goodSyncs := 0, fault := true, ppsOut := none } } 2)
        0x10 2 0 0 0 1 0) (-e)) (some p) := by
  refine ⟨_, execSync_taken v hpwr hrole hparent he, ?_⟩
  rw [takeError_beyond (s := knowsMaster s m) hfar hfault]
  rfl

theorem execTakeoverAck_counts {s : State} {dev t0 : Nat} {l : List Nat} (v : Nat) (htake : s.mer.takeover = some (t0, l))
    (hcounts : ¬ (l.contains dev ∨ ¬ s.vin.inventory.contains dev ∨ 2 ^ 26 < since s t0)) :
    exec (.takeoverAck dev v) s =
      .next (tryTakeover { s with mer := { s.mer with takeover := some (t0, l ++ [dev]) } }) := by
  show execTakeoverAck dev v s = _
  unfold execTakeoverAck
  rw [htake]
  exact congrArg Host.Outcome.next (if_neg hcounts)

/-- A device has been heard just now (R318). -/
def heardFrom (s : State) (dev : Nat) : State :=
  { s with fab := { s.fab with heard := Table.set zeroOf s.fab.heard dev (now s) } }

/-- The heartbeat of a neighbour that is no master is compared with what this module has, and no more. -/
theorem execHeartbeat_neighbour {s : State} {p dev role : Nat} (v dg : Nat) (hnbr : (getPort s p).nbrId = some dev)
    (hrole : role % 4 ≠ 2) : exec (.heartbeat p v dg dev role) s =
      .next (neighbourBeat (heardFrom s dev) p v dg dev) := by
  show execHeartbeat p v dg dev role s = _
  unfold execHeartbeat
  dsimp only
  rw [if_neg (by simp [hrole])]
  exact congrArg Host.Outcome.next (if_pos hnbr)

/-- A neighbour is alive; what it shows differs from what this module has, or agrees with it (R35). -/
def notedBeat (s : State) (p : Nat) (differs : Bool) : State :=
  updPort s p (fun x => { x with hbAt := now s, nbrDivergent := differs })

theorem hbMismatch_self (s : State) {v dg : Nat} (hv : v = s.vin.vintage) (hdg : dg = s.vin.digest.toNat % 65536) :
    hbMismatch s v dg = false := by
  simp [hbMismatch, hv, hdg]

theorem neighbourBeat_agrees {s : State} {v dg : Nat} (p dev : Nat) (hsame : hbMismatch s v dg = false) :
    neighbourBeat s p v dg dev = { notedBeat s p false with
      vin := if s.vin.caughtUp then { s.vin with divergent := false, caughtUp := false } else s.vin } := by
  unfold neighbourBeat
  dsimp only
  rw [hsame, if_neg (by decide), updPort_vin]
  split <;> rfl

theorem neighbourBeat_differs {s : State} {v dg m : Nat} (p dev : Nat) (hdiff : hbMismatch s v dg = true)
    (hrole : s.mer.role ≠ 2) (hmaster : s.mer.masterId = some m) :
    neighbourBeat s p v dg dev = sendMgmt (notedBeat s p true) .report m [1, BitVec.ofNat 64 dev] := by
  unfold neighbourBeat
  dsimp only
  rw [hdiff, if_pos rfl, updPort_mer, hmaster, if_neg (by simpa [isMaster] using hrole)]
  rfl

/-- Settles O41: the rows one by one, by the lemmas on the ports, the error and the takeover. -/
theorem meridianOfTheSystem : Obligations.MeridianOfTheSystem := by
  unfold Obligations.MeridianOfTheSystem
  refine ⟨?sync, ?interval, ?beat, ?missing, ?asks, ?acknowledges, ?counts, ?timeout, ?remeasure, ?delay⟩
  case sync =>
    intro p mer v m s hpwr hrole hparent hlock hfault e
    exact ⟨execSync_within v hpwr hrole hparent hlock hfault rfl, execSync_beyond v hpwr hrole hparent hfault rfl⟩
  case interval =>
    intro s hnew
    refine ⟨_, rfl, ?_⟩
    rw [if_neg hnew]
    exact ⟨congrArg Meridian.hbIdx (beatAll_mer _), fun p hp => by
      obtain ⟨f, g, htx, hop, hwords, hsync⟩ := getPort_beatAll { s with mer := { s.mer with hbIdx := now s / 2 ^ 22 } } hp
      exact ⟨f, g, htx, hop, hwords, hsync⟩⟩
  case beat =>
    intro p v dg dev role s hnbr hrole
    rw [execHeartbeat_neighbour v dg hnbr hrole]
    refine ⟨fun ⟨hv, hdg⟩ => ⟨_, rfl, ?_⟩, fun m hdiff hnot hmaster => ⟨_, rfl, ?_⟩⟩
    · rw [neighbourBeat_agrees p dev (hbMismatch_self (heardFrom s dev) hv hdg)]
      exact ⟨getPort_updPort_self .., rfl⟩
    · rw [neighbourBeat_differs (s := heardFrom s dev) p dev hdiff hnot hmaster]
      exact ⟨congrArg Port.nbrDivergent (getPort_updPort_self ..), told_sendMgmt ..⟩
  case missing =>
    intro m s hrole hmaster hmiss hlate hstandby
    refine ⟨_, rfl, ?_⟩
    have hwaits : ¬ (s.mer.role = 2 ∨ s.mer.masterId.isNone ∨ s.mer.missing.isSome ∨ since s s.mer.hbSeen < 2 ^ 33) := by
      simp only [not_or, Nat.not_lt]
      exact ⟨hrole, by simp [Option.isSome_iff_ne_none.mp hmaster], by simp [hmiss], hlate⟩
    rw [if_neg hwaits]
    exact if_neg (by simp [hstandby])
  case asks =>
    intro t0 s hrole hmiss htake hlate hmany
    refine ⟨_, rfl, ?_⟩
    rw [hmiss]
    dsimp only
    have hdue : ¬ (s.mer.role ≠ 1 ∨ s.mer.takeover.isSome ∨ since s t0 < 2 ^ 34) := by
      simp only [not_or, Nat.not_lt]
      exact ⟨by simp [hrole], by simp [htake], hlate⟩
    rw [if_neg hdue]
    have hfew := tryTakeover_minority (t0 := now s) (l := [s.devId])
      (s := askTakeover { s with mer := { s.mer with takeover := some (now s, [s.devId]) } }
        (s.vin.inventory.filter (· != s.devId)))
    have hstays := hfew (by rw [askTakeover_mer]) (by rw [askTakeover_vin]; exact hmany)
    refine ⟨(congrArg State.mer hstays).trans (askTakeover_mer ..), ?_⟩
    exact (congrArg (sentEach s · .takeover _) hstays).mpr (sentEach_askTakeover ..)
  case acknowledges =>
    intro c v s hmiss
    refine ⟨_, rfl, ?_⟩
    rw [if_neg (by simp [Option.isSome_iff_ne_none.mp hmiss])]
    exact told_sendMgmt ..
  case counts =>
    intro dev v t0 l s htake hnew hknown htime
    have hcounts : ¬ (l.contains dev ∨ ¬ s.vin.inventory.contains dev ∨ 2 ^ 26 < since s t0) := by
      simp only [not_or, Nat.not_lt]
      exact ⟨by simpa using hnew, by simpa using hknown, htime⟩
    rw [execTakeoverAck_counts v htake hcounts]
    refine ⟨fun hmost => ⟨_, rfl, ?_⟩, fun hfew => ⟨_, rfl, ?_⟩⟩
    · rw [tryTakeover_majority rfl (by simpa using hmost), becomeMaster_vin, becomeMaster_mer]
      exact ⟨rfl, rfl⟩
    · exact tryTakeover_minority rfl (by simpa using hfew)
  case timeout =>
    intro t0 l s htake hlate
    refine ⟨_, rfl, ?_⟩
    simp only [htake]
    rw [if_pos hlate]
    rfl
  case remeasure =>
    intro s hnew
    refine ⟨_, rfl, ?_⟩
    rw [if_neg hnew]
    exact ⟨measureDelays_remeasureIdx _, fun p hp => measureDelays_port { s with fab := { s.fab with
      remeasureIdx := now s / 2 ^ 32 } } hp⟩
  case delay =>
    intro p t1 t2 t3 s hpwr
    refine ⟨⟨_, rfl, ?_⟩, fun ht1 h1 h2 hheld htrip h3 => ⟨_, rfl, ?_⟩⟩
    · rw [if_neg (by simp [hpwr]), if_pos rfl]
      exact linkSent_sendLink ..
    · rw [if_neg (by simp [hpwr]), if_neg (by decide), if_neg (by simp [ht1]), getPort_updPort_self]
      rw [roundTrip_eq h1 h2 hheld htrip (now_lt s) h3]

end Sys2Proof.Machine
end

section
/-! SUPPORT. Staging in a module that is not the master: the table that it writes and the answer that it sends (R36, R37,
R287). -/

namespace Sys2Proof.Machine

theorem answerPrepare_of_not_master {s : State} {m : Nat} (ok : Bool) (vintage : Nat) (digest : Word) (act : Nat)
    (hrole : s.mer.role ≠ 2) (hmaster : s.mer.masterId = some m) : answerPrepare s ok vintage digest act =
      sendMgmt s (if ok then .ack else .nack) m [BitVec.ofNat 64 vintage, digest, BitVec.ofNat 64 act, 0] := by
  unfold answerPrepare
  rw [if_neg (by simpa [isMaster] using hrole), hmaster]
  rfl

/-- The staged entries in the table of the other parity, which from now on holds them. -/
def writeStaged (s : State) (st : StagedCfg) : State :=
  let par := st.vintage % 2 == 1
  { s with tree := { s.tree with
    rt0 := if par = false ∧ par ≠ activePar s then imageRoutes s st.image else s.tree.rt0
    rt1 := if par = true ∧ par ≠ activePar s then imageRoutes s st.image else s.tree.rt1
    stagedPar := some par } }

theorem finishStaging_eq (s : State) (st : StagedCfg) :
    finishStaging s st = answerPrepare (writeStaged s st) true st.vintage st.digest st.act := by
  unfold finishStaging writeStaged setRt
  by_cases hactive : (st.vintage % 2 == 1) = activePar s
  · simp [hactive]
  · cases hpar : st.vintage % 2 == 1 <;> rw [hpar] at hactive <;> simp [hactive]

theorem writeStaged_rtTable {s : State} {st : StagedCfg} (hother : (st.vintage % 2 == 1) ≠ activePar s) :
    rtTable (writeStaged s st) (st.vintage % 2 == 1) = imageRoutes s st.image := by
  unfold rtTable writeStaged
  cases hpar : st.vintage % 2 == 1 <;> rw [hpar] at hother <;> simp [hother]

/-- A module that is not the master writes the staged table and acknowledges (R36 step 2). -/
theorem finishStaging_of_not_master {s : State} {m : Nat} (st : StagedCfg) (hrole : s.mer.role ≠ 2)
    (hmaster : s.mer.masterId = some m) : finishStaging s st =
      sendMgmt (writeStaged s st) .ack m [BitVec.ofNat 64 st.vintage, st.digest, BitVec.ofNat 64 st.act, 0] :=
  (finishStaging_eq s st).trans
    (answerPrepare_of_not_master (s := writeStaged s st) true st.vintage st.digest st.act hrole hmaster)

/-- An ordinary PREPARE that is refused: the module will have missed the vintage, and the master is told (R36). -/
theorem refusePrepare_ordinary {s : State} {m : Nat} (vintage : Nat) (digest : Word) (act : Nat) (hrole : s.mer.role ≠ 2)
    (hmaster : s.mer.masterId = some m) : refusePrepare s vintage digest act false =
      sendMgmt { s with vin := { s.vin with missed := some (vintage, act) } } .nack m
        [BitVec.ofNat 64 vintage, digest, BitVec.ofNat 64 act, 0] :=
  answerPrepare_of_not_master (s := { s with vin := { s.vin with missed := some (vintage, act) } }) false vintage digest act
    hrole hmaster

end Sys2Proof.Machine
end

section
/-! SUPPORT. The routers of the tree: the flit that a port takes, the way of a flit that has left its router, refused flits
and the drained parity (R38, R267 to R287, R308), and O45. -/

namespace Sys2Proof.Machine

/-! ## The choice of a port (R269, R276, R279) -/

/-- The flit has left its router's queue. -/
def flitGone (s : State) (f : Flit) : State :=
  { s with tree := { s.tree with net := List.delFirst (· == f) s.tree.net } }

/-- The slot of the current network cycle at a port; cluster routers have none. -/
def slotNow (s : State) (p : Nat) : Nat := if p < 52 then slotEntry s.vin.cfg p (netCycle s % 256) else 0

theorem treeTake_ended {s : State} {f : Flit} (hport : outputPort s f = none) : treeTake s f = some (flitGone s f) := by
  unfold treeTake
  rw [hport]
  rfl

theorem treeTake_busy {s : State} {f : Flit} {p : Nat} (hport : outputPort s f = some p) (hbusy : portFree s p = false) :
    treeTake s f = none := by
  unfold treeTake
  rw [hport]
  exact if_pos hbusy

/-- A free port that chooses a flit of its router's queue sends it. -/
theorem treeTake_chosen {s : State} {f : Flit} {p : Nat} (hport : outputPort s f = some p) (hqueued : f ∈ s.tree.net)
    (hfree : portFree s p = true) (hchoice : portChoice s p (readyFor s s.tree.net p) = (some f, s)) :
    treeTake s f = some (portSends (flitGone s f) p f) := by
  unfold treeTake
  rw [hport]
  dsimp only
  rw [if_pos (List.contains_iff_mem.mpr hqueued), if_neg (by simp [hfree]), hchoice]
  exact if_pos rfl

/-- A slot that is neither a zone's nor the system's leaves the choice open. -/
theorem portChoice_unreserved {s : State} {p : Nat} {ready : List Flit} (hzone : slotNow s p / 2 ^ 13 ≠ 1)
    (hsystem : slotNow s p / 2 ^ 13 ≠ 2) :
    portChoice s p ready = if p < 20 then openChoice s p ready else (lowChoice ready, s) := by
  unfold portChoice
  unfold slotNow at hzone hsystem
  dsimp only
  split
  next hown =>
    split at hown
    next hone => exact absurd hone hzone
    next htwo => exact absurd htwo hsystem
    next => cases hown
  next => rfl

/-- In a slot without a reservation the port takes its oldest response. -/
theorem portChoice_response {s : State} {p : Nat} {ready : List Flit} {f : Flit} (hzone : slotNow s p / 2 ^ 13 ≠ 1)
    (hsystem : slotNow s p / 2 ^ 13 ≠ 2) (holdest : ready.find? (fun g => flitCls g.op == 2) = some f) :
    portChoice s p ready = (some f, s) := by
  rw [portChoice_unreserved hzone hsystem]
  unfold openChoice lowChoice
  simp only [holdest, ite_self]

/-- Below the root, with no response or snoop ready, it takes its oldest flit. -/
theorem portChoice_oldest {s : State} {p : Nat} {ready : List Flit} {f : Flit} (hzone : slotNow s p / 2 ^ 13 ≠ 1)
    (hsystem : slotNow s p / 2 ^ 13 ≠ 2) (hlow : 20 ≤ p) (hplain : ∀ g ∈ ready, flitCls g.op ≠ 1 ∧ flitCls g.op ≠ 2)
    (holdest : ready.head? = some f) : portChoice s p ready = (some f, s) := by
  have hresponse : ready.find? (fun g => flitCls g.op == 2) = none := by
    simpa [List.find?_eq_none] using fun g hg => (hplain g hg).2
  have hsnoop : ready.find? (fun g => flitCls g.op == 1) = none := by
    simpa [List.find?_eq_none] using fun g hg => (hplain g hg).1
  rw [portChoice_unreserved hzone hsystem, if_neg (by omega)]
  unfold lowChoice
  rw [hresponse, hsnoop, holdest]

/-- In the slot of a zone, it takes the oldest flit of that zone. -/
theorem portChoice_zone {s : State} {p : Nat} {ready : List Flit} {f : Flit} (hzone : slotNow s p / 2 ^ 13 = 1)
    (holdest : ready.find? (fun g => g.zone == slotNow s p % 4096) = some f) : portChoice s p ready = (some f, s) := by
  unfold portChoice
  simp only [slotNow] at hzone holdest
  simp only [hzone, holdest]

/-! ## The way of a flit (R267, R282, R284, R308) -/

theorem execFlitRoute_waits {s : State} {f : Flit} (chk : LinkCheck) (hstays : s.flt.checkstop = true ∨ treeTake s f = none) :
    exec (.flitRoute f chk) s = .next s := by
  show execFlitRoute f chk s = _
  unfold execFlitRoute
  rcases hstays with hstop | hnone
  · rw [if_pos hstop]
  · rw [hnone]; simp

/-- A flit that has left its router crosses a sound link. -/
theorem execFlitRoute_crosses {s u : State} {f : Flit} (hrun : s.flt.checkstop = false) (htake : treeTake s f = some u) :
    exec (.flitRoute f .good) s = .next (hopFlit u f) := by
  show execFlitRoute f .good s = _
  unfold execFlitRoute
  rw [if_neg (by simp [hrun]), htake]
  rfl

theorem hopFlit_cluster_ends {u : State} {f : Flit} (hr : routerOf f < 16) (horph : f.orph = false)
    (hdst : f.dst = u.devId) (hk : teidRouter f.teid = routerOf f) : hopFlit u f = u := by
  unfold hopFlit
  dsimp only
  rw [if_neg (by omega), if_neg (by omega), if_pos (by simp [endsHere, hdst, horph, hk])]

theorem hopFlit_cluster_up {u : State} {f : Flit} (hr : routerOf f < 16)
    (hother : ¬ (f.dst = u.devId ∧ teidRouter f.teid = routerOf f)) : hopFlit u f = enterRouter u f (16 + routerOf f / 4) := by
  unfold hopFlit
  dsimp only
  rw [if_neg (by omega), if_neg (by omega), if_neg]
  simp only [endsHere, Bool.and_eq_true, beq_iff_eq]
  exact fun ⟨⟨hdst, _⟩, hk⟩ => hother ⟨hdst, hk⟩

theorem hopFlit_quadrant_up {u : State} {f : Flit} (hr : 16 ≤ routerOf f) (hr' : routerOf f < 20)
    (hother : ¬ (f.dst = u.devId ∧ teidRouter f.teid < 16 ∧ teidRouter f.teid / 4 = routerOf f - 16)) :
    hopFlit u f = enterRouter u f 20 := by
  unfold hopFlit
  dsimp only
  rw [if_neg (by omega), if_pos hr, if_neg]
  simp only [endsHere, Bool.and_eq_true, beq_iff_eq, decide_eq_true_eq]
  exact fun ⟨⟨hdst, _⟩, hk⟩ => hother ⟨hdst, hk⟩

theorem hopFlit_quadrant_down {u : State} {f : Flit} (hr : 16 ≤ routerOf f) (hr' : routerOf f < 20) (horph : f.orph = false)
    (hdst : f.dst = u.devId) (hk : teidRouter f.teid < 16) (hq : teidRouter f.teid / 4 = routerOf f - 16) :
    hopFlit u f = passDomain u f (teidRouter f.teid) := by
  unfold hopFlit
  dsimp only
  rw [if_neg (by omega), if_pos hr, if_pos (by simp [endsHere, hdst, horph, hk, hq])]

theorem hopFlit_root {u : State} {f : Flit} (hr : 20 ≤ routerOf f) (horph : f.orph = false) :
    hopFlit u f = routePlain u f := by
  unfold hopFlit routeFlit
  dsimp only
  rw [if_pos hr, if_neg (by simp [horph])]

theorem routePlain_lost {u : State} {f : Flit} (hlost : lostDev u f.dst = true) (hreq : isRequest f = true) :
    routePlain u f = answerErr u f 5 := by
  unfold routePlain
  rw [if_pos hlost, if_pos hreq]

/-- A flit of this module but a management message goes to its endpoint's quadrant, or to an agent of the hub. -/
theorem routePlain_here {u : State} {f : Flit} (hlost : lostDev u f.dst = false) (hdst : f.dst = u.devId)
    (hcls : flitCls f.op ≠ 4) : routePlain u f =
      if teidRouter f.teid < 16 then passDomain u f (16 + teidRouter f.teid / 4) else u := by
  unfold routePlain deliver
  rw [if_neg (by simp [hlost]), if_pos hdst]
  dsimp only
  rw [if_neg hcls]

theorem passDomain_online {u : State} {d : Nat} (f : Flit) (hst : (getDom u d).state = 1) :
    passDomain u f d = enterRouter u f d := if_pos hst

theorem passDomain_held {u : State} {f : Flit} {d : Nat} (hst : (getDom u d).state = 2 ∨ (getDom u d).state = 3)
    (hreq : isRequest f = true) (hroom : (getDom u d).held.length < 64) :
    passDomain u f d = updDom u d (fun x => { x with held := x.held ++ [f] }) := by
  unfold passDomain
  dsimp only
  rw [if_neg (by omega), if_pos hreq, if_pos hst, if_pos hroom]

theorem passDomain_off {u : State} {f : Flit} {d : Nat} (hst : (getDom u d).state = 0) (hreq : isRequest f = true) :
    passDomain u f d = answerErr u f 1 := by
  unfold passDomain
  dsimp only
  rw [if_neg (by omega), if_pos hreq, if_neg (by omega)]

/-- A flit of this module's tree that is not here is not lost on its way: the port that the table names takes it, with one
hop more (R308). -/
theorem leaveOn_counted {u : State} {f : Flit} (p : Nat) (hhops : f.hops < 48) : ∃ dl, leaveOn u f p =
    updPort u p (fun x => { x with tx := x.tx ++ [{ f with hops := f.hops + 1, dl := dl, inPort := none, hop := none }] }) := by
  unfold leaveOn
  rw [if_neg (by omega)]
  exact ⟨_, rfl⟩

/-- A flit of this module enters the domain of its cluster from its quadrant, and that of its quadrant from the root. -/
theorem hopFlit_into_domain {u : State} {f : Flit} {d : Nat} (horph : f.orph = false) (hdst : f.dst = u.devId)
    (hk : teidRouter f.teid < 16)
    (hd : (16 ≤ routerOf f ∧ routerOf f < 20 ∧ teidRouter f.teid / 4 = routerOf f - 16 ∧ d = teidRouter f.teid) ∨
      (20 ≤ routerOf f ∧ lostDev u f.dst = false ∧ flitCls f.op ≠ 4 ∧ d = 16 + teidRouter f.teid / 4)) :
    hopFlit u f = passDomain u f d := by
  rcases hd with ⟨hr, hr', hq, rfl⟩ | ⟨hr, hlost, hcls, rfl⟩
  · exact hopFlit_quadrant_down hr hr' horph hdst hk hq
  · rw [hopFlit_root hr horph, routePlain_here hlost hdst hcls, if_pos hk]

theorem countStale_fresh {u : State} {f : Flit} (hstale : staleTable u f = false) : countStale u f = u :=
  if_neg (by simp [hstale])

/-- A flit on no detour takes a port that is UP. -/
theorem routeTorus_straight {u : State} {f : Flit} {p : Nat} (hdet : f.det = 0) (hup : portUp u p = true) :
    routeTorus u f p = leaveOn u f p := by
  have hfree : (f.det == p / 2 + 1) = false := by rw [hdet]; rfl
  have hsame : { f with det := 0 } = f := by rw [← hdet]
  unfold routeTorus
  simp only [hfree, hsame, hup, Bool.false_eq_true, ↓reduceIte]

theorem routePlain_torus {u : State} {f : Flit} {p : Nat} (hlost : lostDev u f.dst = false) (hdst : f.dst ≠ u.devId)
    (hstale : staleTable u f = false) (hmesh : u.fab.mesh = false) (hdet : f.det = 0)
    (hroute : rtPort u (if u.vin.divergent then activePar u else f.par) f.dst = some p) (hp : p ≠ 12)
    (hup : portUp u p = true) : routePlain u f = leaveOn u f p := by
  have hflit : flitPort u f = some p := by
    unfold flitPort
    rw [hstale, ← hroute]
    simp
  unfold routePlain routeOut
  rw [if_neg (by simp [hlost]), if_neg hdst, hflit]
  dsimp only
  rw [if_neg hp, if_neg (by simp [hmesh]), countStale_fresh hstale, routeTorus_straight hdet hup]

/-! ## Refused flits and the drained parity (R283, R287) -/

/-- A refused flit of this stamp whose 64 network cycles have passed. -/
def nackDue (s : State) (stamp : Word) (e : Flit × Nat) : Bool :=
  e.1.stamp == stamp && decide ((now s + 2 ^ 64 - e.2) % 2 ^ 64 < 2 ^ 63)

theorem execTreeNackResend_eq (stamp : Word) (s : State) : exec (.treeNackResend stamp) s = .next { s with tree := { s.tree with
    net := s.tree.net ++ (s.tree.refused.filter (nackDue s stamp)).map (·.1)
    refused := s.tree.refused.filter (fun e => !(nackDue s stamp e)) } } := rfl

/-- With the last flit of its parity gone, the previous table is free (R287 step 3). -/
theorem execTrnOldDrained_free {s : State} (hold : s.tree.old = true) (hflits : oldFlits s = 0) (hstaged : s.vin.staged = none) :
    exec .trnOldDrained s = .next { s with tree := { s.tree with old := false } } := by
  show execTrnOldDrained s = _
  unfold execTrnOldDrained
  rw [if_neg (by simp [hold, hflits])]
  dsimp only
  rw [hstaged]

theorem execTrnOldDrained_staged {s : State} {st : StagedCfg} (hold : s.tree.old = true) (hflits : oldFlits s = 0)
    (hstaged : s.vin.staged = some st) (hwaits : s.tree.stagedPar = none) :
    exec .trnOldDrained s = .next (finishStaging { s with tree := { s.tree with old := false } } st) := by
  show execTrnOldDrained s = _
  unfold execTrnOldDrained
  rw [if_neg (by simp [hold, hflits])]
  dsimp only
  rw [hstaged]
  dsimp only
  rw [hwaits]
  rfl

theorem execRouteStagingTimeout_late {s : State} {st : StagedCfg} (hstaged : s.vin.staged = some st) (hold : s.tree.old = true)
    (hwaits : s.tree.stagedPar = none) (hlate : 2 ^ 24 ≤ since s s.tree.stagedAt) :
    exec .routeStagingTimeout s =
      .next (refusePrepare { s with vin := { s.vin with staged := none } } st.vintage st.digest st.act st.catchup) := by
  show execRouteStagingTimeout s = _
  unfold execRouteStagingTimeout
  rw [hstaged]
  exact congrArg Host.Outcome.next (if_pos ⟨hold, by simp [hwaits], hlate⟩)

/-- Settles O45: the choice of a port, the way of a flit by the router at which it stands, and the parities, each by the
lemma of its case. -/
theorem flitsRouted : Obligations.FlitsRouted := by
  unfold Obligations.FlitsRouted
  refine ⟨?stays, ?leaves, ?goes, ?refused, ?again, ?drained, ?late⟩
  case stays =>
    intro f chk s hstays
    refine ⟨s, execFlitRoute_waits chk ?_, rfl⟩
    rcases hstays with hstop | hnone | ⟨p, hport, hbusy⟩
    · exact .inl hstop
    · exact .inr hnone
    · exact .inr (treeTake_busy hport hbusy)
  case leaves =>
    intro f s gone
    refine ⟨treeTake_ended, ?_⟩
    intro p hport hqueued ready e out hfree
    refine ⟨?_, ?_, ?_⟩
    · exact fun hzone hsystem holdest =>
        treeTake_chosen hport hqueued hfree (portChoice_response hzone hsystem holdest)
    · exact fun hzone hsystem hlow hplain holdest =>
        treeTake_chosen hport hqueued hfree (portChoice_oldest hzone hsystem hlow hplain holdest)
    · exact fun hzone holdest => treeTake_chosen hport hqueued hfree (portChoice_zone hzone holdest)
  case goes =>
    intro f s u hrun htake horph r k
    rw [execFlitRoute_crosses hrun htake]
    refine ⟨fun hr => ⟨?_, ?_⟩, ?_, ?_, ?_, ?_, ?_⟩
    · exact fun ⟨hdst, hk⟩ => ⟨_, rfl, hopFlit_cluster_ends hr horph hdst hk⟩
    · exact fun hother => ⟨_, rfl, hopFlit_cluster_up hr hother⟩
    · exact fun hr hr' hother => ⟨_, rfl, hopFlit_quadrant_up hr hr' hother⟩
    · intro hr hlost hdst hcls hk
      refine ⟨_, rfl, ?_⟩
      rw [hopFlit_root hr horph, routePlain_here hlost hdst hcls, if_neg (by omega)]
    · intro d hdst hk hd
      rw [hopFlit_into_domain horph hdst hk hd]
      exact ⟨fun hst => ⟨_, rfl, passDomain_online f hst⟩, fun hreq =>
        ⟨fun hst hroom => ⟨_, rfl, passDomain_held hst hreq hroom⟩,
          fun hst => ⟨_, rfl, passDomain_off hst hreq ▸ told_answerErr u f 1⟩⟩⟩
    · intro hr hlost hreq
      rw [hopFlit_root hr horph, routePlain_lost hlost hreq]
      exact ⟨_, rfl, told_answerErr u f 5⟩
    · intro p hr hlost hdst hstale hmesh hdet hroute hp hup hhops
      obtain ⟨dl, hleave⟩ := leaveOn_counted (u := u) p hhops
      rw [hopFlit_root hr horph, routePlain_torus hlost hdst hstale hmesh hdet hroute hp hup, hleave]
      exact ⟨_, rfl, rfl, dl, congrArg Port.tx (getPort_updPort_self ..)⟩
  case refused => exact fun f s => ⟨_, rfl, rfl⟩
  case again =>
    intro f k s hkept hdue
    have hgoes : nackDue s f.stamp (f, k) = true := by simp only [nackDue, BEq.rfl, hdue, decide_true, Bool.and_self]
    refine ⟨_, execTreeNackResend_eq f.stamp s, ?_, ?_, fun x hx hstamp => ?_⟩
    · exact List.mem_append_right _ (List.mem_map.mpr ⟨(f, k), List.mem_filter.mpr ⟨hkept, hgoes⟩, rfl⟩)
    · exact fun hstill => by simpa [hgoes] using (List.mem_filter.mp hstill).2
    · exact List.mem_filter.mpr ⟨hx, by simp [nackDue, hstamp]⟩
  case drained =>
    intro s hold hflits
    refine ⟨fun hstaged => ⟨_, execTrnOldDrained_free hold hflits hstaged, rfl⟩, ?_⟩
    intro st m hstaged hwaits hrole hmaster
    refine ⟨_, execTrnOldDrained_staged hold hflits hstaged hwaits, ?_⟩
    rw [finishStaging_of_not_master st (by exact hrole) (by exact hmaster)]
    exact ⟨rfl, rfl, told_sendMgmt ..⟩
  case late =>
    intro st m s hstaged hordinary hold hwaits hlate hrole hmaster
    refine ⟨_, execRouteStagingTimeout_late hstaged hold hwaits hlate, ?_⟩
    rw [hordinary, refusePrepare_ordinary _ _ _ (by exact hrole) (by exact hmaster)]
    exact ⟨rfl, told_sendMgmt ..⟩

end Sys2Proof.Machine
end

section
/-! SUPPORT. The active vintage, its digest and its configuration through what an activation sets going: reports to the
fault collector with their reactions, the journal of a module without a partner, a command's outcome. One lemma for each
operation: it leaves `vin` as it was (R34, R36, R356, R357). -/

namespace Sys2Proof.Machine

/-- A reporter that leaves the vintage as it was. -/
structure RepVin (rep : Reporter) : Prop where
  fault : ∀ r s, (rep.fault r s).vin = s.vin
  low : ∀ z s, (rep.low z s).vin = s.vin

/-! ## Stamps, the logbook, flits -/

@[simp] theorem issueStamp_vin (s : State) (unit : Nat) : (issueStamp s unit).2.vin = s.vin := rfl

theorem logPump_vin (s : State) : (logPump s).vin = s.vin := by
  grind [logPump]

theorem logPut_vin (s : State) (e : LogEntry) : (logPut s e).vin = s.vin := by
  grind [logPut, logPump_vin]

@[simp] theorem issueCoreStamp_vin (s : State) (n : Nat) : (issueCoreStamp s n).2.vin = s.vin := rfl

@[simp] theorem nextFree_vin (s : State) : (nextFree s).vin = s.vin := rfl

/-! ## Memory and the accesses of engines (R246 to R260) -/

@[simp] theorem writeFrame_vin (s : State) (fl key : Nat) (x : Line) : (writeFrame s fl key x).vin = s.vin := rfl

@[simp] theorem poisonFrame_vin (s : State) (fl : Nat) : (poisonFrame s fl).vin = s.vin := by
  simp only [poisonFrame, writeFrame_vin]

theorem popFrame_vin {s t : State} {z f : Nat} {due : Bool} (h : popFrame s z = some (f, due, t)) :
    t.vin = s.vin := by
  grind [popFrame, updList_vin]

@[simp] theorem touchPage_vin (s : State) (page : Nat) : (touchPage s page).vin = s.vin := rfl

@[simp] theorem markGrans_vin (s : State) (gs : List Nat) (u : Bool) : (markGrans s gs u).vin = s.vin := rfl

theorem freeImage_vin (s : State) (page : Nat) : (freeImage s page).vin = s.vin := by
  grind [freeImage, markGrans_vin]

theorem writePage_vin (s : State) (frame zone : Nat) (page : List Byte) : (writePage s frame zone page).vin = s.vin :=
  foldl_part State.vin (by intros; rfl) ..

theorem decantInto_vin (s : State) (page frame : Nat) : (decantInto s page frame).2.vin = s.vin := by
  have hpoison := foldl_part State.vin poisonFrame_vin (frameLines frame) s
  grind [decantInto, setPage_vin, freeImage_vin, writePage_vin]

theorem engineLine_vin (rep : Reporter) (s : State) (off zone : Nat) (world : Bool) (stamp : Word) (hrep : RepVin rep)
    : (engineLine rep s off zone world stamp).2.vin = s.vin := by
  grind [engineLine, touchPage_vin, decantInto_vin, updZone_vin, popFrame_vin, RepVin]

@[simp] theorem cleanNears_vin (s : State) (q gl : Nat) : (cleanNears s q gl).vin = s.vin := rfl

theorem writeZoneLine_vin (s : State) (fl zone : Nat) (poison : Bool) (l : Line) :
    (writeZoneLine s fl zone poison l).vin = s.vin := by
  grind [writeZoneLine, poisonFrame_vin, writeFrame_vin]

theorem cleanLineAt_vin (s : State) (off fl : Nat) : (cleanLineAt s off fl).vin = s.vin := by
  unfold cleanLineAt
  exact foldl_part State.vin (by grind [setLine_vin, cleanNears_vin, writeZoneLine_vin]) ..

theorem readNow_vin (rep : Reporter) (s : State) (addr : Word) (n zone : Nat) (world : Bool) (stamp : Word)
    (hrep : RepVin rep) : (readNow rep s addr n zone world stamp).2.vin = s.vin := by
  grind [readNow, engineLine_vin, cleanLineAt_vin, RepVin]

@[simp] theorem dropQuadCopies_vin (s : State) (q gl : Nat) (keep : Option Nat) :
    (dropQuadCopies s q gl keep).vin = s.vin := rfl

theorem dropLine_vin (s : State) (q gl : Nat) : (dropLine s q gl).vin = s.vin := by
  grind [dropLine, dropQuadCopies_vin, setLine_vin]

@[simp] theorem sendFlit_vin (s : State) (f : Flit) : (sendFlit s f).vin = s.vin := rfl

@[simp] theorem sendSnoop_vin (s : State) (op : FlitOp) (a : Agent) (nf : Bool) (zone : Nat) (stamp addr : Word) :
    (sendSnoop s op a nf zone stamp addr).vin = s.vin := rfl

theorem takeLine_vin (s : State) (off fl : Nat) (keep : Bool) : (takeLine s off fl keep).vin = s.vin := by
  unfold takeLine
  rw [setDir_vin]
  exact foldl_part State.vin
    (by grind [writeZoneLine_vin, dropLine_vin, nextFree_vin, writeFrame_vin, issueStamp_vin, sendSnoop_vin]) ..

theorem messageStamp_vin (s : State) (stamp : Word) : (messageStamp s stamp).2.vin = s.vin := by
  grind [messageStamp, issueStamp_vin, issueCoreStamp_vin]

theorem postReq_vin (s : State) (quad core : Nat) (k : ReqKind) (addr : Word) (zone : Nat) (world forStore : Bool)
    (stamp : Word) : (postReq s quad core k addr zone world forStore stamp).2.vin = s.vin := by
  grind [postReq, messageStamp_vin, sendFlit_vin]

theorem askHome_vin (s : State) (addr : Word) (n zone : Nat) (world : Bool) (stamp : Word) :
    (askHome s addr n zone world stamp).2.vin = s.vin := by
  grind [askHome, nextFree_vin, postReq_vin]

theorem readOne_vin (rep : Reporter) (s : State) (addr : Word) (n zone : Nat) (world : Bool) (stamp : Word)
    (hrep : RepVin rep) : (readOne rep s addr n zone world stamp).2.vin = s.vin := by
  grind [readOne, readNow_vin, askHome_vin, RepVin]

theorem engRead_vin (rep : Reporter) (fuel : Nat) (s : State) (addr : Word) (n zone : Nat) (world : Bool)
    (stamp : Word) (hrep : RepVin rep) : (engRead rep fuel s addr n zone world stamp).2.vin = s.vin := by
  induction fuel generalizing s addr n with
  | zero => rfl
  | succ fuel ih => grind [engRead, readOne_vin]

theorem engWords_vin (rep : Reporter) (s : State) (addr : Word) (n zone : Nat) (world : Bool) (hrep : RepVin rep) :
    (engWords rep s addr n zone world).2.vin = s.vin := by
  grind [engWords, engRead_vin, RepVin]

theorem writeOne_vin (rep : Reporter) (s : State) (addr : Word) (bs : List Byte) (zone : Nat) (world : Bool)
    (stamp : Word) (hrep : RepVin rep) : (writeOne rep s addr bs zone world stamp).2.vin = s.vin := by
  grind [writeOne, postReq_vin, engineLine_vin, takeLine_vin, writeFrame_vin, nextFree_vin, RepVin]

theorem engWrite_vin (rep : Reporter) (fuel : Nat) (s : State) (addr : Word) (bs : List Byte) (zone : Nat)
    (world : Bool) (stamp : Word) (hrep : RepVin rep) :
    (engWrite rep fuel s addr bs zone world stamp).2.vin = s.vin := by
  induction fuel generalizing s addr bs with
  | zero => rfl
  | succ fuel ih => grind [engWrite, writeOne_vin]

theorem engPutWords_vin (rep : Reporter) (s : State) (addr : Word) (ws : List Word) (zone : Nat) (stamp : Word)
    (hrep : RepVin rep) : (engPutWords rep s addr ws zone stamp).2.vin = s.vin := by
  grind [engPutWords, engWrite_vin, RepVin]

/-! ## Posting to zones (R435 to R448) -/

theorem ringDoorbell_vin (s : State) (zone vcid : Nat) : (ringDoorbell s zone vcid).vin = s.vin := by
  grind [ringDoorbell, updVcore_vin]

theorem zoneEntry_vin (rep : Reporter) (s : State) (z : Nat) (hrep : RepVin rep) :
    (zoneEntry rep s z).2.vin = s.vin := by
  grind [zoneEntry, engWords_vin, updZone_vin, RepVin]

theorem unposted_vin (rep : Reporter) (s : State) (e : RingEntry) (hrep : RepVin rep) :
    (unposted rep s e).vin = s.vin := by
  grind [unposted, ringDoorbell_vin, RepVin]

theorem vcoreEntry_vin (rep : Reporter) (s : State) (ze : List Word) (zone vcid : Nat) (hrep : RepVin rep) :
    (vcoreEntry rep s ze zone vcid).2.2.vin = s.vin := by
  grind [vcoreEntry, engWords_vin, RepVin]

theorem postRing_vin (rep : Reporter) (s : State) (e : RingEntry) (retry : Bool) (hrep : RepVin rep) :
    (postRing rep s e retry).vin = s.vin := by
  fun_cases postRing rep s e retry <;> grind [zoneEntry_vin, unposted_vin, vcoreEntry_vin, engWords_vin, updZone_vin,
    engPutWords_vin, ringDoorbell_vin, RepVin]

theorem vectorEnabled_vin (rep : Reporter) (s : State) (e : RingEntry) (hrep : RepVin rep) :
    (vectorEnabled rep s e).2.vin = s.vin := by
  grind [vectorEnabled, zoneEntry_vin, engWords_vin, RepVin]

theorem postEntry_vin (rep : Reporter) (s : State) (e : RingEntry) (hrep : RepVin rep) :
    (postEntry rep s e).vin = s.vin := by
  grind [postEntry, updZone_vin, vectorEnabled_vin, unposted_vin, postRing_vin, RepVin]

theorem postEvent_vin (rep : Reporter) (s : State) (zone kind : Nat) (stamp detail : Word) (hrep : RepVin rep) :
    (postEvent rep s zone kind stamp detail).vin = s.vin := by
  grind [postEvent, zoneEntry_vin, unposted_vin, postEntry_vin, RepVin]

theorem postLow_vin (rep : Reporter) (z : Nat) (s : State) (hrep : RepVin rep) : (postLow rep z s).vin = s.vin := by
  grind [postLow, issueStamp_vin, postEvent_vin, RepVin]

/-! ## Zone resets and lost cores (R164 to R168, R454) -/

theorem requestReset_vin (s : State) (z : Nat) (waiter : Option Mbx) (kind rzone : Nat) :
    (requestReset s z waiter kind rzone).2.vin = s.vin := by
  fun_cases requestReset s z waiter kind rzone
  case case4 =>
    dsimp only
    rw [foldl_part State.vin]
    · exact (congrArg (·.2.vin) ‹issueStamp s 0x62 = _›).symm
    · intros; rfl
  all_goals rfl

@[simp] theorem putImage_vin (s : State) (n : Nat) (im : StateImage) : (putImage s n im).vin = s.vin := rfl

@[simp] theorem storeOwned_vin (s : State) (n : Nat) (addr : Word) (bs : List Byte) (bnd : Bool) :
    (storeOwned s n addr bs bnd).vin = s.vin := rfl

theorem drainOwned_vin (n : Nat) (es : List BufEntry) (s : State) : (drainOwned n es s).2.vin = s.vin := by
  induction es generalizing s with
  | nil => rfl
  | cons e es ih => grind [drainOwned, storeOwned_vin]

theorem imageStores_vin (rep : Reporter) (es : List BufEntry) (s : State) (hrep : RepVin rep) :
    (imageStores rep es s).2.vin = s.vin := by
  unfold imageStores
  exact foldl_part State.vin (by grind [engWrite_vin, RepVin]) ..

theorem spareGone_vin (s : State) (n : Nat) : (spareGone s n).vin = s.vin := by
  grind [spareGone]

theorem loseCore_vin (rep : Reporter) (s : State) (n reason : Nat) (ok : Bool) (hrep : RepVin rep) :
    (loseCore rep s n reason ok).vin = s.vin := by
  grind [loseCore, drainOwned_vin, imageStores_vin, spareGone_vin, putImage_vin, updCore_vin, updVcore_vin,
    logAdd_vin, postEvent_vin, RepVin]

/-! ## The fault collector (R513 to R530) -/

@[simp] theorem driveErr_vin (s : State) : (driveErr s).vin = s.vin := rfl

theorem checkstop_vin (s : State) (x : FRec) : (checkstop s x).vin = s.vin := by
  grind [checkstop, logPump_vin]

theorem isolate_vin (rep : Reporter) (s : State) (q : Nat) (stamp : Word) (hrep : RepVin rep) :
    (isolate rep s q stamp).vin = s.vin := by
  unfold isolate
  dsimp only
  split
  · rfl
  · rw [foldl_part State.vin (by grind [loseCore_vin, updCore_vin])]
    exact foldl_part State.vin (by intros; rfl) ..

theorem react_vin (rep : Reporter) (s : State) (x : FRec) (l : Nat) (hrep : RepVin rep) :
    (react rep s x l).vin = s.vin := by
  grind [react, postEvent_vin, driveErr_vin, checkstop_vin, requestReset_vin, isolate_vin, RepVin]

theorem recordOnly_vin (s : State) (r : Report) : (recordOnly s r).2.vin = s.vin := by
  grind [recordOnly, issueStamp_vin, logPut_vin]

theorem repVin_reporter (n : Nat) : RepVin (reporter n) := by
  induction n with
  | zero => exact ⟨fun r s => recordOnly_vin s r, fun _ _ => rfl⟩
  | succ n ih =>
    refine ⟨fun r s => ?_, fun z s => postLow_vin _ z s ih⟩
    have hrecord := recordOnly_vin s r
    unfold reporter
    dsimp only
    split
    next hnone => rwa [hnone] at hrecord
    next hsome =>
      rw [hsome] at hrecord
      exact (react_vin _ _ _ _ ih).trans hrecord

theorem repVin_rep : RepVin rep := repVin_reporter 8

theorem fault_vin (s : State) (r : Report) : (fault s r).vin = s.vin := repVin_rep.fault r s

theorem faultAt_vin (s : State) (source cls reason : Nat) (stamp addr detail : Word) (zone : Nat) :
    (faultAt s source cls reason stamp addr detail zone).vin = s.vin := by
  grind [faultAt, fault_vin]

theorem startEntry_vin (s : State) (st result : Nat) (ws : List Word) : (startEntry s st result ws).vin = s.vin := by
  grind [startEntry, logPut_vin]

theorem endStep_vin (s : State) (st result : Nat) (ws : List Word) : (endStep s st result ws).vin = s.vin := by
  grind [endStep, startEntry_vin]

/-! ## Mailboxes -/

theorem updBox_vin (s : State) (m : Mbx) (f : Mailbox → Mailbox) : (updBox s m f).vin = s.vin := by
  cases m <;> rfl

theorem setOutcome_vin (s : State) (m : Mbx) (r : CmdResult) : (setOutcome s m r).vin = s.vin := by
  grind [setOutcome, updBox_vin]

theorem setOutcomeOpt_vin (s : State) (m : Option Mbx) (r : CmdResult) : (setOutcomeOpt s m r).vin = s.vin := by
  cases m with
  | none => rfl
  | some m => exact setOutcome_vin s m r

/-! ## Mover channels (R371 to R389, R402 to R411) -/

theorem freeEngine_vin (s : State) (j : CmpJob) : (freeEngine s j).vin = s.vin := by
  grind [freeEngine, updEng_vin]

theorem endJob_vin (s : State) (j : CmpJob) : (endJob s j).vin = s.vin := by
  grind [endJob, freeEngine_vin]

theorem freePipe_vin (s : State) (n : Nat) : (freePipe s n).vin = s.vin := by
  grind [freePipe, updChn_vin, updPipe_vin]

theorem admitChn_vin (s : State) (n : Nat) : (admitChn s n).vin = s.vin := by
  grind [admitChn, updChn_vin]

@[simp] theorem failChn_vin (s : State) (n k code detail : Nat) (addr : Word) (write : Bool) (xcode : Nat) :
    (failChn s n k code detail addr write xcode).vin = s.vin := rfl

theorem readExtents_vin (s : State) (zone : Nat) (es : List (Nat × Nat)) : (readExtents s zone es).2.vin = s.vin := by
  unfold readExtents
  exact foldl_part (fun e : List Byte × State => e.2.vin) (by grind [engRead_vin, repVin_rep]) ..

theorem putRecord_vin (s : State) (n state : Nat) (stamp : Word) : (putRecord s n state stamp).vin = s.vin := by
  grind [putRecord, readExtents_vin, updChn_vin, engPutWords_vin, repVin_rep]

theorem storeAt_vin (s : State) (zone : Nat) (stamp : Word) (fuel : Nat) (c : Chn) (d : Desc) (pos : Nat)
    (bs : List Byte) : (storeAt s zone stamp fuel c d pos bs).2.vin = s.vin := by
  induction fuel generalizing s pos bs with
  | zero => rfl
  | succ fuel ih => grind [storeAt, engWrite_vin, repVin_rep]

theorem dropEngines_vin (s : State) (n : Nat) : (dropEngines s n).vin = s.vin := by
  grind [dropEngines, endJob_vin, freePipe_vin, updChn_vin]

theorem writeBack_vin (s : State) (n status code : Nat) : (writeBack s n status code).vin = s.vin := by
  grind [writeBack, issueStamp_vin, dropEngines_vin, engPutWords_vin, updChn_vin, repVin_rep]

theorem endStream_vin (s : State) (n : Nat) (d : Desc) (code : Nat) : (endStream s n d code).vin = s.vin := by
  grind [endStream, updChn_vin, putRecord_vin]

@[simp] theorem flushRead_vin (s : State) (n : Nat) (d : Desc) : (flushRead s n d).vin = s.vin := rfl

theorem tryWriteBack_vin (s : State) (n : Nat) : (tryWriteBack s n).vin = s.vin := by
  grind [tryWriteBack, writeBack_vin, endStream_vin, flushRead_vin, updChn_vin]

@[simp] theorem feedEnd_vin (s : State) (n : Nat) (d : Desc) : (feedEnd s n d).vin = s.vin := rfl

theorem askEngines_vin (s : State) (n : Nat) (d : Desc) : (askEngines s n d).vin = s.vin := by
  grind [askEngines, updChn_vin, feedEnd_vin]

theorem beginDesc_vin (s : State) (n : Nat) (d : Desc) : (beginDesc s n d).vin = s.vin := by
  grind [beginDesc, updChn_vin, writeBack_vin, tryWriteBack_vin, failChn_vin, askEngines_vin]

theorem landBeat_vin (s : State) (n : Nat) (d : Desc) (b : Beat) : (landBeat s n d b).2.vin = s.vin := by
  grind [landBeat, storeAt_vin, engWrite_vin, repVin_rep]

/-! ## Channel operations and their journal (R335 to R361) -/

@[simp] theorem sendChs_vin (s : State) (op : FlitOp) (dev zone : Nat) (stamp : Word) (ws : List Word) :
    (sendChs s op dev zone stamp ws).vin = s.vin := rfl

theorem writeJournal_vin (s : State) (n : Nat) (await : Bool) (next : Nat) :
    (writeJournal s n await next).vin = s.vin := by
  grind [writeJournal, putOp_vin, sendChs_vin]

theorem landAll_vin (s : State) (n : Nat) : (landAll s n).vin = s.vin := by
  unfold landAll
  dsimp only
  split
  · rfl
  · exact foldl_part State.vin (by grind [landBeat_vin, updChn_vin]) ..

theorem releaseMover_vin (s : State) (n : Nat) : (releaseMover s n).vin = s.vin := by
  grind [releaseMover, dropEngines_vin, landAll_vin, updChn_vin, putOp_vin]

theorem updOp_vin (s : State) (n : Nat) (f : ChOp → ChOp) : (updOp s n f).vin = s.vin := by
  grind [updOp, putOp_vin]

@[simp] theorem putQueue_vin (s : State) (k : Nat) (q : PostQueue) : (putQueue s k q).vin = s.vin := rfl

theorem assignSlots_vin (k fuel : Nat) (s : State) : (assignSlots k fuel s).vin = s.vin := by
  induction fuel generalizing s with
  | zero => rfl
  | succ fuel ih => grind [assignSlots, putQueue_vin, putOp_vin, writeJournal_vin]

theorem activate_vin (fuel : Nat) (s : State) : (activate fuel s).vin = s.vin := by
  induction fuel generalizing s with
  | zero => rfl
  | succ fuel ih => grind [activate, putOp_vin, updChn_vin]

theorem endOp_vin (s : State) (n kind error : Nat) : (endOp s n kind error).vin = s.vin := by
  grind [endOp, releaseMover_vin, issueStamp_vin, setOutcomeOpt_vin, updOp_vin, activate_vin, writeJournal_vin]

theorem startMove_vin (s : State) (n op comp cipher count limit src dst : Nat) (pieces : List (Nat × Nat × Bool))
    (scatter : Bool) : (startMove s n op comp cipher count limit src dst pieces scatter).vin = s.vin := by
  grind [startMove, putOp_vin, updChn_vin, beginDesc_vin, admitChn_vin]

theorem commandRecord_vin (s : State) (n : Nat) (abort : Bool) (code : Nat) :
    (commandRecord s n abort code).vin = s.vin := by
  grind [commandRecord, sendFlit_vin]

theorem sendCommand_vin (s : State) (n : Nat) : (sendCommand s n).vin = s.vin := by
  grind [sendCommand, updOp_vin, commandRecord_vin]

theorem dataPhase_vin (s : State) (n : Nat) : (dataPhase s n).vin = s.vin := by
  grind [dataPhase, startMove_vin, sendCommand_vin]

theorem openQueue_vin (s : State) (e : List Word) : (openQueue s e).2.vin = s.vin := by
  grind [openQueue, engWords_vin, repVin_rep]

theorem rereadHead_vin (s : State) (k zone : Nat) : (rereadHead s k zone).vin = s.vin := by
  grind [rereadHead, engWords_vin, putQueue_vin, repVin_rep]

theorem queueCompletion_vin (s : State) (n : Nat) : (queueCompletion s n).vin = s.vin := by
  grind [queueCompletion, openQueue_vin, putQueue_vin, putOp_vin, assignSlots_vin, rereadHead_vin]

theorem journalNext_vin (s : State) (n next : Nat) : (journalNext s n next).vin = s.vin := by
  grind [journalNext, setOutcomeOpt_vin, activate_vin, putOp_vin, dataPhase_vin, sendCommand_vin, endOp_vin,
    queueCompletion_vin]

theorem journalDone_vin (s : State) (n : Nat) : (journalDone s n).vin = s.vin := by
  grind [journalDone, journalNext_vin]

@[simp] theorem freeOp_vin (s : State) (n : Nat) : (freeOp s n).vin = s.vin := rfl

theorem unmirrorOps_vin (s : State) : (unmirrorOps s).vin = s.vin := by
  unfold unmirrorOps
  exact foldl_part State.vin (by grind [journalDone_vin, putOp_vin, freeOp_vin]) ..

theorem journalTo_vin (s : State) (p : Nat) (ops : List (Nat × ChOp)) :
    (ops.foldl (fun s o => sendChs s .jmw p o.2.jr.zone o.2.jr.stamp (jrWords o.2.jr)) s).vin = s.vin :=
  foldl_part State.vin (by intros; rfl) ..

theorem changePartner_vin (s : State) (former : Option Nat) : (changePartner s former).vin = s.vin := by
  unfold changePartner
  split
  · exact unmirrorOps_vin s
  · split
    · rfl
    · cases former with
      | none => exact journalTo_vin s ..
      | some f => exact journalTo_vin s ..

end Sys2Proof.Machine
end

section
/-! SUPPORT. Two-phase changes of the vintage: what PREPARE, ACK, NACK and ABORT leave, what an activation moves, what the
master sends again, and O42 (R33 to R39, R47, R314). -/

namespace Sys2Proof.Machine

/-! ## PREPARE (R36, R37, R39) -/

/-- What the receipt of a staging leaves before its table is written (R36, R287). -/
def holdStaged (s : State) (st : StagedCfg) : State :=
  { s with
    vin := { s.vin with staged := some st, missed := none }
    tree := { s.tree with stagedPar := none, stagedAt := now s } }

/-- With the previous table free, a module that is not the master stages at once and acknowledges. -/
theorem stage_of_not_master {s : State} {m : Nat} (st : StagedCfg) (hfree : s.tree.old = false) (hrole : s.mer.role ≠ 2)
    (hmaster : s.mer.masterId = some m) : stage s st = sendMgmt (writeStaged (holdStaged s st) st) .ack m
      [BitVec.ofNat 64 st.vintage, st.digest, BitVec.ofNat 64 st.act, 0] := by
  unfold stage
  dsimp only
  rw [if_neg (by simp [hfree])]
  exact finishStaging_of_not_master (s := holdStaged s st) st hrole hmaster

/-- A catch-up shows the divergence in the vintage and nowhere else (R39, R42). -/
theorem noteCatchup_eq (s : State) (v : Nat) (dg : Word) : noteCatchup s v dg true = { s with vin := { s.vin with
    divergent := s.vin.divergent || v != s.vin.vintage || dg != s.vin.digest } } := by
  unfold noteCatchup
  by_cases hv : v = s.vin.vintage <;> by_cases hd : dg = s.vin.digest <;> simp [hv, hd]

theorem takePrepare_catchup {s : State} {v act : Nat} {dg : Word} {c : CfgImage} (hahead : 2 ^ 22 ≤ aheadOf s act)
    (hdigest : digestOf c = dg) :
    takePrepare s v dg act true c = stage (noteCatchup s v dg true) ⟨c, v, dg, act, true⟩ := by
  have hgo : ¬ (aheadOf (noteCatchup s v dg true) act < 2 ^ 22 ∨ (digestOf c == dg) = false) := by
    rw [noteCatchup_eq]
    simp only [hdigest, beq_self_eq_true, Bool.true_eq_false, or_false, Nat.not_lt]
    exact hahead
  unfold takePrepare
  dsimp only
  rw [if_pos rfl, if_neg hgo]

theorem takePrepare_refused {s : State} {v act : Nat} {dg : Word} (c : CfgImage) (hagreed : s.vin.agreed = true)
    (hbad : v ≠ (s.vin.vintage + 1) % 2 ^ 32 ∨ aheadOf s act < 2 ^ 26) :
    takePrepare s v dg act false c = refusePrepare s v dg act false := by
  have hnote : noteCatchup s v dg false = s := if_neg (by simp)
  unfold takePrepare
  dsimp only
  rw [hnote, if_neg Bool.false_ne_true, if_neg (by simp [hagreed]), if_pos (by rw [← or_assoc]; exact .inl hbad)]

/-! ## ABORT (R36 step 3) -/

theorem discardStaged_keeps (s : State) (v : Nat) : (discardStaged s v).vin.prep = s.vin.prep ∧
    (discardStaged s v).vin.vintage = s.vin.vintage ∧ (discardStaged s v).tree.net = s.tree.net := by
  unfold discardStaged
  grind

/-- What is still staged is of another change. -/
theorem discardStaged_staged {s : State} {v : Nat} {st : StagedCfg} (hst : (discardStaged s v).vin.staged = some st) :
    st.vintage ≠ v ∨ st.catchup = true := by
  unfold discardStaged at hst
  grind

theorem discardStaged_self {s : State} {st : StagedCfg} (hst : s.vin.staged = some st) (hcatch : st.catchup = false) :
    (discardStaged s st.vintage).vin.staged = none ∧ (discardStaged s st.vintage).tree.stagedPar = none := by
  unfold discardStaged
  grind

/-- The master gives a change up: ABORT to every other module, and its own staging dropped. -/
def dropChange (s : State) (p : Prep) : State :=
  discardStaged ((otherDevs s).foldl (fun s d => sendMgmt s .abort d
    [BitVec.ofNat 64 p.vintage, p.digest, BitVec.ofNat 64 p.act, 0]) { s with vin := { s.vin with prep := none } })
    p.vintage

theorem dropChange_prep (s : State) (p : Prep) : (dropChange s p).vin.prep = none :=
  (discardStaged_keeps ..).1.trans (congrArg (·.prep) (foldl_part State.vin (by intros; rfl) ..))

theorem sentEach_dropChange (s : State) (p : Prep) : sentEach s (dropChange s p) .abort (otherDevs s) := by
  obtain ⟨fs, hnet, hfs⟩ := sentEach_foldl (f := fun s d => sendMgmt s .abort d
    [BitVec.ofNat 64 p.vintage, p.digest, BitVec.ofNat 64 p.act, 0]) (fun t d => ⟨_, told_sendMgmt ..⟩) (otherDevs s)
    { s with vin := { s.vin with prep := none } }
  exact ⟨fs, (discardStaged_keeps ..).2.2.trans hnet, hfs⟩

theorem execAbortDeadline_drops {s : State} {p : Prep} (hprep : s.vin.prep = some p) (habort : p.aborted = false)
    (hmbx : p.mbx = none) (hrole : s.mer.role = 2) (htime : aheadOf s p.act ≤ 2 ^ 24)
    (hfew : 2 * p.acks.length ≤ s.vin.inventory.length) : exec .abortDeadline s = .next (dropChange s p) := by
  have hgo : ¬ (p.aborted = true ∨ isMaster s = false ∨ 2 ^ 24 < aheadOf s p.act ∨ majority s p.acks = true) := by
    simp only [habort, isMaster, hrole, majority, decide_eq_true_eq, not_or, Nat.not_lt]
    exact ⟨Bool.false_ne_true, by decide, htime, hfew⟩
  refine congrArg Host.Outcome.next ?_
  rw [hprep]
  dsimp only
  rw [if_neg hgo, hmbx]
  rfl

/-! ## Activation (R34, R36 steps 4 and 5) -/

theorem setPartner_vin (s : State) (p : Option Nat) : (setPartner s p).vin = s.vin := by
  unfold setPartner
  dsimp only
  split
  · exact faultAt_vin ..
  · rfl

/-- What follows an activation ends the command that asked for it, and leaves the rest of the vintage. -/
theorem afterActivation_vin (s : State) : ∃ p, (afterActivation s).vin = { s.vin with prep := p } := by
  have hpartner : (changePartner (setPartner s (vintagePartner s)) s.fab.partner).vin = s.vin :=
    (changePartner_vin ..).trans (setPartner_vin ..)
  have hstep (t : State) :
      (if t.power.step = 7 ∧ t.power.failed = false then endStep t 8 0 (merWords t) else t).vin = t.vin := by
    split
    · exact endStep_vin ..
    · rfl
  unfold afterActivation
  dsimp only
  rw [hstep]
  split
  · split
    · exact ⟨none, (setOutcomeOpt_vin ..).trans (by rw [hpartner])⟩
    · exact ⟨s.vin.prep, hpartner⟩
  · exact ⟨s.vin.prep, hpartner⟩

theorem logVintage_vin (s : State) : (logVintage s).vin = s.vin := logAdd_vin ..

theorem activateVintage_vin (s : State) (st : StagedCfg) : (activateVintage s st).vin = { s.vin with
    vintage := st.vintage, digest := st.digest, cfg := st.image, staged := none, agreed := true
    activatedAt := st.act, caughtUp := st.catchup && s.vin.divergent } := by
  unfold activateVintage
  rw [logVintage_vin]
  unfold activateStaged setRt
  grind

/-! ## What the master sends again (R314) -/

/-- The flits of a list of messages leave in its order, each with its stamp. -/
theorem net_foldl_send (as : List MgmtAwait) (s : State) : ∃ fs,
    (as.foldl (fun s a => send s a.op a.dev 0x121 0 a.stamp a.words) s).tree.net = s.tree.net ++ fs ∧
    fs.map (fun f => (f.op, f.dst, f.stamp, f.words)) = as.map (fun a => (a.op, a.dev, a.stamp, a.words)) := by
  induction as generalizing s with
  | nil => exact ⟨[], (List.append_nil _).symm, rfl⟩
  | cons a as ih =>
    obtain ⟨fs, hnet, hmap⟩ := ih (send s a.op a.dev 0x121 0 a.stamp a.words)
    exact ⟨mkFlit s a.op a.dev 0x121 0 a.stamp a.words :: fs, hnet.trans (List.append_assoc ..),
      congrArg (_ :: ·) hmap⟩

/-- A report of a module that nothing is under way to brings it a catch-up (R35, R39). -/
theorem takeReport_divergent {s : State} {dev : Nat} (hdev : dev ≠ s.devId) (hinv : dev ∈ s.vin.inventory)
    (hprep : s.vin.prep = none) (hawait : s.fab.await = []) (hlost : lostDev s dev = false) :
    takeReport s 1 dev = sendCatchup s dev := by
  unfold takeReport
  rw [if_neg (by decide), if_pos (by simp [hdev, hinv, hprep, hawait]), hlost]
  rfl

theorem told_sendCatchup (s : State) (dev : Nat) : told s (sendCatchup s dev) .prepare dev
    [BitVec.ofNat 64 s.vin.vintage, s.vin.digest, BitVec.ofNat 64 ((now s + 2 ^ 24) % 2 ^ 64), 1] :=
  ⟨_, rfl, rfl, rfl, rfl⟩

/-! ## The marks of stamps (R47) -/

/-- The mark of one counter, with its entry of the logbook. -/
def recordMark (s : State) (e : Nat × Nat) : State :=
  let u := bumpCounter s 0x60
  let unit := if e.1 < 4096 then e.1 else coreSlot (e.1 - 4096)
  let cluster := if e.1 < 4096 then 0 else coreCluster (e.1 - 4096)
  let h := highestIssued u e.1
  logAdd { u with marks := Table.set zeroOf u.marks e.1 h } 0x0022 (issueStamp s 0x60).1
    [BitVec.ofNat 64 (unit + cluster * 2 ^ 8), BitVec.ofNat 64 h, 0, 0]

theorem recordMarks_eq (s : State) : recordMarks s = s.counters.foldl recordMark s := rfl

theorem recordMark_mer (s : State) (e : Nat × Nat) : (recordMark s e).mer = s.mer := logAdd_mer ..

theorem highestIssued_bumpCounter_ne (s : State) {k unit : Nat} (hk : k ≠ unit) :
    highestIssued (bumpCounter s unit) k = highestIssued s k := by
  unfold highestIssued counterOf bumpCounter Table.upd
  rw [Table.get_set, if_neg hk]

/-- Recording a mark issues a stamp of Relrax itself, and of no other counter. -/
theorem highestIssued_recordMark (s : State) (e : Nat × Nat) {k : Nat} (hk : k ≠ 0x60) :
    highestIssued (recordMark s e) k = highestIssued s k := by
  have hcounters : (recordMark s e).counters = (bumpCounter s 0x60).counters := logAdd_counters ..
  unfold highestIssued counterOf
  rw [hcounters]
  exact highestIssued_bumpCounter_ne s hk

theorem marks_recordMark (s : State) (e : Nat × Nat) {k : Nat} (hk : k ≠ 0x60) :
    Table.get zeroOf (recordMark s e).marks k =
      if k = e.1 then highestIssued s k else Table.get zeroOf s.marks k := by
  have hmarks : (recordMark s e).marks =
      Table.set zeroOf s.marks e.1 (highestIssued (bumpCounter s 0x60) e.1) := logAdd_marks ..
  rw [hmarks, Table.get_set]
  split
  next heq =>
    subst heq
    exact highestIssued_bumpCounter_ne s hk
  next => rfl

theorem marks_foldl_recordMark (es : List (Nat × Nat)) (s : State) {k : Nat} (hk : k ≠ 0x60) :
    Table.get zeroOf (es.foldl recordMark s).marks k =
      if k ∈ es.map (·.1) then highestIssued s k else Table.get zeroOf s.marks k := by
  induction es generalizing s with
  | nil => rfl
  | cons e es ih =>
    rw [List.foldl_cons, ih, highestIssued_recordMark s e hk, marks_recordMark s e hk]
    grind

/-! ## Register writes (R7, R506, R584) -/

theorem execRegisterWrite_local {a : IoAccess} {v : Word} {s t : State} (hio : a.addr.bit 63 = true)
    (hres : a.addr.field 62 48 = 0) (hdev : ioDev a.addr = s.devId) (hsize : a.size = 8) (hpwr : s.power.pwrOk = true)
    (hoff : ¬ (0xC10000 ≤ ioOff a.addr ∧ ioOff a.addr < 0xC18000)) (halign : ioOff a.addr % 8 = 0)
    (heffect : writeEffect s a.req (ioOff a.addr) v = some t) : exec (.registerWrite a v) s = .next t := by
  have hv : BitVec.ofNat 64 v.toNat = v := by simp
  have hlocal : writeLocal s a.req (ioOff a.addr) a.size v.toNat = some t := by
    unfold writeLocal writeReg
    rw [if_neg hoff, if_pos ⟨hsize, halign⟩, hv, heffect]
  have hwrite : ioWrite s a.req a.addr a.size v.toNat = t := by
    unfold ioWrite
    rw [if_neg (by simp [hres]), if_pos hdev, hlocal]
    rfl
  refine congrArg Host.Outcome.next ?_
  rw [if_pos hio, if_pos (by simp [hpwr]), hwrite]

/-! ## O42 -/

/-- Settles O42: each kind of message by its own lemma; an activation moves the vintage because nothing that follows it
touches it, and a mark is the highest counter issued because recording it issues stamps of Relrax only. -/
theorem vintageChanges : Obligations.VintageChanges := by
  unfold Obligations.VintageChanges
  refine ⟨?catchup, ?refused, ?answers, ?deadline, ?abort, ?activation, ?missed, ?resend, ?report, ?watermark, ?registers⟩
  case catchup =>
    intro v act dg c m s hpwr hahead hdigest hfree hrole hmaster
    have hexec : exec (.prepare v dg act true c) s = .next (sendMgmt (writeStaged (holdStaged (noteCatchup s v dg true)
        ⟨c, v, dg, act, true⟩) ⟨c, v, dg, act, true⟩) .ack m [BitVec.ofNat 64 v, dg, BitVec.ofNat 64 act, 0]) := by
      refine congrArg Host.Outcome.next ?_
      rw [if_neg (by simp [hpwr]), takePrepare_catchup hahead hdigest, noteCatchup_eq]
      exact stage_of_not_master _ hfree hrole hmaster
    rw [noteCatchup_eq] at hexec
    refine ⟨_, hexec, rfl, rfl, rfl, rfl, ?_, _, rfl, rfl, rfl, rfl⟩
    exact writeStaged_rtTable (s := holdStaged _ ⟨c, v, dg, act, true⟩) (st := ⟨c, v, dg, act, true⟩)
  case refused =>
    intro v act dg c m s hpwr hagreed hrole hmaster hbad
    exact ⟨_, congrArg Host.Outcome.next ((if_neg (by simp [hpwr])).trans ((takePrepare_refused c hagreed hbad).trans
      (refusePrepare_ordinary v dg act hrole hmaster))), rfl, told_sendMgmt ..⟩
  case answers =>
    intro dev v p s hprep hv
    subst hv
    refine ⟨⟨_, rfl, ?_, ?_⟩, _, rfl, ?_⟩
    · by_cases hin : dev ∈ p.acks <;> simp [clearAwait, hprep, hin]
    · intro a ha
      simp only [clearAwait, List.mem_filter] at ha
      grind
    · by_cases hin : dev ∈ p.nacks <;> simp [clearAwait, hprep, hin]
  case deadline =>
    intro p s hprep habort hmbx hrole htime hfew
    exact ⟨_, execAbortDeadline_drops hprep habort hmbx hrole htime hfew, dropChange_prep s p, sentEach_dropChange s p,
      fun _ hst => discardStaged_staged hst⟩
  case abort =>
    intro st s hst hcatch hahead
    have hexec : exec (.abort st.vintage) s = .next (discardStaged s st.vintage) := by
      refine congrArg Host.Outcome.next ?_
      rw [hst]
      exact if_neg hahead.ne'
    obtain ⟨hstaged, hpar⟩ := discardStaged_self hst hcatch
    obtain ⟨-, hvintage, -⟩ := discardStaged_keeps s st.vintage
    exact ⟨_, hexec, hstaged, hpar, hvintage⟩
  case activation =>
    intro st s hst hahead hpar hfault
    have hexec : exec .vintageActivation s = .next (afterActivation (activateVintage s st)) := by
      refine congrArg Host.Outcome.next ?_
      rw [hst]
      dsimp only
      have hgo : ¬ (s.tree.stagedPar.isNone = true ∨ s.mer.fault = true) := by
        simp [hfault, Option.isSome_iff_ne_none.mp hpar]
      rw [if_neg (by rw [hahead]; decide), if_neg hgo]
    obtain ⟨p, hvin⟩ := afterActivation_vin (activateVintage s st)
    rw [activateVintage_vin] at hvin
    refine ⟨_, hexec, ?_⟩
    rw [hvin]
    exact ⟨rfl, rfl, rfl, rfl⟩
  case missed =>
    intro v a s hst hmissed hahead
    refine ⟨_, congrArg Host.Outcome.next ?_, rfl⟩
    rw [hst, hmissed]
    exact if_neg (by rw [hahead]; decide)
  case resend =>
    intro s
    exact ⟨_, rfl, net_foldl_send ..⟩
  case report =>
    intro dev s hrole hdev hinv hprep hawait hlost
    exact ⟨_, congrArg Host.Outcome.next ((if_pos (by simp [isMaster, hrole])).trans
      (takeReport_divergent hdev hinv hprep hawait hlost)), told_sendCatchup s dev⟩
  case watermark =>
    intro s hidx
    refine ⟨_, congrArg Host.Outcome.next (if_neg hidx), ?_, ?_⟩
    · rw [recordMarks_eq]
      exact congrArg (·.wmIdx) (foldl_part State.mer recordMark_mer ..)
    · intro e he hk
      rw [recordMarks_eq]
      exact (marks_foldl_recordMark _ _ hk).trans (if_pos (List.mem_map_of_mem he))
  case registers =>
    intro a v s hio hres hdev hsize hpwr
    exact ⟨fun hoff => ⟨_, execRegisterWrite_local hio hres hdev hsize hpwr (by rw [hoff]; decide) (by rw [hoff])
        (by rw [hoff]; rfl), rfl⟩,
      fun hoff => ⟨_, execRegisterWrite_local hio hres hdev hsize hpwr (by rw [hoff]; decide) (by rw [hoff])
        (by rw [hoff]; rfl), rfl⟩⟩

end Sys2Proof.Machine
end

section
/-! SUPPORT. How a bundle of one syllable ends where it has acts, a reservation, stores or a change of world: the core after
it, said once (R50, R51, R88, R112, R118, R470). -/

namespace Sys2Proof.Machine

/-! ## The core at the end of a bundle -/

/-- The near cache at the end of a bundle that leaves these registers: its streams and its counters follow psw (R186, R468). -/
def nearAfter (c : Core) (r : CoreRegs) : Near :=
  let nr := if !(c.regs.psw.bit 40) && r.psw.bit 40 then { c.near with streams := [] } else c.near
  if !c.regs.w && r.w then { nr with frozen := some (nearCounts nr) }
  else if c.regs.w && !r.w then { nr with frozen := none } else nr

/-- The registers at the end of a bundle of one syllable. -/
def doneRegs (c : Core) (b : OpenBundle) : CoreRegs := { b.work with pc := b.target.getD (c.regs.pc + 4) }

/-- The core at the end of a bundle of one syllable, before its acts. -/
def doneCore (c : Core) (b : OpenBundle) : Core :=
  { c with
    regs := doneRegs c b
    bundle := none
    rep := []
    repFirst := false
    waiting := false
    near := nearAfter c (doneRegs c b)
    rsv := if c.regs.w != b.work.w then none else match b.rsv with | some g => some (g.1, g.2.1) | none => c.rsv
    defer := match b.rsv with | some g => some ⟨g.2.2, 16, []⟩ | none => c.defer }

/-- Nothing of an earlier bundle is left to do on the core: no repeat, no retry, no deferral (R121, R154, R213). -/
def unhindered (c : Core) : Prop := c.regs.psw.bit 45 = false ∧ c.retries = 0 ∧ c.defer = none

theorem unhindered_of_alone {s : State} {sl : Slot} (ha : alone s sl = true) : unhindered (getCore s sl.core) := by
  obtain ⟨-, -, -, -, h4, h5, h6⟩ := alone_iff.mp ha
  exact ⟨h4, h5, h6⟩

theorem endDeferral_none {s : State} {n : Nat} (h : (getCore s n).defer = none) : endDeferral s n = s := by
  unfold endDeferral
  rw [h]

theorem countDeferral_none {s : State} {n : Nat} (b : OpenBundle) (pc : Word) (h : (getCore s n).defer = none) :
    countDeferral s n b pc = s := by
  unfold countDeferral
  rw [h]

/-- The registers that a bundle of one syllable without a repeat leaves. -/
theorem nextRegs_single {c : Core} {b : OpenBundle} (h45 : c.regs.psw.bit 45 = false) (hone : b.syls.length = 1)
    (hrep : ∀ ws, Act.repeatBody ws ∉ b.acts) : nextRegs c b = (doneRegs c b, []) := by
  unfold nextRegs nextPc
  simp only [h45, Bool.false_eq_true, if_false, hone]
  split
  next ws h =>
    obtain ⟨a, ha, hx⟩ := List.exists_of_findSome?_eq_some h
    cases a with
    | repeatBody ws => exact absurd ha (hrep ws)
    | _ => simp at hx
  next => rfl

/-- A bundle of one syllable without a trap or a repeat: the core is `doneCore`, then the acts are done. -/
theorem completeBundle_single {s : State} {n : Nat} {b : OpenBundle} (hc : unhindered (getCore s n))
    (hone : b.syls.length = 1) (htrap : b.trap = none) (hrep : ∀ ws, Act.repeatBody ws ∉ b.acts)
    (h45 : b.work.psw.bit 45 = false) :
    ∃ u, completeBundle s n b = b.acts.foldl (fun s a => actNow s n a) u ∧ getCore u n = doneCore (getCore s n) b ∧
      onlyCore s u n := by
  obtain ⟨h1, h2, h3⟩ := hc
  have h45' : (doneRegs (getCore s n) b).psw.bit 45 = false := h45
  unfold completeBundle
  simp only [nextRegs_single h1 hone hrep, h45', Bool.false_and, Bool.false_eq_true, if_false, htrap]
  rw [noteRetries_none (by rw [getCore_updCore_self]; exact h2),
    countDeferral_none _ _ (by rw [getCore_updCore_self]; exact h3)]
  cases hb : b.rsv with
  | none =>
    refine ⟨_, rfl, ?_, onlyCore_updCore ..⟩
    rw [getCore_updCore_self]
    unfold doneCore
    rw [hb]
    rfl
  | some g =>
    refine ⟨_, rfl, ?_, ?_⟩
    · rw [endDeferral_none (by rw [getCore_updCore_self]; exact h3), getCore_updCore_self, getCore_updCore_self]
      unfold doneCore
      rw [hb]
      rfl
    · rw [endDeferral_none (by rw [getCore_updCore_self]; exact h3)]
      exact onlyCore_trans (onlyCore_updCore ..) (onlyCore_updCore ..)

/-! ## The accesses of a whole bundle -/

/-- A doorbell is pending by the core's own mark and the zone controller's (R118). -/
theorem bellPending_congr {s t : State} {n : Nat} (hz : t.zon = s.zon) (hirq : (getCore t n).irq = (getCore s n).irq) :
    bellPending t n = bellPending s n := by
  unfold bellPending vcoreOn getVcore
  rw [hz, hirq]

theorem bellPending_updCore {s : State} {n : Nat} {f : Core → Core} (h : (f (getCore s n)).irq = (getCore s n).irq) :
    bellPending (updCore s n f) n = bellPending s n :=
  bellPending_congr rfl (by rw [getCore_updCore_self]; exact h)

/-- Stores of a whole bundle go behind those that the buffer holds. A scrub waits for an empty buffer (R470). -/
theorem lateSteps_stores_acts (es : List BufEntry) {s : State} {n : Nat} (b : OpenBundle)
    (hscrub : Act.scrubNear ∉ b.acts ∨ es = [] ∧ (getCore s n).buf = []) :
    ∃ t l, lateSteps (es.map .store) s n b = completeBundle t n { b with late := [], seen := l } ∧
      getCore t n = { getCore s n with buf := (getCore s n).buf ++ es } ∧ onlyCore s t n := by
  induction es generalizing s b with
  | nil =>
    refine ⟨s, b.seen, ?_, by simp, onlyCore_refl s n⟩
    have hgo : ¬ (b.acts.contains .scrubNear = true ∧ (getCore s n).buf ≠ []) := by
      rcases hscrub with h | ⟨-, h⟩ <;> simp [h]
    simp only [List.map_nil, lateSteps]
    rw [if_neg hgo]
  | cons e es ih =>
    have hno : Act.scrubNear ∉ b.acts := hscrub.resolve_right (fun h => List.cons_ne_nil _ _ h.1)
    obtain ⟨t, l, h1, h2, h3⟩ := ih (s := updCore s n (fun c => { c with buf := c.buf ++ [e] }))
      { b with seen := deviceMark :: b.seen } (.inl hno)
    refine ⟨t, l, ?_, ?_, onlyCore_trans (onlyCore_updCore ..) h3⟩
    · simpa [lateSteps] using h1
    · rw [h2]; simp

theorem orderLate_single (x : Late) : orderLate [x] = [x] := by
  unfold orderLate
  cases hx : isStore x
  · cases hw : mayWrite x <;> simp [hx, hw]
  · simp [hx]

/-- A whole bundle whose accesses are stores runs to its end: the buffer has room for them, a WAIT has its doorbell (R118,
R181). -/
theorem proceed_stores {s : State} {n : Nat} {b : OpenBundle} {es : List BufEntry} (hb : (getCore s n).bundle = some b)
    (hp : b.phase = 1) (hl : b.late = es.map .store)
    (hroom : es = [] ∨ (getCore s n).buf.length + es.length ≤ 32 ∨ (getCore s n).buf = [])
    (hwait : Act.wait ∈ b.acts → bellPending s n = true)
    (hscrub : Act.scrubNear ∉ b.acts ∨ es = [] ∧ (getCore s n).buf = []) :
    ∃ t l, proceed s n = completeBundle t n { b with phase := 2, late := [], seen := l } ∧
      getCore t n = { getCore s n with buf := (getCore s n).buf ++ es, bundle := some { b with phase := 2 } } ∧
      onlyCore s t n := by
  have hfull : ¬ (storesOf b ≠ [] ∧ 32 < (getCore s n).buf.length + (storesOf b).length ∧ (getCore s n).buf ≠ []) := by
    rw [storesOf_map b es hl]
    rintro ⟨hes, h, h'⟩
    rcases hroom with hr | hr | hr
    · exact hes hr
    · omega
    · exact h' hr
  have hbell : ¬ (b.acts.contains .wait = true ∧ bellPending s n = false) := by
    rintro ⟨h, h'⟩
    rw [hwait (by simpa using h)] at h'
    exact Bool.noConfusion h'
  obtain ⟨t, l, t1, t2, t3⟩ := lateSteps_stores_acts es (s := updCore s n (fun c => { c with
    bundle := some { b with phase := 2 } })) (n := n) { b with phase := 2 } (by rwa [getCore_updCore_self])
  refine ⟨t, l, ?_, by rw [t2, getCore_updCore_self], onlyCore_trans (onlyCore_updCore ..) t3⟩
  have ho : orderLate b.late = b.late := by rw [hl]; exact orderLate_stores es
  unfold proceed
  simp only [hb, hp, ho]
  rw [if_neg (by decide), if_neg (by decide), if_neg hfull, if_neg hbell]
  rw [← t1, hl]

/-! ## A syllable alone in its bundle -/

/-- What a syllable that stands alone adds to its bundle: stores only, no exception, and no repeat. -/
def endsWith (b : OpenBundle) (es : List BufEntry) : Prop :=
  b.late = es.map .store ∧ b.trap = none ∧ b.syls = [] ∧ b.faults = [] ∧ b.work.psw.bit 45 = false ∧
    ∀ ws, Act.repeatBody ws ∉ b.acts

/-- A syllable alone in its bundle whose effect leaves `s'`: the core is that of `s'` at the end of the bundle, with its
stores buffered, and then the acts are done. -/
theorem runSyl_alone_done {s s' : State} {sl : Slot} {fits : FUnit → Bool} {i : Instr}
    {f : State → CoreRegs → OpenBundle → SylRes × State} {info : SylInfo} {b : OpenBundle} {es : List BufEntry}
    (ha : alone s sl = true) (hu : fits sl.unit = true) (ho : lowest (operandBad i) = none)
    (hi : sylInfo i = some info) (hm : (info.macm && unitMem info.unit) = false)
    (hf : f s (getCore s sl.core).regs (freshBundle (getCore s sl.core)) = (⟨true, b⟩, s')) (he : endsWith b es)
    (hrun : (getCore s' sl.core).run = (getCore s sl.core).run) (hc : unhindered (getCore s' sl.core))
    (hroom : es = [] ∨ (getCore s' sl.core).buf.length + es.length ≤ 32 ∨ (getCore s' sl.core).buf = [])
    (hwait : Act.wait ∈ b.acts → bellPending s' sl.core = true)
    (hscrub : Act.scrubNear ∉ b.acts ∨ es = [] ∧ (getCore s' sl.core).buf = []) :
    ∃ u, runSyl s sl fits i f = b.acts.foldl (fun s a => actNow s sl.core a) u ∧
      getCore u sl.core = { doneCore (getCore s' sl.core) b with buf := (getCore s' sl.core).buf ++ es } ∧
      onlyCore s' u sl.core := by
  obtain ⟨q1, q2, q3, q4, q5, q6⟩ := he
  rw [runSyl_alone ha hu ho hi hm hf q3 q4 hrun hc.1]
  obtain ⟨t, l, t1, t2, t3⟩ := proceed_stores (s := updCore s' sl.core (fun c => { c with
      bundle := some { b with syls := [info], held := none, phase := 1 } })) (n := sl.core) (es := es)
    (b := { b with syls := [info], held := none, phase := 1 }) (by rw [getCore_updCore_self]) rfl q1
    (by rwa [getCore_updCore_self])
    (fun h => by rw [bellPending_updCore rfl]; exact hwait h) (by rwa [getCore_updCore_self])
  rw [getCore_updCore_self] at t2
  obtain ⟨u, u1, u2, u3⟩ := completeBundle_single (s := t) (n := sl.core)
    (b := { b with syls := [info], held := none, phase := 2, late := [], seen := l }) (by rw [t2]; exact hc) rfl q2 q6 q5
  refine ⟨u, t1.trans u1, ?_, onlyCore_trans (onlyCore_updCore ..) (onlyCore_trans t3 u3)⟩
  rw [u2, t2]
  rfl

end Sys2Proof.Machine
end

section
/-! SUPPORT. Branches, BREAK without its enable, and WAIT, each alone in its bundle, with O13 and O18 (R104, R116 to R118). -/

namespace Sys2Proof.Machine

theorem waiting_of_alone {s : State} {sl : Slot} (ha : alone s sl = true) : (getCore s sl.core).waiting = false := by
  obtain ⟨hrun, -⟩ := alone_iff.mp ha
  simp only [canRun, Bool.and_eq_true, Bool.not_eq_true'] at hrun
  exact hrun.1.2

/-! ## Branches -/

/-- A syllable that sets the target only, alone in its bundle. -/
theorem jumpSyl_alone {s : State} {sl : Slot} {i : Instr} {t : CoreRegs → Option Word} (ha : alone s sl = true)
    (hx : sl.unit = .x) (ho : operandBad i = []) (hi : sylInfo i = some ⟨sl.unit, [], false, false, false⟩) :
    bundleEnded s (jumpSyl s sl i t) sl.core
      { (getCore s sl.core).regs with pc := (t (getCore s sl.core).regs).getD ((getCore s sl.core).regs.pc + 4) } :=
  runSyl_alone_plain (b := { freshBundle (getCore s sl.core) with target := t (getCore s sl.core).regs }) ha
    (by rw [hx]; rfl) (by rw [ho]; rfl) hi rfl rfl ⟨rfl, rfl, rfl, rfl, rfl, rfl⟩ (fun _ _ => rfl)

/-- The branch rows as the model carries them out. -/
theorem exec_branchRow {i : Instr} {sl : Slot} {tgt : CoreRegs → Option Word} (h : branchRow i = some (sl, tgt)) (s : State) :
    exec i s = .next (jumpSyl s sl i tgt) ∧ operandBad i = [] ∧
      sylInfo i = some ⟨sl.unit, [], false, false, false⟩ := by
  cases i with
  | b sl disp =>
    obtain ⟨rfl, rfl⟩ := Prod.mk.inj (Option.some.inj h)
    exact ⟨rfl, rfl, rfl⟩
  | bcc sl c disp =>
    obtain ⟨rfl, rfl⟩ := Prod.mk.inj (Option.some.inj h)
    refine ⟨?_, rfl, rfl⟩
    simp only [← condHolds_eq]
    rfl
  | br sl a =>
    obtain ⟨rfl, rfl⟩ := Prod.mk.inj (Option.some.inj h)
    refine ⟨?_, rfl, rfl⟩
    simp only [← div_mul_four]
    rfl
  | _ => injection h

/-- Settles O13: a branch alone in its bundle sets the target that its row gives. -/
theorem branchTarget : Obligations.BranchTarget := by
  unfold Obligations.BranchTarget
  intro i sl tgt s hrow ha hx
  obtain ⟨hexec, ho, hi⟩ := exec_branchRow hrow s
  exact ⟨_, hexec, jumpSyl_alone ha hx ho hi⟩

/-! ## BREAK and WAIT -/

theorem nearAfter_same {c : Core} {r : CoreRegs} (h40 : r.psw.bit 40 = c.regs.psw.bit 40) (hw : r.w = c.regs.w) :
    nearAfter c r = c.near := by
  unfold nearAfter
  simp [h40, hw]

/-- A bundle that changes neither world nor stream bypass, and reserves nothing, leaves the rest of its core. -/
theorem doneCore_plain {c : Core} {b : OpenBundle} (hwait : c.waiting = false)
    (h40 : b.work.psw.bit 40 = c.regs.psw.bit 40) (hw : b.work.w = c.regs.w) (hr : b.rsv = none) :
    doneCore c b = { c with regs := doneRegs c b, bundle := none, rep := [], repFirst := false } := by
  unfold doneCore
  rw [nearAfter_same (r := doneRegs c b) h40 hw, hr, hw, hwait.symm]
  simp

theorem execBrk_off {s : State} {sl : Slot} (imm : BitVec 16) (ha : alone s sl = true) (hx : sl.unit = .x)
    (hoff : (if (getCore s sl.core).regs.w then (getCore s sl.core).dbgBi else (getCore s sl.core).dbgOi) = false) :
    ∃ t, exec (.brk sl imm) s = .next t ∧ bundleRan s t sl.core (getCore s sl.core).regs := by
  refine ⟨_, rfl, runSyl_alone_plain (b := freshBundle (getCore s sl.core)) ha (by rw [hx]; rfl) rfl rfl rfl ?_
    ⟨rfl, rfl, rfl, rfl, rfl, rfl⟩ (fun _ _ => rfl)⟩
  exact if_neg (by rw [hoff]; exact Bool.false_ne_true)

/-- The effect of a privileged syllable (R76). -/
def privEff (f : State → CoreRegs → OpenBundle → SylRes × State) (s : State) (r : CoreRegs) (b : OpenBundle) :
    SylRes × State :=
  if r.priv = false then (⟨true, b.addFault (xExc 0x11 0)⟩, s) else f s r b

theorem privEff_of_priv {f : State → CoreRegs → OpenBundle → SylRes × State} {s : State} {r : CoreRegs} {b : OpenBundle}
    (hp : r.priv = true) : privEff f s r b = f s r b :=
  if_neg (by rw [hp]; decide)

/-- The effect of a WAIT at privilege. -/
def waitEff (s : State) (_ : CoreRegs) (b : OpenBundle) : SylRes × State := (⟨true, { b with acts := b.acts ++ [.wait] }⟩, s)

theorem exec_wait (sl : Slot) (s : State) :
    exec (.wait sl) s = .next (runSyl s sl unitX (.wait sl) (privEff waitEff)) := rfl

/-- The bundle of a WAIT. -/
def waitBundle (c : Core) : OpenBundle := { freshBundle c with acts := [.wait] }

/-- The bundle of a WAIT once it is whole. -/
def waitWhole (sl : Slot) (c : Core) : OpenBundle :=
  { waitBundle c with syls := [⟨sl.unit, [], false, false, false⟩], held := none, phase := 1 }

theorem waitBundle_acts (c : Core) : (waitBundle c).acts = [.wait] := rfl

theorem endsWith_waitBundle {c : Core} (h45 : c.regs.psw.bit 45 = false) : endsWith (waitBundle c) [] :=
  ⟨rfl, rfl, rfl, rfl, h45, by simp [waitBundle_acts]⟩

/-- A WAIT that has its doorbell completes like a syllable that does nothing. -/
theorem execWait_rung {s : State} {sl : Slot} (ha : alone s sl = true) (hx : sl.unit = .x)
    (hp : (getCore s sl.core).regs.priv = true) (hbell : bellPending s sl.core = true) :
    ∃ t, exec (.wait sl) s = .next t ∧ bundleRan s t sl.core (getCore s sl.core).regs := by
  have hc := unhindered_of_alone ha
  have hdone := doneCore_plain (b := waitBundle (getCore s sl.core)) (waiting_of_alone ha) rfl rfl rfl
  obtain ⟨u, hu, hcore, honly⟩ := runSyl_alone_done (i := .wait sl) (fits := unitX) (f := privEff waitEff)
    (b := waitBundle (getCore s sl.core)) ha (by rw [hx]; rfl) rfl rfl rfl (privEff_of_priv hp)
    (endsWith_waitBundle hc.1) rfl hc (.inl rfl) (fun _ => hbell) (.inl (by simp [waitBundle_acts]))
  rw [hdone, List.append_nil] at hcore
  exact ⟨u, (exec_wait sl s).trans (congrArg _ hu), hcore, honly⟩

/-- A whole bundle with a WAIT and no store waits while no doorbell is pending. -/
theorem proceed_waits {s : State} {n : Nat} {b : OpenBundle} (hb : (getCore s n).bundle = some b) (hp : b.phase = 1)
    (hl : b.late = []) (hw : Act.wait ∈ b.acts) (hbell : bellPending s n = false) :
    proceed s n = updCore s n (fun c => { c with waiting := true }) := by
  have hst : storesOf b = [] := by unfold storesOf; rw [hl]; rfl
  unfold proceed
  simp only [hb, hp, hst]
  rw [if_neg (by decide), if_neg (by decide), if_neg (by simp), if_pos ⟨by simpa using hw, hbell⟩]

/-- A WAIT without a doorbell leaves its bundle whole and its core waiting. -/
theorem execWait_waits {s : State} {sl : Slot} (ha : alone s sl = true) (hx : sl.unit = .x)
    (hp : (getCore s sl.core).regs.priv = true) (hbell : bellPending s sl.core = false) :
    ∃ t, exec (.wait sl) s = .next t ∧ onlyCore s t sl.core ∧ getCore t sl.core = { getCore s sl.core with
      bundle := some (waitWhole sl (getCore s sl.core)), waiting := true } := by
  obtain ⟨h45, -, -⟩ := unhindered_of_alone ha
  have hrun := runSyl_alone (i := .wait sl) (fits := unitX) (f := privEff waitEff)
    (b := waitBundle (getCore s sl.core)) ha (by rw [hx]; rfl) rfl rfl rfl (privEff_of_priv hp) rfl rfl rfl h45
  have hwait := proceed_waits (s := updCore s sl.core (fun c => { c with
      bundle := some (waitWhole sl (getCore s sl.core)) })) (n := sl.core) (by rw [getCore_updCore_self]) rfl rfl
    (by simp [waitWhole, waitBundle_acts]) (by rw [bellPending_updCore rfl]; exact hbell)
  refine ⟨_, (exec_wait sl s).trans (congrArg _ (hrun.trans hwait)),
    onlyCore_trans (onlyCore_updCore ..) (onlyCore_updCore ..), ?_⟩
  rw [getCore_updCore_self, getCore_updCore_self]

/-- A core that waits with its bundle whole completes the WAIT once a doorbell is pending. -/
theorem execWaitWake_completes {u : State} {sl : Slot} {c : Core} (hc : unhindered c) (hirq : (getCore u sl.core).irq = true)
    (hu : getCore u sl.core = { c with bundle := some (waitWhole sl c), waiting := true, irq := true }) :
    ∃ v, exec (.waitWake sl.core) u = .next v ∧ (getCore v sl.core).waiting = false ∧
      (getCore v sl.core).bundle = none ∧ (getCore v sl.core).regs = { c.regs with pc := c.regs.pc + 4 } ∧
      onlyCore u v sl.core := by
  have hbell : bellPending u sl.core = true := by
    unfold bellPending
    rw [hirq, Bool.true_or]
  have hexec : exec (.waitWake sl.core) u =
      .next (proceed (updCore u sl.core (fun c => { c with waiting := false })) sl.core) :=
    congrArg Host.Outcome.next (if_pos ⟨by rw [hu], hbell⟩)
  obtain ⟨t, l, h1, h2, h3⟩ := proceed_stores (s := updCore u sl.core (fun c => { c with waiting := false })) (n := sl.core)
    (b := waitWhole sl c) (es := []) (by rw [getCore_updCore_self, hu]) rfl rfl (.inl rfl)
    (fun _ => by rw [bellPending_updCore rfl]; exact hbell) (.inl (by simp [waitWhole, waitBundle_acts]))
  rw [getCore_updCore_self, hu] at h2
  obtain ⟨v, h4, h5, h6⟩ := completeBundle_single (s := t) (n := sl.core)
    (b := { waitWhole sl c with phase := 2, late := [], seen := l }) (by rw [h2]; exact hc) rfl rfl
    (by simp [waitWhole, waitBundle_acts]) hc.1
  refine ⟨v, hexec.trans (congrArg _ (h1.trans h4)), ?_, ?_, ?_, onlyCore_trans (onlyCore_updCore ..) (onlyCore_trans h3 h6)⟩
  all_goals
    rw [h5, h2]
    rfl

/-- Settles O18: BREAK adds nothing to its bundle; a WAIT completes with its doorbell, at once or once the core is woken. -/
theorem breakOffAndWait : Obligations.BreakOffAndWait := by
  unfold Obligations.BreakOffAndWait
  intro sl imm s c ha hx
  refine ⟨execBrk_off imm ha hx, execWait_rung ha hx, ?waits⟩
  case waits =>
    intro hp hbell
    obtain ⟨t, hexec, honly, ht⟩ := execWait_waits ha hx hp hbell
    refine ⟨t, hexec, by rw [ht], by rw [ht], honly, ?_⟩
    intro u hu
    have hcore : getCore u sl.core = { c with bundle := some (waitWhole sl c), waiting := true, irq := true } := by
      rw [hu, if_pos rfl, ht]
    exact execWaitWake_completes (unhindered_of_alone ha) (by rw [hcore]) hcore

end Sys2Proof.Machine
end

section
/-! SUPPORT. The integer rows as the model carries them out, one equation for each operation, and O10 (R98 to R106, R131 to
R133). -/

namespace Sys2Proof.Machine

/-! ## Results of the integer operations in the terms of the rows -/

/-- The result and the flags that a row gives. -/
def IntRow.res (x : IntRow) (r : CoreRegs) : IntRes := ⟨x.val r, x.c r, x.v r, x.edgeV r, x.dz r⟩

theorem IntRes.ext {x y : IntRes} (hr : x.r = y.r) (hc : x.c = y.c) (hv : x.v = y.v) (hs : x.vSet = y.vSet)
    (hd : x.dzSet = y.dzSet) : x = y := by
  cases x; cases y; simp_all

theorem intAdd_eq (a b : Word) (cin : Bool) : intAdd a b cin = ⟨a + b + one cin,
    decide (2 ^ 64 ≤ a.toNat + b.toNat + cin.toNat), beyond64 (a.toInt + b.toInt + cin.toNat), false, false⟩ :=
  IntRes.ext (intAdd_r a b cin) rfl (outOfRange_eq _) rfl rfl

theorem intAdd_plain (a b : Word) : intAdd a b false = ⟨a + b, decide (2 ^ 64 ≤ a.toNat + b.toNat),
    beyond64 (a.toInt + b.toInt), false, false⟩ := by
  rw [intAdd_eq]
  simp [one]

theorem intSub_eq (a b : Word) (borrow : Bool) : intSub a b borrow = ⟨a - b - one borrow,
    decide (b.toNat + borrow.toNat ≤ a.toNat), beyond64 (a.toInt - b.toInt - borrow.toNat), false, false⟩ :=
  IntRes.ext (intSub_r a b borrow) rfl (outOfRange_eq _) rfl rfl

theorem intSub_plain (a b : Word) : intSub a b false = ⟨a - b, decide (b.toNat ≤ a.toNat),
    beyond64 (a.toInt - b.toInt), false, false⟩ := by
  rw [intSub_eq]
  simp [one]

theorem toInt_signExtend_imm (imm : BitVec 10) : (imm.signExtend 64).toInt = imm.toInt :=
  BitVec.toInt_signExtend_of_le (by decide)

theorem intNeg_eq (a : Word) : intNeg a = ⟨-a, decide (a = 0), decide (a = BitVec.intMin 64),
    decide (a = BitVec.intMin 64), false⟩ := by
  rw [← minWord_eq]
  rfl

theorem intAbs_eq (a : Word) : intAbs a = ⟨if a.msb then -a else a, false, decide (a = BitVec.intMin 64),
    decide (a = BitVec.intMin 64), false⟩ := by
  rw [← minWord_eq, BitVec.msb_eq_getLsbD_last]
  rfl

theorem intMul_eq (a b : Word) : intMul a b = ⟨a * b, decide (2 ^ 64 ≤ a.toNat * b.toNat),
    beyond64 (a.toInt * b.toInt), false, false⟩ :=
  IntRes.ext rfl rfl (outOfRange_eq _) rfl rfl

theorem intDivU_eq (a b : Word) : intDivU a b = ⟨if b = 0 then -1 else a.udiv b, false, false, false, decide (b = 0)⟩ := by
  rw [← intDivU_r]
  unfold intDivU
  by_cases hb : b = 0
  · rw [if_pos hb, decide_eq_true hb]
  · rw [if_neg hb, decide_eq_false hb]; rfl

theorem intRemU_eq (a b : Word) : intRemU a b = ⟨a.umod b, false, false, false, decide (b = 0)⟩ := by
  rw [← intRemU_r]
  unfold intRemU
  by_cases hb : b = 0
  · rw [if_pos hb, decide_eq_true hb]
  · rw [if_neg hb, decide_eq_false hb]; rfl

/-- The one signed quotient that is out of range (R132). -/
def quotientEdge (a b : Word) : Bool := decide (a = BitVec.intMin 64 ∧ b = -1)

theorem not_quotientEdge_of_zero {a b : Word} (hb : b = 0) : ¬ (a = minWord ∧ b = -1) := by
  subst hb
  rintro ⟨-, h⟩
  exact absurd h (by decide)

theorem quotientEdge_eq (a b : Word) : quotientEdge a b = decide (a = minWord ∧ b = -1) := by
  rw [minWord_eq]
  rfl

theorem intDivS_eq (a b : Word) : intDivS a b = ⟨if b = 0 then -1 else a.sdiv b, false, quotientEdge a b,
    quotientEdge a b, decide (b = 0)⟩ := by
  rw [← intDivS_r, quotientEdge_eq]
  unfold intDivS
  by_cases hb : b = 0
  · rw [if_pos hb, decide_eq_true hb, decide_eq_false (not_quotientEdge_of_zero hb)]
  · rw [if_neg hb, decide_eq_false hb]
    by_cases he : a = minWord ∧ b = -1
    · rw [if_pos he, decide_eq_true he]
    · rw [if_neg he, decide_eq_false he]; rfl

theorem intRemS_eq (a b : Word) : intRemS a b = ⟨a.srem b, false, quotientEdge a b, quotientEdge a b, decide (b = 0)⟩ := by
  rw [← intRemS_r, quotientEdge_eq]
  unfold intRemS
  by_cases hb : b = 0
  · rw [if_pos hb, decide_eq_true hb, decide_eq_false (not_quotientEdge_of_zero hb)]
  · rw [if_neg hb, decide_eq_false hb]
    by_cases he : a = minWord ∧ b = -1
    · rw [if_pos he, decide_eq_true he]
    · rw [if_neg he, decide_eq_false he]; rfl

theorem intShift_eq (k : ShiftKind) (w : Bool) (a : Word) (n : Nat) : intShift k w a n =
    ⟨shiftedBy k w a n, false, k == .sal && salLost w a n, k == .sal && salLost w a n, false⟩ :=
  IntRes.ext (intShift_value ..) rfl (intShift_v ..) (intShift_vSet ..) rfl

theorem ldizWord_eq (h : BitVec 2) (imm : BitVec 16) : ldizWord h imm = imm.setWidth 64 <<< (16 * h.toNat) := by
  unfold ldizWord
  apply BitVec.eq_of_toNat_eq
  have hi := imm.isLt
  rw [BitVec.toNat_ofNat, BitVec.toNat_shiftLeft, Nat.shiftLeft_eq, BitVec.toNat_setWidth, Nat.mod_eq_of_lt (a := imm.toNat)]
  omega

theorem ldioWord_eq (h : BitVec 2) (imm : BitVec 16) :
    ldioWord h imm = ~~~(0xFFFF#64 <<< (16 * h.toNat)) ||| (imm.setWidth 64 <<< (16 * h.toNat)) := by
  have hones : (-1 : Word) = BitVec.allOnes 64 := by decide
  unfold ldioWord
  rw [insField_eq, hones, BitVec.allOnes_and]

/-! ## The rows -/

/-- A command that is an integer syllable with a result equal to the row's. -/
theorem next_intSyl {o : Out} {s : State} {sl : Slot} {i : Instr} {f : Bool} {d : Reg} {res : CoreRegs → IntRes}
    {val : CoreRegs → Word} {c v e z : CoreRegs → Bool} (ho : o = .next (intSyl s sl i f d res))
    (h : ∀ r, res r = ⟨val r, c r, v r, e r, z r⟩) :
    o = .next (intSyl s sl i f d (IntRow.mk sl f d val c v e z).res) := by
  rw [ho, funext h]
  rfl

/-- A syllable without flags is one whose flags are those of a plain result not in the .f form. -/
theorem moveSyl_eq_intSyl (s : State) (sl : Slot) (i : Instr) (d : Reg) (val : CoreRegs → Word) :
    moveSyl s sl i d val = intSyl s sl i false d (plainRow sl false d val).res := by
  have hkeep (w : CoreRegs) (v : Word) : w.setG d.toNat v = { w.setG d.toNat v with psw := w.psw } := by
    rw [setG_rest, ← setG_psw w d.toNat v]
    unfold CoreRegs.setG
    split <;> rfl
  exact congrArg (regSyl s sl unitInt i) (funext fun r => funext fun w => hkeep w (val r))

/-- A command that is a syllable without flags, with a result equal to the row's. -/
theorem next_moveSyl {o : Out} {s : State} {sl : Slot} {i : Instr} {d : Reg} {val row : CoreRegs → Word}
    (ho : o = .next (moveSyl s sl i d val)) (h : ∀ r, val r = row r) :
    o = .next (intSyl s sl i false d (plainRow sl false d row).res) := by
  rw [ho, moveSyl_eq_intSyl, funext h]

/-- Every integer row is carried out as an integer syllable with the result and the flags of the row. -/
theorem exec_intRow {i : Instr} {x : IntRow} (h : intRow i = some x) (ho : lowest (operandBad i) = none) (s : State) :
    exec i s = .next (intSyl s x.sl i x.f x.d x.res) := by
  cases i with
  | add sl f d a b => obtain rfl := Option.some.inj h; exact next_intSyl rfl fun r => intAdd_plain ..
  | adc sl f d a b => obtain rfl := Option.some.inj h; exact next_intSyl rfl fun r => intAdd_eq ..
  | sub sl f d a b => obtain rfl := Option.some.inj h; exact next_intSyl rfl fun r => intSub_plain ..
  | sbc sl f d a b => obtain rfl := Option.some.inj h; exact next_intSyl rfl fun r => intSub_eq ..
  | and sl f d a b => obtain rfl := Option.some.inj h; rfl
  | or sl f d a b => obtain rfl := Option.some.inj h; rfl
  | xor sl f d a b => obtain rfl := Option.some.inj h; rfl
  | andn sl f d a b => obtain rfl := Option.some.inj h; rfl
  | min sl f d a b => obtain rfl := Option.some.inj h; exact next_intSyl rfl fun r => congrArg plainRes (intMin_eq ..)
  | max sl f d a b => obtain rfl := Option.some.inj h; exact next_intSyl rfl fun r => congrArg plainRes (intMax_eq ..)
  | minu sl f d a b => obtain rfl := Option.some.inj h; exact next_intSyl rfl fun r => congrArg plainRes (intMinU_eq ..)
  | maxu sl f d a b => obtain rfl := Option.some.inj h; exact next_intSyl rfl fun r => congrArg plainRes (intMaxU_eq ..)
  | neg sl f d a => obtain rfl := Option.some.inj h; exact next_intSyl rfl fun r => intNeg_eq ..
  | abs sl f d a => obtain rfl := Option.some.inj h; exact next_intSyl rfl fun r => intAbs_eq ..
  | mul sl f d a b => obtain rfl := Option.some.inj h; exact next_intSyl rfl fun r => intMul_eq ..
  | mulhu sl f d a b => obtain rfl := Option.some.inj h; exact next_intSyl rfl fun r => congrArg plainRes (intMulHU_eq ..)
  | mulhs sl f d a b => obtain rfl := Option.some.inj h; exact next_intSyl rfl fun r => congrArg plainRes (intMulHS_eq ..)
  | divu sl f d a b => obtain rfl := Option.some.inj h; exact next_intSyl rfl fun r => intDivU_eq ..
  | remu sl f d a b => obtain rfl := Option.some.inj h; exact next_intSyl rfl fun r => intRemU_eq ..
  | divs sl f d a b => obtain rfl := Option.some.inj h; exact next_intSyl rfl fun r => intDivS_eq ..
  | rems sl f d a b => obtain rfl := Option.some.inj h; exact next_intSyl rfl fun r => intRemS_eq ..
  | shl sl f w d a b => obtain rfl := Option.some.inj h; exact next_intSyl rfl fun r => intShift_eq ..
  | shr sl f w d a b => obtain rfl := Option.some.inj h; exact next_intSyl rfl fun r => intShift_eq ..
  | sar sl f w d a b => obtain rfl := Option.some.inj h; exact next_intSyl rfl fun r => intShift_eq ..
  | sal sl f w d a b => obtain rfl := Option.some.inj h; exact next_intSyl rfl fun r => intShift_eq ..
  | rol sl f w d a b => obtain rfl := Option.some.inj h; exact next_intSyl rfl fun r => intShift_eq ..
  | ror sl f w d a b => obtain rfl := Option.some.inj h; exact next_intSyl rfl fun r => intShift_eq ..
  | sel sl c d a b => obtain rfl := Option.some.inj h; exact next_moveSyl rfl fun r => by rw [condHolds_eq]
  | sxtb sl d a => obtain rfl := Option.some.inj h; exact next_moveSyl rfl fun r => rfl
  | sxth sl d a => obtain rfl := Option.some.inj h; exact next_moveSyl rfl fun r => rfl
  | sxtw sl d a => obtain rfl := Option.some.inj h; exact next_moveSyl rfl fun r => rfl
  | zxtb sl d a => obtain rfl := Option.some.inj h; exact next_moveSyl rfl fun r => rfl
  | zxth sl d a => obtain rfl := Option.some.inj h; exact next_moveSyl rfl fun r => rfl
  | zxtw sl d a => obtain rfl := Option.some.inj h; exact next_moveSyl rfl fun r => rfl
  | clz sl d a => obtain rfl := Option.some.inj h; exact next_moveSyl rfl fun r => intClz_eq ..
  | ctz sl d a => obtain rfl := Option.some.inj h; exact next_moveSyl rfl fun r => intCtz_eq ..
  | popc sl d a => obtain rfl := Option.some.inj h; exact next_moveSyl rfl fun r => intPopc_eq ..
  | bswap sl d a => obtain rfl := Option.some.inj h; exact next_moveSyl rfl fun r => intBswap_eq ..
  | addi sl f d a imm =>
    obtain rfl := Option.some.inj h
    exact next_intSyl rfl fun r => (intAdd_plain ..).trans (by rw [toInt_signExtend_imm])
  | subi sl f d a imm =>
    obtain rfl := Option.some.inj h
    exact next_intSyl rfl fun r => (intSub_plain ..).trans (by rw [toInt_signExtend_imm])
  | andi sl d a imm => obtain rfl := Option.some.inj h; exact next_moveSyl rfl fun r => rfl
  | ori sl d a imm => obtain rfl := Option.some.inj h; exact next_moveSyl rfl fun r => rfl
  | xori sl d a imm => obtain rfl := Option.some.inj h; exact next_moveSyl rfl fun r => rfl
  | shi sl f d a imm =>
    obtain rfl := Option.some.inj h
    have hkind : shiKind imm ≤ 5 := by
      by_contra hk
      have hbad : operandBad (.shi sl f d a imm) = [1] := if_neg hk
      rw [hbad] at ho
      exact absurd ho (by decide)
    have hcount : imm.toNat % 64 = (imm.extractLsb' 0 6).toNat := by simp [BitVec.extractLsb'_toNat]
    exact next_intSyl rfl fun r => by rw [hcount, shiftKindOf_eq imm hkind]; exact intShift_eq ..
  | ins sl d hw imm => obtain rfl := Option.some.inj h; exact next_moveSyl rfl fun r => insField_eq ..
  | ldiz sl d hw imm => obtain rfl := Option.some.inj h; exact next_moveSyl rfl fun r => ldizWord_eq ..
  | ldio sl d hw imm => obtain rfl := Option.some.inj h; exact next_moveSyl rfl fun r => ldioWord_eq ..
  | _ => injection h

/-- Settles O10: psw after an integer syllable is `intFlags` of the row's result and flags. -/
theorem integerFlags : Obligations.IntegerFlags := by
  unfold Obligations.IntegerFlags
  intro i x s h ha hu ho
  obtain ⟨ds, hinfo⟩ := intRow_info i x h
  refine ⟨_, exec_intRow h ho s, ?_⟩
  have hran := regSyl_alone (f := fun r w => { w.setG x.d.toNat (x.res r).r with psw := intFlags w.psw x.f (x.res r) })
    ha hu ho hinfo rfl (fun j hj r => intFlags_keep r.psw x.f (x.res r) j (by omega))
  have hpsw : (getCore (intSyl s x.sl i x.f x.d x.res) x.sl.core).regs.psw =
      intFlags (getCore s x.sl.core).regs.psw x.f (x.res (getCore s x.sl.core).regs) :=
    congrArg (fun c : Core => c.regs.psw) hran.1
  dsimp only
  rw [hpsw]
  obtain ⟨hn, hz, hc, hv, hdz⟩ := intFlags_bits (getCore s x.sl.core).regs.psw x.f (x.res (getCore s x.sl.core).regs)
  exact ⟨hn, hz, hc, hv, hdz, fun k hk => intFlags_keep _ _ _ k hk⟩

end Sys2Proof.Machine
end

section
/-! SUPPORT. What a load reads where its lines are held: a byte under a core's own stores, and what such a load leaves
(R183 to R186, R202). -/

namespace Sys2Proof.Machine

/-! ## A byte under the core's own stores (R202) -/

/-- The store is forwarded to loads of a world (R202, R464). -/
def forwards (e : BufEntry) (w : Bool) : Bool := e.maint.isNone && e.typ == 0 && (!e.world || w)

/-- One byte under one store. -/
def underStore (w : Bool) (a : Nat) (b : Byte) (e : BufEntry) : Byte :=
  if forwards e w = true ∧ e.addr.toNat ≤ a ∧ a < e.addr.toNat + e.size then e.bytes.getD (a - e.addr.toNat) b else b

/-- One byte under the stores of a buffer, oldest first. -/
def underStores (es : List BufEntry) (w : Bool) (a : Nat) (b : Byte) : Byte := es.foldl (underStore w a) b

theorem forwards_eq_false_iff {e : BufEntry} {w : Bool} :
    forwards e w = false ↔ e.maint.isSome = true ∨ e.typ ≠ 0 ∨ (e.world && !w) = true := by
  unfold forwards
  cases e.maint <;> cases e.world <;> cases w <;> simp

/-- The bytes that a load sees, one by one. -/
theorem getElem?_forward (es : List BufEntry) (w : Bool) (a : Nat) (bs : List Byte) (i : Nat) :
    (forward es w a bs)[i]? = bs[i]?.map (underStores es w (a + i)) := by
  induction es generalizing bs with
  | nil => exact Option.map_id'.symm
  | cons e es ih =>
    have hcons : forward (e :: es) w a bs = forward es w a (bs.zipIdx.map (fun x => underStore w (a + x.2) x.1 e)) := by
      refine congrArg (forward es w a) ?_
      dsimp only
      by_cases hf : forwards e w = true
      · rw [if_neg (by rw [← forwards_eq_false_iff, hf]; decide)]
        simp only [underStore, hf, true_and]
      · rw [if_pos (forwards_eq_false_iff.mp (by simpa using hf))]
        simp [underStore, hf]
    rw [hcons, ih, List.getElem?_map, List.getElem?_zipIdx, Nat.zero_add, Option.map_map, Option.map_map]
    rfl

/-- A store that covers a byte decides it, whatever memory holds. -/
theorem underStores_of_covered {es : List BufEntry} {w : Bool} {a : Nat}
    (h : ∃ e ∈ es, forwards e w = true ∧ e.addr.toNat ≤ a ∧ a < e.addr.toNat + e.size) (b b' : Byte) :
    underStores es w a b = underStores es w a b' := by
  induction es generalizing b b' with
  | nil => obtain ⟨e, he, -⟩ := h; exact absurd he (List.not_mem_nil)
  | cons e es ih =>
    rw [underStores, underStores, List.foldl_cons, List.foldl_cons]
    by_cases hc : forwards e w = true ∧ e.addr.toNat ≤ a ∧ a < e.addr.toNat + e.size
    · have hlen : a - e.addr.toNat < e.bytes.length := by
        rw [show e.bytes.length = e.size from leBytes_length ..]
        omega
      have hsame : underStore w a b e = underStore w a b' e := by
        unfold underStore
        rw [if_pos hc, if_pos hc, List.getD_eq_getElem _ _ hlen, List.getD_eq_getElem _ _ hlen]
      rw [hsame]
    · refine ih ?_ _ _
      obtain ⟨e', he', hc'⟩ := h
      rcases List.mem_cons.mp he' with rfl | hmem
      · exact absurd hc' hc
      · exact ⟨e', hmem, hc'⟩

/-- The byte of a line in the quadrant, under the core's own stores. -/
theorem heldByte_eq (s : State) (n : Nat) (a : Word) : heldByte s n a = underStores (getCore s n).buf (getCore s n).regs.w a.toNat
    ((lineBytes (getLine s (coreQuad n) (globalLine a)).data).getD (a.toNat % 128) 0) := by
  have h := getElem?_forward (getCore s n).buf (getCore s n).regs.w a.toNat
    [(lineBytes (getLine s (coreQuad n) (globalLine a)).data).getD (a.toNat % 128) 0] 0
  unfold heldByte
  rw [List.headD_eq_head?_getD, List.head?_eq_getElem?]
  exact congrArg (Option.getD · 0) h

/-! ## Addresses within a line -/

theorem toNat_add_ofNat {a : Word} {j : Nat} (h : a.toNat + j < 2 ^ 64) : (a + BitVec.ofNat 64 j).toNat = a.toNat + j := by
  rw [BitVec.toNat_add, BitVec.toNat_ofNat]
  omega

theorem add_ofNat_add (a : Word) (i j : Nat) :
    a + BitVec.ofNat 64 i + BitVec.ofNat 64 j = a + BitVec.ofNat 64 (i + j) := by
  rw [BitVec.add_assoc, ← BitVec.ofNat_add]

theorem globalLine_add {a : Word} {j : Nat} (ha : a.toNat < 2 ^ 57) (hj : a.toNat % 128 + j < 128) :
    globalLine (a + BitVec.ofNat 64 j) = globalLine a := by
  have h := toNat_add_ofNat (a := a) (j := j) (by omega)
  unfold globalLine Word.field
  rw [h]
  omega

theorem field_high_of_lt {a : Word} (ha : a.toNat < 2 ^ 57) : a.field 63 57 = 0 := by
  unfold Word.field
  rw [Nat.div_eq_of_lt ha, Nat.zero_mod]

/-! ## What a hit leaves -/

/-- Between the two states a core has made loads that hit: but for its near cache's streams and replacement tree nothing
has changed (R183, R186). -/
def onlyHits (s t : State) (n : Nat) : Prop :=
  onlyCore s t n ∧ ∃ st tree, getCore t n = { getCore s n with near := { (getCore s n).near with streams := st, plru := tree } }

theorem onlyHits_of_same {s t : State} {n : Nat} (h : onlyCore s t n) (hc : getCore t n = getCore s n) : onlyHits s t n :=
  ⟨h, (getCore s n).near.streams, (getCore s n).near.plru, hc⟩

theorem onlyHits_refl (s : State) (n : Nat) : onlyHits s s n := onlyHits_of_same (onlyCore_refl s n) rfl

theorem onlyHits_trans {s t u : State} {n : Nat} (h : onlyHits s t n) (k : onlyHits t u n) : onlyHits s u n := by
  obtain ⟨h1, st, tree, h2⟩ := h
  obtain ⟨k1, st', tree', k2⟩ := k
  exact ⟨onlyCore_trans h1 k1, st', tree', by rw [k2, h2]⟩

section
variable {s t : State} {n : Nat} (h : onlyHits s t n)
include h

theorem onlyHits.lines : t.lines = s.lines := by rw [h.1.2]

theorem onlyHits.getLine (q gl : Nat) : Machine.getLine t q gl = Machine.getLine s q gl := by
  unfold Machine.getLine
  rw [h.lines]

theorem onlyHits.regs : (getCore t n).regs = (getCore s n).regs := by
  obtain ⟨-, st, tree, hc⟩ := h
  rw [hc]

theorem onlyHits.buf : (getCore t n).buf = (getCore s n).buf := by
  obtain ⟨-, st, tree, hc⟩ := h
  rw [hc]

theorem onlyHits.bundle : (getCore t n).bundle = (getCore s n).bundle := by
  obtain ⟨-, st, tree, hc⟩ := h
  rw [hc]

theorem onlyHits.accessFree : Machine.accessFree t n = Machine.accessFree s n := by
  obtain ⟨-, st, tree, hc⟩ := h
  unfold Machine.accessFree
  rw [hc]

theorem onlyHits.nearHit (a : Word) (k : Nat) : Machine.nearHit t n a k = Machine.nearHit s n a k := by
  obtain ⟨-, st, tree, hc⟩ := h
  unfold Machine.nearHit
  rw [hc]
  rfl

theorem onlyHits.nearReady (a : Word) (k : Nat) : Machine.nearReady t n a k = Machine.nearReady s n a k := by
  unfold Machine.nearReady pfMode
  rw [h.nearHit]
  obtain ⟨-, st, tree, hc⟩ := h
  rw [hc]

theorem onlyHits.heldBytes (a : Word) (k : Nat) : Machine.heldBytes t n a k = Machine.heldBytes s n a k := by
  have hline (x : Word) : heldLine t n x = heldLine s n x := by
    unfold heldLine
    rw [h.getLine, h.regs]
  have hbyte (x : Word) : heldByte t n x = heldByte s n x := by
    rw [heldByte_eq, heldByte_eq, h.getLine, h.regs, h.buf]
  unfold Machine.heldBytes
  simp only [hline, hbyte]

theorem onlyHits.heldWords (sg : Nat) (o : Word) (k : Nat) : Machine.heldWords t n sg o k = Machine.heldWords s n sg o k := by
  unfold Machine.heldWords
  rw [h.regs]
  simp only [h.nearHit, h.heldBytes]

theorem onlyHits.heldDesc (sel : Nat) (priv world : Option Bool) (tgt : Nat) (viaLdseg : Bool) :
    Machine.heldDesc t n sel priv world tgt viaLdseg = Machine.heldDesc s n sel priv world tgt viaLdseg := by
  unfold Machine.heldDesc
  rw [h.regs]
  simp only [h.nearHit, h.heldBytes]

theorem onlyHits.unhindered (hu : unhindered (getCore s n)) : unhindered (getCore t n) := by
  obtain ⟨-, st, tree, hc⟩ := h
  rw [hc]
  exact hu

end

/-! ## Parts of an access -/

theorem nearHit_iff {s : State} {n : Nat} {a : Word} {k : Nat} : nearHit s n a k = true ↔
    (getCore s n).near.enabled = true ∧ (getCore s n).near.blocked = none ∧
      ∀ j < k, (nearIndex (getCore s n).near (globalLine (a + BitVec.ofNat 64 j))).isSome = true ∧
        (a + BitVec.ofNat 64 j).toNat < 2 ^ 57 := by
  unfold nearHit
  simp [and_assoc]

/-- A hit of a whole access is one of each part of it. -/
theorem nearHit_part {s : State} {n : Nat} {a : Word} {k : Nat} (h : nearHit s n a k = true) {i m : Nat} (him : i + m ≤ k) :
    nearHit s n (a + BitVec.ofNat 64 i) m = true := by
  obtain ⟨h1, h2, h3⟩ := nearHit_iff.mp h
  refine nearHit_iff.mpr ⟨h1, h2, fun j hj => ?_⟩
  rw [add_ofNat_add]
  exact h3 (i + j) (by omega)

theorem heldBytes_eq_some {s : State} {n : Nat} {a : Word} {k : Nat} {bs : List Byte} : heldBytes s n a k = some bs ↔
    (∀ j < k, heldLine s n (a + BitVec.ofNat 64 j) = true) ∧
      bs = (List.range k).map (fun j => heldByte s n (a + BitVec.ofNat 64 j)) := by
  unfold heldBytes
  by_cases hall : ∀ j < k, heldLine s n (a + BitVec.ofNat 64 j) = true
  · rw [if_pos (by simpa using hall)]
    exact ⟨fun h => ⟨hall, (Option.some.inj h).symm⟩, fun h => congrArg some h.2.symm⟩
  · rw [if_neg (by simpa using hall)]
    exact ⟨fun h => (nomatch h), fun h => absurd h.1 hall⟩

theorem heldBytes_zero (s : State) (n : Nat) (a : Word) : heldBytes s n a 0 = some [] := rfl

theorem heldBytes_length {s : State} {n : Nat} {a : Word} {k : Nat} {bs : List Byte} (h : heldBytes s n a k = some bs) :
    bs.length = k := by
  rw [(heldBytes_eq_some.mp h).2, List.length_map, List.length_range]

/-- The bytes of an access, cut in two. -/
theorem heldBytes_cut {s : State} {n : Nat} {a : Word} {i m : Nat} {bs : List Byte} (h : heldBytes s n a (i + m) = some bs) :
    ∃ b1 b2, bs = b1 ++ b2 ∧ heldBytes s n a i = some b1 ∧ heldBytes s n (a + BitVec.ofNat 64 i) m = some b2 := by
  obtain ⟨h1, h2⟩ := heldBytes_eq_some.mp h
  refine ⟨_, _, ?_, heldBytes_eq_some.mpr ⟨fun j hj => h1 j (by omega), rfl⟩,
    heldBytes_eq_some.mpr ⟨fun j hj => ?_, rfl⟩⟩
  · rw [h2, List.range_add, List.map_append, List.map_map]
    simp only [add_ofNat_add, Function.comp_def]
  · rw [add_ofNat_add]
    exact h1 (i + j) (by omega)

/-! ## A load of one line -/

/-- Without prefetch mode 2 a lookup changes the stream table only (R185, R186). -/
theorem trainStream_onlyHits (s : State) (n : Nat) (d : SegReg) (unit : FUnit) (a : Nat) (hpf : pfMode (getCore s n) ≠ 2) :
    onlyHits s (trainStream s n d unit a) n := by
  have hput (st : List StreamEnt) : onlyHits s (updCore s n (fun c => { c with near := { c.near with streams := st } })) n :=
    ⟨onlyCore_updCore .., st, _, by rw [getCore_updCore_self]⟩
  unfold trainStream
  dsimp only
  split
  next => exact hput _
  next e _ =>
    split
    next => exact hput _
    next gl _ =>
      rw [if_pos (.inr hpf)]
      exact hput _

section
variable {s : State} {n : Nat} {a : Word} {k : Nat} {bs : List Byte} (hk : 0 < k) (hline : a.toNat % 128 + k ≤ 128)
  (hit : nearHit s n a k = true) (hheld : heldBytes s n a k = some bs)
include hk hline hit

theorem heldByte_of_line {j : Nat} (hj : j < k) : heldByte s n (a + BitVec.ofNat 64 j) =
    underStores (getCore s n).buf (getCore s n).regs.w (a.toNat + j)
      ((lineBytes (getLine s (coreQuad n) (globalLine a)).data).getD (a.toNat % 128 + j) 0) := by
  obtain ⟨-, -, hhit⟩ := nearHit_iff.mp hit
  have ha : a.toNat < 2 ^ 57 := by simpa using (hhit 0 hk).2
  have hto : (a + BitVec.ofNat 64 j).toNat = a.toNat + j := toNat_add_ofNat (by omega)
  rw [heldByte_eq, globalLine_add ha (by omega), hto, show (a.toNat + j) % 128 = a.toNat % 128 + j by omega]

include hheld

/-- The bytes of a line under the core's own stores are those that the access is to see. -/
theorem forward_lineSlice : forward (getCore s n).buf (getCore s n).regs.w a.toNat
    (lineSlice (getLine s (coreQuad n) (globalLine a)) a.toNat k) = bs := by
  rw [(heldBytes_eq_some.mp hheld).2]
  apply List.ext_getElem?
  intro j
  rw [getElem?_forward, List.getElem?_map, lineSlice]
  by_cases hj : j < k
  · have hlen : a.toNat % 128 + j < (lineBytes (getLine s (coreQuad n) (globalLine a)).data).length := by
      rw [lineBytes_length]; omega
    rw [List.getElem?_take_of_lt hj, List.getElem?_drop, List.getElem?_range hj, List.getElem?_eq_getElem hlen,
      Option.map_some, Option.map_some, heldByte_of_line hk hline hit hj, List.getD_eq_getElem _ _ hlen]
  · rw [List.getElem?_eq_none (by rw [List.length_take]; omega), List.getElem?_eq_none (by rw [List.length_range]; omega)]
    rfl

/-- Bytes that all come from the core's own stores are those that the access is to see. -/
theorem forward_of_allForwarded (hall : allForwarded (getCore s n).buf (getCore s n).regs.w a.toNat k = true) :
    forward (getCore s n).buf (getCore s n).regs.w a.toNat (List.replicate k 0) = bs := by
  rw [(heldBytes_eq_some.mp hheld).2]
  apply List.ext_getElem?
  intro j
  rw [getElem?_forward, List.getElem?_map, List.getElem?_replicate]
  by_cases hj : j < k
  · rw [if_pos hj, List.getElem?_range hj, Option.map_some, Option.map_some, heldByte_of_line hk hline hit hj]
    refine congrArg some (underStores_of_covered ?_ _ _)
    simpa [allForwarded, forwards, and_assoc] using (List.all_eq_true.mp hall) j (List.mem_range.mpr hj)
  · rw [if_neg hj, List.getElem?_eq_none (by rw [List.length_range]; omega)]
    rfl

/-- An access to one line that is held and in the near cache gives its bytes, and is a hit. -/
theorem loadLine_held (hb : (getCore s n).bundle = none) (d : SegReg) (unit : FUnit) {train : Bool} (e : Option Exc)
    (htrain : train = true → pfMode (getCore s n) ≠ 2) :
    ∃ t, loadLine s n d unit (getCore s n).buf train a k e = (.ok bs, t) ∧ onlyHits s t n := by
  obtain ⟨hen, hbl, hhit⟩ := nearHit_iff.mp hit
  obtain ⟨hin, ha⟩ := hhit 0 hk
  have hl := (heldBytes_eq_some.mp hheld).1 0 hk
  rw [BitVec.add_zero] at hin ha hl
  obtain ⟨⟨hst, hbnd⟩, hpoison⟩ : ((getLine s (coreQuad n) (globalLine a)).st ≠ .i ∧
      ((getLine s (coreQuad n) (globalLine a)).bonded = false ∨ (getCore s n).regs.w = true)) ∧
      (getLine s (coreQuad n) (globalLine a)).poison = false := by
    simpa [heldLine] using hl
  have huse : usable s (coreQuad n) (globalLine a) (getCore s n).regs.w = true := by
    unfold usable
    simpa [hst] using hbnd
  obtain ⟨i, hi⟩ := Option.isSome_iff_exists.mp hin
  have hkept : keptLine (getCore s n) (globalLine a) = none := by unfold keptLine; rw [hb]
  obtain ⟨s1, hs1, hh1⟩ : ∃ s1, (if train = true ∧ (getCore s n).regs.psw.bit 40 = false then trainStream s n d unit a.toNat
      else s) = s1 ∧ onlyHits s s1 n := by
    split
    next hc => exact ⟨_, rfl, trainStream_onlyHits s n d unit a.toNat (htrain hc.1)⟩
    next => exact ⟨_, rfl, onlyHits_refl s n⟩
  unfold loadLine
  by_cases hall : allForwarded (getCore s n).buf (getCore s n).regs.w a.toNat k = true
  · rw [if_pos hall]
    exact ⟨s, by rw [forward_of_allForwarded hk hline hit hheld hall], onlyHits_refl s n⟩
  · have huse1 : usable s1 (coreQuad n) (globalLine a) (getCore s n).regs.w = true := by
      unfold usable
      rw [hh1.getLine]
      exact huse
    have hload : lineLoad s1 n (globalLine a) (getCore s n).buf (getCore s n).regs.w a.toNat k = .ok bs := by
      unfold lineLoad
      rw [hh1.getLine]
      dsimp only
      rw [hpoison, if_neg (by decide), forward_lineSlice hk hline hit hheld]
    simp only [hall, hkept, hbl, field_high_of_lt ha, huse, hen, hs1, hi, huse1, hload]
    refine ⟨_, rfl, onlyHits_trans hh1 ⟨onlyCore_updCore .., (getCore s1 n).near.streams,
      plruTouch (getCore s1 n).near.plru i, ?_⟩⟩
    rw [getCore_updCore_self]

end

end Sys2Proof.Machine
end

section
/-! SUPPORT. Loads, descriptors and stack entries whose lines are held: each gives its bytes at once and is a hit (R59 to R63,
R68, R70 to R73, R183). -/

namespace Sys2Proof.Machine

/-! ## Loads of any length (R62, R68) -/

/-- A run of loads whose lines are all held. -/
theorem loadRun_held {n : Nat} (d : SegReg) (es : List BufEntry) (e : Option Exc) (fuel : Nat) {s : State} {a : Word}
    {k : Nat} {bs : List Byte} (hes : (getCore s n).buf = es) (hb : (getCore s n).bundle = none)
    (hfuel : k = 0 ∨ a.toNat % 128 + k ≤ 128 * fuel) (hit : nearHit s n a k = true)
    (hheld : heldBytes s n a k = some bs) :
    ∃ t, loadRun fuel s n d es a k e = (.ok bs, t) ∧ onlyHits s t n := by
  induction fuel generalizing s a k bs with
  | zero =>
    have hk : k = 0 := by omega
    subst hk
    obtain rfl := Option.some.inj hheld
    exact ⟨s, rfl, onlyHits_refl s n⟩
  | succ fuel ih =>
    by_cases hk : k = 0
    · subst hk
      obtain rfl := Option.some.inj hheld
      exact ⟨s, if_pos rfl, onlyHits_refl s n⟩
    · obtain ⟨j, hj⟩ : ∃ j, Nat.min k (128 - a.toNat % 128) = j := ⟨_, rfl⟩
      have hmod := Nat.mod_lt a.toNat (show 0 < 128 by decide)
      have hjk : 0 < j ∧ j ≤ k ∧ a.toNat % 128 + j ≤ 128 ∧ (j = k ∨ a.toNat % 128 + j = 128) := by
        have hmin : j = min k (128 - a.toNat % 128) := hj.symm
        omega
      obtain ⟨hj0, hjk, hline, hend⟩ := hjk
      obtain ⟨m, rfl⟩ : ∃ m, k = j + m := ⟨k - j, by omega⟩
      obtain ⟨b1, b2, rfl, h1, h2⟩ := heldBytes_cut hheld
      have hhit1 : nearHit s n a j = true := by
        simpa using nearHit_part hit (i := 0) (m := j) (by omega)
      have hhit2 := nearHit_part hit (i := j) (m := m) (by omega)
      have ha : a.toNat < 2 ^ 57 := by
        obtain ⟨-, -, h3⟩ := nearHit_iff.mp hit
        simpa using (h3 0 (by omega)).2
      obtain ⟨t1, e1, g1⟩ := loadLine_held hj0 hline hhit1 h1 hb d .x (train := false) e (fun h => nomatch h)
      obtain ⟨t2, e2, g2⟩ := ih (s := t1) (a := a + BitVec.ofNat 64 j) (k := m) (bs := b2) (by rw [g1.buf, hes])
        (by rw [g1.bundle, hb]) (by rw [toNat_add_ofNat (by omega)]; omega) (by rw [g1.nearHit, hhit2])
        (by rw [g1.heldBytes, h2])
      refine ⟨t2, ?_, onlyHits_trans g1 g2⟩
      rw [hes] at e1
      unfold loadRun
      simp only [hk, if_false, hj, e1, Nat.add_sub_cancel_left, e2]
      rfl

/-- A bundle that notes a lookup has noted some lookups, and no more. -/
theorem exists_seen_of_noted (b : OpenBundle) (i : Nat) :
    ∃ l, (if b.seen.contains i then b else { b with seen := b.seen ++ [i] }) = { b with seen := l } := by
  split
  next => exact ⟨b.seen, rfl⟩
  next => exact ⟨_, rfl⟩

/-- A load of a syllable whose one or two lines are held: its bundle has noted its lookups, and no more (R68, R186). -/
theorem loadNormal_held {s : State} {n : Nat} {b : OpenBundle} (d : SegReg) (unit : FUnit) {a : Word} {k : Nat}
    {bs : List Byte} (e : Exc) (hb : (getCore s n).bundle = none) (hst : storesOf b = []) (hk : 0 < k) (hk' : k ≤ 128)
    (hready : nearReady s n a k = true) (hheld : heldBytes s n a k = some bs) :
    ∃ t l, loadNormal s n b d unit a k e = (.ok bs, { b with seen := l }, t) ∧ onlyHits s t n := by
  obtain ⟨hit, hpf⟩ : nearHit s n a k = true ∧ pfMode (getCore s n) ≠ 2 := by
    simpa [nearReady] using hready
  obtain ⟨-, hbl, h3⟩ := nearHit_iff.mp hit
  have ha : a.toNat < 2 ^ 57 := by simpa using (h3 0 hk).2
  have hmod := Nat.mod_lt a.toNat (show 0 < 128 by decide)
  obtain ⟨j, hj⟩ : ∃ j, Nat.min k (128 - a.toNat % 128) = j := ⟨_, rfl⟩
  have hjk : 0 < j ∧ j ≤ k ∧ a.toNat % 128 + j ≤ 128 ∧ (j = k ∨ a.toNat % 128 + j = 128) := by
    have hmin : j = min k (128 - a.toNat % 128) := hj.symm
    omega
  obtain ⟨hj0, hjk, hline, hend⟩ := hjk
  obtain ⟨m, rfl⟩ : ∃ m, k = j + m := ⟨k - j, by omega⟩
  obtain ⟨b1, b2, rfl, h1, h2⟩ := heldBytes_cut hheld
  have hhit1 : nearHit s n a j = true := by
    simpa using nearHit_part hit (i := 0) (m := j) (by omega)
  have hhit2 := nearHit_part hit (i := j) (m := m) (by omega)
  obtain ⟨l0, hl0⟩ := exists_seen_of_noted b (lookupId unit 0)
  obtain ⟨l1, hl1⟩ := exists_seen_of_noted { b with seen := l0 } (lookupId unit 1)
  dsimp only at hl1
  obtain ⟨t1, e1, g1⟩ := loadLine_held hj0 hline hhit1 h1 hb d unit (train := !(b.seen.contains (lookupId unit 0)))
    (some e) (fun _ => hpf)
  unfold loadNormal
  simp only [hst, List.append_nil, hj, e1, hbl, hl0, Option.isSome_none, Bool.false_eq_true, if_false]
  by_cases hm : m = 0
  · subst hm
    obtain rfl := Option.some.inj h2
    exact ⟨t1, l0, by rw [if_pos (Nat.add_zero j).symm, List.range_zero, List.map_nil, List.append_nil], g1⟩
  · have hready1 : nearReady t1 n a (j + m) = true := by rw [g1.nearReady, hready]
    obtain ⟨t2, e2, g2⟩ := loadLine_held (s := t1) (n := n) (a := a + BitVec.ofNat 64 j) (k := m) (bs := b2) (by omega)
      (by rw [toNat_add_ofNat (by omega)]; omega) (by rw [g1.nearHit, hhit2]) (by rw [g1.heldBytes, h2])
      (by rw [g1.bundle, hb]) d unit (train := !(l0.contains (lookupId unit 1))) (some e)
      (fun _ => by simp only [nearReady, Bool.and_eq_true, bne_iff_ne] at hready1; exact hready1.2)
    rw [g1.buf] at e2
    refine ⟨t2, l1, ?_, onlyHits_trans g1 g2⟩
    rw [if_neg (by omega), Nat.add_sub_cancel_left, e2, hl1]

/-! ## Accesses that nothing holds (R184, R189, R205) -/

/-- A bundle to which nothing has been added but lookups of the near cache. -/
def untouched (c : Core) (b : OpenBundle) : Prop := ∃ l, b = { freshBundle c with seen := l }

theorem untouched_fresh (c : Core) : untouched c (freshBundle c) := ⟨[], rfl⟩

theorem accessHeld_of_free {s : State} {n : Nat} {b : OpenBundle} (h : accessFree s n = true) (hb : b.acts = []) :
    accessHeld (getCore s n) b = false := by
  obtain ⟨⟨hf, hcl⟩, -⟩ : ((getCore s n).fence = 0 ∧ (getCore s n).near.cleaning = false) ∧
      (getCore s n).near.blocked = none := by
    simpa [accessFree] using h
  unfold accessHeld fenceKind
  rw [hb, List.foldl_nil, hf, hcl]
  rfl

theorem accessWaits_of_free {s : State} {n : Nat} {b : OpenBundle} (h : accessFree s n = true) (hb : b.acts = []) :
    accessWaits (getCore s n) b = false := by
  have hbl : (getCore s n).near.blocked = none := by
    simp only [accessFree, Bool.and_eq_true, Option.isNone_iff_eq_none] at h
    exact h.2
  unfold accessWaits
  rw [accessHeld_of_free h hb, hbl]
  rfl

/-- A fence that does not stand is not ended. -/
theorem getCore_clearFence {s : State} {n : Nat} (h : accessFree s n = true) : getCore (clearFence s n) n = getCore s n := by
  have hf : (getCore s n).fence = 0 := by
    simp only [accessFree, Bool.and_eq_true, beq_iff_eq] at h
    exact h.1.1
  unfold clearFence
  rw [getCore_updCore_self]
  split
  next => rfl
  next => rw [← hf]

theorem clearFence_onlyHits {s : State} {n : Nat} (h : accessFree s n = true) : onlyHits s (clearFence s n) n :=
  onlyHits_of_same (onlyCore_updCore ..) (getCore_clearFence h)

/-- A load through a segment of normal memory that nothing holds. -/
theorem loadAccess_held {s : State} {n : Nat} {b : OpenBundle} {d : SegReg} (unit : FUnit) {a : Word} {k : Nat}
    {bs : List Byte} (e : Exc) (hfree : accessFree s n = true) (hb : (getCore s n).bundle = none) (ht : d.typ = 0)
    (hst : storesOf b = []) (hacts : b.acts = []) (hk : 0 < k) (hk' : k ≤ 128)
    (hready : nearReady s n a k = true) (hheld : heldBytes s n a k = some bs) :
    ∃ t l, loadAccess s n b d unit a k e = (.ok bs, { b with seen := l }, t) ∧ onlyHits s t n := by
  have hcl := clearFence_onlyHits hfree
  obtain ⟨t, l, h1, h2⟩ := loadNormal_held (s := clearFence s n) (n := n) (b := b) d unit e (by rw [hcl.bundle, hb]) hst hk
    hk' (by rw [hcl.nearReady, hready]) (by rw [hcl.heldBytes, hheld])
  refine ⟨t, l, ?_, onlyHits_trans hcl h2⟩
  unfold loadAccess
  simp only [accessHeld_of_free hfree hacts, ht, bne_self_eq_false, Bool.and_false, Bool.false_eq_true, or_self, if_false]
  exact h1

/-! ## Descriptors (R59 to R62) -/

theorem heldDesc_eq_some {s : State} {n sel : Nat} {priv world : Option Bool} {tgt : Nat} {viaLdseg : Bool} {d : SegReg}
    (h : heldDesc s n sel priv world tgt viaLdseg = some d) :
    sel < ((getCore s n).regs.getCtl 1).field 16 0 ∧ nearHit s n (descAddr (getCore s n).regs sel) 32 = true ∧
      ∃ bs, heldBytes s n (descAddr (getCore s n).regs sel) 32 = some bs ∧ descOf (bytesWords 4 bs) sel = d ∧
        checkDesc d priv world tgt viaLdseg = none := by
  unfold heldDesc at h
  dsimp only at h
  split at h
  next => exact nomatch h
  next hin =>
    obtain ⟨hsel, hhit⟩ := not_or.mp hin
    split at h
    next => exact nomatch h
    next bs hbs =>
      split at h
      next hck =>
        obtain rfl := Option.some.inj h
        exact ⟨Nat.lt_of_not_le hsel, (Bool.not_eq_false _).mp hhit, bs, hbs, rfl, Option.isNone_iff_eq_none.mp hck⟩
      next => exact nomatch h

/-- A descriptor whose entry is held and that passes is loaded at once. -/
theorem readDesc_held {s : State} {n sel : Nat} {priv world : Option Bool} {tgt : Nat} {viaLdseg : Bool} {d : SegReg}
    (e : Option Exc) (hb : (getCore s n).bundle = none) (h : heldDesc s n sel priv world tgt viaLdseg = some d) :
    ∃ t, readDesc s n (getCore s n).buf sel priv world tgt viaLdseg e = (.ok d, t) ∧ onlyHits s t n := by
  obtain ⟨hsel, hhit, bs, hbs, hd, hck⟩ := heldDesc_eq_some h
  have hmod := Nat.mod_lt (descAddr (getCore s n).regs sel).toNat (show 0 < 128 by decide)
  obtain ⟨t, h1, h2⟩ := loadRun_held (tableSeg (getCore s n).regs) _ e 3 rfl hb (by omega) hhit hbs
  refine ⟨t, ?_, h2⟩
  unfold readDesc
  simp only [Nat.not_le.mpr hsel, if_false, h1, hd, hck]

/-- A syllable that needs a descriptor goes on with it at once. -/
theorem withDesc_held {s : State} {n sel u tgt : Nat} {b : OpenBundle} {priv world : Option Bool} {d : SegReg} (i : Instr)
    (hfree : accessFree s n = true) (hb : (getCore s n).bundle = none) (hu : untouched (getCore s n) b)
    (h : heldDesc s n sel priv world tgt (decide (u < 4)) = some d) :
    ∃ t, (∀ f, withDesc s n b i u tgt sel priv world f = f t b d) ∧ onlyHits s t n := by
  obtain ⟨l, rfl⟩ := hu
  have hcl := clearFence_onlyHits hfree
  obtain ⟨t, h1, h2⟩ := readDesc_held (s := clearFence s n) (some ⟨u, 0x21, 0, tgt, 0⟩) (by rw [hcl.bundle, hb])
    (by rw [hcl.heldDesc, h])
  refine ⟨t, fun f => ?_, onlyHits_trans hcl h2⟩
  unfold withDesc
  have hst : (getCore (clearFence s n) n).buf ++ storesOf { freshBundle (getCore s n) with seen := l } =
      (getCore (clearFence s n) n).buf := List.append_nil _
  rw [if_neg (show ¬ refusedHere { freshBundle (getCore s n) with seen := l } u = true by simp [refusedHere, freshBundle]),
    if_neg (by rw [accessHeld_of_free hfree rfl]; decide)]
  simp only [hst, h1]
  unfold againBehind
  rw [if_neg (by simp [behindLate, freshBundle])]

/-! ## Words of a stack (R63, R70) -/

theorem bytesWords_length (k : Nat) (bs : List Byte) : (bytesWords k bs).length = k := by
  induction k generalizing bs with
  | zero => rfl
  | succ k ih => rw [bytesWords, List.length_cons, ih]

theorem heldWords_eq_some {s : State} {n sg : Nat} {o : Word} {k : Nat} {ws : List Word}
    (h : heldWords s n sg o k = some ws) :
    ((getCore s n).regs.getSeg sg).typ = 0 ∧ nearHit s n (((getCore s n).regs.getSeg sg).base + o) (8 * k) = true ∧
      ∃ bs, heldBytes s n (((getCore s n).regs.getSeg sg).base + o) (8 * k) = some bs ∧ bytesWords k bs = ws := by
  unfold heldWords at h
  dsimp only at h
  split at h
  next hc => exact ⟨hc.1, hc.2, Option.map_eq_some_iff.mp h⟩
  next => exact nomatch h

/-- The first word of an entry that is held. -/
theorem heldWords_first {s : State} {n sg : Nat} {o : Word} {k : Nat} {ws : List Word}
    (h : heldWords s n sg o (k + 1) = some ws) : heldWords s n sg o 1 = some [wordAt ws 0] := by
  obtain ⟨ht, hhit, bs, hbs, rfl⟩ := heldWords_eq_some h
  rw [show 8 * (k + 1) = 8 * 1 + 8 * k by omega] at hbs
  obtain ⟨b1, b2, rfl, h1, -⟩ := heldBytes_cut hbs
  have hlen := heldBytes_length h1
  have hpart : nearHit s n (((getCore s n).regs.getSeg sg).base + o) (8 * 1) = true := by
    simpa using nearHit_part hhit (i := 0) (m := 8 * 1) (by omega)
  unfold heldWords
  rw [if_pos ⟨ht, hpart⟩, h1]
  simp [bytesWords, wordAt, hlen, List.take_of_length_le hlen.le]

/-- Words of a stack that are held are read at once. -/
theorem readSeg_held {s : State} {n sg : Nat} {r : CoreRegs} {b : OpenBundle} {o : Word} {k : Nat} {ws : List Word}
    (hr : r = (getCore s n).regs) (hb : (getCore s n).bundle = none) (hst : storesOf b = [])
    (h : heldWords s n sg o k = some ws) :
    ∃ t, readSeg s n r b sg o k = (.ok ws, b, t) ∧ onlyHits s t n := by
  subst hr
  obtain ⟨ht, hhit, bs, hbs, rfl⟩ := heldWords_eq_some h
  have hmod := Nat.mod_lt (((getCore s n).regs.getSeg sg).base + o).toNat (show 0 < 128 by decide)
  obtain ⟨t, h1, h2⟩ := loadRun_held ((getCore s n).regs.getSeg sg) _ (some ⟨4, 0x21, 0, sg, o⟩) (k / 16 + 2) rfl hb
    (by omega) hhit hbs
  refine ⟨t, ?_, h2⟩
  unfold readSeg
  simp only [ht, hst, List.append_nil, h1]

/-- The entry at rsp, of the kind of the pop and within the limit, is read at once (R71 to R73). -/
theorem popEntry_held {s : State} {n : Nat} {r : CoreRegs} {b : OpenBundle} {kind len : Nat} {ws : List Word}
    (hr : r = (getCore s n).regs) (hb : (getCore s n).bundle = none) (hst : storesOf b = []) (hlen : 8 ≤ len)
    (hlim : r.rsp.toNat + (len - 1) ≤ (r.getSeg 15).limit.toNat) (h : heldWords s n 15 r.rsp (len / 8) = some ws)
    (hkind : (wordAt ws 0).field 7 0 = kind) :
    ∃ t, popEntry s n r b kind len = (.ok ws, b, t) ∧ onlyHits s t n := by
  obtain ⟨k, hk⟩ : ∃ k, len / 8 = k + 1 := ⟨len / 8 - 1, by omega⟩
  obtain ⟨t1, e1, g1⟩ := readSeg_held (k := 1) hr hb hst (heldWords_first (hk ▸ h))
  obtain ⟨t2, e2, g2⟩ := readSeg_held (s := t1) (n := n) (r := r) (b := b) (k := len / 8) (by rw [g1.regs, hr])
    (by rw [g1.bundle, hb]) hst (by rw [g1.heldWords, h])
  refine ⟨t2, ?_, onlyHits_trans g1 g2⟩
  have htag : wordAt [wordAt ws 0] 0 = wordAt ws 0 := rfl
  unfold popEntry
  simp only [e1, htag]
  rw [if_neg (by simp [hkind]), if_neg (by omega), e2]

/-- A pop from s15 alone whose entry is held goes on with its words at once. -/
theorem popSyl_held {s : State} {n : Nat} {r : CoreRegs} {b : OpenBundle} {kind len : Nat} {ws : List Word} (i : Instr)
    (first : Nat) (hfree : accessFree s n = true)
    (hr : r = (getCore s n).regs) (hb : (getCore s n).bundle = none) (hu : untouched (getCore s n) b)
    (hworld : ((r.getSeg 15).bit 8 && !r.w) = false) (hlen : 8 ≤ len) (hfirst : first ≤ len)
    (hlim : r.rsp.toNat + (len - 1) ≤ (r.getSeg 15).limit.toNat) (h : heldWords s n 15 r.rsp (len / 8) = some ws)
    (hkind : (wordAt ws 0).field 7 0 = kind) :
    ∃ t, (∀ f, popSyl s n r b i false kind first len f = f t b ws) ∧ onlyHits s t n := by
  obtain ⟨l, rfl⟩ := hu
  have hcl := clearFence_onlyHits hfree
  have htyp : (r.getSeg 15).typ = 0 := by rw [hr]; exact (heldWords_eq_some h).1
  obtain ⟨t, h1, h2⟩ := popEntry_held (s := clearFence s n) (n := n) (b := { freshBundle (getCore s n) with seen := l })
    (by rw [hcl.regs, hr]) (by rw [hcl.bundle, hb]) rfl hlen hlim (by rw [hcl.heldWords, h]) hkind
  have hcheck : popCheck r false first = none := by
    unfold popCheck
    rw [hworld, if_neg (by decide), if_neg (by simp), if_neg (by omega)]
  refine ⟨t, fun f => ?_, onlyHits_trans hcl h2⟩
  unfold popSyl
  rw [if_neg (show ¬ refusedHere { freshBundle (getCore s n) with seen := l } 4 = true by simp [refusedHere, freshBundle])]
  simp only [hcheck, htyp]
  rw [if_neg (by rw [accessWaits_of_free hfree rfl]; decide), if_neg (by simp)]
  simp only [h1]
  unfold againBehind
  rw [if_neg (by simp [behindLate, freshBundle])]

/-! ## Segment registers reloaded (R75, R470) -/

/-- Segment registers set one after another. -/
def segsSet (ds : Nat → SegReg) (sels : List (Nat × Nat)) (w : CoreRegs) : CoreRegs :=
  sels.foldl (fun w x => w.setSeg x.1 (ds x.1)) w

/-- Segment registers whose descriptors are all held and pass are reloaded at once. -/
theorem reloadSegs_held {n : Nat} (es : List BufEntry) (priv world : Option Bool) (ds : Nat → SegReg)
    (sels : List (Nat × Nat)) {s : State} (w : CoreRegs) (hes : (getCore s n).buf = es) (hb : (getCore s n).bundle = none)
    (h : ∀ x ∈ sels, heldDesc s n x.2 priv world x.1 false = some (ds x.1)) :
    ∃ t, reloadSegs n es priv world sels w s = (.ok (segsSet ds sels w), t) ∧
      onlyHits s t n := by
  induction sels generalizing s w with
  | nil => exact ⟨s, rfl, onlyHits_refl s n⟩
  | cons x sels ih =>
    obtain ⟨t1, e1, g1⟩ := readDesc_held (some ⟨4, 0x21, 0, x.1, 0⟩) hb (h x List.mem_cons_self)
    obtain ⟨t2, e2, g2⟩ := ih (s := t1) (w.setSeg x.1 (ds x.1)) (by rw [g1.buf, hes]) (by rw [g1.bundle, hb])
      (fun y hy => by rw [g1.heldDesc]; exact h y (List.mem_cons_of_mem _ hy))
    refine ⟨t2, ?_, onlyHits_trans g1 g2⟩
    rw [hes] at e1
    obtain ⟨i, sel⟩ := x
    unfold reloadSegs
    simp only [e1, e2]
    rfl

theorem withSegs_held {s : State} {n : Nat} {b : OpenBundle} {priv world : Option Bool} (ds : Nat → SegReg)
    {sels : List (Nat × Nat)} (hb : (getCore s n).bundle = none)
    (hst : storesOf b = []) (h : ∀ x ∈ sels, heldDesc s n x.2 priv world x.1 false = some (ds x.1)) :
    ∃ t, (∀ f, withSegs s n b priv world sels f = (⟨true, f b (segsSet ds sels b.work)⟩, t)) ∧ onlyHits s t n := by
  obtain ⟨t, h1, h2⟩ := reloadSegs_held _ priv world ds sels b.work rfl hb h
  refine ⟨t, fun f => ?_, h2⟩
  unfold withSegs
  simp only [hst, List.append_nil, h1]

end Sys2Proof.Machine
end

section
/-! SUPPORT. MACM alone in its bundle on words that are held, with O23 (R129, R130, R146). -/

namespace Sys2Proof.Machine

/-- A syllable alone in its bundle whose loads hit and which stores nothing: its registers, and the core after it. -/
theorem exec_alone_hits {o : Out} {s s' : State} {sl : Slot} {fits : FUnit → Bool} {i : Instr}
    {f : State → CoreRegs → OpenBundle → SylRes × State} {info : SylInfo} {b : OpenBundle}
    (hexec : o = .next (runSyl s sl fits i f)) (ha : alone s sl = true) (hu : fits sl.unit = true)
    (ho : lowest (operandBad i) = none) (hi : sylInfo i = some info) (hm : (info.macm && unitMem info.unit) = false)
    (he : endsWith b []) (hacts : b.acts = []) (hh : onlyHits s s' sl.core)
    (hf : f s (getCore s sl.core).regs (freshBundle (getCore s sl.core)) = (⟨true, b⟩, s')) :
    ∃ t, o = .next t ∧ regsEnded s t sl.core (doneRegs (getCore s sl.core) b) ∧
      getCore t sl.core = doneCore (getCore s' sl.core) b := by
  obtain ⟨u, hrun, hcore, honly⟩ := runSyl_alone_done ha hu ho hi hm hf he (by obtain ⟨-, st, tree, hc⟩ := hh; rw [hc])
    (hh.unhindered (unhindered_of_alone ha)) (.inl rfl) (by simp [hacts]) (.inl (by simp [hacts]))
  rw [hacts] at hrun
  rw [List.append_nil] at hcore
  refine ⟨u, hexec.trans (congrArg _ hrun), ⟨?_, ?_, ?_, onlyCore_trans hh.1 honly⟩, hcore⟩
  · rw [hcore]
    unfold doneRegs
    rw [← hh.regs]
    rfl
  · rw [hcore]
    rfl
  · rw [hcore, ← hh.buf]

/-- The word that one access of a MACM reads. -/
theorem macmLoad_held {s : State} {n : Nat} {b : OpenBundle} {r : CoreRegs} (unit : FUnit) {sg : BitVec 4} {g : Reg}
    {x : Word} (hr : r = (getCore s n).regs) (hfree : accessFree s n = true) (hb : (getCore s n).bundle = none)
    (hst : storesOf b = []) (hacts : b.acts = [])
    (hready : nearReady s n ((r.getSeg sg.toNat).base + r.getG g.toNat) 8 = true)
    (hx : heldWords s n sg.toNat (r.getG g.toNat) 1 = some [x]) :
    ∃ t l bs, macmLoad s n b r unit sg g = (.ok bs, { b with seen := l }, t) ∧ onlyHits s t n ∧
      BitVec.ofNat 64 (ofLeBytes bs) = x := by
  subst hr
  obtain ⟨ht, -, bs, hbs, hw⟩ := heldWords_eq_some hx
  obtain ⟨t, l, h1, h2⟩ := loadAccess_held unit ⟨unitNum unit, 0x21, 0, sg.toNat, (getCore s n).regs.getG g.toNat⟩ hfree hb
    ht hst hacts (by decide) (by decide) hready hbs
  have hlen := heldBytes_length hbs
  refine ⟨t, l, bs, h1, h2, ?_⟩
  rw [bytesWords, List.take_of_length_le hlen.le] at hw
  exact (List.cons.inj hw).1

/-- The accumulator rule of the model gives what the claim states of it. -/
theorem macmAcc_of_out {var acc : Nat} {r : CoreRegs} {x y : Word} {v : BitVec 128} {ovf : Bool} {f : Word}
    (h : macmOut var r acc x y = some (v, ovf, f)) :
    macmAcc var r r acc x y = .ok { r.setAcc acc v with psw := if ovf then setBit r.psw 0 true else r.psw, fcsr := f } := by
  have hset (w : BitVec 128) (o : Bool) : (if o = true then { r.setAcc acc w with psw := setBit (r.setAcc acc w).psw 0 true }
      else r.setAcc acc w) = { r.setAcc acc w with psw := if o then setBit r.psw 0 true else r.psw, fcsr := r.fcsr } := by
    cases o <;> rfl
  match var with
  | 0 =>
    simp only [macmOut, Option.some.injEq, Prod.mk.injEq] at h
    obtain ⟨rfl, rfl, rfl⟩ := h
    have hv : BitVec.ofInt 128 ((r.getAcc acc).toInt + x.toInt * y.toInt) =
        r.getAcc acc + x.signExtend 128 * y.signExtend 128 := by
      rw [BitVec.ofInt_add, BitVec.ofInt_mul, BitVec.ofInt_toInt]
      rfl
    rw [← hv]
    exact congrArg Except.ok (hset _ _)
  | 1 =>
    simp only [macmOut, Option.some.injEq, Prod.mk.injEq] at h
    obtain ⟨rfl, rfl, rfl⟩ := h
    rfl
  | 2 =>
    simp only [macmOut] at h
    cases hp : decodeDec x.toNat 15 with
    | error d => rw [hp] at h; exact nomatch h
    | ok p =>
      cases hq : decodeDec y.toNat 15 with
      | error d => rw [hp, hq] at h; exact nomatch h
      | ok q =>
        cases hz : decodeDec (r.getAcc acc).toNat 31 with
        | error d => rw [hp, hq, hz] at h; exact nomatch h
        | ok z =>
          rw [hp, hq, hz] at h
          obtain ⟨rfl, hrest⟩ := Prod.mk.inj (Option.some.inj h)
          obtain ⟨rfl, rfl⟩ := Prod.mk.inj hrest
          simp only [macmAcc, decodeAll, hp, hq, hz]
          exact congrArg Except.ok (hset _ _)
  | k + 3 =>
    simp only [macmOut, Option.some.injEq, Prod.mk.injEq] at h
    obtain ⟨rfl, rfl, rfl⟩ := h
    have hv : BitVec.ofNat 128 ((r.getAcc acc).toNat + x.toNat * y.toNat) =
        r.getAcc acc + x.setWidth 128 * y.setWidth 128 := by
      rw [BitVec.ofNat_add, BitVec.ofNat_mul]
      simp
    rw [← hv]
    exact congrArg Except.ok (hset _ _)

theorem setG_flags (r : CoreRegs) (i : Nat) (v p f : Word) :
    CoreRegs.setG { r with psw := p, fcsr := f } i v = { r.setG i v with psw := p, fcsr := f } := by
  unfold CoreRegs.setG
  split <;> rfl

/-- The registers after a MACM: the accumulator, v, fcsr and both address registers. -/
def macmRegs (r : CoreRegs) (acc : Nat) (ga gb : Reg) (v : BitVec 128) (ovf : Bool) (f : Word) : CoreRegs :=
  { ((r.setAcc acc v).setG ga.toNat (r.getG ga.toNat + 8)).setG gb.toNat (r.getG gb.toNat + 8) with
    psw := if ovf then setBit r.psw 0 true else r.psw
    fcsr := f }

/-- A MACM whose words are both held: two hits, and its registers. -/
theorem macmRun_held {s : State} {n : Nat} {b : OpenBundle} {r : CoreRegs} {var acc : BitVec 2} {ga gb : Reg}
    {sa sb : BitVec 4} {x y : Word} {v : BitVec 128} {ovf : Bool} {f : Word} (hr : r = (getCore s n).regs)
    (hfree : accessFree s n = true) (hb : (getCore s n).bundle = none) (hw : b.work = r) (hst : storesOf b = [])
    (hacts : b.acts = []) (hra : nearReady s n ((r.getSeg sa.toNat).base + r.getG ga.toNat) 8 = true)
    (hrb : nearReady s n ((r.getSeg sb.toNat).base + r.getG gb.toNat) 8 = true)
    (hx : heldWords s n sa.toNat (r.getG ga.toNat) 1 = some [x])
    (hy : heldWords s n sb.toNat (r.getG gb.toNat) 1 = some [y])
    (hout : macmOut var.toNat r acc.toNat x y = some (v, ovf, f)) :
    ∃ t l, macmRun s n b r var acc ga sa gb sb =
      (⟨true, { b with seen := l, work := macmRegs r acc.toNat ga gb v ovf f }⟩, t) ∧ onlyHits s t n := by
  obtain ⟨t1, l1, bx, e1, g1, hbx⟩ := macmLoad_held (b := b) .m0 hr hfree hb hst hacts hra hx
  obtain ⟨t2, l2, by', e2, g2, hby⟩ := macmLoad_held (s := t1) (n := n) (r := r) (b := { b with seen := l1 }) .m1 (x := y)
    (by rw [g1.regs, hr]) (by rw [g1.accessFree, hfree]) (by rw [g1.bundle, hb]) hst hacts (by rw [g1.nearReady, hrb])
    (by rw [g1.heldWords, hy])
  have hacc := macmAcc_of_out hout
  nth_rw 2 [← hw] at hacc
  refine ⟨t2, l2, ?_, onlyHits_trans g1 g2⟩
  unfold macmRun
  simp only [e1, e2, hbx, hby, hacc, setG_flags]
  rfl

/-- Settles O23: both words are held, so each load hits; the accumulator is the variant's. -/
theorem macmAccumulates : Obligations.MacmAccumulates := by
  unfold Obligations.MacmAccumulates
  intro sl var acc ga sa gb sb s x y v ovf f n r i pa pb ha hu ho hfree hta htb hfa hfb hra hrb hx hy hout
  have hb : (getCore s n).bundle = none := (alone_iff.mp ha).2.2.1
  obtain ⟨t, l, hrun, hhits⟩ := macmRun_held (b := freshBundle (getCore s n)) rfl hfree hb rfl rfl rfl hra hrb hx hy hout
  have hbad : (macmCheck r 2 sa ga).toList ++ (macmCheck r 3 sb gb).toList = [] := by
    simp only [macmCheck, hfa, hfb]
    rfl
  have h45 : (macmRegs r acc.toNat ga gb v ovf f).psw.bit 45 = false := by
    have hold := (unhindered_of_alone ha).1
    cases ovf
    · exact hold
    · exact (setBit_bit_ne r.psw 0 45 true (by decide) (by decide)).trans hold
  obtain ⟨u, hexec, hended, -⟩ := exec_alone_hits (o := exec i s) rfl ha (by rw [hu]; rfl) ho rfl
    (by simp [hu, unitMem]) (b := { freshBundle (getCore s n) with seen := l, work := macmRegs r acc.toNat ga gb v ovf f })
    ⟨rfl, rfl, rfl, rfl, h45, by simp [freshBundle]⟩ rfl hhits (by
      have hdev : decide ((r.getSeg sa.toNat).typ ≠ 0 ∨ (r.getSeg sb.toNat).typ ≠ 0) = false := by simp [hta, htb]
      dsimp only
      rw [if_neg (by rw [hbad]; simp), hdev, if_neg (by simp [refusedHere, freshBundle]), if_neg Bool.false_ne_true]
      exact hrun)
  exact ⟨u, hexec, hended⟩

end Sys2Proof.Machine
end

section
/-! SUPPORT. What the store of a STCND leaves: its line, the other lines, and the running of every core (R178, R179, R183,
R206, R218). -/

namespace Sys2Proof.Machine

/-! ## Cores whose copies of a line go (R179) -/

/-- Every core goes on as it did: its registers, its retries and its deferral stand. -/
def coresRun (s t : State) : Prop := ∀ m, (getCore t m).regs = (getCore s m).regs ∧
  (getCore t m).retries = (getCore s m).retries ∧ (getCore t m).defer = (getCore s m).defer

theorem coresRun_of_cores {s t : State} (h : t.cores = s.cores) : coresRun s t := by
  intro m
  unfold getCore
  rw [h]
  exact ⟨rfl, rfl, rfl⟩

theorem coresRun_trans {s t u : State} (h : coresRun s t) (k : coresRun t u) : coresRun s u := fun m =>
  ⟨(k m).1.trans (h m).1, (k m).2.1.trans (h m).2.1, (k m).2.2.trans (h m).2.2⟩

theorem coresRun_updCore {s : State} {n : Nat} {f : Core → Core} (hregs : (f (getCore s n)).regs = (getCore s n).regs)
    (hret : (f (getCore s n)).retries = (getCore s n).retries) (hdef : (f (getCore s n)).defer = (getCore s n).defer) :
    coresRun s (updCore s n f) := by
  intro m
  rw [getCore_updCore_eq]
  split
  next h => subst h; exact ⟨hregs, hret, hdef⟩
  next => exact ⟨rfl, rfl, rfl⟩

theorem dropCopies_reset (gl n : Nat) : dropCopies gl (Core.reset n) = Core.reset n := rfl

/-- A core of the module after copies have gone from those of a set. -/
theorem getCore_mapListed_drop {s t : State} {gl : Nat} {p : Nat → Prop} [DecidablePred p]
    (h : t.cores = Table.mapListed Core.reset (fun n c => if p n then dropCopies gl c else c) s.cores) (m : Nat) :
    getCore t m = if p m then dropCopies gl (getCore s m) else getCore s m := by
  unfold getCore
  rw [h]
  exact Table.get_mapListed (by split; exacts [dropCopies_reset gl m, rfl])

theorem coresRun_of_drop {s t : State} {gl : Nat} {p : Nat → Prop} [DecidablePred p]
    (h : t.cores = Table.mapListed Core.reset (fun n c => if p n then dropCopies gl c else c) s.cores) : coresRun s t := by
  intro m
  rw [getCore_mapListed_drop h]
  split <;> exact ⟨rfl, rfl, rfl⟩

theorem coresRun_dropQuadCopies (s : State) (q gl : Nat) (keep : Option Nat) :
    coresRun s (dropQuadCopies s q gl keep) := coresRun_of_drop (p := fun n => coreQuad n = q ∧ some n ≠ keep) rfl

theorem storeOwned_cores (s : State) (n : Nat) (a : Word) (bs : List Byte) (bnd : Bool) :
    (storeOwned s n a bs bnd).cores = (updCore (dropQuadCopies s (coreQuad n) (globalLine a) (some n)) n
      (fun c => { c with l1i := c.l1i.filter (· != globalLine a) })).cores := rfl

theorem coresRun_storeOwned (s : State) (n : Nat) (a : Word) (bs : List Byte) (bnd : Bool) :
    coresRun s (storeOwned s n a bs bnd) :=
  coresRun_trans (coresRun_dropQuadCopies s (coreQuad n) (globalLine a) (some n))
    (coresRun_trans (coresRun_updCore rfl rfl rfl) (coresRun_of_cores (storeOwned_cores s n a bs bnd)))

theorem coresRun_setLine (s : State) (q gl : Nat) (l : AgentLine) : coresRun s (setLine s q gl l) :=
  coresRun_of_cores rfl

theorem coresRun_dropLine (s : State) (q gl : Nat) : coresRun s (dropLine s q gl) := by
  unfold dropLine
  exact coresRun_trans (coresRun_setLine s q gl _) (coresRun_dropQuadCopies _ q gl none)

theorem evictLine_cores (s : State) (q gl : Nat) : (evictLine s q gl).cores = (dropLine s q gl).cores := by
  unfold evictLine
  dsimp only
  split <;> rfl

theorem coresRun_evictLine (s : State) (q gl : Nat) : coresRun s (evictLine s q gl) :=
  coresRun_trans (coresRun_dropLine s q gl) (coresRun_of_cores (evictLine_cores s q gl))

theorem coresRun_sliceEvict (s : State) (k gl : Nat) : coresRun s (sliceEvict s k gl) := by
  have hleave : coresRun s (leaveSlice s k gl) := coresRun_of_drop (p := fun n => coreCluster n = k) rfl
  unfold sliceEvict
  dsimp only
  split
  next => exact hleave
  next => exact coresRun_trans hleave (coresRun_evictLine _ _ _)

theorem coresRun_sliceAdd (s : State) (k gl : Nat) : coresRun s (sliceAdd s k gl) := by
  unfold sliceAdd
  dsimp only
  split
  next => exact coresRun_of_cores rfl
  next =>
    split
    next => exact coresRun_of_cores rfl
    next =>
      split
      next x _ =>
        exact coresRun_trans (coresRun_trans (t := nextFree s) (coresRun_of_cores rfl) (coresRun_sliceEvict _ k x))
          (coresRun_of_cores rfl)
      next => exact coresRun_of_cores rfl

theorem coresRun_l2Add (s : State) (n gl : Nat) : coresRun s (l2Add s n gl) := by
  refine coresRun_trans (coresRun_sliceAdd s (coreCluster n) gl) ?_
  unfold l2Add
  dsimp only
  split
  next => exact coresRun_of_cores rfl
  next =>
    split
    next => exact coresRun_updCore rfl rfl rfl
    next =>
      split
      next => exact coresRun_trans (t := nextFree _) (coresRun_of_cores rfl) (coresRun_updCore rfl rfl rfl)
      next => exact coresRun_of_cores rfl

theorem coresRun_storeCond (s : State) (n : Nat) (a : Word) (bs : List Byte) (bnd : Bool) :
    coresRun s (storeCond s n a bs bnd) :=
  coresRun_trans (coresRun_storeOwned s n a bs bnd) (coresRun_trans (coresRun_l2Add _ n (globalLine a))
    (coresRun_updCore rfl rfl rfl))

/-! ## Lines (R214) -/

theorem globalLine_lt (a : Word) : globalLine a < 2 ^ 50 := Nat.mod_lt _ (by decide)

/-- Within the module's quadrants each line has a key of its own. -/
theorem lineKey_inj {p q g gl : Nat} (hg : g < 2 ^ 50) (hgl : gl < 2 ^ 50) (h : lineKey p g = lineKey q gl) :
    p = q ∧ g = gl := by
  unfold lineKey at h
  omega

theorem getLine_dropQuadCopies (s : State) (q gl : Nat) (keep : Option Nat) (p g : Nat) :
    getLine (dropQuadCopies s q gl keep) p g = getLine s p g := rfl

theorem getLine_dropLine (s : State) {q x p g : Nat} (h : lineKey p g ≠ lineKey q x) :
    getLine (dropLine s q x) p g = getLine s p g := by
  unfold dropLine
  rw [getLine_dropQuadCopies, getLine_setLine_eq, if_neg h]

theorem evictLine_lines (s : State) (q x : Nat) : (evictLine s q x).lines = (dropLine s q x).lines := by
  unfold evictLine
  dsimp only
  generalize dropLine s q x = t
  split <;> rfl

theorem getLine_evictLine (s : State) {q x p g : Nat} (h : lineKey p g ≠ lineKey q x) :
    getLine (evictLine s q x) p g = getLine s p g := by
  rw [← getLine_dropLine s h]
  unfold getLine
  rw [evictLine_lines]

/-- A line that enters a slice drives no copy of itself out of its quadrant. -/
theorem getLine_sliceAdd (s : State) (k gl : Nat) : getLine (sliceAdd s k gl) (k / 4) gl = getLine s (k / 4) gl := by
  unfold sliceAdd
  dsimp only
  split
  next => rfl
  next hnot =>
    split
    next => rfl
    next =>
      split
      next x hx =>
        have hmem : x ∈ getSlice s k := (List.mem_filter.mp (List.mem_of_getElem? hx)).1
        have hne : x ≠ gl := fun e => hnot (by simpa [e] using hmem)
        have hev : getLine (sliceEvict (nextFree s) k x) (k / 4) gl = getLine s (k / 4) gl := by
          unfold sliceEvict
          dsimp only
          split
          next => rfl
          next => exact getLine_evictLine _ (fun e => hne (by unfold lineKey at e; omega))
        exact hev
      next => rfl

theorem getLine_l2Add (s : State) (n gl : Nat) : getLine (l2Add s n gl) (coreQuad n) gl = getLine s (coreQuad n) gl := by
  have hq : coreCluster n / 4 = coreQuad n := by unfold coreCluster coreQuad; omega
  have hslice := getLine_sliceAdd s (coreCluster n) gl
  rw [hq] at hslice
  unfold l2Add
  dsimp only
  split
  next => exact hslice
  next =>
    split
    next => exact hslice
    next =>
      split
      next => exact hslice
      next => exact hslice

/-- A line that the core's L2 and its slice hold needs no room made. -/
theorem l2Add_of_held {s : State} {n gl : Nat} (h2 : gl ∈ (getCore s n).l2) (h3 : gl ∈ getSlice s (coreCluster n)) :
    l2Add s n gl = s := by
  have hslice : sliceAdd s (coreCluster n) gl = s := by
    unfold sliceAdd
    dsimp only
    rw [if_pos (by simpa using h3)]
  unfold l2Add
  dsimp only
  rw [hslice, if_pos (by simpa using h2)]

section
variable (s : State) (n : Nat) (a : Word) (bs : List Byte) (bnd : Bool)

theorem storeOwned_l2 : (getCore (storeOwned s n a bs bnd) n).l2 = (getCore s n).l2 := by
  have hkeep := getCore_mapListed_drop (s := s) (t := dropQuadCopies s (coreQuad n) (globalLine a) (some n))
    (p := fun m => coreQuad m = coreQuad n ∧ some m ≠ some n) rfl n
  have hcore : getCore (storeOwned s n a bs bnd) n = getCore (updCore (dropQuadCopies s (coreQuad n) (globalLine a) (some n)) n
      (fun c => { c with l1i := c.l1i.filter (· != globalLine a) })) n :=
    congrArg (Table.get Core.reset · n) (storeOwned_cores s n a bs bnd)
  rw [hcore, getCore_updCore_self]
  dsimp only
  rw [hkeep, if_neg (by simp)]

theorem storeOwned_slice : getSlice (storeOwned s n a bs bnd) (coreCluster n) = getSlice s (coreCluster n) :=
  (Table.get_mapListed (by simp [noLines])).trans (if_neg (by simp))

theorem getLine_storeOwned (p g : Nat) : getLine (storeOwned s n a bs bnd) p g =
    if lineKey p g = lineKey (coreQuad n) (globalLine a) then { getLine s (coreQuad n) (globalLine a) with
      st := .m
      data := lineSet (getLine s (coreQuad n) (globalLine a)).data (a.toNat % 128) bs
      bonded := (getLine s (coreQuad n) (globalLine a)).bonded || bnd }
    else getLine s p g :=
  getLine_setLine_eq _ _ _ _ _ _

/-- The line that a STCND stores into is M and has its bytes (R179, R218). -/
theorem getLine_storeCond : getLine (storeCond s n a bs bnd) (coreQuad n) (globalLine a) =
    { getLine s (coreQuad n) (globalLine a) with
      st := .m
      data := lineSet (getLine s (coreQuad n) (globalLine a)).data (a.toNat % 128) bs
      bonded := (getLine s (coreQuad n) (globalLine a)).bonded || bnd } :=
  (getLine_l2Add (storeOwned s n a bs bnd) n (globalLine a)).trans ((getLine_storeOwned ..).trans (if_pos rfl))

/-- No other line changes where the line has its place in the core's L2 and its slice. -/
theorem getLine_storeCond_ne {p g : Nat} (h2 : globalLine a ∈ (getCore s n).l2)
    (h3 : globalLine a ∈ getSlice s (coreCluster n)) (hg : g < 2 ^ 50) (hne : p ≠ coreQuad n ∨ g ≠ globalLine a) :
    getLine (storeCond s n a bs bnd) p g = getLine s p g := by
  have hkey : lineKey p g ≠ lineKey (coreQuad n) (globalLine a) := fun e => by
    obtain ⟨hp, hg'⟩ := lineKey_inj hg (globalLine_lt a) e
    exact hne.elim (· hp) (· hg')
  have hadd : l2Add (storeOwned s n a bs bnd) n (globalLine a) = storeOwned s n a bs bnd :=
    l2Add_of_held (by rw [storeOwned_l2]; exact h2) (by rw [storeOwned_slice]; exact h3)
  unfold storeCond
  rw [getLine_updCore, hadd, getLine_storeOwned, if_neg hkey]

end

end Sys2Proof.Machine
end

section
/-! SUPPORT. LDRSV and STCND alone in their bundles, with O24 (R112, R155, R206, R211, R213). -/

namespace Sys2Proof.Machine

/-! ## LDRSV -/

theorem onlyHits.usable {s t : State} {n : Nat} (h : onlyHits s t n) (q gl : Nat) (w : Bool) :
    Machine.usable t q gl w = Machine.usable s q gl w := by
  unfold Machine.usable
  rw [h.getLine]

theorem ownKind_of_owned {s : State} {n gl : Nat} {w : Bool} (hu : usable s (coreQuad n) gl w = true)
    (ho : ownsLine s (coreQuad n) gl = true) : ownKind s n gl w = none := by
  unfold ownKind
  rw [if_neg (by rw [hu]; decide), if_pos ho]

theorem missingLine_of_usable {s : State} {q first k : Nat} {w : Bool} (h : ∀ j < k, usable s q (first + j) w = true) :
    missingLine s q first k w = none := by
  unfold missingLine
  rw [List.findSome?_eq_none_iff]
  intro j hj
  rw [if_pos (h j (List.mem_range.mp hj))]

/-- The bundle of a LDRSV that has its bytes: the register, and the granule with the line. -/
def rsvBundle (c : Core) (l : List Nat) (rd : Reg) (bs : List Byte) (g : Nat × Nat × Nat) : OpenBundle :=
  { freshBundle c with seen := l, work := c.regs.setG rd.toNat (BitVec.ofNat 64 (ofLeBytes bs)), rsv := some g }

section
variable {sl : Slot} {wide : Bool} {rd : Reg} {sg : BitVec 4} {a : Reg} {s : State} {r : CoreRegs} {ga : Word}
  {size k : Nat}

/-- A LDRSV whose lines the quadrant holds reads its bytes by hits and reserves the granule. -/
theorem ldrsvEff_held {bs : List Byte} (hr : r = (getCore s sl.core).regs)
    (hga : (r.getSeg sg.toNat).base + baseVal r sg a = ga) (hsize : (if wide then 8 else 4) = size)
    (hk : rsvSize s r.zone = k) (hfree : accessFree s sl.core = true) (hb : (getCore s sl.core).bundle = none)
    (hfault : rsvFault r sg.toNat (baseVal r sg a) size .load = none)
    (howns : ownsLine s (coreQuad sl.core) (globalLine ga) = true)
    (hgran : ∀ j < k / 128, usable s (coreQuad sl.core) (ga.toNat / k * k / 128 + j) r.w = true)
    (huse : usable s (coreQuad sl.core) (globalLine ga) r.w = true) (hready : nearReady s sl.core ga size = true)
    (hheld : heldBytes s sl.core ga size = some bs) :
    ∃ t l, ldrsvEff sl wide rd sg a s r (freshBundle (getCore s sl.core)) =
      (⟨true, rsvBundle (getCore s sl.core) l rd bs (ga.toNat / k * k, k, globalLine ga)⟩, t) ∧ onlyHits s t sl.core := by
  have hcl := clearFence_onlyHits hfree
  have hsize0 : 0 < size ∧ size ≤ 128 := by
    rw [← hsize]
    cases wide <;> decide
  have hlt : ga.toNat < 2 ^ 57 := by
    simp only [nearReady, Bool.and_eq_true] at hready
    obtain ⟨-, -, h3⟩ := nearHit_iff.mp hready.1
    simpa using (h3 0 hsize0.1).2
  have hbl : (getCore s sl.core).near.blocked = none := by
    simp only [accessFree, Bool.and_eq_true, Option.isNone_iff_eq_none] at hfree
    exact hfree.2
  have hown : ownKind (clearFence s sl.core) sl.core (globalLine ga) r.w = none :=
    ownKind_of_owned (by rw [hcl.usable]; exact huse) (by unfold ownsLine; rw [hcl.getLine]; exact howns)
  have hmiss : missingLine (clearFence s sl.core) (coreQuad sl.core) (ga.toNat / k * k / 128) (k / 128) r.w = none :=
    missingLine_of_usable (fun j hj => by rw [hcl.usable]; exact hgran j hj)
  obtain ⟨t, l, hload, hh⟩ := loadNormal_held (s := clearFence s sl.core) (n := sl.core) (b := freshBundle (getCore s sl.core))
    (r.getSeg sg.toNat) sl.unit ⟨unitNum sl.unit, 0x21, 0, sg.toNat, baseVal r sg a⟩ (by rw [hcl.bundle, hb]) rfl hsize0.1
    hsize0.2 (by rw [hcl.nearReady]; exact hready) (by rw [hcl.heldBytes]; exact hheld)
  refine ⟨t, l, ?_, onlyHits_trans hcl hh⟩
  unfold ldrsvEff
  simp only [hga, hsize, hk, hfault]
  rw [if_neg (by simp [refusedHere, freshBundle]), if_neg (by simp [accessHeld_of_free hfree (b := freshBundle _) rfl, hbl])]
  have hus : usable (clearFence s sl.core) (coreQuad sl.core) (globalLine ga) r.w = true := by rw [hcl.usable]; exact huse
  simp only [field_high_of_lt hlt, hus, hown, hmiss, hload, ne_eq, not_true, if_false, if_true]
  unfold againBehind
  rw [if_neg (by simp [behindLate, freshBundle])]
  subst hr
  rfl

end

theorem execLdrsv_held {sl : Slot} {wide : Bool} {rd : Reg} {sg : BitVec 4} {a : Reg} {s t : State} {l : List Nat}
    {bs : List Byte} {g : Nat × Nat × Nat} (ha : alone s sl = true) (hu : unitMem sl.unit = true)
    (ho : lowest (operandBad (.ldrsv sl wide rd sg a)) = none) (hh : onlyHits s t sl.core)
    (hrun : ldrsvEff sl wide rd sg a s (getCore s sl.core).regs (freshBundle (getCore s sl.core)) =
      (⟨true, rsvBundle (getCore s sl.core) l rd bs g⟩, t)) :
    ∃ u, exec (.ldrsv sl wide rd sg a) s = .next u ∧
      regsRan s u sl.core ((getCore s sl.core).regs.setG rd.toNat (BitVec.ofNat 64 (ofLeBytes bs))) ∧
      (getCore u sl.core).rsv = some (g.1, g.2.1) ∧ (getCore u sl.core).defer = some ⟨g.2.2, 16, []⟩ := by
  have hpsw (v : Word) : ((getCore s sl.core).regs.setG rd.toNat v).psw = (getCore s sl.core).regs.psw := setG_psw ..
  obtain ⟨u, hexec, hended, hcore⟩ := exec_alone_hits (o := exec (.ldrsv sl wide rd sg a) s) rfl ha hu ho rfl rfl
    (b := rsvBundle (getCore s sl.core) l rd bs g)
    ⟨rfl, rfl, rfl, rfl, (congrArg (Word.bit · 45) (hpsw _)).trans (unhindered_of_alone ha).1,
      by simp [rsvBundle, freshBundle]⟩ rfl hh hrun
  have hw : (rsvBundle (getCore s sl.core) l rd bs g).work.w = (getCore t sl.core).regs.w := by
    rw [hh.regs]
    exact congrArg (Word.bit · 44) (hpsw _)
  refine ⟨u, hexec, hended, ?_, ?_⟩
  · rw [hcore]
    unfold doneCore
    rw [hw, bne_self_eq_false]
    rfl
  · rw [hcore]
    rfl

/-! ## STCND -/

/-- The bundle of a STCND that has been decided. -/
def decided (b : OpenBundle) (ok : Bool) : OpenBundle :=
  { b with
    late := []
    work := { b.work with psw := setBit b.work.psw 2 ok }
    faults := []
    seen := deviceMark :: b.seen }

/-- A core whose older stores have left and been answered, and whose near cache is not being cleaned: a STCND is decided at
once (R206). -/
def storesGone (c : Core) : Prop := fenceWaits c 2 = false ∧ c.near.cleaning = false ∧ c.defer = none

theorem storesGone_of {s : State} {n : Nat} (hfree : accessFree s n = true) (hdef : (getCore s n).defer = none)
    (hbuf : ∀ e ∈ (getCore s n).buf, e.maint.isSome) (hwc : (getCore s n).wc = []) (hout : (getCore s n).wcOut = [])
    (hdev : (getCore s n).devOut = []) : storesGone (getCore s n) := by
  refine ⟨?_, ?_, hdef⟩
  · have hany : (getCore s n).buf.any (fun e => e.maint.isNone) = false := by
      rw [List.any_eq_false]
      intro e he
      have := hbuf e he
      cases hm : e.maint <;> simp_all
    unfold fenceWaits
    rw [hany, hwc, hout, hdev]
    rfl
  · simp only [accessFree, Bool.and_eq_true, Bool.not_eq_true'] at hfree
    exact hfree.1.2

/-- The access of a STCND, from the registers before the bundle (R112, R206). -/
def condOf (r : CoreRegs) (wide : Bool) (rd : Reg) (sg : BitVec 4) (a : Reg) : Late :=
  .cond ((r.getSeg sg.toNat).base + baseVal r sg a) (r.getG rd.toNat) (if wide then 8 else 4) r.zone r.w
    ((r.getSeg sg.toNat).bit 8) false (segRoom (r.getSeg sg.toNat))

/-- What the store of a STCND leaves. -/
def condStored (r : CoreRegs) (wide : Bool) (rd : Reg) (sg : BitVec 4) (a : Reg) (s : State) (n : Nat) : State :=
  storeCond s n ((r.getSeg sg.toNat).base + baseVal r sg a) (leBytes (if wide then 8 else 4) (r.getG rd.toNat).toNat)
    ((r.getSeg sg.toNat).bit 8)

section
variable {s : State} {n : Nat} {b : OpenBundle} {r : CoreRegs} {wide : Bool} {rd : Reg} {sg : BitVec 4} {a : Reg}
  (hgone : storesGone (getCore s n)) (hacts : b.acts = [])
include hgone hacts

/-- Without the reservation a STCND stores nothing. -/
theorem lateSteps_cond_fails (hno : rsvHolds (getCore s n).rsv ((r.getSeg sg.toNat).base + baseVal r sg a) = false) :
    lateSteps [condOf r wide rd sg a] s n b =
      completeBundle (updCore s n (fun c => { c with rsv := none })) n (decided b false) := by
  obtain ⟨h1, h2, h3⟩ := hgone
  unfold condOf
  simp only [lateSteps, Bool.false_eq_true, if_false]
  rw [if_neg (by simp [h1, h2]), if_pos (.inl hno), endDeferral_none (by rw [getCore_updCore_self]; exact h3),
    if_neg (by simp [hacts])]
  rfl

/-- With the reservation, on a line that the quadrant owns, a STCND stores. -/
theorem lateSteps_cond_stores (hyes : rsvHolds (getCore s n).rsv ((r.getSeg sg.toNat).base + baseVal r sg a) = true)
    (hfaults : b.faults = []) (hbl : (getCore s n).near.blocked = none)
    (hown : ownKind s n (globalLine ((r.getSeg sg.toNat).base + baseVal r sg a)) r.w = none) :
    lateSteps [condOf r wide rd sg a] s n b =
      completeBundle (updCore (condStored r wide rd sg a s n) n (fun c => { c with rsv := none })) n (decided b true) := by
  obtain ⟨h1, h2, h3⟩ := hgone
  have hdef : (getCore (condStored r wide rd sg a s n) n).defer = none := (coresRun_storeCond _ _ _ _ _ n).2.2.trans h3
  unfold condOf
  simp only [lateSteps, Bool.false_eq_true, if_false]
  rw [if_neg (by simp [h1, h2]), if_neg (by simp [hyes, hfaults]), if_neg (by simp [hbl]), hown]
  dsimp only
  rw [endDeferral_none (by rw [getCore_updCore_self]; exact hdef), if_neg (by simp [hacts])]
  rfl

end

/-- A whole bundle with one access that is no store makes it. -/
theorem proceed_one {s : State} {n : Nat} {b : OpenBundle} {x : Late} (hb : (getCore s n).bundle = some b)
    (hp : b.phase = 1) (hl : b.late = [x]) (hx : isStore x = false) (hacts : b.acts = []) :
    proceed s n = lateSteps [x] (updCore s n (fun c => { c with bundle := some { b with phase := 2 } })) n
      { b with phase := 2 } := by
  have hst : storesOf b = [] := by
    unfold storesOf
    rw [hl]
    cases x <;> simp_all [isStore]
  have ho : orderLate b.late = b.late := by rw [hl]; exact orderLate_single x
  unfold proceed
  simp only [hb, hp, hst, ho, hacts]
  rw [if_neg (by decide), if_neg (by decide), if_neg (by simp), if_neg (by simp), hl]

/-- The bundle of a STCND. -/
def condBundle (c : Core) (x : Late) : OpenBundle := { freshBundle c with late := [x] }

/-- The bundle of a STCND when it is whole. -/
def condWhole (sl : Slot) (c : Core) (x : Late) : OpenBundle :=
  { condBundle c x with syls := [⟨sl.unit, [.zOnly], false, false, true⟩], held := none, phase := 2 }

/-- A syllable alone in its bundle that adds one access, no store: its bundle is open while the access is made. -/
theorem exec_alone_one {o : Out} {s s' : State} {sl : Slot} {fits : FUnit → Bool} {i : Instr}
    {f : State → CoreRegs → OpenBundle → SylRes × State} {info : SylInfo} {b : OpenBundle} {x : Late}
    (hexec : o = .next (runSyl s sl fits i f)) (ha : alone s sl = true) (hu : fits sl.unit = true)
    (ho : lowest (operandBad i) = none) (hi : sylInfo i = some info) (hm : (info.macm && unitMem info.unit) = false)
    (hs : b.syls = []) (hq : b.faults = []) (hacts : b.acts = []) (hl : b.late = [x]) (hx : isStore x = false)
    (hc : getCore s' sl.core = getCore s sl.core)
    (hf : f s (getCore s sl.core).regs (freshBundle (getCore s sl.core)) = (⟨true, b⟩, s')) :
    ∃ t, o = .next (lateSteps [x] t sl.core { b with syls := [info], held := none, phase := 2 }) ∧
      onlyCore s' t sl.core ∧ getCore t sl.core = { getCore s sl.core with
        bundle := some { b with syls := [info], held := none, phase := 2 } } := by
  have hrun := runSyl_alone ha hu ho hi hm hf hs hq (by rw [hc]) (by rw [hc]; exact (unhindered_of_alone ha).1)
  have hproceed := proceed_one (s := updCore s' sl.core (fun c => { c with
      bundle := some { b with syls := [info], held := none, phase := 1 } })) (n := sl.core)
    (b := { b with syls := [info], held := none, phase := 1 }) (by rw [getCore_updCore_self]) rfl hl hx hacts
  refine ⟨_, hexec.trans (congrArg _ (hrun.trans hproceed)),
    onlyCore_trans (onlyCore_updCore ..) (onlyCore_updCore ..), ?_⟩
  rw [getCore_updCore_self, getCore_updCore_self, hc]

section
variable {sl : Slot} {wide : Bool} {rd : Reg} {sg : BitVec 4} {a : Reg} {s : State}

/-- A STCND alone in its bundle passes its checks and makes its access: but for the open bundle, the state is that of before. -/
theorem execStcnd_checked (ha : alone s sl = true) (hu : unitMem sl.unit = true) (hfree : accessFree s sl.core = true)
    (ho : lowest (operandBad (.stcnd sl wide rd sg a)) = none)
    (hfault : rsvFault (getCore s sl.core).regs sg.toNat (baseVal (getCore s sl.core).regs sg a) (if wide then 8 else 4)
      .store = none) :
    ∃ t, exec (.stcnd sl wide rd sg a) s = .next (lateSteps [condOf (getCore s sl.core).regs wide rd sg a] t sl.core
        (condWhole sl (getCore s sl.core) (condOf (getCore s sl.core).regs wide rd sg a))) ∧
      onlyCore s t sl.core ∧ getCore t sl.core = { getCore s sl.core with
        bundle := some (condWhole sl (getCore s sl.core) (condOf (getCore s sl.core).regs wide rd sg a)) } := by
  obtain ⟨t, hexec, honly, ht⟩ := exec_alone_one (o := exec (.stcnd sl wide rd sg a) s) rfl ha hu ho rfl rfl
    (b := condBundle (getCore s sl.core) (condOf (getCore s sl.core).regs wide rd sg a)) (s' := clearFence s sl.core)
    rfl rfl rfl rfl rfl (getCore_clearFence hfree) (by
      dsimp only
      rw [hfault]
      dsimp only
      rw [if_neg (by rw [accessHeld_of_free hfree rfl]; decide)]
      rfl)
  exact ⟨t, hexec, onlyCore_trans (onlyCore_updCore ..) honly, ht⟩

theorem storesGone_with_bundle {c : Core} (h : storesGone c) (b : Option OpenBundle) : storesGone { c with bundle := b } := h

/-- The core at the end of the bundle of a STCND: its flags, and no reservation. -/
theorem completeBundle_decided {t u : State} {r : CoreRegs} {x : Late} {ok : Bool} (ha : alone s sl = true)
    (hr : r = (getCore s sl.core).regs) (hc : unhindered (getCore t sl.core)) (ht : (getCore t sl.core).regs = r)
    (hu : u = completeBundle (updCore t sl.core (fun c => { c with rsv := none })) sl.core
      (decided (condWhole sl (getCore s sl.core) x) ok)) :
    (getCore u sl.core).regs = { r with pc := r.pc + 4, psw := setBit r.psw 2 ok } ∧ (getCore u sl.core).rsv = none ∧
      (getCore u sl.core).bundle = none ∧ (getCore u sl.core).buf = (getCore t sl.core).buf ∧ onlyCore t u sl.core := by
  subst hr
  have h45 : (setBit (getCore s sl.core).regs.psw 2 ok).bit 45 = false :=
    (setBit_bit_ne _ 2 45 ok (by decide) (by decide)).trans (unhindered_of_alone ha).1
  obtain ⟨v, h1, h2, h3⟩ := completeBundle_single (s := updCore t sl.core (fun c => { c with rsv := none })) (n := sl.core)
    (b := decided (condWhole sl (getCore s sl.core) x) ok) (by rw [getCore_updCore_self]; exact hc) rfl rfl
    (by simp [decided, condWhole, condBundle, freshBundle]) h45
  have huv : u = v := hu.trans h1
  subst huv
  rw [getCore_updCore_self] at h2
  refine ⟨?_, ?_, ?_, ?_, onlyCore_trans (onlyCore_updCore ..) h3⟩
  · rw [h2]
    show doneRegs _ _ = _
    unfold doneRegs
    rw [ht]
    rfl
  · rw [h2]
    exact ite_self none
  · rw [h2]
    rfl
  · rw [h2]
    rfl

end

section
variable {sl : Slot} {wide : Bool} {rd : Reg} {sg : BitVec 4} {a : Reg} {s : State} {r : CoreRegs} {ga : Word} {size : Nat}
  (hr : r = (getCore s sl.core).regs) (hga : (r.getSeg sg.toNat).base + baseVal r sg a = ga)
  (hsize : (if wide then 8 else 4) = size) (ha : alone s sl = true) (hu : unitMem sl.unit = true)
  (hfree : accessFree s sl.core = true) (ho : lowest (operandBad (.stcnd sl wide rd sg a)) = none)
  (hfault : rsvFault r sg.toNat (baseVal r sg a) size .store = none) (hgone : storesGone (getCore s sl.core))
include hr hga hsize ha hu hfree ho hfault hgone

/-- A STCND without the reservation stores nothing and clears z (R112). -/
theorem execStcnd_fails (hno : rsvHolds (getCore s sl.core).rsv ga = false) :
    ∃ t, exec (.stcnd sl wide rd sg a) s = .next t ∧ regsRan s t sl.core { r with psw := setBit r.psw 2 false } ∧
      (getCore t sl.core).rsv = none := by
  subst hr hga hsize
  obtain ⟨t, hexec, honly, ht⟩ := execStcnd_checked ha hu hfree ho hfault
  have hsteps := lateSteps_cond_fails (s := t) (n := sl.core) (r := (getCore s sl.core).regs) (wide := wide) (rd := rd)
    (b := condWhole sl (getCore s sl.core) (condOf (getCore s sl.core).regs wide rd sg a))
    (by rw [ht]; exact storesGone_with_bundle hgone _) rfl (by rw [ht]; exact hno)
  obtain ⟨h1, h2, h3, h4, h5⟩ := completeBundle_decided (t := t) ha rfl (by rw [ht]; exact unhindered_of_alone ha)
    (by rw [ht]) rfl
  exact ⟨_, hexec.trans (congrArg _ hsteps), ⟨h1, h3, h4.trans (by rw [ht]), onlyCore_trans honly h5⟩, h2⟩

/-- A STCND with the reservation stores its bytes into its line, which is M, and sets z (R112, R206, R218). -/
theorem execStcnd_stores (hyes : rsvHolds (getCore s sl.core).rsv ga = true)
    (huse : usable s (coreQuad sl.core) (globalLine ga) r.w = true)
    (howns : ownsLine s (coreQuad sl.core) (globalLine ga) = true) :
    ∃ t, exec (.stcnd sl wide rd sg a) s = .next t ∧
      (getCore t sl.core).regs = { r with pc := r.pc + 4, psw := setBit r.psw 2 true } ∧ (getCore t sl.core).rsv = none ∧
      (getLine t (coreQuad sl.core) (globalLine ga)).st = .m ∧
      (getLine t (coreQuad sl.core) (globalLine ga)).data =
        lineSet (getLine s (coreQuad sl.core) (globalLine ga)).data (ga.toNat % 128) (leBytes size (r.getG rd.toNat).toNat) ∧
      (globalLine ga ∈ (getCore s sl.core).l2 → globalLine ga ∈ getSlice s (coreCluster sl.core) →
        ∀ p g, g < 2 ^ 50 → (p ≠ coreQuad sl.core ∨ g ≠ globalLine ga) → getLine t p g = getLine s p g) := by
  subst hr hga hsize
  obtain ⟨t, hexec, honly, ht⟩ := execStcnd_checked ha hu hfree ho hfault
  have hline (p g : Nat) : getLine t p g = getLine s p g := by
    unfold getLine
    rw [honly.2]
  have hslice (k : Nat) : getSlice t k = getSlice s k := by
    unfold getSlice
    rw [honly.2]
  have hbl : (getCore t sl.core).near.blocked = none := by
    rw [ht]
    simp only [accessFree, Bool.and_eq_true, Option.isNone_iff_eq_none] at hfree
    exact hfree.2
  have hsteps := lateSteps_cond_stores (s := t) (n := sl.core) (r := (getCore s sl.core).regs) (wide := wide) (rd := rd)
    (b := condWhole sl (getCore s sl.core) (condOf (getCore s sl.core).regs wide rd sg a))
    (by rw [ht]; exact storesGone_with_bundle hgone _) rfl (by rw [ht]; exact hyes) rfl hbl
    (ownKind_of_owned (by unfold usable; rw [hline]; exact huse) (by unfold ownsLine; rw [hline]; exact howns))
  obtain ⟨kregs, kret, kdef⟩ : _ ∧ _ ∧ _ := coresRun_storeCond t sl.core _ _ _ sl.core
  obtain ⟨h1, h2, -, -, h5⟩ := completeBundle_decided (t := condStored (getCore s sl.core).regs wide rd sg a t sl.core)
    (x := condOf (getCore s sl.core).regs wide rd sg a) (ok := true) ha rfl
    (by unfold unhindered condStored; rw [kregs, kret, kdef, ht]; exact unhindered_of_alone ha)
    (by unfold condStored; rw [kregs, ht]) rfl
  have hafter (p g : Nat) : getLine (completeBundle (updCore (condStored (getCore s sl.core).regs wide rd sg a t sl.core)
      sl.core (fun c => { c with rsv := none })) sl.core (decided (condWhole sl (getCore s sl.core)
        (condOf (getCore s sl.core).regs wide rd sg a)) true)) p g =
      getLine (condStored (getCore s sl.core).regs wide rd sg a t sl.core) p g := by
    unfold getLine
    rw [h5.2]
  refine ⟨_, hexec.trans (congrArg _ hsteps), h1, h2, ?_, ?_, fun hin hin' p g hg hne => ?_⟩
  · rw [hafter, condStored, getLine_storeCond]
  · rw [hafter, condStored, getLine_storeCond]
    dsimp only
    rw [hline]
  · rw [hafter, condStored, getLine_storeCond_ne _ _ _ _ _ (by rw [ht]; exact hin) (by rw [hslice]; exact hin') hg hne,
      hline]

end

/-- Settles O24: a LDRSV is a load that hits; a STCND is one access that is decided at the end of its bundle. -/
theorem reservationTaken : Obligations.ReservationTaken := by
  unfold Obligations.ReservationTaken
  intro sl wide rd sg a s n c r d o size ga gl q k first ha hu hfree
  have hb : (getCore s n).bundle = none := (alone_iff.mp ha).2.2.1
  have hdef := (unhindered_of_alone ha).2.2
  refine ⟨?load, fun ho hfault hbuf hwc hout hdev => ⟨fun hno => ?fails, fun hyes huse howns => ?stores⟩⟩
  case load =>
    intro bs ho hfault howns hgran huse hready hheld
    obtain ⟨t, l, hrun, hh⟩ := ldrsvEff_held (rd := rd) rfl rfl rfl rfl hfree hb hfault howns hgran huse hready hheld
    obtain ⟨u, hexec, hended, hrsv, hdefer⟩ := execLdrsv_held ha hu ho hh hrun
    exact ⟨u, hexec, hended, hrsv, hdefer⟩
  case fails =>
    exact execStcnd_fails rfl rfl rfl ha hu hfree ho hfault (storesGone_of hfree hdef hbuf hwc hout hdev) hno
  case stores =>
    obtain ⟨t, hexec, hregs, hrsv, hst, hdata, hrest⟩ := execStcnd_stores rfl rfl rfl ha hu hfree ho hfault
      (storesGone_of hfree hdef hbuf hwc hout hdev) hyes huse howns
    exact ⟨t, hexec, hregs, hrsv, hst, hdata, fun h2 h3 p g _ hg hne => hrest h2 h3 p g hg hne⟩

end Sys2Proof.Machine
end

section
/-! SUPPORT. Entry to the bonded world by BCALL and the return from it by BRET, each alone in its bundle, with O27 (R119, R464,
R468 to R470). -/

namespace Sys2Proof.Machine

/-! ## BCALL -/

/-- Stamps are issued from the counters and the module's own words, whatever its cores do (R44). -/
theorem issueCoreStamp_of_onlyCore {s t : State} {n : Nat} (h : onlyCore s t n) :
    (issueCoreStamp t n).1 = (issueCoreStamp s n).1 := by
  rw [h.2]
  rfl

theorem coreAndStamps_issueCoreStamp (s : State) (n : Nat) : coreAndStamps s (issueCoreStamp s n).2 n :=
  ⟨fun _ _ => rfl, rfl⟩

/-- psw on entry to the bonded world: w and priv set, ie and ex clear (R469). -/
def bondedPsw (p : Word) : Word := setBit (setBit (setBit (setBit p 44 true) 43 true) 42 false) 41 false

theorem bondedPsw_bit (p : Word) (j : Nat) : (bondedPsw p).bit j =
    if j = 44 ∨ j = 43 then true else if j = 42 ∨ j = 41 then false else p.bit j := by
  have hset (w : Word) (i : Nat) (b : Bool) (hi : i < 64) : (setBit w i b).bit j = if j = i then b else w.bit j := by
    split
    next h => subst h; exact setBit_bit_self w j b hi
    next h => exact setBit_bit_ne w i j b hi h
  unfold bondedPsw
  rw [hset _ 41 _ (by decide), hset _ 42 _ (by decide), hset _ 43 _ (by decide), hset _ 44 _ (by decide)]
  grind

theorem pushFault_of_mayPush {r : CoreRegs} {n : Nat} (h : mayPush r n = true) : pushFault r n = none := by
  simp only [mayPush, Bool.and_eq_true, decide_eq_true_eq, Bool.not_eq_true'] at h
  unfold pushFault
  rw [h.2, if_neg (by decide), if_neg (by omega)]

/-- The stores of a BCALL's entry (R469). -/
def bcallStores (r : CoreRegs) (stamp : Word) : List BufEntry :=
  pushed r 15 (r.rsp - 32) [0x0000002000000005#64, r.pc + 4, bcallWord r, r.dsp] stamp

/-- The registers on entry to the bonded world. -/
def bcallRegs (r : CoreRegs) (d : SegReg) : CoreRegs := { r.setSeg 13 d with psw := bondedPsw r.psw, rsp := r.rsp - 32 }

/-- The bundle of a BCALL that enters the bonded world. -/
def bcallBundle (c : Core) (imm : BitVec 16) (d : SegReg) (stamp : Word) : OpenBundle :=
  { freshBundle c with
    work := bcallRegs c.regs d
    late := (bcallStores c.regs stamp).map .store
    target := some (BitVec.ofNat 64 ((c.regs.getCtl 0x10).field 47 0 + 0x4000 + 64 * imm.toNat)) }

theorem enterBonded_fresh {c : Core} {sl : Slot} {d : SegReg} {imm : BitVec 16} {stamp : Word} (hl : sl.last = true) :
    enterBonded c.regs (freshBundle c) sl d imm stamp = bcallBundle c imm d stamp := by
  have hlink : linkPc c.regs (freshBundle c) sl = c.regs.pc + 4 := by
    unfold linkPc
    rw [hl]
    rfl
  unfold enterBonded bcallBundle
  rw [hlink, Nat.mul_comm imm.toNat]
  rfl

/-- A BCALL whose checks pass, with its descriptor held. -/
theorem bcallEff_held {sl : Slot} {imm : BitVec 16} {s : State} {d : SegReg} (ha : alone s sl = true)
    (hfree : accessFree s sl.core = true) (hw : (getCore s sl.core).regs.w = false)
    (hpriv : imm.getLsbD 15 = false ∨ (getCore s sl.core).regs.priv = true)
    (hd : heldDesc s sl.core (((getCore s sl.core).regs.getCtl 0x10).field 63 48) none none 13 false = some d)
    (hbnd : d.bit 8 = true) (hpush : mayPush (getCore s sl.core).regs 32 = true) :
    ∃ t, bcallEff sl imm s (getCore s sl.core).regs (freshBundle (getCore s sl.core)) =
      (⟨true, bcallBundle (getCore s sl.core) imm d (issueCoreStamp s sl.core).1⟩, (issueCoreStamp t sl.core).2) ∧
      onlyHits s t sl.core := by
  obtain ⟨-, hlast, hb, -⟩ := alone_iff.mp ha
  obtain ⟨t, hdesc, hh⟩ := withDesc_held (u := 4) (.bcall sl imm) hfree hb (untouched_fresh _) hd
  have hbit : ¬ (imm.getLsbD 15 && !(getCore s sl.core).regs.priv) = true := by
    rcases hpriv with h | h
    · rw [h]
      exact Bool.false_ne_true
    · simp [h]
  refine ⟨t, ?_, hh⟩
  unfold bcallEff
  rw [if_neg (by rw [hw]; decide), if_neg hbit, hdesc]
  dsimp only
  rw [if_neg (by rw [hbnd]; decide), pushFault_of_mayPush hpush]
  dsimp only
  rw [enterBonded_fresh hlast, issueCoreStamp_of_onlyCore hh.1]

theorem endsWith_bcallBundle {c : Core} {imm : BitVec 16} {d : SegReg} {stamp : Word} (h45 : c.regs.psw.bit 45 = false) :
    endsWith (bcallBundle c imm d stamp) (bcallStores c.regs stamp) :=
  ⟨rfl, rfl, rfl, rfl, (bondedPsw_bit c.regs.psw 45).trans h45, by simp [bcallBundle, freshBundle]⟩

/-- The first clause of O27. -/
theorem execBcall_enters {sl : Slot} {imm : BitVec 16} {s : State} {d : SegReg} (ha : alone s sl = true) (hx : sl.unit = .x)
    (hfree : accessFree s sl.core = true) (hw : (getCore s sl.core).regs.w = false)
    (hpriv : imm.getLsbD 15 = false ∨ (getCore s sl.core).regs.priv = true)
    (hd : heldDesc s sl.core (((getCore s sl.core).regs.getCtl 0x10).field 63 48) none none 13 false = some d)
    (hbnd : d.bit 8 = true) (hpush : mayPush (getCore s sl.core).regs 32 = true)
    (hroom : (getCore s sl.core).buf.length + (bcallStores (getCore s sl.core).regs (issueCoreStamp s sl.core).1).length ≤ 32 ∨
      (getCore s sl.core).buf = []) :
    ∃ t, exec (.bcall sl imm) s = .next t ∧ coreAndStamps s t sl.core ∧
      (getCore t sl.core).buf = (getCore s sl.core).buf ++
        bcallStores (getCore s sl.core).regs (issueCoreStamp s sl.core).1 ∧ (getCore t sl.core).rsv = none ∧
      (getCore t sl.core).regs = { bcallRegs (getCore s sl.core).regs d with
        pc := BitVec.ofNat 64 (((getCore s sl.core).regs.getCtl 0x10).field 47 0 + 0x4000 + 64 * imm.toNat) } := by
  have hc := unhindered_of_alone ha
  obtain ⟨t, heff, hh⟩ := bcallEff_held ha hfree hw hpriv hd hbnd hpush
  have hcore : getCore (issueCoreStamp t sl.core).2 sl.core = getCore t sl.core := rfl
  obtain ⟨u, hrun, hu, honly⟩ := runSyl_alone_done (i := .bcall sl imm) (fits := unitX) (f := bcallEff sl imm) ha
    (by rw [hx]; rfl) rfl rfl rfl heff (endsWith_bcallBundle hc.1)
    (by rw [hcore]; obtain ⟨-, st, tree, ht⟩ := hh; rw [ht]) (by rw [hcore]; exact hh.unhindered hc)
    (by rw [hcore, hh.buf]; exact .inr hroom) (by simp [bcallBundle, freshBundle])
    (.inl (by simp [bcallBundle, freshBundle]))
  have hworld : (bcallRegs (getCore s sl.core).regs d).w = true := bondedPsw_bit _ 44
  rw [hcore] at hu
  refine ⟨u, congrArg Host.Outcome.next hrun, ?_, ?_, ?_, ?_⟩
  · exact coreAndStamps_trans (coreAndStamps_of_onlyCore hh.1)
      (coreAndStamps_trans (coreAndStamps_issueCoreStamp t sl.core) (coreAndStamps_of_onlyCore honly))
  · rw [hu, hh.buf]
  · rw [hu]
    show (if (getCore t sl.core).regs.w != (bcallRegs (getCore s sl.core).regs d).w then _ else _) = _
    rw [hh.regs, hw, hworld]
    rfl
  · rw [hu]
    rfl

/-! ## The scrub of BRET (R470) -/

/-- A table without the entries of some keys reads as its default there. -/
theorem Table_get_filter {α : Type} (d : Nat → α) (p : Nat → Bool) (t : Table α) (k : Nat) :
    Table.get d (t.filter (fun e => p e.1)) k = if p k then Table.get d t k else d k := by
  induction t with
  | nil => simp [Table.get]
  | cons x t ih =>
    obtain ⟨j, v⟩ := x
    by_cases hjk : j = k <;> by_cases hp : p j = true <;> simp_all [Table.get]

/-- What a mapped table lists is `f` of something. -/
theorem exists_of_mem_mapListed {α : Type} [DecidableEq α] {d : Nat → α} {f : Nat → α → α} {t : Table α} {x : Nat × α}
    (h : x ∈ Table.mapListed d f t) : ∃ v, x.2 = f x.1 v := by
  have hdel {l : List (Nat × α)} {k : Nat} (hx : x ∈ Assoc.del l k) : x ∈ l := by
    induction l with
    | nil => exact hx
    | cons y l ih =>
      obtain ⟨j, w⟩ := y
      rw [Assoc.del] at hx
      split at hx
      next => exact List.mem_cons_of_mem _ (ih hx)
      next =>
        rcases List.mem_cons.mp hx with rfl | hx
        · exact List.mem_cons_self
        · exact List.mem_cons_of_mem _ (ih hx)
  induction t with
  | nil => exact absurd h List.not_mem_nil
  | cons y t ih =>
    obtain ⟨j, w⟩ := y
    rw [Table.mapListed] at h
    split at h
    next => exact ih (hdel h)
    next =>
      rcases List.mem_cons.mp h with rfl | h
      · exact ⟨w, rfl⟩
      · exact ih (hdel h)

theorem scrubNear_bonded (nr : Near) : ∀ x ∈ (scrubNear nr).entries, x.2.bonded = false := by
  intro x hx
  obtain ⟨v, hv⟩ := exists_of_mem_mapListed hx
  rw [hv]
  split
  next => rfl
  next h => simpa using h

/-- The registers with bonded descriptors of some segment registers made null. -/
def openSegs (l : List Nat) (w : CoreRegs) : CoreRegs :=
  l.foldl (fun (w : CoreRegs) i => if (w.getSeg i).bit 8 then w.setSeg i SegReg.null else w) w

theorem openSegs_rest (l : List Nat) (w : CoreRegs) : ∃ sg, openSegs l w = { w with seg := sg } := by
  induction l generalizing w with
  | nil => exact ⟨w.seg, rfl⟩
  | cons i l ih =>
    rw [openSegs, List.foldl_cons]
    split
    next => exact ih (w.setSeg i SegReg.null)
    next => exact ih w

theorem openSegs_getSeg (l : List Nat) (w : CoreRegs) (j : Nat) :
    (openSegs l w).getSeg j = if j ∈ l ∧ (w.getSeg j).bit 8 = true then SegReg.null else w.getSeg j := by
  have hnull : SegReg.null.bit 8 = false := by decide
  induction l generalizing w with
  | nil => simp [openSegs]
  | cons i l ih =>
    rw [openSegs, List.foldl_cons]
    have hstep (w' : CoreRegs) (hi : (w'.getSeg j) = if j = i ∧ (w.getSeg j).bit 8 = true then SegReg.null else w.getSeg j) :
        (openSegs l w').getSeg j = if j ∈ i :: l ∧ (w.getSeg j).bit 8 = true then SegReg.null else w.getSeg j := by
      rw [ih, hi]
      by_cases hji : j = i <;> by_cases hb : (w.getSeg j).bit 8 = true <;> simp_all
    refine hstep _ ?_
    split
    next hb => rw [getSeg_setSeg]; by_cases hji : j = i <;> simp_all
    next hb => by_cases hji : j = i <;> simp_all

theorem bondedScrub_eq (w : CoreRegs) : bondedScrub w = { openSegs (List.range 13) w with
    g := (openSegs (List.range 13) w).g.filter (fun e => decide (e.1 ≤ 2))
    acc := (openSegs (List.range 13) w).acc.filter (fun e => decide (e.1 = 0))
    pcount := 0 } := rfl

/-- The flags that BRET restores from the entry (R469, R470). -/
def openFlags (a b c d : Bool) : Word :=
  BitVec.ofNat 64 (a.toNat * 2 ^ 43 + b.toNat * 2 ^ 42 + c.toNat * 2 ^ 41 + d.toNat * 2 ^ 40)

theorem openFlags_bit (a b c d : Bool) (j : Nat) : (openFlags a b c d).bit j =
    if j = 43 then a else if j = 42 then b else if j = 41 then c else if j = 40 then d else false := by
  by_cases hj : j < 64
  · revert j
    cases a <;> cases b <;> cases c <;> cases d <;> decide
  · have h := BitVec.getLsbD_of_ge (openFlags a b c d) j (by omega)
    unfold Word.bit
    rw [h]
    grind

theorem zoneMask_bit (j : Nat) : (0xFFF0000000000000#64 : Word).getLsbD j = (decide (52 ≤ j) && decide (j < 64)) := by
  by_cases hj : j < 64
  · revert j
    decide
  · simp [BitVec.getLsbD_of_ge _ j (show 64 ≤ j by omega), hj]

/-- psw after BRET: zone as before, four flags from the entry, all else clear. -/
theorem openPsw_bit (p : Word) (a b c d : Bool) (j : Nat) :
    ((p &&& 0xFFF0000000000000#64) + openFlags a b c d).bit j =
      if 52 ≤ j then p.bit j else (openFlags a b c d).bit j := by
  have hdisj : (p &&& 0xFFF0000000000000#64) &&& openFlags a b c d = 0#64 := by
    apply BitVec.eq_of_getLsbD_eq
    intro i hi
    have hf := openFlags_bit a b c d i
    unfold Word.bit at hf
    rw [BitVec.getLsbD_and, BitVec.getLsbD_and, zoneMask_bit, hf, BitVec.getLsbD_zero]
    by_cases h : 52 ≤ i
    · rw [if_neg (by omega), if_neg (by omega), if_neg (by omega), if_neg (by omega), Bool.and_false]
    · simp [h]
  have hf := openFlags_bit a b c d j
  unfold Word.bit at *
  rw [BitVec.add_eq_or_of_and_eq_zero _ _ hdisj, BitVec.getLsbD_or, BitVec.getLsbD_and, zoneMask_bit]
  by_cases h : 52 ≤ j
  · rw [if_pos h, hf, if_neg (by omega), if_neg (by omega), if_neg (by omega), if_neg (by omega), Bool.or_false]
    by_cases h64 : j < 64
    · simp [h, h64]
    · simp [h64, BitVec.getLsbD_of_ge p j (by omega)]
  · rw [if_neg h]
    simp [h]

/-! ## BRET -/

/-- What the scrub leaves of the general registers, accumulators and segment registers, whatever stands in the other fields. -/
theorem bondedScrub_getG (w : CoreRegs) (i : Nat) : (bondedScrub w).getG i = if i ≤ 2 then w.getG i else 0 := by
  obtain ⟨sg, hsg⟩ := openSegs_rest (List.range 13) w
  unfold CoreRegs.getG
  rw [bondedScrub_eq, hsg]
  dsimp only
  rw [Table_get_filter zeroWord (fun k => decide (k ≤ 2))]
  by_cases h0 : i = 0 <;> by_cases h2 : i ≤ 2 <;> simp [h0, h2, zeroWord]

theorem bondedScrub_getAcc (w : CoreRegs) (i : Nat) : (bondedScrub w).getAcc i = if i = 0 then w.getAcc i else 0 := by
  obtain ⟨sg, hsg⟩ := openSegs_rest (List.range 13) w
  unfold CoreRegs.getAcc
  rw [bondedScrub_eq, hsg]
  dsimp only
  rw [Table_get_filter zeroWide (fun k => decide (k = 0))]
  by_cases h0 : i = 0 <;> simp [h0, zeroWide]

theorem bondedScrub_getSeg (w : CoreRegs) (i : Nat) :
    (bondedScrub w).getSeg i = if i < 13 ∧ (w.getSeg i).bit 8 = true then SegReg.null else w.getSeg i := by
  have h := openSegs_getSeg (List.range 13) w i
  simp only [List.mem_range] at h
  exact h

theorem bondedScrub_getCtl (w : CoreRegs) (i : Nat) : (bondedScrub w).getCtl i = w.getCtl i := by
  obtain ⟨sg, hsg⟩ := openSegs_rest (List.range 13) w
  unfold CoreRegs.getCtl
  rw [bondedScrub_eq, hsg]

/-- The segment registers that the entry of kind 5 names, in order (R469). -/
def bretSels (e : Word) : List (Nat × Nat) := [(13, e.field 63 48), (14, e.field 47 32), (15, e.field 31 16)]

/-- The descriptors of s13, s14 and any other segment register. -/
def bretDescs (d13 d14 d15 : SegReg) (i : Nat) : SegReg := if i = 13 then d13 else if i = 14 then d14 else d15

/-- psw after BRET. -/
def bretPsw (p e : Word) : Word := (p &&& 0xFFF0000000000000#64) + openFlags (e.bit 15) (e.bit 14) (e.bit 12) (e.bit 13)

theorem bretPsw_bit (p e : Word) (j : Nat) : (bretPsw p e).bit j =
    if 52 ≤ j then p.bit j else if j = 43 then e.bit 15 else if j = 42 then e.bit 14 else if j = 41 then e.bit 12
      else if j = 40 then e.bit 13 else false := by
  unfold bretPsw
  rw [openPsw_bit, openFlags_bit]

/-- The registers that BRET leaves, but for pc (R470). -/
def bretRegs (r : CoreRegs) (ws : List Word) (ds : Nat → SegReg) : CoreRegs :=
  { bondedScrub (segsSet ds (bretSels (wordAt ws 2)) r) with
    psw := bretPsw r.psw (wordAt ws 2)
    fcsr := BitVec.ofNat 64 ((wordAt ws 2).field 2 0)
    dsp := wordAt ws 3
    rsp := r.rsp + 32 }

theorem bretRegs_getSeg (r : CoreRegs) (ws : List Word) (d13 d14 d15 : SegReg) (i : Nat) :
    (bretRegs r ws (bretDescs d13 d14 d15)).getSeg i =
      if i = 13 then d13 else if i = 14 then d14 else if i = 15 then d15
      else if i < 13 ∧ (r.getSeg i).bit 8 = true then SegReg.null else r.getSeg i := by
  refine (bondedScrub_getSeg _ i).trans ?_
  simp only [segsSet, bretSels, List.foldl_cons, List.foldl_nil, getSeg_setSeg, bretDescs]
  grind

theorem field_low_three (e : Word) : BitVec.ofNat 64 (e.field 2 0) = e &&& 7#64 := by
  apply BitVec.eq_of_toNat_eq
  rw [BitVec.toNat_and, show (7#64).toNat = 2 ^ 3 - 1 from rfl, Nat.and_two_pow_sub_one_eq_mod]
  unfold Word.field
  simp only [BitVec.toNat_ofNat]
  omega

/-- The bundle of a BRET whose checks pass. -/
def bretBundle (c : Core) (ws : List Word) (ds : Nat → SegReg) : OpenBundle :=
  { freshBundle c with work := bretRegs c.regs ws ds, target := some (wordAt ws 1), acts := [.scrubNear] }

theorem endsWith_bretBundle (c : Core) (ws : List Word) (ds : Nat → SegReg) : endsWith (bretBundle c ws ds) [] :=
  ⟨rfl, rfl, rfl, rfl, bretPsw_bit c.regs.psw (wordAt ws 2) 45, by simp [bretBundle]⟩

/-- A BRET whose checks pass, with its entry and its descriptors held. -/
theorem bretEff_held {sl : Slot} {s : State} {ws : List Word} {ds : Nat → SegReg}
    (hb : (getCore s sl.core).bundle = none) (hfree : accessFree s sl.core = true)
    (hw : (getCore s sl.core).regs.w = true) (h15 : ((getCore s sl.core).regs.getSeg 15).bit 8 = false)
    (hlim : (getCore s sl.core).regs.rsp.toNat + 31 ≤ ((getCore s sl.core).regs.getSeg 15).limit.toNat)
    (hws : heldWords s sl.core 15 (getCore s sl.core).regs.rsp 4 = some ws) (hkind : (wordAt ws 0).field 7 0 = 5)
    (hds : ∀ x ∈ bretSels (wordAt ws 2),
      heldDesc s sl.core x.2 (some (getCore s sl.core).regs.priv) (some false) x.1 false = some (ds x.1)) :
    ∃ t, bretEff sl s (getCore s sl.core).regs (freshBundle (getCore s sl.core)) =
      (⟨true, bretBundle (getCore s sl.core) ws ds⟩, t) ∧ onlyHits s t sl.core := by
  obtain ⟨t1, hpop, h1⟩ := popSyl_held (.bret sl) (kind := 5) (len := 32) 32 hfree rfl hb (untouched_fresh _)
    (by rw [h15]; rfl) (by decide) (by decide) hlim hws hkind
  obtain ⟨t2, hsegs, h2⟩ := withSegs_held (s := t1) (b := freshBundle (getCore s sl.core)) ds (by rw [h1.bundle, hb]) rfl
    (fun x hx => by rw [h1.heldDesc]; exact hds x hx)
  refine ⟨t2, ?_, onlyHits_trans h1 h2⟩
  unfold bretEff
  rw [if_neg (by rw [hw]; decide), if_neg (by rw [h15]; decide), hpop]
  exact hsegs _

/-- A BRET whose checks pass: the core at the end of its bundle, its near cache scrubbed. -/
theorem execBret_scrubs {sl : Slot} {s t : State} {ws : List Word} {ds : Nat → SegReg} (ha : alone s sl = true)
    (hx : sl.unit = .x) (hempty : (getCore s sl.core).buf = []) (hh : onlyHits s t sl.core)
    (heff : bretEff sl s (getCore s sl.core).regs (freshBundle (getCore s sl.core)) =
      (⟨true, bretBundle (getCore s sl.core) ws ds⟩, t)) :
    ∃ u nr, exec (.bret sl) s = .next u ∧ onlyCore s u sl.core ∧
      getCore u sl.core = { doneCore (getCore t sl.core) (bretBundle (getCore s sl.core) ws ds) with near := scrubNear nr } := by
  have hbuf : (getCore t sl.core).buf = [] := by rw [hh.buf, hempty]
  obtain ⟨u, hrun, hu, honly⟩ := runSyl_alone_done (i := .bret sl) (fits := unitX) (f := bretEff sl) ha
    (by rw [hx]; rfl) rfl rfl rfl heff (endsWith_bretBundle _ ws ds) (by obtain ⟨-, st, tree, ht⟩ := hh; rw [ht])
    (hh.unhindered (unhindered_of_alone ha)) (.inl rfl) (by simp [bretBundle]) (.inr ⟨rfl, hbuf⟩)
  refine ⟨updCore u sl.core (fun c => { c with near := scrubNear c.near }),
    (doneCore (getCore t sl.core) (bretBundle (getCore s sl.core) ws ds)).near, congrArg Host.Outcome.next hrun,
    onlyCore_trans hh.1 (onlyCore_trans honly (onlyCore_updCore ..)), ?_⟩
  rw [getCore_updCore_self, hu, List.append_nil]
  rfl

/-- Settles O27: each is alone in its bundle and its descriptors are held, so its effect is known at once; what is left is to
read the registers, psw and the near cache after it. -/
theorem bondedEntryAndReturn : Obligations.BondedEntryAndReturn := by
  unfold Obligations.BondedEntryAndReturn
  intro sl s n c r ha hx
  constructor
  case left =>
    intro imm d hfree hw hpriv hd hbnd hpush es hroom
    obtain ⟨t, hexec, hframe, hbuf, hrsv, hregs⟩ := execBcall_enters ha hx hfree hw hpriv hd hbnd hpush hroom
    exact ⟨t, hexec, hframe, hbuf, hrsv, bondedPsw r.psw, hregs, bondedPsw_bit _ 44, bondedPsw_bit _ 43, bondedPsw_bit _ 42,
      bondedPsw_bit _ 41, fun j hj => by rw [bondedPsw_bit, if_neg (by omega), if_neg (by omega)]⟩
  case right =>
    intro ws d13 d14 d15 hfree hw h15 hempty hlim hws hkind e hd13 hd14 hd15
    obtain ⟨-, -, hb, -⟩ := alone_iff.mp ha
    have hds : ∀ x ∈ bretSels e, heldDesc s n x.2 (some r.priv) (some false) x.1 false =
        some (bretDescs d13 d14 d15 x.1) := by
      simp [bretSels, bretDescs, hd13, hd14, hd15]
    obtain ⟨t, heff, hh⟩ := bretEff_held hb hfree hw h15 hlim hws hkind hds
    obtain ⟨u, nr, hexec, honly, hu⟩ := execBret_scrubs ha hx hempty hh heff
    have hregs : (getCore u n).regs = { bretRegs r ws (bretDescs d13 d14 d15) with pc := wordAt ws 1 } := by rw [hu]; rfl
    have hpsw (j : Nat) : (getCore u n).regs.psw.bit j = (bretPsw r.psw e).bit j := by rw [hregs]; rfl
    have hseg (i : Nat) : (getCore u n).regs.getSeg i = (bretRegs r ws (bretDescs d13 d14 d15)).getSeg i := by rw [hregs]; rfl
    simp only [bretRegs_getSeg] at hseg
    have hg (i : Nat) : (getCore u n).regs.getG i = if i ≤ 2 then r.getG i else 0 := hregs ▸ bondedScrub_getG _ i
    have hacc (i : Nat) : (getCore u n).regs.getAcc i = if i = 0 then r.getAcc i else 0 := hregs ▸ bondedScrub_getAcc _ i
    have hopen : (bretRegs r ws (bretDescs d13 d14 d15)).w = false := bretPsw_bit r.psw e 44
    refine ⟨u, hexec, honly, ?_, ?_, fun i hi => by rw [hg, if_neg (by omega)], fun i hi => by rw [hg, if_pos hi],
      fun i hi => by rw [hacc, if_neg (by omega)], hacc 0, by rw [hregs]; rfl,
      fun i hi => ?_, hseg 13, hseg 14, hseg 15, fun j => hregs ▸ bondedScrub_getCtl _ j, by rw [hregs], by rw [hregs]; rfl,
      by rw [hregs]; rfl, by rw [hregs]; exact field_low_three e, (hpsw 43).trans (bretPsw_bit _ _ 43),
      (hpsw 42).trans (bretPsw_bit _ _ 42), (hpsw 41).trans (bretPsw_bit _ _ 41), (hpsw 40).trans (bretPsw_bit _ _ 40),
      fun j hj => ?_⟩
    · rw [hu]
      show (if (getCore t n).regs.w != (bretRegs r ws (bretDescs d13 d14 d15)).w then _ else _) = _
      rw [hh.regs, hw, hopen]
      rfl
    · rw [hu]
      exact scrubNear_bonded nr
    · rw [hseg, if_neg (by omega), if_neg (by omega), if_neg (by omega)]
      simp [hi]
    · rw [hpsw, bretPsw_bit, if_neg (show ¬ j = 43 by omega), if_neg (show ¬ j = 42 by omega), if_neg (show ¬ j = 41 by omega),
        if_neg (show ¬ j = 40 by omega)]

end Sys2Proof.Machine
end

section
/-! SUPPORT. Retirement records over a step, with O8 (R163). -/

namespace Sys2Proof.Machine

/-- A hub cycle writes no flash. -/
theorem retirementStands_idleTick {s : State} {n : Nat} (h : retirementStands s n) : retirementStands (idleTick s) n := h

/-- A command other than RETIRE_CLEAR keeps the records. -/
theorem retirementStands_exec {i : Instr} {s t : State} {n : Nat} (hi : keepsRetirement i = true)
    (hrun : exec i s = .next t) (h : retirementStands s n) : retirementStands t n :=
  (keeps_exec i s hrun).retired hi n h

/-- Settles O8: a step is a hub cycle or runs the command at the front of the queue. -/
theorem retirementStandsUntilCleared : Obligations.RetirementStandsUntilCleared := by
  unfold Obligations.RetirementStandsUntilCleared
  intro s t n hstep hstands hfront
  unfold step at hstep
  cases hq : s.pending with
  | nil =>
    rw [hq] at hstep
    cases hstep
    exact retirementStands_idleTick hstands
  | cons i rest =>
    rw [hq] at hstep hfront
    have hi : keepsRetirement i = true := by
      cases i with
      | retireClear m => exact hfront.elim
      | _ => rfl
    exact retirementStands_exec (s := { s with pending := rest }) hi hstep hstands

end Sys2Proof.Machine
end

section
/-! SUPPORT. The steps of a relief, each from the state in which it may be taken, with O33 (R158 to R163, R176). -/

namespace Sys2Proof.Machine

/-! ## What a relief reads after an update -/

@[simp] theorem getRelief_setRelief_self (s : State) (k : Nat) (r : Relief) : getRelief (setRelief s k r) k = r := by
  rw [getRelief_setRelief_eq, if_pos rfl]

@[simp] theorem getVcore_updVcore_self (s : State) (z v : Nat) (f : Vcore → Vcore) :
    getVcore (updVcore s z v f) z v = f (getVcore s z v) := by
  rw [getVcore_updVcore_eq, if_pos rfl]

theorem getCore_of_cores {s t : State} (h : t.cores = s.cores) (n : Nat) : getCore t n = getCore s n := by
  unfold getCore
  rw [h]

theorem getImage_putImage_self (s : State) (n : Nat) (im : StateImage) :
    Assoc.get (putImage s n im).sxt.images n = some im := by
  show Assoc.get (Assoc.put s.sxt.images n im) n = _
  rw [Assoc.get_put, if_pos rfl]

/-! ## A request is taken up (R158, R159 steps 1 to 3) -/

theorem endDeferral_of_none {s : State} {n : Nat} (h : (getCore s n).defer = none) : endDeferral s n = s := by
  unfold endDeferral
  rw [h]

theorem leaveWc_of_empty {s : State} {n : Nat} (h : (getCore s n).wc = []) :
    leaveWc s n = updCore s n (fun c => { c with wc := [] }) := by
  simp only [leaveWc, h, List.foldl_nil]

theorem mayRest_iff {c : Core} :
    mayRest c = true ↔ c.entering = none ∧ ∀ b, c.bundle = some b → deviceMark ∉ b.seen := by
  unfold mayRest bundleFixed
  cases c.bundle <;> simp

/-- The first of the requests that name a core and a reason is the one that goes. -/
theorem delFirst_request {pre post : List (Nat × Nat)} {x : Nat × Nat} (h : x ∉ pre) :
    List.delFirst (· == x) (pre ++ x :: post) = pre ++ post := by
  induction pre with
  | nil => simp [List.delFirst]
  | cons y pre ih =>
    rw [List.mem_cons, not_or] at h
    simp [List.delFirst, Ne.symm h.1, ih h.2]

/-- The core of a relief that has stopped: it runs nothing, and holds neither a reservation nor a doorbell. -/
def reliefStopped (c : Core) : Core :=
  { c with run := false, bundle := none, waiting := false, wc := [], rsv := none, irq := false }

/-- The vcore of a stopped core: HELD where it ran, with its doorbell kept (R159, R161). -/
def reliefHeld (bell : Bool) (x : Vcore) : Vcore :=
  { x with state := if x.state = 2 then 3 else x.state, db := x.db || bell }

/-- A core stops for its relief: its write-combining buffers leave, and its reservation is lost (R159 steps 1 and 2). -/
def coreHalted (s : State) (n : Nat) : State :=
  let u := updCore s n (fun c => { c with run := false, bundle := none, waiting := false })
  updCore (leaveWc (endDeferral u n) n) n (fun c => { c with rsv := none })

theorem coreHalted_reads {s : State} {n : Nat} (hwc : (getCore s n).wc = []) (hdef : (getCore s n).defer = none) :
    getCore (coreHalted s n) n = { reliefStopped (getCore s n) with irq := (getCore s n).irq } ∧
      (coreHalted s n).sxt = s.sxt ∧ (coreHalted s n).zon = s.zon := by
  unfold coreHalted
  extract_lets u
  rw [endDeferral_of_none (by simpa [u] using hdef), leaveWc_of_empty (by simpa [u] using hwc)]
  refine ⟨?_, by simp only [u, updCore_sxt], by simp only [u, updCore_zon]⟩
  simp only [u, getCore_updCore_self]
  rfl

/-- The vcore of a stopped core, if it carries one, is held. -/
def vcoreHeld (s : State) (n : Nat) (bell : Bool) : State :=
  match vcoreOn s n with
  | some (z, v) => updVcore s z v (reliefHeld bell)
  | none => s

theorem vcoreHeld_reads (s : State) (n : Nat) (bell : Bool) :
    (vcoreHeld s n bell).cores = s.cores ∧ (vcoreHeld s n bell).sxt = s.sxt ∧
      ∀ z v, vcoreOn s n = some (z, v) → getVcore (vcoreHeld s n bell) z v = reliefHeld bell (getVcore s z v) := by
  unfold vcoreHeld
  cases vcoreOn s n with
  | none => simp
  | some x =>
    refine ⟨rfl, rfl, fun z v e => ?_⟩
    cases e
    exact getVcore_updVcore_self ..

/-- What the start of a relief leaves (R159 steps 1 to 3, R176). -/
theorem startRelief_reads {s : State} {n : Nat} (reason t0 : Nat) (hwc : (getCore s n).wc = [])
    (hdef : (getCore s n).defer = none) :
    let t := startRelief s n reason t0 none
    t.sxt.requests = s.sxt.requests ∧ getCore t n = reliefStopped (getCore s n) ∧
      getRelief t (coreCluster n) = ⟨n, spareOf (coreCluster n), t0, 3, reason, 0, false, none⟩ ∧
      (∃ im, Assoc.get t.sxt.images n = some im ∧ im.regs = (getCore s n).regs ∧ im.reason = reason) ∧
      ∀ z v, vcoreOn s n = some (z, v) → getVcore t z v = reliefHeld (getCore s n).irq (getVcore s z v) := by
  obtain ⟨hstop, hsxt, hzon⟩ := coreHalted_reads hwc hdef
  obtain ⟨hcores, hkept, hmapped⟩ := vcoreHeld_reads (coreHalted s n) n (getCore s n).irq
  have hbell : (getCore (coreHalted s n) n).irq = (getCore s n).irq := by rw [hstop]
  unfold startRelief
  extract_lets k s1 s2 s3 bell s4 s5 s6 s7
  have hs4 : s4 = vcoreHeld (coreHalted s n) n (getCore s n).irq := by rw [← hbell]; rfl
  have hcore : getCore s5 n = reliefStopped (getCore s n) := by
    simp only [s5, getCore_updCore_self, getCore_of_cores (hs4 ▸ hcores), hstop]
    rfl
  have hregs : (getCore s5 n).regs = (getCore s n).regs := by rw [hcore]; rfl
  have hrequests : s5.sxt.requests = s.sxt.requests := by simp only [s5, updCore_sxt, hs4, hkept, hsxt]
  have hvcore (z v : Nat) (hv : vcoreOn s n = some (z, v)) :
      getVcore s5 z v = reliefHeld (getCore s n).irq (getVcore s z v) := by
    have hon : vcoreOn (coreHalted s n) n = some (z, v) := by unfold vcoreOn at hv ⊢; rwa [hzon]
    have hsame : getVcore (coreHalted s n) z v = getVcore s z v := by unfold getVcore; rw [hzon]
    simp only [s5, getVcore_updCore, hs4, hmapped z v hon, hsame]
  clear_value s5
  exact ⟨hrequests, hcore, getRelief_setRelief_self s6 k _, ⟨_, getImage_putImage_self s5 n _, hregs, rfl⟩, hvcore⟩

theorem execReliefStart_begins {s : State} {n reason : Nat} {pre post : List (Nat × Nat)} (hn : n < 272)
    (hreq : s.sxt.requests = pre ++ (n, reason) :: post) (hfree : spareFree s (coreCluster n) = true)
    (hrest : mayRest (getCore s n) = true) :
    execReliefStart n reason s =
      .next (startRelief (dropRequest s n reason) n reason (reliefT0 s n) none) := by
  unfold execReliefStart
  rw [if_neg (by simp [hreq, hn, hrest]), if_pos hfree]

/-! ## The core is flushed, the spare is powered (R159 steps 4 and 5, R160) -/

theorem execReliefFlushDone_powersOff {s : State} {k : Nat} (hk : coreCluster (getRelief s k).core = k)
    (hstep : (getRelief s k).step = 3) (hdrained : coreDrained (getCore s (getRelief s k).core) = true) :
    execReliefFlushDone (getRelief s k).core s = .next (setRelief
      (faultAt (stampImage (updCore s (getRelief s k).core (fun c => { flushCore c with power := false, sxtState := 3 }))
          (getRelief s k).core)
        0x13 2 (getRelief s k).reason 0 0 (BitVec.ofNat 64 ((getRelief s k).core + 256 * (getRelief s k).reason))
        (match vcoreOn s (getRelief s k).core with | some zv => zv.1 | none => 0)) k { getRelief s k with step := 4 }) := by
  unfold execReliefFlushDone
  rw [hk, Nat.mul_comm 256]
  extract_lets j r
  rw [if_neg (by simp [r, j, hstep, hdrained])]
  rfl

/-- A spare that has been powered: nothing of its former work is left (R159 step 5, R188). -/
def sparePowered (c : Core) : Core :=
  { flushCore c with
    power := true, near := Near.reset, bundle := none, buf := [], maint := [], rsv := none, defer := none, wc := []
    wcOut := [], devOut := [], entering := none, fence := 0, irq := false, waiting := false, retries := 0, repFirst := false }

theorem execSparePowered_powers {s : State} {k : Nat} (hstep : (getRelief s k).step = 4)
    (hoff : (getRelief s k).powered = false) :
    execSparePowered k s = .next (setRelief (updCore s (getRelief s k).spare sparePowered) k
      { getRelief s k with step := 6, powered := true }) := by
  unfold execSparePowered
  extract_lets r
  rw [if_neg (by simp [r, hstep, hoff])]
  rfl

theorem nearIndex_reset (gl : Nat) : nearIndex Near.reset gl = none := by
  simp [nearIndex, getEntry, Near.reset, Table.get, noEntry]

/-! ## The image moves (R159 steps 6 and 7, R162, R163) -/

/-- The vcore of the failing core, if it carries one, belongs to another core (R159 step 7). -/
def moveVcore (s : State) (n spare : Nat) : State :=
  match vcoreOn s n with
  | some (z, v) => updVcore s z v (fun x => { x with core := spare })
  | none => s

theorem getVcore_moveVcore {s : State} {n spare z v : Nat} (h : vcoreOn s n = some (z, v)) :
    (getVcore (moveVcore s n spare) z v).core = spare := by
  simp [moveVcore, h]

/-- The state after an image that has arrived whole. -/
def imageTaken (s : State) (k : Nat) (im : StateImage) : State :=
  let r := getRelief s k
  let u := moveVcore s r.core r.spare
  let u := updCore u r.spare (fun c => { c with
    regs := im.regs, rep := im.rep, sxtState := 2, sxtFor := coreSlot r.core
    near := { c.near with frozen := (getCore u r.core).near.frozen } })
  setRelief { u with
    spareInUse := u.spareInUse ||| 2 ^ k
    rlx := { u.rlx with flash := { u.rlx.flash with retired := Table.set noFlag u.rlx.flash.retired r.core true } } }
    k { r with step := 7 }

theorem imageTaken_regs (s : State) (k : Nat) (im : StateImage) :
    (getCore (imageTaken s k im) (getRelief s k).spare).regs = im.regs := by
  unfold imageTaken
  extract_lets r u u1
  show (getCore u1 r.spare).regs = im.regs
  simp only [u1, getCore_updCore_self]

theorem retirementStands_imageTaken (s : State) (k : Nat) (im : StateImage) :
    retirementStands (imageTaken s k im) (getRelief s k).core := by
  unfold imageTaken
  extract_lets r u u1
  exact (Table.get_set u1.rlx.flash.retired r.core r.core true).trans (if_pos rfl)

theorem imageTaken_spareInUse (s : State) (k : Nat) (im : StateImage) :
    (imageTaken s k im).spareInUse.testBit k = true := by
  unfold imageTaken
  extract_lets r u u1
  show (u1.spareInUse ||| 2 ^ k).testBit k = true
  rw [Nat.testBit_or, Nat.testBit_two_pow_self, Bool.or_true]

theorem execReliefImageArrived_takes {s : State} {k : Nat} {im : StateImage} (hstep : (getRelief s k).step = 6)
    (him : Assoc.get s.sxt.images (getRelief s k).core = some im) :
    execReliefImageArrived k true s = .next (imageTaken s k im) := by
  unfold execReliefImageArrived
  extract_lets r
  rw [if_neg (by simp [r, hstep]), if_neg (by simp), him]
  rfl

theorem execReliefImageArrived_again {s : State} {k : Nat} (hstep : (getRelief s k).step = 6)
    (hmoves : (getRelief s k).moves = 0) :
    execReliefImageArrived k false s = .next (setRelief s k { getRelief s k with moves := 1 }) := by
  unfold execReliefImageArrived
  extract_lets r
  rw [if_neg (by simp [r, hstep]), if_pos rfl, if_pos hmoves]

/-! ## The spare resumes (R159 step 8, R161, R454) -/

/-- The state from which a relief is ended: a vcore that was HELD runs on the spare, or is quiesced there. -/
def vcoreResumed (s : State) (n : Nat) : State :=
  match vcoreOn s n with
  | some (z, v) =>
    if (getVcore s z v).state = 3 then
      let u := updVcore (updCore s n (fun c => { c with run := true })) z v (fun x => { x with state := 2 })
      if zoneQuiets u z then quiesceVcore u z v else u
    else s
  | none => s

/-- The registers that tell of a relief that has ended (R176). -/
def reliefTold (x : Sextant) (r : Relief) (time : Nat) : Sextant :=
  { x with rlfFrom := r.core, rlfTo := r.spare, rlfReason := r.reason, rlfResult := 1, rlfDone := true, rlfTime := time }

/-- A state whose relief in cluster `k` has come to its end, with the logbook after it. -/
def reliefEnded (u : State) (k : Nat) (r : Relief) (time : Nat) (l : Logbook) : State :=
  let w := setRelief u k (noRelief k)
  { w with sxt := reliefTold w.sxt r time, log := l }

section
variable (u : State) (k : Nat) (r : Relief) (time : Nat) (l : Logbook)

theorem getRelief_reliefEnded : getRelief (reliefEnded u k r time l) k = noRelief k :=
  getRelief_setRelief_self u k (noRelief k)

theorem getCore_reliefEnded (n : Nat) : getCore (reliefEnded u k r time l) n = getCore u n := rfl

theorem getVcore_reliefEnded (z v : Nat) : getVcore (reliefEnded u k r time l) z v = getVcore u z v := rfl

end

theorem execReliefResume_ends {s : State} {k : Nat} (hstep : (getRelief s k).step = 7)
    (hmbx : (getRelief s k).mbx = none) : ∃ time l, execReliefResume k s =
      .next (reliefEnded (vcoreResumed s (getRelief s k).spare) k (getRelief s k) time l) := by
  unfold execReliefResume
  extract_lets r zv u u1 x u2 st
  rw [if_neg (by simp [r, hstep]), show r.mbx = none from hmbx]
  obtain ⟨l, hl⟩ := logAdd_eq u2 0x0010 st [rlfStat u2, BitVec.ofNat 64 u2.sxt.rlfTime, BitVec.ofNat 64 r.t0,
    BitVec.ofNat 64 (zv.1 + zv.2 * 2 ^ 12)]
  exact ⟨_, l, congrArg Host.Outcome.next hl⟩

theorem vcoreResumed_runs {s : State} {n z v : Nat} (hon : vcoreOn s n = some (z, v)) (hheld : (getVcore s z v).state = 3)
    (hquiet : zoneQuiets s z = false) :
    vcoreResumed s n = updVcore (updCore s n (fun c => { c with run := true })) z v (fun x => { x with state := 2 }) := by
  have : zoneQuiets (updVcore (updCore s n (fun c => { c with run := true })) z v (fun x => { x with state := 2 })) z = false :=
    hquiet
  simp [vcoreResumed, hon, hheld, this]

/-- Settles O33: each row, where it may be taken, has one next state, and the clauses are read from it. -/
theorem reliefRuns : Obligations.ReliefRuns := by
  unfold Obligations.ReliefRuns
  intro s k r
  refine ⟨?start, ?flushed, ?powered, ?moved, ?again, ?resumed⟩
  case start =>
    intro n reason pre post hk hn hreq hpre hfree hent hfixed hwc hdef
    subst hk
    obtain ⟨hreqs, hcore, hrelief, himage, hvcore⟩ :=
      startRelief_reads (s := dropRequest s n reason) reason (reliefT0 s n) hwc hdef
    refine ⟨_, execReliefStart_begins hn hreq hfree (mayRest_iff.mpr ⟨hent, hfixed⟩), ?_, ?_, ?_, ?_, ?_, ?_, hrelief,
      himage, fun z v hon => congrArg Vcore.state (hvcore z v hon)⟩
    · rw [hreqs]
      show List.delFirst (· == (n, reason)) s.sxt.requests = _
      rw [hreq, delFirst_request hpre]
    all_goals rw [hcore]; rfl
  case flushed =>
    intro hstep hcore hdrained
    exact ⟨_, execReliefFlushDone_powersOff hcore hstep hdrained, rfl, getRelief_setRelief_self ..⟩
  case powered =>
    intro hstep hoff
    have hspare : getCore (updCore s r.spare sparePowered) r.spare = sparePowered (getCore s r.spare) :=
      getCore_updCore_self ..
    refine ⟨_, execSparePowered_powers hstep hoff, ?_, ?_, ?_, ?_, fun gl => ?near, getRelief_setRelief_self ..,
      fun m hm => ?others⟩
    case others => exact (onlyCore_updCore s r.spare sparePowered).1 m hm
    all_goals rw [getCore_setRelief, hspare]
    case near => exact nearIndex_reset gl
    all_goals rfl
  case moved =>
    intro hstep im him
    refine ⟨_, execReliefImageArrived_takes hstep him, ?_, ?_, getRelief_setRelief_self .., ?_, fun z v hon => ?_⟩
    · exact imageTaken_regs s k im
    · exact retirementStands_imageTaken s k im
    · exact imageTaken_spareInUse s k im
    · exact getVcore_moveVcore hon
  case again =>
    intro hstep hmoves
    exact ⟨_, execReliefImageArrived_again hstep hmoves, getRelief_setRelief_self ..⟩
  case resumed =>
    intro hstep hmbx
    obtain ⟨time, l, hexec⟩ := execReliefResume_ends hstep hmbx
    refine ⟨_, hexec, getRelief_reliefEnded .., fun z v hon hheld hquiet => ?_, rfl, rfl, rfl, rfl, rfl⟩
    have hruns := vcoreResumed_runs hon hheld hquiet
    have hspare : getCore (vcoreResumed s r.spare) r.spare = { getCore s r.spare with run := true } := by
      rw [hruns, getCore_updVcore, getCore_updCore_self]
    have hvcore : getVcore (vcoreResumed s r.spare) z v = { getVcore s z v with state := 2 } := by
      rw [hruns, getVcore_updVcore_self, getVcore_updCore]
    rw [getCore_reliefEnded, getVcore_reliefEnded, hspare, hvcore]
    exact ⟨rfl, rfl⟩

end Sys2Proof.Machine
end

section
/-! SUPPORT. A sextant watch of one core and the walk of the L2s, with O34 (R169 to R173, R191, R192). -/

namespace Sys2Proof.Machine

/-! ## The logbook -/

section
variable (s : State) (type : Nat) (stamp : Word) (p : List Word)

@[simp] theorem logAdd_sxt : (logAdd s type stamp p).sxt = s.sxt := by
  obtain ⟨l, hl⟩ := logAdd_eq s type stamp p; rw [hl]

@[simp] theorem logAdd_cores : (logAdd s type stamp p).cores = s.cores := by
  obtain ⟨l, hl⟩ := logAdd_eq s type stamp p; rw [hl]

end

@[simp] theorem c0Summary_sxt (s : State) : (c0Summary s).sxt = s.sxt := logAdd_sxt ..

@[simp] theorem c0Summary_cores (s : State) : (c0Summary s).cores = s.cores := logAdd_cores ..

/-! ## The applied offset (R171, R173, R177) -/

/-- The offset that a plan applies to a core at offset `v`. -/
def plannedVoff (v req : Int) : Int :=
  if v < req then req else if req < v - 1 ∧ -12 < v then v - 1 else v

/-- A plan counts its changes and writes no other register of the sextant. -/
def replanned (s t : State) : Prop := ∃ k, t.sxt = { s.sxt with replans := k }

theorem setVoff_plans (s : State) (n : Nat) (v : Int) :
    getCore (setVoff s n v) n = { getCore s n with voff := v } ∧ replanned s (setVoff s n v) := by
  unfold setVoff
  extract_lets c u u1
  split
  next h =>
    refine ⟨?_, _, rfl⟩
    rw [← h]
  next =>
    refine ⟨?_, _, logAdd_sxt ..⟩
    rw [getCore_of_cores (logAdd_cores ..)]
    show getCore u n = _
    exact getCore_updCore_self ..

theorem planVoff_plans (s : State) (n : Nat) (req : Int) :
    getCore (planVoff s n req) n = { getCore s n with voff := plannedVoff (getCore s n).voff req } ∧
      replanned s (planVoff s n req) := by
  unfold planVoff plannedVoff
  dsimp only
  split
  · exact setVoff_plans s n req
  · split
    · exact setVoff_plans s n _
    · exact ⟨rfl, _, rfl⟩

/-! ## The plan of one core (R171) -/

theorem planCore_plans {s : State} {x : CoreReading} (h1 : (getCore s x.core).sxtState ≠ 1)
    (h4 : (getCore s x.core).sxtState ≠ 4) (h5 : (getCore s x.core).sxtState ≠ 5)
    (hreq : coreReq5 s (((getCore s x.core).baseline : Int) - x.slack) ≤ 12)
    (hret : (getCore s x.core).sxtRetries ≤ s.sxt.c1Limit) :
    let req := coreReq5 s (((getCore s x.core).baseline : Int) - x.slack)
    getCore (planCore s x).2 x.core = { getCore s x.core with
      slack := x.slack, req := req, voff := plannedVoff (getCore s x.core).voff req } ∧
    replanned s (planCore s x).2 := by
  intro req
  unfold planCore
  extract_lets n u c req' spent u1
  have hc : c = { getCore s x.core with slack := x.slack } := by simp [c, u, n]
  have hreq' : req' = req := by simp only [req', hc]; rfl
  have hspent : spent = false := by simp [spent, hreq', hc, u, req, hreq, hret]
  rw [if_neg (by simp [hc, h4, h5]), if_neg (by simp [hc, h1]), if_neg (by simp [hspent])]
  have hplan := planVoff_plans u1 n req
  have hu1 : getCore u1 n = { getCore s x.core with slack := x.slack, req := req } := by simp [u1, u, n, hreq']
  rw [hu1] at hplan
  show getCore (planVoff u1 n req') n = _ ∧ replanned s (planVoff u1 n req')
  rw [hreq']
  exact hplan

/-! ## The plans of a watch of one core (R169, R170) -/

theorem planMemory_keeps (s : State) (c : Nat) :
    (planMemory s c).2.cores = s.cores ∧ (planMemory s c).2.sxt = s.sxt := by
  unfold planMemory
  extract_lets x
  split
  next => exact ⟨rfl, rfl⟩
  next =>
    extract_lets k u
    split
    next => exact ⟨rfl, rfl⟩
    next => exact ⟨logAdd_cores .., logAdd_sxt ..⟩

theorem planAll_single (s : State) (x : CoreReading) :
    (planAll s [x] []).2.cores = (planCore s x).2.cores ∧ (planAll s [x] []).2.sxt = (planCore s x).2.sxt := by
  unfold planAll
  generalize List.range 64 = chans
  simp only [List.foldl_cons, List.foldl_nil]
  constructor
  · exact foldl_part (fun e : Nat × State => e.2.cores) (fun e c => (planMemory_keeps e.2 c).1) ..
  · exact foldl_part (fun e : Nat × State => e.2.sxt) (fun e c => (planMemory_keeps e.2 c).2) ..

/-! ## A watch (R169, R173) -/

theorem skipWatch_reads (s : State) (idx : Nat) :
    (skipWatch s idx).sxt.watchIdx = idx ∧ (skipWatch s idx).sxt.watches = s.sxt.watches ∧
      (skipWatch s idx).cores = s.cores := by
  unfold skipWatch
  rw [logAdd_sxt, logAdd_cores]
  exact ⟨rfl, rfl, rfl⟩

/-- A watch that is made takes its readings: no core has a slack until it has been read. -/
def watchBegun (s : State) (cores : List CoreReading) (lanes : List LaneReading) : State :=
  { s with
    cores := Table.mapListed Core.reset (fun _ c => { c with slack := 0xFF }) s.cores
    sxt := { s.sxt with reads := ⟨cores, lanes⟩, pcieRt := [] } }

/-- A watch is counted, and the counts of the next one start (R169, R177). -/
def watchCounted (s : State) (idx : Nat) : State :=
  { s with
    cores := Table.mapListed Core.reset (fun _ c => { c with sxtRetries := 0, ckptWords := [] }) s.cores
    sxt := { s.sxt with watches := (s.sxt.watches + 1) % 2 ^ 32, last := idx * 2 ^ 40, watchIdx := idx, wayErrs := [] } }

theorem getCore_watchBegun (s : State) (cores : List CoreReading) (lanes : List LaneReading) (n : Nat) :
    getCore (watchBegun s cores lanes) n = { getCore s n with slack := 0xFF } := Table.get_mapListed rfl

theorem getCore_watchCounted (s : State) (idx n : Nat) :
    getCore (watchCounted s idx) n = { getCore s n with sxtRetries := 0, ckptWords := [] } := Table.get_mapListed rfl

/-- What a watch that is made leaves, from the state `u` after its plans. -/
def watchEnded (u : State) (idx : Nat) (w : List Word) : State := c0Summary (logAdd (watchCounted u idx) 0x0011 0 w)

theorem watchEnded_reads (u : State) (idx : Nat) (w : List Word) :
    (∀ n, getCore (watchEnded u idx w) n = { getCore u n with sxtRetries := 0, ckptWords := [] }) ∧
      (watchEnded u idx w).sxt.watches = (u.sxt.watches + 1) % 2 ^ 32 ∧ (watchEnded u idx w).sxt.last = idx * 2 ^ 40 := by
  unfold watchEnded
  rw [c0Summary_sxt, logAdd_sxt]
  refine ⟨fun n => ?_, rfl, rfl⟩
  rw [getCore_of_cores ((c0Summary_cores _).trans (logAdd_cores ..)), getCore_watchCounted]

theorem exec_sextantWatch (r : Readings) (s : State) : exec (.sextantWatch r) s = execSextantWatch r s := rfl

theorem execSextantWatch_off {r : Readings} {s : State} (hup : hubUp s = true) (hnew : s.sxt.watchIdx < now s / 2 ^ 40)
    (hoff : s.sxt.watchEn = false) : execSextantWatch r s = .next (skipWatch s (now s / 2 ^ 40)) := by
  unfold execSextantWatch
  extract_lets idx
  rw [if_neg (not_or.mpr ⟨by simp [hup], Nat.not_le.mpr hnew⟩), if_pos (.inr hoff)]

theorem execSextantWatch_made {r : Readings} {s : State} (hup : hubUp s = true)
    (hnew : s.sxt.watchIdx < now s / 2 ^ 40) (hon : s.sxt.watchEn = true) (hfault : s.mer.fault = false) :
    let cores := r.cores.filter (fun x => readable s x.core)
    let lanes := r.lanes.filter (fun x => lanePowered s x.port)
    ∃ w, execSextantWatch r s =
      .next (watchEnded (planAll (watchBegun s cores lanes) cores lanes).2 (now s / 2 ^ 40) w) := by
  intro cores lanes
  unfold execSextantWatch
  extract_lets idx old x u
  rw [if_neg (not_or.mpr ⟨by simp [hup], Nat.not_le.mpr hnew⟩), if_neg (by simp [hon, hfault])]
  have hbegun : planAll u cores lanes = planAll (watchBegun s cores lanes) cores lanes := rfl
  rw [hbegun]
  generalize planAll (watchBegun s cores lanes) cores lanes = plan
  exact ⟨_, rfl⟩

theorem execSextantWatch_single {x : CoreReading} {s : State} (hup : hubUp s = true)
    (hnew : s.sxt.watchIdx < now s / 2 ^ 40) (hon : s.sxt.watchEn = true) (hfault : s.mer.fault = false)
    (hread : readable s x.core = true) : ∃ w, execSextantWatch ⟨[x], []⟩ s =
      .next (watchEnded (planAll (watchBegun s [x] []) [x] []).2 (now s / 2 ^ 40) w) := by
  have hmade := execSextantWatch_made (r := ⟨[x], []⟩) hup hnew hon hfault
  rwa [show List.filter (fun x => readable s x.core) [x] = [x] by simp [hread]] at hmade

/-- A watch that reads one core which has margin and few retries plans its offset, and counts itself. -/
theorem planAll_watchBegun {s : State} {x : CoreReading} (h1 : (getCore s x.core).sxtState ≠ 1)
    (h4 : (getCore s x.core).sxtState ≠ 4) (h5 : (getCore s x.core).sxtState ≠ 5)
    (hreq : coreReq5 s (((getCore s x.core).baseline : Int) - x.slack) ≤ 12)
    (hret : (getCore s x.core).sxtRetries ≤ s.sxt.c1Limit) :
    let u := (planAll (watchBegun s [x] []) [x] []).2
    let req := coreReq5 s (((getCore s x.core).baseline : Int) - x.slack)
    getCore u x.core = { getCore s x.core with
      slack := x.slack, req := req, voff := plannedVoff (getCore s x.core).voff req } ∧
    u.sxt.watches = s.sxt.watches := by
  intro u req
  obtain ⟨hcores, hsxt⟩ := planAll_single (watchBegun s [x] []) x
  have hbegun := getCore_watchBegun s [x] [] x.core
  have hcurve (d : Int) : coreReq5 (watchBegun s [x] []) d = coreReq5 s d := rfl
  have hplan := planCore_plans (s := watchBegun s [x] []) (x := x)
  rw [hbegun] at hplan
  obtain ⟨hcore, k, hcount⟩ := hplan h1 h4 h5 (by rw [hcurve]; exact hreq) hret
  constructor
  · rw [getCore_of_cores hcores, hcore, hcurve]
  · simp only [u]
    rw [hsxt, hcount]
    rfl

/-! ## The walk of an L2 (R191) -/

theorem execL2L3Walk_single {f : WalkFinding} {s : State} (hup : hubUp s = true) (herr : f.err ≠ .corrected) :
    execL2L3Walk [f] s = .next (walkOne s f) := by
  simp [execL2L3Walk, hup, herr]

theorem walkOne_dirtyPoison {f : WalkFinding} {s : State} (hl2 : f.l3 = false) (herr : f.err = .dirtyPoison)
    (hheld : (getLine s (coreQuad f.unit) f.line).st ≠ .i) :
    walkOne s f = faultAt
      (updCore (setLine s (coreQuad f.unit) f.line { getLine s (coreQuad f.unit) f.line with poison := true }) f.unit
        (fun c => { c with l2Poison := satAdd 12 c.l2Poison 1 }))
      0x02 2 0 0 (BitVec.ofNat 64 (128 * f.line)) (BitVec.ofNat 64 (f.unit + 0x30000))
      (getLine s (coreQuad f.unit) f.line).zone := by
  simp [walkOne, hl2, herr, hheld, Nat.mul_comm]

theorem walkOne_tagRepair {f : WalkFinding} {s : State} (hl2 : f.l3 = false) (herr : f.err = .tagRepair) :
    walkOne s f = faultAt (updCore s f.unit (fun c => { c with l2Cor := satAdd 16 c.l2Cor 1 }))
      0x02 0 0 0 (BitVec.ofNat 64 (128 * f.line)) (BitVec.ofNat 64 (f.unit + 0x30000))
      (getLine s (coreQuad f.unit) f.line).zone := by
  simp [walkOne, hl2, herr, Nat.mul_comm]

/-- Settles O34: a watch of one core is the plan of that core between the start and the end of the watch; a walk of one finding
is its treatment. -/
theorem watchesAndWalks : Obligations.WatchesAndWalks := by
  unfold Obligations.WatchesAndWalks
  refine ⟨fun r s hup hnew => ⟨?off, ?made⟩, fun f s hup hl2 => ⟨?poisoned, ?repaired⟩⟩
  case off =>
    intro hoff
    rw [exec_sextantWatch]
    exact ⟨_, execSextantWatch_off hup hnew hoff, skipWatch_reads s (now s / 2 ^ 40)⟩
  case made =>
    intro x hr hon hfault hread c req h1 h4 h5 hreq hret
    subst hr
    rw [exec_sextantWatch]
    obtain ⟨w, hexec⟩ := execSextantWatch_single hup hnew hon hfault hread
    obtain ⟨hcore, hwatches⟩ := planAll_watchBegun h1 h4 h5 hreq hret
    obtain ⟨hread, hcount, hlast⟩ := watchEnded_reads (planAll (watchBegun s [x] []) [x] []).2 (now s / 2 ^ 40) w
    refine ⟨_, hexec, ?_, ?_, ?_, fun n => by rw [hread], by rw [hcount, hwatches], hlast⟩
    all_goals rw [hread, hcore]
    rfl
  case poisoned =>
    intro herr hheld
    refine ⟨_, _, (execL2L3Walk_single hup (by simp [herr])).trans
      (congrArg Host.Outcome.next (walkOne_dirtyPoison hl2 herr hheld)), rfl, ?_, ?_⟩
    · rw [getLine_updCore, getLine_setLine_eq, if_pos rfl, if_neg hheld]
    · rw [getCore_updCore_self, getCore_setLine]
  case repaired =>
    intro herr
    refine ⟨_, _, (execL2L3Walk_single hup (by simp [herr])).trans
      (congrArg Host.Outcome.next (walkOne_tagRepair hl2 herr)), rfl, ?_, onlyCore_updCore ..⟩
    rw [getCore_updCore_self]

end Sys2Proof.Machine
end

section
/-! SUPPORT. The power domains as they drain, flush, go off and come back, with O46 (R162, R282, R284). -/

namespace Sys2Proof.Machine

/-! ## Updates of several cores -/

section
variable (s : State) (ns : List Nat) (f : Nat → Core → Core)

theorem updCores_lines : (updCores s ns f).lines = s.lines := foldl_part State.lines (by intros; rfl) ..

theorem updCores_wbs : (updCores s ns f).wbs = s.wbs := foldl_part State.wbs (by intros; rfl) ..

theorem updCores_tree : (updCores s ns f).tree = s.tree := foldl_part State.tree (by intros; rfl) ..

theorem getCore_updCores_of_not_mem {ns : List Nat} {n : Nat} (hn : n ∉ ns) :
    getCore (updCores s ns f) n = getCore s n := by
  induction ns generalizing s with
  | nil => rfl
  | cons m ns ih =>
    rw [List.mem_cons, not_or] at hn
    exact (ih (updCore s m (f m)) hn.2).trans (by rw [getCore_updCore_eq, if_neg hn.1])

/-- A listed core is in the end what the update has made of some core. -/
theorem getCore_updCores_of_mem {ns : List Nat} {n : Nat} (hn : n ∈ ns) : ∃ c, getCore (updCores s ns f) n = f n c := by
  induction ns generalizing s with
  | nil => exact absurd hn List.not_mem_nil
  | cons m ns ih =>
    by_cases hmem : n ∈ ns
    · exact ih (updCore s m (f m)) hmem
    · have hm : n = m := (List.mem_cons.mp hn).resolve_right hmem
      subst hm
      exact ⟨getCore s n, (getCore_updCores_of_not_mem (updCore s n (f n)) f hmem).trans (getCore_updCore_self ..)⟩

end

/-! ## Lines that leave a quadrant (R282 step 5) -/

theorem Assoc_ne_of_mem_del {α : Type} {t : List (Nat × α)} {k : Nat} {e : Nat × α} (h : e ∈ Assoc.del t k) :
    e.1 ≠ k := by
  induction t with
  | nil => exact absurd h List.not_mem_nil
  | cons x t ih =>
    obtain ⟨j, v⟩ := x
    rw [Assoc.del] at h
    split at h
    next => exact ih h
    next hj =>
      rcases List.mem_cons.mp h with rfl | h
      · exact hj
      · exact ih h

/-- A key whose value is not the default is listed. -/
theorem Table_mem_of_get_ne {α : Type} {d : Nat → α} {t : Table α} {k : Nat} (h : Table.get d t k ≠ d k) :
    (k, Table.get d t k) ∈ t := by
  induction t with
  | nil => exact absurd rfl h
  | cons x t ih =>
    obtain ⟨j, v⟩ := x
    rw [Table.get] at h ⊢
    split
    next hj => rw [hj]; exact List.mem_cons_self
    next hj =>
      rw [if_neg hj] at h
      exact List.mem_cons_of_mem _ (ih h)

theorem dropQuadCopies_lines (s : State) (q gl : Nat) (keep : Option Nat) :
    (dropQuadCopies s q gl keep).lines = s.lines := rfl

theorem dropQuadCopies_wbs (s : State) (q gl : Nat) (keep : Option Nat) :
    (dropQuadCopies s q gl keep).wbs = s.wbs := rfl

theorem setLine_lines (s : State) (q gl : Nat) (l : AgentLine) : (setLine s q gl l).lines =
    Table.set absentLine s.lines (lineKey q gl) (if l.st = .i then AgentLine.absent else l) := rfl

theorem dropLine_lines (s : State) (q gl : Nat) : (dropLine s q gl).lines = Assoc.del s.lines (lineKey q gl) := by
  rw [dropLine, dropQuadCopies_lines, setLine_lines, ite_self, Table.set]
  exact if_pos rfl

theorem dropLine_wbs (s : State) (q gl : Nat) : (dropLine s q gl).wbs = s.wbs := by
  rw [dropLine, dropQuadCopies_wbs, setLine_wbs]

theorem evictLine_lines_eq_del (s : State) (q gl : Nat) : (evictLine s q gl).lines = Assoc.del s.lines (lineKey q gl) :=
  (evictLine_lines s q gl).trans (dropLine_lines s q gl)

theorem evictLine_doms (s : State) (q gl : Nat) : (evictLine s q gl).tree.doms = s.tree.doms := by
  unfold evictLine
  dsimp only
  split <;> rfl

/-- What waits in the write-back buffer stays there; a modified line joins it with its data (R218, R225). -/
theorem evictLine_wbs (s : State) (q gl : Nat) : ∃ ws, (evictLine s q gl).wbs = s.wbs ++ ws ∧
    ((getLine s q gl).st = .m ∨ (getLine s q gl).st = .o →
      ∃ w ∈ ws, w.quad = q ∧ w.line = gl ∧ w.data = (getLine s q gl).data) := by
  unfold evictLine
  extract_lets l addr u
  have hwbs : u.wbs = s.wbs := dropLine_wbs s q gl
  clear_value u
  rw [← hwbs]
  split
  next h => exact ⟨[], (List.append_nil _).symm, by rw [show (getLine s q gl).st = .i from h]; simp⟩
  next h => exact ⟨[], (List.append_nil _).symm, by rw [show (getLine s q gl).st = .s from h]; simp⟩
  next => exact ⟨[_], rfl, fun _ => ⟨_, List.mem_singleton_self _, rfl, rfl, rfl⟩⟩

/-- The lines of a list leave a quadrant one after the other. -/
def evictLines (q : Nat) (gls : List Nat) (s : State) : State := gls.foldl (fun s gl => evictLine s q gl) s

theorem mem_evictLines_lines {q : Nat} {gls : List Nat} {s : State} {e : Nat × AgentLine}
    (h : e ∈ (evictLines q gls s).lines) : e ∈ s.lines ∧ ∀ gl ∈ gls, e.1 ≠ lineKey q gl := by
  induction gls generalizing s with
  | nil => exact ⟨h, by simp⟩
  | cons x gls ih =>
    obtain ⟨hmem, hne⟩ := ih (s := evictLine s q x) h
    rw [evictLine_lines_eq_del] at hmem
    exact ⟨Assoc.mem_del hmem, List.forall_mem_cons.mpr ⟨Assoc_ne_of_mem_del hmem, hne⟩⟩

theorem mem_evictLines_wbs {q : Nat} {gls : List Nat} {s : State} {w : WbBuf} (h : w ∈ s.wbs) :
    w ∈ (evictLines q gls s).wbs := by
  induction gls generalizing s with
  | nil => exact h
  | cons x gls ih =>
    obtain ⟨ws, hws, -⟩ := evictLine_wbs s q x
    exact ih (s := evictLine s q x) (by rw [hws]; exact List.mem_append_left _ h)

/-- A modified line of the list waits for its write-back with the data that it had. -/
theorem exists_wb_evictLines {q gl : Nat} {gls : List Nat} {s : State} (hgl : gl ∈ gls)
    (hst : (getLine s q gl).st = .m ∨ (getLine s q gl).st = .o) :
    ∃ w ∈ (evictLines q gls s).wbs, w.quad = q ∧ w.line = gl ∧ w.data = (getLine s q gl).data := by
  induction gls generalizing s with
  | nil => exact absurd hgl List.not_mem_nil
  | cons x gls ih =>
    by_cases hx : gl = x
    · subst hx
      obtain ⟨ws, hws, hnew⟩ := evictLine_wbs s q gl
      obtain ⟨w, hw, hline⟩ := hnew hst
      exact ⟨w, mem_evictLines_wbs (s := evictLine s q gl) (by rw [hws]; exact List.mem_append_right _ hw), hline⟩
    · have hkeep : getLine (evictLine s q x) q gl = getLine s q gl :=
        getLine_evictLine s (fun h => hx (by unfold lineKey at h; omega))
      have := ih (s := evictLine s q x) ((List.mem_cons.mp hgl).resolve_left hx) (by rwa [hkeep])
      rwa [hkeep] at this

theorem sliceEvict_doms (s : State) (k gl : Nat) : (sliceEvict s k gl).tree.doms = s.tree.doms := by
  unfold sliceEvict
  dsimp only
  split
  · rfl
  · exact evictLine_doms ..

/-! ## The flush (R282 steps 3 to 5) -/

/-- The lines of a quadrant that are listed. -/
def quadLines (s : State) (q : Nat) : List Nat :=
  (s.lines.filter (fun e => e.1 / 2 ^ 50 == q)).map (fun e => e.1 % 2 ^ 50)

theorem mem_quadLines {s : State} {q : Nat} {e : Nat × AgentLine} (he : e ∈ s.lines) (hq : e.1 / 2 ^ 50 = q) :
    e.1 % 2 ^ 50 ∈ quadLines s q :=
  List.mem_map_of_mem (List.mem_filter.mpr ⟨he, beq_iff_eq.mpr hq⟩)

theorem mem_quadLines_of_getLine {s : State} {q gl : Nat} (hgl : gl < 2 ^ 50) (h : getLine s q gl ≠ AgentLine.absent) :
    gl ∈ quadLines s q := by
  have hmem := mem_quadLines (Table_mem_of_get_ne h) rfl
  have hdiv : lineKey q gl / 2 ^ 50 = q := by unfold lineKey; omega
  have hmod : lineKey q gl % 2 ^ 50 = gl := by unfold lineKey; omega
  simpa only [hdiv, hmod] using hmem

/-- The state in which the lines of a flushed domain have left its slice or its quadrant. -/
def domainEvicted (s : State) (d : Nat) : State :=
  if d < 16 then (getSlice s d).foldl (fun s gl => sliceEvict s d gl) s
  else evictLines (domQuad d) (quadLines s (domQuad d)) s

theorem flushDomain_eq (s : State) (d : Nat) :
    flushDomain s d = updCores (domainEvicted s d) (domCores d) (fun _ c => flushCore c) := rfl

theorem domainEvicted_doms (s : State) (d : Nat) : (domainEvicted s d).tree.doms = s.tree.doms := by
  unfold domainEvicted
  split
  · exact foldl_part (fun s : State => s.tree.doms) (fun t gl => sliceEvict_doms t d gl) ..
  · exact foldl_part (fun s : State => s.tree.doms) (fun t gl => evictLine_doms t (domQuad d) gl) ..

theorem getDom_flushDomain (s : State) (d e : Nat) : getDom (flushDomain s d) e = getDom s e := by
  unfold getDom
  rw [flushDomain_eq, updCores_tree, domainEvicted_doms]

/-- A flushed quadrant lists no line. -/
theorem flushDomain_lines {s : State} {d : Nat} (hd : 16 ≤ d) : ∀ e ∈ (flushDomain s d).lines, e.1 / 2 ^ 50 ≠ d - 16 := by
  intro e he hq
  have hquad : domQuad d = d - 16 := if_neg (by omega)
  rw [flushDomain_eq, updCores_lines, domainEvicted, if_neg (by omega), hquad] at he
  obtain ⟨hmem, hne⟩ := mem_evictLines_lines he
  exact hne _ (mem_quadLines hmem hq) (by unfold lineKey; omega)

theorem flushDomain_wbs {s : State} {d gl : Nat} (hd : 16 ≤ d) (hgl : gl < 2 ^ 50)
    (hst : (getLine s (d - 16) gl).st = .m ∨ (getLine s (d - 16) gl).st = .o) :
    ∃ w ∈ (flushDomain s d).wbs, w.quad = d - 16 ∧ w.line = gl ∧ w.data = (getLine s (d - 16) gl).data := by
  have hquad : domQuad d = d - 16 := if_neg (by omega)
  rw [flushDomain_eq, updCores_wbs, domainEvicted, if_neg (by omega), hquad]
  refine exists_wb_evictLines (mem_quadLines_of_getLine hgl (fun h => ?_)) hst
  simp [h, AgentLine.absent] at hst

theorem execDomainDrained_flushes {d : Nat} {s : State} (hd : d < 20) (hstate : (getDom s d).state = 2)
    (hreqs : ∀ r ∈ s.reqs, r.core ∉ domCores d) (hcores : ∀ n ∈ domCores d, coreDrained (getCore s n) = true)
    (hrel : ∀ r ∈ s.sxt.reliefs, spareOf r.1 ∉ domCores d) (hask : ∀ r ∈ s.sxt.requests, r.1 ∉ domCores d) :
    execDomainDrained d s = .next (flushDomain (updDom s d (fun x => { x with state := 3 })) d) := by
  unfold execDomainDrained
  extract_lets relieved busy
  have hrelieved : relieved = false := by
    simp only [relieved, Bool.or_eq_false_iff, List.any_eq_false, List.contains_iff_mem]
    exact ⟨hrel, hask⟩
  have hbusy : busy = false := by
    simp only [busy, hrelieved, Bool.false_or, Bool.or_eq_false_iff, List.any_eq_false, List.contains_iff_mem]
    exact ⟨hreqs, fun n hn => by simp [hcores n hn]⟩
  rw [if_neg (by simp [hd, hstate, hbusy])]

/-! ## OFF, and ONLINE again (R282 steps 6 and 7, R284) -/

theorem updBox_tree (s : State) (m : Mbx) (f : Mailbox → Mailbox) : (updBox s m f).tree = s.tree := by
  cases m <;> rfl

theorem updBox_cores (s : State) (m : Mbx) (f : Mailbox → Mailbox) : (updBox s m f).cores = s.cores := by
  cases m <;> rfl

theorem getDom_of_tree {s t : State} (h : t.tree = s.tree) (d : Nat) : getDom t d = getDom s d := by
  unfold getDom
  rw [h]

theorem setOutcomeOpt_tree (s : State) (m : Option Mbx) (r : CmdResult) : (setOutcomeOpt s m r).tree = s.tree := by
  cases m with
  | none => rfl
  | some m => exact updBox_tree ..

theorem setOutcomeOpt_cores (s : State) (m : Option Mbx) (r : CmdResult) : (setOutcomeOpt s m r).cores = s.cores := by
  cases m with
  | none => rfl
  | some m => exact updBox_cores ..

theorem execDomainFlushed_goesOff {d : Nat} {s : State} (hd : d < 20) (hstate : (getDom s d).state = 3)
    (hin : (getDom s d).isolated = none) (hwbs : ∀ w ∈ s.wbs, w.quad ≠ domQuad d) :
    execDomainFlushed d s = .next (setOutcomeOpt (domainIsOff s d) (getDom s d).mbx (okRes [])) := by
  unfold execDomainFlushed
  extract_lets x
  have hany : s.wbs.any (fun w => w.quad == domQuad d) = false := by
    simpa only [List.any_eq_false, beq_iff_eq] using hwbs
  rw [if_neg (by simp [x, hd, hstate, hin, hany])]

/-- A domain that held no request goes off with its cores, and nothing goes into the network. -/
theorem domainIsOff_reads {s : State} {d : Nat} (hheld : (getDom s d).held = []) :
    (domainIsOff s d).tree = (updDom s d (fun x => { x with state := 0, held := [], mbx := none })).tree ∧
      ∀ n ∈ domCores d, (getCore (domainIsOff s d) n).power = false ∧ (getCore (domainIsOff s d) n).run = false := by
  unfold domainIsOff
  extract_lets held u u1 u2 u3
  have hu1 : u1 = u := by simp only [u1, held, hheld, List.foldl_nil]
  have htree : u3.tree = u.tree := by
    rw [← hu1]
    exact updCores_tree u1 (domCores d) _
  have hoff (n : Nat) (hn : n ∈ domCores d) : (getCore u3 n).power = false ∧ (getCore u3 n).run = false := by
    obtain ⟨c, hc⟩ := getCore_updCores_of_mem u1
      (fun _ c => { flushCore c with power := false, run := false, bundle := none }) hn
    have hu3 : getCore u3 n = { flushCore c with power := false, run := false, bundle := none } := hc
    rw [hu3]
    exact ⟨rfl, rfl⟩
  split
  next => exact ⟨htree, hoff⟩
  next => exact ⟨htree, hoff⟩

/-- A core that carries work, a spare in use among them, in a cluster and a quadrant that are both ONLINE (R20, R284). -/
def goesOn (s : State) (n : Nat) : Bool :=
  ((getCore s n).sxtState == 0 || (getCore s n).sxtState == 2) &&
    (getDom s (n / 17)).state == 1 && (getDom s (16 + n / 68)).state == 1

/-- A domain that comes ONLINE: the requests that it held go on. -/
def domainOnline (s : State) (d : Nat) : State :=
  let u := updDom s d (fun x => { x with state := 1, held := [], mbx := none })
  { u with tree := { u.tree with net := u.tree.net ++ (getDom s d).held } }

/-- The cores of a domain that go on are powered, with nothing in their caches. -/
def coresPowered (u : State) (d : Nat) : State :=
  updCores u ((domCores d).filter (goesOn u)) (fun _ c => { flushCore c with power := true })

theorem domainOnline_reads (s : State) (d : Nat) :
    getDom (domainOnline s d) d = { getDom s d with state := 1, held := [], mbx := none } ∧
      (domainOnline s d).tree.net = s.tree.net ++ (getDom s d).held :=
  ⟨getDom_updDom_self s d (fun x => { x with state := 1, held := [], mbx := none }), rfl⟩

theorem coresPowered_reads (u : State) (d : Nat) : (coresPowered u d).tree = u.tree ∧
    ∀ n ∈ domCores d, goesOn u n = true → (getCore (coresPowered u d) n).power = true ∧
      (getCore (coresPowered u d) n).l2 = [] ∧ (getCore (coresPowered u d) n).near.entries = [] := by
  unfold coresPowered
  refine ⟨updCores_tree .., fun n hn hon => ?_⟩
  obtain ⟨c, hc⟩ := getCore_updCores_of_mem u (fun _ c => { flushCore c with power := true })
    (List.mem_filter.mpr ⟨hn, hon⟩)
  rw [hc]
  exact ⟨rfl, rfl, rfl⟩

theorem goesOn_iff {s : State} {n : Nat} : goesOn s n = true ↔
    ((getCore s n).sxtState = 0 ∨ (getCore s n).sxtState = 2) ∧
      (getDom s (n / 17)).state = 1 ∧ (getDom s (16 + n / 68)).state = 1 := by
  simp [goesOn, and_assoc]

theorem execDomainPowered_comesOn {d : Nat} {s : State} (hd : d < 20) (hstate : (getDom s d).state = 4) :
    ∃ t, execDomainPowered d s = .next t ∧ t.tree = (coresPowered (domainOnline s d) d).tree ∧
      t.cores = (coresPowered (domainOnline s d) d).cores := by
  unfold execDomainPowered
  extract_lets x u tree u1 on u2 u3 u4
  rw [if_neg (by simp [x, hd, hstate])]
  refine ⟨_, rfl, (setOutcomeOpt_tree ..).trans ?_, (setOutcomeOpt_cores ..).trans ?_⟩
  all_goals
    simp only [u4]
    split <;> rfl

/-- Settles O46: what goes out of a quadrant is followed line by line through the evictions, and what a row does to the cores of a
domain is read from one of them. -/
theorem powerDomainsChange : Obligations.PowerDomainsChange := by
  unfold Obligations.PowerDomainsChange
  refine ⟨fun d s hd hstate hreqs hcores hrel hask => ?drained, fun d s hd hstate hin hwbs hheld => ?flushed,
    fun d s hd hstate => ?powered⟩
  case drained =>
    refine ⟨_, execDomainDrained_flushes hd hstate hreqs hcores hrel hask, ?_, fun n hn => ?_,
      fun hquad => ⟨flushDomain_lines hquad, fun gl hgl hst => flushDomain_wbs hquad hgl hst⟩⟩
    · rw [getDom_flushDomain, getDom_updDom_self]
    · rw [flushDomain_eq]
      obtain ⟨c, hc⟩ := getCore_updCores_of_mem (domainEvicted (updDom s d (fun x => { x with state := 3 })) d)
        (fun _ c => flushCore c) hn
      rw [hc]
      exact ⟨rfl, rfl, rfl⟩
  case flushed =>
    obtain ⟨htree, hoff⟩ := domainIsOff_reads hheld
    have hend := setOutcomeOpt_tree (domainIsOff s d) (getDom s d).mbx (okRes [])
    rw [htree] at hend
    refine ⟨_, execDomainFlushed_goesOff hd hstate hin hwbs, ?_, ?_, fun n hn => ?_⟩
    · rw [getDom_of_tree hend, getDom_updDom_self, ← hheld]
    · rw [hend]
      rfl
    · rw [getCore_of_cores (setOutcomeOpt_cores ..)]
      exact hoff n hn
  case powered =>
    obtain ⟨t, hexec, htree, hcores⟩ := execDomainPowered_comesOn hd hstate
    obtain ⟨hkeep, hon⟩ := coresPowered_reads (domainOnline s d) d
    obtain ⟨hdom, hnet⟩ := domainOnline_reads s d
    rw [hkeep] at htree
    refine ⟨t, hexec, ?_, ?_, fun n hn hwork hcluster hquad => ?_⟩
    · rw [getDom_of_tree htree, hdom]
    · rw [htree, hnet]
    · rw [getDom_of_tree htree] at hcluster hquad
      rw [getCore_of_cores hcores]
      exact hon n hn (goesOn_iff.mpr ⟨hwork, hcluster, hquad⟩)

end Sys2Proof.Machine
end

section
/-! SUPPORT. The near cache of a core: what room for a line leaves of a core, the entries after a fill, NEAR_CTL and the end
of cleaning, with O30 (R178, R183, R184, R185, R189, R190, R198). -/

namespace Sys2Proof.Machine

/-! ## What a core keeps while room is made for a line (R178, R179) -/

/-- A part of every core stands. -/
def keepsPart {β : Type} (part : Core → β) (s t : State) : Prop := ∀ m, part (getCore t m) = part (getCore s m)

section
variable {β : Type} {part : Core → β} {s t u : State}

theorem keepsPart.trans (h : keepsPart part s t) (k : keepsPart part t u) : keepsPart part s u := fun m =>
  (k m).trans (h m)

theorem keepsPart_of_cores (h : t.cores = s.cores) : keepsPart part s t := fun m => by rw [getCore_of_cores h]

theorem keepsPart_updCore {n : Nat} {f : Core → Core} (h : ∀ c, part (f c) = part c) :
    keepsPart part s (updCore s n f) := by
  intro m
  rw [getCore_updCore_eq]
  split
  next e => rw [h, e]
  next => rfl

variable (hdrop : ∀ gl c, part (dropCopies gl c) = part c)
include hdrop

theorem keepsPart_of_drop {gl : Nat} {p : Nat → Prop} [DecidablePred p]
    (h : t.cores = Table.mapListed Core.reset (fun n c => if p n then dropCopies gl c else c) s.cores) :
    keepsPart part s t := by
  intro m
  rw [getCore_mapListed_drop h]
  split
  next => exact hdrop ..
  next => rfl

theorem keepsPart_dropQuadCopies (s : State) (q gl : Nat) (keep : Option Nat) :
    keepsPart part s (dropQuadCopies s q gl keep) :=
  keepsPart_of_drop hdrop (p := fun n => coreQuad n = q ∧ some n ≠ keep) rfl

theorem keepsPart_evictLine (s : State) (q gl : Nat) : keepsPart part s (evictLine s q gl) := by
  have hset : keepsPart part s (setLine s q gl AgentLine.absent) := keepsPart_of_cores (setLine_cores ..)
  have hdropped : keepsPart part s (dropLine s q gl) := by
    unfold dropLine
    exact hset.trans (keepsPart_dropQuadCopies hdrop _ q gl none)
  exact hdropped.trans (keepsPart_of_cores (evictLine_cores s q gl))

theorem keepsPart_sliceEvict (s : State) (k gl : Nat) : keepsPart part s (sliceEvict s k gl) := by
  have hleave : keepsPart part s (leaveSlice s k gl) := keepsPart_of_drop hdrop (p := fun n => coreCluster n = k) rfl
  unfold sliceEvict
  dsimp only
  split
  next => exact hleave
  next => exact hleave.trans (keepsPart_evictLine hdrop _ _ _)

theorem keepsPart_sliceAdd (s : State) (k gl : Nat) : keepsPart part s (sliceAdd s k gl) := by
  unfold sliceAdd
  dsimp only
  split
  next => exact keepsPart_of_cores rfl
  next =>
    split
    next => exact keepsPart_of_cores rfl
    next =>
      split
      next x _ => exact fun m => keepsPart_sliceEvict hdrop (nextFree s) k x m
      next => exact keepsPart_of_cores rfl

/-- What the copies of lines have no share in stands when a line enters an L2, whichever line makes room. -/
theorem keepsPart_l2Add (hl2 : ∀ (c : Core) ls, part { c with l2 := ls } = part c) (s : State) (n gl : Nat) :
    keepsPart part s (l2Add s n gl) := by
  refine (keepsPart_sliceAdd hdrop s (coreCluster n) gl).trans ?_
  unfold l2Add
  dsimp only
  split
  next => exact keepsPart_of_cores rfl
  next =>
    split
    next => exact keepsPart_updCore fun c => hl2 ..
    next =>
      split
      next x _ => exact fun m => keepsPart_updCore (s := nextFree _) (fun c => (hl2 ..).trans (hdrop x c)) m
      next => exact keepsPart_of_cores rfl

end

/-! ## The entries of a near cache (R183) -/

theorem plruWalk_lt {tree d node : Nat} (h : (node + 1) * 2 ^ d ≤ 128) : plruWalk tree d node < 64 := by
  induction d generalizing node with
  | zero => unfold plruWalk; omega
  | succ d ih =>
    unfold plruWalk
    refine ih (le_trans ?_ h)
    calc (2 * node + (if tree.testBit (node - 1) then 1 else 0) + 1) * 2 ^ d
        ≤ (2 * (node + 1)) * 2 ^ d := Nat.mul_le_mul_right _ (by split <;> omega)
      _ = (node + 1) * 2 ^ (d + 1) := by ring

theorem fillSlot_lt (nr : Near) : fillSlot nr < 64 := by
  unfold fillSlot
  split
  next i hi => exact List.mem_range.mp (List.mem_of_find?_eq_some hi)
  next => exact plruWalk_lt (by decide)

theorem nearIndex_isSome_of_entry {nr : Near} {gl i : Nat} (hi : i < 64) (hvalid : (getEntry nr i).valid = true)
    (hline : (getEntry nr i).line = gl) : (nearIndex nr gl).isSome := by
  unfold nearIndex
  rw [List.find?_isSome]
  exact ⟨i, List.mem_range.mpr hi, by simp [hvalid, hline]⟩

theorem nearIndex_congr {a b : Near} (h : a.entries = b.entries) (gl : Nat) : nearIndex a gl = nearIndex b gl := by
  unfold nearIndex getEntry
  rw [h]

theorem nearIndex_of_empty {nr : Near} (h : nr.entries = []) (gl : Nat) : nearIndex nr gl = none :=
  (nearIndex_congr (b := Near.reset) h gl).trans (nearIndex_reset gl)

/-- A line that is installed stands in the near cache, in its old entry or in the slot of the fill. -/
theorem nearIndex_nearInstall (nr : Near) (gl : Nat) (bonded met : Bool) :
    (nearIndex (nearInstall nr gl bonded met) gl).isSome := by
  unfold nearInstall
  dsimp only
  split
  next i hi =>
    rw [nearIndex_congr (b := nr) (by split <;> rfl), hi]
    rfl
  next =>
    rw [nearIndex_congr (b := { nr with entries := Table.set noEntry nr.entries (fillSlot nr) ⟨true, gl, false, bonded⟩ })
      (by split <;> rfl)]
    have hentry := Table.get_set (d := noEntry) nr.entries (fillSlot nr) (fillSlot nr) ⟨true, gl, false, bonded⟩
    rw [if_pos rfl] at hentry
    exact nearIndex_isSome_of_entry (fillSlot_lt nr) (congrArg NearEntry.valid hentry) (congrArg NearEntry.line hentry)

theorem endWait_blocked_ne (nr : Near) (gl : Nat) : (endWait nr gl).blocked ≠ some gl := by
  unfold endWait
  dsimp only
  split
  next => exact nofun
  next h => exact h

theorem not_mem_endWait_fills (nr : Near) (gl : Nat) : gl ∉ (endWait nr gl).fills := by simp [endWait]

/-! ## NEAR_CTL (R185, R189, R190, R198) -/

/-- What NEAR_CTL stores of pf. -/
def storedPf (v : Word) : Nat := if v.field 2 1 = 3 then 0 else v.field 2 1

/-- The near cache after a write of enable by a requester whom no gate stops. -/
def enableWritten (on : Bool) (nr : Near) : Near :=
  match on with
  | true =>
    if nr.cleaning then { nr with enablePending := true }
    else if nr.enabled then nr else { nr with enabled := true, entries := [], plru := 0 }
  | false => if nr.enabled then { nr with enabled := false, cleaning := true } else nr

/-- The core after a write of NEAR_CTL by such a requester. -/
def nearCtlWritten (v : Word) (c : Core) : Core :=
  { c with near := enableWritten (v.bit 0) { c.near with pf := storedPf v } }

theorem enableWritten_pf (on : Bool) (nr : Near) : (enableWritten on nr).pf = nr.pf := by
  unfold enableWritten
  cases on with
  | true => dsimp only; split_ifs <;> rfl
  | false => dsimp only; split_ifs <;> rfl

theorem nearCtlWritten_disables {v : Word} {c : Core} (hv : v.bit 0 = false) (hen : c.near.enabled = true) :
    (nearCtlWritten v c).near = { c.near with pf := storedPf v, enabled := false, cleaning := true } := by
  simp [nearCtlWritten, enableWritten, hv, hen]

theorem nearCtlWritten_enables {v : Word} {c : Core} (hv : v.bit 0 = true) (hen : c.near.enabled = false)
    (hcl : c.near.cleaning = false) :
    (nearCtlWritten v c).near = { c.near with pf := storedPf v, enabled := true, entries := [], plru := 0 } := by
  simp [nearCtlWritten, enableWritten, hv, hen, hcl]

theorem nearCtlWritten_held {v : Word} {c : Core} (hv : v.bit 0 = true) (hcl : c.near.cleaning = true) :
    (nearCtlWritten v c).near = { c.near with pf := storedPf v, enablePending := true } := by
  simp [nearCtlWritten, enableWritten, hv, hcl]

theorem setNearEnable_reads {s : State} {q : IoReq} {n : Nat} (on : Bool)
    (hmay : (getCore s n).regs.w = false ∨ q.world = true) :
    onlyCore s (setNearEnable s q n on) n ∧
      getCore (setNearEnable s q n on) n = { getCore s n with near := enableWritten on (getCore s n).near } := by
  unfold setNearEnable enableWritten
  dsimp only
  cases on with
  | true =>
    rw [if_pos rfl]
    refine ⟨onlyCore_updCore .., (getCore_updCore_self ..).trans ?_⟩
    dsimp only
    split_ifs <;> rfl
  | false =>
    rw [if_neg Bool.false_ne_true]
    cases hen : (getCore s n).near.enabled with
    | false => exact ⟨onlyCore_refl s n, rfl⟩
    | true =>
      rw [if_neg (by decide), if_neg (by rcases hmay with h | h <;> simp [h])]
      exact ⟨onlyCore_updCore .., getCore_updCore_self ..⟩

theorem writeNearCtl_reads {s : State} {q : IoReq} {n : Nat} (v : Word)
    (hmay : (getCore s n).regs.w = false ∨ q.world = true) :
    onlyCore s (writeNearCtl s q n v) n ∧ getCore (writeNearCtl s q n v) n = nearCtlWritten v (getCore s n) := by
  have hcore := getCore_updCore_self (s := s) n (fun c => { c with near := { c.near with pf := storedPf v } })
  obtain ⟨honly, hget⟩ := setNearEnable_reads (v.bit 0) (by rw [hcore]; exact hmay)
  rw [hcore] at hget
  exact ⟨onlyCore_trans (onlyCore_updCore ..) honly, hget⟩

theorem mainReg_of_power {s : State} (t : State) (h : s.power.pwrOk = true) : mainReg s t = t := if_pos h

section
variable {s : State} {q : IoReq} {n : Nat} {v : Word} (hn : n < 272) (hpwr : s.power.pwrOk = true)
include hn hpwr

theorem exec_nearCtlPf : exec (.nearCtlPf q n v) s = .next (writeNearCtl s q n v) :=
  congrArg Host.Outcome.next ((mainReg_of_power _ hpwr).trans (if_pos hn))

theorem exec_nearCtlDisable (hv : v.bit 0 = false) : exec (.nearCtlDisable q n v) s = .next (writeNearCtl s q n v) :=
  congrArg Host.Outcome.next ((mainReg_of_power _ hpwr).trans (if_pos ⟨hn, hv⟩))

theorem exec_nearCtlEnable (hv : v.bit 0 = true) : exec (.nearCtlEnable q n v) s = .next (writeNearCtl s q n v) :=
  congrArg Host.Outcome.next ((mainReg_of_power _ hpwr).trans (if_pos ⟨hn, hv⟩))

end

/-! ## Cleaning ends, a fill completes (R183, R184, R189, R190) -/

theorem wakeEntry_of_none {s : State} {n : Nat} (h : (getCore s n).entering = none) : wakeEntry s n = s := by
  unfold wakeEntry
  rw [h]

/-- A near cache at the end of its cleaning. -/
def nearCleaned (c : Core) : Core :=
  { c with near := { c.near with
    cleaning := false, enabled := c.near.enablePending, enablePending := false
    entries := [], plru := 0, streams := [], served := none } }

theorem exec_nearCleaningDone {s : State} {n : Nat} (hcleaning : (getCore s n).near.cleaning = true)
    (hfills : (getCore s n).near.fills = []) (hblocked : (getCore s n).near.blocked = none)
    (hentering : (getCore s n).entering = none) :
    exec (.nearCleaningDone n) s = .next (updCore s n nearCleaned) :=
  congrArg Host.Outcome.next ((if_pos ⟨hcleaning, hfills, hblocked⟩).trans
    (wakeEntry_of_none (by rw [getCore_updCore_self]; exact hentering)))

/-- A core when the fill of a line of its quadrant completes. -/
def nearFilled (l : AgentLine) (gl : Nat) (c : Core) : Core :=
  let bnd := l.bonded || c.near.bndFills.contains gl
  let nr := if c.near.enabled then nearInstall c.near gl bnd (maintMet c gl) else c.near
  { c with near := { endWait nr gl with served := servedLine c gl } }

theorem exec_nearCacheFill {s : State} {n gl : Nat} (hheld : (getLine s (coreQuad n) gl).st ≠ .i)
    (hentering : (getCore s n).entering = none)
    (hwait : (getCore s n).near.blocked = some gl ∨ gl ∈ (getCore s n).near.fills) :
    exec (.nearCacheFill n gl) s =
      .next (updCore (l2Add s n gl) n (nearFilled (getLine s (coreQuad n) gl) gl)) := by
  have hnone : (getCore (l2Add s n gl) n).entering = none :=
    (keepsPart_l2Add (part := Core.entering) (fun _ _ => rfl) (fun _ _ => rfl) s n gl n).trans hentering
  have hawaited : ¬ ((getCore s n).near.blocked ≠ some gl ∧ ¬ (getCore s n).near.fills.contains gl) := by
    rintro ⟨hb, hf⟩
    exact hwait.elim hb (fun h => hf (List.contains_iff_mem.mpr h))
  exact congrArg Host.Outcome.next ((if_neg hawaited).trans ((if_neg hheld).trans
    (wakeEntry_of_none (by rw [getCore_updCore_self]; exact hnone))))

theorem nearFilled_near {c : Core} (l : AgentLine) (gl : Nat) (hen : c.near.enabled = true) :
    (nearIndex (nearFilled l gl c).near gl).isSome ∧ (nearFilled l gl c).near.blocked ≠ some gl ∧
      gl ∉ (nearFilled l gl c).near.fills := by
  refine ⟨?_, endWait_blocked_ne _ _, not_mem_endWait_fills _ _⟩
  unfold nearFilled
  dsimp only
  rw [if_pos hen]
  exact nearIndex_nearInstall ..

/-- Settles O30: a write of NEAR_CTL is `nearCtlWritten` on its core, cleaning ends as `nearCleaned`, and a fill is
`nearFilled` on a core of which the room made in its L2 leaves all but copies of lines. -/
theorem nearCacheRows : Obligations.NearCacheRows := by
  unfold Obligations.NearCacheRows
  intro s n c hn
  refine ⟨fun q v hpwr hmay => ?writes, fun hcleaning hfills hblocked hentering => ?cleaned,
    fun gl hheld hen hentering hwait => ?filled⟩
  case writes =>
    obtain ⟨honly, hcore⟩ := writeNearCtl_reads v hmay
    refine ⟨⟨_, exec_nearCtlPf hn hpwr, honly, ?_⟩, fun hv hen hcl => ⟨_, exec_nearCtlDisable hn hpwr hv, honly, ?_⟩,
      fun hv hen hcl => ⟨_, exec_nearCtlEnable hn hpwr hv, honly, ?_⟩,
      fun hv hcl => ⟨_, exec_nearCtlEnable hn hpwr hv, honly, ?_⟩⟩
    all_goals rw [hcore]
    · exact enableWritten_pf ..
    · rw [nearCtlWritten_disables hv hen]
      exact ⟨rfl, rfl, rfl, rfl⟩
    · rw [nearCtlWritten_enables hv hen hcl]
      exact ⟨rfl, nearIndex_of_empty rfl, rfl⟩
    · rw [nearCtlWritten_held hv hcl]
      exact ⟨rfl, rfl⟩
  case cleaned =>
    refine ⟨_, exec_nearCleaningDone hcleaning hfills hblocked hentering, onlyCore_updCore .., ?_⟩
    rw [getCore_updCore_self]
    exact ⟨rfl, rfl, nearIndex_of_empty rfl, rfl, rfl⟩
  case filled =>
    have hregs := keepsPart_l2Add (part := Core.regs) (fun _ _ => rfl) (fun _ _ => rfl) s n gl n
    have hbuf := keepsPart_l2Add (part := Core.buf) (fun _ _ => rfl) (fun _ _ => rfl) s n gl n
    have henabled := keepsPart_l2Add (part := (·.near.enabled)) (fun _ _ => rfl) (fun _ _ => rfl) s n gl n
    refine ⟨_, exec_nearCacheFill hheld hentering hwait, ?_⟩
    rw [getCore_updCore_self]
    obtain ⟨hindex, hblocked, hfills⟩ := nearFilled_near (getLine s (coreQuad n) gl) gl (henabled.trans hen)
    exact ⟨hindex, hblocked, hfills, fun h2 h3 => (congrArg State.lines (l2Add_of_held h2 h3) :), hregs, hbuf⟩

end Sys2Proof.Machine
end

section
/-! SUPPORT. A frame line read back after it was written (R247, R250, R251). -/

namespace Sys2Proof

theorem ofLeBytes_leBytes (n v : Nat) : ofLeBytes (leBytes n v) = v % 2 ^ (8 * n) := by
  induction n generalizing v with
  | zero => simp [leBytes, ofLeBytes, Nat.mod_one]
  | succ n ih =>
    rw [leBytes, ofLeBytes, ih, BitVec.toNat_ofNat, Nat.mul_succ, Nat.add_comm (8 * n), pow_add]
    exact Nat.mod_mul.symm

end Sys2Proof

namespace Sys2Proof.Machine

theorem lineOf_lineBytes (l : Line) : lineOf (lineBytes l) = l := by
  rw [lineOf, lineBytes, ofLeBytes_leBytes, Nat.mod_eq_of_lt l.isLt, BitVec.ofNat_toNat, BitVec.setWidth_eq]

/-- A byte after bytes were put, whatever the form of the table. -/
theorem get_putBytes (m : List Host.Cell) (a k : Nat) (bs : List Byte) :
    Table.get memDefault (putBytes m a bs) k =
      if k < a then Table.get memDefault m k else bs.getD (k - a) (Table.get memDefault m k) := by
  induction bs generalizing m a with
  | nil => simp [putBytes]
  | cons b t ih =>
    rw [putBytes, ih, Table.get_set]
    rcases lt_trichotomy k a with hlt | rfl | hgt
    · rw [if_pos (by omega), if_neg (by omega), if_pos hlt]
    · simp
    · rw [if_neg (by omega), if_neg (by omega), if_neg (by omega), show k - a = (k - (a + 1)) + 1 by omega,
        List.getD_cons_succ]

/-- The bytes of a frame line after a line was put into a frame line. -/
theorem frameBytes_writeFrame (s : State) (fl f key : Nat) (l : Line) :
    frameBytes (writeFrame s fl key l).mem f = if f = fl then lineBytes l else frameBytes s.mem f := by
  have hlen := lineBytes_length l
  split
  next h =>
    subst h
    refine List.ext_getElem (by simp [frameBytes, hlen]) fun j _ hj => ?_
    simp only [frameBytes, writeFrame, List.getElem_map, List.getElem_range, get_putBytes]
    rw [if_neg (by omega), Nat.add_sub_cancel_left, List.getD_eq_getElem _ _ hj]
  next h =>
    refine List.map_congr_left fun j hj => ?_
    rw [List.mem_range] at hj
    simp only [writeFrame, get_putBytes]
    split
    next => rfl
    next hge => exact List.getD_eq_default _ _ (by omega)

/-- A frame line is written, whatever else of the module changes. -/
theorem frameHolds_of_writeFrame {s t : State} {fl zone : Nat} {l : Line}
    (hmem : t.mem = (writeFrame s fl (keyTag s zone) l).mem) (hdev : t.devId = s.devId) : frameHolds s t fl zone l := by
  have hkey (f : Nat) : Table.get zeroOf t.mem.keys f =
      if f = fl then keyTag s zone else Table.get zeroOf s.mem.keys f := by
    rw [hmem]; exact Table.get_set (d := zeroOf) s.mem.keys fl f _
  have hpoison (f : Nat) : framePoison t f = if f = fl then false else framePoison s f := by
    unfold framePoison; rw [hmem]; exact Table.get_set (d := noFlag) s.mem.poison fl f false
  refine ⟨by rw [hpoison, if_pos rfl], ?_, fun f k hf => ⟨?_, by rw [hpoison, if_neg hf]⟩⟩
  · rw [readFrame, hkey, if_pos rfl]
    exact (if_pos rfl).trans (by rw [hmem, frameBytes_writeFrame, if_pos rfl, lineOf_lineBytes])
  · rw [readFrame, readFrame, hkey, if_neg hf, hmem, frameBytes_writeFrame, if_neg hf, hdev]

end Sys2Proof.Machine
end

section
/-! SUPPORT. The home's operations: a read and a write that meet no error, the end of a transaction, a grant and its record in
the directory (R215, R221, R223, R246, R252). -/

namespace Sys2Proof.Machine

/-! ## Reads and writes of frames that meet no error (R246, R252) -/

theorem homeRead_clean {s : State} {fl : Nat} (hpoison : framePoison s fl = false) (zone : Nat) (stamp : Word) :
    homeRead s fl zone stamp .clean = (readFrame s fl (keyTag s zone), false, s) := by
  simp [homeRead, channelRead, ReadFinding.clean, symbolErrors, hpoison, eccEnd]

theorem homeWrite_ready {s : State} {zone : Nat} (hkey : keyReady s zone = true) (fl : Nat) (l : Line) :
    homeWrite s fl zone false l 0 = writeFrame s fl (keyTag s zone) l := by
  simp [homeWrite, hkey, inlineVerify]

/-- A request that the home's checks pass to a mapped page finds the page's frame and its zone's key. -/
theorem frameOf_of_homeCheck {s : State} {off zone fl : Nat} {world : Bool} (hcheck : homeCheck s off zone world = .line fl)
    (hst : (getPage s (off / 4096)).st = 0) : frameOf s (off / 128 * 128) = some fl ∧ keyReady s zone = true := by
  have hpage : off / 128 * 128 / 4096 = off / 4096 := by omega
  have hline : off / 128 * 128 / 128 = off / 128 := by omega
  unfold homeCheck at hcheck
  unfold frameOf
  grind

/-! ## The end of a transaction (R223) -/

@[simp] theorem freeLine_mem (s : State) (li : Nat) : (freeLine s li).mem = s.mem := by
  unfold freeLine
  dsimp only
  split <;> rfl

@[simp] theorem freeLine_devId (s : State) (li : Nat) : (freeLine s li).devId = s.devId := by
  unfold freeLine
  dsimp only
  split <;> rfl

theorem oldestCredit_of_uncredited {s : State} {li : Nat} (hfree : ∀ c ∈ s.home.credits, c.2.line ≠ li) :
    oldestCredit s li = none := by
  have hnone : s.home.credits.filter (fun c => c.2.line == li) = [] :=
    List.filter_eq_nil_iff.mpr fun c hc => by simpa using hfree c hc
  rw [oldestCredit, hnone, List.foldl_nil]

theorem freeLine_of_uncredited {s : State} {li : Nat} (hfree : ∀ c ∈ s.home.credits, c.2.line ≠ li) :
    freeLine s li = dropTxn s li := by
  have hnone : oldestCredit (dropTxn s li) li = none := oldestCredit_of_uncredited hfree
  rw [freeLine, hnone]

/-- A transaction was alone to keep its line busy: the line is not busy without it. -/
theorem busy_dropTxn_of_alone {s t : State} {x : Txn} {li : Nat} (hbusy : busy s li = false)
    (htxns : t.home.txns = s.home.txns ++ [x]) (hline : x.line = li) : busy (dropTxn t li) li = false := by
  unfold busy at hbusy ⊢
  rw [List.any_eq_false] at hbusy ⊢
  intro y hy
  obtain ⟨hmem, hother⟩ := List.mem_filter.mp hy
  rw [htxns, List.mem_append, List.mem_singleton] at hmem
  rcases hmem with hold | rfl
  · exact hbusy y hold
  · exact absurd hline (by simpa using hother)

/-- Cmp ends a request whose transaction was the only one on a line without credits. -/
theorem completed_freeLine {s t : State} {x : Txn} {r : CohReq} (hbusy : busy s (addrOff r.addr / 128) = false)
    (hfree : ∀ c ∈ t.home.credits, c.2.line ≠ addrOff r.addr / 128) (hnet : t.tree.net = s.tree.net)
    (htxns : t.home.txns = s.home.txns ++ [x]) (hline : x.line = addrOff r.addr / 128) :
    completed s (freeLine (respond t .cmp r.agent r.zone r.stamp r.addr []) (addrOff r.addr / 128)) r := by
  have hfreed : freeLine (respond t .cmp r.agent r.zone r.stamp r.addr []) (addrOff r.addr / 128) = dropTxn _ _ :=
    freeLine_of_uncredited hfree
  rw [hfreed]
  exact ⟨⟨_, congrArg (· ++ _) hnet, rfl, rfl, rfl⟩, busy_dropTxn_of_alone hbusy htxns hline⟩

/-! ## Grants (R215, R221) -/

/-- The transaction waits for the CmpAck of a grant. -/
def heldGrant (s : State) (x : Txn) (st : Moesi) : State :=
  { s with home := { s.home with
      txns := s.home.txns.map (fun y => if y.line = x.line then { x with granted := some st, sentAt := now s } else y) } }

theorem findTxn_heldGrant {s : State} {x : Txn} (st : Moesi) (hx : x ∈ s.home.txns) :
    findTxn (heldGrant s x st) x.line = some { x with granted := some st, sentAt := now s } := by
  have hsame : ((fun y : Txn => y.line == x.line) ∘
      fun y => if y.line = x.line then { x with granted := some st, sentAt := now s } else y) =
      fun y => y.line == x.line := by
    funext y
    by_cases h : y.line = x.line <;> simp [h]
  rw [findTxn, heldGrant, List.find?_map, hsame]
  cases hfind : s.home.txns.find? (fun y => y.line == x.line) with
  | none => exact absurd (List.find?_eq_none.mp hfind x hx) (by simp)
  | some y => exact congrArg some (if_pos (by simpa using List.find?_some hfind))

/-- Data goes to the requester and the transaction waits. -/
theorem dataGranted_heldGrant {s t : State} {x : Txn} {r : CohReq} (st : Moesi) (l : Line) (hnet : t.tree.net = s.tree.net)
    (hx : x ∈ t.home.txns) (hline : x.line = addrOff r.addr / 128) :
    dataGranted s (heldGrant (sendData t r st l false) x st) r st l := by
  refine ⟨⟨_, congrArg (· ++ _) hnet, rfl, rfl, rfl, rfl, rfl, rfl⟩, ?_⟩
  rw [← hline, findTxn_heldGrant (s := sendData t r st l false) st hx]
  rfl

/-- A grant is recorded in the directory only. -/
theorem recordGrant_eq (s : State) (li : Nat) (a : Agent) (st : Moesi) :
    ∃ d, recordGrant s li a st = { s with home := { s.home with dir := d } } := by
  fun_cases recordGrant s li a st <;> exact ⟨_, rfl⟩

theorem recordGrant_credits (s : State) (li : Nat) (a : Agent) (st : Moesi) :
    (recordGrant s li a st).home.credits = s.home.credits := by
  obtain ⟨d, hd⟩ := recordGrant_eq s li a st
  rw [hd]

theorem recordGrant_exclusive_dir (s : State) (li : Nat) (a : Agent) :
    Assoc.get (recordGrant s li a .e).home.dir li = if a = ⟨s.devId, li % 4⟩ then none else some ⟨2, a, [], none⟩ := by
  have hgrant : recordGrant s li a .e =
      if isHomeQuad s a li then setDir s li DirEntry.free else setDir s li ⟨2, a, [], none⟩ := rfl
  rw [hgrant]
  by_cases h : a = ⟨s.devId, li % 4⟩
  · simp [isHomeQuad, h, setDir, DirEntry.free, Assoc.get_del]
  · simp [isHomeQuad, h, setDir, Assoc.get_put]

end Sys2Proof.Machine
end

section
/-! SUPPORT. A request that finds its line at rest: it is admitted, needs no snoop and is granted at once; what each grant
leaves, and a credit that comes back or is reclaimed, with O37 and O38 (R215, R217, R221 to R223, R239). -/

namespace Sys2Proof.Machine

/-! ## A request on a line at rest (R221, R222, R239) -/

/-- What a request finds once the home has admitted it to a line at rest. -/
structure OpenLine (s : State) (r : CohReq) (fl : Nat) : Prop where
  frame : frameOf s (addrOff r.addr / 128 * 128) = some fl
  key : keyReady s r.zone = true
  free : busy s (addrOff r.addr / 128) = false
  unlisted : Assoc.get s.home.dir (addrOff r.addr / 128) = none
  unheld : lineHolders s (addrOff r.addr / 128 * 128) = []
  room : bucketFull s (addrOff r.addr / 128) r.agent = false
  sound : framePoison s fl = false

theorem openLine_of_atRest {s : State} {r : CohReq} {fl : Nat} (h : atRest s r fl) : OpenLine s r fl := by
  obtain ⟨-, -, -, -, -, -, hcheck, hst, -, hbusy, hdir, hheld, hroom, hpoison⟩ := h
  obtain ⟨hframe, hkey⟩ := frameOf_of_homeCheck hcheck hst
  exact ⟨hframe, hkey, hbusy, hdir, Nat.mul_comm _ 128 ▸ hheld, hroom, hpoison⟩

/-- A credit is taken back, free for another request. -/
def releaseCredit (s : State) (c : Nat) : State :=
  { s with home := { s.home with credits := Assoc.del s.home.credits c } }

/-- Credits have no part in what a request finds. -/
theorem OpenLine.releaseCredit {s : State} {r : CohReq} {fl : Nat} (h : OpenLine s r fl) (c : Nat) :
    OpenLine (releaseCredit s c) r fl :=
  ⟨h.frame, h.key, h.free, h.unlisted, h.unheld, h.room, h.sound⟩

theorem takeRequest_of_atRest {s : State} {r : CohReq} {fl : Nat} (h : atRest s r fl) (k : ReqKind) (credit : Option Nat)
    (e : ReadFinding) (verify : Nat) : takeRequest s k r credit e verify = admitRequest s k r credit e verify := by
  obtain ⟨hup, hbit, hdev, hqueue, hpresent, hnew, hcheck, -, hserved, -⟩ := h
  have hgone : ¬ (Table.get noFlag s.fab.lostMap r.agent.dev ∨ (r.rs && stampKnown s r.stamp) = true) := by
    rcases hnew with h | h <;> simp [hpresent, h]
  simp only [takeRequest, hup, hbit, hdev, hqueue, hgone, hcheck, hserved]
  simp

/-- The transaction of a request for which no snoop is needed. -/
def quietTxn (s : State) (k : ReqKind) (r : CohReq) : Txn :=
  ⟨addrOff r.addr / 128, .request k r, [], now s, false, none, false, r.zone, false, [], [], none, .clean, true, false, false⟩

section
variable (s : State) (k : ReqKind) (r : CohReq)

@[simp] theorem quietTxn_line : (quietTxn s k r).line = addrOff r.addr / 128 := rfl
@[simp] theorem quietTxn_forwarded : (quietTxn s k r).forwarded = false := rfl
@[simp] theorem quietTxn_data : (quietTxn s k r).data = none := rfl
@[simp] theorem quietTxn_owned : (quietTxn s k r).owned = false := rfl
@[simp] theorem quietTxn_finding : (quietTxn s k r).finding = .clean := rfl

/-- That transaction joins those in progress. -/
def withQuiet : State := { s with home := { s.home with txns := s.home.txns ++ [quietTxn s k r] } }

/-- The state in which the home serves it. -/
def serving : State := chargeCredit (withQuiet s k r) r.zone

/-- Its grant. -/
def grantQuiet : State := grant (withQuiet s k r) (quietTxn s k r) k r 0

theorem quietTxn_mem_serving : quietTxn s k r ∈ (serving s k r).home.txns := by
  show quietTxn s k r ∈ s.home.txns ++ [quietTxn s k r]
  simp

end

section
variable {s : State} {r : CohReq} {fl : Nat} (h : OpenLine s r fl)
include h

theorem admitRequest_uncredited (hfree : ∀ c ∈ s.home.credits, c.2.line ≠ addrOff r.addr / 128) (k : ReqKind)
    (e : ReadFinding) (verify : Nat) : admitRequest s k r none e verify = openTxn s k r e verify := by
  have hunreserved : (s.home.credits.any fun c => c.2.line == addrOff r.addr / 128 && some c.1 != none) = false :=
    List.any_eq_false.mpr fun c hc => by simpa using hfree c hc
  simp only [admitRequest, h.free, hunreserved]
  rfl

theorem admitRequest_credited (k : ReqKind) (c : Nat) (e : ReadFinding) (verify : Nat) :
    admitRequest s k r (some c) e verify = openTxn (releaseCredit s c) k r e verify := by
  simp [admitRequest, h.free, releaseCredit]

/-- Nobody outside the home quadrant is recorded and the probe of the home quadrant misses. -/
theorem ownerOf_eq_none : ownerOf s (addrOff r.addr / 128) = none := by
  have hprobe := h.unheld
  simp only [lineHolders, List.append_eq_nil_iff, homeQuad, Nat.mul_div_cancel _ (show 0 < 128 by omega)] at hprobe
  unfold ownerOf
  split <;> simp_all [h.unlisted]

theorem snoopsFor_eq_nil (k : ReqKind) : snoopsFor s (addrOff r.addr / 128) k r.agent = [] := by
  cases k <;> simp [snoopsFor, h.unheld, ownerOf_eq_none h]

theorem effectiveKind_upgrade : effectiveKind s (addrOff r.addr / 128) .upgrade r.agent = .rdOwn := by
  simp [effectiveKind, listedFor, h.unheld]

/-- The directory has nothing to settle and the bucket has room, so the request is granted at once. -/
theorem openTxn_eq_grantQuiet {k k' : ReqKind} (hk : effectiveKind s (addrOff r.addr / 128) k r.agent = k') :
    openTxn s k r .clean 0 = grantQuiet s k' r := by
  have hbegin : openTxn s k r .clean 0 = beginTxn s k r .clean 0 := by
    simp [openTxn, ReadFinding.clean, ownerLost, dropLost, openEntry, h.unlisted, h.room]
  rw [hbegin]
  simp [beginTxn, hk, snoopsFor_eq_nil h, dirOwned, h.unlisted, grantQuiet, withQuiet, quietTxn]

end

/-- A request at rest on a line without credits is granted at once. -/
theorem takeRequest_eq_grantQuiet {s : State} {r : CohReq} {fl : Nat} (h : atRest s r fl)
    (hfree : ∀ c ∈ s.home.credits, c.2.line ≠ addrOff r.addr / 128) {k k' : ReqKind}
    (hk : effectiveKind s (addrOff r.addr / 128) k r.agent = k') : takeRequest s k r none .clean 0 = grantQuiet s k' r := by
  have hopen := openLine_of_atRest h
  rw [takeRequest_of_atRest h, admitRequest_uncredited hopen hfree, openTxn_eq_grantQuiet hopen hk]

/-! ## What each grant leaves (R215, R217, R221) -/

/-- Data goes out under a state and the quiet transaction waits for the CmpAck. -/
def dataSent (s : State) (k : ReqKind) (r : CohReq) (fl : Nat) (st : Moesi) (t : State) : State :=
  heldGrant (sendData t r st (readFrame s fl (keyTag s r.zone)) false) (quietTxn s k r) st

/-- Cmp goes out and the line is freed. -/
def cmpSent (r : CohReq) (t : State) : State :=
  freeLine (respond t .cmp r.agent r.zone r.stamp r.addr []) (addrOff r.addr / 128)

theorem writeFrame_mem_congr {s t : State} (hmem : t.mem = s.mem) (fl key : Nat) (l : Line) :
    (writeFrame t fl key l).mem = (writeFrame s fl key l).mem := by
  simp only [writeFrame, hmem]

/-- A frame line reads the same under a zone's key where memory, the key slots and the device ID are the same. -/
theorem readFrame_keyTag_congr {s t : State} (hmem : t.mem = s.mem) (hcip : t.cip = s.cip) (hdev : t.devId = s.devId)
    (fl zone : Nat) : readFrame t fl (keyTag t zone) = readFrame s fl (keyTag s zone) := by
  have hkey : keyTag t zone = keyTag s zone := by unfold keyTag getSlot; rw [hcip]
  rw [hkey, readFrame, readFrame, hmem, hdev]

section
variable {s : State} {r : CohReq} {fl : Nat} (h : OpenLine s r fl)
include h

theorem frameOf_withQuiet (k : ReqKind) : frameOf (withQuiet s k r) (addrOff r.addr / 128 * 128) = some fl := h.frame

theorem homeRead_serving (k : ReqKind) : homeRead (chargeCredit (withQuiet s k r) r.zone) fl r.zone r.stamp .clean =
    (readFrame s fl (keyTag s r.zone), false, serving s k r) := by
  have hsound : framePoison (serving s k r) fl = false := h.sound
  have hline := readFrame_keyTag_congr (s := s) (t := serving s k r) rfl rfl rfl fl r.zone
  exact (homeRead_clean hsound ..).trans (congrArg (·, false, serving s k r) hline)

theorem grantQuiet_rdShared : grantQuiet s .rdShared r =
    dataSent s .rdShared r fl .e (recordGrant (serving s .rdShared r) (addrOff r.addr / 128) r.agent .e) := by
  have hdir : Assoc.get (serving s .rdShared r).home.dir (addrOff r.addr / 128) = none := h.unlisted
  have hheld : lineHolders (serving s .rdShared r) (addrOff r.addr / 128 * 128) = [] := h.unheld
  simp only [grantQuiet, grant, quietTxn_line, quietTxn_forwarded, quietTxn_data, quietTxn_finding, frameOf_withQuiet h,
    homeRead_serving h, hdir, hheld]
  rfl

theorem grantQuiet_rdOwn : grantQuiet s .rdOwn r =
    dataSent s .rdOwn r fl .e (recordGrant (serving s .rdOwn r) (addrOff r.addr / 128) r.agent .e) := by
  simp only [grantQuiet, grant, quietTxn_line, quietTxn_forwarded, quietTxn_data, quietTxn_owned, quietTxn_finding,
    frameOf_withQuiet h, homeRead_serving h]
  rfl

theorem grantQuiet_rdOnce : grantQuiet s .rdOnce r = dataSent s .rdOnce r fl .i (serving s .rdOnce r) := by
  simp only [grantQuiet, grant, quietTxn_line, quietTxn_data, quietTxn_finding, frameOf_withQuiet h, homeRead_serving h]
  rfl

/-- The write of a line that has no copy left: the line's entry is freed with it. -/
theorem homeWrite_serving (k : ReqKind) (d : Line) :
    homeWrite (setDir (serving s k r) (addrOff r.addr / 128) DirEntry.free) fl r.zone false d 0 =
      writeFrame (setDir (serving s k r) (addrOff r.addr / 128) DirEntry.free) fl (keyTag s r.zone) d :=
  homeWrite_ready (s := setDir (serving s k r) _ _) h.key fl d

theorem grantQuiet_wrLine (d : Line) : grantQuiet s (.wrLine d) r = cmpSent r
    (writeFrame (setDir (serving s (.wrLine d) r) (addrOff r.addr / 128) DirEntry.free) fl (keyTag s r.zone) d) := by
  simp only [grantQuiet, grant, quietTxn_line, frameOf_withQuiet h]
  rw [← homeWrite_serving h]
  rfl

theorem grantQuiet_wrPart (mask : BitVec 128) (d : Line) : grantQuiet s (.wrPart mask d) r = cmpSent r
    (writeFrame (setDir (serving s (.wrPart mask d) r) (addrOff r.addr / 128) DirEntry.free) fl (keyTag s r.zone)
      (mergeMask mask d (readFrame s fl (keyTag s r.zone)))) := by
  simp only [grantQuiet, grant, quietTxn_line, quietTxn_data, quietTxn_finding, frameOf_withQuiet h, homeRead_serving h]
  rw [← homeWrite_serving h]
  rfl

theorem grantQuiet_maintenance {k : ReqKind} (hk : isMaint k = true) : grantQuiet s k r = cmpSent r (serving s k r) := by
  cases k with
  | cleanLine | invLine | cleanInvLine =>
    simp only [grantQuiet, grant, quietTxn_line, quietTxn_data, frameOf_withQuiet h]
    rfl
  | _ => nomatch hk

end

section
variable (s : State) (k : ReqKind) (r : CohReq) (fl : Nat)

@[simp] theorem dataSent_dir (st : Moesi) (t : State) : (dataSent s k r fl st t).home.dir = t.home.dir := rfl
@[simp] theorem dataSent_credits (st : Moesi) (t : State) : (dataSent s k r fl st t).home.credits = t.home.credits := rfl
@[simp] theorem dataSent_mem (st : Moesi) (t : State) : (dataSent s k r fl st t).mem = t.mem := rfl

theorem dataGranted_dataSent {t : State} (st : Moesi) (htree : t.tree = s.tree) (hx : quietTxn s k r ∈ t.home.txns) :
    dataGranted s (dataSent s k r fl st t) r st (readFrame s fl (keyTag s r.zone)) :=
  dataGranted_heldGrant st _ (congrArg Tree.net htree) hx rfl

/-- A grant of ownership sends the data and records the owner; memory stays. -/
theorem exclusive_dataSent :
    let t := dataSent s k r fl .e (recordGrant (serving s k r) (addrOff r.addr / 128) r.agent .e)
    dataGranted s t r .e (readFrame s fl (keyTag s r.zone)) ∧ ownerRecorded s t r ∧ t.mem = s.mem := by
  intro t
  obtain ⟨d, hd⟩ := recordGrant_eq (serving s k r) (addrOff r.addr / 128) r.agent .e
  have howner := recordGrant_exclusive_dir (serving s k r) (addrOff r.addr / 128) r.agent
  refine ⟨?granted, howner, ?memory⟩
  case granted => exact dataGranted_dataSent s k r fl .e (by rw [hd]; rfl) (by rw [hd]; exact quietTxn_mem_serving s k r)
  case memory => rw [dataSent_mem, hd]; rfl

/-- A read that leaves no copy sends the data; memory and the directory stay. -/
theorem copyless_dataSent : dataGranted s (dataSent s k r fl .i (serving s k r)) r .i (readFrame s fl (keyTag s r.zone)) ∧
    (dataSent s k r fl .i (serving s k r)).home.dir = s.home.dir ∧ (dataSent s k r fl .i (serving s k r)).mem = s.mem :=
  ⟨dataGranted_dataSent s k r fl .i rfl (quietTxn_mem_serving s k r), dataSent_dir .., dataSent_mem ..⟩

end

/-- Cmp ends the quiet transaction of a request on a line without credits. -/
theorem completed_cmpSent {s t : State} {k : ReqKind} {r : CohReq} (hbusy : busy s (addrOff r.addr / 128) = false)
    (hfree : ∀ c ∈ s.home.credits, c.2.line ≠ addrOff r.addr / 128) (htree : t.tree = (serving s k r).tree)
    (htxns : t.home.txns = (serving s k r).home.txns) (hcredits : t.home.credits = (serving s k r).home.credits) :
    completed s (cmpSent r t) r := by
  have hfree' : ∀ c ∈ t.home.credits, c.2.line ≠ addrOff r.addr / 128 := by rw [hcredits]; exact hfree
  exact completed_freeLine (x := quietTxn s k r) hbusy hfree' (congrArg Tree.net htree) htxns rfl

theorem cmpSent_mem (r : CohReq) (t : State) : (cmpSent r t).mem = t.mem := freeLine_mem ..

theorem cmpSent_devId (r : CohReq) (t : State) : (cmpSent r t).devId = t.devId := freeLine_devId ..

/-- A write ends with its line in the frame. -/
theorem written_cmpSent {s : State} {r : CohReq} (hbusy : busy s (addrOff r.addr / 128) = false)
    (hfree : ∀ c ∈ s.home.credits, c.2.line ≠ addrOff r.addr / 128) (k : ReqKind) (fl : Nat) (l : Line) :
    let t := cmpSent r (writeFrame (setDir (serving s k r) (addrOff r.addr / 128) DirEntry.free) fl (keyTag s r.zone) l)
    completed s t r ∧ frameHolds s t fl r.zone l := by
  intro t
  have hmem : (serving s k r).mem = s.mem := rfl
  have hdev : (serving s k r).devId = s.devId := rfl
  exact ⟨completed_cmpSent (k := k) hbusy hfree rfl rfl rfl,
    frameHolds_of_writeFrame ((cmpSent_mem ..).trans (writeFrame_mem_congr hmem ..)) ((cmpSent_devId ..).trans hdev)⟩

/-- A maintenance request on a line that nobody holds only answers. -/
theorem maintained_cmpSent {s : State} {r : CohReq} (hbusy : busy s (addrOff r.addr / 128) = false)
    (hfree : ∀ c ∈ s.home.credits, c.2.line ≠ addrOff r.addr / 128) (k : ReqKind) :
    completed s (cmpSent r (serving s k r)) r ∧ (cmpSent r (serving s k r)).mem = s.mem :=
  ⟨completed_cmpSent (k := k) hbusy hfree rfl rfl rfl, cmpSent_mem ..⟩

/-- Settles O37: at rest a request needs no snoop, so its transaction is granted at once; what each kind leaves is read from
its grant. -/
theorem requestsGrantedAtRest : Obligations.RequestsGrantedAtRest := by
  unfold Obligations.RequestsGrantedAtRest
  intro r fl s h hfree l
  have hopen := openLine_of_atRest h
  have htake (k k' : ReqKind) {t : State} (hk : effectiveKind s (addrOff r.addr / 128) k r.agent = k')
      (ht : grantQuiet s k' r = t) : (Host.Outcome.next (takeRequest s k r none .clean 0) : Out) = .next t :=
    congrArg Host.Outcome.next ((takeRequest_eq_grantQuiet h hfree hk).trans ht)
  have hmaint (k : ReqKind) (hk : isMaint k = true) (heff : effectiveKind s (addrOff r.addr / 128) k r.agent = k) :=
    htake k k heff (grantQuiet_maintenance hopen hk)
  have hown (k : ReqKind) := exclusive_dataSent s k r fl
  have hwritten := written_cmpSent hopen.free hfree
  have hdone := maintained_cmpSent hopen.free hfree
  refine ⟨⟨_, htake .rdShared .rdShared rfl (grantQuiet_rdShared hopen), hown .rdShared⟩,
    ⟨_, htake .rdOwn .rdOwn rfl (grantQuiet_rdOwn hopen), hown .rdOwn⟩,
    ⟨_, htake .upgrade .rdOwn (effectiveKind_upgrade hopen) (grantQuiet_rdOwn hopen), hown .rdOwn⟩,
    ⟨_, htake .rdOnce .rdOnce rfl (grantQuiet_rdOnce hopen), copyless_dataSent s .rdOnce r fl⟩,
    fun d => ⟨_, htake (.wrLine d) (.wrLine d) rfl (grantQuiet_wrLine hopen d), hwritten (.wrLine d) fl d⟩,
    fun mask d => ⟨_, htake (.wrPart mask d) (.wrPart mask d) rfl (grantQuiet_wrPart hopen mask d),
      hwritten (.wrPart mask d) fl _⟩,
    ⟨_, hmaint .cleanLine rfl rfl, hdone .cleanLine⟩, ⟨_, hmaint .invLine rfl rfl, hdone .invLine⟩,
    ⟨_, hmaint .cleanInvLine rfl rfl, hdone .cleanInvLine⟩⟩

/-! ## Credits (R223) -/

/-- A Resend with the credit that is recorded for it is admitted with that credit. -/
theorem exec_resendRequest_held {s : State} {r : CohReq} {k : Nat} {c : Credit} (hget : Assoc.get s.home.credits k = some c)
    (hagent : c.agent = r.agent) (hstamp : c.stamp = r.stamp) (hline : c.line = addrOff r.addr / 128) (kind : ReqKind)
    (e : ReadFinding) : exec (.resendRequest r kind k e) s = .next (takeRequest s kind r (some k) e 0) := by
  show execResendRequest r kind k e s = _
  simp [execResendRequest, hget, hagent, hstamp, hline]

theorem exec_creditReclaim_due {s : State} {k t0 : Nat} {c : Credit} (hget : Assoc.get s.home.credits k = some c)
    (hresent : c.resentAt = some t0) (hdue : 2 ^ 24 ≤ (now s + 2 ^ 64 - t0) % 2 ^ 64) :
    let u := faultAt (releaseCredit s k) 0x05 0 0 c.stamp (mkAddr s.devId (128 * c.line)) (BitVec.ofNat 64 (k % 16)) 0
    exec (.creditReclaim k) s = .next (if busy u c.line then u else freeLine u c.line) := by
  show execCreditReclaim k s = _
  simp only [execCreditReclaim, hget, hresent, if_pos hdue, Nat.mul_comm 128, releaseCredit]

/-- Settles O38: admission frees the credit and the grant is the one of a line at rest; a credit that is due is freed and
reported before its line is offered. -/
theorem creditsServed : Obligations.CreditsServed := by
  unfold Obligations.CreditsServed
  refine ⟨fun r fl k c s h hget hagent hstamp hline _ => ?served, fun k t0 c s hget hresent hdue =>
    ⟨_, _, exec_creditReclaim_due hget hresent hdue, rfl, rfl⟩⟩
  case served =>
    have hopen := openLine_of_atRest h
    have htake : takeRequest s .rdOwn r (some k) .clean 0 = grantQuiet (releaseCredit s k) .rdOwn r :=
      (takeRequest_of_atRest h ..).trans ((admitRequest_credited hopen ..).trans
        (openTxn_eq_grantQuiet (k := .rdOwn) (hopen.releaseCredit k) rfl))
    obtain ⟨hdata, howner, -⟩ := exclusive_dataSent (releaseCredit s k) .rdOwn r fl
    rw [readFrame_keyTag_congr (s := s) (t := releaseCredit s k) rfl rfl rfl] at hdata
    refine ⟨_, (exec_resendRequest_held hget hagent hstamp hline ..).trans (congrArg Host.Outcome.next
      (htake.trans (grantQuiet_rdOwn (hopen.releaseCredit k)))), ?_, hdata, howner⟩
    rw [dataSent_credits, recordGrant_credits]
    exact (Assoc.get_del s.home.credits k k).trans (if_pos rfl)

end Sys2Proof.Machine
end

section
/-! SUPPORT. A line that two transactions claim, and the refutation of O39: CmpAck ends the transaction whose grant it
acknowledges, and with it frees the line only where no back-invalidation on another line waits for the same line (R222, R223). -/

namespace Sys2Proof.Machine

/-- CmpAck from the requester of a granted transaction frees the line. -/
theorem exec_cmpack_granted {s : State} {x : Txn} {k : ReqKind} {r : CohReq} {addr : Word}
    (hfind : findTxn s (addrOff addr / 128) = some x) (hgoal : x.goal = .request k r) (hgranted : x.granted.isSome)
    (hdev : addrDev addr = s.devId) :
    exec (.cmpack r.agent r.stamp addr) s = .next (freeLine s (addrOff addr / 128)) := by
  show execCmpack r.agent r.stamp addr s = _
  simp [execCmpack, hfind, hgoal, hgranted, hdev]

/-- A RDOWN of line 0 from quadrant 1 of device 0. -/
def claimant : CohReq := ⟨⟨0, 1⟩, 0, 0, 0, false, false, false, false⟩

/-- The transaction of that request, granted, which waits for its CmpAck. -/
def grantedClaim : Txn :=
  ⟨0, .request .rdOwn claimant, [], 0, false, none, false, 0, false, [], [], some .m, .clean, true, false, false⟩

/-- A back-invalidation of line 1 for a request of line 0. -/
def waitingClaim : Txn :=
  ⟨1, .backInv .rdOwn claimant, [], 0, false, none, false, 0, false, [], [], none, .clean, true, false, false⟩

/-- Device 0 with both. -/
def claimedTwice : State :=
  { State.reset with devId := 0, home := { State.reset.home with txns := [grantedClaim, waitingClaim] } }

theorem findTxn_claimedTwice : findTxn claimedTwice (addrOff 0 / 128) = some grantedClaim := rfl

/-- A busy line is also one for which a back-invalidation runs on another line, and CmpAck does not end that one. -/
theorem busy_freeLine_claimedTwice : busy (freeLine claimedTwice (addrOff 0 / 128)) (addrOff 0 / 128) = true := by
  decide

/-- Refutes O39: the clause on CMPACK asks for a line that is not busy, whatever else the home holds. Where a
back-invalidation on another line waits for the granted line, `busy` counts it for that line (R222), and CmpAck, which ends
the granted transaction only, leaves it. -/
theorem not_homeAnswersTaken : ¬ Obligations.HomeAnswersTaken := by
  unfold Obligations.HomeAnswersTaken
  rintro ⟨-, -, -, hack, -⟩
  have hdev : addrDev 0 = claimedTwice.devId := by decide
  obtain ⟨t, hstep, hfree, -⟩ := hack grantedClaim .rdOwn claimant 0 claimedTwice findTxn_claimedTwice rfl rfl hdev
  have hrun := exec_cmpack_granted findTxn_claimedTwice (k := .rdOwn) (r := claimant) rfl rfl hdev
  obtain rfl := Host.Outcome.next.inj (hrun.symm.trans hstep)
  exact Bool.noConfusion (busy_freeLine_claimedTwice.symm.trans hfree)

end Sys2Proof.Machine
end

section
/-! SUPPORT. Sound memory over a step, with O3 (R247, R554). -/

namespace Sys2Proof.Machine

/-- Settles O3: a hub cycle writes no memory, and sound memory is among what every command keeps. -/
theorem stepKeepsMemorySound : Obligations.StepKeepsMemorySound := by
  unfold Obligations.StepKeepsMemorySound
  intro s t hsound hstep
  unfold step at hstep
  cases hq : s.pending with
  | nil =>
    rw [hq] at hstep
    cases hstep
    exact hsound
  | cons i rest =>
    rw [hq] at hstep
    exact (keeps_exec i { s with pending := rest } hstep).mem hsound

end Sys2Proof.Machine
end

section
/-! SUPPORT. The memory channels: what a poll, a retraining, the start of a patrol pass and a scrub read leave of each, with O43
(R242 to R249). -/

namespace Sys2Proof.Machine

/-! ## Channels by number -/

theorem getChan_updChan_eq (s : State) (m n : Nat) (f : Chan → Chan) :
    getChan (updChan s n f) m = if m = n then f (getChan s n) else getChan s m :=
  Table.get_set _ _ _ _

theorem getChan_updChan_self (s : State) (n : Nat) (f : Chan → Chan) : getChan (updChan s n f) n = f (getChan s n) := by
  rw [getChan_updChan_eq, if_pos rfl]

theorem getChan_updChan_ne (s : State) {m n : Nat} (h : m ≠ n) (f : Chan → Chan) :
    getChan (updChan s n f) m = getChan s m := by
  rw [getChan_updChan_eq, if_neg h]

section
variable {α : Type} {key : α → Nat} {f : State → α → State}
  (hother : ∀ t x d, d ≠ key x → getChan (f t x) d = getChan t d)
include hother

/-- Steps that each write their own channel leave a channel that none of them names. -/
theorem getChan_foldl_of_not_mem {xs : List α} {d : Nat} (hd : d ∉ xs.map key) (s : State) :
    getChan (xs.foldl f s) d = getChan s d := by
  induction xs generalizing s with
  | nil => rfl
  | cons x xs ih =>
    rw [List.map_cons, List.mem_cons, not_or] at hd
    exact (ih hd.2 (f s x)).trans (hother s x d hd.1)

/-- A channel that one of them names holds in the end what that one makes of it. -/
theorem getChan_foldl_of_mem {g : Chan → Chan} {xs : List α} (hnodup : (xs.map key).Nodup) {x : α} (hx : x ∈ xs)
    (hself : ∀ t, getChan (f t x) (key x) = g (getChan t (key x))) (s : State) :
    getChan (xs.foldl f s) (key x) = g (getChan s (key x)) := by
  induction xs generalizing s with
  | nil => exact absurd hx List.not_mem_nil
  | cons y ys ih =>
    rw [List.map_cons, List.nodup_cons] at hnodup
    obtain ⟨hy, hys⟩ := hnodup
    rw [List.foldl_cons]
    rcases List.mem_cons.mp hx with rfl | hmem
    · rw [getChan_foldl_of_not_mem hother hy, hself]
    · have hne : key x ≠ key y := fun e => hy (e ▸ List.mem_map_of_mem hmem)
      rw [ih hys hmem, hother s y _ hne]

end

/-! ## Polls and retraining (R242, R244) -/

/-- A poll writes the status of one channel. -/
def pollChan (s : State) (x : Nat × Nat) : State :=
  if x.1 < 64 then updChan s x.1 (fun c => { c with refresh := x.2 }) else s

theorem getChan_pollChan_ne (s : State) (x : Nat × Nat) (d : Nat) (hd : d ≠ x.1) :
    getChan (pollChan s x) d = getChan s d := by
  unfold pollChan
  split
  · exact getChan_updChan_ne s hd _
  · rfl

theorem getChan_pollChan_self {x : Nat × Nat} (hx : x.1 < 64) (s : State) :
    getChan (pollChan s x) x.1 = { getChan s x.1 with refresh := x.2 } := by
  rw [pollChan, if_pos hx, getChan_updChan_self]

theorem exec_mr4Poll {s : State} (hup : hubUp s = true) (st : List (Nat × Nat)) :
    exec (.mr4Poll st) s = .next (st.foldl pollChan s) := by
  show execMr4Poll st s = _
  simp only [execMr4Poll, hup, not_true_eq_false, if_false]
  rfl

theorem packageBusy_of_idle {s : State} {c : Nat} (h : ∀ i < 4, (getChan s (c / 4 * 4 + i)).state ≠ 1) :
    packageBusy s c = false := by
  simpa [packageBusy] using h

theorem exec_memoryRetrain_due {s : State} {c : Nat} (hup : hubUp s = true) (hc : c < 64)
    (honline : (getChan s c).online = true) (hactive : (getChan s c).state = 0) (hpackage : packageBusy s c = false)
    (hdue : (getChan s c).dueAt ≤ now s)
    (hfault : s.mer.fault = false) : exec (.memoryRetrain c) s = .next (updChan s c (fun x => { x with state := 1 })) := by
  show execMemoryRetrain c s = _
  simp [execMemoryRetrain, hup, hc, honline, hactive, hpackage, hdue, hfault]

/-- What the mailboxes hold is no part of memory. -/
theorem updBox_mem (s : State) (m : Mbx) (f : Mailbox → Mailbox) : (updBox s m f).mem = s.mem := by
  cases m <;> rfl

theorem setOutcome_mem (s : State) (m : Mbx) (r : CmdResult) : (setOutcome s m r).mem = s.mem := updBox_mem ..

/-- With no request waiting the end of a wait changes nothing. -/
theorem resumeWaiting_of_none {s : State} (h : s.mem.waiting = []) : resumeWaiting s = s := by
  have hself : { s with mem := { s.mem with waiting := [] } } = s := by rw [← h]
  unfold resumeWaiting
  rw [hself, h, List.foldl_nil]

/-- The channel at the end of its retraining, with its margins and its next planned meridian. -/
def retrained (s : State) (c rd wr : Nat) : State :=
  updChan s c (fun x => { x with
    state := 0, rd := rd, wr := wr, dueAt := (now s + 2 ^ x.interval) % 2 ^ 64
    base := if x.base = 0 then Nat.min rd wr else x.base })

/-- The end of a retraining, with no request waiting for it. -/
theorem exec_memoryRetrainDone {s : State} {c : Nat} (hstate : (getChan s c).state = 1) (hwait : s.mem.waiting = [])
    (rd wr : Nat) : ∃ t, exec (.memoryRetrainDone c rd wr) s = .next t ∧ t.mem = (retrained s c rd wr).mem := by
  have hmem := foldl_part State.mem (f := fun s m =>
    if cmdCode m.2.words = 0x030B ∧ m.2.started ∧ (cmdP m.2.words 1).toNat = c then setOutcome s m.1 (okRes [memChan s c])
    else s)
    (fun t x => by split <;> simp only [setOutcome_mem]) (inProgress (retrained s c rd wr)) (retrained s c rd wr)
  refine ⟨_, ?_, hmem⟩
  show execMemoryRetrainDone c rd wr s = _
  unfold execMemoryRetrainDone
  rw [if_neg (by simp [hstate])]
  exact congrArg Host.Outcome.next (resumeWaiting_of_none ((congrArg Memory.waiting hmem).trans hwait))

theorem getChan_of_mem {s t : State} (h : t.mem = s.mem) (c : Nat) : getChan t c = getChan s c := by
  unfold getChan
  rw [h]

/-! ## The start of a patrol pass (R28, R248) -/

@[simp] theorem logAdd_mem (s : State) (type : Nat) (stamp : Word) (p : List Word) : (logAdd s type stamp p).mem = s.mem := by
  obtain ⟨l, hl⟩ := logAdd_eq s type stamp p
  rw [hl]

/-- The channel is at the first position of a pass. -/
def scrubFirst (s : State) (c : Nat) : State := updChan s c (fun x => { x with scrubPos := 0 })

theorem getChan_scrubFirst {c : Nat} {cs : List Nat} (hnodup : cs.Nodup) (hc : c ∈ cs) (s : State) :
    getChan (cs.foldl scrubFirst s) c = { getChan s c with scrubPos := 0 } :=
  getChan_foldl_of_mem (key := id) (g := fun x => { x with scrubPos := 0 }) (fun t _ _ hd => getChan_updChan_ne t hd _)
    (by simpa using hnodup) hc (fun t => getChan_updChan_self t c (fun x => { x with scrubPos := 0 })) s

theorem foldl_scrubFirst_mem (cs : List Nat) (s : State) :
    ∃ chs, (cs.foldl scrubFirst s).mem = { s.mem with chans := chs } := by
  induction cs generalizing s with
  | nil => exact ⟨s.mem.chans, rfl⟩
  | cons c cs ih =>
    obtain ⟨chs, h⟩ := ih (scrubFirst s c)
    exact ⟨chs, h⟩

/-- The boundary of a pass has come. -/
def passDue (s : State) : State := { s with mem := { s.mem with scrubIdx := now s / 2 ^ 46 } }

section
variable {s : State} (hup : hubUp s = true) (hnew : now s / 2 ^ 46 ≠ s.mem.scrubIdx)
include hup hnew

theorem exec_patrolPassStart_begun (hrun : s.mem.scrubRunning = false) (hfault : s.mer.fault = false) :
    exec .patrolPassStart s = .next ((List.range 64).foldl scrubFirst
      { passDue s with mem := { (passDue s).mem with scrubRunning := true, scrubHeld := false } }) := by
  have hguard : ¬ (hubUp s = false ∨ now s / 2 ^ 46 = s.mem.scrubIdx) := not_or.mpr ⟨by simp [hup], hnew⟩
  exact congrArg Host.Outcome.next
    ((if_neg hguard).trans ((if_neg (by simpa using hrun)).trans (if_neg (by simpa using hfault))))

/-- A boundary that is skipped. -/
theorem exec_patrolPassStart_skipped (hheld : s.mem.scrubRunning = true ∨ s.mer.fault = true) :
    ∃ t, exec .patrolPassStart s = .next t ∧ t.mem = { s.mem with scrubIdx := now s / 2 ^ 46, scrubHeld := true } := by
  have hguard : ¬ (hubUp s = false ∨ now s / 2 ^ 46 = s.mem.scrubIdx) := not_or.mpr ⟨by simp [hup], hnew⟩
  cases hrun : s.mem.scrubRunning with
  | true => exact ⟨_, congrArg Host.Outcome.next ((if_neg hguard).trans (if_pos hrun)), logAdd_mem ..⟩
  | false =>
    have hfault : s.mer.fault = true := hheld.resolve_left (by simp [hrun])
    exact ⟨_, congrArg Host.Outcome.next
      ((if_neg hguard).trans ((if_neg (by simpa using hrun)).trans (if_pos hfault))), rfl⟩

end

/-! ## Symbol errors (R245, R247) -/

@[simp] theorem symbolErrors_nil (poison : Bool) : symbolErrors poison [] = if poison then markerErrors else [] := rfl

theorem symbolErrors_one {j x : Nat} (hx : 0 < x) : symbolErrors false [(j, x)] = [(j, x)] := by
  simp [symbolErrors, Table.upd, Table.set, Table.get, zeroOf, Assoc.put, (Nat.ne_of_gt hx).symm]

theorem symbolErrors_two {j k x y : Nat} (hjk : j < k) (hx : 0 < x) (hy : 0 < y) :
    symbolErrors false [(j, x), (k, y)] = [(j, x), (k, y)] := by
  have hsnd : symbolErrors false [(j, x), (k, y)] = Table.upd zeroOf (symbolErrors false [(j, x)]) k (fun v => v ^^^ y) := rfl
  have hget : Table.get zeroOf [(j, x)] k = 0 := if_neg (Nat.ne_of_lt hjk)
  rw [hsnd, symbolErrors_one hx, Table.upd, hget, Nat.zero_xor, Table.set,
    if_neg (show y ≠ zeroOf k from Nat.ne_of_gt hy)]
  simp [Assoc.put, Nat.ne_of_gt hjk, Nat.not_lt_of_gt hjk]

/-- Their syndrome is the one of the poison marker. -/
def markSeen (errs : List (Nat × Nat)) : Bool := decide (Config.eccSyndrome errs = Config.eccSyndrome markerErrors)

theorem eccEnd_markerErrors : eccEnd markerErrors = .marker := by simp [eccEnd, markerErrors]

theorem eccEnd_of_markSeen {errs : List (Nat × Nat)} (hsome : errs ≠ []) (hmark : markSeen errs = true) :
    eccEnd errs = .marker := by
  rw [eccEnd, if_neg hsome, if_pos (of_decide_eq_true hmark)]

theorem eccEnd_one {j x : Nat} (hmark : markSeen [(j, x)] = false) : eccEnd [(j, x)] = .corrected := by
  rw [eccEnd, if_neg (List.cons_ne_nil _ _), if_neg (of_decide_eq_false hmark), if_pos (by simp)]

/-- Two symbols of different beats are more than the code corrects. -/
theorem eccEnd_two {j k x y : Nat} (hbeat : j / 2 ≠ k / 2) (hmark : markSeen [(j, x), (k, y)] = false) :
    eccEnd [(j, x), (k, y)] = .detected := by
  rw [eccEnd, if_neg (List.cons_ne_nil _ _), if_neg (of_decide_eq_false hmark),
    if_neg (by simpa using hbeat.symm), if_pos (by simp)]

/-! ## Scrub reads (R246, R248, R249, R514) -/

/-- R241's hash finds the channel of each of its positions. -/
theorem chanOf_scrubOffset {c : Nat} (hc : c < 64) (i : Nat) : chanOf (scrubOffset c i / 128 * 128) = c := by
  generalize hy : c ^^^ (i % 64) ^^^ (i / 2 ^ 6 % 64) ^^^ (i / 2 ^ 12 % 64) ^^^ (i / 2 ^ 18 % 64) = y
  have hlt : y < 64 := by
    subst hy
    have hmod (k : Nat) : k % 64 < 2 ^ 6 := Nat.mod_lt _ (by decide)
    have hxor {a : Nat} (ha : a < 2 ^ 6) (k : Nat) : a ^^^ (k % 64) < 2 ^ 6 := Nat.xor_lt_two_pow ha (hmod k)
    exact hxor (hxor (hxor (hxor hc _) _) _) _
  have hf : scrubOffset c i / 128 * 128 = i * 2 ^ 13 + y * 2 ^ 7 := by
    rw [scrubOffset, hy]; omega
  have h0 : (i * 2 ^ 13 + y * 2 ^ 7) / 2 ^ 7 % 64 = y := by omega
  have h1 : (i * 2 ^ 13 + y * 2 ^ 7) / 2 ^ 13 = i := by omega
  have h2 : (i * 2 ^ 13 + y * 2 ^ 7) / 2 ^ 19 = i / 2 ^ 6 := by omega
  have h3 : (i * 2 ^ 13 + y * 2 ^ 7) / 2 ^ 25 = i / 2 ^ 12 := by omega
  have h4 : (i * 2 ^ 13 + y * 2 ^ 7) / 2 ^ 31 = i / 2 ^ 18 := by omega
  rw [hf, chanOf, h0, h1, h2, h3, h4, ← hy]
  simp [Nat.xor_assoc, Nat.xor_comm, Nat.xor_left_comm]

theorem scrubOffset_aligned (c i : Nat) : scrubOffset c i / 128 * 128 = scrubOffset c i := by
  unfold scrubOffset
  omega

/-- The channel goes on to its next line. -/
def scrubNext (s : State) (c : Nat) : State := updChan s c (fun x => { x with scrubPos := x.scrubPos + 1 })

/-- The pass is over where every channel has read its last line. -/
def scrubEnd (v : State) : State :=
  if (List.range 64).all (fun k => decide (scrubLines v ≤ (getChan v k).scrubPos))
  then { v with mem := { v.mem with scrubRunning := false, scrubPasses := satAdd 32 v.mem.scrubPasses 1 } } else v

/-- The error of the link is counted. -/
def linkCounted (s : State) : State := { s with mem := { s.mem with eccLink := satAdd 16 s.mem.eccLink 1 } }

/-- The corrected symbols are counted. -/
def correctionCounted (s : State) : State := { s with mem := { s.mem with eccCe := satAdd 32 s.mem.eccCe 1 } }

/-- The error beyond correction is counted. -/
def lossCounted (s : State) : State := { s with mem := { s.mem with eccUe := satAdd 16 s.mem.eccUe 1 } }

/-- What a scrub read of channel `c` leaves of its link's finding, the line at `a`. -/
def scrubLinked (s : State) (c : Nat) (a : Word) : LinkFinding → State
  | .clean => s
  | .corrected => faultAt (linkCounted s) 0x06 0 0 0 a (BitVec.ofNat 64 (c + 64)) 0
  | .repeated => linkCounted s

/-- The detail word of a scrub read's record of symbol errors. -/
def scrubDetail (c : Nat) (errs : List (Nat × Nat)) : Word :=
  BitVec.ofNat 64 (c + 64 + (Config.eccSyndrome errs).toNat * 2 ^ 32)

section
variable {s : State} {fl c : Nat} {e : ReadFinding} {errs : List (Nat × Nat)}
  (hchan : chanOf (fl * 128) = c) (herrs : symbolErrors (framePoison s fl) e.flips = errs)
include hchan herrs

theorem channelRead_scrub_unerring (hend : eccEnd errs = .good ∨ eccEnd errs = .marker) (zone : Nat) :
    (channelRead s fl zone 0 true e).2 = scrubLinked s c (BitVec.ofNat 64 (fl * 128)) e.link := by
  subst hchan herrs
  rcases hend with h | h <;>
  · simp only [channelRead, h]
    cases e.link <;> rfl

theorem channelRead_scrub_corrected (hend : eccEnd errs = .corrected) (zone : Nat) :
    (channelRead s fl zone 0 true e).2 = faultAt (correctionCounted (scrubLinked s c (BitVec.ofNat 64 (fl * 128)) e.link))
      0x06 0 0 0 (BitVec.ofNat 64 (fl * 128)) (scrubDetail c errs) 0 := by
  subst hchan herrs
  simp only [channelRead, hend]
  cases e.link <;> rfl

theorem channelRead_scrub_detected (hend : eccEnd errs = .detected) (zone : Nat) :
    (channelRead s fl zone 0 true e).2 =
      faultAt (poisonFrame (lossCounted (scrubLinked s c (BitVec.ofNat 64 (fl * 128)) e.link)) fl)
      0x06 2 0 0 (BitVec.ofNat 64 (fl * 128)) (scrubDetail c errs) zone := by
  subst hchan herrs
  simp only [channelRead, hend]
  cases e.link <;> rfl

end

section
variable {s : State} {c : Nat}

/-- A scrub read that may take place. -/
theorem exec_scrubLine (hup : hubUp s = true) (hc : c < 64) (hrun : s.mem.scrubRunning = true)
    (hleft : (getChan s c).scrubPos < scrubLines s) (hstate : (getChan s c).state ≠ 1) (e : ReadFinding) :
    let f := scrubOffset c (getChan s c).scrubPos
    exec (.scrubLine c e) s =
      .next (scrubEnd (channelRead (scrubNext s c) (f / 128) (frameZone s (f / 4096)) 0 true e).2) := by
  have hguard : ¬ (hubUp s = false ∨ 64 ≤ c ∨ s.mem.scrubRunning = false ∨ scrubLines s ≤ (getChan s c).scrubPos ∨
      (getChan s c).state = 1) := by
    simp [hup, hrun, hstate, hc, hleft]
  exact congrArg Host.Outcome.next (if_neg hguard)

/-- The place of the next scrub read of a channel and what it leaves, by how the decoder ends. -/
theorem exec_scrubLine_ends (hup : hubUp s = true) (hc : c < 64) (hrun : s.mem.scrubRunning = true)
    (hleft : (getChan s c).scrubPos < scrubLines s) (hstate : (getChan s c).state ≠ 1) (e : ReadFinding)
    {errs : List (Nat × Nat)} :
    let f := scrubOffset c (getChan s c).scrubPos
    let a := BitVec.ofNat 64 f
    let v := scrubLinked (scrubNext s c) c a e.link
    symbolErrors (framePoison s (f / 128)) e.flips = errs →
    (eccEnd errs = .good ∨ eccEnd errs = .marker → exec (.scrubLine c e) s = .next (scrubEnd v)) ∧
    (eccEnd errs = .corrected → exec (.scrubLine c e) s =
      .next (scrubEnd (faultAt (correctionCounted v) 0x06 0 0 0 a (scrubDetail c errs) 0))) ∧
    (eccEnd errs = .detected → exec (.scrubLine c e) s = .next (scrubEnd (faultAt (poisonFrame (lossCounted v) (f / 128))
      0x06 2 0 0 a (scrubDetail c errs) (frameZone s (f / 4096))))) := by
  intro f a v herrs
  have hexec : exec (.scrubLine c e) s =
      .next (scrubEnd (channelRead (scrubNext s c) (f / 128) (frameZone s (f / 4096)) 0 true e).2) :=
    exec_scrubLine hup hc hrun hleft hstate e
  have hchan : chanOf (f / 128 * 128) = c := chanOf_scrubOffset hc _
  have haddr : BitVec.ofNat 64 (f / 128 * 128) = a := congrArg _ (scrubOffset_aligned c _)
  have herrs' : symbolErrors (framePoison (scrubNext s c) (f / 128)) e.flips = errs := herrs
  refine ⟨fun h => ?_, fun h => ?_, fun h => ?_⟩
  · rw [hexec, channelRead_scrub_unerring hchan herrs' h, haddr]
  · rw [hexec, channelRead_scrub_corrected hchan herrs' h, haddr]
  · rw [hexec, channelRead_scrub_detected hchan herrs' h, haddr]

end

/-- Settles O43: each row's own channel is written as the lemmas above say; a scrub read is settled by how the decoder ends on
the symbols that it met. -/
theorem memoryChannelsServed : Obligations.MemoryChannelsServed := by
  unfold Obligations.MemoryChannelsServed
  refine ⟨fun st s hup hnodup => ?polled, fun c s hup hc honline hactive hpackage hdue hfault => ?begun,
    fun c rd wr s hstate hwait => ?ended, fun s hup hnew => ?started, fun c s hup hc hrun hleft hstate => ?scrubbed⟩
  case polled =>
    refine ⟨_, exec_mr4Poll hup st, fun x hx hlt => ?_, fun c hc => getChan_foldl_of_not_mem getChan_pollChan_ne hc s⟩
    exact getChan_foldl_of_mem (g := fun c => { c with refresh := x.2 }) getChan_pollChan_ne hnodup hx
      (getChan_pollChan_self hlt) s
  case begun =>
    exact ⟨_, exec_memoryRetrain_due hup hc honline hactive (packageBusy_of_idle hpackage) hdue hfault,
      getChan_updChan_self .., fun d hd => getChan_updChan_ne s hd _⟩
  case ended =>
    obtain ⟨t, hexec, hmem⟩ := exec_memoryRetrainDone hstate hwait rd wr
    refine ⟨t, hexec, (getChan_of_mem hmem c).trans (getChan_updChan_self ..), fun d hd => ?_⟩
    exact (getChan_of_mem hmem d).trans (getChan_updChan_ne s hd _)
  case started =>
    by_cases hheld : s.mem.scrubRunning = true ∨ s.mer.fault = true
    · obtain ⟨t, hexec, hmem⟩ := exec_patrolPassStart_skipped hup hnew hheld
      rw [← Bool.not_eq_true, ← Bool.not_eq_true, ← not_or]
      exact ⟨t, hexec, by rw [hmem], fun h => absurd hheld h, fun _ => by rw [hmem]; exact ⟨rfl, rfl, rfl⟩⟩
    · obtain ⟨hrun, hfault⟩ := not_or.mp hheld
      refine ⟨_, exec_patrolPassStart_begun hup hnew (by simpa using hrun) (by simpa using hfault), ?_⟩
      obtain ⟨chs, hmem⟩ := foldl_scrubFirst_mem (List.range 64)
        { passDue s with mem := { (passDue s).mem with scrubRunning := true, scrubHeld := false } }
      rw [hmem]
      exact ⟨rfl, fun _ => ⟨rfl, rfl, fun c hc => getChan_scrubFirst List.nodup_range (List.mem_range.mpr hc) _⟩,
        fun h => absurd h hheld⟩
  case scrubbed =>
    intro f u after a rec4 isMark
    have hends (e : ReadFinding) (errs : List (Nat × Nat)) := exec_scrubLine_ends hup hc hrun hleft hstate e (errs := errs)
    refine ⟨?clean, fun hpoison => ⟨⟨?repeated, ?corrected⟩, fun j x _ hx _ => ?one,
      fun j k x y hjk _ hbeat hx _ hy _ => ?two⟩⟩
    case clean =>
      refine ⟨_, (hends .clean _ (symbolErrors_nil _)).1 ?_, rfl⟩
      split
      · exact .inr eccEnd_markerErrors
      · exact .inl rfl
    case repeated => exact ⟨_, (hends ⟨.repeated, [], false⟩ [] (by rw [hpoison]; rfl)).1 (.inl rfl), rfl⟩
    case corrected => exact ⟨_, (hends ⟨.corrected, [], false⟩ [] (by rw [hpoison]; rfl)).1 (.inl rfl), rfl⟩
    case one =>
      obtain ⟨hmarker, hcorrected, -⟩ := hends ⟨.clean, [(j, x)], false⟩ [(j, x)] (by rw [hpoison, symbolErrors_one hx])
      cases hmark : markSeen [(j, x)] with
      | true =>
        exact ⟨_, hmarker (.inr (eccEnd_of_markSeen (by simp) hmark)), by rw [show isMark [(j, x)] = true from hmark]; rfl⟩
      | false => exact ⟨_, hcorrected (eccEnd_one hmark), by rw [show isMark [(j, x)] = false from hmark]; rfl⟩
    case two =>
      obtain ⟨hmarker, -, hdetected⟩ := hends ⟨.clean, [(j, x), (k, y)], false⟩ [(j, x), (k, y)]
        (by rw [hpoison, symbolErrors_two hjk hx hy])
      cases hmark : markSeen [(j, x), (k, y)] with
      | true =>
        exact ⟨_, hmarker (.inr (eccEnd_of_markSeen (by simp) hmark)), by
          rw [show isMark [(j, x), (k, y)] = true from hmark]; rfl⟩
      | false =>
        exact ⟨_, hdetected (eccEnd_two hbeat hmark), by rw [show isMark [(j, x), (k, y)] = false from hmark]; rfl⟩

end Sys2Proof.Machine
end

section
/-! SUPPORT. What no report to the fault collector writes, with all the reactions that a report sets going: stamps, posts to
zones, resets, lost cores (R513 to R530). -/

namespace Sys2Proof.Machine

/-- The parts of a state that no report writes. -/
structure Unreported where
  part : Part
  devId : Nat
  mer : Meridian
  vin : Vintage
  staged : Staged
  marks : Table Nat
  fab : Fabric
  mov : Movers
  cip : Cipher
  bnd : Bonded
  pending : List Instr

def unreported (s : State) : Unreported :=
  ⟨s.part, s.devId, s.mer, s.vin, s.staged, s.marks, s.fab, s.mov, s.cip, s.bnd, s.pending⟩

/-- A reporter that writes none of them. -/
structure RepUnreported (rep : Reporter) : Prop where
  fault : ∀ r s, unreported (rep.fault r s) = unreported s
  low : ∀ z s, unreported (rep.low z s) = unreported s

/-! ## The named updates of a state -/

@[simp] theorem updCore_unreported (s : State) (n : Nat) (f : Core → Core) : unreported (updCore s n f) = unreported s := rfl
@[simp] theorem updDom_unreported (s : State) (d : Nat) (f : Domain → Domain) : unreported (updDom s d f) = unreported s := rfl
@[simp] theorem updZone_unreported (s : State) (z : Nat) (f : Zone → Zone) : unreported (updZone s z f) = unreported s := rfl
@[simp] theorem updVcore_unreported (s : State) (z v : Nat) (f : Vcore → Vcore) :
    unreported (updVcore s z v f) = unreported s := rfl
@[simp] theorem updList_unreported (s : State) (z : Nat) (f : FreeList → FreeList) :
    unreported (updList s z f) = unreported s := rfl
@[simp] theorem setPage_unreported (s : State) (p : Nat) (e : PageEnt) : unreported (setPage s p e) = unreported s := rfl
@[simp] theorem setLine_unreported (s : State) (q gl : Nat) (l : AgentLine) :
    unreported (setLine s q gl l) = unreported s := rfl
@[simp] theorem setDir_unreported (s : State) (li : Nat) (e : DirEntry) : unreported (setDir s li e) = unreported s := rfl

/-! ## Stamps, the logbook, flits -/

@[simp] theorem issueStamp_unreported (s : State) (unit : Nat) : unreported (issueStamp s unit).2 = unreported s := rfl

theorem logPump_unreported (s : State) : unreported (logPump s) = unreported s := by
  grind [unreported, logPump]

theorem logPut_unreported (s : State) (e : LogEntry) : unreported (logPut s e) = unreported s := by
  grind [unreported, logPut, logPump_unreported]

theorem logAdd_unreported (s : State) (type : Nat) (stamp : Word) (p : List Word) :
    unreported (logAdd s type stamp p) = unreported s := logPut_unreported ..

@[simp] theorem issueCoreStamp_unreported (s : State) (n : Nat) : unreported (issueCoreStamp s n).2 = unreported s := rfl

@[simp] theorem nextFree_unreported (s : State) : unreported (nextFree s) = unreported s := rfl

/-! ## Memory and the accesses of engines (R246 to R260) -/

@[simp] theorem writeFrame_unreported (s : State) (fl key : Nat) (x : Line) :
    unreported (writeFrame s fl key x) = unreported s := rfl

@[simp] theorem poisonFrame_unreported (s : State) (fl : Nat) : unreported (poisonFrame s fl) = unreported s := by
  grind [unreported, poisonFrame, writeFrame_unreported]

theorem popFrame_unreported {s t : State} {z f : Nat} {due : Bool} (h : popFrame s z = some (f, due, t)) :
    unreported t = unreported s := by
  grind [popFrame, updList_unreported]

@[simp] theorem touchPage_unreported (s : State) (page : Nat) : unreported (touchPage s page) = unreported s := rfl

@[simp] theorem markGrans_unreported (s : State) (gs : List Nat) (u : Bool) :
    unreported (markGrans s gs u) = unreported s := rfl

theorem freeImage_unreported (s : State) (page : Nat) : unreported (freeImage s page) = unreported s := by
  grind [unreported, freeImage, markGrans_unreported]

theorem writePage_unreported (s : State) (frame zone : Nat) (page : List Byte) :
    unreported (writePage s frame zone page) = unreported s :=
  foldl_part unreported (by intros; rfl) ..

theorem decantInto_unreported (s : State) (page frame : Nat) : unreported (decantInto s page frame).2 = unreported s := by
  have hpoison := foldl_part unreported poisonFrame_unreported (frameLines frame) s
  grind [unreported, decantInto, setPage_unreported, freeImage_unreported, writePage_unreported]

theorem engineLine_unreported (rep : Reporter) (s : State) (off zone : Nat) (world : Bool) (stamp : Word)
    (hrep : RepUnreported rep) :
    unreported (engineLine rep s off zone world stamp).2 = unreported s := by
  grind [unreported, engineLine, touchPage_unreported, decantInto_unreported, updZone_unreported, popFrame_unreported,
    RepUnreported]

@[simp] theorem cleanNears_unreported (s : State) (q gl : Nat) : unreported (cleanNears s q gl) = unreported s := rfl

theorem writeZoneLine_unreported (s : State) (fl zone : Nat) (poison : Bool) (l : Line) :
    unreported (writeZoneLine s fl zone poison l) = unreported s := by
  grind [writeZoneLine, poisonFrame_unreported, writeFrame_unreported]

theorem cleanLineAt_unreported (s : State) (off fl : Nat) : unreported (cleanLineAt s off fl) = unreported s := by
  unfold cleanLineAt
  exact foldl_part unreported (by grind [setLine_unreported, cleanNears_unreported, writeZoneLine_unreported]) ..

theorem readNow_unreported (rep : Reporter) (s : State) (addr : Word) (n zone : Nat) (world : Bool) (stamp : Word)
    (hrep : RepUnreported rep) : unreported (readNow rep s addr n zone world stamp).2 = unreported s := by
  grind [readNow, engineLine_unreported, cleanLineAt_unreported, RepUnreported]

@[simp] theorem dropQuadCopies_unreported (s : State) (q gl : Nat) (keep : Option Nat) :
    unreported (dropQuadCopies s q gl keep) = unreported s := rfl

theorem dropLine_unreported (s : State) (q gl : Nat) : unreported (dropLine s q gl) = unreported s := by
  grind [dropLine, dropQuadCopies_unreported, setLine_unreported]

@[simp] theorem sendFlit_unreported (s : State) (f : Flit) : unreported (sendFlit s f) = unreported s := rfl

@[simp] theorem sendSnoop_unreported (s : State) (op : FlitOp) (a : Agent) (nf : Bool) (zone : Nat) (stamp addr : Word) :
    unreported (sendSnoop s op a nf zone stamp addr) = unreported s := rfl

theorem takeLine_unreported (s : State) (off fl : Nat) (keep : Bool) : unreported (takeLine s off fl keep) = unreported s := by
  unfold takeLine
  rw [setDir_unreported]
  exact foldl_part unreported
    (by grind [writeZoneLine_unreported, dropLine_unreported, nextFree_unreported, writeFrame_unreported,
      issueStamp_unreported, sendSnoop_unreported]) ..

theorem messageStamp_unreported (s : State) (stamp : Word) : unreported (messageStamp s stamp).2 = unreported s := by
  grind [messageStamp, issueStamp_unreported, issueCoreStamp_unreported]

theorem postReq_unreported (s : State) (quad core : Nat) (k : ReqKind) (addr : Word) (zone : Nat) (world forStore : Bool)
    (stamp : Word) : unreported (postReq s quad core k addr zone world forStore stamp).2 = unreported s := by
  grind [unreported, postReq, messageStamp_unreported, sendFlit_unreported]

theorem askHome_unreported (s : State) (addr : Word) (n zone : Nat) (world : Bool) (stamp : Word) :
    unreported (askHome s addr n zone world stamp).2 = unreported s := by
  grind [askHome, nextFree_unreported, postReq_unreported]

theorem readOne_unreported (rep : Reporter) (s : State) (addr : Word) (n zone : Nat) (world : Bool) (stamp : Word)
    (hrep : RepUnreported rep) : unreported (readOne rep s addr n zone world stamp).2 = unreported s := by
  grind [readOne, readNow_unreported, askHome_unreported, RepUnreported]

theorem engRead_unreported (rep : Reporter) (fuel : Nat) (s : State) (addr : Word) (n zone : Nat) (world : Bool)
    (stamp : Word) (hrep : RepUnreported rep) : unreported (engRead rep fuel s addr n zone world stamp).2 = unreported s := by
  induction fuel generalizing s addr n with
  | zero => rfl
  | succ fuel ih => grind [engRead, readOne_unreported]

theorem engWords_unreported (rep : Reporter) (s : State) (addr : Word) (n zone : Nat) (world : Bool)
    (hrep : RepUnreported rep) :
    unreported (engWords rep s addr n zone world).2 = unreported s := by
  grind [engWords, engRead_unreported, RepUnreported]

theorem writeOne_unreported (rep : Reporter) (s : State) (addr : Word) (bs : List Byte) (zone : Nat) (world : Bool)
    (stamp : Word) (hrep : RepUnreported rep) : unreported (writeOne rep s addr bs zone world stamp).2 = unreported s := by
  grind [writeOne, postReq_unreported, engineLine_unreported, takeLine_unreported, writeFrame_unreported,
    nextFree_unreported, RepUnreported]

theorem engWrite_unreported (rep : Reporter) (fuel : Nat) (s : State) (addr : Word) (bs : List Byte) (zone : Nat)
    (world : Bool) (stamp : Word) (hrep : RepUnreported rep) :
    unreported (engWrite rep fuel s addr bs zone world stamp).2 = unreported s := by
  induction fuel generalizing s addr bs with
  | zero => rfl
  | succ fuel ih => grind [engWrite, writeOne_unreported]

theorem engPutWords_unreported (rep : Reporter) (s : State) (addr : Word) (ws : List Word) (zone : Nat) (stamp : Word)
    (hrep : RepUnreported rep) : unreported (engPutWords rep s addr ws zone stamp).2 = unreported s := by
  grind [engPutWords, engWrite_unreported, RepUnreported]

/-! ## Posting to zones (R435 to R448) -/

theorem ringDoorbell_unreported (s : State) (zone vcid : Nat) : unreported (ringDoorbell s zone vcid) = unreported s := by
  grind [unreported, ringDoorbell, updVcore_unreported]

theorem zoneEntry_unreported (rep : Reporter) (s : State) (z : Nat) (hrep : RepUnreported rep) :
    unreported (zoneEntry rep s z).2 = unreported s := by
  grind [zoneEntry, engWords_unreported, updZone_unreported, RepUnreported]

theorem unposted_unreported (rep : Reporter) (s : State) (e : RingEntry) (hrep : RepUnreported rep) :
    unreported (unposted rep s e) = unreported s := by
  grind [unreported, unposted, ringDoorbell_unreported, RepUnreported]

theorem vcoreEntry_unreported (rep : Reporter) (s : State) (ze : List Word) (zone vcid : Nat) (hrep : RepUnreported rep) :
    unreported (vcoreEntry rep s ze zone vcid).2.2 = unreported s := by
  grind [unreported, vcoreEntry, engWords_unreported, RepUnreported]

theorem postRing_unreported (rep : Reporter) (s : State) (e : RingEntry) (retry : Bool) (hrep : RepUnreported rep) :
    unreported (postRing rep s e retry) = unreported s := by
  fun_cases postRing rep s e retry <;> grind [unreported, zoneEntry_unreported, unposted_unreported, vcoreEntry_unreported,
    engWords_unreported, updZone_unreported,
    engPutWords_unreported, ringDoorbell_unreported, RepUnreported]

theorem vectorEnabled_unreported (rep : Reporter) (s : State) (e : RingEntry) (hrep : RepUnreported rep) :
    unreported (vectorEnabled rep s e).2 = unreported s := by
  grind [vectorEnabled, zoneEntry_unreported, engWords_unreported, RepUnreported]

theorem postEntry_unreported (rep : Reporter) (s : State) (e : RingEntry) (hrep : RepUnreported rep) :
    unreported (postEntry rep s e) = unreported s := by
  grind [unreported, postEntry, updZone_unreported, vectorEnabled_unreported, unposted_unreported, postRing_unreported,
    RepUnreported]

theorem postEvent_unreported (rep : Reporter) (s : State) (zone kind : Nat) (stamp detail : Word) (hrep : RepUnreported rep) :
    unreported (postEvent rep s zone kind stamp detail) = unreported s := by
  grind [postEvent, zoneEntry_unreported, unposted_unreported, postEntry_unreported, RepUnreported]

theorem postLow_unreported (rep : Reporter) (z : Nat) (s : State) (hrep : RepUnreported rep) :
    unreported (postLow rep z s) = unreported s := by
  grind [postLow, issueStamp_unreported, postEvent_unreported, RepUnreported]

/-! ## Zone resets and lost cores (R164 to R168, R454) -/

theorem requestReset_unreported (s : State) (z : Nat) (waiter : Option Mbx) (kind rzone : Nat) :
    unreported (requestReset s z waiter kind rzone).2 = unreported s := by
  fun_cases requestReset s z waiter kind rzone
  case case4 =>
    dsimp only
    rw [foldl_part unreported]
    · exact (congrArg (fun e => unreported e.2) ‹issueStamp s 0x62 = _›).symm
    · intros; rfl
  all_goals rfl

@[simp] theorem putImage_unreported (s : State) (n : Nat) (im : StateImage) : unreported (putImage s n im) = unreported s := rfl

@[simp] theorem storeOwned_unreported (s : State) (n : Nat) (addr : Word) (bs : List Byte) (bnd : Bool) :
    unreported (storeOwned s n addr bs bnd) = unreported s := rfl

theorem drainOwned_unreported (n : Nat) (es : List BufEntry) (s : State) : unreported (drainOwned n es s).2 = unreported s := by
  induction es generalizing s with
  | nil => rfl
  | cons e es ih => grind [drainOwned, storeOwned_unreported]

theorem imageStores_unreported (rep : Reporter) (es : List BufEntry) (s : State) (hrep : RepUnreported rep) :
    unreported (imageStores rep es s).2 = unreported s := by
  unfold imageStores
  exact foldl_part unreported (by grind [engWrite_unreported, RepUnreported]) ..

theorem spareGone_unreported (s : State) (n : Nat) : unreported (spareGone s n) = unreported s := by
  grind [unreported, spareGone]

theorem loseCore_unreported (rep : Reporter) (s : State) (n reason : Nat) (ok : Bool) (hrep : RepUnreported rep) :
    unreported (loseCore rep s n reason ok) = unreported s := by
  grind [unreported, loseCore, drainOwned_unreported, imageStores_unreported, spareGone_unreported, putImage_unreported,
    updCore_unreported, updVcore_unreported,
    logAdd_unreported, postEvent_unreported, RepUnreported]

/-! ## The fault collector (R513 to R530) -/

@[simp] theorem driveErr_unreported (s : State) : unreported (driveErr s) = unreported s := rfl

theorem checkstop_unreported (s : State) (x : FRec) : unreported (checkstop s x) = unreported s := by
  grind [unreported, checkstop, logPump_unreported]

theorem isolate_unreported (rep : Reporter) (s : State) (q : Nat) (stamp : Word) (hrep : RepUnreported rep) :
    unreported (isolate rep s q stamp) = unreported s := by
  unfold isolate
  dsimp only
  split
  · rfl
  · rw [foldl_part unreported (by grind [loseCore_unreported, updCore_unreported])]
    exact foldl_part unreported (by intros; rfl) ..

theorem react_unreported (rep : Reporter) (s : State) (x : FRec) (l : Nat) (hrep : RepUnreported rep) :
    unreported (react rep s x l) = unreported s := by
  grind [unreported, react, postEvent_unreported, driveErr_unreported, checkstop_unreported, requestReset_unreported,
    isolate_unreported, RepUnreported]

theorem recordOnly_unreported (s : State) (r : Report) : unreported (recordOnly s r).2 = unreported s := by
  grind [unreported, recordOnly, issueStamp_unreported, logPut_unreported]

theorem repUnreported_reporter (n : Nat) : RepUnreported (reporter n) := by
  induction n with
  | zero => exact ⟨fun r s => recordOnly_unreported s r, fun _ _ => rfl⟩
  | succ n ih =>
    refine ⟨fun r s => ?_, fun z s => postLow_unreported _ z s ih⟩
    have hrecord := recordOnly_unreported s r
    unfold reporter
    dsimp only
    split
    next hnone => rwa [hnone] at hrecord
    next hsome =>
      rw [hsome] at hrecord
      exact (react_unreported _ _ _ _ ih).trans hrecord

theorem repUnreported_rep : RepUnreported rep := repUnreported_reporter 8

theorem fault_unreported (s : State) (r : Report) : unreported (fault s r) = unreported s := repUnreported_rep.fault r s

theorem faultAt_unreported (s : State) (source cls reason : Nat) (stamp addr detail : Word) (zone : Nat) :
    unreported (faultAt s source cls reason stamp addr detail zone) = unreported s := by
  grind [faultAt, fault_unreported]

end Sys2Proof.Machine
end

section
/-! SUPPORT. The cellar: what the end of a cellaring and of a decant leave of memory (R253 to R259). -/

namespace Sys2Proof.Machine

/-! ## Memory but for the contents of its lines -/

/-- Memory without the contents of its lines. -/
def memBooks (m : Memory) : Memory := { m with bytes := [], keys := [], poison := [] }

section
variable {m m' : Memory} (h : memBooks m = memBooks m')
include h

theorem pages_of_books : m.pages = m'.pages := (congrArg Memory.pages h :)

theorem lists_of_books : m.lists = m'.lists := (congrArg Memory.lists h :)

theorem cellared_of_books : m.cellared = m'.cellared := (congrArg Memory.cellared h :)

theorem usedGran_of_books : m.usedGran = m'.usedGran := (congrArg Memory.usedGran h :)

theorem cellarings_of_books : m.cellarings = m'.cellarings := (congrArg Memory.cellarings h :)

theorem decants_of_books : m.decants = m'.decants := (congrArg Memory.decants h :)

end

theorem writeImage_books (s : State) (im : CellImage) (page : Nat) :
    memBooks (writeImage s im page).mem = memBooks s.mem := by
  unfold writeImage
  exact foldl_part (fun t : State => memBooks t.mem) (by intros; rfl) ..

theorem writePage_books (s : State) (frame zone : Nat) (page : List Byte) :
    memBooks (writePage s frame zone page).mem = memBooks s.mem := by
  unfold writePage
  exact foldl_part (fun t : State => memBooks t.mem) (by intros; rfl) ..

/-- Marked granules read as marked, the others as before. -/
theorem get_markGrans (s : State) (gs : List Nat) (u : Bool) (g : Nat) :
    Table.get noFlag (markGrans s gs u).mem.usedGran g = if g ∈ gs then u else Table.get noFlag s.mem.usedGran g := by
  induction gs generalizing s with
  | nil => rfl
  | cons x gs ih =>
    have hstep : Table.get noFlag (markGrans s [x] u).mem.usedGran g = if g = x then u else Table.get noFlag s.mem.usedGran g :=
      Table.get_set _ _ _ _
    refine (ih (markGrans s [x] u)).trans ?_
    rw [hstep]
    by_cases hg : g ∈ gs <;> by_cases hx : g = x <;> simp [hg, hx]

/-! ## Jobs and results -/

/-- A job that ends leaves the engines and their queue; nothing else of the state is written. -/
theorem freeEngine_eq (s : State) (j : CmpJob) : ∃ k, freeEngine s j = { s with cmp := k } := by
  unfold freeEngine
  split
  · exact ⟨_, rfl⟩
  · exact ⟨s.cmp, rfl⟩

theorem endJob_eq (s : State) (j : CmpJob) : ∃ k, endJob s j = { s with cmp := k } :=
  freeEngine_eq { s with cmp := { s.cmp with queue := s.cmp.queue.filter (· != j) } } j

theorem endCellaring_mem (s : State) (c : Cellaring) (code : Nat) : (endCellaring s c code).mem =
    { s.mem with cellarings := s.mem.cellarings.filter (fun x => !(x.mbx == c.mbx && x.idx == c.idx)) } := by
  obtain ⟨k, hfree⟩ := freeEngine_eq s (.cellaring c.page)
  obtain ⟨k', hend⟩ := endJob_eq s (.cellaring c.page)
  unfold endCellaring cellarResult
  rw [hfree, hend, updBox_mem]
  split
  · rfl
  · split <;> rfl

/-- A command with no page left has its outcome, which is no part of memory. -/
theorem runCellar_mem_of_none {s : State} {m : Mbx} (h : s.mem.cellarings.filter (fun c => c.mbx == m) = []) (n : Nat) :
    (runCellar (n + 1) s m).mem = s.mem := by
  unfold runCellar
  rw [h]
  dsimp only
  split
  · exact setOutcome_mem ..
  · rfl

/-! ## The one cellaring of a page and of a command -/

section
variable {s : State} {page : Nat} {c : Cellaring}

theorem find?_of_filter_eq {α : Type} {l : List α} {p q : α → Bool} {a : α} (h : l.filter q = [a])
    (hpq : ∀ x, p x = true → q x = true) (ha : p a = true) : l.find? p = some a := by
  have hp : l.filter p = (l.filter q).filter p := by
    rw [List.filter_filter]
    exact List.filter_congr fun x _ => by cases hx : p x <;> simp [hx, hpq x]
  rw [← List.head?_filter, hp, h, List.filter_cons_of_pos ha]
  rfl

variable (hone : s.mem.cellarings.filter (fun x => x.mbx == c.mbx || x.page == page) = [c])
include hone

/-- The page's cellaring leaves the list, and with it the last one of its command. -/
theorem endCellaring_last {v : State} (hv : v.mem.cellarings = s.mem.cellarings) (code : Nat) :
    (runCellar 33 (endCellaring v c code) c.mbx).mem = { v.mem with cellarings := s.mem.cellarings.filter (· != c) } := by
  have hbox {x : Cellaring} (hx : x ∈ s.mem.cellarings) (hm : x.mbx = c.mbx) : x = c := by
    have : x ∈ s.mem.cellarings.filter (fun x => x.mbx == c.mbx || x.page == page) := List.mem_filter.mpr ⟨hx, by simp [hm]⟩
    rw [hone] at this
    exact List.mem_singleton.mp this
  have hleft : s.mem.cellarings.filter (fun x => !(x.mbx == c.mbx && x.idx == c.idx)) = s.mem.cellarings.filter (· != c) := by
    refine List.filter_congr fun x hx => ?_
    by_cases hxc : x = c
    · simp [hxc]
    · have hm : x.mbx ≠ c.mbx := fun hm => hxc (hbox hx hm)
      rw [beq_false_of_ne hm, bne_iff_ne.mpr hxc]
      rfl
  have hmem : (endCellaring v c code).mem = { v.mem with cellarings := s.mem.cellarings.filter (· != c) } := by
    rw [endCellaring_mem, hv, hleft]
  rw [runCellar_mem_of_none, hmem]
  rw [hmem]
  refine List.filter_eq_nil_iff.mpr fun x hx => ?_
  obtain ⟨hx, hne⟩ := List.mem_filter.mp hx
  simp only [beq_iff_eq]
  exact fun hm => by simp [hbox hx hm] at hne

/-- The row finds it where it is on an engine, or was touched. -/
theorem exec_cellaringCompressed_touched (hpage : c.page = page) (hphase : c.phase = 8 ∨ c.phase = 9) (ok : Bool) :
    exec (.cellaringCompressed page ok) s = .next (runCellar 33 (endCellaring s c 0x0305) c.mbx) := by
  have hfind : s.mem.cellarings.find? (fun c => c.page == page &&
      (c.phase == 8 || c.phase == 9 || (c.phase == 2 && (engineOf s (.cellaring page)).isSome))) = some c :=
    find?_of_filter_eq hone (fun x hx => by simp_all) (by rcases hphase with h | h <;> simp [hpage, h])
  show execCellaringCompressed page ok s = _
  simp only [execCellaringCompressed, hfind, if_pos hphase]

theorem exec_cellaringCompressed_verified {bytes : List Byte} (hpage : c.page = page) (hphase : c.phase = 2)
    (heng : (engineOf s (.cellaring page)).isSome) (hcontent : pageContent s page = (bytes, false))
    (hzero : (s.mem.zeroEn && bytes.all (· == 0)) = false) :
    (lzPage (min 3071 (128 * s.mem.maxGran)) bytes = none →
      exec (.cellaringCompressed page true) s = .next (runCellar 33 (endCellaring (unTransit s page) c 0x0303) c.mbx)) ∧
    ∀ im, lzPage (min 3071 (128 * s.mem.maxGran)) bytes = some im →
      exec (.cellaringCompressed page true) s = .next (runCellar 33 (storeImage s c bytes im) c.mbx) := by
  have hfind : s.mem.cellarings.find? (fun c => c.page == page &&
      (c.phase == 8 || c.phase == 9 || (c.phase == 2 && (engineOf s (.cellaring page)).isSome))) = some c :=
    find?_of_filter_eq hone (fun x hx => by simp_all) (by simp [hpage, hphase, heng])
  have hwhole : ¬ (s.mem.zeroEn = true ∧ bytes.all (· == 0) = true) := by
    rw [← Bool.and_eq_true, hzero]
    simp
  have huntouched : ¬ (c.phase = 8 ∨ c.phase = 9) := by omega
  refine ⟨fun hlz => ?_, fun im hlz => ?_⟩ <;>
  · show execCellaringCompressed page true s = _
    simp only [execCellaringCompressed, hfind, if_neg huntouched, hcontent, Bool.false_eq_true, if_false, Bool.true_eq_false,
      if_neg hwhole, hlz]

end

/-! ## The image of a page (R253 to R256) -/

/-- The image that a cellaring stores. -/
def storedImage (s : State) (c : Cellaring) (page image : List Byte) (gs : List Nat) : CellImage :=
  let z := (getPage s c.page).zone
  ⟨gs.headD 0, gs.drop 1, image.length, crc32c page, z, now s, image, keyTag s z, false⟩

/-- The image is in its granules and the page out of its frame. -/
def stored (s : State) (c : Cellaring) (page image : List Byte) (gs : List Nat) : State :=
  let e := getPage s c.page
  let im := storedImage s c page image gs
  let t := writeImage (markGrans s gs true) im c.page
  let t := { t with mem := { t.mem with
    cellared := Assoc.put t.mem.cellared c.page im, granStart := (gs.getLastD 0 + 1) % 2 ^ 31 } }
  pushFrame (setPage t c.page ⟨1, e.zone, e.pin, false, gs.headD 0⟩) e.zone e.loc

theorem storeImage_of_room {s : State} {c : Cellaring} {page image : List Byte} {gs : List Nat}
    (h : findGrans s.mem ((image.length + 127) / 128 + 1) = some gs) :
    storeImage s c page image = endCellaring (stored s c page image gs) c 0x0300 := by
  unfold storeImage
  simp only [h]
  rfl

theorem storeImage_of_full {s : State} {c : Cellaring} {page image : List Byte}
    (h : findGrans s.mem ((image.length + 127) / 128 + 1) = none) :
    storeImage s c page image = endCellaring (unTransit s c.page) c 0x0304 := by
  unfold storeImage
  simp only [h]

/-- What the stored image leaves of memory, but for the contents of its lines. -/
def storedBooks (s : State) (c : Cellaring) (page image : List Byte) (gs : List Nat) (m : Memory) : Memory :=
  let e := getPage s c.page
  { m with
    cellared := Assoc.put m.cellared c.page (storedImage s c page image gs)
    granStart := (gs.getLastD 0 + 1) % 2 ^ 31
    pages := Table.set PageEnt.start m.pages c.page ⟨1, e.zone, e.pin, false, gs.headD 0⟩
    lists := Table.upd listOf m.lists e.zone (fun l =>
      { l with frames := e.loc :: l.frames, lowSent := l.lowSent && decide ((e.loc :: l.frames).length ≤ l.lowMark) }) }

theorem storedBooks_congr {m m' : Memory} (h : memBooks m = memBooks m') (s : State) (c : Cellaring) (page image : List Byte)
    (gs : List Nat) : memBooks (storedBooks s c page image gs m) = memBooks (storedBooks s c page image gs m') :=
  congrArg (storedBooks s c page image gs) h

section
variable (s : State) (c : Cellaring) (page image : List Byte) (gs : List Nat)

theorem stored_books :
    memBooks (stored s c page image gs).mem = memBooks (storedBooks s c page image gs (markGrans s gs true).mem) :=
  storedBooks_congr (writeImage_books ..) ..

theorem stored_cellarings : (stored s c page image gs).mem.cellarings = s.mem.cellarings :=
  (cellarings_of_books (stored_books s c page image gs)).trans rfl

theorem getPage_stored (p : Nat) : getPage (stored s c page image gs) p = if p = c.page then
    ⟨1, (getPage s c.page).zone, (getPage s c.page).pin, false, gs.headD 0⟩ else getPage s p := by
  unfold getPage
  rw [pages_of_books (stored_books ..)]
  dsimp only [storedBooks]
  rw [Table.get_set]
  rfl

theorem cellared_stored :
    Assoc.get (stored s c page image gs).mem.cellared c.page = some (storedImage s c page image gs) := by
  rw [cellared_of_books (stored_books ..)]
  exact (Assoc.get_put ..).trans (if_pos rfl)

theorem usedGran_stored {g : Nat} (hg : g ∈ gs) :
    Table.get noFlag (stored s c page image gs).mem.usedGran g = true := by
  rw [usedGran_of_books (stored_books ..)]
  exact (get_markGrans s gs true g).trans (if_pos hg)

theorem frames_stored :
    (getPage s c.page).loc ∈ (getList (stored s c page image gs) (getPage s c.page).zone).frames := by
  unfold getList
  rw [lists_of_books (stored_books ..)]
  dsimp only [storedBooks]
  rw [Table.get_upd, if_pos rfl]
  exact List.mem_cons_self

end

/-- The end of a cellaring whose content was verified: it leaves the list whatever came of it, and an image that fits is
stored. -/
theorem exec_cellaringCompressed_stored {s : State} {c : Cellaring} {bytes : List Byte}
    (hone : s.mem.cellarings.filter (fun x => x.mbx == c.mbx || x.page == c.page) = [c]) (hphase : c.phase = 2)
    (heng : (engineOf s (.cellaring c.page)).isSome) (hcontent : pageContent s c.page = (bytes, false))
    (hzero : (s.mem.zeroEn && bytes.all (· == 0)) = false) :
    ∃ t, exec (.cellaringCompressed c.page true) s = .next t ∧ t.mem.cellarings = s.mem.cellarings.filter (· != c) ∧
      ∀ im gs, lzPage (min 3071 (128 * s.mem.maxGran)) bytes = some im →
        findGrans s.mem ((im.length + 127) / 128 + 1) = some gs →
        t.mem = { (stored s c bytes im gs).mem with cellarings := s.mem.cellarings.filter (· != c) } := by
  obtain ⟨hnone, hsome⟩ := exec_cellaringCompressed_verified hone rfl hphase heng hcontent hzero
  cases hlz : lzPage (min 3071 (128 * s.mem.maxGran)) bytes with
  | none => exact ⟨_, hnone hlz, by rw [endCellaring_last (v := unTransit s c.page) hone rfl], fun im gs him => nomatch him⟩
  | some im =>
    cases hgs : findGrans s.mem ((im.length + 127) / 128 + 1) with
    | none =>
      refine ⟨_, hsome im hlz, ?_, fun im' gs him hgs' => ?_⟩
      · rw [storeImage_of_full hgs, endCellaring_last (v := unTransit s c.page) hone rfl]
      · rw [← Option.some.inj him, hgs] at hgs'
        exact nomatch hgs'
    | some gs =>
      have hmem := endCellaring_last hone (stored_cellarings s c bytes im gs) 0x0300
      rw [← storeImage_of_room hgs] at hmem
      refine ⟨_, hsome im hlz, congrArg Memory.cellarings hmem, fun im' gs' him hgs' => ?_⟩
      obtain rfl := Option.some.inj him
      obtain rfl := Option.some.inj (hgs.symm.trans hgs')
      exact hmem

/-! ## Decants (R258, R259) -/

/-- The page is mapped to its frame and its granules are free. -/
def decantMapped (s : State) (page : Nat) (e : PageEnt) : State :=
  let t := setPage (freeImage s page) page e
  { t with mem := { t.mem with decantCnt := satAdd 32 t.mem.decantCnt 1 } }

theorem decantMapped_mem {s : State} {page : Nat} {im : CellImage} (hget : Assoc.get s.mem.cellared page = some im)
    (e : PageEnt) : (decantMapped s page e).mem = { (markGrans s (im.desc :: im.grans) false).mem with
      cellared := Assoc.del s.mem.cellared page, pages := Table.set PageEnt.start s.mem.pages page e
      decantCnt := satAdd 32 s.mem.decantCnt 1 } := by
  unfold decantMapped freeImage
  simp only [hget]
  rfl

/-- The end of a decant of a page with content `p`. -/
def decantDone (s : State) (page frame : Nat) (p : List Byte) : State :=
  decantMapped (writePage s frame (getPage s page).zone p) page
    ⟨0, (getPage s page).zone, (getPage s page).pin, false, frame⟩

section
variable {s : State} {page : Nat} {im : CellImage} (hget : Assoc.get s.mem.cellared page = some im) (e : PageEnt)
include hget

theorem getPage_decantMapped : getPage (decantMapped s page e) page = e := by
  unfold getPage
  rw [decantMapped_mem hget]
  exact (Table.get_set s.mem.pages page page e).trans (if_pos rfl)

theorem bytes_decantMapped : (decantMapped s page e).mem.bytes = s.mem.bytes := by
  rw [decantMapped_mem hget]
  rfl

theorem decants_decantMapped : (decantMapped s page e).mem.decants = s.mem.decants := by
  rw [decantMapped_mem hget]
  rfl

theorem cellared_decantMapped : Assoc.get (decantMapped s page e).mem.cellared page = none := by
  rw [decantMapped_mem hget]
  exact (Assoc.get_del ..).trans (if_pos rfl)

theorem usedGran_decantMapped {g : Nat} (hg : g ∈ im.desc :: im.grans) :
    Table.get noFlag (decantMapped s page e).mem.usedGran g = false := by
  rw [decantMapped_mem hget]
  exact (get_markGrans s _ false g).trans (if_pos hg)

end

theorem decantInto_of_content {s : State} {page : Nat} {im : CellImage} {p : List Byte}
    (hget : Assoc.get s.mem.cellared page = some im) (hp : expandImage s im = some p) (frame : Nat) :
    decantInto s page frame = (false, decantDone s page frame p) := by
  unfold decantInto
  simp only [hget, Option.bind_some, hp]
  rfl

theorem resendPage_mem (s : State) (page : Nat) : (resendPage s page).mem = s.mem := by
  have hoffer (t : State) (li : Nat) : (offerLine t li).mem = t.mem := by
    unfold offerLine
    split
    · rfl
    · exact freeLine_mem ..
  unfold resendPage
  dsimp only
  rw [foldl_part State.mem hoffer, foldl_part State.mem (fun t _ => hoffer t _)]

/-- The end of a decant that holds no request. -/
theorem releaseHeld_mem (s : State) {d : Decant} (hheld : d.held = []) :
    (releaseHeld s d).mem = { s.mem with decants := s.mem.decants.filter (fun x => x.page != d.page) } := by
  unfold releaseHeld
  dsimp only
  rw [hheld, List.foldl_nil, resendPage_mem]

theorem cellared_writePage {s : State} {page : Nat} {im : CellImage} (hget : Assoc.get s.mem.cellared page = some im)
    (frame zone : Nat) (p : List Byte) : Assoc.get (writePage s frame zone p).mem.cellared page = some im := by
  rw [cellared_of_books (writePage_books ..)]
  exact hget

/-- What a write of a page does is the same whatever the engines do. -/
theorem writePage_engines (s : State) (k : Compression) (frame zone : Nat) (page : List Byte) :
    writePage { s with cmp := k } frame zone page = { writePage s frame zone page with cmp := k } := by
  unfold writePage
  generalize List.range 32 = js
  induction js generalizing s with
  | nil => rfl
  | cons j js ih => exact ih (writeFrame s (frame * 32 + j) (keyTag s zone) (lineOf ((page.drop (128 * j)).take 128)))

theorem decantMapped_engines (s : State) (k : Compression) (page : Nat) (e : PageEnt) :
    (decantMapped { s with cmp := k } page e).mem = (decantMapped s page e).mem := by
  unfold decantMapped freeImage
  dsimp only
  cases Assoc.get s.mem.cellared page <;> rfl

theorem decantDone_engines (s : State) (k : Compression) (page frame : Nat) (p : List Byte) :
    (decantDone { s with cmp := k } page frame p).mem = (decantDone s page frame p).mem := by
  unfold decantDone
  rw [writePage_engines]
  exact decantMapped_engines ..

/-- The row on a decant on an engine, whose image is read and expands. -/
theorem exec_decantExpanded_good {s t u : State} {page : Nat} {d : Decant}
    (hfind : s.mem.decants.find? (fun d => d.page == page) = some d) (hphase : d.phase = 2)
    (hend : endJob s (.decant page) = t) (hdec : decantInto t page d.frame = (false, u)) :
    exec (.decantExpanded page true) s = .next (releaseHeld u d) := by
  show execDecantExpanded page true s = _
  unfold execDecantExpanded
  simp only [hfind, hphase, hend, hdec]
  rfl

/-- A page that expands is decanted into its frame. -/
theorem exec_decantExpanded_content {s : State} {page : Nat} {d : Decant} {im : CellImage} {p : List Byte}
    (hone : s.mem.decants.filter (fun x => x.page == page) = [d]) (hphase : d.phase = 2) (hheld : d.held = [])
    (hget : Assoc.get s.mem.cellared page = some im) (hp : expandImage s im = some p) :
    ∃ t, exec (.decantExpanded page true) s = .next t ∧ t.mem = { (decantDone s page d.frame p).mem with
      decants := (decantDone s page d.frame p).mem.decants.filter (fun x => x.page != page) } := by
  have hfind : s.mem.decants.find? (fun d => d.page == page) = some d := by
    rw [← List.head?_filter, hone]
    rfl
  have hpage : d.page = page := by simpa using List.find?_some hfind
  obtain ⟨k, hend⟩ := endJob_eq s (.decant page)
  have hdec := decantInto_of_content (s := { s with cmp := k }) hget hp d.frame
  exact ⟨_, exec_decantExpanded_good hfind hphase hend hdec, by rw [releaseHeld_mem _ hheld, hpage, decantDone_engines]⟩

end Sys2Proof.Machine
end

section
/-! SUPPORT. The jobs of the compression engines (R399): asking for the lines of a page again leaves the engines and their queue
as they were. -/

namespace Sys2Proof.Machine

theorem writeFrame_cmp (s : State) (fl key : Nat) (x : Line) : (writeFrame s fl key x).cmp = s.cmp := rfl

theorem poisonFrame_cmp (s : State) (fl : Nat) : (poisonFrame s fl).cmp = s.cmp := by
  grind [poisonFrame, writeFrame_cmp]

theorem writeZoneLine_cmp (s : State) (fl zone : Nat) (poison : Bool) (l : Line) :
    (writeZoneLine s fl zone poison l).cmp = s.cmp := by
  unfold writeZoneLine
  split
  · exact poisonFrame_cmp ..
  · rfl

theorem dropLine_cmp (s : State) (q gl : Nat) : (dropLine s q gl).cmp = s.cmp := by
  have hcopies (t : State) (keep : Option Nat) : (dropQuadCopies t q gl keep).cmp = t.cmp := rfl
  rw [dropLine, hcopies, setLine_cmp]

theorem takeLine_cmp (s : State) (off fl : Nat) (keep : Bool) : (takeLine s off fl keep).cmp = s.cmp := by
  unfold takeLine
  rw [setDir_cmp]
  refine foldl_part State.cmp (fun t a => ?_) ..
  dsimp only
  split
  · rw [dropLine_cmp]
    split
    · exact writeZoneLine_cmp ..
    · rfl
  · have hopen (b : Bool) : (if b then nextFree (writeFrame t fl (Table.get zeroOf t.mem.keys fl) (Config.freeLine t.fresh))
        else t).cmp = t.cmp := by
      cases b <;> rfl
    exact hopen _

theorem dropLost_cmp (s : State) (li : Nat) : (dropLost s li).cmp = s.cmp := by
  unfold dropLost
  split
  · rfl
  · dsimp only
    rw [setDir_cmp]
    split
    · exact poisonFrame_cmp ..
    · rfl

theorem startSettle_cmp (s : State) (v : Nat) (goal : TxnGoal) (op : FlitOp) (hs : List Agent) (zone : Nat) (stamp : Word)
    (e : ReadFinding) : (startSettle s v goal op hs zone stamp e).cmp = s.cmp := by
  unfold startSettle
  rw [foldl_part State.cmp (by intros; rfl)]

theorem backLine_cmp (s : State) (off fl : Nat) : (backLine s off fl).cmp = s.cmp := by
  unfold backLine
  split
  · rfl
  · dsimp only
    split
    · rw [takeLine_cmp, dropLost_cmp]
    · split
      · exact dropLost_cmp ..
      · exact (startSettle_cmp ..).trans (dropLost_cmp ..)

theorem askJob_cmp (s : State) (j : CmpJob) : (askJob s j).cmp = s.cmp := by
  unfold askJob
  split
  · split
    · exact foldl_part State.cmp (fun t _ => backLine_cmp t _ _) ..
    · rfl
  · rfl

/-- Only a cellaring waits for anything but an engine. -/
theorem jobReady_of_ne_cellaring {j : CmpJob} (h : ∀ p, j ≠ .cellaring p) (s : State) : jobReady s j = true := by
  cases j with
  | cellaring p => exact absurd rfl (h p)
  | decant p => rfl
  | chn n => rfl

theorem idleEngine_of_first {s : State} {e : Nat} (he : e < 8) (hserves : engInService s e = true)
    (hidle : (getEng s e).run = none) (hfirst : ∀ i < e, engInService s i = false ∨ (getEng s i).run ≠ none) :
    idleEngine s = some e := by
  refine List.find?_range_eq_some.mpr ⟨by simp [hserves, hidle], List.mem_range.mpr he, fun i hi => ?_⟩
  rw [Bool.not_eq_true', Bool.and_eq_false_iff, Option.isNone_eq_false_iff, Option.isSome_iff_ne_none]
  exact hfirst i hi

/-- The job at the head takes the engine. -/
theorem exec_compressionJobAssign_head {s : State} {j : CmpJob} {q : List CmpJob} {e : Nat} (hqueue : s.cmp.queue = j :: q)
    (hready : jobReady (s.cmp.queue.foldl askJob s) j = true) (hidle : idleEngine s = some e) :
    ∃ t x, exec .compressionJobAssign s = .next t ∧
      t.cmp = { s.cmp with queue := q, engs := Table.upd engOf s.cmp.engs e (fun y => { y with job := x, run := some j }) } := by
  have hcmp : (s.cmp.queue.foldl askJob s).cmp = s.cmp := foldl_part State.cmp askJob_cmp ..
  show ∃ t x, execCompressionJobAssign s = .next t ∧ _
  unfold execCompressionJobAssign
  dsimp only
  generalize s.cmp.queue.foldl askJob s = u at hready hcmp
  have hidle' : idleEngine u = some e := by
    unfold idleEngine engInService getEng at *
    rw [hcmp]
    exact hidle
  have hfind : u.cmp.queue.find? (jobReady u) = some j := by
    rw [hcmp, hqueue, List.find?_cons_of_pos hready]
  have hleft : List.delFirst (· == j) u.cmp.queue = q := by
    rw [hcmp, hqueue]
    simp [List.delFirst]
  simp only [hfind, hidle']
  cases j with
  | decant p => exact ⟨_, _, rfl, by rw [← hleft, ← hcmp]; rfl⟩
  | cellaring p => exact ⟨_, _, rfl, by rw [← hleft, ← hcmp]; rfl⟩
  | chn n => exact ⟨_, _, rfl, by rw [← hleft, ← hcmp]; rfl⟩

end Sys2Proof.Machine
end

section
/-! SUPPORT. Accounting periods and slot epochs (R275, R295, R450, R451). -/

namespace Sys2Proof.Machine

/-- A zone at the start of a period: its credit from its entry. -/
def renewed (s : State) (z : Zone) (ws : List Word) : Zone :=
  { z with credit := (entryQos s ws).field 47 32 * 1024, spent := 0 }

/-- A period starts for one zone. -/
def renewZone (s : State) (z : Nat) : State :=
  let (e, s) := zoneEntry rep s z
  let q := match e with | some ws => entryQos s ws | none => 0
  updZone s z (fun x => { x with credit := q.field 47 32 * 1024, spent := 0 })

theorem renewZone_held {s : State} {z : Nat} {ws : List Word} (h : (getZone s z).entry = some ws) :
    renewZone s z = updZone s z (fun x => renewed s x ws) := by
  unfold renewZone zoneEntry
  rw [h]
  rfl

theorem entry_renewZone {s : State} {z : Nat} (h : (getZone s z).entry.isSome) (k : Nat) :
    (getZone (renewZone s z) k).entry = (getZone s k).entry := by
  obtain ⟨ws, hws⟩ := Option.isSome_iff_exists.mp h
  rw [renewZone_held hws, getZone_updZone_eq]
  split
  next hk => rw [hk]; rfl
  · rfl

/-- Where every entry is held the start of a period writes the zones only. -/
theorem foldl_renewZone_eq {zs : List Nat} {s : State} (h : ∀ z ∈ zs, (getZone s z).entry.isSome) :
    ∃ tab, zs.foldl renewZone s = { s with zon := { s.zon with zones := tab } } := by
  induction zs generalizing s with
  | nil => exact ⟨s.zon.zones, rfl⟩
  | cons z zs ih =>
    obtain ⟨ws, hws⟩ := Option.isSome_iff_exists.mp (h z List.mem_cons_self)
    obtain ⟨tab, htab⟩ := ih (s := renewZone s z) fun k hk => by
      rw [entry_renewZone (h z List.mem_cons_self)]
      exact h k (List.mem_cons_of_mem _ hk)
    exact ⟨tab, by rw [List.foldl_cons, htab, renewZone_held hws]; rfl⟩

theorem getZone_foldl_renewZone {zs : List Nat} {s : State} (h : ∀ z ∈ zs, (getZone s z).entry.isSome) {k : Nat}
    {ws : List Word} (hws : (getZone s k).entry = some ws) :
    getZone (zs.foldl renewZone s) k = if k ∈ zs then renewed s (getZone s k) ws else getZone s k := by
  induction zs generalizing s with
  | nil => rfl
  | cons z zs ih =>
    have hz := h z List.mem_cons_self
    obtain ⟨wz, hwz⟩ := Option.isSome_iff_exists.mp hz
    have hrest := ih (s := renewZone s z)
      (fun k hk => by rw [entry_renewZone hz]; exact h k (List.mem_cons_of_mem _ hk)) ((entry_renewZone hz k).trans hws)
    rw [List.foldl_cons, hrest, renewZone_held hwz, getZone_updZone_eq]
    by_cases hk : k = z
    · subst hk
      obtain rfl := Option.some.inj (hwz.symm.trans hws)
      simp only [if_pos, List.mem_cons_self]
      split <;> rfl
    · simp only [List.mem_cons, hk, false_or]
      split <;> rfl

/-- The boundary of a period has come. -/
def periodDue (s : State) : State := { s with zon := { s.zon with qosIdx := now s / 2 ^ 24 } }

/-- A period that no decant and no request waits for. -/
theorem exec_qosPeriod {s : State} (hup : hubUp s = true) (hnew : now s / 2 ^ 24 ≠ s.zon.qosIdx)
    (hdecants : ∀ d ∈ s.mem.decants, d.phase ≠ 0) (hwait : s.mem.waiting = [])
    (hheld : ∀ z ∈ liveZones s, (getZone s z).entry.isSome) :
    exec .qosPeriod s = .next ((liveZones s).foldl renewZone (periodDue s)) := by
  have hguard : ¬ (hubUp s = false ∨ now s / 2 ^ 24 = s.zon.qosIdx) := not_or.mpr ⟨by simp [hup], hnew⟩
  obtain ⟨tab, htab⟩ := foldl_renewZone_eq (s := periodDue s) hheld
  have hnone : s.mem.decants.filter (fun d => d.phase == 0) = [] :=
    List.filter_eq_nil_iff.mpr fun d hd => by simpa using hdecants d hd
  have hexec : exec .qosPeriod s = .next (resumeWaiting
      ((((liveZones s).foldl renewZone (periodDue s)).mem.decants.filter (fun d => d.phase == 0)).foldl (fun s d => decantPop s d)
        ((liveZones s).foldl renewZone (periodDue s)))) :=
    congrArg Host.Outcome.next (if_neg hguard)
  rw [hexec, htab]
  have hfold : (s.mem.decants.filter (fun d => d.phase == 0)).foldl (fun s d => decantPop s d) 
      { periodDue s with zon := { (periodDue s).zon with zones := tab } } =
      { periodDue s with zon := { (periodDue s).zon with zones := tab } } := by
    rw [hnone]
    rfl
  exact congrArg Host.Outcome.next ((congrArg resumeWaiting hfold).trans (resumeWaiting_of_none hwait))

/-! ## Slot epochs (R275, R295) -/

theorem getPort_of_unreported {s t : State} (h : unreported t = unreported s) (p : Nat) : getPort t p = getPort s p := by
  unfold getPort
  rw [show t.fab = s.fab from (congrArg Unreported.fab h :)]

/-- A replay orders no lane. -/
theorem rtLane_replayPort (s : State) (p : Nat) : (getPort (replayPort s p) p).rtLane = (getPort s p).rtLane := by
  unfold replayPort
  dsimp only
  split
  · rfl
  · split
    · show (getPort (updPort s p _) p).rtLane = _
      rw [getPort_updPort_self]
    · unfold portFault
      rw [getPort_of_unreported (faultAt_unreported ..), getPort_updPort_self]

theorem rtLane_startLane (s : State) (p lane : Nat) : (getPort (startLane s p lane) p).rtLane = some lane := by
  unfold startLane
  dsimp only
  rw [rtLane_replayPort]
  split
  · rw [getPort_updPort_self]
  · unfold widthFault portFault
    dsimp only
    rw [getPort_of_unreported (faultAt_unreported ..)]
    exact congrArg Port.rtLane (getPort_updPort_self ..)

/-- A slot epoch is counted. -/
def epochCounted (s : State) : State := { s with tree := { s.tree with epochIdx := now s / 2 ^ 16 } }

theorem exec_slotEpoch_none {s : State} (hnone : s.sxt.laneDue = []) : exec .slotEpoch s = .next (epochCounted s) := by
  show execSlotEpoch s = _
  simp only [execSlotEpoch, hnone, List.foldl_nil]
  rfl

/-- The one lane that was ordered starts to retrain. -/
theorem exec_slotEpoch_one {s : State} {k : Nat} (hone : s.sxt.laneDue = [k])
    (hmay : mayStartLane (getPort s (k / 16)) (k % 16) = true) :
    exec .slotEpoch s = .next (startLane { epochCounted s with sxt := { s.sxt with laneDue := [] } } (k / 16) (k % 16)) := by
  have hmay' : mayStartLane (getPort (epochCounted s) (k / 16)) (k % 16) = true := hmay
  have hleft : [k].filter (· != k) = [] := by simp
  show execSlotEpoch s = _
  simp only [execSlotEpoch, hone, List.foldl_cons, List.foldl_nil]
  refine congrArg Host.Outcome.next ((if_pos hmay').trans ?_)
  show startLane { epochCounted s with sxt := { s.sxt with laneDue := s.sxt.laneDue.filter (· != k) } } _ _ = _
  rw [hone, hleft]

/-- Settles O44: a cellaring leaves what storing its image leaves, a decant what mapping its page leaves, the first job has an
engine whatever asking for lines does, and a period and an epoch write what their folds write. -/
theorem pagesCellaredAndDecanted : Obligations.PagesCellaredAndDecanted := by
  unfold Obligations.PagesCellaredAndDecanted
  refine ⟨fun page c bytes s hone hpage hphase heng hcontent hzero => ?cellared, fun page c ok s hone hpage hphase => ?touched,
    fun page d im p s hone hphase hheld hget hp => ?decanted, fun j q e s hqueue hready he hserves hidle hfirst => ?assigned,
    fun s hup hnew hdecants hwait hheld => ?period, fun s => ?epoch⟩
  case cellared =>
    intro e
    subst hpage
    obtain ⟨t, hexec, hleft, hstored⟩ := exec_cellaringCompressed_stored hone hphase heng hcontent hzero
    refine ⟨t, hexec, hleft, fun im gs hlz hgs => ?_⟩
    have hmem := hstored im gs hlz hgs
    have hpages (p : Nat) : getPage t p = getPage (stored s c bytes im gs) p := by
      unfold getPage
      rw [hmem]
    refine ⟨(hpages _).trans ((getPage_stored ..).trans (if_pos rfl)),
      fun p hp => (hpages p).trans ((getPage_stored ..).trans (if_neg hp)), ?_, fun g hg => ?_, ?_⟩
    · rw [hmem]
      exact cellared_stored s c bytes im gs
    · rw [hmem]
      exact usedGran_stored s c bytes im gs hg
    · unfold getList
      rw [hmem]
      exact frames_stored s c bytes im gs
  case touched => exact ⟨_, exec_cellaringCompressed_touched hone hpage hphase ok, endCellaring_last hone rfl _⟩
  case decanted =>
    dsimp only
    obtain ⟨t, hexec, hmem⟩ := exec_decantExpanded_content hone hphase hheld hget hp
    have hkept := cellared_writePage hget d.frame (getPage s page).zone p
    have hdecants := decants_of_books (writePage_books s d.frame (getPage s page).zone p)
    unfold decantDone at hmem
    generalize writePage s d.frame (getPage s page).zone p = w at hmem hkept hdecants ⊢
    generalize PageEnt.mk 0 (getPage s page).zone (getPage s page).pin false d.frame = e at hmem ⊢
    refine ⟨t, hexec, ?_, ?_, ?_, fun g hg => ?_, ?_⟩
    · unfold getPage
      rw [hmem]
      exact getPage_decantMapped hkept e
    · rw [hmem]
      exact bytes_decantMapped hkept e
    · rw [hmem]
      exact cellared_decantMapped hkept e
    · rw [hmem]
      exact usedGran_decantMapped hkept e hg
    · rw [hmem, decants_decantMapped hkept, hdecants]
  case assigned =>
    have hready' : jobReady (s.cmp.queue.foldl askJob s) j = true := by
      rcases hready with hother | ⟨hq, hready⟩
      · exact jobReady_of_ne_cellaring hother _
      · rw [hqueue, hq]
        exact hready
    obtain ⟨t, x, hexec, hcmp⟩ := exec_compressionJobAssign_head hqueue hready' (idleEngine_of_first he hserves hidle hfirst)
    have heng (i : Nat) : getEng t i = if i = e then { getEng s e with job := x, run := some j } else getEng s i := by
      unfold getEng
      rw [hcmp]
      dsimp only
      rw [Table.get_upd]
    refine ⟨t, hexec, by rw [hcmp], by rw [heng, if_pos rfl], fun i hi => by rw [heng, if_neg hi]⟩
  case period =>
    refine ⟨_, exec_qosPeriod hup hnew hdecants hwait hheld, ?_, fun z hz ws hws => ?_⟩
    · obtain ⟨tab, htab⟩ := foldl_renewZone_eq (s := periodDue s) hheld
      rw [htab]
      rfl
    · exact (getZone_foldl_renewZone (s := periodDue s) hheld hws).trans (if_pos hz)
  case epoch =>
    intro u
    refine ⟨fun hnone => ?_, fun k hone hmay => ⟨_, ?_, rfl, rtLane_startLane ..⟩⟩
    · exact ⟨_, exec_slotEpoch_none hnone, rfl⟩
    · exact exec_slotEpoch_one hone hmay

end Sys2Proof.Machine
end

section
/-! SUPPORT. A Hezhaul link: a port after a check, a replay, a recovery, a frame received or sent (R295 to R303, R315),
with O47. -/

namespace Sys2Proof.Machine

/-! ## What a report and an update leave (R514) -/

theorem now_of_unreported {s t : State} (h : unreported t = unreported s) : now t = now s := by
  unfold now
  rw [show t.mer = s.mer from (congrArg Unreported.mer h :)]

theorem now_updPort (s : State) (p : Nat) (f : Port → Port) : now (updPort s p f) = now s := rfl

theorem portFault_unreported (s : State) (p cls : Nat) (stamp : Word) :
    unreported (portFault s p cls stamp) = unreported s := faultAt_unreported ..

theorem widthFault_unreported (s : State) (p : Nat) : unreported (widthFault s p) = unreported s :=
  portFault_unreported ..

/-! ## Replay and recovery (R300) -/

/-- A port whose PHY retrains from `t` on. -/
def recovering (x : Port) (t : Nat) : Port :=
  { x with state := 3, since := t, recover := satAdd 16 x.recover 1, resendFrom := [] }

/-- A port that has begun at `t` to send again what is not acknowledged. -/
def replaying (x : Port) (t : Nat) : Port :=
  { x with replays := countReplay x, replay := satAdd 16 x.replay 1, resendFrom := unacked x, ackAt := t }

theorem getPort_startRecovery (s : State) (p : Nat) : getPort (startRecovery s p) p = recovering (getPort s p) (now s) :=
  getPort_updPort_self ..

section
variable {s : State} {p : Nat}

theorem replayPort_none (hnone : unacked (getPort s p) = []) : replayPort s p = s := if_pos hnone

theorem replayPort_spent (hsome : unacked (getPort s p) ≠ []) (hspent : replaysSpent (getPort s p) = true) :
    replayPort s p = startRecovery s p := (if_neg hsome).trans (if_pos hspent)

theorem replayPort_again (hsome : unacked (getPort s p) ≠ []) (hleft : replaysSpent (getPort s p) = false) :
    replayPort s p = portFault (updPort s p (fun x => replaying x (now s))) p 0 0 :=
  (if_neg hsome).trans (if_neg (by simp [hleft]))

theorem getPort_replayPort_again (hsome : unacked (getPort s p) ≠ []) (hleft : replaysSpent (getPort s p) = false) :
    getPort (replayPort s p) p = replaying (getPort s p) (now s) := by
  rw [replayPort_again hsome hleft, getPort_of_unreported (portFault_unreported ..), getPort_updPort_self]

end

/-! ## The check of a frame (R296, R299) -/

/-- The codewords that a frame overlaps are counted. -/
def frameCounted (s : State) (p : Nat) (fr : Frame) : State :=
  updPort s p (fun x => { x with corr := satAdd 32 x.corr fr.corr, uncorr := satAdd 32 x.uncorr fr.uncorr })

theorem getPort_frameCounted (s : State) (p : Nat) (fr : Frame) : getPort (frameCounted s p fr) p =
    { getPort s p with
      corr := satAdd 32 (getPort s p).corr fr.corr, uncorr := satAdd 32 (getPort s p).uncorr fr.uncorr } :=
  getPort_updPort_self ..

theorem tree_frameCounted (s : State) (p : Nat) (fr : Frame) : (frameCounted s p fr).tree = s.tree := rfl

theorem frameBad_of_error {fr : Frame} (h : fr.good = false ∨ fr.uncorr ≠ 0) : frameBad fr = true := by
  simpa [frameBad] using h

theorem frameBad_of_good {fr : Frame} (hgood : fr.good = true) (hcodes : fr.uncorr = 0) : frameBad fr = false := by
  simp [frameBad, hgood, hcodes]

theorem exec_frame_checked {i : Instr} {p : Nat} {fr : Frame} (s : State)
    (hi : i = .frameReceive p fr ∨ i = .nakFrame p fr) : ∃ f, exec i s = .next (checkFrame s p fr f) := by
  rcases hi with rfl | rfl <;> exact ⟨_, rfl⟩

section
variable {s : State} {p : Nat} {fr : Frame} (f : State → State) (hp : p < 12) (hruns : portRuns (getPort s p) = true)
include hp hruns

theorem checkFrame_bad (hbad : frameBad fr = true) : checkFrame s p fr f =
    startNak (updPort (frameCounted s p fr) p (fun x => { x with crc := satAdd 16 x.crc 1 })) p :=
  (if_neg (by simp [hp, hruns])).trans (if_pos hbad)

theorem checkFrame_fenced (hgood : frameBad fr = false) (hsender : senderOk (getPort s p) fr = false) :
    checkFrame s p fr f = portDown (frameCounted s p fr) p 5 :=
  (if_neg (by simp [hp, hruns])).trans ((if_neg (by simp [hgood])).trans (if_pos hsender))

theorem checkFrame_passed (hgood : frameBad fr = false) (hsender : senderOk (getPort s p) fr = true) :
    checkFrame s p fr f = f (frameCounted s p fr) :=
  (if_neg (by simp [hp, hruns])).trans ((if_neg (by simp [hgood])).trans (if_neg (by simp [hsender])))

end

theorem getPort_startNak (s : State) (p : Nat) :
    ∃ t, getPort (startNak s p) p = { getPort s p with nakWait := true, nakAt := t } := by
  unfold startNak
  rw [getPort_updPort_self]
  split
  next hwaits => exact ⟨(getPort s p).nakAt, by rw [← hwaits]⟩
  next => exact ⟨now s, rfl⟩

theorem tree_startNak (s : State) (p : Nat) : (startNak s p).tree = s.tree := rfl

/-! ## A frame in sequence (R300, R301) -/

/-- Neither credits nor an ack touch what a port has still to send. -/
theorem tx_takeHeader (s : State) (p : Nat) (fr : Frame) :
    (getPort (takeHeader s p fr) p).tx = (getPort s p).tx := by
  unfold takeHeader ackFrames
  simp only [getPort_updPort_self]
  split
  · rfl
  · split <;> rfl

theorem now_takeHeader (s : State) (p : Nat) (fr : Frame) : now (takeHeader s p fr) = now s := rfl

theorem exec_frameReceive_next {s : State} {p : Nat} {fr : Frame} (hp : p < 12) (hruns : portRuns (getPort s p) = true)
    (hgood : frameBad fr = false) (hsender : senderOk (getPort s p) fr = true) (hdata : fr.idle = false)
    (hnext : fr.seq = ((getPort s p).rxSeq + 1) % 4096) :
    exec (.frameReceive p fr) s = .next (acceptFrame (takeHeader (frameCounted s p fr) p fr) p fr) :=
  congrArg Host.Outcome.next ((checkFrame_passed _ hp hruns hgood hsender).trans
    ((if_neg (by simp [hdata])).trans (if_pos hnext)))

theorem getPort_acceptFrame (s : State) (p : Nat) (fr : Frame) :
    (getPort (acceptFrame s p fr) p).rxSeq = fr.seq ∧ (getPort (acceptFrame s p fr) p).nakWait = false ∧
      (getPort (acceptFrame s p fr) p).tx = (getPort s p).tx := by
  have hport : getPort (acceptFrame s p fr) p = _ := getPort_updPort_self ..
  rw [hport]
  exact ⟨rfl, rfl, rfl⟩

theorem exec_nakFrame_passed {s : State} {p : Nat} {fr : Frame} (hp : p < 12) (hruns : portRuns (getPort s p) = true)
    (hgood : frameBad fr = false) (hsender : senderOk (getPort s p) fr = true) :
    exec (.nakFrame p fr) s = .next (replayPort (takeHeader (frameCounted s p fr) p fr) p) :=
  congrArg Host.Outcome.next (checkFrame_passed _ hp hruns hgood hsender)

/-! ## The next frame of a port (R302, R303) -/

theorem exec_frameTransmit_up {s : State} {p : Nat} (hp : p < 12) (hjoined : s.fab.isolated = false)
    (hruns : s.flt.checkstop = false) (hup : (getPort s p).state = 2) :
    exec (.frameTransmit p) s = .next (transmit s p) :=
  congrArg Host.Outcome.next (if_neg (by simp [hp, hjoined, hruns, hup]))

theorem transmit_replay {s : State} {p : Nat} {fr : Frame} {rest : List Frame}
    (hresend : (getPort s p).resendFrom = fr :: rest) :
    transmit s p = updPort s p (fun x => { x with resendFrom := rest }) := by
  unfold transmit
  dsimp only
  rw [hresend]

/-- Management has virtual channels 8 and 9. -/
theorem vcOf_management {f : Flit} (hmgmt : flitCls f.op = 4) : vcOf f = 8 ∨ vcOf f = 9 := by
  unfold vcOf
  rw [hmgmt]
  cases f.dl
  · exact .inl rfl
  · exact .inr rfl

theorem vcHead_empty {x : Port} (htx : x.tx = []) (vc : Nat) : vcHead x vc = none := by
  simp [vcHead, htx]

theorem vcHeads_empty {x : Port} (htx : x.tx = []) (vcs : List Nat) : vcHeads x vcs = [] := by
  simp [vcHeads, vcHead_empty htx]

/-- A port with one packet offers it on the packet's own channel, where credits allow it. -/
theorem vcHead_single {x : Port} {f : Flit} (htx : x.tx = [f]) (hcredits : f.more + 1 ≤ creditsFor x (vcOf f))
    (vc : Nat) : vcHead x vc = if vcOf f = vc then some f else none := by
  unfold vcHead
  rw [htx, List.find?_singleton]
  by_cases hvc : vcOf f = vc
  · subst hvc
    simp [hcredits]
  · simp [hvc]

theorem pickPacket_empty {s : State} {p : Nat} (htx : (getPort s p).tx = []) : pickPacket s p = (none, s) := by
  unfold pickPacket
  simp only [vcHeads_empty htx]

theorem pickPacket_management {s : State} {p : Nat} {f : Flit} (htx : (getPort s p).tx = [f]) (hmgmt : flitCls f.op = 4)
    (hcredits : f.more + 1 ≤ creditsFor (getPort s p) (vcOf f)) : pickPacket s p = (some f, s) := by
  have hhead : vcHeads (getPort s p) [8, 9, 4, 5, 2, 3] = [f] := by
    rcases vcOf_management hmgmt with hvc | hvc <;> simp [vcHeads, vcHead_single htx hcredits, hvc]
  unfold pickPacket
  dsimp only
  rw [hhead]

/-- The packet has left its queue, and its one credit is spent. -/
def flitLeaves (x : Port) (f : Flit) : Port :=
  { x with tx := [], credits := Table.upd zeroOf x.credits (vcOf f) (fun c => c - (f.more + 1)), sending := none }

/-- With nothing to send a frame takes no more. -/
theorem fillFrame_empty {s : State} {p : Nat} (htx : (getPort s p).tx = []) (hidle : (getPort s p).sending = none) (n : Nat)
    (acc : List Flit) : fillFrame p n s acc = (acc, s) := by
  cases n with
  | zero => rfl
  | succ n =>
    unfold fillFrame
    rw [hidle, pickPacket_empty htx]

/-- What an update makes of a port turns on the port alone. -/
theorem updPort_congr {s : State} {p : Nat} {f g : Port → Port} (h : f (getPort s p) = g (getPort s p)) :
    updPort s p f = updPort s p g := by
  unfold updPort Table.upd
  rw [show f (Table.get portOf s.fab.ports p) = g (Table.get portOf s.fab.ports p) from h]

/-- A frame takes the one management packet that waits, of one flit, and no more. -/
theorem fillFrame_management {s : State} {p : Nat} {f : Flit} (htx : (getPort s p).tx = [f])
    (hidle : (getPort s p).sending = none) (hmgmt : flitCls f.op = 4) (hone : f.more = 0)
    (hcredits : 1 ≤ creditsFor (getPort s p) (vcOf f)) (n : Nat) :
    fillFrame p (n + 1) s [] = ([f], updPort s p (fun x => flitLeaves x f)) := by
  have hleaves : updPort s p (fun x => { x with
      tx := List.delFirst (· == f) x.tx
      credits := Table.upd zeroOf x.credits (vcOf f) (fun c => c - (f.more + 1))
      sending := if f.more = 0 then none else some (f, 1) }) = updPort s p (fun x => flitLeaves x f) :=
    updPort_congr (by simp [flitLeaves, htx, hone, List.delFirst])
  unfold fillFrame
  rw [hidle, pickPacket_management htx hmgmt (by omega)]
  dsimp only
  rw [hleaves, if_pos hone, fillFrame_empty]
  · rfl
  all_goals rw [getPort_updPort_self]; rfl

/-- The frame with one packet of one flit that a port sends next (R297). -/
def dataFrame (s : State) (p : Nat) (f : Flit) : Frame :=
  ⟨((getPort s p).txSeq + 1) % 4096, (getPort s p).rxSeq, false, (takeOwed (getPort s p)).1, [f], false,
    if s.devValid then some s.devId else none, p, true, 0, 0⟩

/-- The port once its data frame `fr` with the packet `f` is on the way. -/
def frameLeaves (x : Port) (f : Flit) (fr : Frame) (t : Nat) : Port :=
  { flitLeaves x f with
    owed := (takeOwed x).2.owed, txSeq := fr.seq, buf := x.buf ++ [fr], ackAt := if unacked x = [] then t else x.ackAt }

theorem creditsFor_frameLeaves (x : Port) (f : Flit) (fr : Frame) (t : Nat) :
    creditsFor (frameLeaves x f fr t) (vcOf f) = creditsFor x (vcOf f) - (f.more + 1) := by
  unfold creditsFor frameLeaves flitLeaves
  rw [Table.get_upd, if_pos rfl]

/-- The one management packet of a port leaves in a data frame of its own. -/
theorem getPort_transmit_management {s : State} {p : Nat} {f : Flit} (hresend : (getPort s p).resendFrom = [])
    (hidle : (getPort s p).sending = none) (htx : (getPort s p).tx = [f]) (hmgmt : flitCls f.op = 4) (hone : f.more = 0)
    (hcredits : 1 ≤ creditsFor (getPort s p) (vcOf f)) (hroom : (getPort s p).buf.length < 256) :
    getPort (transmit s p) p = frameLeaves (getPort s p) f (dataFrame s p f) (now s) := by
  have hfill := fillFrame_management (s := updPort s p (fun _ => (takeOwed (getPort s p)).2)) (p := p) (f := f)
    (by rwa [getPort_updPort_self]) (by rwa [getPort_updPort_self]) hmgmt hone (by rwa [getPort_updPort_self]) 7
  unfold transmit
  dsimp only
  rw [hresend]
  dsimp only
  rw [if_neg (by omega), hfill]
  dsimp only
  rw [if_neg (by simp)]
  simp only [getPort_updPort_self, now_updPort, updPort_devId, updPort_devValid]
  rfl

/-! ## The ways of a link's loss (R295, R300, R315, R317) -/

theorem exec_ackStall_due {s : State} {p : Nat} (hruns : portRuns (getPort s p) = true)
    (hsome : unacked (getPort s p) ≠ []) (hlate : 2 ^ 15 ≤ since s (getPort s p).ackAt) :
    exec (.ackStall p) s = .next (replayPort s p) :=
  congrArg Host.Outcome.next (if_pos ⟨hruns, hsome, hlate⟩)

section
variable {s : State} {p : Nat} (hp : p < 12)
include hp

theorem exec_portSignalLost_up (hup : (getPort s p).state = 2) :
    exec (.portSignalLost p) s = .next (startRecovery s p) :=
  congrArg Host.Outcome.next (if_neg (by simp [hp, hup]))

theorem exec_recoveryDone_intime (width : Nat) (hrec : (getPort s p).state = 3)
    (htime : since s (getPort s p).since < 2 ^ 24) :
    exec (.recoveryDone p width) s =
      let u := updPort s p (fun x => { x with state := 2, replays := [] })
      .next (setWidth (replayPort (portFault (portStamp u p).2 p 1 (portStamp u p).1) p) p width) :=
  congrArg Host.Outcome.next (if_neg (by simp only [not_or]; omega))

theorem exec_recoveryTimeout_late (hrec : (getPort s p).state = 3) (hlate : 2 ^ 24 ≤ since s (getPort s p).since) :
    exec (.recoveryTimeout p) s = .next (portDown s p 4) :=
  congrArg Host.Outcome.next (if_neg (by simp only [not_or]; omega))

theorem exec_portHeartbeatLoss_late (hup : (getPort s p).state = 2) (hlate : 2 ^ 24 ≤ since s (getPort s p).hbAt) :
    exec (.portHeartbeatLoss p) s = .next (portDown s p 4) :=
  congrArg Host.Outcome.next (if_neg (by simp only [not_or]; omega))

end

theorem setOutcome_fab (s : State) (m : Mbx) (r : CmdResult) : (setOutcome s m r).fab = s.fab := by
  cases m <;> rfl

/-- A port whose lane has retrained runs at the width from before. -/
def laneBack (x : Port) : Port := { x with rtLane := none, width := x.rtWidth }

/-- Whatever the change of width reports and the command that ordered it is told, the port itself is back and replays. -/
theorem exec_laneRetrainDone {s : State} {p : Nat} (hlane : (getPort s p).rtLane.isSome) :
    ∃ t u, exec (.laneRetrainDone p) s = .next t ∧ getPort t p = getPort (replayPort u p) p ∧
      getPort u p = laneBack (getPort s p) ∧ now u = now s := by
  have hreported : ∃ u, u = (if (getPort s p).width = (getPort s p).rtWidth then updPort s p laneBack
      else widthFault (updPort s p laneBack) p) ∧ unreported u = unreported (updPort s p laneBack) := by
    refine ⟨_, rfl, ?_⟩
    split
    · rfl
    · exact widthFault_unreported ..
  obtain ⟨u, hu, hsame⟩ := hreported
  refine ⟨_, u, congrArg Host.Outcome.next (if_neg (by simp [Option.isSome_iff_ne_none.mp hlane])), ?_, ?_, ?_⟩
  · subst hu
    exact congrArg (fun b : Fabric => Table.get portOf b.ports p)
      (foldl_part State.fab (fun t x => by split <;> simp only [setOutcome_fab]) _ _)
  · exact (getPort_of_unreported hsame p).trans (getPort_updPort_self ..)
  · exact (now_of_unreported hsame).trans rfl

/-! ## O47 -/

/-- Settles O47: the check decides what becomes of a frame, the choice of the port what leaves, and each kind of loss ends
in a replay, a recovery or a port that is DOWN. -/
theorem linksCarryFrames : Obligations.LinksCarryFrames := by
  unfold Obligations.LinksCarryFrames
  refine ⟨?good, ?checked, ?leaves, ?replays, ?losses⟩
  case good =>
    intro p fr s hp hruns hgood hcodes hsender hdata hnext
    obtain ⟨hseq, hwait, htx⟩ := getPort_acceptFrame (takeHeader (frameCounted s p fr) p fr) p fr
    have hpass := frameBad_of_good hgood hcodes
    refine ⟨_, exec_frameReceive_next hp hruns hpass hsender hdata hnext, hseq, hwait, ?_, rfl⟩
    rw [htx, tx_takeHeader, getPort_frameCounted]
  case checked =>
    intro p fr s i hp hruns hi u
    obtain ⟨f, hexec⟩ := exec_frame_checked s hi
    refine ⟨fun hbad => ⟨_, hexec, ?_⟩, fun hgood hcodes hsender => ⟨_, hexec, ?_⟩,
      fun hnak hgood hcodes hsender => ?_⟩
    · rw [checkFrame_bad f hp hruns (frameBad_of_error hbad)]
      obtain ⟨t, hport⟩ := getPort_startNak
        (updPort (frameCounted s p fr) p (fun x => { x with crc := satAdd 16 x.crc 1 })) p
      rw [hport, getPort_updPort_self, getPort_frameCounted]
      exact ⟨by rw [tree_startNak, updPort_tree, tree_frameCounted], rfl, rfl, rfl, rfl⟩
    · exact checkFrame_fenced f hp hruns (frameBad_of_good hgood hcodes) hsender
    · intro v x
      subst hnak
      have hreplay : exec (.nakFrame p fr) s = .next (replayPort v p) :=
        exec_nakFrame_passed hp hruns (frameBad_of_good hgood hcodes) hsender
      have hnow : now v = now s := now_takeHeader ..
      clear_value v
      refine ⟨fun hnone => ⟨_, hreplay, replayPort_none hnone⟩, fun hsome hspent => ⟨_, hreplay, ?_⟩,
        fun hsome hleft => ⟨_, hreplay, ?_⟩⟩
      · rw [replayPort_spent hsome hspent, getPort_startRecovery v p, hnow]
        rfl
      · rw [replayPort_again hsome hleft, hnow]
        rfl
  case leaves =>
    intro p f s hp hjoined hstop hup hresend hidle htx hmgmt hone hcredits hroom
    refine ⟨_, exec_frameTransmit_up hp hjoined hstop hup, ?_⟩
    rw [getPort_transmit_management hresend hidle htx hmgmt hone hcredits hroom]
    refine ⟨rfl, rfl, ?_, dataFrame s p f, rfl, rfl, rfl, rfl⟩
    rw [creditsFor_frameLeaves, hone]
  case replays =>
    intro p fr rest s hp hjoined hstop hup hresend
    refine ⟨_, exec_frameTransmit_up hp hjoined hstop hup, ?_⟩
    rw [transmit_replay hresend, getPort_updPort_self]
  case losses =>
    intro p s x
    refine ⟨fun hwaits hlate => ⟨_, rfl, ?_⟩, fun hruns hsome hlate => ⟨fun hleft => ?_, fun hspent => ?_⟩,
      ⟨_, rfl, getPort_updPort_self ..⟩,
      fun hp hup => ⟨_, exec_portSignalLost_up hp hup, getPort_startRecovery s p⟩,
      fun hp hrec htime => ?recovered,
      fun hp hrec hlate => ⟨_, exec_recoveryTimeout_late hp hrec hlate, rfl⟩,
      fun hp hup hlate => ⟨_, exec_portHeartbeatLoss_late hp hup hlate, rfl⟩, fun hlane => ?lane⟩
    · rw [if_pos ⟨hwaits, hlate⟩, getPort_updPort_self]
    · exact ⟨_, exec_ackStall_due hruns hsome hlate, replayPort_again hsome hleft⟩
    · refine ⟨_, exec_ackStall_due hruns hsome hlate, ?_⟩
      rw [replayPort_spent hsome hspent]
      exact getPort_startRecovery s p
    case recovered =>
      intro u w
      exact ⟨_, exec_recoveryDone_intime hp w hrec htime, rfl⟩
    case lane =>
      obtain ⟨t, u, hexec, hport, hback, hnow⟩ := exec_laneRetrainDone hlane
      have hunacked : unacked (getPort u p) = unacked x := by rw [hback]; rfl
      refine ⟨fun hnone => ⟨t, hexec, ?_⟩, fun hsome hleft => ⟨t, hexec, ?_⟩⟩
      · rw [hport, replayPort_none (hunacked.trans hnone)]
        exact hback
      · have hspent : replaysSpent (getPort u p) = false := by rw [hback]; exact hleft
        rw [hport, getPort_replayPort_again (by rwa [hunacked]) hspent, hback, hnow]
        rfl

end Sys2Proof.Machine
end

section
/-! SUPPORT. A port in training and the discovery that follows: its width, init frames, HELLO, ORIGIN, a module's
coordinate, and HZ_PCTL (R294, R302, R310 to R312, R315, R329), with O48. -/

namespace Sys2Proof.Machine

/-! ## Training (R294, R302, R310) -/

theorem setWidth_narrow {width : Nat} (hnarrow : 3 ≤ width) (s : State) (p : Nat) :
    setWidth s p width = portDown (updPort s p (fun x => { x with width := 3 })) p 4 := if_pos hnarrow

/-- At the width from before, or where it comes up at x4, a port has nothing to report. -/
theorem setWidth_quiet {s : State} {p width : Nat} (hwide : width < 3)
    (hquiet : (getPort s p).width = width ∨ ((getPort s p).width = 3 ∧ width = 0)) :
    setWidth s p width = updPort s p (fun x => { x with width := width }) :=
  (if_neg (by omega)).trans (if_pos hquiet)

theorem setWidth_changed {s : State} {p width : Nat} (hwide : width < 3) (hother : (getPort s p).width ≠ width)
    (hchange : (getPort s p).width ≠ 3 ∨ width ≠ 0) :
    setWidth s p width = widthFault (updPort s p (fun x => { x with width := width })) p :=
  (if_neg (by omega)).trans (if_neg (by omega))

/-- A port whose PHY is trained has still to meet its first init frame. -/
def phyTrained (s : State) (p : Nat) : State := updPort s p (fun x => { x with inited := false })

theorem getPort_phyTrained (s : State) (p : Nat) : getPort (phyTrained s p) p = { getPort s p with inited := false } :=
  getPort_updPort_self ..

/-- The port after the first good init frame of a training. -/
def initialized (x : Port) : Port :=
  { x with
    inited := true, txSeq := 0, ackSeen := 0, rxSeq := 0, nakWait := false, buf := [], resendFrom := [], replays := []
    credits := (List.range 10).map (fun v => (v, 64)), owed := [], sending := none, deficits := [], turn := none }

theorem creditsFor_initialized (x : Port) : ∀ v < 10, creditsFor (initialized x) v = 64 := by
  show ∀ v < 10, Table.get zeroOf ((List.range 10).map (fun v => (v, 64))) v = 64
  decide

/-- A link message joins what a port has to send, whatever its words. -/
theorem getPort_sendLink_joins (s : State) (p : Nat) (op : FlitOp) (stamp : Word) (ws : List Word) : ∃ f, f.op = op ∧
    getPort (sendLink s p op stamp ws) p = { getPort s p with tx := (getPort s p).tx ++ [f] } :=
  ⟨_, rfl, getPort_sendLink_self ..⟩

theorem getPort_sendHello (s : State) (p : Nat) :
    ∃ f, f.op = .hello ∧ getPort (sendHello s p) p = { getPort s p with tx := (getPort s p).tx ++ [f] } :=
  getPort_sendLink_joins ..

theorem getPort_sendDelay (s : State) (p : Nat) :
    ∃ f, f.op = .delay ∧
      getPort (sendDelay s p) p = { getPort s p with t1 := now s, tx := (getPort s p).tx ++ [f] } := by
  obtain ⟨f, hf, hport⟩ := getPort_sendLink_joins (updPort s p (fun x => { x with t1 := now s })) p .delay 0
    [BitVec.ofNat 64 (now s), 0, 0, 0]
  rw [getPort_updPort_self] at hport
  exact ⟨f, hf, hport⟩

theorem getPort_sendOrigin (s : State) (p : Nat) :
    ∃ f, f.op = .origin ∧ getPort (sendOrigin s p) p = { getPort s p with tx := (getPort s p).tx ++ [f] } :=
  getPort_sendLink_joins ..

section
variable {s : State} {p : Nat} (hp : p < 12) (htrain : (getPort s p).state = 1)
include hp htrain

theorem exec_portTrained_training (width : Nat) :
    exec (.portTrained p width) s = .next (setWidth (phyTrained s p) p width) :=
  congrArg Host.Outcome.next (if_neg (by simp [hp, htrain]))

theorem exec_portTrainingTimeout_late (hlate : 2 ^ 31 ≤ since s (getPort s p).since) :
    exec (.portTrainingTimeout p) s = .next (portDown s p 4) :=
  congrArg Host.Outcome.next (if_neg (by simp only [not_or]; omega))

/-- The first init frame readies the port; the delay measurement goes out, and HELLO behind it. -/
theorem exec_initFrame_first {fr : Frame} (hfirst : (getPort s p).inited = false) (hgood : frameBad fr = false) :
    ∃ t f g, exec (.initFrame ⟨p, fr⟩) s = .next t ∧ f.op = .delay ∧ g.op = .hello ∧
      getPort t p = { initialized (getPort s p) with t1 := now s, tx := (getPort s p).tx ++ [f, g] } := by
  obtain ⟨f, hf, hdelay⟩ := getPort_sendDelay (updPort s p initialized) p
  obtain ⟨g, hg, hhello⟩ := getPort_sendHello (sendDelay (updPort s p initialized) p) p
  refine ⟨_, f, g, congrArg Host.Outcome.next (if_neg (by simp [hp, htrain, hfirst, hgood])), hf, hg, ?_⟩
  rw [hdelay, getPort_updPort_self, now_updPort, List.append_assoc] at hhello
  exact hhello

end

/-! ## HELLO (R311, R312) -/

/-- What a HELLO says of the neighbour is kept. -/
def nbrNoted (s : State) (p : Nat) (m : HelloMsg) : State :=
  updPort s p (fun x => { x with nbrId := m.devId, nbrPort := some m.port, nbrNoMirror := m.noMirror })

/-- The port is UP, and ORIGIN goes out on it. -/
def portJoined (s : State) (p : Nat) (m : HelloMsg) : State :=
  sendOrigin (portStamp (updPort (nbrNoted s p m) p (fun x => { x with state := 2, since := now s, hbAt := now s })) p).2 p

@[simp] theorem portStamp_devValid (s : State) (p : Nat) : (portStamp s p).2.devValid = s.devValid := rfl
@[simp] theorem portStamp_rlx (s : State) (p : Nat) : (portStamp s p).2.rlx = s.rlx := rfl
@[simp] theorem sendOrigin_devValid (s : State) (p : Nat) : (sendOrigin s p).devValid = s.devValid := rfl
@[simp] theorem sendOrigin_rlx (s : State) (p : Nat) : (sendOrigin s p).rlx = s.rlx := rfl

theorem portJoined_devValid (s : State) (p : Nat) (m : HelloMsg) : (portJoined s p m).devValid = s.devValid := by
  simp only [portJoined, nbrNoted, sendOrigin_devValid, portStamp_devValid, updPort_devValid]

theorem portJoined_rlx (s : State) (p : Nat) (m : HelloMsg) : (portJoined s p m).rlx = s.rlx := by
  simp only [portJoined, nbrNoted, sendOrigin_rlx, portStamp_rlx, updPort_rlx]

/-- The ID that a neighbour gives follows from the topology record alone. -/
theorem impliedId_congr {s t : State} (h : t.rlx = s.rlx) (p e nbrPort : Nat) :
    impliedId t p e nbrPort = impliedId s p e nbrPort := by
  unfold impliedId
  rw [h]

theorem getPort_portJoined (s : State) (p : Nat) (m : HelloMsg) : ∃ f, f.op = .origin ∧
    getPort (portJoined s p m) p = { getPort s p with
      nbrId := m.devId, nbrPort := some m.port, nbrNoMirror := m.noMirror, state := 2, since := now s, hbAt := now s
      tx := (getPort s p).tx ++ [f] } := by
  obtain ⟨f, hf, hport⟩ := getPort_sendOrigin
    (portStamp (updPort (nbrNoted s p m) p (fun x => { x with state := 2, since := now s, hbAt := now s })) p).2 p
  refine ⟨f, hf, hport.trans ?_⟩
  have hstamped : getPort (portStamp (updPort (nbrNoted s p m) p
      (fun x => { x with state := 2, since := now s, hbAt := now s })) p).2 p = _ := getPort_updPort_self ..
  have hnoted : getPort (nbrNoted s p m) p = _ := getPort_updPort_self ..
  rw [hstamped, hnoted]

/-- A module without a coordinate takes the one that its neighbour's gives it. -/
def idLearnt (s : State) (p : Nat) (m : HelloMsg) : State :=
  match m.devId with
  | some e => if s.devValid then s else takeId s (impliedId s p e m.port)
  | none => s

theorem idLearnt_known {s : State} (hvalid : s.devValid = true) (p : Nat) (m : HelloMsg) : idLearnt s p m = s := by
  unfold idLearnt
  split
  · exact if_pos hvalid
  · rfl

theorem idLearnt_new {s : State} {p e : Nat} {m : HelloMsg} (hnew : s.devValid = false) (he : m.devId = some e) :
    idLearnt s p m = takeId s (impliedId s p e m.port) := by
  unfold idLearnt
  rw [he]
  exact if_neg (by simp [hnew])

section
variable {s : State} {p : Nat} {m : HelloMsg} (hp : p < 12) (htrain : (getPort s p).state = 1)
  (hinit : (getPort s p).inited = true)
include hp htrain hinit

theorem exec_hello_refused (hdiffers : helloOk s p m = false) :
    exec (.hello p m) s = .next (portDown (nbrNoted s p m) p 5) :=
  congrArg Host.Outcome.next ((if_neg (by simp [hp, htrain, hinit])).trans (if_pos hdiffers))

theorem exec_hello_agrees (hagrees : helloOk s p m = true) :
    exec (.hello p m) s = .next (idLearnt (portJoined s p m) p m) := by
  have hsame : ¬ helloOk (nbrNoted s p m) p m = false := by
    rw [show helloOk (nbrNoted s p m) p m = helloOk s p m from rfl, hagrees]
    decide
  exact congrArg Host.Outcome.next ((if_neg (by simp [hp, htrain, hinit])).trans
    ((if_neg hsame).trans (congrArg (idLearnt · p m) (if_pos htrain))))

end

/-! ## A module's coordinate (R312) -/

/-- What discovery settles of a module. -/
def identity (s : State) : Nat × Bool × Bool := (s.devId, s.devValid, s.fab.isOrigin)

/-- Neither its datelines nor the HELLO to its neighbours change what a module has become. -/
theorem identity_takeId (s : State) (id : Nat) : (takeId s id).devId = id ∧ (takeId s id).devValid = true ∧
    (takeId s id).fab.isOrigin = s.fab.isOrigin := by
  have hid : identity (takeId s id) = (id, true, s.fab.isOrigin) := by
    unfold takeId
    exact (foldl_part identity (by intros; rfl) ..).trans (foldl_part identity (by intros; rfl) ..)
  simpa only [identity, Prod.mk.injEq] using hid

/-! ## ORIGIN (R312) -/

theorem portStep_flood (except : Option Nat) (op : FlitOp) (stamp : Word) (ws : List Word) :
    PortStep (fun t p => if some p = except then t else sendLink t p op stamp ws) where
  speaks t p := by split <;> exact ⟨rfl, rfl, rfl⟩
  other t p q hq := by
    split
    · rfl
    · exact getPort_sendLink_ne _ _ _ _ _ hq

/-- A flooded message goes out on every UP port but the one it came by. -/
theorem linkSent_flood (s : State) {except : Option Nat} (op : FlitOp) (stamp : Word) (ws : List Word) {q : Nat}
    (hq : q ∈ upPorts s) (hne : some q ≠ except) : linkSent s (flood s except op stamp ws) q op ws := by
  obtain ⟨u, -, hport, hfold⟩ := (portStep_flood except op stamp ws).getPort_foldl_of_mem (nodup_upPorts s) hq s
  have hown := linkSent_sendLink u q op stamp ws
  unfold linkSent at hown ⊢
  unfold flood
  rwa [hfold, if_neg hne, ← hport]

/-- The best serial known, as ORIGIN carries it. -/
def originWords (s : State) : List Word := [s.fab.bestSerial, Word.flag s.fab.bestMaster 0]

theorem foldl_sendOrigin_eq (p : Nat) (qs : List Nat) (s : State) :
    qs.foldl (fun t q => if q = p then t else sendOrigin t q) s =
      qs.foldl (fun t q => if some q = some p then t else sendLink t q .origin 0 (originWords s)) s := by
  induction qs generalizing s with
  | nil => rfl
  | cons q qs ih =>
    rw [List.foldl_cons, List.foldl_cons, ih]
    by_cases hq : q = p
    · rw [if_pos hq, if_pos (congrArg some hq)]
    · rw [if_neg hq, if_neg (by simpa using hq)]
      rfl

/-- A better serial is taken. -/
def originTaken (s : State) (serial : Word) (masterEn : Bool) : State :=
  { s with fab := { s.fab with bestSerial := serial, bestMaster := masterEn, bestAt := now s } }

theorem exec_origin_better {s : State} {serial : Word} {masterEn : Bool} (hbetter : betterOrigin s serial masterEn = true)
    (p : Nat) : exec (.origin p serial masterEn) s =
      .next (flood (originTaken s serial masterEn) (some p) .origin 0 [serial, Word.flag masterEn 0]) :=
  congrArg Host.Outcome.next ((if_neg (by simp [hbetter])).trans (foldl_sendOrigin_eq ..))

/-- The best origin known, and since when. -/
def bestOrigin (s : State) : Word × Bool × Nat := (s.fab.bestSerial, s.fab.bestMaster, s.fab.bestAt)

theorem best_flood (s : State) (except : Option Nat) (op : FlitOp) (stamp : Word) (ws : List Word) :
    (flood s except op stamp ws).fab.bestSerial = s.fab.bestSerial ∧
      (flood s except op stamp ws).fab.bestMaster = s.fab.bestMaster ∧
      (flood s except op stamp ws).fab.bestAt = s.fab.bestAt := by
  have hbest : bestOrigin (flood s except op stamp ws) = bestOrigin s :=
    foldl_part bestOrigin (by intros; split <;> rfl) ..
  simpa only [bestOrigin, Prod.mk.injEq] using hbest

/-- This module is the origin. -/
def originSelf (s : State) : State := { s with fab := { s.fab with isOrigin := true } }

theorem exec_originQuiet_best {s : State} (hnew : s.devValid = false) (hquiet : 2 ^ 26 ≤ since s s.fab.bestAt)
    (hstep : 4 ≤ s.power.step) (hbest : s.fab.bestSerial = s.part.serial)
    (hsettled : ∀ p < 12, (getPort s p).state ≠ 1 ∧ (getPort s p).state ≠ 3) :
    exec .originQuiet s = .next (takeId (originSelf s) 0) := by
  have hports : ports.all (fun p => (getPort s p).state != 1 && (getPort s p).state != 3) = true := by
    simpa [ports] using hsettled
  refine congrArg Host.Outcome.next (if_neg ?_)
  simp only [not_or, hnew, hports, hbest]
  exact ⟨by decide, by omega, by decide, by omega, by simp⟩

/-! ## HZ_PCTL (R329) -/

/-- The reach that a value asks for; reserved ones read as 0. -/
def reachOf (v : Word) : Nat := if v.field 1 0 < 2 then v.field 1 0 else 0

/-- The port with the enable and the reach that a write gives it. -/
def pctlSet (s : State) (p : Nat) (v : Word) : State := updPort s p (fun x => { x with en := v.bit 3, reach := reachOf v })

theorem getPort_pctlSet (s : State) (p : Nat) (v : Word) :
    getPort (pctlSet s p v) p = { getPort s p with en := v.bit 3, reach := reachOf v } := getPort_updPort_self ..

theorem exec_hzPctl {q : IoReq} {p : Nat} {v : Word} {s : State} {i : Instr} (hp : p < 12) (hpwr : s.power.pwrOk = true)
    (hi : i = .hzPctlEnClear q p v ∨ i = .hzPctlEnSet q p v ∨ i = .hzPctlReach q p v) :
    exec i s = .next (writePctl s p v) := by
  have hwrite : mainReg s (if 12 ≤ p then s else writePctl s p v) = writePctl s p v :=
    (if_pos hpwr).trans (if_neg (by omega))
  rcases hi with rfl | rfl | rfl <;> exact congrArg Host.Outcome.next hwrite

section
variable {s : State} {p : Nat} {v : Word}

theorem writePctl_trains (hen : v.bit 3 = true) (hidle : (getPort s p).state = 0 ∨ (getPort s p).state = 4) :
    writePctl s p v = trainPort (pctlSet s p v) p := (if_pos hen).trans (if_pos hidle.symm)

theorem writePctl_enabled (hen : v.bit 3 = true) (h0 : (getPort s p).state ≠ 0) (h4 : (getPort s p).state ≠ 4) :
    writePctl s p v = pctlSet s p v := (if_pos hen).trans (if_neg (by simp [h0, h4]))

theorem writePctl_disabled (hen : v.bit 3 = false) (hidle : (getPort s p).state = 0 ∨ (getPort s p).state = 6) :
    writePctl s p v = pctlSet s p v := (if_neg (by simp [hen])).trans (if_pos hidle)

theorem writePctl_takesDown (hen : v.bit 3 = false) (h0 : (getPort s p).state ≠ 0) (h6 : (getPort s p).state ≠ 6) :
    writePctl s p v = portDown (pctlSet s p v) p 4 := (if_neg (by simp [hen])).trans (if_neg (by simp [h0, h6]))

end

theorem getPort_trainPort (s : State) (p : Nat) :
    getPort (trainPort s p) p = { getPort s p with state := 1, since := now s, inited := false } :=
  getPort_updPort_self ..

/-! ## O48 -/

/-- Settles O48: a port's training, its HELLO, the best serial and the writes of its control, each by its own lemmas. -/
theorem portsTrainAndPair : Obligations.PortsTrainAndPair := by
  unfold Obligations.PortsTrainAndPair
  refine ⟨?training, ?hello, ?origin, fun s hnew hquiet hstep hbest hsettled => ?quiet, ?control⟩
  case training =>
    intro p w s hp htrain x
    have hexec := exec_portTrained_training hp htrain w
    have hwidth : (getPort (phyTrained s p) p).width = x.width := by rw [getPort_phyTrained]
    refine ⟨fun hwide hsame => ⟨_, hexec, ?_⟩,
      fun hwide hother => ⟨_, hexec, fun hfirst hfull => ?_, fun hchange => ?_⟩,
      fun hnarrow => ⟨_, hexec, setWidth_narrow hnarrow ..⟩,
      fun hlate => ⟨_, exec_portTrainingTimeout_late hp htrain hlate, rfl⟩, fun fr hfirst hgood => ?_⟩
    · rw [setWidth_quiet hwide (.inl (hwidth.trans hsame.symm)), getPort_updPort_self, getPort_phyTrained, hsame]
    · exact setWidth_quiet hwide (.inr ⟨hwidth.trans hfirst, hfull⟩)
    · exact setWidth_changed hwide (by rw [hwidth]; exact hother.symm) (by rwa [hwidth])
    · obtain ⟨t, f, g, hinit, hf, hg, hport⟩ := exec_initFrame_first hp htrain hfirst hgood
      refine ⟨t, hinit, ?_⟩
      rw [hport]
      exact ⟨rfl, rfl, rfl, rfl, creditsFor_initialized x, f, g, rfl, hf, hg⟩
  case hello =>
    intro p m s hp htrain hinit u
    refine ⟨fun hagrees hvalid => ⟨_, exec_hello_agrees hp htrain hinit hagrees, ?_⟩,
      fun hagrees hnew e he => ⟨_, exec_hello_agrees hp htrain hinit hagrees, ?_⟩,
      fun hdiffers => ⟨_, exec_hello_refused hp htrain hinit hdiffers, rfl⟩⟩
    · obtain ⟨f, hf, hport⟩ := getPort_portJoined s p m
      rw [idLearnt_known ((portJoined_devValid s p m).trans hvalid), hport]
      exact ⟨rfl, rfl, rfl, f, rfl, hf⟩
    · obtain ⟨hid, hvalid, -⟩ := identity_takeId (portJoined s p m) (impliedId s p e m.port)
      rw [idLearnt_new ((portJoined_devValid s p m).trans hnew) he, impliedId_congr (portJoined_rlx s p m)]
      exact ⟨hvalid, hid⟩
  case origin =>
    intro p serial en s hbetter
    have hknown : betterOrigin s serial en = true := by simpa [betterOrigin] using hbetter
    obtain ⟨hserial, hmaster, hat⟩ :=
      best_flood (originTaken s serial en) (some p) .origin 0 [serial, Word.flag en 0]
    exact ⟨_, exec_origin_better hknown p, hserial, hmaster, hat, fun q hq hqp =>
      linkSent_flood (originTaken s serial en) .origin 0 _ hq (by simpa using hqp)⟩
  case quiet =>
    obtain ⟨hid, hvalid, horigin⟩ := identity_takeId (originSelf s) 0
    refine ⟨_, exec_originQuiet_best hnew hquiet hstep hbest hsettled, hvalid, hid, ?_⟩
    rw [horigin]
    rfl
  case control =>
    intro q p v s i hp hpwr hi x r
    have hexec := exec_hzPctl hp hpwr hi
    refine ⟨fun hen hidle => ⟨_, hexec, ?_⟩, fun hen h0 h4 => ⟨_, hexec, ?_⟩, fun hen hidle => ⟨_, hexec, ?_⟩,
      fun hen h0 h6 => ⟨_, hexec, ?_⟩⟩
    · rw [writePctl_trains hen hidle, getPort_trainPort, getPort_pctlSet, hen]
      rfl
    · rw [writePctl_enabled hen h0 h4, getPort_pctlSet, hen]
      rfl
    · rw [writePctl_disabled hen hidle, getPort_pctlSet, hen]
      rfl
    · rw [writePctl_takesDown hen h0 h6]
      unfold pctlSet
      rw [hen]
      rfl

end Sys2Proof.Machine
end

section
/-! SUPPORT. The operations of the channel subsystem: each under its subchannel, its messages to the partner and to the
adapters, the CCW that it waits for, its halting, and the records that are mirrored for a neighbour, with O50 and O51 (R338 to
R365). -/

namespace Sys2Proof.Machine

/-! ## Operations by subchannel (R338) -/

@[simp] theorem getOp_putOp_self (s : State) (n : Nat) (o : ChOp) : getOp (putOp s n o) n = some o :=
  (getOp_putOp_eq ..).trans (if_pos rfl)

theorem getOp_freeOp (s : State) (n k : Nat) : getOp (freeOp s n) k = if k = n then none else getOp s k :=
  Assoc.get_del ..

/-! ## Messages (R345, R355) -/

theorem sendFlit_net {s t : State} (htree : t.tree = s.tree) (f : Flit) : (sendFlit t f).tree.net = s.tree.net ++ [f] := by
  rw [← htree]
  rfl

@[simp] theorem sendChs_chs (s : State) (op : FlitOp) (dev zone : Nat) (stamp : Word) (ws : List Word) :
    (sendChs s op dev zone stamp ws).chs = s.chs := rfl

/-- A message to another module's channel subsystem is told, whatever was changed beside the network before it left. -/
theorem told_sendChs {s t : State} (htree : t.tree = s.tree) (op : FlitOp) (dev zone : Nat) (stamp : Word) (ws : List Word) :
    told s (sendChs t op dev zone stamp ws) op dev ws :=
  ⟨_, sendFlit_net htree _, rfl, rfl, rfl⟩

/-- A command record goes out as one posted write with the stamp of its operation (R345). -/
theorem commandRecord_eq_sendFlit {s : State} {n : Nat} {o : ChOp} (hget : getOp s n = some o) (abort : Bool) (code : Nat) :
    ∃ f, commandRecord s n abort code = sendFlit s f ∧ f.op = .adwr ∧ f.stamp = o.jr.stamp := by
  unfold commandRecord
  rw [hget]
  exact ⟨_, rfl, rfl, rfl⟩

/-- A posted write goes out on a link that is up. -/
theorem exec_adwr_up {s : State} {ctl : Nat} (hup : (getPcie s ctl).up = true) (bus : Nat) (d : List Byte) :
    exec (.adwr ctl bus d) s = .next (updPcie s ctl (fun p => { p with posted := p.posted ++ [(bus, d)] })) :=
  congrArg Host.Outcome.next (if_pos hup)

/-- A read goes out on a link that is up. -/
theorem exec_adrd_up {s : State} {ctl : Nat} (hup : (getPcie s ctl).up = true) (bus len ch : Nat) :
    exec (.adrd ctl bus len ch) s = .next (updPcie s ctl (fun p => { p with reads := p.reads ++ [(bus, len, ch)] })) :=
  congrArg Host.Outcome.next (if_pos hup)

/-- A read on a link that is down is answered with kind 5. -/
theorem exec_adrd_down {s : State} {ctl : Nat} (hdown : (getPcie s ctl).up = false) (bus len ch : Nat) :
    exec (.adrd ctl bus len ch) s = .next (sendFlit s (mkFlit s .aderr s.devId 0x121 (getChn s ch).zone 0 [5])) :=
  congrArg Host.Outcome.next (if_neg (by simp [hdown]))

/-! ## A CCW arrives (R340 to R342, R359) -/

theorem exec_ccwFetched_awaited {s : State} {n : Nat} {o : ChOp} (hget : getOp s n = some o) (hwait : o.wait = .ccw)
    (hstate : o.state = 2) (ws : List Word) (res : ReadResult) :
    exec (.ccwFetched n ws res) s = .next (runCcw s n o ws res) := by
  show execCcwFetched n ws res s = _
  simp [execCcwFetched, hget, hwait, hstate]

/-- A chain whose last flags ask for no more pieces ends where it stands. -/
theorem readChain_unchained {flags : Nat} (hlast : flags.testBit 6 = false) (s : State) (zone : Nat) (ws : List Word)
    (res : ReadResult) (dropOk : Bool) (fuel : Nat) (a : Word) (i : Nat) (ps : List (Nat × Nat × Bool)) :
    readChain s zone ws res dropOk (fuel + 1) a i ps flags = (.ok (ps, flags, a), s) :=
  if_pos hlast

section
variable {s u : State} {n : Nat} {o : ChOp} {ws : List Word} {res : ReadResult} {w0 a : Word}

theorem runCcw_error {e : Nat} (hread : readCcw s o.jr.zone o.jr.curCcw ws 0 res = (.error e, u)) :
    runCcw s n o ws res = endOp u n 1 e := by
  simp only [runCcw, hread]

/-- A JUMP to an aligned address that follows no other JUMP is taken. -/
theorem runCcw_jump (hread : readCcw s o.jr.zone o.jr.curCcw ws 0 res = (.ok (0x30000000, a), u))
    (haligned : a.field 3 0 = 0) (hfirst : o.jumped = false) :
    runCcw s n o ws res = putOp u n { o with jumped := true, jr := { o.jr with curCcw := a } } := by
  have hjump : ccwCode 0x30000000 = 0x30 ∧ ccwCount 0x30000000 = 0 ∧ ccwFlags 0x30000000 = 0 ∧
      ccwXform 0x30000000 = 0 ∧ (0x30000000 : Word).field 7 0 = 0 := by decide
  obtain ⟨hcode, hcount, hflags, hxform, hlow⟩ := hjump
  simp only [runCcw, hread, hcode, hcount, hflags, hxform, hlow, haligned, hfirst, ne_eq, not_true_eq_false, or_self,
    Bool.false_eq_true, if_true, if_false]

/-- An OUT of one piece, with nothing dropped and a transform that is allowed, becomes the command in work. -/
theorem runCcw_out (hread : readCcw s o.jr.zone o.jr.curCcw ws 0 res = (.ok (w0, a), u)) (hcode : ccwCode w0 = 0x10)
    (hkind : eKind o.jr.entry = 0) (hreserved : ccwReserved w0 = false) (hlast : (ccwFlags w0).testBit 6 = false)
    (hkept : (ccwFlags w0).testBit 5 = false) (hxform : xformOk 0x10 (ccwXform w0) = true) :
    runCcw s n o ws res = startCommand u n
      (setCommand o w0 [(a.toNat, ccwCount w0, false)] (ccwFlags w0) (o.jr.curCcw + 16) 0) := by
  simp [runCcw, hread, hcode, hkind, hreserved, hkept, hxform, readChain_unchained hlast]

end

/-! ## The status of the command in work (R343, R346, R347) -/

/-- A status that the operation awaits is taken. -/
theorem exec_adst_awaited {s : State} {ctl n : Nat} {o : ChOp} {r : StatusRec} (hget : getOp s n = some o)
    (hwait : o.wait = .status) (hstate : o.state = 2) (hphase : o.jr.phase < 3) (hstamp : o.jr.stamp = r.stamp)
    (hseq : o.jr.seq = r.seq) (hkind : eKind o.jr.entry = 0) (hctl : eCtl o.jr.entry = ctl) :
    exec (.adst ctl n r) s = .next (takeStatus s n o r) := by
  show execAdst ctl n r s = _
  simp [execAdst, hget, hwait, hstate, Nat.not_le.mpr hphase, hstamp, hseq, hkind, hctl]

theorem exec_adst_unmatched {s : State} {n : Nat} (hget : getOp s n = none) (ctl : Nat) (r : StatusRec) :
    exec (.adst ctl n r) s = .next { s with chs := { s.chs with stale := satAdd 16 s.chs.stale 1 } } := by
  show execAdst ctl n r s = _
  simp only [execAdst, hget]

/-- With no notice and no residual, a command completes once its data has moved. -/
theorem afterData_complete {s : State} {n : Nat} {o : ChOp} (hget : getOp s n = some o)
    (hnotice : o.jr.devStatus.testBit 13 = false) (hresidual : o.jr.residual = 0) : afterData s n = completeCcw s n := by
  simp [afterData, hget, hnotice, hresidual]

/-- An OUT whose status ends it without error or residual completes its CCW. -/
theorem takeStatus_out_complete {o : ChOp} {r : StatusRec} (hupc : o.upc = none) (hop : o.opcode = 0x10)
    (hend : r.status.testBit 15 = true) (herror : r.status.testBit 14 = false) (hnotice : r.status.testBit 13 = false)
    (hresidual : r.residual = 0) (s : State) (n : Nat) : takeStatus s n o r =
      completeCcw (putOp s n { o with jr := { o.jr with devStatus := r.status % 65536, residual := 0 } }) n := by
  have hlow : (r.status % 65536).testBit 13 = false := by
    rw [show 65536 = 2 ^ 16 from rfl, Nat.testBit_mod_two_pow, hnotice, Bool.and_false]
  simp only [takeStatus, hupc, hop, hend, herror, hresidual, Nat.zero_mod]
  exact afterData_complete (getOp_putOp_self ..) hlow rfl

/-! ## Deadlines, halts and faults (R339, R354, R359, R360, R363, R365) -/

theorem exec_operationDeadline_due {s : State} {n : Nat} {o : ChOp} (hget : getOp s n = some o)
    (hdue : pastDue s o.jr = true) : exec (.operationDeadline n) s = .next (haltOp s n 2) := by
  show execOperationDeadline n s = _
  simp only [execOperationDeadline, hget, if_pos hdue]

theorem haltOp_pending {s : State} {n : Nat} {o : ChOp} (hget : getOp s n = some o) (hstate : o.state = 1) :
    haltOp s n 2 = endOpen s n 2 := by
  simp only [haltOp, hget, if_pos hstate, if_true]

/-- An end that has been decided is not decided again, it is only counted. -/
theorem haltOp_decided {s : State} {n : Nat} {o : ChOp} (hget : getOp s n = some o) (hstate : o.state = 4)
    (hphase : 3 ≤ o.jr.phase) (kind : Nat) :
    haltOp s n kind = { s with chs := { s.chs with dup := satAdd 16 s.chs.dup 1 } } := by
  simp [haltOp, endOp, hget, hstate, hphase]

/-- The mover channel that an operation holds, where it holds one, is to pause. -/
def moverPaused (s : State) (o : ChOp) : State :=
  match o.mover with
  | some k => updChn s k (fun c => { c with pause := true })
  | none => s

@[simp] theorem moverPaused_tree (s : State) (o : ChOp) : (moverPaused s o).tree = s.tree := by
  unfold moverPaused
  split <;> rfl

@[simp] theorem now_moverPaused (s : State) (o : ChOp) : now (moverPaused s o) = now s := by
  unfold moverPaused
  split <;> rfl

theorem getChn_moverPaused (s : State) {o : ChOp} {k : Nat} (hmover : o.mover = some k) :
    (getChn (moverPaused s o) k).pause = true := by
  unfold moverPaused
  rw [hmover]
  exact congrArg Chn.pause (getChn_updChn_self ..)

/-- An ACTIVE operation on an adapter that is halted: HALTING from now on, its mover paused. -/
def haltingSince (s : State) (n kind : Nat) (o : ChOp) : State :=
  putOp (moverPaused s o) n { o with state := 3, haltAt := some (now s), haltKind := kind }

/-- Halting an ACTIVE operation on an adapter sends the abort record and ends nothing yet. -/
theorem haltOp_active {s : State} {n : Nat} {o : ChOp} (hget : getOp s n = some o) (hstate : o.state = 2)
    (hkind : eKind o.jr.entry = 0) (kind : Nat) :
    haltOp s n kind = commandRecord (haltingSince s n kind o) n true o.opcode := by
  have habort : sendAbort (haltingSince s n kind o) n = commandRecord (haltingSince s n kind o) n true o.opcode := by
    simp only [sendAbort, haltingSince, getOp_putOp_self, if_pos hkind]
  rw [← habort]
  simp only [haltOp, hget, hstate, hkind, if_true, Nat.reduceEqDiff, if_false, false_and]
  rw [haltingSince, ← now_moverPaused s o]
  rfl

theorem exec_haltStatusTimeout_late {s : State} {n k : Nat} {o : ChOp} (hget : getOp s n = some o) (hstate : o.state = 3)
    (hsince : o.haltAt = some k) (hlate : 2 ^ 22 ≤ (now s + 2 ^ 64 - k) % 2 ^ 64) :
    exec (.haltStatusTimeout n) s = .next (endHalting s n) := by
  show execHaltStatusTimeout n s = _
  simp only [execHaltStatusTimeout, hget, hstate, hsince, if_pos (Or.inl hlate)]

theorem exec_microwordRunaway_past {s : State} {n : Nat} {o : ChOp} (hget : getOp s n = some o) (hmicro : o.upc.isSome)
    (hsteps : 65536 ≤ o.usteps) : exec (.microwordRunaway n) s = .next (microFault s n) := by
  show execMicrowordRunaway n s = _
  simp only [execMicrowordRunaway, hget, if_pos (And.intro hmicro hsteps)]

theorem exec_ucodeLoadTimeout_late {s : State} {m : Mbx} {k : Nat} {x : List (Nat × Nat) × Nat × Nat}
    (hload : s.chs.load = some (m, k, x)) (hlate : 2 ^ 26 ≤ (now s + 2 ^ 64 - k) % 2 ^ 64) :
    exec .ucodeLoadTimeout s =
      .next (setOutcome { s with chs := { s.chs with load := none } } m (errRes 0x0009)) := by
  show execUcodeLoadTimeout s = _
  simp only [execUcodeLoadTimeout, hload, if_pos hlate]

/-- A processor that faults with none of the operations is counted and reported, and nothing is assigned anew. -/
theorem exec_channelProcessorFault_unloaded {s : State} {cp : Nat} (hcp : cp < 32) (hruns : (getCp s cp).state = 0) :
    let u := faultAt (updCp s cp (fun c => { c with faults := satAdd 16 c.faults 1, state := 1 })) 0x0A 2 0 0 0
      (BitVec.ofNat 64 cp) 0
    (∀ x ∈ u.chs.ops, x.2.jr.cp ≠ cp) → exec (.channelProcessorFault cp) s = .next u := by
  intro u hunloaded
  have hnone : u.chs.ops.filter (fun o => o.2.jr.cp == cp) = [] :=
    List.filter_eq_nil_iff.mpr fun x hx => by simpa using hunloaded x hx
  show execChannelProcessorFault cp s = _
  rw [execChannelProcessorFault, if_neg (not_or.mpr ⟨Nat.not_le.mpr hcp, not_not.mpr hruns⟩)]
  exact congrArg Host.Outcome.next (congrArg (List.foldl _ u) hnone)

/-! ## O50 -/

/-- Settles O50: each row's branch is decided by its hypotheses; what halting leaves is read from `haltingSince`. -/
theorem channelProgramsRun : Obligations.ChannelProgramsRun := by
  unfold Obligations.ChannelProgramsRun
  refine ⟨?ccw, ?status, fun ctl n r s hget => ⟨_, exec_adst_unmatched hget ctl r, rfl⟩, ?adapters, ?deadline,
    fun n o s hget hdue hstate hphase =>
      ⟨_, (exec_operationDeadline_due hget hdue).trans (congrArg _ (haltOp_decided hget hstate hphase 2)), rfl⟩,
    fun n k o s hget hstate hsince hlate => ⟨_, exec_haltStatusTimeout_late hget hstate hsince hlate, rfl⟩,
    fun n o s hget hmicro hsteps => ⟨_, exec_microwordRunaway_past hget hmicro hsteps, rfl⟩,
    fun m k x s hload hlate => ⟨_, exec_ucodeLoadTimeout_late hload hlate, rfl⟩,
    fun cp s hcp hruns hunloaded => ⟨_, exec_channelProcessorFault_unloaded hcp hruns hunloaded, rfl⟩⟩
  case ccw =>
    intro n o ws res u s hget hwait hstate
    have hexec := exec_ccwFetched_awaited hget hwait hstate ws res
    exact ⟨fun e hread => ⟨_, hexec, runCcw_error hread⟩,
      fun a hread haligned hfirst => ⟨_, hexec, runCcw_jump hread haligned hfirst⟩,
      fun w0 a hread hcode hkind hreserved hlast hkept hxform =>
        ⟨_, hexec, runCcw_out hread hcode hkind hreserved hlast hkept hxform⟩⟩
  case status =>
    intro ctl n o r s hget hwait hstate hphase hstamp hseq hkind hctl hupc hop hend herror hnotice hresidual
    exact ⟨_, exec_adst_awaited hget hwait hstate hphase hstamp hseq hkind hctl,
      takeStatus_out_complete hupc hop hend herror hnotice hresidual s n⟩
  case adapters =>
    intro ctl bus len ch d s
    refine ⟨fun hup => ⟨⟨_, exec_adwr_up hup bus d, ?_⟩, ⟨_, exec_adrd_up hup bus len ch, ?_⟩⟩,
      fun hdown => ⟨_, exec_adrd_down hdown bus len ch, ⟨_, rfl, rfl, rfl, rfl⟩⟩⟩
    · rw [getPcie_updPcie_self]
    · rw [getPcie_updPcie_self]
  case deadline =>
    intro n o s hget hdue _
    have hexec := exec_operationDeadline_due hget hdue
    refine ⟨fun hpending => ⟨_, hexec, haltOp_pending hget hpending⟩, fun hactive hkind => ⟨_, hexec, ?_⟩⟩
    have hheld : getOp (haltingSince s n 2 o) n = some _ := getOp_putOp_self ..
    obtain ⟨f, hsent, hop, hstamp⟩ := commandRecord_eq_sendFlit hheld true o.opcode
    rw [haltOp_active hget hactive hkind, hsent]
    exact ⟨⟨_, hheld, rfl, rfl, rfl⟩, fun k hmover => getChn_moverPaused s hmover, f,
      sendFlit_net (moverPaused_tree s o) f, hop, hstamp⟩

/-! ## The local copies and the partner's (R354, R355) -/

/-- An operation whose journal write has nothing more to wait for goes on with what follows it. -/
theorem journalDone_putOp (s : State) (n nx : Nat) {o : ChOp} (hdone : o.wait = .journal nx true false) :
    journalDone (putOp s n o) n = journalNext (putOp s n o) n nx := by
  simp only [journalDone, getOp_putOp_self, hdone]

/-- An operation whose journal write still waits, for its local copies or for the partner, stays as it is. -/
theorem journalDone_putOp_waits (s : State) (n : Nat) {nx : Nat} {o : ChOp} {copies partner : Bool}
    (hwait : o.wait = .journal nx copies partner) (hmore : copies = false ∨ partner = true) :
    journalDone (putOp s n o) n = putOp s n o := by
  rcases hmore with rfl | rfl <;> simp only [journalDone, getOp_putOp_self, hwait]

/-- Once its local copies are written, an operation waits for the partner only. -/
theorem exec_journalWriteDone_copies {s : State} {n nx : Nat} {o : ChOp} {partner : Bool} (hget : getOp s n = some o)
    (hwait : o.wait = .journal nx false partner) : exec (.journalWriteDone n) s =
      .next (journalDone (putOp s n { o with wait := .journal nx true partner }) n) := by
  show execJournalWriteDone n s = _
  simp only [execJournalWriteDone, hget, hwait]

/-- The partner's answer to the record's own count ends the wait for it. -/
theorem exec_jmack_awaited {s : State} {n nx : Nat} {o : ChOp} {copies : Bool} (hget : getOp s n = some o)
    (hwait : o.wait = .journal nx copies true) : exec (.jmack n o.jr.count) s =
      .next (journalDone (putOp s n { o with
        wait := .journal nx copies false, ackedEnd := o.ackedEnd || decide (o.jr.phase = 3) }) n) := by
  show execJmack n o.jr.count s = _
  simp only [execJmack, hget, hwait, if_true]

/-! ## Records mirrored for a neighbour (R355, R356) -/

/-- An offered record has a higher update count than the copy that is held, if any. -/
def offeredNewer (s : State) (k : Nat) (r : JRec) : Bool :=
  match Assoc.get s.chs.mirrors k with
  | some h => decide (h.count < r.count)
  | none => true

theorem offeredNewer_iff {s : State} {k : Nat} {r : JRec} :
    offeredNewer s k r = true ↔ ∀ h, Assoc.get s.chs.mirrors k = some h → h.count < r.count := by
  unfold offeredNewer
  cases Assoc.get s.chs.mirrors k with
  | none => simp
  | some h => simp

/-- The mirror store once a record was offered to it: the record with the higher update count is held. -/
def mirrorOffered (s : State) (k : Nat) (r : JRec) : State :=
  if offeredNewer s k r then { s with chs := { s.chs with mirrors := Assoc.put s.chs.mirrors k r } } else s

@[simp] theorem mirrorOffered_tree (s : State) (k : Nat) (r : JRec) : (mirrorOffered s k r).tree = s.tree := by
  unfold mirrorOffered
  split <;> rfl

theorem mirrors_mirrorOffered_newer {s : State} {k : Nat} {r : JRec}
    (hnewer : ∀ h, Assoc.get s.chs.mirrors k = some h → h.count < r.count) :
    Assoc.get (mirrorOffered s k r).chs.mirrors k = some r := by
  rw [mirrorOffered, if_pos (offeredNewer_iff.mpr hnewer)]
  exact (Assoc.get_put ..).trans (if_pos rfl)

theorem mirrorOffered_older {s : State} {k : Nat} {r h : JRec} (hheld : Assoc.get s.chs.mirrors k = some h)
    (holder : r.count ≤ h.count) : mirrorOffered s k r = s :=
  if_neg fun hnewer => Nat.not_lt.mpr holder (offeredNewer_iff.mp hnewer h hheld)

theorem exec_jmw_neighbour {s : State} {p d : Nat} (hneighbour : (getPort s p).nbrId = some d) (r : JRec) :
    exec (.jmw p r) s = .next (sendChs (mirrorOffered s (p * 65536 + r.sub % 65536) r) .jmack d r.zone r.stamp
      [BitVec.ofNat 64 r.sub, BitVec.ofNat 64 r.count]) := by
  show execJmw p r s = _
  simp only [execJmw, hneighbour]
  rfl

theorem exec_jhand_present {s : State} {dev : Nat} (hpresent : lostDev s dev = false) (r : JRec) :
    exec (.jhand dev r) s = .next (mirrorOffered s (portOfDev s dev * 65536 + r.sub % 65536) r) :=
  congrArg Host.Outcome.next (if_neg (by simp [hpresent]))

/-- A release with the stamp of the copy that is held drops it. -/
theorem exec_jrel_held {s : State} {p d sub : Nat} {r : JRec} (hneighbour : (getPort s p).nbrId = some d)
    (hheld : Assoc.get s.chs.mirrors (p * 65536 + sub % 65536) = some r) : exec (.jrel p sub r.stamp) s =
      .next (sendChs { s with chs := { s.chs with mirrors := Assoc.del s.chs.mirrors (p * 65536 + sub % 65536) } } .jrelack d 0
        r.stamp [BitVec.ofNat 64 sub, r.stamp]) := by
  show execJrel p sub r.stamp s = _
  simp only [execJrel, hneighbour, hheld, if_true]

theorem exec_jrelack_awaited {s : State} {n : Nat} {o : ChOp} (hget : getOp s n = some o) (hwait : o.wait = .jrelack) :
    exec (.jrelack n o.jr.stamp) s = .next (freeOp s n) := by
  show execJrelack n o.jr.stamp s = _
  simp [execJrelack, hget, hwait]

theorem exec_jdrop_neighbour {s : State} {p d : Nat} (hneighbour : (getPort s p).nbrId = some d) :
    exec (.jdrop p d) s = .next (dropMirrors s p) :=
  congrArg Host.Outcome.next (if_pos hneighbour)

/-! ## Completion queues (R350, R351) -/

/-- A head is read again for the zone of the first completion that waits. -/
theorem exec_queueHeadReread_waiting {s : State} {a : Word} {q : PostQueue} {n : Nat} {o : ChOp} {rest : List Nat}
    (hqueue : Assoc.get s.chs.queues a.toNat = some q) (hwaits : q.waiting = n :: rest) (hget : getOp s n = some o) :
    exec (.queueHeadReread a) s = .next (assignSlots a.toNat 65536 (rereadHead s a.toNat (eZone o.jr.entry))) := by
  show execQueueHeadReread a s = _
  simp [execQueueHeadReread, hqueue, hwaits, hget]

theorem exec_completionPosted_due {s : State} {n : Nat} {o : ChOp} (hget : getOp s n = some o)
    (hwait : o.wait = .writeEntry) : exec (.completionPosted n) s = .next (writeEntry s n) := by
  show execCompletionPosted n s = _
  simp [execCompletionPosted, hget, hwait]

/-! ## O51 -/

/-- Settles O51: a journal write goes on when neither the local copies nor the partner is awaited; the mirror store holds the
record that `mirrorOffered` leaves. -/
theorem journalMirrored : Obligations.JournalMirrored := by
  unfold Obligations.JournalMirrored
  refine ⟨fun n nx o s hget => ?journal, ?mirror, ?release, fun n o s hget hwait =>
      ⟨_, exec_jrelack_awaited hget hwait, (getOp_freeOp ..).trans (if_pos rfl),
        fun k hk => (getOp_freeOp ..).trans (if_neg hk)⟩,
    fun p d s hneighbour => ⟨_, exec_jdrop_neighbour hneighbour, rfl⟩,
    fun dev r s hpresent hnewer => ⟨_, exec_jhand_present hpresent r, mirrors_mirrorOffered_newer hnewer⟩,
    fun a q n o rest s hqueue hwaits hget => ⟨_, exec_queueHeadReread_waiting hqueue hwaits hget, rfl⟩,
    fun n o s hget hwait => ⟨_, exec_completionPosted_due hget hwait, rfl⟩⟩
  case journal =>
    exact ⟨fun hwait => ⟨_, exec_journalWriteDone_copies hget hwait, journalDone_putOp s n nx rfl⟩,
      fun hwait => ⟨_, exec_journalWriteDone_copies hget hwait, journalDone_putOp_waits s n rfl (.inr rfl)⟩,
      fun hwait => ⟨_, exec_jmack_awaited hget hwait, journalDone_putOp s n nx rfl⟩,
      fun hwait => ⟨_, exec_jmack_awaited hget hwait, journalDone_putOp_waits s n rfl (.inl rfl)⟩⟩
  case mirror =>
    intro p d r s hneighbour
    have hexec := exec_jmw_neighbour hneighbour r
    have htold := told_sendChs (mirrorOffered_tree s (p * 65536 + r.sub % 65536) r) .jmack d r.zone r.stamp
      [BitVec.ofNat 64 r.sub, BitVec.ofNat 64 r.count]
    exact ⟨fun hnewer => ⟨_, hexec, mirrors_mirrorOffered_newer hnewer, htold⟩,
      fun h hheld holder => ⟨_, hexec, (sendChs_chs ..).trans (congrArg State.chs (mirrorOffered_older hheld holder)), htold⟩⟩
  case release =>
    intro p d sub r s hneighbour hheld
    exact ⟨_, exec_jrel_held hneighbour hheld, (Assoc.get_del ..).trans (if_pos rfl), told_sendChs rfl ..⟩

end Sys2Proof.Machine
end

section
/-! SUPPORT. The mover channels: writes of their registers, the descriptor at head, beats from read to confirmed write,
write-backs that are visible, and the stops of a channel and of an engine, with O52 (R372 to R391). -/

namespace Sys2Proof.Machine

/-! ## The registers of a channel (R374, R384, R385, R387, R391) -/

section
variable {s : State} {q : IoReq} {n : Nat} {v : Word} (hn : n < 1024) (hpwr : s.power.pwrOk = true)
include hn hpwr

theorem exec_chnTailWrite : exec (.chnTailWrite q n v) s = .next (writeTail s q n v) :=
  congrArg Host.Outcome.next ((mainReg_of_power _ hpwr).trans (if_neg (Nat.not_le.mpr hn)))

theorem exec_chnStatHaltedClear : exec (.chnStatHaltedClear q n) s = .next (clearHalted s q n) :=
  congrArg Host.Outcome.next ((mainReg_of_power _ hpwr).trans (if_neg (Nat.not_le.mpr hn)))

theorem exec_chnCtlPause : exec (.chnCtlPause q n v) s = .next (writePause s q n v) :=
  congrArg Host.Outcome.next ((mainReg_of_power _ hpwr).trans (if_neg (Nat.not_le.mpr hn)))

theorem exec_chnZoneHold : exec (.chnZoneHold q n v) s = .next (writeChnZone s q n v) :=
  congrArg Host.Outcome.next ((mainReg_of_power _ hpwr).trans (if_neg (Nat.not_le.mpr hn)))

theorem exec_chnZoneEn : exec (.chnZoneEn q n v) s = .next (writeChnZone s q n v) :=
  congrArg Host.Outcome.next ((mainReg_of_power _ hpwr).trans (if_neg (Nat.not_le.mpr hn)))

end

/-- A channel that is to stop stands as it was written, unless it waits for ownership. -/
theorem afterStop_stopping {s : State} {n : Nat} (hstop : chnStopping (getChn s n) = true)
    (howned : (getChn s n).ownWait = false) : afterStop s n = s := by
  simp only [afterStop, hstop, howned, if_true, Bool.false_eq_true, if_false]

/-- A channel without a descriptor that nothing stops is no longer paused, and that is all. -/
theorem afterStop_idle {s : State} {n : Nat} (hgo : chnStopping (getChn s n) = false) (hidle : (getChn s n).desc = none) :
    afterStop s n = updChn s n (fun c => { c with paused := false }) := by
  simp only [afterStop, resumeChn, hgo, hidle, Bool.false_eq_true, if_false]

section
variable {s : State} {n : Nat} (q : IoReq) {v : Word} (hsoft : opChannel s n = false)
include hsoft

theorem writeTail_within (hring : ¬ 2 ^ (getChn s n).m < (v.field 31 0 + 2 ^ 32 - (getChn s n).head) % 2 ^ 32)
    (hout : (getChn s n).en = false) :
    writeTail s q n v = updChn s n (fun c => { c with tail := v.field 31 0, ownWait := false }) := by
  simp only [writeTail, hsoft, hring, hout, Bool.false_eq_true, false_and, if_false]

theorem writeTail_beyond (hring : 2 ^ (getChn s n).m < (v.field 31 0 + 2 ^ 32 - (getChn s n).head) % 2 ^ 32) :
    writeTail s q n v = discard (updChn s n (fun c => { c with tailBad := satAdd 4 c.tailBad 1 })) q (offUser n 8) := by
  simp only [writeTail, hsoft, Bool.false_eq_true, if_false, if_pos hring]

theorem clearHalted_alive (halive : (getChn s n).dead = false) :
    clearHalted s q n = updChn s n (fun c => { c with halted := false }) := by
  simp only [clearHalted, hsoft, halive, Bool.false_eq_true, if_false]

theorem writePause_soft (v : Word) :
    writePause s q n v = afterStop (updChn s n (fun c => { c with pause := v.bit 0 })) n :=
  if_neg (by simp [hsoft])

/-- In service, a word that changes nothing but hold writes hold. -/
theorem writeChnZone_hold (hin : (getChn s n).en = true)
    (honly : setBit (chnZoneWord (getChn s n)) 26 (v.bit 26) = BitVec.ofNat 64 (2 ^ 26 * (v.toNat / 2 ^ 26))) :
    writeChnZone s q n v = afterStop (updChn s n (fun c => { c with hold := v.bit 26 })) n := by
  simp only [writeChnZone, hsoft, hin, if_true, Bool.false_eq_true, if_false, if_pos honly]

/-- A channel is put into service while its zone has fewer than its quota. -/
theorem writeChnZone_enable {ws : List Word} (hout : (getChn s n).en = false) (hv : v.bit 63 = true)
    (hentry : (getZone s (v.field 61 50)).entry = some ws)
    (hquota : zoneChns s (v.field 61 50) n < (wordAt ws 4).field 52 42) :
    writeChnZone s q n v = updChn s n (fun c => freshChn (setChnZone c v)) := by
  simp only [writeChnZone, hsoft, hout, zoneEntry, hentry, if_pos hquota, hv, if_true, Bool.false_eq_true, if_false]

end

/-! ## The descriptor at head (R376, R377) -/

/-- A channel in service whose next descriptor is to be fetched. -/
structure FetchReady (s : State) (n : Nat) : Prop where
  inRange : n < 1024
  soft : opChannel s n = false
  inService : (getChn s n).en = true
  admitted : (getChn s n).admitted = true
  idle : (getChn s n).desc = none
  written : (getChn s n).wb = none
  running : (getChn s n).halted = false
  going : chnStopping (getChn s n) = false
  owned : (getChn s n).ownWait = false
  work : (getChn s n).head ≠ (getChn s n).tail
  engineOn : s.mov.disable.testBit (n % 16) = false

/-- The channel takes what stood at head: a descriptor of its own goes into work, another stops it there. -/
def takeFetched (s : State) (n : Nat) (ws : List Word) : State :=
  if (wordAt ws 0).bit 63 then beginDesc s n (descOfWords ws) else updChn s n (fun c => { c with ownWait := true })

theorem exec_descriptorFetched_ready {s u : State} {n : Nat} {bs : List Byte} (ws : List Word) (res : ReadResult)
    (hready : FetchReady s n)
    (hread : readAnswer s false (ringAddr (getChn s n) (getChn s n).head).toNat 64 (getChn s n).zone
      (match res with | .ok _ => ReadResult.ok (wordsBytes ws) | r => r) = (.ok bs, u)) :
    exec (.descriptorFetched n ws res) s = .next (takeFetched u n (bytesWords 8 bs)) := by
  obtain ⟨hn, hsoft, hen, hadm, hdesc, hwb, hhalted, hgo, hown, hwork, hon⟩ := hready
  refine congrArg Host.Outcome.next ((if_neg ?_).trans ?_)
  · simp [Nat.not_le.mpr hn, hsoft, hen, hadm, hdesc, hwb, hhalted, hgo, hown, hwork, hon]
  · cases res
    all_goals
      dsimp only at hread ⊢
      rw [hread]
      rfl

/-! ## The reads of a beat (R378) -/

/-- The hysteresis writes nothing but `reading`. -/
theorem paceChn_eq (c : Chn) : ∃ r, paceChn c = { c with reading := r } := by
  unfold paceChn
  dsimp only
  split_ifs
  exacts [⟨_, rfl⟩, ⟨_, rfl⟩, ⟨_, rfl⟩]

/-- The channel once the reads of beat `b` (source, destination, length) are under way. -/
def beatTaken (b : Nat × Nat × Nat) (c : Chn) : Chn :=
  paceChn { c with
    beats := c.beats ++ [⟨c.nextBeat, b.1, b.2.1, b.2.2, none, false⟩], nextBeat := c.nextBeat + 1
    count := c.count - b.2.2, tagRead := false }

theorem beatTaken_eq (b : Nat × Nat × Nat) (c : Chn) : ∃ r, beatTaken b c = { c with
    beats := c.beats ++ [⟨c.nextBeat, b.1, b.2.1, b.2.2, none, false⟩], nextBeat := c.nextBeat + 1
    count := c.count - b.2.2, tagRead := false, reading := r } :=
  paceChn_eq _

/-- The reads of a beat leave: to a PCIe bus, or to the home of each of its lines that is not of this module. -/
def sendReads (s : State) (zone : Nat) (d : Desc) (b : Nat × Nat × Nat) : State :=
  if srcPcie d then
    sendFlit s (mkFlit s .adrd s.devId (0x140 + b.1 / 2 ^ 63) zone 0 [BitVec.ofNat 64 (b.1 % 2 ^ 63), BitVec.ofNat 64 b.2.2])
  else if localMem s b.1 then s
  else (readLines b.1 b.2.2).foldl (fun s a =>
    sendFlit s (mkFlit s .rdOnce (addrDev (BitVec.ofNat 64 a)) 0x120 zone 0 [BitVec.ofNat 64 a])) s

theorem sendReads_mov (s : State) (zone : Nat) (d : Desc) (b : Nat × Nat × Nat) : (sendReads s zone d b).mov = s.mov := by
  unfold sendReads
  split_ifs
  · rfl
  · rfl
  · exact foldl_part State.mov (by intros; rfl) ..

theorem sendReads_local {s : State} {d : Desc} {b : Nat × Nat × Nat} (zone : Nat) (hpcie : srcPcie d = false)
    (hlocal : localMem s b.1 = true) : sendReads s zone d b = s := by
  simp only [sendReads, hpcie, hlocal, Bool.false_eq_true, if_false, if_true]

/-- With neither a cipher nor a pipeline, a channel that may read and has bytes left takes its next beat. -/
theorem issueRead_plain {s : State} {n : Nat} {d : Desc} (hdesc : (getChn s n).desc = some d)
    (hmay : mayRead (getChn s n) d = true) (hon : s.mov.disable.testBit (n % 16) = false)
    (hcipher : (getChn s n).cipher = none) (hpipe : (getChn s n).pipe = none) (hleft : 0 < (getChn s n).count) :
    issueRead s n = sendReads (updChn s n (beatTaken (formBeat (getChn s n) d))) (getChn s n).zone d
      (formBeat (getChn s n) d) := by
  simp only [issueRead, hdesc, hmay, hon, hcipher, hpipe, hleft.ne', decide_false, Bool.false_eq_true, Bool.true_eq_false,
    false_and, or_self, if_false]
  rfl

theorem exec_moverBeatIssue {n : Nat} (hn : n < 1024) (s : State) : exec (.moverBeatIssue n) s = .next (issueRead s n) :=
  congrArg Host.Outcome.next (if_neg (Nat.not_le.mpr hn))

/-! ## Data that returns (R378, R380, R383) -/

/-- Returned data is held in its beat. -/
def holdData (k : Nat) (bs : List Byte) (c : Chn) : Chn :=
  { c with beats := c.beats.map (fun x => if x.id = k then { x with data := some bs } else x) }

/-- A beat is gone. -/
def beatGone (k : Nat) (c : Chn) : Chn := { c with beats := c.beats.filter (fun x => x.id != k) }

section
variable {s : State} {n k : Nat} {d : Desc} {b : Beat} (hdesc : (getChn s n).desc = some d)
  (hbeat : (getChn s n).beats.find? (fun x => x.id == k && x.data.isNone && !x.issued) = some b)
include hdesc hbeat

theorem readReturns_data {u : State} {bs : List Byte} {res : ReadResult} (hwanted : b.dst ≠ deadDst)
    (hbytes : b.dst ≠ flushDst)
    (hread : readAnswer s (srcPcie d) b.src b.len (getChn s n).zone res = (.ok bs, u)) :
    readReturns s n k res = tryWriteBack (advanceChn 65 (updChn u n (holdData k bs)) n) n := by
  have hplain : (srcPcie d || b.dst == flushDst) = srcPcie d := by simp [hbytes]
  simp only [readReturns, hdesc, hbeat, if_neg hwanted, if_neg hbytes, hplain, hread]
  rfl

/-- The read of a barrier goes to a bus, which answers it without bytes. -/
theorem readReturns_flush (hflush : b.dst = flushDst) (bs : List Byte) :
    readReturns s n k (.ok bs) = tryWriteBack (updChn s n (beatGone k)) n := by
  have hwanted : flushDst ≠ deadDst := by decide
  simp only [readReturns, hdesc, hbeat, hflush, if_neg hwanted, readAnswer, beq_self_eq_true, Bool.or_true,
    Bool.true_eq_false, false_and, if_false, if_true]
  rfl

end

theorem busError_read {s : State} {n k code : Nat} {b : Beat}
    (hbeat : (getChn s n).beats.find? (fun x => x.id == k && x.issued == false) = some b) (hbus : code ≠ 0x051B) (det : Nat) :
    busError s n k false code det =
      tryWriteBack (failChn (updChn s n (beatGone k)) n k code det (lineDown b.src) false 0) n := by
  unfold busError
  simp only [hbeat]
  exact (if_neg hbus).trans (if_neg Bool.false_ne_true)

theorem exec_aderr_waiting {s : State} {n : Nat} {b : Beat}
    (hbeat : (getChn s n).beats.find? (fun x => x.data.isNone && !x.issued) = some b) (kind : Nat) :
    exec (.aderr n kind) s =
      .next (busError (answerRead s n) n b.id false (aderrCode kind).1 (aderrCode kind).2) := by
  show execAderr n kind s = _
  simp only [execAderr, hbeat]

/-! ## Confirmed writes and visible write-backs (R379, R380) -/

/-- A beat of the descriptor in work is confirmed: it is forgotten and its bytes count. -/
def beatConfirmed (k len : Nat) (c : Chn) : Chn := { dropBeat c k with confirmed := c.confirmed + len }

/-- An engine counts a beat (R390). -/
def countBeat (s : State) (n : Nat) : State :=
  { s with mov := { s.mov with beats := Table.upd zeroOf s.mov.beats (n % 16) (fun x => satAdd 32 x 1) } }

theorem exec_moverWriteConfirm_own {s u : State} {n k : Nat} {b : Beat} {d : Desc}
    (hbeat : (getChn s n).beats.find? (fun x => x.id == k && x.issued) = some b) (hdesc : (getChn s n).desc = some d)
    (hplain : transforms d = false) (hland : landBeat s n d b = (.ok [], u))
    (hown : (openIds (getChn s n)).contains k = false) :
    exec (.moverWriteConfirm n k) s =
      .next (tryWriteBack (countBeat (updChn u n (beatConfirmed k (b.data.getD []).length)) n) n) := by
  show execMoverWriteConfirm n k s = _
  simp only [execMoverWriteConfirm, hbeat, hdesc, hplain, hland, hown, Bool.not_false, Bool.false_eq_true, if_false, if_true]
  rfl

/-- The channel passes on to the next slot of its ring. -/
def headPassed (c : Chn) : Chn :=
  { c with head := (c.head + 1) % 2 ^ 32, wb := none, desc := none, failed := none, ended := false }

/-- A write-back that asks for no interrupt passes the head on. -/
theorem exec_writeBackVisible_quiet {s : State} {n st code idx : Nat} {w : Word}
    (hwb : (getChn s n).wb = some (st, code, w, idx, 0)) (hsoft : opChannel s n = false) :
    exec (.writeBackVisible n) s = .next (retireChn (updChn s n headPassed) n) := by
  show execWriteBackVisible n s = _
  simp only [execWriteBackVisible, hwb, hsoft, Bool.false_eq_true, if_false, if_true]
  rfl

/-! ## A channel has drained (R385) -/

theorem pauseDone_idle {s : State} {n : Nat} (hn : n < 1024) (hstop : chnStopping (getChn s n) = true)
    (hpaused : (getChn s n).paused = false) (hdrained : drained (getChn s n) = true) (hidle : (getChn s n).desc = none)
    (heng : (getChn s n).eng = none) : pauseDone s n = updChn s n (fun c => { c with paused := true }) := by
  have hrebuild : rebuilding s (getChn s n) = false := by simp only [rebuilding, heng]
  simp only [pauseDone, Nat.not_le.mpr hn, hstop, hpaused, hdrained, hrebuild, hidle, Bool.false_eq_true, Bool.true_eq_false,
    or_self, if_false]

/-- A drain that no operation waits for ends with the channel itself. -/
theorem exec_channelPaused_unused {s : State} {n : Nat} (hchs : (pauseDone s n).chs = s.chs)
    (hunused : ∀ x ∈ s.chs.ops, x.2.mover ≠ some n) : exec (.channelPaused n) s = .next (pauseDone s n) := by
  have hnone : s.chs.ops.find? (fun o => o.2.mover == some n) = none :=
    List.find?_eq_none.mpr fun x hx => by simpa using hunused x hx
  show execChannelPaused n s = _
  simp only [execChannelPaused, hchs, hnone]

/-! ## A disabled engine (R386) -/

/-- The channels of an engine. -/
def engineChns (e : Nat) : List Nat := (List.range 64).map (16 * · + e)

theorem mod_of_mem_engineChns {e n : Nat} (he : e < 16) (hn : n ∈ engineChns e) : n % 16 = e := by
  obtain ⟨k, -, rfl⟩ := List.mem_map.mp hn
  omega

theorem mem_engineChns {k : Nat} (hk : k < 64) (e : Nat) : 16 * k + e ∈ engineChns e :=
  List.mem_map_of_mem (List.mem_range.mpr hk)

/-- What a channel that is not in service becomes with its engine disabled. -/
def idleDisabled (c : Chn) : Chn :=
  { latch c 0x0526 0 c.errAddr c.errDir 0 c.head with halted := true, dead := true }

theorem getChn_disableIdle (s : State) (m n : Nat) :
    getChn (disableIdle s m) n = if n = m then idleDisabled (getChn s m) else getChn s n :=
  getChn_updChn_eq ..

theorem getChn_foldl_disableIdle_of_not_mem {ns : List Nat} {n : Nat} (hn : n ∉ ns) (s : State) :
    getChn (ns.foldl disableIdle s) n = getChn s n := by
  induction ns generalizing s with
  | nil => rfl
  | cons m ns ih =>
    rw [List.mem_cons, not_or] at hn
    exact (ih hn.2 (disableIdle s m)).trans ((getChn_disableIdle ..).trans (if_neg hn.1))

theorem getChn_foldl_disableIdle_of_mem {ns : List Nat} {n : Nat} (hn : n ∈ ns) (s : State) :
    ∃ c, getChn (ns.foldl disableIdle s) n = idleDisabled c := by
  induction ns generalizing s with
  | nil => exact absurd hn List.not_mem_nil
  | cons m ns ih =>
    by_cases hmem : n ∈ ns
    · exact ih hmem (disableIdle s m)
    · obtain rfl : n = m := (List.mem_cons.mp hn).resolve_right hmem
      exact ⟨getChn s n, (getChn_foldl_disableIdle_of_not_mem hmem _).trans ((getChn_disableIdle ..).trans (if_pos rfl))⟩

/-- One channel of an engine that is disabled, in service or not. -/
def haltOnDisable (s : State) (n : Nat) : State :=
  if (getChn s n).en || (getChn s n).desc.isSome then disableChn s n else disableIdle s n

/-- Channels that are all out of service, without a descriptor, halt one by one as idle ones: no halt puts another into
service. -/
theorem foldl_haltOnDisable_idle {ns : List Nat} {s : State}
    (hidle : ∀ n ∈ ns, (getChn s n).en = false ∧ (getChn s n).desc = none) :
    ns.foldl haltOnDisable s = ns.foldl disableIdle s := by
  induction ns generalizing s with
  | nil => rfl
  | cons m ns ih =>
    obtain ⟨hout, hdesc⟩ := hidle m List.mem_cons_self
    have hfirst : haltOnDisable s m = disableIdle s m := by
      simp only [haltOnDisable, hout, hdesc, Option.isSome_none, Bool.or_self, Bool.false_eq_true, if_false]
    rw [List.foldl_cons, List.foldl_cons, hfirst]
    refine ih fun n hn => ?_
    rw [getChn_disableIdle]
    split_ifs
    · exact ⟨hout, hdesc⟩
    · exact hidle n (List.mem_cons_of_mem m hn)

/-- The engine's bit is set. -/
def engineOff (s : State) (e : Nat) : State := { s with mov := { s.mov with disable := s.mov.disable ||| 2 ^ e } }

theorem exec_movCtlDisable {s : State} {e : Nat} (he : e < 16) (hpwr : s.power.pwrOk = true) (q : IoReq) (v : Word) :
    exec (.movCtlDisable q e v) s = .next (writeMovCtl s q e v) :=
  congrArg Host.Outcome.next ((mainReg_of_power _ hpwr).trans (if_neg (Nat.not_le.mpr he)))

theorem writeMovCtl_disable {s : State} {q : IoReq} {e : Nat} {v : Word} (hv : v.bit 0 = true)
    (hon : s.mov.disable.testBit e = false) (hmay : s.bnd.mov.testBit e = false ∨ q.world = true) :
    writeMovCtl s q e v = (engineChns e).foldl haltOnDisable (engineOff s e) := by
  have hgate : ¬ (s.bnd.mov.testBit e = true ∧ q.world = false) := by rcases hmay with h | h <;> simp [h]
  rw [engineChns, List.foldl_map]
  simp only [writeMovCtl, hv, hon, if_true, Bool.false_eq_true, if_false, if_neg hgate]
  rfl

theorem writeMovCtl_enable {s : State} {e : Nat} {v : Word} (hv : v.bit 0 = false) (hoff : s.mov.disable.testBit e = true)
    (q : IoReq) : writeMovCtl s q e v = { s with mov := { s.mov with disable := s.mov.disable - 2 ^ e } } := by
  simp only [writeMovCtl, hv, hoff, Bool.false_eq_true, if_false, if_true]

/-! ## O52 -/

/-- Settles O52: each row's branch is decided by its hypotheses; a disabled engine is the fold of its channels' halts. -/
theorem moversMove : Obligations.MoversMove := by
  unfold Obligations.MoversMove
  refine ⟨?registers, ?fetch, ?issue, fun n k d b bs res u s hdesc hbeat hwanted hbytes hread =>
      ⟨_, congrArg Host.Outcome.next (readReturns_data hdesc hbeat hwanted hbytes hread), rfl⟩,
    fun n k d b bs s hdesc hbeat hflush => ⟨_, congrArg Host.Outcome.next (readReturns_flush hdesc hbeat hflush bs), rfl⟩,
    fun n k data s => ⟨_, rfl, rfl⟩,
    fun n k b d u s hbeat hdesc hplain hland hown =>
      ⟨_, exec_moverWriteConfirm_own hbeat hdesc hplain hland hown, rfl⟩,
    fun n k code det b s hbeat hbus => ⟨_, congrArg Host.Outcome.next (busError_read hbeat hbus det), rfl⟩,
    fun n kind b s hbeat => ⟨_, exec_aderr_waiting hbeat kind, rfl⟩,
    fun n st code idx w s hwb hsoft => ⟨_, exec_writeBackVisible_quiet hwb hsoft, rfl⟩, ?paused, ?engine⟩
  case registers =>
    intro q n v s hn hsoft hpwr
    refine ⟨fun hring hout => ⟨_, exec_chnTailWrite hn hpwr, ?_⟩,
      fun hring => ⟨_, exec_chnTailWrite hn hpwr, writeTail_beyond q hsoft hring⟩,
      fun halive => ⟨_, exec_chnStatHaltedClear hn hpwr, ?_⟩, fun hv hown => ⟨_, exec_chnCtlPause hn hpwr, ?_⟩,
      fun hv hhold hdesc => ⟨_, exec_chnCtlPause hn hpwr, ?_⟩,
      fun hin honly hv hown => ⟨_, exec_chnZoneHold hn hpwr, ?_⟩,
      fun hout hv ws hentry hquota => ⟨_, exec_chnZoneEn hn hpwr, ?_⟩⟩
    · rw [writeTail_within q hsoft (Nat.not_lt.mpr hring) hout, getChn_updChn_self]
    · rw [clearHalted_alive q hsoft halive, getChn_updChn_self]
    · rw [writePause_soft q hsoft, hv, afterStop_stopping (by simp [chnStopping]) (by simpa using hown), getChn_updChn_self]
    · rw [writePause_soft q hsoft, hv, afterStop_idle (by simp [chnStopping, hhold]) (by simpa using hdesc),
        getChn_updChn_self, getChn_updChn_self]
    · rw [writeChnZone_hold q hsoft hin honly, hv, afterStop_stopping (by simp [chnStopping]) (by simpa using hown),
        getChn_updChn_self]
    · rw [writeChnZone_enable q hsoft hout hv hentry hquota, getChn_updChn_self]
  case fetch =>
    intro n bs ws res u s hn hsoft c hin hadm hidle hwb hrun hgo hown hwork hon hread
    have hexec := exec_descriptorFetched_ready ws res ⟨hn, hsoft, hin, hadm, hidle, hwb, hrun, hgo, hown, hwork, hon⟩ hread
    exact ⟨fun hmine => ⟨_, hexec, if_pos hmine⟩, fun hother => ⟨_, hexec,
      (congrArg (getChn · n) (if_neg (by simp [hother]))).trans (getChn_updChn_self ..)⟩⟩
  case issue =>
    intro n d s hn hdesc _ hmay hon hcipher hpipe hleft c b
    have hchn : getChn (issueRead s n) n = beatTaken b c := by
      rw [issueRead_plain hdesc hmay hon hcipher hpipe hleft, getChn, sendReads_mov]
      exact getChn_updChn_self ..
    obtain ⟨r, hpace⟩ := beatTaken_eq b c
    rw [hpace] at hchn
    refine ⟨_, exec_moverBeatIssue hn s, congrArg Chn.count hchn, congrArg Chn.nextBeat hchn, congrArg Chn.beats hchn,
      fun hpcie hlocal => ?_⟩
    have hsent : localMem (updChn s n (beatTaken b)) b.1 = true := hlocal
    rw [issueRead_plain hdesc hmay hon hcipher hpipe hleft, sendReads_local _ hpcie hsent, updChn_tree]
  case paused =>
    intro n s hn hstop hpaused hdrained hidle heng hunused
    have hpause := pauseDone_idle hn hstop hpaused hdrained hidle heng
    exact ⟨_, exec_channelPaused_unused (by rw [hpause, updChn_chs]) hunused, by rw [hpause, getChn_updChn_self]⟩
  case engine =>
    intro q e v s he hpwr
    refine ⟨fun hv hon hmay hidle => ⟨_, exec_movCtlDisable he hpwr q v, ?_⟩, fun hv hoff =>
      ⟨_, exec_movCtlDisable he hpwr q v, congrArg State.mov (writeMovCtl_enable hv hoff q)⟩⟩
    have hidleChns : ∀ n ∈ engineChns e,
        (getChn (engineOff s e) n).en = false ∧ (getChn (engineOff s e) n).desc = none := by
      intro n hn
      obtain ⟨k, hk, rfl⟩ := List.mem_map.mp hn
      exact hidle k (List.mem_range.mp hk)
    rw [writeMovCtl_disable hv hon hmay, foldl_haltOnDisable_idle hidleChns]
    refine ⟨foldl_part (fun t => t.mov.disable) (by intros; rfl) _ (engineOff s e), fun k hk => ?_, fun n hn =>
      getChn_foldl_disableIdle_of_not_mem (fun hmem => hn (mod_of_mem_engineChns he hmem)) _⟩
    obtain ⟨c, hc⟩ := getChn_foldl_disableIdle_of_mem (mem_engineChns hk e) (engineOff s e)
    rw [hc]
    exact ⟨rfl, rfl, rfl⟩

end Sys2Proof.Machine
end

section
/-! SUPPORT. Invariants over a step: the front command, memory at reset, accepted versions and the customer key, and the
bonded watchdog, with O1, O4, O6 and O7 (R475, R510, R554). -/

namespace Sys2Proof.Machine

/-- Settles O1: the queue of such a state has a front, and the meaning of its command is the step. -/
theorem stepRunsFrontCommand : Obligations.StepRunsFrontCommand := by
  unfold Obligations.StepRunsFrontCommand
  intro c rest s
  unfold step
  rfl

/-- Settles O4: at reset no byte, key or marker is listed, so there is nothing out of order and no line is marked. -/
theorem resetMemorySound : Obligations.ResetMemorySound := by
  unfold Obligations.ResetMemorySound Memory.sound
  refine ⟨rfl, fun fl hmarked => ?_⟩
  exact absurd hmarked Bool.false_ne_true

/-- What a step can do: a hub cycle on an empty queue, else the command at the front on the queue's rest. -/
theorem step_cases {s t : State} (h : step s = .next t) :
    s.pending = [] ∧ t = idleTick s ∨
      ∃ i rest, s.pending = i :: rest ∧ exec i { s with pending := rest } = .next t := by
  unfold step at h
  split at h
  next hq =>
    cases h
    exact .inl ⟨hq, rfl⟩
  next i rest hq => exact .inr ⟨i, rest, hq, h⟩

/-- Settles O7: a hub cycle writes no flash, and accepted versions and the customer key are among what every command
keeps. -/
theorem acceptedVersionsNeverFall : Obligations.AcceptedVersionsNeverFall := by
  unfold Obligations.AcceptedVersionsNeverFall
  intro s t hstep
  obtain ⟨-, rfl⟩ | ⟨i, rest, -, hrun⟩ := step_cases hstep
  · exact ⟨fun _ => Nat.le_refl _, fun _ hkey => hkey⟩
  · have hk := keeps_exec i { s with pending := rest } hrun
    exact ⟨hk.version, hk.custKey⟩

/-! ## The bonded watchdog (R475) -/

/-- BWDR's effect, in the world in which it may act. -/
def bwdrEff (a : Reg) (s : State) (r : CoreRegs) (b : OpenBundle) : SylRes × State :=
  if r.w = false then (⟨true, b.addFault (xExc 0x13 3)⟩, s)
  else (⟨true, { b with acts := b.acts ++ [.bwdr (r.getG a.toNat)] }⟩, s)

theorem exec_bwdr (sl : Slot) (a : Reg) (s : State) :
    exec (.bwdr sl a) s = .next (runSyl s sl unitX (.bwdr sl a) (bwdrEff a)) := rfl

/-- The watchdog after BWDR: disarmed where that is asked and the lock allows it, else armed for the clamped exponent. -/
def bwdrBonded (s : State) (n : Nat) (w stamp : Word) : Bonded :=
  let e := w.field 7 0
  let k := if e < 20 then 20 else if 40 < e then 40 else e
  { s.bnd with
    wdgCore := n, wdgStamp := stamp, wdgLock := s.bnd.wdgLock || w.bit 8
    wdgE := if e = 0 then s.bnd.wdgE else k
    wdgArmed := if e = 0 then s.bnd.wdgLock && s.bnd.wdgArmed else true
    wdgExp := if e = 0 then s.bnd.wdgExp else (now s + 2 ^ k) % 2 ^ 64 }

theorem bwdrNow_eq (s : State) (n : Nat) (w stamp : Word) :
    bwdrNow s n w stamp = { s with bnd := bwdrBonded s n w stamp } := by
  unfold bwdrNow bwdrBonded
  by_cases he : w.field 7 0 = 0
  · cases hlock : s.bnd.wdgLock <;> simp [he, hlock]
  · simp [he]

/-- BWDR alone in its bundle: the core passes the bundle, and the watchdog takes the word with a new stamp of the core. -/
theorem execBwdr_alone {s : State} {sl : Slot} (a : Reg) (ha : alone s sl = true) (hx : sl.unit = .x)
    (hw : (getCore s sl.core).regs.w = true) :
    ∃ u, exec (.bwdr sl a) s = .next (bwdrNow (issueCoreStamp u sl.core).2 sl.core
        ((getCore s sl.core).regs.getG a.toNat) (issueCoreStamp u sl.core).1) ∧ onlyCore s u sl.core ∧
      getCore u sl.core = { getCore s sl.core with
        regs := { (getCore s sl.core).regs with pc := (getCore s sl.core).regs.pc + 4 }, bundle := none, rep := []
        repFirst := false } := by
  have hc := unhindered_of_alone ha
  have hdone := doneCore_plain (b := { freshBundle (getCore s sl.core) with
    acts := [.bwdr ((getCore s sl.core).regs.getG a.toNat)] }) (waiting_of_alone ha) rfl rfl rfl
  obtain ⟨u, hu, hcore, honly⟩ := runSyl_alone_done (i := .bwdr sl a) (fits := unitX) (f := bwdrEff a) (es := [])
    (b := { freshBundle (getCore s sl.core) with acts := [.bwdr ((getCore s sl.core).regs.getG a.toNat)] }) ha
    (by rw [hx]; rfl) rfl rfl rfl (if_neg (by rw [hw]; decide)) ⟨rfl, rfl, rfl, rfl, hc.1, by simp⟩ rfl hc (.inl rfl)
    (by simp) (.inl (by simp))
  rw [hdone, List.append_nil] at hcore
  exact ⟨u, (exec_bwdr sl a s).trans (congrArg _ hu), honly, hcore⟩

/-- Settles O6: BWDR is one act at the end of its bundle, and the lock is among what every other row keeps. -/
theorem bondedWatchdogOfTheModule : Obligations.BondedWatchdogOfTheModule := by
  unfold Obligations.BondedWatchdogOfTheModule
  refine ⟨⟨rfl, rfl⟩, ?bwdr, ?locked⟩
  case bwdr =>
    intro sl a s n r ha hx hw w e k
    obtain ⟨u, hexec, ⟨hothers, hframe⟩, hcore⟩ := execBwdr_alone a ha hx hw
    rw [bwdrNow_eq] at hexec
    refine ⟨_, hexec, hcore, hothers, ?_⟩
    rw [hframe]
    rfl
  case locked =>
    intro s t hstep hlock hfront
    obtain ⟨-, rfl⟩ | ⟨i, rest, hq, hrun⟩ := step_cases hstep
    · exact hlock
    · have hi : keepsWatchdogLock i = true := by
        rw [hq] at hfront
        cases i with
        | moduleReset | bondedWatchdogExpiry | standbyPowerOn | resetLPulse | thermtrip | pwrOkDeassert
        | startupStepTimeout | standbyPowerLoss | relraxCommandDone => exact hfront.elim
        | _ => rfl
      exact (keeps_exec i { s with pending := rest } hrun).lock hi hlock

end Sys2Proof.Machine
end

section
/-! SUPPORT. How the row of a mailbox command ends: nothing where its command is not ready, BAD_PARAM where a reserved bit is
set, else the command's own effect; what a decided outcome leaves of the state (R491, R494, R497). -/

namespace Sys2Proof.Machine

/-! ## The rows of mailbox commands -/

/-- The state in which a command leaves its row: with its outcome decided, or going on. -/
def cmdLeaves (m : Mbx) : CmdOut → State
  | (some r, s) => setOutcome s m r
  | (none, s) => s

theorem runRow_notReady {s : State} {m : Mbx} {code : Nat} (h : readyCmd s m code = none)
    (f : Accepted → State → CmdOut) : runRow s m code f = s := by
  unfold runRow runCmd
  rw [h]

theorem runRow_ready {s : State} {m : Mbx} {code : Nat} {a : Accepted} (h : readyCmd s m code = some a)
    (f : Accepted → State → CmdOut) : runRow s m code f =
      cmdLeaves m (if paramsOk a.words then f a (startCmd s m) else bad 0x0002 (startCmd s m)) := by
  unfold runRow runCmd cmdLeaves
  rw [h]
  rfl

theorem runRow_runs {s : State} {m : Mbx} {code : Nat} {a : Accepted} (h : runs s m code a)
    (f : Accepted → State → CmdOut) : runRow s m code f = cmdLeaves m (f a (startCmd s m)) := by
  rw [runRow_ready h.1, if_pos h.2]

section
variable {i : Instr} {s : State} {m : Mbx} {code : Nat} {a : Accepted} {f : Accepted → State → CmdOut}

/-- A command that decides its outcome. -/
theorem exec_decides (hi : exec i s = .next (runRow s m code f)) (h : runs s m code a) {r : CmdResult} {w : State}
    (hf : f a (startCmd s m) = (some r, w)) : ∃ t, exec i s = .next t ∧ t = setOutcome w m r :=
  ⟨_, hi, by rw [runRow_runs h, hf]; rfl⟩

/-- A command that goes on. -/
theorem exec_goesOn (hi : exec i s = .next (runRow s m code f)) (h : runs s m code a) {w : State}
    (hf : f a (startCmd s m) = (none, w)) : ∃ t, exec i s = .next t ∧ t = w :=
  ⟨_, hi, by rw [runRow_runs h, hf]; rfl⟩

/-- A command that waits. -/
theorem exec_waits (hi : exec i s = .next (runRow s m code f)) (h : runs s m code a) {w : State}
    (hf : f a (startCmd s m) = waitCmd w m) : ∃ t, exec i s = .next t ∧ t = (waitCmd w m).2 :=
  exec_goesOn hi h hf

end

/-- Every row of a mailbox command but MODULE_RESET's executes the command by `runRow`. -/
theorem exec_cmdRow {i : Instr} {m : Mbx} {code : Nat} (h : cmdRow i = some (m, code)) :
    (∃ f, ∀ s, exec i s = .next (runRow s m code f)) ∨ ∃ straps, i = .moduleReset m straps ∧ code = 0x0B05 := by
  cases i <;> cases h
  case moduleReset straps => exact .inr ⟨straps, rfl, rfl⟩
  all_goals exact .inl ⟨_, fun _ => rfl⟩

theorem cmdCode_of_ready {s : State} {m : Mbx} {code : Nat} {a : Accepted} (h : readyCmd s m code = some a) :
    cmdCode a.words = code := by
  unfold readyCmd at h
  split at h
  next => cases h
  next b _ =>
    split at h
    next hb =>
      cases h
      exact hb.1
    next => cases h

/-! ## What a decided outcome leaves -/

/-- A mailbox is a part of Relrax; the flash is none of it. -/
theorem updBox_eq (s : State) (m : Mbx) (f : Mailbox → Mailbox) : ∃ host bonded rings served,
    updBox s m f = { s with rlx := { s.rlx with host, bonded, rings, served } } := by
  cases m <;> exact ⟨_, _, _, _, rfl⟩

theorem setOutcome_eq (s : State) (m : Mbx) (r : CmdResult) : ∃ host bonded rings served,
    setOutcome s m r = { s with rlx := { s.rlx with host, bonded, rings, served } } := updBox_eq ..

theorem startCmd_eq (s : State) (m : Mbx) : ∃ host bonded rings served,
    startCmd s m = { s with rlx := { s.rlx with host, bonded, rings, served } } := updBox_eq ..

end Sys2Proof.Machine
end

section
/-! SUPPORT. The commands of identity, registers, zones, vcores and images, each from the state in which its row finds it, with
O55 (R438, R441, R494, R497 to R500). -/

namespace Sys2Proof.Machine

/-- A command of a row that is not ready changes nothing; MODULE_RESET looks for its command itself. -/
theorem exec_cmdRow_notReady {i : Instr} {m : Mbx} {code : Nat} {s : State} (hi : cmdRow i = some (m, code))
    (h : readyCmd s m code = none) : exec i s = .next s := by
  obtain ⟨f, hf⟩ | ⟨straps, rfl, rfl⟩ := exec_cmdRow hi
  · rw [hf, runRow_notReady h]
  · show Host.Outcome.next _ = _
    rw [h]

/-- MODULE_RESET has no parameters. -/
theorem paramsOk_moduleReset {ws : List Word} (h : cmdCode ws = 0x0B05) : paramsOk ws = true := by
  unfold paramsOk
  rw [h]
  rfl

theorem exec_cmdRow_badParam {i : Instr} {m : Mbx} {code : Nat} {s : State} {a : Accepted}
    (hi : cmdRow i = some (m, code)) (h : readyCmd s m code = some a) (hbad : paramsOk a.words = false) :
    exec i s = .next (setOutcome (startCmd s m) m (errRes 0x0002)) := by
  obtain ⟨f, hf⟩ | ⟨straps, -, rfl⟩ := exec_cmdRow hi
  · rw [hf, runRow_ready h, hbad]
    rfl
  · rw [paramsOk_moduleReset (cmdCode_of_ready h)] at hbad
    cases hbad

/-- What ZONE_STOP waits for: every vcore of the zone at rest, its stores drained. -/
theorem resetStepDone_four {s : State} {z : Nat} : resetStepDone s z 4 = true ↔
    ∀ e ∈ zoneVcores s z, e.2.state ≠ 2 ∧ e.2.state ≠ 3 ∧ coreDrained (getCore s e.2.core) = true := by
  simp only [resetStepDone, List.all_eq_true, Bool.and_eq_true, bne_iff_ne, and_assoc]

theorem resetStepDone_four_eq_false {s : State} {z : Nat}
    (h : ∃ e ∈ zoneVcores s z, e.2.state = 2 ∨ e.2.state = 3 ∨ coreDrained (getCore s e.2.core) = false) :
    resetStepDone s z 4 = false := by
  rw [Bool.eq_false_iff, ne_eq, resetStepDone_four]
  intro hall
  obtain ⟨e, he, hbusy⟩ := h
  obtain ⟨h2, h3, hdrained⟩ := hall e he
  simp [h2, h3, hdrained] at hbusy

/-- Settles O55: every row runs its command by `runRow`, and the branch of each is decided by its hypotheses. -/
theorem commandsOfZonesAndRegisters : Obligations.CommandsOfZonesAndRegisters := by
  unfold Obligations.CommandsOfZonesAndRegisters
  refine ⟨fun i m code s hi => ⟨fun h => ⟨_, exec_cmdRow_notReady hi h, rfl⟩,
    fun a h hbad => ⟨_, exec_cmdRow_badParam hi h hbad, rfl⟩⟩, ?_⟩
  intro m a s
  dsimp only
  refine ⟨fun h => exec_decides rfl h rfl, fun h => exec_decides rfl h rfl, fun h => exec_decides rfl h rfl,
    fun w h hread => ?regRead, fun h hread => ?regReadBad, fun w h hwrite => ?regWrite, fun h hwrite => ?regWriteBad,
    fun h hz hfree => ?create, fun h hz hstopped => ?activate, ?stop, fun h hz hst hholds => ?destroy,
    fun h hz hst hholds => ?destroyHeld, fun st w h hown hreq => ?reset, fun h hown => ?status,
    fun e w h hentry hn hle hle' hst hunbound havail => ?bind, fun h hst => ?unbind,
    fun w h hown hact hst hon hdiv hdr hrun => ?start, fun r1 r2 w h hown hact hst hon hdiv hdr hrun => ?startBad,
    fun h hown hst => ?vstop, fun im w h hn him hz hput => ?read, fun im h hn him hz => ?release⟩
  case regRead => exact exec_decides rfl h (by simp only [hread, ok])
  case regReadBad => exact exec_decides rfl h (by simp only [hread, bad])
  case regWrite => exact exec_decides rfl h (by simp only [hwrite, ok])
  case regWriteBad => exact exec_decides rfl h (by simp only [hwrite, bad])
  case create => exact exec_decides rfl h (if_neg (by simp [pZone, hz, hfree]))
  case activate => exact exec_decides rfl h (if_neg (by simp [pZone, hz, hstopped]))
  case stop =>
    intro h hz hst
    refine ⟨fun hrest => exec_decides rfl h ?_, fun hbusy => exec_waits rfl h ?_⟩
    · simp only [pZone, hz, hst, ne_eq, not_true_eq_false, or_self, if_false, resetStepDone_four.mpr hrest,
        Bool.true_eq_false]
      rfl
    · simp only [pZone, hz, hst, ne_eq, not_true_eq_false, or_self, if_false, resetStepDone_four_eq_false hbusy, if_true]
  case destroy => exact exec_decides rfl h (by simp [pZone, hz, hst, hholds, ok, setZoneState])
  case destroyHeld => exact exec_decides rfl h (by simp [pZone, hz, hst, hholds, bad])
  case reset => exact exec_goesOn rfl h (by simp [pZone, hown, hreq])
  case status => exact exec_decides rfl h (by simp [pZone, hown, ok])
  case bind =>
    have hstate : (getZone w ((cmdP a.words 1).field 11 0)).state ≠ 0 ∧
        (getZone w ((cmdP a.words 1).field 11 0)).state ≠ 2 := by
      omega
    change zoneEntry rep _ _ = _ at hentry
    have hbound : ∀ nvc, (cmdP a.words 1).field 23 12 ≤ nvc →
        ¬ (272 ≤ (cmdP a.words 2).field 8 0 ∨ nvc < (cmdP a.words 1).field 23 12) := by omega
    cases e with
    | none =>
      exact exec_decides rfl h (by simp [pZone, pVcid, hentry, hbound _ (hle' rfl), hstate, hunbound, havail, ok])
    | some ws =>
      exact exec_decides rfl h (by simp [pZone, pVcid, hentry, hbound _ (hle ws rfl), hstate, hunbound, havail, ok])
  case unbind => exact exec_decides rfl h (if_neg (by simp only [pZone, pVcid]; omega))
  case start => exact exec_decides rfl h (by simp [pZone, pVcid, hown, hact, hst, hon, hdiv, hdr, hrun, ok])
  case startBad => exact exec_decides rfl h (by simp [pZone, pVcid, hown, hact, hst, hon, hdiv, hdr, hrun])
  case vstop =>
    refine ⟨fun hdr => exec_decides rfl h ?_, fun hdr => exec_waits rfl h ?_⟩
    all_goals rcases hst with hst | hst <;> simp [pZone, pVcid, hown, hst, hdr, ok]
  case read =>
    have hmay : ¬ (askZone (startCmd s m) m a ≠ 0 ∧ im.zone ≠ askZone (startCmd s m) m a) := by tauto
    exact exec_decides rfl h (by
      simp only [him]
      rw [if_neg (by omega), if_neg hmay]
      simp only [bne] at hput
      simp only [hput, ok])
  case release =>
    have hmay : ¬ (askZone (startCmd s m) m a ≠ 0 ∧ im.zone ≠ askZone (startCmd s m) m a) := by tauto
    exact exec_decides rfl h (by
      simp only [him]
      rw [if_neg (by omega), if_neg hmay]
      rfl)

end Sys2Proof.Machine
end

section
/-! SUPPORT. The commands of pages, the cellar, the pool, the free lists, keys and granules, with O56 (R253, R255, R256, R419,
R440, R465, R501, R508). -/

namespace Sys2Proof.Machine

/-! ## Ranges of one page (R501) -/

section
variable {f : State → Nat → Nat → Except Nat State} {a : Accepted} {s w : State} {z e : Nat}

theorem rangeCmd_one_ok (hn : (cmdP a.words 2).toNat = 1) (hp : (cmdP a.words 1).toNat < usablePages s)
    (hf : f s (cmdP a.words 1).toNat z = .ok w) : rangeCmd f z a s = (some (okRes [1, 0]), w) := by
  unfold rangeCmd
  simp only [hn, pageRange, Nat.not_le.mpr hp, if_false, hf]
  rfl

theorem rangeCmd_one_error (hn : (cmdP a.words 2).toNat = 1) (hp : (cmdP a.words 1).toNat < usablePages s)
    (hf : f s (cmdP a.words 1).toNat z = .error e) :
    rangeCmd f z a s = (some ⟨e, [0, BitVec.ofNat 64 (cmdP a.words 1).toNat]⟩, s) := by
  unfold rangeCmd
  simp only [hn, pageRange, Nat.not_le.mpr hp, if_false, hf]
  rfl

end

/-! ## Free lists (R255) -/

@[simp] theorem getList_linkFrame (s : State) (frame next y : Nat) : getList (linkFrame s frame next) y = getList s y := rfl

/-- One frame of LIST_MOVE is pushed. -/
def pushMoved (t : Nat) (s : State) (f : Nat) : State :=
  updList (linkFrame s f ((getList s t).frames.headD 0)) t (fun x => { x with frames := f :: x.frames })

/-- The pushed frames stand on the list in reverse; the other lists and the marks are as before. -/
theorem getList_foldl_pushMoved (t : Nat) (fs : List Nat) (s : State) (y : Nat) :
    getList (fs.foldl (pushMoved t) s) y =
      if y = t then { getList s t with frames := fs.reverse ++ (getList s t).frames } else getList s y := by
  induction fs generalizing s with
  | nil => by_cases hy : y = t <;> simp [hy]
  | cons f fs ih =>
    rw [List.foldl_cons, ih]
    by_cases hy : y = t <;> simp [pushMoved, getList_updList_eq, hy]

/-- The lists after LIST_MOVE, before its low-water rule. -/
def listsMoved (s : State) (z t n : Nat) : State :=
  updList (((getList s z).frames.take n).foldl (pushMoved t)
    (updList s z (fun x => { x with frames := x.frames.drop n }))) t
    (fun x => { x with lowSent := x.lowSent && decide (x.frames.length ≤ x.lowMark) })

theorem getList_listsMoved_source {s : State} {z t : Nat} (n : Nat) (h : z ≠ t) :
    getList (listsMoved s z t n) z = { getList s z with frames := (getList s z).frames.drop n } := by
  simp [listsMoved, getList_updList_eq, getList_foldl_pushMoved, h]

theorem frames_listsMoved_target {s : State} {z t : Nat} (n : Nat) (h : z ≠ t) :
    (getList (listsMoved s z t n) t).frames = ((getList s z).frames.take n).reverse ++ (getList s t).frames := by
  simp [listsMoved, getList_updList_eq, getList_foldl_pushMoved, Ne.symm h]

theorem getList_listsMoved_same {s : State} {z t : Nat} (n : Nat) (h : z = t) :
    ∃ sent, getList (listsMoved s z t n) z = { getList s z with
      frames := ((getList s z).frames.take n).reverse ++ (getList s z).frames.drop n, lowSent := sent } := by
  subst h
  simp [listsMoved, getList_updList_eq, getList_foldl_pushMoved]

/-- LIST_MOVE where the list holds the frames and does not come down to its mark: no notice is due. -/
theorem moveFrames_enough {s : State} {z t n : Nat} (hn : n ≤ (getList s z).frames.length)
    (hmark : (getList (listsMoved s z t n) z).lowMark < (getList (listsMoved s z t n) z).frames.length) :
    moveFrames s z t n =
      (some (okRes [BitVec.ofNat 64 n, BitVec.ofNat 64 (getList s z).frames.length]), listsMoved s z t n) := by
  have hdue : (decide ((getList (listsMoved s z t n) z).frames.length ≤ (getList (listsMoved s z t n) z).lowMark) &&
      !(getList (listsMoved s z t n) z).lowSent && decide (n ≠ 0)) = false := by
    rw [decide_eq_false (Nat.not_le.mpr hmark), Bool.false_and, Bool.false_and]
  unfold moveFrames
  rw [if_neg (Nat.not_lt.mpr hn)]
  change ok _ (if (decide ((getList (listsMoved s z t n) z).frames.length ≤ (getList (listsMoved s z t n) z).lowMark) &&
      !(getList (listsMoved s z t n) z).lowSent && decide (n ≠ 0)) = true then _ else listsMoved s z t n) = _
  rw [hdue]
  rfl

@[simp] theorem getList_setOutcome (s : State) (m : Mbx) (r : CmdResult) (z : Nat) :
    getList (setOutcome s m r) z = getList s z := by
  unfold getList
  rw [setOutcome_mem]

@[simp] theorem getList_startCmd (s : State) (m : Mbx) (z : Nat) : getList (startCmd s m) z = getList s z := by
  unfold getList startCmd
  rw [updBox_mem]

/-- Settles O56: every row runs its command by `runRow`; a range of one page is its one page, and the lists after LIST_MOVE are
read from `listsMoved`. -/
theorem commandsOfMemoryAndKeys : Obligations.CommandsOfMemoryAndKeys := by
  unfold Obligations.CommandsOfMemoryAndKeys
  intro m a s
  dsimp only
  refine ⟨?range, fun y h hcall => ?assignWaits, fun y h hcall => ?releaseWaits, fun h hp hown hst => ?pin,
    fun ws w h hpos hle hread => ?cellar, fun p h hal hn hle hfree hroom hmine => ?poolAdd, fun r h hr hunused => ?poolRemove,
    ⟨fun h hshort => ?moveShort, fun h hne hle hmark => ?moveOther, fun h heq hle hmark => ?moveSame⟩,
    fun h => exec_decides rfl h rfl, fun h hown => ?listRead, fun h => exec_goesOn rfl h rfl,
    fun ws w h hslot hidle hblock hread => ?keyLoad, fun h hslot hidle hne => ?keyScrub, fun z y h hp hz hown => ?tag,
    fun y h hp htag hown => ?untag⟩
  case range =>
    intro d e w y f i hcmd hn hp
    rcases hcmd with ⟨rfl, rfl, h, rfl, hcall⟩ | ⟨rfl, rfl, h, rfl, hcall⟩ | ⟨rfl, rfl, h, rfl, rfl⟩
    · exact ⟨fun hf => exec_decides rfl h (by simp [hcall, rangeCmd_one_ok hn hp hf]),
        fun hf => exec_decides rfl h (by simp [hcall, rangeCmd_one_error hn hp hf])⟩
    · exact ⟨fun hf => exec_decides rfl h (by simp [hcall, rangeCmd_one_ok hn hp hf]),
        fun hf => exec_decides rfl h (by simp [hcall, rangeCmd_one_error hn hp hf])⟩
    · exact ⟨fun hf => exec_decides (f := fun a s => rangeCmd mapPage (cmdP a.words 3).toNat a s) rfl h
          (rangeCmd_one_ok hn hp hf),
        fun hf => exec_decides (f := fun a s => rangeCmd mapPage (cmdP a.words 3).toNat a s) rfl h
          (rangeCmd_one_error hn hp hf)⟩
  case assignWaits => exact exec_waits rfl h (by simp [hcall])
  case releaseWaits => exact exec_waits rfl h (by simp [hcall])
  case pin => exact exec_decides rfl h (by simp [Nat.not_le.mpr hp, hown, hst, ok])
  case cellar => exact exec_goesOn rfl h (by
    rw [if_neg (by omega)]
    simp only [hread])
  case poolAdd => exact exec_decides rfl h (by 
    rw [if_neg (by omega)]
    simp only [hfree]
    rw [if_neg (by omega), if_neg (by simpa using hmine)]
    rfl)
  case poolRemove => exact exec_decides rfl h (by
    simp only [hr]
    rw [if_neg (by simpa [or_imp, forall_and] using hunused)]
    rfl)
  case moveShort => exact exec_decides rfl h (if_pos hshort)
  case moveOther =>
    have hmoved := getList_listsMoved_source (s := startCmd s m) (cmdP a.words 3).toNat hne
    obtain ⟨w, hexec, rfl⟩ := exec_decides (i := .listMove m) rfl h (moveFrames_enough hle (by
      rw [hmoved, List.length_drop]
      exact hmark))
    refine ⟨_, hexec, ?_, ?_⟩
    · rw [getList_setOutcome, hmoved, getList_startCmd]
    · rw [getList_setOutcome, frames_listsMoved_target _ hne, getList_startCmd, getList_startCmd]
  case moveSame =>
    obtain ⟨sent, hmoved⟩ := getList_listsMoved_same (s := startCmd s m) (cmdP a.words 3).toNat heq
    obtain ⟨w, hexec, rfl⟩ := exec_decides (i := .listMove m) rfl h (moveFrames_enough hle (by
      rw [hmoved, List.length_append, List.length_reverse, List.length_take, List.length_drop]
      dsimp only
      omega))
    exact ⟨_, hexec, by rw [getList_setOutcome, hmoved, getList_startCmd]⟩
  case listRead => exact exec_decides rfl h (by simp [hown, ok, listWords])
  case keyLoad =>
    exact ⟨fun hgood => exec_goesOn rfl h (by simp [hslot, hidle, hblock, hread, hgood]),
      fun r hbad => exec_decides rfl h (by simp [hslot, hidle, hblock, hread, hbad, bad])⟩
  case keyScrub => exact exec_goesOn rfl h (by simp [hslot, hidle, hne])
  case tag =>
    have hmine : ¬ (¬ a.zone = 0 ∧ ¬ a.zone = z) := by omega
    exact ⟨fun hcall => exec_decides rfl h (by simp [Nat.not_le.mpr hp, hz, hmine, hcall, ok]),
      fun hcall => exec_waits rfl h (by simp [Nat.not_le.mpr hp, hz, hmine, hcall])⟩
  case untag =>
    have hmine : ¬ (¬ a.zone = 0 ∧ ¬ a.zone = granTag (startCmd s m) (cmdP a.words 1).toNat - 1) := by omega
    exact ⟨fun hcall => exec_decides rfl h (by simp [Nat.not_le.mpr hp, htag, hmine, hcall, ok]),
      fun hcall => exec_waits rfl h (by simp [Nat.not_le.mpr hp, htag, hmine, hcall])⟩

end Sys2Proof.Machine
end

section
/-! SUPPORT. The commands of the fabric, the channel subsystem, the fault history, the logbook and the cores, with O57 (R160,
R295, R329, R336, R337, R502 to R505). -/

namespace Sys2Proof.Machine

theorem retired_setOutcome (s : State) (m : Mbx) (r : CmdResult) :
    (setOutcome s m r).rlx.flash.retired = s.rlx.flash.retired := by
  obtain ⟨_, _, _, _, h⟩ := setOutcome_eq s m r
  rw [h]

theorem retired_startCmd (s : State) (m : Mbx) : (startCmd s m).rlx.flash.retired = s.rlx.flash.retired := by
  obtain ⟨_, _, _, _, h⟩ := startCmd_eq s m
  rw [h]

/-- Settles O57: every row runs its command by `runRow`, and the branch of each is decided by its hypotheses. -/
theorem commandsOfFabricChannelsAndFaults : Obligations.CommandsOfFabricChannelsAndFaults := by
  unfold Obligations.CommandsOfFabricChannelsAndFaults
  intro m a s
  dsimp only
  refine ⟨fun h hp => ?portStatus, fun h hp => ?portSet, fun h hp hup hfree => ?retrain, fun h hp hbusy => ?retrainBad,
    fun h => exec_decides rfl h rfl, fun e w cp h hon hdiv hcheck hzone => ?start, fun e w h hon hcheck => ?startBad,
    fun e w o h hown hop => ?halt, fun e w h hown hop => ?haltIdle,
    ⟨fun h hk hi hn hz => ?refreshSub, fun h hk hi hz hlast => ?refreshHere, fun h hk hi hz hkind hdevs => ?refreshAll,
      fun h hk hz => ?refreshVcore⟩,
    fun c w h hcopy => ?orphans, fun e w h hown => ?status, fun h => exec_decides rfl h rfl, fun h hun => ?ack,
    fun h hnone => ?ackBad, fun i h hseg hpos hle => ?logRead, fun h => exec_decides rfl h rfl,
    fun h => exec_decides rfl h rfl, fun h hn => ?coreRead, fun h hn hret => ?retireClear,
    fun zv h hn hspare hon hrun => ?relieve⟩
  case portStatus => exact exec_decides rfl h (if_neg (Nat.not_le.mpr hp))
  case portSet => exact exec_decides rfl h (if_neg (Nat.not_le.mpr hp))
  case retrain =>
    obtain ⟨w, hexec, rfl⟩ := exec_goesOn (i := .portRetrain m) rfl h
      ((if_neg (Nat.not_le.mpr hp)).trans (if_neg (by simp [pPort, hup, hfree])))
    exact ⟨_, hexec, fun hmay => if_pos hmay, fun hmay => if_neg (by simp [pPort, hmay])⟩
  case retrainBad => exact exec_decides rfl h (by simp [pPort, Nat.not_le.mpr hp, hbusy, bad])
  case start =>
    exact ⟨fun hcp => exec_goesOn rfl h (by simp [pSub, hon, hcheck, hzone, hcp]),
      fun hcp => exec_waits rfl h (by simp [pSub, hon, hcheck, hzone, hcp])⟩
  case startBad => exact exec_decides rfl h (by simp [pSub, hon, hcheck, bad])
  case halt => exact exec_decides rfl h (by simp [pSub, hown, hop, ok])
  case haltIdle => exact exec_decides rfl h (by simp [pSub, hown, hop, bad])
  case refreshSub =>
    exact exec_decides rfl h (by
      rw [if_neg (by omega), if_neg (by simp [hz])]
      simp only [hk]
      exact if_neg (Nat.not_le.mpr hn))
  case refreshHere =>
    exact exec_decides rfl h (by
      rw [if_neg (by omega), if_neg (by simp [hz])]
      simp only [hk]
      exact if_pos hlast)
  case refreshAll =>
    exact exec_goesOn rfl h (by
      rw [if_neg (by omega), if_neg (by simp [hz])]
      simp only [hk]
      exact if_neg (not_or_intro hkind hdevs))
  case refreshVcore =>
    exact exec_decides rfl h (by
      rw [if_neg (by omega), if_neg (by tauto)]
      simp only [hk]
      rfl)
  case orphans => exact exec_decides rfl h (by simp [pSub, hcopy, ok])
  case status =>
    exact ⟨fun o hop => exec_decides rfl h (by simp [pSub, hown, hop, ok]),
      fun hop => exec_decides rfl h (by simp [pSub, hown, hop, ok])⟩
  case ack => exact exec_decides rfl h (if_pos hun)
  case ackBad => exact exec_decides rfl h (by simp [hnone, bad])
  case logRead => exact exec_decides rfl h (by
    simp only [hseg]
    exact if_neg (by omega))
  case coreRead => exact exec_decides rfl h (if_neg (Nat.not_le.mpr hn))
  case retireClear =>
    obtain ⟨t, hexec, rfl⟩ := exec_decides (i := .retireClear m) rfl h
      ((if_neg (Nat.not_le.mpr hn)).trans (if_neg (by simp [pCore, retired_startCmd, hret])))
    refine ⟨_, hexec, fun j => ?_⟩
    rw [retired_setOutcome, ← retired_startCmd s m]
    show Table.get noFlag (Table.set noFlag (startCmd s m).rlx.flash.retired (pCore a) false) j = _
    exact Table.get_set ..
  case relieve =>
    cases hrest : mayRest (getCore (startCmd s m) ((cmdP a.words 1).field 8 0)) with
    | true =>
      obtain ⟨w, hexec, rfl⟩ := exec_goesOn (i := .coreRelieve m) rfl h ((if_neg (Nat.not_le.mpr hn)).trans
        ((if_neg (by simp [pCore, hspare])).trans ((if_neg (by simp [pCore, hon, hrun])).trans (if_neg (by simp [pCore, hrest])))))
      exact ⟨_, hexec, fun _ => rfl, nofun⟩
    | false =>
      obtain ⟨w, hexec, rfl⟩ := exec_waits (i := .coreRelieve m) rfl h ((if_neg (Nat.not_le.mpr hn)).trans
        ((if_neg (by simp [pCore, hspare])).trans ((if_neg (by simp [pCore, hon, hrun])).trans (if_pos hrest))))
      exact ⟨_, hexec, nofun, fun _ => rfl⟩

end Sys2Proof.Machine
end

section
/-! SUPPORT. The commands of the meridian's source, the vintage, signed images and power, with O58 (R23, R36, R282, R284, R365,
R506, R507, R509 to R511, R552). -/

namespace Sys2Proof.Machine

@[simp] theorem setOutcome_mer (s : State) (m : Mbx) (r : CmdResult) : (setOutcome s m r).mer = s.mer := by
  obtain ⟨_, _, _, _, h⟩ := setOutcome_eq s m r
  rw [h]

@[simp] theorem startCmd_tree (s : State) (m : Mbx) : (startCmd s m).tree = s.tree := updBox_tree ..

/-- A source selected; a set value waits for the next edge, or is loaded where no PPS is present (R23). -/
theorem selectSource_eq (s : State) (src : Nat) (v : Word) :
    selectSource s src v = { s with mer := { s.mer with
      src := src, holdover := false
      setVal := if src = 2 ∧ ppsPresent s = true then some v.toNat else none
      ext := if src = 2 ∧ ppsPresent s = false then v.toNat * 2 ^ 32 else s.mer.ext
      slew := if src = 2 ∧ ppsPresent s = false then 0 else s.mer.slew } } := by
  have hpps : ∀ x, ppsPresent { s with mer := { s.mer with src := x, holdover := false, setVal := none } } =
      ppsPresent s := fun _ => rfl
  unfold selectSource
  by_cases hsrc : src = 2
  · cases hp : ppsPresent s <;> simp only [hpps, hp, hsrc] <;> rfl
  · simp [hsrc]

theorem leadOk {lead : Nat} (hlo : 2 ^ 26 ≤ lead) (hhi : lead < 2 ^ 63) :
    ¬ (lead < 67108864 ∨ 9223372036854775808 ≤ lead) := by
  omega

/-- A DRAINING domain after DOMAIN_CANCEL (R284). -/
def cancelled (s : State) (d : Nat) : State :=
  let u := updDom s d (fun x => { x with state := 1, held := [], mbx := none })
  { u with tree := { u.tree with net := u.tree.net ++ (getDom s d).held } }

theorem getDom_cancelled_self (s : State) (d : Nat) :
    getDom (cancelled s d) d = { getDom s d with state := 1, held := [], mbx := none } :=
  getDom_updDom_self s d (fun x => { x with state := 1, held := [], mbx := none })

/-- A power-off that nothing stands in the way of (R281, R511). -/
theorem notInTransition {s : State} {d : Nat} (hrest : inTransition s d = false)
    (hquad : d < 16 → inTransition s (16 + d / 4) = false) :
    ¬ (inTransition s d = true ∨ d < 16 ∧ inTransition s (16 + d / 4) = true) := by
  rintro (h | ⟨hd, h⟩)
  · rw [hrest] at h
    cases h
  · rw [hquad hd] at h
    cases h

/-- A power-on that nothing stands in the way of (R511). -/
theorem quadrantReady {s : State} {d : Nat} (hrest : inTransition s d = false)
    (hquad : d < 16 → (getDom s (16 + d / 4)).state = 1) :
    ¬ (inTransition s d = true ∨ d < 16 ∧ (getDom s (16 + d / 4)).state ≠ 1) := by
  rintro (h | ⟨hd, h⟩)
  · rw [hrest] at h
    cases h
  · exact h (hquad hd)

/-- No zone but 0 is active or resetting (R511). -/
theorem noLiveZone {s : State} (h : ∀ z ∈ s.zon.zones, z.1 ≠ 0 → z.2.state ≠ 1 ∧ z.2.state ≠ 2) :
    ¬ (s.zon.zones.any (fun z => z.1 != 0 && (z.2.state == 1 || z.2.state == 2)) = true) := by
  rw [List.any_eq_true]
  rintro ⟨z, hz, hlive⟩
  simp only [Bool.and_eq_true, bne_iff_ne, Bool.or_eq_true, beq_iff_eq] at hlive
  obtain ⟨h1, h2⟩ := h z hz hlive.1
  omega

/-- Settles O58: every row runs its command by `runRow`, and the branch of each is decided by its hypotheses. -/
theorem commandsOfVintageImagesAndPower : Obligations.CommandsOfVintageImagesAndPower := by
  unfold Obligations.CommandsOfVintageImagesAndPower
  intro m a s
  dsimp only
  refine ⟨fun h hlt hlock hmas => ?source, fun h hsrc hlock => ?sourceLocked,
    fun h hsome hmas hprep hstaged hlo hhi => ⟨fun c w x hread hgood => ?change, fun c w x i r hread hbad => ?invalid,
      fun i w hread => ?malformed⟩,
    fun h => exec_decides rfl h rfl, fun w h hput => ?exported,
    fun ws w hread => ⟨fun h => ?ucode, fun h => ?flash⟩, fun ws w h hnone hread => ?key, fun h hsome => ?keyAgain,
    fun h hd hfree hrest hquad => ⟨fun hoff => ?offAlready, fun hon hopen => ?off⟩,
    fun h hd hrest hquad => ⟨fun hon => ?onAlready, fun hoff => ?on⟩, fun h hd hdrain => ?cancel,
    fun h hzones => ⟨fun hdr hwb => ?down, fun hbusy => ?downWaits⟩, fun straps h => ?reset⟩
  case source =>
    obtain ⟨w, hexec, rfl⟩ := exec_decides (i := .merSource m) rfl h ((if_neg (by omega)).trans
      ((if_neg (fun hset => absurd hset.2 (by simp [hlock hset.1]))).trans (if_neg (by simp [hmas]))))
    refine ⟨_, hexec, ?_⟩
    rw [setOutcome_mer, selectSource_eq]
    refine ⟨rfl, rfl, fun hsrc hpps => if_pos ⟨hsrc, hpps⟩,
      fun hsrc hpps => ⟨if_neg ?_, if_pos ⟨hsrc, hpps⟩, if_pos ⟨hsrc, hpps⟩⟩⟩
    rw [hpps]
    exact fun hset => nomatch hset.2
  case sourceLocked => exact exec_decides rfl h (by simp [hsrc, hlock, bad])
  case change => exact exec_goesOn rfl h (by
    simp [Option.isSome_iff_ne_none.mp hsome, hmas, hprep, hstaged, leadOk hlo hhi, hread, hgood])
  case invalid => exact exec_decides rfl h (by
    simp [Option.isSome_iff_ne_none.mp hsome, hmas, hprep, hstaged, leadOk hlo hhi, hread, hbad,
      configInvalid])
  case malformed => exact exec_decides rfl h (by
    simp [Option.isSome_iff_ne_none.mp hsome, hmas, hprep, hstaged, leadOk hlo hhi, hread,
      configInvalid])
  case exported => exact exec_decides rfl h (by simp [hput, ok])
  case ucode =>
    cases hrefused : imageRefused w ws [1] (cmdP a.words 2).toNat with
    | some e =>
      obtain ⟨t, hexec, rfl⟩ := exec_decides (i := .ucodeLoad m) rfl h (by simp only [hread, hrefused]; rfl)
      exact ⟨_, hexec, fun e' he => by cases he; rfl, nofun⟩
    | none =>
      obtain ⟨t, hexec, rfl⟩ := exec_goesOn (i := .ucodeLoad m) rfl h (by simp only [hread, hrefused]; rfl)
      exact ⟨_, hexec, nofun, fun _ => rfl⟩
  case flash =>
    cases hrefused : imageRefused w ws [2, 3, 4] (cmdP a.words 2).toNat with
    | some e =>
      obtain ⟨t, hexec, rfl⟩ := exec_decides (i := .flashUpdate m) rfl h (by simp only [hread, hrefused]; rfl)
      exact ⟨_, hexec, fun e' he => by cases he; rfl, nofun⟩
    | none =>
      obtain ⟨t, hexec, rfl⟩ := exec_decides (i := .flashUpdate m) rfl h (by simp only [hread, hrefused]; rfl)
      exact ⟨_, hexec, nofun, fun _ => rfl⟩
  case key => exact exec_decides rfl h (by simp [hnone, hread, ok])
  case keyAgain => exact exec_decides rfl h (if_pos hsome)
  case offAlready =>
    exact exec_decides rfl h ((if_neg (Nat.not_le.mpr hd)).trans ((if_neg (by simp [pDom, hfree])).trans
      ((if_neg (notInTransition hrest hquad)).trans (if_pos hoff))))
  case off =>
    exact exec_goesOn rfl h ((if_neg (Nat.not_le.mpr hd)).trans ((if_neg (by simp [pDom, hfree])).trans
      ((if_neg (notInTransition hrest hquad)).trans ((if_neg (by simp [pDom, hon])).trans (if_neg (by simp [pDom, hopen]))))))
  case onAlready =>
    exact exec_decides rfl h ((if_neg (Nat.not_le.mpr hd)).trans ((if_neg (quadrantReady hrest hquad)).trans (if_pos hon)))
  case on =>
    exact exec_goesOn rfl h ((if_neg (Nat.not_le.mpr hd)).trans ((if_neg (quadrantReady hrest hquad)).trans
      (if_neg (by simp [pDom, hoff]))))
  case cancel =>
    obtain ⟨w, hexec, rfl⟩ := exec_decides (i := .domainCancel m) rfl h ((if_neg (Nat.not_le.mpr hd)).trans
      ((if_neg (by simp [pDom, hdrain])).trans (if_neg (by simp [pDom, hdrain]))))
    have htree : (setOutcome (setOutcomeOpt (cancelled (startCmd s m) (pDom a)) (getDom (startCmd s m) (pDom a)).mbx
        (errRes 0x0B02)) m (okRes [])).tree = (cancelled (startCmd s m) (pDom a)).tree :=
      (updBox_tree ..).trans (setOutcomeOpt_tree ..)
    have hdom := getDom_cancelled_self (startCmd s m) (pDom a)
    refine ⟨_, hexec, congrArg Domain.state ((getDom_of_tree htree _).trans hdom),
      congrArg Domain.held ((getDom_of_tree htree _).trans hdom), (congrArg Tree.net htree).trans ?_⟩
    show (startCmd s m).tree.net ++ (getDom (startCmd s m) (pDom a)).held = _
    rw [startCmd_tree, getDom_of_tree (startCmd_tree s m)]
    rfl
  case down =>
    refine exec_decides rfl h ((if_neg (noLiveZone hzones)).trans ?_)
    generalize quiesceAll (startCmd s m) = w at hdr hwb ⊢
    exact if_neg (by simp [hdr, hwb])
  case downWaits =>
    refine exec_waits rfl h ((if_neg (noLiveZone hzones)).trans ?_)
    generalize quiesceAll (startCmd s m) = w at hbusy ⊢
    exact if_pos hbusy
  case reset =>
    refine ⟨_, rfl, ?_⟩
    rw [h]

end Sys2Proof.Machine
end

section
/-! SUPPORT. The fault collector's rows, the service processor's failure and restart, and the logbook's writer, with O59 (R515,
R516, R521, R523, R526, R528, R530, R532, R533). -/

namespace Sys2Proof.Machine

/-! ## Reports (R515, R516) -/

theorem logPump_flt (s : State) : (logPump s).flt = s.flt := by
  obtain ⟨l, hl⟩ := logPump_eq s
  rw [hl]

theorem logPut_flt (s : State) (e : LogEntry) : (logPut s e).flt = s.flt := by
  obtain ⟨l, hl⟩ := logPut_eq s e
  rw [hl]

theorem logAdd_flt (s : State) (type : Nat) (stamp : Word) (p : List Word) : (logAdd s type stamp p).flt = s.flt :=
  logPut_flt ..

theorem logPump_stored (s : State) : (logPump s).log.segs = s.log.segs ∧ (logPump s).log.cur = s.log.cur := by
  fun_cases logPump s <;> exact ⟨rfl, rfl⟩

/-- An entry passed to the writer changes the logbook only, and none of its segments. -/
theorem logPut_log (s : State) (e : LogEntry) : logPut s e = { s with log := (logPut s e).log } := by
  obtain ⟨l, hl⟩ := logPut_eq s e
  rw [hl]

theorem logPut_segs (s : State) (e : LogEntry) : (logPut s e).log.segs = s.log.segs := by
  unfold logPut
  dsimp only
  split <;> exact (logPump_stored _).1

/-- A report that makes a record: it stands first in the history. -/
theorem recordOnly_new {s : State} {r : Report} (hstop : s.flt.checkstop = false)
    (hnew : s.flt.hist.any (coalesces s r) = false) :
    ∃ f l, recordOnly s r = (some (mkRecord (issueStamp s 0x61).2 r (issueStamp s 0x61).1),
        { (issueStamp s 0x61).2 with flt := f, log := l }) ∧
      f.hist = (mkRecord (issueStamp s 0x61).2 r (issueStamp s 0x61).1 :: s.flt.hist).take 32 ∧
      l.segs = s.log.segs := by
  unfold recordOnly
  rw [hstop, hnew, if_neg Bool.false_ne_true, if_neg Bool.false_ne_true]
  dsimp only
  split
  · exact ⟨_, _, congrArg (Prod.mk _) (logPut_log _ _), rfl, logPut_segs _ _⟩
  · exact ⟨_, _, rfl, rfl, rfl⟩

theorem recordOnly_joins {s : State} {r : Report} (hstop : s.flt.checkstop = false)
    (hjoin : s.flt.hist.any (coalesces s r) = true) :
    recordOnly s r = (none, { s with flt := { s.flt with
        hist := List.updFirst (coalesces s r) (bumpRec s) s.flt.hist
        unack := s.flt.unack.map (fun x => if coalesces s r x then bumpRec s x else x) } }) := by
  unfold recordOnly
  rw [hstop, hjoin]
  rfl

theorem recordOnly_stopped {s : State} (r : Report) (hstop : s.flt.checkstop = true) : recordOnly s r = (none, s) := by
  unfold recordOnly
  rw [if_pos hstop]

/-- A report of a check that R12 lets report. -/
theorem exec_faultReport {s : State} {r : Report} (hlo : 1 ≤ r.source) (hhi : r.source ≤ 0x15) (hcls : r.cls ≤ 5)
    (hpwr : s.power.pwrOk = true ∨ r.source = 0x12 ∨ r.source = 0x14 ∨ r.source = 0x15) :
    exec (.faultReport r) s = .next (fault s r) := by
  refine congrArg Host.Outcome.next (if_pos ⟨hlo, hhi, hcls, ?_⟩)
  simpa [standbySource, or_assoc] using hpwr

theorem fault_quiet {s w : State} {r : Report} (h : recordOnly s r = (none, w)) : fault s r = w := by
  show (match recordOnly s r with | (none, s) => s | (some x, s) => react (reporter 7) s x x.level) = w
  rw [h]

theorem fault_reacts {s w : State} {r : Report} {x : FRec} (h : recordOnly s r = (some x, w)) :
    fault s r = react (reporter 7) w x x.level := by
  show (match recordOnly s r with | (none, s) => s | (some x, s) => react (reporter 7) s x x.level) = _
  rw [h]

/-! ## Acknowledgement (R525, R526) -/

theorem unack_ackRec (s : State) (st : Word) : (ackRec s st).flt.unack =
    (s.flt.unack.map (fun x => if x.stamp = st then { x with acked := true, timer := none } else x)).filter
      (fun x => x.stamp != st) := rfl

/-- Acknowledging leaves only records of other stamps, as they were. -/
theorem mem_unack_ackRec {s : State} {st : Word} {x : FRec} (h : x ∈ (ackRec s st).flt.unack) :
    x ∈ s.flt.unack ∧ x.stamp ≠ st := by
  rw [unack_ackRec, List.mem_filter] at h
  obtain ⟨hmap, hne⟩ := h
  have hne : x.stamp ≠ st := by simpa using hne
  obtain ⟨y, hy, hyx⟩ := List.mem_map.mp hmap
  split at hyx
  · rename_i heq
    exact absurd (hyx ▸ heq) hne
  · exact ⟨hyx ▸ hy, hne⟩

theorem mem_unack_foldl_ackRec {x : FRec} (sts : List Word) (s : State) (h : x ∈ (sts.foldl ackRec s).flt.unack) :
    x ∈ s.flt.unack ∧ x.stamp ∉ sts := by
  induction sts generalizing s with
  | nil => exact ⟨h, List.not_mem_nil⟩
  | cons st sts ih =>
    obtain ⟨hmem, hout⟩ := ih (ackRec s st) h
    obtain ⟨hmem, hne⟩ := mem_unack_ackRec hmem
    exact ⟨hmem, List.not_mem_cons_of_ne_of_not_mem hne hout⟩

/-- A record in the history under an acknowledged stamp is acknowledged and its timer stands still. -/
theorem hist_ackRec {s : State} {st : Word} {x : FRec} (h : x ∈ (ackRec s st).flt.hist) (hst : x.stamp = st) :
    x.acked = true ∧ x.timer = none := by
  obtain ⟨y, _, rfl⟩ := List.mem_map.mp h
  split at hst
  · rw [if_pos ‹_›]
    exact ⟨rfl, rfl⟩
  · exact absurd hst ‹_›

/-! ## The service processor (R527, R530) -/

theorem restartSp_running {s : State} (d : Nat) (hrun : s.rlx.running = true) : restartSp s d =
    (let f := faultAt s 0x12 2 0 0 0 (BitVec.ofNat 64 d) 0
     let w := { f with rlx := { f.rlx with running := false, wdogAt := now f } }
     ((inProgress w).map (·.1)).foldl (fun s m => killCmd s m 0x000A) (forgetMbxs w)) :=
  if_neg (by rw [hrun]; exact Bool.noConfusion)

theorem endJob_rlx (s : State) (j : CmpJob) : (endJob s j).rlx = s.rlx := by
  obtain ⟨k, hk⟩ := endJob_eq s j
  rw [hk]

theorem forgetMbxs_rlx (s : State) : (forgetMbxs s).rlx = { s.rlx with forwards := [] } := by
  refine congrArg (fun r : Relrax => { r with forwards := [] }) (foldl_part (·.rlx) (fun u c => ?_) s.mem.cellarings s)
  split
  · rfl
  · exact endJob_rlx _ _

/-! ## The logbook's writer (R532, R533) -/

/-- An entry that does not fill the open segment is appended to it. -/
theorem storeEntry_open {s : State} (e : LogEntry) (hopen : (Table.get segOf s.log.segs s.log.cur).state = 1)
    (hroom : (Table.get segOf s.log.segs s.log.cur).entries.length < 16381) :
    (storeEntry s e).log.cur = s.log.cur ∧ (Table.get segOf (storeEntry s e).log.segs s.log.cur).entries =
      (Table.get segOf s.log.segs s.log.cur).entries ++ [e] := by
  have hlen : ¬ 16382 ≤ ((Table.get segOf s.log.segs s.log.cur).entries ++ [e]).length := by
    rw [List.length_append, List.length_singleton]
    omega
  unfold storeEntry openLog
  simp only [if_pos hopen, hlen, decide_false, Bool.false_eq_true, if_false]
  refine ⟨trivial, ?_⟩
  rw [Table.get_set, if_pos rfl]

/-- Settles O59: each row's branch is decided by its hypotheses. -/
theorem faultsCollectedAndLogged : Obligations.FaultsCollectedAndLogged := by
  unfold Obligations.FaultsCollectedAndLogged
  refine ⟨?report, ?salvage, ?escalate, ?quiet, ?errMin, ?registers, ?spFails, ?spRestarts, ?writer⟩
  case report =>
    intro r s hlo hhi hcls hpwr
    have hexec := exec_faultReport hlo hhi hcls hpwr
    refine ⟨fun hstop => ⟨_, hexec, fault_quiet (recordOnly_stopped r hstop)⟩,
      fun hstop hjoin => ⟨_, hexec, fault_quiet (recordOnly_joins hstop hjoin)⟩, fun hstop hnew => ?_⟩
    obtain ⟨f, l, hrecord, hhist, -⟩ := recordOnly_new hstop hnew
    exact ⟨_, _, rfl, hhist, _, hexec, fault_reacts hrecord⟩
  case salvage =>
    intro q st s hq hflush hiso
    refine ⟨⟨_, rfl, if_neg (by simp [hiso, hflush, Nat.not_le.mpr hq])⟩, fun x hlate hrec => ⟨_, rfl, ?_⟩⟩
    have hgo : ¬ (4 ≤ q ∨ (getDom s (16 + q)).state ≠ 3 ∨ since s (getDom s (16 + q)).t0 < 2 ^ 26) := by
      rintro (h | h | h)
      · exact Nat.not_le.mpr hq h
      · exact h hflush
      · exact Nat.not_lt.mpr hlate h
    refine (if_neg hgo).trans ?_
    rw [hiso]
    dsimp only
    rw [hrec]
  case escalate =>
    intro st x t0 s hrec htimer hstop hlevel hdue want
    have hgo : ¬ (s.flt.checkstop = true ∨ x.level ≠ 2 ∨ 2 ^ 63 ≤ (now s + 2 ^ 64 - t0) % 2 ^ 64) := by
      rintro (h | h | h)
      · exact Bool.noConfusion (hstop.symm.trans h)
      · exact h hlevel
      · exact Nat.not_le.mpr hdue h
    refine ⟨fun hvoid => ⟨_, rfl, ?_⟩, fun hup => ⟨_, rfl, ?_⟩⟩
    all_goals
      rw [hrec]
      dsimp only
      rw [htimer]
      refine (if_neg hgo).trans ?_
    · exact if_pos hvoid
    · exact if_neg (Nat.not_le.mpr hup)
  case quiet =>
    intro c s hc hactive hstop hquiet
    have hgo : ¬ (c = 5 ∨ ¬ s.flt.active.contains c ∨ s.flt.checkstop = true ∨
        since s (Table.get zeroClass s.flt.lastAt c) < quietPeriod s c) := by
      rintro (h | h | h | h)
      · omega
      · exact h hactive
      · exact Bool.noConfusion (hstop.symm.trans h)
      · exact Nat.not_lt.mpr hquiet h
    refine ⟨_, congrArg Host.Outcome.next (if_neg hgo), ?_⟩
    dsimp only
    rw [logAdd_flt]
    refine ⟨?_, fun x hx hcls => ?_, ?_⟩
    · exact congrArg (List.filter (· != c)) (foldl_part (f := ackRec) (·.flt.active) (fun _ _ => rfl) _ s)
    · obtain ⟨hmem, hout⟩ := mem_unack_foldl_ackRec _ s hx
      exact hout (List.mem_map_of_mem (List.mem_filter.mpr ⟨hmem, by simp [hcls]⟩))
    · rw [Table.get_set, if_pos rfl, foldl_part (f := ackRec) (·.flt.rcv) (fun _ _ => rfl) _ s]
  case errMin =>
    intro t0 s hmin hdue
    refine ⟨_, rfl, ?_⟩
    rw [hmin]
    exact if_neg (Nat.not_le.mpr hdue)
  case registers =>
    intro q v s
    refine ⟨fun hrec => ⟨_, congrArg Host.Outcome.next (if_pos hrec), ?_, ?_⟩, fun hnone => ⟨_, rfl, ?_⟩,
      fun hkeep => ⟨_, rfl, ?_⟩, fun hrel hrun hmin => ⟨_, rfl, ?_⟩, fun hrel hrun hmin => ⟨_, rfl, ?_⟩,
      fun hrel hstop => ⟨_, rfl, ?_⟩⟩
    · exact fun x hx => (mem_unack_ackRec hx).2
    · exact fun x hx => hist_ackRec hx
    · exact if_neg (by simp [hnone])
    · exact if_neg (by simp [hkeep])
    · exact (if_pos hrel).trans ((if_neg (by simp [hrun])).trans (if_neg (by simp [hmin])))
    · exact (if_pos hrel).trans ((if_neg (by simp [hrun])).trans (if_pos hmin))
    · exact (if_pos hrel).trans (if_pos hstop)
  case spFails =>
    intro s hrun w ends
    refine ⟨⟨_, rfl, restartSp_running 1 hrun⟩, ⟨_, rfl, restartSp_running 2 hrun⟩, fun hidle => ?_⟩
    have hend : restartSp s 2 = forgetMbxs (w 2) := by
      refine (restartSp_running 2 hrun).trans ?_
      show ((inProgress (w 2)).map (·.1)).foldl _ _ = _
      rw [hidle]
      rfl
    refine ⟨_, congrArg Host.Outcome.next hend, ?_, ?_, rfl⟩
    · rw [forgetMbxs_rlx]
    · rw [forgetMbxs_rlx]
  case spRestarts =>
    intro s hdown hrom hrings hdeferred
    refine ⟨_, rfl, (if_neg (by simp [hdown, hrom])).trans ?_⟩
    dsimp only
    rw [hdeferred, List.foldl_nil, hrings]
    rfl
  case writer =>
    intro e s hwriting
    have hexec : exec .logEntryWritten s =
        .next (logPump { storeEntry s e with log := { (storeEntry s e).log with writing := none } }) := by
      show execLogEntryWritten s = _
      unfold execLogEntryWritten
      rw [hwriting]
    refine ⟨⟨_, hexec, rfl⟩, fun hopen hroom => ⟨_, hexec, ?_⟩⟩
    rw [(logPump_stored _).1, (logPump_stored _).2]
    exact storeEntry_open e hopen hroom

end Sys2Proof.Machine
end

section
/-! SUPPORT. The compression engines, the cipher pipelines and the key slots' commits, with O53 (R400, R406, R408, R413,
R417, R419, R420, R427, R430, R432). -/

namespace Sys2Proof.Machine

/-! ## A beat at an engine (R400, R427) -/

/-- A beat whose turn it is reaches the verifier, then the pipeline, then the codec. -/
theorem exec_compressionBeat {n e : Nat} {d : Desc} {st : LzStream} {b : Beat} {bs : List Byte} {s : State} (vo co : Bool)
    (hdesc : (getChn s n).desc = some d) (heng : (getChn s n).eng = some e) (hstream : (getChn s n).stream = some st)
    (hturn : turnBeat (getChn s n) = some (b, bs))
    (hgo : ¬ (d.comp = 0 ∨ (getChn s n).failed.isSome ∨ (getChn s n).wb.isSome ∨ (getEng s e).job = 5 ∨
      (d.cipher ≠ 0 ∧ (getChn s n).pipe.isNone))) :
    exec (.compressionBeat n vo co) s = .next (
      if vo = false ∧ d.comp = 1 then tryWriteBack (streamFail (verifyFail s e (getChn s n).zone) n 0x01) n
      else if co = false ∧ d.cipher ≠ 0 then
        tryWriteBack (streamFail (cipherFault s ((getChn s n).pipe.getD 0) n (getChn s n).zone) n 0x10) n
      else
        let w := if st.kind = 1 then compressBeat s n d b bs st else decompressBeat s n d b bs st
        let c := getChn w n
        tryWriteBack (if decantWaits w ∧ c.failed.isNone ∧ c.ended = false ∧ atBoundary c d ∧ c.beats.all (·.issued) then
          yieldJob w n else w) n) := by
  show execCompressionBeat n vo co s = _
  unfold execCompressionBeat
  dsimp only
  rw [hdesc, heng, hstream, hturn]
  exact congrArg Host.Outcome.next (if_neg hgo)

/-! ## A rebuilt dictionary (R408) -/

/-- The channel processors' streams have no record in memory. -/
theorem recordIntact_op {s : State} {n : Nat} (hop : opChannel s n = true) : recordIntact s n = (true, s) := if_pos hop

theorem anchorIntact_op {s : State} {n : Nat} (st : LzStream) (hop : opChannel s n = true) :
    anchorIntact s n st = (true, s) := if_pos hop

/-- The rebuilt dictionary of a channel processor's stream: its two checks in order, and the job's own kind back where
its anchor still has room for an extent. -/
theorem exec_anchorRebuildDone {n e : Nat} {d : Desc} {st : LzStream} {s : State} {ro ao : Bool}
    (hdesc : (getChn s n).desc = some d) (heng : (getChn s n).eng = some e) (hstream : (getChn s n).stream = some st)
    (hjob : (getEng s e).job = 5) (hop : opChannel s n = true)
    (hshort : ro = true → ao = true → (anchorExtents st).length < 16) :
    exec (.anchorRebuildDone n ro ao) s = .next (
      let u := updEng s e (fun x => { x with job := st.kind })
      if ro = false then tryWriteBack (streamFail u n 0x07) n
      else if ao = false then tryWriteBack (streamFail u n 0x06) n
      else u) := by
  have hopu : opChannel (updEng s e (fun x => { x with job := st.kind })) n = true := hop
  show execAnchorRebuildDone n ro ao s = _
  unfold execAnchorRebuildDone
  dsimp only
  rw [hdesc, heng, hstream]
  dsimp only
  rw [if_neg (not_not_intro hjob), recordIntact_op hopu]
  dsimp only
  cases ro with
  | false => rfl
  | true =>
    rw [anchorIntact_op st hopu]
    cases ao with
    | false => rfl
    | true =>
      simp only [Bool.true_eq_false, or_self, if_false]
      refine congrArg Host.Outcome.next (if_neg ?_)
      rintro ⟨hfull, -⟩
      exact Nat.not_le.mpr (hshort rfl rfl) hfull

/-! ## Registers of the engines and the key slots (R413, R430, R432) -/

/-- The bonded world gates whatever it writes. -/
theorem gateField_world {q : IoReq} (s : State) (off owned old new : Nat) (hw : q.world = true) :
    gateField s q off owned old new = (new, s) := by
  unfold gateField ownedBits
  simp [hw]

theorem writeKcmt_bonded {s : State} {q : IoReq} (v : Word) (hw : q.world = true) (hidle : s.cip.kstBusy = false) :
    
    (v.field 1 0 = 1 → writeKcmt s q v =
      commitLoad s (v.field 27 16) (v.bit 4) (kldKey s 0) (kldKey s 4) (v.field 63 32) none) ∧
    (v.field 1 0 = 2 → writeKcmt s q v = commitScrub s (v.field 27 16) none) := by
  unfold writeKcmt
  rw [if_neg (by simp [hw]), if_neg (by simp [hidle])]
  refine ⟨fun hop => ?_, fun hop => ?_⟩
  all_goals
    rw [hop]
    rfl

theorem getPipe_updChn (s : State) (e n : Nat) (f : Chn → Chn) : getPipe (updChn s n f) e = getPipe s e := rfl

/-- A pipeline held for 2^14 mt while another job waits is given up, at the boundary or at the next one (R417). -/
theorem exec_cipherYield {e : Nat} {d : Desc} {s : State} (hjob : (getPipe s e).job ≠ 0) (hqueue : s.cip.queue ≠ [])
    (hheld : 2 ^ 14 ≤ (now s + 2 ^ 64 - (getPipe s e).since) % 2 ^ 64)
    (hdesc : (getChn s (getPipe s e).channel).desc = some d) (hcomp : d.comp = 0) :
    exec (.cipherYield e) s = .next (
      let n := (getPipe s e).channel
      let c := getChn s n
      if atBoundary c d ∧ c.beats.all (·.issued) ∧ c.failed.isNone ∧ c.ended = false ∧ rebuilding s c = false then
        let w := freePipe s n
        { w with cip := { w.cip with queue := w.cip.queue ++ [n] } }
      else updPipe s e (fun p => { p with yielding := true })) := by
  have hgo : ¬ ((getPipe s e).job = 0 ∨ s.cip.queue = [] ∨ (now s + 2 ^ 64 - (getPipe s e).since) % 2 ^ 64 < 2 ^ 14) := by
    rintro (h | h | h)
    · exact hjob h
    · exact hqueue h
    · exact Nat.not_lt.mpr hheld h
  show execCipherYield e s = _
  unfold execCipherYield
  refine congrArg Host.Outcome.next ((if_neg hgo).trans ?_)
  dsimp only
  rw [hdesc]
  dsimp only
  rw [if_neg (not_not_intro hcomp)]

/-- A channel gives back the pipeline that it holds, and waits nowhere (R417). -/
theorem freePipe_held {s : State} {n e : Nat} (hpipe : (getChn s n).pipe = some e) (hout : n ∉ s.cip.queue) :
    (getChn (freePipe s n) n).pipe = none ∧ (freePipe s n).cip.queue = s.cip.queue := by
  have hqueue : s.cip.queue.filter (· != n) = s.cip.queue := by
    rw [List.filter_eq_self]
    exact fun m hm => bne_iff_ne.mpr fun h => hout (h ▸ hm)
  have hfree : freePipe s n = updChn (updPipe s e (fun p => { p with job := 0, channel := 0, yielding := false })) n
      (fun c => { c with pipe := none }) := by
    unfold freePipe
    dsimp only
    rw [hqueue]
    show (match (getChn s n).pipe with | some e => _ | none => _) = _
    rw [hpipe]
  rw [hfree, getChn_updChn_self]
  exact ⟨rfl, rfl⟩

/-- Settles O53: each row's branch is decided by its hypotheses. -/
theorem enginesAndKeys : Obligations.EnginesAndKeys := by
  unfold Obligations.EnginesAndKeys
  refine ⟨?beat, ?rebuilt, ?assign, ?yields, ?discards, ?offs, ?commits, ?commitDone⟩
  case beat =>
    intro n e d st b bs co s c hdesc heng hstream hturn hcomp hfailed hwb hjob hpipe
    have hgo : ¬ (d.comp = 0 ∨ c.failed.isSome ∨ c.wb.isSome ∨ (getEng s e).job = 5 ∨ (d.cipher ≠ 0 ∧ c.pipe.isNone)) := by
      simp only [hcomp, hfailed, hwb, hjob]
      rcases hpipe with h | h
      · simp [h]
      · simp [Option.isSome_iff_ne_none.mp h]
    refine ⟨⟨_, exec_compressionBeat false co hdesc heng hstream hturn hgo, if_pos ⟨rfl, hcomp⟩⟩,
      fun hplain hnowait hkind => ⟨_, exec_compressionBeat true co hdesc heng hstream hturn hgo, ?_⟩⟩
    simp [hplain, hkind, hnowait]
  case rebuilt =>
    intro n e d st s c hdesc heng hstream hjob hop u
    refine ⟨fun hshort => ⟨_, exec_anchorRebuildDone hdesc heng hstream hjob hop fun _ _ => hshort, ?_⟩,
      ⟨_, exec_anchorRebuildDone hdesc heng hstream hjob hop (fun h => Bool.noConfusion h), if_pos rfl⟩,
      ⟨_, exec_anchorRebuildDone hdesc heng hstream hjob hop (fun _ h => Bool.noConfusion h), ?_⟩⟩
    · exact (if_neg (by decide)).trans (if_neg (by decide))
    · exact (if_neg (by decide)).trans (if_pos rfl)
  case assign =>
    intro n e q s hqueue hidle
    have hexec : exec .cipherPipelineAssign s = .next (updChn (updPipe { s with cip := { s.cip with queue := q } } e
        (fun p => { p with
          job := (match (getChn s n).cipher with | some x => x.mode | none => 0) + 1, channel := n, since := now s
          yielding := false })) n (fun c => { c with pipe := some e })) := by
      show execCipherPipelineAssign s = _
      unfold execCipherPipelineAssign
      rw [hqueue, hidle]
      rfl
    refine ⟨_, hexec, rfl, ?_, ?_⟩
    · rw [getChn_updChn_self]
    · refine ⟨?_, ?_, ?_, fun x hx => ?_⟩
      all_goals rw [getPipe_updChn, getPipe_updPipe_eq, if_pos rfl]
      rw [hx]
  case yields =>
    intro e d s p c hjob hqueue hheld hdesc hcomp
    have hexec := exec_cipherYield hjob hqueue hheld hdesc hcomp
    refine ⟨fun hmid => ⟨_, hexec, ?_⟩, fun hbound hissued hok hgoing heng hpipe hout => ⟨_, hexec, ?_⟩⟩
    · dsimp only
      rw [if_neg, getPipe_updPipe_eq, if_pos rfl]
      rintro ⟨hbound, hissued, -⟩
      rcases hmid with h | h
      · exact Bool.noConfusion (h.symm.trans hbound)
      · exact h (List.all_eq_true.mp hissued)
    · have hrebuild : rebuilding s c = false := by
        unfold rebuilding
        rw [heng]
      dsimp only
      rw [if_pos ⟨hbound, List.all_eq_true.mpr hissued, by rw [hok]; rfl, hgoing, hrebuild⟩]
      obtain ⟨hfreed, hwait⟩ := freePipe_held hpipe hout
      exact ⟨hfreed, congrArg (· ++ [p.channel]) hwait⟩
  case discards =>
    intro q n v s hn hidle hdiscard hop hpwr
    refine ⟨_, congrArg Host.Outcome.next ((mainReg_of_power _ hpwr).trans (if_neg (Nat.not_le.mpr hn))), ?_⟩
    unfold writeChcfg
    rw [if_neg (by simp [hop])]
    dsimp only
    rw [if_neg (by simp [hdiscard]), if_neg (by simp [hidle]), getChn_updChn_self, getChn_updChn_self]
  case offs =>
    intro q v s hw hsome hpwr
    refine ⟨⟨_, congrArg Host.Outcome.next ((mainReg_of_power _ hpwr).trans (if_neg hsome)), ?_⟩,
      ⟨_, congrArg Host.Outcome.next ((mainReg_of_power _ hpwr).trans (if_neg hsome)), ?_⟩⟩
    · rw [gateField_world s _ _ _ _ hw]
    · rw [gateField_world s _ _ _ _ hw]
  case commits =>
    intro q v s hw hidle hpwr
    obtain ⟨hload, hscrub⟩ := writeKcmt_bonded v hw hidle
    refine ⟨fun hop => ⟨_, congrArg Host.Outcome.next ((mainReg_of_power _ hpwr).trans (if_pos hop)), hload hop⟩,
      fun hop => ⟨_, congrArg Host.Outcome.next ((mainReg_of_power _ hpwr).trans (if_pos hop)), hscrub hop⟩⟩
  case commitDone =>
    intro s hbusy hsettled hmbx
    refine ⟨_, congrArg Host.Outcome.next (if_neg (by simp [hbusy, hsettled])), ?_⟩
    dsimp only
    rw [hmbx]
    rfl

end Sys2Proof.Machine
end

section
/-! SUPPORT. The rows of the zone controller, the bonded world's registers, the mailboxes' doorbells and results, and the
commands between modules, with O54 (R446, R454, R475, R476, R478, R486, R487, R489, R490, R491). -/

namespace Sys2Proof.Machine

/-! ## Zone resets (R454) -/

theorem mem_del_of_ne {α : Type} {t : List (Nat × α)} {k : Nat} {e : Nat × α} (h : e ∈ t) (hne : e.1 ≠ k) :
    e ∈ Assoc.del t k := by
  induction t with
  | nil => exact h
  | cons x t ih =>
    obtain ⟨j, v⟩ := x
    rw [Assoc.del]
    rcases List.mem_cons.mp h with rfl | h
    · rw [if_neg hne]
      exact List.mem_cons_self
    · split
      · exact ih h
      · exact List.mem_cons_of_mem _ (ih h)

/-- Step 3 over its budget: the operation frees its place where it waits for a slot (R358). -/
def overBudget (z : Nat) (s : State) (o : Nat × ChOp) : State :=
  match o.2.wait with
  | .slot =>
    let s := { s with chs := { s.chs with queues := s.chs.queues.map (fun q =>
      (q.1, { q.2 with waiting := q.2.waiting.filter (· != o.1) })) } }
    freeOp (holdEntry s s.devId z
      (complWords s.devId o.2.jr false false (o.2.jr.unmirrored && !o.2.ackedEnd))) o.1
  | _ => s

theorem mem_ops_overBudget {z : Nat} {s : State} {o x : Nat × ChOp} :
    x ∈ (overBudget z s o).chs.ops ↔ x ∈ s.chs.ops ∧ (o.2.wait = .slot → x.1 ≠ o.1) := by
  unfold overBudget
  split
  next hslot =>
    exact ⟨fun h => ⟨Assoc.mem_del h, fun _ => Assoc_ne_of_mem_del h⟩, fun ⟨h, hne⟩ => mem_del_of_ne h (hne hslot)⟩
  next hslot => exact ⟨fun h => ⟨h, fun e => absurd e hslot⟩, And.left⟩

/-- The operations left after the budget are those under no key that one waiting for a slot has freed. -/
theorem mem_ops_foldl_overBudget {z : Nat} {x : Nat × ChOp} (os : List (Nat × ChOp)) (s : State) :
    x ∈ (os.foldl (overBudget z) s).chs.ops ↔ x ∈ s.chs.ops ∧ ∀ o ∈ os, o.2.wait = .slot → x.1 ≠ o.1 := by
  induction os generalizing s with
  | nil => simp
  | cons o os ih =>
    rw [List.foldl_cons, ih, mem_ops_overBudget, List.forall_mem_cons, and_assoc]

theorem exec_stepBudget {z : Nat} {r : ZoneRst} {s : State} (hrst : (getZone s z).rst = some r) (hstep : r.step = 3)
    (hlate : stepBudget 3 ≤ since s r.stepAt) : exec (.zoneResetStepBudget z) s =
      .next ((s.chs.ops.filter (fun o => o.2.jr.zone == z)).foldl (overBudget z) s) := by
  show execZoneResetStepBudget z s = _
  unfold execZoneResetStepBudget
  rw [hrst]
  refine congrArg Host.Outcome.next (if_neg ?_)
  rintro (h | h)
  · exact h hstep
  · exact Nat.not_lt.mpr hlate h

/-- A step that is done here: reported by a participant, followed by the next one at the coordinator. -/
theorem exec_stepDone {z k : Nat} {r : ZoneRst} {s : State} (hrst : (getZone s z).rst = some r) (hstep : r.step = k)
    (hdone : resetStepDone s z k = true) : exec (.zoneResetStepDone z k) s = .next (
      if stampDev r.stamp ≠ s.devId then
        let w := send s .mbx (stampDev r.stamp) 0x121 z r.stamp
          [BitVec.ofNat 64 (s.devId * 2 ^ 48 + 3 * 2 ^ 46 + z * 2 ^ 32 + 2 ^ 31), r.stamp, 0, BitVec.ofNat 64 z,
           BitVec.ofNat 64 k]
        if k = 8 then endResetHere w z else w
      else if k = 8 then finishReset s z r
      else startResetStep (tellStep s z (k + 1) r.stamp) z (k + 1)) := by
  show execZoneResetStepDone z k s = _
  unfold execZoneResetStepDone
  rw [hrst]
  exact congrArg Host.Outcome.next (if_neg (by simp [hstep, hdone]))

/-! ## Results and repeats of forwards (R490) -/

/-- A fold none of whose steps does anything. -/
theorem foldl_still {α σ : Type} {f : σ → α → σ} {s : σ} {xs : List α} (h : ∀ x ∈ xs, f s x = s) : xs.foldl f s = s := by
  induction xs with
  | nil => rfl
  | cons x xs ih =>
    rw [List.foldl_cons, h x List.mem_cons_self]
    exact ih fun y hy => h y (List.mem_cons_of_mem _ hy)

/-- The result of a command's only forward decides the command. -/
theorem takeResult_last {s : State} {st : Word} {ws : List Word} {f : Forward}
    (hfwd : s.rlx.forwards.find? (fun f => f.stamp == st) = some f)
    (hlast : ∀ g ∈ s.rlx.forwards, g.stamp ≠ st → g.mbx ≠ f.mbx) : takeResult s st ws =
      setOutcome { s with rlx := { s.rlx with forwards := s.rlx.forwards.filter (fun g => g.stamp != st) } } f.mbx
        ⟨(wordAt ws 0).field 31 16, (ws.drop 1).take 30⟩ := by
  have hnone : (s.rlx.forwards.filter (fun g => g.stamp != st)).any (fun g => g.mbx == f.mbx) = false := by
    rw [List.any_eq_false]
    intro g hg
    obtain ⟨hmem, hne⟩ := List.mem_filter.mp hg
    simpa using hlast g hmem (by simpa using hne)
  unfold takeResult
  rw [hfwd]
  refine if_neg ?_
  rintro ⟨-, hany⟩
  exact Bool.noConfusion (hnone.symm.trans hany)

/-- A command that no module has sent before is served as if it had arrived here. -/
theorem takeRemote_new {s : State} {msg : MbxMsg} (hcmd : msg.kind ≠ 3 ∨ cmdCode msg.words ≠ 0x0205)
    (hnew : ∀ x ∈ s.rlx.served, x.stamp ≠ msg.stamp) : takeRemote s msg =
      acceptCmd { s with rlx := { s.rlx with
        served := s.rlx.served ++ [⟨msg.stamp, msg.origin, msg.kind, Mailbox.reset⟩] } } (.master msg.stamp) msg.kind msg.zone
        msg.words := by
  have hnone : s.rlx.served.find? (fun x => x.stamp == msg.stamp) = none :=
    List.find?_eq_none.mpr fun x hx => by simpa using hnew x hx
  unfold takeRemote
  rw [if_neg (not_and_or.mpr hcmd), hnone]

/-- A decided command of a register mailbox completes: its result is written and busy clears (R491). -/
theorem getBox_completeCmd {s : State} {m : Mbx} {a : Accepted} {r : CmdResult} (hacc : (getBox s m).acc = some a)
    (hres : a.outcome = some r) (hreg : m = .host ∨ m = .bonded) : getBox (completeCmd s m) m = { getBox s m with
      acc := none, cmpSeq := cmdSeq a.words, error := decide (r.error ≠ 0), done := true, res := resWords a.words r } := by
  unfold completeCmd
  rw [hacc]
  dsimp only
  rw [hres]
  rcases hreg with rfl | rfl <;> rfl

/-- Settles O54: each row's branch is decided by its hypotheses. -/
theorem zonesRingsAndMailboxesServed : Obligations.ZonesRingsAndMailboxesServed := by
  unfold Obligations.ZonesRingsAndMailboxesServed
  refine ⟨fun z s => ⟨_, rfl, rfl⟩, ?zwSend, ?stepDone, ?stepBudget, ?own, ?dbg, ?jtag, ?watchdog, ?doorbell, ?rings, ?done,
    ?result, ?remote, ?resend, ?noResend, ?timeout⟩
  case zwSend =>
    intro q z v s hz hpwr
    have hexec : exec (.zwSend q z v) s = .next (sendZw s q z v) :=
      congrArg Host.Outcome.next ((mainReg_of_power _ hpwr).trans (if_neg (Nat.not_le.mpr hz)))
    refine ⟨fun hz0 h0 => ⟨_, hexec, if_pos ⟨hz0, h0⟩⟩, fun ws u hfrom hentry hnvc => ⟨_, hexec, ?_⟩⟩
    refine (if_neg (by rintro ⟨h1, h2⟩; exact hfrom.elim h1 h2)).trans ?_
    have hread : zoneEntry rep s z = (some ws, u) := hentry
    rw [hread]
    exact if_neg (Nat.not_lt.mpr hnvc)
  case stepDone =>
    intro z k r s hrst hstep hdone
    have hexec := exec_stepDone hrst hstep hdone
    refine ⟨fun hhere hk => ⟨_, hexec, ?_⟩, fun hhere hk => ⟨_, hexec, ?_⟩, fun haway => ⟨_, hexec, ?_⟩⟩
    · exact (if_neg (not_not_intro hhere)).trans (if_neg hk)
    · exact (if_neg (not_not_intro hhere)).trans (if_pos hk)
    · rw [if_pos haway]
      dsimp only
      split
      · exact ⟨⟨_, rfl, rfl, rfl, rfl⟩, fun _ => by
          unfold endResetHere
          rw [getZone_updZone_self]
          exact ⟨rfl, rfl, rfl⟩⟩
      · exact ⟨⟨_, rfl, rfl, rfl, rfl⟩, fun hk => absurd hk ‹_›⟩
  case stepBudget =>
    intro z r s hrst hstep hlate
    refine ⟨_, exec_stepBudget hrst hstep hlate, fun o ho hzone hslot => ?_, fun o ho hother => ?_⟩
    · obtain ⟨hmem, hfreed⟩ := (mem_ops_foldl_overBudget _ s).mp ho
      exact hfreed o (List.mem_filter.mpr ⟨hmem, by simp [hzone]⟩) hslot rfl
    · refine (mem_ops_foldl_overBudget _ s).mpr ⟨ho, fun x hx _ hkey => ?_⟩
      obtain ⟨hmem, hzone⟩ := List.mem_filter.mp hx
      exact hother x hmem hkey.symm (by simpa using hzone)
  case own =>
    intro q v s hpwr
    refine ⟨fun hw => ⟨_, congrArg Host.Outcome.next (mainReg_of_power _ hpwr), if_neg (by simp [hw])⟩,
      fun hw => ⟨_, congrArg Host.Outcome.next (mainReg_of_power _ hpwr), if_pos hw⟩⟩
  case dbg =>
    intro q n v s hn hpwr u
    have hexec : exec (.dbgEnWrite q n v) s = .next (writeDbg s q n v) :=
      congrArg Host.Outcome.next ((mainReg_of_power _ hpwr).trans (if_neg (Nat.not_le.mpr hn)))
    refine ⟨fun hw hfuse => ⟨updCore u n (fun c => { c with dbgBi := v.bit 3, dbgBn := v.bit 2 }), hexec.trans ?_, ?_, ?_⟩,
      fun hw hfuse => ⟨_, hexec, ?_⟩, fun hw => ⟨_, hexec, if_neg (by simp [hw])⟩⟩
    · exact congrArg Host.Outcome.next ((if_pos hw).trans (if_neg (by simp [hfuse])))
    · exact onlyCore_trans (onlyCore_updCore ..) (onlyCore_updCore ..)
    · rw [getCore_updCore_self, getCore_updCore_self]
    · exact (if_pos hw).trans (if_pos hfuse)
  case jtag =>
    intro n inv s
    refine ⟨fun hn hok => ⟨_, rfl, if_pos ⟨hn, hok⟩⟩, fun hno => ⟨_, rfl, if_neg (by simp [hno])⟩,
      fun hdown => ⟨_, rfl, if_neg (by simp [hdown])⟩, ⟨_, rfl, rfl⟩⟩
  case watchdog =>
    intro straps s harmed hstop hdue
    refine ⟨_, congrArg Host.Outcome.next (if_neg ?_), rfl⟩
    rintro (h | h | h)
    · exact Bool.noConfusion (harmed.symm.trans h)
    · exact Bool.noConfusion (hstop.symm.trans h)
    · exact Nat.not_le.mpr hdue h
  case doorbell =>
    intro q v s hstandby hring
    have hup : ¬ s.power.standby = false := by simp [hstandby]
    have hbox : ∀ m, boxWrite s m q.zone 0x40 v = some (ringBox s m (boxKind s m) q.zone (getBox s m).cmd) := fun m => by
      simp [boxWrite, hring]
    refine ⟨⟨_, congrArg Host.Outcome.next (if_neg hup), ?_⟩, fun hw => ⟨_, congrArg Host.Outcome.next (if_neg hup), ?_⟩,
      fun hw => ⟨_, congrArg Host.Outcome.next (if_neg hup), ?_⟩⟩
    · exact congrArg (Option.getD · s) (hbox .host)
    · exact congrArg (Option.getD · s) ((if_neg (by simp [hw])).trans (hbox .bonded))
    · exact congrArg (Option.getD · s) (if_pos ⟨hw, by decide, by decide⟩)
  case rings =>
    intro q z v s hz hpwr
    have hmain (t : State) : mainReg s (if 4096 ≤ z then s else t) = t :=
      (mainReg_of_power _ hpwr).trans (if_neg (Nat.not_le.mpr hz))
    refine ⟨fun hfrom hring => ⟨_, congrArg Host.Outcome.next (hmain _), ?_⟩,
      fun hz0 h0 => ⟨_, congrArg Host.Outcome.next (hmain _), if_pos ⟨hz0, h0⟩⟩,
      fun h0 hidle => ⟨_, congrArg Host.Outcome.next (hmain _), ?_⟩,
      fun hbad => ⟨_, congrArg Host.Outcome.next (hmain _), if_pos hbad⟩⟩
    · exact (if_neg (by rintro ⟨h1, h2⟩; exact hfrom.elim h1 h2)).trans (if_pos hring)
    · unfold writeRing
      rw [if_neg (by simp [h0, hidle])]
      exact (Table.get_set ..).trans (if_pos rfl)
  case done =>
    intro m a r s hacc hres hreg hcode
    have hexec : exec (.relraxCommandDone m) s = .next (completeCmd s m) := by
      show execRelraxCommandDone m s = _
      unfold execRelraxCommandDone
      rw [hacc]
      simp [hres, hcode]
    exact ⟨_, hexec, getBox_completeCmd hacc hres hreg⟩
  case result =>
    intro msg f s hrun hres hfwd hlast
    refine ⟨_, rfl, ?_⟩
    exact (if_neg (by simp [hrun])).trans ((if_pos hres).trans (takeResult_last hfwd hlast))
  case remote =>
    intro msg s hrun hcmd hkind hnew
    refine ⟨_, rfl, ?_⟩
    exact (if_neg (by simp [hrun])).trans ((if_neg (by simp [hcmd])).trans (takeRemote_new hkind hnew))
  case resend =>
    intro f s hone hlate
    refine ⟨_, rfl, ?_⟩
    have hlate : ¬ since s f.sentAt < 2 ^ 22 := Nat.not_lt.mpr hlate
    rw [hone, List.foldl_cons, List.foldl_nil, if_neg hlate]
    refine ⟨?_, ⟨_, rfl, rfl, rfl, rfl⟩⟩
    show s.rlx.forwards.map _ = _
    rw [hone, List.map_singleton, if_pos rfl]
  case noResend =>
    intro s hearly
    exact ⟨_, rfl, foldl_still fun f hf => if_pos (hearly f hf)⟩
  case timeout =>
    intro st f s hfwd hlate
    refine ⟨_, rfl, ?_⟩
    rw [hfwd]
    exact if_neg (Nat.not_lt.mpr hlate)

end Sys2Proof.Machine
end

section
/-! SUPPORT. The supplies, the kinds of reset, the PCIe links, inbound requests and the steps of start-up, with O60 (R537,
R546 to R560, R568, R576). -/

namespace Sys2Proof.Machine

/-! ## The entries of start-up (R560) -/

theorem startEntry_log (s : State) (st result : Nat) (ws : List Word) :
    startEntry s st result ws = { s with log := (startEntry s st result ws).log } := logPut_log ..

theorem startEntry_segs (s : State) (st result : Nat) (ws : List Word) :
    (startEntry s st result ws).log.segs = s.log.segs := logPut_segs ..

/-- A step that has ended: its entry is with the writer, and the next one is due. -/
theorem endStep_eq (s : State) (st result : Nat) (ws : List Word) : endStep s st result ws =
    { s with log := (startEntry s st result ws).log, power := { s.power with step := st, stepAt := now s } } := by
  unfold endStep
  rw [startEntry_log]
  rfl

theorem failStep_eq (s : State) (st : Nat) (ws : List Word) : failStep s st ws =
    { s with log := (startEntry s st 2 ws).log, power := { s.power with failed := true, stepAt := now s } } := by
  unfold failStep
  rw [startEntry_log]
  rfl

/-- The wait for PWR_OK ends, is logged, or goes on: nothing changes but the logbook and the step. -/
theorem tryStep2_eq (s : State) (first : Bool) : ∃ l n t0, tryStep2 s first =
    { s with log := l, power := { s.power with step := n, stepAt := t0 } } ∧ s.power.step ≤ n := by
  unfold tryStep2
  split
  next => exact ⟨s.log, s.power.step, s.power.stepAt, rfl, le_rfl⟩
  next h =>
    have hstep : s.power.step ≤ 2 := by
      by_contra hlate
      exact h (.inl (by omega))
    split
    next => exact ⟨_, 2, now s, endStep_eq .., hstep⟩
    next =>
      split
      next => exact ⟨_, s.power.step, s.power.stepAt, startEntry_log .., le_rfl⟩
      next => exact ⟨s.log, s.power.step, s.power.stepAt, rfl, le_rfl⟩

theorem tryStep2_rlx (s : State) (first : Bool) : (tryStep2 s first).rlx = s.rlx := by
  obtain ⟨_, _, _, h, -⟩ := tryStep2_eq s first
  rw [h]

theorem step_le_tryStep2 (s : State) (first : Bool) : s.power.step ≤ (tryStep2 s first).power.step := by
  obtain ⟨_, _, _, h, hle⟩ := tryStep2_eq s first
  rw [h]
  exact hle

/-! ## A report while the main rails are off (R12, R522) -/

/-- No core runs. -/
def coresRest (cs : Table Core) : Prop := ∀ n, (Table.get Core.reset cs n).run = false

/-- What a report of no zone and no quadrant may change while the main rails are off: the collector, its stamps, the
logbook but for its segments, and what a checkstop stops; and what an entry of start-up may. -/
def darkReport (s t : State) : Prop := ∃ k f l cs ps b n, t = { s with
  counters := k, flt := f, log := l, cores := cs, pcie := ps, power := { s.power with selfRefresh := b }, fresh := n } ∧
  l.segs = s.log.segs ∧ (coresRest s.cores → coresRest cs) ∧ (s.flt.checkstop = true → f.checkstop = true)

/-- At class C5 the level is 5, whatever stands in the table (R517, R520). -/
theorem mkRecord_level_c5 (s : State) {r : Report} (stamp : Word) (hcls : r.cls = 5) : (mkRecord s r stamp).level = 5 := by
  have htable : tableLevel s r.source r.cls = 5 := by
    unfold tableLevel
    rw [hcls]
    rfl
  have hcap : tableCap s r.source r.cls = 5 := by
    unfold tableCap
    rw [htable]
    omega
  unfold mkRecord
  dsimp only
  rw [htable, hcap]
  rw [if_neg]
  · rfl
  · rw [decide_eq_true_eq]
    rintro ⟨-, -, -, hup⟩
    omega

theorem coresRest_mapListed {cs : Table Core} (f : Nat → Core → Core) (hreset : ∀ n, f n (Core.reset n) = Core.reset n)
    (hrest : ∀ n c, (f n c).run = false) : coresRest (Table.mapListed Core.reset f cs) := fun n => by
  rw [Table.get_mapListed (hreset n)]
  exact hrest n _

theorem darkReport.refl (s : State) : darkReport s s := ⟨_, _, _, _, _, _, _, rfl, rfl, id, id⟩

theorem darkReport.trans {s t u : State} (h : darkReport s t) (h' : darkReport t u) : darkReport s u := by
  obtain ⟨_, _, _, _, _, _, _, rfl, hsegs, hrest, hstop⟩ := h
  obtain ⟨_, _, _, _, _, _, _, rfl, hsegs', hrest', hstop'⟩ := h'
  exact ⟨_, _, _, _, _, _, _, rfl, hsegs'.trans hsegs, hrest' ∘ hrest, hstop' ∘ hstop⟩

theorem logPump_log (s : State) : logPump s = { s with log := (logPump s).log } := by
  obtain ⟨l, hl⟩ := logPump_eq s
  rw [hl]

theorem driveErr_dark (s : State) : darkReport s (driveErr s) := ⟨_, _, _, _, _, _, _, rfl, rfl, id, id⟩

theorem checkstop_dark (s : State) (x : FRec) : darkReport s (checkstop s x) ∧ (checkstop s x).flt.checkstop = true := by
  refine ⟨⟨_, _, _, _, _, _, _, logPump_log _, (logPump_stored _).1, fun _ => ?_, fun _ => rfl⟩, ?_⟩
  · exact coresRest_mapListed _ (fun _ => rfl) (fun _ _ => rfl)
  · exact congrArg Faults.checkstop (logPump_flt _)

theorem react_dark {s : State} {x : FRec} (l : Nat) (hoff : s.power.rails = false) (hzone : x.zone = 0)
    (hquad : x.quad = none) : darkReport s (react (reporter 7) s x l) ∧
      (l = 5 → (react (reporter 7) s x l).flt.checkstop = true) := by
  have herr : darkReport s (if 2 ≤ l then driveErr s else s) := by
    split
    · exact driveErr_dark s
    · exact darkReport.refl s
  unfold react
  simp only [hoff, hzone, hquad, Bool.false_eq_true, and_false, if_false, Nat.le_zero_eq, Nat.one_ne_zero, false_and]
  split
  next h5 => exact ⟨herr.trans (checkstop_dark _ x).1, fun _ => (checkstop_dark _ x).2⟩
  next h5 => exact ⟨herr, fun h => absurd h h5⟩

theorem fault_dark {s : State} {r : Report} (hoff : s.power.rails = false) (hzone : r.zone = 0) (hquad : r.quad = none) :
    darkReport s (fault s r) ∧ (r.cls = 5 → (fault s r).flt.checkstop = true) := by
  cases hstop : s.flt.checkstop with
  | true =>
    rw [fault_quiet (recordOnly_stopped r hstop)]
    exact ⟨darkReport.refl s, fun _ => hstop⟩
  | false =>
    cases hjoin : s.flt.hist.any (coalesces s r) with
    | true =>
      rw [fault_quiet (recordOnly_joins hstop hjoin)]
      refine ⟨⟨_, _, _, _, _, _, _, rfl, rfl, id, id⟩, fun hcls => ?_⟩
      obtain ⟨x, _, hx⟩ := List.any_eq_true.mp hjoin
      simp [coalesces, hcls] at hx
    | false =>
      obtain ⟨f, l, hrecord, -, hsegs⟩ := recordOnly_new hstop hjoin
      rw [fault_reacts hrecord]
      obtain ⟨hdark, hc5⟩ := react_dark (s := { (issueStamp s 0x61).2 with flt := f, log := l })
        (x := mkRecord (issueStamp s 0x61).2 r (issueStamp s 0x61).1) _ hoff hzone hquad
      refine ⟨darkReport.trans ⟨_, _, _, _, _, _, _, rfl, hsegs, id, fun h => ?_⟩ hdark, fun hcls => hc5 ?_⟩
      · exact Bool.noConfusion (hstop.symm.trans h)
      · exact mkRecord_level_c5 _ _ hcls

theorem faultAt_dark {s : State} (source cls reason : Nat) (stamp addr detail : Word) (hoff : s.power.rails = false) :
    darkReport s (faultAt s source cls reason stamp addr detail 0) ∧
      (cls = 5 → (faultAt s source cls reason stamp addr detail 0).flt.checkstop = true) := fault_dark hoff rfl rfl

theorem causeEntry_dark (s : State) (cause : Nat) :
    darkReport s (causeEntry s cause) ∧ (causeEntry s cause).flt = s.flt := by
  have hlog := startEntry_log (nextFree s) 0 0 [(openWord s).1, BitVec.ofNat 64 cause, 0, 0]
  exact ⟨⟨_, _, _, _, _, _, _, hlog, startEntry_segs .., id, id⟩, (congrArg State.flt hlog :)⟩

/-! ## The main domain goes, and start-up begins (R547, R550, R552) -/

theorem coresRest_mainOff (s : State) : coresRest (mainOff s).cores :=
  coresRest_mapListed coldCore (fun _ => rfl) (fun _ _ => rfl)

theorem setOutcome_parts (s : State) (m : Mbx) (r : CmdResult) :
    (setOutcome s m r).power = s.power ∧ (setOutcome s m r).flt = s.flt := by
  obtain ⟨_, _, _, _, h⟩ := setOutcome_eq s m r
  rw [h]
  exact ⟨rfl, rfl⟩

theorem endMainCmds_parts (s : State) : (endMainCmds s).power = s.power ∧ (endMainCmds s).flt = s.flt := by
  have hparts := foldl_part (fun s : State => (s.power, s.flt)) (f := fun s (x : Mbx × Accepted) =>
    if standbyCmd (cmdCode x.2.words) then s else setOutcome s x.1 (errRes 0x0004)) (fun t x => by
      split
      · rfl
      · exact Prod.ext (setOutcome_parts ..).1 (setOutcome_parts ..).2) (inProgress s) s
  exact Prod.ext_iff.mp hparts

/-- The entry of a lost supply and its class C5 report. -/
theorem supplyFault_dark {s : State} (cause : Nat) (hoff : s.power.rails = false) :
    darkReport s (faultAt (causeEntry s cause) 0x15 5 0 0 0 0 0) ∧
      (faultAt (causeEntry s cause) 0x15 5 0 0 0 0 0).flt.checkstop = true := by
  obtain ⟨hentry, -⟩ := causeEntry_dark s cause
  have hoff' : (causeEntry s cause).power.rails = false := by
    obtain ⟨_, _, _, _, _, _, _, h, -⟩ := hentry
    rw [h]
    exact hoff
  obtain ⟨hfault, hstop⟩ := faultAt_dark 0x15 5 0 0 0 0 hoff'
  exact ⟨hentry.trans hfault, hstop rfl⟩

/-- The main domain has gone with PWR_OK, and the module stands at checkstop (R547). -/
def mainLost (s : State) : Prop := s.power.rails = false ∧ s.power.pwrOk = false ∧ s.flt.checkstop = true ∧ s.lines = [] ∧
  ∀ n, (getCore s n).run = false

theorem supplyFault_mainLost {s : State} (cause : Nat) (hoff : s.power.rails = false) (hlow : s.power.pwrOk = false)
    (hlines : s.lines = []) (hrest : coresRest s.cores) : mainLost (faultAt (causeEntry s cause) 0x15 5 0 0 0 0 0) := by
  obtain ⟨⟨_, _, _, _, _, _, _, ht, -, hcores, -⟩, hstop⟩ := supplyFault_dark cause hoff
  unfold mainLost
  rw [hstop, ht]
  exact ⟨hoff, hlow, rfl, hlines, hcores hrest⟩

theorem tryStep2_mainLost {s : State} (first : Bool) (h : mainLost s) : mainLost (tryStep2 s first) := by
  obtain ⟨_, _, _, ht, -⟩ := tryStep2_eq s first
  rw [ht]
  exact h

/-- What a module reset leaves before start-up begins (R552). -/
def resetDomain (s : State) : State :=
  let s := forgetMbxs s
  let s := mainOff (((inProgress s).map (·.1)).foldl (fun s m => killCmd s m 0x000A) s)
  { s with
    rlx := { s.rlx with running := false }
    flt := { s.flt with errLow := false, errMin := none, errRelease := false, checkstop := false } }

theorem moduleReset_eq (s : State) (straps : Straps) (cause : Nat) :
    moduleReset s straps cause = beginStartUp (resetDomain s) straps cause := rfl

/-- The straps as start-up takes them (R550). -/
def strapsSampled (s : State) (straps : Straps) (cause : Nat) : State :=
  { s with power := { s.power with
    straps := straps, cause := cause, step := 0, failed := false, stepAt := now s, bootRom := false, thermTrip := false
    downPending := false, selfRefresh := false } }

theorem beginStartUp_dark {s : State} (straps : Straps) (cause : Nat) (hoff : s.power.rails = false) :
    darkReport (strapsSampled s straps cause) (beginStartUp s straps cause) ∧
      (straps.bootSel % 4 ≠ 3 → (beginStartUp s straps cause).flt = s.flt) := by
  obtain ⟨hdark, hflt⟩ := causeEntry_dark (strapsSampled s straps cause) cause
  have hoff' : (causeEntry (strapsSampled s straps cause) cause).power.rails = false := by
    obtain ⟨_, _, _, _, _, _, _, h, -⟩ := hdark
    rw [h]
    exact hoff
  unfold beginStartUp
  split
  next h3 => exact ⟨hdark.trans (faultAt_dark _ _ _ _ _ _ hoff').1, fun h => absurd h3 h⟩
  next => exact ⟨hdark, fun _ => hflt⟩

theorem openLog_log (s : State) : openLog s = { s with log := (openLog s).log } := by
  unfold openLog
  split <;> rfl

/-! ## PCIe links and inbound requests (R555, R576) -/

/-- PERST of an enabled root port is released. -/
def releasePerst (s : State) (c : Nat) : State :=
  if rootPort s c && s.rlx.flash.pcieEn.testBit c then updPcie s c (fun p => { p with perst := false }) else s

theorem getPcie_releasePerst_ne (s : State) {c d : Nat} (h : c ≠ d) : getPcie (releasePerst s d) c = getPcie s c := by
  unfold releasePerst
  split
  · rw [getPcie_updPcie_eq, if_neg h]
  · rfl

theorem releasePerst_keeps (s : State) (d : Nat) :
    (releasePerst s d).power = s.power ∧ (releasePerst s d).rlx = s.rlx := by
  unfold releasePerst
  split <;> exact ⟨rfl, rfl⟩

theorem getPcie_releasePerst_self {s : State} {c : Nat} (hroot : rootPort s c = true)
    (hen : s.rlx.flash.pcieEn.testBit c = true) :
    getPcie (releasePerst s c) c = { getPcie s c with perst := false } := by
  unfold releasePerst
  rw [if_pos (by simp [hroot, hen]), getPcie_updPcie_self]

/-- Each of the two controllers is released once (R555). -/
theorem getPcie_released {s : State} {c : Nat} (hc : c < 2) (hroot : rootPort s c = true)
    (hen : s.rlx.flash.pcieEn.testBit c = true) :
    getPcie ((List.range 2).foldl releasePerst s) c = { getPcie s c with perst := false } := by
  show getPcie (releasePerst (releasePerst s 0) 1) c = _
  obtain rfl | rfl : c = 0 ∨ c = 1 := by omega
  · rw [getPcie_releasePerst_ne _ (by decide), getPcie_releasePerst_self hroot hen]
  · obtain ⟨hpower, hrlx⟩ := releasePerst_keeps s 0
    have hroot' : rootPort (releasePerst s 0) 1 = true := by
      unfold rootPort at hroot ⊢
      rw [hpower]
      exact hroot
    rw [getPcie_releasePerst_self hroot' (by rw [hrlx]; exact hen), getPcie_releasePerst_ne _ (by decide)]

/-- The access of an inbound request to memory. -/
def inboundAccess (r : PcieReq) (s : State) (a : Word) (z : Nat) (st : Word) : EngRes × State :=
  match r.write with
  | some bs => engWrite rep (bs.length + 1) s a bs z false st
  | none => engRead rep (r.len + 1) s a r.len z false st

/-- The end of an inbound request: one that memory refuses is class C0. -/
def inboundEnds (r : PcieReq) (p : EngRes × State) : State :=
  match p.1 with
  | .err _ => inboundRefused p.2 r
  | _ => p.2

section
variable {r : PcieReq} {s : State} (hctl : r.ctl < 2) (hup : (getPcie s r.ctl).up = true)
  (hroot : endpoint s r.ctl = false) (hwin : inStatusWin s r = false)
include hctl hup hroot hwin

theorem exec_inbound_refused (hmiss : firstWin s r = .miss ∨ firstWin s r = .cross) :
    exec (.pcieInboundRequest r) s = .next (inboundRefused s r) := by
  show execPcieInboundRequest r s = _
  unfold execPcieInboundRequest
  rw [if_neg (by simp [hctl, hup]), if_neg (by simp [hroot]), if_neg (by simp [hwin])]
  rcases hmiss with h | h <;> rw [h]

theorem exec_inbound_hit {a : Word} {z : Nat} (hhit : firstWin s r = .hit a z) :
    exec (.pcieInboundRequest r) s = .next (inboundEnds r
      (inboundAccess r (issueStamp s (0x70 + r.ctl)).2 a z (issueStamp s (0x70 + r.ctl)).1)) := by
  show execPcieInboundRequest r s = _
  unfold execPcieInboundRequest
  rw [if_neg (by simp [hctl, hup]), if_neg (by simp [hroot]), if_neg (by simp [hwin]), hhit]
  rfl

end

/-! ## The steps of start-up (R556 to R559) -/

/-- A fold holds what one of its steps brings about and every step keeps. -/
theorem foldl_brings {α σ : Type} {P : σ → Prop} {f : σ → α → σ} {x : α} {xs : List α} (hx : x ∈ xs)
    (hself : ∀ t, P (f t x)) (hkeep : ∀ t y, P t → P (f t y)) (s : σ) : P (xs.foldl f s) := by
  have hlater (ys : List α) (t : σ) (h : P t) : P (ys.foldl f t) := by
    induction ys generalizing t with
    | nil => exact h
    | cons y ys ih => exact ih (f t y) (hkeep t y h)
  induction xs generalizing s with
  | nil => exact absurd hx List.not_mem_nil
  | cons y ys ih =>
    rcases List.mem_cons.mp hx with rfl | hx
    · exact hlater ys _ (hself s)
    · exact ih hx _

/-- A port at the start of the links: without a cable, in training, or off (R310). -/
def startPort (f : Flash) (s : State) (p : Nat) : State :=
  if (linkEnd f.mesh f.sizes 0 p).isNone then updPort s p (fun x => { x with state := 6 })
  else if (getPort s p).en then trainPort s p else s

theorem startPorts_keep (f : Flash) (ps : List Nat) (s : State) :
    let t := ps.foldl (startPort f) s
    t.power = s.power ∧ t.fab.mesh = s.fab.mesh ∧ t.fab.sizes = s.fab.sizes := by
  have hparts := foldl_part (fun s : State => (s.power, s.fab.mesh, s.fab.sizes)) (f := startPort f) (fun t p => by
    unfold startPort
    split
    · rfl
    · split <;> rfl) ps s
  exact ⟨congrArg Prod.fst hparts, congrArg (·.2.1) hparts, congrArg (·.2.2) hparts⟩

theorem getChan_of_chans {s t : State} (h : t.mem.chans = s.mem.chans) (c : Nat) : getChan t c = getChan s c := by
  unfold getChan
  rw [h]

theorem trainedChans_online (s : State) {c : Nat} (hc : c < 64) : (getChan (trainedChans s) c).online = true := by
  refine foldl_brings (P := fun t => (getChan t c).online = true) (List.mem_range.mpr hc) (fun t => ?_) (fun t y h => ?_) s
  · dsimp only
    rw [getChan_updChan_self]
  · dsimp only
    rw [getChan_updChan_eq]
    split
    · rfl
    · exact h

theorem initRegions_parts (s : State) :
    (initRegions s).mem.bytes = [] ∧ (initRegions s).home.dir = [] ∧ (initRegions s).mem.chans = s.mem.chans :=
  ⟨rfl, rfl, rfl⟩

theorem loadSlot0_mem (s : State) : (loadSlot0 s).mem = s.mem := rfl

/-- Memory after its training: empty, every channel online (R242, R553, R554). -/
theorem memoryReady_parts (s : State) :
    let w := (openWord (initRegions (loadSlot0 (trainedChans s)))).2
    w.mem.bytes = [] ∧ w.home.dir = [] ∧ ∀ c < 64, (getChan w c).online = true := by
  obtain ⟨hbytes, hdir, hchans⟩ := initRegions_parts (loadSlot0 (trainedChans s))
  refine ⟨hbytes, hdir, fun c hc => ?_⟩
  have hkept : (openWord (initRegions (loadSlot0 (trainedChans s)))).2.mem.chans = (trainedChans s).mem.chans :=
    hchans.trans (congrArg Memory.chans (loadSlot0_mem _))
  rw [getChan_of_chans hkept]
  exact trainedChans_online s hc

theorem endStep_memory (s : State) (st result : Nat) (ws : List Word) :
    (endStep s st result ws).power.step = st ∧ (endStep s st result ws).mem = s.mem ∧
      (endStep s st result ws).home = s.home := by
  rw [endStep_eq]
  exact ⟨rfl, rfl, rfl⟩

/-- A core after its release: at rest, its store buffer empty; powered where no retirement stands and it is no spare. -/
theorem getCore_released (s : State) {n : Nat} (hn : n < 272) :
    let c := getCore (allCores.foldl releaseCore s) n
    c.run = false ∧ c.buf = [] ∧
      (n % 17 ≠ 16 → Table.get noFlag s.rlx.flash.retired n = false → c.power = true) := by
  have hrlx (t : State) (y : Nat) : (releaseCore t y).rlx = t.rlx := rfl
  let P : State → Prop := fun t => t.rlx = s.rlx → (getCore t n).run = false ∧ (getCore t n).buf = [] ∧
    (n % 17 ≠ 16 → Table.get noFlag s.rlx.flash.retired n = false → (getCore t n).power = true)
  have hself (t : State) : P (releaseCore t n) := fun h => by
    rw [hrlx] at h
    unfold releaseCore
    rw [getCore_updCore_self, h]
    dsimp only
    split
    next hgone => exact ⟨rfl, rfl, fun _ hstay => Bool.noConfusion (hstay.symm.trans hgone)⟩
    next hstay =>
      split
      next hspare =>
        split
        · exact ⟨rfl, rfl, fun _ _ => rfl⟩
        · exact ⟨rfl, rfl, fun h => absurd hspare h⟩
      next => exact ⟨rfl, rfl, fun _ _ => rfl⟩
  refine foldl_brings (P := P) (List.mem_range.mpr hn) hself (fun t y h => ?_) s (foldl_part (·.rlx) hrlx _ s)
  by_cases hy : n = y
  · exact hy ▸ hself t
  · intro hsame
    have hcore : getCore (releaseCore t y) n = getCore t n := by
      unfold releaseCore
      rw [getCore_updCore_eq, if_neg hy]
    rw [hcore]
    exact h hsame

/-- The lower of a device and what stood lowest before it. -/
def lowerDev (b : Option Nat) (d : Nat) : Option Nat :=
  match b with
  | some x => some (min x d)
  | none => some d

theorem lowestDev_eq (ds : List Nat) : lowestDev ds = ds.foldl lowerDev none := rfl

theorem foldl_lowerDev_above {d : Nat} (ds : List Nat) (b : Option Nat) (hds : ∀ x ∈ ds, d < x) (hb : ∀ x ∈ b, d < x) :
    ∀ x ∈ ds.foldl lowerDev b, d < x := by
  induction ds generalizing b with
  | nil => exact hb
  | cons y ds ih =>
    obtain ⟨hy, hds⟩ := List.forall_mem_cons.mp hds
    refine ih _ hds fun x hx => ?_
    cases b with
    | none =>
      cases hx
      exact hy
    | some z =>
      cases hx
      exact lt_min (hb z rfl) hy

/-- The lowest of some devices and one below them all is that one. -/
theorem lowestDev_append {ds : List Nat} {d : Nat} (h : ∀ x ∈ ds, d < x) : lowestDev (ds ++ [d]) = some d := by
  rw [lowestDev_eq, List.foldl_append]
  have habove := foldl_lowerDev_above ds none h (fun _ hx => nomatch hx)
  cases hlow : ds.foldl lowerDev none with
  | none => rfl
  | some x => exact congrArg some (min_eq_right (habove x hlow).le)

/-- The election where no master has been heard and no eligible device is lower: this module is the master (R29, R559). -/
theorem elect_self {s : State} {eligible : List Nat} (hnone : s.mer.masterId = none)
    (hstrap : s.power.straps.masterEn = true) (habove : ∀ d ∈ eligible, s.devId < d) :
    (elect s eligible).fab = s.fab ∧ (elect s eligible).mer.masterId = some s.devId ∧
      (elect s eligible).mer.role = 2 ∧ (elect s eligible).power.step = 6 := by
  have hlow : lowestDev (eligible.filter (· != s.devId) ++ [s.devId]) = some s.devId :=
    lowestDev_append fun d hd => habove d (List.mem_filter.mp hd).1
  unfold elect
  rw [hnone, if_pos hstrap]
  dsimp only
  rw [hlow]
  dsimp only
  rw [if_pos rfl, endStep_eq]
  exact ⟨rfl, rfl, rfl, rfl⟩

theorem endStep_keeps (s : State) (st result : Nat) (ws : List Word) :
    (endStep s st result ws).fab = s.fab ∧ (endStep s st result ws).mer = s.mer ∧
      (endStep s st result ws).devId = s.devId ∧ (endStep s st result ws).power.straps = s.power.straps := by
  rw [endStep_eq]
  exact ⟨rfl, rfl, rfl, rfl⟩

/-- A partner that is found, or that was missing before, is no fault. -/
theorem setPartner_quiet {s : State} {p : Option Nat} (h : p.isSome = true ∨ s.fab.unmirrored = true) :
    setPartner s p = { s with fab := { s.fab with partner := p, unmirrored := p.isNone } } := by
  refine if_neg ?_
  rintro ⟨hp, hm⟩
  rcases h with h | h
  · exact Option.isSome_iff_ne_none.mp h (Option.isNone_iff_eq_none.mp hp)
  · exact Bool.noConfusion (hm.symm.trans h)

theorem failed_of_atStep {s : State} {n : Nat} (h : atStep s n = true) : s.power.failed = false := by
  simp only [atStep, Bool.and_eq_true, Bool.not_eq_true'] at h
  exact h.1.1.2

/-- The meridian has locked, and the step has ended (R557). -/
theorem lockStep_mer (s : State) (ws : State → List Word) :
    (endStep (logMeridian { s with mer := { s.mer with locked := true } } 1) 7 0
      (ws (logMeridian { s with mer := { s.mer with locked := true } } 1))).mer = { s.mer with locked := true } := by
  rw [endStep_eq]
  exact logMeridian_mer ..

/-- The release of the cores, before the start images are loaded (R558). -/
def coresReleased (s : State) : State :=
  (List.range 20).foldl (fun s d => updDom s d (fun x => { x with state := 1 }))
    (allCores.foldl releaseCore (endStep (startCounters s) 9 0 []))

/-- A counter starts at its recorded value plus 2^32, unless it has passed that (R47). -/
def startCounter (s : State) (k n : Nat) : State :=
  if counterLater (counterWidth k) (counterOf s k) n then s
  else { s with counters := Table.set counterStart s.counters k n }

theorem startCounter_rlx (s : State) (k n : Nat) : (startCounter s k n).rlx = s.rlx := by
  unfold startCounter
  split <;> rfl

theorem startCounters_eq (s : State) : startCounters s = s.marks.foldl (fun s e =>
    startCounter s e.1 ((e.2 + 2 ^ 32) % 2 ^ counterWidth e.1)) s := rfl

theorem startCounters_rlx (s : State) : (startCounters s).rlx = s.rlx := by
  rw [startCounters_eq]
  generalize s.marks = ms
  induction ms generalizing s with
  | nil => rfl
  | cons e ms ih =>
    rw [List.foldl_cons, ih]
    exact startCounter_rlx ..

theorem releaseFold_parts (ns : List Nat) (s : State) :
    (ns.foldl releaseCore s).power = s.power ∧ (ns.foldl releaseCore s).rlx = s.rlx :=
  ⟨foldl_part (f := releaseCore) (·.power) (fun _ _ => rfl) ns s,
    foldl_part (f := releaseCore) (·.rlx) (fun _ _ => rfl) ns s⟩

theorem updDoms_parts (ds : List Nat) (f : Domain → Domain) (s : State) :
    let t := ds.foldl (fun s d => updDom s d f) s
    t.power = s.power ∧ t.rlx = s.rlx ∧ t.cores = s.cores := by
  have hstep (part : State → Prod Power (Prod Relrax (Table Core))) := foldl_part part (f := fun s d => updDom s d f)
  have hparts := hstep (fun s => (s.power, s.rlx, s.cores)) (fun _ _ => rfl) ds s
  exact ⟨congrArg (·.1) hparts, congrArg (·.2.1) hparts, congrArg (·.2.2) hparts⟩

theorem coresReleased_parts (s : State) : (coresReleased s).power.step = 9 ∧ (coresReleased s).rlx = s.rlx ∧
    ∀ n < 272, let c := getCore (coresReleased s) n
      c.run = false ∧ c.buf = [] ∧
        (n % 17 ≠ 16 → Table.get noFlag s.rlx.flash.retired n = false → c.power = true) := by
  have hend : (endStep (startCounters s) 9 0 []).rlx = s.rlx ∧ (endStep (startCounters s) 9 0 []).power.step = 9 := by
    rw [endStep_eq]
    exact ⟨startCounters_rlx s, rfl⟩
  obtain ⟨hrlx, hstep⟩ := hend
  obtain ⟨hpower, hrlx'⟩ := releaseFold_parts allCores (endStep (startCounters s) 9 0 [])
  have hreleased (n : Nat) (hn : n < 272) := getCore_released (endStep (startCounters s) 9 0 []) hn
  rw [hrlx] at hreleased hrlx'
  unfold coresReleased
  generalize allCores.foldl releaseCore (endStep (startCounters s) 9 0 []) = w at *
  obtain ⟨hpower', hrlx'', hcores⟩ := updDoms_parts (List.range 20) (fun x => { x with state := 1 }) w
  refine ⟨?_, hrlx''.trans hrlx', fun n hn => ?_⟩
  · rw [hpower', hpower, hstep]
  · rw [getCore_of_cores hcores]
    exact hreleased n hn

/-- The quadrants with a powered core and the spares in use are counted. -/
def unitsCounted (s : State) : State :=
  let q := fun (i : Nat) => (quadCores i).any (fun n => (getCore s n).power)
  { s with
    quadOnline := quads.foldl (fun a i => if q i then a + 2 ^ i else a) 0
    spareInUse := sparesAtStart s }

/-- The state in which the start images are read. -/
def imagesNext (s : State) : State := unitsCounted (coresReleased s)

theorem unitsCounted_power (s : State) : (unitsCounted s).power = s.power := rfl
theorem unitsCounted_rlx (s : State) : (unitsCounted s).rlx = s.rlx := rfl
theorem unitsCounted_cores (s : State) : (unitsCounted s).cores = s.cores := rfl

theorem imagesNext_parts (s : State) : (imagesNext s).power.step = 9 ∧ (imagesNext s).rlx = s.rlx ∧
    ∀ n < 272, let c := getCore (imagesNext s) n
      c.run = false ∧ c.buf = [] ∧
        (n % 17 ≠ 16 → Table.get noFlag s.rlx.flash.retired n = false → c.power = true) := by
  obtain ⟨hstep, hrlx, hcores⟩ := coresReleased_parts s
  unfold imagesNext
  refine ⟨?_, (unitsCounted_rlx _).trans hrlx, fun n hn => ?_⟩
  · rw [unitsCounted_power]
    exact hstep
  · rw [getCore_of_cores (unitsCounted_cores _)]
    exact hcores n hn

/-- The start images are loaded, and step 10 ends (R558). -/
def loadImages (s : State) : State :=
  let s := match s.rlx.flash.bonded with
    | some ws => loadBonded s ws
    | none => s
  let s := match s.rlx.flash.loader with
    | some ws => if isMaster s ∧ s.vin.vintage = 0 then loadSystem s ws else s
    | none => s
  endStep s 10 0 []

theorem loadImages_none {s : State} (hbonded : s.rlx.flash.bonded = none) (hloader : s.rlx.flash.loader = none) :
    loadImages s = endStep s 10 0 [] := by
  unfold loadImages
  dsimp only
  rw [hbonded]
  dsimp only
  rw [hloader]

theorem exec_coreRelease {s : State} (ok : Bool) (hat : atStep s 8 = true) : exec (.coreRelease ok) s = .next (
    if ok = false then faultAt (failStep (imagesNext s) 10 []) 0x12 2 0 0 0 3 0 else loadImages (imagesNext s)) := by
  show execCoreRelease ok s = _
  unfold execCoreRelease imagesNext coresReleased unitsCounted loadImages
  rw [if_neg (by rw [hat]; exact Bool.noConfusion)] <;> dsimp only <;>
    generalize (List.range 20).foldl (fun s d => updDom s d (fun x => { x with state := 1 }))
      (allCores.foldl releaseCore (endStep (startCounters s) 9 0 [])) = w <;> rfl

/-- With no start image of either kind, the step ends at once. -/
theorem exec_coreRelease_noImage {s : State} (hat : atStep s 8 = true) (hbonded : (imagesNext s).rlx.flash.bonded = none)
    (hloader : (imagesNext s).rlx.flash.loader = none) :
    exec (.coreRelease true) s = .next (endStep (imagesNext s) 10 0 []) := by
  rw [exec_coreRelease true hat, ← loadImages_none hbonded hloader]
  generalize imagesNext s = w
  rfl

/-- What a step that exceeds its budget leaves (R556). -/
def stepOver (s : State) (n : Nat) : State :=
  match n with
  | 1 => failStep { s with power := { s.power with bootRom := true } } 1 []
  | 3 => faultAt (failStep (mainOff s) 3 []) 0x15 5 0 0 0 0 0
  | 4 => faultAt (failStep s 4 [memChon s, 0, 0, 0]) 0x06 5 0 0 0 0 0
  | 5 =>
    let t := failStep s 5 [hzStat s, hzCfg s, idnLoc s, 0]
    if s.rlx.flash.sizes.any (fun k => decide (1 < k)) ∧ upPorts s = [] then isolateModule t else t
  | 7 => faultAt (failStep s 7 (merWords s)) 0x10 5 0 0 0 0 0
  | 8 => if s.vin.divergent then s
    else startEntry { s with vin := { s.vin with divergent := true } } 8 3 (merWords s)
  | _ => failStep s n (if n = 6 then merWords s else [])

theorem exec_stepTimeout {s : State} {n b : Nat} (hn : s.power.step + 1 = n) (hbudget : startBudget n = some b)
    (hat : atStep s s.power.step = true) (hlate : b ≤ since s s.power.stepAt) :
    exec .startupStepTimeout s = .next (stepOver s n) := by
  have hprev : n - 1 = s.power.step := by omega
  show execStartupStepTimeout s = _
  unfold execStartupStepTimeout
  dsimp only
  rw [hn, hbudget]
  dsimp only
  rw [if_neg]
  · rfl
  · rw [hprev]
    rintro (h | h)
    · exact Bool.noConfusion (hat.symm.trans h)
    · exact Nat.not_lt.mpr hlate h

/-- A system of one module has no link that could miss. -/
theorem cabled_false {sizes : List Nat} (h : ∀ k ∈ sizes, k ≤ 1) : sizes.any (fun k => decide (1 < k)) = false :=
  List.any_eq_false.mpr fun k hk => by simpa using h k hk

/-- Settles O60: each row's branch is decided by its hypotheses; a report while the main rails are off is `fault_dark`. -/
theorem suppliesResetsAndStartUp : Obligations.SuppliesResetsAndStartUp := by
  unfold Obligations.SuppliesResetsAndStartUp
  refine ⟨?powerOn, ?powerLoss, ?resetL, ?pwrOk, ?pwrLost, ?therm, ?links, ?inbound, ?boot, ?rails, ?memory, ?discovery,
    ?lock, ?timeouts, ?release⟩
  case powerOn =>
    intro straps s hdown
    refine ⟨_, congrArg Host.Outcome.next (if_neg (by simp [hdown])), ?_⟩
    obtain ⟨⟨_, _, _, _, _, _, _, ht, hsegs, -⟩, -⟩ := beginStartUp_dark (s := { State.reset with
      part := s.part
      power := { Power.reset with standby := true, pwrOk := s.power.pwrOk }
      counters := Table.mapListed counterStart (fun k m => (m + 2 ^ 32) % 2 ^ counterWidth k) s.marks
      marks := s.marks
      cores := Table.mapListed Core.reset coldCore s.cores
      rlx := { Relrax.reset with flash := s.rlx.flash }
      log := s.log
      fresh := s.fresh
      pending := s.pending }) straps 1 rfl
    dsimp only
    rw [ht]
    exact ⟨rfl, rfl, rfl, rfl, rfl, rfl, hsegs⟩
  case powerLoss =>
    intro s hup
    have hrun : ¬ s.power.standby = false := by simp [hup]
    refine ⟨fun hidle => ⟨_, congrArg Host.Outcome.next (if_neg hrun), ?_⟩,
      fun e hwriting => ⟨_, congrArg Host.Outcome.next (if_neg hrun), ?_⟩⟩
    · dsimp only
      rw [hidle]
      exact ⟨rfl, rfl, rfl, rfl, rfl, rfl⟩
    · dsimp only
      rw [hwriting]
      exact ⟨rfl, rfl, rfl, rfl, rfl⟩
  case resetL =>
    intro ns straps s
    refine ⟨fun hshort => ⟨_, if_pos (.inl hshort), rfl⟩, fun hlong hmid hup => ?_, fun hlong hup => ?_⟩
    · exact (if_neg (by simp [hup, Nat.not_lt.mpr hlong])).trans (if_pos hmid)
    · refine ⟨moduleReset s straps 2, ?_, rfl, ?_⟩
      · exact (if_neg (by simp [hup]; omega)).trans (if_neg (Nat.not_lt.mpr hlong))
      · rw [moduleReset_eq]
        obtain ⟨⟨_, _, _, _, _, _, _, ht, -⟩, hflt⟩ := beginStartUp_dark (s := resetDomain s) straps 2 rfl
        refine ⟨?_, ?_, ?_, ?_, fun h3 => by rw [hflt h3]; rfl⟩
        all_goals
          rw [ht]
          rfl
  case pwrOk =>
    intro s hup hlow
    have hgo : ¬ (s.power.standby = false ∨ s.power.pwrOk) := by simp [hup, hlow]
    refine ⟨fun hstop hcause => ⟨_, congrArg Host.Outcome.next (if_neg hgo), ?_⟩,
      fun hrun => ⟨_, congrArg Host.Outcome.next (if_neg hgo), ?_⟩,
      fun hstop hcause => ⟨_, congrArg Host.Outcome.next (if_neg hgo), ?_⟩⟩
    · simp [hstop, hcause]
    · simp [hrun]
    · simp [hstop, hcause]
  case pwrLost =>
    intro s hpwr
    have hgo : ¬ s.power.pwrOk = false := by simp [hpwr]
    refine ⟨fun hoff => ⟨_, congrArg Host.Outcome.next ((if_neg hgo).trans (if_pos hoff)), rfl⟩,
      fun hon => ⟨_, congrArg Host.Outcome.next ((if_neg hgo).trans (if_neg ?_)), ?_⟩⟩
    · exact fun h => Bool.noConfusion (hon.symm.trans h)
    · obtain ⟨hpower, -⟩ := endMainCmds_parts { s with power := { s.power with pwrOk := false } }
      generalize endMainCmds { s with power := { s.power with pwrOk := false } } = u at hpower ⊢
      have hlow : (mainOff u).power.pwrOk = false := congrArg Power.pwrOk hpower
      have hlost (w : Nat) := supplyFault_mainLost (s := { mainOff u with
        power := { (mainOff u).power with failed := false, stepAt := now (mainOff u), cause := w } }) 5 rfl hlow rfl
        (coresRest_mainOff u)
      dsimp only
      split
      · exact hlost _
      · exact tryStep2_mainLost true (hlost _)
  case therm =>
    intro s hup hcool
    refine ⟨_, congrArg Host.Outcome.next (if_neg (by simp [hup, hcool])), ?_⟩
    dsimp only
    have hoff : (if s.power.rails = true then mainOff (endMainCmds s) else s).power.rails = false := by
      split
      · rfl
      · rename_i h
        exact Bool.eq_false_iff.mpr h
    generalize (if s.power.rails = true then mainOff (endMainCmds s) else s) = u at hoff ⊢
    obtain ⟨⟨_, _, _, _, _, _, _, ht, -⟩, hstop⟩ := supplyFault_dark
      (s := { u with power := { u.power with thermTrip := true, cause := 6 } }) 6 hoff
    rw [hstop, ht]
    exact ⟨rfl, hoff, rfl, rfl⟩
  case links =>
    intro c s hc
    have hc2 : ¬ 2 ≤ c := Nat.not_le.mpr hc
    refine ⟨fun hend => ⟨_, congrArg Host.Outcome.next (if_neg (by simp [hc2, hend])), ?_⟩,
      fun hend hon => ⟨_, congrArg Host.Outcome.next (if_neg (by simp [hc2, hend, hon])), ?_⟩,
      fun hon hlate hroot hen => ⟨_, congrArg Host.Outcome.next (if_neg ?_), ?_⟩,
      fun hup => ⟨_, congrArg Host.Outcome.next (if_neg (by simp [hc2, hup])), rfl⟩,
      fun sp w hon hrun hperst hlink => ⟨_, congrArg Host.Outcome.next (if_neg ?_), ?_⟩⟩
    · rw [getPcie_updPcie_self]
    · rw [getPcie_updPcie_self]
    · rintro (h | h)
      · exact Bool.noConfusion (hon.symm.trans h)
      · exact Nat.not_lt.mpr hlate h
    · exact getPcie_released hc hroot hen
    · rcases hlink with h | h <;> simp [hc2, hon, hrun, hperst, h]
    · rw [getPcie_updPcie_self]
  case inbound =>
    intro r s hctl hup hroot hwin
    refine ⟨fun hmiss => ⟨_, exec_inbound_refused hctl hup hroot hwin hmiss, rfl⟩, fun a z hhit => ?_⟩
    intro st u
    have hexec := exec_inbound_hit hctl hup hroot hwin hhit
    refine ⟨fun bs w d hwrite heng => ⟨_, hexec, ?_⟩, fun w d hread heng => ⟨_, hexec, ?_⟩,
      fun bs w e hwrite heng => ⟨_, hexec, ?_⟩⟩
    · have hacc : inboundAccess r u a z st = (.ok d, w) := by
        unfold inboundAccess
        rw [hwrite]
        exact heng
      rw [hacc]
      rfl
    · have hacc : inboundAccess r u a z st = (.ok d, w) := by
        unfold inboundAccess
        rw [hread]
        exact heng
      rw [hacc]
      rfl
    · have hacc : inboundAccess r u a z st = (.err e, w) := by
        unfold inboundAccess
        rw [hwrite]
        exact heng
      rw [hacc]
      rfl
  case boot =>
    intro s hat hdown hrom
    have hgo : ¬ (atStep s 0 = false ∨ s.rlx.running ∨ s.power.bootRom) := by simp [hat, hdown, hrom]
    refine ⟨⟨_, congrArg Host.Outcome.next (if_neg hgo), ?_⟩, ⟨_, congrArg Host.Outcome.next (if_neg hgo), ?_⟩,
      ⟨_, congrArg Host.Outcome.next (if_neg hgo), ?_⟩⟩
    · dsimp only
      rw [tryStep2_rlx, endStep_eq, openLog_log]
      refine ⟨rfl, rfl, rfl, le_trans ?_ (step_le_tryStep2 _ true)⟩
      exact le_rfl
    · dsimp only
      rw [tryStep2_rlx, endStep_eq, openLog_log]
      exact ⟨rfl, rfl, rfl⟩
    · dsimp only
      rw [failStep_eq, openLog_log]
      exact ⟨rfl, rfl, hdown⟩
  case rails =>
    intro s hat hpwr hboot
    refine ⟨_, congrArg Host.Outcome.next (if_neg (by simp [hat, hpwr, hboot])), ?_⟩
    dsimp only
    rw [endStep_eq]
    obtain ⟨hpower, hmesh, hsizes⟩ := startPorts_keep s.rlx.flash ports { s with
      power := { s.power with rails := true, railsAt := now s, selfRefresh := false }
      fab := { s.fab with
        mesh := s.rlx.flash.mesh, sizes := s.rlx.flash.sizes, bestSerial := s.part.serial
        bestMaster := s.power.straps.masterEn, bestAt := now s } }
    exact ⟨congrArg Power.rails hpower, rfl, hmesh, hsizes⟩
  case memory =>
    intro n s hat
    have hgo : ¬ atStep s 3 = false := by simp [hat]
    refine ⟨⟨_, congrArg Host.Outcome.next ((if_neg hgo).trans (if_neg Bool.false_ne_true)), ?_⟩,
      ⟨_, congrArg Host.Outcome.next ((if_neg hgo).trans (if_pos rfl)), rfl⟩⟩
    obtain ⟨hbytes, hdir, honline⟩ := memoryReady_parts s
    dsimp only
    generalize (openWord (initRegions (loadSlot0 (trainedChans s)))).1 = word
    generalize (openWord (initRegions (loadSlot0 (trainedChans s)))).2 = w at *
    obtain ⟨hstep, hmem, hhome⟩ := endStep_memory w 4 (if n = 0 then 0 else 1) [memChon w, BitVec.ofNat 64 n, word, 0]
    rw [hstep, hmem, hhome]
    refine ⟨rfl, hbytes, hdir, fun c hc => ?_⟩
    rw [getChan_of_chans (congrArg Memory.chans hmem)]
    exact honline c hc
  case discovery =>
    intro g s hat hval hone f w₀ w x
    have hexec : exec (.discoveryDone g) s = .next (elect (endStep x 5 0 [hzStat x, hzCfg x, idnLoc x, 0]) g.eligible) := by
      refine congrArg Host.Outcome.next ((if_neg (by simp [hat])).trans ((if_neg ?_).trans (if_neg (by simp [hval]))))
      rintro ⟨h, -⟩
      exact Bool.noConfusion ((cabled_false hone).symm.trans h)
    refine ⟨⟨_, hexec, rfl⟩, fun hpartner hnone hstrap habove => ⟨_, hexec, ?_⟩⟩
    have hx : x = { w with fab := { w.fab with partner := pickPartner w, unmirrored := (pickPartner w).isNone } } :=
      setPartner_quiet hpartner
    obtain ⟨hfab, hmer, hdev, hstraps⟩ := endStep_keeps x 5 0 [hzStat x, hzCfg x, idnLoc x, 0]
    have hxmer : x.mer.masterId = none := by rw [hx]; exact hnone
    have hxdev : x.devId = s.devId := by rw [hx]; rfl
    have hxstrap : x.power.straps.masterEn = true := by rw [hx]; exact hstrap
    obtain ⟨hfab', hmaster, hrole, hstep⟩ := elect_self (eligible := g.eligible) (by rw [hmer]; exact hxmer)
      (by rw [hstraps]; exact hxstrap) (by rw [hdev, hxdev]; exact habove)
    rw [hfab', hfab, hmaster, hdev, hxdev]
    refine ⟨?_, ?_, rfl, hrole, hstep⟩
    · rw [hx]
    · rw [hx]
      rfl
  case lock =>
    intro s hat
    have hmer := lockStep_mer s merWords
    have hsame : isMaster (endStep (logMeridian { s with mer := { s.mer with locked := true } } 1) 7 0
        (merWords (logMeridian { s with mer := { s.mer with locked := true } } 1))) = isMaster s := by
      unfold isMaster
      rw [hmer]
    refine ⟨fun hslave hgood => ⟨_, congrArg Host.Outcome.next ((if_neg (by simp [hat, hgood])).trans (if_neg ?_)), ?_⟩,
      fun hmaster => ⟨_, congrArg Host.Outcome.next ((if_neg (by simp [hat, hmaster])).trans (if_pos ?_)), rfl⟩⟩
    · exact fun h => Bool.noConfusion (hslave.symm.trans (hsame.symm.trans h))
    · rw [hmer, endStep_eq]
      exact ⟨rfl, rfl⟩
    · exact hsame.trans hmaster
  case timeouts =>
    intro b s hbudget hat hlate
    have hexec {n : Nat} (hn : s.power.step + 1 = n) : exec .startupStepTimeout s = .next (stepOver s n) :=
      exec_stepTimeout hn (hn ▸ hbudget) hat hlate
    refine ⟨fun hstep => ?_, fun hstep => ?_, fun hstep => ?_, fun hstep hcabled => ?_, fun hstep => ?_,
      fun hstep hagreed => ?_⟩
    · rcases hstep with h | h | h | h
      all_goals
        refine ⟨_, hexec (congrArg (· + 1) h), ?_⟩
        simp only [stepOver]
        rw [failStep_eq]
        exact ⟨rfl, rfl⟩
    · refine ⟨_, hexec (congrArg (· + 1) hstep), rfl, ?_⟩
      obtain ⟨⟨_, _, _, _, _, _, _, ht, -⟩, -⟩ := faultAt_dark (s := { mainOff s with
        log := (startEntry (mainOff s) 3 2 []).log
        power := { (mainOff s).power with failed := true, stepAt := now (mainOff s) } }) 0x15 5 0 0 0 0 rfl
      simp only [stepOver]
      rw [failStep_eq, ht]
      exact ⟨rfl, rfl⟩
    · exact ⟨_, hexec (congrArg (· + 1) hstep), rfl⟩
    · refine ⟨_, hexec (congrArg (· + 1) hstep), if_neg ?_⟩
      rintro ⟨h, -⟩
      exact Bool.noConfusion ((cabled_false hcabled).symm.trans h)
    · exact ⟨_, hexec (congrArg (· + 1) hstep), rfl⟩
    · refine ⟨_, (hexec (congrArg (· + 1) hstep)).trans (congrArg Host.Outcome.next (if_neg (by simp [hagreed]))), ?_⟩
      rw [startEntry_log]
      exact ⟨rfl, failed_of_atStep hat⟩
  case release =>
    intro s hat
    obtain ⟨hstep, hrlx, hcores⟩ := imagesNext_parts s
    have hbad := exec_coreRelease false hat
    have hgood := exec_coreRelease_noImage hat
    rw [hrlx] at hgood
    generalize imagesNext s = w at *
    refine ⟨⟨w, _, hbad, hstep, fun n hn => (hcores n hn).1, rfl⟩, fun hbonded hloader => ⟨_, hgood hbonded hloader, ?_⟩⟩
    have hended : (endStep w 10 0 []).power.step = 10 ∧ (endStep w 10 0 []).cores = w.cores := by
      rw [endStep_eq]
      exact ⟨rfl, rfl⟩
    refine ⟨hended.1, fun n hn hspare hstay => ?_⟩
    obtain ⟨hrest, hbuf, hpower⟩ := hcores n hn
    rw [getCore_of_cores hended.2]
    exact ⟨hpower hspare hstay, hrest, hbuf⟩

end Sys2Proof.Machine
end
